-- ==== Sys2Proof/Word.lean ====
section
/-!
DEFINITION. Word.lean: the word types of the part (spec/00_scope.md R7) and the small enumerations that the
operands of its instructions range over (spec/02_encoding.md). They hold names, not raw encodings: the decoder
turns bits into these, and the machine never sees an encoding.
-/

namespace Sys2Proof

/-- A byte, 8 bits (R7). -/
abbrev Byte := BitVec 8
/-- A word, 32 bits (R7). -/
abbrev Word := BitVec 32
/-- A dword, 64 bits (R7). -/
abbrev Dword := BitVec 64
/-- One bit a lane of a group, bit l for LANEIX l (R87). -/
abbrev Mask := BitVec 64
/-- A register field: v0-v63 or s0-s63 (R45). -/
abbrev Reg := BitVec 6
/-- A predicate p0-p15 or g0-g15 (R41, R64). -/
abbrev Pred := BitVec 4
/-- A predicate pair (R50). -/
abbrev PairIx := BitVec 3
/-- A column of a facet (R63). -/
abbrev Col := BitVec 2
/-- A tile handle t0-t255 (R66). -/
abbrev Handle := BitVec 8
/-- An x register of a column (R66). -/
abbrev XReg := BitVec 5

/-- The operand class of the last source, and with it of the whole instruction (R44):
all lane registers, a uniform last source, all uniform, or a literal word (format X). -/
inductive Src
  | vv (b : Reg)
  | vs (b : Reg)
  | ss (b : Reg)
  | lit (w : Word)
  deriving DecidableEq, Repr

/-- The float types of FCMP, the special functions and PFMA (R50, R53). -/
inductive FloatTy
  | f32 | f16 | bf16
  deriving DecidableEq, Repr

/-- The type codes of typed CVT (R54), in the order of their codes. -/
inductive CvtTy
  | f32 | f16 | bf16 | e4m3 | e5m2 | s8 | s16 | s32 | s64 | z8 | z16 | z32 | z64
  deriving DecidableEq, Repr

/-- The formats of R37, in the order of their codes 0x0-0xA. -/
inductive Fmt
  | fp32 | fp16 | bf16 | e4m3 | e5m2 | qf4 | mxE4M3 | mxE5M2 | mxE2M3 | mxE3M2 | mxE2M1
  deriving DecidableEq, Repr

/-- The conditions of ICMP (R50). -/
inductive ICond
  | eq | ne | lt | le | gt | ge
  deriving DecidableEq, Repr

/-- The conditions of FCMP (R50, R123): unordered and ordered besides the six. -/
inductive FCond
  | eq | ne | lt | le | gt | ge | un | or
  deriving DecidableEq, Repr

/-- The conditions of SCMP (R66): signed, and the two unsigned ones. -/
inductive SCond
  | eq | ne | lt | le | gt | ge | ltu | geu
  deriving DecidableEq, Repr

/-- Element widths of the packed family (R52). -/
inductive EWidth
  | e4 | e8 | e16
  deriving DecidableEq, Repr

/-- The operations of REDUX and SCAN (R56), in the order of FN. -/
inductive RedOp
  | iadd | and | or | xor | imaxS | iminS | imaxZ | iminZ | fadd | fmax | fmin
  deriving DecidableEq, Repr

/-- Access widths (R58). -/
inductive MWidth
  | b | h | w | d | q
  deriving DecidableEq, Repr

/-- The ordering field of a global access (R58): `sync` is .ACQ on a load and .REL on a store. -/
inductive MOrd
  | plain | sync | nt
  deriving DecidableEq, Repr

/-- The comparisons of WAITC (R60). -/
inductive WCmp
  | eq | ne | ltS | ltZ | geS | geZ
  deriving DecidableEq, Repr

/-- The special registers of R62, in the order of their numbers. -/
inductive SpecReg
  | laneix | widlo | widhi | gwidth | splitix | coreix | clusix | dieix | clk | ejt | jto | accown
  deriving DecidableEq, Repr

/-- The flags of an atomic (R168). -/
structure AtomFlags where
  acq : Bool
  rel : Bool
  ord : Bool
  deriving DecidableEq, Repr

/-- The shapes of TMMA (R251). -/
inductive Shape
  | s1 | s2 | s4
  deriving DecidableEq, Repr

/-- The reductions of VRED (R66). -/
inductive VRedKind
  | sum | max | min
  deriving DecidableEq, Repr

/-- The fields of a V-slot word (R66, R256): OD, OS, the mask and F. -/
structure VFields where
  od : Handle
  os : Handle
  m : BitVec 3
  f : BitVec 3
  deriving DecidableEq, Repr

/-- A party of a tile hand-over that can wait (R202): a split of a group, or the STAKE of a column. -/
inductive Party
  | split (g k : Nat)
  | seqr (c : Nat)
  deriving DecidableEq, Repr

/-- A parked unit as RESUME names it (R331): a split, the sequencer, a comet context, or an engine operation stopped at
a fault, which service has mended or declares unrecoverable (R219; log 9). -/
inductive ParkUnit
  | split (g k : Nat)
  | seqr
  | comet (c : Nat)
  | engine (id : Nat) (mended : Bool)
  deriving DecidableEq, Repr

/-- The operation of an atomic (R170). -/
inductive AtomFn
  | add | minS | minZ | maxS | maxZ | and | or | xor | exch | incw | decw | addb | cas
  deriving DecidableEq, Repr

/-- What a host thread or another package does to memory (R315, R414, R425, R427): an atomic has its operand and, for
a compare-and-swap, the new value (for ADDB the bound). -/
inductive HostOp
  | load
  | store (v : BitVec 128)
  | atom (f : AtomFn) (v b : BitVec 128)
  deriving DecidableEq, Repr

/-- What the FEC of a fabric port finds in a flit (R420, R421). -/
inductive Fec
  | clean | corrected | failed
  deriving DecidableEq, Repr

/-- How a host or remote completion comes back (R414, R421, R425). -/
inductive Completion
  | ok | unsupported | aborted
  deriving DecidableEq, Repr

/-- The interfaces of BAR0 that hold registers (20 R403, 21 R423), the registers of a Meridian in the telemetry interface among
them. -/
inductive HubIface
  | facet | partition | translation | memory | boot | fabric
  | meridian (m : Nat)
  deriving DecidableEq, Repr

/-- The registers of the hub's interfaces (R403, R406, R407, R368, R377, R379, R415, R416, R418, R419, R423), each by its name or
by its offset in its interface. -/
inductive HubReg
  | at (i : HubIface) (offset : Nat)
  | fctl (facet : Nat)
  | tvec (facet : Nat)
  | ptag (p : Nat)
  | comet (p : Nat)
  | enbud (p : Nat)
  | pqbase (p : Nat)
  | pqcap (p : Nat)
  | plim (p : Nat)
  | slice (p : Nat)
  | vfPart (vf : Nat)
  | s1root (vf : Nat)
  | s2root (vf : Nat)
  | s2en (vf : Nat)
  | wayMask (die vf : Nat)
  | monq (die p : Nat)
  | biasBase
  | hostcap
  | tapdrop (m : Nat)
  | qdrop (m : Nat)
  | mbud (m p : Nat)
  | dropb (m p : Nat)
  | fabid
  | route (t : Nat)
  | expBase (e : Nat)
  | expLen (e : Nat)
  | expTag (e : Nat)
  | cmode (core : Nat)
  | cmerr (core : Nat)
  | fown (facet : Nat)
  | floor (p d : Nat)
  | enused (p : Nat)
  | pqhead (p : Nat)
  | pqtail (p : Nat)
  | monuse (die p : Nat)
  | bootst
  | integrity (n : Nat)
  | mctl (m : Nat)
  | wptr (m : Nat)
  | pctl (q : Nat)
  | pstat (q : Nat)
  deriving DecidableEq, Repr

end Sys2Proof
end

