-- ==== Sys2Proof/Syntax.lean ====
section
/-!
DEFINITION. Syntax.lean: the instructions of the part, one constructor for each row of spec/opcode_table.json.

Four kinds of row stand in the table. Lane instructions carry their guard `g` and operand fields (02 R41-R62).
Slot instructions of a sequencer bundle carry their column `c`, their guard `g` and their fields (02 R63-R66).
Filter words carry the fields of 17 R364. The remaining rows are steps that the machine takes of itself, and
inputs from outside it (95_what_each_step_holds.md); they carry the unit or the operation they act on. Operations
in flight are named by the number they got when they were started.
-/

set_option linter.constructorNameAsVariable false

namespace Sys2Proof

/-- One constructor for each row of the opcode table. -/
inductive Instr
  -- integer majors 0x00-0x0F (R47, R97): `w` is the 64-bit form
  | iadd (g : Pred) (w : Bool) (d a : Reg) (src : Src)
  | isub (g : Pred) (w : Bool) (d a : Reg) (src : Src)
  | iaddc (g : Pred) (w : Bool) (d a : Reg) (src : Src)
  | lea (g : Pred) (w : Bool) (d a : Reg) (src : Src)
  | imlo (g : Pred) (w : Bool) (d a : Reg) (src : Src)
  | imhiS (g : Pred) (w : Bool) (d a : Reg) (src : Src)
  | imhiZ (g : Pred) (w : Bool) (d a : Reg) (src : Src)
  | imac (g : Pred) (w : Bool) (d a : Reg) (src : Src)
  | idivS (g : Pred) (w : Bool) (d a : Reg) (src : Src)
  | idivZ (g : Pred) (w : Bool) (d a : Reg) (src : Src)
  | iabs (g : Pred) (w : Bool) (d : Reg) (src : Src)
  | ineg (g : Pred) (w : Bool) (d : Reg) (src : Src)
  | iminS (g : Pred) (w : Bool) (d a : Reg) (src : Src)
  | iminZ (g : Pred) (w : Bool) (d a : Reg) (src : Src)
  | imaxS (g : Pred) (w : Bool) (d a : Reg) (src : Src)
  | imaxZ (g : Pred) (w : Bool) (d a : Reg) (src : Src)
  | and (g : Pred) (w : Bool) (d a : Reg) (src : Src)
  | or (g : Pred) (w : Bool) (d a : Reg) (src : Src)
  | xor (g : Pred) (w : Bool) (d a : Reg) (src : Src)
  | andn (g : Pred) (w : Bool) (d a : Reg) (src : Src)
  | shl (g : Pred) (w : Bool) (d a : Reg) (src : Src)
  | shr (g : Pred) (w : Bool) (d a : Reg) (src : Src)
  | sar (g : Pred) (w : Bool) (d a : Reg) (src : Src)
  | rol (g : Pred) (w : Bool) (d a : Reg) (src : Src)
  | bfxS (g : Pred) (w : Bool) (d a : Reg) (src : Src)
  | bfxZ (g : Pred) (w : Bool) (d a : Reg) (src : Src)
  | bfi (g : Pred) (w : Bool) (d a : Reg) (src : Src)
  | not (g : Pred) (w : Bool) (d : Reg) (src : Src)
  | clz (g : Pred) (w : Bool) (d : Reg) (src : Src)
  | popc (g : Pred) (w : Bool) (d : Reg) (src : Src)
  | brev (g : Pred) (w : Bool) (d : Reg) (src : Src)
  | mov (g : Pred) (w : Bool) (d : Reg) (src : Src)
  -- immediate moves (R105)
  | moviV (g : Pred) (d : Reg) (imm : BitVec 16)
  | movhiV (g : Pred) (d : Reg) (imm : BitVec 16)
  | moviS (g : Pred) (d : Reg) (imm : BitVec 16)
  | movhiS (g : Pred) (d : Reg) (imm : BitVec 16)
  -- compare, select, predicates (R106-R108)
  | icmp (g : Pred) (c : ICond) (k : PairIx) (a : Reg) (src : Src) (u w : Bool)
  | sel (g : Pred) (d a b : Reg) (f : Pred)
  | pand (g : Pred) (k : PairIx) (a b : Pred)
  | por (g : Pred) (k : PairIx) (a b : Pred)
  | pxor (g : Pred) (k : PairIx) (a b : Pred)
  | pnot (g : Pred) (k : PairIx) (a : Pred)
  -- packed integers (R109-R113): `u` unsigned, `sat` the .SAT form
  | padd (g : Pred) (d a b : Reg) (e : EWidth) (u sat : Bool)
  | psub (g : Pred) (d a b : Reg) (e : EWidth) (u sat : Bool)
  | pmul (g : Pred) (d a b : Reg) (e : EWidth) (u sat : Bool)
  | pmin (g : Pred) (d a b : Reg) (e : EWidth) (u : Bool)
  | pmax (g : Pred) (d a b : Reg) (e : EWidth) (u : Bool)
  | pdot (g : Pred) (d a b : Reg) (e : EWidth) (u : Bool)
  | pwiden (g : Pred) (d b : Reg) (e : EWidth) (u : Bool)
  | pnarrow (g : Pred) (d a b : Reg) (e : EWidth) (u : Bool)
  | pcmpEq (g : Pred) (d a b : Reg) (e : EWidth) (u : Bool)
  | pcmpLt (g : Pred) (d a b : Reg) (e : EWidth) (u : Bool)
  -- float arithmetic and compares (R118-R123)
  | fadd (g : Pred) (d a : Reg) (src : Src)
  | fsub (g : Pred) (d a : Reg) (src : Src)
  | fmul (g : Pred) (d a : Reg) (src : Src)
  | ffma (g : Pred) (d a : Reg) (src : Src)
  | fmin (g : Pred) (d a : Reg) (src : Src)
  | fmax (g : Pred) (d a : Reg) (src : Src)
  | fclass (g : Pred) (d : Reg) (src : Src)
  | pfmaF16 (g : Pred) (d a : Reg) (src : Src)
  | pfmaBf16 (g : Pred) (d a : Reg) (src : Src)
  | fcmp (g : Pred) (c : FCond) (k : PairIx) (a : Reg) (src : Src) (t : FloatTy)
  -- special functions (R124)
  | fexp2 (g : Pred) (d a : Reg) (t : FloatTy)
  | flog2 (g : Pred) (d a : Reg) (t : FloatTy)
  | frcp (g : Pred) (d a : Reg) (t : FloatTy)
  | frsq (g : Pred) (d a : Reg) (t : FloatTy)
  | fsqrt (g : Pred) (d a : Reg) (t : FloatTy)
  | fsinpi (g : Pred) (d a : Reg) (t : FloatTy)
  | fcospi (g : Pred) (d a : Reg) (t : FloatTy)
  | ftanh (g : Pred) (d a : Reg) (t : FloatTy)
  | fsigm (g : Pred) (d a : Reg) (t : FloatTy)
  | fgelu (g : Pred) (d a : Reg) (t : FloatTy)
  | fsilu (g : Pred) (d a : Reg) (t : FloatTy)
  | ferf (g : Pred) (d a : Reg) (t : FloatTy)
  -- conversions and the format-word instructions (R114, R127-R133)
  | cvt (g : Pred) (d a : Reg) (dt st : CvtTy) (rz sat : Bool)
  | qscale (g : Pred) (d a b : Reg)
  | qpack (g : Pred) (d a b : Reg)
  | qunpk (g : Pred) (d a b : Reg)
  | cvtFw (g : Pred) (d a b : Reg)
  -- collectives (R116, R135-R137): `x` is .G
  | voteAll (g : Pred) (k : PairIx) (p : Pred) (x : Bool)
  | voteAny (g : Pred) (k : PairIx) (p : Pred) (x : Bool)
  | voteBal (g : Pred) (d : Reg) (p : Pred) (x : Bool)
  | voteEq (g : Pred) (k : PairIx) (p : Pred) (x : Bool)
  | shflIdx (g : Pred) (d a b : Reg) (x : Bool)
  | shflUp (g : Pred) (d a b : Reg) (x : Bool)
  | shflDn (g : Pred) (d a b : Reg) (x : Bool)
  | shflXor (g : Pred) (d a b : Reg) (x : Bool)
  | redux (g : Pred) (d a : Reg) (x : Bool) (k : PairIx) (op : RedOp)
  | scanInc (g : Pred) (d a : Reg) (x : Bool) (k : PairIx) (op : RedOp)
  | scanExc (g : Pred) (d a : Reg) (x : Bool) (k : PairIx) (op : RedOp)
  -- control (R138-R152)
  | bra (g : Pred) (ofs : BitVec 22)
  | braEj (g : Pred) (n : BitVec 2) (ofs : BitVec 20)
  | call (g : Pred) (ofs : BitVec 22)
  | brx (g : Pred) (a : Reg)
  | callx (g : Pred) (a : Reg)
  | ret (g : Pred)
  | join (g : Pred)
  | exit (g : Pred)
  | eret (g : Pred)
  | live (g : Pred) (n : BitVec 2) (a : Reg)
  | yield (g : Pred)
  | trap (g : Pred) (n : BitVec 6)
  -- memory (R157-R167): `hint` is the home-die hint
  | ld (g : Pred) (d a : Reg) (w : MWidth) (r : MOrd) (hint : Option (BitVec 3))
  | st (g : Pred) (d a : Reg) (w : MWidth) (r : MOrd) (hint : Option (BitVec 3))
  | lds (g : Pred) (d a : Reg) (w : MWidth) (r : Bool)
  | sts (g : Pred) (d a : Reg) (w : MWidth) (r : Bool)
  | smap (g : Pred) (d a b : Reg)
  | pref (g : Pred) (a : Reg)
  | fenceAcq (g : Pred)
  | fenceRel (g : Pred)
  | fenceAr (g : Pred)
  -- atomics (R168-R175)
  | atomAdd (g : Pred) (d a : Reg) (f : AtomFlags) (w : Bool)
  | atomMinS (g : Pred) (d a : Reg) (f : AtomFlags) (w : Bool)
  | atomMinZ (g : Pred) (d a : Reg) (f : AtomFlags) (w : Bool)
  | atomMaxS (g : Pred) (d a : Reg) (f : AtomFlags) (w : Bool)
  | atomMaxZ (g : Pred) (d a : Reg) (f : AtomFlags) (w : Bool)
  | atomAnd (g : Pred) (d a : Reg) (f : AtomFlags) (w : Bool)
  | atomOr (g : Pred) (d a : Reg) (f : AtomFlags) (w : Bool)
  | atomXor (g : Pred) (d a : Reg) (f : AtomFlags) (w : Bool)
  | atomExch (g : Pred) (d a : Reg) (f : AtomFlags) (w : Bool)
  | incw (g : Pred) (d a : Reg) (f : AtomFlags)
  | decw (g : Pred) (d a : Reg) (f : AtomFlags)
  | atomAddb (g : Pred) (d a : Reg) (f : AtomFlags) (k : PairIx)
  | atomCasW (g : Pred) (d a : Reg) (f : AtomFlags)
  | atomCasD (g : Pred) (d a : Reg) (f : AtomFlags)
  | atomCasQ (g : Pred) (d a : Reg) (f : AtomFlags)
  | waitc (g : Pred) (d a : Reg) (w : Bool) (c : WCmp)
  -- block synchronisation (R201-R211)
  | give (g : Pred) (a : Reg)
  | take (g : Pred) (a : Reg)
  | barSync (g : Pred) (b : BitVec 4)
  | barArr (g : Pred) (b : BitVec 4)
  | barWait (g : Pred) (b : BitVec 4)
  | rwait (g : Pred) (d : Reg) (r : BitVec 4)
  | rdone (g : Pred) (r : BitVec 4)
  -- engines (R215, R234, R392): `n` the engine; the CLEAR constructors carry every command but GO: 1 clears, the
  -- commands 2-63 raise the engine-command trap
  | eset (g : Pred) (n : BitVec 2) (a : Reg) (reg : BitVec 6)
  | eget (g : Pred) (d : Reg) (n : BitVec 2) (reg : BitVec 6)
  | ecmdGo (g : Pred) (n : Bool) (a : Reg)
  | ecmdClear (g : Pred) (n : Bool) (a : Reg) (cmd : BitVec 6)
  | sparseIndexGo (g : Pred) (a : Reg)
  | sparseIndexClear (g : Pred) (a : Reg) (cmd : BitVec 6)
  | lodestarGo (g : Pred) (a : Reg)
  | lodestarClear (g : Pred) (a : Reg) (cmd : BitVec 6)
  | copy (g : Pred) (n : Bool) (a b : Reg)
  | ewait (g : Pred) (a b : Reg)
  -- cluster, die and work (R297, R350, R320)
  | cbarSync (g : Pred) (b : BitVec 4)
  | cbarArr (g : Pred) (b : BitVec 4)
  | cbarWait (g : Pred) (b : BitVec 4)
  | dbar (g : Pred) (a : Reg)
  | emit (g : Pred) (a b : Reg)
  -- system (R79, R289)
  | mfs (g : Pred) (d : Reg) (n : SpecReg)
  | mts (g : Pred) (a : Reg) (n : SpecReg)
  | ctxsv (g : Pred) (a : Reg)
  | ctxld (g : Pred) (a : Reg)
  -- format M memory (R157)
  | ldW (g : Pred) (d a : Reg) (imm : BitVec 10)
  | ldD (g : Pred) (d a : Reg) (imm : BitVec 10)
  | ldQ (g : Pred) (d a : Reg) (imm : BitVec 10)
  | stW (g : Pred) (d a : Reg) (imm : BitVec 10)
  | stD (g : Pred) (d a : Reg) (imm : BitVec 10)
  | stQ (g : Pred) (d a : Reg) (imm : BitVec 10)
  | ldsW (g : Pred) (d a : Reg) (imm : BitVec 10)
  | stsW (g : Pred) (d a : Reg) (imm : BitVec 10)
  -- slots of a bundle (R64-R66)
  | nop (c : Col) (bits : BitVec 26)
  | sadd (c : Col) (g : Pred) (d a b : XReg)
  | ssub (c : Col) (g : Pred) (d a b : XReg)
  | smul (c : Col) (g : Pred) (d a b : XReg)
  | sand (c : Col) (g : Pred) (d a b : XReg)
  | sor (c : Col) (g : Pred) (d a b : XReg)
  | sshl (c : Col) (g : Pred) (d a b : XReg)
  | sli (c : Col) (g : Pred) (d : XReg) (imm : BitVec 17)
  | scmp (c : Col) (g : Pred) (k : PairIx) (cond : SCond) (a b : XReg)
  | sbra (c : Col) (g : Pred) (ofs : BitVec 22)
  | sloop (c : Col) (g : Pred) (x : XReg) (ofs : BitVec 17)
  | scall (c : Col) (g : Pred) (ofs : BitVec 22)
  | sret (c : Col) (g : Pred)
  | sgive (c : Col) (g : Pred) (t : Handle) (n : BitVec 4)
  | stake (c : Col) (g : Pred) (t : Handle) (n : BitVec 4)
  | sbarSync (c : Col) (g : Pred) (b : BitVec 4)
  | sbarArr (c : Col) (g : Pred) (b : BitVec 4)
  | sbarWait (c : Col) (g : Pred) (b : BitVec 4)
  | sstat (c : Col) (g : Pred) (d : XReg)
  | shalt (c : Col) (g : Pred)
  | tmmaBf16 (c : Col) (g : Pred) (t : Handle) (a b : BitVec 6) (s : Shape)
  | tmmaF16 (c : Col) (g : Pred) (t : Handle) (a b : BitVec 6) (s : Shape)
  | tmmaE4M3 (c : Col) (g : Pred) (t : Handle) (a b : BitVec 6) (s : Shape)
  | tmmaE5M2 (c : Col) (g : Pred) (t : Handle) (a b : BitVec 6) (s : Shape)
  | tmmaQf4 (c : Col) (g : Pred) (t : Handle) (a b : BitVec 6) (s : Shape)
  | tmmaF32 (c : Col) (g : Pred) (t : Handle) (a b : BitVec 6) (s : Shape)
  | tzero (c : Col) (g : Pred) (t : Handle) (n : BitVec 4)
  | tcvt (c : Col) (g : Pred) (d s : Handle) (f : Fmt) (rz sat : Bool)
  | vadd (c : Col) (g : Pred) (v : VFields)
  | vmul (c : Col) (g : Pred) (v : VFields)
  | vfma (c : Col) (g : Pred) (v : VFields)
  | vmax (c : Col) (g : Pred) (v : VFields)
  | vmin (c : Col) (g : Pred) (v : VFields)
  | vrelu (c : Col) (g : Pred) (v : VFields)
  | vsel (c : Col) (g : Pred) (v : VFields)
  | vred (c : Col) (g : Pred) (v : VFields) (r : VRedKind)
  | vscl (c : Col) (g : Pred) (v : VFields)
  | tld (c : Col) (g : Pred) (t : Handle) (x : XReg) (n : BitVec 3)
  | tst (c : Col) (g : Pred) (t : Handle) (x : XReg) (n : BitVec 3)
  | zbind (c : Col) (g : Pred) (z : BitVec 3) (x : XReg)
  | zset (c : Col) (g : Pred) (z : BitVec 3) (x : XReg) (f : BitVec 4)
  | zskip (c : Col) (g : Pred) (z : BitVec 3) (x : XReg)
  -- filter words (R365)
  | fltLdf (a : BitVec 4) (k : BitVec 7)
  | fltLdi (a : BitVec 4) (k : BitVec 7)
  | fltMovk (a : BitVec 4) (k : BitVec 7)
  | fltAddi (a : BitVec 4) (k : BitVec 7)
  | fltShri (a : BitVec 4) (k : BitVec 7)
  | fltMov (a b : BitVec 4)
  | fltAdd (a b : BitVec 4)
  | fltSub (a b : BitVec 4)
  | fltAnd (a b : BitVec 4)
  | fltOr (a b : BitVec 4)
  | fltShl (a b : BitVec 4)
  | fltShr (a b : BitVec 4)
  | fltCeq (a b : BitVec 4)
  | fltCltu (a b : BitVec 4)
  | fltClts (a b : BitVec 4)
  | fltBz (a : BitVec 4) (k : BitVec 7)
  | fltBnz (a : BitVec 4) (k : BitVec 7)
  | fltJmp (ofs : BitVec 11)
  | fltHist (a o : BitVec 4)
  | fltSku (a b : BitVec 4) (o : BitVec 3)
  | fltCadd (a o : BitVec 4)
  | fltTrig (a o : BitVec 4)
  | fltEnd
  -- steps of splits and comet contexts: block `b`, group slot `g`, split `k`, comet context `c`
  | splitMerge (b g i j : Nat)
  | ejectedLaneStart (c : Nat)
  | copyBack (c : Nat)
  | joinTimeout (b g k : Nat)
  -- steps of the memory path: `id` a load, atomic or store in flight
  | loadDataLands (id : Nat)
  | ownershipRegistration (id : Nat)
  | registrationAck (id : Nat)
  | homeRead (id part : Nat)
  | homeAtomic (id addr : Nat)
  | ownerForward (id part : Nat)
  | revocation (word : Nat)
  | waitcReevaluate (b g k : Nat)
  | waitcPoll (b g k : Nat)
  | emitWake (b g k : Nat)
  | stashWriteBack (b w : Nat)
  | takeCompletes (b : Nat) (who : Party)
  | takeLimit (b : Nat) (who : Party)
  -- steps of a sequencer and its ports
  | operationLands (b id : Nat)
  | tldFill (b id : Nat)
  | tstTileRead (b id : Nat)
  | streamReadAhead (b c z : Nat)
  | writePortEntryWrite (b c z : Nat)
  | safePointStop (b : Nat)
  | forcedSavePoint (b : Nat)
  -- steps of engines: `id` an engine operation
  | copySlotClaim (id : Nat)
  | copySlotFilled (id : Nat)
  | copyOperationDone (id rows : Nat)
  | sparseIndexDone (id : Nat)
  | lodestarDone (id : Nat)
  -- cluster and die barriers: `q` a gang, `o` a barrier object's address, `d` a core die
  | cbarHalfMessage (q b : Nat)
  | dbarWindow (o d : Nat)
  | dbarCompletionMessage (o d : Nat)
  | dbarRelease (o d : Nat)
  -- translation
  | pageWalkStart (d id : Nat)
  | pageWalkEnd (d id : Nat)
  | hintedRequestForward (id : Nat)
  | translationInvalidation (fn vf : Nat) (va len : Nat)
  -- migration: `desc` the descriptor's address, `id` a migration under way
  | migrate (fn desc : Nat)
  | migrateBias (fn desc : Nat)
  | migrationPassEnd (id : Nat)
  | migrationComplete (id : Nat)
  -- loader and work distributor: `q` an intake queue's descriptor address
  | loaderRegister (fn : Nat) (obj : List Byte) (text seq data hdr : Nat)
  | registerQueue (fn q vf : Nat)
  | stampObserved (q : Nat)
  | batchTimeout (q : Nat)
  | blockAdmission (d : Nat)
  | reservation (d : Nat)
  | quantumPreemption (d : Nat)
  | preemption (b : Nat)
  | accFirstUseService (b : Nat)
  | parkRecord (p : Nat)
  | parkLimit (b : Nat)
  | allBlockedSwapOut (b : Nat)
  | distributorWaitcPoll (b : Nat)
  | resume (fn ctx : Nat) (u : ParkUnit)
  | endBlock (fn ctx : Nat) (u : ParkUnit)
  | blockEnd (b : Nat)
  | stop (fn vf report status : Nat)
  | functionLevelReset (fn vf : Nat)
  | vfSliceEnd (p : Nat)
  | energyWindowEnd (p : Nat)
  | arbiterWindow (d ch : Nat)
  -- Meridian `m`
  | eventDispatch (m : Nat)
  | counterSample (core : Nat)
  | budgetWindow (m : Nat)
  | linkerrEmit (m link kind : Nat)
  | attach (fn m slot desc : Nat)
  | detach (fn m slot : Nat)
  | read (fn m slot obj : Nat)
  | readclr (fn m slot obj : Nat)
  | triggerRearm (fn m slot obj : Nat)
  | afterglowRead (fn m ix : Nat)
  | mctlWrite (fn m : Nat) (v : Word)
  -- hub registers
  | cmodeWrite (fn core : Nat) (v : Word)
  | fownWrite (fn facet : Nat) (v : Word)
  | cmerrWrite (fn core : Nat) (v : Word)
  | floorWrite (fn p d : Nat) (v : Word)
  | pctlWrite (fn port : Nat) (v : Word)
  | registerWrite (fn : Nat) (r : HubReg) (v : Dword)
  | coldReset
  | warmReset
  | firmwareImage (fn : Nat) (img : List Byte)
  -- links and the host
  | flitReceive (port seq : Nat) (flit : List Byte) (fec : Fec)
  | flitAcknowledge (port seq : Nat)
  | replayRequest (port seq : Nat)
  | portRetrainEnd (port : Nat) (ok : Bool)
  | remoteRequest (src : Nat) (tag : Word) (op : HostOp) (addr n : Nat)
  | hostCompletion (id : Nat) (c : Completion)
  | illegalInstruction (w : Word)
  | illegalBundle (b : Nat)
  | instructionFetchFault (cause : Nat) (addr : Dword)
  | hostMemoryRequest (op : HostOp) (addr n : Nat)
  | sharedStorePerformed (id : Nat)
  | cbarReleaseMessage (q b : Nat)
  | dieLinkCrcRetry (m link : Nat) (retrain : Bool)
  | pqheadWrite (fn p : Nat) (v : Dword)
  deriving DecidableEq, Repr

end Sys2Proof
end

