-- ==== Sys2Proof/Config.lean ====
section
/-!
DEFINITION. Config.lean: the values that spec/ leaves open, as constants without a body, so that no proof can use a
value of one. Those applied to a number `n` are applied to the free counter of the state, which a step advances.
-/

namespace Sys2Proof.Config

/-- Which of the two FP32 values that bracket a special function's result is returned, by function number and
argument: true for the one of larger magnitude (05 R125, log 20). -/
opaque faithfulUp : Nat → Word → Bool

/-- A word of unstated value: the n-th use. -/
opaque freeWord : Nat → Word

/-- A 64-bit value of unstated value: the n-th use. -/
opaque freeDword : Nat → Dword

/-- A choice the spec leaves open: the n-th use. -/
opaque freeBool : Nat → Bool

/-- A number the spec leaves open: the n-th use. -/
opaque freeNat : Nat → Nat

/-- The HBM channel of its memory die that an address lies on (20 R409). -/
opaque channelOf : Nat → Nat

/-- The bytes that an HBM channel moves in a window of 1,024 clocks (20 R409). -/
opaque channelBytes : Nat

/-- The CRC-64 of the bytes of a flit, whose polynomial is not stated (21 R420). -/
opaque crc64 : List Byte → BitVec 64

/-- The ROM's self-test passes at the n-th cold reset (20 R418). -/
opaque romOk : Nat → Bool

/-- The header of a firmware image, whose layout is not stated, is well formed (20 R418). -/
opaque headerOk : List Byte → Bool

/-- The ECDSA signature of a firmware image verifies (20 R418). -/
opaque ecdsaOk : List Byte → Bool

/-- The LMS signature of a firmware image verifies (20 R418). -/
opaque lmsOk : List Byte → Bool

/-- The security version of a firmware image is at least the fused minimum (20 R418). -/
opaque versionOk : List Byte → Bool

/-- The energy in µJ that the part estimates for a partition in a clock (20 R417), by clock and partition. -/
opaque energy : Nat → Nat → Nat

/-- The steps of the machine and the inputs from outside that come in the n-th clock, and their order (log 1). -/
opaque events : Nat → List Instr

/-- The order in which the units take their turns in the n-th clock: a key for each unit, by its place (log 1). -/
opaque turnKey : Nat → Nat → Nat

/-- The hops of the way to a package beyond the first, modulo 4 (21 R424, R426): other packages' routes are not stated. -/
opaque furtherHops : Nat → Nat

/-- The set of a home slice that a line lies in (18 R371): the index is not stated. -/
opaque sliceSet : Nat → Nat

/-- The credits of a fabric port's virtual channel beyond the first, by channel (21 R422): their number is not stated. -/
opaque vcCredits : Nat → Nat

/-- The device identity certificate of the part; what it holds is not stated (20 R418; log 175). -/
opaque certificate : List Byte

/-- The attestation report that the part gives; what it holds is not stated, and it may differ from one to the next
(20 R418; log 175). -/
opaque report : Nat → List Byte

/-- The ECDSA P-384 signature of a document (20 R418). -/
opaque signEcdsa : List Byte → List Byte

/-- The LMS signature of a document (20 R418). -/
opaque signLms : List Byte → List Byte

end Sys2Proof.Config
end

