-- ==== Sys2Proof/WellFormed.lean ====
section
/-!
DEFINITION. WellFormed.lean: the operand conditions that spec/02_encoding.md puts on an instruction beside its field
widths: register alignment (R45, R98, R100), forms without a uniform destination (R50, R118, R122, R123), guard p1
on JOIN, EXIT, ERET and YIELD (R144), CVT between equal types (R54), read-only special registers (R62), tile
handle alignment and ranges of slot words (R66) and unused filter fields (17 R364, R365). A word whose fields break
one of them is an illegal encoding.
-/

set_option linter.constructorNameAsVariable false

namespace Sys2Proof

/-- The register is the even one of a pair (R45). -/
def Reg.even (r : Reg) : Bool := r.toNat % 2 == 0
/-- The register starts a quad (R45). -/
def Reg.quad (r : Reg) : Bool := r.toNat % 4 == 0
/-- The register starts an octet (R45). -/
def Reg.oct (r : Reg) : Bool := r.toNat % 8 == 0

/-- A last source read as a pair names an even register (R98). -/
def Src.pairOk : Src → Bool
  | .vv b => b.even
  | .vs b => b.even
  | .ss b => b.even
  | .lit _ => true

/-- The operand class has a lane destination: OC 0b10 is illegal (R50, R118, R122, R123). -/
def Src.laneForm : Src → Bool
  | .ss _ => false
  | _ => true

/-- D, A and the last source of a 64-bit integer form are even (R98). -/
def wf3 (w : Bool) (d a : Reg) (src : Src) : Bool := !w || (d.even && a.even && src.pairOk)
/-- D and A of a 64-bit form whose last source is one 32-bit count or control are even (R98). -/
def wfShift (w : Bool) (d a : Reg) : Bool := !w || (d.even && a.even)
/-- D and the last source of a 64-bit unary form are even (R98). -/
def wf2 (w : Bool) (d : Reg) (src : Src) : Bool := !w || (d.even && src.pairOk)
/-- IADDC: the carry register after the sum exists (R100). -/
def wfCarry (w : Bool) (d a : Reg) (src : Src) : Bool :=
  if w then d.even && d != 62 && a.even && src.pairOk else d != 63
/-- LEA names a pair in D and A under both widths (R98, R101). -/
def wfLea (w : Bool) (d a : Reg) (src : Src) : Bool := d.even && a.even && (!w || src.pairOk)

/-- The data register of an access of a width (R58). -/
def MWidth.regOk (w : MWidth) (d : Reg) : Bool :=
  match w with
  | .d => d.even
  | .q => d.quad
  | _ => true

/-- A type code of 64 bits names a register pair (R54). -/
def CvtTy.regOk (t : CvtTy) (r : Reg) : Bool :=
  match t with
  | .s64 => r.even
  | .z64 => r.even
  | _ => true

/-- Access to a special register by MTS: the registers marked RW (R62). -/
def SpecReg.writable : SpecReg → Bool
  | .ejt => true
  | .jto => true
  | .accown => true
  | _ => false

/-- JOIN, EXIT, ERET and YIELD do not take guard p1 (R144). -/
def guardOk (g : Pred) : Bool := g != 1

/-- A C handle fits the shape of its TMMA (R66). -/
def Shape.handleOk (s : Shape) (t : Handle) : Bool :=
  match s with
  | .s1 => true
  | .s2 => t.toNat % 4 == 0
  | .s4 => t.toNat % 16 == 0

/-- A handle range of `n + 1` handles does not pass t255 (R66). -/
def rangeOk (t : Handle) (n : Nat) : Bool := t.toNat + n ≤ 255

/-- The F field of VRED names its reduction (R66). -/
def VRedKind.code : VRedKind → BitVec 3
  | .sum => 0
  | .max => 1
  | .min => 2

/-- ZSET field indices that the descriptor of 10 R228 defines, 0-10 (11 R262). -/
def zsetFieldOk (f : BitVec 4) : Bool := f.toNat < 11

/-- The operand conditions of an instruction. -/
def Instr.wf : Instr → Bool
  | .iadd _ w d a src => wf3 w d a src
  | .isub _ w d a src => wf3 w d a src
  | .iaddc _ w d a src => wfCarry w d a src
  | .lea _ w d a src => wfLea w d a src
  | .imlo _ w d a src => wf3 w d a src
  | .imhiS _ w d a src => wf3 w d a src
  | .imhiZ _ w d a src => wf3 w d a src
  | .imac _ w d a src => wf3 w d a src
  | .idivS _ w d a src => wf3 w d a src
  | .idivZ _ w d a src => wf3 w d a src
  | .iabs _ w d src => wf2 w d src
  | .ineg _ w d src => wf2 w d src
  | .iminS _ w d a src => wf3 w d a src
  | .iminZ _ w d a src => wf3 w d a src
  | .imaxS _ w d a src => wf3 w d a src
  | .imaxZ _ w d a src => wf3 w d a src
  | .and _ w d a src => wf3 w d a src
  | .or _ w d a src => wf3 w d a src
  | .xor _ w d a src => wf3 w d a src
  | .andn _ w d a src => wf3 w d a src
  | .shl _ w d a _ => wfShift w d a
  | .shr _ w d a _ => wfShift w d a
  | .sar _ w d a _ => wfShift w d a
  | .rol _ w d a _ => wfShift w d a
  | .bfxS _ w d a _ => wfShift w d a
  | .bfxZ _ w d a _ => wfShift w d a
  | .bfi _ w d a _ => wfShift w d a
  | .not _ w d src => wf2 w d src
  | .clz _ w d src => wf2 w d src
  | .popc _ w d src => wf2 w d src
  | .brev _ w d src => wf2 w d src
  | .mov _ w d src => wf2 w d src
  | .icmp _ _ _ a src _ w => src.laneForm && (!w || (a.even && src.pairOk))
  | .pwiden _ d _ _ _ => d.even
  | .pnarrow _ _ a _ _ _ => a.even
  | .fadd _ _ _ src => src.laneForm
  | .fsub _ _ _ src => src.laneForm
  | .fmul _ _ _ src => src.laneForm
  | .ffma _ _ _ src => src.laneForm
  | .fmin _ _ _ src => src.laneForm
  | .fmax _ _ _ src => src.laneForm
  | .fclass _ _ src => src.laneForm
  | .pfmaF16 _ _ _ src => src.laneForm
  | .pfmaBf16 _ _ _ src => src.laneForm
  | .fcmp _ _ _ _ src _ => src.laneForm
  | .cvt _ d a dty sty _ _ => dty != sty && dty.regOk d && sty.regOk a
  | .qunpk _ _ a _ => a.even
  | .voteBal _ d _ _ => d.even
  | .brx _ a => a.even
  | .callx _ a => a.even
  | .join g => guardOk g
  | .exit g => guardOk g
  | .eret g => guardOk g
  | .yield g => guardOk g
  | .live _ _ a => a.even
  | .ld _ d a w _ _ => w.regOk d && a.even
  | .st _ d a w _ _ => w.regOk d && a.even
  | .lds _ d _ w _ => w.regOk d
  | .sts _ d _ w _ => w.regOk d
  | .smap _ d a _ => d.even && a.even
  | .pref _ a => a.even
  | .atomAdd _ d a _ w => a.even && (!w || d.even)
  | .atomMinS _ d a _ w => a.even && (!w || d.even)
  | .atomMinZ _ d a _ w => a.even && (!w || d.even)
  | .atomMaxS _ d a _ w => a.even && (!w || d.even)
  | .atomMaxZ _ d a _ w => a.even && (!w || d.even)
  | .atomAnd _ d a _ w => a.even && (!w || d.even)
  | .atomOr _ d a _ w => a.even && (!w || d.even)
  | .atomXor _ d a _ w => a.even && (!w || d.even)
  | .atomExch _ d a _ w => a.even && (!w || d.even)
  | .incw _ _ a _ => a.even
  | .decw _ _ a _ => a.even
  | .atomAddb _ d a _ _ => a.even && d.even
  | .atomCasW _ d a _ => a.even && d.even
  | .atomCasD _ d a _ => a.even && d.quad
  | .atomCasQ _ d a _ => a.even && d.oct
  | .waitc _ d a w _ => a.even && (!w || d.even)
  | .ecmdClear _ _ _ cmd => cmd != 0
  | .sparseIndexClear _ _ cmd => cmd != 0
  | .lodestarClear _ _ cmd => cmd != 0
  | .copy _ _ a b => a.even && b.even
  | .ewait _ a b => a.even && b.even
  | .dbar _ a => a.even
  | .emit _ a b => a.even && b.even
  | .mfs _ d n => n != .clk || d.even
  | .mts _ _ n => n.writable
  | .ctxsv _ a => a.even
  | .ctxld _ a => a.even
  | .ldW _ _ a _ => a.even
  | .ldD _ d a _ => a.even && d.even
  | .ldQ _ d a _ => a.even && d.quad
  | .stW _ _ a _ => a.even
  | .stD _ d a _ => a.even && d.even
  | .stQ _ d a _ => a.even && d.quad
  | .sbra c _ _ => c == 0
  | .sloop c _ _ _ => c == 0
  | .scall c _ _ => c == 0
  | .sret c _ => c == 0
  | .shalt c _ => c == 0
  | .sgive _ _ t n => rangeOk t n.toNat
  | .stake _ _ t n => rangeOk t n.toNat
  | .sstat _ _ d => d.toNat % 4 == 0
  | .tmmaBf16 _ _ t _ _ s => s.handleOk t
  | .tmmaF16 _ _ t _ _ s => s.handleOk t
  | .tmmaE4M3 _ _ t _ _ s => s.handleOk t
  | .tmmaE5M2 _ _ t _ _ s => s.handleOk t
  | .tmmaQf4 _ _ t _ _ s => s.handleOk t
  | .tmmaF32 _ _ t _ _ s => s.handleOk t
  | .tzero _ _ t n => rangeOk t n.toNat
  | .tcvt _ _ _ _ f _ _ => f != .fp32
  | .vred _ _ v r => v.f == r.code
  | .tld _ _ t x n => x.toNat % 2 == 0 && rangeOk t n.toNat
  | .tst _ _ t x n => x.toNat % 2 == 0 && rangeOk t n.toNat
  | .zset _ _ _ _ f => zsetFieldOk f
  | .fltLdf _ k => k.toNat < 9
  | .fltShri _ k => k.toNat < 64
  | _ => true

end Sys2Proof
end

