-- ==== Sys2Proof/Decode.lean ====
section
/-!
DEFINITION. Decode.lean: the decoders of the three kinds of code (lane words, bundle slots, filter words), total on
any bits, and the encoders written from the same tables of spec/02_encoding.md and spec/17_die_telemetry.md. A word
is split into its fields once; the decoder names the instruction that the fields give, refuses nonzero reserved
fields of lane and filter words (R46, 17 R364), and keeps only well-formed instructions. Reserved fields of slot
words are ignored (R64).
-/

set_option linter.constructorNameAsVariable false

namespace Sys2Proof

/-! ## Fields -/

/-- The fields of a lane word in format T (R41). The other formats are read from the same fields. -/
structure LaneFields where
  op : BitVec 6
  g : BitVec 4
  d : BitVec 6
  a : BitVec 6
  b : BitVec 6
  fn : BitVec 4
  deriving DecidableEq, Repr

/-- The fields of a lane word (R41). -/
def laneFields (w : Word) : LaneFields :=
  { op := w.extractLsb' 26 6, g := w.extractLsb' 22 4, d := w.extractLsb' 16 6, a := w.extractLsb' 10 6,
    b := w.extractLsb' 4 6, fn := w.extractLsb' 0 4 }

/-- The lane word with given fields (R41). -/
def LaneFields.word (f : LaneFields) : Word := (f.op ++ (f.g ++ (f.d ++ (f.a ++ (f.b ++ f.fn : BitVec 10) : BitVec 16) : BitVec 22) : BitVec 26) : BitVec 32)

/-- IMM16 of format I (R41). -/
def LaneFields.imm16 (f : LaneFields) : BitVec 16 := (f.a ++ (f.b ++ f.fn : BitVec 10) : BitVec 16)
/-- IMM10 of format M (R41). -/
def LaneFields.imm10 (f : LaneFields) : BitVec 10 := f.b ++ f.fn
/-- OFS22 of format J (R41). -/
def LaneFields.ofs22 (f : LaneFields) : BitVec 22 := (f.d ++ (f.a ++ (f.b ++ f.fn : BitVec 10) : BitVec 16) : BitVec 22)

/-- `some x` under a condition: the decoder's check of reserved fields. -/
def okIf (c : Bool) (i : Instr) : Option Instr := if c then some i else none

/-! ## Codes of the enumerations -/

/-- OC and B give the last source (R44); a literal needs B = 0 (R41). -/
def decSrc (oc : BitVec 2) (b : BitVec 6) (lit : Word) : Option Src :=
  match oc with
  | 0b00#2 => some (.vv b)
  | 0b01#2 => some (.vs b)
  | 0b10#2 => some (.ss b)
  | _ => if b = 0 then some (.lit lit) else none

/-- The operand class of a last source (R44). -/
def Src.oc : Src → BitVec 2
  | .vv _ => 0b00
  | .vs _ => 0b01
  | .ss _ => 0b10
  | .lit _ => 0b11

/-- The B field of a last source (R41). -/
def Src.field : Src → BitVec 6
  | .vv b => b
  | .vs b => b
  | .ss b => b
  | .lit _ => 0

/-- The literal word of a last source (R42). -/
def Src.literal : Src → Option Word
  | .lit w => some w
  | _ => none

/-- Type codes of R50 and R53. -/
def decFloatTy (c : BitVec 2) : Option FloatTy :=
  match c with
  | 0#2 => some .f32
  | 1#2 => some .f16
  | 2#2 => some .bf16
  | _ => none

/-- Type codes of R50 and R53. -/
def encFloatTy : FloatTy → BitVec 2
  | .f32 => 0
  | .f16 => 1
  | .bf16 => 2

/-- ICMP conditions (R50). -/
def decICond (c : BitVec 3) : Option ICond :=
  match c with
  | 0#3 => some .eq
  | 1#3 => some .ne
  | 2#3 => some .lt
  | 3#3 => some .le
  | 4#3 => some .gt
  | 5#3 => some .ge
  | _ => none

/-- ICMP conditions (R50). -/
def encICond : ICond → BitVec 3
  | .eq => 0
  | .ne => 1
  | .lt => 2
  | .le => 3
  | .gt => 4
  | .ge => 5

/-- FCMP conditions (R50). -/
def decFCond (c : BitVec 3) : Option FCond :=
  match c with
  | 0#3 => some .eq
  | 1#3 => some .ne
  | 2#3 => some .lt
  | 3#3 => some .le
  | 4#3 => some .gt
  | 5#3 => some .ge
  | 6#3 => some .un
  | 7#3 => some .or

/-- FCMP conditions (R50). -/
def encFCond : FCond → BitVec 3
  | .eq => 0
  | .ne => 1
  | .lt => 2
  | .le => 3
  | .gt => 4
  | .ge => 5
  | .un => 6
  | .or => 7

/-- SCMP conditions (R66). -/
def decSCond (c : BitVec 3) : Option SCond :=
  match c with
  | 0#3 => some .eq
  | 1#3 => some .ne
  | 2#3 => some .lt
  | 3#3 => some .le
  | 4#3 => some .gt
  | 5#3 => some .ge
  | 6#3 => some .ltu
  | 7#3 => some .geu

/-- SCMP conditions (R66). -/
def encSCond : SCond → BitVec 3
  | .eq => 0
  | .ne => 1
  | .lt => 2
  | .le => 3
  | .gt => 4
  | .ge => 5
  | .ltu => 6
  | .geu => 7

/-- Element widths of the packed family (R52). -/
def decEWidth (c : BitVec 2) : Option EWidth :=
  match c with
  | 0#2 => some .e4
  | 1#2 => some .e8
  | 2#2 => some .e16
  | _ => none

/-- Element widths of the packed family (R52). -/
def encEWidth : EWidth → BitVec 2
  | .e4 => 0
  | .e8 => 1
  | .e16 => 2

/-- Type codes of CVT (R54). -/
def decCvtTy (c : BitVec 4) : Option CvtTy :=
  match c with
  | 0#4 => some .f32
  | 1#4 => some .f16
  | 2#4 => some .bf16
  | 3#4 => some .e4m3
  | 4#4 => some .e5m2
  | 5#4 => some .s8
  | 6#4 => some .s16
  | 7#4 => some .s32
  | 8#4 => some .s64
  | 9#4 => some .z8
  | 10#4 => some .z16
  | 11#4 => some .z32
  | 12#4 => some .z64
  | _ => none

/-- Type codes of CVT (R54). -/
def encCvtTy : CvtTy → BitVec 4
  | .f32 => 0
  | .f16 => 1
  | .bf16 => 2
  | .e4m3 => 3
  | .e5m2 => 4
  | .s8 => 5
  | .s16 => 6
  | .s32 => 7
  | .s64 => 8
  | .z8 => 9
  | .z16 => 10
  | .z32 => 11
  | .z64 => 12

/-- Operations of REDUX and SCAN (R56). -/
def decRedOp (c : BitVec 4) : Option RedOp :=
  match c with
  | 0#4 => some .iadd
  | 1#4 => some .and
  | 2#4 => some .or
  | 3#4 => some .xor
  | 4#4 => some .imaxS
  | 5#4 => some .iminS
  | 6#4 => some .imaxZ
  | 7#4 => some .iminZ
  | 8#4 => some .fadd
  | 9#4 => some .fmax
  | 10#4 => some .fmin
  | _ => none

/-- Operations of REDUX and SCAN (R56). -/
def encRedOp : RedOp → BitVec 4
  | .iadd => 0
  | .and => 1
  | .or => 2
  | .xor => 3
  | .imaxS => 4
  | .iminS => 5
  | .imaxZ => 6
  | .iminZ => 7
  | .fadd => 8
  | .fmax => 9
  | .fmin => 10

/-- Access widths (R58). -/
def decMWidth (c : BitVec 3) : Option MWidth :=
  match c with
  | 0#3 => some .b
  | 1#3 => some .h
  | 2#3 => some .w
  | 3#3 => some .d
  | 4#3 => some .q
  | _ => none

/-- Access widths (R58). -/
def encMWidth : MWidth → BitVec 3
  | .b => 0
  | .h => 1
  | .w => 2
  | .d => 3
  | .q => 4

/-- ORD of a global access (R58). -/
def decMOrd (c : BitVec 2) : Option MOrd :=
  match c with
  | 0#2 => some .plain
  | 1#2 => some .sync
  | 2#2 => some .nt
  | _ => none

/-- ORD of a global access (R58). -/
def encMOrd : MOrd → BitVec 2
  | .plain => 0
  | .sync => 1
  | .nt => 2

/-- Comparisons of WAITC (R60). -/
def decWCmp (c : BitVec 4) : Option WCmp :=
  match c with
  | 0#4 => some .eq
  | 1#4 => some .ne
  | 2#4 => some .ltS
  | 3#4 => some .ltZ
  | 4#4 => some .geS
  | 5#4 => some .geZ
  | _ => none

/-- Comparisons of WAITC (R60). -/
def encWCmp : WCmp → BitVec 4
  | .eq => 0
  | .ne => 1
  | .ltS => 2
  | .ltZ => 3
  | .geS => 4
  | .geZ => 5

/-- Special-register numbers (R62). -/
def decSpecReg (c : BitVec 6) : Option SpecReg :=
  match c with
  | 0#6 => some .laneix
  | 1#6 => some .widlo
  | 2#6 => some .widhi
  | 3#6 => some .gwidth
  | 4#6 => some .splitix
  | 5#6 => some .coreix
  | 6#6 => some .clusix
  | 7#6 => some .dieix
  | 8#6 => some .clk
  | 9#6 => some .ejt
  | 10#6 => some .jto
  | 11#6 => some .accown
  | _ => none

/-- Special-register numbers (R62). -/
def encSpecReg : SpecReg → BitVec 6
  | .laneix => 0
  | .widlo => 1
  | .widhi => 2
  | .gwidth => 3
  | .splitix => 4
  | .coreix => 5
  | .clusix => 6
  | .dieix => 7
  | .clk => 8
  | .ejt => 9
  | .jto => 10
  | .accown => 11

/-- Format codes (01 R37). -/
def decFmt (c : BitVec 4) : Option Fmt :=
  match c with
  | 0#4 => some .fp32
  | 1#4 => some .fp16
  | 2#4 => some .bf16
  | 3#4 => some .e4m3
  | 4#4 => some .e5m2
  | 5#4 => some .qf4
  | 6#4 => some .mxE4M3
  | 7#4 => some .mxE5M2
  | 8#4 => some .mxE2M3
  | 9#4 => some .mxE3M2
  | 10#4 => some .mxE2M1
  | _ => none

/-- Format codes (01 R37). -/
def encFmt : Fmt → BitVec 4
  | .fp32 => 0
  | .fp16 => 1
  | .bf16 => 2
  | .e4m3 => 3
  | .e5m2 => 4
  | .qf4 => 5
  | .mxE4M3 => 6
  | .mxE5M2 => 7
  | .mxE2M3 => 8
  | .mxE3M2 => 9
  | .mxE2M1 => 10

/-- TMMA shapes (R66). -/
def decShape (c : BitVec 2) : Option Shape :=
  match c with
  | 0#2 => some .s1
  | 1#2 => some .s2
  | 2#2 => some .s4
  | _ => none

/-- TMMA shapes (R66). -/
def encShape : Shape → BitVec 2
  | .s1 => 0
  | .s2 => 1
  | .s4 => 2

/-- VRED reductions (R66). -/
def decVRedKind (c : BitVec 3) : Option VRedKind :=
  match c with
  | 0#3 => some .sum
  | 1#3 => some .max
  | 2#3 => some .min
  | _ => none

/-- VRED reductions (R66). -/
def encVRedKind : VRedKind → BitVec 3
  | .sum => 0
  | .max => 1
  | .min => 2

/-! ## Lane words (R47-R62) -/

/-- Majors 0x00-0x0F (R47). -/
def decInt (f : LaneFields) (lit : Word) : Option Instr :=
  let w := f.op.getLsbD 0
  match decSrc (f.fn.extractLsb' 2 2) f.b lit with
  | none => none
  | some src =>
    match f.op.extractLsb' 1 3, f.fn.extractLsb' 0 2 with
    | 0#3, 0#2 => some (.iadd f.g w f.d f.a src)
    | 0#3, 1#2 => some (.isub f.g w f.d f.a src)
    | 0#3, 2#2 => some (.iaddc f.g w f.d f.a src)
    | 0#3, 3#2 => some (.lea f.g w f.d f.a src)
    | 1#3, 0#2 => some (.imlo f.g w f.d f.a src)
    | 1#3, 1#2 => some (.imhiS f.g w f.d f.a src)
    | 1#3, 2#2 => some (.imhiZ f.g w f.d f.a src)
    | 1#3, 3#2 => some (.imac f.g w f.d f.a src)
    | 2#3, 0#2 => some (.idivS f.g w f.d f.a src)
    | 2#3, 1#2 => some (.idivZ f.g w f.d f.a src)
    | 2#3, 2#2 => okIf (f.a == 0) (.iabs f.g w f.d src)
    | 2#3, 3#2 => okIf (f.a == 0) (.ineg f.g w f.d src)
    | 3#3, 0#2 => some (.iminS f.g w f.d f.a src)
    | 3#3, 1#2 => some (.iminZ f.g w f.d f.a src)
    | 3#3, 2#2 => some (.imaxS f.g w f.d f.a src)
    | 3#3, 3#2 => some (.imaxZ f.g w f.d f.a src)
    | 4#3, 0#2 => some (.and f.g w f.d f.a src)
    | 4#3, 1#2 => some (.or f.g w f.d f.a src)
    | 4#3, 2#2 => some (.xor f.g w f.d f.a src)
    | 4#3, 3#2 => some (.andn f.g w f.d f.a src)
    | 5#3, 0#2 => some (.shl f.g w f.d f.a src)
    | 5#3, 1#2 => some (.shr f.g w f.d f.a src)
    | 5#3, 2#2 => some (.sar f.g w f.d f.a src)
    | 5#3, 3#2 => some (.rol f.g w f.d f.a src)
    | 6#3, 0#2 => some (.bfxS f.g w f.d f.a src)
    | 6#3, 1#2 => some (.bfxZ f.g w f.d f.a src)
    | 6#3, 2#2 => some (.bfi f.g w f.d f.a src)
    | 6#3, 3#2 => okIf (f.a == 0) (.not f.g w f.d src)
    | 7#3, 0#2 => okIf (f.a == 0) (.clz f.g w f.d src)
    | 7#3, 1#2 => okIf (f.a == 0) (.popc f.g w f.d src)
    | 7#3, 2#2 => okIf (f.a == 0) (.brev f.g w f.d src)
    | 7#3, 3#2 => okIf (f.a == 0) (.mov f.g w f.d src)

/-- Float arithmetic, majors 0x1C-0x1E (R48, R118, R122). -/
def decFloat (f : LaneFields) (lit : Word) : Option Instr :=
  match decSrc (f.fn.extractLsb' 2 2) f.b lit with
  | none => none
  | some src =>
    match f.op, f.fn.extractLsb' 0 2 with
    | 0x1C#6, 0#2 => some (.fadd f.g f.d f.a src)
    | 0x1C#6, 1#2 => some (.fsub f.g f.d f.a src)
    | 0x1C#6, 2#2 => some (.fmul f.g f.d f.a src)
    | 0x1C#6, 3#2 => some (.ffma f.g f.d f.a src)
    | 0x1D#6, 0#2 => some (.fmin f.g f.d f.a src)
    | 0x1D#6, 1#2 => some (.fmax f.g f.d f.a src)
    | 0x1D#6, 2#2 => okIf (f.a == 0) (.fclass f.g f.d src)
    | 0x1E#6, 0#2 => some (.pfmaF16 f.g f.d f.a src)
    | 0x1E#6, 1#2 => some (.pfmaBf16 f.g f.d f.a src)
    | _, _ => none

/-- ICMP and FCMP (R50). -/
def decCmp (f : LaneFields) (lit : Word) : Option Instr :=
  match decSrc (f.fn.extractLsb' 2 2) f.b lit with
  | none => none
  | some src =>
    if f.op = 0x12 then
      (decICond (f.d.extractLsb' 3 3)).map fun c =>
        .icmp f.g c (f.d.extractLsb' 0 3) f.a src (f.fn.getLsbD 1) (f.fn.getLsbD 0)
    else
      match decFCond (f.d.extractLsb' 3 3), decFloatTy (f.fn.extractLsb' 0 2) with
      | some c, some t => some (.fcmp f.g c (f.d.extractLsb' 0 3) f.a src t)
      | _, _ => none

/-- Predicate logic (R51). -/
def decPred (f : LaneFields) : Option Instr :=
  let k := f.d.extractLsb' 0 3
  let pa := f.a.extractLsb' 0 4
  let pb := f.b.extractLsb' 0 4
  let z := f.d.extractLsb' 3 3 == 0 && f.a.extractLsb' 4 2 == 0 && f.b.extractLsb' 4 2 == 0
  match f.fn with
  | 0#4 => okIf z (.pand f.g k pa pb)
  | 1#4 => okIf z (.por f.g k pa pb)
  | 2#4 => okIf z (.pxor f.g k pa pb)
  | 3#4 => okIf (z && pb == 0) (.pnot f.g k pa)
  | _ => none

/-- The packed family (R52). -/
def decPacked (f : LaneFields) : Option Instr :=
  let u := f.fn.getLsbD 1
  let x := f.fn.getLsbD 0
  match decEWidth (f.fn.extractLsb' 2 2) with
  | none => none
  | some e =>
    match f.op with
    | 0x15#6 => some (.padd f.g f.d f.a f.b e u x)
    | 0x16#6 => some (.psub f.g f.d f.a f.b e u x)
    | 0x17#6 => some (.pmul f.g f.d f.a f.b e u x)
    | 0x18#6 => some (if x then .pmax f.g f.d f.a f.b e u else .pmin f.g f.d f.a f.b e u)
    | 0x19#6 => okIf (!x) (.pdot f.g f.d f.a f.b e u)
    | 0x1A#6 => if x then some (.pnarrow f.g f.d f.a f.b e u) else okIf (f.a == 0) (.pwiden f.g f.d f.b e u)
    | 0x1B#6 => some (if x then .pcmpLt f.g f.d f.a f.b e u else .pcmpEq f.g f.d f.a f.b e u)
    | _ => none

/-- Special functions (R53). -/
def decSpecial (f : LaneFields) : Option Instr :=
  if f.b.extractLsb' 2 4 = 0 then
    match decFloatTy (f.b.extractLsb' 0 2) with
    | none => none
    | some t =>
      match f.fn with
      | 0#4 => some (.fexp2 f.g f.d f.a t)
      | 1#4 => some (.flog2 f.g f.d f.a t)
      | 2#4 => some (.frcp f.g f.d f.a t)
      | 3#4 => some (.frsq f.g f.d f.a t)
      | 4#4 => some (.fsqrt f.g f.d f.a t)
      | 5#4 => some (.fsinpi f.g f.d f.a t)
      | 6#4 => some (.fcospi f.g f.d f.a t)
      | 7#4 => some (.ftanh f.g f.d f.a t)
      | 8#4 => some (.fsigm f.g f.d f.a t)
      | 9#4 => some (.fgelu f.g f.d f.a t)
      | 10#4 => some (.fsilu f.g f.d f.a t)
      | 11#4 => some (.ferf f.g f.d f.a t)
      | _ => none
  else none

/-- Typed CVT (R54): DT is B[5:2], ST is B[1:0] : FN[3:2]. -/
def decCvt (f : LaneFields) : Option Instr :=
  match decCvtTy (f.b.extractLsb' 2 4), decCvtTy (f.b.extractLsb' 0 2 ++ f.fn.extractLsb' 2 2) with
  | some dty, some sty => some (.cvt f.g f.d f.a dty sty (f.fn.getLsbD 1) (f.fn.getLsbD 0))
  | _, _ => none

/-- The format-word instructions (R48). -/
def decFw (f : LaneFields) : Option Instr :=
  match f.fn with
  | 0#4 => some (.qscale f.g f.d f.a f.b)
  | 1#4 => some (.qpack f.g f.d f.a f.b)
  | 2#4 => some (.qunpk f.g f.d f.a f.b)
  | 3#4 => some (.cvtFw f.g f.d f.a f.b)
  | _ => none

/-- VOTE and SHFL (R55). -/
def decVote (f : LaneFields) : Option Instr :=
  let x := f.fn.getLsbD 3
  let k := f.d.extractLsb' 0 3
  let p := f.a.extractLsb' 0 4
  let z := f.a.extractLsb' 4 2 == 0 && f.b == 0
  let zd := z && f.d.extractLsb' 3 3 == 0
  match f.fn.extractLsb' 0 3 with
  | 0#3 => okIf zd (.voteAll f.g k p x)
  | 1#3 => okIf zd (.voteAny f.g k p x)
  | 2#3 => okIf z (.voteBal f.g f.d p x)
  | 3#3 => okIf zd (.voteEq f.g k p x)
  | 4#3 => some (.shflIdx f.g f.d f.a f.b x)
  | 5#3 => some (.shflUp f.g f.d f.a f.b x)
  | 6#3 => some (.shflDn f.g f.d f.a f.b x)
  | 7#3 => some (.shflXor f.g f.d f.a f.b x)

/-- REDUX and SCAN (R56). -/
def decRedux (f : LaneFields) : Option Instr :=
  let x := f.b.getLsbD 5
  let k := f.b.extractLsb' 0 3
  match decRedOp f.fn with
  | none => none
  | some op =>
    match f.b.extractLsb' 3 2 with
    | 0#2 => some (.redux f.g f.d f.a x k op)
    | 1#2 => some (.scanInc f.g f.d f.a x k op)
    | 2#2 => some (.scanExc f.g f.d f.a x k op)
    | _ => none

/-- The control major (R57). -/
def decControl (f : LaneFields) : Option Instr :=
  let zd := f.d == 0
  let za := f.a == 0
  let zb := f.b == 0
  match f.fn with
  | 0#4 => okIf (zd && zb) (.brx f.g f.a)
  | 1#4 => okIf (zd && zb) (.callx f.g f.a)
  | 2#4 => okIf (zd && za && zb) (.ret f.g)
  | 3#4 => okIf (zd && za && zb) (.join f.g)
  | 4#4 => okIf (zd && za && zb) (.exit f.g)
  | 5#4 => okIf (zd && za && zb) (.eret f.g)
  | 6#4 => okIf (f.d.extractLsb' 2 4 == 0 && zb) (.live f.g (f.d.extractLsb' 0 2) f.a)
  | 7#4 => okIf (zd && za && zb) (.yield f.g)
  | 8#4 => okIf (zd && zb) (.trap f.g f.a)
  | _ => none

/-- The home-die hint: HDIE is 0 when HV is 0 (R58). -/
def decHint (fn : BitVec 4) : Option (Option (BitVec 3)) :=
  if fn.getLsbD 3 then some (some (fn.extractLsb' 0 3)) else if fn = 0 then some none else none

/-- The FN field of a home-die hint (R58). -/
def encHint : Option (BitVec 3) → BitVec 4
  | none => 0
  | some h => 1#1 ++ h

/-- Register forms of global accesses (R58). -/
def decMem (f : LaneFields) : Option Instr :=
  match decMWidth (f.b.extractLsb' 2 3), decMOrd (f.b.extractLsb' 0 2), decHint f.fn with
  | some w, some r, some h =>
    some (if f.b.getLsbD 5 then .st f.g f.d f.a w r h else .ld f.g f.d f.a w r h)
  | _, _, _ => none

/-- Register forms of core-local accesses (R58). -/
def decShared (f : LaneFields) : Option Instr :=
  match decMWidth (f.b.extractLsb' 2 3) with
  | none => none
  | some w =>
    let r := f.b.getLsbD 0
    okIf (f.fn == 0 && !f.b.getLsbD 1) (if f.b.getLsbD 5 then .sts f.g f.d f.a w r else .lds f.g f.d f.a w r)

/-- The memory-misc major (R59). -/
def decMisc (f : LaneFields) : Option Instr :=
  let zd := f.d == 0
  let za := f.a == 0
  let zb := f.b == 0
  match f.fn with
  | 0#4 => some (.smap f.g f.d f.a f.b)
  | 1#4 => okIf (zd && zb) (.pref f.g f.a)
  | 2#4 => okIf (zd && za && zb) (.fenceAcq f.g)
  | 3#4 => okIf (zd && za && zb) (.fenceRel f.g)
  | 4#4 => okIf (zd && za && zb) (.fenceAr f.g)
  | _ => none

/-- The atomic major (R60). -/
def decAtomic (f : LaneFields) : Option Instr :=
  let t : AtomFlags := { acq := f.b.getLsbD 5, rel := f.b.getLsbD 4, ord := f.b.getLsbD 3 }
  let w := f.b.getLsbD 2
  let z2 := f.b.extractLsb' 0 2 == 0
  let z3 := f.b.extractLsb' 0 3 == 0
  match f.fn with
  | 0#4 => okIf z2 (.atomAdd f.g f.d f.a t w)
  | 1#4 => okIf z2 (.atomMinS f.g f.d f.a t w)
  | 2#4 => okIf z2 (.atomMinZ f.g f.d f.a t w)
  | 3#4 => okIf z2 (.atomMaxS f.g f.d f.a t w)
  | 4#4 => okIf z2 (.atomMaxZ f.g f.d f.a t w)
  | 5#4 => okIf z2 (.atomAnd f.g f.d f.a t w)
  | 6#4 => okIf z2 (.atomOr f.g f.d f.a t w)
  | 7#4 => okIf z2 (.atomXor f.g f.d f.a t w)
  | 8#4 => okIf z2 (.atomExch f.g f.d f.a t w)
  | 9#4 => okIf z3 (.incw f.g f.d f.a t)
  | 10#4 => okIf z3 (.decw f.g f.d f.a t)
  | 11#4 => some (.atomAddb f.g f.d f.a t (f.b.extractLsb' 0 3))
  | 12#4 => okIf z3 (.atomCasW f.g f.d f.a t)
  | 13#4 => okIf z3 (.atomCasD f.g f.d f.a t)
  | 14#4 => okIf z3 (.atomCasQ f.g f.d f.a t)
  | _ => none

/-- WAITC (R60). -/
def decWaitc (f : LaneFields) : Option Instr :=
  match decWCmp f.fn with
  | none => none
  | some c => okIf (f.b.extractLsb' 0 5 == 0) (.waitc f.g f.d f.a (f.b.getLsbD 5) c)

/-- The block major (R61). -/
def decBlock (f : LaneFields) : Option Instr :=
  let n := f.a.extractLsb' 0 4
  let zn := f.a.extractLsb' 4 2 == 0 && f.b == 0
  let zd := f.d == 0
  match f.fn with
  | 0#4 => okIf (zd && f.b == 0) (.give f.g f.a)
  | 1#4 => okIf (zd && f.b == 0) (.take f.g f.a)
  | 2#4 => okIf (zd && zn) (.barSync f.g n)
  | 3#4 => okIf (zd && zn) (.barArr f.g n)
  | 4#4 => okIf (zd && zn) (.barWait f.g n)
  | 5#4 => okIf zn (.rwait f.g f.d n)
  | 6#4 => okIf (zd && zn) (.rdone f.g n)
  | _ => none

/-- The engine major (R61): engine 0-3; ECMD's command is the B field. -/
def decEngine (f : LaneFields) : Option Instr :=
  let n := f.d.extractLsb' 0 2
  let zd := f.d.extractLsb' 2 4 == 0
  match f.fn with
  | 0#4 => okIf zd (.eset f.g n f.a f.b)
  | 1#4 => okIf (f.a.extractLsb' 2 4 == 0) (.eget f.g f.d (f.a.extractLsb' 0 2) f.b)
  | 2#4 =>
    if f.b = 0 then
      match n with
      | 2#2 => okIf zd (.sparseIndexGo f.g f.a)
      | 3#2 => okIf zd (.lodestarGo f.g f.a)
      | _ => okIf zd (.ecmdGo f.g (n.getLsbD 0) f.a)
    else
      match n with
      | 2#2 => okIf zd (.sparseIndexClear f.g f.a f.b)
      | 3#2 => okIf zd (.lodestarClear f.g f.a f.b)
      | _ => okIf zd (.ecmdClear f.g (n.getLsbD 0) f.a f.b)
  | 3#4 => okIf (zd && !n.getLsbD 1) (.copy f.g (n.getLsbD 0) f.a f.b)
  | 4#4 => okIf (f.d == 0) (.ewait f.g f.a f.b)
  | _ => none

/-- The level major (R61). -/
def decLevel (f : LaneFields) : Option Instr :=
  let n := f.a.extractLsb' 0 4
  let z := f.d == 0 && f.a.extractLsb' 4 2 == 0 && f.b == 0
  match f.fn with
  | 0#4 => okIf z (.cbarSync f.g n)
  | 1#4 => okIf z (.cbarArr f.g n)
  | 2#4 => okIf z (.cbarWait f.g n)
  | 3#4 => okIf (f.d == 0 && f.b == 0) (.dbar f.g f.a)
  | 4#4 => okIf (f.d == 0) (.emit f.g f.a f.b)
  | _ => none

/-- The system major (R61, R62). -/
def decSystem (f : LaneFields) : Option Instr :=
  match f.fn with
  | 0#4 => (decSpecReg f.b).bind fun n => okIf (f.a == 0) (.mfs f.g f.d n)
  | 1#4 => (decSpecReg f.b).bind fun n => okIf (f.d == 0) (.mts f.g f.a n)
  | 2#4 => okIf (f.d == 0 && f.b == 0) (.ctxsv f.g f.a)
  | 3#4 => okIf (f.d == 0 && f.b == 0) (.ctxld f.g f.a)
  | _ => none

/-- The instruction that the fields of a lane word and the following literal word name, by major (R47, R48). -/
def decLaneRaw (f : LaneFields) (lit : Word) : Option Instr :=
  if f.op.toNat < 16 then decInt f lit
  else
    match f.op with
    | 0x10#6 => some (.moviV f.g f.d f.imm16)
    | 0x11#6 => some (.movhiV f.g f.d f.imm16)
    | 0x12#6 => decCmp f lit
    | 0x13#6 => some (.sel f.g f.d f.a f.b f.fn)
    | 0x14#6 => decPred f
    | 0x15#6 => decPacked f
    | 0x16#6 => decPacked f
    | 0x17#6 => decPacked f
    | 0x18#6 => decPacked f
    | 0x19#6 => decPacked f
    | 0x1A#6 => decPacked f
    | 0x1B#6 => decPacked f
    | 0x1C#6 => decFloat f lit
    | 0x1D#6 => decFloat f lit
    | 0x1E#6 => decFloat f lit
    | 0x1F#6 => decCmp f lit
    | 0x20#6 => decSpecial f
    | 0x21#6 => decCvt f
    | 0x22#6 => decFw f
    | 0x23#6 => decVote f
    | 0x24#6 => decRedux f
    | 0x25#6 => some (.bra f.g f.ofs22)
    | 0x26#6 => some (.braEj f.g (f.ofs22.extractLsb' 20 2) (f.ofs22.extractLsb' 0 20))
    | 0x27#6 => some (.call f.g f.ofs22)
    | 0x28#6 => decControl f
    | 0x29#6 => decMem f
    | 0x2A#6 => decShared f
    | 0x2B#6 => decMisc f
    | 0x2C#6 => decAtomic f
    | 0x2D#6 => decWaitc f
    | 0x2E#6 => decBlock f
    | 0x2F#6 => decEngine f
    | 0x30#6 => decLevel f
    | 0x31#6 => decSystem f
    | 0x32#6 => some (.ldW f.g f.d f.a f.imm10)
    | 0x33#6 => some (.ldD f.g f.d f.a f.imm10)
    | 0x34#6 => some (.ldQ f.g f.d f.a f.imm10)
    | 0x35#6 => some (.stW f.g f.d f.a f.imm10)
    | 0x36#6 => some (.stD f.g f.d f.a f.imm10)
    | 0x37#6 => some (.stQ f.g f.d f.a f.imm10)
    | 0x38#6 => some (.ldsW f.g f.d f.a f.imm10)
    | 0x39#6 => some (.stsW f.g f.d f.a f.imm10)
    | 0x3A#6 => some (.moviS f.g f.d f.imm16)
    | 0x3B#6 => some (.movhiS f.g f.d f.imm16)
    | _ => none

/-- The lane decoder: a word and the word after it, which only a format X instruction uses (R42). `none` is an
illegal instruction (R46). -/
def decodeLane (w lit : Word) : Option Instr := (decLaneRaw (laneFields w) lit).filter Instr.wf

/-! ## Encoding of lane words -/

/-- The fields and the literal word of a lane instruction. -/
structure LaneCode where
  fields : LaneFields
  lit : Option Word
  deriving DecidableEq, Repr

/-- Format T code. -/
def codeT (op : BitVec 6) (g : BitVec 4) (d a b : BitVec 6) (fn : BitVec 4) : Option LaneCode :=
  some { fields := { op := op, g := g, d := d, a := a, b := b, fn := fn }, lit := none }

/-- Format T code with an operand class (R44). -/
def codeOC (op : BitVec 6) (g : BitVec 4) (d a : BitVec 6) (src : Src) (sub : BitVec 2) : Option LaneCode :=
  some { fields := { op := op, g := g, d := d, a := a, b := src.field, fn := src.oc ++ sub }, lit := src.literal }

/-- Majors 0x00-0x0F (R47). -/
def codeInt (grp : BitVec 3) (sub : BitVec 2) (g : BitVec 4) (w : Bool) (d a : BitVec 6) (src : Src) :
    Option LaneCode :=
  codeOC ((0#2 ++ grp : BitVec 5) ++ BitVec.ofBool w : BitVec 6) g d a src sub

/-- Format I code (R41). -/
def codeI (op : BitVec 6) (g : BitVec 4) (d : BitVec 6) (imm : BitVec 16) : Option LaneCode :=
  codeT op g d (imm.extractLsb' 10 6) (imm.extractLsb' 4 6) (imm.extractLsb' 0 4)

/-- Format M code (R41). -/
def codeM (op : BitVec 6) (g : BitVec 4) (d a : BitVec 6) (imm : BitVec 10) : Option LaneCode :=
  codeT op g d a (imm.extractLsb' 4 6) (imm.extractLsb' 0 4)

/-- Format J code (R41). -/
def codeJ (op : BitVec 6) (g : BitVec 4) (ofs : BitVec 22) : Option LaneCode :=
  codeT op g (ofs.extractLsb' 16 6) (ofs.extractLsb' 10 6) (ofs.extractLsb' 4 6) (ofs.extractLsb' 0 4)

/-- FN of the packed family (R52). -/
def packedFn (e : EWidth) (u x : Bool) : BitVec 4 :=
  ((encEWidth e ++ BitVec.ofBool u : BitVec 3) ++ BitVec.ofBool x : BitVec 4)

/-- A predicate pair in D[18:16] (R50). -/
def pairField (k : BitVec 3) : BitVec 6 := 0#3 ++ k
/-- A 4-bit number in A[13:10] or B[7:4] (R51, R61). -/
def numField (n : BitVec 4) : BitVec 6 := 0#2 ++ n
/-- An engine number in D[18:16] or A[12:10] (R61). -/
def engField (n : BitVec 2) : BitVec 6 := 0#4 ++ n
/-- A copy engine number. -/
def copyField (n : Bool) : BitVec 6 := 0#5 ++ BitVec.ofBool n
/-- B of a register-form access (R58). -/
def memB (dir : Bool) (w : MWidth) (ord : BitVec 2) : BitVec 6 :=
  ((BitVec.ofBool dir ++ encMWidth w : BitVec 4) ++ ord : BitVec 6)
/-- B of an atomic (R60). -/
def atomB (t : AtomFlags) (low : BitVec 3) : BitVec 6 :=
  (((BitVec.ofBool t.acq ++ BitVec.ofBool t.rel : BitVec 2) ++ BitVec.ofBool t.ord : BitVec 3) ++ low : BitVec 6)
/-- B[6:4] of an atomic with a W bit (R60). -/
def atomW (w : Bool) : BitVec 3 := BitVec.ofBool w ++ 0#2
/-- B of REDUX and SCAN (R56). -/
def reduxB (x : Bool) (kind : BitVec 2) (k : PairIx) : BitVec 6 :=
  ((BitVec.ofBool x ++ kind : BitVec 3) ++ k : BitVec 6)

/-- The encoder of lane instructions, from the tables of R47-R62; `none` for an instruction of another kind. -/
def laneCode : Instr → Option LaneCode
  | .iadd g w d a src => codeInt 0 0 g w d a src
  | .isub g w d a src => codeInt 0 1 g w d a src
  | .iaddc g w d a src => codeInt 0 2 g w d a src
  | .lea g w d a src => codeInt 0 3 g w d a src
  | .imlo g w d a src => codeInt 1 0 g w d a src
  | .imhiS g w d a src => codeInt 1 1 g w d a src
  | .imhiZ g w d a src => codeInt 1 2 g w d a src
  | .imac g w d a src => codeInt 1 3 g w d a src
  | .idivS g w d a src => codeInt 2 0 g w d a src
  | .idivZ g w d a src => codeInt 2 1 g w d a src
  | .iabs g w d src => codeInt 2 2 g w d 0 src
  | .ineg g w d src => codeInt 2 3 g w d 0 src
  | .iminS g w d a src => codeInt 3 0 g w d a src
  | .iminZ g w d a src => codeInt 3 1 g w d a src
  | .imaxS g w d a src => codeInt 3 2 g w d a src
  | .imaxZ g w d a src => codeInt 3 3 g w d a src
  | .and g w d a src => codeInt 4 0 g w d a src
  | .or g w d a src => codeInt 4 1 g w d a src
  | .xor g w d a src => codeInt 4 2 g w d a src
  | .andn g w d a src => codeInt 4 3 g w d a src
  | .shl g w d a src => codeInt 5 0 g w d a src
  | .shr g w d a src => codeInt 5 1 g w d a src
  | .sar g w d a src => codeInt 5 2 g w d a src
  | .rol g w d a src => codeInt 5 3 g w d a src
  | .bfxS g w d a src => codeInt 6 0 g w d a src
  | .bfxZ g w d a src => codeInt 6 1 g w d a src
  | .bfi g w d a src => codeInt 6 2 g w d a src
  | .not g w d src => codeInt 6 3 g w d 0 src
  | .clz g w d src => codeInt 7 0 g w d 0 src
  | .popc g w d src => codeInt 7 1 g w d 0 src
  | .brev g w d src => codeInt 7 2 g w d 0 src
  | .mov g w d src => codeInt 7 3 g w d 0 src
  | .moviV g d imm => codeI 0x10 g d imm
  | .movhiV g d imm => codeI 0x11 g d imm
  | .moviS g d imm => codeI 0x3A g d imm
  | .movhiS g d imm => codeI 0x3B g d imm
  | .icmp g c k a src u w => codeOC 0x12 g (encICond c ++ k) a src (BitVec.ofBool u ++ BitVec.ofBool w)
  | .sel g d a b f => codeT 0x13 g d a b f
  | .pand g k a b => codeT 0x14 g (pairField k) (numField a) (numField b) 0
  | .por g k a b => codeT 0x14 g (pairField k) (numField a) (numField b) 1
  | .pxor g k a b => codeT 0x14 g (pairField k) (numField a) (numField b) 2
  | .pnot g k a => codeT 0x14 g (pairField k) (numField a) 0 3
  | .padd g d a b e u x => codeT 0x15 g d a b (packedFn e u x)
  | .psub g d a b e u x => codeT 0x16 g d a b (packedFn e u x)
  | .pmul g d a b e u x => codeT 0x17 g d a b (packedFn e u x)
  | .pmin g d a b e u => codeT 0x18 g d a b (packedFn e u false)
  | .pmax g d a b e u => codeT 0x18 g d a b (packedFn e u true)
  | .pdot g d a b e u => codeT 0x19 g d a b (packedFn e u false)
  | .pwiden g d b e u => codeT 0x1A g d 0 b (packedFn e u false)
  | .pnarrow g d a b e u => codeT 0x1A g d a b (packedFn e u true)
  | .pcmpEq g d a b e u => codeT 0x1B g d a b (packedFn e u false)
  | .pcmpLt g d a b e u => codeT 0x1B g d a b (packedFn e u true)
  | .fadd g d a src => codeOC 0x1C g d a src 0
  | .fsub g d a src => codeOC 0x1C g d a src 1
  | .fmul g d a src => codeOC 0x1C g d a src 2
  | .ffma g d a src => codeOC 0x1C g d a src 3
  | .fmin g d a src => codeOC 0x1D g d a src 0
  | .fmax g d a src => codeOC 0x1D g d a src 1
  | .fclass g d src => codeOC 0x1D g d 0 src 2
  | .pfmaF16 g d a src => codeOC 0x1E g d a src 0
  | .pfmaBf16 g d a src => codeOC 0x1E g d a src 1
  | .fcmp g c k a src t => codeOC 0x1F g (encFCond c ++ k) a src (encFloatTy t)
  | .fexp2 g d a t => codeT 0x20 g d a (0#4 ++ encFloatTy t) 0
  | .flog2 g d a t => codeT 0x20 g d a (0#4 ++ encFloatTy t) 1
  | .frcp g d a t => codeT 0x20 g d a (0#4 ++ encFloatTy t) 2
  | .frsq g d a t => codeT 0x20 g d a (0#4 ++ encFloatTy t) 3
  | .fsqrt g d a t => codeT 0x20 g d a (0#4 ++ encFloatTy t) 4
  | .fsinpi g d a t => codeT 0x20 g d a (0#4 ++ encFloatTy t) 5
  | .fcospi g d a t => codeT 0x20 g d a (0#4 ++ encFloatTy t) 6
  | .ftanh g d a t => codeT 0x20 g d a (0#4 ++ encFloatTy t) 7
  | .fsigm g d a t => codeT 0x20 g d a (0#4 ++ encFloatTy t) 8
  | .fgelu g d a t => codeT 0x20 g d a (0#4 ++ encFloatTy t) 9
  | .fsilu g d a t => codeT 0x20 g d a (0#4 ++ encFloatTy t) 10
  | .ferf g d a t => codeT 0x20 g d a (0#4 ++ encFloatTy t) 11
  | .cvt g d a dty sty rz sat =>
    codeT 0x21 g d a (encCvtTy dty ++ (encCvtTy sty).extractLsb' 2 2)
      (((encCvtTy sty).extractLsb' 0 2 ++ BitVec.ofBool rz : BitVec 3) ++ BitVec.ofBool sat : BitVec 4)
  | .qscale g d a b => codeT 0x22 g d a b 0
  | .qpack g d a b => codeT 0x22 g d a b 1
  | .qunpk g d a b => codeT 0x22 g d a b 2
  | .cvtFw g d a b => codeT 0x22 g d a b 3
  | .voteAll g k p x => codeT 0x23 g (pairField k) (numField p) 0 (BitVec.ofBool x ++ 0#3)
  | .voteAny g k p x => codeT 0x23 g (pairField k) (numField p) 0 (BitVec.ofBool x ++ 1#3)
  | .voteBal g d p x => codeT 0x23 g d (numField p) 0 (BitVec.ofBool x ++ 2#3)
  | .voteEq g k p x => codeT 0x23 g (pairField k) (numField p) 0 (BitVec.ofBool x ++ 3#3)
  | .shflIdx g d a b x => codeT 0x23 g d a b (BitVec.ofBool x ++ 4#3)
  | .shflUp g d a b x => codeT 0x23 g d a b (BitVec.ofBool x ++ 5#3)
  | .shflDn g d a b x => codeT 0x23 g d a b (BitVec.ofBool x ++ 6#3)
  | .shflXor g d a b x => codeT 0x23 g d a b (BitVec.ofBool x ++ 7#3)
  | .redux g d a x k op => codeT 0x24 g d a (reduxB x 0 k) (encRedOp op)
  | .scanInc g d a x k op => codeT 0x24 g d a (reduxB x 1 k) (encRedOp op)
  | .scanExc g d a x k op => codeT 0x24 g d a (reduxB x 2 k) (encRedOp op)
  | .bra g ofs => codeJ 0x25 g ofs
  | .braEj g n ofs => codeJ 0x26 g (n ++ ofs)
  | .call g ofs => codeJ 0x27 g ofs
  | .brx g a => codeT 0x28 g 0 a 0 0
  | .callx g a => codeT 0x28 g 0 a 0 1
  | .ret g => codeT 0x28 g 0 0 0 2
  | .join g => codeT 0x28 g 0 0 0 3
  | .exit g => codeT 0x28 g 0 0 0 4
  | .eret g => codeT 0x28 g 0 0 0 5
  | .live g n a => codeT 0x28 g (engField n) a 0 6
  | .yield g => codeT 0x28 g 0 0 0 7
  | .trap g n => codeT 0x28 g 0 n 0 8
  | .ld g d a w r h => codeT 0x29 g d a (memB false w (encMOrd r)) (encHint h)
  | .st g d a w r h => codeT 0x29 g d a (memB true w (encMOrd r)) (encHint h)
  | .lds g d a w r => codeT 0x2A g d a (memB false w (0#1 ++ BitVec.ofBool r)) 0
  | .sts g d a w r => codeT 0x2A g d a (memB true w (0#1 ++ BitVec.ofBool r)) 0
  | .smap g d a b => codeT 0x2B g d a b 0
  | .pref g a => codeT 0x2B g 0 a 0 1
  | .fenceAcq g => codeT 0x2B g 0 0 0 2
  | .fenceRel g => codeT 0x2B g 0 0 0 3
  | .fenceAr g => codeT 0x2B g 0 0 0 4
  | .atomAdd g d a t w => codeT 0x2C g d a (atomB t (atomW w)) 0
  | .atomMinS g d a t w => codeT 0x2C g d a (atomB t (atomW w)) 1
  | .atomMinZ g d a t w => codeT 0x2C g d a (atomB t (atomW w)) 2
  | .atomMaxS g d a t w => codeT 0x2C g d a (atomB t (atomW w)) 3
  | .atomMaxZ g d a t w => codeT 0x2C g d a (atomB t (atomW w)) 4
  | .atomAnd g d a t w => codeT 0x2C g d a (atomB t (atomW w)) 5
  | .atomOr g d a t w => codeT 0x2C g d a (atomB t (atomW w)) 6
  | .atomXor g d a t w => codeT 0x2C g d a (atomB t (atomW w)) 7
  | .atomExch g d a t w => codeT 0x2C g d a (atomB t (atomW w)) 8
  | .incw g d a t => codeT 0x2C g d a (atomB t 0) 9
  | .decw g d a t => codeT 0x2C g d a (atomB t 0) 10
  | .atomAddb g d a t k => codeT 0x2C g d a (atomB t k) 11
  | .atomCasW g d a t => codeT 0x2C g d a (atomB t 0) 12
  | .atomCasD g d a t => codeT 0x2C g d a (atomB t 0) 13
  | .atomCasQ g d a t => codeT 0x2C g d a (atomB t 0) 14
  | .waitc g d a w c => codeT 0x2D g d a (BitVec.ofBool w ++ 0#5) (encWCmp c)
  | .give g a => codeT 0x2E g 0 a 0 0
  | .take g a => codeT 0x2E g 0 a 0 1
  | .barSync g b => codeT 0x2E g 0 (numField b) 0 2
  | .barArr g b => codeT 0x2E g 0 (numField b) 0 3
  | .barWait g b => codeT 0x2E g 0 (numField b) 0 4
  | .rwait g d r => codeT 0x2E g d (numField r) 0 5
  | .rdone g r => codeT 0x2E g 0 (numField r) 0 6
  | .eset g n a r => codeT 0x2F g (engField n) a r 0
  | .eget g d n r => codeT 0x2F g d (engField n) r 1
  | .ecmdGo g n a => codeT 0x2F g (copyField n) a 0 2
  | .ecmdClear g n a c => codeT 0x2F g (copyField n) a c 2
  | .sparseIndexGo g a => codeT 0x2F g 2 a 0 2
  | .sparseIndexClear g a c => codeT 0x2F g 2 a c 2
  | .lodestarGo g a => codeT 0x2F g 3 a 0 2
  | .lodestarClear g a c => codeT 0x2F g 3 a c 2
  | .copy g n a b => codeT 0x2F g (copyField n) a b 3
  | .ewait g a b => codeT 0x2F g 0 a b 4
  | .cbarSync g b => codeT 0x30 g 0 (numField b) 0 0
  | .cbarArr g b => codeT 0x30 g 0 (numField b) 0 1
  | .cbarWait g b => codeT 0x30 g 0 (numField b) 0 2
  | .dbar g a => codeT 0x30 g 0 a 0 3
  | .emit g a b => codeT 0x30 g 0 a b 4
  | .mfs g d n => codeT 0x31 g d 0 (encSpecReg n) 0
  | .mts g a n => codeT 0x31 g 0 a (encSpecReg n) 1
  | .ctxsv g a => codeT 0x31 g 0 a 0 2
  | .ctxld g a => codeT 0x31 g 0 a 0 3
  | .ldW g d a imm => codeM 0x32 g d a imm
  | .ldD g d a imm => codeM 0x33 g d a imm
  | .ldQ g d a imm => codeM 0x34 g d a imm
  | .stW g d a imm => codeM 0x35 g d a imm
  | .stD g d a imm => codeM 0x36 g d a imm
  | .stQ g d a imm => codeM 0x37 g d a imm
  | .ldsW g d a imm => codeM 0x38 g d a imm
  | .stsW g d a imm => codeM 0x39 g d a imm
  | _ => none

/-- The instruction's words in memory order: one word, or two in format X (R42). -/
def encodeLane (i : Instr) : Option (Word × Option Word) := (laneCode i).map fun c => (c.fields.word, c.lit)

/-- The instruction is a lane instruction. -/
def Instr.isLane (i : Instr) : Bool := (laneCode i).isSome

/-- The bytes that a lane instruction occupies (R42). -/
def Instr.laneSize (i : Instr) : Nat :=
  match laneCode i with
  | some c => if c.lit.isSome then 8 else 4
  | none => 4

/-! ## Bundles (R63-R66) -/

/-- The four slots of a column packet (R63). -/
inductive SlotPos
  | s | t | v | m
  deriving DecidableEq, Repr

/-- The fields of a slot word: OP, guard and bits [21:0] (R64). -/
structure SlotFields where
  op : BitVec 6
  g : BitVec 4
  bits : BitVec 22
  deriving DecidableEq, Repr

/-- The fields of a slot word (R64). -/
def slotFields (w : Word) : SlotFields :=
  { op := w.extractLsb' 26 6, g := w.extractLsb' 22 4, bits := w.extractLsb' 0 22 }

/-- The slot word with given fields (R64). -/
def SlotFields.word (f : SlotFields) : Word := (f.op ++ (f.g ++ f.bits : BitVec 26) : BitVec 32)

/-- S-slot words (R65, R66). -/
def decSlotS (c : Col) (f : SlotFields) : Option Instr :=
  let d := f.bits.extractLsb' 17 5
  let a := f.bits.extractLsb' 12 5
  let b := f.bits.extractLsb' 7 5
  let h := f.bits.extractLsb' 14 8
  let n := f.bits.extractLsb' 10 4
  match f.op with
  | 0x01#6 => some (.sadd c f.g d a b)
  | 0x02#6 => some (.ssub c f.g d a b)
  | 0x03#6 => some (.smul c f.g d a b)
  | 0x04#6 => some (.sand c f.g d a b)
  | 0x05#6 => some (.sor c f.g d a b)
  | 0x06#6 => some (.sshl c f.g d a b)
  | 0x07#6 => some (.sli c f.g d (f.bits.extractLsb' 0 17))
  | 0x08#6 =>
    (decSCond (f.bits.extractLsb' 16 3)).map fun cond =>
      .scmp c f.g (f.bits.extractLsb' 19 3) cond (f.bits.extractLsb' 11 5) (f.bits.extractLsb' 6 5)
  | 0x09#6 => some (.sbra c f.g f.bits)
  | 0x0A#6 => some (.sloop c f.g d (f.bits.extractLsb' 0 17))
  | 0x0B#6 => some (.scall c f.g f.bits)
  | 0x0C#6 => some (.sret c f.g)
  | 0x0D#6 => some (.sgive c f.g h n)
  | 0x0E#6 => some (.stake c f.g h n)
  | 0x0F#6 =>
    let r := f.bits.extractLsb' 18 4
    match f.bits.extractLsb' 16 2 with
    | 0#2 => some (.sbarSync c f.g r)
    | 1#2 => some (.sbarArr c f.g r)
    | 2#2 => some (.sbarWait c f.g r)
    | _ => none
  | 0x10#6 => some (.sstat c f.g d)
  | 0x11#6 => some (.shalt c f.g)
  | _ => none

/-- T-slot words (R65, R66). -/
def decSlotT (c : Col) (f : SlotFields) : Option Instr :=
  let h := f.bits.extractLsb' 14 8
  let a := f.bits.extractLsb' 8 6
  let b := f.bits.extractLsb' 2 6
  match f.op with
  | 0x07#6 => some (.tzero c f.g h (f.bits.extractLsb' 10 4))
  | 0x08#6 =>
    (decFmt (f.bits.extractLsb' 2 4)).map fun t =>
      .tcvt c f.g h (f.bits.extractLsb' 6 8) t (f.bits.getLsbD 1) (f.bits.getLsbD 0)
  | _ =>
    match decShape (f.bits.extractLsb' 0 2) with
    | none => none
    | some s =>
      match f.op with
      | 0x01#6 => some (.tmmaBf16 c f.g h a b s)
      | 0x02#6 => some (.tmmaF16 c f.g h a b s)
      | 0x03#6 => some (.tmmaE4M3 c f.g h a b s)
      | 0x04#6 => some (.tmmaE5M2 c f.g h a b s)
      | 0x05#6 => some (.tmmaQf4 c f.g h a b s)
      | 0x06#6 => some (.tmmaF32 c f.g h a b s)
      | _ => none

/-- The fields of a V-slot word (R66). -/
def decVFields (bits : BitVec 22) : VFields :=
  { od := bits.extractLsb' 14 8, os := bits.extractLsb' 6 8, m := bits.extractLsb' 3 3, f := bits.extractLsb' 0 3 }

/-- V-slot words (R65, R66). -/
def decSlotV (c : Col) (f : SlotFields) : Option Instr :=
  let v := decVFields f.bits
  match f.op with
  | 0x01#6 => some (.vadd c f.g v)
  | 0x02#6 => some (.vmul c f.g v)
  | 0x03#6 => some (.vfma c f.g v)
  | 0x04#6 => some (.vmax c f.g v)
  | 0x05#6 => some (.vmin c f.g v)
  | 0x06#6 => some (.vrelu c f.g v)
  | 0x07#6 => some (.vsel c f.g v)
  | 0x08#6 => (decVRedKind v.f).map fun r => .vred c f.g v r
  | 0x09#6 => some (.vscl c f.g v)
  | _ => none

/-- M-slot words (R65, R66). -/
def decSlotM (c : Col) (f : SlotFields) : Option Instr :=
  let h := f.bits.extractLsb' 14 8
  let z := f.bits.extractLsb' 19 3
  let x := f.bits.extractLsb' 14 5
  match f.op with
  | 0x01#6 => some (.tld c f.g h (f.bits.extractLsb' 9 5) (f.bits.extractLsb' 6 3))
  | 0x02#6 => some (.tst c f.g h (f.bits.extractLsb' 9 5) (f.bits.extractLsb' 6 3))
  | 0x03#6 => some (.zbind c f.g z x)
  | 0x04#6 => some (.zset c f.g z x (f.bits.extractLsb' 10 4))
  | 0x05#6 => some (.zskip c f.g z x)
  | _ => none

/-- The slot decoder: OP 0 is NOP in every slot (R64); `none` is an illegal slot word (R65). -/
def decodeSlot (c : Col) (p : SlotPos) (w : Word) : Option Instr :=
  let f := slotFields w
  if f.op = 0 then some (.nop c (w.extractLsb' 0 26))
  else
    (match p with
      | .s => decSlotS c f
      | .t => decSlotT c f
      | .v => decSlotV c f
      | .m => decSlotM c f).filter Instr.wf

/-- Slot code: OP, guard, bits. -/
def codeSlot (p : SlotPos) (c : Col) (op : BitVec 6) (g : BitVec 4) (bits : BitVec 22) :
    Option (SlotPos × Col × SlotFields) :=
  some (p, c, { op := op, g := g, bits := bits })

/-- Bits of a V-slot word (R66). -/
def vBits (v : VFields) : BitVec 22 := (v.od ++ ((v.os ++ (v.m ++ v.f : BitVec 6) : BitVec 14)) : BitVec 22)
/-- Bits of a three-register scalar word (R66). -/
def sBits (d a b : XReg) : BitVec 22 := (d ++ (a ++ (b ++ 0#7 : BitVec 12) : BitVec 17) : BitVec 22)
/-- Bits of a TMMA word (R66). -/
def tBits (t : Handle) (a b : BitVec 6) (s : Shape) : BitVec 22 :=
  (t ++ (a ++ (b ++ encShape s : BitVec 8) : BitVec 14) : BitVec 22)
/-- Bits of a word with a handle and a count (R66). -/
def hBits (t : Handle) (n : BitVec 4) : BitVec 22 := (t ++ (n ++ 0#10 : BitVec 14) : BitVec 22)
/-- Bits of an SBAR word (R66). -/
def barBits (b : BitVec 4) (mode : BitVec 2) : BitVec 22 := (b ++ (mode ++ 0#16 : BitVec 18) : BitVec 22)
/-- Bits of a TLD or TST word (R66). -/
def mBits (t : Handle) (x : XReg) (n : BitVec 3) : BitVec 22 :=
  (t ++ (x ++ (n ++ 0#6 : BitVec 9) : BitVec 14) : BitVec 22)
/-- Bits of a ZBIND or ZSKIP word (R66). -/
def zBits (z : BitVec 3) (x : XReg) : BitVec 22 := (z ++ (x ++ 0#14 : BitVec 19) : BitVec 22)

/-- The encoder of slot words (R65, R66), with reserved fields 0; `none` for an instruction of another kind. NOP's
position is any, and S stands for it. -/
def slotCode : Instr → Option (SlotPos × Col × SlotFields)
  | .nop c bits => codeSlot .s c 0 (bits.extractLsb' 22 4) (bits.extractLsb' 0 22)
  | .sadd c g d a b => codeSlot .s c 0x01 g (sBits d a b)
  | .ssub c g d a b => codeSlot .s c 0x02 g (sBits d a b)
  | .smul c g d a b => codeSlot .s c 0x03 g (sBits d a b)
  | .sand c g d a b => codeSlot .s c 0x04 g (sBits d a b)
  | .sor c g d a b => codeSlot .s c 0x05 g (sBits d a b)
  | .sshl c g d a b => codeSlot .s c 0x06 g (sBits d a b)
  | .sli c g d imm => codeSlot .s c 0x07 g (d ++ imm)
  | .scmp c g k cond a b =>
    codeSlot .s c 0x08 g (k ++ (encSCond cond ++ (a ++ (b ++ 0#6 : BitVec 11) : BitVec 16) : BitVec 19) : BitVec 22)
  | .sbra c g ofs => codeSlot .s c 0x09 g ofs
  | .sloop c g x ofs => codeSlot .s c 0x0A g (x ++ ofs)
  | .scall c g ofs => codeSlot .s c 0x0B g ofs
  | .sret c g => codeSlot .s c 0x0C g 0
  | .sgive c g t n => codeSlot .s c 0x0D g (hBits t n)
  | .stake c g t n => codeSlot .s c 0x0E g (hBits t n)
  | .sbarSync c g b => codeSlot .s c 0x0F g (barBits b 0)
  | .sbarArr c g b => codeSlot .s c 0x0F g (barBits b 1)
  | .sbarWait c g b => codeSlot .s c 0x0F g (barBits b 2)
  | .sstat c g d => codeSlot .s c 0x10 g (d ++ 0#17)
  | .shalt c g => codeSlot .s c 0x11 g 0
  | .tmmaBf16 c g t a b s => codeSlot .t c 0x01 g (tBits t a b s)
  | .tmmaF16 c g t a b s => codeSlot .t c 0x02 g (tBits t a b s)
  | .tmmaE4M3 c g t a b s => codeSlot .t c 0x03 g (tBits t a b s)
  | .tmmaE5M2 c g t a b s => codeSlot .t c 0x04 g (tBits t a b s)
  | .tmmaQf4 c g t a b s => codeSlot .t c 0x05 g (tBits t a b s)
  | .tmmaF32 c g t a b s => codeSlot .t c 0x06 g (tBits t a b s)
  | .tzero c g t n => codeSlot .t c 0x07 g (hBits t n)
  | .tcvt c g d s f rz sat =>
    codeSlot .t c 0x08 g
      (d ++ (s ++ (encFmt f ++ (BitVec.ofBool rz ++ BitVec.ofBool sat : BitVec 2) : BitVec 6) : BitVec 14) : BitVec 22)
  | .vadd c g v => codeSlot .v c 0x01 g (vBits v)
  | .vmul c g v => codeSlot .v c 0x02 g (vBits v)
  | .vfma c g v => codeSlot .v c 0x03 g (vBits v)
  | .vmax c g v => codeSlot .v c 0x04 g (vBits v)
  | .vmin c g v => codeSlot .v c 0x05 g (vBits v)
  | .vrelu c g v => codeSlot .v c 0x06 g (vBits v)
  | .vsel c g v => codeSlot .v c 0x07 g (vBits v)
  | .vred c g v _ => codeSlot .v c 0x08 g (vBits v)
  | .vscl c g v => codeSlot .v c 0x09 g (vBits v)
  | .tld c g t x n => codeSlot .m c 0x01 g (mBits t x n)
  | .tst c g t x n => codeSlot .m c 0x02 g (mBits t x n)
  | .zbind c g z x => codeSlot .m c 0x03 g (zBits z x)
  | .zset c g z x f => codeSlot .m c 0x04 g (z ++ (x ++ (f ++ 0#10 : BitVec 14) : BitVec 19) : BitVec 22)
  | .zskip c g z x => codeSlot .m c 0x05 g (zBits z x)
  | _ => none

/-- The slot word of a slot instruction. -/
def encodeSlot (i : Instr) : Option Word := (slotCode i).map fun c => c.2.2.word

/-- The instruction is a slot instruction. -/
def Instr.isSlot (i : Instr) : Bool := (slotCode i).isSome

/-- A head word (R63). -/
structure Head where
  stall : BitVec 5
  drain : Bool
  safe : Bool
  cols : BitVec 2
  liveix : BitVec 23
  deriving DecidableEq, Repr

/-- The fields of a head word (R63). -/
def decodeHead (w : Word) : Head :=
  { stall := w.extractLsb' 27 5, drain := w.getLsbD 26, safe := w.getLsbD 25, cols := w.extractLsb' 23 2,
    liveix := w.extractLsb' 0 23 }

/-- The columns that a head word announces: 1, 2 or 4; `none` for the illegal 0b11 (R63). -/
def Head.columns (h : Head) : Option Nat :=
  match h.cols with
  | 0#2 => some 1
  | 1#2 => some 2
  | 2#2 => some 4
  | _ => none

/-- The head word with given fields (R63). -/
def Head.word (h : Head) : Word :=
  (h.stall ++ (BitVec.ofBool h.drain ++ (BitVec.ofBool h.safe ++ (h.cols ++ h.liveix : BitVec 25) : BitVec 26)
    : BitVec 27) : BitVec 32)

/-- The slot instructions of one column packet, S, T, V, M (R63). -/
structure Packet where
  s : Instr
  t : Instr
  v : Instr
  m : Instr
  deriving DecidableEq, Repr

/-- A bundle: its head and its column packets (R63). -/
structure Bundle where
  head : Head
  cols : List Packet
  deriving DecidableEq, Repr

/-- The packet decoder; `none` when a slot word is illegal. -/
def decodePacket (c : Col) (s t v m : Word) : Option Packet :=
  match decodeSlot c .s s, decodeSlot c .t t, decodeSlot c .v v, decodeSlot c .m m with
  | some s, some t, some v, some m => some { s := s, t := t, v := v, m := m }
  | _, _, _, _ => none

/-- The packets of `n` columns from the first column `c` on, from the words after the head. -/
def decodePackets : Nat → Nat → List Word → Option (List Packet)
  | 0, _, _ => some []
  | n + 1, c, s :: t :: v :: m :: rest =>
    match decodePacket (BitVec.ofNat 2 c) s t v m, decodePackets n (c + 1) rest with
    | some p, some ps => some (p :: ps)
    | _, _ => none
  | _ + 1, _, _ => none

/-- The bundle decoder on a facet of `width` columns: head word and the slot words after it; `none` is an illegal
bundle (R63, R64). -/
def decodeBundle (width : Nat) (head : Word) (slots : List Word) : Option Bundle :=
  let h := decodeHead head
  match h.columns with
  | none => none
  | some n =>
    if n ≤ width then (decodePackets n 0 slots).map fun ps => { head := h, cols := ps } else none

/-- The words of a bundle (R63). -/
def encodeBundle (b : Bundle) : List Word :=
  b.head.word :: b.cols.flatMap fun p => [p.s, p.t, p.v, p.m].map fun i => (encodeSlot i).getD 0

/-- The length of a bundle in bytes: the head and four slot words a column (R63). -/
def bundleBytes (columns : Nat) : Nat := 4 + 16 * columns

/-! ## Filter words (17 R364, R365) -/

/-- The instruction that the fields of a filter word name (17 R364, R365). -/
def decFilterRaw (w : BitVec 16) : Option Instr :=
  let a := w.extractLsb' 7 4
  let b := w.extractLsb' 3 4
  let x := w.extractLsb' 0 3
  let k := w.extractLsb' 0 7
  match w.extractLsb' 11 5 with
  | 0x01#5 => some (.fltLdf a k)
  | 0x02#5 => some (.fltLdi a k)
  | 0x03#5 => some (.fltMovk a k)
  | 0x04#5 => some (.fltAddi a k)
  | 0x05#5 => some (.fltShri a k)
  | 0x06#5 => okIf (x == 0) (.fltMov a b)
  | 0x07#5 => okIf (x == 0) (.fltAdd a b)
  | 0x08#5 => okIf (x == 0) (.fltSub a b)
  | 0x09#5 => okIf (x == 0) (.fltAnd a b)
  | 0x0A#5 => okIf (x == 0) (.fltOr a b)
  | 0x0B#5 => okIf (x == 0) (.fltShl a b)
  | 0x0C#5 => okIf (x == 0) (.fltShr a b)
  | 0x0D#5 => okIf (x == 0) (.fltCeq a b)
  | 0x0E#5 => okIf (x == 0) (.fltCltu a b)
  | 0x0F#5 => okIf (x == 0) (.fltClts a b)
  | 0x10#5 => some (.fltBz a k)
  | 0x11#5 => some (.fltBnz a k)
  | 0x12#5 => some (.fltJmp (w.extractLsb' 0 11))
  | 0x13#5 => okIf (x == 0) (.fltHist a b)
  | 0x14#5 => some (.fltSku a b x)
  | 0x15#5 => okIf (x == 0) (.fltCadd a b)
  | 0x16#5 => okIf (x == 0) (.fltTrig a b)
  | 0x17#5 => okIf (a == 0 && b == 0 && x == 0) .fltEnd
  | _ => none

/-- The filter decoder; `none` is an illegal word (17 R364). -/
def decodeFilter (w : BitVec 16) : Option Instr := (decFilterRaw w).filter Instr.wf

/-- Format K of a filter word (17 R364). -/
def filterK (op : BitVec 5) (a : BitVec 4) (k : BitVec 7) : Option (BitVec 16) :=
  some (op ++ (a ++ k : BitVec 11) : BitVec 16)
/-- Format R of a filter word (17 R364). -/
def filterR (op : BitVec 5) (a b : BitVec 4) (x : BitVec 3) : Option (BitVec 16) :=
  some (op ++ (a ++ (b ++ x : BitVec 7) : BitVec 11) : BitVec 16)

/-- The encoder of filter words (17 R365); `none` for an instruction of another kind. -/
def encodeFilter : Instr → Option (BitVec 16)
  | .fltLdf a k => filterK 0x01 a k
  | .fltLdi a k => filterK 0x02 a k
  | .fltMovk a k => filterK 0x03 a k
  | .fltAddi a k => filterK 0x04 a k
  | .fltShri a k => filterK 0x05 a k
  | .fltMov a b => filterR 0x06 a b 0
  | .fltAdd a b => filterR 0x07 a b 0
  | .fltSub a b => filterR 0x08 a b 0
  | .fltAnd a b => filterR 0x09 a b 0
  | .fltOr a b => filterR 0x0A a b 0
  | .fltShl a b => filterR 0x0B a b 0
  | .fltShr a b => filterR 0x0C a b 0
  | .fltCeq a b => filterR 0x0D a b 0
  | .fltCltu a b => filterR 0x0E a b 0
  | .fltClts a b => filterR 0x0F a b 0
  | .fltBz a k => filterK 0x10 a k
  | .fltBnz a k => filterK 0x11 a k
  | .fltJmp o => some (0x12#5 ++ o)
  | .fltHist a o => filterR 0x13 a o 0
  | .fltSku a b o => filterR 0x14 a b o
  | .fltCadd a o => filterR 0x15 a o 0
  | .fltTrig a o => filterR 0x16 a o 0
  | .fltEnd => filterR 0x17 0 0 0
  | _ => none

/-- The instruction is a filter instruction. -/
def Instr.isFilter (i : Instr) : Bool := (encodeFilter i).isSome

/-- The instruction is a step of the machine or an input: none of the three kinds of code. -/
def Instr.isEvent (i : Instr) : Bool := !i.isLane && !i.isSlot && !i.isFilter

/-! ## The host's numbering of instruction bits -/

/-- The instruction that the decoder reads from bits numbered as spec/opcode_table.json numbers them: a lane row has
32 bits and may be followed by a literal word, which the bits above 31 give; a filter row has 16. Slot words are
decoded by `decodeSlot`, since their meaning depends on the slot; the table gives them no bits. -/
def decodeTableWord (nbits w : Nat) : Option Instr :=
  if nbits = 16 then decodeFilter (BitVec.ofNat 16 w)
  else if nbits = 32 ∨ nbits = 64 then decodeLane (BitVec.ofNat 32 w) (BitVec.ofNat 32 (w / 2 ^ 32))
  else none

end Sys2Proof
end

