-- ==== Sys2Proof/Machine/Table.lean ====
section
/-!
DEFINITION. Machine/Table.lean: sparse tables, lists of a number and a value with rising numbers. A table holds what
the spec numbers (registers of a file, blocks, tiles, lines); what is not listed has the value that the reader names.
-/

namespace Sys2Proof.Machine

/-- A sparse table: entries (number, value), numbers rising. -/
abbrev Table (α : Type) := List (Nat × α)

/-- The entry of a number. -/
def Table.find {α : Type} : Table α → Nat → Option α
  | [], _ => none
  | (k, v) :: t, i => if k = i then some v else Table.find t i

/-- The entry of a number, or `d` where it is not listed. -/
def Table.getD {α : Type} (t : Table α) (i : Nat) (d : α) : α := (Table.find t i).getD d

/-- The number is listed. -/
def Table.has {α : Type} (t : Table α) (i : Nat) : Bool := (Table.find t i).isSome

/-- Write the entry of a number. -/
def Table.set {α : Type} : Table α → Nat → α → Table α
  | [], i, v => [(i, v)]
  | (k, w) :: t, i, v =>
    if i < k then (i, v) :: (k, w) :: t else if i = k then (i, v) :: t else (k, w) :: Table.set t i v

/-- Remove the entry of a number. -/
def Table.erase {α : Type} : Table α → Nat → Table α
  | [], _ => []
  | (k, w) :: t, i => if k = i then Table.erase t i else (k, w) :: Table.erase t i

/-- Change the entry of a number, where it is listed. -/
def Table.modify {α : Type} : Table α → Nat → (α → α) → Table α
  | [], _, _ => []
  | (k, w) :: t, i, f => if k = i then (k, f w) :: t else (k, w) :: Table.modify t i f

/-- The numbers that are listed. -/
def Table.keys {α : Type} (t : Table α) : List Nat := t.map Prod.fst

/-- The values that are listed. -/
def Table.vals {α : Type} (t : Table α) : List α := t.map Prod.snd

/-- Keep the entries that satisfy a condition. -/
def Table.keep {α : Type} (t : Table α) (p : Nat → α → Bool) : Table α := t.filter fun e => p e.1 e.2

/-- Change every entry. -/
def Table.mapv {α : Type} (t : Table α) (f : Nat → α → α) : Table α := t.map fun e => (e.1, f e.1 e.2)

end Sys2Proof.Machine
end

