-- ==== Sys2Proof/Machine/Bits.lean ====
section
/-!
DEFINITION. Machine/Bits.lean: bit fields, lane masks, byte order (spec/00_scope.md R6, R12, R14) and the sign
helpers that the meanings share.
-/

namespace Sys2Proof.Machine

/-- The bits [hi:lo] of a number. -/
def bits (n hi lo : Nat) : Nat := n / 2 ^ lo % 2 ^ (hi + 1 - lo)
/-- One bit of a number. -/
def bit (n i : Nat) : Bool := n / 2 ^ i % 2 == 1
/-- 1 for true, 0 for false. -/
def b2n (b : Bool) : Nat := if b then 1 else 0
/-- 1 for true, 0 for false, as a word. -/
def b2w (b : Bool) : Word := if b then 1 else 0

/-- A number of `n` bits read as two's complement. -/
def sgnN (n v : Nat) : Int := if v < 2 ^ (n - 1) then (v : Int) else (v : Int) - 2 ^ n
/-- An integer modulo 2^n. -/
def wrapN (n : Nat) (i : Int) : Nat := (i % (2 ^ n : Nat)).toNat
/-- `Clamp(x, lo, hi)` (01 R15). -/
def clampI (x lo hi : Int) : Int := if x < lo then lo else if hi < x then hi else x
/-- The least multiple of `m` at or above `x`. -/
def roundUp (x m : Nat) : Nat := (x + m - 1) / m * m
/-- `ceil (x / m)`. -/
def ceilDiv (x m : Nat) : Nat := (x + m - 1) / m

/-- The 64-bit value of a pair: low word first (R14). -/
def pairVal (lo hi : Word) : Dword := hi ++ lo
/-- Bits [31:0] of a 64-bit value. -/
def lowWord (d : Dword) : Word := d.extractLsb' 0 32
/-- Bits [63:32] of a 64-bit value. -/
def highWord (d : Dword) : Word := d.extractLsb' 32 32

/-- Bit l of a lane mask. -/
def hasLane (m : Mask) (l : Nat) : Bool := m.getLsbD l
/-- The mask of one lane. -/
def laneBit (l : Nat) : Mask := (1 : Mask) <<< l
/-- The mask of lanes 0 to n - 1. -/
def allLanes (n : Nat) : Mask := BitVec.ofNat 64 (2 ^ n - 1)
/-- The lanes of a mask, ascending. -/
def lanesOf (m : Mask) : List Nat := (List.range 64).filter fun l => m.getLsbD l
/-- The number of lanes of a mask. -/
def laneCount (m : Mask) : Nat := (lanesOf m).length
/-- The mask of the lanes that satisfy a condition. -/
def maskOf (p : Nat → Bool) : Mask :=
  BitVec.ofNat 64 ((List.range 64).foldl (fun n l => if p l then n + 2 ^ l else n) 0)
/-- The mask of a list of lanes. -/
def maskOfList (ls : List Nat) : Mask := ls.foldl (fun m l => m ||| laneBit l) 0
/-- The lowest lane of a mask, 0 for an empty one. -/
def lowestLane (m : Mask) : Nat := (lanesOf m).headD 0
/-- Bit l of a mask made equal to b. -/
def putLane (m : Mask) (l : Nat) (b : Bool) : Mask := if b then m ||| laneBit l else m &&& ~~~ laneBit l
/-- The lanes of `a` that are not in `b`. -/
def minusLanes (a b : Mask) : Mask := a &&& ~~~ b
/-- Every lane of `a` is in `b`. -/
def subLanes (a b : Mask) : Bool := a &&& ~~~ b == 0

/-- The `n` low bytes of a number, low byte first (R6). -/
def leBytes : Nat → Nat → List Byte
  | 0, _ => []
  | n + 1, v => BitVec.ofNat 8 v :: leBytes n (v / 256)
/-- The number that bytes hold, low byte first (R6). -/
def leVal : List Byte → Nat
  | [] => 0
  | b :: bs => b.toNat + 256 * leVal bs

/-- The words that bytes hold, low byte first. -/
def leWords : Nat → Nat → List Word
  | 0, _ => []
  | n + 1, v => BitVec.ofNat 32 v :: leWords n (v / 2 ^ 32)

/-- Floor of the base-2 logarithm; 0 for 0. -/
def flog2 (n : Nat) : Nat := Nat.log2 n

/-- Fuel-bounded iteration of a partial step. -/
def iterOpt {α : Type} : Nat → (α → Option α) → α → α
  | 0, _, a => a
  | n + 1, f, a => match f a with
    | some b => iterOpt n f b
    | none => a

/-- The first element that satisfies a condition. -/
def firstWhere {α : Type} (p : α → Bool) (l : List α) : Option α := (l.filter p).head?

/-- The least element by a key, ties to the first. -/
def minBy {α : Type} (f : α → Nat) : List α → Option α
  | [] => none
  | a :: t => match minBy f t with
    | none => some a
    | some b => if f a ≤ f b then some a else some b

/-- A list without repeats of numbers, first occurrences kept. -/
def dedupN : List Nat → List Nat
  | [] => []
  | a :: t => a :: (dedupN t).filter (· != a)

/-- Insertion into a rising list of numbers. -/
def insertN (a : Nat) : List Nat → List Nat
  | [] => [a]
  | b :: t => if a ≤ b then a :: b :: t else b :: insertN a t

/-- A list of numbers in rising order. -/
def sortN (l : List Nat) : List Nat := l.foldr insertN []

end Sys2Proof.Machine
end

