-- ==== Sys2Proof/Machine/State.lean ====
section
/-!
DEFINITION. Machine/State.lean: the state of the part as plain data, everything spec/ gives the machine, the faults
and refusals, and the state after reset. INVENTORY.md lists every field with the rule that names it.
-/

namespace Sys2Proof.Machine

/-! ## Faults and refusals -/

/-- The reasons for which the machine stops with a fault. -/
inductive Fault
  /-- Raised by nothing: the spec describes the effect of every fault of the part as a trap, a park or a status,
  which are next states. Kept so that the type of outcomes is inhabited. Safe. -/
  | none
  deriving DecidableEq, Repr

/-- The reasons for which the model gives an instruction no meaning. -/
inductive Refusal
  /-- Raised by an arm of `exec` that has no meaning yet. Safe. -/
  | notModelled (mnemonic : String)
  /-- Raised by a meaning of code (a lane word, a slot, a filter word) when no unit of its kind is issuing: the
  state's focus names none. The step function never calls a meaning so. Safe. -/
  | noIssuer
  deriving DecidableEq, Repr

/-! ## Memory -/

/-- A byte-addressed memory: cells with rising addresses, none equal to 0, which an unlisted byte reads. -/
abbrev Memory := List Host.Cell

/-- Memory types of a page (07 R161), weakest first. -/
inductive MemType
  | n | w | d | s
  deriving DecidableEq, Repr, Inhabited

/-- A thread of the ordering rules (08 R177). -/
inductive Thread
  | lane (b g l : Nat)
  | seqr (b : Nat)
  | engine (id : Nat)
  | host
  | package (p : Nat)
  deriving DecidableEq, Repr, Inhabited

/-- The unit whose instruction is being executed. -/
inductive Focus
  | idle
  | split (b g k : Nat)
  | comet (c : Nat)
  | seqr (b : Nat)
  | filter (m : Nat)
  deriving DecidableEq, Repr, Inhabited

/-- Who waits for a translation (16 R347): a unit, a stream port, or an engine operation. -/
inductive Asker
  | unit (f : Focus)
  | port (b c z : Nat)
  | engine (id : Nat)
  /-- A page walk, which waits for its memory channel (20 R409). -/
  | walk (id : Nat)
  deriving DecidableEq, Repr, Inhabited

/-- What an operation of a lane in flight does (07 R158, R169). -/
inductive OpKind
  | load
  | atomic (fn : AtomFn)
  deriving DecidableEq, Repr, Inhabited

/-- One lane's part of a load or atomic in flight: the effective address, the canonical address of its first byte
(for shared memory its key), its operands, the number before which its lane's operations and stores are done first,
whether its home forwarded it to an owner, the value once read, and the intermediate frame that it writes (20 R411). -/
structure Access where
  lane : Nat
  ea : Dword
  key : Nat
  mt : MemType
  ro : Bool
  opnds : List Nat
  after : Nat
  fwd : Bool
  val : Option Nat
  frame : Option Nat := none
  deriving DecidableEq, Repr, Inhabited

/-- A load or an atomic issued and not yet landed (08 R180, R184). `cache` is the cache it fills; `host`: it waits for a host or remote completion, and the
unit with it. -/
structure LaneOp where
  blk : Nat
  grp : Nat
  split : Nat
  comet : Option Nat
  kind : OpKind
  bytes : Nat
  d : Reg
  pair : Option PairIx
  acq : Bool
  ord : Bool
  nt : Bool
  cache : Nat
  hint : Option Nat
  pc : Dword
  notBefore : Nat
  host : Bool
  acc : List Access
  deriving DecidableEq, Repr, Inhabited

/-- A store issued and not yet acknowledged (08 R186, 14 R296): its bytes by canonical address, or by offset in the
shared memory of block `shared`; the virtual function and the intermediate frame it dirties (20 R411), and the
effective address that a trap reports. `inst` is the number of the first store of its instruction, `rel` tells a release, `nt` a
non-temporal store, `hint` the wrong home die at which it waits (16 R338), and `posted` a host write that is performed and waits for
the zero-length read behind it (20 R413). -/
structure StoreOp where
  thread : Thread
  blk : Nat
  cache : Nat
  cells : List Host.Cell
  shared : Option Nat
  stash : Option Nat
  mt : MemType
  after : Nat
  notBefore : Nat
  performed : Bool
  host : Bool
  vf : Nat
  frame : Option Nat
  ea : Dword := 0
  inst : Nat := 0
  rel : Bool := false
  nt : Bool := false
  hint : Option Nat := none
  posted : Bool := false
  deriving DecidableEq, Repr, Inhabited

/-- The owner of a word in the registry (18 R374): the cache that holds it, its stash window where it lies in a
stash, and when it was last used. -/
structure Owner where
  cache : Nat
  stash : Option Nat
  used : Nat
  deriving DecidableEq, Repr, Inhabited

/-- A translation held in a TLB (16 R346): a page of `size` bytes, the physical and the intermediate address of its first
byte, its attributes and the addresses of the leaf entries for the dirty bit (R345). -/
structure TlbEntry where
  vf : Nat
  va : Nat
  size : Nat
  pa : Nat
  ipa : Nat
  mt : MemType
  ro : Bool
  part : Nat
  pin : Option Nat
  rem : Option Nat
  dirty : Bool
  leaves : List Nat
  deriving DecidableEq, Repr, Inhabited

/-- The kinds of access of a translation (13 R267). -/
inductive AccKind
  | load | store | fetch | engine
  deriving DecidableEq, Repr

/-- A page walk (16 R347): the die, the page, the requests that joined it, whether a walker has taken it, and whether an
invalidation has made it start again (R349). -/
structure Walk where
  die : Nat
  vf : Nat
  vpn : Nat
  started : Bool
  stale : Bool
  joined : List Asker
  deriving DecidableEq, Repr, Inhabited

/-- A fault that a walk delivered and its requests have not yet raised (16 R347, R348): the stage (1 or 2) and the
level reached; or the walk read poisoned data (20 R419). -/
structure WalkFault where
  asker : Asker
  vf : Nat
  vpn : Nat
  stage2 : Bool
  level : Nat
  poison : Bool := false
  deriving DecidableEq, Repr, Inhabited

/-- What a request to the host or to another package does. -/
inductive OutKind
  | read | write | atomic | fetch
  deriving DecidableEq, Repr, Inhabited

/-- A request to the host or to another package of an asker that waits for its completion (20 R413, R414; 21 R421): the bytes by
key, the block it is made for, the clock before which it does not complete (21 R426), and the completion once it has come. -/
structure OutReq where
  asker : Asker
  kind : OutKind
  key : Nat
  bytes : Nat
  blk : Nat
  notBefore : Nat
  answer : Option Completion
  deriving DecidableEq, Repr

/-! ## Lanes, splits and groups (03, 06) -/

/-- An entry of a deferred-mask stack (03 R87): a D entry holds a path, a C entry a convergence mask. -/
structure Deferred where
  path : Bool
  pc : Dword
  mask : Mask
  deriving DecidableEq, Repr, Inhabited

/-- The trap state of a unit (06 R150). -/
structure TrapState where
  epc : Dword
  rpc : Dword
  cause : Word
  lmask : Mask
  amask : Mask
  info : Dword
  deriving DecidableEq, Repr, Inhabited

/-- What a unit waits on. Taking a tile, with the lanes that take it, `barrier`, `clusterBarrier`, `ring`, a WAITC with its watch, a done
counter with its EWAIT, its engine address and the target, a die barrier, an intake queue, the stores of an EMIT's records, a full
copy engine, or a host or remote access. -/
inductive WaitOn
  | take (tile : Nat) (lanes : Mask)
  | barrier (n : Nat)
  | clusterBarrier (n : Nat)
  | ring (r : Nat)
  | waitc (g : Pred) (d a : Reg) (w : Bool) (c : WCmp)
  | ewait (g : Pred) (a b : Reg) (c target : Nat)
  | dieBarrier (obj : Nat) (ea : Dword) (lanes : Mask)
  | emit (q : Nat)
  | stamps (inst : Nat)
  | engineFull (n : Nat)
  | host (id : Nat)
  deriving DecidableEq, Repr

/-- The issue state of a split (03 R90, R94, R115): ready, waiting at a JOIN, waiting at a .G collective, or
blocked in a waiting instruction since a clock. -/
inductive Wait
  | ready
  | join
  | collective (pc : Dword)
  | blocked (on : WaitOn) (since : Nat)
  deriving DecidableEq, Repr

/-- A split (03 R87, 06 R150): the stack is newest first, its on-chip part in `stack`, and `spilled` entries lie in
the save area. `gm` are the lanes of its WM that wait at a .G collective (04 R115); `wm` holds those at a JOIN. `joinKept`: an
arrival came in the clock in which its join timeout was due, and prevails (14 R306). -/
structure Split where
  pc : Dword
  am : Mask
  cm : Mask
  wm : Mask
  gm : Mask
  stack : List Deferred
  spilled : Nat
  wait : Wait
  parked : Bool
  parkedAt : Nat
  priv : Bool
  frame : Dword
  trap : Option TrapState
  lastIssue : Nat
  pathStart : Nat
  joinSince : Option Nat
  joinKept : Bool := false
  deriving DecidableEq, Repr

/-- A group (03 R75, R78, R87, 06 R147, 09 R212, 15 R329): uniform registers, predicate pairs 1-7 as lane masks of
their even member, splits, masks, special registers, engine registers (64 n + register), the release bound of each
lane's fences, the lanes that came back from ejection and no merge has taken, and where each lane that waits at a JOIN
resumes. -/
structure Group where
  splits : Table Split
  sregs : Table Word
  preds : Table Mask
  exited : Mask
  ejected : Mask
  rj : Mask
  returned : Mask
  joinAt : Table Dword
  lv : Table Dword
  ejt : Word
  jto : Word
  eng : Table Word
  relBound : Table Nat
  ended : Bool
  port : Nat
  sector : Nat
  skipped : Nat
  yielded : Bool
  deriving DecidableEq, Repr

/-- A group with nothing in it: the value of what no table lists. -/
def Group.empty : Group :=
  { splits := [], sregs := [], preds := [], exited := 0, ejected := 0, rj := 0, returned := 0, joinAt := [], lv := [], ejt := 0, jto := 0x8000,
    eng := [], relBound := [], ended := false, port := 0, sector := 0, skipped := 0, yielded := false }

/-- A split with nothing in it. -/
def Split.empty : Split :=
  { pc := 0, am := 0, cm := 0, wm := 0, gm := 0, stack := [], spilled := 0, wait := .ready, parked := false, parkedAt := 0,
    priv := false, frame := 0, trap := none, lastIssue := 0, pathStart := 0, joinSince := none }

/-- A lane context of a comet core (14 R300): the lane it holds, its registers, its copies of the group's state and
its trap state. `arrived` is the clock of its JOIN. `yielded`: it has issued YIELD and stands back for the comet core's next
cycle (06 R146). -/
structure Comet where
  blk : Nat
  grp : Nat
  lane : Nat
  split : Nat
  live : Dword
  liveIx : Nat
  pc : Dword
  vregs : Table Word
  preds : Table Bool
  sregs : Table Word
  ejt : Word
  jto : Word
  lv : Table Dword
  priv : Bool
  trap : Option TrapState
  parked : Bool
  parkedAt : Nat
  wait : Wait
  depth : Nat
  started : Bool
  notBefore : Nat
  arrived : Option Nat
  lastIssue : Nat
  yielded : Bool := false
  poisonRegs : List Nat := []
  deriving DecidableEq, Repr

/-- A context with nothing in it. -/
def Comet.empty : Comet :=
  { blk := 0, grp := 0, lane := 0, split := 0, live := 0, liveIx := 0, pc := 0, vregs := [], preds := [],
    sregs := [], ejt := 0, jto := 0, lv := [], priv := false, trap := none, parked := false, parkedAt := 0,
    wait := .ready, depth := 0, started := false, notBefore := 0, arrived := none, lastIssue := 0 }

/-! ## Blocks (09, 10, 13, 15) -/

/-- A status word's owner field (09 R198). -/
inductive TileOwner
  | group (g : Nat)
  | seqCol (c : Nat)
  | seqAny
  deriving DecidableEq, Repr

/-- The state of a tile (09 R198). -/
inductive TileState
  | free
  | owned (o : TileOwner)
  | transfer (r : TileOwner)
  deriving DecidableEq, Repr

/-- A block barrier's record of one group (09 R208): the group's flags, the lanes arrived in the current phase, the
lanes waiting in a BAR.SYNC of the current phase, and those whose phase has completed but which have not departed. -/
structure BarGroup where
  arrived : Bool
  parity : Bool
  lanes : Mask
  sync : Mask
  done : Mask
  deriving DecidableEq, Repr, Inhabited

/-- A numbered barrier (09 R208); the sequencer is participant `seq`. Group records are keyed by group slot, in a
cluster barrier by 64 times the member's index plus the slot. -/
structure Barrier where
  p : Bool
  n : Nat
  x : Nat
  groups : Table BarGroup
  seqArrived : Bool
  seqParity : Bool
  deriving DecidableEq, Repr, Inhabited

/-- A cluster barrier (14 R298, R299): its state over all members; the message of the upper die half's complete count
(the clock of its last arrival) while in flight, whether that message has come in, the release to the upper half while
in flight (the clock from which it may reach it), and the clock from which the lower half's groups depart. -/
structure GangBar where
  bar : Barrier
  half : Option Nat
  halfIn : Bool
  rel : Option Nat
  openLow : Nat
  deriving DecidableEq, Repr, Inhabited

/-- A gang (14 R294, 15 R327): its blocks, whether it is a block cluster, and its cluster barriers. -/
structure Gang where
  members : List Nat
  cluster : Bool
  bars : Table GangBar
  deriving DecidableEq, Repr, Inhabited

/-- A fill ring (09 R210): its declaration and its counters. -/
structure Ring where
  slots : Nat
  size : Nat
  offset : Nat
  free : Nat
  filled : Nat
  held : Nat
  fi : Nat
  ri : Nat
  di : Nat
  deriving DecidableEq, Repr, Inhabited

/-- A stash window (07 R162): the global address that it maps, 0 for none. Its words stand in `copies`, under the stash's cache
number, and those that it owns in `owners`. -/
structure StashWin where
  maps : Nat
  deriving DecidableEq, Repr, Inhabited

/-- An element that a read port has fetched (10 R230, R231): its value, the number of its stretch, which no entry passes,
and, of an expanded MX element, whether it saturated (01 R21) and whether its block is a NaN block (01 R20). -/
structure PortElem where
  gen : Nat
  val : Nat
  clip : Bool
  nan : Bool
  deriving DecidableEq, Repr, Inhabited

/-- A stream port (10 R228-R234): bound or not, the 16 words of its descriptor copy; the linear number `pos` of the next
element to fetch or to push; the elements fetched and not popped, and the number of the stretch being fetched; the fault
that the next fetch met; the ring slot claimed; the
elements still to skip; the gather offsets fetched and not popped, those delivered and not fetched, and their end mark;
the entries that a write port holds until they are written; and the position indices, with the element in its block, of a port
that a ZSET has left at its end (11 R262). -/
structure Port where
  bound : Bool
  desc : Table Word
  pos : Nat
  elems : List PortElem
  gen : Nat
  fault : Option (Nat × Nat)
  slot : Option Nat
  skip : Nat
  got : List Nat
  offs : List Nat
  ended : Bool
  writes : List (Nat × List Host.Cell)
  past : Option (Nat × Nat × Nat × Nat) := none
  deriving DecidableEq, Repr, Inhabited

/-- The destination of a sequencer operation (10 R224): an x register or g pair of a column, a tile, or a write port, with
the cells that the push writes. -/
inductive SeqDest
  | xreg (c : Nat) (r : Nat)
  | gpair (c : Nat) (k : Nat)
  | tile (t : Nat)
  | push (c : Nat) (z : Nat) (cells : List Host.Cell)
  deriving DecidableEq, Repr

/-- An operation of the sequencer in flight (10 R224): the clock at whose end it lands, its destination and the words it
writes, by word position. -/
structure SeqOp where
  dest : SeqDest
  words : List (Nat × Word)
  lands : Nat
  deriving DecidableEq, Repr

/-- A TLD or TST in flight (11 R259, R260): the tiles with the keys of their 256 bytes, the range of engine addresses
that it reserves, the clock before which a TLD does not land, and the tiles that a read-only page gives (16 R339). -/
structure TileXfer where
  store : Bool
  tiles : List (Nat × Nat)
  addr : Nat
  count : Nat
  notBefore : Nat
  ro : List Nat := []
  deriving DecidableEq, Repr

/-- The record of a sequencer trap (13 R272). -/
structure SeqTrap where
  sepc : Dword
  scause : Word
  sinfo : Dword
  deriving DecidableEq, Repr, Inhabited

/-- A tensor sequencer (10 R222-R237): its width, PC, x registers (32 c + r) and g pairs (8 c + k), operations,
transfers and ports (8 c + z), poisoned tiles of a TLD with the address; the earliest next issue, the drain flag, the
clock until which each T unit is busy; the clock since which the bundle at PC is a candidate, whether its waits have
begun, the columns whose SBAR has arrived and those whose wait is complete; arrivals of SBAR.ARR still held back, with
the number before which accesses are done first; the next PC of a branch, whether the bundle has passed its checks,
SHALT's drain and end; park, and the stop of a pre-emption with LIVEIX; the ranges of engine addresses that the candidate
bundle's TLDs and TSTs reserve (11 R259). -/
structure Seq where
  width : Nat
  pc : Dword
  x : Table Word
  g : Table Bool
  ops : Table SeqOp
  xfers : Table TileXfer
  ports : Table Port
  tpoison : List (List Nat × Nat)
  nextIssue : Nat
  drain : Bool
  tbusy : Table Nat
  since : Option Nat
  waiting : Bool
  synced : List Nat
  waited : List Nat
  arrivals : List (Nat × Nat)
  next : Option Dword
  checked : Bool
  halting : Bool
  halted : Bool
  parked : Bool
  parkedAt : Nat
  trapped : Bool
  stopped : Bool
  forced : Bool
  liveix : Option Nat
  reserved : List (Nat × Nat) := []
  deriving DecidableEq, Repr

/-- A record of the statistics queue of a facet (10 R238). -/
structure StatRec where
  words : List Word
  deriving DecidableEq, Repr, Inhabited

/-- A block of a posting list as it was read (19 R386, R387): LAST, BMAX, the documents with their frequencies. -/
structure LodeBlock where
  last : Nat
  bmax : Word
  docs : List (Nat × Nat)
  deriving DecidableEq, Repr, Inhabited

/-- A term of a Lodestar operation as it was read (19 R385, R389): its role (0 MUST, 1 SHOULD, 2 NOT), the address of its list
header, DF, NBLK, IDF, the base of its cursor's block, and that block once it has been read. -/
structure LodeTerm where
  role : Nat
  addr : Nat
  df : Nat
  nblk : Nat
  idf : Word
  base : Nat
  blk : Option LodeBlock
  deriving DecidableEq, Repr, Inhabited

/-- The progress of a Lodestar operation (19 R401): the phase (0 building TL, 1 building TV, 2 fusing, 3 writing); for each
term the block index and the posting index of its cursor; the next document to be decided; the documents scored so far, and
the entries held for TL, TV and the result. Beside the record: `passed`, the postings of the blocks before each cursor; `terms`, the
terms and blocks as the engine holds them, which are read again after a save; and of the result area the words whose places were
checked and those written. -/
structure LodeRec where
  phase : Nat
  cursors : List (Nat × Nat)
  nextDoc : Nat
  scored : Nat
  tl : List (Nat × Word)
  tv : List (Nat × Word)
  res : List (Nat × Word)
  passed : List Nat := []
  terms : List LodeTerm := []
  checked : Nat := 0
  written : Nat := 0
  deriving DecidableEq, Repr, Inhabited

/-- An engine operation in progress (09 R216, R219, 10 R234, 19 R385): engine, group, the lane that started it, its
captured registers, its position, the number of earlier operations of that lane it comes after, and its progress:
a slot claimed in ring mode, a fault that stopped it, a Lodestar operation's own record. -/
structure EngineOp where
  engine : Nat
  blk : Nat
  grp : Nat
  lane : Nat
  regs : Table Word
  i2 : Nat
  i1 : Nat
  byte : Nat
  slot : Option Nat
  claimed : Bool
  after : Nat
  fault : Option (Nat × Dword)
  parked : Bool
  parkedAt : Nat
  failed : Bool
  issued : Nat
  lode : LodeRec := default
  deriving DecidableEq, Repr, Inhabited

/-- A node header (15 R311). -/
structure Node where
  addr : Nat
  code : Nat
  seqcode : Nat
  width : Nat
  groups : Nat
  vregs : Nat
  sregs : Nat
  tiles : Nat
  facetw : Nat
  shared : Nat
  stash : Nat
  wid : List Nat
  diemask : Nat
  gangn : Nat
  coalesce : Nat
  timeout : Nat
  priority : Nat
  part : Nat
  next : List Nat
  tmap : Nat
  rings : Nat
  lives : Nat
  deriving DecidableEq, Repr, Inhabited

/-- Where a block is in its life (15 R318, R325, R333): waiting for admission, resident on a facet, or swapped out. -/
inductive Phase
  | waiting
  | resident
  | swapped
  /-- Out with a fault dump as its image, which is never restored (13 R288). -/
  | dumped
  deriving DecidableEq, Repr

/-- A condition monitor, or a poll where none was free (07 R176): the die, the word, the comparison and the value, and
the WAITC that waits: block, group, lanes, address; whether it has fired, and when it was armed. -/
structure Monitor where
  die : Nat
  key : Nat
  bytes : Nat
  cmp : WCmp
  value : Nat
  blk : Nat
  grp : Nat
  lanes : Mask
  comet : Option Nat
  pc : Dword
  part : Nat
  poll : Bool
  fired : Bool
  armed : Nat
  deriving DecidableEq, Repr

/-- What a section of a Toganik image holds, where the spec lists its contents and not their bytes (13 R287): the node
header's address, fields 2-5 of the work identifier, the node's sizes, the facet width and the context area; the groups with
their splits; the ejected lanes; the sequencer with its trap record; the rings; the engine operations; the reserved address
ranges; the stash windows; the barriers, from 16 on those of the block's cluster (14 R299); the armed monitors. -/
inductive SectionData
  | none
  | block (addr : Nat) (coords sizes : List Nat) (facetw area : Nat)
  | splits (gs : Table Group)
  | lanes (cs : Table Comet)
  | seqr (q : Seq) (r : SeqTrap)
  | rings (rs : Table Ring)
  | engines (os : Table EngineOp)
  | reserved (rs : List (Nat × Nat))
  | windows (ws : Table StashWin)
  | bars (bs : Table Barrier)
  | monitors (ms : Table Monitor)
  deriving DecidableEq, Repr, Inhabited

/-- A block (15 R311-R333): its node, identity, place and state. `gave`: the clock at which a tile in transfer was given
or its last pending write landed (09 R202). `saved`: what the sections of its image were written from; `resumed`: its units
that have been resumed while it was out; `reserving`: the address ranges whose translations are reserved again before anything
of it is performed (13 R276); `poisonRegs`: its register and tile words that are marked poisoned (20 R419). `endAsked`: an END
came while it was being saved (15 R334); `idleSince`: the clock since which all its units are blocked or have ended (R333). -/
structure Block where
  node : Node
  queue : Nat
  records : List Nat
  seqNo : Nat
  coords : List Nat
  ctx : Nat
  ptag : Word
  part : Nat
  vf : Nat
  phase : Phase
  facet : Nat
  ctxArea : Nat
  gang : Option Nat
  groups : Table Group
  vregs : Table Word
  tiles : Table TileState
  gave : Table Nat
  bound : Table Nat
  shared : Memory
  stash : Table StashWin
  rings : Table Ring
  bars : Table Barrier
  seq : Option Seq
  formedAt : Nat
  waitingSince : Nat
  residentSince : Nat
  image : Bool
  reentry : Bool
  saved : Table SectionData
  resumed : List ParkUnit := []
  reserving : List (Nat × Nat) := []
  poisonRegs : List Nat := []
  endAsked : Bool := false
  idleSince : Option Nat := none
  preempt : Option Nat
  deriving DecidableEq, Repr

/-! ## Facets and cores (09, 10, 13, 20) -/

/-- A facet (10 R221, 13 R272, R279-R280, 20 R405-R406): the control register's fields, owner, trap vector, ACCOWN, the
tiles held for the named context, the statistics queue with the context that it serves, and the record of a sequencer trap. -/
structure Facet where
  fctl : Word
  fown : Nat
  tvec : Dword
  accown : Word
  held : Table (List Word)
  heldStatus : Table TileState
  heldBlk : Option Nat
  stats : List StatRec
  drops : Word
  lastPort : Table Nat
  record : SeqTrap := default
  statCtx : Option Nat := none
  deriving DecidableEq, Repr

/-! ## The machine -/

/-- A soft error of a stored word (20 R419): one that a check detects and cannot correct, in a word of memory, shared memory
included, in a register or tile word of a block or in a register of a comet context; or one that a check corrects, with the
number of its integrity counter. -/
inductive Upset
  | memory (word : Nat)
  | register (b key : Nat)
  | comet (c m : Nat)
  | glow (m ix : Nat)
  | corrected (n : Nat)
  deriving DecidableEq, Repr

/-- A turn of the machine: a clock, an instruction of a split, of a comet context, of a sequencer or of a filter
program, or a step of the machine or input that is not an instruction; a parity error on the control of a datapath that serves a
unit's instruction, or a soft error (20 R419). -/
inductive Turn
  | tick
  | lane (b g k : Nat)
  | comet (c : Nat)
  | seqr (b : Nat)
  | filter (m : Nat)
  | event (i : Instr)
  | parity (f : Focus)
  | upset (u : Upset)
  deriving DecidableEq, Repr

/-- An event record (17 R356). -/
structure Event where
  time : Nat
  type : Nat
  part : Nat
  ctx : Nat
  src : Nat
  sub : Nat
  ea : Nat
  eb : Nat
  deriving DecidableEq, Repr, Inhabited

/-- A park report that waits to be appended to its partition's park queue (15 R330): for an ejected lane, `split` is the
comet core and context, and `splitix` its SPLITIX, which the record has no place for (14 R307). -/
structure ParkRec where
  part : Nat
  ctx : Nat
  kind : Nat
  ptag : Word
  area : Nat
  slot : Nat
  split : Nat
  lane : Nat
  cause : Word
  epc : Dword
  info : Dword
  lmask : Mask
  facet : Nat
  splitix : Nat := 0
  deriving DecidableEq, Repr, Inhabited

/-- A die-barrier object in use (16 R351, R352): the group records (64 x block + slot), the arrivals not yet counted
(die, block, slot, clock), those counted with the number of their phase, the completion messages in flight (die, clock), the dies
whose message has come in with the last such clock, and the releases in flight (die, the clock from which it may reach it, the
phase); `phase`: the phases completed since the object came into use; `failed`: the lanes of groups of swapped-out blocks whose
arrival was taken back, which trap once their block has entered again. -/
structure DBar where
  groups : Table BarGroup
  fresh : List (Nat × Nat × Nat × Nat)
  counted : List (Nat × Nat × Nat × Nat)
  msgs : List (Nat × Nat)
  doneDies : List Nat
  lastMsg : Nat
  rels : List (Nat × Nat × Nat)
  phase : Nat := 0
  failed : Table Mask := []
  deriving DecidableEq, Repr, Inhabited

/-- The registers of a partition (20 R407), the virtual function it runs and since when (R408), the clocks of the
current energy window in which admission was refused (R417), and its park interrupts (15 R330). -/
structure Part where
  ptag : Word
  floor : Table Nat
  comet : Nat
  enbud : Nat
  enused : Nat
  pqbase : Nat
  pqcap : Nat
  plim : Nat
  slice : Nat
  pqhead : Nat
  pqtail : Nat
  runVf : Option Nat
  sliceStart : Nat
  throttled : Nat
  irqs : Nat
  deriving DecidableEq, Repr

/-- A partition's registers at reset (20 R407). -/
def Part.reset : Part :=
  { ptag := 0, floor := [], comet := 64, enbud := 0, enused := 0, pqbase := 0, pqcap := 0, plim := 14000,
    slice := 7000000, pqhead := 0, pqtail := 0, runVf := none, sliceStart := 0, throttled := 0, irqs := 0 }

/-- A virtual function (16 R341, 20 R408, R411): its partition, roots, stage-two enable, and the intermediate frames
written since its last dirty-page report. -/
structure Vf where
  part : Nat
  s1root : Nat
  s2root : Nat
  s2en : Bool
  frames : List Nat
  deriving DecidableEq, Repr, Inhabited

/-- An armed byte-count range of a die-barrier object (16 R354). -/
structure Armed where
  obj : Nat
  dst : Nat
  len : Nat
  vf : Nat
  deriving DecidableEq, Repr, Inhabited

/-- A condition monitor of a distributor on a word of an intake queue, or a poll where none was free (15 R316): the die of the
distributor, the memory die of the word, its key, the comparison and the value, whether it has fired, and when it was armed. -/
structure QWatch where
  watcher : Nat
  die : Nat
  key : Nat
  cmp : WCmp
  value : Nat
  poll : Bool
  fired : Bool
  armed : Nat
  deriving DecidableEq, Repr

/-- An intake queue registered with a distributor (15 R313-R318): its descriptor's virtual and canonical address, its
node and its descriptor's fields; the records taken and those observed and not yet taken, the clock of the first; LAUNCHED, HEAD, the runs of slots freed above HEAD, and the members of the
gang that is being formed, and the watches on TAIL and on the next stamp. -/
structure Queue where
  addr : Nat
  key : Nat
  vf : Nat
  node : Node
  cap : Nat
  recs : Nat
  ctx : Nat
  ptag : Word
  part : Nat
  cons : Nat
  pending : Nat
  firstAt : Nat
  launched : Nat
  head : Nat
  freed : List (Nat × Nat)
  forming : List Nat
  tailW : Option QWatch := none
  stampW : Option QWatch := none
  deriving DecidableEq, Repr, Inhabited

/-- An attached filter program (17 R359, R360): its descriptor's fields, its words, the object entries, the storage of
each object (bins, UNDER and OVER of a histogram; rows of a sketch; a counter; a trigger's armed flag), and whether a
DETACH waits for its current event. -/
structure Attach where
  types : Nat
  part : Nat
  csel : Nat
  words : List Nat
  objs : List Nat
  store : Table (Table Nat)
  leaving : Bool
  deriving DecidableEq, Repr, Inhabited

/-- The run of a filter program on an event (17 R362-R364): the slot, the word, f0-f15, the words executed, the
slots that still run on the event, and whether its reservation was made in a window that is over. -/
structure Run where
  ev : Event
  slot : Nat
  pc : Nat
  f : Table Dword
  done : Nat
  todo : List Nat
  past : Bool := false
  deriving DecidableEq, Repr, Inhabited

/-- A Meridian (17 R355-R369): its registers, the remainder of each partition's window, the afterglow record, the
dispatch queue, the attachments by slot, and the run in progress; `grace`: the tap's acceptance of this clock precedes the write
that set FROZEN (R370); `badGlow`: the records of the afterglow record that are marked poisoned (20 R419). -/
structure Merid where
  en : Bool
  frozen : Bool
  wptr : Nat
  tapdrop : Nat
  qdrop : Nat
  mbud : Table Nat
  dropb : Table Nat
  left : Table Nat
  glow : Table Event
  disp : List Event
  slots : Table Attach
  run : Option Run
  grace : Bool := false
  badGlow : List Nat := []
  deriving DecidableEq, Repr

/-- A Meridian at cold reset (17 R368, R369). -/
def Merid.reset : Merid :=
  { en := true, frozen := false, wptr := 0, tapdrop := 0, qdrop := 0, mbud := [], dropb := [], left := [], glow := [],
    disp := [], slots := [], run := none }

/-- A migration under way (18 R380-R383): the key of the leaf entry, its old and its new value, the descriptor's function,
size, address and status address; the pass (0: it waits for another migration of the page), the clock at which the next line
is read, the lines not yet read in the pass and those that go into the next, by their keys at the old home; and the clock
at which its block began, with the number of the next access then. -/
structure Migr where
  leaf : Nat
  oldPte : Nat
  newPte : Nat
  vf : Nat
  size : Nat
  va : Nat
  stat : Nat
  bias : Bool
  pass : Nat
  start : Nat
  todo : List Nat
  dirty : List Nat
  final : Option Nat
  bound : Nat := 0
  deriving DecidableEq, Repr, Inhabited

/-- What a flit carries (21 R420-R424): the request of an access, a response, an acknowledgement, a request for replay from a
number on, training, the payload of a flit of another package that is forwarded, or nothing once its request has been
discarded. -/
inductive FlitLoad
  | request (id : Nat)
  | response
  | ack
  | replay (seq : Nat)
  | train
  | transit (body : List Byte)
  | void
  deriving DecidableEq, Repr, Inhabited

/-- A flit (21 R420, R422): its sequence number and the acknowledgement once it has been sent, its virtual channel, its target and
source packages, and what it carries. -/
structure FabFlit where
  seq : Nat
  chan : Nat
  target : Nat
  src : Nat
  ack : Nat
  load : FlitLoad
  deriving DecidableEq, Repr, Inhabited

/-- A fabric port (21 R420-R423): PCTL and PSTAT, the replay buffer of flits sent and not acknowledged, the next
sequence numbers sent and expected, whether it discards until a replay, and the replays of the oldest flit; the flits that wait
to be sent, oldest first, the credits in use of each of the 44 channels, and the channel served last (R422); the bytes of the flit
that it sent last. -/
structure FabPort where
  en : Bool
  up : Bool
  train : Bool
  down : Bool
  peerPort : Nat
  peerPkg : Nat
  replay : List FabFlit
  sent : Nat
  expect : Nat
  discard : Bool
  replays : Nat
  resend : Option Nat
  trainSince : Nat
  queued : List FabFlit := []
  used : Table Nat := []
  served : Nat := 43
  wire : List Byte := []
  deriving DecidableEq, Repr, Inhabited

/-- An export entry (21 R423). -/
structure Export where
  base : Nat
  len : Nat
  tag : Word
  deriving DecidableEq, Repr, Inhabited

/-- The error count of a link and kind since its last LINKERR event, and the clock of that (17 R357). -/
structure LinkErr where
  count : Nat
  last : Option Nat
  deriving DecidableEq, Repr, Inhabited

/-- A line of a home slice (18 R371, R377): its line number, when it was last used, and whether it was filled at the lowest
priority. -/
structure SliceLine where
  line : Nat
  used : Nat
  low : Bool
  deriving DecidableEq, Repr, Inhabited

/-- An answer of a command or a read to software: the function that asked, the status, the values. -/
structure Answer where
  fn : Nat
  status : Nat
  vals : List Nat
  deriving DecidableEq, Repr, Inhabited

/-- The state of the part. `agenda`, `focus`, `freeCtr` and `nextId` are the model's own; accesses with a number below
`fabSent` have been handed to the fabric ports. `asks` holds the requests that wait for a memory channel beside the accesses in
flight, with the channel and the partition (20 R409). -/
structure State where
  agenda : List Turn
  focus : Focus
  freeCtr : Nat
  nextId : Nat
  now : Nat
  mem : Memory
  poison : List Nat
  owners : Table Owner
  copies : Table (Table Word)
  ops : Table LaneOp
  stores : Table StoreOp
  outs : Table OutReq
  tlbs : Table (List TlbEntry)
  walks : Table Walk
  walkFaults : List WalkFault
  monitors : Table Monitor
  armed : List Armed
  vfs : Table Vf
  monq : Table Nat
  slices : Table (Table SliceLine)
  wayMask : Table Word
  biasBase : Nat
  devBias : List Nat
  hostcap : Bool
  blocks : Table Block
  comets : Table Comet
  gangs : Table Gang
  dbars : Table DBar
  parts : Table Part
  facets : Table Facet
  engines : Table EngineOp
  taps : List (Nat × Event)
  parks : List ParkRec
  counters : Table Nat
  sampled : Table Nat
  merids : Table Merid
  telIrqs : Table Nat
  linkErrs : Table LinkErr
  nodes : List (Nat × Node)
  queues : Table Queue
  reserve : Table Nat
  migrs : Table Migr
  charges : Table Nat
  served : Table Nat
  asks : List (Asker × Nat × Nat)
  cmode : Table Nat
  cmerr : Table Bool
  fabid : Nat
  routes : Table Nat
  exports : Table Export
  fports : Table FabPort
  fabSent : Nat
  bootst : Nat
  integrity : Table Nat
  answers : List Answer
  deriving DecidableEq, Repr

/-- The part right after a cold reset: the clock counters at 0 (03 R78), nothing in flight, no block, no queue, no page
known, every register that a table lists at its reset value (the accessors give the reset value of what is not listed:
`Facet.reset`, `Part.reset`, `Merid.reset`), BOOTST 0x00 (20 R418), HOSTCAP 0 (R415), FABID 0 (21 R420). Memory lists
nothing. -/
def State.reset : State :=
  { agenda := [], focus := .idle, freeCtr := 0, nextId := 0, now := 0, mem := [], poison := [], owners := [], copies := [],
    ops := [], stores := [], outs := [], tlbs := [], walks := [], walkFaults := [], monitors := [], armed := [], vfs := [], monq := [],
    slices := [], wayMask := [], biasBase := 0, devBias := [], hostcap := false, blocks := [], comets := [], gangs := [], dbars := [], parts := [],
    facets := [], engines := [], taps := [], parks := [], counters := [], sampled := [], merids := [], telIrqs := [],
    linkErrs := [], nodes := [], queues := [], reserve := [], migrs := [], charges := [], served := [], asks := [], cmode := [], cmerr := [],
    fabid := 0, routes := [], exports := [], fports := [], fabSent := 0, bootst := 0, integrity := [], answers := [] }

end Sys2Proof.Machine
end

