-- ==== Sys2Proof/Machine/Mem.lean ====
section
/-!
DEFINITION. Machine/Mem.lean: a byte-addressed memory as cells in canonical form, its reads and its writes (spec/00 R6).
-/

namespace Sys2Proof.Machine

/-! ## Memory cells -/

/-- The byte at an address; an unlisted byte reads 0 (DESIGN CHOICE, log 4). -/
def Memory.get : Memory → Nat → Byte
  | [], _ => 0
  | (k, v) :: t, a => if k = a then v else if a < k then 0 else Memory.get t a

/-- Write a byte, keeping the canonical form: writing 0 removes the cell. -/
def Memory.put : Memory → Nat → Byte → Memory
  | [], a, v => if v = 0 then [] else [(a, v)]
  | (k, w) :: t, a, v =>
    if a < k then (if v = 0 then (k, w) :: t else (a, v) :: (k, w) :: t)
    else if a = k then (if v = 0 then t else (a, v) :: t)
    else (k, w) :: Memory.put t a v

/-- The canonical form of a memory: addresses rising, no cell 0. -/
def Memory.wf : Memory → Bool
  | [] => true
  | [(_, v)] => v != 0
  | (k, v) :: (k', v') :: t => k < k' && v != 0 && Memory.wf ((k', v') :: t)

/-- Write cells in order. -/
def Memory.putAll (m : Memory) (cs : List Host.Cell) : Memory := cs.foldl (fun m c => m.put c.1 c.2) m

/-- The cells of `bs` laid out from an address. -/
def cellsAt : Nat → List Byte → List Host.Cell
  | _, [] => []
  | a, b :: bs => (a, b) :: cellsAt (a + 1) bs

/-- The `n` bytes from an address. -/
def Memory.bytes (m : Memory) : Nat → Nat → List Byte
  | _, 0 => []
  | a, n + 1 => m.get a :: Memory.bytes m (a + 1) n

/-- `Mem(a, n)`: the value of `n` bytes, low byte first (00 R6). -/
def Memory.read (m : Memory) (a n : Nat) : Nat := leVal (m.bytes a n)

/-- `Mem(a, n) := v`. -/
def Memory.write (m : Memory) (a n v : Nat) : Memory := m.putAll (cellsAt a (leBytes n v))

end Sys2Proof.Machine
end

