-- ==== Sys2Proof/Machine/Walk.lean ====
section
/-!
DEFINITION. Machine/Walk.lean: the physical address space and the homes of words (spec/18_package_memory.md R372, R373; 20
R413), and the page-table walk (16 R341-R345).
-/

set_option linter.constructorNameAsVariable false

namespace Sys2Proof.Machine

/-! ## Physical addresses (18 R372, 20 R413) -/

/-- Bytes of one memory die: 48 GiB. -/
def dieBytes : Nat := 0xC00000000
/-- The striped window ends here. -/
def stripedEnd : Nat := 0x6000000000
/-- The first address of the pinned window of die d. -/
def pinnedBase (d : Nat) : Nat := 0x10000000000 + d * 0x1000000000
/-- The memory die whose pinned window holds an address. -/
def pinnedDie (pa : Nat) : Option Nat := firstWhere (fun d => pinnedBase d ≤ pa && pa < pinnedBase d + dieBytes) (List.range 8)
/-- The striped address of local frame L of die d (18 R372). -/
def stripedFrame (d l : Nat) : Nat := 8 * l + (d ^^^ (l % 8))
/-- The canonical address of a physical address: aliases name one storage, here by its striped address. -/
def canon (pa : Nat) : Nat :=
  match pinnedDie pa with
  | some d => 4096 * stripedFrame d ((pa - pinnedBase d) / 4096) + pa % 4096
  | none => pa
/-- The memory die that a canonical address of the striped window lies on. -/
def homeDie (key : Nat) : Nat := (key / 4096 % 8) ^^^ (key / 32768 % 8)
/-- A canonical address of device memory. -/
def isDevice (key : Nat) : Bool := key < stripedEnd
/-- A canonical address of this package's host ranges (20 R413). -/
def isHost (key : Nat) : Bool := 0x400000000000 ≤ key && key < 0xC00000000000
/-- A canonical address of the coherent host range. -/
def isCoherentHost (key : Nat) : Bool := 0x800000000000 ≤ key && key < 0xC00000000000
/-- The key of a byte of another package's memory: its canonical address there above 2^48 (1 + package). -/
def remoteKey (tgt pa : Nat) : Nat := 2 ^ 48 * (1 + tgt) + canon pa
/-- A key names memory of another package. -/
def isRemote (key : Nat) : Bool := 2 ^ 48 ≤ key

/-- The range that holds a physical address: 0 striped, 1 + d pinned, 10 and 11 the host ranges, none otherwise. -/
def rangeOf (pa : Nat) : Option Nat :=
  if pa < stripedEnd then some 0
  else if 0x400000000000 ≤ pa ∧ pa < 0x800000000000 then some 10
  else if 0x800000000000 ≤ pa ∧ pa < 0xC00000000000 then some 11
  else (pinnedDie pa).map (· + 1)

/-- The memory die d is near core die c (16 R336). -/
def nearDie (c d : Nat) : Bool := d / 4 == c % 2

/-! ## Table entries (16 R342) -/

/-- The fields of a table entry. -/
structure Pte where
  v : Bool
  leaf : Bool
  mt : Nat
  ro : Bool
  a : Bool
  d : Bool
  cg : Bool
  pin : Bool
  hdie : Nat
  addr : Nat
  part : Nat
  tgt : Nat
  rem : Bool
  resv : Nat
  deriving DecidableEq, Repr

/-- Read an entry's bits (R342). -/
def decodePte (n : Nat) : Pte :=
  { v := bit n 0, leaf := bit n 1, mt := bits n 3 2, ro := bit n 4, a := bit n 5, d := bit n 6, cg := bit n 7,
    pin := bit n 8, hdie := bits n 11 9, addr := bits n 47 12 * 4096, part := bits n 52 48, tgt := bits n 60 53,
    rem := bit n 61, resv := bits n 63 62 }

/-- The page size of a leaf at a level (R341). -/
def leafSize : Nat → Nat
  | 1 => 2 ^ 30
  | 2 => 2 ^ 21
  | _ => 2 ^ 12

/-- A leaf breaks the placement rules (18 R373). A page of another package lies in a device window there (21 R424); an entry that
names another place is malformed like one of R373 (DEDUCED, log 169). -/
def badPlace (p : Pte) (size : Nat) : Bool :=
  let r := rangeOf p.addr
  r != rangeOf (p.addr + size - 1) || r.isNone ||
  if p.rem then r == some 10 || r == some 11
  else (!p.pin && r != some 0 && r != some 10 && r != some 11) || (p.pin && r != some (1 + p.hdie))

/-- An entry is malformed at a level (R342, R373); `final` entries name physical addresses. -/
def malformed (p : Pte) (level : Nat) (final : Bool) : Bool :=
  p.resv != 0 || (p.leaf && level == 0) || (!p.leaf && level == 3) ||
  (if p.leaf then
     (20 ≤ p.part && p.part ≤ 30) || (p.hdie != 0 && !p.pin) || (p.tgt != 0 && !p.rem) || (p.cg && level == 1) ||
     p.addr % leafSize level != 0 || (final && badPlace p (leafSize level))
   else
     p.mt != 0 || p.ro || p.a || p.d || p.cg || p.pin || p.hdie != 0 || p.part != 0 || p.tgt != 0 || p.rem)

/-- The index of a virtual address at a level (R341). -/
def ptIndex (va : Nat) : Nat → Nat
  | 0 => va / 2 ^ 39 % 2 ^ 13
  | 1 => va / 2 ^ 30 % 512
  | 2 => va / 2 ^ 21 % 512
  | _ => va / 2 ^ 12 % 512

/-- The first fault of a walk (R348), and the leaves used up to it. -/
structure WalkErr where
  stage2 : Bool
  level : Nat
  used : List Nat := []
  deriving DecidableEq, Repr

/-- A leaf found: its fields, with the address of the first byte of its page or contiguity group; the size of that; the key
of its entry, and the keys of the leaves used on the way. -/
structure Leaf where
  pte : Pte
  size : Nat
  entry : Nat
  used : List Nat
  deriving DecidableEq, Repr

/-- A table entry without A and D. -/
def stableBits (n : Nat) : Nat := n - n / 32 % 4 * 32

/-- The leaf entry at a key is one of a contiguity group whose 16 members agree (R343). -/
def inGroup (m : Memory) (key level : Nat) : Bool :=
  let e := fun i => stableBits (m.read (key / 128 * 128 + 8 * i) 8)
  (decodePte (m.read key 8)).cg && (decodePte (e 0)).addr % (16 * leafSize level) == 0 &&
  (List.range 16).all fun i => e i == e 0 + i * leafSize level

/-- The reach of a leaf entry: its page, or its group, which the part caches as one entry (R343, R346). -/
def leafReach (m : Memory) (key level : Nat) : Nat := if inGroup m key level then 16 * leafSize level else leafSize level

/-- Walk one table from a level; `via` gives the key of a table address and the leaves used for it. -/
def walkTable (m : Memory) (final : Bool) (via : Nat → Except WalkErr (Nat × List Nat)) (stage2 : Bool) (va : Nat) :
    Nat → Nat → Nat → List Nat → Except WalkErr Leaf
  | 0, level, _, used => .error { stage2 := stage2, level := level, used := used }
  | fuel + 1, level, table, used =>
    match via (table + 8 * ptIndex va level) with
    | .error e => .error { e with used := e.used ++ used }
    | .ok (key, more) =>
      let p := decodePte (m.read key 8)
      if !p.v || malformed p level final then .error { stage2 := stage2, level := level, used := more ++ used }
      else if p.leaf then
        let size := leafReach m key level
        .ok { pte := { p with addr := p.addr / size * size }, size := size, entry := key, used := key :: more ++ used }
      else walkTable m final via stage2 va fuel (level + 1) p.addr (more ++ used)

/-- Stage two of an intermediate address (R341, R344); with stage two disabled the address is physical. -/
def walk2 (m : Memory) (v : Vf) (ipa : Nat) : Except WalkErr (Option Leaf) :=
  if v.s2en then (walkTable m true (fun a => .ok (canon a, [])) true ipa 4 0 v.s2root []).map some else .ok none

/-- The key of an address of a page that lies on another package, or on this one, `me`. -/
def placeKey (me : Nat) (p : Pte) (pa : Nat) : Nat := if p.rem && p.tgt != me then remoteKey p.tgt pa else canon pa

/-- The key of an intermediate address, for package `me`, and the stage-two leaves used. -/
def via2 (m : Memory) (me : Nat) (v : Vf) (ipa : Nat) : Except WalkErr (Nat × List Nat) :=
  match walk2 m v ipa with
  | .error e => .error e
  | .ok none => .ok (canon ipa, [])
  | .ok (some l) => .ok (placeKey me l.pte (l.pte.addr + ipa % l.size), l.used)

/-- A memory type by its number; a stronger type has a larger one (R344). -/
def memTypeOf : Nat → MemType
  | 0 => .n
  | 1 => .w
  | 2 => .d
  | _ => .s

/-- The translation that the leaves of both stages give an address on package `me` (R344; 21 R424 step 1): stage two supplies the place, the stronger type
and either read-only bit hold, and the smaller size. -/
def combineLeaves (me vf va : Nat) (l1 : Leaf) (l2 : Option Leaf) : TlbEntry :=
  let ipa := l1.pte.addr + va % l1.size
  let p := (l2.getD l1).pte
  let size := match l2 with
    | some l => min l1.size l.size
    | none => l1.size
  let pa := match l2 with
    | some l => l.pte.addr + ipa % l.size
    | none => ipa
  { vf := vf, va := va / size * size, size := size, pa := pa / size * size, ipa := ipa / size * size,
    mt := memTypeOf (max l1.pte.mt p.mt), ro := l1.pte.ro || p.ro, part := p.part,
    pin := if p.pin then some p.hdie else none, rem := if p.rem && p.tgt != me then some p.tgt else none,
    dirty := l1.pte.d && p.d,
    leaves := match l2 with
      | some l => [l1.entry, l.entry]
      | none => [l1.entry] }

/-- Both stages of a virtual address on package `me` (R344): the translation, and the leaves whose A bit is set. -/
def walkBoth (m : Memory) (me vf : Nat) (v : Vf) (va : Nat) : Except WalkErr (TlbEntry × List Nat) :=
  match walkTable m (!v.s2en) (via2 m me v) false va 4 0 v.s1root [] with
  | .error e => .error e
  | .ok l1 =>
    match walk2 m v (l1.pte.addr + va % l1.size) with
    | .error e => .error { e with used := e.used ++ l1.used }
    | .ok l2 => .ok (combineLeaves me vf va l1 l2, (l2.map Leaf.used).getD [] ++ l1.used)

/-- The keys of the entries that a walk of one table reads, in order, its own and those by which its addresses are found. -/
def tableReads (m : Memory) (final : Bool) (via : Nat → Except WalkErr (Nat × List Nat)) (viaReads : Nat → List Nat) (va : Nat) :
    Nat → Nat → Nat → List Nat
  | 0, _, _ => []
  | fuel + 1, level, table =>
    let a := table + 8 * ptIndex va level
    viaReads a ++ match via a with
      | .error _ => []
      | .ok (key, _) =>
        let p := decodePte (m.read key 8)
        key :: if !p.v || malformed p level final || p.leaf then [] else tableReads m final via viaReads va fuel (level + 1) p.addr

/-- The keys of the entries that stage two of an intermediate address reads. -/
def reads2 (m : Memory) (v : Vf) (ipa : Nat) : List Nat :=
  if v.s2en then tableReads m true (fun a => .ok (canon a, [])) (fun _ => []) ipa 4 0 v.s2root else []

/-- The keys of the entries that the walk of a virtual address reads. -/
def walkReads (m : Memory) (me : Nat) (v : Vf) (va : Nat) : List Nat :=
  tableReads m (!v.s2en) (via2 m me v) (reads2 m v) va 4 0 v.s1root ++
    match walkTable m (!v.s2en) (via2 m me v) false va 4 0 v.s1root [] with
    | .error _ => []
    | .ok l => reads2 m v (l.pte.addr + va % l.size)

/-- The canonical address that a translation gives a virtual address. -/
def TlbEntry.key (e : TlbEntry) (va : Nat) : Nat :=
  match e.rem with
  | some t => remoteKey t (e.pa + (va - e.va))
  | none => canon (e.pa + (va - e.va))

/-- The intermediate 4 KiB frame of a virtual address under a translation. -/
def TlbEntry.frame (e : TlbEntry) (va : Nat) : Nat := (e.ipa + (va - e.va)) / 4096 * 4096

end Sys2Proof.Machine
end

