-- ==== Sys2Proof/Machine/Home.lean ====
section
/-!
DEFINITION. Machine/Home.lean: writes at the homes of words: ownership and copies, monitors, arming, pages that move
(spec/08_ordering.md R184-R188; 18 R374-R382; 07 R176; 16 R354).

`mem` holds the current value of every word, wherever the part keeps it; `owners` says which cache holds a word
without the home's copy being current, and `copies` holds the values that a cache keeps without owning them.
-/

set_option linter.constructorNameAsVariable false

namespace Sys2Proof.Machine

/-! ## Keys -/

/-- The key of a byte of a block's shared memory. -/
def sharedKey (home off : Nat) : Nat := 2 ^ 60 + home * 2 ^ 32 + off
/-- A key names shared memory. -/
def isShared (key : Nat) : Bool := 2 ^ 60 ≤ key
/-- The block whose shared memory a key names. -/
def sharedHome (key : Nat) : Nat := (key - 2 ^ 60) / 2 ^ 32
/-- The offset of a key of shared memory. -/
def sharedOff (key : Nat) : Nat := key % 2 ^ 32

/-- Two byte ranges overlap. -/
def rangesMeet (a n b m : Nat) : Bool := decide (a < b + m) && decide (b < a + n)
/-- A range overlaps cells. -/
def cellsMeet (cs : List Host.Cell) (a n : Nat) : Bool := cs.any fun c => decide (a ≤ c.1) && decide (c.1 < a + n)

/-! ## Pages that move (18 R380, R381) -/

/-- The bytes of a page by the SIZE code of a migration descriptor (18 R380). -/
def pageBytes (code : Nat) : Nat :=
  if code = 0 then 2 ^ 12 else if code = 1 then 2 ^ 16 else if code = 2 then 2 ^ 21 else if code = 3 then 2 ^ 25 else 2 ^ 30

/-- The key of a byte of the page that a leaf entry's value places. -/
def pteKey (pte off : Nat) : Nat :=
  let p := decodePte pte
  if p.rem then remoteKey p.tgt (p.addr + off) else canon (p.addr + off)

/-- The keys of the lines of a moving page at its old home, ascending by address. -/
def Migr.lines (m : Migr) : List Nat := (List.range (pageBytes m.size / 128)).map fun i => pteKey m.oldPte (128 * i)
/-- A key lies in a moving page. -/
def Migr.covers (m : Migr) (key : Nat) : Bool := m.lines.contains (key / 128 * 128)
/-- The key after the move of a key of the page. -/
def Migr.moved (m : Migr) (key : Nat) : Nat :=
  if m.bias || !m.covers key then key
  else pteKey m.newPte (128 * m.lines.idxOf (key / 128 * 128)) + key % 128

/-- Lines written after they were read go into the next pass (18 R381). -/
def State.noteDirty (s : State) (cs : List Host.Cell) : State :=
  let ls := dedupN (cs.map fun c => c.1 / 128 * 128)
  { s with migrs := s.migrs.mapv fun _ m =>
      { m with dirty := m.dirty ++ ls.filter fun l => m.lines.contains l && !m.todo.contains l && !m.dirty.contains l } }

/-! ## The caches

They are numbered: the L1 of core c is c, the stash of block b is 2^20 + b, and the lane cache of comet core j of cluster k holds the
lines of partition p under 4096 + 32 (8 k + j) + p, since its lines are tagged by partition (07 R163, 14 R300). -/

/-- The core of a facet number (13 R285: core x 4 + facet index). -/
def coreOfFacet (f : Nat) : Nat := f / 4
/-- The stash of a block. -/
def stashCache (b : Nat) : Nat := 2 ^ 20 + b
/-- The core that an L1 or a stash belongs to. -/
def State.cacheCore (s : State) (c : Nat) : Option Nat :=
  if c < 1000 then some c
  else if 2 ^ 20 ≤ c then (s.blocks.find (c - 2 ^ 20)).map fun x => coreOfFacet x.facet
  else none

/-! ## Copies and ownership (08 R186-R188, 18 R374) -/

/-- The word numbers of a range of bytes. -/
def wordsOf (key n : Nat) : List Nat := (List.range ((key % 4 + n + 3) / 4)).map (key / 4 + ·)

/-- The word of the current memory. -/
def State.memWord (s : State) (w : Nat) : Word := BitVec.ofNat 32 (s.mem.read (4 * w) 4)

/-- Drop a cache's copies of a range. -/
def State.dropCopies (s : State) (c key n : Nat) : State :=
  match s.copies.find c with
  | none => s
  | some t => { s with copies := s.copies.set c ((wordsOf key n).foldl Table.erase t) }

/-- A write ends the ownership that other caches hold of its words: the words are written back, and each keeps what it held as
a copy that it does not own (08 R186). The write-back of a line of a page that moves makes it dirty (18 R381). `keep`: the cache
that may go on owning. -/
def State.revoke (s : State) (keep : Option Nat) (ws : List Nat) : State :=
  ws.foldl (fun t w =>
    match t.owners.find w with
    | none => t
    | some o =>
      if keep = some o.cache then t
      else
        ({ t with owners := t.owners.erase w,
                  copies := t.copies.set o.cache ((t.copies.getD o.cache []).set w (t.memWord w)) } : State).noteDirty
          [(4 * w, 0)]) s

/-- The word numbers that cells touch. -/
def cellWords (cs : List Host.Cell) : List Nat := dedupN (cs.map fun c => c.1 / 4)

/-! ## Monitors (07 R175, R176; 18 R379) -/

/-- The comparison of WAITC (07 R174): memory against the operand, of `n` bytes. -/
def cmpHolds (c : WCmp) (n a b : Nat) : Bool :=
  match c with
  | .eq => a == b
  | .ne => a != b
  | .ltS => decide (sgnN (8 * n) a < sgnN (8 * n) b)
  | .ltZ => decide (a < b)
  | .geS => decide (sgnN (8 * n) b ≤ sgnN (8 * n) a)
  | .geZ => decide (b ≤ a)

/-- A write fires a distributor's watch whose word it leaves satisfying (15 R316). -/
def State.fireWatch (s : State) (cs : List Host.Cell) (w : QWatch) : QWatch :=
  if !w.fired && !w.poll && cellsMeet cs w.key 8 && cmpHolds w.cmp 8 (s.mem.read w.key 8) w.value
  then { w with fired := true } else w

/-- A write to a range fires the monitors of words it leaves satisfying (07 R176), those of the distributors among them. -/
def State.fireMonitors (s : State) (cs : List Host.Cell) : State :=
  { s with
    monitors := s.monitors.mapv fun _ m =>
      if !m.fired && !m.poll && cellsMeet cs m.key m.bytes && cmpHolds m.cmp m.bytes (s.mem.read m.key m.bytes) m.value
      then { m with fired := true } else m,
    queues := s.queues.mapv fun _ q =>
      { q with tailW := q.tailW.map (s.fireWatch cs), stampW := q.stampW.map (s.fireWatch cs) } }

/-! ## The home slices and the registry (18 R371, R374, R377) -/

/-- The ways of a memory die that a virtual function may fill: all at reset (18 R377). -/
def State.ways (s : State) (die vf : Nat) : Nat := (s.wayMask.getD (1024 * die + vf) 0xFFFF).toNat

/-- The watches of a queue that are monitors. -/
def Queue.watches (q : Queue) : List QWatch := (q.tailW.toList ++ q.stampW.toList).filter fun w => !w.poll

/-- A line that a registry entry or an armed monitor names: it is never evicted (18 R374, R377). -/
def State.lineNamed (s : State) (line : Nat) : Bool :=
  (s.owners.any fun e => e.1 / 32 == line) || (s.monitors.any fun e => !e.2.poll && e.2.key / 128 == line) ||
  s.queues.any fun e => e.2.watches.any fun w => w.key / 128 == line

/-- The replacement priority of a way's line, the lowest first. -/
def SliceLine.rank (x : SliceLine) : Nat := if x.low then x.used else 2 ^ 63 + x.used

/-- The way of some that a new line goes to: an empty one, else the one with the lowest priority whose line nothing names. -/
def State.victim (s : State) (t : Table SliceLine) (ways : List Nat) : Option Nat :=
  match ways.filter fun w => !t.has w with
  | w :: _ => some w
  | [] => minBy (fun w => (t.getD w default).rank) (ways.filter fun w => !s.lineNamed (t.getD w default).line)

/-- The lines of the home slice of an address after an access (18 R371, R377): a hit in any way is a use; a miss fills the line
in a way that the function's mask allows, at the lowest priority where `low`; a line that the registry needs (`need`) is
allocated outside the mask. -/
def State.touchedLines (s : State) (vf : Nat) (low need : Bool) (key : Nat) (t : Table SliceLine) : Table SliceLine :=
  let line := key / 128
  let ways := (List.range 16).map (16 * (Config.sliceSet line % 32768) + ·)
  match firstWhere (fun w => t.has w && (t.getD w default).line == line) ways with
  | some w => t.modify w fun x => { x with used := s.now, low := x.low && low }
  | none =>
    match s.victim t (if need then ways else ways.filter fun w => bit (s.ways (homeDie key) vf) (w % 16)) with
    | some w => t.set w { line := line, used := s.now, low := low }
    | none => t

/-- How an access leaves its lines in the home slice: not at all, as D and S pages are cached nowhere (07 R161); at the lowest
priority, as non-temporal accesses do (R159); or as any other. -/
inductive Fill
  | none | low | usual
  deriving DecidableEq, Repr

/-- How an access to a page of a type fills, with its non-temporal flag, which D and S pages ignore. -/
def fillOf (mt : MemType) (nt : Bool) : Fill :=
  match mt with
  | .d => .none
  | .s => .none
  | _ => if nt then .low else .usual

/-- An access at the home slice of an address. The values stand in `mem`: the slice holds only which lines are in it. -/
def State.touchLine (s : State) (vf : Nat) (low need : Bool) (key : Nat) : State :=
  if isDevice key then
    let die := homeDie key
    { s with slices := s.slices.set die (s.touchedLines vf low need key (s.slices.getD die [])) }
  else s

/-- A line goes through the home slice as an access fills it. -/
def State.fillSlice (s : State) (vf : Nat) (f : Fill) (need : Bool) (key : Nat) : State :=
  match f with
  | .none => s
  | .low => s.touchLine vf true need key
  | .usual => s.touchLine vf false need key

/-- The owner that a registry entry names: the core of an L1 or of a stash, or the comet core of a lane cache (18 R374). -/
def State.ownerCore (s : State) (c : Nat) : Nat := (s.cacheCore c).getD (1000 + (c - 4096) / 32)

/-- The entries of a die's registry: each names a line and an owner (18 R374). -/
def State.regEntries (s : State) (die : Nat) : List (Nat × Nat) :=
  (s.owners.filter fun e => homeDie (4 * e.1) == die).foldl (fun l e =>
    let n := (e.1 / 32, s.ownerCore e.2.cache)
    if l.contains n then l else l ++ [n]) []

/-- The words of a registry entry. -/
def State.entryOwned (s : State) (n : Nat × Nat) : List Nat :=
  (s.owners.filter fun e => e.1 / 32 == n.1 && s.ownerCore e.2.cache == n.2).map Prod.fst

/-- When a registry entry was last used. -/
def State.entryUsed (s : State) (n : Nat × Nat) : Nat :=
  (s.entryOwned n).foldl (fun m w => max m ((s.owners.getD w default).used)) 0

/-- A full registry frees its least recently used entry: the owner writes its words back (18 R374). A die's 262,144 entries
are one set (DESIGN CHOICE, log 130). -/
def State.evictEntry (s : State) (die : Nat) : State :=
  if s.owners.length ≤ 262144 then s
  else
    let es := s.regEntries die
    if es.length ≤ 262144 then s
    else
      match minBy s.entryUsed es with
      | some n => s.revoke none (s.entryOwned n)
      | none => s

/-! ## Performing a write (08 R184 item 1, R186) -/

/-- The arming of a byte-count range (16 R354): a store that leaves CTL of a die-barrier object with ARM = 1 arms its
range, or, when 64 are armed, is performed with ARM written as 0. An object is known by its MAGIC. -/
def State.armObjects (s : State) (cs : List Host.Cell) (vf : Nat) : State :=
  let ctl := cs.filter fun c => c.1 % 64 == 4
  ctl.foldl (fun t c =>
    let o := c.1 - 4
    let a : Armed := { obj := o, dst := t.mem.read (o + 32) 8, len := t.mem.read (o + 40) 8, vf := vf }
    if t.mem.read o 4 != 0x52414244 || !bit (t.mem.read (o + 4) 4) 1 then t
    else if t.armed.any (·.obj == o) then { t with armed := t.armed.map fun x => if x.obj == o then a else x }
    else if 64 ≤ t.armed.length then { t with mem := t.mem.write (o + 4) 4 (t.mem.read (o + 4) 4 - 2) }
    else { t with armed := t.armed ++ [a] }) s

/-- A cache owns words from now on. It drops its copies of the 16 bytes around each, which are older than the word: no access joins
the two (07 R158). -/
def State.ownWords (s : State) (c : Nat) (st : Option Nat) (ws : List Nat) : State :=
  ws.foldl (fun (t : State) w =>
    { (t.dropCopies c (16 * (w / 4)) 16) with owners := t.owners.set w { cache := c, stash := st, used := t.now } }) s

/-- The lines that the lane cache of a comet core holds, each with the number under which its partition's lines stand. -/
def State.laneLines (s : State) (k : Nat) : List (Nat × Nat) :=
  let mine (c : Nat) : Bool := decide (4096 ≤ c) && (c - 4096) / 32 == k
  let copied : List (Nat × Nat) := s.copies.flatMap fun e => if mine e.1 then e.2.map fun w => (e.1, w.1 / 32) else []
  let owned : List (Nat × Nat) := (s.owners.filter fun e => mine e.2.cache).map fun e => (e.2.cache, e.1 / 32)
  (copied ++ owned).foldl (fun l x => if l.contains x then l else l ++ [x]) []

/-- A lane cache holds 32 KiB, 256 lines (14 R300): where a line has come that is one too many, another leaves it, its owned words
written back (DESIGN CHOICE: which line leaves is not stated, log 168). -/
def State.trimLane (s : State) (c line : Nat) : State :=
  if c < 4096 || 2 ^ 20 ≤ c then s
  else
    let ls := s.laneLines ((c - 4096) / 32)
    if ls.length ≤ 256 then s
    else
      match ls.find? fun x => x != (c, line) with
      | some x =>
        let t := s.revoke none ((s.owners.filter fun e => e.2.cache == x.1 && e.1 / 32 == x.2).map Prod.fst)
        { t with copies := t.copies.modify x.1 fun l => l.keep fun w _ => w / 32 != x.2 }
      | none => s

/-- The values, the ownership and the dirty lines of a write at the homes of its cells: `owner` is the cache that owns the
words after it, none for no cache. Each line may be an entry more in a full registry. -/
def State.putHome (s : State) (cs : List Host.Cell) (owner : Option (Nat × Option Nat)) : State :=
  let ws := cellWords cs
  let s1 := s.revoke (owner.map Prod.fst) ws
  let s2 := { s1 with mem := s1.mem.putAll cs, poison := s1.poison.filter fun w => !ws.contains w }
  let s3 := match owner with
    | some (c, st) => (dedupN (ws.map (· / 32))).foldl (fun (t : State) n => (t.evictEntry (homeDie (128 * n))).trimLane c n)
        (s2.ownWords c st ws)
    | none => { s2 with owners := ws.foldl Table.erase s2.owners }
  s3.noteDirty cs

/-- A write of the part itself (a trap frame, a table entry's bit, an object's field): at its home, owned by no cache, firing
the monitors of its words. -/
def State.writeHome (s : State) (cs : List Host.Cell) : State := (s.putHome cs none).fireMonitors cs

/-- Write cells of global memory at their homes for a virtual function: the home slice takes the lines, the write arms
ranges, and fires the monitors of its words. -/
def State.commit (s : State) (cs : List Host.Cell) (owner : Option (Nat × Option Nat)) (vf : Nat) (f : Fill := .usual) : State :=
  let s1 := (dedupN (cs.map fun c => c.1 / 128 * 128)).foldl (fun t l => t.fillSlice vf f owner.isSome l) (s.putHome cs owner)
  (s1.armObjects cs vf).fireMonitors cs

/-- Set a bit of a table entry (16 R345), unless it is set. -/
def State.orLeaf (s : State) (a bitNo : Nat) : State :=
  let old := s.mem.read a 8
  if bit old bitNo then s else s.writeHome (cellsAt a (leBytes 8 (old ||| 2 ^ bitNo)))

/-- A walk sets A in the leaves that it used (16 R345). -/
def State.markUsed (s : State) (used : List Nat) : State := used.foldl (fun t a => t.orLeaf a 5) s

/-- The first write through a translation sets D in its leaves (16 R345) and in its cached copies. -/
def State.setDirty (s : State) (e : TlbEntry) : State :=
  if e.dirty then s
  else
    let t := e.leaves.foldl (fun (t : State) a => t.orLeaf a 6) s
    { t with tlbs := t.tlbs.mapv fun _ l => l.map fun x =>
               if x.vf == e.vf && x.va == e.va && x.leaves == e.leaves then { x with dirty := true } else x }

end Sys2Proof.Machine
end

