-- ==== Sys2Proof/Machine/Ops.lean ====
section
/-!
DEFINITION. Machine/Ops.lean: the named operations over the state: memory, blocks, groups, splits, the registers of
the unit that executes, the context area, taking a trap (06 R150, R151) and the place of tiles.
-/

namespace Sys2Proof.Machine

/-! ## Outcomes -/

/-- The outcomes of a step of this machine. -/
abbrev Out := Host.Outcome State Fault Refusal

/-- The memory of the machine with given bytes from an address. -/
def State.writeMem (s : State) (a n v : Nat) : State := { s with mem := s.mem.write a n v }

/-! ## Blocks, groups, splits, contexts -/

/-- What a number that names no block stands for. -/
def Block.empty : Block :=
  { node := default, queue := 0, records := [], seqNo := 0, coords := [], ctx := 0, ptag := 0, part := 0, vf := 0,
    phase := .waiting, facet := 0, ctxArea := 0, gang := none, groups := [], vregs := [], tiles := [], gave := [], bound := [],
    shared := [], stash := [], rings := [], bars := [], seq := none, formedAt := 0, waitingSince := 0,
    residentSince := 0, image := false, reentry := false, saved := [], preempt := none }

/-- The facet registers at reset: TLIM 0x40 in bits [23:16], owner 0x1F, trap vector 0, no accumulator owner (10 R221,
20 R405, R406, 03 R78). -/
def Facet.reset : Facet :=
  { fctl := 0x400000, fown := 0x1F, tvec := 0, accown := 0, held := [], heldStatus := [], heldBlk := none, stats := [],
    drops := 0, lastPort := [] }

/-- The block of a number. -/
def State.blk (s : State) (b : Nat) : Block := s.blocks.getD b Block.empty
/-- Change a block. -/
def State.modBlk (s : State) (b : Nat) (f : Block → Block) : State := { s with blocks := s.blocks.modify b f }
/-- The group of a slot. -/
def Block.grp (b : Block) (g : Nat) : Group := b.groups.getD g Group.empty
/-- Change a group. -/
def Block.modGrp (b : Block) (g : Nat) (f : Group → Group) : Block := { b with groups := b.groups.modify g f }
/-- The split of an index. -/
def Group.spl (g : Group) (k : Nat) : Split := g.splits.getD k Split.empty
/-- Change a split. -/
def Group.modSpl (g : Group) (k : Nat) (f : Split → Split) : Group := { g with splits := g.splits.modify k f }
/-- The group of a block. -/
def State.grp (s : State) (b g : Nat) : Group := (s.blk b).grp g
/-- Change a group of a block. -/
def State.modGrp (s : State) (b g : Nat) (f : Group → Group) : State := s.modBlk b fun x => x.modGrp g f
/-- The split of a group of a block. -/
def State.spl (s : State) (b g k : Nat) : Split := (s.grp b g).spl k
/-- Change a split of a group of a block. -/
def State.modSpl (s : State) (b g k : Nat) (f : Split → Split) : State := s.modGrp b g fun x => x.modSpl k f
/-- A comet context. -/
def State.ctx (s : State) (c : Nat) : Comet := s.comets.getD c Comet.empty
/-- Change a comet context. -/
def State.modCtx (s : State) (c : Nat) (f : Comet → Comet) : State := { s with comets := s.comets.modify c f }
/-- A facet, at reset values where nothing was written. -/
def State.facet (s : State) (f : Nat) : Facet := s.facets.getD f Facet.reset
/-- Change a facet. -/
def State.modFacet (s : State) (f : Nat) (h : Facet → Facet) : State :=
  { s with facets := s.facets.set f (h (s.facet f)) }

/-- A partition's registers, at reset values where nothing was written. -/
def State.part (s : State) (p : Nat) : Part := s.parts.getD p Part.reset
/-- Change a partition's registers. -/
def State.modPart (s : State) (p : Nat) (f : Part → Part) : State := { s with parts := s.parts.set p (f (s.part p)) }

/-- A virtual function, at reset values where nothing was written (DESIGN CHOICE, log 3). -/
def State.vf (s : State) (v : Nat) : Vf := s.vfs.getD v default
/-- Change a virtual function. -/
def State.modVf (s : State) (v : Nat) (f : Vf → Vf) : State := { s with vfs := s.vfs.set v (f (s.vf v)) }

/-- A split has a unit behind it: its block, group and index are listed and the block is resident. -/
def State.hasSplit (s : State) (b g k : Nat) : Bool :=
  match s.blocks.find b with
  | none => false
  | some x =>
    x.phase == .resident &&
    match x.groups.find g with
    | none => false
    | some y => y.splits.has k

/-- The width of a block's groups (03 R81). -/
def Block.width (b : Block) : Nat := b.node.width
/-- Registers of a group in one tile: q = 64 / GWIDTH (03 R83). -/
def Block.q (b : Block) : Nat := 64 / b.node.width

/-! ## Places (14 R293, 18 R372) -/


/-- The core die of a core (03 R78). -/
def dieOfCore (c : Nat) : Nat := c / 96
/-- The cluster of a core (14 R293). -/
def clusterOfCore (c : Nat) : Nat := 12 * (c / 192) + c % 96 / 8
/-- The cluster core index of a core (14 R293). -/
def clusterIx (c : Nat) : Nat := 8 * (c / 96 % 2) + c % 8
/-- The cluster of a comet context (14 R293): contexts are numbered 64 x cluster + 8 x comet core + context. -/
def clusterOfComet (c : Nat) : Nat := c / 64
/-- The comet core of a context within its cluster (14 R293). -/
def cometCore (c : Nat) : Nat := c % 64 / 8
/-- The core die of a comet context: comet cores 0-3 lie on the pair's lower die (14 R293). -/
def dieOfComet (c : Nat) : Nat := 2 * (clusterOfComet c / 12) + cometCore c / 4
/-- The core of a block. -/
def Block.core (b : Block) : Nat := coreOfFacet b.facet
/-- The die of a block. -/
def Block.die (b : Block) : Nat := dieOfCore b.core

/-- The lane cache of a comet context, as its block's partition has it. -/
def State.laneCache (s : State) (c : Nat) : Nat := 4096 + 32 * (c / 8) + (s.blk (s.ctx c).blk).part
/-- The caches through which a lane of a group of a block reads: its core's L1 and the stashes there, and the lane cache of
the context that it has been ejected to (08 R184 item 3, R186). -/
def State.laneCaches (s : State) (b g l : Nat) (c : Nat) : Bool :=
  s.cacheCore c == some (s.blk b).core ||
  s.comets.any fun e => e.2.blk == b && e.2.grp == g && e.2.lane == l && s.laneCache e.1 == c
/-- Drop the copies of words in the caches that satisfy a condition. -/
def State.dropWords (s : State) (p : Nat → Bool) (ws : List Nat) : State :=
  { s with copies := s.copies.mapv fun c t => if p c then ws.foldl Table.erase t else t }

/-! ## Tiles (03 R83, 09 R196-R200) -/

/-- The key of the tile that holds register `m` of group slot `g` (03 R83). -/
def Block.groupTile (b : Block) (g m : Nat) : Nat := 64 * g + m * b.width / 64
/-- The key of a sequencer-only tile. -/
def seqTile (h : Nat) : Nat := 4096 + h
/-- The key of the tile that a handle names: a group register tile that the map binds, or a tile of its own
(09 R197). -/
def Block.handleTile (b : Block) (h : Nat) : Nat := b.bound.getD h (seqTile h)
/-- A handle names a sequencer-only tile (09 R197). -/
def Block.seqOnly (b : Block) (h : Nat) : Bool := !b.bound.has h
/-- The owner of a tile at launch (09 R199). -/
def launchOwner (t : Nat) : TileState := if t < 4096 then .owned (.group (t / 64)) else .owned (.seqCol 0)
/-- The status of a tile (09 R198). -/
def Block.tile (b : Block) (t : Nat) : TileState := b.tiles.getD t (launchOwner t)
/-- Set the status of a tile. -/
def Block.setTile (b : Block) (t : Nat) (x : TileState) : Block := { b with tiles := b.tiles.set t x }
/-- The group owns the tile (09 R200). -/
def Block.groupOwns (b : Block) (g t : Nat) : Bool := b.tile t == .owned (.group g)
/-- The sequencer owns the tile, whichever column took it (09 R200). -/
def Block.seqOwns (b : Block) (t : Nat) : Bool :=
  match b.tile t with
  | .owned (.seqCol _) => true
  | .owned .seqAny => true
  | _ => false

/-- Write a register or tile word; a word written anew is not poisoned (20 R419). -/
def Block.putReg (b : Block) (key : Nat) (v : Word) : Block :=
  { b with vregs := b.vregs.set key v, poisonRegs := b.poisonRegs.filter (· != key) }
/-- Write a register of a comet context; it is not poisoned then (20 R419). -/
def Comet.putReg (c : Comet) (m : Nat) (v : Word) : Comet :=
  { c with vregs := c.vregs.set m v, poisonRegs := c.poisonRegs.filter (· != m) }
/-- Word `n` of a tile, in word position n (03 R83). -/
def Block.tileWord (b : Block) (t n : Nat) : Word := b.vregs.getD (64 * t + n) 0
/-- Write word `n` of a tile. -/
def Block.setTileWord (b : Block) (t n : Nat) (v : Word) : Block := b.putReg (64 * t + n) v
/-- The place of register `m` of lane `l` of group slot `g` (03 R83): tile m div q, word (m mod q) x GWIDTH + l,
which is word m x GWIDTH + l of the group's tiles. -/
def Block.regKey (b : Block) (g m l : Nat) : Nat := 4096 * g + m * b.width + l

/-! ## Registers of the executing unit -/

/-- The active lanes of the executing unit: AM of a split, which has GWIDTH bits (03 R81, R87), the one lane of a comet
context. -/
def State.lanes (s : State) : Mask :=
  match s.focus with
  | .split b g k => (s.spl b g k).am &&& allLanes (s.blk b).width
  | .comet c => laneBit (s.ctx c).lane
  | _ => 0

/-- The block of the executing unit. -/
def State.unitBlk (s : State) : Nat :=
  match s.focus with
  | .split b _ _ => b
  | .comet c => (s.ctx c).blk
  | .seqr b => b
  | _ => 0

/-- The group slot of the executing unit. -/
def State.unitGrp (s : State) : Nat :=
  match s.focus with
  | .split _ g _ => g
  | .comet c => (s.ctx c).grp
  | _ => 0

/-- The split of the executing unit: for an ejected lane, the split it was ejected from (03 R78). -/
def State.unitSplit (s : State) : Nat :=
  match s.focus with
  | .split _ _ k => k
  | .comet c => (s.ctx c).split
  | _ => 0

/-- The executing unit is a comet context. -/
def State.onComet (s : State) : Bool :=
  match s.focus with
  | .comet _ => true
  | _ => false

/-- The PC of the executing unit. -/
def State.pc (s : State) : Dword :=
  match s.focus with
  | .split b g k => (s.spl b g k).pc
  | .comet c => (s.ctx c).pc
  | _ => 0

/-- Set the PC of the executing unit, whose wait, if any, is over. -/
def State.setPc (s : State) (pc : Dword) : State :=
  match s.focus with
  | .split b g k => s.modSpl b g k fun x => { x with pc := pc, wait := .ready }
  | .comet c => s.modCtx c fun x => { x with pc := pc, wait := .ready }
  | _ => s

/-- Move the executing unit past an instruction of `n` bytes. -/
def State.skip (s : State) (n : Nat) : State := s.setPc (s.pc + BitVec.ofNat 64 n)

/-- The executing unit is privileged (06 R150, 14 R300). -/
def State.privileged (s : State) : Bool :=
  match s.focus with
  | .split b g k => (s.spl b g k).priv
  | .comet c => (s.ctx c).priv
  | _ => false

/-- v(m) of lane l of the executing unit. -/
def State.rdV (s : State) (m l : Nat) : Word :=
  match s.focus with
  | .split b g _ => (s.blk b).vregs.getD ((s.blk b).regKey g m l) 0
  | .comet c => (s.ctx c).vregs.getD m 0
  | _ => 0

/-- v(m) of lane l of the executing unit := v. -/
def State.wrV (s : State) (m l : Nat) (v : Word) : State :=
  match s.focus with
  | .split b g _ => s.modBlk b fun x => x.putReg (x.regKey g m l) v
  | .comet c => s.modCtx c fun x => x.putReg m v
  | _ => s

/-- s(m) of the executing unit; an ejected lane reads its own copy (14 R301). -/
def State.rdS (s : State) (m : Nat) : Word :=
  match s.focus with
  | .split b g _ => (s.grp b g).sregs.getD m 0
  | .comet c => (s.ctx c).sregs.getD m 0
  | _ => 0

/-- The name of a uniform register of a group slot, and of an x register of a column, among the words of a block that may be
marked poisoned (20 R419). -/
def uniformKey (g m : Nat) : Nat := 2 ^ 20 + 256 * g + m
/-- The name of an x register of a column there. -/
def xregKey (c r : Nat) : Nat := 2 ^ 21 + 32 * c + r

/-- s(m) of the executing unit := v; it is not poisoned then. -/
def State.wrS (s : State) (m : Nat) (v : Word) : State :=
  match s.focus with
  | .split b g _ => s.modBlk b fun x =>
      { (x.modGrp g fun y => { y with sregs := y.sregs.set m v }) with
        poisonRegs := x.poisonRegs.filter (· != uniformKey g m) }
  | .comet c => s.modCtx c fun x =>
      { x with sregs := x.sregs.set m v, poisonRegs := x.poisonRegs.filter (· != uniformKey 0 m) }
  | _ => s

/-- The stored bit of predicate pair k of lane l (03 R76): pair 0 holds 1. -/
def State.pairBit (s : State) (k l : Nat) : Bool :=
  if k = 0 then true
  else
    match s.focus with
    | .split b g _ => hasLane ((s.grp b g).preds.getD k 0) l
    | .comet c => (s.ctx c).preds.getD k false
    | _ => false

/-- p(n) of lane l: the even member is the stored bit, the odd member its complement (03 R76). -/
def State.rdP (s : State) (n : Pred) (l : Nat) : Bool :=
  if n.toNat % 2 = 0 then s.pairBit (n.toNat / 2) l else !s.pairBit (n.toNat / 2) l

/-- Pair k of lane l := (b, not b); a write to pair 0 is discarded (02 R50, 03 R76). -/
def State.wrPair (s : State) (k : PairIx) (l : Nat) (b : Bool) : State :=
  if k = 0 then s
  else
    match s.focus with
    | .split x g _ =>
      s.modGrp x g fun y => { y with preds := y.preds.set k.toNat (putLane (y.preds.getD k.toNat 0) l b) }
    | .comet c => s.modCtx c fun y => { y with preds := y.preds.set k.toNat b }
    | _ => s

/-- The 64-bit value of an even lane register pair (00 R14). -/
def State.rdVPair (s : State) (m l : Nat) : Dword := pairVal (s.rdV m l) (s.rdV (m + 1) l)
/-- An even lane register pair := v. -/
def State.wrVPair (s : State) (m l : Nat) (v : Dword) : State := (s.wrV m l (lowWord v)).wrV (m + 1) l (highWord v)
/-- The 64-bit value of an even uniform register pair. -/
def State.rdSPair (s : State) (m : Nat) : Dword := pairVal (s.rdS m) (s.rdS (m + 1))
/-- An even uniform register pair := v. -/
def State.wrSPair (s : State) (m : Nat) (v : Dword) : State := (s.wrS m (lowWord v)).wrS (m + 1) (highWord v)

/-- The lanes that execute: active lanes whose guard is true (02 R43, 04 R96). -/
def State.exec (s : State) (g : Pred) : Mask := maskOf fun l => hasLane s.lanes l && s.rdP g l

/-- Write a result to every executing lane, from values computed before any write (00 R12). -/
def State.putLanes (s : State) (ls : List Nat) (f : State → Nat → State) : State := ls.foldl f s

/-! ## Free values -/

/-- Take the next free number: the counter that the free values of Config are applied to (log 2). -/
def State.tickFree (s : State) : State := { s with freeCtr := s.freeCtr + 1 }

/-! ## Events and parks -/

/-- Offer an event to the tap of a Meridian (17 R355). -/
def State.offer (s : State) (m : Nat) (e : Event) : State := { s with taps := s.taps ++ [(m, e)] }

/-- An event of a block, from a core of its own die (17 R356). -/
def State.offerBlk (s : State) (b : Nat) (type sub ea eb : Nat) : State :=
  let x := s.blk b
  s.offer x.die { time := s.now, type := type, part := x.part, ctx := x.ctx, src := x.core, sub := sub, ea := ea, eb := eb }

/-- An event of a comet context (17 R356): the source is 0x8000 + 8 x CLUSIX + j. -/
def State.offerComet (s : State) (c : Nat) (type sub ea eb : Nat) : State :=
  let x := s.blk (s.ctx c).blk
  s.offer (dieOfComet c)
    { time := s.now, type := type, part := x.part, ctx := x.ctx, src := 0x8000 + c / 8, sub := sub, ea := ea, eb := eb }

/-- Report the park of a unit of a block (15 R330). -/
def State.reportPark (s : State) (b kind slot split lane : Nat) (t : TrapState) (splitix : Nat := 0) : State :=
  let x := s.blk b
  { s with parks := s.parks ++
      [{ part := x.part, ctx := x.ctx, kind := kind, ptag := x.ptag, area := x.ctxArea, slot := slot, split := split,
         lane := lane, cause := t.cause, epc := t.epc, info := t.info, lmask := t.lmask, facet := x.facet,
         splitix := splitix }] }

/-! ## The context area (13 R277) -/

/-- The key of a byte of a block's context area: its virtual address under the block's tables, and, where they do not map it,
the same physical address (DESIGN CHOICE, log 5). -/
def State.ctxKey (s : State) (b a : Nat) : Nat :=
  match walkBoth s.mem s.fabid (s.blk b).vf (s.vf (s.blk b).vf) a with
  | .ok (e, _) => e.key a
  | .error _ => canon a

/-- The cells of bytes laid out from an address of a context area, page by page; `n` bounds the pages. -/
def State.ctxCells (s : State) (b : Nat) : Nat → Nat → List Byte → List Host.Cell
  | 0, a, bs => cellsAt (s.ctxKey b a) bs
  | n + 1, a, bs =>
    let k := 4096 - a % 4096
    if bs.length ≤ k then cellsAt (s.ctxKey b a) bs
    else cellsAt (s.ctxKey b a) (bs.take k) ++ s.ctxCells b n (a + k) (bs.drop k)

/-- The `len` bytes from an address of a context area; `n` bounds the pages. -/
def State.ctxBytes (s : State) (b : Nat) : Nat → Nat → Nat → List Byte
  | 0, a, len => s.mem.bytes (s.ctxKey b a) len
  | n + 1, a, len =>
    let k := 4096 - a % 4096
    if len ≤ k then s.mem.bytes (s.ctxKey b a) len
    else s.mem.bytes (s.ctxKey b a) k ++ s.ctxBytes b n (a + k) (len - k)

/-- The pages of a range that the part itself reads or writes for a virtual function are used, and written, as by every walk
(16 R345). -/
def State.touchRange (s : State) (vf a n : Nat) (wr : Bool) : State :=
  (List.range ((a % 4096 + max n 1 + 4095) / 4096)).foldl (fun (t : State) i =>
    match walkBoth t.mem t.fabid vf (t.vf vf) ((a / 4096 + i) * 4096) with
    | .ok (e, used) => if wr then (t.markUsed used).setDirty e else t.markUsed used
    | .error _ => t) s

/-- The pages of a range of a block's context area are used, and written (16 R345). -/
def State.touchCtx (s : State) (b a n : Nat) (wr : Bool) : State := s.touchRange (s.blk b).vf a n wr

/-- The part writes bytes to a block's context area: at their homes, and no copy of them stays at the block's core, whose
loads see them as stores of its own (06 R151). -/
def State.writeCtx (s : State) (b a : Nat) (bs : List Byte) : State :=
  let cs := s.ctxCells b (bs.length / 4096 + 1) a bs
  ((s.touchCtx b a bs.length true).writeHome cs).dropWords (fun c => s.cacheCore c == some (s.blk b).core) (cellWords cs)

/-- The number in `n` bytes of a block's context area. -/
def State.readCtx (s : State) (b a n : Nat) : Nat := leVal (s.ctxBytes b (n / 4096 + 1) a n)

/-! ## Taking a trap (06 R150, R151, 13 R265-R271) -/

/-- The causes that a lane split takes by vector (13 R266-R270); the others park. -/
def vectorCause (c : Nat) : Bool :=
  (c ≤ 0x05) || (0x36 ≤ c && c ≤ 0x3B) || c == 0x3D || c == 0x40 || c == 0x42 || c == 0x43 || c == 0x60 ||
  (0x62 ≤ c && c ≤ 0x66) || (0x80 ≤ c && c ≤ 0x83) || c == 0xA0 || c == 0xA2 || c == 0xA3

/-- The link pair of a node exists: vregs is even and at least 2 (06 R142). -/
def Node.hasLink (n : Node) : Bool := n.vregs % 2 == 0 && 2 ≤ n.vregs

/-- The even register of the link pair (06 R142). -/
def Node.link (n : Node) : Nat := n.vregs - 2

/-- The frame slot of a split in its block's context area (13 R277). -/
def Block.frameSlot (b : Block) (g k : Nat) : Nat := b.ctxArea + 4096 * g + 1024 * k

/-- The trap state that a unit records (06 R150): RPC is EPC + 4 for the software trap and EPC otherwise. -/
def trapState (pc : Dword) (am : Mask) (cause n : Nat) (lmask : Mask) (info : Dword) : TrapState :=
  { epc := pc, rpc := if cause = 0x02 then pc + 4 else pc, cause := BitVec.ofNat 32 (cause + 256 * n), lmask := lmask,
    amask := am, info := info }

/-- The bytes of a frame (06 R151). -/
def frameBytes (t : TrapState) (links : List Dword) : List Byte :=
  leBytes 8 t.epc.toNat ++ leBytes 8 t.rpc.toNat ++ leBytes 4 t.cause.toNat ++ leBytes 4 0 ++
  leBytes 8 t.lmask.toNat ++ leBytes 8 t.amask.toNat ++ leBytes 8 t.info.toNat ++ leBytes 16 0 ++
  links.flatMap fun d => leBytes 8 d.toNat

/-- A trap of this split is delivered by vector (06 R150, 13 R271). -/
def State.vectors (s : State) (b g k cause : Nat) : Bool :=
  vectorCause cause && !(s.spl b g k).priv && (s.blk b).node.hasLink && (s.facet (s.blk b).facet).tvec != 0

/-- A result in flight is still to be written to the link pair of an active lane of a split (04 R96). -/
def State.linkPending (s : State) (b g k : Nat) : Bool :=
  s.ops.vals.any fun o => o.blk == b && o.grp == g && o.comet.isNone &&
    decide ((s.blk b).node.link < o.d.toNat + (o.bytes + 3) / 4) && decide (o.d.toNat < (s.blk b).node.link + 2) &&
    o.acc.any fun a => hasLane (s.spl b g k).am a.lane

/-- The trap of a split waits: the link pair that its delivery saves and writes has a result in flight (DEDUCED, log 131). -/
def State.trapHeld (s : State) (b g k cause : Nat) : Bool := s.vectors b g k cause && s.linkPending b g k

/-- Take a trap in the executing unit (06 R150): cause, number of a software trap, lanes that raised it, INFO. The
instruction has no other effect. A split is vectored or parked; an ejected lane is parked. A trap that is held is not taken
yet: the instruction raises it again. -/
def State.takeTrapN (s : State) (cause n : Nat) (lmask : Mask) (info : Dword) : State :=
  match s.focus with
  | .split b g k =>
    let sp := s.spl b g k
    let t := trapState sp.pc sp.am cause n lmask info
    if s.trapHeld b g k cause then s
    else if s.vectors b g k cause then
      let x := s.blk b
      let f := x.frameSlot g k
      let link := x.node.link
      let links := (List.range x.width).map fun l => s.rdVPair link l
      let s1 := s.writeCtx b f (frameBytes t links)
      let s2 := s1.putLanes (lanesOf s.lanes) fun u l => u.wrVPair link l (BitVec.ofNat 64 f)
      (s2.modSpl b g k fun y =>
        { y with pc := (s.facet x.facet).tvec, priv := true, frame := BitVec.ofNat 64 f, trap := some t, wait := .ready,
                 pathStart := s.now }).offerBlk b 0x02 cause sp.pc.toNat info.toNat
    else
      ((s.modSpl b g k fun y => { y with parked := true, parkedAt := s.now, trap := some t }).offerBlk
        b 0x02 cause sp.pc.toNat info.toNat).reportPark b 0 g k 0 t
  | .comet c =>
    let x := s.ctx c
    let t := trapState x.pc (laneBit x.lane) cause n lmask info
    ((s.modCtx c fun y => { y with parked := true, parkedAt := s.now, trap := some t }).offerComet
      c 0x02 cause x.pc.toNat info.toNat).reportPark x.blk 2 x.grp (c % 64) x.lane t x.split
  | _ => s

/-- Take a trap of every active lane, with INFO 0: decode, budget, ownership and privilege traps (02 R46, 09 R200). -/
def State.takeTrap (s : State) (cause : Nat) : State := s.takeTrapN cause 0 s.lanes 0

/-- Take a trap of some lanes with an INFO value. -/
def State.trapWith (s : State) (cause : Nat) (lmask : Mask) (info : Dword) : State := s.takeTrapN cause 0 lmask info

/-! ## Small lookups -/

/-- A new name for an operation in flight. -/
def State.fresh (s : State) : Nat × State := (s.nextId, { s with nextId := s.nextId + 1 })

/-- Add to a counter of a core (17 R358). -/
def State.count (s : State) (core i n : Nat) : State :=
  { s with counters := s.counters.set (8 * core + i) (s.counters.getD (8 * core + i) 0 + n) }

end Sys2Proof.Machine
end

