-- ==== Sys2Proof/Machine/Operands.lean ====
section
/-!
DEFINITION. Machine/Operands.lean: the operand forms of lane instructions (spec/02_encoding.md R44, R45, R98), the
registers that an instruction names, and the checks that stand before every lane instruction (R46, 09 R200,
14 R301, R302) with the register interlock (04 R96).
-/

set_option linter.constructorNameAsVariable false

namespace Sys2Proof.Machine

/-! ## The registers that an instruction names -/

/-- Register ranges (first, count): lane registers read or written, lane registers that only the budget check counts,
uniform registers, and predicate pairs beside the guard's. -/
structure Uses where
  v : List (Nat × Nat)
  bv : List (Nat × Nat)
  u : List (Nat × Nat)
  p : List Nat
  deriving DecidableEq, Repr

/-- Lane registers only. -/
def usesV (v : List (Nat × Nat)) : Uses := { v := v, bv := [], u := [], p := [] }
/-- Lane registers and predicate pairs. -/
def usesVP (v : List (Nat × Nat)) (p : List Nat) : Uses := { v := v, bv := [], u := [], p := p }
/-- 2 registers for a 64-bit form, else 1. -/
def wn (w : Bool) : Nat := if w then 2 else 1
/-- The pair that a predicate belongs to (03 R76). -/
def pairOf (p : Pred) : Nat := p.toNat / 2

/-- The registers of an instruction with an operand class (R44): `dn`, `an` and `bn` registers for D, A and B. -/
def usesOC (src : Src) (d : Reg) (dn : Nat) (a : Reg) (an bn : Nat) : Uses :=
  match src with
  | .vv b => usesV [(d.toNat, dn), (a.toNat, an), (b.toNat, bn)]
  | .vs b => { v := [(d.toNat, dn), (a.toNat, an)], bv := [], u := [(b.toNat, bn)], p := [] }
  | .ss b => { v := [], bv := [], u := [(d.toNat, dn), (a.toNat, an), (b.toNat, bn)], p := [] }
  | .lit _ => usesV [(d.toNat, dn), (a.toNat, an)]

/-- The registers of a compare with an operand class: no D register, a pair written. -/
def usesCmp (src : Src) (a : Reg) (n : Nat) (k : PairIx) : Uses :=
  match src with
  | .vv b => usesVP [(a.toNat, n), (b.toNat, n)] [k.toNat]
  | .vs b => { v := [(a.toNat, n)], bv := [], u := [(b.toNat, n)], p := [k.toNat] }
  | .ss b => { v := [(a.toNat, n)], bv := [], u := [(b.toNat, n)], p := [k.toNat] }
  | .lit _ => usesVP [(a.toNat, n)] [k.toNat]

/-- Registers of a memory access of a width (R58): 2 for a dword, 4 for a quadword, else 1. -/
def widthRegs : MWidth → Nat
  | .d => 2
  | .q => 4
  | _ => 1

/-- Bytes of an access (07 R158). -/
def widthBytes : MWidth → Nat
  | .b => 1
  | .h => 2
  | .w => 4
  | .d => 8
  | .q => 16

/-- Registers of a CVT operand type (R54). -/
def cvtRegs : CvtTy → Nat
  | .s64 => 2
  | .z64 => 2
  | _ => 1

/-- The registers that a lane instruction names on a node (R45, R142); steps and slots name none. -/
def instrUses (n : Node) : Instr → Uses
  | .iadd _ w d a src => usesOC src d (wn w) a (wn w) (wn w)
  | .isub _ w d a src => usesOC src d (wn w) a (wn w) (wn w)
  | .imlo _ w d a src => usesOC src d (wn w) a (wn w) (wn w)
  | .imhiS _ w d a src => usesOC src d (wn w) a (wn w) (wn w)
  | .imhiZ _ w d a src => usesOC src d (wn w) a (wn w) (wn w)
  | .imac _ w d a src => usesOC src d (wn w) a (wn w) (wn w)
  | .idivS _ w d a src => usesOC src d (wn w) a (wn w) (wn w)
  | .idivZ _ w d a src => usesOC src d (wn w) a (wn w) (wn w)
  | .iminS _ w d a src => usesOC src d (wn w) a (wn w) (wn w)
  | .iminZ _ w d a src => usesOC src d (wn w) a (wn w) (wn w)
  | .imaxS _ w d a src => usesOC src d (wn w) a (wn w) (wn w)
  | .imaxZ _ w d a src => usesOC src d (wn w) a (wn w) (wn w)
  | .and _ w d a src => usesOC src d (wn w) a (wn w) (wn w)
  | .or _ w d a src => usesOC src d (wn w) a (wn w) (wn w)
  | .xor _ w d a src => usesOC src d (wn w) a (wn w) (wn w)
  | .andn _ w d a src => usesOC src d (wn w) a (wn w) (wn w)
  | .iaddc _ w d a src => usesOC src d (wn w + 1) a (wn w) (wn w)
  | .lea _ w d a src => usesOC src d 2 a 2 (wn w)
  | .iabs _ w d src => usesOC src d (wn w) d (wn w) (wn w)
  | .ineg _ w d src => usesOC src d (wn w) d (wn w) (wn w)
  | .not _ w d src => usesOC src d (wn w) d (wn w) (wn w)
  | .clz _ w d src => usesOC src d (wn w) d (wn w) (wn w)
  | .popc _ w d src => usesOC src d (wn w) d (wn w) (wn w)
  | .brev _ w d src => usesOC src d (wn w) d (wn w) (wn w)
  | .mov _ w d src => usesOC src d (wn w) d (wn w) (wn w)
  | .shl _ w d a src => usesOC src d (wn w) a (wn w) 1
  | .shr _ w d a src => usesOC src d (wn w) a (wn w) 1
  | .sar _ w d a src => usesOC src d (wn w) a (wn w) 1
  | .rol _ w d a src => usesOC src d (wn w) a (wn w) 1
  | .bfxS _ w d a src => usesOC src d (wn w) a (wn w) 1
  | .bfxZ _ w d a src => usesOC src d (wn w) a (wn w) 1
  | .bfi _ w d a src => usesOC src d (wn w) a (wn w) 1
  | .moviV _ d _ => usesV [(d.toNat, 1)]
  | .movhiV _ d _ => usesV [(d.toNat, 1)]
  | .moviS _ d _ => { v := [], bv := [], u := [(d.toNat, 1)], p := [] }
  | .movhiS _ d _ => { v := [], bv := [], u := [(d.toNat, 1)], p := [] }
  | .icmp _ _ k a src _ w => usesCmp src a (wn w) k
  | .sel _ d a b f => usesVP [(d.toNat, 1), (a.toNat, 1), (b.toNat, 1)] [pairOf f]
  | .pand _ k a b => usesVP [] [k.toNat, pairOf a, pairOf b]
  | .por _ k a b => usesVP [] [k.toNat, pairOf a, pairOf b]
  | .pxor _ k a b => usesVP [] [k.toNat, pairOf a, pairOf b]
  | .pnot _ k a => usesVP [] [k.toNat, pairOf a]
  | .padd _ d a b _ _ _ => usesV [(d.toNat, 1), (a.toNat, 1), (b.toNat, 1)]
  | .psub _ d a b _ _ _ => usesV [(d.toNat, 1), (a.toNat, 1), (b.toNat, 1)]
  | .pmul _ d a b _ _ _ => usesV [(d.toNat, 1), (a.toNat, 1), (b.toNat, 1)]
  | .pmin _ d a b _ _ => usesV [(d.toNat, 1), (a.toNat, 1), (b.toNat, 1)]
  | .pmax _ d a b _ _ => usesV [(d.toNat, 1), (a.toNat, 1), (b.toNat, 1)]
  | .pdot _ d a b _ _ => usesV [(d.toNat, 1), (a.toNat, 1), (b.toNat, 1)]
  | .pcmpEq _ d a b _ _ => usesV [(d.toNat, 1), (a.toNat, 1), (b.toNat, 1)]
  | .pcmpLt _ d a b _ _ => usesV [(d.toNat, 1), (a.toNat, 1), (b.toNat, 1)]
  | .pwiden _ d b _ _ => usesV [(d.toNat, 2), (b.toNat, 1)]
  | .pnarrow _ d a b _ _ => usesV [(d.toNat, 1), (a.toNat, 2), (b.toNat, 1)]
  | .fadd _ d a src => usesOC src d 1 a 1 1
  | .fsub _ d a src => usesOC src d 1 a 1 1
  | .fmul _ d a src => usesOC src d 1 a 1 1
  | .ffma _ d a src => usesOC src d 1 a 1 1
  | .fmin _ d a src => usesOC src d 1 a 1 1
  | .fmax _ d a src => usesOC src d 1 a 1 1
  | .pfmaF16 _ d a src => usesOC src d 1 a 1 1
  | .pfmaBf16 _ d a src => usesOC src d 1 a 1 1
  | .fclass _ d src => usesOC src d 1 d 1 1
  | .fcmp _ _ k a src _ => usesCmp src a 1 k
  | .fexp2 _ d a _ => usesV [(d.toNat, 1), (a.toNat, 1)]
  | .flog2 _ d a _ => usesV [(d.toNat, 1), (a.toNat, 1)]
  | .frcp _ d a _ => usesV [(d.toNat, 1), (a.toNat, 1)]
  | .frsq _ d a _ => usesV [(d.toNat, 1), (a.toNat, 1)]
  | .fsqrt _ d a _ => usesV [(d.toNat, 1), (a.toNat, 1)]
  | .fsinpi _ d a _ => usesV [(d.toNat, 1), (a.toNat, 1)]
  | .fcospi _ d a _ => usesV [(d.toNat, 1), (a.toNat, 1)]
  | .ftanh _ d a _ => usesV [(d.toNat, 1), (a.toNat, 1)]
  | .fsigm _ d a _ => usesV [(d.toNat, 1), (a.toNat, 1)]
  | .fgelu _ d a _ => usesV [(d.toNat, 1), (a.toNat, 1)]
  | .fsilu _ d a _ => usesV [(d.toNat, 1), (a.toNat, 1)]
  | .ferf _ d a _ => usesV [(d.toNat, 1), (a.toNat, 1)]
  | .cvt _ d a dty sty _ _ => usesV [(d.toNat, cvtRegs dty), (a.toNat, cvtRegs sty)]
  | .qscale _ d a b => usesV [(d.toNat, 1), (a.toNat, 1), (b.toNat, 1)]
  | .qpack _ d a b => usesV [(d.toNat, 64 / n.width), (a.toNat, 64 / n.width), (b.toNat, 1)]
  | .qunpk _ d a b => usesV [(d.toNat, 1), (a.toNat, 2), (b.toNat, 1)]
  | .cvtFw _ d a b => usesV [(d.toNat, 1), (a.toNat, 1), (b.toNat, 1)]
  | .voteAll _ k p _ => usesVP [] [k.toNat, pairOf p]
  | .voteAny _ k p _ => usesVP [] [k.toNat, pairOf p]
  | .voteBal _ d p _ => usesVP [(d.toNat, 2)] [pairOf p]
  | .voteEq _ k p _ => usesVP [] [k.toNat, pairOf p]
  | .shflIdx _ d a b _ => usesV [(d.toNat, 1), (a.toNat, 1), (b.toNat, 1)]
  | .shflUp _ d a b _ => usesV [(d.toNat, 1), (a.toNat, 1), (b.toNat, 1)]
  | .shflDn _ d a b _ => usesV [(d.toNat, 1), (a.toNat, 1), (b.toNat, 1)]
  | .shflXor _ d a b _ => usesV [(d.toNat, 1), (a.toNat, 1), (b.toNat, 1)]
  | .redux _ d a _ k _ => { v := [(a.toNat, 1)], bv := [], u := [(d.toNat, 1)], p := [k.toNat] }
  | .scanInc _ d a _ k _ => usesVP [(d.toNat, 1), (a.toNat, 1)] [k.toNat]
  | .scanExc _ d a _ k _ => usesVP [(d.toNat, 1), (a.toNat, 1)] [k.toNat]
  | .call _ _ => usesV [(n.link, 2)]
  | .brx _ a => usesV [(a.toNat, 2)]
  | .callx _ a => usesV [(a.toNat, 2), (n.link, 2)]
  | .ret _ => usesV [(n.link, 2)]
  | .live _ _ a => { v := [], bv := [], u := [(a.toNat, 2)], p := [] }
  | .ld _ d a w _ _ => usesV [(d.toNat, widthRegs w), (a.toNat, 2)]
  | .st _ d a w _ _ => usesV [(d.toNat, widthRegs w), (a.toNat, 2)]
  | .lds _ d a w _ => usesV [(d.toNat, widthRegs w), (a.toNat, 1)]
  | .sts _ d a w _ => usesV [(d.toNat, widthRegs w), (a.toNat, 1)]
  | .smap _ d a b => usesV [(d.toNat, 2), (a.toNat, 2), (b.toNat, 1)]
  | .pref _ a => usesV [(a.toNat, 2)]
  | .atomAdd _ d a _ w => usesV [(d.toNat, wn w), (a.toNat, 2)]
  | .atomMinS _ d a _ w => usesV [(d.toNat, wn w), (a.toNat, 2)]
  | .atomMinZ _ d a _ w => usesV [(d.toNat, wn w), (a.toNat, 2)]
  | .atomMaxS _ d a _ w => usesV [(d.toNat, wn w), (a.toNat, 2)]
  | .atomMaxZ _ d a _ w => usesV [(d.toNat, wn w), (a.toNat, 2)]
  | .atomAnd _ d a _ w => usesV [(d.toNat, wn w), (a.toNat, 2)]
  | .atomOr _ d a _ w => usesV [(d.toNat, wn w), (a.toNat, 2)]
  | .atomXor _ d a _ w => usesV [(d.toNat, wn w), (a.toNat, 2)]
  | .atomExch _ d a _ w => usesV [(d.toNat, wn w), (a.toNat, 2)]
  | .incw _ d a _ => usesV [(d.toNat, 1), (a.toNat, 2)]
  | .decw _ d a _ => usesV [(d.toNat, 1), (a.toNat, 2)]
  | .atomAddb _ d a _ k => usesVP [(d.toNat, 2), (a.toNat, 2)] [k.toNat]
  | .atomCasW _ d a _ => usesV [(d.toNat, 2), (a.toNat, 2)]
  | .atomCasD _ d a _ => usesV [(d.toNat, 4), (a.toNat, 2)]
  | .atomCasQ _ d a _ => usesV [(d.toNat, 8), (a.toNat, 2)]
  | .waitc _ d a w _ => usesV [(d.toNat, wn w), (a.toNat, 2)]
  | .give _ a => { v := [], bv := [(a.toNat, 1)], u := [], p := [] }
  | .take _ a => { v := [], bv := [(a.toNat, 1)], u := [], p := [] }
  | .rwait _ d _ => usesV [(d.toNat, 1)]
  | .eset _ _ a _ => usesV [(a.toNat, 1)]
  | .eget _ d _ _ => usesV [(d.toNat, 1)]
  | .ecmdGo _ _ a => usesV [(a.toNat, 1)]
  | .ecmdClear _ _ a _ => usesV [(a.toNat, 1)]
  | .sparseIndexGo _ a => usesV [(a.toNat, 1)]
  | .sparseIndexClear _ a _ => usesV [(a.toNat, 1)]
  | .lodestarGo _ a => usesV [(a.toNat, 1)]
  | .lodestarClear _ a _ => usesV [(a.toNat, 1)]
  | .copy _ _ a b => usesV [(a.toNat, 2), (b.toNat, 2)]
  | .ewait _ a b => usesV [(a.toNat, 2), (b.toNat, 2)]
  | .dbar _ a => usesV [(a.toNat, 2)]
  | .emit _ a b => usesV [(a.toNat, 2), (b.toNat, 2)]
  | .mfs _ d r => usesV [(d.toNat, if r == .clk then 2 else 1)]
  | .mts _ a _ => usesV [(a.toNat, 1)]
  | .ctxsv _ a => usesV [(a.toNat, 2)]
  | .ctxld _ a => usesV [(a.toNat, 2)]
  | .ldW _ d a _ => usesV [(d.toNat, 1), (a.toNat, 2)]
  | .ldD _ d a _ => usesV [(d.toNat, 2), (a.toNat, 2)]
  | .ldQ _ d a _ => usesV [(d.toNat, 4), (a.toNat, 2)]
  | .stW _ d a _ => usesV [(d.toNat, 1), (a.toNat, 2)]
  | .stD _ d a _ => usesV [(d.toNat, 2), (a.toNat, 2)]
  | .stQ _ d a _ => usesV [(d.toNat, 4), (a.toNat, 2)]
  | .ldsW _ d a _ => usesV [(d.toNat, 1), (a.toNat, 1)]
  | .stsW _ d a _ => usesV [(d.toNat, 1), (a.toNat, 1)]
  | _ => usesV []

/-! ## Checks -/

/-- The registers of a range list. -/
def regsOf (rs : List (Nat × Nat)) : List Nat := rs.flatMap fun r => (List.range r.2).map (r.1 + ·)

/-- The node of the executing unit's block. -/
def State.unitNode (s : State) : Node := (s.blk s.unitBlk).node

/-- Encodings that the group's width makes illegal: QPACK's sets (05 R130), GIVE's and TAKE's first register
(09 R201); and any instruction that is not well formed (R46). -/
def illegalFor (n : Node) (i : Instr) : Bool :=
  !i.wf ||
  match i with
  | .qpack _ d a _ => d.toNat % (64 / n.width) != 0 || a.toNat % (64 / n.width) != 0
  | .give _ a => a.toNat % (64 / n.width) != 0
  | .take _ a => a.toNat % (64 / n.width) != 0
  | _ => false

/-- Instructions that a comet core forbids (14 R301), RET with no call in the region among them. -/
def cometForbids (depth : Nat) : Instr → Bool
  | .brx _ _ => true
  | .callx _ _ => true
  | .give _ _ => true
  | .take _ _ => true
  | .barSync _ _ => true
  | .barArr _ _ => true
  | .barWait _ _ => true
  | .cbarSync _ _ => true
  | .cbarArr _ _ => true
  | .cbarWait _ _ => true
  | .dbar _ _ => true
  | .voteAll _ _ _ _ => true
  | .voteAny _ _ _ _ => true
  | .voteBal _ _ _ _ => true
  | .voteEq _ _ _ _ => true
  | .shflIdx _ _ _ _ _ => true
  | .shflUp _ _ _ _ _ => true
  | .shflDn _ _ _ _ _ => true
  | .shflXor _ _ _ _ _ => true
  | .redux _ _ _ _ _ _ => true
  | .scanInc _ _ _ _ _ _ => true
  | .scanExc _ _ _ _ _ _ => true
  | .qpack _ _ _ _ => true
  | .ctxsv _ _ => true
  | .ctxld _ _ => true
  | .exit _ => true
  | .ret _ => depth == 0
  | _ => false

/-- The instruction is forbidden where the unit runs. -/
def State.forbids (s : State) (i : Instr) : Bool :=
  match s.focus with
  | .comet c => cometForbids (s.ctx c).depth i
  | _ => false

/-- Step 2 of R46: every register lies below the node's counts; on a comet core every v register lies in the lane's
LIVE mask (14 R302). -/
def State.budgetOk (s : State) (u : Uses) : Bool :=
  let n := s.unitNode
  (regsOf u.v).all (· < n.vregs) && (regsOf u.bv).all (· < n.vregs) && (regsOf u.u).all (· < n.sregs) &&
  match s.focus with
  | .comet c => (regsOf u.v).all fun r => (s.ctx c).live.getLsbD r
  | _ => true

/-- The tile-ownership check of 09 R200: every register named lies in a tile that the group owns. An ejected lane
holds its registers itself. -/
def State.ownOk (s : State) (u : Uses) : Bool :=
  match s.focus with
  | .split b g _ => (regsOf u.v).all fun r => (s.blk b).groupOwns g ((s.blk b).groupTile g r)
  | _ => true

/-- The registers that an operation in flight will write. -/
def LaneOp.regs (o : LaneOp) : List Nat := (List.range ((o.bytes + 3) / 4)).map (o.d.toNat + ·)

/-- An operation in flight of the executing unit's lanes: of a group, or of a comet context and of its lane before it
was ejected. -/
def State.mine (s : State) (o : LaneOp) : Bool :=
  match s.focus with
  | .split b g k => o.blk == b && o.grp == g && o.comet == none &&
      o.acc.any (fun a => hasLane (s.spl b g k).am a.lane)
  | .comet c => o.comet == some c ||
      (o.comet == none && o.blk == (s.ctx c).blk && o.grp == (s.ctx c).grp && o.acc.any (·.lane == (s.ctx c).lane))
  | _ => false

/-- The register interlock (04 R96): a register or predicate that the instruction names is still to be written by an
operation in flight of one of the unit's lanes. -/
def State.interlocked (s : State) (g : Pred) (u : Uses) : Bool :=
  s.ops.vals.any fun o =>
    s.mine o &&
    ((regsOf u.v).any (fun r => o.regs.contains r) ||
     match o.pair with
     | some k => (pairOf g :: u.p).contains k.toNat
     | none => false)

/-! ## Poisoned registers (20 R419) -/

/-- The lane and uniform registers that an instruction reads, of those that it names. -/
structure Reads where
  v : List (Nat × Nat)
  u : List (Nat × Nat)
  deriving DecidableEq, Repr

/-- How many of the register ranges that stand first are written and not read. -/
def writtenFirst : Instr → Nat
  | .iabs _ _ _ _ => 2
  | .ineg _ _ _ _ => 2
  | .not _ _ _ _ => 2
  | .clz _ _ _ _ => 2
  | .popc _ _ _ _ => 2
  | .brev _ _ _ _ => 2
  | .mov _ _ _ _ => 2
  | .fclass _ _ _ => 2
  | .imac _ _ _ _ _ => 0
  | .iaddc _ _ _ _ _ => 0
  | .bfi _ _ _ _ _ => 0
  | .movhiV _ _ _ => 0
  | .movhiS _ _ _ => 0
  | .icmp _ _ _ _ _ _ _ => 0
  | .fcmp _ _ _ _ _ _ => 0
  | .pdot _ _ _ _ _ _ => 0
  | .ffma _ _ _ _ => 0
  | .pfmaF16 _ _ _ _ => 0
  | .pfmaBf16 _ _ _ _ => 0
  | .brx _ _ => 0
  | .ret _ => 0
  | .eret _ => 0
  | .live _ _ _ => 0
  | .st _ _ _ _ _ _ => 0
  | .sts _ _ _ _ _ => 0
  | .pref _ _ => 0
  | .atomAdd _ _ _ _ _ => 0
  | .atomMinS _ _ _ _ _ => 0
  | .atomMinZ _ _ _ _ _ => 0
  | .atomMaxS _ _ _ _ _ => 0
  | .atomMaxZ _ _ _ _ _ => 0
  | .atomAnd _ _ _ _ _ => 0
  | .atomOr _ _ _ _ _ => 0
  | .atomXor _ _ _ _ _ => 0
  | .atomExch _ _ _ _ _ => 0
  | .incw _ _ _ _ => 0
  | .decw _ _ _ _ => 0
  | .atomAddb _ _ _ _ _ => 0
  | .atomCasW _ _ _ _ => 0
  | .atomCasD _ _ _ _ => 0
  | .atomCasQ _ _ _ _ => 0
  | .waitc _ _ _ _ _ => 0
  | .eset _ _ _ _ => 0
  | .ecmdGo _ _ _ => 0
  | .ecmdClear _ _ _ _ => 0
  | .sparseIndexGo _ _ => 0
  | .sparseIndexClear _ _ _ => 0
  | .lodestarGo _ _ => 0
  | .lodestarClear _ _ _ => 0
  | .copy _ _ _ _ => 0
  | .ewait _ _ _ => 0
  | .dbar _ _ => 0
  | .emit _ _ _ => 0
  | .mts _ _ _ => 0
  | .ctxsv _ _ => 0
  | .ctxld _ _ => 0
  | .stW _ _ _ _ => 0
  | .stD _ _ _ _ => 0
  | .stQ _ _ _ _ => 0
  | .stsW _ _ _ _ => 0
  | _ => 1

/-- The registers that an instruction reads: REDUX writes its one uniform register, CALLX its last pair. -/
def instrReads (i : Instr) (u : Uses) : Reads :=
  match i with
  | .redux _ _ a _ _ _ => { v := [(a.toNat, 1)], u := [] }
  | .callx _ a => { v := [(a.toNat, 2)], u := [] }
  | _ =>
    if u.v.isEmpty then { v := [], u := u.u.drop (writtenFirst i) }
    else { v := u.v.drop (writtenFirst i), u := u.u }

/-- v(m) of lane l of the executing unit is marked poisoned. -/
def State.badV (s : State) (m l : Nat) : Bool :=
  match s.focus with
  | .split b g _ => (s.blk b).poisonRegs.contains ((s.blk b).regKey g m l)
  | .comet c => (s.ctx c).poisonRegs.contains m
  | _ => false

/-- s(m) of the executing unit is marked poisoned. -/
def State.badS (s : State) (m : Nat) : Bool :=
  match s.focus with
  | .split b g _ => (s.blk b).poisonRegs.contains (uniformKey g m)
  | .comet c => (s.ctx c).poisonRegs.contains (uniformKey 0 m)
  | _ => false

/-- Some register is marked poisoned where the executing unit has its registers. -/
def State.anyBad (s : State) : Bool :=
  match s.focus with
  | .split b _ _ => !(s.blk b).poisonRegs.isEmpty
  | .comet c => !(s.ctx c).poisonRegs.isEmpty
  | _ => false

/-- The executing lanes in which an instruction reads a register word that is marked poisoned (20 R419). -/
def State.readsBad (s : State) (i : Instr) (g : Pred) (u : Uses) : Mask :=
  if !s.anyBad then 0
  else
    let r := instrReads i u
    if (regsOf r.u).any s.badS then s.exec g
    else maskOf fun l => hasLane (s.exec g) l && (regsOf r.v).any fun m => s.badV m l

/-- A unit stands behind the focus. -/
def State.issuing (s : State) : Bool :=
  match s.focus with
  | .split b g k => s.hasSplit b g k
  | .comet c => s.comets.has c
  | _ => false

/-- A lane instruction of the executing unit: the checks of R46 in order (illegal encoding, forbidden on a comet core,
register budget, tile ownership), then the interlock, which holds the instruction, then the registers' own check (20 R419), then
its own effect. -/
def laneRun (i : Instr) (g : Pred) (s : State) (body : State → Out) : Out :=
  let u := instrUses s.unitNode i
  if !s.issuing then .refused .noIssuer
  else if illegalFor s.unitNode i then .next (s.takeTrap 0x00)
  else if s.forbids i then .next (s.takeTrap 0x06)
  else if !s.budgetOk u then .next (s.takeTrap 0x01)
  else if !s.ownOk u then .next (s.takeTrap 0x40)
  else if s.interlocked g u then .next s
  else if s.readsBad i g u != 0 then .next (s.trapWith 0x3C (s.readsBad i g u) 0)
  else body s

/-- A lane instruction that only changes registers: its effect, then the next instruction. -/
def laneSimple (i : Instr) (g : Pred) (s : State) (eff : State → State) : Out :=
  laneRun i g s fun t => .next ((eff t).skip i.laneSize)

/-! ## Operand values -/

/-- A lane register or pair as a number of 32 or 64 bits. -/
def State.rdVn (s : State) (w : Bool) (r l : Nat) : Nat := if w then (s.rdVPair r l).toNat else (s.rdV r l).toNat
/-- A uniform register or pair as a number. -/
def State.rdSn (s : State) (w : Bool) (r : Nat) : Nat := if w then (s.rdSPair r).toNat else (s.rdS r).toNat
/-- Write a number to a lane register or pair, modulo its width. -/
def State.wrVn (s : State) (w : Bool) (r l v : Nat) : State :=
  if w then s.wrVPair r l (BitVec.ofNat 64 v) else s.wrV r l (BitVec.ofNat 32 v)
/-- Write a number to a uniform register or pair, modulo its width. -/
def State.wrSn (s : State) (w : Bool) (r v : Nat) : State :=
  if w then s.wrSPair r (BitVec.ofNat 64 v) else s.wrS r (BitVec.ofNat 32 v)

/-- A literal in a form of 32 or 64 bits: zero-extended, or sign-extended when `sx` (R98). -/
def litVal (w sx : Bool) (x : Word) : Nat :=
  if w then (if sx then (x.signExtend 64).toNat else x.toNat) else x.toNat

/-- The last source (R44), of 32 or 64 bits, for lane l. -/
def State.srcVal (s : State) (w sx : Bool) (src : Src) (l : Nat) : Nat :=
  match src with
  | .vv b => s.rdVn w b.toNat l
  | .vs b => s.rdSn w b.toNat
  | .ss b => s.rdSn w b.toNat
  | .lit x => litVal w sx x

/-- The effect of an integer operation with an operand class (R43, R44): in every executing lane, or once for the
group in the uniform form. `bw` and `sx` give the width and extension of the last source; `f` computes the result
from a, b and the old d. -/
def intEffect (g : Pred) (w bw sx : Bool) (d a : Reg) (src : Src) (f : Nat → Nat → Nat → Nat) (s : State) : State :=
  match src with
  | .ss _ =>
    if s.exec g = 0 then s
    else s.wrSn w d.toNat (f (s.rdSn w a.toNat) (s.srcVal bw sx src 0) (s.rdSn w d.toNat))
  | _ =>
    s.putLanes (lanesOf (s.exec g)) fun t l =>
      t.wrVn w d.toNat l (f (s.rdVn w a.toNat l) (s.srcVal bw sx src l) (s.rdVn w d.toNat l))

/-- A result in every executing lane, from the old state. -/
def vEffect (g : Pred) (d : Reg) (f : State → Nat → Word) (s : State) : State :=
  s.putLanes (lanesOf (s.exec g)) fun t l => t.wrV d.toNat l (f s l)

/-- A predicate pair in every executing lane, from the old state. -/
def pEffect (g : Pred) (k : PairIx) (f : State → Nat → Bool) (s : State) : State :=
  s.putLanes (lanesOf (s.exec g)) fun t l => t.wrPair k l (f s l)

end Sys2Proof.Machine
end

