-- ==== Sys2Proof/Machine/Splits.lean ====
section
/-!
DEFINITION. Machine/Splits.lean: the deferred-mask stack, divergence, rotation and the merges at JOIN and .G
collectives (spec/03_lane_state.md R87-R94, 04 R115).
-/

namespace Sys2Proof.Machine

/-! ## The deferred-mask stack (03 R89) -/

/-- The save area of a split in its block's context area (13 R277). -/
def Block.saveArea (b : Block) (g k : Nat) : Nat := b.ctxArea + 4096 * b.node.groups + 16384 * g + 4096 * k

/-- A spilled entry as a 128-bit number (03 R89). -/
def encDeferred (d : Deferred) : Nat :=
  d.mask.toNat + (if d.path then d.pc.toNat / 4 % 2 ^ 50 * 2 ^ 66 else 2 ^ 127)

/-- The entry that a 128-bit number spells (03 R89). -/
def decDeferred (n : Nat) : Deferred :=
  { path := !bit n 127, pc := BitVec.ofNat 64 (n / 2 ^ 66 % 2 ^ 50 * 4), mask := BitVec.ofNat 64 n }

/-- The spilled entries of a split, newest first. -/
def State.spillList (s : State) (b g k : Nat) : List Deferred :=
  (List.range (s.spl b g k).spilled).reverse.map fun i => decDeferred (s.readCtx b ((s.blk b).saveArea g k + 16 * i) 16)

/-- The whole stack of a split, newest first. -/
def State.fullStack (s : State) (b g k : Nat) : List Deferred := (s.spl b g k).stack ++ s.spillList b g k

/-- Write entries to the save area of a split from an index on, oldest first. -/
def State.writeSpill (s : State) (b g k i : Nat) (ds : List Deferred) : State :=
  if ds.isEmpty then s
  else s.writeCtx b ((s.blk b).saveArea g k + 16 * i) (ds.flatMap fun d => leBytes 16 (encDeferred d))

/-- Push an entry: a push onto a full stack first moves the 4 oldest on-chip entries to the save area, which holds
256; `none` is an overflow (03 R89). -/
def State.pushEntry (s : State) (b g k : Nat) (d : Deferred) : Option State :=
  let sp := s.spl b g k
  if sp.stack.length < 8 then some (s.modSpl b g k fun x => { x with stack := d :: x.stack })
  else if 256 < sp.spilled + 4 then none
  else
    some ((s.writeSpill b g k sp.spilled (sp.stack.drop 4).reverse).modSpl b g k fun x =>
      { x with stack := d :: x.stack.take 4, spilled := x.spilled + 4 })

/-- Push entries in order, the last of the list on top. -/
def State.pushAll (s : State) (b g k : Nat) : List Deferred → Option State
  | [] => some s
  | d :: t => (s.pushEntry b g k d).bind fun u => u.pushAll b g k t

/-- Refill an empty on-chip stack with up to 4 of the newest spilled entries (03 R89). -/
def State.refill (s : State) (b g k : Nat) : State :=
  let sp := s.spl b g k
  if sp.stack = [] ∧ sp.spilled ≠ 0 then
    (s.touchCtx b ((s.blk b).saveArea g k + 16 * (sp.spilled - 4)) 64 false).modSpl b g k fun x =>
      { x with stack := (s.spillList b g k).take 4, spilled := x.spilled - 4 }
  else s

/-- The top entry of the stack. -/
def State.topEntry (s : State) (b g k : Nat) : Option Deferred := (s.fullStack b g k).head?

/-- The top entry is a D entry: the split holds a D entry above its topmost C entry (03 R94). -/
def State.topPath (s : State) (b g k : Nat) : Bool :=
  match s.topEntry b g k with
  | some d => d.path
  | none => false

/-- Remove the top entry (03 R89). -/
def State.popEntry (s : State) (b g k : Nat) : State :=
  (s.refill b g k).modSpl b g k fun x => { x with stack := x.stack.drop 1 }

/-- Pop a D entry and continue at its path with its mask (03 R90). -/
def State.popPath (s : State) (b g k : Nat) : State :=
  match s.topEntry b g k with
  | some d => (s.popEntry b g k).modSpl b g k fun x =>
      { x with pc := d.pc, am := d.mask, pathStart := s.now, wait := .ready }
  | none => s

/-- Insert an entry directly above the topmost C entry, or at the bottom (03 R94). -/
def insertAboveC (d : Deferred) : List Deferred → List Deferred
  | [] => [d]
  | e :: t => if e.path then e :: insertAboveC d t else d :: e :: t

/-- Rotation (03 R94): the current path goes in above the topmost C entry, and the top D entry continues. The number of
entries on chip stays, and the spilled ones are written anew: R89 divides entries between the chip and the save area for
pushes and pops only (DESIGN CHOICE, log 132). -/
def State.rotate (s : State) (b g k : Nat) : State :=
  let sp := s.spl b g k
  match s.fullStack b g k with
  | [] => s
  | d :: t =>
    if d.path then
      let full := insertAboveC { path := true, pc := sp.pc, mask := sp.am } t
      (s.writeSpill b g k 0 (full.drop sp.stack.length).reverse).modSpl b g k fun x =>
        { x with stack := full.take sp.stack.length, pc := d.pc, am := d.mask, pathStart := s.now, wait := .ready }
    else s

/-! ## Divergence (03 R88) -/

/-- The paths of lanes with next PCs, grouped by PC and ordered by lowest lane (03 R88). -/
def pathsOf (nextPc : Nat → Dword) : List Nat → List (Dword × Mask)
  | [] => []
  | l :: ls =>
    let rest := pathsOf nextPc ls
    match rest.find? fun p => p.1 == nextPc l with
    | some p => (p.1, p.2 ||| laneBit l) :: rest.filter fun q => q.1 != p.1
    | none => (nextPc l, laneBit l) :: rest

/-- The free split indices of a group, lowest first. -/
def Group.freeSplits (g : Group) : List Nat := (List.range 4).filter fun k => !g.splits.has k

/-- A split that a divergence makes (03 R88 step 3): CM as before the branch, a stack of one C entry, the privilege
of the split it came from. It has never issued, so it goes before splits that have (R95); of several, the one with the lowest
index, since the spec has no tie rule (DESIGN CHOICE, log 133). -/
def newSplit (now : Nat) (sp : Split) (cm : Mask) (p : Dword × Mask) : Split :=
  { Split.empty with
    pc := p.1, am := p.2, cm := cm, stack := [{ path := false, pc := 0, mask := sp.cm }], pathStart := now,
    priv := sp.priv, frame := sp.frame }

/-- Divergence of a split over more than one path (03 R88); `none` when the stack overflows. -/
def State.diverge (s : State) (b g k : Nat) (paths : List (Dword × Mask)) : Option State :=
  let sp := s.spl b g k
  match paths with
  | [] => some s
  | p :: more =>
    let free := (s.grp b g).freeSplits
    let now := s.now
    let given := (free.zip more)
    let left := more.drop free.length
    (s.pushEntry b g k { path := false, pc := 0, mask := sp.cm }).bind fun s1 =>
      let s2 := s1.modSpl b g k fun x => { x with cm := sp.am, am := p.2, pc := p.1, pathStart := now }
      let s3 := given.foldl (fun t e => t.modGrp b g fun x =>
        { x with splits := x.splits.set e.1 (newSplit now sp sp.am e.2) }) s2
      s3.pushAll b g k (left.reverse.map fun q => { path := true, pc := q.1, mask := q.2 })

/-- A branch of the executing split (06 R140): each active lane takes its next PC; equal PCs continue, others diverge;
an overflow of the stack traps with nothing done (03 R89). A backward branch 4,096 clocks into a path rotates
(03 R94). -/
def State.branch (s s0 : State) (b g k : Nat) (nextPc : Nat → Dword) : State :=
  let sp := s0.spl b g k
  match pathsOf nextPc (lanesOf sp.am) with
  | [] => s
  | [p] =>
    let t := s.modSpl b g k fun x => { x with pc := p.1 }
    if p.1.ule sp.pc && decide (sp.pathStart + 4096 ≤ s.now) && t.topPath b g k then t.rotate b g k else t
  | ps =>
    match s.diverge b g k ps with
    | some t => t
    | none => s0.takeTrap 0x61

/-! ## Waiting and merging (03 R90, R91, 04 R115) -/

/-- Copies of words that a cache holds without owning them are dropped (08 R188): every copy, since the table holds
only words that the cache does not own. -/
def State.dropCache (s : State) (c : Nat) : State := { s with copies := s.copies.erase c }

/-- Self-invalidation for a core (08 R188): its L1 and the stashes of its blocks. -/
def State.selfInvalidate (s : State) (core : Nat) : State :=
  { s with copies := s.copies.keep fun c _ => s.cacheCore c != some core }

/-- Self-invalidation of the lane cache of a context's comet core, the lines of every partition (08 R188, 14 R300). -/
def State.dropLaneCache (s : State) (c : Nat) : State :=
  { s with copies := s.copies.keep fun k _ => !(decide (4096 ≤ k) && (k - 4096) / 32 == c / 8) }

/-- The lanes of a group that have neither exited nor been ejected. -/
def State.liveLanes (s : State) (b g : Nat) : Mask :=
  minusLanes (minusLanes (allLanes (s.blk b).width) (s.grp b g).exited) (s.grp b g).ejected

/-- The splits of a group that wait at a JOIN with a convergence mask; one parked on the join timeout still waits
(14 R306). -/
def Group.waiters (g : Group) (cm : Mask) : List (Nat × Split) :=
  g.splits.filter fun e => e.2.wait == .join && e.2.cm == cm

/-- The union of the wait masks. -/
def unionWm (l : List (Nat × Split)) : Mask := l.foldl (fun m e => m ||| e.2.wm) 0

/-- Entries of a stack, on chip and spilled. -/
def Split.depth (x : Split) : Nat := x.stack.length + x.spilled

/-- The waiting split with the deepest stack, ties to the lower index. -/
def deepest : List (Nat × Split) → Option (Nat × Split)
  | [] => none
  | e :: t => match deepest t with
    | none => some e
    | some f => if f.2.depth ≤ e.2.depth then some e else some f

/-- The stack of split `k` becomes that of split `j`, spilled entries included. -/
def State.takeStack (s : State) (b g k j : Nat) : State :=
  if j = k then s
  else
    let y := s.spl b g j
    (s.writeSpill b g k 0 (s.spillList b g j).reverse).modSpl b g k fun x =>
      { x with stack := y.stack, spilled := y.spilled }

/-- A merge of waiting splits is due for a convergence mask: every lane of it that has not exited is in one of their
wait masks; ejected lanes hold it (03 R90, 06 R148). -/
def Group.mergeDue (x : Group) (cm : Mask) : Bool := subLanes (minusLanes cm x.exited) (unionWm (x.waiters cm))

/-- The merge of the splits that wait for a convergence mask (03 R90). Wait-mask lanes outside it, which wait at the
JOIN of an outer branch, stay, and so do the deferred paths that a freed split held (R87: every lane is in exactly one
place; DEDUCED, log 6). With no lane left the survivor goes on as a split whose last lane exited does (R91). -/
def State.merge (s : State) (b g : Nat) (cm : Mask) : State :=
  let x := s.grp b g
  match x.waiters cm with
  | [] => s
  | (k, sp) :: others =>
    let need := minusLanes cm x.exited
    let rest := minusLanes (unionWm ((k, sp) :: others)) cm
    let pc := x.joinAt.getD (lowestLane need) sp.pc
    let deep := match deepest ((k, sp) :: others) with
      | some e => e.1
      | none => k
    let s0 := s.takeStack b g k deep
    let top := s0.topEntry b g k
    let s1 := s0.modSpl b g k fun y =>
      { y with am := need, wm := rest, pc := pc, wait := .ready, pathStart := s.now, joinSince := none, joinKept := false,
               parked := false }
    let s2 := match top with
      | some d => (s1.popEntry b g k).modSpl b g k fun y => { y with cm := d.mask }
      | none => s1
    let s3 := others.foldl (fun t e => t.modGrp b g fun y => { y with splits := y.splits.erase e.1 }) s2
    if need = 0 then
      if s3.topPath b g k then s3.popPath b g k else s3.modSpl b g k fun y => { y with wait := .join }
    else if need &&& x.returned != 0 then
      (s3.modGrp b g fun y => { y with returned := minusLanes y.returned need }).selfInvalidate (s.blk b).core
    else s3

/-- The splits of a group that wait at a .G collective at an address. -/
def Group.collectors (g : Group) (pc : Dword) : List (Nat × Split) :=
  g.splits.filter fun e => e.2.wait == .collective pc && !e.2.parked

/-- The merge at a .G collective (04 R115): every lane that has neither exited nor been ejected waits at this address,
and none of the splits holds a D entry above its topmost C entry. The survivor is ready at the collective. -/
def State.tryCollect (s : State) (b g : Nat) (pc : Dword) : Option (Nat × State) :=
  let x := s.grp b g
  let ws := x.collectors pc
  let live := s.liveLanes b g
  match ws with
  | [] => none
  | (k, _) :: others =>
    if live != 0 && subLanes live (ws.foldl (fun m e => m ||| e.2.gm) 0) && ws.all (fun e => !s.topPath b g e.1) then
      let s1 := s.modSpl b g k fun y => { y with am := live, wm := 0, gm := 0, wait := .ready }
      some (k, others.foldl (fun t e => t.modGrp b g fun y => { y with splits := y.splits.erase e.1 }) s1)
    else none

/-- Free the splits that hold nothing: no lane and no D entry (03 R91). -/
def State.freeEmpty (s : State) (b g : Nat) : State :=
  s.modGrp b g fun x => { x with splits := x.splits.keep fun k y =>
    !(y.am == 0 && y.wm == 0 && y.gm == 0 && !y.parked && !(s.fullStack b g k).any (·.path)) }

/-- One merge that a change of the group's lanes has completed. -/
def State.settleOnce (s : State) (b g : Nat) : Option State :=
  let x := s.grp b g
  match (x.splits.filter fun e => e.2.wait == .join && x.mergeDue e.2.cm).head? with
  | some e => some ((s.merge b g e.2.cm).freeEmpty b g)
  | none =>
    match x.splits.filterMap fun e => match e.2.wait with
      | .collective pc => some pc
      | _ => none with
    | pc :: _ => (s.tryCollect b g pc).map Prod.snd
    | [] => none

/-- The merges that a change of the group's lanes has completed, one after the other: a group has at most 4 splits of
264 stack entries. -/
def State.settle (s : State) (b g : Nat) : State := iterOpt 1100 (fun t => t.settleOnce b g) (s.freeEmpty b g)

/-- A split whose AM ran empty pops its next path, or waits at the JOIN (03 R90, R91). -/
def State.endPath (s : State) (b g k : Nat) : State :=
  if s.topPath b g k then s.popPath b g k
  else (s.modSpl b g k fun x => { x with wait := .join, joinSince := none, joinKept := false }).settle b g

/-- JOIN of a split of a group (03 R90, 14 R305 step 3): AM enters WM with the lanes of RJ that its CM holds. -/
def State.joinSplit (s : State) (b g k : Nat) (next : Dword) : State :=
  let sp := s.spl b g k
  let rj := (s.grp b g).rj &&& sp.cm
  let s1 := s.modGrp b g fun x =>
    { x with rj := minusLanes x.rj rj, joinAt := (lanesOf sp.am).foldl (fun t l => t.set l next) x.joinAt }
  (s1.modSpl b g k fun x => { x with wm := x.wm ||| x.am ||| rj, am := 0, pc := next }).endPath b g k

/-- A split blocks in a waiting instruction (03 R94): it rotates when it holds a D entry above its topmost C entry, and
otherwise waits. -/
def State.block (s : State) (b g k : Nat) (on : WaitOn) : State :=
  if s.topPath b g k then s.rotate b g k
  else s.modSpl b g k fun x => match x.wait with
    | .blocked o n => { x with wait := .blocked on (if o = on then n else s.now) }
    | _ => { x with wait := .blocked on s.now }

/-- The executing unit blocks in a waiting instruction. -/
def State.blockUnit (s : State) (on : WaitOn) : State :=
  match s.focus with
  | .split b g k => s.block b g k on
  | .comet c => s.modCtx c fun x => { x with wait := .blocked on s.now }
  | _ => s

/-- A wait of an instruction that has taken effect and must end before its unit stops: an EMIT that has claimed its slots. -/
def Wait.claimed : Wait → Bool
  | .blocked (.stamps _) _ => true
  | _ => false

/-- The executing unit is ready again, its wait over. -/
def State.unblock (s : State) : State :=
  match s.focus with
  | .split b g k => s.modSpl b g k fun x => { x with wait := .ready }
  | .comet c => s.modCtx c fun x => { x with wait := .ready }
  | _ => s

/-- The self-invalidation of an acquire side of the executing unit (08 R188, 14 R300); an ejected lane also reads its
block's stash. -/
def State.acquireUnit (s : State) : State :=
  match s.focus with
  | .split b _ _ => s.selfInvalidate (s.blk b).core
  | .comet c => (s.dropLaneCache c).dropCache (stashCache (s.ctx c).blk)
  | _ => s

end Sys2Proof.Machine
end

