-- ==== Sys2Proof/Machine/Barriers.lean ====
section
/-!
DEFINITION. Machine/Barriers.lean: numbered barriers of a block and cluster barriers, the end of a group
(spec/09_core_tiles.md R199, R207-R209; 14 R297-R299; 06 R145, R153).
-/

set_option linter.constructorNameAsVariable false

namespace Sys2Proof.Machine

/-! ## One barrier (09 R208, R209) -/

/-- The record of a group at a barrier. -/
def Barrier.of (x : Barrier) (key : Nat) : BarGroup := x.groups.getD key default

/-- Open the barrier for one group: its waiting lanes depart when they issue again. -/
def BarGroup.opened (y : BarGroup) : BarGroup :=
  { y with arrived := false, lanes := 0, sync := 0, done := y.done ||| y.sync }

/-- The phase completes. -/
def Barrier.complete (x : Barrier) : Barrier :=
  { x with p := !x.p, n := 0, groups := x.groups.mapv fun _ y => y.opened, seqArrived := false }

/-- A count that is complete completes the phase. -/
def Barrier.settle (x : Barrier) : Barrier := if x.n = x.x then x.complete else x

/-- Lanes of a group arrive; `sync` lanes then wait. The group arrives when every live lane has (R208). The phase is
left to the caller. -/
def Barrier.arriveLanes (x : Barrier) (key : Nat) (live m : Mask) (sync : Bool) : Barrier :=
  let y := x.of key
  let lanes := y.lanes ||| m
  let all := subLanes live lanes && !y.arrived && live != 0
  { x with n := if all then x.n + 1 else x.n,
           groups := x.groups.set key
             { y with lanes := lanes, sync := if sync then y.sync ||| m else y.sync, arrived := y.arrived || all,
                      parity := if all then x.p else y.parity } }

/-- Lanes depart. -/
def Barrier.depart (x : Barrier) (key : Nat) (m : Mask) : Barrier :=
  let y := x.of key
  { x with groups := x.groups.set key { y with done := minusLanes y.done m } }

/-- A participant leaves: the expected count falls by 1 (R209). -/
def Barrier.leave (x : Barrier) : Barrier := { x with x := x.x - 1 }.settle

/-! ## Barriers of a block -/

/-- The expected count at launch (R208). -/
def Block.barX (b : Block) : Nat := b.node.groups + b2n b.seq.isSome

/-- Barrier n of a block. -/
def Block.bar (b : Block) (n : Nat) : Barrier := b.bars.getD n { (default : Barrier) with x := b.barX }

/-- Set barrier n of a block. -/
def Block.setBar (b : Block) (n : Nat) (x : Barrier) : Block := { b with bars := b.bars.set n x }

/-- X falls by 1 on all 16 barriers (R209). -/
def Block.leaveBars (b : Block) : Block :=
  (List.range 16).foldl (fun y n => y.setBar n (y.bar n).leave) b

/-! ## Cluster barriers (14 R298, R299) -/

/-- The cluster core index of a member's core. -/
def State.memberIx (s : State) (b : Nat) : Nat := clusterIx (s.blk b).core
/-- A member lies on the lower die of the pair. -/
def State.memberLow (s : State) (b : Nat) : Bool := s.memberIx b < 8
/-- A member's index in its gang. -/
def Gang.index (q : Gang) (b : Nat) : Nat := q.members.idxOf b
/-- The key of a group at a cluster barrier. -/
def Gang.key (q : Gang) (b g : Nat) : Nat := 64 * q.index b + g
/-- The groups of a gang's members that have not ended, on one half of the cluster. -/
def State.halfGroups (s : State) (q : Gang) (low : Bool) : List Nat :=
  (q.members.filter fun b => s.memberLow b == low).flatMap fun b =>
    ((s.blk b).groups.filter fun e => !e.2.ended).map fun e => q.key b e.1
/-- A member lies on this half. -/
def State.hasHalf (s : State) (q : Gang) (low : Bool) : Bool := q.members.any fun b => s.memberLow b == low
/-- Cluster barrier n of a gang. -/
def State.gangBar (s : State) (q : Gang) (n : Nat) : GangBar :=
  q.bars.getD n { (default : GangBar) with bar := { (default : Barrier) with
    x := (q.members.map fun b => (s.blk b).node.groups).sum } }

/-- Open a cluster barrier for the groups of one half. -/
def GangBar.openHalf (s : State) (q : Gang) (x : GangBar) (low : Bool) : GangBar :=
  let gs := x.bar.groups.mapv fun key y => if s.memberLow (q.members.getD (key / 64) 0) == low then y.opened else y
  { x with bar := { x.bar with groups := gs } }

/-- N has met X (R298): both change by one at a time, and X also falls after that when an arrived group ends. -/
def GangBar.full (x : GangBar) : Bool := decide (x.bar.x ≤ x.bar.n)

/-- The arrivals that a half has counted in the current phase, those of groups that have ended since among them. -/
def State.halfCount (s : State) (q : Gang) (x : GangBar) (low : Bool) : Nat :=
  (x.bar.groups.filter fun e => e.2.arrived && s.memberLow (q.members.getD (e.1 / 64) 0) == low).length

/-- The count of a half is complete (R299): all of its groups, or N = X over the cluster, where ended groups that had arrived
stand for others (R298). The upper half's flags stand until its release. -/
def State.halfFull (s : State) (q : Gang) (x : GangBar) (low : Bool) : Bool :=
  decide ((s.halfGroups q low).length ≤ s.halfCount q x low) || x.full

/-- The lower half completes the phase (R299): N = X, and the upper half's message is in. Its groups depart from 4 clocks on,
and the release to the upper half is sent. -/
def State.gangComplete (s : State) (q : Gang) (x : GangBar) (last : Nat) : GangBar :=
  if x.full && (x.halfIn || !s.hasHalf q false) && x.rel.isNone then
    let y := GangBar.openHalf s q x true
    { y with bar := { y.bar with p := !y.bar.p, n := 0 }, half := none, halfIn := false,
             rel := if s.hasHalf q false then some (last + 20) else none, openLow := last + 4 }
  else x

/-- After an arrival or a group's end: the upper half sends its message when its count is complete, and the lower half
may complete the phase. -/
def State.gangSettle (s : State) (q : Gang) (x : GangBar) : GangBar :=
  let x1 := if s.hasHalf q false && s.halfFull q x false && x.half.isNone && !x.halfIn && x.rel.isNone then
      (if s.hasHalf q true then { x with half := some s.now } else { x with halfIn := true })
    else x
  if x1.bar.x = 0 then x1 else s.gangComplete q x1 s.now

/-- X falls by 1 on the 16 cluster barriers when a group ends (R298). -/
def State.gangLeave (s : State) (b : Nat) : State :=
  match (s.blk b).gang with
  | none => s
  | some qi =>
    match s.gangs.find qi with
    | none => s
    | some q =>
      let bars := (List.range 16).map fun n =>
        let x := s.gangBar q n
        (n, s.gangSettle q { x with bar := { x.bar with x := x.bar.x - 1 } })
      { s with gangs := s.gangs.set qi { q with bars := bars } }

/-! ## The end of a group (09 R199, R209) -/

/-- Lane writes and fixed-latency writes in flight into a tile: its PEND (09 R198). A TLD's fill is not counted: R223 holds what
would read, write or give the tile until it is filled (DESIGN CHOICE, log 134). -/
def State.pend (s : State) (b t : Nat) : Nat :=
  let x := s.blk b
  ((s.ops.vals.filter fun o => o.blk == b && o.comet.isNone &&
    o.regs.any fun r => x.groupTile o.grp r == t).length) +
  match x.seq with
  | none => 0
  | some q => (q.ops.vals.filter fun o => o.dest == .tile t).length

/-- Free the tiles that an ended group owns, once no write into them is pending. -/
def State.freeTiles (s : State) (b g : Nat) : State :=
  s.modBlk b fun x =>
    if !(x.grp g).ended then x
    else
      let n := (x.node.vregs * x.width + 63) / 64
      (List.range n).foldl (fun y j =>
        let t := 64 * g + j
        if y.groupOwns g t && s.pend b t = 0 then y.setTile t .free else y) x

/-- A group that has arrived at a die-barrier object waits to be counted by its die's unit (16 R352). -/
def DBar.note (x : DBar) (key die b g now : Nat) (before : BarGroup) : DBar :=
  if (x.groups.getD key default).arrived && !before.arrived then { x with fresh := x.fresh ++ [(die, b, g, now)] } else x

/-- The arrival of a group at a die-barrier object, all of whose lanes that have not exited have arrived (16 R352). -/
def DBar.exitArrival (x : DBar) (key die b g now : Nat) (live : Mask) : DBar :=
  if (x.groups.getD key default).lanes = 0 then x
  else
    let y := ({ (default : Barrier) with groups := x.groups } : Barrier).arriveLanes key live 0 false
    { x with groups := y.groups }.note key die b g now (x.groups.getD key default)

/-- Arrivals at die barriers that an EXIT completes. -/
def State.exitDbars (s : State) (b g : Nat) (live : Mask) : State :=
  { s with dbars := s.dbars.mapv fun _ x => x.exitArrival (64 * b + g) (s.blk b).die b g s.now live }

/-- Arrivals at the barriers of a block and of its cluster that an EXIT completes: a group whose remaining lanes have all
arrived counts as arrived (R209). -/
def State.exitArrivals (s : State) (b g : Nat) : State :=
  let live := minusLanes (allLanes (s.blk b).width) (s.grp b g).exited
  let s1 := s.modBlk b fun x => (List.range 16).foldl (fun y n =>
    if ((y.bar n).of g).lanes = 0 then y
    else y.setBar n ((y.bar n).arriveLanes g live 0 false).settle) x
  match (s.blk b).gang with
  | none => s1
  | some qi =>
    match s1.gangs.find qi with
    | none => s1
    | some q =>
      let bars := q.bars.mapv fun _ x =>
        if (x.bar.of (q.key b g)).lanes = 0 then x
        else s1.gangSettle q { x with bar := x.bar.arriveLanes (q.key b g) live 0 false }
      { s1 with gangs := s1.gangs.set qi { q with bars := bars } }

/-- A group all of whose lanes have exited ends (03 R91, 09 R199, R209). -/
def State.groupEnd (s : State) (b g : Nat) : State :=
  if subLanes (allLanes (s.blk b).width) (s.grp b g).exited && !(s.grp b g).ended then
    (((s.modGrp b g fun x => { x with ended := true, splits := [] }).modBlk b fun x => x.leaveBars).gangLeave
      b).freeTiles b g
  else s

/-! ## Accesses of a lane in flight -/

/-- The ordering thread of a lane of the executing unit. -/
def State.threadOf (s : State) (l : Nat) : Thread := .lane s.unitBlk s.unitGrp l

/-- A lane of a group has an access in flight: a load or atomic not landed, or a store not acknowledged. -/
def State.laneBusy (s : State) (b g l : Nat) : Bool :=
  (s.ops.vals.any fun o => o.blk == b && o.grp == g && o.acc.any (·.lane == l)) ||
  s.stores.vals.any fun t => t.thread == .lane b g l

/-- Some lane of a list of the executing unit has an access in flight: a release side waits (08 R180, R186). -/
def State.anyBusy (s : State) (ls : List Nat) : Bool := ls.any fun l => s.laneBusy s.unitBlk s.unitGrp l

/-! ## BAR and CBAR -/

/-- What an arrival or a wait does next. -/
inductive BarStep
  | trap (lanes : Mask)
  | wait
  | go
  deriving DecidableEq, Repr

/-- BAR.SYNC of some lanes (R209): lanes whose phase has completed depart; lanes that wait already go on waiting; the
others arrive. The barrier after it, and what the split does. `settle` completes the phase. -/
def Barrier.syncStep (x : Barrier) (key : Nat) (live m : Mask) (settle : Barrier → Barrier) : Barrier × BarStep :=
  let y := x.of key
  if subLanes m y.done then (x.depart key m, .go)
  else
    let new := minusLanes (minusLanes m y.sync) y.done
    if new &&& y.lanes != 0 then (x, .trap (new &&& y.lanes))
    else if new = 0 then (x, .wait)
    else
      let x1 := settle (x.arriveLanes key live new true)
      if subLanes m (x1.of key).done then (x1.depart key m, .go) else (x1, .wait)

/-- BAR.ARR of some lanes (R209). -/
def Barrier.arrStep (x : Barrier) (key : Nat) (live m : Mask) (settle : Barrier → Barrier) : Barrier × BarStep :=
  if m &&& (x.of key).lanes != 0 then (x, .trap (m &&& (x.of key).lanes))
  else (settle (x.arriveLanes key live m false), .go)

/-- BAR.WAIT (R209): block while the group's arrived flag is set. -/
def Barrier.waitStep (x : Barrier) (key : Nat) : BarStep := if (x.of key).arrived then .wait else .go

/-- The three acts of BAR and CBAR. -/
inductive BarAct
  | sync | arr | wait
  deriving DecidableEq, Repr

/-- A barrier act on a barrier. -/
def Barrier.act (a : BarAct) (x : Barrier) (key : Nat) (live m : Mask) (settle : Barrier → Barrier) :
    Barrier × BarStep :=
  match a with
  | .sync => x.syncStep key live m settle
  | .arr => x.arrStep key live m settle
  | .wait => (x, x.waitStep key)

/-- A BAR instruction of the lanes whose guard is true; none: nothing happens. An arrival, a release, is held until
the lanes' earlier accesses are done (08 R180); a departure self-invalidates (R188). -/
def barRun (i : Instr) (g : Pred) (a : BarAct) (n : Nat) (s : State) : Out :=
  laneRun i g s fun t =>
    match t.focus with
    | .split b gr k =>
      let m := t.exec g
      if m = 0 then .next (t.skip 4)
      else if a != .wait && t.anyBusy (lanesOf m) then .next t
      else
        let x := t.blk b
        let live := minusLanes (allLanes x.width) (t.grp b gr).exited
        let r := (x.bar n).act a gr live m Barrier.settle
        let t1 := t.modBlk b fun y => y.setBar n r.1
        match r.2 with
        | .trap l => .next (t.trapWith 0x60 l (BitVec.ofNat 64 n))
        | .wait => .next (t1.block b gr k (.barrier n))
        | .go => .next ((if a == .arr then t1 else t1.acquireUnit).skip 4)
    | _ => .next t

/-- BAR.SYNC (09 R207-R209). -/
def execBarSync (g : Pred) (b : BitVec 4) (s : State) : Out := barRun (.barSync g b) g .sync b.toNat s
/-- BAR.ARR. -/
def execBarArr (g : Pred) (b : BitVec 4) (s : State) : Out := barRun (.barArr g b) g .arr b.toNat s
/-- BAR.WAIT. -/
def execBarWait (g : Pred) (b : BitVec 4) (s : State) : Out := barRun (.barWait g b) g .wait b.toNat s

/-- The block cluster of a block (14 R294). -/
def State.clusterGang (s : State) (b : Nat) : Option (Nat × Gang) :=
  match (s.blk b).gang with
  | none => none
  | some qi =>
    match s.gangs.find qi with
    | none => none
    | some q => if q.cluster then some (qi, q) else none

/-- A CBAR instruction (14 R298): in a block outside any block cluster it traps, before any arrival. -/
def cbarRun (i : Instr) (g : Pred) (a : BarAct) (n : Nat) (s : State) : Out :=
  laneRun i g s fun t =>
    match t.focus with
    | .split b gr k =>
      let m := t.exec g
      match t.clusterGang b with
      | none => .next (if m = 0 then t.skip 4 else t.trapWith 0x64 m (BitVec.ofNat 64 n))
      | some (qi, q) =>
        if m = 0 then .next (t.skip 4)
        else if a != .wait && t.anyBusy (lanesOf m) then .next t
        else
          let x := t.gangBar q n
          let key := q.key b gr
          let live := minusLanes (allLanes (t.blk b).width) (t.grp b gr).exited
          if t.memberLow b && (a == .wait || (a == .sync && subLanes m (x.bar.of key).done)) && decide (t.now < x.openLow) then
            .next (t.block b gr k (.clusterBarrier n))
          else
            let r := x.bar.act a key live m id
            let y := if r.1 = x.bar then x else t.gangSettle q { x with bar := r.1 }
            let t1 := { t with gangs := t.gangs.set qi { q with bars := q.bars.set n y } }
            match r.2 with
            | .trap l => .next (t.trapWith 0x60 l (BitVec.ofNat 64 n))
            | .wait => .next (t1.block b gr k (.clusterBarrier n))
            | .go => .next ((if a == .arr then t1 else t1.acquireUnit).skip 4)
    | _ => .next t

/-- CBAR.SYNC (14 R297-R299). -/
def execCbarSync (g : Pred) (b : BitVec 4) (s : State) : Out := cbarRun (.cbarSync g b) g .sync b.toNat s
/-- CBAR.ARR. -/
def execCbarArr (g : Pred) (b : BitVec 4) (s : State) : Out := cbarRun (.cbarArr g b) g .arr b.toNat s
/-- CBAR.WAIT. -/
def execCbarWait (g : Pred) (b : BitVec 4) (s : State) : Out := cbarRun (.cbarWait g b) g .wait b.toNat s

end Sys2Proof.Machine
end

