-- ==== Sys2Proof/Machine/Xlate.lean ====
section
/-!
DEFINITION. Machine/Xlate.lean: the TLBs, the requests for walks, and the checks after them (spec/16_die_memory.md R345-R348).
-/

set_option linter.constructorNameAsVariable false

namespace Sys2Proof.Machine

/-! ## TLBs (16 R346, R347) -/

/-- The TLB of a core, of the comet core of a context, and the L2 TLB of a die. -/
def coreTlb (c : Nat) : Nat := c
/-- The TLB of the comet core of a context. -/
def cometTlb (c : Nat) : Nat := 1000 + c / 8
/-- The L2 TLB of a core die. -/
def dieTlb (d : Nat) : Nat := 2000 + d
/-- The capacity of a TLB (R346). -/
def tlbSize (t : Nat) : Nat := if t < 1000 then 64 else if t < 2000 then 16 else 8192

/-- Find a translation in a TLB. -/
def State.tlbFind (s : State) (t vf va : Nat) : Option TlbEntry :=
  (s.tlbs.getD t []).find? fun e => e.vf == vf && decide (e.va ≤ va) && decide (va < e.va + e.size)

/-- Fill a TLB: the newest entry first, the oldest dropped when full. -/
def State.tlbFill (s : State) (t : Nat) (e : TlbEntry) : State :=
  let old := (s.tlbs.getD t []).filter fun x => !(x.vf == e.vf && x.va == e.va)
  { s with tlbs := s.tlbs.set t ((e :: old).take (tlbSize t)) }

/-- The code of an access kind in a cause (13 R267). -/
def kindCode : AccKind → Nat
  | .load => 0
  | .store => 1
  | .fetch => 2
  | .engine => 3

/-- Where a unit translates: its L1 TLB, its die, its block. -/
structure Site where
  asker : Asker
  tlb : Nat
  die : Nat
  blk : Nat
  deriving DecidableEq, Repr

/-- The site of the executing unit. -/
def State.site (s : State) : Site :=
  match s.focus with
  | .comet c => { asker := .unit s.focus, tlb := cometTlb c, die := dieOfComet c, blk := s.unitBlk }
  | _ => { asker := .unit s.focus, tlb := coreTlb (s.blk s.unitBlk).core, die := (s.blk s.unitBlk).die, blk := s.unitBlk }

/-- The site of an engine or port of a block. -/
def State.blkSite (s : State) (a : Asker) (b : Nat) : Site :=
  { asker := a, tlb := coreTlb (s.blk b).core, die := (s.blk b).die, blk := b }

/-- What a translation gives: not there yet, a fault, or an entry with whether the L1 TLB held it. -/
inductive Res
  | wait
  | fault (cause : Nat)
  | ok (e : TlbEntry) (l1 : Bool)
  deriving DecidableEq, Repr

/-- The fault that a walk delivered to an asker for a page. -/
def State.walkFaultOf (s : State) (a : Asker) (vf vpn : Nat) : Option WalkFault :=
  s.walkFaults.find? fun f => f.asker == a && f.vf == vf && f.vpn == vpn

/-- The checks after a walk (R348): partition, then write permission. -/
def State.checkEntry (s : State) (b : Nat) (wr : Bool) (e : TlbEntry) (l1 : Bool) : Res :=
  if e.part != 31 && e.part != (s.blk b).part then .fault 0x35
  else if wr && e.ro then .fault 0x34
  else .ok e l1

/-- The cause of a fault that a walk delivered, for an access of a kind (13 R267; 20 R419). -/
def WalkFault.cause (f : WalkFault) (kind : AccKind) : Nat :=
  if f.poison then 0x3C else if f.stage2 then 0x30 + kindCode kind else 0x20 + 4 * kindCode kind + f.level

/-- Resolve an address for an access of a kind; `wr`: it writes. -/
def State.resolve (s : State) (p : Site) (kind : AccKind) (wr : Bool) (va : Nat) : Res :=
  let vf := (s.blk p.blk).vf
  match s.walkFaultOf p.asker vf (va / 4096) with
  | some f => .fault (f.cause kind)
  | none =>
    match s.tlbFind p.tlb vf va with
    | some e => s.checkEntry p.blk wr e true
    | none =>
      match s.tlbFind (dieTlb p.die) vf va with
      | some e => s.checkEntry p.blk wr e false
      | none => .wait

/-- The requests that a die holds waiting for walks (R347). -/
def State.walkRequests (s : State) (die : Nat) : Nat :=
  ((s.walks.filter fun e => e.2.die == die).map fun e => e.2.joined.length).sum

/-- Ask for a walk: join one in flight for the page, or queue a new one; beyond 16,384 requests of a die the miss waits where
it was issued, and asks again (R347). -/
def State.askWalk (s : State) (p : Site) (va : Nat) : State :=
  let vf := (s.blk p.blk).vf
  let vpn := va / 4096
  match s.walks.find? fun e => e.2.die == p.die && e.2.vf == vf && e.2.vpn == vpn with
  | some (id, w) =>
    if w.joined.contains p.asker || decide (16384 ≤ s.walkRequests p.die) then s
    else { s with walks := s.walks.set id { w with joined := w.joined ++ [p.asker] } }
  | none =>
    if 16384 ≤ s.walkRequests p.die then s
    else
      { s with
        walks := s.walks.set s.nextId
          { die := p.die, vf := vf, vpn := vpn, started := false, stale := false, joined := [p.asker] },
        nextId := s.nextId + 1 }

/-- An asker has raised, or no longer needs, the faults that walks delivered to it, and what its requests outside the package
came back with. -/
def State.clearFaults (s : State) (a : Asker) : State :=
  { s with walkFaults := s.walkFaults.filter fun f => f.asker != a, outs := s.outs.keep fun _ r => r.asker != a }

/-- An access uses a translation: the L1 TLB gets it from the L2 TLB. A miss that ends in a fault is counted at the end of its
walk (17 R358). -/
def State.useEntry (s : State) (p : Site) (e : TlbEntry) (l1 : Bool) : State :=
  if l1 then s
  else
    let s1 := s.tlbFill p.tlb e
    if p.tlb < 1000 then s1.count p.tlb 4 1 else s1

/-- An access whose translation fails the checks after a walk: where the L1 TLB did not hold it, that is a miss too (17 R358). -/
def State.countFaulted (s : State) (p : Site) (va cause : Nat) : State :=
  if (cause == 0x34 || cause == 0x35) && decide (p.tlb < 1000) && (s.tlbFind p.tlb (s.blk p.blk).vf va).isNone then
    s.count p.tlb 4 1
  else s

end Sys2Proof.Machine
end

