-- ==== Sys2Proof/Machine/MemPath.lean ====
section
/-!
DEFINITION. Machine/MemPath.lean: the order of accesses in flight, what caches serve, and the performance of stores
(spec/08_ordering.md R184-R188; 18 R374-R376; 07 R161, R163, R165; 14 R296).
-/

set_option linter.constructorNameAsVariable false

namespace Sys2Proof.Machine

/-- The value of the `n` bytes at a key, current now. -/
def State.readKey (s : State) (key n : Nat) : Nat :=
  if isShared key then (s.blk (sharedHome key)).shared.read (sharedOff key) n else s.mem.read key n

/-! ## Ordering of accesses in flight (08 R178, R184, R186; 07 R161, R172) -/

/-- D and S pages. -/
def orderedType : MemType → Bool
  | .d => true
  | .s => true
  | _ => false

/-- The accesses of a lane in an operation. -/
def LaneOp.of (o : LaneOp) (l : Nat) : List Access := o.acc.filter (·.lane == l)

/-- The lane operations of a thread with a number below `id`. -/
def State.olderOps (s : State) (th : Thread) (id : Nat) : List (Nat × LaneOp × Access) :=
  match th with
  | .lane b g l => s.ops.flatMap fun e =>
      if e.1 < id && e.2.blk == b && e.2.grp == g then (e.2.of l).map fun a => (e.1, e.2, a) else []
  | _ => []

/-- The stores of a thread with a number below `id`. -/
def State.olderStores (s : State) (th : Thread) (id : Nat) : List StoreOp :=
  s.stores.filterMap fun e => if e.1 < id && e.2.thread == th then some e.2 else none

/-- Everything a thread issued before number `bound` is done: its loads and atomics have landed and its stores are
acknowledged (08 R186). -/
def State.doneBefore (s : State) (th : Thread) (bound : Nat) : Bool :=
  (s.olderOps th bound).isEmpty && (s.olderStores th bound).isEmpty

/-- Two requests of a thread go to one home slice, where they arrive in issue order (18 R376). -/
def sameHome (a b : Nat) : Bool := isDevice a && isDevice b && homeDie a == homeDie b

/-- A write of the cells comes before an access of the same thread to the range: they meet (11 R240), or have one home (18 R376). -/
def cellsFirst (cs : List Host.Cell) (key n : Nat) : Bool := cellsMeet cs key n || cs.any fun c => sameHome key c.1

/-- A sequencer has a read, issued before number `id`, still to make that comes before an access to the range: a TLD not filled. -/
def Seq.readsBefore (q : Seq) (id key n : Nat) : Bool :=
  q.xfers.any fun e => decide (e.1 < id) && !e.2.store &&
    e.2.tiles.any fun x => rangesMeet key n x.2 256 || sameHome key x.2

/-- A sequencer has a port write, issued before number `id`, still to make that comes before an access to the range: an entry that
a write port holds, or a push that has not landed. -/
def Seq.pushesBefore (q : Seq) (id key n : Nat) : Bool :=
  (q.ports.any fun p => p.2.writes.any fun w => decide (w.1 < id) && cellsFirst w.2 key n) ||
  q.ops.any fun o => decide (o.1 < id) && match o.2.dest with
    | .push _ _ cells => cellsFirst cells key n
    | _ => false

/-- The accesses of a sequencer that come before number `id` in its program order, beside its TST stores, and are ordered with an
access to the range are made (11 R240; 18 R376). -/
def State.seqOrderOk (s : State) (th : Thread) (id key n : Nat) : Bool :=
  match th with
  | .seqr b =>
    match (s.blk b).seq with
    | some q => !q.readsBefore id key n && !q.pushesBefore id key n
    | none => true
  | _ => true

/-- An access to a page is held: the page is in the final block of a migration (18 R381). -/
def State.pageHeld (s : State) (key : Nat) : Bool := s.migrs.vals.any fun m => m.final.isSome && m.covers key

/-- An access is held that is newer than the block of its page (18 R381, R383). -/
def State.newHeld (s : State) (id key : Nat) : Bool :=
  s.migrs.vals.any fun m => m.final.isSome && m.covers key && decide (m.bound ≤ id)

/-- A page is in the final block of a change of its bias: accesses to it are issued once that is over, at the home that it then
has (18 R383). -/
def State.biasHeld (s : State) (key : Nat) : Bool := s.migrs.vals.any fun m => m.bias && m.final.isSome && m.covers key

/-- An access of a thread is held by the block of its page. A sequencer's are held when they are translated; those that it has
issued go on: a migration waits for its reservations (11 R259; 18 R382). -/
def State.moveHeld (s : State) (th : Thread) (id key : Nat) : Bool :=
  match th with
  | .seqr _ => false
  | _ => s.newHeld id key

/-- The kinds of request that the order of a home slice tells apart (18 R376). -/
inductive ReqKind
  | load | store | atomic
  deriving DecidableEq, Repr

/-- An earlier load, or atomic, of the thread holds a request back: it has not read, and it touches the same bytes, or both
are D or S accesses, or it has not arrived at the same home (18 R376). Of two atomics that have arrived in order the later may take
effect first but for .ORD (07 R172; DEDUCED, log 137). -/
def LaneOp.holds (o : LaneOp) (a : Access) (key n : Nat) (mt : MemType) (k : ReqKind) : Bool :=
  a.val.isNone &&
  (rangesMeet key n a.key o.bytes || (orderedType mt && orderedType a.mt) ||
   (!a.fwd && !(o.kind != .load && k == .atomic) && sameHome key a.key))

/-- An earlier store of the thread holds a request back: it is not performed, and it touches the same bytes, or both are D or S
accesses, or it has not arrived at the same home. Plain W stores gather in the core and order nothing but their own
bytes, and not those for one another (07 R161). -/
def StoreOp.holds (x : StoreOp) (key n : Nat) (mt : MemType) (k : ReqKind) : Bool :=
  let gathers := k == .store && mt == .w && x.mt == .w && !x.rel
  !x.performed &&
  ((cellsMeet x.cells key n && !gathers) || (orderedType mt && orderedType x.mt) ||
   (x.mt != .w && !(k == .store && mt == .w) && x.shared.isNone && x.cells.any fun c => sameHome key c.1))

/-- The access `id` of a thread to a range may take effect as far as its thread's order goes: what its thread put before it
(`bound`) is done, and no earlier access of the thread holds it back. -/
def State.inOrder (s : State) (th : Thread) (id bound key n : Nat) (mt : MemType) (k : ReqKind) : Bool :=
  s.doneBefore th bound && s.seqOrderOk th id key n &&
  (s.olderOps th id).all (fun x => !x.2.1.holds x.2.2 key n mt k) &&
  (s.olderStores th id).all fun x => !x.holds key n mt k

/-- The access may take effect at its home. -/
def State.mayPerform (s : State) (th : Thread) (id bound key n : Nat) (mt : MemType) (k : ReqKind) : Bool :=
  !s.moveHeld th id key && s.inOrder th id bound key n mt k

/-- An acquire of a lane is in flight: the lane's later memory instructions wait for it (08 R180). -/
def State.acquiring (s : State) (b g l : Nat) : Bool :=
  s.ops.vals.any fun o => o.blk == b && o.grp == g && (o.of l).any fun a => o.acq || a.mt == .s

/-- Some lane of the executing unit waits for an acquire. -/
def State.anyAcquiring (s : State) (ls : List Nat) : Bool := ls.any fun l => s.acquiring s.unitBlk s.unitGrp l

/-! ## Copies and ownership (08 R186-R188, 18 R374) -/

/-- The read-only cache of a core die, for one partition (16 R339). -/
def roCache (die part : Nat) : Nat := 3000 + 32 * die + part

/-- Two caches belong to one core. -/
def State.sameCore (s : State) (c d : Nat) : Bool := (s.cacheCore c).isSome && s.cacheCore c == s.cacheCore d

/-- The word that a cache serves: one it owns, or one it holds a copy of. A word that another cache of the same core owns is
not served: its home gives the owner's value (07 R163, R165). -/
def State.cachedWord (s : State) (c w : Nat) : Option Word :=
  match s.owners.find w with
  | some o =>
    if o.cache = c then some (s.memWord w) else if s.sameCore c o.cache then none else (s.copies.getD c []).find w
  | none => (s.copies.getD c []).find w

/-- The words as one number, low word first; none when one is missing. -/
def joinWords : List (Option Word) → Option Nat
  | [] => some 0
  | none :: _ => none
  | some w :: t => (joinWords t).map fun r => w.toNat + 2 ^ 32 * r

/-- The value that a cache serves for a range, if it holds every word. -/
def State.cachedVal (s : State) (c key n : Nat) : Option Nat :=
  (joinWords ((wordsOf key n).map fun w => s.cachedWord c w)).map fun v => v / 2 ^ (8 * (key % 4)) % 2 ^ (8 * n)

/-- A cache takes copies of the 128-byte line of an address, as it is at its home now (07 R163, 08 R187). -/
def State.fillLine (s : State) (c key : Nat) : State :=
  let ws := (List.range 32).map (key / 128 * 32 + ·)
  let mine := ws.filter fun w => match s.owners.find w with
    | some o => o.cache != c
    | none => true
  ({ s with copies := s.copies.set c (mine.foldl (fun t w => t.set w (s.memWord w)) (s.copies.getD c [])) } : State).trimLane c
    (key / 128)

/-- The words in the read-only cache of a die, over all partitions: at most 16 MiB (16 R339). -/
def State.roWords (s : State) (die : Nat) : Nat :=
  ((List.range 32).map fun p => (s.copies.getD (roCache die p) []).length).sum

/-- The read-only cache of a die takes a line for a partition; beyond its 16 MiB the partition's line with the lowest address
leaves it (DESIGN CHOICE: which line leaves is not stated, log 138). -/
def State.fillRo (s : State) (die part key : Nat) : State :=
  let c := roCache die part
  let t := s.fillLine c key
  if t.roWords die ≤ 2 ^ 22 then t
  else
    match t.copies.getD c [] with
    | [] => t
    | e :: _ => { t with copies := t.copies.modify c fun l => l.keep fun w _ => w / 32 != e.1 / 32 }

/-- The other caches of a lane drop their copies of words that it has read or written through one (none: all drop them), so
that it never reads an older value through another (08 R184 item 3, R186). -/
def State.dropOthers (s : State) (th : Thread) (used : Option Nat) (ws : List Nat) : State :=
  match th with
  | .lane b g l => s.dropWords (fun c => some c != used && s.laneCaches b g l c) ws
  | _ => s

/-- The cells of a list by the key of their bytes that lie in shared memory of block b. -/
def offCells (cs : List Host.Cell) : List Host.Cell := cs.map fun c => (sharedOff c.1, c.2)

/-! ## Performing a write (08 R184 item 1, R186) -/

/-- Write cells of the shared memory of a block. -/
def State.commitShared (s : State) (home : Nat) (cs : List Host.Cell) : State :=
  let t := s.modBlk home fun x => { x with shared := x.shared.putAll (offCells cs) }
  { t with poison := t.poison.filter fun w => !(cellWords cs).contains w }

/-- Note an intermediate frame as written by a virtual function (20 R411). -/
def State.noteFrame (s : State) (vf f : Nat) : State :=
  s.modVf vf fun v => { v with frames := if v.frames.contains f then v.frames else v.frames ++ [f] }

/-- The first touch of a line of a stash window fills the line (07 R163). -/
def State.touchStash (s : State) (c key : Nat) : State :=
  let held := (List.range 32).any fun i =>
    let w := key / 128 * 32 + i
    (s.copies.getD c []).has w || match s.owners.find w with
      | some o => o.cache == c
      | none => false
  if held then s else s.fillLine c key

/-- The bytes of a global store at its home (08 R184, R186): a store to device memory registers its words for its cache; a W,
D, S, non-temporal, host or remote store leaves them to no cache (07 R159, R161). The first touch of a line of a stash window fills
it, whatever memory the window maps (R163). The lane's other caches drop the words. -/
def State.performGlobal (s : State) (t : StoreOp) : State :=
  let owned := t.mt == MemType.n && !t.nt && t.cells.all fun c => isDevice c.1
  let s1 := match t.stash, t.cells with
    | some _, c :: _ => s.touchStash t.cache c.1
    | _, _ => s
  let s2 := s1.commit t.cells (if owned then some (t.cache, t.stash) else none) t.vf (fillOf t.mt t.nt)
  let s3 := s2.dropOthers t.thread (if owned then some t.cache else none) (cellWords t.cells)
  match t.frame, t.cells with
  | some f, _ :: _ => s3.noteFrame t.vf f
  | _, _ => s3

/-- A store is performed. -/
def State.performStore (s : State) (id : Nat) (t : StoreOp) : State :=
  let s1 := match t.shared with
    | some home => s.commitShared home t.cells
    | none => s.performGlobal t
  { s1 with stores := s1.stores.set id { t with performed := true } }

/-- The stores of the lanes of one instruction to one address, in ascending lanes: they are performed in one step, so that each
byte takes the value of the highest lane (07 R158). -/
def State.siblings (s : State) (x : StoreOp) : List (Nat × StoreOp) :=
  s.stores.filter fun e => !e.2.performed && e.2.inst == x.inst && e.2.shared == x.shared &&
    (e.2.cells.map Prod.fst).head? == (x.cells.map Prod.fst).head?

/-- Perform stores in order. -/
def State.performAll (s : State) (xs : List (Nat × StoreOp)) : State := xs.foldl (fun t e => t.performStore e.1 e.2) s

end Sys2Proof.Machine
end

