-- ==== Sys2Proof/Machine/Route.lean ====
section
/-!
DEFINITION. Machine/Route.lean: accesses that leave the package: the bias of host pages, the fabric ports, the port on which a
request leaves, and accesses that come back aborted (spec/18_package_memory.md R383; 20 R414, R416; 21 R421, R423-R425).
-/

namespace Sys2Proof.Machine

/-! ## Inside and outside the package -/

/-- The bias in force of a page of the coherent host range: true is device bias; a MIGRATE_BIAS changes it (20 R416,
18 R383). -/
def State.deviceBias (s : State) (key : Nat) : Bool := isCoherentHost key && s.devBias.contains (key / 4096)

/-- An access that leaves the package: to the host, or to another package. -/
def State.outside (s : State) (key : Nat) : Bool := isRemote key || (isHost key && !s.deviceBias key)

/-- An atomic that leaves the package: to another package, or to host memory, whatever the bias of its page (07 R173;
20 R414). -/
def atomOutside (key : Nat) : Bool := isRemote key || isHost key

/-- An access of an operation leaves the package. -/
def State.leaves (s : State) (k : OpKind) (key : Nat) : Bool :=
  match k with
  | .load => s.outside key
  | .atomic _ => atomOutside key

/-! ## Fabric ports (21 R420, R423) -/

/-- A port at reset: disabled, nothing known of its peer. -/
def FabPort.reset : FabPort :=
  { en := false, up := false, train := false, down := false, peerPort := 0, peerPkg := 0, replay := [], sent := 0,
    expect := 0, discard := false, replays := 0, resend := none, trainSince := 0 }

/-- A fabric port. -/
def State.fport (s : State) (q : Nat) : FabPort := s.fports.getD q FabPort.reset
/-- Change a fabric port. -/
def State.modPort64 (s : State) (q : Nat) (f : FabPort → FabPort) : State :=
  { s with fports := s.fports.set q (f (s.fport q)) }

/-- A request of an access still waits at a port to be sent (21 R422). -/
def State.queuedReq (s : State) (id : Nat) : Bool :=
  s.fports.any fun e => e.2.queued.any fun x => x.load == .request id

/-! ## Routing (21 R424) -/

/-- The package and the physical address there that a remote key names. -/
def remoteTarget (key : Nat) : Nat × Nat := (key / 2 ^ 48 - 1, key % 2 ^ 48)

/-- The ports of a route mask. -/
def routePorts (mask : Nat) : List Nat := (List.range 64).filter fun q => bit mask q

/-- The port on which a request to a remote key leaves: the (h mod n)-th set bit of ROUTE TGT. -/
def State.routePort (s : State) (key : Nat) : Option Nat :=
  let ps := routePorts (s.routes.getD (remoteTarget key).1 0)
  ps[homeDie (canon (remoteTarget key).2) % ps.length]?

/-- A request to a remote key is aborted at once: no port of its mask is up, or its own port is disabled or down. -/
def State.unreachable (s : State) (key : Nat) : Bool :=
  let ps := routePorts (s.routes.getD (remoteTarget key).1 0)
  (ps.all fun q => !(s.fport q).up) ||
  match s.routePort key with
  | some q => !(s.fport q).en || (s.fport q).down
  | none => true

/-! ## Requests that leave the package (20 R413, R414; 21 R421, R425, R426)

The loads, stores and atomics of lanes wait for their completions in `ops` and `stores`. Every other access to the host or to
another package is made once a request of its asker has been completed: a read takes the value that is at its home then, a write
or an atomic is performed then (log 10). -/

/-- The cause of an access that came back aborted (13 R270). -/
def abortCause (key : Nat) : Nat := if isRemote key then 0xA4 else 0xA5

/-- The least clocks of a remote request after its issue (21 R426): a path has up to three hops more than one, and how many is not
stated (DESIGN CHOICE, log 170). -/
def remoteClocks (store : Bool) (key : Nat) : Nat :=
  (if store then 500 else 700) + 350 * (Config.furtherHops (remoteTarget key).1 % 4)

/-- What an access asks outside the package. -/
def outKind (wr atomic : Bool) : OutKind := if atomic then .atomic else if wr then .write else .read

/-- A request of an asker is this one. -/
def OutReq.is (r : OutReq) (a : Asker) (k : OutKind) (key n : Nat) : Bool :=
  r.asker == a && r.kind == k && r.key == key && r.bytes == n

/-- The request of an asker for bytes. -/
def State.outReq (s : State) (a : Asker) (k : OutKind) (key n : Nat) : Option OutReq :=
  (s.outs.find? fun e => e.2.is a k key n).map Prod.snd

/-- How far an access has come: it may be made, it waits for a completion of its request, or that came back aborted. -/
inductive Reached
  | ok
  | wait
  | aborted (cause : Nat)
  deriving DecidableEq, Repr

/-- An access of a kind leaves the package. -/
def State.leavesBy (s : State) (k : OutKind) (key : Nat) : Bool :=
  match k with
  | .atomic => atomOutside key
  | _ => s.outside key

/-- How far an access of an asker has come. -/
def State.reached (s : State) (a : Asker) (k : OutKind) (key n : Nat) : Reached :=
  if isShared key || !s.leavesBy k key then .ok
  else
    match (s.outReq a k key n).bind fun r => r.answer with
    | some Completion.ok => .ok
    | some _ => .aborted (abortCause key)
    | none => .wait

/-- Make the request of an access, unless it is out. -/
def State.askOut (s : State) (a : Asker) (b : Nat) (k : OutKind) (key n : Nat) : State :=
  if (s.outReq a k key n).isSome then s
  else
    let late := if isRemote key then remoteClocks (k == .write) key else 0
    { s with
      outs := s.outs.set s.nextId
        { asker := a, kind := k, key := key, bytes := n, blk := b, notBefore := s.now + late, answer := none },
      nextId := s.nextId + 1 }

/-- The accesses that an asker made requests for are made, or given up; fetches are told from the others of a unit. -/
def State.dropOuts (s : State) (a : Asker) (fetch : Bool) : State :=
  { s with outs := s.outs.keep fun _ r => !(r.asker == a && (r.kind == .fetch) == fetch) }

/-- An access that an asker made a request for is made. -/
def State.dropOut (s : State) (a : Asker) (k : OutKind) (key n : Nat) : State :=
  { s with outs := s.outs.keep fun _ r => !r.is a k key n }

/-- The completion of a request (none before its least clock but an abort). -/
def State.completeOut (s : State) (id : Nat) (r : OutReq) (c : Completion) : State :=
  if c == .ok && decide (s.now < r.notBefore) then s
  else { s with outs := s.outs.set id { r with answer := some c } }

end Sys2Proof.Machine
end

