-- ==== Sys2Proof/Machine/Arbiter.lean ====
section
/-!
DEFINITION. Machine/Arbiter.lean: which requests of the memory path may be served, and the arbiters of the memory channels
(spec/07_lane_memory.md R172; 18_package_memory.md R374-R378; 20_package_tenancy.md R409).
-/

set_option linter.constructorNameAsVariable false

namespace Sys2Proof.Machine

/-! ## Requests that can be served -/

/-- The thread of a part of an operation. -/
def LaneOp.thread (o : LaneOp) (a : Access) : Thread := .lane o.blk o.grp a.lane

/-- The request that an operation makes. -/
def OpKind.req : OpKind → ReqKind
  | .load => .load
  | .atomic _ => .atomic

/-- A part of a load that its home can serve now: not read yet, not outside the package, not waiting at a wrong home,
with everything before it done. -/
def State.readable (s : State) (id : Nat) (o : LaneOp) (a : Access) : Bool :=
  o.kind == .load && a.val.isNone && o.hint.isNone && (isShared a.key || !s.outside a.key) &&
  s.mayPerform (o.thread a) id a.after a.key o.bytes a.mt .load

/-- .ORD: an earlier atomic of the part's lane to the same home has not taken effect (R172). -/
def State.ordHeld (s : State) (id : Nat) (o : LaneOp) (a : Access) : Bool :=
  o.ord && (s.olderOps (o.thread a) id).any fun x => match x.2.1.kind with
    | .atomic _ => x.2.2.val.isNone && homeDie x.2.2.key == homeDie a.key && isRemote x.2.2.key == isRemote a.key
    | .load => false

/-- A part of an atomic may take effect. -/
def State.atomReady (s : State) (id : Nat) (o : LaneOp) (a : Access) : Bool :=
  s.mayPerform (o.thread a) id a.after a.key o.bytes a.mt .atomic && !s.ordHeld id o a

/-- The parts of an operation, with their places. -/
def LaneOp.parts (o : LaneOp) : List (Nat × Access) := List.zip (List.range o.acc.length) o.acc

/-- A store may be performed: its least latency is over, it does not wait at a wrong home, and what its thread put before it is
done. -/
def State.storeReady (s : State) (id : Nat) (x : StoreOp) : Bool :=
  !x.performed && !x.host && x.hint.isNone && decide (x.notBefore ≤ s.now) &&
  match x.cells with
  | [] => true
  | c :: _ => s.mayPerform x.thread id x.after c.1 x.cells.length x.mt .store

/-- The stores that are performed with one, and whether all of them may be. -/
def State.storeStep (s : State) (x : StoreOp) : List (Nat × StoreOp) × Bool :=
  let xs := s.siblings x
  (xs, xs.all fun e => s.storeReady e.1 e.2)

/-! ## Channel time (20 R409, 18 R378) -/

/-- The number of the memory channel that a word lies on. -/
def channelIx (key : Nat) : Nat := 1024 * homeDie key + Config.channelOf key % 1024

/-- Charge a partition the bytes of an access on a memory channel, which has served it last. -/
def State.charge (s : State) (key part n : Nat) : State :=
  if isDevice key then
    let c := channelIx key
    let i := 32 * c + part
    { s with charges := s.charges.set i (s.charges.getD i 0 + n), served := s.served.set c part }
  else s

/-- The lowest partition with a tag (20 R407); tag 0 names none apart. -/
def State.partOfTag (s : State) (tag : Nat) : Option Nat := (List.range 20).find? fun p => (s.part p).ptag.toNat == tag

/-- A request waits for the channel of a device address (R409). -/
def State.ask (s : State) (a : Asker) (key part : Nat) : State :=
  let x := (a, channelIx key, part)
  if !isDevice key || s.asks.contains x then s else { s with asks := s.asks ++ [x] }

/-- An access of an asker is charged, and waits for the channel no more. -/
def State.chargeFor (s : State) (a : Asker) (key part n : Nat) : State :=
  let t := s.charge key part n
  { t with asks := t.asks.filter fun e => !(e.1 == a && e.2.1 == channelIx key) }

/-- The sequencer of a block can still make a request: it issues, or transfers of its TLDs are in flight. -/
def State.seqAsks (s : State) (b : Nat) : Bool :=
  (s.blk b).phase == .resident && match (s.blk b).seq with
    | some q => !q.stopped && (!q.parked || !q.xfers.isEmpty)
    | none => false

/-- The asker of a waiting request can still make it. -/
def State.askLives (s : State) (a : Asker) : Bool :=
  match a with
  | .unit (.split b g k) => s.hasSplit b g k && !(s.spl b g k).parked
  | .unit (.comet c) => s.comets.has c && !(s.ctx c).parked
  | .unit (.seqr b) => s.seqAsks b
  | .port b c z => (s.blk b).phase == .resident && match (s.blk b).seq with
    | some q => !q.stopped && (q.ports.getD (8 * c + z) default).bound
    | none => false
  | .engine id =>
    match s.engines.find id with
    | some o => !o.parked && (s.blk o.blk).phase == .resident
    | none => false
  | .walk id => s.walks.has id
  | _ => false

/-- A partition has been charged less than its floor on a channel in this window. -/
def State.belowFloor (s : State) (ch part : Nat) : Bool :=
  decide (64 * s.charges.getD (32 * ch + part) 0 < (s.part part).floor.getD (ch / 1024) 0 * Config.channelBytes)

/-- The partitions that have a request waiting on a channel: one that its home could serve now. -/
def State.waitsOn (s : State) (ch : Nat) : List Nat :=
  (s.ops.flatMap fun e => (e.2.parts.filter fun p =>
      p.2.val.isNone && isDevice p.2.key && channelIx p.2.key == ch && match e.2.kind with
        | .load => s.readable e.1 e.2 p.2
        | .atomic _ => e.2.parts.all fun q => q.2.key != p.2.key || q.2.val.isSome || s.atomReady e.1 e.2 q.2).map
    fun _ => (s.blk e.2.blk).part) ++
  (s.stores.filterMap fun e => match e.2.cells with
    | c :: _ =>
      if !e.2.performed && e.2.shared.isNone && isDevice c.1 && channelIx c.1 == ch && (s.storeStep e.2).2
      then some (s.blk e.2.blk).part else none
    | [] => none) ++
  s.asks.filterMap fun e => if e.2.1 == ch && s.askLives e.1 then some e.2.2 else none

/-- The place of a partition in the rotation of a channel, behind the one that it served last. -/
def State.turnOf (s : State) (ch part : Nat) : Nat := (part + 31 - s.served.getD ch 31) % 32

/-- A channel serves a partition before another: one below its floor before one at or above it, and in rotation within each
class (R409). -/
def State.goesBefore (s : State) (ch p q : Nat) : Bool :=
  if s.belowFloor ch p == s.belowFloor ch q then decide (s.turnOf ch p < s.turnOf ch q) else s.belowFloor ch p

/-- A request of a partition waits while the channel has a request waiting that it serves first (R409). -/
def State.arbHeld (s : State) (key part : Nat) : Bool :=
  isDevice key && (s.blocks.any fun e => e.2.part != part) &&
  (s.waitsOn (channelIx key)).any fun q => s.goesBefore (channelIx key) q part

/-- The executing unit's requests wait for their channels. -/
def State.channelStop (s : State) (keys : List Nat) : Option State :=
  let part := (s.blk s.unitBlk).part
  match keys.filter fun k => s.arbHeld k part with
  | [] => none
  | ks => some (ks.foldl (fun t k => t.ask s.site.asker k part) s)

/-- The executing unit's accesses are charged, each its key with its bytes. -/
def State.chargeUnit (s : State) (xs : List (Nat × Nat)) : State :=
  xs.foldl (fun t x => t.chargeFor s.site.asker x.1 (s.blk s.unitBlk).part x.2) s

end Sys2Proof.Machine
end

