-- ==== Sys2Proof/Machine/LaneMem.lean ====
section
/-!
DEFINITION. Machine/LaneMem.lean: loads, stores, shared memory, stash, prefetch and fences of lanes
(spec/07_lane_memory.md R154-R167; 14 R295, R296; 16 R337-R339).

An instruction checks its lanes, waits for the translations it lacks, and then starts operations in flight, which the
steps of the memory path carry on.
-/

set_option linter.constructorNameAsVariable false

namespace Sys2Proof.Machine

/-! ## Checks (07 R156) -/

/-- A failed check: the cause and the lanes that fail with it, from each lane's cause; the lowest failing lane decides. -/
def failOf (ls : List Nat) (f : Nat → Option Nat) : Option (Nat × Mask) :=
  match (ls.filter fun l => (f l).isSome).head? with
  | none => none
  | some l => (f l).map fun c => (c, maskOfList (ls.filter fun j => f j == some c))

/-- One lane's part of a global access: the lane, the address that a trap reports, and the virtual address. -/
structure Piece where
  lane : Nat
  ea : Dword
  va : Nat
  deriving DecidableEq, Repr, Inhabited

/-- A piece with its translation. -/
structure Hit where
  lane : Nat
  ea : Dword
  va : Nat
  entry : TlbEntry
  l1 : Bool
  deriving DecidableEq, Repr

/-- The key that a hit touches. -/
def Hit.key (h : Hit) : Nat := h.entry.key h.va

/-- What the checks of an access give: an instruction that ends here (waiting, or trapped), or the translations. -/
inductive Chk
  | stop (s : State)
  | ok (hs : List Hit)

/-- Steps 4 and 5 of R156 on the pieces of an access and their translations, in ascending lanes. -/
def State.settlePieces (s : State) (forbid : Hit → Bool) (res : List (Piece × Res)) : Chk :=
  let p := s.site
  let waits := res.filter fun r => r.2 == .wait
  let hits := res.filterMap fun r => match r.2 with
    | .ok e l1 => some ({ lane := r.1.lane, ea := r.1.ea, va := r.1.va, entry := e, l1 := l1 } : Hit)
    | _ => none
  let causes := res.filterMap fun r => match r.2 with
    | .fault c => some (r.1, c)
    | _ => none
  if !waits.isEmpty then .stop (waits.foldl (fun t r => t.askWalk p r.1.va) s)
  else
    match causes with
    | (x, c) :: _ =>
      let m := maskOfList ((causes.filter fun r => r.2 == c).map fun r => r.1.lane)
      .stop (((causes.foldl (fun (t : State) r => t.countFaulted p r.1.va r.2) s).trapWith c m x.ea).clearFaults p.asker)
    | [] =>
      match hits.filter forbid with
      | [] => if hits.any fun h => s.biasHeld h.key then .stop s else .ok hits
      | h :: t => .stop ((s.trapWith 0x3B (maskOfList ((h :: t).map (·.lane))) h.ea).clearFaults p.asker)

/-- Steps 4 and 5 of R156 on the pieces of an access, in ascending lanes. -/
def State.translatePieces (s : State) (kind : AccKind) (wr : Bool) (forbid : MemType → Bool) (ps : List Piece) : Chk :=
  s.settlePieces (fun h => forbid h.entry.mt) (ps.map fun x => (x, s.resolve s.site kind wr x.va))

/-- Steps 1 and 2 of R156 for global addresses: alignment, then range. -/
def State.checkGlobal (s : State) (ls : List Nat) (size : Nat) (ea : Nat → Dword) : Option State :=
  match failOf ls fun l => if (ea l).toNat % size ≠ 0 then some 0x36 else none with
  | some (c, m) => some (s.trapWith c m (ea (lowestLane m)))
  | none =>
    match failOf ls fun l => if 2 ^ 52 ≤ (ea l).toNat then some 0x37 else none with
    | some (c, m) => some (s.trapWith c m (ea (lowestLane m)))
    | none => none

/-- The pieces of a global access. -/
def piecesOf (ls : List Nat) (ea : Nat → Dword) : List Piece :=
  ls.map fun l => { lane := l, ea := ea l, va := (ea l).toNat }

/-- The words of a range that are poisoned. -/
def State.poisoned (s : State) (key n : Nat) : Bool := (wordsOf key n).any fun w => s.poison.contains w

/-- The poisoned-data trap of a load or an atomic whose data arrive poisoned (07 R156): precise, so it is taken when the instruction
issues; no soft error of its words comes between its issue and its reads (DESIGN CHOICE, log 7). -/
def State.poisonTrap (s : State) (hs : List Hit) (n : Nat) : Option State :=
  match hs.filter fun h => s.poisoned h.key n with
  | [] => none
  | h :: t => some (s.trapWith 0x3C (maskOfList ((h :: t).map (·.lane))) h.ea)

/-- An access of `n` bytes that leaves the package waits at its instruction for the completions of its requests (log 10), and traps
where one came back aborted (13 R270). -/
def State.outsideStop (s : State) (k : OutKind) (n : Nat) (hs : List Hit) : Option State :=
  let a := s.site.asker
  let rs := hs.map fun h => (h, s.reached a k h.key n)
  let cut := rs.filterMap fun r => match r.2 with
    | .aborted c => some (r.1, c)
    | _ => none
  match cut with
  | x :: _ =>
    let same := cut.filter fun y => y.2 == x.2
    some ((s.trapWith x.2 (maskOfList (same.map (·.1.lane))) x.1.ea).clearFaults a)
  | [] =>
    if rs.all fun r => r.2 == .ok then none
    else some ((rs.filter fun r => r.2 == .wait).foldl (fun t r => t.askOut a s.unitBlk k r.1.key n) s)

/-! ## Where an access goes -/

/-- The cache of the executing unit: its core's L1, or the lane cache of its comet core. -/
def State.unitCache (s : State) : Nat :=
  match s.focus with
  | .comet c => s.laneCache c
  | _ => (s.blk s.unitBlk).core

/-- The bytes of a range from cells, when they hold all of it. -/
def cellsVal (cs : List Host.Cell) (key n : Nat) : Option Nat :=
  let found := (List.range n).map fun i => (cs.find? fun c => c.1 == key + i).map Prod.snd
  if found.all Option.isSome then some (leVal (found.filterMap id)) else none

/-- The choices of one instruction that the part leaves open: bit l for lane l, the n-th use (log 2). -/
def State.freeBit (s : State) (l : Nat) : Bool := bit (Config.freeNat s.freeCtr) l

/-- The read-only cache serves reads of a page: a read-only page of a type that R161 lets be cached (16 R339). -/
def TlbEntry.roServed (e : TlbEntry) : Bool := e.ro && !orderedType e.mt

/-- The value that a load gets at once: for a relaxed load its lane's own store not yet performed, or a word its cache owns or
holds a copy of; for a load of any ordering, a word of the read-only cache (08 R184 items 2 and 6, R187; 16 R339). A free
choice may pass it by: lines leave caches at times that are not stated. -/
def State.localVal (s : State) (th : Thread) (l key n : Nat) (e : TlbEntry) (cache : Nat) (acq : Bool) : Option Nat :=
  let own := (s.stores.filter fun x => x.2.thread == th && !x.2.performed && cellsMeet x.2.cells key n).getLast?
  let unread := (s.olderOps th s.nextId).any fun x => x.2.2.val.isNone && rangesMeet key n x.2.2.key x.2.1.bytes
  let here : Option Nat := match own with
    | some x => if acq then none else cellsVal x.2.cells key n
    | none =>
      if e.roServed then s.cachedVal (roCache s.site.die (s.blk s.unitBlk).part) key n
      else if acq || e.mt == .w then none
      else s.cachedVal cache key n
  if orderedType e.mt || unread || (s.outside key && !isRemote key) then none else here.filter fun _ => s.freeBit l

/-- The clocks of the outbound trip that a right hint saves (16 R338). -/
def hintSaves (near rightHint : Bool) : Nat := if rightHint then (if near then 30 else 45) else 0

/-- The least clocks of a load from the home of an address (16 R337, R338). -/
def loadClocks (die key : Nat) (l1 rightHint : Bool) : Nat :=
  let near := nearDie die (homeDie key)
  (if near then 60 else 90) + (if l1 then 0 else 8) - hintSaves near rightHint

/-- The least clocks until a store is performed (16 R337, R338). -/
def storeClocks (die key : Nat) (rightHint : Bool := false) : Nat :=
  let near := nearDie die (homeDie key)
  (if near then 40 else 65) - hintSaves near rightHint

/-- A home-die hint is used: the access missed the L1 TLB, the page is not read-only, and lies in device memory (R338). -/
def Hit.hintUsed (h : Hit) : Bool := !h.l1 && !h.entry.ro && isDevice h.key

/-- The hint that an access uses names its home. -/
def Hit.rightHint (h : Hit) (hint : Option Nat) : Bool := h.hintUsed && hint == some (homeDie h.key)

/-- The hint is wrong for some access that uses it. -/
def wrongHint (hint : Option Nat) (hs : List Hit) : Option Nat :=
  match hint with
  | none => none
  | some d => if hs.any fun h => h.hintUsed && homeDie h.key != d then some d else none

/-- A tile of the group that has no room for one more pending write (09 R198): the instruction is held. -/
def State.pendFull (s : State) (d : Reg) (n : Nat) : Bool :=
  match s.focus with
  | .split b g _ => (List.range n).any fun i => 63 ≤ s.pend b ((s.blk b).groupTile g (d.toNat + i))
  | _ => false

/-- The executing unit waits at an instruction that has begun to take effect: it does not rotate to another path (03 R94), which
would issue the instruction again. -/
def State.holdUnit (s : State) (on : WaitOn) : State :=
  match s.focus with
  | .split b g k => s.modSpl b g k fun x => { x with wait := .blocked on s.now }
  | .comet c => s.modCtx c fun x => { x with wait := .blocked on s.now }
  | _ => s

/-- The executing unit waits for a host or remote access. -/
def State.blockHost (s : State) (id : Nat) : State := s.holdUnit (.host id)

/-! ## Starting loads -/

/-- Put an operation of the executing unit in flight. A host or remote access holds the unit at the instruction, which
must be able to trap precisely (20 R414, 21 R425); otherwise the unit goes on. -/
def State.startOp (t : State) (kind : OpKind) (bytes : Nat) (d : Reg) (pair : Option PairIx) (acq ord nt : Bool)
    (cache : Nat) (hint : Option Nat) (notBefore : Nat) (acc : List Access) (hs : List Hit) : State :=
  let id := t.nextId
  let host := acc.any fun x => x.val.isNone && !isShared x.key && t.leaves kind x.key
  let o : LaneOp :=
    { blk := t.unitBlk, grp := t.unitGrp, split := t.unitSplit,
      comet := match t.focus with
        | .comet c => some c
        | _ => none,
      kind := kind, bytes := bytes, d := d, pair := pair, acq := acq, ord := ord, nt := nt, cache := cache,
      hint := hint, pc := t.pc, notBefore := notBefore, host := host, acc := acc }
  let p := t.site
  let t1 := hs.foldl (fun u h => u.useEntry p h.entry h.l1) t
  let t2 := ({ t1 with ops := t1.ops.set id o, nextId := id + 1, freeCtr := t1.freeCtr + 1 }).clearFaults p.asker
  if host then t2.blockHost id else t2.skip 4

/-- Count the L1 misses and the read-only hits of a load (17 R358). -/
def State.countLoads (t : State) (acc : List Access) : State :=
  match t.focus with
  | .split b _ _ =>
    let miss := (acc.filter fun a => a.val.isNone && a.mt == .n && !a.ro && !isShared a.key).length
    let ro := (acc.filter fun a => a.val.isSome && a.ro).length
    (t.count (t.blk b).core 3 miss).count (t.blk b).core 7 ro
  | _ => t

/-- The accesses of a load to global memory, with the values got at once. -/
def State.loadAccesses (t : State) (hs : List Hit) (n : Nat) (acq : Bool) (cache : Nat) : List Access :=
  hs.map fun h =>
    let sync := acq || h.entry.mt == .s
    { lane := h.lane, ea := BitVec.ofNat 64 h.va, key := h.key, mt := h.entry.mt, ro := h.entry.ro, opnds := [],
      after := 0, fwd := false, val := t.localVal (t.threadOf h.lane) h.lane h.key n h.entry cache sync }

/-- The clock before which a load of these accesses does not complete. -/
def State.loadAt (t : State) (hs : List Hit) (acc : List Access) (hint : Option Nat) : Nat :=
  let die := t.site.die
  (List.zip hs acc).foldl (fun m x =>
    let c := if x.2.val.isSome then (if x.2.ro then 24 + (if x.1.l1 then 0 else 8) else 0)
      else if isDevice x.1.key then loadClocks die x.1.key x.1.l1 (x.1.rightHint hint)
      else if isRemote x.1.key then remoteClocks false x.1.key else 0
    max m (t.now + c)) t.now

/-- The lanes that got values at once have read those words: their other caches drop them (08 R184 item 3). -/
def State.noteReads (t : State) (n cache : Nat) (acc : List Access) : State :=
  (acc.filter fun a => a.val.isSome && !a.ro && !isShared a.key).foldl (fun u a =>
    u.dropOthers (t.threadOf a.lane) (some cache) (wordsOf a.key n)) t

/-- A global load of the executing lanes (R155, R156, R158). -/
def loadRun (i : Instr) (g : Pred) (d : Reg) (n : Nat) (acq nt : Bool) (hint : Option Nat) (ea : State → Nat → Dword)
    (s : State) : Out :=
  laneRun i g s fun t =>
    let ls := lanesOf (t.exec g)
    if ls = [] then .next (t.skip 4)
    else if t.anyAcquiring ls || t.pendFull d ((n + 3) / 4) then .next t
    else
      match t.checkGlobal ls n (ea t) with
      | some u => .next u
      | none =>
        match t.translatePieces .load false (fun _ => false) (piecesOf ls (ea t)) with
        | .stop u => .next u
        | .ok hs =>
          match t.poisonTrap hs n with
          | some u => .next u
          | none =>
            let acc := t.loadAccesses hs n acq t.unitCache
            .next (((t.noteReads n t.unitCache acc).countLoads acc).startOp .load n d none acq false nt t.unitCache
              (wrongHint hint hs) (t.loadAt hs acc hint) acc hs)

/-! ## Starting stores -/

/-- The low `n` bytes of the registers from D of a lane. -/
def State.regBytes (s : State) (d : Reg) (l n : Nat) : List Byte :=
  ((List.range ((n + 3) / 4)).flatMap fun i => leBytes 4 (s.rdV (d.toNat + i) l).toNat).take n

/-- The bound before which a store or atomic of a lane waits for its lane's earlier accesses: its own number for a
release, else the last release fence of the lane (08 R180, R181). -/
def State.bound (s : State) (l : Nat) (rel : Bool) (id : Nat) : Nat :=
  if rel then id else ((s.grp s.unitBlk s.unitGrp).relBound).getD l 0

/-- Put a store in flight; one that belongs to no instruction's list stands alone. -/
def State.addStore (t : State) (x : StoreOp) : State :=
  { t with stores := t.stores.set t.nextId { x with inst := if x.inst = 0 then t.nextId + 1 else x.inst },
           nextId := t.nextId + 1 }

/-- The flags of a store: release, non-temporal, its hint. -/
structure StoreFlags where
  rel : Bool := false
  nt : Bool := false
  hint : Option Nat := none
  deriving DecidableEq, Repr

/-- The store of one lane's hit. -/
def State.storeOf (t : State) (d : Reg) (n : Nat) (f : StoreFlags) (cache : Nat) (stash : Option Nat) (h : Hit) (id : Nat) :
    StoreOp :=
  { thread := t.threadOf h.lane, blk := t.unitBlk, cache := cache, cells := cellsAt h.key (t.regBytes d h.lane n),
    shared := none, stash := stash, mt := h.entry.mt, after := t.bound h.lane (f.rel || h.entry.mt == .s) id,
    notBefore := if isDevice h.key then t.now + storeClocks t.site.die h.key (h.rightHint f.hint)
      else if isRemote h.key then t.now + remoteClocks true h.key else t.now,
    performed := false,
    host := t.outside h.key, vf := (t.blk t.unitBlk).vf, frame := some (h.entry.frame h.va), ea := h.ea,
    inst := t.nextId + 1, rel := f.rel, nt := f.nt && !orderedType h.entry.mt,
    hint := wrongHint f.hint [h] }

/-- The stores of an instruction go out, one for each lane; those to the host or another package hold the unit (20 R414). -/
def State.startStores (t : State) (d : Reg) (n : Nat) (f : StoreFlags) (cache : Nat) (stash : Hit → Option Nat)
    (hs : List Hit) : State :=
  let p := t.site
  let t1 := hs.foldl (fun u h => (u.useEntry p h.entry h.l1).setDirty h.entry) t
  hs.foldl (fun u h => u.addStore (t.storeOf d n f cache (stash h) h u.nextId)) (t1.clearFaults p.asker)

/-- The unit goes on, or waits for its host and remote stores. -/
def State.afterStores (t : State) (first : Nat) : State :=
  match (t.stores.filter fun x => decide (first ≤ x.1) && x.2.host).head? with
  | some x => t.blockHost x.1
  | none => t.skip 4

/-- A global store of the executing lanes (R155, R156, R158-R160). -/
def storeRun (i : Instr) (g : Pred) (d : Reg) (n : Nat) (rel nt : Bool) (hint : Option Nat) (ea : State → Nat → Dword)
    (s : State) : Out :=
  laneRun i g s fun t =>
    let ls := lanesOf (t.exec g)
    if ls = [] then .next (t.skip 4)
    else if t.anyAcquiring ls then .next t
    else
      match t.checkGlobal ls n (ea t) with
      | some u => .next u
      | none =>
        match t.translatePieces .store true (fun _ => false) (piecesOf ls (ea t)) with
        | .stop u => .next u
        | .ok hs =>
          .next ((t.startStores d n { rel := rel, nt := nt, hint := hint } t.unitCache (fun _ => none) hs).afterStores
            t.nextId)

/-- The effective address of the register form. -/
def eaReg (a : Reg) (t : State) (l : Nat) : Dword := t.rdVPair a.toNat l
/-- The effective address of global format M (R155). -/
def eaImm (a : Reg) (imm : BitVec 10) (size : Nat) (t : State) (l : Nat) : Dword :=
  t.rdVPair a.toNat l + imm.signExtend 64 * BitVec.ofNat 64 size

/-- LD, register form (R157, R158). -/
def execLd (g : Pred) (d a : Reg) (w : MWidth) (r : MOrd) (hint : Option (BitVec 3)) (s : State) : Out :=
  loadRun (.ld g d a w r hint) g d (widthBytes w) (r == .sync) (r == .nt) (hint.map BitVec.toNat) (eaReg a) s

/-- ST, register form. -/
def execSt (g : Pred) (d a : Reg) (w : MWidth) (r : MOrd) (hint : Option (BitVec 3)) (s : State) : Out :=
  storeRun (.st g d a w r hint) g d (widthBytes w) (r == .sync) (r == .nt) (hint.map BitVec.toNat) (eaReg a) s

/-- LD.W, format M. -/
def execLdW (g : Pred) (d a : Reg) (imm : BitVec 10) (s : State) : Out :=
  loadRun (.ldW g d a imm) g d 4 false false none (eaImm a imm 4) s
/-- LD.D, format M. -/
def execLdD (g : Pred) (d a : Reg) (imm : BitVec 10) (s : State) : Out :=
  loadRun (.ldD g d a imm) g d 8 false false none (eaImm a imm 8) s
/-- LD.Q, format M. -/
def execLdQ (g : Pred) (d a : Reg) (imm : BitVec 10) (s : State) : Out :=
  loadRun (.ldQ g d a imm) g d 16 false false none (eaImm a imm 16) s
/-- ST.W, format M. -/
def execStW (g : Pred) (d a : Reg) (imm : BitVec 10) (s : State) : Out :=
  storeRun (.stW g d a imm) g d 4 false false none (eaImm a imm 4) s
/-- ST.D, format M. -/
def execStD (g : Pred) (d a : Reg) (imm : BitVec 10) (s : State) : Out :=
  storeRun (.stD g d a imm) g d 8 false false none (eaImm a imm 8) s
/-- ST.Q, format M. -/
def execStQ (g : Pred) (d a : Reg) (imm : BitVec 10) (s : State) : Out :=
  storeRun (.stQ g d a imm) g d 16 false false none (eaImm a imm 16) s

/-! ## Core-local accesses (07 R154, R163; 14 R295, R296) -/

/-- The regions of the core-local space: shared memory of a block at an offset, or a stash window. -/
inductive Region
  | shared (home off : Nat)
  | stash (w off : Nat)
  deriving DecidableEq, Repr

/-- The member of a block's cluster on a cluster core index. -/
def State.memberOn (s : State) (b c : Nat) : Option Nat :=
  match s.clusterGang b with
  | some (_, q) => q.members.find? fun m => s.memberIx m == c && (s.blk m).phase == .resident
  | none => none

/-- The region of a core-local access of `n` bytes (R154, R295); none: nothing is there. -/
def State.region (s : State) (b addr n : Nat) : Option Region :=
  if addr + n ≤ (s.blk b).node.shared then some (.shared b addr)
  else if 0x40000000 ≤ addr ∧ addr < 0x40000000 + 16 * 0x80000 then
    let c := (addr - 0x40000000) / 0x80000
    let off := (addr - 0x40000000) % 0x80000
    match s.memberOn b c with
    | some m => if off + n ≤ (s.blk m).node.shared then some (.shared m off) else none
    | none => none
  else if 0x80000000 ≤ addr ∧ (addr - 0x80000000) / 4096 < (s.blk b).node.stash / 4096 ∧ addr % 4096 + n ≤ 4096 then
    some (.stash ((addr - 0x80000000) / 4096) (addr % 4096))
  else none

/-- What a stash window maps, 0 for nothing. -/
def Block.winMaps (b : Block) (w : Nat) : Nat := (b.stash.getD w default).maps

/-- The die of the executing unit and that of the block that holds shared memory decide the least clocks of a load and
of a store (09 R206, 14 R296). -/
def State.sharedClocks (s : State) (home : Nat) : Nat × Nat :=
  if (s.blk home).die ≠ s.site.die then (30, 20) else if home = s.unitBlk then (6, 3) else (12, 8)

/-- Extra clocks of bank conflicts (09 R206): words of one bank beyond the first. -/
def bankConflicts (ks : List Nat) : Nat :=
  let ws := dedupN ks
  (List.range 64).foldl (fun m b => max m ((ws.filter fun w => w % 64 == b).length - 1)) 0

/-- The regions of the executing lanes after steps 1-3 of R156; or the trap. -/
def State.checkLocal (t : State) (ls : List Nat) (n : Nat) (ea : Nat → Word) : State ⊕ (Nat → Option Region) :=
  let b := t.unitBlk
  let reg := fun l => t.region b (ea l).toNat n
  let info := fun l => (ea l).setWidth 64
  match failOf ls fun l => if (ea l).toNat % n ≠ 0 then some 0x36 else none with
  | some (c, m) => .inl (t.trapWith c m (info (lowestLane m)))
  | none =>
    match failOf ls fun l => if (reg l).isNone then some 0x38 else none with
    | some (c, m) => .inl (t.trapWith c m (info (lowestLane m)))
    | none =>
      match failOf ls fun l => match reg l with
        | some (.stash w _) => if (t.blk b).winMaps w = 0 then some 0x39 else none
        | _ => none with
      | some (c, m) => .inl (t.trapWith c m (info (lowestLane m)))
      | none => .inr reg

/-- The pieces of the lanes that touch a stash window: the global address that the window maps (R163). -/
def State.stashPieces (t : State) (ls : List Nat) (reg : Nat → Option Region) : List Piece :=
  ls.filterMap fun l => match reg l with
    | some (.stash w o) =>
      let va := (t.blk t.unitBlk).winMaps w + o
      some { lane := l, ea := BitVec.ofNat 64 va, va := va }
    | _ => none

/-- Only pages of type N may be mapped by a stash window (R161). -/
def notNormal : MemType → Bool
  | .n => false
  | _ => true

/-- The poisoned-data trap of LDS: shared memory by its core-local address, a stash window by the global one (07 R156). -/
def State.poisonLocal (t : State) (hs : List Hit) (near : List Access) (n : Nat) : Option State :=
  let bad := sortN ((hs.filter fun h => t.poisoned h.key n).map (·.lane) ++
    (near.filter fun a => t.poisoned a.key n).map (·.lane))
  match bad with
  | [] => none
  | l :: _ =>
    let info := match hs.find? fun h => h.lane == l with
      | some h => h.ea
      | none => ((near.find? fun a => a.lane == l).map (·.ea)).getD 0
    some (t.trapWith 0x3C (maskOfList bad) info)

/-- LDS (R157, R158, R163). -/
def ldsRun (i : Instr) (g : Pred) (d : Reg) (n : Nat) (acq : Bool) (ea : State → Nat → Word) (s : State) : Out :=
  laneRun i g s fun t =>
    let ls := lanesOf (t.exec g)
    if ls = [] then .next (t.skip 4)
    else if t.anyAcquiring ls || t.pendFull d ((n + 3) / 4) then .next t
    else
      match t.checkLocal ls n (ea t) with
      | .inl u => .next u
      | .inr reg =>
        match t.translatePieces .load false notNormal (t.stashPieces ls reg) with
        | .stop u => .next u
        | .ok hs =>
          let near := ls.filterMap fun l => match reg l with
            | some (.shared home off) =>
              some ({ lane := l, ea := (ea t l).setWidth 64, key := sharedKey home off, mt := .n, ro := false,
                      opnds := [], after := 0, fwd := false, val := none } : Access)
            | _ => none
          match t.poisonLocal hs near n with
          | some u => .next u
          | none =>
            let cache := stashCache t.unitBlk
            let far := t.loadAccesses hs n acq cache
            let clash := bankConflicts (near.filterMap fun a =>
              if sharedHome a.key = t.unitBlk then some (sharedOff a.key / 4) else none)
            let at_ := near.foldl (fun m a => max m (t.now + (t.sharedClocks (sharedHome a.key)).1 + clash))
              (t.loadAt hs far none)
            .next ((((t.noteReads n cache far).countLoads far).count (t.blk t.unitBlk).core 5 clash).startOp .load n d none
              acq false false cache none at_ (far ++ near) hs)

/-- The stores of lanes to shared memory. -/
def State.sharedStores (t : State) (d : Reg) (n : Nat) (rel : Bool) (ls : List Nat) (reg : Nat → Option Region) : State :=
  let xs := ls.filterMap fun l => match reg l with
    | some (.shared home off) => some (l, home, sharedKey home off)
    | _ => none
  let clash := bankConflicts (xs.filterMap fun x => if x.2.1 = t.unitBlk then some (sharedOff x.2.2 / 4) else none)
  xs.foldl (fun u x => u.addStore
    { thread := t.threadOf x.1, blk := t.unitBlk, cache := 0, cells := cellsAt x.2.2 (t.regBytes d x.1 n),
      shared := some x.2.1, stash := none, mt := .n, after := t.bound x.1 rel u.nextId,
      notBefore := t.now + (t.sharedClocks x.2.1).2 + clash, performed := false, host := false, vf := 0, frame := none,
      inst := t.nextId + 1, rel := rel })
    (t.count (t.blk t.unitBlk).core 5 clash)

/-- STS. -/
def stsRun (i : Instr) (g : Pred) (d : Reg) (n : Nat) (rel : Bool) (ea : State → Nat → Word) (s : State) : Out :=
  laneRun i g s fun t =>
    let ls := lanesOf (t.exec g)
    if ls = [] then .next (t.skip 4)
    else if t.anyAcquiring ls then .next t
    else
      match t.checkLocal ls n (ea t) with
      | .inl u => .next u
      | .inr reg =>
        match t.translatePieces .store true notNormal (t.stashPieces ls reg) with
        | .stop u => .next u
        | .ok hs =>
          let b := t.unitBlk
          let win := fun h : Hit => match reg h.lane with
            | some (.stash w _) => some w
            | _ => none
          let u := t.sharedStores d n rel ls reg
          .next ((u.startStores d n { rel := rel } (stashCache b) win hs).afterStores t.nextId)

/-- The core-local address of the register form. -/
def laReg (a : Reg) (t : State) (l : Nat) : Word := t.rdV a.toNat l
/-- The core-local address of format M (R155). -/
def laImm (a : Reg) (imm : BitVec 10) (t : State) (l : Nat) : Word := t.rdV a.toNat l + imm.signExtend 32 * 4

/-- LDS, register form. -/
def execLds (g : Pred) (d a : Reg) (w : MWidth) (r : Bool) (s : State) : Out :=
  ldsRun (.lds g d a w r) g d (widthBytes w) r (laReg a) s
/-- STS, register form. -/
def execSts (g : Pred) (d a : Reg) (w : MWidth) (r : Bool) (s : State) : Out :=
  stsRun (.sts g d a w r) g d (widthBytes w) r (laReg a) s
/-- LDS.W, format M. -/
def execLdsW (g : Pred) (d a : Reg) (imm : BitVec 10) (s : State) : Out :=
  ldsRun (.ldsW g d a imm) g d 4 false (laImm a imm) s
/-- STS.W, format M. -/
def execStsW (g : Pred) (d a : Reg) (imm : BitVec 10) (s : State) : Out :=
  stsRun (.stsW g d a imm) g d 4 false (laImm a imm) s

/-! ## SMAP (07 R162-R165) -/

/-- Write a stash window back and empty it: its words are at home, and the stash holds none of them (R162). -/
def State.writeBackWin (s : State) (b w : Nat) : State :=
  { s with owners := s.owners.keep fun _ o => !(o.cache == stashCache b && o.stash == some w),
           copies := s.copies.erase (stashCache b) }

/-- The lanes whose SMAP would alias: the region is mapped by another window, or another lane maps it to another window
(R164). -/
def State.smapAlias (t : State) (ls : List Nat) (win glob : Nat → Nat) (l : Nat) : Bool :=
  glob l != 0 &&
  ((t.blk t.unitBlk).stash.any (fun e => e.1 != win l && e.2.maps == glob l) ||
   ls.any fun j => j != l && glob j == glob l && win j != win l)

/-- One lane's SMAP: the old mapping, then the new one. -/
def State.smapLane (t : State) (d : Reg) (l w g : Nat) : State :=
  let b := t.unitBlk
  let old := (t.blk b).winMaps w
  ((t.writeBackWin b w).modBlk b fun x => { x with stash := x.stash.set w { maps := g } }).wrVPair d.toNat l
    (BitVec.ofNat 64 old)

/-- SMAP. -/
def execSmap (g : Pred) (d a b : Reg) (s : State) : Out :=
  laneRun (.smap g d a b) g s fun t =>
    let ls := lanesOf (t.exec g)
    let ea := fun l => t.rdVPair a.toNat l
    let win := fun l => (t.rdV b.toNat l).toNat
    let trap := fun f : Option (Nat × Mask) => f.map fun x => t.trapWith x.1 x.2 (ea (lowestLane x.2))
    if t.anyAcquiring ls then .next t
    else
      match trap (failOf ls fun l => if (ea l).toNat % 4096 ≠ 0 then some 0x36 else none) with
      | some u => .next u
      | none =>
        match trap (failOf ls fun l => if 2 ^ 52 ≤ (ea l).toNat then some 0x37
            else if t.unitNode.stash / 4096 ≤ win l then some 0x38 else none) with
        | some u => .next u
        | none =>
          match trap (failOf ls fun l => if t.smapAlias ls win (fun j => (ea j).toNat) l then some 0x3A else none) with
          | some u => .next u
          | none =>
            if t.stores.vals.any fun x => x.stash.isSome && !x.performed && ls.any fun l => x.thread == t.threadOf l then
              .next t
            else .next ((t.putLanes ls fun u l => u.smapLane d l (win l) (ea l).toNat).skip 4)

/-! ## Prefetch and fences (07 R166, R167) -/

/-- PREF of one lane: a line of an N page that its TLBs translate comes into the cache; anything else prefetches
nothing. -/
def State.prefLane (t u : State) (a : Reg) (l : Nat) : State :=
  let va := (t.rdVPair a.toNat l).toNat
  let p := t.site
  if 2 ^ 52 ≤ va then u
  else
    match t.resolve p .load false va with
    | .ok e _ =>
      if e.mt != .n || t.outside (e.key va) || !t.freeBit l then u
      else u.fillLine (if e.ro then roCache p.die (t.blk p.blk).part else t.unitCache) (e.key va)
    | _ => u

/-- PREF: no effect but on which copies a cache holds; it traps only under R46. -/
def execPref (g : Pred) (a : Reg) (s : State) : Out :=
  laneRun (.pref g a) g s fun t =>
    .next (((t.putLanes (lanesOf (t.exec g)) fun u l => t.prefLane u a l).tickFree).skip 4)

/-- A release fence of some lanes: their later stores and atomics wait for what came before it (08 R181). -/
def State.fenceRel (t : State) (ls : List Nat) : State :=
  t.modGrp t.unitBlk t.unitGrp fun x => { x with relBound := ls.foldl (fun m l => m.set l t.nextId) x.relBound }

/-- A lane has a load or an atomic in flight. -/
def State.loading (s : State) (b g l : Nat) : Bool :=
  s.ops.vals.any fun o => o.blk == b && o.grp == g && o.acc.any (·.lane == l)

/-- FENCE.REL (R167): a release side, which waits until every earlier access of its lanes is performed (08 R180); their W
stores drain with it (R161). -/
def execFenceRel (g : Pred) (s : State) : Out :=
  laneRun (.fenceRel g) g s fun t =>
    let ls := lanesOf (t.exec g)
    if t.anyBusy ls then .next t else .next ((t.fenceRel ls).skip 4)

/-- FENCE.ACQ: once the lanes' earlier loads have returned, the core self-invalidates (08 R181, R188). -/
def execFenceAcq (g : Pred) (s : State) : Out :=
  laneRun (.fenceAcq g) g s fun t =>
    let ls := lanesOf (t.exec g)
    if ls = [] then .next (t.skip 4)
    else if ls.any fun l => t.loading t.unitBlk t.unitGrp l then .next t
    else .next (t.acquireUnit.skip 4)

/-- FENCE.AR: a release fence followed by an acquire fence. -/
def execFenceAr (g : Pred) (s : State) : Out :=
  laneRun (.fenceAr g) g s fun t =>
    let ls := lanesOf (t.exec g)
    if ls = [] then .next (t.skip 4)
    else if t.anyBusy ls then .next t
    else .next ((t.fenceRel ls).acquireUnit.skip 4)

end Sys2Proof.Machine
end

