-- ==== Sys2Proof/Machine/Atomic.lean ====
section
/-!
DEFINITION. Machine/Atomic.lean: atomics and WAITC (spec/07_lane_memory.md R168-R176).
-/

set_option linter.constructorNameAsVariable false

namespace Sys2Proof.Machine

/-! ## The operations (07 R170) -/

/-- The new value of an atomic of `n` bytes from the old value and the operands. -/
def atomNew (f : AtomFn) (n old : Nat) (ops : List Nat) : Nat :=
  let v := ops.getD 0 0
  let b := ops.getD 1 0
  match f with
  | .add => (old + v) % 2 ^ (8 * n)
  | .minS => if sgnN (8 * n) v < sgnN (8 * n) old then v else old
  | .minZ => min old v
  | .maxS => if sgnN (8 * n) old < sgnN (8 * n) v then v else old
  | .maxZ => max old v
  | .and => old &&& v
  | .or => old ||| v
  | .xor => old ^^^ v
  | .exch => v
  | .incw => if v ≤ old then 0 else old + 1
  | .decw => if old = 0 ∨ v < old then v else old - 1
  | .addb => if old ≤ b then min (old + v) b else old
  | .cas => if old = v then b else old

/-- The word and the monitored types that W and D pages forbid to atomics and WAITC (R161). -/
def noAtomics : MemType → Bool
  | .w => true
  | .d => true
  | _ => false

/-- The value of `n` bytes of registers from register r of a lane. -/
def State.regNum (s : State) (r l n : Nat) : Nat :=
  leVal ((List.range ((n + 3) / 4)).flatMap fun i => leBytes 4 (s.rdV (r + i) l).toNat) % 2 ^ (8 * n)

/-- The operands of one lane: v; v and the bound for ADDB; the expected and the new value for CAS (R168, R170). -/
def State.atomOperands (s : State) (f : AtomFn) (d : Reg) (l n : Nat) : List Nat :=
  match f with
  | .addb => [s.regNum d.toNat l 4, s.regNum (d.toNat + 1) l 4]
  | .cas => [s.regNum d.toNat l n, s.regNum (d.toNat + n / 4) l n]
  | _ => [s.regNum d.toNat l n]

/-- A 128-bit CAS to host memory that the root port does not complete (20 R414). -/
def State.cas128Trap (t : State) (f : AtomFn) (n : Nat) (hs : List Hit) : Option State :=
  if f != .cas || n != 16 || t.hostcap then none
  else
    match hs.filter fun h => isHost h.key with
    | [] => none
    | h :: r => some (t.trapWith 0xA2 (maskOfList ((h :: r).map (·.lane))) h.ea)

/-- An atomic of the executing lanes (R156, R169): its home steps and the landing follow as steps of the memory path. -/
def atomRun (i : Instr) (g : Pred) (d a : Reg) (f : AtomFn) (n : Nat) (fl : AtomFlags) (pair : Option PairIx)
    (s : State) : Out :=
  laneRun i g s fun t =>
    let ls := lanesOf (t.exec g)
    if ls = [] then .next (t.skip 4)
    else if t.anyAcquiring ls || t.pendFull d ((n + 3) / 4) then .next t
    else
      match t.checkGlobal ls n (eaReg a t) with
      | some u => .next u
      | none =>
        match t.translatePieces .store true noAtomics (piecesOf ls (eaReg a t)) with
        | .stop u => .next u
        | .ok hs =>
          match t.poisonTrap hs n with
          | some u => .next u
          | none =>
            match t.cas128Trap f n hs with
            | some u => .next u
            | none =>
              let acc := hs.map fun h =>
                ({ lane := h.lane, ea := h.ea, key := h.key, mt := h.entry.mt, ro := h.entry.ro,
                   opnds := t.atomOperands f d h.lane n,
                   after := t.bound h.lane (fl.rel || h.entry.mt == .s) t.nextId, fwd := false, val := none,
                   frame := some (h.entry.frame h.va) } : Access)
              let u := hs.foldl (fun x h => x.setDirty h.entry) t
              .next (u.startOp (.atomic f) n d pair fl.acq fl.ord false t.unitCache none
                (acc.foldl (fun m x => if isRemote x.key then max m (t.now + remoteClocks false x.key) else m) t.now) acc hs)

/-- Bytes of the 32- or 64-bit form. -/
def wBytes (w : Bool) : Nat := if w then 8 else 4

/-- ATOM.ADD (R170). -/
def execAtomAdd (g : Pred) (d a : Reg) (f : AtomFlags) (w : Bool) (s : State) : Out :=
  atomRun (.atomAdd g d a f w) g d a .add (wBytes w) f none s
/-- ATOM.MIN, signed. -/
def execAtomMinS (g : Pred) (d a : Reg) (f : AtomFlags) (w : Bool) (s : State) : Out :=
  atomRun (.atomMinS g d a f w) g d a .minS (wBytes w) f none s
/-- ATOM.MIN, unsigned. -/
def execAtomMinZ (g : Pred) (d a : Reg) (f : AtomFlags) (w : Bool) (s : State) : Out :=
  atomRun (.atomMinZ g d a f w) g d a .minZ (wBytes w) f none s
/-- ATOM.MAX, signed. -/
def execAtomMaxS (g : Pred) (d a : Reg) (f : AtomFlags) (w : Bool) (s : State) : Out :=
  atomRun (.atomMaxS g d a f w) g d a .maxS (wBytes w) f none s
/-- ATOM.MAX, unsigned. -/
def execAtomMaxZ (g : Pred) (d a : Reg) (f : AtomFlags) (w : Bool) (s : State) : Out :=
  atomRun (.atomMaxZ g d a f w) g d a .maxZ (wBytes w) f none s
/-- ATOM.AND. -/
def execAtomAnd (g : Pred) (d a : Reg) (f : AtomFlags) (w : Bool) (s : State) : Out :=
  atomRun (.atomAnd g d a f w) g d a .and (wBytes w) f none s
/-- ATOM.OR. -/
def execAtomOr (g : Pred) (d a : Reg) (f : AtomFlags) (w : Bool) (s : State) : Out :=
  atomRun (.atomOr g d a f w) g d a .or (wBytes w) f none s
/-- ATOM.XOR. -/
def execAtomXor (g : Pred) (d a : Reg) (f : AtomFlags) (w : Bool) (s : State) : Out :=
  atomRun (.atomXor g d a f w) g d a .xor (wBytes w) f none s
/-- ATOM.EXCH. -/
def execAtomExch (g : Pred) (d a : Reg) (f : AtomFlags) (w : Bool) (s : State) : Out :=
  atomRun (.atomExch g d a f w) g d a .exch (wBytes w) f none s
/-- INCW. -/
def execIncw (g : Pred) (d a : Reg) (f : AtomFlags) (s : State) : Out :=
  atomRun (.incw g d a f) g d a .incw 4 f none s
/-- DECW. -/
def execDecw (g : Pred) (d a : Reg) (f : AtomFlags) (s : State) : Out :=
  atomRun (.decw g d a f) g d a .decw 4 f none s
/-- ATOM.ADDB: the bounded addition, whose pair tells of a word above the bound. -/
def execAtomAddb (g : Pred) (d a : Reg) (f : AtomFlags) (k : PairIx) (s : State) : Out :=
  atomRun (.atomAddb g d a f k) g d a .addb 4 f (some k) s
/-- ATOM.CAS.W. -/
def execAtomCasW (g : Pred) (d a : Reg) (f : AtomFlags) (s : State) : Out :=
  atomRun (.atomCasW g d a f) g d a .cas 4 f none s
/-- ATOM.CAS.D. -/
def execAtomCasD (g : Pred) (d a : Reg) (f : AtomFlags) (s : State) : Out :=
  atomRun (.atomCasD g d a f) g d a .cas 8 f none s
/-- ATOM.CAS.Q. -/
def execAtomCasQ (g : Pred) (d a : Reg) (f : AtomFlags) (s : State) : Out :=
  atomRun (.atomCasQ g d a f) g d a .cas 16 f none s

/-- The accesses of an instruction to some keys, so many bytes each, wait: for the block of a migration (18 R381), for completions
from outside the package, for their memory channels (20 R409). -/
def State.accessStop (t : State) (k : OutKind) (n : Nat) (hs : List Hit) : Option State :=
  if hs.any fun h => t.pageHeld h.key then some t
  else (t.outsideStop k n hs).orElse fun _ => t.channelStop (hs.map Hit.key)

/-! ## WAITC (07 R174-R176, 18 R379) -/

/-- The comet context of the executing unit. -/
def State.unitComet (s : State) : Option Nat :=
  match s.focus with
  | .comet c => some c
  | _ => none

/-- A monitor belongs to the WAITC at which the executing unit stands. -/
def State.ownsMonitor (s : State) (m : Monitor) : Bool :=
  m.blk == s.unitBlk && m.grp == s.unitGrp && m.comet == s.unitComet && m.pc == s.pc && m.lanes == s.lanes

/-- Release the monitors of the WAITC at which the executing unit stands. -/
def State.releaseMonitors (s : State) : State := { s with monitors := s.monitors.keep fun _ m => !s.ownsMonitor m }

/-- The quota of a partition on a memory die: 192 at reset (18 R379). -/
def State.quota (s : State) (die p : Nat) : Nat := s.monq.getD (32 * die + p) 192
/-- The monitors that a partition holds on a die: MONUSE. -/
def State.monUse (s : State) (die p : Nat) : Nat :=
  (s.monitors.filter fun e => e.2.die == die && e.2.part == p && !e.2.poll).length
/-- The shared monitors in use on a die. -/
def State.monTotal (s : State) (die : Nat) : Nat := (s.monitors.filter fun e => e.2.die == die && !e.2.poll).length

/-- Arm a monitor on a word, whose line its home slice then keeps (18 R377), or poll it where none can be armed (R176). -/
def State.arm (t : State) (key n : Nat) (c : WCmp) (v : Nat) : State :=
  let die := homeDie key
  let p := (t.blk t.unitBlk).part
  let ok := isDevice key && decide (t.monUse die p < t.quota die p) && decide (t.monTotal die < 3840)
  let u := if ok then t.touchLine (t.blk t.unitBlk).vf false true key else t
  { u with monitors := t.monitors.set t.nextId
             { die := die, key := key, bytes := n, cmp := c, value := v, blk := t.unitBlk, grp := t.unitGrp,
               lanes := t.lanes, comet := t.unitComet, pc := t.pc, part := p, poll := !ok, fired := false,
               armed := t.now },
           nextId := t.nextId + 1 }

/-- Arm one monitor for each distinct word and value of a WAITC. -/
def State.armAll (t : State) (n : Nat) (c : WCmp) (xs : List (Nat × Nat)) : State :=
  xs.foldl (fun u x => if u.monitors.any fun e => u.ownsMonitor e.2 && e.2.key == x.1 && e.2.value == x.2
    then u else u.arm x.1 n c x.2) t.releaseMonitors

/-- Whether a WAITC of these hits is satisfied: every lane's comparison holds for the words at their homes (R175). -/
def State.waitHolds (t : State) (hs : List Hit) (d : Reg) (n : Nat) (c : WCmp) : Bool :=
  hs.all fun h => cmpHolds c n (t.mem.read h.key n) (t.regNum d.toNat h.lane n)

/-- WAITC: one evaluation; satisfied in every executing lane, it ends as acquire loads, and otherwise the unit waits. On an S
page it is a release, too (07 R161). -/
def execWaitc (g : Pred) (d a : Reg) (w : Bool) (c : WCmp) (s : State) : Out :=
  laneRun (.waitc g d a w c) g s fun t =>
    let ls := lanesOf (t.exec g)
    let n := wBytes w
    if ls = [] then .next (t.skip 4)
    else if t.anyAcquiring ls then .next t
    else
      match t.checkGlobal ls n (eaReg a t) with
      | some u => .next u
      | none =>
        match t.translatePieces .load false noAtomics (piecesOf ls (eaReg a t)) with
        | .stop u => .next u
        | .ok hs =>
          match t.poisonTrap hs n with
          | some u => .next u
          | none =>
            if !hs.all fun h => t.mayPerform (t.threadOf h.lane) t.nextId 0 h.key n h.entry.mt .load then .next t
            else if (hs.any fun h => h.entry.mt == .s) && t.anyBusy ls then .next t
            else
              match t.accessStop .read n hs with
              | some u => .next u
              | none =>
                let p := t.site
                let u := ((hs.foldl (fun x h => x.useEntry p h.entry h.l1) t).clearFaults p.asker).chargeUnit
                  (hs.map fun h => (h.key, roundUp n 32))
                if t.waitHolds hs d n c then .next (u.releaseMonitors.acquireUnit.skip 4)
                else
                  .next ((u.armAll n c (hs.map fun h => (h.key, t.regNum d.toNat h.lane n))).blockUnit (.waitc g d a w c))

end Sys2Proof.Machine
end

