-- ==== Sys2Proof/Machine/Packed.lean ====
section
/-!
DEFINITION. Machine/Packed.lean: packed integers (spec/04_lane_integer.md R109-R113).
-/

namespace Sys2Proof.Machine

/-- The bits of an element (R109). -/
def ewBits : EWidth → Nat
  | .e4 => 4
  | .e8 => 8
  | .e16 => 16

/-- Element i of width e of a register or pair read as a number, in its signedness (R109). -/
def elemVal (e : Nat) (u : Bool) (v i : Nat) : Int :=
  let x := v / 2 ^ (e * i) % 2 ^ e
  if u then (x : Int) else sgnN e x

/-- The least and greatest value of e bits in a signedness (R109). -/
def elemLo (e : Nat) (u : Bool) : Int := if u then 0 else -(2 ^ (e - 1) : Nat)
/-- The greatest value of e bits in a signedness (R109). -/
def elemHi (e : Nat) (u : Bool) : Int := if u then (2 ^ e : Nat) - 1 else (2 ^ (e - 1) : Nat) - 1

/-- The register whose elements, of e bits, are given by index (R109). -/
def packElems (e count : Nat) (f : Nat → Int) : Nat :=
  (List.range count).foldl (fun v i => v + wrapN e (f i) * 2 ^ (e * i)) 0

/-- An elementwise operation (R110): the low e bits of the result, or the result clamped. -/
def packedOp (e : EWidth) (u sat : Bool) (f : Int → Int → Int) (a b : Word) : Word :=
  let n := ewBits e
  BitVec.ofNat 32 (packElems n (32 / n) fun i =>
    let r := f (elemVal n u a.toNat i) (elemVal n u b.toNat i)
    if sat then clampI r (elemLo n u) (elemHi n u) else r)

/-- RNA of a quotient by a power of two: nearest, ties away from zero (01 R24). -/
def rnaShift (x : Int) (c : Nat) : Int :=
  let m := x.natAbs
  let q := (2 * m + 2 ^ c) / 2 ^ (c + 1)
  if x < 0 then -(q : Int) else (q : Int)

/-- PWIDEN's pair: element i of width 2e is the extended element i of b (R112). -/
def widen (e : EWidth) (u : Bool) (b : Word) : Dword :=
  let n := ewBits e
  BitVec.ofNat 64 (packElems (2 * n) (32 / n) fun i => elemVal n u b.toNat i)

/-- PNARROW: elements of width 2e divided by 2^c, rounded by RNA and clamped (R112). -/
def narrow (e : EWidth) (u : Bool) (a : Dword) (c : Nat) : Word :=
  let n := ewBits e
  BitVec.ofNat 32 (packElems n (32 / n) fun i =>
    clampI (rnaShift (elemVal (2 * n) u a.toNat i) (min c 64)) (elemLo n u) (elemHi n u))

/-- PDOT: d + the sum of the products, modulo 2^32 (R111). -/
def pdot (e : EWidth) (u : Bool) (a b d : Word) : Word :=
  let n := ewBits e
  BitVec.ofNat 32 (wrapN 32 ((List.range (32 / n)).foldl
    (fun t i => t + elemVal n u a.toNat i * elemVal n u b.toNat i) (d.toNat : Int)))

/-- PCMP: all ones in the elements for which the comparison holds (R113). -/
def pcmp (e : EWidth) (p : Nat → Bool) : Word :=
  let n := ewBits e
  BitVec.ofNat 32 (packElems n (32 / n) fun i => if p i then -1 else 0)

/-- An elementwise packed instruction. -/
def packedRun (i : Instr) (g : Pred) (d a b : Reg) (f : Word → Word → Word) (s : State) : Out :=
  laneSimple i g s (vEffect g d fun t l => f (t.rdV a.toNat l) (t.rdV b.toNat l))

/-- PADD (R110). -/
def execPadd (g : Pred) (d a b : Reg) (e : EWidth) (u sat : Bool) (s : State) : Out :=
  packedRun (.padd g d a b e u sat) g d a b (packedOp e u sat (fun x y => x + y)) s

/-- PSUB (R110). -/
def execPsub (g : Pred) (d a b : Reg) (e : EWidth) (u sat : Bool) (s : State) : Out :=
  packedRun (.psub g d a b e u sat) g d a b (packedOp e u sat (fun x y => x - y)) s

/-- PMUL (R110). -/
def execPmul (g : Pred) (d a b : Reg) (e : EWidth) (u sat : Bool) (s : State) : Out :=
  packedRun (.pmul g d a b e u sat) g d a b (packedOp e u sat (fun x y => x * y)) s

/-- PMIN (R110). -/
def execPmin (g : Pred) (d a b : Reg) (e : EWidth) (u : Bool) (s : State) : Out :=
  packedRun (.pmin g d a b e u) g d a b (packedOp e u false min) s

/-- PMAX (R110). -/
def execPmax (g : Pred) (d a b : Reg) (e : EWidth) (u : Bool) (s : State) : Out :=
  packedRun (.pmax g d a b e u) g d a b (packedOp e u false max) s

/-- PDOT (R111). -/
def execPdot (g : Pred) (d a b : Reg) (e : EWidth) (u : Bool) (s : State) : Out :=
  laneSimple (.pdot g d a b e u) g s
    (vEffect g d fun t l => pdot e u (t.rdV a.toNat l) (t.rdV b.toNat l) (t.rdV d.toNat l))

/-- PWIDEN (R112). -/
def execPwiden (g : Pred) (d b : Reg) (e : EWidth) (u : Bool) (s : State) : Out :=
  laneSimple (.pwiden g d b e u) g s fun t =>
    t.putLanes (lanesOf (t.exec g)) fun x l => x.wrVPair d.toNat l (widen e u (t.rdV b.toNat l))

/-- PNARROW (R112). -/
def execPnarrow (g : Pred) (d a b : Reg) (e : EWidth) (u : Bool) (s : State) : Out :=
  laneSimple (.pnarrow g d a b e u) g s
    (vEffect g d fun t l => narrow e u (t.rdVPair a.toNat l) (t.rdV b.toNat l).toNat)

/-- PCMP.EQ compares bits (R113). -/
def execPcmpEq (g : Pred) (d a b : Reg) (e : EWidth) (u : Bool) (s : State) : Out :=
  packedRun (.pcmpEq g d a b e u) g d a b
    (fun x y => pcmp e fun i => decide (elemVal (ewBits e) true x.toNat i = elemVal (ewBits e) true y.toNat i)) s

/-- PCMP.LT compares in the signedness of U (R113). -/
def execPcmpLt (g : Pred) (d a b : Reg) (e : EWidth) (u : Bool) (s : State) : Out :=
  packedRun (.pcmpLt g d a b e u) g d a b
    (fun x y => pcmp e fun i => decide (elemVal (ewBits e) u x.toNat i < elemVal (ewBits e) u y.toNat i)) s

end Sys2Proof.Machine
end

