-- ==== Sys2Proof/Machine/Float.lean ====
section
/-!
DEFINITION. Machine/Float.lean: the floating-point formats and the rounding helpers of spec/01_numbers.md R16-R26,
R39, and the arithmetic of spec/05_lane_float.md R119-R121. A finite value is a sign and an exact dyadic m x 2^e.
-/

namespace Sys2Proof.Machine

/-- A float value: a NaN, an infinity, or (-1)^neg x m x 2^e. -/
inductive FVal
  | nan
  | inf (neg : Bool)
  | fin (neg : Bool) (m : Nat) (e : Int)
  deriving DecidableEq, Repr

/-- How a format treats its top exponent (R16, R19): infinities and NaNs, NaN only (E4M3), or finite values only. -/
inductive TopKind
  | ieee | nanOnly | finite
  deriving DecidableEq, Repr

/-- A format: exponent and mantissa bits, bias and top exponent (R16, R19). -/
structure FFmt where
  eb : Nat
  mb : Nat
  bias : Nat
  top : TopKind
  deriving DecidableEq, Repr

/-- FP32 (R16). -/
def fFP32 : FFmt := { eb := 8, mb := 23, bias := 127, top := .ieee }
/-- FP16 (R16). -/
def fFP16 : FFmt := { eb := 5, mb := 10, bias := 15, top := .ieee }
/-- BF16 (R16). -/
def fBF16 : FFmt := { eb := 8, mb := 7, bias := 127, top := .ieee }
/-- E4M3 (R16). -/
def fE4M3 : FFmt := { eb := 4, mb := 3, bias := 7, top := .nanOnly }
/-- E5M2 (R16). -/
def fE5M2 : FFmt := { eb := 5, mb := 2, bias := 15, top := .ieee }
/-- E2M3, the MXFP6 element (R19). -/
def fE2M3 : FFmt := { eb := 2, mb := 3, bias := 1, top := .finite }
/-- E3M2, the MXFP6 element (R19). -/
def fE3M2 : FFmt := { eb := 3, mb := 2, bias := 3, top := .finite }
/-- E2M1, the MXFP4 element (R19). -/
def fE2M1 : FFmt := { eb := 2, mb := 1, bias := 1, top := .finite }

/-- The bits of a code. -/
def FFmt.width (f : FFmt) : Nat := 1 + f.eb + f.mb
/-- The sign bit of a format as a number. -/
def FFmt.signBit (f : FFmt) : Nat := 2 ^ (f.eb + f.mb)
/-- The code of the largest finite magnitude (R16). -/
def FFmt.maxCode (f : FFmt) : Nat :=
  match f.top with
  | .ieee => (2 ^ f.eb - 1) * 2 ^ f.mb - 1
  | .nanOnly => 2 ^ (f.eb + f.mb) - 2
  | .finite => 2 ^ (f.eb + f.mb) - 1
/-- The code of +infinity of a format with infinities. -/
def FFmt.infCode (f : FFmt) : Nat := (2 ^ f.eb - 1) * 2 ^ f.mb
/-- The canonical NaN (R17); +0 in a format without one. -/
def FFmt.nanCode (f : FFmt) : Nat :=
  match f.top with
  | .ieee => (2 ^ f.eb - 1) * 2 ^ f.mb + 2 ^ (f.mb - 1)
  | .nanOnly => 2 ^ (f.eb + f.mb) - 1
  | .finite => 0
/-- The exponent of the finest grid step: 1 - bias - mb. -/
def FFmt.minExp (f : FFmt) : Int := 1 - (f.bias : Int) - f.mb

/-- The value of a code (R16, R19). -/
def decodeF (f : FFmt) (w : Nat) : FVal :=
  let neg := w / f.signBit % 2 == 1
  let mag := w % f.signBit
  let ex := mag / 2 ^ f.mb
  let ma := mag % 2 ^ f.mb
  if f.top = .ieee ∧ ex = 2 ^ f.eb - 1 then (if ma = 0 then .inf neg else .nan)
  else if f.top = .nanOnly ∧ mag = f.signBit - 1 then .nan
  else if ex = 0 then .fin neg ma f.minExp
  else .fin neg (2 ^ f.mb + ma) (f.minExp + (ex : Int) - 1)

/-- The rounding modes (R23, R24). -/
inductive RMode
  | rne | rna | rz
  deriving DecidableEq, Repr

/-- m / 2^k rounded to an integer by a mode (R25). -/
def roundShift (r : RMode) (m k : Nat) : Nat :=
  let q := m / 2 ^ k
  let rem := m % 2 ^ k
  match r with
  | .rz => q
  | .rna => if 2 ^ k ≤ 2 * rem then q + 1 else q
  | .rne => if 2 ^ k < 2 * rem ∨ (2 * rem = 2 ^ k ∧ q % 2 = 1) then q + 1 else q

/-- The grid exponent of m x 2^e in a format: the step of the largest power of two at or below it, but not finer than
the format's finest step (R25). -/
def gridExp (f : FFmt) (m : Nat) (e : Int) : Int := max ((Nat.log2 m : Int) + e - f.mb) f.minExp

/-- The magnitude code of m x 2^e on the continued grid (R25), without the overflow rule: codes above `maxCode` name
the continued grid's larger values. -/
def roundMag (f : FFmt) (r : RMode) (m : Nat) (e : Int) : Nat :=
  if m = 0 then 0
  else
    let q := gridExp f m e
    let k :=
      if q ≤ e then m * 2 ^ (e - q).toNat
      else if (Nat.log2 m : Int) + 2 < q - e then 0
      else roundShift r m (q - e).toNat
    if k < 2 ^ f.mb then k else (q - f.minExp).toNat * 2 ^ f.mb + k

/-- The result of a rounding to a format: its code, and whether it overflowed, saturated or was a NaN (R26). -/
structure Rounded where
  code : Nat
  ovf : Bool
  sat : Bool
  nan : Bool
  deriving DecidableEq, Repr, Inhabited

/-- The overflow code of a magnitude (R26): infinity where the format has one, the mode is not RZ and .SAT is not
given; otherwise the largest finite value. -/
def overflowCode (f : FFmt) (r : RMode) (sat : Bool) : Nat :=
  if f.top = .ieee ∧ r ≠ .rz ∧ !sat then f.infCode else f.maxCode

/-- Round a value to a format (R17, R25, R26). -/
def encodeF (f : FFmt) (r : RMode) (sat : Bool) (v : FVal) : Rounded :=
  match v with
  | .nan => { code := f.nanCode, ovf := false, sat := false, nan := true }
  | .inf neg =>
    if f.top = .ieee ∧ !sat then
      { code := b2n neg * f.signBit + f.infCode, ovf := false, sat := false, nan := false }
    else { code := b2n neg * f.signBit + f.maxCode, ovf := true, sat := true, nan := false }
  | .fin neg m e =>
    let c := roundMag f r m e
    if c ≤ f.maxCode then { code := b2n neg * f.signBit + c, ovf := false, sat := false, nan := false }
    else
      let o := overflowCode f r sat
      { code := b2n neg * f.signBit + o, ovf := true, sat := o == f.maxCode, nan := false }

/-- The code of an arithmetic result: RNE, overflow to infinity (R23, R26). -/
def arithF (f : FFmt) (v : FVal) : Nat := (encodeF f .rne false v).code

/-! ## Exact arithmetic -/

/-- The negation of a value. -/
def FVal.neg : FVal → FVal
  | .nan => .nan
  | .inf n => .inf (!n)
  | .fin n m e => .fin (!n) m e

/-- The value is a NaN. -/
def FVal.isNan (v : FVal) : Bool := v == .nan
/-- The value is an infinity. -/
def FVal.isInf : FVal → Bool
  | .inf _ => true
  | _ => false
/-- The value is a zero. -/
def FVal.isZero : FVal → Bool
  | .fin _ m _ => m == 0
  | _ => false

/-- A signed integer from a sign and magnitude at exponent e, in steps of 2^b for b at or below e. -/
def atExp (neg : Bool) (m : Nat) (e b : Int) : Int :=
  let x : Int := (m * 2 ^ (e - b).toNat : Nat)
  if neg then -x else x

/-- The exact sum (05 R119): an exact zero is +0 except for the sum of two -0. -/
def FVal.add : FVal → FVal → FVal
  | .nan, _ => .nan
  | _, .nan => .nan
  | .inf a, .inf b => if a = b then .inf a else .nan
  | .inf a, _ => .inf a
  | _, .inf b => .inf b
  | .fin a m e, .fin b n h =>
    if m = 0 ∧ n = 0 then .fin (a && b) 0 0
    else
      let x := min (if m = 0 then h else e) (if n = 0 then e else h)
      let t := (if m = 0 then 0 else atExp a m e x) + (if n = 0 then 0 else atExp b n h x)
      .fin (decide (t < 0)) t.natAbs x

/-- The exact product (05 R119). -/
def FVal.mul : FVal → FVal → FVal
  | .nan, _ => .nan
  | _, .nan => .nan
  | .inf a, .inf b => .inf (a != b)
  | .inf a, .fin b n _ => if n = 0 then .nan else .inf (a != b)
  | .fin a m _, .inf b => if m = 0 then .nan else .inf (a != b)
  | .fin a m e, .fin b n h => .fin (a != b) (m * n) (e + h)

/-- a x b + c, exact (05 R119). -/
def FVal.fma (a b c : FVal) : FVal := (a.mul b).add c

/-- Order of two values that are not NaN: -1, 0 or 1; the zeros are equal. -/
def FVal.cmp : FVal → FVal → Int
  | .nan, _ => 0
  | _, .nan => 0
  | .inf a, .inf b => if a = b then 0 else if a then -1 else 1
  | .inf a, _ => if a then -1 else 1
  | _, .inf b => if b then 1 else -1
  | .fin a m e, .fin b n h =>
    let x := min e h
    (atExp a m e x - atExp b n h x).sign

/-- The sign of a value. -/
def FVal.isNeg : FVal → Bool
  | .nan => false
  | .inf n => n
  | .fin n _ _ => n

/-- FADD of two FP32 words (05 R118). -/
def f32add (a b : Word) : Word :=
  BitVec.ofNat 32 (arithF fFP32 ((decodeF fFP32 a.toNat).add (decodeF fFP32 b.toNat)))
/-- FSUB (05 R118). -/
def f32sub (a b : Word) : Word :=
  BitVec.ofNat 32 (arithF fFP32 ((decodeF fFP32 a.toNat).add (decodeF fFP32 b.toNat).neg))
/-- FMUL (05 R118). -/
def f32mul (a b : Word) : Word :=
  BitVec.ofNat 32 (arithF fFP32 ((decodeF fFP32 a.toNat).mul (decodeF fFP32 b.toNat)))
/-- FFMA: a x b + d, rounded once (05 R118). -/
def f32fma (a b d : Word) : Word :=
  BitVec.ofNat 32 (arithF fFP32 ((decodeF fFP32 a.toNat).fma (decodeF fFP32 b.toNat) (decodeF fFP32 d.toNat)))

/-- FMIN and FMAX (05 R120): -0 below +0; one of the operands unchanged, or the canonical NaN. -/
def f32pick (least : Bool) (a b : Word) : Word :=
  let x := decodeF fFP32 a.toNat
  let y := decodeF fFP32 b.toNat
  if x.isNan ∧ y.isNan then 0x7FC00000
  else if x.isNan then b
  else if y.isNan then a
  else
    let c := x.cmp y
    let aFirst := if c = 0 then x.isNeg || !y.isNeg else decide (c < 0)
    if aFirst = least then a else b

/-- FMIN (05 R120). -/
def f32min (a b : Word) : Word := f32pick true a b
/-- FMAX (05 R120). -/
def f32max (a b : Word) : Word := f32pick false a b

/-- FCLASS (05 R121). -/
def f32class (a : Word) : Word :=
  let mag := a.toNat % 2 ^ 31
  let neg := 2 ^ 31 ≤ a.toNat
  let i :=
    if 0x7F800000 < mag then (if bit mag 22 then 9 else 8)
    else if mag = 0x7F800000 then (if neg then 0 else 7)
    else if mag = 0 then (if neg then 3 else 4)
    else if mag < 2 ^ 23 then (if neg then 2 else 5)
    else (if neg then 1 else 6)
  BitVec.ofNat 32 (2 ^ i)

/-- A packed fused multiply-add of two 16-bit elements (05 R122). -/
def packedFma (f : FFmt) (a b d : Word) : Word :=
  let el (i : Nat) : Nat :=
    let x (w : Word) := decodeF f (w.toNat / 2 ^ (16 * i) % 2 ^ 16)
    arithF f ((x a).fma (x b) (x d))
  BitVec.ofNat 32 (el 0 + 2 ^ 16 * el 1)

/-- The integer nearest to a finite value, ties away from zero, or toward zero (R24, 05 R127). -/
def roundInt (rz neg : Bool) (m : Nat) (e : Int) : Int :=
  let k : Nat :=
    if 0 ≤ e then m * 2 ^ e.toNat
    else if (Nat.log2 m : Int) + 2 < -e then 0
    else roundShift (if rz then .rz else .rna) m (-e).toNat
  if neg then -(k : Int) else (k : Int)

/-- ChunkAdd (R39): the accumulator plus the exact products of one chunk, truncated at 2^(emax - 50) and rounded
once. -/
def chunkAdd (c : FVal) (ts : List FVal) : FVal :=
  let all := c :: ts
  let pos := all.any (· == FVal.inf false)
  let neg := all.any (· == FVal.inf true)
  if all.any FVal.isNan || (pos && neg) then .nan
  else if pos then .inf false
  else if neg then .inf true
  else
    let nz := all.filter fun v => !v.isZero
    match nz with
    | [] => .fin (all.all FVal.isNeg) 0 0
    | _ =>
      let lg : FVal → Int := fun v => match v with
        | .fin _ m e => (Nat.log2 m : Int) + e
        | _ => 0
      let emax := nz.foldl (fun x v => max x (lg v)) (lg (nz.headD .nan))
      let q := emax - 50
      let s : Int := nz.foldl (fun t v => match v with
        | .fin n m e =>
          let k : Nat := if q ≤ e then m * 2 ^ (e - q).toNat else m / 2 ^ (q - e).toNat
          if n then t - k else t + k
        | _ => t) 0
      .fin (decide (s < 0)) s.natAbs q

/-- One chunk added to an FP32 accumulator word (R39). -/
def chunkWord (c : Word) (ts : List FVal) : Word :=
  BitVec.ofNat 32 (arithF fFP32 (chunkAdd (decodeF fFP32 c.toNat) ts))

end Sys2Proof.Machine
end

