-- ==== Sys2Proof/Machine/Special.lean ====
section
/-!
DEFINITION. Machine/Special.lean: the special functions (spec/05_lane_float.md R124-R126). A function value is
enclosed between two fixed-point numbers in steps of 2^-640, closely enough to decide the rounding: FP16 and BF16 are
rounded by RNE, and FP32 takes one of the two bracketing values, which one being a free value (log 20).
-/

namespace Sys2Proof.Machine

/-- The fixed-point step is 2^-fixP. -/
def fixP : Nat := 640

/-- An enclosure of a positive real: lo x 2^-fixP at or below it, hi x 2^-fixP at or above it. -/
structure Encl where
  lo : Nat
  hi : Nat
  deriving DecidableEq, Repr, Inhabited

/-- Sum of the terms t, t' ... where each next term comes from the last by `f` with its index, for `n` terms. -/
def seriesSum (f : Nat → Nat → Nat) : Nat → Nat → Nat → Nat → Nat
  | 0, _, _, acc => acc
  | n + 1, k, t, acc => seriesSum f n (k + 1) (f k t) (acc + t)

/-- atanh(p / q) in steps of 2^-b, for p < q: the sum of (p/q)^(2k+1) / (2k+1), by terms of the power. -/
def atanhAux (p q b : Nat) : Nat → Nat → Nat → Nat → Nat
  | 0, _, _, acc => acc
  | n + 1, k, t, acc => atanhAux p q b n (k + 1) (t * (p * p) / (q * q)) (acc + t / (2 * k + 1))

/-- atanh(p / q) in steps of 2^-b, with an error below b steps. -/
def atanhFix (p q b : Nat) : Nat := atanhAux p q b (b / 2) 0 (p * 2 ^ b / q) 0

/-- ln 2 = 2 atanh(1/3), in steps of 2^-b. -/
def ln2Fix (b : Nat) : Nat := 2 * atanhFix 1 3 b

/-- arctan(1/q) in steps of 2^-b: positive and negative terms apart. -/
def atanInvAux (q : Nat) : Nat → Nat → Nat → Int → Int
  | 0, _, _, acc => acc
  | n + 1, k, t, acc =>
    atanInvAux q n (k + 1) (t / (q * q)) (if k % 2 = 0 then acc + (t / (2 * k + 1) : Nat) else acc - (t / (2 * k + 1) : Nat))

/-- arctan(1/q) in steps of 2^-b. -/
def atanInv (q b : Nat) : Int := atanInvAux q (b / 2) 0 (2 ^ b / q) 0

/-- pi = 16 arctan(1/5) - 4 arctan(1/239), in steps of 2^-b. -/
def piFix (b : Nat) : Nat := (16 * atanInv 5 b - 4 * atanInv 239 b).toNat

/-- exp(y) for 0 <= y < 1, y in steps of 2^-b: the Taylor series. -/
def expFix (y b : Nat) : Nat := seriesSum (fun k t => t * y / 2 ^ b / (k + 1)) (b / 4) 0 (2 ^ b) 0

/-- The guard bits of an inner computation. -/
def fixG : Nat := 64

/-- An enclosure of a value known in steps of 2^-(fixP + fixG) to within 2^(fixG - 8) of them. -/
def enclOf (v : Nat) : Encl :=
  { lo := v / 2 ^ fixG - 1, hi := v / 2 ^ fixG + 2 }

/-- 2^n x 2^r for an integer n and 0 <= r < 1 in steps of 2^-(fixP+fixG), as a value in those steps. -/
def exp2Fix (n : Int) (r : Nat) : Nat :=
  let b := fixP + fixG
  let y := r * ln2Fix b / 2 ^ b
  let x := expFix y b
  if 0 ≤ n then x * 2 ^ n.toNat else x / 2 ^ (-n).toNat

/-- The magnitude m x 2^e in steps of 2^-b, rounded down. -/
def toFix (m : Nat) (e : Int) (b : Nat) : Nat :=
  let k := e + b
  if 0 ≤ k then m * 2 ^ k.toNat else m / 2 ^ (-k).toNat

/-- exp(-y) for y >= 0 in steps of 2^-(fixP+fixG), y below 2^10: by exp(-y) = 2^(-y / ln 2). -/
def expNeg (y : Nat) : Nat :=
  let b := fixP + fixG
  let z := y * 2 ^ b / ln2Fix b
  let n := z / 2 ^ b
  let r := z % 2 ^ b
  if r = 0 then exp2Fix (-(n : Int)) 0 else exp2Fix (-(n : Int) - 1) (2 ^ b - r)

/-- sin(pi r) for 0 <= r <= 1/2, r in steps of 2^-(fixP+fixG). -/
def sinPiFix (r : Nat) : Nat :=
  let b := fixP + fixG
  let y := r * piFix b / 2 ^ b
  let rec go : Nat → Nat → Nat → Int → Int
    | 0, _, _, acc => acc
    | n + 1, k, t, acc =>
      go n (k + 1) (t * y / 2 ^ b * y / 2 ^ b / ((2 * k + 2) * (2 * k + 3)))
        (if k % 2 = 0 then acc + (t : Nat) else acc - (t : Nat))
  (go (b / 6) 0 y 0).toNat

/-- The integer square root, bit by bit from 2^n. -/
def isqrtAux : Nat → Nat → Nat → Nat
  | 0, _, r => r
  | n + 1, v, r => isqrtAux n v (if (r + 2 ^ n) * (r + 2 ^ n) ≤ v then r + 2 ^ n else r)
/-- The integer square root. -/
def isqrt (v : Nat) : Nat := isqrtAux (Nat.log2 v / 2 + 1) v 0

/-- erf(z) for z >= 0 below 17, z in steps of 2^-b, b = fixP + 2 fixG: (2/sqrt pi) e^(-z^2) times the sum of
2^n z^(2n+1) / (2n+1)!!. -/
def erfFix (z : Nat) : Nat :=
  let b := fixP + fixG
  let z2 := z * z / 2 ^ b
  let sum := seriesSum (fun k t => t * (2 * z2) / 2 ^ b / (2 * k + 3)) 2400 0 z 0
  let e := expNeg z2
  let sp := isqrt (piFix b * 2 ^ b)
  sum * e / 2 ^ b * 2 * 2 ^ b / sp

/-- The functions of major 0x20, in the order of FN (R124). -/
inductive SpecialFn
  | exp2 | log2 | rcp | rsq | sqrt | sinpi | cospi | tanh | sigm | gelu | silu | erf
  deriving DecidableEq, Repr

/-- The number of a function (R124). -/
def SpecialFn.num : SpecialFn → Nat
  | .exp2 => 0
  | .log2 => 1
  | .rcp => 2
  | .rsq => 3
  | .sqrt => 4
  | .sinpi => 5
  | .cospi => 6
  | .tanh => 7
  | .sigm => 8
  | .gelu => 9
  | .silu => 10
  | .erf => 11

/-- A special-function value before rounding: exact, or a sign and an enclosure of the magnitude, whose ends are in
steps of 2^-fixP. -/
inductive SpecVal
  | exact (v : FVal)
  | encl (neg : Bool) (e : Encl)
  deriving DecidableEq, Repr

/-- A positive value so small that no format's grid holds it: below 2^-360 and above 0. -/
def tinyEncl : Encl := { lo := 1, hi := 2 ^ (fixP - 360) }

/-- An exact quotient or root is known by a remainder of 0; otherwise its floor in steps of 2^-fixP encloses it. -/
def floorEncl (q : Nat) : Encl := { lo := q, hi := q + 1 }

/-- The enclosure of 1/2 (1 + erf(x / sqrt 2)) times x for x >= 0, or of x times 1/2 erfc(|x| / sqrt 2) for x < 0. -/
def geluMag (neg : Bool) (m : Nat) (e : Int) : Encl :=
  let b := fixP + fixG
  let x := toFix m e b
  if 22 * 2 ^ b ≤ x then
    if neg then tinyEncl
    else { lo := toFix m e fixP - 2 ^ (fixP - 340), hi := toFix m e fixP - 1 }
  else
    let z := isqrt (x * x / 2)
    let p := erfFix z
    let h := if neg then (2 ^ b - p) / 2 else (2 ^ b + p) / 2
    let v := x * h / 2 ^ b
    if v < 2 ^ (fixG + 40) then { lo := 1, hi := v / 2 ^ fixG + 2 ^ 60 } else { lo := v / 2 ^ fixG - 2 ^ 30, hi := v / 2 ^ fixG + 2 ^ 30 }

/-- f(x) for a finite nonzero x = (-1)^neg m x 2^e, beyond the special arguments of R126 that are not finite. -/
def specialFin (f : SpecialFn) (neg : Bool) (m : Nat) (e : Int) : SpecVal :=
  let b := fixP + fixG
  let l : Int := (Nat.log2 m : Int) + e
  match f with
  | .exp2 =>
    if 11 ≤ l then
      (if neg then .encl false tinyEncl else .exact (.fin false 1 4096))
    else
      let n : Nat := if 0 ≤ e then m * 2 ^ e.toNat else m / 2 ^ (-e).toNat
      let isInt : Bool := decide (0 ≤ e) || m % 2 ^ (-e).toNat == 0
      let r := toFix m e b % 2 ^ b
      if isInt then .exact (.fin false 1 (if neg then -(n : Int) else (n : Int)))
      else if neg then .encl false (enclOf (exp2Fix (-(n : Int) - 1) (2 ^ b - r)))
      else .encl false (enclOf (exp2Fix (n : Int) r))
  | .log2 =>
    if neg then .exact .nan
    else if m = 2 ^ Nat.log2 m then .exact (.fin (decide (l < 0)) l.natAbs 0)
    else
      let p := 2 ^ Nat.log2 m
      let t := 2 * atanhFix (m - p) (m + p) b * 2 ^ b / ln2Fix b
      if 0 ≤ l then .encl false (enclOf (l.toNat * 2 ^ b + t)) else .encl true (enclOf ((-l).toNat * 2 ^ b - t))
  | .rcp =>
    if m = 2 ^ Nat.log2 m then .exact (.fin neg 1 (-l))
    else
      let k := (fixP : Int) - e
      .encl neg (floorEncl (if 0 ≤ k then 2 ^ k.toNat / m else 0))
  | .rsq =>
    if neg then .exact .nan
    else
      -- 1 / sqrt(m 2^e) in steps of 2^-fixP is the root of 2^(2 fixP - e) / m
      let v := 2 ^ ((2 * fixP : Int) - e).toNat
      let q := isqrt (v / m)
      if q * q * m = v then .exact (.fin false q (-(fixP : Int))) else .encl false (floorEncl q)
  | .sqrt =>
    if neg then .exact .nan
    else
      let v := toFix m e (2 * fixP)
      let q := isqrt v
      if q * q = v then .exact (.fin false q (-(fixP : Int))) else .encl false (floorEncl q)
  | .sinpi =>
    let isInt : Bool := decide (0 ≤ e) || m % 2 ^ (-e).toNat == 0
    if isInt then .exact (.fin neg 0 0)
    else
      let r := toFix m e b % 2 ^ (b + 1)
      let (sg, r1) := if 2 ^ b < r then (true, r - 2 ^ b) else (false, r)
      let r2 := if 2 ^ b < 2 * r1 then 2 ^ b - r1 else r1
      if 2 * r2 = 2 ^ b then .exact (.fin (neg != sg) 1 0) else .encl (neg != sg) (enclOf (sinPiFix r2))
  | .cospi =>
    let r := toFix m e b % 2 ^ (b + 1)
    -- cos(pi r) = sin(pi (r + 1/2)), the magnitude by reduction to a quarter turn
    let isInt : Bool := decide (0 ≤ e) || m % 2 ^ (-e).toNat == 0
    if isInt then
      let odd : Bool := if 0 < e then false else m / 2 ^ (-e).toNat % 2 == 1
      .exact (.fin odd 1 0)
    else
      let r1 := if 2 ^ b < r then 2 ^ (b + 1) - r else r
      let (sg, r2) := if 2 ^ b < 2 * r1 then (true, 2 ^ b - r1) else (false, r1)
      if 2 * r2 = 2 ^ b then .exact (.fin false 0 0)
      else .encl sg (enclOf (sinPiFix (2 ^ (b - 1) - r2)))
  | .tanh =>
    if 8 ≤ l then .encl neg { lo := 2 ^ fixP - 2 ^ (fixP - 300), hi := 2 ^ fixP - 1 }
    else
      let y := expNeg (2 * toFix m e b)
      let v := (2 ^ b - y) * 2 ^ b / (2 ^ b + y)
      .encl neg (enclOf v)
  | .sigm =>
    if 9 ≤ l then
      .encl false (if neg then tinyEncl else { lo := 2 ^ fixP - 2 ^ (fixP - 360), hi := 2 ^ fixP - 1 })
    else
      let y := expNeg (toFix m e b)
      let v := if neg then y * 2 ^ b / (2 ^ b + y) else 2 ^ (2 * b) / (2 ^ b + y)
      .encl false (enclOf v)
  | .gelu => .encl neg (geluMag neg m e)
  | .silu =>
    if 9 ≤ l then
      if neg then .encl true tinyEncl
      else .encl false { lo := toFix m e fixP - 2 ^ (fixP - 200), hi := toFix m e fixP - 1 }
    else
      let x := toFix m e b
      let y := expNeg x
      let v := if neg then x * y / (2 ^ b + y) else x * 2 ^ b / (2 ^ b + y)
      .encl neg { lo := v / 2 ^ fixG - 2 ^ 30, hi := v / 2 ^ fixG + 2 ^ 30 }
  | .erf =>
    if 5 ≤ l ∨ (4 ≤ l ∧ 16 * 2 ^ b ≤ toFix m e b) then
      .encl neg { lo := 2 ^ fixP - 2 ^ (fixP - 360), hi := 2 ^ fixP - 1 }
    else .encl neg (enclOf (erfFix (toFix m e b)))

/-- f(x) for the arguments of the table of R126 and, for every other argument, by `specialFin`. -/
def specialVal (f : SpecialFn) (x : FVal) : SpecVal :=
  let zero (n : Bool) : SpecVal := .exact (.fin n 0 0)
  let one (n : Bool) : SpecVal := .exact (.fin n 1 0)
  match x with
  | .nan => .exact .nan
  | .inf n =>
    match f with
    | .exp2 => if n then zero false else .exact (.inf false)
    | .log2 => if n then .exact .nan else .exact (.inf false)
    | .rcp => zero n
    | .rsq => if n then .exact .nan else zero false
    | .sqrt => if n then .exact .nan else .exact (.inf false)
    | .sinpi => .exact .nan
    | .cospi => .exact .nan
    | .tanh => one n
    | .sigm => if n then zero false else one false
    | .gelu => if n then zero true else .exact (.inf false)
    | .silu => if n then zero true else .exact (.inf false)
    | .erf => one n
  | .fin n 0 _ =>
    match f with
    | .exp2 => one false
    | .log2 => .exact (.inf true)
    | .rcp => .exact (.inf n)
    | .rsq => .exact (.inf n)
    | .sqrt => zero n
    | .sinpi => zero n
    | .cospi => one false
    | .tanh => zero n
    | .sigm => .exact (.fin false 1 (-1))
    | .gelu => zero n
    | .silu => zero n
    | .erf => zero n
  | .fin n m e => specialFin f n m e

/-- Round a special-function value (R125): FP16 and BF16 by RNE; FP32 to one of the two bracketing values, `up`
choosing the one of larger magnitude, beyond the largest finite value an infinity. The values known exactly lie on the
FP32 grid, but for a power of two below it: FEXP2 of an integer below -149, which zero and the least subnormal bracket
(log 20). -/
def specialRound (f : FFmt) (faithful up : Bool) (v : SpecVal) : Nat :=
  match v with
  | .exact (.fin neg m e) =>
    if faithful && m != 0 && roundMag f .rz m e == 0 then b2n neg * f.signBit + b2n up else arithF f (.fin neg m e)
  | .exact x => arithF f x
  | .encl neg e =>
    let s := b2n neg * f.signBit
    if faithful then
      let a := roundMag f .rz e.lo (-(fixP : Int))
      let c := roundMag f .rz e.hi (-(fixP : Int))
      let r := if a = c then (if up then a + 1 else if a = f.maxCode then a + 1 else a) else c
      s + min r f.infCode
    else s + min (roundMag f .rne e.lo (-(fixP : Int))) f.infCode

/-- The format of a type (R53). -/
def floatFmt : FloatTy → FFmt
  | .f32 => fFP32
  | .f16 => fFP16
  | .bf16 => fBF16

/-- The result word of a special function on the low bits of a register (R117, R124). -/
def specialWord (f : SpecialFn) (t : FloatTy) (a : Word) : Word :=
  let fm := floatFmt t
  let x := a.toNat % 2 ^ fm.width
  BitVec.ofNat 32
    (specialRound fm (t == .f32) (Config.faithfulUp f.num (BitVec.ofNat 32 x)) (specialVal f (decodeF fm x)))

end Sys2Proof.Machine
end

