-- ==== Sys2Proof/Machine/FloatOps.lean ====
section
/-!
DEFINITION. Machine/FloatOps.lean: FP32 arithmetic and classification, packed FP16 and BF16, float compares, the
special functions and typed conversion (spec/05_lane_float.md R117-R127, 04 R114).
-/

set_option linter.constructorNameAsVariable false

namespace Sys2Proof.Machine

/-- A float instruction with an operand class: every destination is a lane register (R118). -/
def floatRun (i : Instr) (g : Pred) (d a : Reg) (src : Src) (f : Word → Word → Word → Word) (s : State) : Out :=
  laneSimple i g s (vEffect g d fun t l =>
    f (t.rdV a.toNat l) (BitVec.ofNat 32 (t.srcVal false false src l)) (t.rdV d.toNat l))

/-- FADD: RNE(a + b) (R118). -/
def execFadd (g : Pred) (d a : Reg) (src : Src) (s : State) : Out :=
  floatRun (.fadd g d a src) g d a src (fun x y _ => f32add x y) s

/-- FSUB: RNE(a - b) (R118). -/
def execFsub (g : Pred) (d a : Reg) (src : Src) (s : State) : Out :=
  floatRun (.fsub g d a src) g d a src (fun x y _ => f32sub x y) s

/-- FMUL: RNE(a x b) (R118). -/
def execFmul (g : Pred) (d a : Reg) (src : Src) (s : State) : Out :=
  floatRun (.fmul g d a src) g d a src (fun x y _ => f32mul x y) s

/-- FFMA: RNE(a x b + d), rounded once (R118). -/
def execFfma (g : Pred) (d a : Reg) (src : Src) (s : State) : Out :=
  floatRun (.ffma g d a src) g d a src (fun x y z => f32fma x y z) s

/-- FMIN (R120). -/
def execFmin (g : Pred) (d a : Reg) (src : Src) (s : State) : Out :=
  floatRun (.fmin g d a src) g d a src (fun x y _ => f32min x y) s

/-- FMAX (R120). -/
def execFmax (g : Pred) (d a : Reg) (src : Src) (s : State) : Out :=
  floatRun (.fmax g d a src) g d a src (fun x y _ => f32max x y) s

/-- FCLASS (R121). -/
def execFclass (g : Pred) (d : Reg) (src : Src) (s : State) : Out :=
  floatRun (.fclass g d src) g d d src (fun _ y _ => f32class y) s

/-- PFMA.F16 (R122). -/
def execPfmaF16 (g : Pred) (d a : Reg) (src : Src) (s : State) : Out :=
  floatRun (.pfmaF16 g d a src) g d a src (fun x y z => packedFma fFP16 x y z) s

/-- PFMA.BF16 (R122). -/
def execPfmaBf16 (g : Pred) (d a : Reg) (src : Src) (s : State) : Out :=
  floatRun (.pfmaBf16 g d a src) g d a src (fun x y z => packedFma fBF16 x y z) s

/-- A float condition on two values (R123): u means that one of them is a NaN. -/
def FCond.holds (c : FCond) (a b : FVal) : Bool :=
  let u := a.isNan || b.isNan
  let k := a.cmp b
  match c with
  | .eq => !u && decide (k = 0)
  | .ne => u || decide (k ≠ 0)
  | .lt => !u && decide (k < 0)
  | .le => !u && decide (k ≤ 0)
  | .gt => !u && decide (0 < k)
  | .ge => !u && decide (0 ≤ k)
  | .un => u
  | .or => !u

/-- The value of the low bits of a word in a float type (R117). -/
def floatVal (t : FloatTy) (w : Nat) : FVal := decodeF (floatFmt t) (w % 2 ^ (floatFmt t).width)

/-- FCMP (R123). -/
def execFcmp (g : Pred) (c : FCond) (k : PairIx) (a : Reg) (src : Src) (t : FloatTy) (s : State) : Out :=
  laneSimple (.fcmp g c k a src t) g s
    (pEffect g k fun u l =>
      FCond.holds c (floatVal t (u.rdV a.toNat l).toNat) (floatVal t (u.srcVal false false src l)))

/-- A special function of each executing lane (R124-R126). -/
def specialRun (i : Instr) (f : SpecialFn) (g : Pred) (d a : Reg) (t : FloatTy) (s : State) : Out :=
  laneSimple i g s (vEffect g d fun u l => specialWord f t (u.rdV a.toNat l))

/-- FEXP2: 2^x (R124). -/
def execFexp2 (g : Pred) (d a : Reg) (t : FloatTy) (s : State) : Out :=
  specialRun (.fexp2 g d a t) .exp2 g d a t s

/-- FLOG2: log2 x (R124). -/
def execFlog2 (g : Pred) (d a : Reg) (t : FloatTy) (s : State) : Out :=
  specialRun (.flog2 g d a t) .log2 g d a t s

/-- FRCP: 1/x (R124). -/
def execFrcp (g : Pred) (d a : Reg) (t : FloatTy) (s : State) : Out :=
  specialRun (.frcp g d a t) .rcp g d a t s

/-- FRSQ: 1/sqrt x (R124). -/
def execFrsq (g : Pred) (d a : Reg) (t : FloatTy) (s : State) : Out :=
  specialRun (.frsq g d a t) .rsq g d a t s

/-- FSQRT: sqrt x (R124). -/
def execFsqrt (g : Pred) (d a : Reg) (t : FloatTy) (s : State) : Out :=
  specialRun (.fsqrt g d a t) .sqrt g d a t s

/-- FSINPI: sin(pi x) (R124). -/
def execFsinpi (g : Pred) (d a : Reg) (t : FloatTy) (s : State) : Out :=
  specialRun (.fsinpi g d a t) .sinpi g d a t s

/-- FCOSPI: cos(pi x) (R124). -/
def execFcospi (g : Pred) (d a : Reg) (t : FloatTy) (s : State) : Out :=
  specialRun (.fcospi g d a t) .cospi g d a t s

/-- FTANH: tanh x (R124). -/
def execFtanh (g : Pred) (d a : Reg) (t : FloatTy) (s : State) : Out :=
  specialRun (.ftanh g d a t) .tanh g d a t s

/-- FSIGM: 1/(1 + e^-x) (R124). -/
def execFsigm (g : Pred) (d a : Reg) (t : FloatTy) (s : State) : Out :=
  specialRun (.fsigm g d a t) .sigm g d a t s

/-- FGELU: x times half of 1 + erf(x / sqrt 2) (R124). -/
def execFgelu (g : Pred) (d a : Reg) (t : FloatTy) (s : State) : Out :=
  specialRun (.fgelu g d a t) .gelu g d a t s

/-- FSILU: x/(1 + e^-x) (R124). -/
def execFsilu (g : Pred) (d a : Reg) (t : FloatTy) (s : State) : Out :=
  specialRun (.fsilu g d a t) .silu g d a t s

/-- FERF: erf x (R124). -/
def execFerf (g : Pred) (d a : Reg) (t : FloatTy) (s : State) : Out :=
  specialRun (.ferf g d a t) .erf g d a t s

/-! ## Typed conversion (R127, 04 R114) -/

/-- The bits of a type and whether it is signed, for an integer type (02 R54). -/
def cvtInt : CvtTy → Option (Nat × Bool)
  | .s8 => some (8, true)
  | .s16 => some (16, true)
  | .s32 => some (32, true)
  | .s64 => some (64, true)
  | .z8 => some (8, false)
  | .z16 => some (16, false)
  | .z32 => some (32, false)
  | .z64 => some (64, false)
  | _ => none

/-- The format of a float type (02 R54). -/
def cvtFmt : CvtTy → FFmt
  | .f16 => fFP16
  | .bf16 => fBF16
  | .e4m3 => fE4M3
  | .e5m2 => fE5M2
  | _ => fFP32

/-- An integer of a type as a register value: 8- and 16-bit results are extended to 32 bits by their signedness
(04 R114). -/
def cvtStore (n : Nat) (sg : Bool) (r : Int) : Nat :=
  if n < 32 then (if sg then wrapN 32 (sgnN n (wrapN n r)) else wrapN n r) else wrapN n r

/-- The least and greatest value of an integer type. -/
def cvtRange (n : Nat) (sg : Bool) : Int × Int := (elemLo n (!sg), elemHi n (!sg))

/-- A conversion of a register value of up to 64 bits (R127, 04 R114). -/
def cvtVal (dty sty : CvtTy) (rz sat : Bool) (a : Nat) : Nat :=
  match cvtInt dty, cvtInt sty with
  | some (n, sg), some (k, ks) =>
    let x : Int := if ks then sgnN k (a % 2 ^ k) else (a % 2 ^ k : Nat)
    let (lo, hi) := cvtRange n sg
    cvtStore n sg (if sat then clampI x lo hi else x)
  | some (n, sg), none =>
    let f := cvtFmt sty
    let (lo, hi) := cvtRange n sg
    match decodeF f (a % 2 ^ f.width) with
    | .nan => 0
    | .inf neg => cvtStore n sg (if neg then lo else hi)
    | .fin neg m e => cvtStore n sg (clampI (roundInt rz neg m e) lo hi)
  | none, some (k, ks) =>
    let x : Int := if ks then sgnN k (a % 2 ^ k) else (a % 2 ^ k : Nat)
    (encodeF (cvtFmt dty) (if rz then .rz else .rna) sat (.fin (decide (x < 0)) x.natAbs 0)).code
  | none, none =>
    let f := cvtFmt sty
    (encodeF (cvtFmt dty) (if rz then .rz else .rna) sat (decodeF f (a % 2 ^ f.width))).code

/-- A type of 64 bits (02 R54). -/
def cvtWide (t : CvtTy) : Bool := cvtRegs t == 2

/-- CVT, typed (R127, 04 R114). -/
def execCvt (g : Pred) (d a : Reg) (dty sty : CvtTy) (rz sat : Bool) (s : State) : Out :=
  laneSimple (.cvt g d a dty sty rz sat) g s fun t =>
    t.putLanes (lanesOf (t.exec g)) fun u l =>
      u.wrVn (cvtWide dty) d.toNat l (cvtVal dty sty rz sat (t.rdVn (cvtWide sty) a.toNat l))

end Sys2Proof.Machine
end

