-- ==== Sys2Proof/Machine/Collective.lean ====
section
/-!
DEFINITION. Machine/Collective.lean: VOTE, SHFL, REDUX and SCAN, in the plain and the .G form
(spec/04_lane_integer.md R115, R116; 05 R135-R137).
-/

set_option linter.constructorNameAsVariable false

namespace Sys2Proof.Machine

/-- A group collective (04 R115): `body` acts once on the participating lanes. In the .G form the split first adds its
lanes to those that wait here; the last arrival merges the splits, and the survivor executes. -/
def collectiveRun (i : Instr) (g : Pred) (x : Bool) (s : State) (body : List Nat → State → State) : Out :=
  laneRun i g s fun t =>
    if !x then .next ((body (lanesOf (t.exec g)) t).skip i.laneSize)
    else
      match t.focus with
      | .split b gr k =>
        if t.topPath b gr k then .next (t.rotate b gr k)
        else
          let t1 := t.modSpl b gr k fun y => { y with gm := y.gm ||| y.am, am := 0, wait := .collective y.pc }
          match t1.tryCollect b gr t.pc with
          | none => .next t1
          | some (j, u) =>
            let v := { u with focus := .split b gr j }
            if v.interlocked g (instrUses v.unitNode i) then .next v
            else .next ((body (lanesOf (v.exec g)) v).skip i.laneSize)
      | _ => .next t

/-! ## VOTE (04 R116) -/

/-- All lanes of P have the predicate. -/
def voteAllOf (s : State) (p : Pred) (ls : List Nat) : Bool := ls.all fun l => s.rdP p l
/-- Some lane of P has the predicate. -/
def voteAnyOf (s : State) (p : Pred) (ls : List Nat) : Bool := ls.any fun l => s.rdP p l
/-- The lanes of P that have the predicate. -/
def voteBalOf (s : State) (p : Pred) (ls : List Nat) : Mask := maskOfList (ls.filter fun l => s.rdP p l)

/-- VOTE.ALL. -/
def execVoteAll (g : Pred) (k : PairIx) (p : Pred) (x : Bool) (s : State) : Out :=
  collectiveRun (.voteAll g k p x) g x s fun ls t => t.putLanes ls fun u l => u.wrPair k l (voteAllOf t p ls)

/-- VOTE.ANY. -/
def execVoteAny (g : Pred) (k : PairIx) (p : Pred) (x : Bool) (s : State) : Out :=
  collectiveRun (.voteAny g k p x) g x s fun ls t => t.putLanes ls fun u l => u.wrPair k l (voteAnyOf t p ls)

/-- VOTE.BAL. -/
def execVoteBal (g : Pred) (d : Reg) (p : Pred) (x : Bool) (s : State) : Out :=
  collectiveRun (.voteBal g d p x) g x s fun ls t => t.putLanes ls fun u l => u.wrVPair d.toNat l (voteBalOf t p ls)

/-- VOTE.EQ. -/
def execVoteEq (g : Pred) (k : PairIx) (p : Pred) (x : Bool) (s : State) : Out :=
  collectiveRun (.voteEq g k p x) g x s fun ls t =>
    t.putLanes ls fun u l => u.wrPair k l (voteAllOf t p ls || !voteAnyOf t p ls)

/-! ## SHFL (05 R135) -/

/-- The lane that a shuffle takes its value from: the source `j` where it is a lane of P, else the lane itself. -/
def shflSource (ls : List Nat) (l : Nat) (j : Option Nat) : Nat :=
  match j with
  | some n => if ls.contains n then n else l
  | none => l

/-- A shuffle over P with a source function of GWIDTH, the lane and its operand. -/
def shflBody (d a b : Reg) (src : Nat → Nat → Nat → Option Nat) (ls : List Nat) (t : State) : State :=
  let n := (t.blk t.unitBlk).width
  t.putLanes ls fun u l => u.wrV d.toNat l (t.rdV a.toNat (shflSource ls l (src n l (t.rdV b.toNat l).toNat)))

/-- SHFL.IDX. -/
def execShflIdx (g : Pred) (d a b : Reg) (x : Bool) (s : State) : Out :=
  collectiveRun (.shflIdx g d a b x) g x s (shflBody d a b fun n _ c => some (c % n))

/-- SHFL.UP. -/
def execShflUp (g : Pred) (d a b : Reg) (x : Bool) (s : State) : Out :=
  collectiveRun (.shflUp g d a b x) g x s (shflBody d a b fun _ l c => if l < c then none else some (l - c))

/-- SHFL.DN. -/
def execShflDn (g : Pred) (d a b : Reg) (x : Bool) (s : State) : Out :=
  collectiveRun (.shflDn g d a b x) g x s (shflBody d a b fun n l c => if l + c < n then some (l + c) else none)

/-- SHFL.XOR. -/
def execShflXor (g : Pred) (d a b : Reg) (x : Bool) (s : State) : Out :=
  collectiveRun (.shflXor g d a b x) g x s (shflBody d a b fun n l c => some (l ^^^ (c % n)))

/-! ## REDUX and SCAN (05 R136, R137) -/

/-- The combining function of an operation (05 R137). -/
def redFn : RedOp → Word → Word → Word
  | .iadd => fun a b => a + b
  | .and => fun a b => a &&& b
  | .or => fun a b => a ||| b
  | .xor => fun a b => a ^^^ b
  | .imaxS => fun a b => if a.slt b then b else a
  | .iminS => fun a b => if b.slt a then b else a
  | .imaxZ => fun a b => if a.ult b then b else a
  | .iminZ => fun a b => if b.ult a then b else a
  | .fadd => f32add
  | .fmax => f32max
  | .fmin => f32min

/-- The identity of an operation (05 R137). -/
def redId : RedOp → Word
  | .iadd => 0
  | .and => 0xFFFFFFFF
  | .or => 0
  | .xor => 0
  | .imaxS => 0x80000000
  | .iminS => 0x7FFFFFFF
  | .imaxZ => 0
  | .iminZ => 0xFFFFFFFF
  | .fadd => 0
  | .fmax => 0xFF800000
  | .fmin => 0x7F800000

/-- `Fold`: from the first value, leftwards; the identity for no value (05 R137). -/
def redFold (op : RedOp) : List Word → Word
  | [] => redId op
  | a :: t => t.foldl (redFn op) a

/-- REDUX. -/
def execRedux (g : Pred) (d a : Reg) (x : Bool) (k : PairIx) (op : RedOp) (s : State) : Out :=
  collectiveRun (.redux g d a x k op) g x s fun ls t =>
    (t.wrS d.toNat (redFold op (ls.map fun l => t.rdV a.toNat l))).putLanes ls fun u l => u.wrPair k l ls.isEmpty

/-- A scan over P: `before` picks the lanes that a lane folds. -/
def scanBody (d a : Reg) (k : PairIx) (op : RedOp) (before : Nat → Nat → Bool) (ls : List Nat) (t : State) : State :=
  t.putLanes ls fun u l =>
    let own := ls.filter fun j => before j l
    (u.wrV d.toNat l (redFold op (own.map fun j => t.rdV a.toNat j))).wrPair k l own.isEmpty

/-- SCAN.INC. -/
def execScanInc (g : Pred) (d a : Reg) (x : Bool) (k : PairIx) (op : RedOp) (s : State) : Out :=
  collectiveRun (.scanInc g d a x k op) g x s (scanBody d a k op fun j l => j ≤ l)

/-- SCAN.EXC. -/
def execScanExc (g : Pred) (d a : Reg) (x : Bool) (k : PairIx) (op : RedOp) (s : State) : Out :=
  collectiveRun (.scanExc g d a x k op) g x s (scanBody d a k op fun j l => j < l)

end Sys2Proof.Machine
end

