-- ==== Sys2Proof/Machine/Control.lean ====
section
/-!
DEFINITION. Machine/Control.lean: branches, calls, ejection, JOIN, EXIT, ERET, LIVE, YIELD and TRAP
(spec/06_lane_control.md R138-R152; 14 R300-R305).
-/

set_option linter.constructorNameAsVariable false

namespace Sys2Proof.Machine

/-! ## Branches (06 R140, R141) -/

/-- The address of the next instruction of the executing unit. -/
def State.nextPc (s : State) : Dword := s.pc + 4

/-- A direct target: the branch address plus 4 times the offset (06 R138). -/
def State.target (s : State) {n : Nat} (ofs : BitVec n) : Dword := s.pc + 4 * ofs.signExtend 64

/-- An indirect target is bad: bits [1:0] or [63:52] are not zero (06 R141). -/
def badTarget (d : Dword) : Bool := d.toNat % 4 != 0 || 2 ^ 52 ≤ d.toNat

/-- The executing unit moves each active lane to its next PC (06 R140); `s0` is the state before the instruction. -/
def State.jump (s s0 : State) (nextPc : Nat → Dword) : State :=
  match s.focus with
  | .split b g k => s.branch s0 b g k nextPc
  | .comet c => s.setPc (nextPc (s.ctx c).lane)
  | _ => s

/-- The link pair of the executing unit's node (06 R142). -/
def State.linkReg (s : State) : Nat := s.unitNode.link

/-- Write the address of the next instruction to the link pair of some lanes (06 R143). -/
def State.setLinks (s : State) (ls : List Nat) : State :=
  let next := s.nextPc
  let link := s.linkReg
  s.putLanes ls fun u l => u.wrVPair link l next

/-- The next PC of a lane: the target where the guard is true, else the next instruction. -/
def State.choose (s : State) (m : Mask) (tgt : Nat → Dword) (l : Nat) : Dword :=
  if hasLane m l then tgt l else s.nextPc

/-- A change of the call depth of a comet context (14 R301). -/
def State.callDepth (s : State) (f : Nat → Nat) : State :=
  match s.focus with
  | .comet c => s.modCtx c fun x => { x with depth := f x.depth }
  | _ => s

/-- BRA (06 R138, R140). -/
def execBra (g : Pred) (ofs : BitVec 22) (s : State) : Out :=
  laneRun (.bra g ofs) g s fun t =>
    let tgt := t.target ofs
    .next (t.jump t (t.choose (t.exec g) fun _ => tgt))

/-- CALL (06 R143). -/
def execCall (g : Pred) (ofs : BitVec 22) (s : State) : Out :=
  laneRun (.call g ofs) g s fun t =>
    let m := t.exec g
    let tgt := t.target ofs
    let t1 := (t.setLinks (lanesOf m)).callDepth fun n => if m = 0 then n else n + 1
    .next (t1.jump t (t.choose m fun _ => tgt))

/-- An indirect branch with its targets, and the effect on links before it (06 R141, R143). -/
def State.indirect (t : State) (m : Mask) (tgt : Nat → Dword) (pre : State → State) : State :=
  let bad := maskOf fun l => hasLane m l && badTarget (tgt l)
  if bad != 0 then t.trapWith 0x03 bad (tgt (lowestLane bad))
  else (pre t).jump t (t.choose m tgt)

/-- BRX. -/
def execBrx (g : Pred) (a : Reg) (s : State) : Out :=
  laneRun (.brx g a) g s fun t => .next (t.indirect (t.exec g) (fun l => t.rdVPair a.toNat l) id)

/-- CALLX: the target is read before the link is written. -/
def execCallx (g : Pred) (a : Reg) (s : State) : Out :=
  laneRun (.callx g a) g s fun t =>
    let m := t.exec g
    .next (t.indirect m (fun l => t.rdVPair a.toNat l) fun u => u.setLinks (lanesOf m))

/-- RET. -/
def execRet (g : Pred) (s : State) : Out :=
  laneRun (.ret g) g s fun t =>
    let m := t.exec g
    .next (t.indirect m (fun l => t.rdVPair t.linkReg l) fun u => u.callDepth fun n => if m = 0 then n else n - 1)

/-! ## Ejection (06 R148, 14 R300, R303, R304) -/

/-- The comet contexts of a cluster. -/
def clusterContexts (cl : Nat) : List Nat := (List.range 64).map (64 * cl + ·)

/-- The contexts of a cluster that a partition holds. -/
def State.partContexts (s : State) (cl p : Nat) : Nat :=
  ((clusterContexts cl).filter fun c => s.comets.has c && (s.blk (s.ctx c).blk).part == p).length

/-- The free lane contexts within the partition's share (14 R303). -/
def State.freeContexts (s : State) (cl p : Nat) : Nat :=
  let free := ((clusterContexts cl).filter fun c => !s.comets.has c).length
  min free ((s.part p).comet - s.partContexts cl p)

/-- The free contexts of comet core j of a cluster. -/
def State.freeOn (s : State) (cl j : Nat) : List Nat :=
  (List.range 8).filterMap fun i =>
    let c := 64 * cl + 8 * j + i
    if s.comets.has c then none else some c

/-- The comet core with the most free contexts among some, ties to the lower j; none if none is free. -/
def State.bestCore (s : State) (cl : Nat) (js : List Nat) : Option Nat :=
  match minBy (fun j => 8 - (s.freeOn cl j).length) js with
  | some j => if (s.freeOn cl j).isEmpty then none else some j
  | none => none

/-- The comet cores of the issuing die, and those of the other die (14 R293). -/
def diesCores (die : Nat) : List Nat × List Nat :=
  if die % 2 = 0 then ([0, 1, 2, 3], [4, 5, 6, 7]) else ([4, 5, 6, 7], [0, 1, 2, 3])

/-- The context that the next ejected lane gets, with the clocks until its first instruction may issue (14 R303, R304): of the
chosen comet core the free one with the lowest number (DESIGN CHOICE, log 167). -/
def State.pickContext (s : State) (cl die : Nat) : Option (Nat × Nat) :=
  match s.bestCore cl (diesCores die).1 with
  | some j => some ((s.freeOn cl j).headD 0, 24)
  | none =>
    match s.bestCore cl (diesCores die).2 with
    | some j => some ((s.freeOn cl j).headD 0, 40)
    | none => none

/-- The context of an ejected lane (14 R300): its LIVE registers, predicate pairs 1-7, copies of the group's state. Poisoned
registers stay so (20 R419). -/
def State.handOver (s : State) (b g k l n : Nat) (pc : Dword) (wait : Nat) : Comet :=
  let x := s.blk b
  let y := x.grp g
  let live := y.lv.getD n 0
  { Comet.empty with
    blk := b, grp := g, lane := l, split := k, live := live, liveIx := n, pc := pc,
    vregs := (List.range 64).filterMap fun r =>
      if live.getLsbD r then some (r, x.vregs.getD (x.regKey g r l) 0) else none,
    preds := (List.range 7).map fun i => (i + 1, hasLane (y.preds.getD (i + 1) 0) l),
    sregs := y.sregs, ejt := y.ejt, jto := y.jto, lv := y.lv, priv := (y.spl k).priv,
    poisonRegs := ((List.range 64).filter fun r => live.getLsbD r && x.poisonRegs.contains (x.regKey g r l)) ++
      ((List.range 256).filter fun m => x.poisonRegs.contains (uniformKey g m)).map (uniformKey 0),
    notBefore := s.now + wait }

/-- Eject lanes, in ascending order, each to the context that the rules pick; the comet cores used (14 R303). -/
def State.ejectLanes (s : State) (b g k n : Nat) (pc : Dword) : List Nat → State × Nat
  | [] => (s, 0)
  | l :: ls =>
    let x := s.blk b
    let cl := clusterOfCore x.core
    match s.pickContext cl x.die with
    | none => (s, 0)
    | some (c, wait) =>
      let s1 := { s with comets := s.comets.set c (s.handOver b g k l n pc wait) }
      let r := s1.ejectLanes b g k n pc ls
      (r.1, r.2 ||| 2 ^ cometCore c)

/-- The minority side of a branch, its PC, and the majority with its PC; none when a side is empty or the sides are
equal in size (06 R148 condition 1). -/
def minority (taken rest : Mask) (tpc npc : Dword) : Option ((Mask × Dword) × (Mask × Dword)) :=
  let a := laneCount taken
  let b := laneCount rest
  if a = 0 ∨ b = 0 ∨ a = b then none
  else if a < b then some ((taken, tpc), (rest, npc))
  else some ((rest, npc), (taken, tpc))

/-- Conditions 2 and 3 of 06 R148. -/
def State.ejectable (s : State) (b g : Nat) (m : Mask) : Bool :=
  decide (1 ≤ (s.grp b g).ejt.toNat % 16) && decide (laneCount m ≤ (s.grp b g).ejt.toNat % 16) &&
  decide (16 ≤ (s.blk b).width)

/-- BRA.EJ of a split (06 R148, 14 R310). -/
def State.braEjSplit (t : State) (b gr k n : Nat) (m : Mask) (tgt : Dword) : State :=
  let plain := t.jump t (t.choose m fun _ => tgt)
  match minority m (minusLanes t.lanes m) tgt t.nextPc with
  | none => plain
  | some ((small, spc), (big, bpc)) =>
    if !t.ejectable b gr small then plain
    else
      let x := t.blk b
      let free := t.freeContexts (clusterOfCore x.core) x.part
      if free < laneCount small then plain.offerBlk b 0x04 gr small.toNat free
      else
        match t.pushEntry b gr k { path := false, pc := 0, mask := (t.spl b gr k).cm } with
        | none => t.takeTrap 0x61
        | some t1 =>
          let r := t1.ejectLanes b gr k n spc (lanesOf small)
          let t2 := r.1.modGrp b gr fun y => { y with ejected := y.ejected ||| small }
          (t2.modSpl b gr k fun y =>
            { y with cm := y.am, am := big, pc := bpc, pathStart := t.now, wait := .ready }).offerBlk
              b 0x03 gr small.toNat r.2

/-- BRA.EJ; on a comet core it acts as BRA (14 R301). -/
def execBraEj (g : Pred) (n : BitVec 2) (ofs : BitVec 20) (s : State) : Out :=
  laneRun (.braEj g n ofs) g s fun t =>
    match t.focus with
    | .split b gr k => .next (t.braEjSplit b gr k n.toNat (t.exec g) (t.target ofs))
    | _ => .next (t.jump t (t.choose (t.exec g) fun _ => t.target ofs))

/-! ## JOIN, EXIT, YIELD (06 R144-R146) -/

/-- JOIN: of a split (03 R90), whatever its guard; of an ejected lane, its arrival (14 R305), after which the copy-back
completes from 16 clocks on, across the bridge from 32. -/
def execJoin (g : Pred) (s : State) : Out :=
  laneRun (.join g) g s fun t =>
    match t.focus with
    | .split b gr k => .next (t.joinSplit b gr k t.nextPc)
    | .comet c =>
      let x := t.ctx c
      if x.arrived.isSome then .next t
      else
        let far := dieOfComet c != (t.blk x.blk).die
        .next (t.modCtx c fun y =>
          { y with arrived := some t.now, notBefore := t.now + if far then 32 else 16 })
    | _ => .next t

/-- Take lanes out of every mask of a group, the saved convergence masks on chip included (06 R145). -/
def Group.dropLanes (x : Group) (m : Mask) : Group :=
  { x with
    exited := x.exited ||| m, rj := minusLanes x.rj m,
    splits := x.splits.mapv fun _ y =>
      { y with am := minusLanes y.am m, cm := minusLanes y.cm m, wm := minusLanes y.wm m,
               stack := y.stack.map fun d => { d with mask := minusLanes d.mask m } } }

/-- Take lanes out of every mask of a group of a block, the spilled ones included (06 R145). -/
def State.dropLanes (s : State) (b g : Nat) (m : Mask) : State :=
  ((s.grp b g).splits.filter fun e => e.2.spilled != 0).foldl (fun (t : State) e =>
    t.writeSpill b g e.1 0 ((s.spillList b g e.1).reverse.map fun d => { d with mask := minusLanes d.mask m }))
    (s.modGrp b g fun x => x.dropLanes m)

/-- EXIT of some lanes of a split: they end, the others continue; an empty split acts as if it had executed JOIN, and
the group ends with its last lane (06 R145, 03 R91). -/
def State.exitSplit (t : State) (b gr k : Nat) (m : Mask) : State :=
  let t1 := t.dropLanes b gr m
  let t2 := if (t1.spl b gr k).am = 0 then t1.endPath b gr k else (t1.skip 4).settle b gr
  let live := minusLanes (allLanes (t2.blk b).width) (t2.grp b gr).exited
  (if m = 0 then t2 else (t2.exitArrivals b gr).exitDbars b gr live).groupEnd b gr

/-- EXIT. -/
def execExit (g : Pred) (s : State) : Out :=
  laneRun (.exit g) g s fun t =>
    match t.focus with
    | .split b gr k => .next (if t.exec g = 0 then t.skip 4 else t.exitSplit b gr k (t.exec g))
    | _ => .next t

/-- YIELD: rotates a split that holds a deferred path; the unit's group issues nothing in the next clock, and a context gives
up the next cycle of its comet core (06 R146). -/
def execYield (g : Pred) (s : State) : Out :=
  laneRun (.yield g) g s fun t =>
    match t.focus with
    | .split b gr k =>
      let t1 := (t.skip 4).modGrp b gr fun x => { x with yielded := true }
      .next (if t1.topPath b gr k then t1.rotate b gr k else t1)
    | .comet c => .next ((t.skip 4).modCtx c fun x => { x with yielded := true })
    | _ => .next t

/-! ## LIVE, TRAP, ERET (06 R147, R149, R152) -/

/-- The bits of a LIVE mask that name registers of the node (06 R147). -/
def liveMask (n : Node) (d : Dword) : Dword := d &&& BitVec.ofNat 64 (2 ^ n.vregs - 1)

/-- LIVE: once for the group; an ejected lane writes its own copy (14 R301). -/
def execLive (g : Pred) (n : BitVec 2) (a : Reg) (s : State) : Out :=
  laneRun (.live g n a) g s fun t =>
    if t.exec g = 0 then .next (t.skip 4)
    else
      let v := liveMask t.unitNode (t.rdSPair a.toNat)
      match t.focus with
      | .split b gr _ => .next ((t.modGrp b gr fun x => { x with lv := x.lv.set n.toNat v }).skip 4)
      | .comet c => .next ((t.modCtx c fun x => { x with lv := x.lv.set n.toNat v }).skip 4)
      | _ => .next t

/-- TRAP n: the software trap of the executing lanes; with none, no effect. -/
def execTrap (g : Pred) (n : BitVec 6) (s : State) : Out :=
  laneRun (.trap g n) g s fun t =>
    if t.exec g = 0 then .next (t.skip 4) else .next (t.takeTrapN 0x02 n.toNat (t.exec g) 0)

/-- The frame at an address of the context area, as ERET reads it: RPC, AMASK and the link of a lane (06 R151). -/
def State.frameRpc (s : State) (b f : Nat) : Dword := BitVec.ofNat 64 (s.readCtx b (f + 8) 8)
/-- AMASK of a frame. -/
def State.frameAmask (s : State) (b f : Nat) : Mask := BitVec.ofNat 64 (s.readCtx b (f + 32) 8)
/-- LINK of lane l of a frame. -/
def State.frameLink (s : State) (b f l : Nat) : Dword := BitVec.ofNat 64 (s.readCtx b (f + 64 + 8 * l) 8)

/-- ERET: returns a split from a vector handler (06 R152), once its earlier stores are made. -/
def State.eretSplit (t : State) (b gr k : Nat) : State :=
  let am := (t.spl b gr k).am
  let f := (t.rdVPair t.linkReg (lowestLane am)).toNat
  let rpc := t.frameRpc b f
  let v := t.touchCtx b f (64 + 8 * (t.blk b).width) false
  if t.frameAmask b f != am then v.trapWith 0xA1 am (BitVec.ofNat 64 f)
  else if badTarget rpc then v.trapWith 0x03 am rpc
  else
    let link := t.linkReg
    (v.putLanes (lanesOf t.lanes) fun u l => u.wrVPair link l (t.frameLink b f l)).modSpl b gr k fun y =>
      { y with priv := false, frame := 0, trap := none, pc := rpc, wait := .ready }

/-- ERET; unprivileged, and on a comet core, it raises the privileged-access trap (14 R301). It reads and writes the link pair,
whose tile the group must own (09 R200). -/
def execEret (g : Pred) (s : State) : Out :=
  laneRun (.eret g) g s fun t =>
    match t.focus with
    | .split b gr k =>
      if !t.privileged then .next (t.takeTrap 0xA0)
      else if !t.ownOk (usesV [(t.linkReg, 2)]) then .next (t.takeTrap 0x40)
      else if t.anyBusy (lanesOf t.lanes) then .next t
      else .next (t.eretSplit b gr k)
    | _ => .next (t.takeTrap 0xA0)

end Sys2Proof.Machine
end

