-- ==== Sys2Proof/Machine/Quant.lean ====
section
/-!
DEFINITION. Machine/Quant.lean: MX and Quisefa blocks (spec/01_numbers.md R19-R22, R27-R35) and the format word
(R36-R38).
-/

namespace Sys2Proof.Machine

/-- What a quantisation or conversion reports (R18, R26, R30): clipped values, overflow, NaN produced. -/
structure Report where
  clip : Nat
  ovf : Bool
  nan : Bool
  deriving DecidableEq, Repr, Inhabited

/-- A quantised block of 32: its scale byte and its 32 codes. -/
structure QBlock where
  scale : Nat
  codes : List Nat
  rep : Report
  deriving DecidableEq, Repr, Inhabited

/-! ## MX formats -/

/-- The element format of an MX code, or the format of a bare code (R37). -/
def fmtOf : Fmt → FFmt
  | .fp32 => fFP32
  | .fp16 => fFP16
  | .bf16 => fBF16
  | .e4m3 => fE4M3
  | .e5m2 => fE5M2
  | .qf4 => fE2M1
  | .mxE4M3 => fE4M3
  | .mxE5M2 => fE5M2
  | .mxE2M3 => fE2M3
  | .mxE3M2 => fE3M2
  | .mxE2M1 => fE2M1

/-- The largest exponent of an MX element format (R22). -/
def mxEmax : Fmt → Int
  | .mxE4M3 => 8
  | .mxE5M2 => 15
  | .mxE2M3 => 2
  | .mxE3M2 => 4
  | .mxE2M1 => 2
  | _ => 0

/-- The formats with a shared scale of E8M0 (R19). -/
def isMx : Fmt → Bool
  | .mxE4M3 => true
  | .mxE5M2 => true
  | .mxE2M3 => true
  | .mxE3M2 => true
  | .mxE2M1 => true
  | _ => false

/-- FP32, FP16 and BF16: the "float" codes of 05 R128. -/
def isFloat : Fmt → Bool
  | .fp32 => true
  | .fp16 => true
  | .bf16 => true
  | _ => false

/-- The bits of one element code (R20, R27). -/
def codeBits (f : Fmt) : Nat := if f = .qf4 then 4 else (fmtOf f).width

/-- The larger magnitude of two finite values, as (m, e); zeros are least. -/
def maxMag (a b : Nat × Int) : Nat × Int :=
  if a.1 = 0 then b
  else if b.1 = 0 then a
  else if atExp false a.1 a.2 (min a.2 b.2) < atExp false b.1 b.2 (min a.2 b.2) then b else a

/-- maxabs of the finite values of a block, as (m, e). -/
def maxAbs (xs : List FVal) : Nat × Int :=
  xs.foldl (fun t v => match v with
    | .fin _ m e => maxMag t (m, e)
    | _ => t) (0, 0)

/-- A value times 2^k. -/
def FVal.scale (v : FVal) (k : Int) : FVal :=
  match v with
  | .fin n m e => .fin n m (e + k)
  | x => x

/-- The unbiased scale exponent of an MX block (R22): floor(log2 maxabs) - emax, clamped. -/
def mxExp (f : Fmt) (m : Nat) (e : Int) : Int := clampI ((Nat.log2 m : Int) + e - mxEmax f) (-127) 127

/-- The MX scale byte for a magnitude (R22): 0 for 0, 0xFF for a NaN or an infinity. -/
def mxScale (f : Fmt) (v : FVal) : Nat :=
  match v with
  | .nan => 0xFF
  | .inf _ => 0xFF
  | .fin _ m e => if m = 0 then 0 else (mxExp f m e + 127).toNat

/-- Conversion of a block into an MX format (R22). -/
def mxBlock (f : Fmt) (r : RMode) (xs : List FVal) : QBlock :=
  let zeros := xs.map fun _ => 0
  if xs.any FVal.isNan then { scale := 0xFF, codes := zeros, rep := { clip := 0, ovf := false, nan := true } }
  else if xs.any FVal.isInf then
    { scale := 0xFF, codes := zeros, rep := { clip := (xs.filter FVal.isInf).length, ovf := true, nan := false } }
  else
    let mx := maxAbs xs
    if mx.1 = 0 then { scale := 0, codes := zeros, rep := { clip := 0, ovf := false, nan := false } }
    else
      let x := mxExp f mx.1 mx.2
      let rs := xs.map fun v => encodeF (fmtOf f) r true (v.scale (-x))
      { scale := (x + 127).toNat, codes := rs.map (·.code),
        rep := { clip := (rs.filter (·.ovf)).length, ovf := false, nan := false } }

/-- The value of an MX element code under a scale byte (R20, 05 R132). -/
def mxValue (f : Fmt) (code scale : Nat) : FVal :=
  if scale = 0xFF then .nan else (decodeF (fmtOf f) code).scale ((scale : Int) - 127)

/-! ## Quisefa blocks -/

/-- The magnitudes of a sign-magnitude table in halves (R29): QE, QP, QH. -/
def qfTable : Nat → List Nat
  | 1 => [0, 1, 2, 3, 4, 6, 8, 12]
  | 2 => [0, 2, 4, 8, 16, 32, 64, 128]
  | _ => [0, 2, 4, 6, 8, 12, 16, 24]

/-- maxmag of a type (R29). -/
def qfMax : Nat → Nat
  | 0 => 7
  | 1 => 6
  | 2 => 64
  | _ => 12

/-- The gap that continues a table, in halves (R29). -/
def qfGap : Nat → Nat
  | 1 => 4
  | 2 => 64
  | _ => 8

/-- The value of a code in a block of a type and scale exponent (R29); the code 0x8 of a sign-magnitude table reads
+0. -/
def qfValue (ty ex code : Nat) : FVal :=
  let k : Int := (ex : Int) - 32
  if ty = 0 then
    let v := sgnN 4 code
    .fin (decide (v < 0)) v.natAbs k
  else
    let m := (qfTable ty).getD (code % 8) 0
    .fin (decide (8 ≤ code) && m != 0) m (k - 1)

/-- The value of a code under a scale byte (R28): 0xFF is a NaN block. -/
def qfCodeValue (scale code : Nat) : FVal :=
  if scale = 0xFF then .nan else qfValue (scale / 64) (scale % 64) code

/-- Round a scaled value against the grid of a type and encode it (R35): the code, and whether it clipped. -/
def qfCode (ty : Nat) (r : RMode) (neg : Bool) (m : Nat) (e : Int) : Nat × Bool :=
  if ty = 0 then
    let k := roundInt (r == .rz) neg m e
    (wrapN 4 (clampI k (-8) 7), decide (k < -8 ∨ 7 < k))
  else
    -- |y| in halves is n / 2^s
    let s := (-(e + 1)).toNat
    let n := m * 2 ^ (e + 1).toNat
    let top := (qfTable ty).getLastD 0
    let g := qfGap ty
    if top * 2 ^ s ≤ n then
      let d := n - top * 2 ^ s
      let past : Bool := match r with
        | .rz => decide (g * 2 ^ s ≤ d)
        | _ => decide (g * 2 ^ s ≤ 2 * d)
      (b2n neg * 8 + 7, past)
    else
      let i := ((qfTable ty).filter fun t => t * 2 ^ s ≤ n).length - 1
      let lo := (qfTable ty).getD i 0
      let hi := (qfTable ty).getD (i + 1) 0
      let j := match r with
        | .rz => i
        | _ => if (lo + hi) * 2 ^ s ≤ 2 * n then i + 1 else i
      (if j = 0 then 0 else b2n neg * 8 + j, false)

/-- The least c, from a start and within some steps, with m x 2^e <= mm x 2^c. -/
def ceilLogFrom (mm m : Nat) (e : Int) : Nat → Int → Int
  | 0, c => c
  | n + 1, c =>
    let x := min e c
    if m * 2 ^ (e - x).toNat ≤ mm * 2 ^ (c - x).toNat then c else ceilLogFrom mm m e n (c + 1)

/-- The scale exponent for a finite maxabs (R30 step 2). -/
def qfExp (ty m : Nat) (e : Int) : Nat :=
  if m = 0 then 0
  else
    let c0 := (Nat.log2 m : Int) + e - Nat.log2 (qfMax ty) - 1
    (clampI (ceilLogFrom (qfMax ty) m e 4 c0 + 32) 0 62).toNat

/-- Quantise a block without NaN by a type and scale exponent (R30 steps 3 and 4). -/
def qfWith (ty ex : Nat) (r : RMode) (xs : List FVal) : QBlock :=
  let cs := xs.map fun v => match v with
    | .fin n m e => qfCode ty r n m (e - ((ex : Int) - 32))
    | .inf n => (if ty = 0 then (if n then 8 else 7) else b2n n * 8 + 7, true)
    | .nan => (0, false)
  { scale := 64 * ty + ex, codes := cs.map Prod.fst,
    rep := { clip := (cs.filter Prod.snd).length, ovf := xs.any FVal.isInf, nan := false } }

/-- The scale exponent in computed mode (R30 step 2). -/
def qfAutoExp (ty : Nat) (xs : List FVal) : Nat :=
  if xs.any FVal.isInf then 62 else qfExp ty (maxAbs xs).1 (maxAbs xs).2

/-- Twice the sum over the finite values of |x - decoded(x)|, in steps of 2^b (R33). -/
def qfError (b : Int) (q : QBlock) (xs : List FVal) : Nat :=
  (xs.zip q.codes).foldl (fun t p => match p.1, qfCodeValue q.scale p.2 with
    | .fin n m e, .fin n2 m2 e2 => t + (atExp n m e b - atExp n2 m2 e2 b).natAbs
    | _, _ => t) 0

/-- The NaN block (R30 step 1). -/
def qfNanBlock (xs : List FVal) : QBlock :=
  { scale := 0xFF, codes := xs.map fun _ => 0, rep := { clip := 0, ovf := false, nan := true } }

/-- A block quantised in a given type with a computed or fixed scale exponent (R30). In fixed mode an all-zero block takes
the scale exponent FE, as R30 step 2 gives it, where R32 speaks of an all-zero block's E = 0 without a mode (DESIGN CHOICE,
log 144). -/
def qfBlock (ty : Nat) (fixed : Option Nat) (r : RMode) (xs : List FVal) : QBlock :=
  if xs.any FVal.isNan then qfNanBlock xs else qfWith ty (fixed.getD (qfAutoExp ty xs)) r xs

/-- A block quantised in automatic type mode (R33): the type with the least error sum, the lower type on a tie. -/
def qfAuto (r : RMode) (xs : List FVal) : QBlock :=
  if xs.any FVal.isNan then qfNanBlock xs
  else
    let b : Int := xs.foldl (fun t v => match v with
      | .fin _ m e => if m = 0 then t else min t e
      | _ => t) (-34)
    let qs := (List.range 4).map fun ty => qfWith ty (qfAutoExp ty xs) r xs
    ((minBy (fun q => qfError b q xs) qs).getD default)

/-- Blocks of a format with these scale bytes diverge (10 R238): a NaN block, or Quisefa blocks of more than one type; the
MX blocks of one format all carry one type. -/
def divergent (f : Fmt) (bs : List Nat) : Bool :=
  bs.any (· == 0xFF) || (f == .qf4 && bs.any fun x => bs.any fun y => x / 64 != y / 64)

/-- Pack codes of w bits as a little-endian bit stream (R20, R27). -/
def packCodes (w : Nat) : List Nat → Nat
  | [] => 0
  | c :: cs => c % 2 ^ w + 2 ^ w * packCodes w cs

/-- The 64 words of two quantised blocks (05 R130): data, scale bytes, clip counts, zeros. -/
def blockWords (f : Fmt) (b0 b1 : QBlock) : List Word :=
  let wb := codeBits f
  let d0 := leWords wb (packCodes (codeBits f) b0.codes)
  let d1 := leWords wb (packCodes (codeBits f) b1.codes)
  let sc : Word := BitVec.ofNat 32 (b0.scale + 256 * b1.scale)
  let cl : Word := BitVec.ofNat 32 (b0.rep.clip + 256 * b1.rep.clip)
  d0 ++ d1 ++ [sc, cl] ++ List.replicate (62 - 2 * wb) 0

/-! ## The format word -/

/-- The fields of a format word (R36). -/
structure FormatWord where
  stat : Bool
  sat : Bool
  rnd : Nat
  fe : Nat
  smode : Nat
  auto : Bool
  qtype : Nat
  dfmt : BitVec 4
  sfmt : BitVec 4
  high : Nat
  deriving DecidableEq, Repr

/-- The fields of a format word (R36). -/
def formatWord (w : Word) : FormatWord :=
  let n := w.toNat
  { stat := bit n 22, sat := bit n 21, rnd := bits n 20 19, fe := bits n 18 13, smode := bits n 12 11, auto := bit n 10,
    qtype := bits n 9 8, dfmt := BitVec.ofNat 4 (bits n 7 4), sfmt := BitVec.ofNat 4 (bits n 3 0), high := bits n 31 23 }

/-- The rounding mode of a format word (R36). -/
def FormatWord.mode (w : FormatWord) : RMode := if w.rnd = 1 then .rz else .rna

/-- The checks of R38 step 2 that no instruction changes; `accepts` gives the pairs and modes of 05 R128. -/
def FormatWord.valid (w : FormatWord) (accepts : Fmt → Fmt → Bool) : Bool :=
  w.high == 0 && w.rnd < 2 && w.smode < 3 && !(w.smode == 1 && w.fe == 63) &&
  match decFmt w.sfmt, decFmt w.dfmt with
  | some s, some d => !(w.auto && (d != .qf4 || w.smode != 0)) && accepts s d
  | _, _ => false

end Sys2Proof.Machine
end

