-- ==== Sys2Proof/Machine/Convert.lean ====
section
/-!
DEFINITION. Machine/Convert.lean: the format-word instructions QSCALE, QPACK, QUNPK and CVT
(spec/05_lane_float.md R128-R134) and the statistics queue's records (10 R238).
-/

set_option linter.constructorNameAsVariable false

namespace Sys2Proof.Machine

/-! ## Statistics records (10 R238) -/

/-- A statistics record: words 0-2 whole, word 3 without DROPS. -/
def statRec (pc : Dword) (slot : Nat) (seq : Bool) (rep : Report) (fdiv : Bool) (elem fmt col : Nat) : StatRec :=
  { words :=
      [lowWord pc,
       BitVec.ofNat 32 (pc.toNat / 2 ^ 32 % 2 ^ 20 + 2 ^ 20 * slot + 2 ^ 26 * b2n seq + 2 ^ 27 * b2n rep.ovf +
         2 ^ 28 * b2n rep.nan + 2 ^ 29 * b2n fdiv + 2 ^ 31),
       BitVec.ofNat 32 (rep.clip % 2 ^ 16 + 2 ^ 16 * elem),
       BitVec.ofNat 32 (fmt + 16 * col)] }

/-- Append a record to the queue of a facet: 64 records; one that finds the queue full is dropped and counted. -/
def State.appendStat (s : State) (f : Nat) (r : StatRec) : State :=
  s.modFacet f fun x =>
    if x.stats.length < 64 then { x with stats := x.stats ++ [r] }
    else { x with drops := if x.drops.toNat < 0xFFFF then x.drops + 1 else x.drops }

/-- Append the records of a lane instruction (R134): to the queue of the facet that holds the group. -/
def State.appendLaneStats (s : State) (rs : List StatRec) : State :=
  rs.foldl (fun t r => t.appendStat (t.blk t.unitBlk).facet r) s

/-! ## The format word's checks (01 R38) -/

/-- The format words of the executing lanes agree; the word of the lowest of them. -/
def State.agreedWord (s : State) (g : Pred) (b : Reg) : Option Word :=
  match lanesOf (s.exec g) with
  | [] => none
  | l :: ls => if ls.all fun j => s.rdV b.toNat j == s.rdV b.toNat l then some (s.rdV b.toNat l) else none

/-- The destination formats of QSCALE and QPACK (R128). -/
def isQuant (f : Fmt) : Bool := f == .qf4 || isMx f

/-- A format-word instruction: no executing lane, no effect; lanes that disagree, 0x04; an invalid word, 0x05; else
its effect, then the next instruction (01 R38). -/
def fwRun (i : Instr) (g : Pred) (b : Reg) (ok : FormatWord → Fmt → Fmt → Bool)
    (eff : FormatWord → Fmt → Fmt → State → State) (s : State) : Out :=
  laneRun i g s fun t =>
    if t.exec g = 0 then .next (t.skip i.laneSize)
    else
      match t.agreedWord g b with
      | none => .next (t.trapWith 0x04 (t.exec g) 0)
      | some w =>
        let fw := formatWord w
        match decFmt fw.sfmt, decFmt fw.dfmt with
        | some sf, some df =>
          if fw.valid (ok fw) then .next ((eff fw sf df t).skip i.laneSize) else .next (t.trapWith 0x05 (t.exec g) 0)
        | _, _ => .next (t.trapWith 0x05 (t.exec g) 0)

/-- The value of a register's low bits in a format (R117). -/
def fmtVal (f : Fmt) (w : Word) : FVal := decodeF (fmtOf f) (w.toNat % 2 ^ (fmtOf f).width)

/-! ## QSCALE (R129) -/

/-- The scale byte of a block whose maxabs is |a| (R129). -/
def qscaleByte (fw : FormatWord) (df : Fmt) (v : FVal) : Nat :=
  if v.isNan then 0xFF
  else if df = .qf4 then
    64 * fw.qtype + (match v with
      | .fin _ m e => qfExp fw.qtype m e
      | _ => 62)
  else mxScale df v

/-- The effect of QSCALE. -/
def qscaleEffect (g : Pred) (d a : Reg) (fw : FormatWord) (sf df : Fmt) (s : State) : State :=
  let vals := (lanesOf (s.exec g)).map fun l => fmtVal sf (s.rdV a.toNat l)
  let t := vEffect g d (fun u l => BitVec.ofNat 32 (qscaleByte fw df (fmtVal sf (u.rdV a.toNat l)))) s
  if fw.stat then
    t.appendLaneStats [statRec s.pc s.unitGrp false
      { clip := 0, ovf := vals.any FVal.isInf, nan := vals.any FVal.isNan } false vals.length (encFmt df).toNat 0]
  else t

/-- QSCALE (R129). -/
def execQscale (g : Pred) (d a b : Reg) (s : State) : Out :=
  fwRun (.qscale g d a b) g b
    (fun fw x y => isFloat x && isQuant y && fw.smode == 0 && !fw.auto) (qscaleEffect g d a) s

/-! ## QPACK (R130, R131) -/

/-- One block of QPACK, quantised by the format word (R131); an infinite input overflows, in a NaN block too (R134). -/
def packBlock (fw : FormatWord) (df : Fmt) (xs : List FVal) : QBlock :=
  let q :=
    if df = .qf4 then
      if fw.auto then qfAuto fw.mode xs
      else qfBlock fw.qtype (if fw.smode = 1 then some fw.fe else none) fw.mode xs
    else mxBlock df fw.mode xs
  { q with rep := { q.rep with ovf := xs.any FVal.isInf } }

/-- The effect of QPACK: word position n is register A + n div GWIDTH of lane n mod GWIDTH (R130). -/
def qpackEffect (g : Pred) (d a : Reg) (fw : FormatWord) (sf df : Fmt) (s : State) : State :=
  let w := s.unitNode.width
  let p := s.exec g
  let x := fun n => if hasLane p (n % w) then fmtVal sf (s.rdV (a.toNat + n / w) (n % w)) else .fin false 0 0
  let b0 := packBlock fw df ((List.range 32).map x)
  let b1 := packBlock fw df ((List.range 32).map fun n => x (n + 32))
  let ws := blockWords df b0 b1
  let t := s.putLanes (List.range 64) fun u n =>
    if hasLane p (n % w) then u.wrV (d.toNat + n / w) (n % w) (ws.getD n 0) else u
  if fw.stat then
    t.appendLaneStats ([b0, b1].map fun q => statRec s.pc s.unitGrp false q.rep false 32 (encFmt df).toNat 0)
  else t

/-- QPACK (R131): SMODE 0b01 only with a QF4 destination (R128). -/
def execQpack (g : Pred) (d a b : Reg) (s : State) : Out :=
  fwRun (.qpack g d a b) g b
    (fun fw x y => isFloat x && isQuant y && (fw.smode == 0 || (fw.smode == 1 && y == .qf4))) (qpackEffect g d a) s

/-! ## QUNPK (R132) -/

/-- The element that QUNPK decodes (R132). -/
def qunpkVal (sf : Fmt) (code scale : Word) : FVal :=
  let sc := scale.toNat % 256
  let c := code.toNat % 2 ^ codeBits sf
  if sf = .qf4 then qfCodeValue sc c else mxValue sf c sc

/-- A report over the results of the executing lanes (R134). -/
def laneReport (rs : List Rounded) : Report :=
  { clip := (rs.filter (·.sat)).length, ovf := rs.any (·.ovf), nan := rs.any (·.nan) }

/-- The effect of a per-lane conversion: each executing lane's rounded result, and one record when STAT is 1; `fdiv` is its
format divergence. -/
def fwLaneEffect (g : Pred) (d : Reg) (fw : FormatWord) (df : Fmt) (f : State → Nat → Rounded) (fdiv : Bool) (s : State) :
    State :=
  let rs := (lanesOf (s.exec g)).map (f s)
  let t := vEffect g d (fun u l => BitVec.ofNat 32 (f u l).code) s
  if fw.stat then
    t.appendLaneStats [statRec s.pc s.unitGrp false (laneReport rs) fdiv rs.length (encFmt df).toNat 0]
  else t

/-- The scale bytes that the executing lanes of a QUNPK read in the register above A. -/
def qunpkScales (g : Pred) (a : Reg) (s : State) : List Nat :=
  (lanesOf (s.exec g)).map fun l => (s.rdV (a.toNat + 1) l).toNat % 256

/-- QUNPK (R132). Its record's FDIV, of which R134 says nothing, is that of 10 R238 over the blocks that the executing lanes
read (DESIGN CHOICE, log 128). -/
def execQunpk (g : Pred) (d a b : Reg) (s : State) : Out :=
  fwRun (.qunpk g d a b) g b
    (fun fw x y => isQuant x && isFloat y && fw.smode == 2 && !fw.auto)
    (fun fw sf df t => fwLaneEffect g d fw df (fun u l =>
      encodeF (fmtOf df) fw.mode fw.sat (qunpkVal sf (u.rdV a.toNat l) (u.rdV (a.toNat + 1) l)))
      (divergent sf (qunpkScales g a t)) t) s

/-! ## CVT with a format word (R133) -/

/-- CVT with a format word (R133): an MX code names the bare element with a unit scale. -/
def execCvtFw (g : Pred) (d a b : Reg) (s : State) : Out :=
  fwRun (.cvtFw g d a b) g b
    (fun fw x y => x != .qf4 && y != .qf4 && x != y && fw.smode == 0 && !fw.auto)
    (fun fw sf df t => fwLaneEffect g d fw df (fun u l =>
      encodeF (fmtOf df) fw.mode (fw.sat || isMx df) (fmtVal sf (u.rdV a.toNat l))) false t) s

end Sys2Proof.Machine
end

