-- ==== Sys2Proof/Machine/Engine.lean ====
section
/-!
DEFINITION. Machine/Engine.lean: engine registers and the instructions that start and await engine operations
(spec/09_core_tiles.md R212-R219; 10 R234; 19 R391, R392).
-/

set_option linter.constructorNameAsVariable false

namespace Sys2Proof.Machine

/-! ## Engine registers (09 R212, R214; 10 R234; 19 R391) -/

/-- The STATUS register of an engine; ERRLO and ERRHI follow it. -/
def statusReg (n : Nat) : Nat := if n = 3 then 21 else if n = 2 then 8 else 14

/-- Register r of engine n of a group slot. -/
def State.engReg (s : State) (b g n r : Nat) : Word := (s.grp b g).eng.getD (64 * n + r) 0
/-- Set a register of an engine. -/
def State.setEngReg (s : State) (b g n r : Nat) (v : Word) : State :=
  s.modGrp b g fun x => { x with eng := x.eng.set (64 * n + r) v }

/-- The bits of a register that are not reserved: CTL of a copy engine, TGT of the sparse-index engine. MODE[31:3] of Lodestar is
kept as it is written, and EGET returns it: 19 R391 maps it as RW and R392 traps on such a bit at GO, where R11 lets reserved
fields read 0 and ignore writes (DESIGN CHOICE, log 157). -/
def engMask (n r : Nat) : Word := if n < 2 ∧ r = 11 then 0x1F1 else if n = 2 ∧ r = 5 then 0x1F else 0xFFFFFFFF

/-- The group's operations on an engine that are not complete: OUT. -/
def State.engOut (s : State) (b g n : Nat) : Nat :=
  (s.engines.vals.filter fun e => e.blk == b && e.grp == g && e.engine == n).length

/-- What EGET reads: STATUS shows CAUSE and OUT; reserved numbers read 0. -/
def State.readEng (s : State) (b g n r : Nat) : Word :=
  if r = statusReg n then s.engReg b g n r &&& 0xFF00 ||| BitVec.ofNat 32 (s.engOut b g n)
  else if statusReg n + 2 < r then 0 else s.engReg b g n r

/-- CAUSE of an engine. -/
def State.engCause (s : State) (b g n : Nat) : Nat := (s.engReg b g n (statusReg n)).toNat / 256 % 256
/-- ERRLO:ERRHI of an engine. -/
def State.engErr (s : State) (b g n : Nat) : Dword :=
  pairVal (s.engReg b g n (statusReg n + 1)) (s.engReg b g n (statusReg n + 2))

/-- A fault or format error ends an operation: CAUSE and ERRLO:ERRHI (09 R219). -/
def State.setEngErr (s : State) (b g n cause : Nat) (a : Dword) : State :=
  let r := statusReg n
  ((s.setEngReg b g n r (BitVec.ofNat 32 (256 * cause))).setEngReg b g n (r + 1) (lowWord a)).setEngReg b g n (r + 2)
    (highWord a)

/-- The registers that GO captures. -/
def State.capture (s : State) (b g n : Nat) : Table Word := (List.range 64).map fun r => (r, s.engReg b g n r)

/-- CLEAR: the writable registers and CAUSE become 0 (09 R215). -/
def State.clearEng (s : State) (b g n : Nat) : State :=
  (List.range (statusReg n + 1)).foldl (fun t r => t.setEngReg b g n r 0) s

/-! ## Engine addresses (09 R213) -/

/-- An engine address is core-local. -/
def engLocal (a : Nat) : Bool := bit a 63
/-- An engine address keeps the rules of R213. -/
def engAddrOk (a : Nat) : Bool := if engLocal a then a / 2 ^ 32 % 2 ^ 31 == 0 else a < 2 ^ 52
/-- A done-counter address keeps the rules: a multiple of 8, and a core-local one lies in shared memory. -/
def State.doneOk (s : State) (b a : Nat) : Bool :=
  engAddrOk a && a % 8 == 0 &&
  (!engLocal a ||
    match s.region b (a % 2 ^ 32) 8 with
    | some (.shared _ _) => true
    | _ => false)

/-- The lowest executing lane, from which an engine instruction reads its operands (R212). -/
def State.leader (s : State) (g : Pred) : Nat := lowestLane (s.exec g)

/-- Two captured words as an address. -/
def regAddr (r : Table Word) (lo : Nat) : Nat := (pairVal (r.getD lo 0) (r.getD (lo + 1) 0)).toNat

/-- A new operation of an engine. -/
def State.startEngine (s : State) (n : Nat) (regs : Table Word) (lane : Nat) : State :=
  { s with engines := s.engines.set s.nextId
             { (default : EngineOp) with engine := n, blk := s.unitBlk, grp := s.unitGrp, lane := lane, regs := regs,
                                         issued := s.now },
           nextId := s.nextId + 1 }

/-! ## ESET, EGET, CLEAR (09 R215) -/

/-- ESET. -/
def execEset (g : Pred) (n : BitVec 2) (a : Reg) (reg : BitVec 6) (s : State) : Out :=
  laneRun (.eset g n a reg) g s fun t =>
    let m := t.exec g
    let b := t.unitBlk
    let gr := t.unitGrp
    if m = 0 then .next (t.skip 4)
    else if t.engCause b gr n.toNat ≠ 0 then .next (t.trapWith 0x82 m (t.engErr b gr n.toNat))
    else if statusReg n.toNat ≤ reg.toNat then .next (t.skip 4)
    else
      .next ((t.setEngReg b gr n.toNat reg.toNat (t.rdV a.toNat (t.leader g) &&& engMask n.toNat reg.toNat)).skip 4)

/-- EGET. -/
def execEget (g : Pred) (d : Reg) (n : BitVec 2) (reg : BitVec 6) (s : State) : Out :=
  laneSimple (.eget g d n reg) g s (vEffect g d fun t _ => t.readEng t.unitBlk t.unitGrp n.toNat reg.toNat)

/-- ECMD with a command other than GO: 1 clears, the others raise the engine-command trap. -/
def clearRun (i : Instr) (g : Pred) (n : Nat) (cmd : BitVec 6) (s : State) : Out :=
  laneRun i g s fun t =>
    let m := t.exec g
    if m = 0 then .next (t.skip 4)
    else if cmd = 1 then .next ((t.clearEng t.unitBlk t.unitGrp n).skip 4)
    else .next (t.trapWith 0x81 m (cmd.setWidth 64))

/-- ECMD n, CLEAR of a copy engine. -/
def execEcmdClear (g : Pred) (n : Bool) (a : Reg) (cmd : BitVec 6) (s : State) : Out :=
  clearRun (.ecmdClear g n a cmd) g (b2n n) cmd s
/-- ECMD 2, CLEAR. -/
def execSparseIndexClear (g : Pred) (a : Reg) (cmd : BitVec 6) (s : State) : Out :=
  clearRun (.sparseIndexClear g a cmd) g 2 cmd s
/-- ECMD 3, CLEAR. -/
def execLodestarClear (g : Pred) (a : Reg) (cmd : BitVec 6) (s : State) : Out :=
  clearRun (.lodestarClear g a cmd) g 3 cmd s

/-! ## Starting operations -/

/-- GO of an engine: the engine-error trap, the engine-argument trap, the wait for room, the wait for the issuing
lanes' earlier accesses (the fork, 08 R189), then the operation starts. -/
def goRun (i : Instr) (g : Pred) (n room : Nat) (regs : State → Table Word) (bad : State → Table Word → Bool)
    (commit : State → Table Word → State) (s : State) : Out :=
  laneRun i g s fun t =>
    let m := t.exec g
    let b := t.unitBlk
    let gr := t.unitGrp
    let r := regs t
    if m = 0 then .next (t.skip 4)
    else if t.engCause b gr n ≠ 0 then .next (t.trapWith 0x82 m (t.engErr b gr n))
    else if bad t r then .next (t.trapWith 0x80 m 0)
    else if room ≤ t.engOut b gr n then .next (t.blockUnit (.engineFull n))
    else if t.anyBusy (lanesOf m) then .next t
    else .next (((commit t r).startEngine n r (t.leader g)).skip 4)

/-- The start checks of a copy (09 R216). -/
def State.copyBad (s : State) (b : Nat) (r : Table Word) : Bool :=
  let ctl := (r.getD 11 0).toNat
  let rm := bit ctl 0
  let ring := (s.blk b).rings.find (ctl / 16 % 16)
  let c0 := (r.getD 4 0).toNat
  let c1 := (r.getD 5 0).toNat
  let d1 := (r.getD 9 0).toInt
  !engAddrOk (regAddr r 0) || (!rm && !engAddrOk (regAddr r 2)) || !s.doneOk b (regAddr r 12) ||
  (rm && (match ring with
    | none => true
    | some x => decide (d1 < 0) ||
        (c0 != 0 && c1 != 0 && decide ((x.size : Int) < ((c1 : Int) - 1) * d1 + c0))))

/-- ECMD n, GO of a copy engine: at most 16 operations of a group (09 R217). -/
def execEcmdGo (g : Pred) (n : Bool) (a : Reg) (s : State) : Out :=
  goRun (.ecmdGo g n a) g (b2n n) 16 (fun t => t.capture t.unitBlk t.unitGrp (b2n n))
    (fun t r => t.copyBad t.unitBlk r) (fun t _ => t) s

/-- The registers of COPY: SRC and DST from the two pairs. -/
def State.copyRegs (t : State) (n : Nat) (a b : Reg) (l : Nat) : Table Word :=
  let r := t.capture t.unitBlk t.unitGrp n
  (((r.set 0 (t.rdV a.toNat l)).set 1 (t.rdV (a.toNat + 1) l)).set 2 (t.rdV b.toNat l)).set 3 (t.rdV (b.toNat + 1) l)

/-- Write captured registers 0-3 back: COPY sets SRC and DST. -/
def State.putSrcDst (t : State) (n : Nat) (r : Table Word) : State :=
  (List.range 4).foldl (fun u j => u.setEngReg t.unitBlk t.unitGrp n j (r.getD j 0)) t

/-- COPY. -/
def execCopy (g : Pred) (n : Bool) (a b : Reg) (s : State) : Out :=
  goRun (.copy g n a b) g (b2n n) 16 (fun t => t.copyRegs (b2n n) a b (t.leader g)) (fun t r => t.copyBad t.unitBlk r)
    (fun t r => t.putSrcDst (b2n n) r) s

/-- The start checks of the sparse-index engine (10 R234). -/
def State.sparseBad (s : State) (b : Nat) (r : Table Word) : Bool :=
  let md := regAddr r 0
  !engAddrOk md || md % 4 != 0 || 1 < (r.getD 2 0).toNat || !s.doneOk b (regAddr r 6)

/-- ECMD 2, GO: one operation of a group (10 R234). -/
def execSparseIndexGo (g : Pred) (a : Reg) (s : State) : Out :=
  goRun (.sparseIndexGo g a) g 2 1 (fun t => t.capture t.unitBlk t.unitGrp 2) (fun t r => t.sparseBad t.unitBlk r)
    (fun t _ => t) s

/-! ## EWAIT (09 R218) -/

/-- EWAIT: waits until the counter has reached the target; its completing read is an acquire of every executing lane. The read
comes after the lane's earlier accesses to the counter. A counter in global memory is waited on as WAITC does. -/
def execEwait (g : Pred) (a b : Reg) (s : State) : Out :=
  laneRun (.ewait g a b) g s fun t =>
    let m := t.exec g
    let l := t.leader g
    let c := (t.rdVPair a.toNat l).toNat
    let target := (t.rdVPair b.toNat l).toNat
    let blk := t.unitBlk
    if m = 0 then .next (t.skip 4)
    else if t.anyAcquiring (lanesOf m) then .next t
    else if !t.doneOk blk c then .next (t.trapWith 0x80 m 0)
    else if engLocal c then
      match t.region blk (c % 2 ^ 32) 8 with
      | some (.shared home off) =>
        if !t.mayPerform (t.threadOf l) t.nextId 0 (sharedKey home off) 8 .n .load then .next t
        else if target ≤ (t.blk home).shared.read off 8 then .next (t.acquireUnit.skip 4)
        else .next (t.blockUnit (.ewait g a b c target))
      | _ => .next (t.trapWith 0x80 m 0)
    else
      match t.translatePieces .load false noAtomics [{ lane := l, ea := BitVec.ofNat 64 c, va := c }] with
      | .stop u => .next u
      | .ok hs =>
        match t.poisonTrap hs 8 with
        | some u => .next u
        | none =>
          if !hs.all fun h => t.mayPerform (t.threadOf l) t.nextId 0 h.key 8 h.entry.mt .load then .next t
          else if (hs.any fun h => h.entry.mt == .s) && t.anyBusy (lanesOf m) then .next t
          else
            match t.accessStop .read 8 hs with
            | some u => .next u
            | none =>
              let p := t.site
              let u := ((hs.foldl (fun x h => x.useEntry p h.entry h.l1) t).clearFaults p.asker).chargeUnit
                (hs.map fun h => (h.key, 32))
              let key := match hs with
                | h :: _ => h.key
                | [] => 0
              if target ≤ t.mem.read key 8 then .next (u.releaseMonitors.acquireUnit.skip 4)
              else .next ((u.armAll 8 .geZ [(key, target)]).blockUnit (.ewait g a b c target))

end Sys2Proof.Machine
end

