-- ==== Sys2Proof/Machine/DieSync.lean ====
section
/-!
DEFINITION. Machine/DieSync.lean: DBAR and EMIT (spec/16_die_memory.md R350-R352; 15 R320, R321).
-/

set_option linter.constructorNameAsVariable false

namespace Sys2Proof.Machine

/-! ## DBAR (16 R350-R352) -/

/-- EXPd of a die-barrier object. -/
def State.dbarExp (s : State) (o d : Nat) : Nat := s.mem.read (o + 8 + 2 * d) 2

/-- The object checks of step 3 of R352: MAGIC, the reserved CTL bits, EXPd of the issuing die. -/
def State.dbarBad (s : State) (o d : Nat) : Bool :=
  s.mem.read o 4 != 0x52414244 || 3 < s.mem.read (o + 4) 4 || s.dbarExp o d == 0

/-- The die of a group's block. -/
def State.dieOf (s : State) (b : Nat) : Nat := (s.blk b).die

/-- Lanes of a split at an object whose checks have passed: they arrive, wait or depart (16 R352). -/
def State.dbarStep (t : State) (b g k o : Nat) (ea : Dword) (m : Mask) : State :=
  let x := t.dbars.getD o default
  let key := 64 * b + g
  let live := minusLanes (allLanes (t.blk b).width) (t.grp b g).exited
  let r := ({ (default : Barrier) with groups := x.groups } : Barrier).syncStep key live m id
  let y := { x with groups := r.1.groups }.note key (t.dieOf b) b g t.now (x.groups.getD key default)
  let u := { t with dbars := t.dbars.set o y }
  match r.2 with
  | .go => u.acquireUnit.skip 4
  | _ => u.block b g k (.dieBarrier o ea m)

/-- The lanes have arrived at the object already: they wait there, or their phase has completed. -/
def State.dbarArrived (t : State) (b g o : Nat) (m : Mask) : Bool :=
  let y := (t.dbars.getD o default).groups.getD (64 * b + g) default
  m != 0 && subLanes m (y.sync ||| y.done)

/-- The lanes' arrival at the object was taken back while their block was out: they trap (16 R352). -/
def State.dbarFailed (t : State) (b g o : Nat) (m : Mask) : Bool :=
  m != 0 && subLanes m ((t.dbars.getD o default).failed.getD (64 * b + g) 0)

/-- The trap of lanes whose arrival was taken back. -/
def State.dbarLate (t : State) (b g o : Nat) (ea : Dword) (m : Mask) : State :=
  ({ t with dbars := t.dbars.modify o fun x => { x with failed := x.failed.modify (64 * b + g) (minusLanes · m) } } :
    State).trapWith 0x65 m ea

/-- DBAR: once for the group, on the address of its lowest executing lane. The object is read once the lanes' earlier accesses are
done. Lanes that have arrived are not checked again. -/
def execDbar (g : Pred) (a : Reg) (s : State) : Out :=
  laneRun (.dbar g a) g s fun t =>
    match t.focus with
    | .split b gr k =>
      let m := t.exec g
      let l := t.leader g
      let ea := t.rdVPair a.toNat l
      if m = 0 then .next (t.skip 4)
      else
        match (t.spl b gr k).wait with
        | .blocked (.dieBarrier o ea m) _ => .next (t.dbarStep b gr k o ea m)
        | _ =>
          if t.anyAcquiring (lanesOf m) then .next t
          else
            match t.checkGlobal [l] 64 (fun _ => ea) with
            | some u => .next u
            | none =>
              match t.translatePieces .store true notNormal [{ lane := l, ea := ea, va := ea.toNat }] with
              | .stop u => .next u
              | .ok hs =>
                let o := match hs with
                  | h :: _ => h.key
                  | [] => 0
                if t.dbarArrived b gr o m then .next (t.dbarStep b gr k o ea m)
                else if t.dbarFailed b gr o m then .next (t.dbarLate b gr o ea m)
                else if t.anyBusy (lanesOf m) then .next t
                else
                  match (t.accessStop .read 64 (hs.filter fun h => !isRemote h.key)).orElse fun _ => t.poisonTrap hs 64 with
                  | some u => .next u
                  | none =>
                    if isRemote o || t.dbarBad o (t.dieOf b) || (lanesOf m).any fun j => t.rdVPair a.toNat j != ea then
                      .next (t.trapWith 0x65 m ea)
                    else
                      let p := t.site
                      let u := hs.foldl (fun x h => ((x.useEntry p h.entry h.l1).setDirty h.entry).noteFrame
                        (t.blk b).vf (h.entry.frame h.va)) t
                      .next (((u.clearFaults p.asker).chargeUnit [(o, 64)]).dbarStep b gr k o ea m)
    | _ => .next t

/-! ## EMIT (15 R320, R321) -/

/-- The queue that a value names: a successor of the node below 4, else an address. -/
def emitQueue (n : Node) (q : Nat) : Nat := if q < 4 then n.next.getD q 0 else q

/-- One lane's record: the lane, its 64 bytes (0-7 are not written), the intermediate frame and the address of its slot. -/
structure EmitLane where
  lane : Nat
  bytes : List Byte
  frame : Nat
  ea : Dword
  deriving DecidableEq, Repr

/-- The 64 bytes of a source: shared memory, or the key that a translation gives. -/
def State.srcBytes (s : State) (key : Nat) : List Byte :=
  if isShared key then (s.blk (sharedHome key)).shared.bytes (sharedOff key) 64 else s.mem.bytes key 64

/-- The stores of one record: bytes 8-63 of the slot, then its stamp with release. The stores of all records are those of one
instruction. -/
def State.emitRecord (t : State) (inst : Nat) (e : EmitLane) (slot stamp : Nat) : State :=
  let base : StoreOp :=
    { thread := t.threadOf e.lane, blk := t.unitBlk, cache := t.unitCache, cells := cellsAt (slot + 8) (e.bytes.drop 8),
      shared := none, stash := none, mt := .n, after := 0,
      notBefore := if isDevice slot then t.now + storeClocks t.site.die slot
        else if isRemote slot then t.now + remoteClocks true slot else t.now,
      performed := false, host := t.outside slot, vf := (t.blk t.unitBlk).vf, frame := some e.frame, ea := e.ea, inst := inst }
  let u := t.addStore base
  u.addStore { base with cells := cellsAt slot (leBytes 8 stamp), after := u.nextId }

/-- The region of a core-local source of EMIT (09 R213): shared memory, or a stash window. -/
def State.emitLocal (t : State) (src : Nat) : Option Region := t.region t.unitBlk (src % 2 ^ 32) 64

/-- A source of EMIT in a stash window that holds no mapping (R156 step 3). -/
def State.emitUnmapped (t : State) (src : Nat) : Bool :=
  match t.emitLocal src with
  | some (.stash w _) => engLocal src && (t.blk t.unitBlk).winMaps w == 0
  | _ => false

/-- The global address of a source of EMIT, its own or that which its stash window maps; none in shared memory. -/
def State.emitGlobal (t : State) (src : Nat) : Option Nat :=
  if engLocal src then
    match t.emitLocal src with
    | some (.stash w off) => some ((t.blk t.unitBlk).winMaps w + off)
    | _ => none
  else some src

/-- The checks of EMIT before translation: alignment of every source and queue, then range. -/
def State.emitCheck (t : State) (ls : List Nat) (src q : Nat → Nat) : Option State :=
  match failOf ls fun l => if src l % 64 ≠ 0 ∨ q l % 128 ≠ 0 then some 0x36 else none with
  | some (c, m) =>
    let l := lowestLane m
    some (t.trapWith c m (BitVec.ofNat 64 (if src l % 64 ≠ 0 then src l else q l)))
  | none =>
    match failOf ls fun l =>
        if engLocal (src l) ∧ engAddrOk (src l) = false then some 0x80
        else if engLocal (src l) ∧ (t.emitLocal (src l)).isNone then some 0x38
        else if (engLocal (src l) = false ∧ 2 ^ 52 ≤ src l) ∨ 2 ^ 52 ≤ q l then some 0x37 else none with
    | some (c, m) =>
      let l := lowestLane m
      some (t.trapWith c m (if c = 0x80 then 0 else if c = 0x38 then BitVec.ofNat 64 (src l % 2 ^ 32)
        else BitVec.ofNat 64 (if engLocal (src l) = false ∧ 2 ^ 52 ≤ src l then src l else q l)))
    | none =>
      match failOf ls fun l => if t.emitUnmapped (src l) then some 0x39 else none with
      | some (c, m) => some (t.trapWith c m (BitVec.ofNat 64 (src (lowestLane m) % 2 ^ 32)))
      | none => none

/-- The claim of a queue at its home: `n` slots from TAIL, if free (R321). -/
def State.emitRoom (t : State) (o n : Nat) : Bool :=
  decide (t.mem.read (o + 16) 8 - t.mem.read (o + 32) 8 + n ≤ t.mem.read (o + 4) 4)

/-- The address of the slot of record i of the queue at key o. -/
def State.emitSlot (t : State) (o i : Nat) : Nat := t.mem.read (o + 40) 8 + 64 * (i % t.mem.read (o + 4) 4)

/-- The queue is full: a monitor on HEAD wakes the EMIT (15 R321). -/
def State.emitWait (t : State) (o qva : Nat) : State :=
  ((t.armAll 8 .ne [(o + 32, t.mem.read (o + 32) 8)]).blockUnit (.emit qva)).clearFaults t.site.asker

/-- The claim of the slots, and the stores of the records; the unit waits until every stamp is written. No copy of TAIL stays with
the emitting lanes (08 R186). -/
def State.emitClaim (t : State) (ls : List Nat) (o tail : Nat) (qs hs : List Hit) (srcKey : Nat → Nat) : State :=
  let p := t.site
  let vf := (t.blk t.unitBlk).vf
  let n := ls.length
  let u := ((qs ++ hs).foldl (fun x h => (x.useEntry p h.entry h.l1).setDirty h.entry) t).clearFaults p.asker
  let v := ((u.releaseMonitors).commit (cellsAt (o + 16) (leBytes 8 (tail + n))) none vf).chargeUnit
    ((o + 16, 64) :: ls.map fun l => (srcKey l, 64))
  let w := (qs.take 1).foldl (fun x h => x.noteFrame vf (h.entry.frame h.va)) v
  let x := ls.foldl (fun y l => y.dropOthers (t.threadOf l) none (wordsOf (o + 16) 8)) w
  ((List.zip hs (List.range n)).foldl (fun y e =>
    y.emitRecord (t.nextId + 1)
      { lane := e.1.lane, bytes := t.srcBytes (srcKey e.1.lane), frame := e.1.entry.frame e.1.va, ea := e.1.ea }
      e.1.key (tail + e.2 + 1)) x).holdUnit (.stamps (t.nextId + 1))

/-- EMIT once its queue is known good (`qs`: its translations): the wait for room, or the claim, in host memory or on another
package by an atomic of its own (20 R414; 21 R428), and the stores of the records. -/
def State.emitGo (t : State) (ls : List Nat) (o qva : Nat) (qs : List Hit) (srcKey : Nat → Nat) : State :=
  if !t.emitRoom o ls.length then t.emitWait o qva
  else
    let tail := t.mem.read (o + 16) 8
    let pieces := (List.zip ls (List.range ls.length)).map fun x =>
      ({ lane := x.1, ea := BitVec.ofNat 64 (t.emitSlot o (tail + x.2)), va := t.emitSlot o (tail + x.2) } : Piece)
    match t.translatePieces .store true noAtomics pieces with
    | .stop u => u
    | .ok hs =>
      if hs.any fun h => t.pageHeld h.key then t
      else
        match t.outsideStop .atomic 8 ((qs.take 1).map fun h => { h with va := h.va + 16 }) with
        | some u => u
        | none => t.emitClaim ls o tail qs hs srcKey

/-- The stores of an EMIT's records are performed: it goes on (15 R321). -/
def State.emitDone (t : State) (inst : Nat) : State :=
  if t.stores.vals.any fun x => x.inst == inst && !x.performed then t else t.skip 4

/-- The pieces of the checks of EMIT after its ranges, in ascending lanes: the source in global memory, then the queue; with their
translations. -/
def State.emitPieces (t : State) (ls : List Nat) (src q : Nat → Nat) : List (Piece × Res) :=
  let piece (l va : Nat) : Piece := { lane := l, ea := BitVec.ofNat 64 va, va := va }
  ls.flatMap fun l =>
    (match t.emitGlobal (src l) with
      | some va => [(piece l va, t.resolve t.site .load false va)]
      | none => []) ++
    [(piece l (q l), t.resolve t.site .store true (q l))]

/-- The memory types that EMIT may not touch: a source by a stash window needs N (07 R161), all others N or S. -/
def State.emitForbid (t : State) (src : Nat → Nat) (h : Hit) : Bool :=
  if engLocal (src h.lane) && t.emitGlobal (src h.lane) == some h.va then notNormal h.entry.mt else noAtomics h.entry.mt

/-- The object checks of EMIT (R321): a lane whose queue is none, is no queue of the block's partition, is not that of the lowest
lane, or has fewer slots than lanes emit. -/
def State.emitBad (t : State) (ls : List Nat) (q : Nat → Nat) (qkey : Nat → Nat) (l : Nat) : Bool :=
  q l == 0 || t.mem.read (qkey l) 4 != 0x51544E49 || t.mem.read (qkey l + 52) 4 != (t.blk t.unitBlk).ptag.toNat ||
  q l != q (ls.headD 0) || decide (t.mem.read (qkey l + 4) 4 < ls.length)

/-- EMIT whose addresses are translated: its sources and queues are read, then the object checks. -/
def State.emitRead (t : State) (ls : List Nat) (src q : Nat → Nat) (hits : List Hit) : State :=
  let hs := hits.filter fun h => t.emitGlobal (src h.lane) == some h.va
  let qs := hits.filter fun h => q h.lane == h.va
  let near := fun l => match t.emitLocal (src l) with
    | some (.shared home off) => if engLocal (src l) then some (sharedKey home off) else none
    | _ => none
  let nears := ls.filterMap fun l => (near l).map fun k =>
    { (default : Access) with lane := l, ea := BitVec.ofNat 64 (src l % 2 ^ 32), key := k }
  match ((t.accessStop .read 64 hs).orElse fun _ => t.accessStop .read 128 qs).orElse fun _ =>
      (t.poisonLocal hs nears 64).orElse fun _ => t.poisonTrap qs 128 with
  | some u => u
  | none =>
    let qkey := fun l => ((qs.find? fun h => h.lane == l).map Hit.key).getD 0
    match failOf ls fun l => if t.emitBad ls q qkey l then some 0x66 else none with
    | some (c, m) => t.trapWith c m (BitVec.ofNat 64 (q (lowestLane m)))
    | none =>
      let key := fun l => (near l).getD (((hs.find? fun h => h.lane == l).map Hit.key).getD 0)
      t.emitGo ls (qkey (ls.headD 0)) (q (ls.headD 0)) qs key

/-- What the executing unit waits for. -/
def State.unitWait (t : State) : Wait :=
  match t.focus with
  | .split b g k => (t.spl b g k).wait
  | .comet c => (t.ctx c).wait
  | _ => .ready

/-- EMIT. Its checks come over all lanes and both operands, step by step (07 R156). Once its slots are claimed its unit waits for
its stores (`State.retryStep`). -/
def execEmit (g : Pred) (a b : Reg) (s : State) : Out :=
  laneRun (.emit g a b) g s fun t =>
    let ls := lanesOf (t.exec g)
    let src := fun l => (t.rdVPair a.toNat l).toNat
    let q := fun l => emitQueue t.unitNode (t.rdVPair b.toNat l).toNat
    if ls = [] then .next (t.skip 4)
    else if t.anyBusy ls then .next t
    else
      match t.emitCheck ls src q with
      | some u => .next u
      | none =>
        match t.settlePieces (t.emitForbid src) (t.emitPieces ls src q) with
        | .stop u => .next u
        | .ok hs => .next (t.emitRead ls src q hs)

end Sys2Proof.Machine
end

