-- ==== Sys2Proof/Machine/Sync.lean ====
section
/-!
DEFINITION. Machine/Sync.lean: GIVE, TAKE and the fill rings (spec/09_core_tiles.md R201-R204, R210, R211).
-/

set_option linter.constructorNameAsVariable false

namespace Sys2Proof.Machine

/-! ## Tile hand-over (09 R201-R204) -/

/-- A tile is bound by some handle of the tile map. -/
def Block.tileBound (b : Block) (t : Nat) : Bool := b.bound.any fun e => e.2 == t

/-- The clocks after which a TAKE traps: FCTL.TLIM in units of 1,024, 0 for 256 units (09 R203, 10 R221). -/
def State.takeLimit (s : State) (b : Nat) : Nat :=
  let t := (s.facet (s.blk b).facet).fctl.toNat / 65536 % 256
  1024 * (if t = 0 then 256 else t)

/-- A tile can be taken now: in transfer to this recipient, no write pending, and given, or last written, in an earlier
clock (R202). -/
def State.takeReady (s : State) (b t : Nat) (r : TileOwner) : Bool :=
  (s.blk b).tile t == .transfer r && s.pend b t == 0 &&
  match (s.blk b).gave.find t with
  | some n => decide (n < s.now)
  | none => true

/-- The tile passes to a new owner. -/
def State.takeTile (s : State) (b t : Nat) (o : TileOwner) : State :=
  s.modBlk b fun x => { x.setTile t (.owned o) with gave := x.gave.erase t }

/-- A tile passes into transfer. -/
def State.giveTile (s : State) (b t : Nat) (r : TileOwner) : State :=
  s.modBlk b fun x => { x.setTile t (.transfer r) with gave := x.gave.set t s.now }

/-- Earlier core-local accesses of lanes that a hand-over waits for (08 R182): shared and stash stores not performed,
shared loads not read. -/
def State.localBusy (s : State) (ls : List Nat) : Bool :=
  ls.any fun l =>
    (s.stores.vals.any fun x => x.thread == s.threadOf l && (x.shared.isSome || x.stash.isSome) && !x.performed) ||
    s.ops.vals.any fun o => o.blk == s.unitBlk && o.grp == s.unitGrp &&
      (o.of l).any fun a => (isShared a.key || o.cache == stashCache s.unitBlk) && a.val.isNone

/-- GIVE: the group's tile passes into transfer to the sequencer, any column. -/
def execGive (g : Pred) (a : Reg) (s : State) : Out :=
  laneRun (.give g a) g s fun t =>
    match t.focus with
    | .split b gr _ =>
      let m := t.exec g
      let tile := (t.blk b).groupTile gr a.toNat
      if m = 0 then .next (t.skip 4)
      else if !(t.blk b).tileBound tile then .next (t.trapWith 0x42 m 0)
      else if !(t.blk b).groupOwns gr tile then .next (t.takeTrap 0x40)
      else if t.localBusy (lanesOf m) then .next t
      else .next ((t.giveTile b tile .seqAny).skip 4)
    | _ => .next t

/-- TAKE: at once where the group owns the tile or can take it, else the split waits. -/
def execTake (g : Pred) (a : Reg) (s : State) : Out :=
  laneRun (.take g a) g s fun t =>
    match t.focus with
    | .split b gr k =>
      let m := t.exec g
      let tile := (t.blk b).groupTile gr a.toNat
      if m = 0 then .next (t.skip 4)
      else if !(t.blk b).tileBound tile then .next (t.trapWith 0x42 m 0)
      else if (t.blk b).groupOwns gr tile then .next (t.skip 4)
      else if t.takeReady b tile (.group gr) then .next ((t.takeTile b tile (.group gr)).skip 4)
      else .next (t.block b gr k (.take tile m))
    | _ => .next t

/-! ## Fill rings (09 R210, R211) -/

/-- A reader claims the next filled slot. -/
def Ring.claim (r : Ring) : Ring := { r with ri := (r.ri + 1) % r.slots, filled := r.filled - 1, held := r.held + 1 }
/-- The oldest held slot is returned. -/
def Ring.giveBack (r : Ring) : Ring := { r with di := (r.di + 1) % r.slots, held := r.held - 1, free := r.free + 1 }
/-- A fill claims a slot. -/
def Ring.startFill (r : Ring) : Ring := { r with fi := (r.fi + 1) % r.slots, free := r.free - 1 }
/-- A fill is complete. -/
def Ring.endFill (r : Ring) : Ring := { r with filled := r.filled + 1 }
/-- The core-local address of slot k. -/
def Ring.slotAddr (r : Ring) (k : Nat) : Nat := r.offset + k * r.size

/-- Set a ring of a block. -/
def State.setRing (s : State) (b n : Nat) (r : Ring) : State := s.modBlk b fun x => { x with rings := x.rings.set n r }

/-- RWAIT: claims the next filled slot, an acquire; with none the unit waits. -/
def execRwait (g : Pred) (d : Reg) (r : BitVec 4) (s : State) : Out :=
  laneRun (.rwait g d r) g s fun t =>
    let m := t.exec g
    let b := t.unitBlk
    if m = 0 then .next (t.skip 4)
    else
      match (t.blk b).rings.find r.toNat with
      | none => .next (t.trapWith 0x62 m (r.setWidth 64))
      | some x =>
        if x.filled = 0 then .next (t.blockUnit (.ring r.toNat))
        else
          let u := (t.setRing b r.toNat x.claim).putLanes (lanesOf m) fun v l => v.wrV d.toNat l (BitVec.ofNat 32 x.ri)
          .next (u.acquireUnit.skip 4)

/-- RDONE: returns the oldest held slot, a release. -/
def execRdone (g : Pred) (r : BitVec 4) (s : State) : Out :=
  laneRun (.rdone g r) g s fun t =>
    let m := t.exec g
    let b := t.unitBlk
    if m = 0 then .next (t.skip 4)
    else
      match (t.blk b).rings.find r.toNat with
      | none => .next (t.trapWith 0x62 m (r.setWidth 64))
      | some x =>
        if x.held = 0 then .next (t.trapWith 0x63 m (r.setWidth 64))
        else if t.anyBusy (lanesOf m) then .next t
        else .next ((t.setRing b r.toNat x.giveBack).skip 4)

end Sys2Proof.Machine
end

