-- ==== Sys2Proof/Machine/EvMem.lean ====
section
/-!
DEFINITION. Machine/EvMem.lean: the steps of the memory path (spec/07_lane_memory.md R158, R163, R169-R176; 08 R184-R188;
09 R202, R203; 14 R296; 15 R321; 16 R338; 18 R374-R378; 20 R409, R414; 21 R421, R425).

An operation in flight is named by its number; one of its parts by its place in the operation's list. A step whose
condition does not hold does not occur: the state stays as it is.
-/

set_option linter.constructorNameAsVariable false

namespace Sys2Proof.Machine

/-- Change part `i` of operation `id`. -/
def State.modAccess (s : State) (id i : Nat) (f : Access → Access) : State :=
  { s with ops := s.ops.modify id fun o => { o with acc := o.acc.modify i f } }

/-! ## Reads at a home (08 R184, R186, R187; 18 R375) -/

/-- A cache other than the reader's owns a word of the range. -/
def State.ownedElsewhere (s : State) (cache key n : Nat) : Bool :=
  !isShared key && (wordsOf key n).any fun w => match s.owners.find w with
    | some x => x.cache != cache
    | none => false

/-- The copies that a read leaves: of a read-only page the die's read-only cache takes the line (16 R339); a relaxed load of an
N page brings the line to its cache, unless it is non-temporal; any other read leaves none of its bytes there. The other
caches of the lane keep no older value (08 R184 item 3). -/
def State.afterRead (s : State) (o : LaneOp) (a : Access) : State :=
  if isShared a.key then s
  else if a.ro && !orderedType a.mt then s.fillRo (s.blk o.blk).die (s.blk o.blk).part a.key
  else
    let fill := a.mt == .n && !o.acq && !o.nt
    let t := if fill then s.fillLine o.cache a.key else s.dropCopies o.cache a.key o.bytes
    t.dropOthers (o.thread a) (if fill then some o.cache else none) (wordsOf a.key o.bytes)

/-- Serve a part of a load with the value at its home, through its slice (18 R371, R377). -/
def State.serve (s : State) (id i : Nat) (o : LaneOp) (a : Access) : State :=
  let t := s.modAccess id i fun x => { x with val := some (s.readKey a.key o.bytes) }
  let u := t.afterRead o a
  if isDevice a.key then
    (u.fillSlice (s.blk o.blk).vf (fillOf a.mt o.nt) false a.key).charge a.key (s.blk o.blk).part (roundUp o.bytes 32)
  else u

/-- The words of a range that a stash of the reader's own core owns: an access of its L1 first writes them back (07 R165). -/
def State.ownStashed (s : State) (o : LaneOp) (a : Access) : List Nat :=
  (wordsOf a.key o.bytes).filter fun w => match s.owners.find w with
    | some x => x.cache != o.cache && s.sameCore x.cache o.cache && decide (2 ^ 20 ≤ x.cache)
    | none => false

/-- The registry entries of a range are used (18 R374). -/
def State.useOwners (s : State) (key n : Nat) : State :=
  { s with owners := (wordsOf key n).foldl (fun t w => t.modify w fun x => { x with used := s.now }) s.owners }

/-- HOME_READ: the read is served, or forwarded to the owner of a word of it. -/
def execHomeRead (id part : Nat) (s : State) : Out :=
  match s.ops.find id with
  | none => .next s
  | some o =>
    match o.acc[part]? with
    | none => .next s
    | some a =>
      if !s.readable id o a || s.arbHeld a.key (s.blk o.blk).part then .next s
      else if s.ownedElsewhere o.cache a.key o.bytes then .next (s.modAccess id part fun x => { x with fwd := true })
      else .next (s.serve id part o a)

/-- OWNER_FORWARD: the owner returns its value. -/
def execOwnerForward (id part : Nat) (s : State) : Out :=
  match s.ops.find id with
  | none => .next s
  | some o =>
    match o.acc[part]? with
    | none => .next s
    | some a =>
      if a.fwd && s.readable id o a then
        .next (((s.revoke none (s.ownStashed o a)).useOwners a.key o.bytes).serve id part o a)
      else .next s

/-- The clocks of a forward from a wrong die to the homes of some keys (16 R338). -/
def forwardClocks (d : Nat) (keys : List Nat) : Nat :=
  if keys.any fun k => isDevice k && homeDie k / 4 != d / 4 then 90 else 60

/-- HINTED_REQUEST_FORWARD: a request that waited at a wrong die goes to the page's home (16 R338). -/
def execHintedRequestForward (id : Nat) (s : State) : Out :=
  match s.ops.find id with
  | some o =>
    match o.hint with
    | none => .next s
    | some d =>
      let late := o.notBefore + forwardClocks d (o.acc.map (·.key))
      .next { s with ops := s.ops.set id { o with hint := none, notBefore := late } }
  | none =>
    match s.stores.find id with
    | none => .next s
    | some x =>
      match x.hint with
      | none => .next s
      | some d =>
        let late := x.notBefore + forwardClocks d (x.cells.map Prod.fst)
        .next { s with stores := s.stores.set id { x with hint := none, notBefore := late } }

/-! ## Atomics at their home (07 R169, R172; 18 R378) -/

/-- The operations of a list of parts applied one after another to the bytes at a key: the old values in order, and the
last value. -/
def atomChain (f : AtomFn) (n : Nat) : Nat → List Access → List Nat × Nat
  | v, [] => ([], v)
  | v, a :: t =>
    let r := atomChain f n (atomNew f n v a.opnds) t
    (v :: r.1, r.2)

/-- Parts of an atomic that take effect in one indivisible step, in ascending lanes; the copies that the lanes' own caches hold
are dropped (08 R186). -/
def State.applyAtomic (s : State) (id : Nat) (o : LaneOp) (f : AtomFn) (ps : List (Nat × Access)) : State :=
  match ps with
  | [] => s
  | p :: _ =>
    let key := p.2.key
    let r := atomChain f o.bytes (s.mem.read key o.bytes) (ps.map Prod.snd)
    let vf := (s.blk o.blk).vf
    let t := s.commit (cellsAt key (leBytes o.bytes r.2)) none vf (fillOf p.2.mt false)
    let v := match p.2.frame with
      | some f => t.noteFrame vf f
      | none => t
    (List.zip ps r.1).foldl (fun u x =>
      (u.modAccess id x.1.1 fun y => { y with val := some x.2 }).dropOthers (o.thread x.1.2) none (wordsOf key o.bytes)) v

/-- HOME_ATOMIC: the lanes of one address, as one step. -/
def execHomeAtomic (id addr : Nat) (s : State) : Out :=
  match s.ops.find id with
  | none => .next s
  | some o =>
    match o.kind with
    | .load => .next s
    | .atomic f =>
      let ps := o.parts.filter fun p => p.2.ea.toNat == addr && p.2.val.isNone && !atomOutside p.2.key
      if ps = [] ∨ (ps.all fun p => s.atomReady id o p.2 && !s.arbHeld p.2.key (s.blk o.blk).part) = false then .next s
      else .next ((s.applyAtomic id o f ps).charge ((ps.map fun p => p.2.key).headD 0) (s.blk o.blk).part 64)

/-! ## Landing (07 R158, R169, R170; 09 R202) -/

/-- Word j of a value. -/
def wordOf (v j : Nat) : Word := BitVec.ofNat 32 (v / 2 ^ (32 * j))

/-- The destination words of a lane's value, from register d on. -/
def LaneOp.words (o : LaneOp) (v : Nat) : List (Nat × Word) :=
  (List.range ((o.bytes + 3) / 4)).map fun j => (o.d.toNat + j, wordOf v j)

/-- A word is marked poisoned, in a list of those that are. -/
def addPoison (key : Nat) (l : List Nat) : List Nat := key :: l.filter (· != key)

/-- Write registers and the pair of one lane of a group, and of the comet context that the lane has been ejected to. -/
def State.landGroup (s : State) (o : LaneOp) (a : Access) (v : Nat) : State :=
  let above := match a.opnds with
    | _ :: b :: _ => decide (b < v)
    | _ => false
  let s1 := s.modBlk o.blk fun x => (o.words v).foldl (fun y w => y.putReg (y.regKey o.grp w.1 a.lane) w.2) x
  let s2 := match o.pair with
    | some k => if k = 0 then s1 else s1.modGrp o.blk o.grp fun y =>
        { y with preds := y.preds.set k.toNat (putLane (y.preds.getD k.toNat 0) a.lane above) }
    | none => s1
  { s2 with comets := s2.comets.mapv fun _ c =>
      if c.blk == o.blk && c.grp == o.grp && c.lane == a.lane then
        { ((o.words v).foldl (fun t w => if c.live.getLsbD w.1 then t.putReg w.1 w.2 else t) c) with
          preds := match o.pair with
            | some k => if k = 0 then c.preds else c.preds.set k.toNat above
            | none => c.preds }
      else c }

/-- Write registers and the pair of a comet context. -/
def State.landComet (s : State) (o : LaneOp) (c : Nat) (a : Access) (v : Nat) : State :=
  let above := match a.opnds with
    | _ :: b :: _ => decide (b < v)
    | _ => false
  s.modCtx c fun x =>
    { ((o.words v).foldl (fun t w => t.putReg w.1 w.2) x) with
      preds := match o.pair with
        | some k => if k = 0 then x.preds else x.preds.set k.toNat above
        | none => x.preds }

/-- The contexts that hold lanes of an operation of a group, ejected since it was issued. -/
def State.heldContexts (s : State) (o : LaneOp) : List Nat :=
  (s.comets.filter fun e => e.2.blk == o.blk && e.2.grp == o.grp && o.acc.any fun a => a.lane == e.2.lane).map Prod.fst

/-- The acquire side of an operation that lands (08 R188): where the lane runs now, too, if it has been ejected since. -/
def State.landAcquire (s : State) (o : LaneOp) : State :=
  if o.acq || o.acc.any (fun a => a.mt == .s) then
    match o.comet with
    | some c => (s.dropLaneCache c).dropCache (stashCache o.blk)
    | none => (s.heldContexts o).foldl State.dropLaneCache (s.selfInvalidate (s.blk o.blk).core)
  else s

/-- The tiles in transfer that an operation writes: their pending write lands now (R202). -/
def Block.notePend (x : Block) (o : LaneOp) (now : Nat) : Block :=
  (dedupN (o.regs.map fun r => x.groupTile o.grp r)).foldl (fun y t =>
    match y.tile t with
    | .transfer _ => { y with gave := y.gave.set t now }
    | _ => y) x

/-- An operation is complete: each part has its value, and its least latency is over. -/
def State.landable (s : State) (o : LaneOp) : Bool :=
  o.acc.all (fun a => a.val.isSome) && decide (o.notBefore ≤ s.now)

/-- LOAD_DATA_LANDS: the values go to the registers. -/
def execLoadDataLands (id : Nat) (s : State) : Out :=
  match s.ops.find id with
  | none => .next s
  | some o =>
    if !s.landable o then .next s
    else
      let s1 := o.acc.foldl (fun (t : State) a => match o.comet with
        | some c => t.landComet o c a (a.val.getD 0)
        | none => t.landGroup o a (a.val.getD 0)) s
      let s2 : State := { s1 with ops := s1.ops.erase id }
      let s3 := s2.landAcquire o
      .next (if o.comet.isSome then s3 else (s3.modBlk o.blk fun x => x.notePend o s.now).freeTiles o.blk o.grp)

/-! ## Stores (08 R186, 14 R296, 18 R374-R376) -/

/-- OWNERSHIP_REGISTRATION: a global store is performed at its home, with those of its instruction's lanes to the same address
(07 R158). -/
def execOwnershipRegistration (id : Nat) (s : State) : Out :=
  match s.stores.find id with
  | none => .next s
  | some x =>
    let r := s.storeStep x
    if x.shared.isSome || x.performed || !r.2 || s.arbHeld ((x.cells.map Prod.fst).headD (2 ^ 62)) (s.blk x.blk).part then
      .next s
    else
      .next ((s.performAll r.1).charge ((x.cells.map Prod.fst).headD (2 ^ 62)) (s.blk x.blk).part (roundUp x.cells.length 32))

/-- REGISTRATION_ACK: the home's acknowledgement reaches the thread (R376). -/
def execRegistrationAck (id : Nat) (s : State) : Out :=
  match s.stores.find id with
  | none => .next s
  | some x => .next (if x.performed && !x.posted then { s with stores := s.stores.erase id } else s)

/-- SHARED_STORE_PERFORMED: a store to shared memory is performed at the core that holds it. -/
def execSharedStorePerformed (id : Nat) (s : State) : Out :=
  match s.stores.find id with
  | none => .next s
  | some x =>
    let r := s.storeStep x
    if x.shared.isNone || x.performed || !r.2 then .next s
    else
      let t := s.performAll r.1
      .next { t with stores := t.stores.keep fun i _ => !r.1.any fun e => e.1 == i }

/-- REVOCATION: an owner writes a word back and loses its ownership. -/
def execRevocation (word : Nat) (s : State) : Out := .next (s.revoke none [word])

/-- The write-backs of windows of a block's stash set D in the leaves of the pages that they write (16 R345). -/
def State.dirtyStash (s : State) (b : Nat) (win : Nat → Bool) : State :=
  let x := s.blk b
  x.stash.foldl (fun (t : State) e =>
    if !win e.1 || e.2.maps = 0 then t
    else
      (List.range (x.node.stash / 4096 + 1)).foldl (fun (u : State) i =>
        let p := (e.2.maps / 4096 + i) * 4096
        match walkBoth u.mem u.fabid x.vf (u.vf x.vf) p with
        | .ok (y, used) =>
          if u.owners.any fun o => o.2.cache == stashCache b && o.2.stash == some e.1 && (4 * o.1) / 4096 * 4096 == y.key p then
            (u.markUsed used).setDirty y
          else u
        | .error _ => u) t) s

/-- STASH_WRITE_BACK: the words that a stash window owns are written back (07 R163). -/
def execStashWriteBack (b w : Nat) (s : State) : Out :=
  .next ((s.dirtyStash b (· == w)).revoke none ((s.owners.filter fun e => e.2.cache == stashCache b && e.2.stash == some w).map Prod.fst))

/-! ## Waits (07 R175, R176; 09 R202, R203; 15 R321) -/

/-- The monitors of a split's waiting instruction. -/
def State.splitMonitors (s : State) (b g k : Nat) : List Monitor :=
  let x := s.spl b g k
  s.monitors.vals.filter fun m => m.blk == b && m.grp == g && m.comet.isNone && m.pc == x.pc && m.lanes == x.am

/-- A poll is due: 2,048 clocks have passed since the evaluation. -/
def State.pollDue (s : State) (m : Monitor) : Bool := m.poll && decide (m.armed + 2048 ≤ s.now)

/-- The evaluation of a WAITC, or of an EWAIT on a counter in global memory, which waits as a WAITC does (09 R218). -/
def WaitOn.evaluate (w : WaitOn) (s : State) : Option Out :=
  match w with
  | .waitc gd d a w c => some (execWaitc gd d a w c s)
  | .ewait gd a b c _ => if engLocal c then none else some (execEwait gd a b s)
  | _ => none

/-- Evaluate again the WAITC or EWAIT in which a split waits. -/
def State.wakeWaitc (s : State) (b g k : Nat) (cond : Monitor → Bool) : Out :=
  let x := s.spl b g k
  if !s.hasSplit b g k || x.parked then .next s
  else
    match x.wait with
    | .blocked w _ =>
      if (s.splitMonitors b g k).any cond then
        match w.evaluate { s with focus := .split b g k } with
        | some (.next t) => .next { t with focus := s.focus }
        | some o => o
        | none => .next s
      else .next s
    | _ => .next s

/-- WAITC_REEVALUATE: a monitor of the split has fired. -/
def execWaitcReevaluate (b g k : Nat) (s : State) : Out := s.wakeWaitc b g k fun m => m.fired

/-- WAITC_POLL: a polled word is due. -/
def execWaitcPoll (b g k : Nat) (s : State) : Out := s.wakeWaitc b g k s.pollDue

/-- EMIT_WAKE: HEAD of the queue has moved, or its poll is due; the EMIT issues again. -/
def execEmitWake (b g k : Nat) (s : State) : Out :=
  let x := s.spl b g k
  if !s.hasSplit b g k || x.parked then .next s
  else
    match x.wait with
    | .blocked (.emit _) _ =>
      if (s.splitMonitors b g k).any fun m => m.fired || s.pollDue m then
        .next (s.modSpl b g k fun y => { y with wait := .ready })
      else .next s
    | _ => .next s

/-- The register that a group's tile starts at, as a TAKE names it (17 R357). -/
def Block.tileReg (x : Block) (t : Nat) : Nat := t % 64 * (64 / x.width)

/-- A waiting TAKE of a split: the tile, the lanes, the clock it began to wait. -/
def Split.taking (x : Split) : Option (Nat × Mask × Nat) :=
  match x.wait with
  | .blocked (.take t m) n => if x.parked then none else some (t, m, n)
  | _ => none

/-- A waiting TAKE of a split completes (R202), with its event (R203). -/
def State.takeCompletes (s : State) (b g k : Nat) : State :=
  match (s.spl b g k).taking with
  | none => s
  | some (t, _, n) =>
    if !s.hasSplit b g k || !s.takeReady b t (.group g) then s
    else
      ((s.takeTile b t (.group g)).modSpl b g k fun x => { x with pc := x.pc + 4, wait := .ready }).offerBlk b 0x06 g
        (s.now - n) ((s.blk b).tileReg t)

/-- A waiting TAKE of a split that has waited the take limit traps (R203). -/
def State.takeLimitTrap (s : State) (b g k : Nat) : State :=
  match (s.spl b g k).taking with
  | none => s
  | some (t, m, n) =>
    if !s.hasSplit b g k || decide (s.now < n + s.takeLimit b) || s.takeReady b t (.group g) || s.trapHeld b g k 0x43 then s
    else
      let u : State := { s with focus := .split b g k }
      let v := (u.modSpl b g k fun x => { x with wait := .ready }).trapWith 0x43 m 0
      { v with focus := s.focus }

/-! ## Host and remote completions (20 R414; 21 R421, R425) -/

/-- The unit of an operation goes on at the instruction after the one at which it was held. -/
def State.releaseUnit (s : State) (comet : Option Nat) (b g k : Nat) : State :=
  match comet with
  | some c => s.modCtx c fun x => { x with pc := x.pc + 4, wait := .ready }
  | none => s.modSpl b g k fun x => { x with pc := x.pc + 4, wait := .ready }

/-- The trap of an access that came back unserved, in the unit that is held at it. -/
def State.abortTrap (s : State) (comet : Option Nat) (b g k cause : Nat) (lanes : Mask) (ea : Dword) : State :=
  let f : Focus := match comet with
    | some c => .comet c
    | none => .split b g k
  let u : State := { s with focus := f }
  let v := u.unblock.trapWith cause lanes ea
  { v with focus := s.focus }

/-- A trap of the unit that is held at an access waits for a result in flight. -/
def State.trapHeldFor (s : State) (comet : Option Nat) (b g k cause : Nat) : Bool := comet.isNone && s.trapHeld b g k cause

/-- The parts of an operation that wait for a host or remote completion. -/
def State.hostParts (s : State) (o : LaneOp) : List (Nat × Access) :=
  o.parts.filter fun p => p.2.val.isNone && !isShared p.2.key && s.leaves o.kind p.2.key

/-- The first part of an operation that waits for a host or remote completion. -/
def State.hostPart (s : State) (o : LaneOp) : Option (Nat × Access) := (s.hostParts o).head?

/-- The operations that the hub performs as a loop of CAS AtomicOps (R414). -/
def hubLoop : AtomFn → Bool
  | .add => false
  | .exch => false
  | .cas => false
  | _ => true

/-- The operands of an operation without the value that the hub expects. -/
def opndCount : AtomFn → Nat
  | .addb => 2
  | .cas => 2
  | _ => 1

/-- The parts of an atomic that take effect with one: those of its address at a remote home (07 R169, R173), itself alone as an
AtomicOp to the host, where the lanes of an address go one after another (20 R414). -/
def LaneOp.together (o : LaneOp) (p : Nat × Access) : List (Nat × Access) :=
  if isRemote p.2.key then o.parts.filter fun x => x.2.val.isNone && x.2.key == p.2.key else [p]

/-- One completion of an atomic: the hub's loop learns the value, and succeeds when it finds it again; the others are done at
once. -/
def State.hostAtomic (s : State) (id : Nat) (o : LaneOp) (f : AtomFn) (p : Nat × Access) : State :=
  let now := s.mem.read p.2.key o.bytes
  if hubLoop f && isHost p.2.key && p.2.opnds[opndCount f]? != some now then
    s.modAccess id p.1 fun a => { a with opnds := a.opnds.take (opndCount f) ++ [now] }
  else
    s.applyAtomic id o f ((o.together p).map fun x => (x.1, { x.2 with opnds := x.2.opnds.take (opndCount f) }))

/-- The operation waits for nothing outside the package any more: its unit goes on. -/
def State.hostDone (s : State) (id : Nat) : State :=
  match s.ops.find id with
  | none => s
  | some o =>
    if o.host && (s.hostPart o).isNone then
      ({ s with ops := s.ops.set id { o with host := false } } : State).releaseUnit o.comet o.blk o.grp o.split
    else s

/-- A request to another package that is aborted was performed there or not, word by word (21 R421; free choices). -/
def State.maybeStore (s : State) (x : StoreOp) : State :=
  let ws := (cellWords x.cells).filter fun w => isRemote (4 * w)
  let done := ws.filter fun w => Config.freeBool (s.freeCtr + w % 2 ^ 32)
  (s.tickFree).commit (x.cells.filter fun c => done.contains (c.1 / 4)) none x.vf

/-- The parts of an aborted atomic to another package were performed or not, address by address. -/
def State.maybeAtomic (s : State) (id : Nat) (o : LaneOp) : State :=
  match o.kind with
  | .load => s
  | .atomic f =>
    (dedupN ((o.acc.filter fun a => a.val.isNone && isRemote a.key).map (·.key))).foldl (fun (t : State) k =>
      let u := t.tickFree
      let ps := o.parts.filter fun p => p.2.val.isNone && p.2.key == k
      if Config.freeBool t.freeCtr then u.applyAtomic id o f ps else u) s

/-- A part of an operation may be completed from outside the package. -/
def State.outReady (s : State) (id : Nat) (o : LaneOp) (a : Access) : Bool :=
  !s.newHeld id a.key && s.inOrder (o.thread a) id a.after a.key o.bytes a.mt o.kind.req && !s.ordHeld id o a

/-- The copies that a read from outside the package leaves: those of a remote page as of a page of the package (21 R427), none of a
host page, which is cached in device bias alone (20 R413, R416). -/
def State.afterOutside (s : State) (o : LaneOp) (a : Access) : State :=
  if isRemote a.key then s.afterRead o a
  else (s.dropCopies o.cache a.key o.bytes).dropOthers (o.thread a) none (wordsOf a.key o.bytes)

/-- The unit of an operation traps at it with some of its parts, and the operation is gone. -/
def State.cutOp (s : State) (id : Nat) (o : LaneOp) (cause : Nat) (ps : List Access) : State :=
  match ps with
  | [] => s
  | a :: _ =>
    ({ s with ops := s.ops.erase id } : State).abortTrap o.comet o.blk o.grp o.split cause (maskOfList (ps.map (·.lane))) a.ea

/-- Data of an operation that is held at its instruction arrive: poisoned data trap there (07 R156; 20 R419). -/
def State.arriveOp (s : State) (id : Nat) (o : LaneOp) (p : Nat × Access) : State :=
  if s.poisoned p.2.key o.bytes then
    if !o.host || s.trapHeldFor o.comet o.blk o.grp o.split 0x3C then s
    else s.cutOp id o 0x3C (((s.hostParts o).map Prod.snd).filter fun a => s.poisoned a.key o.bytes)
  else
    match o.kind with
    | .load =>
      if !s.outReady id o p.2 then s
      else
        ((s.modAccess id p.1 fun a => { a with val := some (s.readKey p.2.key o.bytes) }).afterOutside o p.2).hostDone id
    | .atomic f =>
      if (o.together p).all fun x => s.outReady id o x.2 then (s.hostAtomic id o f p).hostDone id else s

/-- A completion of an operation in flight. An abort names the first part that waits, or, where a port is down or leads nowhere,
the parts whose keys it cuts (21 R421, R424). -/
def State.completeOp (s : State) (id : Nat) (o : LaneOp) (c : Completion) (cut : Option (Nat → Bool)) : State :=
  match s.hostPart o with
  | none => s
  | some p =>
    match c with
    | .ok => s.arriveOp id o p
    | _ =>
      let ps : List Access := match cut with
        | some f => ((s.hostParts o).map Prod.snd).filter fun a => f a.key
        | none => [p.2]
      let key := (ps.map (·.key)).headD p.2.key
      let cas128 : Bool := match o.kind with
        | .atomic .cas => o.bytes == 16 && c == .unsupported
        | _ => false
      let cause := if isRemote key then 0xA4 else if cas128 then 0xA2 else 0xA5
      if !o.host || s.trapHeldFor o.comet o.blk o.grp o.split 0xA2 then s
      else (if c == .aborted then s.maybeAtomic id o else s).cutOp id o cause (ps.filter fun a => abortCause a.key == abortCause key)

/-- The stores of one instruction that still wait for the host or another package. -/
def State.instHost (s : State) (x : StoreOp) : List (Nat × StoreOp) :=
  s.stores.filter fun e => e.2.host && !e.2.performed && e.2.inst == x.inst

/-- The unit that host or remote stores of an instruction hold, the comet context or the split that is blocked on one of them or at
the EMIT that made them, and the store that it waits for. -/
def State.storeUnit (s : State) (x : StoreOp) : Option (Option Nat × Nat × Nat × Nat × Nat) :=
  let ids := (s.instHost x).map Prod.fst
  let waits : Wait → Option Nat := fun w => match w with
    | .blocked (.host n) _ => if ids.contains n then some n else none
    | .blocked (.stamps i) _ => if i == x.inst then ids.head? else none
    | _ => none
  match s.comets.findSome? fun e => (waits e.2.wait).map fun n => (e, n) with
  | some (e, n) => some (some e.1, e.2.blk, e.2.grp, 0, n)
  | none =>
    match x.thread with
    | .lane b g _ => (s.grp b g).splits.findSome? fun e => (waits e.2.wait).map fun n => (none, b, g, e.1, n)
    | _ => none

/-- Lane of a thread. -/
def Thread.laneOf : Thread → Nat
  | .lane _ _ l => l
  | _ => 0

/-- The unit waits for the next host or remote store of its instruction, or goes on; an EMIT looks itself (15 R321). -/
def State.nextHost (s : State) (x : StoreOp) (cm : Option Nat) (b g k : Nat) : State :=
  let now := match cm with
    | some c => (s.ctx c).wait
    | none => (s.spl b g k).wait
  match now, s.instHost x, cm with
  | .blocked (.stamps _) _, _, _ => s
  | _, (n, _) :: _, some c => s.modCtx c fun y => { y with wait := .blocked (.host n) s.now }
  | _, (n, _) :: _, none => s.modSpl b g k fun y => { y with wait := .blocked (.host n) s.now }
  | _, [], _ => s.releaseUnit cm b g k

/-- A host or remote store may be performed. -/
def State.outStoreReady (s : State) (id : Nat) (x : StoreOp) : Bool :=
  let key := (x.cells.map Prod.fst).headD 0
  decide (x.notBefore ≤ s.now) && !s.newHeld id key && s.inOrder x.thread id x.after key x.cells.length x.mt .store

/-- A store of one lane that a higher lane of its instruction overwrites in the same step (07 R158); D and S accesses reach memory
each, as issued (R161). -/
def State.overwritten (s : State) (id : Nat) (x : StoreOp) : Bool :=
  !orderedType x.mt && (s.siblings x).any fun e => decide (id < e.1)

/-- A write to the non-coherent host range is a posted request: it is acknowledged by the zero-length read behind it (20 R413). -/
def isPosted (key : Nat) : Bool := isHost key && !isCoherentHost key

/-- A store is performed outside the package. It is acknowledged with its completion, or, where it is posted, by a completion of
its own: that of the zero-length read that the hub sends behind it (DESIGN CHOICE, log 171). -/
def State.storeOutside (s : State) (id : Nat) (x : StoreOp) : State :=
  let t := s.performStore id (if s.overwritten id x then { x with cells := [] } else x)
  if isPosted ((x.cells.map Prod.fst).headD 0) then
    { t with stores := t.stores.modify id fun y => { y with host := false, posted := true } }
  else { t with stores := t.stores.erase id }

/-- The stores of an instruction came back unserved: its unit traps at it. -/
def State.cutStores (s : State) (x : StoreOp) (c : Completion) (cut : Nat → Bool) (cm : Option Nat) (b g k : Nat) : State :=
  let gone := s.instHost x
  let hit := gone.filter fun e => cut ((e.2.cells.map Prod.fst).headD 0)
  let t := if c == .aborted then gone.foldl (fun (u : State) e => u.maybeStore e.2) s else s
  ({ t with stores := t.stores.keep fun i _ => !gone.any fun e => e.1 == i } : State).abortTrap cm b g k
    (abortCause ((x.cells.map Prod.fst).headD 0)) (maskOfList (hit.map fun e => e.2.thread.laneOf)) x.ea

/-- A completion of a store: performed, and its unit waits for the next one or goes on; or the unit traps. The stores of an
instruction complete in ascending lanes. -/
def State.completeStore (s : State) (id : Nat) (x : StoreOp) (c : Completion) (cut : Option (Nat → Bool)) : State :=
  match s.storeUnit x with
  | none => s
  | some (cm, b, g, k, n) =>
    match c with
    | .ok => if n != id || !s.outStoreReady id x then s else (s.storeOutside id x).nextHost x cm b g k
    | _ =>
      if s.trapHeldFor cm b g k 0xA2 then s
      else s.cutStores x c (cut.getD fun a => a == (x.cells.map Prod.fst).headD 0) cm b g k

/-- A completion of an access of a number, whichever it is: an operation or a store of a lane, the zero-length read behind a posted
store, or a request of another asker. -/
def State.completeAccess (s : State) (id : Nat) (c : Completion) (cut : Option (Nat → Bool)) : State :=
  match s.ops.find id with
  | some o => s.completeOp id o c cut
  | none =>
    match s.stores.find id with
    | some x =>
      if x.posted then { s with stores := s.stores.erase id }
      else if x.host && !x.performed then s.completeStore id x c cut
      else s
    | none =>
      match s.outs.find id with
      | some r => s.completeOut id r c
      | none => s

/-- HOST_COMPLETION: a completion from the host or another package, for an access whose requests have been sent. -/
def execHostCompletion (id : Nat) (c : Completion) (s : State) : Out :=
  .next (if s.queuedReq id then s else s.completeAccess id c none)

end Sys2Proof.Machine
end

