-- ==== Sys2Proof/Machine/Filter.lean ====
section
/-!
DEFINITION. Machine/Filter.lean: the filter programs of a Meridian: registers, object updates, the afterglow record, and the
meanings of the filter words (spec/17_die_telemetry.md R360, R362-R367, R369, R370).
-/

namespace Sys2Proof.Machine

/-! ## A Meridian -/

/-- A Meridian, at its reset values where nothing was written. -/
def State.merid (s : State) (m : Nat) : Merid := s.merids.getD m Merid.reset
/-- Change a Meridian. -/
def State.modMerid (s : State) (m : Nat) (f : Merid → Merid) : State :=
  { s with merids := s.merids.set m (f (s.merid m)) }

/-- MBUD p (17 R368): 2048 where nothing was written. -/
def Merid.budget (x : Merid) (p : Nat) : Nat := x.mbud.getD p 2048
/-- What is left of partition p's budget in this window (R363). -/
def Merid.remainder (x : Merid) (p : Nat) : Nat := x.left.getD p (x.budget p)
/-- Add 1 to a 32-bit counter that saturates. -/
def satInc (n : Nat) : Nat := min (n + 1) 0xFFFFFFFF

/-- Write the next record of the afterglow record (R369). -/
def Merid.glowPut (x : Merid) (e : Event) : Merid :=
  { x with glow := x.glow.set (x.wptr % 4096) e, wptr := (x.wptr + 1) % 2 ^ 32,
           badGlow := x.badGlow.filter (· != x.wptr % 4096) }

/-- Write a record of the afterglow record (R369): nothing while it is frozen. -/
def Merid.glowWrite (x : Merid) (e : Event) : Merid := if x.frozen then x else x.glowPut e

/-! ## Runs (R362, R363) -/

/-- Free a slot whose DETACH waited (R361). -/
def Merid.release (x : Merid) (slot : Nat) : Merid :=
  match x.slots.find slot with
  | some a => if a.leaving then { x with slots := x.slots.erase slot } else x
  | none => x

/-- Start the next program of an event: PLEN is reserved from the window's remainder, or the run is refused. -/
def Merid.startNext (x : Merid) (ev : Event) : List Nat → Merid
  | [] => { x with run := none }
  | k :: ks =>
    match x.slots.find k with
    | none => Merid.startNext x ev ks
    | some a =>
      if x.remainder a.part < a.words.length then
        Merid.startNext (({ x with dropb := x.dropb.set a.part (satInc (x.dropb.getD a.part 0)) } : Merid).release k) ev ks
      else
        { x with left := x.left.set a.part (x.remainder a.part - a.words.length),
                 run := some { ev := ev, slot := k, pc := 0, f := [], done := 0, todo := ks } }

/-- The end of a run: the reserved instructions that were not executed come back to the window that they were reserved in, a
waiting DETACH frees the slot, and the event's next program starts. -/
def Merid.endRun (x : Merid) (r : Run) : Merid :=
  match x.slots.find r.slot with
  | none => x.startNext r.ev r.todo
  | some a =>
    let back := if r.past then 0 else a.words.length - (r.done + 1)
    (({ x with left := x.left.set a.part (x.remainder a.part + back) } : Merid).release r.slot).startNext r.ev r.todo

/-! ## Registers -/

/-- f(a). -/
def Run.rd (r : Run) (a : BitVec 4) : Dword := r.f.getD a.toNat 0
/-- f(a) := v. -/
def Run.wr (r : Run) (a : BitVec 4) (v : Dword) : Run := { r with f := r.f.set a.toNat v }
/-- Go on `n` words further, one more word executed. -/
def Run.go (r : Run) (n : Nat) : Run := { r with pc := r.pc + n, done := r.done + 1 }

/-- The frame of a filter word: it acts on the run of the Meridian in focus. -/
def filterRun (s : State) (f : Nat → Run → State) : Out :=
  match s.focus with
  | .filter m =>
    match (s.merid m).run with
    | some r => .next (f m r)
    | none => .refused .noIssuer
  | _ => .refused .noIssuer

/-- A word that changes only the run. -/
def filterStep (s : State) (f : Nat → Run → Run) : Out :=
  filterRun s fun m r => s.modMerid m fun x => { x with run := some (f m r) }

/-- A word that writes f(a) from the run. -/
def filterWrite (s : State) (a : BitVec 4) (v : Run → Dword) : Out := filterStep s fun _ r => (r.wr a (v r)).go 1

/-! ## Object updates (R365-R367) -/

/-- The KIND of an object entry (R360). -/
def objKind (e : Nat) : Nat := bits e 3 0
/-- NBINS of a histogram entry. -/
def objBins (e : Nat) : Nat := bits e 10 5 + 1
/-- The place of UNDER in a histogram's storage; OVER follows it. -/
def underAt : Nat := 64

/-- Add to a 32-bit counter of an object, saturating. -/
def satAdd32 (t : Table Nat) (i n : Nat) : Table Nat := t.set i (min (t.getD i 0 + n) 0xFFFFFFFF)

/-- The bin of a value before it is brought into range (R366). -/
def histBin (e v : Nat) : Int :=
  let base := bits e 63 32
  if bit e 4 then (if v = 0 then 0 else (flog2 v : Int) - base + 1)
  else ((v : Int) - base) / (2 ^ bits e 21 16 : Nat)

/-- One histogram update. -/
def histUpdate (e v : Nat) (t : Table Nat) : Table Nat :=
  let b := histBin e v
  let last := objBins e - 1
  if b < 0 then satAdd32 (satAdd32 t underAt 1) 0 1
  else if (last : Int) < b then satAdd32 (satAdd32 t (underAt + 1) 1) last 1
  else satAdd32 t b.toNat 1

/-- The multipliers of a sketch's rows (R366). -/
def sketchMul : List Nat := [0x9E3779B97F4A7C15, 0xC2B2AE3D27D4EB4F, 0x165667B19E3779F9, 0x27D4EB2F165667C5]

/-- The column of a key in row r. -/
def sketchCol (key r : Nat) : Nat := key * sketchMul.getD r 0 % 2 ^ 64 / 2 ^ 56

/-- One sketch update. -/
def sketchUpdate (key weight : Nat) (t : Table Nat) : Table Nat :=
  (List.range 4).foldl (fun u r => satAdd32 u (256 * r + sketchCol key r) weight) t

/-- The entry of object o of a run's attachment. -/
def Merid.entry (x : Merid) (slot o : Nat) : Nat :=
  match x.slots.find slot with
  | some a => a.objs.getD o 0
  | none => 0

/-- Change the storage of object o of a slot. -/
def Merid.update (x : Merid) (slot o : Nat) (f : Table Nat → Table Nat) : Merid :=
  { x with slots := x.slots.modify slot fun a => { a with store := a.store.set o (f (a.store.getD o [])) } }

/-- Update object o of the run and go to the next word. -/
def filterUpdate (s : State) (o : Nat) (f : Nat → Run → Table Nat → Table Nat) : Out :=
  filterRun s fun m r => s.modMerid m fun x =>
    { x.update r.slot o (f (x.entry r.slot o) r) with run := some (r.go 1) }

/-- A trigger is armed: its flag, which starts set (R360, R367). -/
def Merid.armedTrig (x : Merid) (slot o : Nat) : Bool :=
  match x.slots.find slot with
  | some a => (a.store.getD o []).getD 0 1 == 1
  | none => false

/-- The MARK record of a firing (R357, R367): its time is CLK; PART and CTX are those of the event; its source is not stated
(a free value). -/
def markEvent (now free slot o : Nat) (ev : Event) (v : Nat) : Event :=
  { time := now, type := 0x0F, part := ev.part, ctx := ev.ctx, src := free % 2 ^ 16, sub := 16 * slot + o, ea := v, eb := 0 }

/-- TRIG on a trigger (R367): disarm, mark, freeze, interrupt. What a firing leaves in the trigger's 8 bytes, which are zero
from ATTACH on (R360), is not stated: a free value (log 61). -/
def State.fire (s : State) (m : Nat) (r : Run) (o v : Nat) : State :=
  let x := s.merid m
  if !x.armedTrig r.slot o then s
  else
    let e := x.entry r.slot o
    let held := (Config.freeDword s.freeCtr).toNat
    let x1 := x.update r.slot o fun t => if bit e 7 then t.set 1 held else (t.set 0 0).set 1 held
    let x2 := if bit e 6 then x1.glowWrite (markEvent s.now (Config.freeNat s.freeCtr) r.slot o r.ev v) else x1
    let x3 := if bit e 5 then { x2 with frozen := true } else x2
    let s1 := s.tickFree.modMerid m fun _ => x3
    let p := ((x.slots.find r.slot).map (·.part)).getD 31
    if bit e 4 then { s1 with telIrqs := s1.telIrqs.set p (s1.telIrqs.getD p 0 + 1) } else s1

/-! ## The words (R365) -/

/-- Field n of an event (R365). -/
def Event.field (e : Event) (m : Nat) : Nat → Nat
  | 0 => e.time
  | 1 => e.type
  | 2 => e.part
  | 3 => e.ctx
  | 4 => e.src
  | 5 => e.sub
  | 6 => e.ea
  | 7 => e.eb
  | _ => m

/-- LDF. -/
def execFltLdf (a : BitVec 4) (k : BitVec 7) (s : State) : Out :=
  filterStep s fun m r => (r.wr a (BitVec.ofNat 64 (r.ev.field m k.toNat))).go 1
/-- LDI. -/
def execFltLdi (a : BitVec 4) (k : BitVec 7) (s : State) : Out := filterWrite s a fun _ => k.signExtend 64
/-- MOVK. -/
def execFltMovk (a : BitVec 4) (k : BitVec 7) (s : State) : Out :=
  filterWrite s a fun r => r.rd a * 128 + k.setWidth 64
/-- ADDI. -/
def execFltAddi (a : BitVec 4) (k : BitVec 7) (s : State) : Out := filterWrite s a fun r => r.rd a + k.signExtend 64
/-- SHRI. -/
def execFltShri (a : BitVec 4) (k : BitVec 7) (s : State) : Out := filterWrite s a fun r => r.rd a >>> k.toNat
/-- MOV. -/
def execFltMov (a b : BitVec 4) (s : State) : Out := filterWrite s a fun r => r.rd b
/-- ADD. -/
def execFltAdd (a b : BitVec 4) (s : State) : Out := filterWrite s a fun r => r.rd a + r.rd b
/-- SUB. -/
def execFltSub (a b : BitVec 4) (s : State) : Out := filterWrite s a fun r => r.rd a - r.rd b
/-- AND. -/
def execFltAnd (a b : BitVec 4) (s : State) : Out := filterWrite s a fun r => r.rd a &&& r.rd b
/-- OR. -/
def execFltOr (a b : BitVec 4) (s : State) : Out := filterWrite s a fun r => r.rd a ||| r.rd b
/-- A count of a filter shift: 64 or more gives 0 (R365). -/
def shiftOr0 (f : Dword → Nat → Dword) (x n : Dword) : Dword := if 64 ≤ n.toNat then 0 else f x n.toNat
/-- SHL. -/
def execFltShl (a b : BitVec 4) (s : State) : Out :=
  filterWrite s a fun r => shiftOr0 (fun x n => x <<< n) (r.rd a) (r.rd b)
/-- SHR. -/
def execFltShr (a b : BitVec 4) (s : State) : Out :=
  filterWrite s a fun r => shiftOr0 (fun x n => x >>> n) (r.rd a) (r.rd b)
/-- 1 for true. -/
def flagDword (c : Bool) : Dword := if c then 1 else 0
/-- CEQ. -/
def execFltCeq (a b : BitVec 4) (s : State) : Out := filterWrite s a fun r => flagDword (r.rd a == r.rd b)
/-- CLTU. -/
def execFltCltu (a b : BitVec 4) (s : State) : Out := filterWrite s a fun r => flagDword ((r.rd a).ult (r.rd b))
/-- CLTS. -/
def execFltClts (a b : BitVec 4) (s : State) : Out := filterWrite s a fun r => flagDword ((r.rd a).slt (r.rd b))
/-- BZ. -/
def execFltBz (a : BitVec 4) (k : BitVec 7) (s : State) : Out :=
  filterStep s fun _ r => r.go (if r.rd a = 0 then k.toNat else 1)
/-- BNZ. -/
def execFltBnz (a : BitVec 4) (k : BitVec 7) (s : State) : Out :=
  filterStep s fun _ r => r.go (if r.rd a = 0 then 1 else k.toNat)
/-- JMP. -/
def execFltJmp (ofs : BitVec 11) (s : State) : Out := filterStep s fun _ r => r.go ofs.toNat
/-- HIST. -/
def execFltHist (a o : BitVec 4) (s : State) : Out :=
  filterUpdate s o.toNat fun e r => histUpdate e (r.rd a).toNat
/-- SKU. -/
def execFltSku (a b : BitVec 4) (o : BitVec 3) (s : State) : Out :=
  filterUpdate s o.toNat fun _ r => sketchUpdate (r.rd a).toNat (r.rd b).toNat
/-- CADD. -/
def execFltCadd (a o : BitVec 4) (s : State) : Out :=
  filterUpdate s o.toNat fun _ r t => t.set 0 (min (t.getD 0 0 + (r.rd a).toNat) (2 ^ 64 - 1))
/-- TRIG. -/
def execFltTrig (a o : BitVec 4) (s : State) : Out :=
  filterRun s fun m r => (s.fire m r o.toNat (r.rd a).toNat).modMerid m fun x => { x with run := some (r.go 1) }
/-- END. -/
def execFltEnd (s : State) : Out := filterRun s fun m r => s.modMerid m fun x => x.endRun r

end Sys2Proof.Machine
end

