-- ==== Sys2Proof/Machine/EvSync.lean ====
section
/-!
DEFINITION. Machine/EvSync.lean: the messages of cluster barriers and of die barriers, and the byte counts of armed
ranges (spec/14_cluster.md R299; 16 R352, R354; 15 R333).
-/

namespace Sys2Proof.Machine

/-- A block that is out enters the waiting set again: its wait, for a reservation, counts from then (15 R326, R333). -/
def Block.enterWait (x : Block) (now : Nat) : Block :=
  if x.phase == .swapped && !x.reentry then { x with reentry := true, waitingSince := now } else x

/-- Blocks that are swapped out may enter again (15 R333). -/
def State.reenter (s : State) (bs : List Nat) : State :=
  { s with blocks := s.blocks.mapv fun i x => if bs.contains i then x.enterWait s.now else x }

/-! ## Cluster barriers (14 R299) -/

/-- Set cluster barrier n of a gang. -/
def State.setGangBar (s : State) (qi : Nat) (q : Gang) (n : Nat) (x : GangBar) : State :=
  { s with gangs := s.gangs.set qi { q with bars := q.bars.set n x } }

/-- CBAR_HALF_MESSAGE: the upper half's message reaches the half with the lower cluster core indices. -/
def execCbarHalfMessage (q b : Nat) (s : State) : Out :=
  match s.gangs.find q with
  | none => .next s
  | some x =>
    let y := s.gangBar x b
    if !x.cluster || y.half.isNone then .next s
    else .next (s.setGangBar q x b (s.gangComplete x { y with half := none, halfIn := true } s.now))

/-- CBAR_RELEASE_MESSAGE: the release reaches the other half, whose groups depart. -/
def execCbarReleaseMessage (q b : Nat) (s : State) : Out :=
  match s.gangs.find q with
  | none => .next s
  | some x =>
    let y := s.gangBar x b
    match y.rel with
    | none => .next s
    | some t =>
      if !x.cluster || decide (s.now < t) then .next s
      else
        let z := { (GangBar.openHalf s x y false) with rel := none }
        .next ((s.setGangBar q x b (s.gangSettle x z)).reenter x.members)

/-! ## Die barriers (16 R352) -/

/-- Write a field of an object at its home. -/
def State.putObject (s : State) (a n v : Nat) : State := s.writeHome (cellsAt a (leBytes n v))

/-- The dies of an object: those with EXPd not 0. -/
def State.dbarDies (s : State) (o : Nat) : List Nat := (List.range 4).filter fun d => s.dbarExp o d != 0
/-- The master die. -/
def State.dbarMasterDie (s : State) (o : Nat) : Nat := (s.dbarDies o).headD 0

/-- The master's act once every die has completed and, in byte-count mode, BYTES is 0. -/
def State.dbarMaster (s : State) (o : Nat) : State :=
  match s.dbars.find o with
  | none => s
  | some x =>
    let dies := s.dbarDies o
    if x.doneDies = [] ∨ (dies.all fun d => x.doneDies.contains d) = false ∨
       (bit (s.mem.read (o + 4) 4) 0 && s.mem.read (o + 48) 8 != 0) = true then s
    else
      let s1 := s.putObject (o + 16) 8 0
      let s2 := s1.putObject (o + 4) 4 (s1.mem.read (o + 4) 4 % 2)
      let s3 := s2.putObject (o + 24) 4 (s2.mem.read (o + 24) 4 + 1)
      let rels := dies.map fun d => (d, x.lastMsg + if d = s.dbarMasterDie o then 40 else 80, x.phase)
      { s3 with dbars := s3.dbars.set o { x with doneDies := [], rels := x.rels ++ rels, phase := x.phase + 1 },
                armed := s3.armed.filter fun a => a.obj != o }

/-- The record of a group whose arrival is taken back. -/
def BarGroup.unarrive (y : BarGroup) : BarGroup := { y with arrived := false, lanes := 0, sync := 0 }

/-- A split of a group that waits at a die barrier cannot take a trap 0x65 yet (log 131). -/
def State.dbarTrapHeld (s : State) (o b g : Nat) : Bool :=
  (s.blk b).phase == .resident && (s.grp b g).splits.any fun e =>
    match e.2.wait with
    | .blocked (.dieBarrier x _ _) _ => x == o && !e.2.parked && s.trapHeld b g e.1 0x65
    | _ => false

/-- The lanes of a group that is out, whose arrival at an object is taken back, trap once its block has entered again. -/
def State.dbarFail (s : State) (o b g : Nat) : State :=
  let x := s.dbars.getD o default
  let key := 64 * b + g
  let lanes := (x.groups.getD key default).lanes
  { s with dbars := s.dbars.set o { x with failed := x.failed.set key (x.failed.getD key 0 ||| lanes) } }

/-- The splits of a group that wait at a die barrier trap. -/
def State.dbarTrap (s : State) (o b g : Nat) : State :=
  if (s.blk b).phase != .resident then s.reenter [b]
  else
    (s.grp b g).splits.foldl (fun (t : State) e =>
      match e.2.wait with
      | .blocked (.dieBarrier x ea m) _ =>
        if x = o ∧ e.2.parked = false then
          let u : State := { t with focus := .split b g e.1 }
          let v := u.unblock.trapWith 0x65 m ea
          { v with focus := t.focus }
        else t
      | _ => t) s

/-- The arrivals of a die within one window of 16 clocks, and the others. -/
def DBar.window (x : DBar) (d : Nat) : List (Nat × Nat × Nat × Nat) × List (Nat × Nat × Nat × Nat) :=
  match x.fresh.find? fun e => e.1 == d with
  | none => ([], x.fresh)
  | some f => x.fresh.partition fun e => e.1 == d && decide (e.2.2.2 < f.2.2.2 + 16)

/-- DBAR_WINDOW: the unit of a die adds the arrivals of a window to CNTd, or they trap. -/
def execDbarWindow (o d : Nat) (s : State) : Out :=
  match s.dbars.find o with
  | none => .next s
  | some x =>
    let (w, rest) := x.window d
    if w = [] then .next s
    else
      let old := s.mem.read (o + 16 + 2 * d) 2
      let n := old + w.length
      if s.dbarExp o d < n then
        if w.any fun e => s.dbarTrapHeld o e.2.1 e.2.2.1 then .next s else
        let gone := w.filter fun e => (s.blk e.2.1).phase != .resident
        let s0 := gone.foldl (fun t e => t.dbarFail o e.2.1 e.2.2.1) s
        let y := s0.dbars.getD o default
        let gs := w.foldl (fun t e => t.modify (64 * e.2.1 + e.2.2.1) BarGroup.unarrive) y.groups
        let s1 : State := { s0 with dbars := s0.dbars.set o { y with fresh := rest, groups := gs } }
        .next (w.foldl (fun t e => t.dbarTrap o e.2.1 e.2.2.1) s1)
      else
        let y := { x with fresh := rest, counted := x.counted ++ w.map fun e => (e.1, e.2.1, e.2.2.1, x.phase),
                          msgs := if n = s.dbarExp o d then x.msgs ++ [(d, s.now)] else x.msgs }
        .next (({ s with dbars := s.dbars.set o y } : State).putObject (o + 16 + 2 * d) 2 n)

/-- DBAR_COMPLETION_MESSAGE: a die's message reaches the master die. -/
def execDbarCompletionMessage (o d : Nat) (s : State) : Out :=
  match s.dbars.find o with
  | none => .next s
  | some x =>
    if !x.msgs.any fun m => m.1 == d then .next s
    else
      let y := { x with msgs := x.msgs.filter fun m => m.1 != d, doneDies := x.doneDies ++ [d], lastMsg := s.now }
      .next (({ s with dbars := s.dbars.set o y } : State).dbarMaster o)

/-- DBAR_RELEASE: the release reaches a die, whose counted groups depart. -/
def execDbarRelease (o d : Nat) (s : State) : Out :=
  match s.dbars.find o with
  | none => .next s
  | some x =>
    match x.rels.find? fun r => r.1 == d && decide (r.2.1 ≤ s.now) with
    | none => .next s
    | some r =>
      let mine := x.counted.filter fun e => e.1 == d && e.2.2.2 == r.2.2
      let gs := mine.foldl (fun t e => t.modify (64 * e.2.1 + e.2.2.1) BarGroup.opened) x.groups
      let y := { x with groups := gs, counted := x.counted.filter fun e => !(e.1 == d && e.2.2.2 == r.2.2),
                        rels := x.rels.erase r }
      .next (({ s with dbars := s.dbars.set o y } : State).reenter (mine.map fun e => e.2.1))

/-! ## Byte counts (16 R354) -/

/-- The bytes of a range that lie in another. -/
def overlap (a n b m : Nat) : Nat := min (a + n) (b + m) - max a b

/-- A copy-engine write of `n` bytes at a global address lowers BYTES of the objects whose armed range it lands in. -/
def State.countBytes (s : State) (vf va n : Nat) : State :=
  s.armed.foldl (fun (t : State) a =>
    let k := overlap va n a.dst a.len
    if a.vf != vf || k = 0 then t
    else (t.putObject (a.obj + 48) 8 (t.mem.read (a.obj + 48) 8 - k)).dbarMaster a.obj) s

end Sys2Proof.Machine
end

