-- ==== Sys2Proof/Machine/EngMem.lean ====
section
/-!
DEFINITION. Machine/EngMem.lean: the memory accesses of engine operations and stream ports: engine addresses, their
translation, fresh reads and writes at home, and done counters (spec/09_core_tiles.md R213, R216, R219; 08 R189).

An access of an engine to host memory or to another package waits for the completion of its request, which is taken where its
address is resolved (log 10).
-/

set_option linter.constructorNameAsVariable false

namespace Sys2Proof.Machine

/-- Where an engine address leads: not translated yet, held by the final block of a migration (18 R381), outside the package, with
the request still to be completed, a fault with its address, shared memory, or a translated global address, which a stash window may
map. -/
inductive Loc
  | wait (va : Nat)
  | held
  | out (k : OutKind) (key n : Nat)
  | fault (cause addr : Nat)
  | shared (home off : Nat)
  | glob (e : TlbEntry) (l1 : Bool) (va : Nat) (win : Option Nat)
  deriving DecidableEq, Repr

/-- The sequencer of a site has reserved the page of an address: a migration waits for what it does there (11 R259, 18 R382). -/
def State.reservedBy (s : State) (p : Site) (va : Nat) : Bool :=
  match p.asker, (s.blk p.blk).seq with
  | .unit (.seqr _), some q => q.reserved.any fun r => decide (r.1 ≤ va) && decide (va < r.1 + r.2)
  | _, _ => false

/-- Resolve a global address for an engine or a stream port, whose translation faults have kind 0b11 (13 R267; R233 asks for the
cause of a lane access, whose kinds are those of lanes: DESIGN CHOICE, log 139). A stash window maps N pages only (07 R161);
`forbid`: the types that the access may not touch. -/
def State.engGlobal (s : State) (p : Site) (wr : Bool) (va n : Nat) (win : Option Nat) (forbid : MemType → Bool)
    (k : OutKind) : Loc :=
  match s.resolve p .engine wr va with
  | .wait => .wait va
  | .fault c => .fault c va
  | .ok e l1 =>
    if (win.isSome && notNormal e.mt) || forbid e.mt then .fault 0x3B va
    else if s.pageHeld (e.key va) && !s.reservedBy p va then .held
    else
      match s.reached p.asker k (e.key va) n with
      | .ok => .glob e l1 va win
      | .wait => .out k (e.key va) n
      | .aborted c => .fault c va

/-- Resolve `n` bytes at an engine address. -/
def State.engLoc (s : State) (p : Site) (wr : Bool) (a n : Nat) (forbid : MemType → Bool := fun _ => false)
    (atomic : Bool := false) : Loc :=
  if engLocal a then
    if !engAddrOk a then .fault 0x38 (a % 2 ^ 32)
    else
      match s.region p.blk (a % 2 ^ 32) n with
      | none => .fault 0x38 (a % 2 ^ 32)
      | some (.shared home off) => .shared home off
      | some (.stash w off) =>
        if (s.blk p.blk).winMaps w = 0 then .fault 0x39 (a % 2 ^ 32)
        else s.engGlobal p wr ((s.blk p.blk).winMaps w + off) n (some w) forbid (outKind wr atomic)
  else if 2 ^ 52 ≤ a then .fault 0x37 a
  else s.engGlobal p wr a n none forbid (outKind wr atomic)

/-- The key of a resolved address. -/
def Loc.key : Loc → Nat
  | .shared home off => sharedKey home off
  | .glob e _ va _ => e.key va
  | _ => 0

/-- The arbiter of its memory channel lets an access at a resolved address wait (20 R409). -/
def State.locHeld (s : State) (p : Site) (x : Loc) : Bool :=
  match x with
  | .glob e _ va _ => s.arbHeld (e.key va) (s.blk p.blk).part
  | _ => false

/-- What an access waits for is asked for: a walk, the completion of a request, its memory channel. -/
def State.askLoc (s : State) (p : Site) (x : Loc) : State :=
  match x with
  | .wait va => s.askWalk p va
  | .out k key n => s.askOut p.asker p.blk k key n
  | .glob e _ va _ => s.ask p.asker (e.key va) (s.blk p.blk).part
  | _ => s

/-- A byte of a read-only page: the die's read-only cache serves it where it holds its word (16 R339). -/
def State.roByte (s : State) (c k : Nat) : Byte :=
  match (s.copies.getD c []).find (k / 4) with
  | some w => BitVec.ofNat 8 (w.toNat / 2 ^ (8 * (k % 4)))
  | none => s.mem.get k

/-- The read-only cache of a site. -/
def State.siteRo (s : State) (p : Site) : Nat := roCache p.die (s.blk p.blk).part

/-- The bytes at a resolved address, read at its home, or, of a read-only page, through the read-only cache. -/
def State.locBytes (s : State) (p : Site) (x : Loc) (n : Nat) : List Byte :=
  match x with
  | .shared home off => (s.blk home).shared.bytes off n
  | .glob e _ va _ =>
    if e.roServed then (List.range n).map fun i => s.roByte (s.siteRo p) (e.key va + i) else s.mem.bytes (e.key va) n
  | _ => []

/-- The lines of a range of bytes, by the keys of their first bytes. -/
def linesOf (key n : Nat) : List Nat := (List.range ((key % 128 + n + 127) / 128)).map fun i => key / 128 * 128 + 128 * i

/-- The lines of a stash window that an engine touches first are filled (07 R163). -/
def State.touchWin (s : State) (p : Site) (win : Option Nat) (key n : Nat) : State :=
  match win with
  | some _ => (linesOf key n).foldl (fun t l => t.touchStash (stashCache p.blk) l) s
  | none => s

/-- What a read by an engine, a port or a TLD leaves: its bytes are charged to the channel (20 R409); of a read-only page its lines
come to the read-only cache, and those that were there are hits (16 R339; 17 R358). -/
def State.afterLocRead (s : State) (p : Site) (x : Loc) (n : Nat) : State :=
  match x with
  | .glob e _ va win =>
    let u := (s.touchWin p win (e.key va) n).chargeFor p.asker (e.key va) (s.blk p.blk).part (roundUp n 32)
    if !e.roServed then u
    else
      let c := s.siteRo p
      let hits := ((linesOf (e.key va) n).filter fun l => (s.copies.getD c []).has (l / 4)).length
      let t := (linesOf (e.key va) n).foldl (fun u l => u.fillRo p.die (s.blk p.blk).part l) u
      t.count (s.blk p.blk).core 7 hits
  | _ => s

/-- The first poisoned byte of a read: its distance from the address. -/
def State.locPoison (s : State) (x : Loc) (n : Nat) : Option Nat :=
  match x with
  | .wait _ => none
  | .held => none
  | .out _ _ _ => none
  | .fault _ _ => none
  | _ => (firstWhere (fun w => s.poison.contains w) (wordsOf x.key n)).map fun w => 4 * w - x.key

/-- The translation of an access is used: TLB fill, D on a write; the home slice takes its line (18 R371), at the lowest priority
where the access is non-temporal, as CTL.NT says of copy engines and ports (09 R214, 10 R228). -/
def State.useLoc (s : State) (p : Site) (x : Loc) (wr : Bool) (nt : Bool := false) : State :=
  match x with
  | .glob e l1 va _ =>
    let t := (s.useEntry p e l1).fillSlice (s.blk p.blk).vf (fillOf e.mt nt) false (e.key va)
    if wr then t.setDirty e else t
  | _ => s

/-- Write bytes at a resolved address, at its home, charged as `cost` bytes. A write through a stash window leaves its words of device
memory to the stash; words of the host and of other packages are owned by none (21 R427). -/
def State.locPut (s : State) (p : Site) (x : Loc) (bs : List Byte) (cost : Nat) (nt : Bool := false) : State :=
  match x with
  | .shared home off => s.commitShared home (cellsAt (sharedKey home off) bs)
  | .glob e _ va win =>
    let vf := (s.blk p.blk).vf
    let key := e.key va
    let owner := if isDevice key then win.map fun w => (stashCache p.blk, some w) else none
    (((s.touchWin p win key bs.length).commit (cellsAt key bs) owner vf (fillOf e.mt nt)).noteFrame vf (e.frame va)).chargeFor
      p.asker key (s.blk p.blk).part cost
  | _ => s

/-- Write bytes at a resolved address. -/
def State.locWrite (s : State) (p : Site) (x : Loc) (bs : List Byte) (nt : Bool := false) : State :=
  s.locPut p x bs (roundUp bs.length 32) nt

/-- The number of bytes from an engine address, at most `n`, that lie in one page and, in shared memory, in one
region. -/
def State.pieceLen (s : State) (b a n : Nat) : Nat :=
  let page := min n (4096 - a % 4096)
  if engLocal a then
    let off := a % 2 ^ 32
    if off < (s.blk b).node.shared then min page ((s.blk b).node.shared - off)
    else if 0x40000000 ≤ off ∧ off < 0x80000000 then
      match s.memberOn b ((off - 0x40000000) / 0x80000) with
      | some m => max 1 (min page ((s.blk m).node.shared - (off - 0x40000000) % 0x80000))
      | none => page
    else page
  else page

/-- A signed word. -/
def wordInt (w : Word) : Int := w.toInt
/-- An engine address plus a signed offset. -/
def addrPlus (a : Nat) (i : Int) : Nat := wrapN 64 ((a : Int) + i)

/-- What one step of an operation gives. -/
inductive EngStep
  | wait (s : State)
  | fault (cause addr : Nat)
  | ok (s : State)

/-- The site of an operation. -/
def State.engSite (s : State) (id : Nat) (o : EngineOp) : Site := s.blkSite (.engine id) o.blk

/-- Add 1 to the done counter, atomically, with release (R189, R219); in host memory by an AtomicOp (20 R414). The copies that the
engine's core holds of the counter are dropped (08 R186). Poisoned data have a consumer in the addition (20 R419). -/
def State.bumpDone (s : State) (p : Site) (a : Nat) : EngStep :=
  let x := s.engLoc p true a 8 noAtomics true
  match x with
  | .fault c v => .fault c v
  | .shared home off =>
    let v := (s.blk home).shared.read off 8
    if (s.locPoison x 8).isSome then .fault 0x3C a
    else .ok (s.commitShared home (cellsAt (sharedKey home off) (leBytes 8 (v + 1))))
  | .glob e _ va _ =>
    if s.locHeld p x then .wait (s.askLoc p x)
    else if (s.locPoison x 8).isSome then .fault 0x3C a
    else
      let t := s.useLoc p x true
      .ok ((t.locPut p x (leBytes 8 (t.mem.read (e.key va) 8 + 1)) 64).dropWords
        (fun c => t.cacheCore c == some (t.blk p.blk).core) (wordsOf (e.key va) 8))
  | x => .wait (s.askLoc p x)

/-- Change an operation. -/
def State.modEngine (s : State) (id : Nat) (f : EngineOp → EngineOp) : State :=
  { s with engines := s.engines.modify id f }

/-- An operation stops at a fault (R219). -/
def State.parkEngine (s : State) (id cause addr : Nat) : State :=
  ((s.modEngine id fun o =>
    { o with fault := some (cause, BitVec.ofNat 64 addr), parked := true, parkedAt := s.now }).countFaulted
      (s.engSite id (s.engines.getD id default)) addr cause).clearFaults (.engine id)

/-- The registers that hold the done counter's address. -/
def doneReg (engine : Nat) : Nat := if engine = 2 then 6 else if engine = 3 then 19 else 12

/-- The end of an operation: its done counter, and then it is gone; or it stops at the counter's fault. -/
def State.finishEngine (s : State) (id : Nat) (o : EngineOp) (done : Nat) : State :=
  match s.bumpDone (s.engSite id o) done with
  | .wait t => t
  | .fault c a => s.parkEngine id c a
  | .ok t => ({ t with engines := t.engines.erase id } : State).clearFaults (.engine id)

end Sys2Proof.Machine
end

