-- ==== Sys2Proof/Machine/EvXlate.lean ====
section
/-!
DEFINITION. Machine/EvXlate.lean: page walks and translation invalidation (spec/16_die_memory.md R340, R345-R349; 21
R424).
-/

namespace Sys2Proof.Machine

/-! ## Walks (16 R347, R348) -/

/-- The walkers of a die that are busy. -/
def State.walkersBusy (s : State) (d : Nat) : Nat := (s.walks.filter fun e => e.2.die == d && e.2.started).length

/-- A walk queued before this one on the die has no walker yet. -/
def State.walkQueued (s : State) (d id : Nat) : Bool :=
  s.walks.any fun e => decide (e.1 < id) && e.2.die == d && !e.2.started

/-- PAGE_WALK_START: a queued walk takes one of the die's 192 walkers, in order of arrival. -/
def execPageWalkStart (d id : Nat) (s : State) : Out :=
  match s.walks.find id with
  | none => .next s
  | some w =>
    if w.die != d || w.started || decide (192 ≤ s.walkersBusy d) || s.walkQueued d id then .next s
    else .next { s with walks := s.walks.set id { w with started := true } }

/-- The block of an asker, none for a comet context, whose core has no counters. -/
def State.askerBlk (s : State) : Asker → Option Nat
  | .unit (.split b _ _) => some b
  | .unit (.seqr b) => some b
  | .unit _ => none
  | .port b _ _ => some b
  | .engine id => (s.engines.find id).map (·.blk)
  | .walk _ => none

/-- The L1 TLB misses of the requests that a walk ends in a fault; one that succeeds counts when it is used (17 R358). -/
def State.countMisses (s : State) (w : Walk) : State :=
  w.joined.foldl (fun t a => match s.askerBlk a with
    | some b => t.count (s.blk b).core 4 1
    | none => t) s

/-- The faults of a walk, one for each joined request (R347). -/
def walkFaultsOf (w : Walk) (e : WalkErr) : List WalkFault :=
  w.joined.map fun a => { asker := a, vf := w.vf, vpn := w.vpn, stage2 := e.stage2, level := e.level }

/-- The faults of a walk that read a poisoned entry (20 R419). -/
def walkPoisonOf (w : Walk) : List WalkFault :=
  w.joined.map fun a => { asker := a, vf := w.vf, vpn := w.vpn, stage2 := false, level := 0, poison := true }

/-- The reads of a walk are charged to the partition of its virtual function, 32 bytes each (20 R409). -/
def State.chargeWalk (s : State) (id : Nat) (w : Walk) (keys : List Nat) : State :=
  keys.foldl (fun t k => t.chargeFor (.walk id) k (s.vf w.vf).part 32) s

/-- A walk waits for the channels of its reads (20 R409); none: it waits for none. -/
def State.walkStop (s : State) (id : Nat) (w : Walk) (keys : List Nat) : Option State :=
  match keys.filter fun k => s.arbHeld k (s.vf w.vf).part with
  | [] => none
  | ks => some (ks.foldl (fun t k => t.ask (.walk id) k (s.vf w.vf).part) s)

/-- PAGE_WALK_END: the translation comes into the L2 TLB of the die, A set in the leaves used (R345); or the fault goes
to every joined request. A walk that an invalidation met starts again (R349). -/
def execPageWalkEnd (d id : Nat) (s : State) : Out :=
  match s.walks.find id with
  | none => .next s
  | some w =>
    if w.die != d || !w.started then .next s
    else if w.stale then .next { s with walks := s.walks.set id { w with started := false, stale := false } }
    else
      let keys := walkReads s.mem s.fabid (s.vf w.vf) (w.vpn * 4096)
      match s.walkStop id w keys with
      | some t => .next t
      | none =>
        let s1 : State := { s.chargeWalk id w keys with walks := s.walks.erase id }
        if keys.any fun k => s.poisoned k 8 then .next { s1.countMisses w with walkFaults := s.walkFaults ++ walkPoisonOf w }
        else
          match walkBoth s.mem s.fabid w.vf (s.vf w.vf) (w.vpn * 4096) with
          | .error e =>
            let s2 := (s1.markUsed e.used).countMisses w
            .next { s2 with walkFaults := s2.walkFaults ++ walkFaultsOf w e }
          | .ok (e, used) => .next ((s1.markUsed used).tlbFill (dieTlb d) e)

/-! ## Invalidation (16 R340, R349) -/

/-- An address range of a virtual function; a length of 0 names all of it. -/
def inRange (va len a n : Nat) : Bool := len == 0 || rangesMeet va len a n

/-- A sequencer's pushes that are under way and write global memory, whatever their addresses: their cells are translated. -/
def Seq.pushing (q : Seq) : Bool :=
  (q.ports.any fun p => p.2.writes.any fun w => w.2.any fun c => !isShared c.1) ||
  q.ops.any fun o => match o.2.dest with
    | .push _ _ cells => cells.any fun c => !isShared c.1
    | _ => false

/-- An access of the virtual function that used an old translation of the range is still under way: loads, atomics and
stores of lanes, TLD and TST reservations; pushes, and arrivals at die barriers that are not counted yet (R352), whose addresses are
not kept and count for every range. -/
def State.usesRange (s : State) (vf va len : Nat) : Bool :=
  let of := fun b => (s.blk b).vf == vf
  (s.ops.vals.any fun o => of o.blk && o.acc.any fun a => !isShared a.key && inRange va len a.ea.toNat o.bytes) ||
  (s.stores.vals.any fun x => of x.blk && x.shared.isNone && !x.performed &&
    (x.ea == 0 || inRange va len x.ea.toNat x.cells.length)) ||
  (s.dbars.vals.any fun x => x.fresh.any fun f => of f.2.1) ||
  s.blocks.any fun e => e.2.vf == vf && match e.2.seq with
    | some q => (q.xfers.vals.any fun x => x.addr < 2 ^ 52 && inRange va len x.addr (256 * x.count)) ||
        (q.reserved.any fun r => r.1 < 2 ^ 52 && inRange va len r.1 r.2) || q.pushing
    | none => false

/-- A cache number of a read-only cache (16 R339). -/
def isRoCache (c : Nat) : Bool := 3000 ≤ c && c < 4096

/-- Drop what an invalidation covers: TLB entries, the results of walks in flight, and the read-only cache lines, here
all of them (log 8). -/
def State.invalidate (s : State) (vf va len : Nat) : State :=
  { s with
    tlbs := s.tlbs.mapv fun _ l => l.filter fun e => !(e.vf == vf && inRange va len e.va e.size),
    walks := s.walks.mapv fun _ w => if w.vf == vf && inRange va len (w.vpn * 4096) 4096 then { w with stale := true } else w,
    copies := s.copies.keep fun c _ => !isRoCache c }

/-- TRANSLATION_INVALIDATION, of PF0's translation control interface (20 R403): completes once no access of the range
is under way. -/
def execTranslationInvalidation (fn vf va len : Nat) (s : State) : Out :=
  if fn != 0 || s.usesRange vf va len then .next s else .next (s.invalidate vf va len)

end Sys2Proof.Machine
end

