-- ==== Sys2Proof/Machine/Mgmt.lean ====
section
/-!
DEFINITION. Machine/Mgmt.lean: memory as the hub and the work distributor read and write it: the addresses of a command of a
virtual function are that function's, those of PF0 are physical (spec/15_die_work.md R313; 20 R403; log 30).
-/

namespace Sys2Proof.Machine

/-- The translation of an address in the space of a function: the two stages of a virtual function, with the partition check
and, for a write, write permission; PF0's addresses are physical. The walk sets A, and D on a write, as every walk does. -/
def State.spaceFind (s : State) (fn : Nat) (wr : Bool) (va : Nat) : Option (TlbEntry × List Nat) :=
  if fn = 0 then
    match rangeOf va with
    | none => none
    | some _ => some ({ vf := 0, va := va / 4096 * 4096, size := 4096, pa := va / 4096 * 4096, ipa := va / 4096 * 4096,
                        mt := .n, ro := false, part := 31, pin := none, rem := none, dirty := true, leaves := [] }, [])
  else
    match walkBoth s.mem s.fabid fn (s.vf fn) va with
    | .error _ => none
    | .ok (e, used) =>
      if (e.part != 31 && e.part != (s.vf fn).part) || (wr && e.ro) then none else some (e, used)

/-- The pages that a range of bytes touches, first addresses in the range. -/
def spacePages (va n : Nat) : List Nat :=
  (List.range ((va % 4096 + max n 1 + 4095) / 4096)).map fun i => if i = 0 then va else (va / 4096 + i) * 4096

/-- The translations of a range of bytes, one a page. -/
def State.spaceMap (s : State) (fn : Nat) (wr : Bool) (va n : Nat) : Option (List (TlbEntry × List Nat)) :=
  (spacePages va n).mapM fun p => s.spaceFind fn wr p

/-- The key of an address under translations of its range. -/
def keyIn (ms : List (TlbEntry × List Nat)) (va : Nat) : Nat :=
  match ms.find? fun m => decide (m.1.va ≤ va) && decide (va < m.1.va + m.1.size) with
  | some m => m.1.key va
  | none => 2 ^ 61 + va

/-- Every page of a range is normal memory. -/
def allNormal (ms : List (TlbEntry × List Nat)) : Bool := ms.all fun m => m.1.mt == .n

/-- The bytes of a range. -/
def State.bytesIn (s : State) (ms : List (TlbEntry × List Nat)) (va n : Nat) : List Byte :=
  (List.range n).map fun i => s.mem.get (keyIn ms (va + i))

/-- The A bits, and the D bits on a write, that translations leave in their leaves (16 R345). -/
def State.markLeaves (s : State) (ms : List (TlbEntry × List Nat)) (wr : Bool) : State :=
  ms.foldl (fun (t : State) m =>
    let u := t.markUsed m.2
    if wr then u.setDirty m.1 else u) s

/-- The walks of a read of a function's space set A (16 R345). -/
def State.markSpace (s : State) (fn va n : Nat) : State :=
  match s.spaceMap fn false va n with
  | some ms => s.markLeaves ms false
  | none => s

/-- Write bytes of a range for a virtual function, at their homes. -/
def State.putIn (s : State) (fn : Nat) (ms : List (TlbEntry × List Nat)) (va : Nat) (bs : List Byte) : State :=
  let cells := (List.zip (List.range bs.length) bs).map fun x => (keyIn ms (va + x.1), x.2)
  let t := (s.markLeaves ms true).commit cells none fn
  ms.foldl (fun u m => if fn = 0 then u else u.noteFrame fn (m.1.frame (max m.1.va va))) t

/-- Read bytes of a function's space; `none` where they are not mapped to normal memory. -/
def State.readSpace (s : State) (fn va n : Nat) : Option (List Byte) :=
  match s.spaceMap fn false va n with
  | some ms => if allNormal ms then some (s.bytesIn ms va n) else none
  | none => none

/-- Write bytes of a function's space, where they are mapped to writable normal memory. -/
def State.writeSpace (s : State) (fn va : Nat) (bs : List Byte) : Option State :=
  match s.spaceMap fn true va bs.length with
  | some ms => if allNormal ms then some (s.putIn fn ms va bs) else none
  | none => none

/-- The answer of a command. -/
def State.reply (s : State) (fn status : Nat) (vals : List Nat) : State :=
  { s with answers := s.answers ++ [{ fn := fn, status := status, vals := vals }] }

end Sys2Proof.Machine
end

