-- ==== Sys2Proof/Machine/Mmio.lean ====
section
/-!
DEFINITION. Machine/Mmio.lean: the register interfaces of BAR0: the register at an offset, and what a register reads
(spec/20_package_tenancy.md R403-R407, R415, R418, R419; 10 R221; 13 R271; 16 R341; 17 R368; 18 R377, R379; 21 R423).
-/

namespace Sys2Proof.Machine

/-! ## The register at an offset -/

/-- The facet control interface: 128 bytes a core (20 R406). -/
def facetReg (ofs : Nat) : Option HubReg :=
  let core := ofs / 0x80
  let r := ofs % 0x80
  let f := 4 * core + (r - 0x10) / 0x18
  if 383 < core then none
  else if r = 0 then some (.cmode core)
  else if r = 4 then some (.cmerr core)
  else if r < 0x10 || 0x70 ≤ r then none
  else
    match (r - 0x10) % 0x18 with
    | 0 => some (.fctl f)
    | 4 => some (.fown f)
    | 8 => some (.tvec f)
    | _ => none

/-- The partition control interface: 256 bytes a partition from 0x1000 on (20 R407). -/
def partReg (ofs : Nat) : Option HubReg :=
  let p := (ofs - 0x1000) / 0x100
  let r := ofs % 0x100
  if ofs < 0x1000 || 19 < p then none
  else if 0x08 ≤ r && r ≤ 0x24 && r % 4 == 0 then some (.floor p ((r - 8) / 4))
  else
    match r with
    | 0x00 => some (.ptag p)
    | 0x28 => some (.comet p)
    | 0x30 => some (.enbud p)
    | 0x38 => some (.enused p)
    | 0x40 => some (.pqbase p)
    | 0x48 => some (.pqcap p)
    | 0x4C => some (.plim p)
    | 0x50 => some (.slice p)
    | 0x58 => some (.pqhead p)
    | 0x60 => some (.pqtail p)
    | _ => none

/-- The translation control interface: a virtual function's partition and roots; its offsets are not stated (DESIGN CHOICE,
log 175). -/
def vfRegAt (ofs : Nat) : Option HubReg :=
  let i := ofs / 0x20
  if i = 0 || 512 < i then none
  else
    match ofs % 0x20 with
    | 0x00 => some (.vfPart i)
    | 0x08 => some (.s1root i)
    | 0x10 => some (.s2root i)
    | 0x18 => some (.s2en i)
    | _ => none

/-- The memory control interface: the base of the bias table, MONQ and MONUSE, the way masks; its offsets are not stated (DESIGN
CHOICE, log 175). -/
def memReg (ofs : Nat) : Option HubReg :=
  let die := ofs % 0x1000 / 0x100
  let p := ofs % 0x100 / 8
  let d := (ofs - 0x2000) / 0x1000
  let i := ofs % 0x1000 / 4
  if ofs = 0 then some .biasBase
  else if 0x1000 ≤ ofs && ofs < 0x1800 && p < 20 && ofs % 4 == 0 then some (if ofs % 8 = 0 then .monq die p else .monuse die p)
  else if 0x2000 ≤ ofs && ofs < 0xA000 && 1 ≤ i && i ≤ 512 && ofs % 4 == 0 then some (.wayMask d i)
  else none

/-- The boot and status interface (20 R415, R418); the offsets of the integrity counters are not stated (DESIGN CHOICE,
log 175). -/
def bootReg (ofs : Nat) : Option HubReg :=
  if ofs = 0 then some .bootst
  else if ofs = 8 then some .hostcap
  else if 0x100 ≤ ofs && ofs % 8 == 0 then some (.integrity ((ofs - 0x100) / 8))
  else none

/-- The fabric control interface (21 R423). -/
def fabReg (ofs : Nat) : Option HubReg :=
  let e := (ofs - 0x900) / 16
  let q := (ofs - 0xD00) / 8
  if ofs = 0 then some .fabid
  else if 0x100 ≤ ofs && ofs < 0x900 && ofs % 8 == 0 then some (.route ((ofs - 0x100) / 8))
  else if 0x900 ≤ ofs && ofs < 0xD00 then
    match ofs % 16 with
    | 0 => some (.expBase e)
    | 8 => some (.expLen e)
    | 0xC => some (.expTag e)
    | _ => none
  else if 0xD00 ≤ ofs && ofs < 0xF00 && ofs % 4 == 0 then some (if ofs % 8 = 0 then .pctl q else .pstat q)
  else none

/-- A partition number of a Meridian's per-partition registers: 0-19 or 31. -/
def meridPart (p : Nat) : Bool := p < 20 || p == 31

/-- The registers of a Meridian (17 R368). -/
def meridReg (m ofs : Nat) : Option HubReg :=
  let p := ofs % 0x100 / 8
  let parted := ofs % 8 == 0 && meridPart p
  if 4 < m then none
  else if ofs = 0x000 then some (.mctl m)
  else if ofs = 0x008 then some (.wptr m)
  else if ofs = 0x010 then some (.tapdrop m)
  else if ofs = 0x018 then some (.qdrop m)
  else if parted && ofs / 0x100 == 1 then some (.mbud m p)
  else if parted && ofs / 0x100 == 2 then some (.dropb m p)
  else none

/-- The register at an offset of an interface. -/
def regAt (i : HubIface) (ofs : Nat) : Option HubReg :=
  match i with
  | .facet => facetReg ofs
  | .partition => partReg ofs
  | .translation => vfRegAt ofs
  | .memory => memReg ofs
  | .boot => bootReg ofs
  | .fabric => fabReg ofs
  | .meridian m => meridReg m ofs

/-- The register that a name, or an offset, stands for. -/
def resolveReg (r : HubReg) : Option HubReg :=
  match r with
  | .at i ofs => regAt i ofs
  | r => some r

/-! ## What a register reads -/

/-- What FCTL of a facet reads: WIDTH follows the core's mode (10 R221). -/
def State.readFctl (s : State) (f : Nat) : Word :=
  (s.facet f).fctl ||| BitVec.ofNat 32 (4 * (2 - s.cmode.getD (f / 4) 0))

/-- What PSTAT of a port reads (21 R423). -/
def FabPort.status (x : FabPort) : Nat :=
  b2n x.up + 2 * b2n x.train + 4 * b2n x.down + 256 * (x.peerPort % 64) + 16384 * (x.peerPkg % 256)

/-- What a register reads (00 R10): its fields, with 0 in the reserved ones. -/
def State.readReg (s : State) (r : HubReg) : Nat :=
  match r with
  | .at _ _ => 0
  | .cmode c => s.cmode.getD c 0
  | .cmerr c => b2n (s.cmerr.getD c false)
  | .fown f => (s.facet f).fown
  | .fctl f => (s.readFctl f).toNat
  | .tvec f => (s.facet f).tvec.toNat
  | .ptag p => (s.part p).ptag.toNat
  | .floor p d => (s.part p).floor.getD d 0
  | .comet p => (s.part p).comet
  | .enbud p => (s.part p).enbud
  | .enused p => (s.part p).enused
  | .pqbase p => (s.part p).pqbase
  | .pqcap p => (s.part p).pqcap
  | .plim p => (s.part p).plim
  | .slice p => (s.part p).slice
  | .pqhead p => (s.part p).pqhead
  | .pqtail p => (s.part p).pqtail
  | .vfPart i => (s.vf i).part
  | .s1root i => (s.vf i).s1root
  | .s2root i => (s.vf i).s2root
  | .s2en i => b2n (s.vf i).s2en
  | .wayMask d i => s.ways d i
  | .monq d p => s.quota d p
  | .monuse d p => s.monUse d p
  | .biasBase => s.biasBase
  | .hostcap => b2n s.hostcap
  | .bootst => s.bootst
  | .integrity n => s.integrity.getD n 0
  | .mctl m => b2n (s.merid m).en + 2 * b2n (s.merid m).frozen
  | .wptr m => (s.merid m).wptr
  | .tapdrop m => (s.merid m).tapdrop
  | .qdrop m => (s.merid m).qdrop
  | .mbud m p => (s.merid m).budget p
  | .dropb m p => (s.merid m).dropb.getD p 0
  | .fabid => s.fabid
  | .route t => s.routes.getD t 0
  | .expBase e => (s.exports.getD e default).base
  | .expLen e => (s.exports.getD e default).len
  | .expTag e => (s.exports.getD e default).tag.toNat
  | .pctl q => b2n (s.fport q).en
  | .pstat q => (s.fport q).status

/-- A function reads a register: PF0 each, a virtual function those of its partition in a Meridian (17 R368, 20 R403). The global
registers of a Meridian are the hypervisor's (DESIGN CHOICE, log 143). -/
def State.readableReg (s : State) (fn : Nat) (r : HubReg) : Bool :=
  fn == 0 || match r with
    | .mbud _ p => p == (s.vf fn).part
    | .dropb _ p => p == (s.vf fn).part
    | _ => false

/-- A read of an interface at an offset: 0 where no register stands there, or by a function that does not read it (20 R403). -/
def State.readAt (s : State) (fn : Nat) (i : HubIface) (ofs : Nat) : Nat :=
  match regAt i ofs with
  | some r => if s.readableReg fn r then s.readReg r else 0
  | none => 0

/-! ## Identity and attestation (20 R418) -/

/-- A document with its signatures under both schemes. -/
def signed (doc : List Byte) : List Byte := doc ++ Config.signEcdsa doc ++ Config.signLms doc

/-- What the attestation interface returns to PF0: at 0 the device identity certificate, at 8 an attestation report. -/
def State.attest (s : State) (fn ofs : Nat) : List Nat :=
  if fn != 0 then [0]
  else if ofs = 0 then (signed Config.certificate).map BitVec.toNat
  else if ofs = 8 then (signed (Config.report s.freeCtr)).map BitVec.toNat
  else [0]

end Sys2Proof.Machine
end

