-- ==== Sys2Proof/Machine/EvMeridian.lean ====
section
/-!
DEFINITION. Machine/EvMeridian.lean: the tap, the dispatch of events, samples, budget windows, link errors, and the telemetry
interface (spec/17_die_telemetry.md R355-R363, R367-R370).
-/

set_option linter.constructorNameAsVariable false

namespace Sys2Proof.Machine

/-! ## The tap (R355) -/

/-- Insertion by ascending source; events of one source keep their order. -/
def insertSrc (e : Event) : List Event → List Event
  | [] => [e]
  | x :: t => if e.src < x.src then e :: x :: t else x :: insertSrc e t

/-- The events of one clock by ascending source. -/
def sortSrc (l : List Event) : List Event := l.foldl (fun t e => insertSrc e t) []

/-- An event that the tap accepts: the afterglow record, also where FROZEN was set in this clock after the acceptance (R370),
then the dispatch queue of 256 entries. -/
def Merid.accept (x : Merid) (e : Event) : Merid :=
  let y := if x.grace then x.glowPut e else x.glowWrite e
  if y.disp.length < 256 then { y with disp := y.disp ++ [e] } else { y with qdrop := satInc y.qdrop }

/-- The events of one clock at a Meridian: four are accepted. -/
def Merid.tap (x : Merid) (l : List Event) : Merid :=
  let y := ((sortSrc l).take 4).foldl Merid.accept x
  { y with tapdrop := min (y.tapdrop + (l.length - 4)) 0xFFFFFFFF }

/-- The taps of every Meridian take the events of the clock. -/
def State.flushTaps (s : State) : State :=
  let t := (dedupN (s.taps.map Prod.fst)).foldl (fun t m =>
    t.modMerid m fun x => x.tap ((s.taps.filter fun e => e.1 == m).map Prod.snd)) { s with taps := [] }
  { t with merids := t.merids.mapv fun _ x => { x with grace := false } }

/-! ## Dispatch and budgets (R362, R363) -/

/-- The slots whose program runs on an event, ascending. -/
def Merid.takers (x : Merid) (e : Event) : List Nat :=
  (x.slots.filter fun a => bit a.2.types e.type && (a.2.part == 31 || a.2.part == e.part) && !a.2.leaving).map Prod.fst

/-- EVENT_DISPATCH: Meridian takes the next event and starts its first program. -/
def execEventDispatch (m : Nat) (s : State) : Out :=
  let x := s.merid m
  match x.disp with
  | [] => .next s
  | e :: t =>
    if !x.en || x.run.isSome then .next s
    else .next (s.modMerid m fun y => ({ y with disp := t } : Merid).startNext e (x.takers e))

/-- BUDGET_WINDOW: at a clock that is a multiple of 700 every remainder is MBUD again. -/
def execBudgetWindow (m : Nat) (s : State) : Out :=
  if s.now % 700 != 0 then .next s
  else .next (s.modMerid m fun x => { x with left := [], run := x.run.map fun r => { r with past := true } })

/-! ## Counters (R358) -/

/-- The counters that some attachment of a Meridian selects. -/
def Merid.selected (x : Merid) (i : Nat) : Bool := x.slots.any fun a => bit a.2.csel i

/-- COUNTER_SAMPLE: a core emits one COUNT event for each counter that its die selects, and samples all eight. -/
def execCounterSample (core : Nat) (s : State) : Out :=
  if s.now % 4096 != 0 then .next s
  else
    .next ((List.range 8).foldl (fun (t : State) i =>
      let k := 8 * core + i
      let v := t.counters.getD k 0
      let u := if (t.merid (dieOfCore core)).selected i then
          t.offer (dieOfCore core)
            { time := t.now, type := 0x01, part := 31, ctx := 0, src := core, sub := i, ea := v - t.sampled.getD k 0, eb := 4096 }
        else t
      { u with sampled := u.sampled.set k v }) s)

/-! ## Link errors (R357, 20 R419) -/

/-- The number of a link's error kind at a Meridian. -/
def linkKey (m link kind : Nat) : Nat := 1024 * m + 4 * link + kind

/-- A link's receiving end notes an error of a kind. -/
def State.noteLinkErr (s : State) (m link kind : Nat) : State :=
  let k := linkKey m link kind
  let e := s.linkErrs.getD k default
  { s with linkErrs := s.linkErrs.set k { e with count := e.count + 1 } }

/-- LINKERR_EMIT: one event for the errors of a link and kind since the last, at most once in 700 clocks. -/
def execLinkerrEmit (m link kind : Nat) (s : State) : Out :=
  let k := linkKey m link kind
  let e := s.linkErrs.getD k default
  if 4 < m || 3 < kind || e.count == 0 || (match e.last with
    | some n => decide (s.now < n + 700)
    | none => false)
  then .next s
  else
    .next ({ s with linkErrs := s.linkErrs.set k { count := 0, last := some s.now } } |>.offer m
      { time := s.now, type := 0x08, part := 31, ctx := 0, src := 0x4000 + link, sub := kind, ea := e.count, eb := 0 })

/-! ## Attachments (R359-R361) -/

/-- The bytes that an object takes of the output store (R360). -/
def objBytes (e : Nat) : Nat :=
  match objKind e with
  | 1 => 4 * objBins e + 8
  | 2 => 4096
  | 3 => 8
  | 4 => 8
  | _ => 0

/-- An object entry is valid: its KIND is (R360). -/
def objValid (e : Nat) : Bool := decide (objKind e ≤ 4)

/-- A bit of an object entry that R360 gives as 0 is set; an entry of KIND 0 gives none. -/
def objReserved (e : Nat) : Bool :=
  match objKind e with
  | 1 => bits e 15 11 != 0 || bits e 31 22 != 0
  | 2 => bits e 63 4 != 0
  | 3 => bits e 63 4 != 0
  | 4 => bits e 63 8 != 0
  | _ => false

/-- The object of a word and the KIND it needs. -/
def objectOf : Instr → Option (Nat × Nat)
  | .fltHist _ o => some (o.toNat, 1)
  | .fltSku _ _ o => some (o.toNat, 2)
  | .fltCadd _ o => some (o.toNat, 3)
  | .fltTrig _ o => some (o.toNat, 4)
  | _ => none

/-- The branch offset of a word. -/
def filterOfs : Instr → Option Nat
  | .fltBz _ k => some k.toNat
  | .fltBnz _ k => some k.toNat
  | .fltJmp o => some o.toNat
  | _ => none

/-- The instruction that a program word names. -/
def filterAt (w : Nat) : Option Instr := decodeFilter (BitVec.ofNat 16 w)

/-- The first failing check of an ATTACH (R361), 0 when all pass. `d`: the 192 bytes; `ws`: the words; `part`: the
partition of the function, none for the hypervisor; `used`: bytes of the store in use. -/
def attachCode (x : Merid) (slot : Nat) (d : List Byte) (ws : List Nat) (part : Option Nat) (used : Nat) : Nat :=
  let n (i k : Nat) : Nat := leVal ((d.drop i).take k)
  let objs := (List.range 16).map fun i => n (64 + 8 * i) 8
  let is := ws.map filterAt
  let okPart := match part with
    | none => n 4 1 < 20 || n 4 1 == 31
    | some p => n 4 1 == p
  if 32 ≤ slot || x.slots.has slot || (((d.drop 7).take 57).any fun v => v != 0) || objs.any objReserved then 1
  else if !okPart || n 0 4 % 2 != 0 || n 0 4 / 1024 != 0 then 2
  else if n 6 1 = 0 || 64 < n 6 1 || is.any (·.isNone) then 3
  else if (List.zip (List.range is.length) is).any (fun e => match e.2.bind filterOfs with
      | some o => o == 0 || decide (is.length ≤ e.1 + o)
      | none => false) || is.getLast? != some (some .fltEnd) then 4
  else if is.any (fun e => match e.bind objectOf with
      | some (o, k) => objKind (objs.getD o 0) != k
      | none => false) || objs.any (fun e => !objValid e) then 5
  else if 262144 < used + (objs.map objBytes).sum then 6
  else 0

/-- The bytes of the output store that the attachments of a Meridian take. -/
def Merid.storeUsed (x : Merid) : Nat := (x.slots.vals.map fun a => (a.objs.map objBytes).sum).sum

/-- The storage of objects at ATTACH: zero, every trigger armed. -/
def objStart (objs : List Nat) : Table (Table Nat) :=
  (List.zip (List.range 16) objs).filterMap fun e => if objKind e.2 = 4 then some (e.1, [(0, 1)]) else none

/-- ATTACH. A descriptor that cannot be read on an N page fails the first check (log 31). -/
def execAttach (fn m slot desc : Nat) (s : State) : Out :=
  if 4 < m then .next s
  else
    match s.readSpace fn desc 192 with
    | none => .next (s.reply fn 1 [])
    | some d =>
      let n (i k : Nat) : Nat := leVal ((d.drop i).take k)
      let plen := if 64 < n 6 1 then 0 else n 6 1
      match s.readSpace fn (desc + 192) (2 * plen) with
      | none => .next ((s.markSpace fn desc 192).reply fn 1 [])
      | some p =>
        let t := s.markSpace fn desc (192 + 2 * plen)
        let ws := (List.range plen).map fun i => leVal ((p.drop (2 * i)).take 2)
        let objs := (List.range 16).map fun i => n (64 + 8 * i) 8
        let c := attachCode (s.merid m) slot d ws (if fn = 0 then none else some (s.vf fn).part) (s.merid m).storeUsed
        if c != 0 then .next (t.reply fn c [])
        else
          let a : Attach := { types := n 0 4, part := n 4 1, csel := n 5 1, words := ws, objs := objs,
                              store := objStart objs, leaving := false }
          .next ((t.modMerid m fun x => { x with slots := x.slots.set slot a }).reply fn 0 [])

/-- The function may act on an attachment: the hypervisor, or a virtual function of its partition. -/
def State.ownsAttach (s : State) (fn : Nat) (a : Attach) : Bool := fn == 0 || a.part == (s.vf fn).part

/-- A run is on the slot, or the event still has it to run. -/
def Merid.busySlot (x : Merid) (slot : Nat) : Bool :=
  match x.run with
  | some r => r.slot == slot || r.todo.contains slot
  | none => false

/-- DETACH: at once, or once the slot's current event completes. -/
def execDetach (fn m slot : Nat) (s : State) : Out :=
  match (s.merid m).slots.find slot with
  | none => .next s
  | some a =>
    if !s.ownsAttach fn a then .next s
    else if (s.merid m).busySlot slot then
      .next (s.modMerid m fun x => { x with slots := x.slots.set slot { a with leaving := true } })
    else .next (s.modMerid m fun x => { x with slots := x.slots.erase slot })

/-! ## Reading (R368, R369) -/

/-- The storage of an object as READ returns it: the bins, UNDER and OVER; the rows of a sketch; a counter; the 8 bytes of a
trigger (log 61). -/
def Attach.storage (a : Attach) (o : Nat) : List Nat :=
  let t := a.store.getD o []
  let e := a.objs.getD o 0
  match objKind e with
  | 1 => (List.range (objBins e)).map (fun i => t.getD i 0) ++ [t.getD underAt 0, t.getD (underAt + 1) 0]
  | 2 => (List.range 1024).map fun i => t.getD i 0
  | 3 => [t.getD 0 0]
  | 4 => [t.getD 1 0]
  | _ => []

/-- The storage of an object, zeroed: a trigger stays as it is armed (log 61). -/
def zeroObject (e : Nat) (t : Table Nat) : Table Nat := if objKind e = 4 then t.keep fun i _ => i == 0 else []

/-- The register interface that a READ names beside the attachments' slots: that of the Meridian for slot 32, those of the hub
for 33-38 (DESIGN CHOICE, log 175). -/
def slotIface (m slot : Nat) : Option HubIface :=
  match slot with
  | 32 => some (.meridian m)
  | 33 => some .facet
  | 34 => some .partition
  | 35 => some .translation
  | 36 => some .memory
  | 37 => some .boot
  | 38 => some .fabric
  | _ => none

/-- READ and READCLR: the storage, or 0 to a function that may not read it. Slots 32-38 name the register interfaces, whose offset
the object then is, and 39 the attestation; READCLR only reads them. -/
def State.readObject (s : State) (clear : Bool) (fn m slot obj : Nat) : State :=
  match slotIface m slot with
  | some i => s.reply fn 0 [s.readAt fn i obj]
  | none =>
    if slot = 39 then (s.reply fn 0 (s.attest fn obj)).tickFree
    else
      match (s.merid m).slots.find slot with
      | none => s.reply fn 0 [0]
      | some a =>
        if !s.ownsAttach fn a || 16 ≤ obj then s.reply fn 0 [0]
        else
          let t := s.reply fn 0 (a.storage obj)
          if clear then t.modMerid m fun x => x.update slot obj (zeroObject (a.objs.getD obj 0)) else t

/-- READ. -/
def execRead (fn m slot obj : Nat) (s : State) : Out := .next (s.readObject false fn m slot obj)
/-- READCLR. -/
def execReadclr (fn m slot obj : Nat) (s : State) : Out := .next (s.readObject true fn m slot obj)

/-- TRIGGER_REARM. -/
def execTriggerRearm (fn m slot obj : Nat) (s : State) : Out :=
  match (s.merid m).slots.find slot with
  | none => .next s
  | some a =>
    if !s.ownsAttach fn a || objKind (a.objs.getD obj 0) != 4 then .next s
    else .next (s.modMerid m fun x => x.update slot obj fun t => t.set 0 1)

/-- The fields of an event record. -/
def Event.vals (e : Event) : List Nat := [e.time, e.type, e.part, e.ctx, e.src, e.sub, e.ea, e.eb]

/-- AFTERGLOW_READ: a record by index, for the hypervisor. A poisoned record is answered with the status 0x3C, since no unit is
there to trap (20 R419; DESIGN CHOICE, log 172). -/
def execAfterglowRead (fn m ix : Nat) (s : State) : Out :=
  if fn = 0 && (s.merid m).badGlow.contains (ix % 4096) then .next (s.reply fn 0x3C [])
  else if fn = 0 then .next (s.reply fn 0 (((s.merid m).glow.getD (ix % 4096) default).vals)) else .next (s.reply fn 0 [0])

/-- MCTL_WRITE: EN and FROZEN, by the hypervisor. Whether the tap's acceptance of this clock precedes a write that sets FROZEN is
a free choice (R370). -/
def execMctlWrite (fn m : Nat) (v : Word) (s : State) : Out :=
  if fn != 0 || 4 < m then .next s
  else
    .next (s.tickFree.modMerid m fun x =>
      { x with en := v.getLsbD 0, frozen := v.getLsbD 1,
               grace := x.grace || (v.getLsbD 1 && !x.frozen && Config.freeBool s.freeCtr) })

end Sys2Proof.Machine
end

