-- ==== Sys2Proof/Machine/EvFabric.lean ====
section
/-!
DEFINITION. Machine/EvFabric.lean: fabric ports, routing, requests from other packages and from the host, CRC retries
(spec/20_package_tenancy.md R412-R414, R419; 21 R420-R427; 15 R315).
-/

set_option linter.constructorNameAsVariable false

namespace Sys2Proof.Config

/-- The 16 header bytes of a flit, whose layout is not stated (21 R420). -/
opaque flitHead : Sys2Proof.Machine.FabFlit → List Sys2Proof.Byte

/-- The payload bytes of a flit, whose layout is not stated (21 R420). -/
opaque flitBody : Sys2Proof.Machine.FlitLoad → List Sys2Proof.Byte

/-- The sequence number that a flit's header holds. -/
opaque flitSeq : List Sys2Proof.Byte → Nat

/-- The target package that a flit's header holds. -/
opaque flitTarget : List Sys2Proof.Byte → Nat

/-- The source package that a flit's header holds. -/
opaque flitSource : List Sys2Proof.Byte → Nat

/-- The virtual channel that a flit's header holds. -/
opaque flitChan : List Sys2Proof.Byte → Nat

/-- The target memory die of the request that a payload holds (21 R424). -/
opaque flitHome : List Sys2Proof.Byte → Nat

/-- The hops that the request of a flit has made (21 R424). -/
opaque flitHops : List Sys2Proof.Byte → Nat

end Sys2Proof.Config

namespace Sys2Proof.Machine

/-! ## Ports (21 R420, R421, R423) -/

/-- A port starts to train. -/
def FabPort.startTrain (x : FabPort) (now : Nat) : FabPort :=
  { x with up := false, train := true, down := false, replays := 0, trainSince := now }

/-! ## Flits (R420) -/

/-- `n` bytes from a list of them, 0 behind its end. -/
def fixBytes (n : Nat) (bs : List Byte) : List Byte := (List.range n).map fun i => bs.getD i 0

/-- The 232 bytes of payload of a flit. -/
def FlitLoad.body : FlitLoad → List Byte
  | .transit b => fixBytes 232 b
  | x => fixBytes 232 (Config.flitBody x)

/-- The 256 bytes of a flit: header, payload, and the CRC-64 over both. -/
def FabFlit.bytes (f : FabFlit) : List Byte :=
  let d := fixBytes 16 (Config.flitHead f) ++ f.load.body
  d ++ leBytes 8 (Config.crc64 d).toNat

/-- The CRC of a flit holds: bytes 248-255 over bytes 0-247. -/
def flitOk (flit : List Byte) : Bool :=
  flit.length == 256 && leVal (flit.drop 248) == (Config.crc64 (flit.take 248)).toNat

/-! ## Requests that leave the package (R420-R422, R424) -/

/-- The remote keys of an access that waits for a completion. -/
def State.remoteKeys (s : State) (id : Nat) : List Nat :=
  match s.ops.find id with
  | some o => if o.host then (o.acc.filter fun a => isRemote a.key && a.val.isNone).map (·.key) else []
  | none =>
    match s.stores.find id with
    | some x => if x.host then ((x.cells.map Prod.fst).take 1).filter isRemote else []
    | none =>
      match s.outs.find id with
      | some r => if r.answer.isNone && isRemote r.key then [r.key] else []
      | none => []

/-- The block of an access. -/
def State.accessBlk (s : State) (id : Nat) : Nat :=
  match s.ops.find id with
  | some o => o.blk
  | none =>
    match s.stores.find id with
    | some x => x.blk
    | none => ((s.outs.find id).map (·.blk)).getD 0

/-- The request channel of an access: that of its partition, or of the hypervisor (R422). -/
def State.accessChan (s : State) (id : Nat) : Nat := if (s.blk (s.accessBlk id)).part < 20 then (s.blk (s.accessBlk id)).part else 40

/-- The response channel that answers a request channel (R422). -/
def responseChan (c : Nat) : Nat := if c < 20 then 20 + c else 41

/-- A flit of this package joins those that wait at a port. -/
def State.enqueue (s : State) (q chan target : Nat) (x : FlitLoad) (src : Nat := s.fabid) : State :=
  s.modPort64 q fun y =>
    { y with queued := y.queued ++ [{ seq := 0, chan := chan, target := target, src := src, ack := 0, load := x }] }

/-- A link-control flit to the peer of a port, unless one of its channel waits there (R421, R422). -/
def State.control (s : State) (q chan : Nat) (x : FlitLoad) : State :=
  if (s.fport q).queued.any fun f => f.chan == chan then s else s.enqueue q chan (s.fport q).peerPkg x

/-- Hand the requests of an access to their ports: each is a flit on the channel of its partition, and waits there to be sent. Where
one leads nowhere, its access is aborted. -/
def State.sendAccess (s : State) (id : Nat) : State :=
  let ks := s.remoteKeys id
  if ks.any s.unreachable then s.completeAccess id .aborted (some fun k => isRemote k && s.unreachable k)
  else
    ks.foldl (fun t k =>
      match t.routePort k with
      | some q => t.enqueue q (s.accessChan id) (remoteTarget k).1 (.request id)
      | none => t) s

/-- The abort of an access waits, since its unit cannot trap yet (log 131). -/
def State.abortWaits (s t : State) (id : Nat) : Bool := (s.remoteKeys id).any s.unreachable && !(t.remoteKeys id).isEmpty

/-- Hand the next `n` accesses to the ports, in order. -/
def State.sendRemote (s : State) : Nat → State
  | 0 => s
  | n + 1 =>
    if s.nextId ≤ s.fabSent then s
    else
      let t := s.sendAccess s.fabSent
      if s.abortWaits t s.fabSent then s
      else ({ t with fabSent := s.fabSent + 1 } : State).sendRemote n

/-! ## Virtual channels (R422) -/

/-- The credits of a channel of a port: at least one (their number is not stated: DESIGN CHOICE, log 140). -/
def channelCredits (c : Nat) : Nat := 1 + Config.vcCredits c

/-- A channel holds a flit and has a credit of its own. -/
def FabPort.maySend (x : FabPort) (c : Nat) : Bool :=
  (x.queued.any fun f => f.chan == c) && decide (x.used.getD c 0 < channelCredits c)

/-- The next channel that a port serves, in rotation after the one served last. -/
def FabPort.nextChan (x : FabPort) : Option Nat :=
  firstWhere x.maySend ((List.range 44).map fun i => (x.served + 1 + i) % 44)

/-- A port that is up sends the oldest flit of the next channel in rotation, with the next sequence number and the acknowledgement of
what it has accepted, and keeps it in its replay buffer of 512 flits (R421); one that trains sends a training flit. -/
def FabPort.serve (x : FabPort) (me : Nat) : FabPort :=
  if x.train then
    { x with wire := ({ seq := x.sent, chan := 43, target := x.peerPkg, src := me, ack := x.expect, load := .train } : FabFlit).bytes }
  else if !x.up || decide (512 ≤ x.replay.length) then x
  else
    match x.nextChan with
    | none => x
    | some c =>
      match x.queued.find? fun f => f.chan == c with
      | none => x
      | some f =>
        let g := { f with seq := x.sent, ack := x.expect }
        { x with queued := x.queued.erase f, replay := x.replay ++ [g], sent := x.sent + 1,
                 used := x.used.set c (x.used.getD c 0 + 1), served := c, wire := g.bytes }

/-- A clock of the fabric ports: each serves one channel (a flit a clock: DESIGN CHOICE, log 140). -/
def State.fabricClock (s : State) : State := { s with fports := s.fports.mapv fun _ x => x.serve s.fabid }

/-- Flits that the receiver has acknowledged give their channels' credits back (log 140). -/
def FabPort.credit (x : FabPort) (fs : List FabFlit) : FabPort :=
  { x with used := fs.foldl (fun t f => t.set f.chan (t.getD f.chan 0 - 1)) x.used }

/-- A function-level reset discards the flits of a virtual function's accesses on its partition's channels: those that wait are
gone, those that are sent and not acknowledged carry no request any more and are replayed as they stand (R410, R422). No other
flit is lost. -/
def State.discardFlits (s : State) (vf : Nat) : State :=
  let of := fun (f : FabFlit) => match f.load with
    | .request id => (s.ops.has id || s.stores.has id || s.outs.has id) && (s.blk (s.accessBlk id)).vf == vf
    | _ => false
  { s with fports := s.fports.mapv fun _ x =>
      { x with queued := x.queued.filter fun f => !of f,
               replay := x.replay.map fun f => if of f then { f with load := .void } else f } }

/-- The accesses whose requests a port carries: sent and not acknowledged, or waiting to be sent. -/
def FabPort.carries (x : FabPort) : List Nat :=
  dedupN ((x.replay ++ x.queued).filterMap fun f => match f.load with
    | .request id => some id
    | _ => none)

/-- A port goes down: every request that has an unacknowledged flit on it, and every one that waits there, receives an aborted
completion, for what goes by this port (R421). -/
def State.portDown (s : State) (q : Nat) : State :=
  (s.fport q).carries.foldl (fun t id => t.completeAccess id .aborted (some fun k => isRemote k && s.routePort k == some q))
    (s.modPort64 q fun x =>
      { x with up := false, train := false, replay := [], resend := none, replays := 0, queued := [], used := [] })

/-- A unit whose access the fall of a port aborts cannot trap yet (log 131). -/
def State.portHeld (s : State) (q : Nat) : Bool :=
  (s.fport q).carries.any fun id => ((s.portDown q).remoteKeys id).any fun k => s.routePort k == some q

/-- PCTL_WRITE: EN starts training; without EN the port is down (R420, R423), once every unit that this aborts can trap. -/
def execPctlWrite (fn port : Nat) (v : Word) (s : State) : Out :=
  if fn != 0 || 63 < port then .next s
  else if v.getLsbD 0 then
    if (s.fport port).en && !(s.fport port).down then .next s
    else .next (s.modPort64 port fun x => { x.startTrain s.now with en := true })
  else if s.portHeld port then .next s
  else .next ((s.portDown port).modPort64 port fun x => { x with en := false, down := false })

/-- PORT_RETRAIN_END: the port is up, with its unacknowledged flits to replay, or down until it is enabled again. What PSTAT
shows of the peer is not stated: free values. -/
def execPortRetrainEnd (port : Nat) (ok : Bool) (s : State) : Out :=
  if 63 < port || !(s.fport port).train then .next s
  else if ok then
    .next ((s.tickFree).modPort64 port fun x =>
      { x with up := true, train := false, resend := (x.replay.head?).map (·.seq), discard := false,
               peerPort := Config.freeNat s.freeCtr % 64, peerPkg := Config.freeNat s.freeCtr / 64 % 256 })
  else if s.portHeld port then .next s
  else .next ((s.portDown port).modPort64 port fun x => { x with down := true })

/-- FLIT_ACKNOWLEDGE: flits up to the acknowledged one leave the replay buffer. -/
def execFlitAcknowledge (port seq : Nat) (s : State) : Out :=
  if 63 < port || !(s.fport port).up then .next s
  else .next (s.modPort64 port fun x =>
    { (x.credit (x.replay.filter fun e => e.seq ≤ seq)) with
             replay := x.replay.filter fun e => seq < e.seq,
             resend := match x.resend with
               | some n => if n ≤ seq then none else some n
               | none => none,
             replays := 0 })

/-- REPLAY_REQUEST: the sender replays from a number on; the eighth replay in a row of one number makes the port
retrain. -/
def execReplayRequest (port seq : Nat) (s : State) : Out :=
  let x := s.fport port
  if 63 < port || !x.up || !x.replay.any (fun e => e.seq == seq) then .next s
  else
    let n := if x.resend == some seq then x.replays + 1 else 1
    if 8 ≤ n then .next (s.modPort64 port fun y => { y.startTrain s.now with resend := some seq })
    else .next (s.modPort64 port fun y => { y with resend := some seq, replays := n })

/-- The aborted response to a request on its way goes back toward its source, on the response channel of its partition (R424). -/
def State.abortBack (s : State) (src chan h : Nat) : State :=
  let ps := routePorts (s.routes.getD src 0)
  match ps[h % ps.length]? with
  | some q => s.enqueue q (responseChan chan) src .response
  | none => s

/-- A flit for another package goes on by this one's own ROUTE and its request's die; a request that would take a fifth hop, or that
finds no port up, is aborted (R424). A response that finds no route is lost (DESIGN CHOICE, log 154). -/
def State.forward (s : State) (flit : List Byte) : State :=
  let head := flit.take 16
  let body := (flit.drop 16).take 232
  let target := Config.flitTarget head % 256
  let src := Config.flitSource head % 256
  let chan := Config.flitChan head % 44
  let h := Config.flitHome body
  let ps := routePorts (s.routes.getD target 0)
  if target == s.fabid || 42 ≤ chan then s
  else if (chan < 20 || chan == 40) && (4 ≤ Config.flitHops head || ps.all fun q => !(s.fport q).up) then
    s.abortBack src chan h
  else
    match ps[h % ps.length]? with
    | some q => s.enqueue q chan target (.transit body) src
    | none => s

/-- A flit is accepted: it is acknowledged, unless it is link control itself, and one for another package goes on. What it does here
comes by steps of its own: requests, completions, acknowledgements and requests for replay (log 140). -/
def State.acceptFlit (s : State) (port : Nat) (flit : List Byte) : State :=
  let t := s.modPort64 port fun y => { y with expect := y.expect + 1, discard := false }
  let u := if 42 ≤ Config.flitChan (flit.take 16) % 44 then t else t.control port 42 .ack
  u.forward flit

/-- FLIT_RECEIVE: a good flit with the number expected is accepted; a bad one, and each after it until the replay, is
discarded, with the link errors of R357 on the hub's Meridian, and a replay from the number expected is asked for (R421). The step
names the number that the header bears; a step that names another does not occur. -/
def execFlitReceive (port seq : Nat) (flit : List Byte) (fec : Fec) (s : State) : Out :=
  let x := s.fport port
  if 63 < port || !x.up || Config.flitSeq (flit.take 16) != seq then .next s
  else if fec == .failed || !flitOk flit then
    let s1 := s.noteLinkErr 4 port (if fec == .failed then 3 else 0)
    let s2 := (s1.noteLinkErr 4 port 1).modPort64 port fun y => { y with discard := true }
    .next (s2.control port 43 (.replay x.expect))
  else
    let s1 := if fec == .corrected then s.noteLinkErr 4 port 2 else s
    if seq == x.expect then .next (s1.acceptFlit port flit)
    else if x.discard then .next (s1.noteLinkErr 4 port 0)
    else .next s1

/-! ## Requests from other packages and from the host (R425, 15 R315) -/

/-- The operands of an atomic from outside. -/
def hostOpnds (v b : BitVec 128) : List Nat := [v.toNat, b.toNat]

/-- The key of an address that an agent outside the package accesses: one of this package, or one of another, whose memory it may
write behind this package's back (21 R427). -/
def outsideKey (addr : Nat) : Nat :=
  if isRemote addr then remoteKey (remoteTarget addr).1 (remoteTarget addr).2 else canon addr

/-- The keys of the bytes of an access from outside. -/
def outsideKeys (addr n : Nat) : List Nat := (List.range n).map fun i => outsideKey (addr + i)

/-- Perform an access from outside the package at the homes of its bytes, through their slices: the value that it reads, and the
state. -/
def State.outsideAccess (s : State) (op : HostOp) (ks : List Nat) : Nat × State :=
  let old := leVal (ks.map s.mem.get)
  let put (v : Nat) : State := s.commit (List.zip ks (leBytes ks.length v)) none 0
  match op with
  | .load => (old, (dedupN (ks.map (· / 128 * 128))).foldl (fun (t : State) l => t.fillSlice 0 .usual false l) s)
  | .store v => (0, put v.toNat)
  | .atom f v b => (old, put (atomNew f ks.length old (hostOpnds v b)))

/-- An access of `n` bytes that an operation can make: what a store holds, an aligned operand of an atomic. -/
def hostFits (op : HostOp) (addr n : Nat) : Bool :=
  match op with
  | .load => decide (0 < n)
  | .store _ => decide (0 < n) && decide (n ≤ 16)
  | .atom _ _ _ => [4, 8, 16].contains n && addr % n == 0

/-- A range of addresses lies in one device window. -/
def inWindow (addr n : Nat) : Bool := isDevice (canon addr) && rangeOf addr == rangeOf (addr + n - 1)

/-- An access from outside reads poisoned words. -/
def State.outsidePoison (s : State) (op : HostOp) (ks : List Nat) : Bool :=
  match op with
  | .store _ => false
  | _ => ks.any fun k => s.poison.contains (k / 4)

/-- The bytes of an access from outside are charged to a partition: 32 bytes for each 32 that it touches, 64 for an atomic (20
R409). -/
def State.chargeOutside (s : State) (part : Nat) (op : HostOp) (ks : List Nat) : State :=
  match op with
  | .atom _ _ _ => (ks.take 1).foldl (fun (t : State) k => t.charge k part 64) s
  | _ => (dedupN (ks.map (· / 32 * 32))).foldl (fun (t : State) k => t.charge k part 32) s

/-- An access from outside waits: the channel of its bytes serves another partition first, or a page is being moved. -/
def State.outsideWaits (s : State) (part : Nat) (ks : List Nat) : Bool := ks.any fun k => s.arbHeld k part || s.pageHeld k

/-- The access of a tag is served at its home, or answered as poisoned: status 2, with nothing done (20 R419; DESIGN CHOICE, log
174). -/
def State.serveOutside (s : State) (fn part : Nat) (op : HostOp) (ks : List Nat) : State :=
  if s.outsidePoison op ks then s.reply fn 2 []
  else
    let r := s.outsideAccess op ks
    (r.2.chargeOutside part op ks).reply fn 0 [r.1]

/-- The export entry that admits a range for a tag. -/
def State.exported (s : State) (tag : Word) (addr n : Nat) : Bool :=
  s.exports.vals.any fun e => decide (e.base ≤ addr) && decide (addr + n ≤ e.base + 4096 * e.len) && e.tag == tag &&
    decide (0 < e.len)

/-- The response to a request of another package leaves on the port of the route to it, on the response channel of the request's
source partition or of management, which the step does not tell: a free choice (log 140). -/
def State.respond (s : State) (src addr : Nat) : State :=
  match s.routePort (remoteKey src addr) with
  | some q => s.tickFree.enqueue q (if Config.freeNat s.freeCtr % 21 = 20 then 41 else 20 + Config.freeNat s.freeCtr % 21) src
      .response
  | none => s

/-- The distributors see what other packages write to their queues by polling (21 R428). -/
def State.quietQueues (s t : State) : State := { t with queues := s.queues }

/-- REMOTE_REQUEST: served when an export entry holds its range for its tag, in a device window; otherwise aborted. It waits for its
memory channel. -/
def execRemoteRequest (src : Nat) (tag : Word) (op : HostOp) (addr n : Nat) (s : State) : Out :=
  let part := (s.partOfTag tag.toNat).getD 31
  if !hostFits op addr n then .next s
  else if !(s.exported tag addr n && inWindow addr n) then .next ((s.respond src addr).reply (1024 + src) 1 [])
  else if s.outsideWaits part (outsideKeys addr n) then .next s
  else .next ((s.quietQueues (s.serveOutside (1024 + src) part op (outsideKeys addr n))).respond src addr)

/-- HOST_MEMORY_REQUEST: an access of a host thread, or of a thread of another package to that package's own memory, performed at
its home. -/
def execHostMemoryRequest (op : HostOp) (addr n : Nat) (s : State) : Out :=
  if !hostFits op addr n || !(inWindow addr n || isHost addr || isRemote addr) || s.outsideWaits 31 (outsideKeys addr n) then .next s
  else .next (s.serveOutside 0 31 op (outsideKeys addr n))

/-! ## Die links (20 R419) -/

/-- The links whose receivers check CRCs: UCIe links (0-3) and the pair bridge (4) of a core die, and the host link (64) at the
hub, whose errors are LINKERR events of source 0x4040 there (17 R355-R357). -/
def crcLink (m link : Nat) : Bool := (decide (m ≤ 3) && decide (link ≤ 4)) || (m == 4 && link == 64)

/-- The kind of a link error that is no retraining: a retried flit; on the host link, which has FLIT CRC, FEC and replay (20 R419), a
retried flit, a replay or an FEC correction, which the step does not tell: a free choice (log 173). -/
def State.retryKind (s : State) (link : Nat) : Nat := if link == 64 then Config.freeNat s.freeCtr % 3 else 0

/-- DIE_LINK_CRC_RETRY: a CRC error on such a link: a retried flit, which the integrity counter of the link counts, or a
retraining of the link (for the host link, a flit that cannot be corrected), LINKERR kind 3. -/
def execDieLinkCrcRetry (m link : Nat) (retrain : Bool) (s : State) : Out :=
  if !crcLink m link then .next s
  else if retrain then .next (s.noteLinkErr m link 3)
  else
    let t := s.tickFree.noteLinkErr m link (s.retryKind link)
    let k := 8 * m + link
    .next { t with integrity := t.integrity.set k (t.integrity.getD k 0 + 1) }

end Sys2Proof.Machine
end

