-- ==== Sys2Proof/Machine/EvHub.lean ====
section
/-!
DEFINITION. Machine/EvHub.lean: the hub's registers, the windows of clocks, resets and boot (spec/20_package_tenancy.md
R403-R409, R415-R418; 10 R221; 13 R271; 16 R341; 17 R368, R369; 18 R377, R379; 21 R423).
-/

set_option linter.constructorNameAsVariable false

namespace Sys2Proof.Machine

/-! ## Facets of a core (20 R404-R406) -/

/-- The facets that a core's mode forms, and their width. -/
def State.facetCount (s : State) (core : Nat) : Nat := 2 ^ s.cmode.getD core 0
/-- The columns of a facet of a core. -/
def State.facetWidth (s : State) (core : Nat) : Nat := 4 / s.facetCount core
/-- A block is resident on a core, or tiles are held there. -/
def State.coreBusy (s : State) (core : Nat) : Bool :=
  (s.blocks.any fun e => e.2.phase == .resident && e.2.core == core) ||
  (List.range 4).any fun i => !(s.facet (4 * core + i)).held.isEmpty

/-- A write that R404 or R405 ignores sets CMERR of the core. -/
def State.setCmerr (s : State) (core : Nat) : State := { s with cmerr := s.cmerr.set core true }

/-- CMODE_WRITE. -/
def execCmodeWrite (fn core : Nat) (v : Word) (s : State) : Out :=
  let m := v.toNat % 4
  if fn != 0 || 383 < core then .next s
  else if m = 3 || s.coreBusy core then .next (s.setCmerr core)
  else .next { s with cmode := s.cmode.set core m }

/-- FOWN_WRITE. -/
def execFownWrite (fn facet : Nat) (v : Word) (s : State) : Out :=
  let p := v.toNat % 32
  if fn != 0 || 1535 < facet then .next s
  else if (20 ≤ p && p ≤ 30) || s.coreBusy (coreOfFacet facet) then .next (s.setCmerr (coreOfFacet facet))
  else .next (s.modFacet facet fun x => { x with fown := p })

/-- CMERR_WRITE: writing 1 clears. -/
def execCmerrWrite (fn core : Nat) (v : Word) (s : State) : Out :=
  if fn != 0 || 383 < core || !v.getLsbD 0 then .next s else .next { s with cmerr := s.cmerr.set core false }

/-! ## Partition registers (20 R407) -/

/-- The sum of FLOOR d over all partitions but one. -/
def State.otherFloors (s : State) (p d : Nat) : Nat :=
  ((List.range 20).map fun q => if q = p then 0 else (s.part q).floor.getD d 0).sum

/-- FLOOR_WRITE: ignored where the sum over all partitions would exceed 64. -/
def execFloorWrite (fn p d : Nat) (v : Word) (s : State) : Out :=
  let n := v.toNat % 64
  if fn != 0 || 19 < p || 7 < d || 64 < s.otherFloors p d + n then .next s
  else .next (s.modPart p fun x => { x with floor := x.floor.set d n })

/-- PQHEAD_WRITE: the park records that software has consumed. -/
def execPqheadWrite (fn p : Nat) (v : Dword) (s : State) : Out :=
  if fn != 0 || 19 < p then .next s else .next (s.modPart p fun x => { x with pqhead := v.toNat })

/-- A value written to MBUD keeps what is left of the present window (17 R363). -/
def Merid.setBudget (x : Merid) (p n : Nat) : Merid :=
  { x with left := x.left.set p (x.remainder p), mbud := x.mbud.set p n }

/-- Write a register without a behaviour of its own, by its owner. A share of COMET above 64 is kept as 64 (DESIGN CHOICE,
log 176). -/
def State.writeReg (s : State) (r : HubReg) (v : Dword) : State :=
  let n := v.toNat
  let w := n % 2 ^ 32
  let partPut (p : Nat) (f : Part → Part) : State := if p < 20 then s.modPart p f else s
  let vfReg (i : Nat) (f : Vf → Vf) : State := if 1 ≤ i ∧ i ≤ 512 then s.modVf i f else s
  let merReg (m p : Nat) (f : Merid → Merid) : State := if m < 5 && meridPart p then s.modMerid m f else s
  match r with
  | .fctl f => if f < 1536 then s.modFacet f fun x => { x with fctl := v.setWidth 32 &&& 0x00FF0003 } else s
  | .tvec f => if f < 1536 then s.modFacet f fun x => { x with tvec := v &&& 0x000FFFFFFFFFFFFC } else s
  | .ptag p => partPut p fun x => { x with ptag := v.setWidth 32 }
  | .comet p => partPut p fun x => { x with comet := min 64 (n % 128) }
  | .enbud p => partPut p fun x => { x with enbud := n }
  | .pqbase p => partPut p fun x => { x with pqbase := n }
  | .pqcap p => partPut p fun x => { x with pqcap := w }
  | .plim p => partPut p fun x => { x with plim := w }
  | .slice p => partPut p fun x => { x with slice := n }
  | .vfPart i => vfReg i fun x => { x with part := n % 32 }
  | .s1root i => vfReg i fun x => { x with s1root := n }
  | .s2root i => vfReg i fun x => { x with s2root := n }
  | .s2en i => vfReg i fun x => { x with s2en := v.getLsbD 0 }
  | .wayMask d i => if d < 8 ∧ 1 ≤ i ∧ i ≤ 512 then { s with wayMask := s.wayMask.set (1024 * d + i) (v.setWidth 32 &&& 0xFFFF) } else s
  | .monq d p => if d < 8 ∧ p < 20 then { s with monq := s.monq.set (32 * d + p) (n % 8192) } else s
  | .biasBase => { s with biasBase := n }
  | .hostcap => { s with hostcap := v.getLsbD 0 }
  | .tapdrop m => merReg m 0 fun x => { x with tapdrop := w }
  | .qdrop m => merReg m 0 fun x => { x with qdrop := w }
  | .mbud m p => merReg m p fun x => x.setBudget p (n % 65536)
  | .dropb m p => merReg m p fun x => { x with dropb := x.dropb.set p w }
  | .fabid => { s with fabid := n % 256 }
  | .route t => if t < 256 then { s with routes := s.routes.set t n } else s
  | .expBase e => if e < 64 then { s with exports := s.exports.set e { s.exports.getD e default with base := n / 4096 * 4096 % 2 ^ 48 } } else s
  | .expLen e => if e < 64 then { s with exports := s.exports.set e { s.exports.getD e default with len := w } } else s
  | .expTag e => if e < 64 then { s with exports := s.exports.set e { s.exports.getD e default with tag := v.setWidth 32 } } else s
  | _ => s

/-- A function may write a register: PF0 every one, a virtual function DROPB of its own partition (17 R368). -/
def State.mayWrite (s : State) (fn : Nat) (r : HubReg) : Bool :=
  fn == 0 || match r with
    | .dropb _ p => p == (s.vf fn).part
    | _ => false

/-- A write of a function to a register: to one with a behaviour of its own as its command writes it; RO ones ignore it
(00 R10). -/
def regWrite (fn : Nat) (r : HubReg) (v : Dword) (s : State) : Out :=
  let w : Word := v.setWidth 32
  match r with
  | .cmode c => execCmodeWrite fn c w s
  | .cmerr c => execCmerrWrite fn c w s
  | .fown f => execFownWrite fn f w s
  | .floor p d => execFloorWrite fn p d w s
  | .pqhead p => execPqheadWrite fn p v s
  | .mctl m => execMctlWrite fn m w s
  | .pctl q => execPctlWrite fn q w s
  | _ => if s.mayWrite fn r then .next (s.writeReg r v) else .next s

/-- REGISTER_WRITE: the register is named, or it is the one at an offset of its interface. -/
def execRegisterWrite (fn : Nat) (r : HubReg) (v : Dword) (s : State) : Out :=
  match resolveReg r with
  | some x => regWrite fn x v s
  | none => .next s

/-! ## Windows (20 R409, R417) -/

/-- The partition has used its energy budget (20 R417). -/
def State.outOfEnergy (s : State) (p : Nat) : Bool :=
  (s.part p).enbud != 0 && decide ((s.part p).enbud ≤ (s.part p).enused)

/-- ENERGY_WINDOW_END: at a clock that is a multiple of 700,000, a window with refusals gives one THROTTLE event, whose
die and source number are not stated (free values), and ENUSED returns to 0. -/
def execEnergyWindowEnd (p : Nat) (s : State) : Out :=
  if s.now % 700000 != 0 || 19 < p then .next s
  else
    let x := s.part p
    let t := s.modPart p fun y => { y with enused := 0, throttled := 0 }
    if x.throttled = 0 then .next t
    else
      .next (t.tickFree.offer (Config.freeNat s.freeCtr % 4)
        { time := s.now, type := 0x07, part := p, ctx := 0, src := Config.freeNat s.freeCtr / 8 % 65536, sub := 0,
          ea := x.throttled, eb := x.enused })

/-- ARBITER_WINDOW: at a clock that is a multiple of 1,024 a channel's charges start again. -/
def execArbiterWindow (d ch : Nat) (s : State) : Out :=
  if s.now % 1024 != 0 then .next s
  else
    let i := 1024 * d + ch % 1024
    .next { s with charges := s.charges.keep fun k _ => k / 32 != i }

/-! ## Resets and boot (17 R369, R370; 20 R415, R418) -/

/-- A Meridian after a warm reset: the afterglow record, WPTR and FROZEN are kept, and the outputs of its attachments;
dispatch resumes empty (17 R369, R370). A DETACH that waited for a run that the reset ends frees its slot (R361). -/
def Merid.warm (x : Merid) : Merid :=
  { Merid.reset with
    frozen := x.frozen, wptr := x.wptr, glow := x.glow, badGlow := x.badGlow, slots := x.slots.keep fun _ a => !a.leaving }

/-- COLD_RESET: the part as at reset; the boot ROM tests itself and waits for an image. Memory keeps no stated contents
(log 4), and the model's own counters go on. -/
def execColdReset (s : State) : Out :=
  .next { State.reset with agenda := s.agenda, freeCtr := s.freeCtr + 1, nextId := s.nextId,
                           bootst := if Config.romOk s.freeCtr then 0 else 5 }

/-- WARM_RESET: as a cold reset, but the afterglow records are kept, memory keeps its contents, and the firmware runs on
(log 32). -/
def execWarmReset (s : State) : Out :=
  if 1 ≤ s.bootst ∧ s.bootst ≤ 5 then .next s
  else
    .next { State.reset with agenda := s.agenda, freeCtr := s.freeCtr, nextId := s.nextId, mem := s.mem, poison := s.poison,
                             merids := s.merids.mapv fun _ x => x.warm, telIrqs := s.telIrqs, bootst := s.bootst }

/-- The code with which the boot ROM answers an image (20 R418). -/
def bootCode (img : List Byte) : Nat :=
  if leVal (img.take 4) != 0x57524946 || !Config.headerOk img then 1
  else if !Config.ecdsaOk img then 2
  else if !Config.lmsOk img then 3
  else if !Config.versionOk img then 4
  else 0x80

/-- FIRMWARE_IMAGE: the ROM takes one image through PF0 while it waits for one. -/
def execFirmwareImage (fn : Nat) (img : List Byte) (s : State) : Out :=
  if fn != 0 || s.bootst != 0 then .next s else .next { s with bootst := bootCode img }

end Sys2Proof.Machine
end

