-- ==== Sys2Proof/Machine/EvCopy.lean ====
section
/-!
DEFINITION. Machine/EvCopy.lean: the steps of copy operations (spec/09_core_tiles.md R210, R216, R217, R219).
-/

namespace Sys2Proof.Machine

/-- A captured register as a number. -/
def EngineOp.reg (o : EngineOp) (r : Nat) : Nat := (o.regs.getD r 0).toNat
/-- A captured register as a signed number. -/
def EngineOp.sreg (o : EngineOp) (r : Nat) : Int := wordInt (o.regs.getD r 0)
/-- CTL.RM: ring mode. -/
def EngineOp.ringMode (o : EngineOp) : Bool := bit (o.reg 11) 0
/-- CTL.RING. -/
def EngineOp.ring (o : EngineOp) : Nat := o.reg 11 / 16 % 16
/-- CTL.NT: global accesses are non-temporal (09 R214). -/
def EngineOp.nt (o : EngineOp) : Bool := bit (o.reg 11) 8
/-- A plane copies nothing. -/
def EngineOp.emptyPlane (o : EngineOp) : Bool := o.reg 4 == 0 || o.reg 5 == 0

/-- Every plane is done. -/
def EngineOp.copied (o : EngineOp) : Bool :=
  o.failed || decide (o.reg 6 ≤ o.i2) || (!o.ringMode && o.emptyPlane)

/-- The rows of the current plane are done. -/
def EngineOp.planeDone (o : EngineOp) : Bool := o.emptyPlane || decide (o.reg 5 ≤ o.i1)

/-- The source address of the current byte. -/
def EngineOp.src (o : EngineOp) : Nat :=
  addrPlus (regAddr o.regs 0) (o.i1 * o.sreg 7 + o.i2 * o.sreg 8 + o.byte)

/-- The destination address of the current byte; in ring mode, in the claimed slot. -/
def EngineOp.dst (o : EngineOp) (r : Ring) : Nat :=
  if o.ringMode then
    addrPlus (2 ^ 63 + r.slotAddr (o.slot.getD 0)) (o.i1 * o.sreg 9 + o.byte)
  else addrPlus (regAddr o.regs 2) (o.i1 * o.sreg 9 + o.i2 * o.sreg 10 + o.byte)

/-- The position after `n` more bytes of the row. -/
def EngineOp.advance (o : EngineOp) (n : Nat) : EngineOp :=
  if o.byte + n < o.reg 4 then { o with byte := o.byte + n }
  else if o.i1 + 1 < o.reg 5 || o.ringMode then { o with byte := 0, i1 := o.i1 + 1 }
  else { o with byte := 0, i1 := 0, i2 := o.i2 + 1 }

/-- Copy the next piece of a row: the bytes that lie in one page on both sides. -/
def State.copyPiece (s : State) (id : Nat) (o : EngineOp) : EngStep :=
  let p := s.engSite id o
  let r := (s.blk o.blk).rings.getD o.ring default
  let src := o.src
  let dst := o.dst r
  let n := s.pieceLen o.blk dst (s.pieceLen o.blk src (o.reg 4 - o.byte))
  let x := s.engLoc p false src n
  let y := s.engLoc p true dst n
  match x, y with
  | .fault c a, _ => .fault c a
  | .wait _, _ => .wait (s.askLoc p x)
  | _, .fault c a => .fault c a
  | _, .wait _ => .wait (s.askLoc p y)
  | .held, _ => .wait s
  | _, .held => .wait s
  | .out _ _ _, _ => .wait (s.askLoc p x)
  | _, .out _ _ _ => .wait (s.askLoc p y)
  | _, _ =>
    if s.locHeld p x then .wait (s.askLoc p x)
    else if s.locHeld p y then .wait (s.askLoc p y)
    else
    match s.locPoison x n with
    | some i => .fault 0x3C (src + i)
    | none =>
      let t := (((s.useLoc p x false o.nt).afterLocRead p x n).useLoc p y true o.nt).locWrite p y (s.locBytes p x n) o.nt
      let u := match y with
        | .glob e _ va _ => if isRemote (e.key va) then t else t.countBytes (s.blk o.blk).vf va n
        | _ => t
      .ok ((u.modEngine id fun q => q.advance n).dropOuts (.engine id) false)

/-- Copy up to `n` pieces. -/
def State.copyPieces (s : State) (id : Nat) : Nat → State
  | 0 => s
  | n + 1 =>
    match s.engines.find id with
    | none => s
    | some o =>
      if o.copied || (o.ringMode && (!o.claimed || o.planeDone)) then s
      else
        match s.copyPiece id o with
        | .wait t => t
        | .fault c a => s.parkEngine id c a
        | .ok t => t.copyPieces id n

/-- The block of an operation is resident, with its reserved translations there (13 R276), and the operation runs. -/
def State.engRuns (s : State) (o : EngineOp) : Bool :=
  (s.blk o.blk).phase == .resident && (s.blk o.blk).reserving.isEmpty && !o.parked

/-- COPY_OPERATION_DONE: the operation copies, up to `rows` pieces of its rows in one step; once every plane is done, it
adds 1 to its done counter. -/
def execCopyOperationDone (id rows : Nat) (s : State) : Out :=
  match s.engines.find id with
  | none => .next s
  | some o =>
    if 1 < o.engine || !s.engRuns o then .next s
    else if o.copied then .next (s.finishEngine id o (regAddr o.regs 12))
    else .next (s.copyPieces id rows)

/-- COPY_SLOT_CLAIM: a ring-mode copy claims a free slot for its next plane. -/
def execCopySlotClaim (id : Nat) (s : State) : Out :=
  match s.engines.find id with
  | none => .next s
  | some o =>
    match (s.blk o.blk).rings.find o.ring with
    | none => .next s
    | some r =>
      if 1 < o.engine || !s.engRuns o || !o.ringMode || o.copied || o.claimed || r.free == 0 then .next s
      else
        .next ((s.setRing o.blk o.ring r.startFill).modEngine id fun q =>
          { q with claimed := true, slot := some r.fi, i1 := 0, byte := 0 })

/-- COPY_SLOT_FILLED: the plane in the claimed slot is complete, and FILLED rises. -/
def execCopySlotFilled (id : Nat) (s : State) : Out :=
  match s.engines.find id with
  | none => .next s
  | some o =>
    match (s.blk o.blk).rings.find o.ring with
    | none => .next s
    | some r =>
      if 1 < o.engine || !s.engRuns o || !o.ringMode || o.failed || !o.claimed || !o.planeDone then .next s
      else
        .next ((s.setRing o.blk o.ring r.endFill).modEngine id fun q =>
          { q with claimed := false, slot := none, i1 := 0, byte := 0, i2 := q.i2 + 1 })

end Sys2Proof.Machine
end

