-- ==== Sys2Proof/Machine/Fetch.lean ====
section
/-!
DEFINITION. Machine/Fetch.lean: fetching the words of instructions and bundles (spec/02_encoding.md R40; 06 R150; 13 R267;
16 R348).
-/

set_option linter.constructorNameAsVariable false

namespace Sys2Proof.Machine

/-- What a fetch gives: a walk to wait for, a page held by the final block of a migration (18 R381), a request to the host or another
package that is not completed, a memory channel that serves others first (20 R409), a fault with its cause and address, or
words. -/
inductive Fetched
  | wait (va : Nat)
  | held
  | out (key : Nat)
  | chan (key : Nat)
  | fault (cause addr : Nat)
  | ok (ws : List Word)
  deriving DecidableEq, Repr

/-- Fetch one word: the translation, then the memory type N, which fetches need (13 R267); a fetch that leaves the package waits for
its completion, which may be an abort (13 R270, log 10); a poisoned word has a consumer in the fetch (20 R419, DEDUCED, log 147). -/
def State.fetchWord (s : State) (p : Site) (va : Nat) : Fetched :=
  match s.resolve p .fetch false va with
  | .wait => .wait va
  | .fault c => .fault c va
  | .ok e _ =>
    if e.mt != .n then .fault 0x3D va
    else if s.pageHeld (e.key va) then .held
    else
      match s.reached p.asker .fetch (e.key va) 4 with
      | .aborted c => .fault c va
      | .wait => .out (e.key va)
      | .ok =>
        if s.arbHeld (e.key va) (s.blk p.blk).part then .chan (e.key va)
        else if s.poison.contains (e.key va / 4) then .fault 0x3C va
        else .ok [BitVec.ofNat 32 (s.mem.read (e.key va) 4)]

/-- What a fetch waits for is asked for. -/
def State.askFetch (s : State) (p : Site) (x : Fetched) : State :=
  match x with
  | .wait va => s.askWalk p va
  | .out key => s.askOut p.asker p.blk .fetch key 4
  | .chan key => s.ask p.asker key (s.blk p.blk).part
  | _ => s

/-- Fetch `n` words from an address, the first failing word first. -/
def State.fetchWords (s : State) (p : Site) : Nat → Nat → Fetched
  | _, 0 => .ok []
  | va, n + 1 =>
    match s.fetchWord p va with
    | .ok w =>
      match s.fetchWords p (va + 4) n with
      | .ok ws => .ok (w ++ ws)
      | x => x
    | x => x

/-- A fetch uses a translation: the L1 TLB keeps it. -/
def State.keepFetch (s : State) (p : Site) (va : Nat) : State :=
  match s.resolve p .fetch false va with
  | .ok e l1 => s.useEntry p e l1
  | _ => s

/-- `n` bytes of code are fetched: the L1 TLB keeps the translation of the first, and they are charged to their channel (20 R409). -/
def State.useFetch (s : State) (p : Site) (va : Nat) (n : Nat := 4) : State :=
  match s.resolve p .fetch false va with
  | .ok e l1 =>
    ((s.useEntry p e l1).dropOuts p.asker true).chargeFor p.asker (e.key va) (s.blk p.blk).part (roundUp n 32)
  | _ => s

end Sys2Proof.Machine
end

