-- ==== Sys2Proof/Machine/Image.lean ====
section
/-!
DEFINITION. Machine/Image.lean: the header and directory of a Toganik image, its checks, and the spill and load of the
accumulator bank (spec/13_core_faults.md R278-R288, R291, R292).

An image is read and written through a map from image offsets to keys of memory.
-/

namespace Sys2Proof.Machine

/-! ## CRC-32C (13 R285) -/

/-- One bit step of the reflected Castagnoli CRC. -/
def crcStep (c : Nat) : Nat := if c % 2 = 1 then (c / 2) ^^^ 0x82F63B78 else c / 2
/-- One byte. -/
def crcByte (c : Nat) (b : Byte) : Nat :=
  crcStep (crcStep (crcStep (crcStep (crcStep (crcStep (crcStep (crcStep (c ^^^ b.toNat))))))))
/-- CRC-32C of bytes: initial value and final XOR 0xFFFF_FFFF. -/
def crc32c (bs : List Byte) : Nat := bs.foldl crcByte 0xFFFFFFFF ^^^ 0xFFFFFFFF

/-! ## Access through a map -/

/-- Bytes of an image. -/
def State.imgBytes (s : State) (f : Nat → Nat) (off n : Nat) : List Byte :=
  (List.range n).map fun i => s.mem.get (f (off + i))
/-- A number of an image. -/
def State.imgNat (s : State) (f : Nat → Nat) (off n : Nat) : Nat := leVal (s.imgBytes f off n)
/-- Cells that write bytes of an image. -/
def imgCells (f : Nat → Nat) (off : Nat) (bs : List Byte) : List Host.Cell :=
  (List.zip (List.range bs.length) bs).map fun x => (f (off + x.1), x.2)

/-! ## The header and the directory (13 R285, R286) -/

/-- A directory entry. -/
structure SecEntry where
  type : Nat
  flags : Nat
  offset : Nat
  length : Nat
  crc : Nat
  deriving DecidableEq, Repr

/-- Entry i of the directory. -/
def State.imgEntry (s : State) (f : Nat → Nat) (i : Nat) : SecEntry :=
  let o := 64 + 16 * i
  { type := s.imgNat f o 2, flags := s.imgNat f (o + 2) 2, offset := s.imgNat f (o + 4) 4,
    length := s.imgNat f (o + 8) 4, crc := s.imgNat f (o + 12) 4 }

/-- The number of directory entries; at most one of each of the 16 types is legal (R286). -/
def State.imgCount (s : State) (f : Nat → Nat) : Nat := s.imgNat f 20 4
/-- The directory, at most 17 entries of it: more make an image invalid. -/
def State.imgDir (s : State) (f : Nat → Nat) : List SecEntry :=
  (List.range (min 17 (s.imgCount f))).map fun i => s.imgEntry f i
/-- LEN. -/
def State.imgLen (s : State) (f : Nat → Nat) : Nat := s.imgNat f 24 8
/-- CTX. -/
def State.imgCtx (s : State) (f : Nat → Nat) : Nat := s.imgNat f 16 2
/-- HOLD. -/
def State.imgHold (s : State) (f : Nat → Nat) : Nat := s.imgNat f 32 4

/-- The owned-tiles section: its index and entry (R287 type 7). -/
def State.imgOwned (s : State) (f : Nat → Nat) : Option (Nat × SecEntry) :=
  firstWhere (fun e => e.2.type == 7) (List.zip (List.range 17) (s.imgDir f))

/-- What R288 asks of the header, apart from the tag, and R286 of its count. -/
def State.imgHeadOk (s : State) (f : Nat → Nat) : Bool :=
  s.imgNat f 0 4 == 0x4B4E4754 && s.imgNat f 4 2 == 1 && s.imgNat f 8 2 == 0x4808 &&
  s.imgNat f 60 4 == crc32c (s.imgBytes f 0 60) && decide (s.imgCount f ≤ 16)

/-- What R288 asks of the directory: legal types, none twice, every section within LEN. -/
def State.imgDirOk (s : State) (f : Nat → Nat) : Bool :=
  let dir := s.imgDir f
  (dir.all fun e => decide (1 ≤ e.type) && decide (e.type ≤ 16) && decide (e.offset + e.length ≤ s.imgLen f)) &&
  dir.all fun e => (dir.filter fun x => x.type == e.type).length == 1

/-- Every section that is not held matches its CRC. -/
def State.imgCrcOk (s : State) (f : Nat → Nat) : Bool :=
  (s.imgDir f).all fun e => e.flags % 2 == 1 || e.crc == crc32c (s.imgBytes f e.offset e.length)

/-- The acceptance of R288, for a partition tag. -/
def State.imgOk (s : State) (f : Nat → Nat) (ptag : Word) : Bool :=
  s.imgHeadOk f && s.imgNat f 12 4 == ptag.toNat && s.imgDirOk f && s.imgCrcOk f

/-- The bytes of an image that its acceptance reads: offset and number. -/
def State.imgReads (s : State) (f : Nat → Nat) : List (Nat × Nat) :=
  (0, 64 + 16 * s.imgCount f) :: ((s.imgDir f).filter fun e => e.flags % 2 == 0).map fun e => (e.offset, e.length)

/-! ## Status words and tiles (09 R198, 13 R287) -/

/-- A status word (R198), with PEND. -/
def statusWord (t : TileState) (pend : Nat) : Nat :=
  let own : TileOwner → Nat
    | .group g => g % 64 * 64
    | .seqCol c => 4096 + c % 4 * 64
    | .seqAny => 8192
  match t with
  | .free => pend
  | .owned o => 0x4000 + own o + pend
  | .transfer o => 0x8000 + own o + pend

/-- The state that a status word spells. -/
def statusOf (n : Nat) : TileState :=
  let own : TileOwner := match bits n 13 12 with
    | 0 => .group (bits n 11 6)
    | 1 => .seqCol (bits n 7 6)
    | _ => .seqAny
  match bits n 15 14 with
  | 0 => .free
  | 1 => .owned own
  | _ => .transfer own

/-- One tile of an owned-tiles section: handle, status word, 256 bytes. -/
def ownedTileBytes (h : Nat) (st : TileState) (ws : List Word) : List Byte :=
  leBytes 4 h ++ leBytes 4 (statusWord st 0) ++ ws.flatMap fun w => leBytes 4 w.toNat

/-! ## The spill (13 R283, R291) -/

/-- The facet's tiles that are held: handles, ascending. -/
def Facet.heldTiles (x : Facet) : List Nat := x.held.keys

/-- ACCOWN.V. -/
def Facet.accV (x : Facet) : Bool := x.accown.getLsbD 31
/-- ACCOWN.CTX. -/
def Facet.accCtx (x : Facet) : Nat := x.accown.toNat % 2 ^ 16
/-- Clear ACCOWN.V, keeping CTX. -/
def Facet.clearAcc (x : Facet) : Facet := { x with accown := x.accown &&& 0x7FFFFFFF }
/-- Free the held tiles. -/
def Facet.freeHeld (x : Facet) : Facet := { x with held := [], heldStatus := [], heldBlk := none }

/-- The statistics queue of a facet is emptied, at a swap-out or when the facet changes context; what is discarded, with
the drops, is reported (10 R238, 17 R357). -/
def State.clearStats (s : State) (b f : Nat) : State :=
  let x := s.facet f
  let n := x.stats.length + x.drops.toNat
  let t := s.modFacet f fun y => { y with stats := [], drops := 0 }
  if n = 0 then t else t.offerBlk b 0x09 (f % 4) n 0

/-- ACCOWN of a facet := a value; naming another context empties the statistics queue. -/
def State.writeAcc (s : State) (b f : Nat) (v : Word) : State :=
  let t := if v.toNat % 2 ^ 16 = (s.facet f).accCtx then s else s.clearStats b f
  t.modFacet f fun y => { y with accown := v }

/-- The image takes the spill of facet fx (R291): it is acceptable, of the context, held by this facet, and has room. -/
def State.spillOk (s : State) (f : Nat → Nat) (fx : Nat) (ptag : Word) : Bool :=
  let x := s.facet fx
  s.imgOk f ptag && s.imgCtx f == x.accCtx && s.imgHold f == 2 ^ 31 + fx &&
  match s.imgOwned f with
  | some (_, e) => e.flags % 2 == 1 && decide (264 * x.heldTiles.length ≤ e.length)
  | none => false

/-- The cells of the spill of a facet's held tiles into an image (R291): contents, then LENGTH, SCRC, HELD, HOLD, HCRC. -/
def State.spillCells (s : State) (f : Nat → Nat) (fx : Nat) : List Host.Cell :=
  match s.imgOwned f with
  | none => []
  | some (i, e) =>
    let x := s.facet fx
    let body := x.heldTiles.flatMap fun h =>
      ownedTileBytes h (x.heldStatus.getD h (.owned (.seqCol 0))) (x.held.getD h [])
    let o := 64 + 16 * i
    let head := (s.imgBytes f 0 32) ++ leBytes 4 0 ++ s.imgBytes f 36 24
    imgCells f e.offset body ++ imgCells f (o + 2) (leBytes 2 (e.flags - e.flags % 2)) ++
    imgCells f (o + 8) (leBytes 4 body.length ++ leBytes 4 (crc32c body)) ++
    imgCells f 32 (leBytes 4 0) ++ imgCells f 60 (leBytes 4 (crc32c head))

/-- The spill: writes into the image, frees the held tiles, ACCOWN.V := 0. -/
def State.spill (s : State) (f : Nat → Nat) (fx vf : Nat) : State :=
  (s.commit (s.spillCells f fx) none vf).modFacet fx fun x => x.freeHeld.clearAcc

/-! ## The load (13 R292) -/

/-- The resident block of a facet that has sequencer code (09 R196: at most one). -/
def State.seqBlock (s : State) (fx : Nat) : Option Nat :=
  match s.blocks.find? fun e => e.2.phase == .resident && e.2.facet == fx && e.2.seq.isSome with
  | some e => some e.1
  | none => none

/-- The sequencer-only handles of a block. -/
def Block.bankHandles (b : Block) : List Nat := (List.range b.node.tiles).filter fun h => b.seqOnly h

/-- The bank at its launch state: zero, owned by the sequencer, column 0 (09 R199). -/
def Block.zeroBank (b : Block) : Block :=
  b.bankHandles.foldl (fun y h =>
    { y.setTile (seqTile h) (.owned (.seqCol 0)) with
      poisonRegs := y.poisonRegs.filter fun k => k / 64 != seqTile h,
      vregs := y.vregs.keep fun k _ => !(64 * seqTile h ≤ k && k < 64 * seqTile h + 64) }) b

/-- Write the 64 words of a tile. -/
def Block.putTile (b : Block) (t : Nat) (ws : List Word) : Block :=
  (List.zip (List.range 64) ws).foldl (fun y e => y.setTileWord t e.1 e.2) b

/-- The bank of a block from the tiles that are given by their handles: the others are zero and sequencer-owned (R292). Words
of the tiles given that are marked poisoned stay so (20 R419; log 7). -/
def Block.fillBank (x : Block) (ts : List (Nat × TileState × List Word)) : Block :=
  let y := ts.foldl (fun (y : Block) t => (y.setTile (y.handleTile t.1) t.2.1).putTile (y.handleTile t.1) t.2.2) x.zeroBank
  let given := ts.map fun t => x.handleTile t.1
  { y with poisonRegs := x.poisonRegs.filter fun k =>
      k < 64 * seqTile 0 || 64 * seqTile 4096 ≤ k || given.contains (k / 64) }

/-- The bank from an image (R292). -/
def State.loadBank (s : State) (f : Nat → Nat) (b : Nat) : State :=
  s.modBlk b fun x =>
    match s.imgOwned f with
    | none => x.zeroBank
    | some (_, e) =>
      x.fillBank ((List.range (e.length / 264)).map fun i =>
        let o := e.offset + 264 * i
        (s.imgNat f o 4, statusOf (s.imgNat f (o + 4) 4),
          (List.range 64).map fun j => BitVec.ofNat 32 (s.imgNat f (o + 8 + 4 * j) 4)))

/-- The image can be loaded into block b's bank (R292). -/
def State.loadOk (s : State) (f : Nat → Nat) (b : Nat) (ptag : Word) : Bool :=
  s.imgOk f ptag && s.imgCtx f == (s.blk b).ctx &&
  match s.imgOwned f with
  | some (_, e) => e.flags % 2 == 0
  | none => true

end Sys2Proof.Machine
end

