-- ==== Sys2Proof/Machine/Seq.lean ====
section
/-!
DEFINITION. Machine/Seq.lean: the tensor sequencer: its registers and tiles, its traps, operations that land, ownership and
first-use checks, the scoreboard, and the frame of a slot's meaning (spec/10_sequencer.md R222-R227, R236; 11 R239, R240;
13 R271, R272, R282).

A slot's meaning issues the slot alone where the bundle has not been checked (`Seq.checked`); a sequencer turn checks and
issues the slots of a bundle together.
-/

set_option linter.constructorNameAsVariable false

namespace Sys2Proof.Machine

/-! ## The sequencer of a block -/

/-- A sequencer at block launch (R227). -/
def Seq.launch (width : Nat) (pc : Dword) : Seq :=
  { width := width, pc := pc, x := [], g := [], ops := [], xfers := [], ports := [], tpoison := [], nextIssue := 0,
    drain := false, tbusy := [], since := none, waiting := false, synced := [], waited := [], arrivals := [],
    next := none, checked := false, halting := false, halted := false, parked := false, parkedAt := 0,
    trapped := false, stopped := false, forced := false, liveix := none }

/-- The sequencer of a block. -/
def State.seq (s : State) (b : Nat) : Seq := ((s.blk b).seq).getD (Seq.launch 1 0)
/-- Change the sequencer of a block. -/
def State.modSeq (s : State) (b : Nat) (f : Seq → Seq) : State := s.modBlk b fun x => { x with seq := x.seq.map f }
/-- A resident block has a sequencer. -/
def State.hasSeq (s : State) (b : Nat) : Bool :=
  match s.blocks.find b with
  | none => false
  | some x => x.phase == .resident && x.seq.isSome

/-- x(r) of column c. -/
def Seq.rdX (q : Seq) (c r : Nat) : Word := q.x.getD (32 * c + r) 0
/-- The even x pair r of column c: x(r + 1) : x(r). -/
def Seq.rdXPair (q : Seq) (c r : Nat) : Dword := pairVal (q.rdX c r) (q.rdX c (r + 1))
/-- The stored bit of g pair k of column c; pair 0 holds 1 (R227). -/
def Seq.pairBit (q : Seq) (c k : Nat) : Bool := if k = 0 then true else q.g.getD (8 * c + k) false
/-- g(n) of column c: the odd member is the complement (R227). -/
def Seq.rdG (q : Seq) (c n : Nat) : Bool := if n % 2 = 0 then q.pairBit c (n / 2) else !q.pairBit c (n / 2)
/-- mK of column c: all ones for m0, else the pair x(17 + 2K) : x(16 + 2K) (R227). -/
def Seq.mask (q : Seq) (c k : Nat) : Mask := if k = 0 then BitVec.allOnes 64 else q.rdXPair c (16 + 2 * k)

/-- FCTL.SCHK of the facet of a block (R221). -/
def State.schk (s : State) (b : Nat) : Bool := (s.facet (s.blk b).facet).fctl.getLsbD 0
/-- FCTL.STEN of the facet of a block (R221). -/
def State.sten (s : State) (b : Nat) : Bool := (s.facet (s.blk b).facet).fctl.getLsbD 1

/-! ## Traps (13 R271, R272; 11 R239) -/

/-- Where a slot stands in its bundle: S 0, T 1, V 2, M 3 (13 R272). -/
def slotNumber (i : Instr) : Nat :=
  match slotCode i with
  | some (.t, _, _) => 1
  | some (.v, _, _) => 2
  | some (.m, _, _) => 3
  | _ => 0

/-- The trap record of a bundle (13 R272). -/
def seqRecord (pc : Dword) (cause sub slot col info : Nat) : SeqTrap :=
  { sepc := pc, scause := BitVec.ofNat 32 (cause + 2 ^ 8 * sub + 2 ^ 16 * slot + 2 ^ 18 * col + 2 ^ 31),
    sinfo := BitVec.ofNat 64 info }

/-- Take a trap of a sequencer: the record of its facet, the park, its event and its report. The bundle has no effect, and issues
again on resumption; a first-use trap is serviced by firmware (13 R283) and reported as every park is. -/
def State.seqTrap (s : State) (b cause sub slot col info : Nat) : State :=
  let q := s.seq b
  let r := seqRecord q.pc cause sub slot col info
  (((((s.modFacet (s.blk b).facet fun x => { x with record := r }).modSeq b fun y =>
    { y with parked := true, parkedAt := s.now, trapped := true, since := none, waiting := false, waited := [],
             reserved := [], checked := false, next := none }).offerBlk b 0x02 cause q.pc.toNat info).reportPark b 1 0 0 0
      { epc := r.sepc, rpc := r.sepc, cause := r.scause, lmask := 0, amask := 0, info := r.sinfo }).countFaulted
    (s.blkSite (.unit (.seqr b)) b) info cause).clearFaults (.unit (.seqr b))

/-- What a check of a slot gives: it passes, it waits (for a page walk), or it traps. -/
inductive SChk
  | ok
  | hold (s : State)
  | trap (cause sub info : Nat)

/-- The first check that does not pass. -/
def SChk.and (a b : SChk) : SChk :=
  match a with
  | .ok => b
  | x => x

/-! ## Operations in flight (R224, R225) -/

/-- The clocks of an operation's latency give the clock at whose end it lands. -/
def State.landsAt (s : State) (l : Nat) : Nat := s.now + l - 1

/-- Put an operation of the sequencer in flight. -/
def State.seqOp (s : State) (b : Nat) (d : SeqDest) (ws : List (Nat × Word)) (l : Nat) : State :=
  ({ s with nextId := s.nextId + 1 } : State).modSeq b fun q =>
    { q with ops := q.ops.set s.nextId { dest := d, words := ws, lands := s.landsAt l } }

/-- Write x(r) of column c, latency l. -/
def State.seqX (s : State) (b c r : Nat) (v : Word) (l : Nat) : State := s.seqOp b (.xreg c r) [(0, v)] l

/-- Unbound port. -/
def Port.unbound : Port :=
  { bound := false, desc := [], pos := 0, elems := [], gen := 0, fault := none, slot := none, skip := 0, got := [],
    offs := [], ended := false, writes := [] }

/-- Port z of column c. -/
def Seq.port (q : Seq) (c z : Nat) : Port := q.ports.getD (8 * c + z) Port.unbound
/-- Set port z of column c. -/
def Seq.setPort (q : Seq) (c z : Nat) (p : Port) : Seq := { q with ports := q.ports.set (8 * c + z) p }

/-- The effect of an operation that lands (R224): words of a register, pair or tile, or an entry that a write port accepts.
A tile in transfer whose last pending write this was may be taken from the next clock (09 R202). -/
def State.landOp (s : State) (b id : Nat) (o : SeqOp) : State :=
  let t := s.modSeq b fun q => { q with ops := q.ops.erase id }
  let v := ((o.words.head?).map Prod.snd).getD 0
  match o.dest with
  | .xreg c r => (t.modSeq b fun q => { q with x := q.x.set (32 * c + r) v }).modBlk b fun x =>
      { x with poisonRegs := x.poisonRegs.filter (· != xregKey c r) }
  | .gpair c k => if k = 0 then t else t.modSeq b fun q => { q with g := q.g.set (8 * c + k) (v != 0) }
  | .push c z cells => t.modSeq b fun q => q.setPort c z { q.port c z with writes := (q.port c z).writes ++ [(id, cells)] }
  | .tile k =>
    t.modBlk b fun x =>
      let y := o.words.foldl (fun y w => y.setTileWord k w.1 w.2) x
      match y.tile k with
      | .transfer _ => { y with gave := y.gave.set k s.now }
      | _ => y

/-- Operations whose clock has come land, in the order of their issue (R224). -/
def State.landDue (s : State) (b : Nat) : State :=
  let due := (s.seq b).ops.filter fun e => decide (e.2.lands ≤ s.now)
  due.foldl (fun t e => t.landOp b e.1 e.2) s

/-- Everything a sequencer issued has landed (R225). -/
def Seq.landed (q : Seq) : Bool := q.ops.isEmpty && q.xfers.isEmpty

/-! ## The release side (11 R240, R247) -/

/-- What a sequencer issued before a number is performed: TST and port writes, TLD reads. Port reads are made whole. -/
def State.seqReleased (s : State) (b id : Nat) : Bool :=
  let q := s.seq b
  (s.olderStores (.seqr b) id).all (·.performed) &&
  (q.xfers.all fun e => e.2.store || decide (id ≤ e.1)) &&
  (q.ports.all fun p => p.2.writes.all fun w => decide (id ≤ w.1)) &&
  q.ops.all fun o => decide (id ≤ o.1) || match o.2.dest with
    | .push _ _ _ => false
    | _ => true

/-- The sequencer arrives at a barrier (09 R209). -/
def Barrier.arriveSeq (x : Barrier) : Barrier := { x with n := x.n + 1, seqArrived := true, seqParity := x.p }.settle

/-- The sequencer of a block arrives at barrier n. -/
def State.seqArrive (s : State) (b n : Nat) : State := s.modBlk b fun x => x.setBar n (x.bar n).arriveSeq

/-- SBAR.ARR arrivals whose release side is done are made, in order (11 R247). -/
def State.settleArrivals (s : State) (b : Nat) : State :=
  (s.seq b).arrivals.foldl (fun t e =>
    if t.seqReleased b e.2 then
      (t.seqArrive b e.1).modSeq b fun q => { q with arrivals := q.arrivals.filter (· != e) }
    else t) s

/-! ## Tiles that a slot names (09 R197, R200; 13 R282) -/

/-- Consecutive handles. -/
def handleRange (first n : Nat) : List Nat := (List.range n).map (first + ·)

/-- A V-slot operand selector names a port (02 R66). -/
def isPort (o : Handle) : Bool := 0xF8 ≤ o.toNat
/-- The port that a V-slot operand selector names. -/
def portOf (o : Handle) : Nat := o.toNat - 0xF8

/-- The side of a shape: 1, 2 or 4 (R251). -/
def shapeSide : Shape → Nat
  | .s1 => 1
  | .s2 => 2
  | .s4 => 4

/-- The C, A and B handles of a TMMA (R251). -/
def tmmaHandles (t : Handle) (a b : BitVec 6) (sh : Shape) : List Nat × List Nat × List Nat :=
  (handleRange t.toNat (shapeSide sh * shapeSide sh), handleRange (4 * a.toNat) (shapeSide sh), handleRange (4 * b.toNat) (shapeSide sh))

/-- The tile operands of a V slot. -/
def vTiles (v : VFields) : List Nat × List Nat :=
  ((if isPort v.od then [] else [v.od.toNat]), if isPort v.os then [] else [v.os.toNat])

/-- The QF4 scale tiles: x14[7:0] and x14[15:8] of the column (R250). -/
def Seq.scaleTiles (q : Seq) (c : Nat) : List Nat := [(q.rdX c 14).toNat % 256, (q.rdX c 14).toNat / 256 % 256]

/-- The slot's first source is read: VRELU, VSEL and VSCL do not read it (R257). -/
def readsOd : Instr → Bool
  | .vrelu _ _ _ => false
  | .vsel _ _ _ => false
  | .vscl _ _ _ => false
  | _ => true

/-- The handles that a slot reads and those that it writes. -/
def Seq.tilesOf (q : Seq) (i : Instr) : List Nat × List Nat :=
  let mm := fun (t : Handle) (a b : BitVec 6) (sh : Shape) =>
    let h := tmmaHandles t a b sh
    (h.1 ++ h.2.1 ++ h.2.2, h.1)
  let vv := fun (v : VFields) => ((if readsOd i then (vTiles v).1 else []) ++ (vTiles v).2, (vTiles v).1)
  match i with
  | .sgive _ _ t n => ([], handleRange t.toNat (n.toNat + 1))
  | .stake _ _ t n => ([], handleRange t.toNat (n.toNat + 1))
  | .tmmaBf16 _ _ t a b sh => mm t a b sh
  | .tmmaF16 _ _ t a b sh => mm t a b sh
  | .tmmaE4M3 _ _ t a b sh => mm t a b sh
  | .tmmaE5M2 _ _ t a b sh => mm t a b sh
  | .tmmaQf4 c _ t a b sh => ((mm t a b sh).1 ++ q.scaleTiles c.toNat, (mm t a b sh).2)
  | .tmmaF32 _ _ t a b sh => mm t a b sh
  | .tzero _ _ t n => ([], handleRange t.toNat (n.toNat + 1))
  | .tcvt _ _ d s _ _ _ => ([s.toNat], [d.toNat])
  | .vadd _ _ v => vv v
  | .vmul _ _ v => vv v
  | .vfma _ _ v => vv v
  | .vmax _ _ v => vv v
  | .vmin _ _ v => vv v
  | .vrelu _ _ v => vv v
  | .vsel _ _ v => vv v
  | .vred _ _ v _ => vv v
  | .vscl _ _ v => vv v
  | .tld _ _ t _ n => ([], handleRange t.toNat (n.toNat + 1))
  | .tst _ _ t _ n => (handleRange t.toNat (n.toNat + 1), [])
  | _ => ([], [])

/-- Every handle that a slot names. -/
def Seq.handlesOf (q : Seq) (i : Instr) : List Nat := (q.tilesOf i).1 ++ (q.tilesOf i).2

/-- STAKE names tiles that the sequencer need not own. -/
def needsOwner : Instr → Bool
  | .stake _ _ _ _ => false
  | _ => true

/-- The first three checks of a slot (R239): accumulator first use (13 R282), the tile-handle trap (09 R197) and the
tile-ownership trap (09 R200). -/
def State.tileChecks (s : State) (b : Nat) (i : Instr) : SChk :=
  let x := s.blk b
  let hs := (s.seq b).handlesOf i
  let fx := s.facet x.facet
  let first := hs.filter fun h => decide (h < x.node.tiles) && x.seqOnly h
  if (!fx.accV || fx.accCtx != x.ctx) && !first.isEmpty then .trap 0x44 0 (first.headD 0)
  else
    match hs.filter fun h => decide (x.node.tiles ≤ h) with
    | h :: _ => .trap 0x41 0 h
    | [] => if needsOwner i && hs.any fun h => !x.seqOwns (x.handleTile h) then .trap 0x40 0 0 else .ok

/-- A TLD whose data arrived poisoned in a tile that a slot names (R260). -/
def State.tldPoison (s : State) (b : Nat) (i : Instr) : Option (List Nat × Nat) :=
  let q := s.seq b
  let ts := (q.handlesOf i).map (s.blk b).handleTile
  q.tpoison.find? fun p => p.1.any ts.contains

/-! ## The scoreboard (R224) -/

/-- A destination that fixed-latency operations write. -/
inductive Dest
  | x (c r : Nat)
  | g (c k : Nat)
  | tile (t : Nat)
  deriving DecidableEq, Repr

/-- The destination of an operation in flight. -/
def SeqDest.dest : SeqDest → Option Dest
  | .xreg c r => some (.x c r)
  | .gpair c k => some (.g c k)
  | .tile t => some (.tile t)
  | .push _ _ _ => none

/-- Latency and T-unit occupancy of a slot (R224). -/
def slotTiming : Instr → Nat × Nat
  | .smul _ _ _ _ _ => (3, 0)
  | .tmmaBf16 _ _ _ _ _ sh => tmm sh
  | .tmmaF16 _ _ _ _ _ sh => tmm sh
  | .tmmaE4M3 _ _ _ _ _ sh => tmm sh
  | .tmmaE5M2 _ _ _ _ _ sh => tmm sh
  | .tmmaQf4 _ _ _ _ _ sh => tmm sh
  | .tmmaF32 _ _ _ _ _ sh => match sh with
    | .s1 => (5, 1)
    | .s2 => (8, 4)
    | .s4 => (20, 16)
  | .tzero _ _ _ n => (ceilDiv (n.toNat + 1) 4, ceilDiv (n.toNat + 1) 4)
  | .tcvt _ _ _ _ _ _ _ => (4, 1)
  | .vadd _ _ _ => (2, 0)
  | .vmul _ _ _ => (2, 0)
  | .vmax _ _ _ => (2, 0)
  | .vmin _ _ _ => (2, 0)
  | .vrelu _ _ _ => (2, 0)
  | .vsel _ _ _ => (2, 0)
  | .vfma _ _ _ => (4, 0)
  | .vscl _ _ _ => (4, 0)
  | .vred _ _ _ _ => (4, 0)
  | _ => (1, 0)
where
  tmm : Shape → Nat × Nat
    | .s1 => (5, 1)
    | .s2 => (6, 2)
    | .s4 => (12, 8)

/-- The x registers and g pairs that a slot reads, its guard's pair among them. -/
def slotReads (i : Instr) : List Dest :=
  let v3 := fun (c : Col) (g : Pred) (v : VFields) =>
    Dest.g c.toNat (pairOf g) ::
      (if v.m = 0 then [] else [Dest.x c.toNat (16 + 2 * v.m.toNat), Dest.x c.toNat (17 + 2 * v.m.toNat)])
  let gx := fun (c : Col) (g : Pred) (rs : List Nat) => Dest.g c.toNat (pairOf g) :: rs.map (Dest.x c.toNat)
  match i with
  | .sadd c g _ a b => gx c g [a.toNat, b.toNat]
  | .ssub c g _ a b => gx c g [a.toNat, b.toNat]
  | .smul c g _ a b => gx c g [a.toNat, b.toNat]
  | .sand c g _ a b => gx c g [a.toNat, b.toNat]
  | .sor c g _ a b => gx c g [a.toNat, b.toNat]
  | .sshl c g _ a b => gx c g [a.toNat, b.toNat]
  | .sli c g _ _ => gx c g []
  | .scmp c g _ _ a b => gx c g [a.toNat, b.toNat]
  | .sbra c g _ => gx c g []
  | .sloop c g x _ => gx c g [x.toNat]
  | .scall c g _ => gx c g []
  | .sret c g => gx c g [31]
  | .sgive c g _ _ => gx c g []
  | .stake c g _ _ => gx c g []
  | .sbarSync c g _ => gx c g []
  | .sbarArr c g _ => gx c g []
  | .sbarWait c g _ => gx c g []
  | .sstat c g _ => gx c g []
  | .shalt c g => gx c g []
  | .tmmaBf16 c g _ _ _ _ => gx c g []
  | .tmmaF16 c g _ _ _ _ => gx c g []
  | .tmmaE4M3 c g _ _ _ _ => gx c g []
  | .tmmaE5M2 c g _ _ _ _ => gx c g []
  | .tmmaQf4 c g _ _ _ _ => gx c g [14]
  | .tmmaF32 c g _ _ _ _ => gx c g []
  | .tzero c g _ _ => gx c g []
  | .tcvt c g _ _ _ _ _ => gx c g []
  | .vadd c g v => v3 c g v
  | .vmul c g v => v3 c g v
  | .vfma c g v => Dest.x c.toNat v.f.toNat :: v3 c g v
  | .vmax c g v => v3 c g v
  | .vmin c g v => v3 c g v
  | .vrelu c g v => v3 c g v
  | .vsel c g v => v3 c g v
  | .vred c g v _ => v3 c g v
  | .vscl c g v => Dest.x c.toNat v.f.toNat :: v3 c g v
  | .tld c g _ x _ => gx c g [x.toNat, x.toNat + 1]
  | .tst c g _ x _ => gx c g [x.toNat, x.toNat + 1]
  | .zbind c g _ x => gx c g [x.toNat]
  | .zset c g _ x _ => gx c g [x.toNat]
  | .zskip c g _ x => gx c g [x.toNat]
  | _ => []

/-- The x registers and g pairs that a slot writes. -/
def slotWrites (i : Instr) : List Dest :=
  match i with
  | .sadd c _ d _ _ => [.x c.toNat d.toNat]
  | .ssub c _ d _ _ => [.x c.toNat d.toNat]
  | .smul c _ d _ _ => [.x c.toNat d.toNat]
  | .sand c _ d _ _ => [.x c.toNat d.toNat]
  | .sor c _ d _ _ => [.x c.toNat d.toNat]
  | .sshl c _ d _ _ => [.x c.toNat d.toNat]
  | .sli c _ d _ => [.x c.toNat d.toNat]
  | .scmp c _ k _ _ _ => if k = 0 then [] else [.g c.toNat k.toNat]
  | .sloop c _ x _ => [.x c.toNat x.toNat]
  | .scall c _ _ => [.x c.toNat 31]
  | .sstat c _ d => (List.range 4).map fun j => .x c.toNat (d.toNat + j)
  | _ => []

/-- A fixed-latency write of a tile: TLD's fill is interlocked, a give writes no words. -/
def writesTiles : Instr → Bool
  | .sgive _ _ _ _ => false
  | .stake _ _ _ _ => false
  | .tld _ _ _ _ _ => false
  | _ => true

/-- The words that a slot reads are marked poisoned: some word of a tile, or an x register (20 R419). -/
def State.readsMarked (s : State) (b : Nat) (i : Instr) : Bool :=
  let x := s.blk b
  !x.poisonRegs.isEmpty &&
  ((((s.seq b).tilesOf i).1.any fun h => x.poisonRegs.any fun k => decide (k < 2 ^ 20) && k / 64 == x.handleTile h) ||
   (slotReads i).any fun d => match d with
     | .x c r => x.poisonRegs.contains (xregKey c r)
     | _ => false)

/-- The poisoned data that a slot meets: those of a TLD, whose trap names the address (R260), or a marked word (20 R419). -/
def State.poisonCheck (s : State) (b : Nat) (i : Instr) : SChk :=
  match s.tldPoison b i with
  | some p => .trap 0x3C 0 p.2
  | none => if s.readsMarked b i then .trap 0x3C 0 0 else .ok

/-- What a slot reads, with the tiles. -/
def Seq.allReads (q : Seq) (x : Block) (i : Instr) : List Dest :=
  slotReads i ++ (q.tilesOf i).1.map fun h => Dest.tile (x.handleTile h)

/-- What a slot writes at a fixed latency, with the tiles. -/
def Seq.allWrites (q : Seq) (x : Block) (i : Instr) : List Dest :=
  slotWrites i ++ (if writesTiles i then (q.tilesOf i).2.map fun h => Dest.tile (x.handleTile h) else [])

/-- The scoreboard's objection to a slot in the clock of issue (R224, SCHK = 1). A TLD, whose fill lands after every
earlier write, has none as a writer. -/
def State.scoreboard (s : State) (b : Nat) (i : Instr) : Bool :=
  let q := s.seq b
  let x := s.blk b
  let pending : Dest → Bool := fun d => q.ops.any fun o => o.2.dest.dest == some d
  let late : Dest → Bool := fun d => q.ops.any fun o => o.2.dest.dest == some d && decide (s.landsAt (slotTiming i).1 ≤ o.2.lands)
  (q.allReads x i).any pending || (q.allWrites x i).any late

/-- Two slots of a bundle write one destination in one clock. -/
def State.doubleWrite (s : State) (b : Nat) (i j : Instr) : Bool :=
  let q := s.seq b
  let x := s.blk b
  (slotTiming i).1 == (slotTiming j).1 && (q.allWrites x i).any fun d => (q.allWrites x j).contains d

/-! ## Interlocks that tiles and the T unit hold (R223) -/

/-- The column and guard of a slot. -/
def slotGuard (i : Instr) : Option (Col × Pred) :=
  match slotCode i with
  | some (_, c, f) => some (c, f.g)
  | none => none

/-- The T unit of the column is occupied, a tile waits for a TLD or a TST, or a tile's PEND would pass 63. -/
def State.tileInterlock (s : State) (b : Nat) (i : Instr) : Bool :=
  let q := s.seq b
  let x := s.blk b
  let rd := (q.tilesOf i).1.map x.handleTile
  let wr := if needsOwner i then (q.tilesOf i).2.map x.handleTile else []
  let col := match slotGuard i with
    | some (c, _) => c.toNat
    | none => 0
  (slotNumber i == 1 && decide (s.now < q.tbusy.getD col 0)) ||
  (q.xfers.any fun e => !e.2.store && e.2.tiles.any fun t => (rd ++ wr).contains t.1) ||
  (q.xfers.any fun e => e.2.store && e.2.tiles.any fun t => wr.contains t.1) ||
  (writesTiles i && wr.any fun t => decide (63 ≤ s.pend b t))

/-- The T unit of a column is taken for a slot's occupancy. -/
def State.occupy (s : State) (b c : Nat) (i : Instr) : State :=
  if (slotTiming i).2 = 0 then s
  else s.modSeq b fun q => { q with tbusy := q.tbusy.set c (s.now + (slotTiming i).2) }

end Sys2Proof.Machine
end

