-- ==== Sys2Proof/Machine/SeqPort.lean ====
section
/-!
DEFINITION. Machine/SeqPort.lean: stream ports: descriptors, element order, reading ahead, pops, pushes and the return of
ring slots (spec/10_sequencer.md R228-R235; 11 R261-R263).

The position of a port is the linear number of its next element in the order of R231. A read port holds its elements in
one list, each with the number of its stretch: a stream, or one ring slot. An entry is the longest beginning of the list
that lies in one stretch and in 256 bytes.
-/

set_option linter.constructorNameAsVariable false

namespace Sys2Proof.Machine

/-! ## Descriptors (R228-R230) -/

/-- Word i of a port's descriptor. -/
def Port.word (p : Port) (i : Nat) : Nat := (p.desc.getD i 0).toNat
/-- CTL. -/
def Port.ctl (p : Port) : Nat := p.word 8
/-- DIR: a write port. -/
def Port.isWrite (p : Port) : Bool := bit p.ctl 0
/-- SRC: 0 affine, 1 gather, 2 fill ring. -/
def Port.src (p : Port) : Nat := bits p.ctl 2 1
/-- EFMT. -/
def Port.efmt (p : Port) : Nat := bits p.ctl 6 3
/-- EXP. -/
def Port.exp (p : Port) : Bool := bit p.ctl 7
/-- RING. -/
def Port.ring (p : Port) : Nat := bits p.ctl 15 12
/-- RATE. -/
def Port.rate (p : Port) : Nat := bits p.ctl 23 16
/-- BASE. -/
def Port.base (p : Port) : Nat := p.word 0 + 2 ^ 32 * p.word 1
/-- SC. -/
def Port.scale (p : Port) : Nat := p.word 9 + 2 ^ 32 * p.word 10

/-- ES, the bytes of an element (R230). -/
def Port.es (p : Port) : Nat := if p.exp then 2 else if p.efmt = 0 then 4 else if p.efmt ≤ 2 then 2 else 1
/-- Elements of a full entry. -/
def Port.perEntry (p : Port) : Nat := 256 / p.es
/-- Elements of a word. -/
def Port.perWord (p : Port) : Nat := 4 / p.es
/-- Blocks or elements of a pass over the pattern. -/
def Port.units (p : Port) : Nat := p.word 5 * p.word 6 * p.word 7
/-- Elements of a pass over the pattern (R231). -/
def Port.len (p : Port) : Nat := (if p.exp then 32 else 1) * p.units

/-- An engine address of `n` bytes keeps R213 in form. -/
def baseOk (a : Nat) : Bool := engAddrOk a

/-- The checks of R229 on a descriptor. -/
def State.portOk (s : State) (b : Nat) (p : Port) : Bool :=
  let fmt := p.efmt
  p.ctl / 2 ^ 25 == 0 && bits p.ctl 11 8 == 0 && ((List.range 5).all fun i => p.word (11 + i) == 0) && p.src != 3 &&
  (if p.exp then decide (6 ≤ fmt) && decide (fmt ≤ 10) else decide (fmt ≤ 4)) &&
  !(p.isWrite && (p.exp || p.src != 0)) &&
  !(p.src == 1 && (p.rate == 0 || decide (16 < p.rate))) &&
  !(p.src == 2 && !(s.blk b).rings.has p.ring) &&
  (p.src == 2 || (baseOk p.base && p.base % p.es == 0)) &&
  (p.src == 2 || !p.exp || baseOk p.scale)

/-! ## Element order (R231) -/

/-- The address offset of unit u of the pattern. -/
def Port.offset (p : Port) (u : Nat) : Int :=
  let st := fun i => ((p.desc.getD i 0).toInt : Int)
  (u % p.word 5 : Nat) * st 2 + (u / p.word 5 % p.word 6 : Nat) * st 3 + (u / (p.word 5 * p.word 6) : Nat) * st 4

/-- The base of the pattern: BASE, or the claimed slot of a ring as an engine address. -/
def Port.start0 (p : Port) (r : Ring) : Nat :=
  if p.src = 2 then 2 ^ 63 + r.slotAddr (p.slot.getD 0) else p.base

/-- The address of unit u. -/
def Port.unitAddr (p : Port) (r : Ring) (u : Nat) : Nat := addrPlus (p.start0 r) (p.offset u)
/-- The address of the scale of block u. -/
def Port.scaleAddr (p : Port) (r : Ring) (u : Nat) : Nat :=
  (if p.src = 2 then 2 ^ 63 + (r.slotAddr (p.slot.getD 0) + p.word 9) else p.scale) + u

/-- The MX format of an EXP port. -/
def Port.mx (p : Port) : Fmt := (decFmt (BitVec.ofNat 4 p.efmt)).getD .mxE4M3

/-- The first byte and the bytes of element j of a block of w-bit elements. -/
def elemBytes (w j : Nat) : Nat × Nat := (w * j / 8, (w * j + w - 1) / 8 - w * j / 8 + 1)

/-! ## Reading ahead (R232) -/

/-- The entries of a list of elements. -/
def entryCount (per : Nat) (gens : List Nat) : Nat :=
  (dedupN gens).foldl (fun n g => n + ceilDiv (gens.filter (· == g)).length per) 0

/-- The port holds 16 entries. -/
def Port.full (p : Port) : Bool := decide (16 ≤ entryCount p.perEntry (p.elems.map (·.gen))) &&
  (p.elems.filter (·.gen == p.gen)).length % p.perEntry == 0

/-- What a read for a port gives. -/
inductive ElemStep
  | wait (s : State)
  | fault (cause addr : Nat)
  | ok (v : Nat) (s : State)


/-- A store or push of the sequencer to one of these bytes, or to their home, is still to be performed: a port reads after that
(11 R240, log 49; 18 R376). -/
def State.seqStoring (s : State) (b k n : Nat) : Bool :=
  (s.stores.any fun x => x.2.thread == .seqr b && !x.2.performed && cellsFirst x.2.cells k n) ||
  ((s.seq b).ports.any fun p => p.2.writes.any fun w => cellsFirst w.2 k n) ||
  (s.seq b).ops.any fun o => match o.2.dest with
    | .push _ _ cells => cellsFirst cells k n
    | _ => false

/-- CTL.NT: global accesses are non-temporal (R228). -/
def Port.nt (p : Port) : Bool := bit p.ctl 24

/-- The bytes from an engine address to the end of its page. A core-local access is one whole, and lies in one region
(07 R156 step 2). -/
def toPageEnd (a n : Nat) : Nat := if engLocal a then n else min n (4096 - a % 4096)

/-- Read n bytes of one page for a port; a fault names the address `at_` of the element. The data of a read-only page come
through the read-only cache (R232; 16 R339). -/
def State.portPiece (s : State) (b c z at_ a n : Nat) : ElemStep :=
  let p := s.blkSite (.port b c z) b
  let x := s.engLoc p false a n
  match x with
  | .wait _ => .wait (s.askLoc p x)
  | .held => .wait s
  | .out _ _ _ => .wait (s.askLoc p x)
  | .fault k _ => .fault k at_
  | _ =>
    if s.seqStoring b x.key n then .wait s
    else if s.locHeld p x then .wait (s.askLoc p x)
    else if (s.locPoison x n).isSome then .fault 0x3C at_
    else
      .ok (leVal (s.locBytes p x n))
        (((s.useLoc p x false ((s.seq b).port c z).nt).afterLocRead p x n).dropOut p.asker .read x.key n)

/-- Read n bytes for a port: where they straddle the end of a page, the bytes of each page by its own translation. -/
def State.portBytes (s : State) (b c z at_ a n : Nat) : ElemStep :=
  let k := toPageEnd a n
  if k = n then s.portPiece b c z at_ a n
  else
    match s.portPiece b c z at_ a k with
    | .ok v t =>
      (match t.portPiece b c z at_ (addrPlus a k) (n - k) with
        | .ok w u => .ok (v + 2 ^ (8 * k) * w) u
        | x => x)
    | x => x

/-- An MX element expanded to BF16 (01 R21): finite values saturate, which counts as clipped; an infinity stays one. -/
def expandBf16 (v : FVal) : Rounded :=
  match v with
  | .inf n => { code := b2n n * 0x8000 + 0x7F80, ovf := false, sat := false, nan := false }
  | _ => encodeF fBF16 .rna true v

/-- What the fetch of an element gives. -/
inductive ElemGet
  | wait (s : State)
  | fault (cause addr : Nat)
  | ok (v : PortElem) (s : State)

/-- An element of code `code` in an MX block of a scale byte, expanded (R231). -/
def Port.expand (p : Port) (code sc : Nat) : PortElem :=
  let r := expandBf16 (mxValue p.mx code sc)
  { gen := p.gen, val := r.code, clip := r.sat, nan := sc == 0xFF }

/-- The element of an affine or ring port at a linear position. -/
def State.portElem (s : State) (b c z : Nat) (p : Port) (r : Ring) (pos : Nat) : ElemGet :=
  if p.exp then
    let u := pos / 32
    let w := codeBits p.mx
    let e := elemBytes w (pos % 32)
    let a := p.unitAddr r u + e.1
    match s.portBytes b c z a a e.2 with
    | .wait t => .wait t
    | .fault k x => .fault k x
    | .ok v t =>
      match t.portBytes b c z a (p.scaleAddr r u) 1 with
      | .wait t => .wait t
      | .fault k x => .fault k x
      | .ok sc t2 => .ok (p.expand (v / 2 ^ (w * (pos % 32) % 8) % 2 ^ w) sc) t2
  else
    match s.portBytes b c z (p.unitAddr r pos) (p.unitAddr r pos) p.es with
    | .wait t => .wait t
    | .fault k x => .fault k x
    | .ok v t => .ok { gen := p.gen, val := v, clip := false, nan := false } t

/-- Change a port. -/
def State.modPort (s : State) (b c z : Nat) (f : Port → Port) : State :=
  s.modSeq b fun q => q.setPort c z (f (q.port c z))

/-- Return the slot that a ring port has claimed, with RDONE's changes (R211). -/
def State.returnSlot (s : State) (b c z : Nat) : State :=
  let p := (s.seq b).port c z
  match p.slot, (s.blk b).rings.find p.ring with
  | some _, some r => (s.setRing b p.ring r.giveBack).modPort b c z fun y => { y with slot := none }
  | _, _ => s

/-- A ring port at the end of its slot's pattern returns the slot and starts a new stretch; an affine stream at its end
closes its stretch. -/
def State.closeStretch (s : State) (b c z : Nat) : State :=
  let p := (s.seq b).port c z
  if p.src = 2 then
    if p.slot.isSome && decide (p.len ≤ p.pos) then
      (s.returnSlot b c z).modPort b c z fun y => { y with pos := 0, past := none, gen := y.gen + 1 }
    else s
  else if p.src = 0 && decide (p.len ≤ p.pos) then s.modPort b c z fun y => { y with gen := y.gen + 1 }
  else s

/-- A fetch met a fault: the port fetches no further until a pop has raised it (R233). -/
def State.portFault (s : State) (b c z k a : Nat) : State :=
  ((s.modPort b c z fun y => { y with fault := some (k, a) }).countFaulted (s.blkSite (.port b c z) b) a k).clearFaults (.port b c z)

/-- One step of reading ahead; none: nothing to do now. -/
def State.readStep (s : State) (b c z : Nat) : Option State :=
  let q := s.seq b
  let p := q.port c z
  let r := (s.blk b).rings.getD p.ring default
  if p.src = 1 then
    match p.offs with
    | [] => none
    | o :: rest =>
      if 0 < p.skip then some (s.modPort b c z fun y => { y with offs := rest, skip := y.skip - 1 })
      else
        let take : PortElem → State → State := fun v t => t.modPort b c z fun y =>
          { y with offs := rest, elems := y.elems ++ [v], got := y.got ++ [o] }
        if p.exp then
          let n := Config.freeNat s.freeCtr
          some (take { gen := p.gen, val := n % 2 ^ 16, clip := bit n 16, nan := bit n 17 } s.tickFree)
        else
          let a := addrPlus p.base ((o : Int) * ((p.desc.getD 2 0).toInt : Int))
          match s.portBytes b c z a a p.es with
          | .wait t => some t
          | .fault k x => some (s.portFault b c z k x)
          | .ok v t => some (take { gen := p.gen, val := v, clip := false, nan := false } t)
  else if p.src = 2 && (p.len == 0) then none
  else if p.src = 2 && p.slot.isNone then
    if r.filled = 0 then none
    else some ((s.setRing b p.ring r.claim).modPort b c z fun y => { y with slot := some r.ri, pos := 0, past := none })
  else if p.len ≤ p.pos then none
  else if 0 < p.skip then
    let n := min p.skip (p.len - p.pos)
    some ((s.modPort b c z fun y => { y with skip := y.skip - n, pos := y.pos + n }).closeStretch b c z)
  else
    match s.portElem b c z p r p.pos with
    | .wait t => some t
    | .fault k x => some (s.portFault b c z k x)
    | .ok v t =>
      some ((t.modPort b c z fun y => { y with elems := y.elems ++ [v], pos := y.pos + 1 }).closeStretch b c z)

/-- A read port may read ahead. -/
def State.mayRead (s : State) (b c z : Nat) : Bool :=
  let p := (s.seq b).port c z
  s.hasSeq b && p.bound && !p.isWrite && p.fault.isNone && !p.full && !(s.seq b).stopped && (s.blk b).reserving.isEmpty

/-- Read up to `n` elements. -/
def State.readAhead (s : State) (b c z : Nat) : Nat → State
  | 0 => s
  | n + 1 =>
    if s.mayRead b c z then
      match s.readStep b c z with
      | some t => t.readAhead b c z n
      | none => s
    else s

/-- STREAM_READ_AHEAD: a read port fetches the elements of its next entry. -/
def execStreamReadAhead (b c z : Nat) (s : State) : Out :=
  .next (s.readAhead b c z ((s.seq b).port c z).perEntry)

/-! ## Pops (R230, R232, R233) -/

/-- The elements of the oldest entry: those of its stretch, at most 256 bytes. -/
def Port.entry (p : Port) : List PortElem :=
  match p.elems with
  | [] => []
  | e :: _ => (p.elems.takeWhile (·.gen == e.gen)).take p.perEntry

/-- The oldest entry is complete: full, or its stretch is over. -/
def Port.ready (p : Port) : Bool :=
  match p.elems with
  | [] => false
  | e :: _ => p.entry.length == p.perEntry || e.gen != p.gen || (p.src == 1 && p.ended && p.offs.isEmpty)

/-- No further entry will come. -/
def Port.atEnd (p : Port) : Bool :=
  p.elems.isEmpty &&
  (if p.src = 1 then p.ended && p.offs.isEmpty else if p.src = 2 then p.len == 0 else decide (p.len ≤ p.pos))

/-- The elements of word n of the oldest entry. -/
def Port.wordElems (p : Port) (n : Nat) : List PortElem := (p.entry.drop (n * p.perWord)).take p.perWord

/-- The words of an entry with their valid bits (R230). -/
def Port.entryWords (p : Port) : List (Word × Bool) :=
  (List.range 64).map fun n =>
    let es := p.wordElems n
    (BitVec.ofNat 32 (es.reverse.foldl (fun v x => v * 2 ^ (8 * p.es) + x.val % 2 ^ (8 * p.es)) 0), !es.isEmpty)

/-- The clipped elements among the words of an entry that a mask selects, and whether the blocks of these words diverge, as
MX blocks of one format do by a NaN block (01 R21, R26; 10 R238, log 128). -/
def Port.marks (p : Port) (ns : List Nat) : Nat × Bool :=
  let es := ns.flatMap p.wordElems
  ((es.filter (·.clip)).length, es.any (·.nan))

/-- The oldest entry leaves the port. -/
def Port.pop (p : Port) : Port :=
  { p with elems := p.elems.drop p.entry.length, got := p.got.drop p.entry.length }

/-- What a pop meets: an overrun, a fault of an element that the entry needs, a wait, or nothing. -/
def State.popCheck (s : State) (b c z : Nat) : SChk :=
  let p := (s.seq b).port c z
  if p.ready then .ok
  else
    match p.fault with
    | some (k, a) => .trap 0x48 k a
    | none => if p.atEnd then .trap 0x47 0 z else .hold s

/-! ## Pushes (R231-R233) -/

/-- The addresses and bytes of the elements that a pushed entry writes. -/
def Port.pushParts (p : Port) (ws : List (Word × Bool)) : List (Nat × List Byte) :=
  (List.zip (List.range 64) ws).flatMap fun e =>
    if e.2.2 then
      (List.range p.perWord).map fun j =>
        (p.unitAddr default (p.pos + e.1 * p.perWord + j), ((leBytes 4 e.2.1.toNat).drop (p.es * j)).take p.es)
    else []

/-- A push passes the end of the pattern (R233). -/
def Port.overruns (p : Port) (ws : List (Word × Bool)) : Bool :=
  decide (p.len ≤ p.pos) || (List.zip (List.range 64) ws).any fun e => e.2.2 && decide (p.len < p.pos + (e.1 + 1) * p.perWord)

/-- The port accepts an entry: it holds, with the pushes on their way, fewer than 16. -/
def State.portAccepts (s : State) (b c z : Nat) : Bool :=
  let q := s.seq b
  (q.port c z).writes.length + (q.ops.filter fun o => match o.2.dest with
    | .push c' z' _ => c' == c && z' == z
    | _ => false).length < 16

/-- The bytes of an element by the pages that they lie in. -/
def pageParts (a : Nat) (bs : List Byte) : List (Nat × List Byte) :=
  let k := toPageEnd a bs.length
  if k = bs.length then [(a, bs)] else [(a, bs.take k), (addrPlus a k, bs.drop k)]

/-- Translate and check the pages of an element that is pushed; the cells to write, by key, or what stops it. INFO of a fault is
the address of the element (R233), or, core-local, what R156 gives. The cause names the access kind of an engine or stream port
(13 R267), where R233 says the cause of a lane access (DESIGN CHOICE, log 139). -/
def State.pushElem (s : State) (at_ : Nat) : List (Nat × List Byte) → SChk ⊕ List Host.Cell
  | [] => .inr []
  | (a, bs) :: rest =>
    let p := s.site
    let x := s.engLoc p true a bs.length
    match x with
    | .wait _ => .inl (.hold (s.askLoc p x))
    | .held => .inl (.hold s)
    | .out _ _ _ => .inl (.hold (s.askLoc p x))
    | .fault k v => .inl (.trap k 0 (if engLocal at_ then v else at_))
    | _ =>
      match s.pushElem at_ rest with
      | .inl y => .inl y
      | .inr cs => .inr (cellsAt x.key bs ++ cs)

/-- Translate and check the addresses of a push. -/
def State.pushCells (s : State) (b : Nat) : List (Nat × List Byte) → SChk ⊕ List Host.Cell
  | [] => .inr []
  | (a, bs) :: rest =>
    match s.pushElem a (pageParts a bs) with
    | .inl y => .inl y
    | .inr here =>
      match s.pushCells b rest with
      | .inl y => .inl y
      | .inr cs => .inr (here ++ cs)

/-- What a push meets, for the words it would push. -/
def State.pushCheck (s : State) (b c z : Nat) (ws : List (Word × Bool)) : SChk :=
  let p := (s.seq b).port c z
  if p.overruns ws then .trap 0x47 0 z
  else
    match s.pushCells b (p.pushParts ws) with
    | .inl x => x
    | .inr _ => if s.portAccepts b c z then .ok else .hold s

/-- Use the translations of a push; the home slices take its lines, at the lowest priority where CTL.NT is set (07 R159). -/
def State.usePush (s : State) (b : Nat) (nt : Bool) (ps : List (Nat × List Byte)) : State :=
  (ps.flatMap fun e => pageParts e.1 e.2).foldl (fun t e =>
    let p := t.site
    let x := t.engLoc p true e.1 e.2.length
    let u := t.useLoc p x true nt
    match x with
    | .glob y _ va _ => u.noteFrame (u.blk b).vf (y.frame va)
    | _ => u) s

/-- Push an entry: it lands at the operation's latency (R256), the position goes on by a whole entry. -/
def State.push (s : State) (b c z : Nat) (ws : List (Word × Bool)) (l : Nat) : State :=
  let p := (s.seq b).port c z
  match s.pushCells b (p.pushParts ws) with
  | .inl _ => s
  | .inr cells =>
    ((s.usePush b p.nt (p.pushParts ws)).seqOp b (.push c z cells) [] l).modPort b c z fun y =>
      { y with pos := y.pos + 64 * y.perWord }

/-- Write cells by key: shared memory of blocks, or global memory with no owner. The push has brought the lines to their home
slices. -/
def State.writeCells (s : State) (cs : List Host.Cell) (vf : Nat) : State :=
  let loc := cs.filter fun c => isShared c.1
  let glob := cs.filter fun c => !isShared c.1
  let t := loc.foldl (fun (t : State) c => t.commitShared (sharedHome c.1) [c]) s
  if glob.isEmpty then t else t.commit glob none vf .none

/-- WRITE_PORT_ENTRY_WRITE: the oldest entry that a write port holds is written, after the sequencer's earlier accesses to
its bytes. -/
def execWritePortEntryWrite (b c z : Nat) (s : State) : Out :=
  if !s.hasSeq b then .next s
  else
    match ((s.seq b).port c z).writes with
    | [] => .next s
    | (id, cs) :: rest =>
      let key := (cs.map Prod.fst).headD (2 ^ 62)
      if (cs.all fun x => s.mayPerform (.seqr b) id 0 x.1 1 .n .store) && !s.arbHeld key (s.blk b).part then
        .next (((s.writeCells cs (s.blk b).vf).chargeFor (.port b c z) key (s.blk b).part (roundUp cs.length 32)).modPort b c z
          fun y => { y with writes := rest })
      else .next (if s.arbHeld key (s.blk b).part then s.ask (.port b c z) key (s.blk b).part else s)

/-! ## Binding, setting, skipping (11 R261-R263) -/

/-- The port starts with a descriptor: nothing read, position 0. Accepted entries of a write port are kept. -/
def Port.start (p : Port) (desc : Table Word) : Port :=
  { Port.unbound with bound := true, desc := desc, gen := p.gen, writes := p.writes }

/-- A port is unbound, at SHALT or a restore: its claimed slot is returned (R244). -/
def State.unbindPort (s : State) (b c z : Nat) : State :=
  (s.returnSlot b c z).modPort b c z fun y => { Port.unbound with writes := y.writes }

/-- The indices of a linear position under counts. -/
def indices (pos c0 c1 : Nat) : Nat × Nat × Nat := (pos % c0, pos / c0 % c1, pos / (c0 * c1))

/-- What a port has read ahead is discarded: its position is that of the next unpopped element. Of a ring port this is one of
the current slot; what it read of slots that it has returned is not fetched again (R262, log 39). -/
def Port.rewind (p : Port) : Port :=
  if p.isWrite then p
  else
    let cur := (p.elems.filter (·.gen == p.gen)).length
    if p.src = 1 then { p with elems := [], offs := p.got ++ p.offs, got := [], fault := none }
    else { p with elems := [], pos := p.pos - (if p.src = 0 then p.elems.length else cur), fault := none }

/-- The position indices of a port, with the element inside the block of an EXP port: those that an earlier ZSET has left at or
past a count, else those of the linear position. A port past its last element has the indices that its loops end with, 0, 0 and
CNT2 (DESIGN CHOICE, log 161). -/
def Port.indicesNow (p : Port) : Nat × Nat × Nat × Nat :=
  match p.past with
  | some i => i
  | none =>
    let u := min p.units (if p.exp then p.pos / 32 else p.pos)
    let i := indices u (p.word 5) (p.word 6)
    (i.1, i.2.1, i.2.2, if p.exp then p.pos % 32 else 0)

/-- The position that keeps the indices when the descriptor of `p` becomes that of `p'`; an index at or past its count leaves the
port at its end (R262). A port that has passed its last element goes on where a ZSET raises the count of its outermost index
(DESIGN CHOICE, log 161). -/
def Port.reindex (p p' : Port) : Port :=
  let i := p.indicesNow
  if p'.word 5 ≤ i.1 || p'.word 6 ≤ i.2.1 || p'.word 7 ≤ i.2.2.1 then { p' with pos := p'.len, past := some i }
  else
    { p' with
      pos := if p'.exp then 32 * (i.1 + p'.word 5 * (i.2.1 + p'.word 6 * i.2.2.1)) + i.2.2.2
        else i.1 + p'.word 5 * (i.2.1 + p'.word 6 * i.2.2.1),
      past := none }

/-- The port with a descriptor word replaced. -/
def Port.setWord (p : Port) (f : Nat) (v : Word) : Port := { p with desc := p.desc.set f v }

/-- The sparse-index engine's offsets that a bound port has not had delivered are discarded, as a new binding does
(10 R234). -/
def State.discardOffsets (s : State) (b c z : Nat) : State :=
  if ((s.seq b).port c z).bound then
    { s with engines := s.engines.mapv fun _ o =>
        if o.engine == 2 && o.blk == b && (o.regs.getD 5 0).toNat % 32 == 8 * c + z then { o with failed := true } else o }
  else s

/-- A port starts with a descriptor, as ZBIND does it: the old binding's slot is returned, what it has read and what is not
delivered to it is discarded (R261). -/
def State.bindPort (s : State) (b c z : Nat) (desc : Table Word) : State :=
  ((s.discardOffsets b c z).returnSlot b c z).modPort b c z fun p => p.start desc

/-- ZSET of a field: a change of SRC, DIR or RING restarts the port, any other keeps the indices (R262). -/
def State.setField (s : State) (b c z f : Nat) (v : Word) : State :=
  let p := (s.seq b).port c z
  let n := p.setWord f v
  if f = 8 && (n.src != p.src || n.isWrite != p.isWrite || n.ring != p.ring) then s.bindPort b c z n.desc
  else
    let r := p.rewind
    (s.modPort b c z fun _ => if p.src = 1 then r.setWord f v else r.reindex (r.setWord f v)).closeStretch b c z

/-- ZSKIP past `n` elements (R263). -/
def State.skipElems (s : State) (b c z n : Nat) : State :=
  if n = 0 then s
  else
    let p := (s.seq b).port c z
    if p.isWrite then s.modPort b c z fun y => { y with pos := min y.len (y.pos + n) }
    else
      let d := min n p.elems.length
      let rest := n - d
      let t := s.modPort b c z fun y =>
        { y with elems := y.elems.drop d, got := y.got.drop d, fault := if 0 < rest then none else y.fault }
      if rest = 0 then t
      else if p.src = 0 then (t.modPort b c z fun y => { y with pos := min y.len (y.pos + rest) }).closeStretch b c z
      else t.modPort b c z fun y => { y with skip := y.skip + rest }

end Sys2Proof.Machine
end

