-- ==== Sys2Proof/Machine/SeqCheck.lean ====
section
/-!
DEFINITION. Machine/SeqCheck.lean: each slot's own checks, made when its bundle becomes a candidate and again at its issue,
and the frame of a slot's meaning (spec/11_sequencer_ops.md R239, R243, R245-R247, R256, R259, R261-R263; 10 R229, R233).
-/

set_option linter.constructorNameAsVariable false

namespace Sys2Proof.Machine

/-! ## TLD and TST (11 R259) -/

/-- The first address of each page of a range. -/
def pagesOf (a n : Nat) : List Nat :=
  a :: ((List.range (ceilDiv n 4096)).map fun i => (a / 4096 + 1 + i) * 4096).filter fun x => decide (x < a + n)

/-- The pages of a range are translated: the lowest that is not decides, which waits or has a fault. -/
def State.tilesMapped (s : State) (wr : Bool) (vas : List Nat) : SChk :=
  let p := s.site
  let rs := vas.map fun va => (va, s.resolve p .engine wr va)
  match rs.find? fun r => match r.2 with
      | .ok _ _ => false
      | _ => true with
  | none => .ok
  | some (va, .fault c) => .trap c 0 va
  | some _ => .hold ((rs.filter fun r => r.2 == .wait).foldl (fun t r => t.askWalk p r.1) s)

/-- The pages of a range are of type N. -/
def State.tilesNormal (s : State) (wr : Bool) (vas : List Nat) : SChk :=
  match vas.find? fun va => match s.resolve s.site .engine wr va with
      | .ok e _ => e.mt != .n
      | _ => false with
  | some va => .trap 0x3B 0 va
  | none => .ok

/-- The tiles of a range can be reached: none waits for a page that moves (18 R381) or for the completion of a request outside the
package, or comes back aborted (13 R270). No fault arises once the bundle has issued. -/
def State.tilesReached (s : State) (wr : Bool) (as : List Nat) : SChk :=
  match as with
  | [] => .ok
  | a :: rest =>
    let x := s.engLoc s.site wr a 256
    match x with
    | .fault c v => .trap c 0 v
    | .held => .hold s
    | .out _ _ _ => .hold (s.askLoc s.site x)
    | _ => s.tilesReached wr rest

/-- The translation checks of R259 on a range of global addresses. -/
def State.tilePages (s : State) (wr : Bool) (a n : Nat) : SChk :=
  ((s.tilesMapped wr (pagesOf a n)).and (s.tilesNormal wr (pagesOf a n))).and
    (s.tilesReached wr ((List.range (n / 256)).map fun j => a + 256 * j))

/-- The checks of R259 on the range of a TLD or TST; INFO is the lowest failing address, as an engine address (log 53). -/
def State.tileRange (s : State) (b : Nat) (wr : Bool) (a n : Nat) : SChk :=
  if a % 256 != 0 then .trap 0x36 0 a
  else if engLocal a then
    let off := a % 2 ^ 32
    if !engAddrOk a then .trap 0x38 0 a
    else if (s.blk b).node.shared < off + n then .trap 0x38 0 (2 ^ 63 + max off (s.blk b).node.shared)
    else .ok
  else if 2 ^ 52 < a + n then .trap 0x37 0 (max a (2 ^ 52))
  else s.tilePages wr a n

/-! ## Ports -/

/-- The direction of a V slot's port operand (R256): bound, and a write port for OD, a read port for OS. -/
def State.portDir (s : State) (b c : Nat) (o : Handle) (wr : Bool) : SChk :=
  if isPort o then
    let p := (s.seq b).port c (portOf o)
    if p.bound && p.isWrite == wr then .ok else .trap 0x49 0 (portOf o)
  else .ok

/-- The descriptor in shared memory at a core-local address (R228). -/
def State.descAt (s : State) (b a : Nat) : Table Word :=
  (List.range 16).map fun i => (i, BitVec.ofNat 32 ((s.blk b).shared.read (a + 4 * i) 4))

/-- The checks of ZBIND's address (R261). -/
def State.bindAddr (s : State) (b c : Nat) (x : XReg) : SChk :=
  let a := ((s.seq b).rdX c x.toNat).toNat
  if a % 16 != 0 then .trap 0x36 0 a
  else if (s.blk b).node.shared < a + 64 then .trap 0x38 0 a
  else .ok

/-- The checks of ZBIND at its issue, where it reads the descriptor (R261; 10 R229). -/
def State.bindCheck (s : State) (b c z : Nat) (x : XReg) : SChk :=
  (s.bindAddr b c x).and
    (if s.portOk b (Port.unbound.start (s.descAt b ((s.seq b).rdX c x.toNat).toNat)) then .ok else .trap 0x4A 0 z)

/-- ZSET asks for a bound port (R262). -/
def State.setPort (s : State) (b c z : Nat) : SChk := if ((s.seq b).port c z).bound then .ok else .trap 0x49 0 z

/-- The checks of ZSET as it takes effect (R262; 10 R229). -/
def State.setCheck (s : State) (b c z : Nat) (x : XReg) (f : Nat) : SChk :=
  (s.setPort b c z).and
    (if s.portOk b (((s.seq b).port c z).setWord f ((s.seq b).rdX c x.toNat)) then .ok else .trap 0x4A 0 z)

/-! ## Barriers (11 R247) -/

/-- The arrival of an SBAR would be a second one: the sequencer has arrived, or an arrival is pending; the SBAR's own
arrival, made while its bundle waits, is none. -/
def State.doubleArrival (s : State) (b c n : Nat) : Bool :=
  let q := s.seq b
  !q.synced.contains c && (((s.blk b).bar n).seqArrived || q.arrivals.any fun e => e.1 == n)

/-- SRET's target (R243). -/
def Seq.retTarget (q : Seq) : Nat := q.pc.toNat / 2 ^ 32 % 2 ^ 20 * 2 ^ 32 + (q.rdX 0 31).toNat

/-- The V-slot checks of both operands. -/
def State.vDirs (s : State) (b : Nat) (c : Col) (v : VFields) : SChk :=
  (s.portDir b c.toNat v.od true).and (s.portDir b c.toNat v.os false)

/-- A slot's own checks (R239), after those of its tiles. What ZBIND and ZSET bring into effect is checked at their issue alone. -/
def State.ownCheck (s : State) (b : Nat) (i : Instr) : SChk :=
  let q := s.seq b
  match i with
  | .sret _ _ => if q.retTarget % 4 = 0 then .ok else .trap 0x4B 0 q.retTarget
  | .sbarSync c _ n => if s.doubleArrival b c.toNat n.toNat then .trap 0x60 0 n.toNat else .ok
  | .sbarArr c _ n => if s.doubleArrival b c.toNat n.toNat then .trap 0x60 0 n.toNat else .ok
  | .vadd c _ v => s.vDirs b c v
  | .vmul c _ v => s.vDirs b c v
  | .vfma c _ v => s.vDirs b c v
  | .vmax c _ v => s.vDirs b c v
  | .vmin c _ v => s.vDirs b c v
  | .vrelu c _ v => s.vDirs b c v
  | .vsel c _ v => s.vDirs b c v
  | .vred c _ v _ => s.vDirs b c v
  | .vscl c _ v => s.vDirs b c v
  | .tld c _ _ x n => s.tileRange b false (q.rdXPair c.toNat x.toNat).toNat (256 * (n.toNat + 1))
  | .tst c _ _ x n => s.tileRange b true (q.rdXPair c.toNat x.toNat).toNat (256 * (n.toNat + 1))
  | .zbind c _ _ x => s.bindAddr b c.toNat x
  | .zset c _ z _ _ => s.setPort b c.toNat z.toNat
  | .zskip c _ z _ => if (q.port c.toNat z.toNat).bound then .ok else .trap 0x49 0 z.toNat
  | _ => .ok

/-- The checks of a slot when its bundle becomes a candidate (R239). -/
def State.slotCheck (s : State) (b : Nat) (i : Instr) : SChk := (s.tileChecks b i).and (s.ownCheck b i)

/-! ## What is settled at issue -/

/-- The words of a V operand with their valid bits: a tile's, or the oldest entry of a port. -/
def State.vWords (s : State) (b c : Nat) (o : Handle) : List (Word × Bool) :=
  if isPort o then ((s.seq b).port c (portOf o)).entryWords
  else (List.range 64).map fun n => ((s.blk b).tileWord ((s.blk b).handleTile o.toNat) n, true)

/-- What a V slot pushes in place of words whose values do not matter: the valid bits (R235). -/
def State.pushValid (s : State) (b c : Nat) (v : VFields) : List (Word × Bool) :=
  let m := (s.seq b).mask c v.m.toNat
  (List.zip (List.range 64) (s.vWords b c v.os)).map fun e => (0, hasLane m e.1 && e.2.2)

/-- The pop and the push of a V slot (R233, R235). -/
def State.vLate (s : State) (b : Nat) (c : Col) (v : VFields) : SChk :=
  (if isPort v.os then s.popCheck b c.toNat (portOf v.os) else .ok).and
    (if isPort v.od then s.pushCheck b c.toNat (portOf v.od) (s.pushValid b c.toNat v) else .ok)

/-- Core-local accesses of the sequencer that a hand-over and a descriptor read come after (08 R182, 11 R240). -/
def State.seqLocalBusy (s : State) (b : Nat) : Bool :=
  (s.stores.any fun x => x.2.thread == .seqr b && x.2.shared.isSome && !x.2.performed) ||
  ((s.seq b).ports.any fun p => p.2.writes.any fun w => w.2.any fun c => isShared c.1) ||
  ((s.seq b).ops.any fun o => match o.2.dest with
    | .push _ _ cells => cells.any fun c => isShared c.1
    | _ => false) ||
  (s.seq b).xfers.any fun x => !x.2.store && 2 ^ 63 ≤ x.2.addr

/-- What a slot meets at its issue: a stop of a stream or a translation, data that arrived poisoned, or a wait. -/
def State.lateCheck (s : State) (b : Nat) (i : Instr) : SChk :=
  let own := match i with
    | .vadd c _ v => s.vLate b c v
    | .vmul c _ v => s.vLate b c v
    | .vfma c _ v => s.vLate b c v
    | .vmax c _ v => s.vLate b c v
    | .vmin c _ v => s.vLate b c v
    | .vrelu c _ v => s.vLate b c v
    | .vsel c _ v => s.vLate b c v
    | .vred c _ v _ => s.vLate b c v
    | .vscl c _ v => s.vLate b c v
    | .tld _ _ _ _ _ => s.ownCheck b i
    | .tst _ _ _ _ _ => s.ownCheck b i
    | .zbind c _ z x => if s.seqLocalBusy b then .hold s else s.bindCheck b c.toNat z.toNat x
    | .zset c _ z x f => s.setCheck b c.toNat z.toNat x f.toNat
    | .sret _ _ => s.ownCheck b i
    | .tmmaQf4 _ _ _ _ _ _ => s.tileChecks b i
    | .sgive _ _ _ _ => if s.seqLocalBusy b then .hold s else .ok
    | _ => .ok
  match own.and (s.poisonCheck b i) with
  | .ok => if s.tileInterlock b i then .hold s else .ok
  | x => x

/-- The scoreboard's check (R224). -/
def State.boardCheck (s : State) (b : Nat) (i : Instr) : SChk :=
  if s.schk b && s.scoreboard b i then .trap 0x46 0 0 else .ok

/-! ## The frame of a slot's meaning -/

/-- A trap of a slot: a stream fault leaves its port, so that the element is fetched again (R233). -/
def State.slotTrap (s : State) (b : Nat) (i : Instr) (cause sub info : Nat) : State :=
  let c := match slotGuard i with
    | some (c, _) => c.toNat
    | none => 0
  let t := if cause = 0x48 then
      s.modSeq b fun q =>
        { q with ports := q.ports.mapv fun k p => if k / 8 = c then { p with fault := none } else p }
    else if cause = 0x3C then
      match s.tldPoison b i with
      | some p => s.modSeq b fun q => { q with tpoison := q.tpoison.erase p }
      | none => s
    else s
  t.seqTrap b cause sub (slotNumber i) c info

/-- A slot instruction of the executing sequencer: nothing where its guard is false; in a bundle that has been checked, its
effect; alone, its checks and its waits first (R239). -/
def slotRun (i : Instr) (c : Col) (g : Pred) (s : State) (eff : Nat → State → State) : Out :=
  match s.focus with
  | .seqr b =>
    let q := s.seq b
    if !s.hasSeq b then .refused .noIssuer
    else if !q.rdG c.toNat g.toNat then .next s
    else if q.checked then .next (eff b s)
    else
      match ((s.slotCheck b i).and (s.lateCheck b i)).and (s.boardCheck b i) with
      | .trap k sub info => .next (s.slotTrap b i k sub info)
      | .hold t => .next t
      | .ok => .next (eff b s)
  | _ => .refused .noIssuer

end Sys2Proof.Machine
end

