-- ==== Sys2Proof/Machine/SeqScalar.lean ====
section
/-!
DEFINITION. Machine/SeqScalar.lean: the S slot (spec/11_sequencer_ops.md R241-R248; 09 R202, R203, R209; 10 R226, R238).
-/

set_option linter.constructorNameAsVariable false

namespace Sys2Proof.Machine

/-- NOP: no effect, whatever its bits hold (02 R64). -/
def execNop (c : Col) (bits : BitVec 26) (s : State) : Out :=
  let _ := (c, bits)
  match s.focus with
  | .seqr b => if s.hasSeq b then .next s else .refused .noIssuer
  | _ => .refused .noIssuer

/-! ## Arithmetic and compare (R241, R242) -/

/-- A scalar operation of two registers. -/
def scalarRun (i : Instr) (c : Col) (g : Pred) (d a b : XReg) (l : Nat) (f : Word → Word → Word) (s : State) : Out :=
  slotRun i c g s fun k t =>
    t.seqX k c.toNat d.toNat (f ((t.seq k).rdX c.toNat a.toNat) ((t.seq k).rdX c.toNat b.toNat)) l

/-- SADD. -/
def execSadd (c : Col) (g : Pred) (d a b : XReg) (s : State) : Out :=
  scalarRun (.sadd c g d a b) c g d a b 1 (fun x y => x + y) s
/-- SSUB. -/
def execSsub (c : Col) (g : Pred) (d a b : XReg) (s : State) : Out :=
  scalarRun (.ssub c g d a b) c g d a b 1 (fun x y => x - y) s
/-- SMUL: latency 3. -/
def execSmul (c : Col) (g : Pred) (d a b : XReg) (s : State) : Out :=
  scalarRun (.smul c g d a b) c g d a b 3 (fun x y => x * y) s
/-- SAND. -/
def execSand (c : Col) (g : Pred) (d a b : XReg) (s : State) : Out :=
  scalarRun (.sand c g d a b) c g d a b 1 (fun x y => x &&& y) s
/-- SOR. -/
def execSor (c : Col) (g : Pred) (d a b : XReg) (s : State) : Out :=
  scalarRun (.sor c g d a b) c g d a b 1 (fun x y => x ||| y) s

/-- The shift of SSHL: left for 0-31, logically right for -1 to -31, else 0 (R241). -/
def sshlWord (x y : Word) : Word :=
  let k := y.toInt
  if 0 ≤ k ∧ k < 32 then x <<< k.toNat else if -32 < k ∧ k < 0 then x >>> (-k).toNat else 0

/-- SSHL. -/
def execSshl (c : Col) (g : Pred) (d a b : XReg) (s : State) : Out :=
  scalarRun (.sshl c g d a b) c g d a b 1 sshlWord s

/-- SLI. -/
def execSli (c : Col) (g : Pred) (d : XReg) (imm : BitVec 17) (s : State) : Out :=
  slotRun (.sli c g d imm) c g s fun k t => t.seqX k c.toNat d.toNat (imm.signExtend 32) 1

/-- The conditions of SCMP (R242). -/
def scondHolds (cond : SCond) (a b : Word) : Bool :=
  match cond with
  | .eq => a == b
  | .ne => a != b
  | .lt => a.slt b
  | .le => a.sle b
  | .gt => b.slt a
  | .ge => b.sle a
  | .ltu => a.ult b
  | .geu => b.ule a

/-- SCMP: the pair is written with latency 1, a write to pair 0 is discarded. -/
def execScmp (c : Col) (g : Pred) (p : PairIx) (cond : SCond) (a b : XReg) (s : State) : Out :=
  slotRun (.scmp c g p cond a b) c g s fun k t =>
    if p = 0 then t
    else
      t.seqOp k (.gpair c.toNat p.toNat)
        [(0, b2w (scondHolds cond ((t.seq k).rdX c.toNat a.toNat) ((t.seq k).rdX c.toNat b.toNat)))] 1

/-! ## Branches (R243, 10 R226) -/

/-- The address of the next bundle in line; a turn sets it, and an instruction alone stands in a one-column bundle. -/
def Seq.fall (q : Seq) : Dword := q.next.getD (q.pc + 20)

/-- The next bundle is the one at an address. -/
def State.seqGo (s : State) (b : Nat) (pc : Dword) : State := s.modSeq b fun q => { q with next := some pc }

/-- SBRA. -/
def execSbra (c : Col) (g : Pred) (ofs : BitVec 22) (s : State) : Out :=
  slotRun (.sbra c g ofs) c g s fun k t => t.seqGo k ((t.seq k).pc + 4 * ofs.signExtend 64)

/-- SLOOP: counts down and branches while the count is not over. -/
def execSloop (c : Col) (g : Pred) (x : XReg) (ofs : BitVec 17) (s : State) : Out :=
  slotRun (.sloop c g x ofs) c g s fun k t =>
    let v := (t.seq k).rdX c.toNat x.toNat
    if v = 0 then t
    else
      let u := t.seqX k c.toNat x.toNat (v - 1) 1
      if v = 1 then u else u.seqGo k ((t.seq k).pc + 4 * ofs.signExtend 64)

/-- SCALL: x31 links to the next bundle in line. -/
def execScall (c : Col) (g : Pred) (ofs : BitVec 22) (s : State) : Out :=
  slotRun (.scall c g ofs) c g s fun k t =>
    (t.seqX k c.toNat 31 (lowWord (t.seq k).fall) 1).seqGo k ((t.seq k).pc + 4 * ofs.signExtend 64)

/-- SRET: to x31 within the 4 GiB region of the bundle. -/
def execSret (c : Col) (g : Pred) (s : State) : Out :=
  slotRun (.sret c g) c g s fun k t => t.seqGo k (BitVec.ofNat 64 (t.seq k).retTarget)

/-! ## SHALT (R244) -/

/-- The end of a halting sequencer once everything has landed: it leaves the barriers, its ports are unbound, claimed slots are
returned. A pending arrival is made once its release side is done (R247). -/
def State.seqEnd (s : State) (b : Nat) : State :=
  let q := s.seq b
  if q.halting && !q.halted && q.landed then
    let ports := q.ports.map Prod.fst
    let t := ports.foldl (fun (t : State) i => t.unbindPort b (i / 8) (i % 8)) s
    (t.modSeq b fun y => { y with halted := true }).modBlk b fun x => x.leaveBars
  else s

/-- SHALT: the sequencer issues no further bundle. -/
def execShalt (c : Col) (g : Pred) (s : State) : Out :=
  slotRun (.shalt c g) c g s fun k t => t.modSeq k fun q => { q with halting := true, drain := true }

/-! ## Tiles (R245, 09 R202, R203) -/

/-- The recipient of an SGIVE: the group that the map binds, or any column (09 R202). -/
def giveTo (t : Nat) : TileOwner := if t < 4096 then .group (t / 64) else .seqAny

/-- SGIVE: each tile of the range passes into transfer. -/
def execSgive (c : Col) (g : Pred) (h : Handle) (n : BitVec 4) (s : State) : Out :=
  slotRun (.sgive c g h n) c g s fun k t =>
    (handleRange h.toNat (n.toNat + 1)).foldl (fun (u : State) x =>
      let tile := (u.blk k).handleTile x
      u.giveTile k tile (giveTo tile)) t

/-- The waits of the bundle have begun. -/
def State.beginWait (s : State) (b : Nat) : State :=
  s.modSeq b fun q => { q with since := some (q.since.getD s.now), waiting := true }

/-- The wait of column c's S slot is complete. -/
def State.endWait (s : State) (b c : Nat) : State := s.modSeq b fun q => { q with waited := q.waited ++ [c] }

/-- Take the tiles of a range in turn, as far as it goes: the state, and whether all are taken. -/
def State.stakeRange (s : State) (b c : Nat) : List Nat → State × Bool
  | [] => (s, true)
  | h :: hs =>
    let tile := (s.blk b).handleTile h
    if (s.blk b).seqOwns tile then s.stakeRange b c hs
    else if s.takeReady b tile .seqAny then (s.takeTile b tile (.seqCol c)).stakeRange b c hs
    else (s, false)

/-- A STAKE goes on: complete, with its event where it waited a clock (R203), or still waiting. -/
def State.stakeStep (s : State) (b c first n : Nat) : State :=
  let t := s.beginWait b
  let r := t.stakeRange b c (handleRange first n)
  if !r.2 then r.1
  else
    let w := s.now - ((s.seq b).since.getD s.now)
    let u := r.1.endWait b c
    if w = 0 then u else u.offerBlk b 0x06 (0x100 + c) w first

/-- STAKE: takes the range, or waits (R246). -/
def execStake (c : Col) (g : Pred) (h : Handle) (n : BitVec 4) (s : State) : Out :=
  slotRun (.stake c g h n) c g s fun k t => t.stakeStep k c.toNat h.toNat (n.toNat + 1)

/-! ## Barriers (R247) -/

/-- Departure: the wait is complete, and the core self-invalidates (08 R188). -/
def State.seqDepart (s : State) (b c : Nat) : State := (s.endWait b c).selfInvalidate (s.blk b).core

/-- The sequencer still waits at a barrier: it has arrived in the current phase. -/
def State.seqAtBar (s : State) (b n : Nat) : Bool := ((s.blk b).bar n).seqArrived || (s.seq b).arrivals.any fun e => e.1 == n

/-- SBAR.SYNC: the arrival once its release side is done, then the wait. -/
def execSbarSync (c : Col) (g : Pred) (n : BitVec 4) (s : State) : Out :=
  slotRun (.sbarSync c g n) c g s fun k t =>
    let t0 := t.beginWait k
    let t1 := if (t0.seq k).synced.contains c.toNat then t0
      else if t0.seqReleased k t0.nextId then
        (t0.seqArrive k n.toNat).modSeq k fun q => { q with synced := q.synced ++ [c.toNat] }
      else t0
    if (t1.seq k).synced.contains c.toNat && !((t1.blk k).bar n.toNat).seqArrived then t1.seqDepart k c.toNat else t1

/-- SBAR.ARR: the arrival is made once its release side is done; the bundle does not wait. -/
def execSbarArr (c : Col) (g : Pred) (n : BitVec 4) (s : State) : Out :=
  slotRun (.sbarArr c g n) c g s fun k t =>
    (t.modSeq k fun q => { q with arrivals := q.arrivals ++ [(n.toNat, t.nextId)] }).settleArrivals k

/-- SBAR.WAIT: waits while the sequencer has arrived in the current phase. -/
def execSbarWait (c : Col) (g : Pred) (n : BitVec 4) (s : State) : Out :=
  slotRun (.sbarWait c g n) c g s fun k t =>
    let t0 := t.beginWait k
    if t0.seqAtBar k n.toNat then t0 else t0.seqDepart k c.toNat

/-! ## SSTAT (R248, 10 R238) -/

/-- The four words of a record with DROPS. -/
def statWords (r : StatRec) (drops : Word) : List Word :=
  [r.words.getD 0 0, r.words.getD 1 0, r.words.getD 2 0, (r.words.getD 3 0) ||| (drops <<< 16)]

/-- SSTAT: pops the oldest record into four registers; an empty queue gives zeros. -/
def execSstat (c : Col) (g : Pred) (d : XReg) (s : State) : Out :=
  slotRun (.sstat c g d) c g s fun k t =>
    let f := (t.blk k).facet
    let put : List Word → State → State := fun ws u =>
      (List.range 4).foldl (fun (u : State) j => u.seqX k c.toNat (d.toNat + j) (ws.getD j 0) 1) u
    match (t.facet f).stats with
    | [] => put [] t
    | r :: rest => put (statWords r (t.facet f).drops) (t.modFacet f fun x => { x with stats := rest, drops := 0 })

end Sys2Proof.Machine
end

