-- ==== Sys2Proof/Machine/Loader.lean ====
section
/-!
DEFINITION. Machine/Loader.lean: the loader's checks of a code object and its registration (spec/02_encoding.md R71-R74, R430;
03 R84, R86; 06 R142; 09 R210; 14 R294; 15 R311, R312).
-/

set_option linter.constructorNameAsVariable false

namespace Sys2Proof.Machine

/-! ## The code object (02 R71) -/

/-- A number in a list of bytes. -/
def num (d : List Byte) (i n : Nat) : Nat := leVal ((d.drop i).take n)

/-- A section of a code object: its type and its bytes. -/
structure Section where
  type : Nat
  body : List Byte
  deriving DecidableEq, Repr

/-- The sections of an object; `none` when header or directory is not well formed. A section 5, 6 or 7 begins with a count
word (R430), so that an empty one is not well formed. -/
def sectionsOf (d : List Byte) : Option (List Section) :=
  let n := num d 12 4
  if d.length < 16 + 16 * n || num d 0 4 != 0x4E524D4C || num d 4 4 != 1 || ([0, 1, 2, 4].contains (num d 8 4)) == false then none
  else
    (List.range n).mapM fun i =>
      let e := 16 + 16 * i
      let off := num d (e + 8) 4
      let len := num d (e + 12) 4
      if num d e 4 = 0 || 8 < num d e 4 || num d (e + 4) 4 != 0 || d.length < off + len ||
         ([5, 6, 7].contains (num d e 4) && len == 0) then none
      else some { type := num d e 4, body := (d.drop off).take len }

/-- The bytes of the section of a type, empty where there is none. -/
def sectionOf (ss : List Section) (t : Nat) : List Byte := ((ss.find? fun x => x.type == t).map (·.body)).getD []

/-- The words of a section. -/
def wordsIn (b : List Byte) : List Word := (List.range (b.length / 4)).map fun i => BitVec.ofNat 32 (num b (4 * i) 4)

/-! ## Sections 5, 6 and 7 (R71, R430) -/

/-- The live-state lists fit section 5, and every range word has a kind of the five. A length, or an offset of a list, that is no
multiple of 4 fits no section of words: R430 does not say so (DESIGN CHOICE, log 158). -/
def livesOk (b : List Byte) : Bool :=
  let n := num b 0 4
  b.isEmpty || (b.length % 4 == 0 && 4 + 4 * n ≤ b.length && (List.range n).all fun i =>
    let o := num b (4 + 4 * i) 4
    let k := num b o 4
    o % 4 == 0 && decide (o + 4 + 4 * k ≤ b.length) && (List.range k).all fun j => decide (bits (num b (o + 4 + 4 * j) 4) 31 28 ≤ 4))

/-- The number of live-state lists. -/
def livesCount (b : List Byte) : Nat := num b 0 4

/-- A tile map of section 6: the index of its node's header, the offset of its count word, its entries. -/
structure TileMap where
  node : Nat
  at_ : Nat
  entries : List Nat
  deriving DecidableEq, Repr

/-- `n` maps from an offset of section 6; `none` where they do not fill it exactly. -/
def tileMapsFrom (b : List Byte) : Nat → Nat → Option (List TileMap)
  | 0, o => if o = b.length then some [] else none
  | n + 1, o =>
    let k := num b (o + 4) 4
    if b.length < o + 8 + 4 * k then none
    else
      (tileMapsFrom b n (o + 8 + 4 * k)).map fun t =>
        { node := num b o 4, at_ := o + 4, entries := (List.range k).map fun j => num b (o + 8 + 4 * j) 4 } :: t

/-- The maps of section 6. -/
def tileMapsOf (b : List Byte) : Option (List TileMap) := if b.isEmpty then some [] else tileMapsFrom b (num b 0 4) 4

/-- A tile-map entry: its handle, and the group slot and register that it binds, or `none` for `seq`. -/
def tileEntry (e : Nat) : Nat × Option (Nat × Nat) :=
  (bits e 7 0, if bit e 31 then none else some (bits e 15 8, bits e 21 16))

/-- The reserved bits of an entry are 0, and of a `seq` entry M and K too. -/
def tileEntryOk (e : Nat) : Bool := bits e 30 22 == 0 && (!bit e 31 || bits e 21 8 == 0)

/-- Ring declarations of section 7: number, slots, bytes, offset. -/
def ringsOf (b : List Byte) : List (Nat × Nat × Nat × Nat) :=
  (List.range (num b 0 4)).map fun i => (num b (4 + 16 * i) 4, num b (8 + 16 * i) 4, num b (12 + 16 * i) 4, num b (16 + 16 * i) 4)

/-- Section 7 fits its length. -/
def ringsFit (b : List Byte) : Bool := b.isEmpty || b.length == 4 + 16 * num b 0 4

/-! ## Node headers (15 R311, R312) -/

/-- The node of a header as it stands in section 1, with the placement the loader gives it. -/
def nodeAt (b : List Byte) (addr text seq width tmap rings lives : Nat) : Node :=
  { addr := addr, code := text + num b 8 8, seqcode := if bit (num b 6 2) 0 then seq + num b 16 8 else 0,
    width := num b 24 1, groups := num b 25 1, vregs := num b 26 1, sregs := num b 27 1, tiles := num b 28 2,
    facetw := if bit (num b 6 2) 0 then width else 0, shared := num b 32 4, stash := num b 36 4,
    wid := (List.range 6).map fun i => num b (40 + i) 1, diemask := num b 46 1, gangn := num b 50 2,
    coalesce := num b 48 2, timeout := num b 52 4, priority := num b 31 1, part := num b 56 4,
    next := (List.range 4).map fun i => num b (88 + 8 * i) 8, tmap := tmap, rings := rings, lives := lives }

/-- GANGN of a header. -/
def gangnOf (b : List Byte) : Nat := num b 50 2

/-- The tiles of a block (09 R196): those of its groups, and one for each handle that no group register binds. -/
def Node.tilesNeeded (n : Node) (bound : Nat) : Nat :=
  n.groups * ceilDiv n.vregs (64 / n.width) + (n.tiles - bound)

/-- Shared or stash bytes in whole units (09 R205). -/
def unit4k (n : Nat) : Nat := roundUp n 4096

/-- The blocks of a node that fit together on an empty core: of facets of its own width, one a facet where it has sequencer
code; else of one facet of four columns (15 R325, 09 R205). -/
def Node.perCore (n : Node) (bound : Nat) : Nat :=
  let c := if n.facetw = 0 then 4 else n.facetw
  let mem := unit4k n.shared + unit4k n.stash
  if 128 * 1024 * c < unit4k n.shared || 64 * 1024 * c < unit4k n.stash then 0
  else
    let fit := min (16 * c / max 1 n.groups) (min (1024 * c / max 1 (n.tilesNeeded bound))
      (if mem = 0 then 64 else 176 * 1024 * c / mem))
    if n.facetw = 0 then fit else min 1 fit * (4 / c)

/-- The dies of a mask. -/
def diesOf (mask : Nat) : List Nat := (List.range 4).filter fun d => bit mask d

/-- The mask names both dies of one pair and no other (14 R294). -/
def pairMask (mask : Nat) : Bool := mask == 3 || mask == 12

/-- The field and resource checks of a header (R72 code 0x04, R86, R312). -/
def headerOk (b : List Byte) (n : Node) (bound : Nat) : Bool :=
  let flags := num b 6 2
  let zero (i k : Nat) : Bool := num b i k == 0
  let c := if n.facetw = 0 then 4 else n.facetw
  let gangn := gangnOf b
  let member := if pairMask n.diemask then (if n.perCore bound = 0 then 0 else 16)
    else (diesOf n.diemask).length * 96 * n.perCore bound
  num b 0 4 == 0x45444F4E && num b 4 2 == 1 && decide (flags < 2) &&
  [8, 16, 32, 64].contains n.width && decide (1 ≤ n.groups) && decide (n.groups ≤ 16 * c) && decide (1 ≤ n.vregs) &&
  decide (n.vregs ≤ 64) && decide (n.sregs ≤ 64) && decide (n.tiles ≤ 256) && decide (n.priority < 8) &&
  decide (1 ≤ n.diemask) && decide (n.diemask < 16) && zero 47 1 && decide (1 ≤ n.coalesce) && decide (n.coalesce ≤ 255) &&
  decide (gangn ≤ 4096) && zero 60 4 && (List.range 136).all (fun i => zero (120 + i) 1) &&
  !(flags == 1 && n.facetw == 0) && (flags == 1 || zero 16 8) &&
  2 ^ n.wid.getD 0 0 == n.width && decide (n.groups ≤ 2 ^ n.wid.getD 1 0) && decide (n.wid.sum ≤ 64) &&
  (gangn == 0 || decide (gangn ≤ member)) && (!pairMask n.diemask || gangn == 0 || (decide (2 ≤ gangn) && decide (gangn ≤ 16)))

/-- A ring declaration keeps its limits for a node (09 R210). -/
def ringOk (n : Node) (r : Nat × Nat × Nat × Nat) : Bool :=
  decide (r.1 ≤ 15) && decide (1 ≤ r.2.1) && decide (r.2.1 ≤ 256) && r.2.2.1 % 16 == 0 && decide (16 ≤ r.2.2.1) &&
  decide (r.2.2.1 ≤ 65536) && decide (r.2.2.2 + r.2.1 * r.2.2.1 ≤ n.shared)

/-! ## Lane and sequencer text (R72) -/

/-- The lane text decoded from a byte offset on: offset, instruction. -/
def laneText (off : Nat) : List Word → Option (List (Nat × Instr))
  | [] => some []
  | [w] =>
    match decodeLane w 0 with
    | some i => if i.laneSize = 4 then some [(off, i)] else none
    | none => none
  | w :: x :: t =>
    match decodeLane w x with
    | none => none
    | some i =>
      if i.laneSize = 4 then (laneText (off + 4) (x :: t)).map fun r => (off, i) :: r
      else (laneText (off + 8) t).map fun r => (off, i) :: r

/-- The reserved fields of a slot word are 0 (R72 code 0x02); a NOP has none, and F is one in the V operations that do not
use it (02 R64, R66). -/
def slotClean (c : Col) (p : SlotPos) (w : Word) : Bool :=
  match decodeSlot c p w with
  | none => false
  | some i =>
    match i with
    | .nop _ _ => true
    | .vadd _ _ v => v.f == 0
    | .vmul _ _ v => v.f == 0
    | .vmax _ _ v => v.f == 0
    | .vmin _ _ v => v.f == 0
    | .vrelu _ _ v => v.f == 0
    | .vsel _ _ v => v.f == 0
    | _ => encodeSlot i == some w

/-- The slot words of a bundle are clean. -/
def slotsClean (ws : List Word) : Bool :=
  (List.zip (List.range ws.length) ws).all fun e =>
    slotClean (BitVec.ofNat 2 (e.1 / 4)) ([SlotPos.s, .t, .v, .m].getD (e.1 % 4) .s) e.2

/-- The sequencer text decoded: offset, bundle. The fuel is the number of words. -/
def seqText : Nat → Nat → List Word → Option (List (Nat × Bundle))
  | 0, _, ws => if ws = [] then some [] else none
  | _ + 1, _, [] => some []
  | n + 1, off, w :: t =>
    match decodeBundle 4 w t with
    | none => none
    | some b =>
      if !b.head.safe && b.head.liveix != 0 then none
      else if t.length < 4 * b.cols.length || !slotsClean (t.take (4 * b.cols.length)) then none
      else (seqText n (off + bundleBytes b.cols.length) (t.drop (4 * b.cols.length))).map fun r => (off, b) :: r

/-- What stands at an offset of a text. -/
def textAt {α : Type} (t : List (Nat × α)) (off : Nat) : Option α := (t.find? fun e => e.1 == off).map Prod.snd

/-- A branch target: `ofs` words from the instruction or the head word. -/
def textTarget (off : Nat) (ofs : Int) : Option Nat :=
  let t := (off : Int) + 4 * ofs
  if t < 0 then none else some t.toNat

/-- The direct branch of a lane instruction: its guard and target. -/
def laneBranch (off : Nat) : Instr → Option (Pred × Option Nat)
  | .bra g ofs => some (g, textTarget off ofs.toInt)
  | .braEj g _ ofs => some (g, textTarget off ofs.toInt)
  | .call g ofs => some (g, textTarget off ofs.toInt)
  | _ => none

/-- The direct branch of a slot. -/
def slotBranch (off : Nat) : Instr → Option (Option Nat)
  | .sbra _ _ ofs => some (textTarget off ofs.toInt)
  | .sloop _ _ _ ofs => some (textTarget off ofs.toInt)
  | .scall _ _ ofs => some (textTarget off ofs.toInt)
  | _ => none

/-- CALL, CALLX or RET (06 R142). -/
def usesLink : Instr → Bool
  | .call _ _ => true
  | .callx _ _ => true
  | .ret _ => true
  | _ => false

/-- The registers of an instruction lie below a node's counts (R72 code 0x03). -/
def budgetFits (n : Node) (i : Instr) : Bool :=
  let u := instrUses n i
  (regsOf u.v).all (· < n.vregs) && (regsOf u.bv).all (· < n.vregs) && (regsOf u.u).all (· < n.sregs)

/-! ## Reachability (R73, R74) -/

/-- The closure of a successor relation, within a number of steps; `none` when a state has no lawful successors. -/
def closure {α : Type} [BEq α] (succ : α → Option (List α)) : Nat → List α → List α → Option (List α)
  | 0, _, _ => none
  | _ + 1, [], seen => some seen
  | n + 1, x :: t, seen =>
    if seen.contains x then closure succ n t seen
    else
      match succ x with
      | none => none
      | some ys => closure succ n (ys ++ t) (x :: seen)

/-- A place in text with the return offsets of the calls inlined on the way. -/
abbrev Place := Nat × List Nat

/-- A number of steps that the analysis of a text of `n` instructions or bundles cannot exceed: a place is one of them with
a list of distinct return offsets, and has at most ten successors. -/
def analysisFuel (n : Nat) : Nat := 16 * (n + 2) ^ (n + 3)

/-- The successors of a place in an ejectable region (R74): `none` rejects the region. A recursive CALL has no inlined form:
a region that holds one is rejected, as R73 says of sequencer text (DESIGN CHOICE, log 145). -/
def regionSucc (t : List (Nat × Instr)) (p : Place) : Option (List Place) :=
  match textAt t p.1 with
  | none => none
  | some i =>
    let next : Place := (p.1 + i.laneSize, p.2)
    if cometForbids p.2.length i then none
    else
      match i with
      | .join _ => some []
      | .bra g _ =>
        match laneBranch p.1 i with
        | some (_, some a) => some ((if g = 1 then [] else [(a, p.2)]) ++ if g = 0 then [] else [next])
        | _ => none
      | .braEj _ _ _ =>
        match laneBranch p.1 i with
        | some (_, some a) => some [(a, p.2), next]
        | _ => none
      | .call g _ =>
        match laneBranch p.1 i with
        | some (_, some a) =>
          if p.2.contains next.1 then none
          else some ((if g = 1 then [] else [(a, next.1 :: p.2)]) ++ if g = 0 then [] else [next])
        | _ => none
      | .ret g =>
        match p.2 with
        | [] => none
        | r :: rs => some ((if g = 1 then [] else [(r, rs)]) ++ if g = 0 then [] else [next])
      | _ => some [next]

/-- The place is a JOIN. -/
def isJoin (t : List (Nat × Instr)) (p : Place) : Bool :=
  match textAt t p.1 with
  | some (.join _) => true
  | _ => false

/-- The region of a BRA.EJ passes (R74): no place of it is rejected, and from each a JOIN can be reached. -/
def regionOk (t : List (Nat × Instr)) (e : Nat × Instr) : Bool :=
  match e.2 with
  | .braEj _ _ _ =>
    match laneBranch e.1 e.2 with
    | some (_, some a) =>
      match closure (regionSucc t) (analysisFuel t.length) [(a, []), (e.1 + 4, [])] [] with
      | none => false
      | some ps => ps.all fun p => match closure (regionSucc t) (analysisFuel t.length) [p] [] with
          | some qs => qs.any (isJoin t)
          | none => false
    | _ => false
  | _ => true

/-- The S slots of a bundle. -/
def sSlots (b : Bundle) : List Instr := b.cols.map (·.s)

/-- An SHALT that always executes stands in the bundle. -/
def haltsAlways (b : Bundle) : Bool := (sSlots b).any fun i => match i with
  | .shalt _ g => g == 0
  | _ => false

/-- The places that a bundle's S slots lead to; `none` rejects. A return from no inlined call leads nowhere where the
analysis started inside a function (`inner`), else it rejects: no safe point and no SHALT follows it. -/
def seqTargets (inner : Bool) (p : Place) (next : Nat) : List Instr → Option (List Place)
  | [] => some []
  | i :: is =>
    (seqTargets inner p next is).bind fun r =>
      match i with
      | .sbra _ _ _ =>
        match slotBranch p.1 i with
        | some (some a) => some ((a, p.2) :: r)
        | _ => none
      | .sloop _ _ _ _ =>
        match slotBranch p.1 i with
        | some (some a) => some ((a, p.2) :: r)
        | _ => none
      | .scall _ _ _ =>
        match slotBranch p.1 i with
        | some (some a) => if p.2.contains next then none else some ((a, next :: p.2) :: r)
        | _ => none
      | .sret _ _ =>
        match p.2 with
        | [] => if inner then some r else none
        | x :: xs => some ((x, xs) :: r)
      | _ => some r

/-- A call or return that always executes: the bundle does not go on to the next one. -/
def leavesAlways (b : Bundle) : Bool := (sSlots b).any fun i => match i with
  | .scall _ g _ => g == 0
  | .sret _ g => g == 0
  | _ => false

/-- The successors of a bundle (R73): every SBRA and SLOOP may go either way, SCALL targets are inlined, recursion is
rejected. -/
def seqSucc (t : List (Nat × Bundle)) (inner : Bool) (p : Place) : Option (List Place) :=
  match textAt t p.1 with
  | none => none
  | some b =>
    if haltsAlways b then some []
    else
      let next := p.1 + bundleBytes b.cols.length
      (seqTargets inner p next (sSlots b)).map fun r => if leavesAlways b then r else r ++ [(next, p.2)]

/-- A place ends a path of the safe-point check: a safe point or an SHALT. -/
def pathEnds (t : List (Nat × Bundle)) (p : Place) : Bool :=
  match textAt t p.1 with
  | some b => b.head.safe || haltsAlways b
  | none => false

/-- Insert the places of a list that are not there. -/
def addPlaces (a b : List Place) : List Place := b.foldl (fun t p => if t.contains p then t else p :: t) a

/-- Every path from a level of places ends within `n` more bundles, by a successor relation. -/
def pathsEnd (t : List (Nat × Bundle)) (succ : Place → Option (List Place)) : Nat → List Place → Bool
  | 0, l => l.isEmpty
  | n + 1, l =>
    l.isEmpty ||
    match l.mapM succ with
    | none => false
    | some ys => pathsEnd t succ n ((addPlaces [] ys.flatten).filter fun p => !pathEnds t p)

/-- The safe-point distance from a place (R73): within 2,048 bundles, the first of them counted. -/
def distanceOk (t : List (Nat × Bundle)) (inner : Bool) (p : Place) : Bool := pathsEnd t (seqSucc t inner) 2047 [p]

/-- The safe-point check of the sequencer text from an entry (R73). -/
def safeOk (t : List (Nat × Bundle)) (entry : Nat) : Bool :=
  match closure (seqSucc t false) (analysisFuel t.length) [(entry, [])] [] with
  | none => false
  | some ps =>
    distanceOk t false (entry, []) && ps.all fun p => match textAt t p.1 with
      | some b => !b.head.safe || distanceOk t false p
      | none => false

/-- The safe-point check of the whole graph (R73), bundles that no entry reaches with it: no recursion, a bundle with SP in
every cycle, and the distance from every safe point. The end of the text and a return from a function that nothing calls
lead nowhere (DESIGN CHOICE, log 145). -/
def graphOk (t : List (Nat × Bundle)) : Bool :=
  let succ : Place → Option (List Place) := fun p => if (textAt t p.1).isNone then some [] else seqSucc t true p
  match closure succ (analysisFuel t.length) (t.map fun e => (e.1, [])) [] with
  | none => false
  | some ps =>
    pathsEnd t succ ps.length (ps.filter fun p => !pathEnds t p) &&
      t.all fun e => !e.2.head.safe || distanceOk t true (e.1, [])

/-! ## The checks in order (R72) -/

/-- A code object taken apart. -/
structure Obj where
  width : Nat
  headers : List (List Byte)
  text : List Byte
  seq : List Byte
  data : List Byte
  lives : List Byte
  maps : List Byte
  rings : List Byte
  deriving DecidableEq, Repr

/-- Pieces of 256 bytes. -/
def pieces256 : Nat → List Byte → List (List Byte)
  | 0, _ => []
  | n + 1, b => b.take 256 :: pieces256 n (b.drop 256)

/-- The parts of an object. -/
def objOf (d : List Byte) (ss : List Section) : Obj :=
  let h := sectionOf ss 1
  { width := num d 8 4, headers := pieces256 (h.length / 256) h, text := sectionOf ss 2, seq := sectionOf ss 3,
    data := sectionOf ss 4, lives := sectionOf ss 5, maps := sectionOf ss 6, rings := sectionOf ss 7 }

/-- The map of a node. -/
def mapFor (ms : List TileMap) (i : Nat) : Option TileMap := ms.find? fun m => m.node == i

/-- The group bindings of a map: handle, group slot, register. -/
def bindings (m : Option TileMap) : List (Nat × Nat × Nat) :=
  match m with
  | none => []
  | some x => x.entries.filterMap fun e => match tileEntry e with
      | (h, some (k, v)) => some (h, k, v)
      | _ => none

/-- The first failing check of an object whose nodes stand as placed; 0 when all pass. -/
def objCode (o : Obj) (h1 : List Byte) (nodes : List Node) (ms : Option (List TileMap)) : Nat :=
  let maps := ms.getD []
  let bound (i : Nat) : List (Nat × Nat × Nat) := bindings (mapFor maps i)
  let ix := List.zip (List.range nodes.length) nodes
  if h1.length % 256 != 0 || o.text.length % 4 != 0 || o.seq.length % 4 != 0 || ms.isNone || !livesOk o.lives ||
     !ringsFit o.rings || (o.width == 0) != o.seq.isEmpty ||
     maps.any (fun m => decide (nodes.length ≤ m.node) || m.entries.any fun e => !tileEntryOk e) ||
     (maps.map (·.node)).length != (dedupN (maps.map (·.node))).length then 1
  else
    match laneText 0 (wordsIn o.text), seqText (o.seq.length / 4) 0 (wordsIn o.seq) with
    | some lt, some st =>
      if nodes.any fun n => [8, 16, 32, 64].contains n.width && lt.any fun e => illegalFor n e.2 then 2
      else if ix.any (fun e => lt.any (fun x => !budgetFits e.2 x.2 || (usesLink x.2 && !e.2.hasLink)) ||
          ((mapFor maps e.1).map (·.entries) |>.getD []).any (fun w => decide (e.2.tiles ≤ (tileEntry w).1)) ||
          (bound e.1).any fun b => b.2.2 % (64 / e.2.width) != 0 || decide (e.2.vregs ≤ b.2.2)) then 3
      else if ix.any (fun e => !headerOk (o.headers.getD e.1 []) e.2 (bound e.1).length ||
          (ringsOf o.rings).any fun r => !ringOk e.2 r) || st.any (fun e => decide (o.width < e.2.cols.length)) then 4
      else if lt.any (fun e => match laneBranch e.1 e.2 with
            | some (_, some a) => (textAt lt a).isNone
            | some (_, none) => true
            | none => false) ||
          st.any (fun e => (e.2.head.safe && decide (livesCount o.lives ≤ e.2.head.liveix.toNat)) ||
            (sSlots e.2).any fun i => match slotBranch e.1 i with
              | some (some a) => (textAt st a).isNone
              | some none => true
              | none => false) ||
          ix.any (fun e => (textAt lt (num (o.headers.getD e.1 []) 8 8)).isNone ||
            (e.2.facetw != 0 && (textAt st (num (o.headers.getD e.1 []) 16 8)).isNone) ||
            (bound e.1).any fun b => decide (e.2.groups ≤ b.2.1)) then 5
      else if !graphOk st || ix.any (fun e => e.2.facetw != 0 && !safeOk st (num (o.headers.getD e.1 []) 16 8)) then 6
      else if lt.any (fun e => !regionOk lt e) then 7
      else 0
    | _, _ => 2

/-! ## Registration (R72, R311, R430) -/

/-- A field written into a header. -/
def putNum (b : List Byte) (i n v : Nat) : List Byte := b.take i ++ leBytes n v ++ b.drop (i + n)

/-- A header with the fields that the loader fills. -/
def fillHeader (b : List Byte) (n : Node) : List Byte :=
  putNum (putNum (putNum (putNum (putNum (putNum b 8 8 n.code) 16 8 n.seqcode) 30 1 n.facetw) 64 8 n.tmap) 72 8 n.rings)
    80 8 n.lives

/-- Write parts of an object, each where it is placed; `none` where a place is not writable normal memory. -/
def State.placeAll (s : State) (fn : Nat) : List (Nat × List Byte) → Option State
  | [] => some s
  | (a, b) :: t => if b.isEmpty then s.placeAll fn t else (s.writeSpace fn a b).bind fun u => u.placeAll fn t

/-- LOADER_REGISTER: the loader checks an object and, when every check passes, places its sections and headers and
registers its nodes; the answer is the first failing check's code, or 0. The addresses are the loader's choice: where
they are not aligned or not writable, nothing is placed. The copies of sections 6, 7 and 5 follow the headers. That the
chosen places lie apart is the loader's own care: parts that overlap are written one after another (DESIGN CHOICE, log 146).
The loader runs in hub firmware, which runs at BOOTST 0x80 (20 R418). -/
def execLoaderRegister (fn : Nat) (obj : List Byte) (text seq data hdr : Nat) (s : State) : Out :=
  if s.bootst != 0x80 then .next s else
  match sectionsOf obj with
  | none => .next (s.reply fn 1 [])
  | some ss =>
    let o := objOf obj ss
    let ms := tileMapsOf o.maps
    let a6 := hdr + 256 * o.headers.length
    let a7 := roundUp (a6 + o.maps.length) 64
    let a5 := roundUp (a7 + o.rings.length) 64
    let place (i : Nat) (b : List Byte) : Node :=
      nodeAt b (hdr + 256 * i) text seq o.width
        (match mapFor (ms.getD []) i with
          | some m => a6 + m.at_
          | none => 0)
        (if o.rings.isEmpty then 0 else a7) (if o.lives.isEmpty then 0 else a5)
    let nodes := (List.zip (List.range o.headers.length) o.headers).map fun e => place e.1 e.2
    let c := objCode o (sectionOf ss 1) nodes ms
    if c != 0 then .next (s.reply fn c [])
    else if text % 4 != 0 || seq % 4 != 0 || hdr % 256 != 0 then .next s
    else
      match s.placeAll fn ([(text, o.text), (seq, o.seq), (data, o.data), (a6, o.maps), (a7, o.rings), (a5, o.lives)] ++
          (List.zip o.headers nodes).map fun e => (e.2.addr, fillHeader e.1 e.2)) with
      | none => .next s
      | some t =>
        .next (({ t with nodes := t.nodes.filter (fun e => !nodes.any fun n => e.1 == fn && n.addr == e.2.addr) ++
                           nodes.map fun n => (fn, n) } : State).reply fn 0 [])

end Sys2Proof.Machine
end

