-- ==== Sys2Proof/Machine/System.lean ====
section
/-!
DEFINITION. Machine/System.lean: MFS, MTS, CTXSV and CTXLD (spec/03_lane_state.md R78-R80, R85; 13 R289-R292).
-/

set_option linter.constructorNameAsVariable false

namespace Sys2Proof.Machine

/-! ## The work identifier (03 R85) -/

/-- Fields concatenated, the first lowest. -/
def concatFields : List Nat → List Nat → Nat
  | w :: ws, v :: vs => v % 2 ^ w + 2 ^ w * concatFields ws vs
  | _, _ => 0

/-- The work identifier of lane l of group g. -/
def Block.workId (b : Block) (g l : Nat) : Nat := concatFields b.node.wid ([l, g] ++ b.coords)

/-! ## MFS and MTS (03 R78-R80) -/

/-- EJT, JTO and ACCOWN as the executing unit reads them: an ejected lane has its own EJT and JTO (14 R300). -/
def State.rwSpecial (s : State) (n : SpecReg) : Word :=
  match n with
  | .ejt => match s.focus with
    | .comet c => (s.ctx c).ejt
    | _ => (s.grp s.unitBlk s.unitGrp).ejt
  | .jto => match s.focus with
    | .comet c => (s.ctx c).jto
    | _ => (s.grp s.unitBlk s.unitGrp).jto
  | _ => (s.facet (s.blk s.unitBlk).facet).accown

/-- The value of a special register for lane l (R78); CLK is read apart. -/
def State.special (s : State) (n : SpecReg) (l : Nat) : Word :=
  let b := s.blk s.unitBlk
  match n with
  | .laneix => BitVec.ofNat 32 l
  | .widlo => BitVec.ofNat 32 (b.workId s.unitGrp l)
  | .widhi => BitVec.ofNat 32 (b.workId s.unitGrp l / 2 ^ 32)
  | .gwidth => BitVec.ofNat 32 b.width
  | .splitix => BitVec.ofNat 32 s.unitSplit
  | .coreix => BitVec.ofNat 32 b.core
  | .clusix => BitVec.ofNat 32 (clusterOfCore b.core)
  | .dieix => BitVec.ofNat 32 b.die
  | .clk => BitVec.ofNat 32 s.now
  | .ejt => s.rwSpecial .ejt
  | .jto => s.rwSpecial .jto
  | .accown => s.rwSpecial .accown

/-- MFS: in unprivileged code a read of ACCOWN traps, whatever the guard (R80). -/
def execMfs (g : Pred) (d : Reg) (n : SpecReg) (s : State) : Out :=
  laneRun (.mfs g d n) g s fun t =>
    if n == .accown && !t.privileged then .next (t.takeTrap 0xA0)
    else if n == .clk then
      .next ((t.putLanes (lanesOf (t.exec g)) fun u l => u.wrVPair d.toNat l (BitVec.ofNat 64 t.now)).skip 4)
    else .next ((vEffect g d (fun u l => u.special n l) t).skip 4)

/-- EJT := Clamp(x, 0, 8), in the group or in an ejected lane's copy. -/
def State.setEjt (s : State) (x : Word) : State :=
  let v := BitVec.ofNat 32 (min x.toNat 8)
  match s.focus with
  | .comet c => s.modCtx c fun y => { y with ejt := v }
  | _ => s.modGrp s.unitBlk s.unitGrp fun y => { y with ejt := v }

/-- JTO := x. -/
def State.setJto (s : State) (x : Word) : State :=
  match s.focus with
  | .comet c => s.modCtx c fun y => { y with jto := x }
  | _ => s.modGrp s.unitBlk s.unitGrp fun y => { y with jto := x }

/-- MTS: once for the group, with the value of the lowest executing lane (R80); ACCOWN is privileged, and on a comet
core always traps (14 R301). -/
def execMts (g : Pred) (a : Reg) (n : SpecReg) (s : State) : Out :=
  laneRun (.mts g a n) g s fun t =>
    if n == .accown && (!t.privileged || t.onComet) then .next (t.takeTrap 0xA0)
    else if t.exec g = 0 then .next (t.skip 4)
    else
      let x := t.rdV a.toNat (lowestLane (t.exec g))
      match n with
      | .ejt => .next ((t.setEjt x).skip 4)
      | .jto => .next ((t.setJto x).skip 4)
      | _ => .next ((t.writeAcc t.unitBlk (t.blk t.unitBlk).facet (x &&& 0x8000FFFF)).skip 4)

/-! ## CTXSV and CTXLD (13 R289-R292) -/

/-- The pages of the bytes of an image at an address, each by its first byte that is meant, ascending. -/
def imagePages (h : Nat) (rs : List (Nat × Nat)) : List Nat :=
  sortN (dedupN (rs.flatMap fun r => (List.range (((h + r.1) % 4096 + r.2 + 4095) / 4096)).map fun i =>
    ((h + r.1) / 4096 + i) * 4096))

/-- The key of an image offset, through the translations of its pages. -/
def imageMap (h : Nat) (hs : List Hit) (off : Nat) : Nat :=
  let va := h + off
  match hs.find? fun x => x.va / 4096 == va / 4096 with
  | some x => x.entry.key va
  | none => 2 ^ 61 + off

/-- The first offset of some bytes of an image whose word is marked poisoned (20 R419). -/
def State.imagePoison (t : State) (f : Nat → Nat) (rs : List (Nat × Nat)) : Option Nat :=
  if t.poison.isEmpty then none
  else (rs.flatMap fun r => (List.range r.2).map (r.1 + ·)).find? fun off => t.poison.contains (f off / 4)

/-- The checks of a lane access on some bytes of an image (07 R156): translation, type N, an answer, and, of a read, no poison. The
pages of it that leave the package are asked for one by one. -/
def State.imageTake (t : State) (wr : Bool) (l h : Nat) (rs : List (Nat × Nat)) : Chk :=
  match t.translatePieces (if wr then .store else .load) wr notNormal ((imagePages h rs).map fun p =>
      { lane := l, ea := BitVec.ofNat 64 (max p h), va := max p h }) with
  | .stop u => .stop u
  | .ok hs =>
    match t.accessStop (outKind wr false) 4096 hs with
    | some u => .stop u
    | none =>
      if wr then .ok hs
      else
        match t.imagePoison (imageMap h hs) rs with
        | some off => .stop (t.trapWith 0x3C (laneBit l) (BitVec.ofNat 64 (h + off)))
        | none => .ok hs

/-- The reads of an image that its acceptance makes, step by step: header, directory, sections; what fails to be an image is no
further read (13 R288). -/
def State.imageRead (t : State) (m : Mask) (h : Nat) : Chk :=
  let l := lowestLane m
  let no : Chk := .stop (t.trapWith 0xA3 m (BitVec.ofNat 64 h))
  match t.imageTake false l h [(0, 64)] with
  | .stop u => .stop u
  | .ok h1 =>
    if !t.imgHeadOk (imageMap h h1) then no
    else
      match t.imageTake false l h [(0, 64 + 16 * t.imgCount (imageMap h h1))] with
      | .stop u => .stop u
      | .ok h2 =>
        if !t.imgDirOk (imageMap h h2) then no
        else t.imageTake false l h (t.imgReads (imageMap h h2))

/-- The bytes of an image that CTXSV writes (R291): header, directory, owned tiles. -/
def State.spillWrites (t : State) (f : Nat → Nat) (fx : Nat) : List (Nat × Nat) :=
  (0, 64 + 16 * t.imgCount f) :: match t.imgOwned f with
    | some (_, e) => [(e.offset, 264 * (t.facet fx).heldTiles.length)]
    | none => []

/-- The translations of accesses are used; those of writes set D. -/
def State.useHits (t : State) (wr : Bool) (hs : List Hit) : State :=
  let p := t.site
  (hs.foldl (fun x y =>
    let z := x.useEntry p y.entry y.l1
    if wr then (z.setDirty y.entry).noteFrame (t.blk t.unitBlk).vf (y.entry.frame y.va) else z) t).clearFaults p.asker

/-- The channel time of the bytes of an image that an instruction reads or writes (20 R409). -/
def State.chargeImage (t : State) (f : Nat → Nat) (rs : List (Nat × Nat)) : State :=
  t.chargeUnit (rs.flatMap fun r => (List.range (ceilDiv r.2 32)).map fun i => (f (r.1 + 32 * i), 32))

/-- The partition tag of a partition: its PTAG register (20 R407). -/
def State.tagOf (s : State) (p : Nat) : Word := (s.part p).ptag

/-- The partition of a context: that of the block that carries it, 31 where none does. -/
def State.partOfCtx (s : State) (ctx : Nat) : Nat :=
  match s.blocks.find? fun e => e.2.ctx == ctx with
  | some e => e.2.part
  | none => 31

/-- The common frame of CTXSV and CTXLD (R290): privilege, the uniform rule, the lanes' earlier accesses (08 R184), alignment and
range, what the instruction tests before it looks at the image, and then the body, with the executing lanes and the image's
address. -/
def ctxRun (i : Instr) (g : Pred) (a : Reg) (s : State) (early : State → Mask → Dword → Option State)
    (body : State → Mask → Dword → State) : Out :=
  laneRun i g s fun t =>
    let m := t.exec g
    let h := t.rdVPair a.toNat (lowestLane m)
    if !t.privileged then .next (t.takeTrap 0xA0)
    else if m = 0 then .next (t.skip 4)
    else if t.anyBusy (lanesOf m) then .next t
    else
      match t.checkGlobal [lowestLane m] 64 (fun _ => h) with
      | some u => .next u
      | none =>
        match early t m h with
        | some u => .next u
        | none => .next (body t m h)

/-- The facet of the executing unit's block. -/
def State.unitFacet (t : State) : Nat := (t.blk t.unitBlk).facet

/-- The image at an address takes the spill of the unit's facet (R291). -/
def State.spillFits (t : State) (f : Nat → Nat) : Bool :=
  t.spillOk f t.unitFacet (t.tagOf (t.partOfCtx (t.facet t.unitFacet).accCtx))

/-- CTXSV on an image (R291). -/
def State.ctxSave (t : State) (m : Mask) (h : Dword) : State :=
  match t.imageRead m h.toNat with
  | .stop u => u
  | .ok hs =>
    let f := imageMap h.toNat hs
    if !t.spillFits f then t.trapWith 0xA3 m h
    else
      match t.imageTake true (lowestLane m) h.toNat (t.spillWrites f t.unitFacet) with
      | .stop u => u
      | .ok ws =>
        let map := imageMap h.toNat (ws ++ hs)
        let rs := t.spillWrites f t.unitFacet
        let u := (((t.useHits false hs).useHits true ws).chargeImage map (t.imgReads f)).chargeImage map rs
        let v := u.spill map u.unitFacet (u.blk u.unitBlk).vf
        ((lanesOf m).foldl (fun x l => x.dropOthers (t.threadOf l) none (cellWords (t.spillCells map t.unitFacet))) v).skip 4

/-- CTXSV: spills the facet's held tiles into the holder's image; with ACCOWN.V = 0 nothing happens. -/
def execCtxsv (g : Pred) (a : Reg) (s : State) : Out :=
  ctxRun (.ctxsv g a) g a s (fun t _ _ => if (t.facet t.unitFacet).accV then none else some (t.skip 4)) State.ctxSave

/-- CTXLD on an image, for the facet's resident sequencer block (R292). -/
def State.ctxLoad (t : State) (b : Nat) (m : Mask) (h : Dword) : State :=
  match t.imageRead m h.toNat with
  | .stop u => u
  | .ok hs =>
    let f := imageMap h.toNat hs
    if t.loadOk f b (t.tagOf (t.blk b).part) then (((t.useHits false hs).chargeImage f (t.imgReads f)).loadBank f b).skip 4
    else t.trapWith 0xA3 m h

/-- CTXLD: loads the accumulator bank of the facet's resident sequencer block from its image. -/
def execCtxld (g : Pred) (a : Reg) (s : State) : Out :=
  ctxRun (.ctxld g a) g a s
    (fun t m h => if (t.facet t.unitFacet).accV || (t.seqBlock t.unitFacet).isNone then some (t.trapWith 0xA3 m h) else none)
    fun t m h => t.ctxLoad ((t.seqBlock t.unitFacet).getD 0) m h

end Sys2Proof.Machine
end

