-- ==== Sys2Proof/Machine/EvQueue.lean ====
section
/-!
DEFINITION. Machine/EvQueue.lean: intake queues, records, batches and the forming of blocks and gangs (spec/15_die_work.md
R313-R318, R323, R324, R327).

A queue is known by the canonical address of its descriptor. The distributor observes records by its own reads; a monitor or
a poll decides only when it does (R316).
-/

set_option linter.constructorNameAsVariable false

namespace Sys2Proof.Machine

/-! ## Registration (R313) -/

/-- The registered node of a function's space at an address. -/
def State.nodeOf (s : State) (vf addr : Nat) : Option Node :=
  (s.nodes.find? fun e => e.1 == vf && e.2.addr == addr).map Prod.snd

/-- A number is a power of two from 1 to 2^20. -/
def capOk (n : Nat) : Bool := (List.range 21).any fun i => n == 2 ^ i

/-- The status of a registration: the first failing check, 0 for none. `d`: the descriptor. -/
def State.queueStatus (s : State) (vf q : Nat) (normal : Bool) (d : List Byte) (key : Nat) : Nat :=
  if num d 0 4 != 0x51544E49 then 1
  else if !capOk (num d 4 4) then 2
  else if num d 40 8 % 64 != 0 then 3
  else if q % 128 != 0 || !normal then 4
  else
    match s.nodeOf vf (num d 8 8) with
    | none => 5
    | some n =>
      if num d 52 4 != n.part || num d 52 4 != (s.tagOf (s.vf vf).part).toNat then 6
      else if num d 16 24 != 0 || num d 56 24 != 0 then 7
      else if s.queues.has key then 8
      else 0

/-! ## Records (R314, R316) -/

/-- Write a field of a queue's descriptor, by the distributor. -/
def State.putQueue (s : State) (q : Queue) (off v : Nat) : State := s.commit (cellsAt (q.key + off) (leBytes 8 v)) none q.vf

/-- The distributor that watches a queue: that of the lowest die in the node's DIEMASK (R316). -/
def Queue.watcher (q : Queue) : Nat := ((List.range 4).find? fun d => bit q.node.diemask d).getD 0

/-- The monitors of a memory die that the distributors use: those of queues, and one for each block that is out and waits at a
die barrier there (18 R379). -/
def State.distUse (s : State) (die : Nat) : Nat :=
  ((s.queues.flatMap fun e => e.2.watches.filter fun w => w.die == die).length) +
  ((s.dbars.filter fun e => homeDie e.1 == die).flatMap fun e => e.2.groups.filter fun g =>
    (s.blk (g.1 / 64)).phase == .swapped && (g.2.arrived || g.2.sync != 0)).length

/-- A watch on a word of a queue: one of the die's 256 monitors for distributors, or a poll (R316, 18 R379). -/
def State.newWatch (s : State) (q : Queue) (key : Nat) (c : WCmp) (v : Nat) : QWatch :=
  { watcher := q.watcher, die := homeDie key, key := key, cmp := c, value := v,
    poll := !(isDevice key && decide (s.distUse (homeDie key) < 256)), fired := false, armed := s.now }

/-- The index of the record that a queue's distributor waits for. -/
def Queue.nextIx (q : Queue) : Nat := q.cons + q.pending

/-- The address of the slot of record i. -/
def Queue.slotAddr (q : Queue) (i : Nat) : Nat := q.recs + 64 * (i % q.cap)

/-- The 64 bytes of the slot of record i, through the queue's virtual function; `none` where it is not mapped. -/
def State.recordBytes (s : State) (q : Queue) (i : Nat) : Option (List Byte) := s.readSpace q.vf (q.slotAddr i) 64

/-- The key of the stamp of record i. -/
def State.stampKey (s : State) (q : Queue) (i : Nat) : Option Nat :=
  (s.spaceMap q.vf false (q.slotAddr i) 64).map fun ms => keyIn ms (q.slotAddr i)

/-- The stamp of record i is there. -/
def State.stamped (s : State) (q : Queue) (i : Nat) : Bool :=
  match s.recordBytes q i with
  | some r => num r 0 8 == i + 1
  | none => false

/-- The home slices keep the lines of the words that monitors of a queue watch (18 R377). -/
def State.keepWatched (s : State) (q : Queue) : State :=
  q.watches.foldl (fun t w => t.touchLine q.vf false true w.key) s

/-- The watches of a queue are armed: on TAIL, and on the stamp of slot CONS while it is not CONS + 1 (R316). Where the next record
is there already, the distributor looks at once. -/
def State.armQueue (s : State) (k : Nat) : State :=
  match s.queues.find k with
  | none => s
  | some q =>
    let t : State := { s with queues := s.queues.set k { q with tailW := none, stampW := none } }
    let here := t.stamped q q.nextIx
    let tail := { t.newWatch q (q.key + 16) .ne (t.mem.read (q.key + 16) 8) with fired := here }
    let u : State := { t with queues := t.queues.set k { q with tailW := some tail, stampW := none } }
    let stamp := if here || q.pending != 0 then none
      else (u.stampKey q q.cons).map fun a => u.newWatch q a .eq (q.cons + 1)
    let r := { q with tailW := some tail, stampW := stamp }
    ({ u with queues := u.queues.set k r } : State).keepWatched r

/-- REGISTER_QUEUE: PF0, or a virtual function for itself, registers the queue whose descriptor stands at an address of the
function's space. -/
def execRegisterQueue (fn q vf : Nat) (s : State) : Out :=
  if fn != 0 && fn != vf then .next s
  else
    match s.spaceMap vf true q 128 with
    | none => .next (s.reply fn 4 [])
    | some ms =>
      let d := s.bytesIn ms q 128
      let key := keyIn ms q
      let c := s.queueStatus vf q (allNormal ms) d key
      if c != 0 then .next (s.reply fn c [])
      else
        match s.nodeOf vf (num d 8 8) with
        | none => .next (s.reply fn 5 [])
        | some n =>
          let x : Queue := { addr := q, key := key, vf := vf, node := n, cap := num d 4 4, recs := num d 40 8, ctx := num d 48 2,
                             ptag := BitVec.ofNat 32 (num d 52 4), part := (s.vf vf).part, cons := 0, pending := 0,
                             firstAt := 0, launched := 0, head := 0, freed := [], forming := [] }
          .next ((({ s with queues := s.queues.set key x } : State).armQueue key).reply fn 0 [])

/-- The clocks at which a poll of a queue, or the look that a fired monitor brings at the latest, is due (R316). -/
def QWatch.due (w : QWatch) (now : Nat) : Bool := decide (w.armed < now) && (now - w.armed) % 2048 == 0

/-- The watches of a queue, monitors and polls. -/
def Queue.looks (q : Queue) : List QWatch := q.tailW.toList ++ q.stampW.toList

/-- The words of a queue that its distributor reads and writes lie in a page in the final block of a migration (18 R381). -/
def State.queueHeld (s : State) (q : Queue) : Bool :=
  s.pageHeld q.key || match s.stampKey q q.nextIx with
    | some a => s.pageHeld a
    | none => false

/-- The distributor looks at a queue's next record now: once a monitor of it has fired, and every 2,048 clocks, which is how it
sees what its monitors do not show it (R316; 21 R428). -/
def State.looksAt (s : State) (q : Queue) : Bool :=
  !s.queueHeld q && (q.looks.isEmpty || q.looks.any fun w => w.fired || w.due s.now)

/-! ## Blocks (R317, R323, R324) -/

/-- The widths of the block-level fields of the work identifier. -/
def Node.coordWidths (n : Node) : List Nat := (n.wid.drop 2).take 4

/-- A number split into fields, the first lowest. -/
def splitFields : List Nat → Nat → List Nat
  | [], _ => []
  | w :: ws, c => c % 2 ^ w :: splitFields ws (c / 2 ^ w)

/-- The block coordinates (R323): COORD of the batch's first record with CS = 1, else the sequence number. -/
def coordsOf (n : Node) (first : List Byte) (seqNo : Nat) : List Nat :=
  splitFields n.coordWidths (if bit (num first 16 4) 0 then num first 8 8 else seqNo)

/-- The value that places a block (R324): its lowest present block-level field, or its sequence number. -/
def placeValue (n : Node) (coords : List Nat) (seqNo : Nat) : Nat :=
  match (List.zip n.coordWidths coords).find? fun e => e.1 != 0 with
  | some e => e.2
  | none => seqNo

/-- The value that places a formed block. -/
def Block.place (b : Block) : Nat := placeValue b.node b.coords b.seqNo
/-- The die of a block, binding (R324). -/
def Block.placeDie (b : Block) : Nat :=
  let ds := diesOf b.node.diemask
  ds.getD (b.place % ds.length) 0
/-- The preferred cluster within its pair (R324). -/
def Block.placeU (b : Block) : Nat := b.place / (diesOf b.node.diemask).length % 12
/-- The preferred core on the die (R324). -/
def Block.placeCore (b : Block) : Nat := 8 * b.placeU + b.place / (12 * (diesOf b.node.diemask).length) % 8

/-- The words of a table of the node's code object, a count word first; empty where it is not mapped. -/
def State.tableWords (s : State) (vf addr per : Nat) : List Nat :=
  if addr = 0 then []
  else
    match s.readSpace vf addr 4 with
    | none => []
    | some c =>
      let k := num c 0 4 * per
      match s.readSpace vf (addr + 4) (4 * k) with
      | none => []
      | some d => (List.range k).map fun i => num d (4 * i) 4

/-- The pages of such a table are used. -/
def State.markTable (s : State) (vf addr per : Nat) : State :=
  if addr = 0 then s
  else
    match s.readSpace vf addr 4 with
    | none => s
    | some c => s.markSpace vf addr (4 + 4 * (num c 0 4 * per))

/-- The tiles that the tile map of a node binds: handle, group slot, register (02 R430). -/
def State.mapOf (s : State) (vf : Nat) (n : Node) : List (Nat × Nat × Nat) :=
  (s.tableWords vf n.tmap 1).filterMap fun e => match tileEntry e with
    | (h, some (k, v)) => some (h, k, v)
    | _ => none

/-- The rings of a node at launch: every slot free (09 R210). Of two declarations of one ring number in a code object the later one
counts: no rule forbids them or says which applies (DESIGN CHOICE, log 162). -/
def State.ringsAt (s : State) (vf : Nat) (n : Node) : Table Ring :=
  let ws := s.tableWords vf n.rings 4
  (List.range (ws.length / 4)).foldl (fun t i =>
    Table.set t (ws.getD (4 * i) 0) { (default : Ring) with
      slots := ws.getD (4 * i + 1) 0, size := ws.getD (4 * i + 2) 0, offset := ws.getD (4 * i + 3) 0,
      free := ws.getD (4 * i + 1) 0 }) []

/-- A block formed from `n` records of a queue (R317). Of two lines of its tile map for one handle the last that binds it to a group
register counts (DESIGN CHOICE, log 163). Its context area is the distributor's choice: a free value, a
multiple of 4 KiB (13 R277). -/
def State.newBlock (s : State) (q : Queue) (n : Nat) (first : List Byte) : Block :=
  let coords := coordsOf q.node first q.launched
  let b := { Block.empty with node := q.node }
  { b with
    queue := q.key, records := (List.range n).map (q.cons + ·), seqNo := q.launched, coords := coords, ctx := q.ctx,
    ptag := q.ptag, part := q.part, vf := q.vf, ctxArea := 4096 * Config.freeNat s.freeCtr, formedAt := s.now,
    waitingSince := s.now,
    bound := (s.mapOf q.vf q.node).foldl (fun t e => Table.set t e.1 (b.groupTile e.2.1 e.2.2)) [],
    rings := s.ringsAt q.vf q.node }

/-- The gang that a complete list of blocks forms (R327): a block cluster where the die mask names one pair. -/
def State.formGang (s : State) (n : Node) (bs : List Nat) : State :=
  let id := s.nextId
  let g : Gang := { members := bs, cluster := pairMask n.diemask, bars := [] }
  bs.foldl (fun t b => t.modBlk b fun x => { x with gang := some id })
    { s with gangs := s.gangs.set id g, nextId := id + 1 }

/-- Close the open batch of a queue and form its block, and its gang when it completes one (R317, R327). -/
def State.formBlock (s : State) (q : Queue) : State :=
  if q.pending = 0 then s
  else
    let b := s.nextId
    let x := s.newBlock q q.pending ((s.recordBytes q q.cons).getD [])
    let full := q.node.gangn != 0 && decide (q.node.gangn ≤ q.forming.length + 1)
    let q1 := { q with cons := q.cons + q.pending, pending := 0, launched := q.launched + 1,
                       forming := if q.node.gangn = 0 || full then [] else q.forming ++ [b] }
    let s1 : State := { s with blocks := s.blocks.set b x, nextId := b + 1, freeCtr := s.freeCtr + 1,
                               queues := s.queues.set q.key q1 }
    let s2 := (((s1.markTable q.vf q.node.tmap 1).markTable q.vf q.node.rings 4).putQueue q1 24 q1.cons).putQueue q1 64 q1.launched
    if full then s2.formGang q.node (q.forming ++ [b]) else s2

/-- TIMEOUT clocks have passed since the first record of a queue's batch became pending (R317). -/
def State.batchDue (s : State) (q : Queue) : Bool :=
  q.pending != 0 && q.node.timeout != 0 && decide (q.firstAt + q.node.timeout ≤ s.now)

/-- STAMP_OBSERVED: the next record of a queue bears its stamp: it is pending, and may close the batch (R316, R317). A batch
whose TIMEOUT is over takes no more records. -/
def execStampObserved (q : Nat) (s : State) : Out :=
  match s.queues.find q with
  | none => .next s
  | some x =>
    let i := x.nextIx
    if !s.looksAt x || s.batchDue x then .next s
    else
      match s.recordBytes x i with
      | none => .next s
      | some r =>
        if num r 0 8 != i + 1 then .next (s.armQueue q)
        else
          let y := { x with pending := x.pending + 1, firstAt := if x.pending = 0 then s.now else x.firstAt }
          let t : State := { s.markSpace x.vf (x.slotAddr i) 64 with queues := s.queues.set q y }
          let close := y.pending == y.node.coalesce || bit (num r 16 4) 1 || i % y.cap == y.cap - 1
          .next ((if close then t.formBlock y else t).armQueue q)

/-- BATCH_TIMEOUT: TIMEOUT clocks have passed since the batch's first record became pending (R317). -/
def execBatchTimeout (q : Nat) (s : State) : Out :=
  match s.queues.find q with
  | none => .next s
  | some x => if s.batchDue x && !s.queueHeld x then .next ((s.formBlock x).armQueue q) else .next s

/-- The looks of a distributor that are due at a queue: every record that is there is taken in index order; `n` bounds them. -/
def State.lookAll (s : State) (k : Nat) : Nat → State
  | 0 => s
  | n + 1 =>
    match s.queues.find k with
    | none => s
    | some q =>
      if !s.stamped q q.nextIx then s
      else
        match execStampObserved k s with
        | .next t => t.lookAll k n
        | _ => s

/-- The distributors' timed acts on a queue in a clock: the batch's timeout, and the look that is due (R316, R317). -/
def State.queueClock (s : State) (k : Nat) : State :=
  let t := match execBatchTimeout k s with
    | .next t => t
    | _ => s
  match t.queues.find k with
  | none => t
  | some q =>
    if t.queueHeld q || !(q.looks.any fun w => w.due t.now) then t
    else
      let u := t.lookAll k q.cap
      match u.queues.find k with
      | some r => if r.looks == q.looks then u.armQueue k else u
      | none => u

/-! ## The end of a block's records (R318, R319) -/

/-- Advance past the runs of freed slots that follow HEAD, at most `n` of them. -/
def Queue.advance (q : Queue) : Nat → Queue
  | 0 => q
  | n + 1 =>
    match q.freed.find? fun e => e.1 == q.head with
    | some e => ({ q with head := q.head + e.2, freed := q.freed.filter fun r => r.1 != e.1 } : Queue).advance n
    | none => q

/-- The slots of a block are freed, and HEAD advances (R318); `off` is the counter that rises first: ENDED, or ABORTS and
then ENDED (R319, R331). -/
def State.freeRecords (s : State) (x : Block) (aborted : Bool) : State :=
  match s.queues.find x.queue with
  | none => s
  | some q =>
    let bump (t : State) (off : Nat) : State := t.putQueue q off (t.mem.read (q.key + off) 8 + 1)
    let s1 := if aborted then bump s 72 else s
    let s2 := bump s1 56
    let q1 := { q with freed := (x.records.headD q.head, x.records.length) :: q.freed }
    let q2 := q1.advance q1.freed.length
    let s3 : State := { s2 with queues := s2.queues.set q.key q2 }
    if q2.head = q.head then s3 else s3.putQueue q2 32 q2.head

end Sys2Proof.Machine
end

