-- ==== Sys2Proof/Machine/SeqMem.lean ====
section
/-!
DEFINITION. Machine/SeqMem.lean: the M slot: TLD, TST, ZBIND, ZSET, ZSKIP (spec/11_sequencer_ops.md R259-R263).
-/

set_option linter.constructorNameAsVariable false

namespace Sys2Proof.Machine

/-! ## TLD and TST (R259, R260) -/

/-- Where tile j of a range at engine address a lies. -/
def State.tileLoc (s : State) (wr : Bool) (a j : Nat) : Loc := s.engLoc s.site wr (a + 256 * j) 256

/-- The read-only cache of a site holds the words of a tile. -/
def State.roHolds (s : State) (p : Site) (key : Nat) : Bool :=
  (wordsOf key 256).all fun w => (s.copies.getD (s.siteRo p) []).has w

/-- The least clocks of a TLD and of a TST at a resolved address (16 R337; 14 R296; 21 R426). -/
def State.tileClocks (s : State) (x : Loc) : Nat × Nat :=
  match x with
  | .glob e l1 va _ =>
    if e.roServed && s.roHolds s.site (e.key va) then (if l1 then 24 else 32, 0)
    else if isDevice (e.key va) then (loadClocks s.site.die (e.key va) l1 false, storeClocks s.site.die (e.key va))
    else if isRemote (e.key va) then (remoteClocks false (e.key va), remoteClocks true (e.key va)) else (0, 0)
  | .shared home _ => s.sharedClocks home
  | _ => (0, 0)

/-- A resolved address lies in a read-only page that the read-only cache serves. -/
def Loc.isRo : Loc → Bool
  | .glob e _ _ _ => e.roServed
  | _ => false

/-- The transfer of a TLD or TST: the tiles with the keys of their bytes. -/
def State.startXfer (s : State) (b : Nat) (wr : Bool) (h n a : Nat) : State :=
  let ls := (List.range n).map fun j => s.tileLoc wr a j
  let x : TileXfer :=
    { store := wr, tiles := (List.range n).map fun j => ((s.blk b).handleTile (h + j), (ls.getD j (.wait 0)).key),
      addr := a, count := n, notBefore := s.now + ls.foldl (fun m y => max m (s.tileClocks y).1) 1,
      ro := (ls.filter Loc.isRo).map Loc.key }
  let t := ls.foldl (fun (u : State) y => u.useLoc u.site y wr) s
  ({ t with nextId := t.nextId + 1 } : State).modSeq b fun q => { q with xfers := q.xfers.set t.nextId x }

/-- TLD: the tiles are filled by a step of their own. -/
def execTld (c : Col) (g : Pred) (h : Handle) (x : XReg) (n : BitVec 3) (s : State) : Out :=
  slotRun (.tld c g h x n) c g s fun k t =>
    t.startXfer k false h.toNat (n.toNat + 1) ((t.seq k).rdXPair c.toNat x.toNat).toNat

/-- The store of one tile of a TST, its words as they stand. -/
def State.tileStore (s : State) (b h : Nat) (y : Loc) : State :=
  let bs := (List.range 64).flatMap fun n => leBytes 4 ((s.blk b).tileWord ((s.blk b).handleTile h) n).toNat
  s.addStore
    { thread := .seqr b, blk := b, cache := (s.blk b).core, cells := cellsAt y.key bs,
      shared := match y with
        | .shared home _ => some home
        | _ => none,
      stash := none, mt := .n, after := 0, notBefore := s.now + (s.tileClocks y).2, performed := false, host := false,
      vf := (s.blk b).vf,
      frame := match y with
        | .glob e _ va _ => some (e.frame va)
        | _ => none,
      ea := match y with
        | .glob _ _ va _ => BitVec.ofNat 64 va
        | _ => 0 }

/-- TST: the stores go out with the tiles' words as at issue. -/
def execTst (c : Col) (g : Pred) (h : Handle) (x : XReg) (n : BitVec 3) (s : State) : Out :=
  slotRun (.tst c g h x n) c g s fun k t =>
    let a := ((t.seq k).rdXPair c.toNat x.toNat).toNat
    let u := t.startXfer k true h.toNat (n.toNat + 1) a
    (List.range (n.toNat + 1)).foldl (fun (u : State) j => u.tileStore k (h.toNat + j) (t.tileLoc true a j)) u

/-! ## Ports (R261-R263) -/

/-- ZBIND: the old binding's slot is returned and what it read is discarded; the port is bound at its start. -/
def execZbind (c : Col) (g : Pred) (z : BitVec 3) (x : XReg) (s : State) : Out :=
  slotRun (.zbind c g z x) c g s fun k t =>
    t.bindPort k c.toNat z.toNat (t.descAt k ((t.seq k).rdX c.toNat x.toNat).toNat)

/-- ZSET. -/
def execZset (c : Col) (g : Pred) (z : BitVec 3) (x : XReg) (f : BitVec 4) (s : State) : Out :=
  slotRun (.zset c g z x f) c g s fun k t =>
    t.setField k c.toNat z.toNat f.toNat ((t.seq k).rdX c.toNat x.toNat)

/-- ZSKIP. -/
def execZskip (c : Col) (g : Pred) (z : BitVec 3) (x : XReg) (s : State) : Out :=
  slotRun (.zskip c g z x) c g s fun k t =>
    t.skipElems k c.toNat z.toNat ((t.seq k).rdX c.toNat x.toNat).toNat

end Sys2Proof.Machine
end

