-- ==== Sys2Proof/Machine/SeqTensor.lean ====
section
/-!
DEFINITION. Machine/SeqTensor.lean: the T slot: TMMA, TZERO and TCVT (spec/11_sequencer_ops.md R249-R255; 01 R39).
-/

set_option linter.constructorNameAsVariable false

namespace Sys2Proof.Machine

/-! ## Operand layouts (R249, R250) -/

/-- The formats of TMMA's operands: bits of an element and elements k of a tile row. -/
inductive MmaTy
  | f (fmt : FFmt)
  | qf4
  deriving DecidableEq, Repr

/-- Bits of an element. -/
def MmaTy.width : MmaTy → Nat
  | .f x => x.width
  | .qf4 => 4

/-- Elements of a row of a tile: 8 words of 32 bits. -/
def MmaTy.ks (t : MmaTy) : Nat := 256 / t.width

/-- Element k of row (or column) r of an operand tile. -/
def MmaTy.code (t : MmaTy) (tile : Nat → Word) (r k : Nat) : Nat :=
  let per := 32 / t.width
  (tile (8 * r + k / per)).toNat / 2 ^ (t.width * (k % per)) % 2 ^ t.width

/-- The value of an element; `scale` is the scale byte of a QF4 block by row and block. -/
def MmaTy.val (t : MmaTy) (tile : Nat → Word) (scale : Nat → Nat → Nat) (r k : Nat) : FVal :=
  match t with
  | .f x => decodeF x (t.code tile r k)
  | .qf4 => qfCodeValue (scale r (k / 32)) (t.code tile r k)

/-! ## One accumulator element (R252, R253) -/

/-- An accumulator word with its indications: overflow, NaN produced. -/
structure MmaAcc where
  word : Word
  ovf : Bool
  nan : Bool

/-- Add one chunk of products. -/
def MmaAcc.chunk (x : MmaAcc) (ps : List (FVal × FVal)) : MmaAcc :=
  let ts := ps.map fun p => p.1.mul p.2
  let c := decodeF fFP32 x.word.toNat
  let w := chunkWord x.word ts
  let v := decodeF fFP32 w.toNat
  let terms := c :: ts
  { word := w,
    ovf := x.ovf || (v.isInf && !terms.any FVal.isInf),
    nan := x.nan || (v.isNan && !c.isNan && !ps.any fun p => p.1.isNan || p.2.isNan) }

/-- Split a list in chunks of n. -/
def chunksOf {α : Type} (n : Nat) : Nat → List α → List (List α)
  | 0, _ => []
  | k + 1, l => if l.isEmpty then [] else l.take n :: chunksOf n k (l.drop n)

/-- Row r of A times column c of B, added to an accumulator word in chunks of 16 products (R39; 8 for FP32). -/
def mmaElem (acc : Word) (a b : List FVal) : MmaAcc :=
  (chunksOf 16 4 (List.zip a b)).foldl MmaAcc.chunk { word := acc, ovf := false, nan := false }

/-! ## TMMA -/

/-- The rows of an operand tile: 8 rows of its elements. -/
def tileRows (ty : MmaTy) (tile : Nat → Word) (scale : Nat → Nat → Nat) : List (List FVal) :=
  (List.range 8).map fun r => (List.range ty.ks).map fun k => ty.val tile scale r k

/-- The product of an A and a B tile added to an accumulator tile: 64 words with their indications. -/
def mmaTile (acc : Nat → Word) (as bs : List (List FVal)) : List MmaAcc :=
  (List.range 64).map fun n => mmaElem (acc n) (as.getD (n / 8) []) (bs.getD (n % 8) [])

/-- Scale byte of tile i of an operand, row r, block h: byte 16 i + 2 r + h of the scale tile (R250). -/
def scaleByte (tile : Nat → Word) (i r h : Nat) : Nat :=
  let n := 16 * i + 2 * r + h
  (tile (n / 4)).toNat / 2 ^ (8 * (n % 4)) % 256

/-- The scale bytes of all tiles of an operand. -/
def operandScales (tile : Nat → Word) (side : Nat) : List Nat :=
  (List.range (16 * side)).map fun n => (tile (n / 4)).toNat / 2 ^ (8 * (n % 4)) % 256

/-- The words of the tile that a handle names. -/
def State.handleWord (s : State) (b h n : Nat) : Word := (s.blk b).tileWord ((s.blk b).handleTile h) n

/-- The statistics record of a slot, appended when it reports something (10 R238). The rule gives the order of the records,
which is that of issue, and not the clock: a record enters the queue when its slot issues (DESIGN CHOICE, log 128). -/
def State.seqStat (s : State) (b c : Nat) (rep : Report) (fdiv : Bool) (elem fmt : Nat) : State :=
  if s.sten b && (rep.ovf || rep.nan || fdiv || rep.clip != 0) then
    s.appendStat (s.blk b).facet (statRec (s.seq b).pc 0 true rep fdiv elem fmt c)
  else s

/-- TMMA (R252): every accumulator tile is written at the latency of the shape. -/
def tmmaRun (i : Instr) (ty : MmaTy) (c : Col) (g : Pred) (h : Handle) (a b : BitVec 6) (sh : Shape) (s : State) : Out :=
  slotRun i c g s fun k t =>
    let side := shapeSide sh
    let sc := (t.seq k).scaleTiles c.toNat
    let sa := t.handleWord k (sc.getD 0 0)
    let sb := t.handleWord k (sc.getD 1 0)
    let rows := fun (base : Nat) (st : Nat → Word) (j : Nat) =>
      tileRows ty (t.handleWord k (base + j)) fun r x => scaleByte st j r x
    let as := (List.range side).map (rows (4 * a.toNat) sa)
    let bs := (List.range side).map (rows (4 * b.toNat) sb)
    let res := (List.range (side * side)).map fun n =>
      (h.toNat + n, mmaTile (t.handleWord k (h.toNat + n)) (as.getD (n / side) []) (bs.getD (n % side) []))
    let all := res.flatMap Prod.snd
    let fdiv := ty == .qf4 && (divergent .qf4 (operandScales sa side) || divergent .qf4 (operandScales sb side))
    let u := (t.occupy k c.toNat i).count (t.blk k).core 2 (side * side * ty.ks / 8)
    let w := res.foldl (fun (u : State) e =>
      u.seqOp k (.tile ((t.blk k).handleTile e.1)) (List.zip (List.range 64) (e.2.map (·.word))) (slotTiming i).1) u
    w.seqStat k c.toNat { clip := 0, ovf := all.any (·.ovf), nan := all.any (·.nan) } fdiv (64 * side * side) 0

/-- TMMA.BF16. -/
def execTmmaBf16 (c : Col) (g : Pred) (h : Handle) (a b : BitVec 6) (sh : Shape) (s : State) : Out :=
  tmmaRun (.tmmaBf16 c g h a b sh) (.f fBF16) c g h a b sh s
/-- TMMA.F16. -/
def execTmmaF16 (c : Col) (g : Pred) (h : Handle) (a b : BitVec 6) (sh : Shape) (s : State) : Out :=
  tmmaRun (.tmmaF16 c g h a b sh) (.f fFP16) c g h a b sh s
/-- TMMA.E4M3. -/
def execTmmaE4M3 (c : Col) (g : Pred) (h : Handle) (a b : BitVec 6) (sh : Shape) (s : State) : Out :=
  tmmaRun (.tmmaE4M3 c g h a b sh) (.f fE4M3) c g h a b sh s
/-- TMMA.E5M2. -/
def execTmmaE5M2 (c : Col) (g : Pred) (h : Handle) (a b : BitVec 6) (sh : Shape) (s : State) : Out :=
  tmmaRun (.tmmaE5M2 c g h a b sh) (.f fE5M2) c g h a b sh s
/-- TMMA.QF4. -/
def execTmmaQf4 (c : Col) (g : Pred) (h : Handle) (a b : BitVec 6) (sh : Shape) (s : State) : Out :=
  tmmaRun (.tmmaQf4 c g h a b sh) .qf4 c g h a b sh s
/-- TMMA.F32. -/
def execTmmaF32 (c : Col) (g : Pred) (h : Handle) (a b : BitVec 6) (sh : Shape) (s : State) : Out :=
  tmmaRun (.tmmaF32 c g h a b sh) (.f fFP32) c g h a b sh s

/-! ## TZERO and TCVT (R254, R255) -/

/-- TZERO: every tile of the range becomes +0. -/
def execTzero (c : Col) (g : Pred) (h : Handle) (n : BitVec 4) (s : State) : Out :=
  slotRun (.tzero c g h n) c g s fun k t =>
    (handleRange h.toNat (n.toNat + 1)).foldl (fun (u : State) x =>
      u.seqOp k (.tile ((t.blk k).handleTile x)) ((List.range 64).map fun j => (j, 0)) (slotTiming (.tzero c g h n)).1)
      (t.occupy k c.toNat (.tzero c g h n))

/-- The words of a tile converted to a narrower format (R255). -/
def narrowWords (f : FFmt) (rs : List Rounded) : List Word :=
  let per := 32 / f.width
  (List.range 64).map fun n =>
    BitVec.ofNat 32 ((((rs.drop (per * n)).take per).map (·.code)).reverse.foldl (fun v x => v * 2 ^ f.width + x) 0)

/-- The words and the report of TCVT (R255). -/
def tcvtWords (f : Fmt) (rz sat : Bool) (xs : List FVal) : List Word × Report :=
  let m : RMode := if rz then .rz else .rna
  if f = .qf4 ∨ isMx f then
    let q := fun ys => if f = .qf4 then qfAuto m ys else mxBlock f m ys
    let b0 := q (xs.take 32)
    let b1 := q (xs.drop 32)
    (blockWords f b0 b1,
     { clip := b0.rep.clip + b1.rep.clip,
       ovf := b0.rep.ovf || b1.rep.ovf || decide (0 < b0.rep.clip + b1.rep.clip), nan := b0.rep.nan || b1.rep.nan })
  else
    let rs := xs.map fun v => encodeF (fmtOf f) m (sat && f != .e4m3) v
    (narrowWords (fmtOf f) rs,
     { clip := (rs.filter (·.sat)).length, ovf := rs.any (·.ovf), nan := rs.any (·.nan) })

/-- TCVT: the FP32 words of the source tile, converted. -/
def execTcvt (c : Col) (g : Pred) (d h : Handle) (f : Fmt) (rz sat : Bool) (s : State) : Out :=
  slotRun (.tcvt c g d h f rz sat) c g s fun k t =>
    let r := tcvtWords f rz sat ((List.range 64).map fun n => decodeF fFP32 (t.handleWord k h.toNat n).toNat)
    ((t.occupy k c.toNat (.tcvt c g d h f rz sat)).seqOp k (.tile ((t.blk k).handleTile d.toNat))
      (List.zip (List.range 64) r.1) 4).seqStat k c.toNat r.2 false 64 (encFmt f).toNat

end Sys2Proof.Machine
end

