-- ==== Sys2Proof/Machine/SeqVector.lean ====
section
/-!
DEFINITION. Machine/SeqVector.lean: the V slot (spec/11_sequencer_ops.md R256-R258; 10 R235).
-/

set_option linter.constructorNameAsVariable false

namespace Sys2Proof.Machine

/-- The words that a V slot's destination gives as first source: its tile's, or the operation's identity for a port, which
for VMAX and VMIN is the other operand (R257). -/
def State.vFirst (s : State) (b : Nat) (v : VFields) (ident : Option Word) (os : List Word) : List Word :=
  if isPort v.od then
    match ident with
    | some w => List.replicate 64 w
    | none => os
  else (List.range 64).map (s.handleWord b v.od.toNat)

/-- What a V operation reports for one word: an infinite result of finite operands overflowed, and a result that is NaN was
produced, as 05 R134 counts it (10 R238). -/
def vReport (ins : List Word) (out : Word) : Report :=
  let xs := ins.map fun w => decodeF fFP32 w.toNat
  let y := decodeF fFP32 out.toNat
  { clip := 0, ovf := y.isInf && !xs.any FVal.isInf && !xs.any FVal.isNan, nan := y.isNan }

/-- The reports of many words together. -/
def joinReports (rs : List Report) : Report :=
  { clip := (rs.map (·.clip)).sum, ovf := rs.any (·.ovf), nan := rs.any (·.nan) }

/-- What a V operation's source reports by itself: the elements that an EXP port's expansion clipped among the words under
the mask, each with an overflow indication (01 R21, R26), and whether their blocks diverge (10 R238, log 128). -/
def State.sourceMarks (s : State) (k : Nat) (c : Col) (v : VFields) (ns : List Nat) : Report × Bool :=
  if isPort v.os then
    let x := ((s.seq k).port c.toNat (portOf v.os)).marks ns
    ({ clip := x.1, ovf := decide (0 < x.1), nan := false }, x.2)
  else (joinReports [], false)

/-- Deliver a V result (R235, R256): to the tile's words under the mask, or as an entry pushed whole, its masked-off and
invalid words 0 and invalid. A port operand is popped. ELEM of the record counts the words under the mask, those of an invalid source
among them (DESIGN CHOICE, log 160). -/
def State.vDeliver (s : State) (k : Nat) (i : Instr) (c : Col) (v : VFields) (os : List (Word × Bool)) (res : List Word)
    (rep : Report) : State :=
  let m := (s.seq k).mask c.toNat v.m.toNat
  let ns := (List.range 64).filter (hasLane m)
  let l := (slotTiming i).1
  let t := if isPort v.od then
      s.push k c.toNat (portOf v.od) ((List.range 64).map fun n =>
        if hasLane m n && (os.getD n (0, false)).2 then (res.getD n 0, true) else (0, false)) l
    else s.seqOp k (.tile ((s.blk k).handleTile v.od.toNat)) (ns.map fun n => (n, res.getD n 0)) l
  let u := if isPort v.os then t.modPort k c.toNat (portOf v.os) Port.pop else t
  let x := s.sourceMarks k c v ns
  u.seqStat k c.toNat (joinReports [rep, x.1]) x.2 ns.length 0

/-- A V operation word by word; `ident` is the first source of a port destination, `fl` tells whether it computes on
floats, and so can report. -/
def vRun (i : Instr) (c : Col) (g : Pred) (v : VFields) (ident : Option Word) (fl : Bool) (f : Word → Word → Word → Word)
    (s : State) : Out :=
  slotRun i c g s fun k t =>
    let os := t.vWords k c.toNat v.os
    let ow := os.map Prod.fst
    let od := t.vFirst k v ident ow
    let x := (t.seq k).rdX c.toNat v.f.toNat
    let m := (t.seq k).mask c.toNat v.m.toNat
    let res := (List.range 64).map fun n => f (od.getD n 0) (ow.getD n 0) x
    let ins := fun n => (if readsOd i then [od.getD n 0] else []) ++ [ow.getD n 0] ++
      match i with
      | .vfma _ _ _ => [x]
      | _ => []
    let rep := joinReports (((List.range 64).filter (hasLane m)).map fun n => vReport (ins n) (res.getD n 0))
    t.vDeliver k i c v os res (if fl then rep else joinReports [])

/-- VADD. -/
def execVadd (c : Col) (g : Pred) (v : VFields) (s : State) : Out :=
  vRun (.vadd c g v) c g v (some 0x80000000) true (fun d o _ => f32add d o) s
/-- VMUL. -/
def execVmul (c : Col) (g : Pred) (v : VFields) (s : State) : Out :=
  vRun (.vmul c g v) c g v (some 0x3F800000) true (fun d o _ => f32mul d o) s
/-- VFMA: os × x(F) + od. -/
def execVfma (c : Col) (g : Pred) (v : VFields) (s : State) : Out :=
  vRun (.vfma c g v) c g v (some 0x80000000) true (fun d o x => f32fma o x d) s
/-- VMAX. -/
def execVmax (c : Col) (g : Pred) (v : VFields) (s : State) : Out :=
  vRun (.vmax c g v) c g v none true (fun d o _ => f32max d o) s
/-- VMIN. -/
def execVmin (c : Col) (g : Pred) (v : VFields) (s : State) : Out :=
  vRun (.vmin c g v) c g v none true (fun d o _ => f32min d o) s

/-- VRELU of a word (R257). -/
def reluWord (o : Word) : Word :=
  match decodeF fFP32 o.toNat with
  | .nan => 0x7FC00000
  | .inf n => if n then 0 else o
  | .fin n m _ => if n || m = 0 then 0 else o

/-- VRELU. -/
def execVrelu (c : Col) (g : Pred) (v : VFields) (s : State) : Out :=
  vRun (.vrelu c g v) c g v (some 0) true (fun _ o _ => reluWord o) s
/-- VSEL: moves bits. -/
def execVsel (c : Col) (g : Pred) (v : VFields) (s : State) : Out :=
  vRun (.vsel c g v) c g v (some 0) false (fun _ o _ => o) s

/-- VSCL of a word: os × 2^Sgn(x), rounded once (R257). The exponent is bounded first: beyond 1,000 either way the result
is the same. -/
def vsclWord (o x : Word) : Word :=
  BitVec.ofNat 32 (arithF fFP32 ((decodeF fFP32 o.toNat).scale (clampI x.toInt (-1000) 1000)))

/-- VSCL. -/
def execVscl (c : Col) (g : Pred) (v : VFields) (s : State) : Out :=
  vRun (.vscl c g v) c g v (some 0) true (fun _ o x => vsclWord o x) s

/-! ## VRED (R258) -/

/-- The operation and identity of a reduction. -/
def vredFn : VRedKind → (Word → Word → Word) × Word
  | .sum => (f32add, 0x80000000)
  | .max => (f32max, 0xFF800000)
  | .min => (f32min, 0x7F800000)

/-- A left fold that starts from the first element (05 R137). -/
def foldFirst (f : Word → Word → Word) (e : Word) : List Word → Word
  | [] => e
  | w :: ws => ws.foldl f w

/-- What the steps of such a fold report together. -/
def foldReport (f : Word → Word → Word) : List Word → Report
  | [] => joinReports []
  | w :: ws => (ws.foldl (fun a x => (f a.1 x, joinReports [a.2, vReport [a.1, x] (f a.1 x)])) (w, joinReports [])).2

/-- VRED: every word of a row under the mask becomes od ⊕ the row's fold. -/
def execVred (c : Col) (g : Pred) (v : VFields) (r : VRedKind) (s : State) : Out :=
  slotRun (.vred c g v r) c g s fun k t =>
    let os := t.vWords k c.toNat v.os
    let ow := os.map Prod.fst
    let od := t.vFirst k v (some (vredFn r).2) ow
    let m := (t.seq k).mask c.toNat v.m.toNat
    let row := fun j => ((List.range 8).map (8 * j + ·)).filter (hasLane m)
    let sr := (List.range 8).map fun j => foldFirst (vredFn r).1 (vredFn r).2 ((row j).map fun n => ow.getD n 0)
    let res := (List.range 64).map fun n => (vredFn r).1 (od.getD n 0) (sr.getD (n / 8) 0)
    let rep := joinReports (((List.range 64).filter (hasLane m)).map fun n =>
      joinReports [foldReport (vredFn r).1 ((row (n / 8)).map fun j => ow.getD j 0),
        vReport [od.getD n 0, sr.getD (n / 8) 0] (res.getD n 0)])
    t.vDeliver k (.vred c g v r) c v os res rep

end Sys2Proof.Machine
end

