-- ==== Sys2Proof/Machine/EvSeq.lean ====
section
/-!
DEFINITION. Machine/EvSeq.lean: the steps of a sequencer: landing, TLD fills, TST reads, stops for pre-emption, takes that
complete or pass their limit, the illegal-bundle trap (spec/10_sequencer.md R224, R225, R236, R237; 11 R246, R260; 09 R202,
R203).
-/

set_option linter.constructorNameAsVariable false

namespace Sys2Proof.Machine

/-! ## Landing (10 R224, R225) -/

/-- An operation may land now: its clock is over, or is the present one and no bundle issues in it any more; operations
with the same destination land in the order of their issue. -/
def State.opDue (s : State) (b id : Nat) (o : SeqOp) : Bool :=
  let q := s.seq b
  (decide (o.lands < s.now) || (o.lands == s.now && decide (s.now < q.nextIssue))) &&
  q.ops.all fun e => decide (id ≤ e.1) || e.2.dest.dest != o.dest.dest || e.2.dest.dest == none

/-- OPERATION_LANDS: a fixed-latency operation writes its destination. -/
def execOperationLands (b id : Nat) (s : State) : Out :=
  if !s.hasSeq b then .next s
  else
    match (s.seq b).ops.find id with
    | some o => .next (if s.opDue b id o then (s.landOp b id o).seqEnd b else s)
    | none => .next s

/-- A TLD may be filled: its data can have come, and what its thread and its tiles put before it is done (11 R260). -/
def State.fillReady (s : State) (b id : Nat) (x : TileXfer) : Bool :=
  let q := s.seq b
  !x.store && decide (x.notBefore ≤ s.now) &&
  (q.ops.all fun o => decide (id ≤ o.1) || match o.2.dest with
    | .tile t => !x.tiles.any fun e => e.1 == t
    | _ => true) &&
  (q.xfers.all fun o => decide (id ≤ o.1) || o.2.store || !o.2.tiles.any fun y => x.tiles.any fun e => e.1 == y.1) &&
  x.tiles.all fun e => s.mayPerform (.seqr b) id 0 e.2 256 .n .load

/-- The tiles of a TLD whose memory channels serve others first (20 R409). -/
def State.fillHeld (s : State) (b : Nat) (x : TileXfer) : List Nat :=
  (x.tiles.map Prod.snd).filter fun k => s.arbHeld k (s.blk b).part

/-- The first poisoned address of a TLD. -/
def State.xferPoison (s : State) (x : TileXfer) : Option Nat :=
  ((List.range x.tiles.length).flatMap fun j => (List.range 64).map fun n => (j, n)).findSome? fun e =>
    let k := (x.tiles.getD e.1 (0, 0)).2
    if s.poison.contains (k / 4 + e.2) then some (x.addr + 256 * e.1 + 4 * e.2) else none

/-- Word n of a tile that a TLD reads: as it is at its home, or, of a read-only page, as the read-only cache serves it (11 R260;
16 R339). -/
def State.tldWord (s : State) (b : Nat) (x : TileXfer) (key n : Nat) : Word :=
  if x.ro.contains key then
    ((s.copies.getD (roCache (s.blk b).die (s.blk b).part) []).find (key / 4 + n)).getD (s.memWord (key / 4 + n))
  else BitVec.ofNat 32 (s.readKey (key + 4 * n) 4)

/-- The lines of a TLD's tiles in read-only pages come to the read-only cache; those that were there are hits (17 R358). -/
def State.tldRo (s : State) (b : Nat) (x : TileXfer) : State :=
  let c := roCache (s.blk b).die (s.blk b).part
  let ls := x.ro.flatMap fun k => linesOf k 256
  let hits := (ls.filter fun l => (s.copies.getD c []).has (l / 4)).length
  (ls.foldl (fun u l => u.fillRo (s.blk b).die (s.blk b).part l) s).count (s.blk b).core 7 hits

/-- TLD_FILL: the tiles take the words that memory holds now. -/
def execTldFill (b id : Nat) (s : State) : Out :=
  if !s.hasSeq b then .next s
  else
    match (s.seq b).xfers.find id with
    | none => .next s
    | some x =>
      if !s.fillReady b id x then .next s
      else if !(s.fillHeld b x).isEmpty then
        .next ((s.fillHeld b x).foldl (fun t k => t.ask (.unit (.seqr b)) k (s.blk b).part) s)
      else
        let t := (s.tldRo b x).modBlk b fun y => x.tiles.foldl (fun y e =>
          (List.range 64).foldl (fun y n => y.setTileWord e.1 n (s.tldWord b x e.2 n)) y) y
        let w := x.tiles.foldl (fun (w : State) e => w.chargeFor (.unit (.seqr b)) e.2 (s.blk b).part 256) t
        let u := w.modSeq b fun q =>
          { q with xfers := q.xfers.erase id,
                   tpoison := match s.xferPoison x with
                     | some a => q.tpoison ++ [(x.tiles.map Prod.fst, a)]
                     | none => q.tpoison }
        .next (u.seqEnd b)

/-- TST_TILE_READ: a TST has read its tiles. -/
def execTstTileRead (b id : Nat) (s : State) : Out :=
  if !s.hasSeq b then .next s
  else
    match (s.seq b).xfers.find id with
    | none => .next s
    | some x => .next (if x.store then (s.modSeq b fun q => { q with xfers := q.xfers.erase id }).seqEnd b else s)

/-! ## Stops for a pre-emption (10 R236, R237) -/

/-- The head word of the bundle at the sequencer's PC, where its page is translated. -/
def State.headAt (s : State) (b : Nat) : Option Head :=
  match s.fetchWord (s.blkSite (.unit (.seqr b)) b) (s.seq b).pc.toNat with
  | .ok (w :: _) => some (decodeHead w)
  | _ => none

/-- A pre-emption waits for the sequencer of a block to stop. -/
def State.stopWanted (s : State) (b : Nat) : Bool :=
  let q := s.seq b
  s.hasSeq b && (s.blk b).preempt.isSome && !q.stopped && !q.parked && !q.halted && !q.halting

/-- The sequencer stops; a bundle that waits is issued again after restore, its arrivals made. -/
def State.stopSeq (s : State) (b : Nat) (forced : Bool) (ix : Option Nat) : State :=
  (s.modSeq b fun q =>
    { q with stopped := true, forced := forced, liveix := ix, since := none, waiting := false, waited := [],
             next := none }).clearFaults (.unit (.seqr b))

/-- SAFE_POINT_STOP: before a safe-point bundle, also one whose waits have begun, once everything issued has landed. -/
def execSafePointStop (b : Nat) (s : State) : Out :=
  if !s.stopWanted b || !(s.seq b).landed then .next s
  else
    match s.headAt b with
    | some h => .next (if h.safe then s.stopSeq b false (some h.liveix.toNat) else s)
    | none => .next s

/-- FORCED_SAVE_POINT: at a bundle held for more than 4,096 clocks, or at any while its block goes out under the
all-blocked rule; the stop code 2 says so. -/
def execForcedSavePoint (b : Nat) (s : State) : Out :=
  let q := s.seq b
  if !s.stopWanted b || !q.landed then .next s
  else if (s.blk b).preempt == some 2 || (match q.since with
    | some n => decide (n + 4096 < s.now)
    | none => false)
  then .next (s.stopSeq b true none)
  else .next s

/-! ## Takes (09 R202, R203; 11 R246) -/

/-- The true-guard STAKE of a column in the bundle at PC that has not completed: first handle and count. -/
def State.stakeOf (s : State) (b c : Nat) : Option (Nat × Nat) :=
  let q := s.seq b
  let cols := ((s.headAt b).bind Head.columns).getD 0
  match s.fetchWord (s.blkSite (.unit (.seqr b)) b) (q.pc.toNat + 4 + 16 * c) with
  | .ok (w :: _) =>
    if cols ≤ c then none else
    match decodeSlot (BitVec.ofNat 2 c) .s w with
    | some (.stake _ g t n) => if q.rdG c g.toNat && !q.waited.contains c then some (t.toNat, n.toNat + 1) else none
    | _ => none
  | _ => none

/-- TAKE_COMPLETES: a waiting TAKE or STAKE whose conditions hold. -/
def execTakeCompletes (b : Nat) (who : Party) (s : State) : Out :=
  match who with
  | .split g k => .next (s.takeCompletes b g k)
  | .seqr c =>
    if !s.hasSeq b || !(s.seq b).waiting || (s.seq b).parked || (s.seq b).stopped then .next s
    else
      match s.stakeOf b c with
      | some (h, n) => .next (s.stakeStep b c h n)
      | none => .next s

/-- TAKE_LIMIT: a TAKE or STAKE that has waited the take limit traps. -/
def execTakeLimit (b : Nat) (who : Party) (s : State) : Out :=
  match who with
  | .split g k => .next (s.takeLimitTrap b g k)
  | .seqr c =>
    let q := s.seq b
    if !s.hasSeq b || !q.waiting || q.parked || q.stopped then .next s
    else
      match s.stakeOf b c, q.since with
      | some (h, n), some w =>
        if s.now < w + s.takeLimit b || (s.stakeRange b c (handleRange h n)).2 then .next s
        else .next (s.seqTrap b 0x43 0 0 c 0)
      | _, _ => .next s

/-! ## The illegal bundle (02 R63, R64) -/

/-- ILLEGAL_BUNDLE: the sequencer of a block traps at the bundle at its PC. -/
def execIllegalBundle (b : Nat) (s : State) : Out :=
  if s.hasSeq b && !(s.seq b).parked then .next (s.seqTrap b 0x45 0 0 0 0) else .next s

end Sys2Proof.Machine
end

