-- ==== Sys2Proof/Machine/EvSparse.lean ====
section
/-!
DEFINITION. Machine/EvSparse.lean: the steps of the sparse-index engine (spec/10_sequencer.md R234).

Position: `i2` counts the metadata bits or words that are done, `byte` the offsets delivered of the present run, `i1` the
sum of skips and runs before it.
-/

namespace Sys2Proof.Machine

/-- The column and port that an operation delivers to. -/
def EngineOp.target (o : EngineOp) : Nat × Nat := (o.reg 5 / 8 % 4, o.reg 5 % 8)

/-- Read the metadata word n. -/
def State.metaWord (s : State) (id : Nat) (o : EngineOp) (n : Nat) : ElemStep :=
  let p := s.engSite id o
  let a := addrPlus (regAddr o.regs 0) (4 * n : Nat)
  let x := s.engLoc p false a 4
  match x with
  | .wait _ => .wait (s.askLoc p x)
  | .held => .wait s
  | .out _ _ _ => .wait (s.askLoc p x)
  | .fault c v => .fault c v
  | _ =>
    if s.locHeld p x then .wait (s.askLoc p x)
    else if (s.locPoison x 4).isSome then .fault 0x3C a
    else .ok (leVal (s.locBytes p x 4)) (((s.useLoc p x false).afterLocRead p x 4).dropOuts (.engine id) false)

/-- The offsets of the next bits of a bitmap, at most `rate` of them, and how many bits are done; `n` bits are left. -/
def bitmapRun (w base : Nat) : Nat → Nat → Nat → List Nat × Nat
  | 0, _, _ => ([], 0)
  | n + 1, i, rate =>
    if bit w i then
      if rate = 0 then ([], 0)
      else
        let r := bitmapRun w base n (i + 1) (rate - 1)
        ((base + i) % 2 ^ 32 :: r.1, r.2 + 1)
    else
      let r := bitmapRun w base n (i + 1) rate
      (r.1, r.2 + 1)

/-- What the next word gives, at most `rate` offsets: the offsets, and the operation after it. -/
def EngineOp.decode (o : EngineOp) (w rate : Nat) : List Nat × EngineOp :=
  if o.reg 2 = 0 then
    let i := o.i2 % 32
    let base := o.reg 4 + (o.i2 - i)
    let r := bitmapRun w base (min (32 - i) (o.reg 3 - o.i2)) i rate
    (r.1, { o with i2 := o.i2 + r.2 })
  else
    let first := o.reg 4 + o.i1 + w % 2 ^ 16
    let run := w / 2 ^ 16
    let n := min rate (run - o.byte)
    let offs := (List.range n).map fun j => (first + o.byte + j) % 2 ^ 32
    if o.byte + n < run then (offs, { o with byte := o.byte + n })
    else (offs, { o with byte := 0, i1 := (o.i1 + w % 2 ^ 16 + run) % 2 ^ 32, i2 := o.i2 + 1 })

/-- The target port is bound in gather mode. -/
def State.gathers (s : State) (o : EngineOp) : Bool :=
  let p := (s.seq o.blk).port o.target.1 o.target.2
  s.hasSeq o.blk && p.bound && p.src == 1

/-- Offsets reach a gather port; past the end mark, which the port keeps until it is bound again (log 59), none is read, and a pop
overruns. -/
def Port.deliver (p : Port) (offs : List Nat) : Port := if p.ended then p else { p with offs := p.offs ++ offs }

/-- SPARSE_INDEX_DONE: the engine decodes the next metadata and delivers offsets, at most RATE in a clock; after the last it
marks their end and adds 1 to the done counter. An operation that met an unrecoverable fault (09 R219), or whose target port
was bound anew, decodes no further and is counted. -/
def execSparseIndexDone (id : Nat) (s : State) : Out :=
  match s.engines.find id with
  | none => .next s
  | some o =>
    if o.engine != 2 || !s.engRuns o then .next s
    else if o.failed || o.claimed then .next (s.finishEngine id o (regAddr o.regs 6))
    else if !s.gathers o then .next s
    else if o.reg 3 ≤ o.i2 then
      let c := o.target
      let t := (s.modPort o.blk c.1 c.2 fun p => { p with ended := true }).modEngine id fun q => { q with claimed := true }
      .next (t.finishEngine id { o with claimed := true } (regAddr o.regs 6))
    else if decide (s.now ≤ o.issued) then .next s
    else
      match s.metaWord id o (if o.reg 2 = 0 then o.i2 / 32 else o.i2) with
      | .wait t => .next t
      | .fault k a => .next (s.parkEngine id k a)
      | .ok w t =>
        let c := o.target
        let rate := ((s.seq o.blk).port c.1 c.2).rate
        let r := o.decode w rate
        let u := t.modEngine id fun _ => { r.2 with issued := s.now }
        .next (if r.1.isEmpty then u else u.modPort o.blk c.1 c.2 fun p => p.deliver r.1)

end Sys2Proof.Machine
end

