-- ==== Sys2Proof/Machine/Lodestar.lean ====
section
/-!
DEFINITION. Machine/Lodestar.lean: the posting-list engine (spec/19_posting_lists.md R384-R402).

A step of an operation goes on with its progress record (R401). Building TL it reads one term or one block, or decides one document;
building TV it ranks one vector score; then it fuses; writing, it checks the places of the result area, and then writes them, some
words a step (DESIGN CHOICE, log 55). What a page walk, a completion from outside or a fault stops leaves the record as it was.
-/

set_option linter.constructorNameAsVariable false

namespace Sys2Proof.Machine

/-! ## Reading (R384, R392) -/

/-- Why a read stops: its address is not resolved or its memory channel serves others first, a fault of the memory path with its
address, an error of the operation. -/
inductive LStop
  | wait (x : Loc)
  | fault (cause addr : Nat)
  | error (cause addr : Nat)
  deriving DecidableEq, Repr

/-- What a read gives, with the addresses of the words that were read. -/
abbrev LM := StateT (List Nat) (Except LStop)

/-- A stop. -/
def lstop {α : Type} (e : LStop) : LM α := fun _ => .error e

/-- The word at a resolved address. A page of another type than N is an error (R392). -/
def State.lodeLoc (s : State) (p : Site) (a : Nat) (x : Loc) : LM Nat :=
  match x with
  | .fault c v => lstop (if c = 0x3B then .error c a else .fault c v)
  | .glob _ _ _ _ =>
    if s.locHeld p x then lstop (.wait x)
    else if (s.locPoison x 4).isSome then lstop (.fault 0x3C a)
    else fun l => .ok (leVal (s.locBytes p x 4), a :: l)
  | .shared _ _ =>
    if (s.locPoison x 4).isSome then lstop (.fault 0x3C a) else fun l => .ok (leVal (s.locBytes p x 4), a :: l)
  | x => lstop (.wait x)

/-- A global address for a read of a kind: a load of the lane that starts an operation, or a read of the operation. The page type is
tested before any access (07 R156). -/
def State.lodeGlobal (s : State) (p : Site) (kind : AccKind) (a : Nat) : Loc :=
  if 2 ^ 52 ≤ a then .fault 0x37 a
  else
    match s.resolve p kind false a with
    | .wait => .wait a
    | .fault c => .fault c a
    | .ok e l1 =>
      if notNormal e.mt then .fault 0x3B a
      else if s.pageHeld (e.key a) then .held
      else
        match s.reached p.asker .read (e.key a) 4 with
        | .ok => .glob e l1 a none
        | .wait => .out .read (e.key a) 4
        | .aborted c => .fault c a

/-- Read the aligned word at a global address: of the term array or of a list (R389). -/
def State.lodeWord (s : State) (p : Site) (kind : AccKind) (a : Nat) : LM Nat := s.lodeLoc p a (s.lodeGlobal p kind a)
/-- Read the aligned word at an engine address: of the length table or of the vector scores (R391). -/
def State.lodeEng (s : State) (p : Site) (a : Nat) : LM Nat := s.lodeLoc p a (s.engLoc p false a 4 notNormal)

/-- A reader of words. -/
abbrev Rd := Nat → LM Nat

/-- Read n words from an address. -/
def readWords (rd : Rd) (a : Nat) : Nat → LM (List Nat)
  | 0 => pure []
  | n + 1 => do
    let w ← rd a
    let ws ← readWords rd (a + 4) n
    return w :: ws

/-- Check a condition of the formats. -/
def need (c : Bool) (a : Nat) : LM Unit := if c then pure () else lstop (.error 0x83 a)

/-! ## Float arithmetic (R394) -/

/-- The exact quotient of two finite magnitudes to more bits than any rounding needs, the last one sticky. -/
def divFin (na : Bool) (m : Nat) (e : Int) (nb : Bool) (n : Nat) (f : Int) : FVal :=
  let k := 64 + Nat.log2 n
  let q := m * 2 ^ k / n
  let r := m * 2 ^ k % n
  .fin (na != nb) (2 * q + b2n (r != 0)) (e - f - k - 1)

/-- Division of values (05 R119 in its manner). -/
def FVal.div : FVal → FVal → FVal
  | .nan, _ => .nan
  | _, .nan => .nan
  | .inf _, .inf _ => .nan
  | .inf a, .fin b _ _ => .inf (a != b)
  | .fin a _ _, .inf b => .fin (a != b) 0 0
  | .fin a m e, .fin b n f => if n = 0 then (if m = 0 then .nan else .inf (a != b)) else divFin a m e b n f

/-- RNE(a / b). -/
def f32div (a b : Word) : Word :=
  BitVec.ofNat 32 (arithF fFP32 ((decodeF fFP32 a.toNat).div (decodeF fFP32 b.toNat)))
/-- RNA of an integer. -/
def f32ofNat (n : Nat) : Word := BitVec.ofNat 32 (encodeF fFP32 .rna false (.fin false n 0)).code
/-- 1.0. -/
def f32one : Word := 0x3F800000
/-- a < b of FP32 words, NaN false. -/
def f32lt (a b : Word) : Bool :=
  let x := decodeF fFP32 a.toNat
  let y := decodeF fFP32 b.toNat
  !x.isNan && !y.isNan && decide (x.cmp y < 0)
/-- A finite FP32 word. -/
def f32finite (a : Word) : Bool := a.toNat / 2 ^ 23 % 256 != 255
/-- a is NaN. -/
def f32nan (a : Word) : Bool := (decodeF fFP32 a.toNat).isNan
/-- a ≥ +0, -0 counting as 0. -/
def f32ge0 (a : Word) : Bool := !f32nan a && !f32lt a 0

/-! ## Posting lists (R385-R388) -/

/-- A list header: its address, DF, NBLK, IDF. -/
structure LHead where
  addr : Nat
  df : Nat
  nblk : Nat
  idf : Word
  deriving DecidableEq, Repr, Inhabited

/-- Read and check a header (R385). -/
def readHead (rd : Rd) (a : Nat) : LM LHead := do
  let ws ← readWords rd a 8
  let w := fun i => ws.getD i 0
  need (w 0 == 0x54534F50) a
  need ((w 2 == 0) == (w 1 == 0)) (a + 8)
  need (f32finite (BitVec.ofNat 32 (w 3))) (a + 12)
  need (w 4 == 0) (a + 16)
  need (w 5 == 0) (a + 20)
  need (w 6 == 0) (a + 24)
  need (w 7 == 0) (a + 28)
  return { addr := a, df := w 1, nblk := w 2, idf := BitVec.ofNat 32 (w 3) }

/-- A number of words as one number, low word first. -/
def wordsNum : List Nat → Nat
  | [] => 0
  | w :: ws => w + 2 ^ 32 * wordsNum ws

/-- The postings of a block of n, from its bit stream (R387). -/
def postings (data dw fw n base : Nat) : Nat → Nat → List (Nat × Nat)
  | 0, _ => []
  | k + 1, prev =>
    let i := n - (k + 1)
    let gap := data / 2 ^ (dw * i) % 2 ^ dw
    let d := (if i = 0 then base else prev + 1) + gap
    (d, data / 2 ^ (dw * n + fw * i) % 2 ^ fw + 1) :: postings data dw fw n base k d

/-- Read block b of the list whose header lies at h; its base is given (R386-R388). -/
def readBlock (rd : Rd) (h : Nat) (b base : Nat) : LM LodeBlock := do
  let e := h + 32 + 16 * b
  let ws ← readWords rd e 4
  let w := fun i => ws.getD i 0
  let bmax : Word := BitVec.ofNat 32 (w 1)
  let n := w 3 % 128 + 1
  let dw := w 3 / 2 ^ 7 % 64
  let fw := w 3 / 2 ^ 13 % 32
  need (b == 0 || decide (base ≤ w 0)) e
  need (f32ge0 bmax) (e + 4)
  need (w 2 % 4 == 0) (e + 8)
  need (decide (dw ≤ 32) && decide (fw ≤ 16) && w 3 / 2 ^ 18 == 0) (e + 12)
  let data ← readWords rd (h + w 2) ((n * (dw + fw) + 31) / 32)
  let ps := postings (wordsNum data) dw fw n base n 0
  need (wordsNum data / 2 ^ (n * (dw + fw)) == 0) (h + w 2)
  need ((ps.getLastD (0, 0)).1 == w 0 && ps.all fun p => decide (p.1 < 2 ^ 32)) (h + w 2)
  return { last := w 0, bmax := bmax, docs := ps }

/-- Read entry t of the term array (R389): role and header address. -/
def readTerm (rd : Rd) (q t : Nat) : LM (Nat × Nat) := do
  let a := q + 16 * t
  let ws ← readWords rd a 4
  let w := fun i => ws.getD i 0
  need (w 2 % 256 ≤ 2) (a + 8)
  need (w 2 / 256 == 0) (a + 8)
  need (w 3 == 0) (a + 12)
  need (w 0 % 32 == 0) a
  return (w 2 % 256, w 0 + 2 ^ 32 * w 1)

/-! ## Matching and scoring (R393, R394) -/

/-- The frequency of a document in the block that a term holds. -/
def LodeTerm.freq (t : LodeTerm) (d : Nat) : Option Nat :=
  t.blk.bind fun b => (b.docs.find? fun p => p.1 == d).map Prod.snd

/-- The first document of a term's block that is not below d. -/
def LodeTerm.head (t : LodeTerm) (d : Nat) : Option Nat :=
  t.blk.bind fun b => (b.docs.find? fun p => decide (d ≤ p.1)).map Prod.fst

/-- BM25 of a document with length dl (R394). -/
def bm25 (k1 bb avg : Word) (ts : List LodeTerm) (d dl : Nat) : Word :=
  let oneb := f32sub f32one bb
  let kp := f32add k1 f32one
  ts.foldl (fun s t =>
    match t.freq d with
    | none => s
    | some f =>
      if t.role = 2 then s
      else
        let x := f32div (f32ofNat dl) avg
        let norm := f32mul k1 (f32add oneb (f32mul bb x))
        let w := f32div (f32mul (f32ofNat f) kp) (f32add (f32ofNat f) norm)
        f32add s (f32mul t.idf w)) 0

/-- The bound of the terms at the next document, each by the block that it holds (R396). -/
def boundAt (ts : List LodeTerm) : Word :=
  ts.foldl (fun s t =>
    if t.role = 2 then s
    else
      f32add s (match t.blk with
        | some b => if f32ge0 t.idf then f32mul t.idf b.bmax else 0
        | none => 0)) 0

/-! ## Rank order (R395) -/

/-- a ranks before b. -/
def ranksBefore (a b : Nat × Word) : Bool :=
  if f32nan a.2 then f32nan b.2 && decide (a.1 < b.1)
  else if f32nan b.2 then true
  else if f32lt b.2 a.2 then true
  else if f32lt a.2 b.2 then false
  else decide (a.1 < b.1)

/-- Insert in rank order. -/
def rankInsert (x : Nat × Word) : List (Nat × Word) → List (Nat × Word)
  | [] => [x]
  | y :: ys => if ranksBefore x y then x :: y :: ys else y :: rankInsert x ys

/-- Top(X, K). -/
def top (k : Nat) (xs : List (Nat × Word)) : List (Nat × Word) :=
  xs.foldl (fun t x => (rankInsert x t).take k) []

/-! ## Fusion (R397, R398) -/

/-- The score of a document in a ranked list. -/
def scoreIn (l : List (Nat × Word)) (d : Nat) : Option Word := (l.find? fun e => e.1 == d).map Prod.snd
/-- The 1-based position of a document in a ranked list. -/
def posIn (l : List (Nat × Word)) (d : Nat) : Option Nat :=
  if l.any fun e => e.1 == d then some ((l.takeWhile fun e => e.1 != d).length + 1) else none
/-- The best score of a ranked list, +0 for an empty one. -/
def bestOf (l : List (Nat × Word)) : Word := ((l.head?).map Prod.snd).getD 0

/-- The fused score of mode 2. -/
def fuseConvex (alpha : Word) (tl tv : List (Nat × Word)) (d : Nat) : Word :=
  let part := fun (l : List (Nat × Word)) =>
    match scoreIn l d with
    | some s => if f32lt 0 (bestOf l) then f32div s (bestOf l) else 0
    | none => 0
  f32add (f32mul alpha (part tl)) (f32mul (f32sub f32one alpha) (part tv))

/-- The fused score of mode 3. -/
def fuseRank (tl tv : List (Nat × Word)) (d : Nat) : Word :=
  let part := fun (l : List (Nat × Word)) =>
    match posIn l d with
    | some r => f32div f32one (f32ofNat (60 + r))
    | none => 0
  f32add (part tl) (part tv)

/-! ## An operation (R391, R399) -/

/-- MODE.OP. -/
def EngineOp.lodeMode (o : EngineOp) : Nat := o.reg 3 % 4

/-- The head and the entries of a result area. -/
structure LResult where
  nmatch : Nat
  maxL : Word
  maxV : Word
  entries : List (Nat × Word)
  deriving DecidableEq, Repr

/-! ## Building TL (R393-R396, R401) -/

/-- The next term is read: its entry of the term array and its list header, and, where its cursor stands behind block 0, the base
of its block. -/
def EngineOp.lodeTerm (o : EngineOp) (rd : Rd) : LM LodeRec := do
  let x := o.lode
  let i := x.terms.length
  let e ← readTerm rd (regAddr o.regs 0) i
  need (decide (e.2 < 2 ^ 52)) (regAddr o.regs 0 + 16 * i)
  let h ← readHead rd e.2
  let c := x.cursors.getD i (0, 0)
  let last ← if c.1 = 0 then pure 0 else rd (e.2 + 32 + 16 * (c.1 - 1))
  return { x with
    terms := x.terms ++ [{ role := e.1, addr := e.2, df := h.df, nblk := h.nblk, idf := h.idf,
                           base := if c.1 = 0 then 0 else last + 1, blk := none }],
    cursors := if i < x.cursors.length then x.cursors else x.cursors ++ [(0, 0)],
    passed := if i < x.passed.length then x.passed else x.passed ++ [0] }

/-- Change term i. -/
def LodeRec.modTerm (x : LodeRec) (i : Nat) (f : LodeTerm → LodeTerm) : LodeRec := { x with terms := x.terms.modify i f }

/-- A term whose cursor stands at a block that is not read yet. -/
def LodeRec.unread (x : LodeRec) : Option (Nat × LodeTerm) :=
  (List.zip (List.range x.terms.length) x.terms).find? fun e =>
    e.2.blk.isNone && decide ((x.cursors.getD e.1 (0, 0)).1 < e.2.nblk)

/-- A term whose block ends before the next document. -/
def LodeRec.behind (x : LodeRec) : Option (Nat × LodeTerm × LodeBlock) :=
  (List.zip (List.range x.terms.length) x.terms).findSome? fun e =>
    e.2.blk.bind fun b => if b.last < x.nextDoc then some (e.1, e.2, b) else none

/-- The cursor of term i goes on to the next block; behind the last one its list has as many postings as its header says (R388). -/
def LodeRec.pass (x : LodeRec) (i : Nat) (t : LodeTerm) (b : LodeBlock) : LM LodeRec := do
  let c := (x.cursors.getD i (0, 0)).1 + 1
  let n := x.passed.getD i 0 + b.docs.length
  need (decide (c < t.nblk) || n == t.df) (t.addr + 4)
  return { x.modTerm i fun y => { y with base := b.last + 1, blk := none } with
    cursors := x.cursors.set i (c, 0), passed := x.passed.set i n }

/-- The next document that can match (R393): the greatest head of the MUST terms, without such the least head of the SHOULD terms. -/
def LodeRec.candidate (x : LodeRec) : Option Nat :=
  let heads (r : Nat) : List (Option Nat) := (x.terms.filter fun t => t.role == r).map fun t => t.head x.nextDoc
  let ms := heads 0
  if ms.isEmpty then (heads 1).reduceOption.min?
  else if ms.all Option.isSome then ms.reduceOption.max? else none

/-- The next document to be decided is d; the cursors stand at their first postings from d on. -/
def LodeRec.goTo (x : LodeRec) (d : Nat) : LodeRec :=
  { x with
    nextDoc := d,
    cursors := (List.zip x.cursors x.terms).map fun e => match e.2.blk with
      | some b => (e.1.1, (b.docs.filter fun p => decide (p.1 < d)).length)
      | none => e.1 }

/-- A matching document is decided: it is counted, in mode 0; or scored, and ranked among the entries of TL. With SKIP, one whose
bound is below the last entry of a full TL is left unscored where a free choice says so (R396). -/
def EngineOp.decideDoc (o : EngineOp) (eng : Rd) (free : Bool) (d : Nat) : LM LodeRec := do
  let x := o.lode
  let y := x.goTo (d + 1)
  let k := o.reg 4
  let w := fun r => BitVec.ofNat 32 (o.reg r)
  if x.terms.any fun t => t.role == 2 && (t.freq d).isSome then return y
  else if o.lodeMode = 0 then
    return { y with scored := x.scored + 1, res := if x.res.length < o.reg 18 then x.res ++ [(d, 0)] else x.res }
  else if bit (o.reg 3) 2 && x.tl.length == k && f32lt (boundAt x.terms) ((x.tl.getLastD (0, 0)).2) && free then return y
  else do
    let dl ← eng ((regAddr o.regs 8 + 4 * d) % 2 ^ 64)
    return { y with scored := x.scored + 1, tl := (rankInsert (d, bm25 (w 5) (w 6) (w 7) x.terms d dl) x.tl).take k }

/-- TL, or, of mode 0, the matching set, is built: every list has been read to its end. -/
def EngineOp.endLists (o : EngineOp) : LodeRec :=
  let x := { o.lode with terms := [] }
  if o.lodeMode = 0 then { x with phase := 3 }
  else if o.lodeMode = 1 then { x with phase := 3, res := x.tl }
  else { x with phase := 1, nextDoc := o.reg 14 }

/-- A step of building TL: a term or a block is read, a cursor goes on to its next block, or the next document is decided. Where no
document can match any more, the rest of the lists is still read and checked (R388). -/
def EngineOp.listStep (o : EngineOp) (rd eng : Rd) (free : Bool) : LM LodeRec :=
  let x := o.lode
  if x.terms.length < o.reg 2 then o.lodeTerm rd
  else
    match x.unread, x.behind with
    | some (i, t), _ => do
      let b ← readBlock rd t.addr (x.cursors.getD i (0, 0)).1 t.base
      return (x.modTerm i fun y => { y with blk := some b }).goTo x.nextDoc
    | none, some (i, t, b) => x.pass i t b
    | none, none =>
      match x.candidate with
      | some d => if d = x.nextDoc then o.decideDoc eng free d else pure (x.goTo d)
      | none => pure (if x.nextDoc < 2 ^ 32 then x.goTo (2 ^ 32) else o.endLists)

/-! ## Building TV and fusing (R397, R398) -/

/-- A step of building TV: the next vector score, which must be finite (R390), is ranked. -/
def EngineOp.vectorStep (o : EngineOp) (eng : Rd) : LM LodeRec := do
  let x := o.lode
  let i := x.nextDoc - o.reg 14
  if o.reg 12 ≤ i then return { x with phase := 2 }
  else do
    let a := (regAddr o.regs 10 + i * o.reg 13) % 2 ^ 64
    let w ← eng a
    need (f32finite (BitVec.ofNat 32 w)) a
    return { x with tv := (rankInsert (x.nextDoc, BitVec.ofNat 32 w) x.tv).take (o.reg 4), nextDoc := x.nextDoc + 1 }

/-- Fusing TL and TV (R397, R398). -/
def EngineOp.fuse (o : EngineOp) : LodeRec :=
  let x := o.lode
  let docs := dedupN (x.tl.map Prod.fst ++ x.tv.map Prod.fst)
  let f := if o.lodeMode = 2 then fuseConvex (BitVec.ofNat 32 (o.reg 15)) x.tl x.tv else fuseRank x.tl x.tv
  { x with phase := 3, res := top (o.reg 4) (docs.map fun d => (d, f d)) }

/-- A step of an operation before it writes: the record after it. -/
def EngineOp.lodeStep (o : EngineOp) (rd eng : Rd) (free : Bool) : LM LodeRec :=
  if o.lode.phase = 0 then o.listStep rd eng free
  else if o.lode.phase = 1 then o.vectorStep eng
  else pure o.fuse

/-- The result of an operation whose record stands at writing (R399). -/
def EngineOp.lodeResult (o : EngineOp) : LResult :=
  let x := o.lode
  { nmatch := min x.scored (2 ^ 32 - 1), maxL := if 2 ≤ o.lodeMode then bestOf x.tl else 0,
    maxV := if 2 ≤ o.lodeMode then bestOf x.tv else 0, entries := x.res }

/-- The bytes of a result area (R399). -/
def LResult.bytes (r : LResult) : List Byte :=
  leBytes 4 r.entries.length ++ leBytes 4 r.nmatch ++ leBytes 4 r.maxL.toNat ++ leBytes 4 r.maxV.toNat ++
  r.entries.flatMap fun e => leBytes 4 e.1 ++ leBytes 4 e.2.toNat

/-- Where n words of a result area from an address go: a stop, or the places in order. -/
def State.resultPlaces (s : State) (p : Site) (a : Nat) : Nat → Except LStop (List Loc)
  | 0 => .ok []
  | n + 1 =>
    let x := s.engLoc p true a 4 notNormal
    let rest := (s.resultPlaces p (a + 4) n).map fun ls => x :: ls
    match x with
    | .fault c v => .error (if c = 0x3B then .error c a else .fault c v)
    | .glob _ _ _ _ => if s.locHeld p x then .error (.wait x) else rest
    | .shared _ _ => rest
    | x => .error (.wait x)

/-- Write words to their places. -/
def State.writePlaces (s : State) (p : Site) : List Loc → List Byte → State
  | [], _ => s
  | x :: xs, bs => ((s.useLoc p x true).locWrite p x (bs.take 4)).writePlaces p xs (bs.drop 4)

/-- The done counter of a Lodestar operation lies on a page of a type that it does not take. -/
def State.lodeDoneBad (s : State) (p : Site) (a : Nat) : Bool :=
  match s.engLoc p true a 8 notNormal true with
  | .fault c _ => c == 0x3B
  | _ => false

/-- The operation ends: its counter, and then it is gone. An error on the counter itself sets CAUSE and makes no
increment (09 R219). -/
def State.lodeFinish (s : State) (id : Nat) (o : EngineOp) : State :=
  let a := regAddr o.regs 19
  if s.lodeDoneBad (s.engSite id o) a then
    (({ s with engines := s.engines.erase id } : State).setEngErr o.blk o.grp 3 0x3B (BitVec.ofNat 64 a)).clearFaults (.engine id)
  else s.finishEngine id o a

/-- What stops an operation: what it waits for is asked for, a fault parks it, an error ends it. -/
def State.lodeStop (s : State) (id : Nat) (o : EngineOp) (e : LStop) : State :=
  match e with
  | .wait x => s.askLoc (s.engSite id o) x
  | .fault c a => s.parkEngine id c a
  | .error c a =>
    ((s.setEngErr o.blk o.grp 3 c (BitVec.ofNat 64 a)).modEngine id fun q => { q with failed := true }).lodeFinish id o

/-- The words that a step read in read-only pages bring their lines to the read-only cache (16 R339); their bytes are charged (20
R409), and its requests outside the package are over. -/
def State.lodeFill (s : State) (p : Site) (as : List Nat) : State :=
  ((dedupN (as.map fun a => a / 32 * 32)).foldl (fun t a => t.afterLocRead p (s.engLoc p false a 4) 4) s).dropOuts p.asker false

/-- A step of an operation that writes: sixteen words of the result area are checked, all of it before any is written (R400), or
written; the last ones end the operation. -/
def State.lodeWrite (s : State) (id : Nat) (o : EngineOp) : State :=
  let p := s.engSite id o
  let x := o.lode
  let n := 4 + 2 * o.lodeResult.entries.length
  let i := if x.checked < n then x.checked else x.written
  let k := min 16 (n - i)
  match s.resultPlaces p (regAddr o.regs 16 + 4 * i) k with
  | .error e => s.lodeStop id o e
  | .ok ls =>
    if x.checked < n then s.modEngine id fun q => { q with lode := { x with checked := i + k } }
    else
      let t := (s.writePlaces p ls (o.lodeResult.bytes.drop (4 * i))).dropOuts p.asker false
      if i + k < n then t.modEngine id fun q => { q with lode := { x with written := i + k } }
      else (t.modEngine id fun q => { q with lode := { x with written := n }, claimed := true }).lodeFinish id o

/-- LODESTAR_DONE: the next step of an operation: its progress record goes on, and in the last its counter counts. -/
def execLodestarDone (id : Nat) (s : State) : Out :=
  match s.engines.find id with
  | none => .next s
  | some o =>
    if o.engine != 3 || !s.engRuns o then .next s
    else if o.failed || o.claimed then .next (s.lodeFinish id o)
    else if 3 ≤ o.lode.phase then .next (s.lodeWrite id o)
    else
      let p := s.engSite id o
      match o.lodeStep (s.lodeWord p .engine) (s.lodeEng p) (Config.freeBool s.freeCtr) [] with
      | .error e => .next (s.lodeStop id o e)
      | .ok (r, as) => .next ((s.lodeFill p as).tickFree.modEngine id fun q => { q with lode := r })

/-! ## GO (R392) -/

/-- The argument checks of GO. -/
def State.lodeBad (s : State) (b : Nat) (r : Table Word) : Bool :=
  let w := fun i => r.getD i 0
  let n := fun i => (w i).toNat
  let op := n 3 % 4
  let a := regAddr r
  let scored := op != 0
  let fused := 2 ≤ op
  (n 3 / 8 != 0) || n 2 == 0 || decide (16 < n 2) ||
  (scored && (n 4 == 0 || decide (1024 < n 4) || !(f32finite (w 5) && f32ge0 (w 5)) ||
    !(f32ge0 (w 6) && !f32lt f32one (w 6)) || !(f32finite (w 7) && f32lt 0 (w 7)))) ||
  (op == 2 && !(f32ge0 (w 15) && !f32lt f32one (w 15))) ||
  bit (a 0) 63 || a 0 % 16 != 0 || !engAddrOk (a 16) || a 16 % 16 != 0 || !s.doneOk b (a 19) ||
  (scored && (!engAddrOk (a 8) || a 8 % 4 != 0)) ||
  (fused && n 12 != 0 && (!engAddrOk (a 10) || a 10 % 4 != 0 || n 13 % 4 != 0)) ||
  (n 12 != 0 && decide (2 ^ 32 < n 14 + n 12))

/-- Step 3 of R392: the roles of the terms, their headers checked. -/
def lodeStart (rd : Rd) (q n : Nat) : LM (List Nat) := do
  let es ← (List.range n).mapM fun t => readTerm rd q t
  let _ ← es.mapM fun e => readHead rd e.2
  return es.map Prod.fst

/-- ECMD 3, GO: the engine error, the arguments, the inputs, the roles; a fifth operation waits. -/
def execLodestarGo (g : Pred) (a : Reg) (s : State) : Out :=
  laneRun (.lodestarGo g a) g s fun t =>
    let m := t.exec g
    let b := t.unitBlk
    let gr := t.unitGrp
    let r := t.capture b gr 3
    if m = 0 then .next (t.skip 4)
    else if t.engCause b gr 3 ≠ 0 then .next (t.trapWith 0x82 m (t.engErr b gr 3))
    else if t.lodeBad b r then .next (t.trapWith 0x80 m 0)
    else if t.anyAcquiring (lanesOf m) || t.anyBusy (lanesOf m) then .next t
    else
      let p := t.site
      match lodeStart (t.lodeWord p .load) (regAddr r 0) (r.getD 2 0).toNat [] with
      | .error (.wait x) => .next (t.askLoc p x)
      | .error (.fault c x) =>
        .next (((t.countFaulted p x c).trapWith c (laneBit (t.leader g)) (BitVec.ofNat 64 x)).clearFaults p.asker)
      | .error (.error c x) =>
        .next ((t.trapWith c (if c = 0x83 then m else laneBit (t.leader g)) (BitVec.ofNat 64 x)).clearFaults p.asker)
      | .ok (roles, _) =>
        if roles.all (· == 2) then .next (t.trapWith 0x80 m 0)
        else if 4 ≤ t.engOut b gr 3 then .next (t.blockUnit (.engineFull 3))
        else .next (((t.clearFaults p.asker).startEngine 3 r (t.leader g)).skip 4)

end Sys2Proof.Machine
end

