-- ==== Sys2Proof/Machine/Sections.lean ====
section
/-!
DEFINITION. Machine/Sections.lean: the sections of a Toganik image: what each holds, how it is written and how it is read back
(spec/13_core_faults.md R277, R285-R287; 14 R299, R305, R308; 19 R401).

Where R287 gives the bytes of a section (types 2, 3, 4, 7, 12, 15), they are laid out as it says. The other types it gives by
their contents; their bytes are a free layout of those contents (log 42).
-/

namespace Sys2Proof.Config

/-- The bytes of a section whose layout is not stated, by type and contents (13 R287, log 42). -/
opaque sectionBytes : Nat → Sys2Proof.Machine.SectionData → List Sys2Proof.Byte

/-- The contents that bytes of such a section spell which the part has not written itself (log 42). -/
opaque sectionData : Nat → List Sys2Proof.Byte → Sys2Proof.Machine.SectionData

end Sys2Proof.Config

namespace Sys2Proof.Machine

/-! ## Where an image stands (13 R277) -/

/-- The address of an offset of a block's image in its context area. -/
def Block.imageAt (x : Block) (off : Nat) : Nat := x.ctxArea + 20480 * x.node.groups + off

/-- The keys of the first `n` pages of a block's image. -/
def State.imageKeys (s : State) (b n : Nat) : List Nat :=
  (List.range n).map fun i => s.ctxKey b ((s.blk b).imageAt (4096 * i))

/-- The map of a block's image through the keys of its first pages. -/
def State.imageMapBy (s : State) (b : Nat) (ks : List Nat) (off : Nat) : Nat :=
  match ks[off / 4096]? with
  | some k => k + off % 4096
  | none => s.ctxKey b ((s.blk b).imageAt off)

/-- The map of a block's image. -/
def State.imageFn (s : State) (b : Nat) : Nat → Nat :=
  let n := s.imgLen (s.imageMapBy b (s.imageKeys b 1))
  s.imageMapBy b (s.imageKeys b (min (ceilDiv n 4096) 4096))

/-- The pages of a block's image are used, as the part reads it (16 R345). -/
def State.touchImage (s : State) (b : Nat) : State :=
  s.touchCtx b ((s.blk b).imageAt 0) (min (s.imgLen (s.imageFn b)) (2 ^ 24)) false

/-! ## The bytes of an image (13 R285, R286) -/

/-- A section to write: type, held, contents, and the length that a held section reserves. -/
structure ImgSec where
  type : Nat
  held : Bool
  bytes : List Byte
  room : Nat
  deriving DecidableEq, Repr

/-- The length of a section in the directory. -/
def ImgSec.length (x : ImgSec) : Nat := if x.held then x.room else x.bytes.length

/-- Zero bytes up to the next multiple of 64. -/
def pad64 (n : Nat) : List Byte := List.replicate (roundUp n 64 - n) 0

/-- The directory entries and the bodies of sections laid out from an offset. -/
def layout : Nat → List ImgSec → List Byte × List Byte
  | _, [] => ([], [])
  | o, x :: t =>
    let body := if x.held then List.replicate x.room 0 else x.bytes
    let r := layout (o + roundUp body.length 64) t
    (leBytes 2 x.type ++ leBytes 2 (b2n x.held) ++ leBytes 4 o ++ leBytes 4 x.length ++
      leBytes 4 (if x.held then 0 else crc32c x.bytes) ++ r.1,
     body ++ pad64 body.length ++ r.2)

/-- The bytes of an image: header, directory, sections. -/
def imageBytes (reason : Nat) (tag : Word) (ctx : Nat) (hold : Nat) (xs : List ImgSec) : List Byte :=
  let start := roundUp (64 + 16 * xs.length) 64
  let r := layout start xs
  let head := leBytes 4 0x4B4E4754 ++ leBytes 2 1 ++ leBytes 2 reason ++ leBytes 4 0x00014808 ++ leBytes 4 tag.toNat ++
    leBytes 4 (ctx % 2 ^ 16) ++ leBytes 4 xs.length ++ leBytes 8 (start + r.2.length) ++ leBytes 4 hold ++
    List.replicate 24 0
  head ++ leBytes 4 (crc32c head) ++ r.1 ++ List.replicate (start - 64 - 16 * xs.length) 0 ++ r.2

/-- Write an image of a block. -/
def State.putImage (s : State) (b reason hold : Nat) (xs : List ImgSec) : State :=
  let x := s.blk b
  s.writeCtx b (x.imageAt 0) (imageBytes reason x.ptag x.ctx hold xs)

/-! ## Sections whose layout is free -/

/-- The bytes that the part writes for contents: at most 1 MiB. -/
def dataBytes (type : Nat) (d : SectionData) : List Byte := (Config.sectionBytes type d).take (2 ^ 20)

/-- A section of contents. -/
def dataSection (type : Nat) (d : SectionData) : ImgSec :=
  { type := type, held := false, bytes := dataBytes type d, room := 0 }

/-- A section of bytes. -/
def fullSection (type : Nat) (bs : List Byte) : ImgSec := { type := type, held := false, bytes := bs, room := 0 }

/-- The entry of a type in the directory of an image. -/
def State.imgSection (s : State) (f : Nat → Nat) (type : Nat) : Option SecEntry :=
  (s.imgDir f).find? fun e => e.type == type

/-- The contents of a section of a block's image: those that it was written from, while its bytes stand as they were written. -/
def State.sectionOf (s : State) (b : Nat) (f : Nat → Nat) (type : Nat) : SectionData :=
  match s.imgSection f type with
  | none => .none
  | some e =>
    let bs := s.imgBytes f e.offset e.length
    let d := (s.blk b).saved.getD type .none
    if bs = dataBytes type d then d else Config.sectionData type bs

/-! ## What a block that is out was saved with -/

/-- The groups that the splits section was written from. -/
def Block.savedGroups (x : Block) : Table Group :=
  match x.saved.find 5 with
  | some (.splits gs) => gs
  | _ => []
/-- The ejected lanes that were saved, by the contexts that they had. -/
def Block.savedComets (x : Block) : Table Comet :=
  match x.saved.find 6 with
  | some (.lanes cs) => cs
  | _ => []
/-- The sequencer that was saved, with its trap record. -/
def Block.savedSeq (x : Block) : Option (Seq × SeqTrap) :=
  match x.saved.find 8 with
  | some (.seqr q r) => some (q, r)
  | _ => none
/-- The engine operations that were saved. -/
def Block.savedOps (x : Block) : Table EngineOp :=
  match x.saved.find 10 with
  | some (.engines os) => os
  | _ => []

/-! ## The sections of a block (13 R287) -/

/-- The block section: the node header's address, work-identifier fields 2-5, the sizes, the facet width, the context area. -/
def Block.blockData (x : Block) : SectionData :=
  .block x.node.addr x.coords
    [x.node.groups, x.node.width, x.node.vregs, x.node.sregs, x.node.tiles, x.node.shared, x.node.stash] x.node.facetw x.ctxArea

/-- A group without what other sections hold. -/
def Group.bare (g : Group) : Group := { g with sregs := [], preds := [], eng := [] }

/-- A wait that is abandoned: the instruction issues again after restore; a JOIN and a collective go on waiting (13 R275). -/
def Wait.abandon : Wait → Wait
  | .blocked _ _ => .ready
  | w => w

/-- A group whose splits have stopped. -/
def Group.stop (g : Group) : Group :=
  { g with splits := g.splits.mapv fun _ k => { k with wait := k.wait.abandon, joinSince := none, joinKept := false } }

/-- The words of a tile. -/
def Block.tileWords (x : Block) (t : Nat) : List Word := (List.range 64).map fun j => x.tileWord t j

/-- The owned-tiles section with contents (type 7): tiles by their handles, with what is saved of each. -/
def Block.bankBytes (x : Block) (hs : List (Nat × List Word)) : List Byte :=
  hs.flatMap fun h => ownedTileBytes h.1 (x.tile (seqTile h.1)) h.2

/-- The register tiles of a group (03 R83). -/
def Block.groupTiles (x : Block) (g : Nat) : List Nat := (List.range (ceilDiv x.node.vregs x.q)).map (64 * g + ·)

/-- The tiles of a group, each with its status word before it (type 2). -/
def Block.regBytes (x : Block) (g : Nat) : List Byte :=
  (x.groupTiles g).flatMap fun t => leBytes 4 (statusWord (x.tile t) 0) ++ (x.tileWords t).flatMap fun w => leBytes 4 w.toNat

/-- The uniform registers of a group (type 3). -/
def Block.uniformBytes (x : Block) (g : Nat) : List Byte :=
  (List.range x.node.sregs).flatMap fun r => leBytes 4 ((x.grp g).sregs.getD r 0).toNat

/-- The predicate pairs of a group (type 4). -/
def Block.predBytes (x : Block) (g : Nat) : List Byte :=
  (List.range 7).flatMap fun k => leBytes 8 ((x.grp g).preds.getD (k + 1) 0).toNat

/-- The registers of the four engines of a group slot, 64 words each (type 15). -/
def Block.engineBytes (x : Block) (g : Nat) : List Byte :=
  (List.range 256).flatMap fun r => leBytes 4 ((x.grp g).eng.getD r 0).toNat

/-- The barriers of a block, and from 16 on those of its cluster (14 R299). -/
def State.barData (s : State) (b : Nat) : SectionData :=
  let x := s.blk b
  let own := (List.range 16).map fun n => (n, x.bar n)
  .bars (own ++ match s.gangs.find (x.gang.getD 0) with
    | some q => if x.gang.isSome && q.cluster then q.bars.map fun e => (16 + e.1, e.2.bar) else []
    | none => [])

/-- The contents of the sections of a block whose layout is free, by type: those it has. -/
def State.savedData (s : State) (b : Nat) : Table SectionData :=
  let x := s.blk b
  let cs := (s.comets.filter fun e => e.2.blk == b).map fun e =>
    (e.1, { e.2 with wait := e.2.wait.abandon, arrived := none })
  let mine : Table EngineOp := s.engines.filter fun e => e.2.blk == b
  let os := mine.mapv fun _ o => { o with lode := { o.lode with terms := [] } }
  let ms := s.monitors.filter fun e => e.2.blk == b
  let opt (c : Bool) (t : Nat) (d : SectionData) : Table SectionData := if c then [(t, d)] else []
  [(1, x.blockData), (5, .splits (x.groups.mapv fun _ g => g.stop.bare))] ++
  opt (!cs.isEmpty) 6 (.lanes cs) ++
  (match x.seq with
    | some q => [(8, .seqr q (s.facet x.facet).record)]
    | none => []) ++
  [(9, .rings x.rings)] ++
  opt (!os.isEmpty) 10 (.engines os) ++
  (match x.seq with
    | some q => opt (!q.reserved.isEmpty) 11 (.reserved q.reserved)
    | none => []) ++
  opt (decide (0 < x.node.stash)) 13 (.windows x.stash) ++
  [(14, s.barData b)] ++
  opt (!ms.isEmpty) 16 (.monitors ms)

/-- Insert a section by its type. -/
def insertSection (x : ImgSec) : List ImgSec → List ImgSec
  | [] => [x]
  | y :: t => if x.type ≤ y.type then x :: y :: t else y :: insertSection x t

/-- The sections of an image, in type order; `bank`: the owned-tiles section. -/
def State.sections (s : State) (b : Nat) (bank : List ImgSec) : List ImgSec :=
  let x := s.blk b
  let gs := List.range x.node.groups
  (((s.savedData b).map fun e => dataSection e.1 e.2) ++ bank).foldr insertSection
    [fullSection 2 (gs.flatMap x.regBytes), fullSection 3 (gs.flatMap x.uniformBytes),
     fullSection 4 (gs.flatMap x.predBytes), fullSection 12 (x.shared.bytes 0 x.node.shared), fullSection 15 (gs.flatMap x.engineBytes)]

/-- A block whose image is written keeps nothing of what the image holds but what its sections of free layout were written
from. -/
def Block.blank (x : Block) (d : Table SectionData) : Block :=
  { x with
    groups := [], vregs := [], tiles := [], gave := [], shared := [], stash := [], rings := [], bars := [], seq := none,
    saved := d }

/-! ## The sections are loaded (13 R276 step 3) -/

/-- A word of an image. -/
def State.imgWord (s : State) (f : Nat → Nat) (off : Nat) : Word := BitVec.ofNat 32 (s.imgNat f off 4)

/-- The words of a section, from a word on: the register values of some tiles, each after its status word. -/
def State.loadTiles (s : State) (f : Nat → Nat) (off : Nat) (ts : List Nat) (x : Block) : Block :=
  (List.zip (List.range ts.length) ts).foldl (fun y e =>
    let o := off + 260 * e.1
    (y.setTile e.2 (statusOf (s.imgNat f o 4))).putTile e.2 ((List.range 64).map fun j => s.imgWord f (o + 4 + 4 * j))) x

/-- The sizes, coordinates and context area of the block section. -/
def Block.loadBlock (x : Block) : SectionData → Block
  | .block _ coords sizes facetw area =>
    let n := x.node
    { x with
      coords := coords, ctxArea := area,
      node := { n with groups := sizes.getD 0 n.groups, width := sizes.getD 1 n.width, vregs := sizes.getD 2 n.vregs,
                       sregs := sizes.getD 3 n.sregs, tiles := sizes.getD 4 n.tiles, shared := sizes.getD 5 n.shared,
                       stash := sizes.getD 6 n.stash, facetw := facetw } }
  | _ => x

/-- The group of a slot with what the sections 3, 4 and 15 hold of it. -/
def State.loadGroup (s : State) (f : Nat → Nat) (n : Node) (i : Nat) (g : Group) : Group :=
  { g with
    sregs := match s.imgSection f 3 with
      | some e => (List.range n.sregs).map fun r => (r, s.imgWord f (e.offset + 4 * (n.sregs * i + r)))
      | none => [],
    preds := match s.imgSection f 4 with
      | some e => (List.range 7).map fun k => (k + 1, BitVec.ofNat 64 (s.imgNat f (e.offset + 8 * (7 * i + k)) 8))
      | none => [],
    eng := match s.imgSection f 15 with
      | some e => ((List.range 256).map fun r => (r, s.imgWord f (e.offset + 1024 * i + 4 * r))).filter fun r => r.2 != 0
      | none => [] }

/-- The block of an image: every section that it holds is loaded. Words that are marked poisoned stay so (20 R419; log 7). -/
def State.loadSections (s : State) (b : Nat) (f : Nat → Nat) : Block :=
  let d := s.sectionOf b f
  let x0 := (s.blk b).loadBlock (d 1)
  let x1 := { x0 with
    groups := match d 5 with
      | .splits gs => gs.mapv fun i g => s.loadGroup f x0.node i g
      | _ => [],
    seq := match d 8 with
      | .seqr q _ => some q
      | _ => none,
    rings := match d 9 with
      | .rings rs => rs
      | _ => [],
    reserving := match d 11 with
      | .reserved rs => rs
      | _ => [],
    stash := match d 13 with
      | .windows ws => ws
      | _ => [],
    bars := match d 14 with
      | .bars bs => bs.filter fun e => decide (e.1 < 16)
      | _ => [],
    shared := match s.imgSection f 12 with
      | some e => Memory.putAll [] (cellsAt 0 (s.imgBytes f e.offset e.length))
      | none => [] }
  let x2 := match s.imgSection f 2 with
    | some e => s.loadTiles f e.offset ((List.range x1.node.groups).flatMap x1.groupTiles) x1
    | none => x1
  { x2 with poisonRegs := (s.blk b).poisonRegs }

end Sys2Proof.Machine
end

