-- ==== Sys2Proof/Machine/EvEnd.lean ====
section
/-!
DEFINITION. Machine/EvEnd.lean: the end of a block, by itself, by END, by STOP, by a function-level reset, and of a rejected
image (spec/15_die_work.md R319, R330, R331; 13 R279, R283, R288; 14 R308; 20 R408, R410, R411).
-/

set_option linter.constructorNameAsVariable false

namespace Sys2Proof.Machine

/-! ## What a block leaves in flight (15 R331) -/

/-- The words of some cells that are performed: a free choice for each. -/
def State.freeCells (s : State) (cs : List Host.Cell) : List Host.Cell × State :=
  let ws := cellWords cs
  let keep := ws.filter fun w => Config.freeBool (s.freeCtr + ws.idxOf w)
  (cs.filter fun c => keep.contains (c.1 / 4), { s with freeCtr := s.freeCtr + ws.length })

/-- A store of a block that ends, not yet performed: each word is performed or discarded. -/
def State.looseStore (s : State) (id : Nat) (x : StoreOp) : State :=
  let r := s.freeCells x.cells
  r.2.performStore id { x with cells := r.1 }

/-- An atomic of a block that ends, part by part: performed or not. -/
def State.looseAtomic (s : State) (id : Nat) (o : LaneOp) : State :=
  match o.kind with
  | .load => s
  | .atomic f =>
    (o.parts.filter fun p => p.2.val.isNone).foldl (fun (t : State) p =>
      let u := t.tickFree
      if Config.freeBool t.freeCtr then u.applyAtomic id o f [p] else u) s

/-- The cells of the entries that the write ports of a sequencer hold, or that are on their way there. -/
def Seq.pushedCells (q : Seq) : List Host.Cell :=
  (q.ports.flatMap fun p => p.2.writes.flatMap Prod.snd) ++
  q.ops.flatMap fun o => match o.2.dest with
    | .push _ _ cs => cs
    | _ => []

/-- Entries that the write ports of a sequencer hold, or that are on their way there: word by word performed or not. -/
def State.loosePushes (s : State) (b : Nat) : State :=
  let r := s.freeCells (s.seq b).pushedCells
  r.2.writeCells r.1 (s.blk b).vf

/-- A sequencer whose pushes have been performed. -/
def Seq.dropPushes (q : Seq) : Seq :=
  { q with
    ports := q.ports.mapv fun _ p => { p with writes := [] },
    ops := q.ops.keep fun _ o => match o.dest with
      | .push _ _ _ => false
      | _ => true }

/-- Every store and push of a block is performed, as STOP asks of the writes that it comes after (20 R411). -/
def State.performWrites (s : State) (b : Nat) : State :=
  let t := (s.stores.filter fun e => e.2.blk == b && !e.2.performed).foldl (fun (t : State) e => t.performStore e.1 e.2) s
  if (s.blk b).seq.isSome then (t.writeCells (s.seq b).pushedCells (s.blk b).vf).modSeq b Seq.dropPushes else t

/-- The stores of a block that are not performed are performed or discarded word by word. -/
def State.looseAll (s : State) (b : Nat) : State :=
  let s1 := (s.stores.filter fun e => e.2.blk == b && !e.2.performed).foldl (fun (t : State) e => t.looseStore e.1 e.2) s
  let s2 := (s.ops.filter fun e => e.2.blk == b).foldl (fun (t : State) e => t.looseAtomic e.1 e.2) s1
  if (s.blk b).seq.isSome then s2.loosePushes b else s2

/-- A unit belongs to a block. -/
def State.focusBlk (s : State) : Focus → Option Nat
  | .split b _ _ => some b
  | .seqr b => some b
  | .comet c => (s.comets.find c).map fun x => x.blk
  | _ => none

/-- The block of who asks for a translation, a comet context's among them. -/
def State.askerOwner (s : State) : Asker → Option Nat
  | .unit f => s.focusBlk f
  | .port b _ _ => some b
  | .engine id => (s.engines.find id).map fun o => o.blk
  | .walk _ => none

/-- The words that the stash of a block owns. -/
def State.stashWords (s : State) (b : Nat) : List Nat :=
  (s.owners.filter fun e => e.2.cache == stashCache b).map Prod.fst

/-- The stash of a block is written back (07 R163). -/
def State.drainStash (s : State) (b : Nat) : State :=
  let t := (s.dirtyStash b fun _ => true).revoke none (s.stashWords b)
  t.dropCache (stashCache b)

/-- Everything in flight of a block is gone: operations, stores, requests outside the package, engine operations, comet contexts,
monitors, requests for translations. -/
def State.dropUnits (s : State) (b : Nat) : State :=
  { s with
    ops := s.ops.keep fun _ o => o.blk != b,
    stores := s.stores.keep fun _ x => x.blk != b,
    outs := s.outs.keep fun _ r => s.askerOwner r.asker != some b,
    walkFaults := s.walkFaults.filter fun w => s.askerOwner w.asker != some b,
    walks := s.walks.mapv fun _ w => { w with joined := w.joined.filter fun a => s.askerOwner a != some b },
    engines := s.engines.keep fun _ o => o.blk != b,
    comets := s.comets.keep fun _ x => x.blk != b,
    monitors := s.monitors.keep fun _ m => m.blk != b }

/-- The facet on which tiles of a block are held (13 R280). -/
def State.heldOn (s : State) (b : Nat) : Option Nat := (s.facets.find? fun e => e.2.heldBlk == some b).map Prod.fst

/-- The bank of a block that ends (13 R279, R284): held tiles of it are freed, and ACCOWN.V is cleared where ACCOWN names its
context: on the facet that it holds, and on that which holds its tiles. Tiles held for another block of the context stay held
(log 85). -/
def State.endAcc (s : State) (b : Nat) : State :=
  let x := s.blk b
  let free (y : Facet) : Facet := if y.accV && y.accCtx == x.ctx then y.clearAcc else y
  let s1 := match s.heldOn b with
    | some f => s.modFacet f fun y => free y.freeHeld
    | none => s
  if x.phase == .resident then s1.modFacet x.facet free else s1

/-- A block leaves the machine, and its gang with the last member. -/
def State.removeBlock (s : State) (b : Nat) : State :=
  let t : State := { s with blocks := s.blocks.erase b }
  match (s.blk b).gang with
  | none => t
  | some g =>
    match s.gangs.find g with
    | some x => if x.members.any fun m => t.blocks.has m then t else { t with gangs := s.gangs.erase g }
    | none => t

/-- The end of a block (15 R319 steps 1-4); `aborted`: ABORTS counts it (R331); `counts`: its queue's counters are written,
which a function-level reset does not do (20 R410). -/
def State.finishBlock (s : State) (b : Nat) (aborted counts : Bool) : State :=
  let x := s.blk b
  let t := (((s.looseAll b).drainStash b).endAcc b).dropUnits b
  ((if counts then t.freeRecords x aborted else t).removeBlock b)

/-! ## The normal end (15 R319) -/

/-- Every access of the threads of a block is performed. -/
def State.allDone (s : State) (b : Nat) : Bool :=
  (s.ops.vals.all fun o => o.blk != b) && (s.stores.vals.all fun x => x.blk != b || x.performed) &&
  match (s.blk b).seq with
  | none => true
  | some q => q.landed && q.ports.all fun p => p.2.writes.isEmpty

/-- Every unit of a block has ended: its groups, its sequencer, its lanes on comet cores. -/
def State.unitsOver (s : State) (b : Nat) : Bool :=
  let x := s.blk b
  x.groups.vals.all (·.ended) &&
  (match x.seq with
    | some q => q.halted
    | none => true) &&
  s.comets.vals.all fun c => c.blk != b

/-- The block has ended: every unit, and every engine operation that it started. -/
def State.blockOver (s : State) (b : Nat) : Bool :=
  (s.blk b).phase == .resident && s.unitsOver b && (s.engines.vals.all fun o => o.blk != b) && s.allDone b

/-- BLOCK_END. The distributor's writes to the queue wait while its page is in the final block of a migration (18 R381). -/
def execBlockEnd (b : Nat) (s : State) : Out :=
  if s.blocks.has b && s.blockOver b && !s.pageHeld (s.blk b).queue then .next (s.finishBlock b false true) else .next s

/-! ## A rejected image (13 R283, R288; 15 R330, R331) -/

/-- The distributor ends a block whose image is rejected, with a park record of KIND 3; what such a record holds for the
fields of a unit is not stated (free values). FACET is that of a resident block. -/
def State.rejectImage (s : State) (b : Nat) : State :=
  let x := s.blk b
  let n := s.freeCtr
  let t := s.tickFree
  let u : State := { t with parks := t.parks ++
      [{ part := x.part, ctx := x.ctx, kind := 3, ptag := x.ptag, area := x.ctxArea, slot := 0, split := 0, lane := 0,
         cause := Config.freeWord n, epc := Config.freeDword n, info := Config.freeDword (n + 1),
         lmask := Config.freeDword (n + 2), facet := if x.phase == .resident then x.facet else 0xFFFFFFFF }] }
  u.finishBlock b true true

/-! ## The commands that end blocks (15 R331; 20 R403, R410, R411) -/

/-- A unit of a block that is out was saved parked. -/
def Block.savedParked (x : Block) (u : ParkUnit) : Bool :=
  match u with
  | .split g k => ((x.savedGroups.getD g Group.empty).spl k).parked
  | .seqr => match x.savedSeq with
    | some (q, _) => q.parked
    | none => false
  | .comet c => (x.savedComets.getD c Comet.empty).parked
  | .engine id _ => match x.savedOps.find id with
    | some o => o.parked
    | none => false

/-- The parked units of blocks of a context number, as a command names them, and the function may: PF0 any, a virtual
function those of its own contexts. The oldest block answers where several fit. -/
def State.unitParked (s : State) (b : Nat) (u : ParkUnit) : Bool :=
  let x := s.blk b
  if x.image then x.savedParked u && !x.resumed.contains u
  else
    match u with
    | .split g k => ((x.grp g).spl k).parked
    | .seqr => match x.seq with
      | some q => q.parked
      | none => false
    | .comet c => match s.comets.find c with
      | some y => y.blk == b && y.parked
      | none => false
    | .engine id _ => match s.engines.find id with
      | some o => o.blk == b && o.parked
      | none => false

/-- The block that a command names by a context number and a parked unit. -/
def State.parkedBlock (s : State) (fn ctx : Nat) (u : ParkUnit) : Option Nat :=
  (s.blocks.find? fun e => e.2.ctx == ctx && (fn == 0 || e.2.vf == fn) && s.unitParked e.1 u).map Prod.fst

/-- END: the block of a parked unit ends, and ABORTS counts it. Where it is being swapped out, the swap-out completes first, and
its image is discarded then (R334). -/
def execEndBlock (fn ctx : Nat) (u : ParkUnit) (s : State) : Out :=
  match s.parkedBlock fn ctx u with
  | none => .next s
  | some b =>
    if (s.blk b).preempt.isSome then .next (s.modBlk b fun x => { x with endAsked := true })
    else .next (s.finishBlock b true true)

/-- The blocks of a virtual function. -/
def State.vfBlocks (s : State) (v : Nat) : List Nat := (s.blocks.filter fun e => e.2.vf == v).map Prod.fst

/-- The dirty-page report (20 R411): a count, and an entry for each frame. -/
def reportBytes (fs : List Nat) : List Byte :=
  leBytes 8 fs.length ++ fs.flatMap fun f => leBytes 8 f

/-- STOP: every write of a virtual function is performed, its blocks end as END gives, and then the report and the status are
written, in this order; the report takes the frames written since the one before (by its accesses and its commands, log 156). -/
def execStop (fn vf report status : Nat) (s : State) : Out :=
  if fn != 0 && fn != vf then .next s
  else
    let t := (s.vfBlocks vf).foldl (fun (t : State) b => (t.performWrites b).finishBlock b true true) s
    let fs := sortN (t.vf vf).frames
    match t.writeSpace fn report (reportBytes fs) with
    | none => .next t
    | some u =>
      let w := u.modVf vf fun v => { v with frames := [] }
      match w.writeSpace fn status (leBytes 4 1) with
      | none => .next w
      | some z => .next z

/-- FUNCTION_LEVEL_RESET: the blocks of a virtual function end without a count, its translations and read-only copies are
dropped, and its queues are unregistered. -/
def execFunctionLevelReset (fn vf : Nat) (s : State) : Out :=
  if fn != 0 && fn != vf then .next s
  else
    let t := (s.vfBlocks vf).foldl (fun (t : State) b => t.finishBlock b false false) (s.discardFlits vf)
    let p := (t.vf vf).part
    .next
      { t with
        tlbs := t.tlbs.mapv fun _ es => es.filter fun e => e.vf != vf,
        walks := t.walks.keep fun _ w => w.vf != vf,
        walkFaults := t.walkFaults.filter fun w => w.vf != vf,
        copies := t.copies.keep fun c _ => !(List.range 4).any fun d => c == roCache d p,
        queues := t.queues.keep fun _ q => q.vf != vf }

end Sys2Proof.Machine
end

