-- ==== Sys2Proof/Machine/EvAdmit.lean ====
section
/-!
DEFINITION. Machine/EvAdmit.lean: admission of blocks: which facet admits a block, its launch, its restore from an image, the
choice among waiting blocks, reservations and the quantum (spec/15_die_work.md R324-R328; 13 R276-R281, R288; 14 R294,
R308; 20 R408).
-/

set_option linter.constructorNameAsVariable false

namespace Sys2Proof.Machine

/-! ## What a facet has left (15 R325) -/

/-- The blocks resident on a facet. -/
def State.residents (s : State) (f : Nat) : List (Nat × Block) :=
  s.blocks.filter fun e => e.2.phase == .resident && e.2.facet == f

/-- The tiles that a block needs (09 R196). -/
def Block.tilesNeeded (x : Block) : Nat := x.node.tilesNeeded x.bound.length
/-- The tiles that a resident block holds: those of ended groups are free (09 R199). -/
def Block.tilesUsed (x : Block) : Nat := x.tilesNeeded - (x.tiles.filter fun e => e.2 == .free).length
/-- The core memory of a block, in whole units (09 R205). -/
def Block.memUsed (x : Block) : Nat := unit4k x.node.shared + unit4k x.node.stash
/-- The facet slots that a resident block holds. -/
def Block.slotsUsed (x : Block) : Nat := (x.groups.filter fun e => !e.2.ended).length

/-- Facet f admits block b (R325). `held`: held tiles of other blocks count as used (R280). -/
def State.facetAdmits (s : State) (b f : Nat) (held : Bool) : Bool :=
  let x := s.blk b
  let n := x.node
  let core := coreOfFacet f
  let c := s.facetWidth core
  let rs := (s.residents f).map Prod.snd
  let fx := s.facet f
  let kept := if held && fx.heldBlk != some b then fx.held.length else 0
  decide (f % 4 < s.facetCount core) && decide (fx.fown < 20) && s.partOfTag n.part == some fx.fown &&
  !s.outOfEnergy fx.fown &&
  decide (n.groups + (rs.map Block.slotsUsed).sum ≤ 16 * c) &&
  decide (x.tilesNeeded + kept + (rs.map Block.tilesUsed).sum ≤ 1024 * c) &&
  decide (unit4k n.shared ≤ 128 * 1024 * c) && decide (unit4k n.stash ≤ 64 * 1024 * c) &&
  decide (x.memUsed + (rs.map Block.memUsed).sum ≤ 176 * 1024 * c) &&
  (n.facetw == 0 || (n.facetw == c && rs.all fun y => y.seq.isNone)) &&
  decide (x.savedComets.length ≤ s.freeContexts (clusterOfCore core) x.part)

/-! ## The launch (03 R75-R77; 09 R199; 10 R227; 13 R277, R279; 15 R318, R328) -/

/-- A group at launch on a facet of c columns. -/
def launchGroup (n : Node) (c i : Nat) (slot : Dword) (count now : Nat) : Group :=
  { Group.empty with
    splits := [(0, { Split.empty with pc := BitVec.ofNat 64 n.code, am := allLanes n.width, cm := allLanes n.width,
                                      pathStart := now, lastIssue := now })],
    sregs := [(0, lowWord slot), (1, highWord slot), (2, BitVec.ofNat 32 count)].filter fun e => decide (e.1 < n.sregs),
    port := i % c, sector := i / c % (64 / n.width) }

/-- The address of the first slot of a block's records. -/
def State.firstSlot (s : State) (x : Block) : Nat :=
  match s.queues.find x.queue with
  | some q => q.slotAddr (x.records.headD 0)
  | none => 0

/-- A block is placed on a facet: one that no other block of the facet shares starts with an empty statistics queue, where the
facet served another context (10 R238, log 141). -/
def State.settleStats (s : State) (b f : Nat) : State :=
  let c := (s.blk b).ctx
  let t := if (s.facet f).statCtx != some c && ((s.residents f).all fun e => e.1 == b) then s.clearStats b f else s
  t.modFacet f fun x => { x with statCtx := some c }

/-- Block b starts on facet f. -/
def State.launch (s : State) (b f : Nat) : State :=
  let x := s.blk b
  let n := x.node
  let c := s.facetWidth (coreOfFacet f)
  let slot := BitVec.ofNat 64 (s.firstSlot x)
  let s1 := s.modBlk b fun y =>
    { y with
      phase := .resident, facet := f, residentSince := s.now,
      groups := (List.range n.groups).map fun i => (i, launchGroup n c i slot x.records.length s.now),
      seq := if n.facetw = 0 then none else some (Seq.launch n.facetw (BitVec.ofNat 64 n.seqcode)) }
  let s2 := if n.facetw != 0 && !(s1.facet f).accV then
      s1.writeAcc b f (BitVec.ofNat 32 (2 ^ 31 + x.ctx % 2 ^ 16))
    else s1
  let s3 := (s2.putImage b 0 0 [dataSection 1 x.blockData]).modBlk b fun y => { y with saved := [(1, x.blockData)] }
  (s3.settleStats b f).selfInvalidate (coreOfFacet f)

/-! ## The restore (13 R276, R279, R281; 14 R308) -/

/-- The held tiles of a facet become the bank of their block again (R281). -/
def State.reclaim (s : State) (b f : Nat) : State :=
  let fx := s.facet f
  if fx.heldBlk != some b || !fx.accV || fx.accCtx != (s.blk b).ctx then s
  else
    (s.modBlk b fun x => x.fillBank (fx.held.map fun e =>
      (e.1, fx.heldStatus.getD e.1 (.owned (.seqCol 0)), e.2))).modFacet f Facet.freeHeld

/-- A saved lane context gets a context of the cluster again, whose lane cache holds nothing stale for it, and its monitors
follow it. -/
def State.placeComet (s : State) (b c0 : Nat) (y : Comet) : State :=
  let x := s.blk b
  match s.pickContext (clusterOfCore x.core) x.die with
  | none => s
  | some (c, wait) =>
    let t : State :=
      { s with
        comets := s.comets.set c { y with blk := b, notBefore := s.now + wait, started := true },
        monitors := s.monitors.mapv fun _ m => if m.blk == b && m.comet == some c0 then { m with comet := some c } else m }
    t.dropLaneCache c

/-- The service of a fault of an engine operation: mended, it goes on; else it ends, with the fault in the engine's
registers, and its done counter still rises, but for a fault on the counter. -/
def State.serveEngine (s : State) (b : Nat) (o : EngineOp) (mended : Bool) : Option EngineOp × State :=
  let go : EngineOp := { o with parked := false, fault := none }
  match o.fault with
  | none => (some go, s)
  | some (c, a) =>
    if mended then (some go, s)
    else
      let t := s.setEngErr b o.grp o.engine c a
      let ctr := regAddr o.regs (doneReg o.engine)
      let atCtr := a.toNat == ctr || (engLocal ctr && a.toNat == ctr % 2 ^ 32)
      (if atCtr then none else some { go with failed := true }, t)

/-- A sequencer issues again; its ports fetch again the elements that faults have stopped them at (10 R233). -/
def Seq.resumed (q : Seq) : Seq :=
  { q with parked := false, trapped := false, ports := q.ports.mapv fun _ p => { p with fault := none } }

/-- A parked unit of a resident block issues again (15 R331). A split that a join timeout parked waits at its JOIN again, and
counts anew (log 34). -/
def State.resumeUnit (s : State) (b : Nat) (u : ParkUnit) : State :=
  let wake (y : Comet) : Comet :=
    { y with parked := false, pc := (y.trap.map fun t => t.rpc).getD y.pc, trap := none, wait := .ready }
  match u with
  | .split g k => s.modSpl b g k fun y =>
      if y.wait == .join then { y with parked := false, joinSince := none }
      else { y with parked := false, pc := (y.trap.map fun t => t.rpc).getD y.pc, wait := .ready,
                    trap := if y.priv then y.trap else none }
  | .seqr => (s.modSeq b Seq.resumed).modFacet (s.blk b).facet fun x =>
      { x with record := { x.record with scause := x.record.scause &&& 0x7FFFFFFF } }
  | .comet c => if (s.ctx c).blk == b && (s.ctx c).parked then s.modCtx c wake else s
  | .engine id mended =>
    match s.engines.find id with
    | some o =>
      let r := s.serveEngine b o mended
      { r.2 with engines := match r.1 with
          | some y => r.2.engines.set id y
          | none => r.2.engines.erase id }
    | none => s

/-- The units that were resumed while their block was out issue again; a lane is named by the context that it had, which
`place` tells its new one from. -/
def State.resumeSaved (s : State) (b : Nat) (place : Nat → Nat) (us : List ParkUnit) : State :=
  us.foldl (fun (t : State) u => match u with
    | .comet c => t.resumeUnit b (.comet (place c))
    | v => t.resumeUnit b v) s

/-- Saved lanes get contexts, in order; the second part tells the new context of each. -/
def State.placeComets (s : State) (b : Nat) : List (Nat × Comet) → State × List (Nat × Nat)
  | [] => (s, [])
  | (c0, y) :: t =>
    let c := ((s.pickContext (clusterOfCore (s.blk b).core) (s.blk b).die).map Prod.fst).getD 0
    let r := (s.placeComet b c0 y).placeComets b t
    (r.1, (c0, c) :: r.2)

/-- The cluster barriers of a gang are those of the image of the member with the lowest cluster core index (14 R299). -/
def State.restoreBars (s : State) (b : Nat) (d : SectionData) : State :=
  match (s.blk b).gang with
  | none => s
  | some g =>
    match s.gangs.find g, d with
    | some q, .bars bs =>
      let first := q.members.all fun m => (s.blk m).phase != .resident || m == b ||
        decide (clusterIx (s.blk b).core < clusterIx (s.blk m).core)
      if q.cluster && first then
        { s with gangs := s.gangs.set g { q with bars := (bs.filter fun e => decide (16 ≤ e.1)).map fun e =>
            (e.1 - 16, { (default : GangBar) with bar := e.2 }) } }
      else s
    | _, _ => s

/-- The lanes that a block's image holds. -/
def State.imageLanes (s : State) (b : Nat) (f : Nat → Nat) : Table Comet :=
  match s.sectionOf b f 6 with
  | .lanes cs => cs
  | _ => []

/-- Block b goes on from its image on facet f, where the image is accepted (R288): the sections are loaded, ports and engine
operations stand where they stood, and the units issue again once the reserved translations are there (R276). An image of another
context, or with more lanes than contexts are free, is rejected too: R288 does not list these tests for a restore (DESIGN CHOICE, log
165). -/
def State.restore (s : State) (b f : Nat) : State :=
  let x := s.blk b
  let fn := s.imageFn b
  let lanes := s.imageLanes b fn
  let y := s.loadSections b fn
  let n := clusterOfCore (coreOfFacet f)
  if !s.imgOk fn (s.tagOf x.part) || s.imgCtx fn != x.ctx || decide (s.freeContexts n x.part < lanes.length) then
    s.rejectImage b
  else
    let c := s.facetWidth (coreOfFacet f)
    let s1 := (s.touchImage b).modBlk b fun _ =>
      { y with
        phase := .resident, facet := f, residentSince := s.now, image := false, reentry := false, preempt := none,
        saved := [], resumed := [],
        groups := y.groups.mapv fun i g => { g with port := i % c, sector := i / c % (64 / y.node.width) },
        seq := y.seq.map fun q => { q with stopped := false, forced := false, liveix := none, nextIssue := s.now } }
    let s2 := match s.sectionOf b fn 8 with
      | .seqr _ r => s1.modFacet f fun z => { z with record := r }
      | _ => s1
    let s3 : State := { s2 with engines := match s.sectionOf b fn 10 with
      | .engines os => os.foldl (fun t e => Table.set t e.1 { e.2 with blk := b }) s2.engines
      | _ => s2.engines }
    let r := (s3.restoreBars b (s.sectionOf b fn 14)).placeComets b lanes
    let s4 := r.1.resumeSaved b (fun c0 => ((r.2.find? fun e => e.1 == c0).map Prod.snd).getD c0) x.resumed
    ((s4.settleStats b f).reclaim b f).selfInvalidate (coreOfFacet f)

/-- Block b enters facet f. -/
def State.enter (s : State) (b f : Nat) : State := if (s.blk b).image then s.restore b f else s.launch b f

/-! ## The spill before an admission (13 R280, R281, R283 step 1) -/

/-- The block whose bank ACCOWN of a facet names: the holder of the held tiles, or else a block of the named context, one with
an image before others. -/
def State.holder (s : State) (f : Nat) : Option Nat :=
  match (s.facet f).heldBlk with
  | some h => some h
  | none =>
    if (s.facet f).accV then
      let bs := s.blocks.filter fun e => e.2.ctx == (s.facet f).accCtx
      ((bs.find? fun e => e.2.image).orElse fun _ => bs.head?).map Prod.fst
    else none

/-- The spill of R283 step 1: the held tiles of a facet go into their holder's image; where it does not take them they are
discarded, and the block of the named context, if there is one, is ended as a rejected image is. -/
def State.spillHeld (s : State) (f : Nat) : State :=
  match s.holder f with
  | none => s.modFacet f fun y => y.freeHeld.clearAcc
  | some h =>
    let x := s.blk h
    let fn := s.imageFn h
    let t := if x.image then s.touchImage h else s
    if x.image && s.spillOk fn f (s.tagOf x.part) then
      let at_ := match s.imgOwned fn with
        | some (_, e) => x.imageAt e.offset
        | none => x.imageAt 0
      ((t.touchCtx h (x.imageAt 0) (64 + 16 * s.imgCount fn) true).touchCtx h at_ (264 * (s.facet f).heldTiles.length) true).spill
        fn f x.vf
    else (t.modFacet f fun y => y.freeHeld.clearAcc).rejectImage h

/-! ## Where a block goes (15 R324, 14 R294) -/

/-- The facets of some cores, in order. -/
def State.facetsOf (s : State) (cores : List Nat) : List Nat :=
  cores.flatMap fun c => (List.range (s.facetCount c)).map fun i => 4 * c + i

/-- Admission without and then with a spill of what others hold. -/
def State.admitPlain (s : State) (b : Nat) (fs : List Nat) : Option State :=
  match fs.find? fun f => s.facetAdmits b f true with
  | some f => some (s.enter b f)
  | none =>
    match fs.find? fun f => s.facetAdmits b f false with
    | some f =>
      let t := s.spillHeld f
      if t.facetAdmits b f true then some (t.enter b f) else none
    | none => none

/-- Admission of a block to one of some cores. A block whose tiles are held is offered to that facet first; elsewhere its
tiles are spilled before it enters (13 R281). One that another facet would admit only once tiles held there for a third block are
spilled waits (DESIGN CHOICE, log 164). -/
def State.admitTo (s : State) (b : Nat) (cores : List Nat) : Option State :=
  let fs := s.facetsOf cores
  match s.heldOn b with
  | none => s.admitPlain b fs
  | some h =>
    if fs.contains h && s.facetAdmits b h true then some (s.enter b h)
    else if fs.any fun f => f != h && s.facetAdmits b f true then
      let t := s.spillHeld h
      if t.blocks.has b then t.admitPlain b (fs.filter (· != h)) else some t
    else none

/-- The cores of the block's die, from the preferred one, with wrap. -/
def Block.coreOrder (x : Block) : List Nat := (List.range 96).map fun i => 96 * x.placeDie + (x.placeCore + i) % 96

/-- The cores of cluster u on the block's die, from the preferred one. -/
def Block.clusterOrder (x : Block) (u : Nat) : List Nat :=
  (List.range 8).map fun i => 96 * x.placeDie + 8 * u + (x.placeCore + i) % 8

/-- Admit every block of a list or none; in a cluster, on distinct cores of it. -/
def State.admitAll (s : State) (u : Option Nat) : List Nat → List Nat → Option State
  | _, [] => some s
  | used, b :: bs =>
    let cores := match u with
      | some u => ((s.blk b).clusterOrder u).filter fun c => !used.contains c
      | none => (s.blk b).coreOrder
    match s.admitTo b cores with
    | none => none
    | some t => t.admitAll u ((t.blk b).core :: used) bs

/-- The blocks of a gang whose tiles a facet holds: they are offered their facets before the others (13 R281). -/
def State.heldFirst (s : State) (ms : List Nat) : List Nat :=
  (ms.filter fun m => (s.heldOn m).isSome) ++ ms.filter fun m => (s.heldOn m).isNone

/-- The clusters of a die in the order in which they are offered to a block cluster: those with a facet that holds tiles of a member
and admits it (13 R281), then from the preferred one. -/
def State.clusterList (s : State) (ms : List Nat) : List Nat :=
  let u := (s.blk (ms.headD 0)).placeU
  (ms.filterMap fun m => match s.heldOn m with
    | some f => if s.facetAdmits m f true && coreOfFacet f / 96 == (s.blk m).placeDie then some (coreOfFacet f % 96 / 8) else none
    | none => none) ++ (List.range 12).map fun i => (u + i) % 12

/-- The first cluster that takes all members of a block cluster. -/
def State.admitCluster (s : State) (ms : List Nat) : Option State :=
  (s.clusterList ms).findSome? fun u => s.admitAll (some u) [] (s.heldFirst ms)

/-- Admit a waiting block, with its gang, whose blocks all wait (R327). -/
def State.tryEntry (s : State) (b : Nat) : Option State :=
  let x := s.blk b
  match x.gang with
  | none => s.admitAll none [] [b]
  | some g =>
    let q := s.gangs.getD g default
    let ms := q.members.filter fun m => s.blocks.has m
    if q.cluster then s.admitCluster ms else s.admitAll none [] (s.heldFirst ms)


/-! ## The waiting blocks of a die (15 R326; 20 R408) -/

/-- A block waits for admission: new or pre-empted, or swapped out and released. -/
def Block.waits (x : Block) : Bool := x.phase == .waiting || (x.phase == .swapped && x.reentry)

/-- A block or, in a gang, every member that is left waits. -/
def State.entryWaits (s : State) (b : Nat) : Bool :=
  let x := s.blk b
  match x.gang with
  | none => x.waits && x.node.gangn == 0
  | some g => ((s.gangs.getD g default).members.filter fun m => s.blocks.has m).all fun m =>
      (s.blk m).phase != .resident && ((s.blk m).waits || x.waits)

/-- The virtual functions of a partition that have waiting blocks. -/
def State.waitingVfs (s : State) (p : Nat) : List Nat :=
  sortN (dedupN ((s.blocks.filter fun e => e.2.part == p && e.2.waits).map fun e => e.2.vf))

/-- The next virtual function after one, in ascending order with wrap. -/
def nextVf (v : Nat) (vs : List Nat) : Option Nat :=
  match vs.find? fun w => decide (v < w) with
  | some w => some w
  | none => vs.head?

/-- Run another virtual function of a partition, with a full slice. -/
def State.runVf (s : State) (p : Nat) (v : Option Nat) : State :=
  s.modPart p fun x => { x with runVf := v, sliceStart := s.now }

/-- A partition whose running virtual function has no resident and no waiting block goes on to the next that has waiting
blocks (20 R408). -/
def State.settleVf (s : State) (p : Nat) : State :=
  let vs := s.waitingVfs p
  match (s.part p).runVf with
  | none => if vs.isEmpty then s else s.runVf p (nextVf 0 vs)
  | some v =>
    if vs.contains v || s.blocks.any (fun e => e.2.part == p && e.2.vf == v && e.2.phase == .resident) || vs.isEmpty then s
    else s.runVf p (nextVf v vs)

/-- Insert a block by priority, highest first, then by its first launch. -/
def insertEntry (s : State) (b : Nat) : List Nat → List Nat
  | [] => [b]
  | c :: t =>
    let p := (s.blk b).node.priority
    let q := (s.blk c).node.priority
    if q < p || (p == q && b ≤ c) then b :: c :: t else c :: insertEntry s b t

/-- The virtual function of a block runs: the slice is its own, and no block of another one that goes out is still resident
(20 R408). -/
def State.vfRuns (s : State) (x : Block) : Bool :=
  (s.part x.part).runVf == some x.vf &&
  s.blocks.all fun e => e.2.part != x.part || e.2.phase != .resident || e.2.vf == x.vf

/-- A block waits to be admitted now. -/
def State.mayEnter (s : State) (b : Nat) : Bool := s.entryWaits b && s.vfRuns (s.blk b)

/-- The waiting blocks of a die, in the distributor's order, whose virtual function runs. -/
def State.waitList (s : State) (d : Nat) : List Nat :=
  ((s.blocks.filter fun e => s.mayEnter e.1 && e.2.placeDie == d).map Prod.fst).foldr (fun b l => insertEntry s b l) []

/-- The energy that the part estimates for a clock, added to ENUSED; a clock in which the admission of a block that waits for it
was refused for lack of energy counts (17 R357, 20 R417). -/
def State.energyClock (s : State) : State :=
  (List.range 20).foldl (fun t p =>
    let refused := t.outOfEnergy p && t.blocks.any fun e => e.2.part == p && t.mayEnter e.1
    t.modPart p fun x =>
      { x with enused := min (x.enused + Config.energy s.now p) (2 ^ 64 - 1),
               throttled := if refused then x.throttled + 1 else x.throttled }) s

/-- One block of the list is tried. A reservation of a die that it or its gang enters lets only its own block in (R326). -/
def State.admitStep (s : State) (d b : Nat) : State :=
  let gangOf (i : Nat) : Option Nat := (s.blk i).gang
  let mates := match gangOf b with
    | none => [b]
    | some g => (s.gangs.getD g default).members.filter fun m => s.blocks.has m
  let free := (d :: mates.map fun m => (s.blk m).placeDie).all fun e => match s.reserve.find e with
    | none => true
    | some r => mates.contains r
  if !free || !s.blocks.has b || !s.entryWaits b then s
  else
    match s.tryEntry b with
    | none => s
    | some t => { t with reserve := t.reserve.keep fun _ r => t.blocks.has r && t.entryWaits r }

/-- Reservations whose block no longer waits, or whose virtual function no longer runs (20 R408), stand no more. -/
def State.dropReserves (s : State) : State :=
  { s with reserve := s.reserve.keep fun _ r =>
      s.blocks.has r && s.entryWaits r && (s.part (s.blk r).part).runVf == some (s.blk r).vf }

/-- BLOCK_ADMISSION: the distributor of a die admits, from the front, every block that some facet admits. -/
def execBlockAdmission (d : Nat) (s : State) : Out :=
  if 3 < d then .next s
  else
    let t := ((List.range 20).foldl (fun (t : State) p => t.settleVf p) s).dropReserves
    .next ((t.waitList d).foldl (fun (u : State) b => u.admitStep d b) t)

/-! ## Reservation, quantum and slices (15 R326, R327; 20 R408) -/

/-- RESERVATION: the front block has waited 65,536 clocks. -/
def execReservation (d : Nat) (s : State) : Out :=
  match s.waitList d with
  | [] => .next s
  | b :: _ =>
    if s.reserve.has d || s.now < (s.blk b).waitingSince + 65536 then .next s
    else .next { s with reserve := s.reserve.set d b }

/-- Ask for the pre-emption of a block and of every member of its gang (R327). -/
def State.wantPreempt (s : State) (b code : Nat) : State :=
  let ms := match (s.blk b).gang with
    | none => [b]
    | some g => (s.gangs.getD g default).members
  ms.foldl (fun (t : State) m => t.modBlk m fun x =>
    if x.phase == .resident && x.preempt.isNone then { x with preempt := some code } else x) s

/-- The resident blocks of a die that the quantum may pre-empt for a block, youngest first. -/
def State.quantumList (s : State) (d r : Nat) : List Nat :=
  let x := s.blk r
  ((s.blocks.filter fun e => e.2.phase == .resident && e.2.die == d && e.2.part == x.part &&
    decide (e.2.node.priority ≤ x.node.priority) && decide (e.2.residentSince + 700000 ≤ s.now)).map Prod.fst).reverse

/-- QUANTUM_PREEMPTION: while a reservation stands and its block does not fit, the youngest eligible block goes; the next one
only after it has gone. -/
def execQuantumPreemption (d : Nat) (s : State) : Out :=
  match s.reserve.find d with
  | none => .next s
  | some r =>
    let going := s.blocks.any fun e => e.2.phase == .resident && e.2.die == d && e.2.preempt.isSome
    if going || (s.tryEntry r).isSome then .next s
    else
      match s.quantumList d r with
      | [] => .next s
      | b :: _ => .next (s.wantPreempt b 0)

/-- VF_SLICE_END: the slice of a partition is over; when another virtual function has waiting blocks, the running one's blocks
are pre-empted and the next one runs, once they are out. -/
def execVfSliceEnd (p : Nat) (s : State) : Out :=
  let x := s.part p
  match x.runVf with
  | none => .next s
  | some v =>
    if s.now < x.sliceStart + x.slice then .next s
    else
      match nextVf v ((s.waitingVfs p).filter (· != v)) with
      | none => .next (s.runVf p (some v))
      | some w =>
        let bs := (s.blocks.filter fun e => e.2.part == p && e.2.vf == v && e.2.phase == .resident).map Prod.fst
        .next ((bs.foldl (fun (t : State) b => t.wantPreempt b 0) s).runVf p (some w)).dropReserves

end Sys2Proof.Machine
end

