-- ==== Sys2Proof/Machine/EvFetch.lean ====
section
/-!
DEFINITION. Machine/EvFetch.lean: the traps of a fetched word that is no instruction and of a fetch that faults
(spec/02_encoding.md R46; 06 R141; 13 R266, R267).
-/

namespace Sys2Proof.Machine

/-- ILLEGAL_INSTRUCTION: the unit in focus has fetched a lane word that does not decode, and takes the illegal-instruction
trap. -/
def execIllegalInstruction (w : Word) (s : State) : Out :=
  if (decodeLane w 0).isSome || !s.issuing then .next s else .next (s.takeTrap 0x00)

/-- INSTRUCTION_FETCH_FAULT: the fetch of the unit in focus has met a fault: its trap, with EPC at the address fetched and
INFO the address that faulted. -/
def execInstructionFetchFault (cause : Nat) (addr : Dword) (s : State) : Out :=
  match s.focus with
  | .seqr b => if s.hasSeq b then .next (s.seqTrap b cause 0 0 0 addr.toNat) else .next s
  | _ => if s.issuing then .next (((s.countFaulted s.site addr.toNat cause).trapWith cause s.lanes addr).clearFaults (.unit s.focus)) else .next s

end Sys2Proof.Machine
end

