-- ==== Sys2Proof/Machine/EvMigrate.lean ====
section
/-!
DEFINITION. Machine/EvMigrate.lean: the migration of a page to a new home and the change of a host page's bias
(spec/18_package_memory.md R380-R383; 20 R416).

The lines of a pass are read one per 4 clocks (`State.migrateClock`). A command that names a page whose migration is under
way waits as an entry of pass 0.
-/

set_option linter.constructorNameAsVariable false

namespace Sys2Proof.Machine

/-! ## The checks of a descriptor (R380) -/

/-- SIZE names a contiguity group. -/
def isGroup (size : Nat) : Bool := size == 1 || size == 3

/-- A value is a valid leaf of the page size, placed as R373 asks. -/
def pteOk (n size : Nat) : Bool :=
  let p := decodePte n
  let level := if size ≤ 1 then 3 else if size ≤ 3 then 2 else 1
  p.v && p.leaf && !malformed p level true && p.cg == isGroup size && p.addr % pageBytes size == 0 &&
  !badPlace p (pageBytes size)

/-- Entry i of a group by the value of its first. -/
def memberPte (n size i : Nat) : Nat := n + i * (pageBytes size / 16)

/-- The fields that a migration leaves: all but ADDR, PIN, HDIE, A and D. -/
def fixedFields (n : Nat) : Pte := { decodePte n with addr := 0, pin := false, hdie := 0, a := false, d := false }

/-- The entries of a leaf. -/
def leafCount (size : Nat) : Nat := if isGroup size then 16 else 1

/-- The members of a group agree: they share every bit but A and D, with consecutive frames (16 R343). -/
def State.groupOk (s : State) (leaf size : Nat) : Bool :=
  !isGroup size ||
  (leaf % 128 == 0 && (List.range 16).all fun i =>
    { decodePte (s.mem.read (leaf + 8 * i) 8) with a := false, d := false } ==
      { decodePte (memberPte (s.mem.read leaf 8) size i) with a := false, d := false })

/-- Two values place their pages on storage that overlaps. -/
def pagesMeet (a b size : Nat) : Bool :=
  let frames (n : Nat) : List Nat := (List.range (pageBytes size / 4096)).map fun i => pteKey n (4096 * i)
  (frames a).any (frames b).contains

/-- The checks of R380, for an old value. -/
def State.migrOk (s : State) (m : Migr) (old : Nat) : Bool :=
  decide (m.size ≤ 4) && m.leaf % 8 == 0 && pteOk old m.size && pteOk m.newPte m.size && s.groupOk m.leaf m.size &&
  fixedFields old == fixedFields m.newPte &&
  (if m.bias then m.newPte == old else !pagesMeet old m.newPte m.size)

/-! ## The start -/

/-- Write the status word of a migration; the address is PF0's. -/
def State.putStat (s : State) (m : Migr) (v : Nat) : State := (s.writeSpace 0 m.stat (leBytes 8 v)).getD s

/-- Start a migration that waits: its checks, and pass 1; or status 3. -/
def State.startMigr (s : State) (id : Nat) (m : Migr) : State :=
  let old := s.mem.read m.leaf 8
  if !s.migrOk m old then ({ s with migrs := s.migrs.erase id } : State).putStat m 3
  else
    let x := { m with oldPte := old, pass := 1, start := s.now, dirty := [] }
    { s with migrs := s.migrs.set id { x with todo := x.lines } }

/-- A migration that is over: its status. -/
def State.endMigr (s : State) (id : Nat) (m : Migr) (v : Nat) : State :=
  ({ s with migrs := s.migrs.erase id } : State).putStat m v

/-- A descriptor. -/
def migrOf (d : List Byte) (bias : Bool) : Migr :=
  { leaf := canon (leVal (d.take 8)), oldPte := 0, newPte := leVal ((d.drop 8).take 8), vf := leVal ((d.drop 16).take 2),
    size := leVal ((d.drop 18).take 1), va := leVal ((d.drop 24).take 8), stat := leVal ((d.drop 32).take 8), bias := bias,
    pass := 0, start := 0, todo := [], dirty := [], final := none }

/-- A command of PF0 with its BIAS bit. -/
def migrateRun (fn desc : Nat) (bias : Bool) (s : State) : Out :=
  if fn != 0 then .next s
  else
    match s.readSpace 0 desc 64 with
    | none => .next s
    | some d =>
      if bit (leVal ((d.drop 19).take 1)) 0 != bias then .next s
      else
        let m := migrOf d bias
        let t : State := { s with migrs := s.migrs.set s.nextId m, nextId := s.nextId + 1 }
        if s.migrs.any fun e => e.2.leaf == m.leaf then .next t else .next (t.startMigr s.nextId m)

/-- MIGRATE. -/
def execMigrate (fn desc : Nat) (s : State) : Out := migrateRun fn desc false s
/-- MIGRATE_BIAS. -/
def execMigrateBias (fn desc : Nat) (s : State) : Out := migrateRun fn desc true s

/-! ## The passes (R381) -/

/-- Copy a line from its old to its new place, poison with it, through the slice of its new home; of a host page, write its owned
words back (R383). A copy is no store: it arms no byte-count range (R382). -/
def State.copyLine (s : State) (m : Migr) (line : Nat) : State :=
  let ws := (List.range 32).map (line / 4 + ·)
  if m.bias then s.revoke none ws
  else
    let new := m.moved line
    let t := (s.writeHome (cellsAt new (s.mem.bytes line 128))).touchLine m.vf false false new
    { t with poison := t.poison ++ (ws.filter s.poison.contains).map fun w => new / 4 + (w - line / 4) }

/-- The oldest command that waits for a page starts once no migration of the page is under way. -/
def State.startWaiting (s : State) : State :=
  match s.migrs.find? fun e => e.2.pass == 0 && !s.migrs.any fun x => x.2.leaf == e.2.leaf && x.2.pass != 0 with
  | some e => s.startMigr e.1 e.2
  | none => s

/-- A clock: a command that waits may start, and each migration in a pass reads its next line, one per 4 clocks. -/
def State.migrateClock (s0 : State) : State :=
  let s := s0.startWaiting
  s.migrs.foldl (fun (t : State) e =>
    match e.2.todo with
    | [] => t
    | l :: rest =>
      if t.now < e.2.start then t
      else
        let u := t.copyLine e.2 l
        { u with migrs := u.migrs.modify e.1 fun m => { m with todo := rest, start := t.now + 4 } }) s

/-- MIGRATION_PASS_END: the block begins when at most 64 lines are dirty; after the eighth pass the page stays, status 2. -/
def execMigrationPassEnd (id : Nat) (s : State) : Out :=
  match s.migrs.find id with
  | none => .next s
  | some m =>
    if m.pass = 0 || m.final.isSome || !m.todo.isEmpty then .next s
    else if m.dirty.length ≤ 64 then
      .next { s with migrs := s.migrs.set id { m with final := some s.now, bound := s.nextId } }
    else if 8 ≤ m.pass then .next (s.endMigr id m 2)
    else
      let n := { m with pass := m.pass + 1, todo := m.lines.filter m.dirty.contains, dirty := [], start := s.now }
      .next { s with migrs := s.migrs.set id n }

/-! ## The final block (R381, R382) -/

/-- A distributor's watch moves to the new home and stays armed. -/
def Migr.movedWatch (m : Migr) (w : QWatch) : QWatch :=
  { w with key := m.moved w.key, die := if m.covers w.key then homeDie (m.moved w.key) else w.die }

/-- A queue whose descriptor, or whose watched words, move. -/
def Migr.movedQueue (m : Migr) (q : Queue) : Queue :=
  { q with key := m.moved q.key, tailW := q.tailW.map m.movedWatch, stampW := q.stampW.map m.movedWatch }

/-- Keys of cells that move. -/
def Migr.movedCells (m : Migr) (cs : List Host.Cell) : List Host.Cell := cs.map fun c => (m.moved c.1, c.2)

/-- A table whose numbers are keys. -/
def Migr.movedTable {α : Type} (m : Migr) (t : Table α) : Table α :=
  t.foldl (fun u e => Table.set u (m.moved e.1) e.2) []

/-- What a block holds by key: pushes in flight and held by ports, die barriers that it waits at, its queue. -/
def Migr.movedBlock (m : Migr) (x : Block) : Block :=
  { x with
    queue := m.moved x.queue,
    groups := x.groups.mapv fun _ g => { g with splits := g.splits.mapv fun _ k =>
      { k with wait := match k.wait with
        | .blocked (.dieBarrier o a ls) n => .blocked (.dieBarrier (m.moved o) a ls) n
        | w => w } },
    seq := x.seq.map fun q => { q with
      ops := q.ops.mapv fun _ o => { o with dest := match o.dest with
        | .push c z cs => .push c z (m.movedCells cs)
        | d => d },
      ports := q.ports.mapv fun _ p => { p with writes := p.writes.map fun w => (w.1, m.movedCells w.2) } } }

/-- Held accesses go to the new home, armed monitors move and stay armed, and what is known by its key is known by the new
one. -/
def State.moveKeys (s : State) (m : Migr) : State :=
  { s with
    ops := s.ops.mapv fun _ o => { o with acc := o.acc.map fun a => { a with key := m.moved a.key } },
    stores := s.stores.mapv fun _ x => { x with cells := if x.shared.isSome then x.cells else m.movedCells x.cells },
    monitors := s.monitors.mapv fun _ w => { w with
      key := m.moved w.key, die := if m.covers w.key then homeDie (m.moved w.key) else w.die },
    armed := s.armed.map fun a => { a with obj := m.moved a.obj },
    dbars := m.movedTable s.dbars,
    outs := s.outs.mapv fun _ r => { r with key := m.moved r.key },
    queues := (m.movedTable s.queues).mapv fun _ q => m.movedQueue q,
    blocks := s.blocks.mapv fun _ x => m.movedBlock x,
    migrs := s.migrs.mapv fun _ y => { y with leaf := m.moved y.leaf } }

/-- The words of a moving page that caches own. -/
def State.pageOwned (s : State) (m : Migr) : List Nat := (s.owners.filter fun e => m.covers (4 * e.1)).map Prod.fst

/-- The leaf entries take NEWPTE (R380). -/
def State.writeLeaves (s : State) (m : Migr) : State :=
  (List.range (leafCount m.size)).foldl (fun (t : State) i =>
    t.writeHome (cellsAt (m.leaf + 8 * i) (leBytes 8 (memberPte m.newPte m.size i)))) s

/-- The bias of the pages of a host page, as the bias table has it now (20 R416, R383). -/
def State.takeBias (s : State) (m : Migr) : State :=
  let ps := (List.range (pageBytes m.size / 4096)).map fun i => pteKey m.oldPte (4096 * i) / 4096
  let inDevice (p : Nat) : Bool :=
    let i := p - 0x800000000
    (s.mem.get (canon (s.biasBase + i / 8))).getLsbD (i % 8)
  { s with devBias := s.devBias.filter (fun p => !ps.contains p) ++ ps.filter inDevice }

/-- A sequencer reserves, for a TLD or TST in flight or for one that it holds, engine addresses of a page (11 R259). -/
def Seq.reserves (q : Seq) (va n : Nat) : Bool :=
  (q.xfers.vals.any fun x => x.addr < 2 ^ 52 && rangesMeet va n x.addr (256 * x.count)) ||
  q.reserved.any fun r => decide (r.1 < 2 ^ 52) && rangesMeet va n r.1 r.2

/-- What the block waits for (R382, 16 R349): a reservation of the function covers the page, or an access from before the block,
out at the host or, where the bias changes, at all, has not been made. -/
def State.pageBusy (s : State) (m : Migr) : Bool :=
  (s.blocks.any fun e => e.2.vf == m.vf && match e.2.seq with
    | some q => q.reserves m.va (pageBytes m.size)
    | none => false) ||
  (s.ops.any fun e => decide (e.1 < m.bound) && (m.bias || e.2.host) && e.2.acc.any fun a => a.val.isNone && m.covers a.key) ||
  s.stores.any fun e =>
    decide (e.1 < m.bound) && (m.bias || e.2.host) && !e.2.performed && e.2.cells.any fun c => m.covers c.1

/-- MIGRATION_COMPLETE: owners revoked, dirty lines copied, the leaf written, monitors moved, copies and translations
dropped, held accesses released, status 1. The lines that the revocation wrote back are copied with the dirty ones. -/
def execMigrationComplete (id : Nat) (s : State) : Out :=
  match s.migrs.find id with
  | none => .next s
  | some m =>
    if m.final.isNone || s.pageBusy m then .next s
    else
      let s1 := s.revoke none (s.pageOwned m)
      let dirty := ((s1.migrs.find id).getD m).dirty
      let s2 := (m.lines.filter dirty.contains).foldl (fun (t : State) l => t.copyLine m l) s1
      let s3 := s2.writeLeaves m
      let s4 := if m.bias then s3.takeBias m else s3.moveKeys m
      let old := m.lines ++ m.lines.map m.moved
      let s5 : State := { s4 with copies := s4.copies.mapv fun _ t => t.keep fun w _ => !old.contains (w / 32 * 128) }
      .next ((s5.invalidate m.vf m.va (pageBytes m.size)).endMigr id m 1)

end Sys2Proof.Machine
end

