-- ==== Sys2Proof/Machine/EvSplit.lean ====
section
/-!
DEFINITION. Machine/EvSplit.lean: the steps of splits and comet contexts that are not instructions: the merge of equal
splits, the start of an ejected lane, its copy-back and the join timeout (spec/03_lane_state.md R92; 14 R304-R306).

A step whose condition does not hold does not occur: the state stays as it is.
-/

namespace Sys2Proof.Machine

/-! ## The merge of equal splits (03 R92) -/

/-- The split is ready, with lanes, and in no trap handler. -/
def Split.plain (x : Split) : Bool := x.wait == .ready && !x.parked && x.am != 0 && x.trap.isNone

/-- Splits `i < j` of a group may merge: neither waits, and PC, CM and stack are equal. Parked splits, those in a trap handler and
those of different privilege never do: R92 does not say so (DESIGN CHOICE, log 159). -/
def State.canMerge (s : State) (b g i j : Nat) : Bool :=
  let x := s.spl b g i
  let y := s.spl b g j
  decide (i < j) && s.hasSplit b g i && s.hasSplit b g j && x.plain && y.plain && x.pc == y.pc && x.cm == y.cm &&
  x.priv == y.priv && s.fullStack b g i == s.fullStack b g j

/-- SPLIT_MERGE: split j merges into split i. The merged split counts its path from the earlier of the two starts, and its last
issue is that of the lower split: R92 says nothing of either (DESIGN CHOICE, log 135). -/
def execSplitMerge (b g i j : Nat) (s : State) : Out :=
  if !s.canMerge b g i j then .next s
  else
    let y := s.spl b g j
    .next ((s.modSpl b g i fun x =>
        { x with am := x.am ||| y.am, wm := x.wm ||| y.wm, pathStart := min x.pathStart y.pathStart }).modGrp b g
      fun x => { x with splits := x.splits.erase j })

/-! ## Ejected lanes (14 R304, R305) -/

/-- The stores that a lane issued are all registered. -/
def State.laneStored (s : State) (b g l : Nat) : Bool :=
  s.stores.vals.all fun t => t.thread != .lane b g l || t.performed

/-- EJECTED_LANE_START: once the lane's stores are registered and its hand-over clocks are over, the lane cache drops
what its comet core does not own, and the lane may issue (R304). -/
def execEjectedLaneStart (c : Nat) (s : State) : Out :=
  let x := s.ctx c
  if !s.comets.has c || x.started || decide (s.now < x.notBefore) || !s.laneStored x.blk x.grp x.lane then .next s
  else .next ((s.dropLaneCache c).modCtx c fun y => { y with started := true })

/-- The registers of a LIVE mask. -/
def liveRegs (live : Dword) : List Nat := (List.range 64).filter fun r => live.getLsbD r

/-- The group of a context owns every tile that its copy-back writes (R305 step 2). -/
def State.copyTiles (s : State) (x : Comet) : Bool :=
  (liveRegs x.live).all fun r => (s.blk x.blk).groupOwns x.grp ((s.blk x.blk).groupTile x.grp r)

/-- The copy-back of a context can complete (R305 steps 1 and 2). -/
def State.copyBackReady (s : State) (c : Nat) : Bool :=
  let x := s.ctx c
  s.comets.has c && x.arrived.isSome && decide (x.notBefore ≤ s.now) && (s.blk x.blk).phase == .resident &&
  !s.laneBusy x.blk x.grp x.lane && s.copyTiles x

/-- The waiting split whose convergence mask holds the lane; the innermost, where several do. -/
def Group.home (x : Group) (l : Nat) : Option Nat :=
  (minBy (fun e : Nat × Split => laneCount e.2.cm)
    (x.splits.filter fun e => e.2.wait == .join && hasLane e.2.cm l)).map Prod.fst

/-- The LIVE registers and predicate pairs of a context written into its lane's place (R305 step 2). A poisoned register stays
poisoned (20 R419). -/
def State.copyRegsBack (s : State) (x : Comet) : State :=
  let s1 := s.modBlk x.blk fun y => (liveRegs x.live).foldl (fun z r =>
    let w := z.putReg (z.regKey x.grp r x.lane) (x.vregs.getD r 0)
    if x.poisonRegs.contains r then { w with poisonRegs := w.poisonRegs ++ [w.regKey x.grp r x.lane] } else w) y
  s1.modGrp x.blk x.grp fun y => (List.range 7).foldl (fun z i =>
    { z with preds := z.preds.set (i + 1) (putLane (z.preds.getD (i + 1) 0) x.lane (x.preds.getD (i + 1) false)) }) y

/-- The context is freed and the lane enters a wait mask or RJ (R305 step 3). -/
def State.returnLane (s : State) (c : Nat) : State :=
  let x := s.ctx c
  let m := laneBit x.lane
  let s1 : State := { s with comets := s.comets.erase c }
  let home := (s.grp x.blk x.grp).home x.lane
  s1.modGrp x.blk x.grp fun y =>
    let z := { y with ejected := minusLanes y.ejected m, returned := y.returned ||| m,
                      joinAt := y.joinAt.set x.lane (x.pc + 4) }
    match home with
    | some k => z.modSpl k fun w => { w with wm := w.wm ||| m }
    | none => { z with rj := z.rj ||| m }

/-- COPY_BACK: copy-back, return and merge (R305). -/
def execCopyBack (c : Nat) (s : State) : Out :=
  let x := s.ctx c
  if !s.copyBackReady c then .next s
  else .next (((s.copyRegsBack x).returnLane c).settle x.blk x.grp)

/-! ## The join timeout (14 R306) -/

/-- The lanes of a waiting split's convergence mask that its merge still waits for. -/
def Group.missing (x : Group) (cm : Mask) : Mask := minusLanes (minusLanes cm x.exited) (unionWm (x.waiters cm))

/-- The merge of a split that waits at a JOIN is held only by ejected lanes. -/
def Group.heldByEjected (x : Group) (y : Split) : Bool :=
  y.wait == .join && x.missing y.cm != 0 && subLanes (x.missing y.cm) x.ejected

/-- Start the counts of a clock: each split whose merge is held only by ejected lanes counts from its first such
clock. -/
def Group.startJoinCounts (now : Nat) (x : Group) : Group :=
  { x with splits := x.splits.mapv fun _ y =>
      if y.joinSince.isNone && x.heldByEjected y then { y with joinSince := some now } else y }

/-- A lane that the merge of a waiting split waits for has arrived at its JOIN in this clock. -/
def State.joinArrival (s : State) (b g : Nat) (y : Split) : Bool :=
  s.comets.any fun e => e.2.blk == b && e.2.grp == g && hasLane ((s.grp b g).missing y.cm) e.2.lane &&
    e.2.arrived == some s.now

/-- The count of a waiting split has reached JTO, and no arrival came in the clock in which it did. -/
def State.timeoutDue (s : State) (b g k : Nat) : Bool :=
  let x := s.grp b g
  let y := x.spl k
  s.hasSplit b g k && !y.parked && x.heldByEjected y && !y.joinKept &&
  match y.joinSince with
  | some n => decide (n + x.jto.toNat ≤ s.now)
  | none => x.jto == 0

/-- JOIN_TIMEOUT: the split parks and Meridian gets the event (R306, 17 R357); an arrival in the clock in which it is due
prevails, and the split waits on. -/
def execJoinTimeout (b g k : Nat) (s : State) : Out :=
  if !s.timeoutDue b g k then .next s
  else if s.joinArrival b g (s.spl b g k) then .next (s.modSpl b g k fun y => { y with joinKept := true })
  else
    let x := s.grp b g
    .next ((s.modSpl b g k fun y => { y with parked := true, parkedAt := s.now }).offerBlk b 0x05 g
      x.ejected.toNat x.jto.toNat)

end Sys2Proof.Machine
end

