-- ==== Sys2Proof/Machine/EvPreempt.lean ====
section
/-!
DEFINITION. Machine/EvPreempt.lean: pre-emption and the writing of a Toganik image, the swap-outs of parked and of blocked
blocks, the answers to parks, and the first-use service (spec/13_core_faults.md R275, R280-R287; 10 R236, R237; 15 R330-R334;
09 R219).
-/

set_option linter.constructorNameAsVariable false

namespace Sys2Proof.Machine

/-! ## Live-state lists (02 R71, R430; 10 R236) -/

/-- A range of a live-state list: kind (0 x, 1 g, 2 m, 3 z, 4 t), first index, count. -/
structure LiveRange where
  kind : Nat
  first : Nat
  count : Nat
  deriving DecidableEq, Repr

/-- Entry i of a kind is listed. -/
def isListed (ls : List LiveRange) (kind i : Nat) : Bool :=
  ls.any fun r => r.kind == kind && decide (r.first ≤ i) && decide (i < r.first + r.count)

/-- Live-state list i of a node's code object; `none` where it cannot be read. -/
def State.liveList (s : State) (vf : Nat) (n : Node) (i : Nat) : Option (List LiveRange) :=
  match s.readSpace vf (n.lives + 4 + 4 * i) 4 with
  | none => none
  | some o =>
    let a := n.lives + num o 0 4
    match s.readSpace vf a 4 with
    | none => none
    | some c =>
      let k := num c 0 4
      (s.readSpace vf (a + 4) (4 * k)).map fun d => (List.range k).map fun j =>
        let w := num d (4 * j) 4
        { kind := bits w 31 28, first := bits w 7 0, count := bits w 15 8 + 1 }

/-- The pages of live-state list i of a node are used (16 R345). -/
def State.markList (s : State) (vf : Nat) (n : Node) (i : Nat) : State :=
  let t := s.markSpace vf (n.lives + 4 + 4 * i) 4
  match s.readSpace vf (n.lives + 4 + 4 * i) 4 with
  | none => t
  | some o => match s.readSpace vf (n.lives + num o 0 4) 4 with
    | none => t
    | some c => t.markSpace vf (n.lives + num o 0 4) (4 + 4 * num c 0 4)

/-- The list that the stop of a sequencer saves by; `none`: everything is saved (R237). -/
def State.stopList (s : State) (b : Nat) : Option (List LiveRange) :=
  let x := s.blk b
  match x.seq with
  | none => none
  | some q =>
    match q.liveix with
    | some i => if q.forced then none else s.liveList x.vf x.node i
    | none => none

/-- An x register is listed, by itself or in the mask that it holds half of. -/
def xListed (ls : List LiveRange) (r : Nat) : Bool :=
  isListed ls 0 r || (decide (18 ≤ r) && isListed ls 2 ((r - 16) / 2))

/-- The registers that a safe point saves; the others take the values that a restore gives them (R236). -/
def Seq.prune (q : Seq) (ls : List LiveRange) : Seq :=
  { q with
    x := q.x.keep fun i _ => xListed ls (i % 32),
    g := q.g.keep fun i _ => isListed ls 1 (2 * (i % 8)) || isListed ls 1 (2 * (i % 8) + 1) }

/-- The ports of a sequencer that is saved: a listed port keeps its position, the others are unbound, their slots returned. -/
def State.savePorts (s : State) (b : Nat) (ls : Option (List LiveRange)) : State :=
  (s.seq b).ports.foldl (fun (t : State) e =>
    let z := e.1 % 8
    match ls with
    | some l => if isListed l 3 z then t.modPort b (e.1 / 8) z Port.rewind else t.unbindPort b (e.1 / 8) z
    | none => t.modPort b (e.1 / 8) z Port.rewind) s

/-! ## The units stop (R275 steps 1-4) -/

/-- No message of the cluster barriers of a block's gang is on its way (14 R299). -/
def State.barsQuiet (s : State) (b : Nat) : Bool :=
  match s.gangs.find ((s.blk b).gang.getD 0) with
  | some q => (s.blk b).gang.isNone || q.bars.all fun e => e.2.half.isNone && e.2.rel.isNone
  | none => true

/-- A unit of a block waits at an instruction that has taken effect and must end before the unit stops. -/
def State.claims (s : State) (b : Nat) : Bool :=
  ((s.blk b).groups.any fun e => e.2.splits.any fun k => k.2.wait.claimed) ||
  s.comets.any fun e => e.2.blk == b && e.2.wait.claimed

/-- Everything that a block issued is done, copy-backs that can go on have ended (14 R309), and its sequencer has stopped, so
that it can be saved. -/
def State.saveReady (s : State) (b : Nat) : Bool :=
  let x := s.blk b
  x.phase == .resident && x.preempt.isSome && s.allDone b && !s.claims b && s.barsQuiet b &&
  (s.comets.all fun e => e.2.blk != b || e.2.arrived.isNone || !s.copyTiles e.2) &&
  match x.seq with
  | none => true
  | some q => q.arrivals.isEmpty && (q.stopped || q.parked || q.halted)

/-! ## The bank that a save names (R279, R280) -/

/-- The sequencer-only tiles that a save names, with their words: those that are not free and, at a safe point, that the list
has. A tile in transfer is saved with its recipient in any case (09 R204), not listed with contents 0 (10 R236). -/
def Block.savedTiles (x : Block) (ls : Option (List LiveRange)) : List (Nat × List Word) :=
  x.bankHandles.flatMap fun h =>
    let listed := match ls with
      | some l => isListed l 4 h
      | none => true
    match x.tile (seqTile h) with
    | .free => []
    | .owned _ => if listed then [(h, x.tileWords (seqTile h))] else []
    | .transfer _ => [(h, if listed then x.tileWords (seqTile h) else List.replicate 64 0)]

/-- The owned-tiles section of the image that the block had: kept where the bank is not the block's (R279). -/
def State.oldBank (s : State) (b : Nat) : List ImgSec :=
  let f := s.imageFn b
  match s.imgOwned f with
  | some (_, e) => if e.flags % 2 = 0 then [fullSection 7 (s.imgBytes f e.offset e.length)] else []
  | none => []

/-! ## The bank: lazy and eager (R280) -/

/-- The bank may stay in place: no block waits for the facet, or the front one that it admits fits outside the bank. -/
def State.lazyBank (s : State) (b f : Nat) : Bool :=
  let x := s.blk b
  let t := s.modBlk b fun y => { y with phase := .swapped }
  match (t.waitList x.die).find? fun w => t.facetAdmits w f false with
  | none => true
  | some w =>
    decide ((t.blk w).tilesNeeded + x.bankHandles.length + ((t.residents f).map fun e => e.2.tilesUsed).sum ≤
      1024 * t.facetWidth (coreOfFacet f))

/-- The tiles that a facet holds for another block of the context that ACCOWN names go into that block's image first; ACCOWN
stays (log 85). -/
def State.spillOthers (s : State) (b f : Nat) : State :=
  let fx := s.facet f
  if fx.heldBlk.isNone || fx.heldBlk == some b then s
  else (s.spillHeld f).modFacet f fun y => { y with accown := fx.accown }

/-- Save the bank of a block: the owned-tiles section, HOLD, and the facet after it. -/
def State.saveBank (s0 : State) (b : Nat) (ls : Option (List LiveRange)) : List ImgSec × Nat × State :=
  let x := s0.blk b
  let f := x.facet
  if !((s0.facet f).accV && (s0.facet f).accCtx == x.ctx && x.seq.isSome) then (s0.oldBank b, 0, s0)
  else
    let s := s0.spillOthers b f
    let hs := x.savedTiles ls
    if s.lazyBank b f then
      ([{ type := 7, held := true, bytes := [], room := 264 * hs.length }], 2 ^ 31 + f,
       s.modFacet f fun y =>
         { y with held := hs, heldStatus := hs.map fun h => (h.1, x.tile (seqTile h.1)), heldBlk := some b })
    else ([fullSection 7 (x.bankBytes hs)], 0, s.modFacet f Facet.clearAcc)

/-! ## The save (R275 steps 5, 6) -/

/-- A barrier of the cluster or a die barrier for which a split waits has completed its phase. -/
def State.barrierOver (s : State) (b g : Nat) (w : Wait) : Bool :=
  let isOver (y : BarGroup) : Bool := !y.arrived && y.sync == 0
  match w with
  | .blocked (.clusterBarrier n) _ =>
    (match s.clusterGang b with
      | some (_, q) => isOver ((s.gangBar q n).bar.of (q.key b g))
      | none => true)
  | .blocked (.dieBarrier o _ _) _ =>
    (match s.dbars.find o with
      | some x => isOver (x.groups.getD (64 * b + g) default)
      | none => true)
  | _ => false

/-- What a block that goes out waits for has happened already (R333, R334): a monitor has fired or a barrier is over; or it waits
for nothing that could bring it back, since all its units have ended and only engine operations go on (DESIGN CHOICE, log
124). -/
def State.reentryDue (s : State) (b : Nat) : Bool :=
  (s.monitors.vals.any fun m => m.blk == b && m.fired) || s.unitsOver b ||
  (s.blk b).groups.any fun e => e.2.splits.any fun k => s.barrierOver b e.1 k.2.wait

/-- The reason code of an image (R285) for why a block goes out: 0 a pre-emption, 1 a park, 2 all its units blocked, 3 a
migration, 4 a fault dump. -/
def imageReason (code : Nat) : Nat := if code = 1 then 1 else if code = 3 then 2 else if code = 4 then 3 else 0

/-- Where a block is that went out for a reason. After its image was taken for a migration a block waits to enter this part again;
after a fault dump it stays out: R284 and R288 do not say what becomes of either (DESIGN CHOICE, log 166). -/
def outPhase (code : Nat) : Phase := if code = 1 || code = 2 then .swapped else if code = 4 then .dumped else .waiting

/-- The block is out: its units hold nothing on the part but their armed monitors. -/
def State.putOut (s : State) (b code : Nat) (due : Bool) (d : Table SectionData) : State :=
  let t := s.modBlk b fun y =>
    { y.blank d with
      phase := outPhase code, image := true, waitingSince := s.now, preempt := none, idleSince := none, resumed := [],
      reentry := outPhase code == .swapped && due }
  { t with comets := t.comets.keep fun _ c => c.blk != b, engines := t.engines.keep fun _ o => o.blk != b }

/-- The pages of the live-state list that a save goes by are used (16 R345). -/
def State.markSave (s : State) (b : Nat) : State :=
  match (s.blk b).seq with
  | some q => if q.forced || q.liveix.isNone then s else s.markList (s.blk b).vf (s.blk b).node (q.liveix.getD 0)
  | none => s

/-- Save a block whose units have stopped: its stash is written back, its image written, its resources released. An image for a
migration or a fault dump holds the bank's contents (R284). An END that came meanwhile ends it (15 R334). -/
def State.saveBlock (s : State) (b : Nat) : State :=
  let x := s.blk b
  let code := x.preempt.getD 0
  let ls := s.stopList b
  let due := x.reentry || s.reentryDue b
  let s1 := (((s.markSave b).clearStats b x.facet).drainStash b).savePorts b ls
  let s2 := match ls with
    | some l => (s1.modSeq b fun q => q.prune l).modBlk b fun y =>
        { y with poisonRegs := y.poisonRegs.filter fun k => decide (k < 2 ^ 21) || xListed l ((k - 2 ^ 21) % 32) }
    | none => s1
  let r := s2.saveBank b ls
  let s3 := (r.2.2.putImage b (imageReason code) r.2.1 (r.2.2.sections b r.1)).putOut b code due (r.2.2.savedData b)
  let s4 := if 3 ≤ code && (s3.facet x.facet).heldBlk == some b then s3.spillHeld x.facet else s3
  if x.endAsked then s4.finishBlock b true true else s4

/-- PREEMPTION: the block, with its gang, is saved once every member can be. -/
def execPreemption (b : Nat) (s : State) : Out :=
  let ms := match (s.blk b).gang with
    | none => [b]
    | some g => ((s.gangs.getD g default).members).filter fun m => s.blocks.has m
  if s.blocks.has b && ms.all fun m => s.saveReady m then .next (ms.foldl (fun (t : State) m => t.saveBlock m) s)
  else .next s

/-! ## Swap-out (15 R332, R333) -/

/-- The clocks at which the parks of a block began. -/
def State.parksSince (s : State) (b : Nat) : List Nat :=
  let x := s.blk b
  (x.groups.flatMap fun e => e.2.splits.flatMap fun k => if k.2.parked then [k.2.parkedAt] else []) ++
  (match x.seq with
    | some q => if q.parked then [q.parkedAt] else []
    | none => []) ++
  (s.comets.flatMap fun e => if e.2.blk == b && e.2.parked then [e.2.parkedAt] else []) ++
  s.engines.flatMap fun e => if e.2.blk == b && e.2.parked then [e.2.parkedAt] else []

/-- PARK_LIMIT: a park has lasted the park limit of the partition. -/
def execParkLimit (b : Nat) (s : State) : Out :=
  let x := s.blk b
  if s.blocks.has b && x.phase == .resident && x.preempt.isNone &&
      (s.parksSince b).any fun n => decide (n + (s.part x.part).plim ≤ s.now) then
    .next (s.wantPreempt b 1)
  else .next s

/-- An address is the done counter of an incomplete engine operation of a block. -/
def State.isDoneCounter (s : State) (b a : Nat) : Bool :=
  s.engines.any fun e => e.2.blk == b && regAddr e.2.regs (doneReg e.2.engine) == a

/-- The shared counter of a block has reached a target: an EWAIT on it looks again and completes (09 R218). -/
def State.counterReached (s : State) (b a target : Nat) : Bool :=
  engLocal a && match s.region b (a % 2 ^ 32) 8 with
  | some (.shared home off) => decide (target ≤ (s.blk home).shared.read off 8)
  | _ => false

/-- A wait that counts as blocked (R332). -/
def State.waitBlocked (s : State) (b g : Nat) (w : Wait) : Bool :=
  match w with
  | .blocked (.waitc _ _ _ _ _) _ => true
  | .blocked (.ewait _ _ _ c n) _ => !s.isDoneCounter b c && !s.counterReached b c n
  | .blocked (.clusterBarrier n) k => !s.barrierOver b g (.blocked (.clusterBarrier n) k)
  | .blocked (.dieBarrier o a m) k => !s.barrierOver b g (.blocked (.dieBarrier o a m) k)
  | .collective _ => true
  | _ => false

/-- A split is blocked. One at a JOIN whose merge only ejected lanes hold is once its count has reached JTO, whether it then
parked or an arrival prevailed (14 R306). -/
def State.splitBlocked (s : State) (b g : Nat) (k : Split) : Bool :=
  k.parked || s.waitBlocked b g k.wait ||
  (k.wait == .join && (k.joinKept || minusLanes ((s.grp b g).missing k.cm) (s.grp b g).ejected != 0))

/-- Every unit of a block is blocked or has ended. -/
def State.allBlocked (s : State) (b : Nat) : Bool :=
  let x := s.blk b
  (x.groups.all fun e => e.2.ended || e.2.splits.all fun k => s.splitBlocked b e.1 k.2) &&
  (match x.seq with
    | some q => q.halted || q.parked
    | none => true) &&
  s.comets.all fun e => e.2.blk != b || e.2.parked || s.waitBlocked b e.2.grp e.2.wait

/-- The all-blocked rule may take a block out now (R333): a monitor that has fired keeps it in (R334), and a block that is over
ends (R319). -/
def State.mayGoOut (s : State) (b : Nat) : Bool :=
  let x := s.blk b
  s.blocks.has b && x.phase == .resident && x.preempt.isNone && s.allBlocked b && !s.blockOver b &&
    s.monitors.vals.all fun m => m.blk != b || !m.fired

/-- ALL_BLOCKED_SWAP_OUT. -/
def execAllBlockedSwapOut (b : Nat) (s : State) : Out := .next (if s.mayGoOut b then s.wantPreempt b 2 else s)

/-- The end of a clock for a block all of whose units are blocked or have ended: it may go out in any clock in which that holds,
by a free choice, and does so 2,048 clocks after it began to hold (R333). -/
def State.idleClock (s : State) (b : Nat) : State :=
  if !s.mayGoOut b then s.modBlk b fun x => { x with idleSince := none }
  else
    let n := (s.blk b).idleSince.getD s.now
    let t := (s.modBlk b fun x => { x with idleSince := some n }).tickFree
    if decide (n + 2047 ≤ s.now) || Config.freeBool s.freeCtr then
      match execAllBlockedSwapOut b t with
      | .next u => u
      | _ => t
    else t

/-- The image of a block is wanted for a migration (code 3) or a fault dump (code 4): a resident block is saved for it, and the
tiles held for a block that is out are spilled into its image (R284). -/
def State.wantImage (s : State) (b code : Nat) : State :=
  if !s.blocks.has b then s
  else if (s.blk b).phase == .resident then s.wantPreempt b code
  else
    match s.heldOn b with
    | some f => s.spillHeld f
    | none => s

/-- Two monitors belong to one WAITC. -/
def sameWaitc (m n : Monitor) : Bool :=
  m.blk == n.blk && m.grp == n.grp && m.lanes == n.lanes && m.comet == n.comet && m.pc == n.pc

/-- The word of a monitor satisfies its comparison now. -/
def State.holdsNow (s : State) (m : Monitor) : Bool := cmpHolds m.cmp m.bytes (s.mem.read m.key m.bytes) m.value

/-- DISTRIBUTOR_WAITC_POLL: a swapped-out block's WAITC with a polled word that is due is evaluated whole. -/
def execDistributorWaitcPoll (b : Nat) (s : State) : Out :=
  let x := s.blk b
  let mine := s.monitors.vals.filter fun m => m.blk == b
  let due := mine.filter fun m => s.pollDue m
  if x.phase != .swapped || due.isEmpty then .next s
  else
    let t : State := { s with monitors := s.monitors.mapv fun _ m =>
      if m.blk == b && s.pollDue m then { m with armed := s.now } else m }
    if due.any fun m => mine.all fun n => !sameWaitc m n || s.holdsNow n then .next (t.reenter [b]) else .next t

/-! ## Park records (15 R330) -/

/-- The 64 bytes of a park record: the record is made at the park and waits as it is (log 105). -/
def parkBytes (r : ParkRec) : List Byte :=
  leBytes 2 r.ctx ++ leBytes 2 r.kind ++ leBytes 4 r.ptag.toNat ++ leBytes 8 r.area ++ leBytes 1 r.slot ++
  leBytes 1 r.split ++ leBytes 1 r.lane ++ leBytes 1 0 ++ leBytes 4 r.cause.toNat ++ leBytes 8 r.epc.toNat ++
  leBytes 8 r.info.toNat ++ leBytes 8 r.lmask.toNat ++ leBytes 4 r.facet ++ leBytes 12 0

/-- PARK_RECORD: the partition's oldest waiting record is appended, where its park queue has room, and its interrupt is
raised. -/
def execParkRecord (p : Nat) (s : State) : Out :=
  let x := s.part p
  match s.parks.find? fun r => r.part == p with
  | none => .next s
  | some r =>
    if x.pqcap = 0 || x.pqcap ≤ x.pqtail - x.pqhead then .next s
    else
      match s.writeSpace 0 (x.pqbase + 64 * (x.pqtail % x.pqcap)) (parkBytes r) with
      | none => .next s
      | some t =>
        let u : State := { t with parks := t.parks.erase r }
        .next (u.modPart p fun y => { y with pqtail := y.pqtail + 1, irqs := y.irqs + 1 })

/-! ## RESUME (15 R331, 09 R219) -/

/-- A parked unit issues again. Where its block is out, it does so once the block has entered again; a swapped-out block, also
one that is still on its way out, enters again for it (R333, R334). -/
def State.resumeBlock (s : State) (b : Nat) (u : ParkUnit) : State :=
  let x := s.blk b
  if x.image then s.modBlk b fun y => ({ y with resumed := y.resumed ++ [u] }).enterWait s.now
  else (s.resumeUnit b u).modBlk b fun y => if y.preempt.isSome then { y with reentry := true } else y

/-- RESUME. -/
def execResume (fn ctx : Nat) (u : ParkUnit) (s : State) : Out :=
  match s.parkedBlock fn ctx u with
  | none => .next s
  | some b => .next (s.resumeBlock b u)

/-! ## The first-use service (13 R282-R284) -/

/-- A parked sequencer with this record stands at a first-use trap. -/
def firstUseAt (q : Seq) (r : SeqTrap) : Bool := q.parked && r.scause.toNat % 256 == 0x44

/-- The sequencer of a block is parked at a first-use trap. -/
def State.firstUse (s : State) (b : Nat) : Bool :=
  let x := s.blk b
  x.phase == .resident && x.preempt.isNone && match x.seq with
    | some q => firstUseAt q (s.facet x.facet).record
    | none => false

/-- The sequencer of a block that is out, or on its way out, is parked at a first-use trap: the block was pre-empted before
the service (R284). -/
def State.firstUseOut (s : State) (b : Nat) : Bool :=
  let x := s.blk b
  if x.image then
    x.phase == .swapped && !x.resumed.contains .seqr && match x.savedSeq with
      | some (q, r) => firstUseAt q r
      | none => false
  else
    x.preempt.isSome && match x.seq with
      | some q => firstUseAt q (s.facet x.facet).record
      | none => false

/-- ACC_FIRST_USE_SERVICE: spill, load, ACCOWN, resume (R283); the firmware runs once it is loaded (20 R418). A block that
has been pre-empted before the service is only resumed: the service comes at its next first use (R284, log 126). -/
def execAccFirstUseService (b : Nat) (s : State) : Out :=
  if s.bootst != 0x80 then .next s
  else if s.firstUseOut b then .next (s.resumeBlock b .seqr)
  else if !s.firstUse b then .next s
  else
    let f := (s.blk b).facet
    let s1 := if (s.facet f).accV then s.spillHeld f else s
    let x := s1.blk b
    let fn := s1.imageFn b
    if !s1.blocks.has b then .next s1
    else if !s1.loadOk fn b (s1.tagOf x.part) then .next (s1.rejectImage b)
    else
      let s2 := ((s1.touchImage b).loadBank fn b).writeAcc b f (BitVec.ofNat 32 (2 ^ 31 + x.ctx % 2 ^ 16))
      .next (s2.resumeUnit b .seqr)

end Sys2Proof.Machine
end

