-- ==== Sys2Proof/Machine/Flags.lean ====
section
/-!
DEFINITION. Machine/Flags.lean: the conditions of compares (02 R50, R66, 07 R175) over numbers, and predicate logic
(spec/04_lane_integer.md R106-R108). The part keeps no condition flags (R96): predicates are its flags.
-/

namespace Sys2Proof.Machine

/-- An integer condition on two numbers of n bits, signed or unsigned (R106). -/
def ICond.holds (c : ICond) (u : Bool) (n a b : Nat) : Bool :=
  let x := if u then (a : Int) else sgnN n a
  let y := if u then (b : Int) else sgnN n b
  match c with
  | .eq => decide (x = y)
  | .ne => decide (x ≠ y)
  | .lt => decide (x < y)
  | .le => decide (x ≤ y)
  | .gt => decide (y < x)
  | .ge => decide (y ≤ x)

/-- A condition of SCMP on two words (02 R66). -/
def SCond.holds (c : SCond) (a b : Word) : Bool :=
  match c with
  | .eq => a == b
  | .ne => a != b
  | .lt => a.slt b
  | .le => a.sle b
  | .gt => b.slt a
  | .ge => b.sle a
  | .ltu => a.ult b
  | .geu => b.ule a

/-- A comparison of WAITC: memory against the operand, of n bits (07 R175). -/
def WCmp.holds (c : WCmp) (n m v : Nat) : Bool :=
  match c with
  | .eq => m == v
  | .ne => m != v
  | .ltS => decide (sgnN n m < sgnN n v)
  | .ltZ => decide (m < v)
  | .geS => decide (sgnN n v ≤ sgnN n m)
  | .geZ => decide (v ≤ m)

/-- ICMP (R106): a literal of a 64-bit form is extended by U. -/
def execIcmp (g : Pred) (c : ICond) (k : PairIx) (a : Reg) (src : Src) (u w : Bool) (s : State) : Out :=
  laneSimple (.icmp g c k a src u w) g s
    (pEffect g k fun t l => ICond.holds c u (if w then 64 else 32) (t.rdVn w a.toNat l) (t.srcVal w (!u) src l))

/-- SEL: D := p(F) ? a : b (R107). -/
def execSel (g : Pred) (d a b : Reg) (f : Pred) (s : State) : Out :=
  laneSimple (.sel g d a b f) g s
    (vEffect g d fun t l => if t.rdP f l then t.rdV a.toNat l else t.rdV b.toNat l)

/-- PAND (R108). -/
def execPand (g : Pred) (k : PairIx) (a b : Pred) (s : State) : Out :=
  laneSimple (.pand g k a b) g s (pEffect g k fun t l => t.rdP a l && t.rdP b l)

/-- POR (R108). -/
def execPor (g : Pred) (k : PairIx) (a b : Pred) (s : State) : Out :=
  laneSimple (.por g k a b) g s (pEffect g k fun t l => t.rdP a l || t.rdP b l)

/-- PXOR (R108). -/
def execPxor (g : Pred) (k : PairIx) (a b : Pred) (s : State) : Out :=
  laneSimple (.pxor g k a b) g s (pEffect g k fun t l => t.rdP a l != t.rdP b l)

/-- PNOT (R108). -/
def execPnot (g : Pred) (k : PairIx) (a : Pred) (s : State) : Out :=
  laneSimple (.pnot g k a) g s (pEffect g k fun t l => !t.rdP a l)

end Sys2Proof.Machine
end

