-- ==== Sys2Proof/Machine/Integer.lean ====
section
/-!
DEFINITION. Machine/Integer.lean: the integer majors and the immediate moves (spec/04_lane_integer.md R96-R105).
Operands and results are numbers of n bits, n = 32 or 64 (R96); a result is written modulo 2^n.
-/

set_option linter.constructorNameAsVariable false

namespace Sys2Proof.Machine

/-- The width of an integer form (R96). -/
def nOf (w : Bool) : Nat := if w then 64 else 32

/-- The number of zero bits above the highest one bit (R99). -/
def clzN (n b : Nat) : Nat := if b = 0 then n else n - 1 - Nat.log2 b
/-- The number of one bits (R99). -/
def popcN (n b : Nat) : Nat := ((List.range n).filter fun i => bit b i).length
/-- Bit i moved to bit n - 1 - i (R99). -/
def brevN (n b : Nat) : Nat := (List.range n).foldl (fun v i => if bit b i then v + 2 ^ (n - 1 - i) else v) 0
/-- All ones of n bits. -/
def onesN (n : Nat) : Nat := 2 ^ n - 1

/-- IDIV, signed (R102): toward zero; by 0 all ones; the most negative value by -1 gives itself. -/
def idivS (n a b : Nat) : Nat :=
  if b = 0 then onesN n
  else if sgnN n a = -(2 ^ (n - 1) : Nat) ∧ sgnN n b = -1 then a
  else wrapN n (Int.tdiv (sgnN n a) (sgnN n b))
/-- IDIV, unsigned (R102). -/
def idivZ (n a b : Nat) : Nat := if b = 0 then onesN n else a / b

/-- Shifts by a count of 32 bits read as unsigned, not masked (R103). -/
def shlN (n a c : Nat) : Nat := if c < n then a * 2 ^ c % 2 ^ n else 0
/-- Logical right shift (R103). -/
def shrN (n a c : Nat) : Nat := if c < n then a / 2 ^ c else 0
/-- Arithmetic right shift (R103). -/
def sarN (n a c : Nat) : Nat :=
  if c < n then wrapN n (sgnN n a / (2 ^ c : Nat)) else if bit a (n - 1) then onesN n else 0
/-- Rotate left by c mod n (R103). -/
def rolN (n a c : Nat) : Nat := (a * 2 ^ (c % n) + a / 2 ^ (n - c % n)) % 2 ^ n

/-- Position and length of a bit field (R104): none when L = 0 or P >= n, else P and min(L, n - P). -/
def bfField (n c : Nat) : Option (Nat × Nat) :=
  let p := bits c 7 0
  let l := bits c 15 8
  if l = 0 ∨ n ≤ p then none else some (p, min l (n - p))
/-- BFX, zero-extended (R104). -/
def bfxZN (n a c : Nat) : Nat :=
  match bfField n c with
  | none => 0
  | some (p, l) => a / 2 ^ p % 2 ^ l
/-- BFX, sign-extended (R104). -/
def bfxSN (n a c : Nat) : Nat :=
  match bfField n c with
  | none => 0
  | some (p, l) => wrapN n (sgnN l (a / 2 ^ p % 2 ^ l))
/-- BFI (R104). -/
def bfiN (n a c d : Nat) : Nat :=
  match bfField n c with
  | none => d
  | some (p, l) => d % 2 ^ p + a % 2 ^ l * 2 ^ p + d / 2 ^ (p + l) * 2 ^ (p + l)

/-- An integer instruction whose last source has the form's width; `sx` sign-extends a literal of a 64-bit form
(R98). -/
def intRun (i : Instr) (g : Pred) (w sx : Bool) (d a : Reg) (src : Src) (f : Nat → Nat → Nat → Nat → Nat) (s : State) :
    Out :=
  laneSimple i g s (intEffect g w w sx d a src (f (nOf w)))

/-- An integer instruction whose last source is one 32-bit count or control (R98). -/
def shiftRun (i : Instr) (g : Pred) (w : Bool) (d a : Reg) (src : Src) (f : Nat → Nat → Nat → Nat → Nat) (s : State) :
    Out :=
  laneSimple i g s (intEffect g w false false d a src (f (nOf w)))

/-- IADD: a + b (R99). -/
def execIadd (g : Pred) (w : Bool) (d a : Reg) (src : Src) (s : State) : Out :=
  intRun (.iadd g w d a src) g w true d a src (fun n a b _ => (a + b) % 2 ^ n) s

/-- ISUB: a - b (R99). -/
def execIsub (g : Pred) (w : Bool) (d a : Reg) (src : Src) (s : State) : Out :=
  intRun (.isub g w d a src) g w true d a src (fun n a b _ => (a + 2 ^ n - b) % 2 ^ n) s

/-- The effect of IADDC (R100): carry in from bit 0 of D, the sum in D, the carry out in the register after it. -/
def iaddcEffect (g : Pred) (w : Bool) (d a : Reg) (src : Src) (s : State) : State :=
  let n := nOf w
  let c := d.toNat + wn w
  match src with
  | .ss _ =>
    if s.exec g = 0 then s
    else
      let t := s.rdSn w a.toNat + s.srcVal w true src 0 + s.rdSn w d.toNat % 2
      (s.wrSn w d.toNat (t % 2 ^ n)).wrS c (b2w (bit t n))
  | _ =>
    s.putLanes (lanesOf (s.exec g)) fun u l =>
      let t := s.rdVn w a.toNat l + s.srcVal w true src l + s.rdVn w d.toNat l % 2
      (u.wrVn w d.toNat l (t % 2 ^ n)).wrV c l (b2w (bit t n))

/-- IADDC: add with carry (R100). -/
def execIaddc (g : Pred) (w : Bool) (d a : Reg) (src : Src) (s : State) : Out :=
  laneSimple (.iaddc g w d a src) g s (iaddcEffect g w d a src)

/-- LEA: a 64-bit address in the pair D from the pair A and an index (R101), sign-extended when it is 32 bits. -/
def execLea (g : Pred) (w : Bool) (d a : Reg) (src : Src) (s : State) : Out :=
  laneSimple (.lea g w d a src) g s
    (intEffect g true w true d a src fun x y _ => if w then (x + y) % 2 ^ 64 else (x + wrapN 64 (sgnN 32 y)) % 2 ^ 64)

/-- IMLO: the low n bits of the product (R99). -/
def execImlo (g : Pred) (w : Bool) (d a : Reg) (src : Src) (s : State) : Out :=
  intRun (.imlo g w d a src) g w true d a src (fun n a b _ => a * b % 2 ^ n) s

/-- IMHI, signed (R99). -/
def execImhiS (g : Pred) (w : Bool) (d a : Reg) (src : Src) (s : State) : Out :=
  intRun (.imhiS g w d a src) g w true d a src (fun n a b _ => wrapN n (sgnN n a * sgnN n b / (2 ^ n : Nat))) s

/-- IMHI, unsigned (R99). -/
def execImhiZ (g : Pred) (w : Bool) (d a : Reg) (src : Src) (s : State) : Out :=
  intRun (.imhiZ g w d a src) g w false d a src (fun n a b _ => a * b / 2 ^ n) s

/-- IMAC: a x b + d (R99). -/
def execImac (g : Pred) (w : Bool) (d a : Reg) (src : Src) (s : State) : Out :=
  intRun (.imac g w d a src) g w true d a src (fun n a b d => (a * b + d) % 2 ^ n) s

/-- IDIV, signed (R102). -/
def execIdivS (g : Pred) (w : Bool) (d a : Reg) (src : Src) (s : State) : Out :=
  intRun (.idivS g w d a src) g w true d a src (fun n a b _ => idivS n a b) s

/-- IDIV, unsigned (R102). -/
def execIdivZ (g : Pred) (w : Bool) (d a : Reg) (src : Src) (s : State) : Out :=
  intRun (.idivZ g w d a src) g w false d a src (fun n a b _ => idivZ n a b) s

/-- IABS (R99): the most negative value gives itself. -/
def execIabs (g : Pred) (w : Bool) (d : Reg) (src : Src) (s : State) : Out :=
  intRun (.iabs g w d src) g w true d d src (fun n _ b _ => if sgnN n b < 0 then (2 ^ n - b) % 2 ^ n else b) s

/-- INEG: 0 - b (R99). -/
def execIneg (g : Pred) (w : Bool) (d : Reg) (src : Src) (s : State) : Out :=
  intRun (.ineg g w d src) g w true d d src (fun n _ b _ => (2 ^ n - b) % 2 ^ n) s

/-- IMIN, signed (R99). -/
def execIminS (g : Pred) (w : Bool) (d a : Reg) (src : Src) (s : State) : Out :=
  intRun (.iminS g w d a src) g w true d a src (fun n a b _ => if sgnN n a ≤ sgnN n b then a else b) s

/-- IMIN, unsigned (R99). -/
def execIminZ (g : Pred) (w : Bool) (d a : Reg) (src : Src) (s : State) : Out :=
  intRun (.iminZ g w d a src) g w false d a src (fun _ a b _ => min a b) s

/-- IMAX, signed (R99). -/
def execImaxS (g : Pred) (w : Bool) (d a : Reg) (src : Src) (s : State) : Out :=
  intRun (.imaxS g w d a src) g w true d a src (fun n a b _ => if sgnN n a ≤ sgnN n b then b else a) s

/-- IMAX, unsigned (R99). -/
def execImaxZ (g : Pred) (w : Bool) (d a : Reg) (src : Src) (s : State) : Out :=
  intRun (.imaxZ g w d a src) g w false d a src (fun _ a b _ => max a b) s

/-- AND (R99). -/
def execAnd (g : Pred) (w : Bool) (d a : Reg) (src : Src) (s : State) : Out :=
  intRun (.and g w d a src) g w true d a src (fun _ a b _ => a &&& b) s

/-- OR (R99). -/
def execOr (g : Pred) (w : Bool) (d a : Reg) (src : Src) (s : State) : Out :=
  intRun (.or g w d a src) g w true d a src (fun _ a b _ => a ||| b) s

/-- XOR (R99). -/
def execXor (g : Pred) (w : Bool) (d a : Reg) (src : Src) (s : State) : Out :=
  intRun (.xor g w d a src) g w true d a src (fun _ a b _ => a ^^^ b) s

/-- ANDN: a & ~b (R99). -/
def execAndn (g : Pred) (w : Bool) (d a : Reg) (src : Src) (s : State) : Out :=
  intRun (.andn g w d a src) g w true d a src (fun n a b _ => a &&& (onesN n ^^^ b)) s

/-- SHL (R103). -/
def execShl (g : Pred) (w : Bool) (d a : Reg) (src : Src) (s : State) : Out :=
  shiftRun (.shl g w d a src) g w d a src (fun n a c _ => shlN n a c) s

/-- SHR (R103). -/
def execShr (g : Pred) (w : Bool) (d a : Reg) (src : Src) (s : State) : Out :=
  shiftRun (.shr g w d a src) g w d a src (fun n a c _ => shrN n a c) s

/-- SAR (R103). -/
def execSar (g : Pred) (w : Bool) (d a : Reg) (src : Src) (s : State) : Out :=
  shiftRun (.sar g w d a src) g w d a src (fun n a c _ => sarN n a c) s

/-- ROL (R103). -/
def execRol (g : Pred) (w : Bool) (d a : Reg) (src : Src) (s : State) : Out :=
  shiftRun (.rol g w d a src) g w d a src (fun n a c _ => rolN n a c) s

/-- BFX, sign-extended (R104). -/
def execBfxS (g : Pred) (w : Bool) (d a : Reg) (src : Src) (s : State) : Out :=
  shiftRun (.bfxS g w d a src) g w d a src (fun n a c _ => bfxSN n a c) s

/-- BFX, zero-extended (R104). -/
def execBfxZ (g : Pred) (w : Bool) (d a : Reg) (src : Src) (s : State) : Out :=
  shiftRun (.bfxZ g w d a src) g w d a src (fun n a c _ => bfxZN n a c) s

/-- BFI (R104). -/
def execBfi (g : Pred) (w : Bool) (d a : Reg) (src : Src) (s : State) : Out :=
  shiftRun (.bfi g w d a src) g w d a src (fun n a c d => bfiN n a c d) s

/-- NOT: ~b (R99). -/
def execNot (g : Pred) (w : Bool) (d : Reg) (src : Src) (s : State) : Out :=
  intRun (.not g w d src) g w true d d src (fun n _ b _ => onesN n ^^^ b) s

/-- CLZ (R99): under W = 1 the count goes to the pair, 0 in D+1. -/
def execClz (g : Pred) (w : Bool) (d : Reg) (src : Src) (s : State) : Out :=
  intRun (.clz g w d src) g w true d d src (fun n _ b _ => clzN n b) s

/-- POPC (R99). -/
def execPopc (g : Pred) (w : Bool) (d : Reg) (src : Src) (s : State) : Out :=
  intRun (.popc g w d src) g w true d d src (fun n _ b _ => popcN n b) s

/-- BREV (R99). -/
def execBrev (g : Pred) (w : Bool) (d : Reg) (src : Src) (s : State) : Out :=
  intRun (.brev g w d src) g w true d d src (fun n _ b _ => brevN n b) s

/-- MOV: b; under OC 0b01 a uniform value goes to every executing lane (R99). -/
def execMov (g : Pred) (w : Bool) (d : Reg) (src : Src) (s : State) : Out :=
  intRun (.mov g w d src) g w true d d src (fun _ _ b _ => b) s

/-- MOVI to a lane register: SExt(IMM16, 32) (R105). -/
def execMoviV (g : Pred) (d : Reg) (imm : BitVec 16) (s : State) : Out :=
  laneSimple (.moviV g d imm) g s (vEffect g d fun _ _ => imm.signExtend 32)

/-- MOVHI to a lane register: IMM16 above the low half of D (R105). -/
def execMovhiV (g : Pred) (d : Reg) (imm : BitVec 16) (s : State) : Out :=
  laneSimple (.movhiV g d imm) g s (vEffect g d fun t l => imm ++ (t.rdV d.toNat l).extractLsb' 0 16)

/-- MOVI to a uniform register (R105, R43). -/
def execMoviS (g : Pred) (d : Reg) (imm : BitVec 16) (s : State) : Out :=
  laneSimple (.moviS g d imm) g s fun t => if t.exec g = 0 then t else t.wrS d.toNat (imm.signExtend 32)

/-- MOVHI to a uniform register (R105, R43). -/
def execMovhiS (g : Pred) (d : Reg) (imm : BitVec 16) (s : State) : Out :=
  laneSimple (.movhiS g d imm) g s fun t =>
    if t.exec g = 0 then t else t.wrS d.toNat (imm ++ (t.rdS d.toNat).extractLsb' 0 16)

end Sys2Proof.Machine
end

