-- ==== Sys2Proof/Machine/Dispatch.lean ====
section
/-!
DEFINITION. Machine/Dispatch.lean: one arm for each constructor of Instr, a direct call of its meaning.
-/

namespace Sys2Proof.Machine

def exec (i : Instr) (s : State) : Host.Outcome State Fault Refusal :=
  match i with
  | .iadd g w1 d1 a src => Sys2Proof.Machine.execIadd g w1 d1 a src s
  | .isub g w1 d1 a src => Sys2Proof.Machine.execIsub g w1 d1 a src s
  | .iaddc g w1 d1 a src => Sys2Proof.Machine.execIaddc g w1 d1 a src s
  | .lea g w1 d1 a src => Sys2Proof.Machine.execLea g w1 d1 a src s
  | .imlo g w1 d1 a src => Sys2Proof.Machine.execImlo g w1 d1 a src s
  | .imhiS g w1 d1 a src => Sys2Proof.Machine.execImhiS g w1 d1 a src s
  | .imhiZ g w1 d1 a src => Sys2Proof.Machine.execImhiZ g w1 d1 a src s
  | .imac g w1 d1 a src => Sys2Proof.Machine.execImac g w1 d1 a src s
  | .idivS g w1 d1 a src => Sys2Proof.Machine.execIdivS g w1 d1 a src s
  | .idivZ g w1 d1 a src => Sys2Proof.Machine.execIdivZ g w1 d1 a src s
  | .iabs g w1 d1 src => Sys2Proof.Machine.execIabs g w1 d1 src s
  | .ineg g w1 d1 src => Sys2Proof.Machine.execIneg g w1 d1 src s
  | .iminS g w1 d1 a src => Sys2Proof.Machine.execIminS g w1 d1 a src s
  | .iminZ g w1 d1 a src => Sys2Proof.Machine.execIminZ g w1 d1 a src s
  | .imaxS g w1 d1 a src => Sys2Proof.Machine.execImaxS g w1 d1 a src s
  | .imaxZ g w1 d1 a src => Sys2Proof.Machine.execImaxZ g w1 d1 a src s
  | .and g w1 d1 a src => Sys2Proof.Machine.execAnd g w1 d1 a src s
  | .or g w1 d1 a src => Sys2Proof.Machine.execOr g w1 d1 a src s
  | .xor g w1 d1 a src => Sys2Proof.Machine.execXor g w1 d1 a src s
  | .andn g w1 d1 a src => Sys2Proof.Machine.execAndn g w1 d1 a src s
  | .shl g w1 d1 a src => Sys2Proof.Machine.execShl g w1 d1 a src s
  | .shr g w1 d1 a src => Sys2Proof.Machine.execShr g w1 d1 a src s
  | .sar g w1 d1 a src => Sys2Proof.Machine.execSar g w1 d1 a src s
  | .rol g w1 d1 a src => Sys2Proof.Machine.execRol g w1 d1 a src s
  | .bfxS g w1 d1 a src => Sys2Proof.Machine.execBfxS g w1 d1 a src s
  | .bfxZ g w1 d1 a src => Sys2Proof.Machine.execBfxZ g w1 d1 a src s
  | .bfi g w1 d1 a src => Sys2Proof.Machine.execBfi g w1 d1 a src s
  | .not g w1 d1 src => Sys2Proof.Machine.execNot g w1 d1 src s
  | .clz g w1 d1 src => Sys2Proof.Machine.execClz g w1 d1 src s
  | .popc g w1 d1 src => Sys2Proof.Machine.execPopc g w1 d1 src s
  | .brev g w1 d1 src => Sys2Proof.Machine.execBrev g w1 d1 src s
  | .mov g w1 d1 src => Sys2Proof.Machine.execMov g w1 d1 src s
  | .moviV g d1 imm => Sys2Proof.Machine.execMoviV g d1 imm s
  | .movhiV g d1 imm => Sys2Proof.Machine.execMovhiV g d1 imm s
  | .moviS g d1 imm => Sys2Proof.Machine.execMoviS g d1 imm s
  | .movhiS g d1 imm => Sys2Proof.Machine.execMovhiS g d1 imm s
  | .icmp g c k a src u w1 => Sys2Proof.Machine.execIcmp g c k a src u w1 s
  | .sel g d1 a b1 f => Sys2Proof.Machine.execSel g d1 a b1 f s
  | .pand g k a b1 => Sys2Proof.Machine.execPand g k a b1 s
  | .por g k a b1 => Sys2Proof.Machine.execPor g k a b1 s
  | .pxor g k a b1 => Sys2Proof.Machine.execPxor g k a b1 s
  | .pnot g k a => Sys2Proof.Machine.execPnot g k a s
  | .padd g d1 a b1 e1 u sat => Sys2Proof.Machine.execPadd g d1 a b1 e1 u sat s
  | .psub g d1 a b1 e1 u sat => Sys2Proof.Machine.execPsub g d1 a b1 e1 u sat s
  | .pmul g d1 a b1 e1 u sat => Sys2Proof.Machine.execPmul g d1 a b1 e1 u sat s
  | .pmin g d1 a b1 e1 u => Sys2Proof.Machine.execPmin g d1 a b1 e1 u s
  | .pmax g d1 a b1 e1 u => Sys2Proof.Machine.execPmax g d1 a b1 e1 u s
  | .pdot g d1 a b1 e1 u => Sys2Proof.Machine.execPdot g d1 a b1 e1 u s
  | .pwiden g d1 b1 e1 u => Sys2Proof.Machine.execPwiden g d1 b1 e1 u s
  | .pnarrow g d1 a b1 e1 u => Sys2Proof.Machine.execPnarrow g d1 a b1 e1 u s
  | .pcmpEq g d1 a b1 e1 u => Sys2Proof.Machine.execPcmpEq g d1 a b1 e1 u s
  | .pcmpLt g d1 a b1 e1 u => Sys2Proof.Machine.execPcmpLt g d1 a b1 e1 u s
  | .fadd g d1 a src => Sys2Proof.Machine.execFadd g d1 a src s
  | .fsub g d1 a src => Sys2Proof.Machine.execFsub g d1 a src s
  | .fmul g d1 a src => Sys2Proof.Machine.execFmul g d1 a src s
  | .ffma g d1 a src => Sys2Proof.Machine.execFfma g d1 a src s
  | .fmin g d1 a src => Sys2Proof.Machine.execFmin g d1 a src s
  | .fmax g d1 a src => Sys2Proof.Machine.execFmax g d1 a src s
  | .fclass g d1 src => Sys2Proof.Machine.execFclass g d1 src s
  | .pfmaF16 g d1 a src => Sys2Proof.Machine.execPfmaF16 g d1 a src s
  | .pfmaBf16 g d1 a src => Sys2Proof.Machine.execPfmaBf16 g d1 a src s
  | .fcmp g c k a src t => Sys2Proof.Machine.execFcmp g c k a src t s
  | .fexp2 g d1 a t => Sys2Proof.Machine.execFexp2 g d1 a t s
  | .flog2 g d1 a t => Sys2Proof.Machine.execFlog2 g d1 a t s
  | .frcp g d1 a t => Sys2Proof.Machine.execFrcp g d1 a t s
  | .frsq g d1 a t => Sys2Proof.Machine.execFrsq g d1 a t s
  | .fsqrt g d1 a t => Sys2Proof.Machine.execFsqrt g d1 a t s
  | .fsinpi g d1 a t => Sys2Proof.Machine.execFsinpi g d1 a t s
  | .fcospi g d1 a t => Sys2Proof.Machine.execFcospi g d1 a t s
  | .ftanh g d1 a t => Sys2Proof.Machine.execFtanh g d1 a t s
  | .fsigm g d1 a t => Sys2Proof.Machine.execFsigm g d1 a t s
  | .fgelu g d1 a t => Sys2Proof.Machine.execFgelu g d1 a t s
  | .fsilu g d1 a t => Sys2Proof.Machine.execFsilu g d1 a t s
  | .ferf g d1 a t => Sys2Proof.Machine.execFerf g d1 a t s
  | .cvt g d1 a dt st1 rz sat => Sys2Proof.Machine.execCvt g d1 a dt st1 rz sat s
  | .qscale g d1 a b1 => Sys2Proof.Machine.execQscale g d1 a b1 s
  | .qpack g d1 a b1 => Sys2Proof.Machine.execQpack g d1 a b1 s
  | .qunpk g d1 a b1 => Sys2Proof.Machine.execQunpk g d1 a b1 s
  | .cvtFw g d1 a b1 => Sys2Proof.Machine.execCvtFw g d1 a b1 s
  | .voteAll g k p x => Sys2Proof.Machine.execVoteAll g k p x s
  | .voteAny g k p x => Sys2Proof.Machine.execVoteAny g k p x s
  | .voteBal g d1 p x => Sys2Proof.Machine.execVoteBal g d1 p x s
  | .voteEq g k p x => Sys2Proof.Machine.execVoteEq g k p x s
  | .shflIdx g d1 a b1 x => Sys2Proof.Machine.execShflIdx g d1 a b1 x s
  | .shflUp g d1 a b1 x => Sys2Proof.Machine.execShflUp g d1 a b1 x s
  | .shflDn g d1 a b1 x => Sys2Proof.Machine.execShflDn g d1 a b1 x s
  | .shflXor g d1 a b1 x => Sys2Proof.Machine.execShflXor g d1 a b1 x s
  | .redux g d1 a x k op => Sys2Proof.Machine.execRedux g d1 a x k op s
  | .scanInc g d1 a x k op => Sys2Proof.Machine.execScanInc g d1 a x k op s
  | .scanExc g d1 a x k op => Sys2Proof.Machine.execScanExc g d1 a x k op s
  | .bra g ofs => Sys2Proof.Machine.execBra g ofs s
  | .braEj g n1 ofs => Sys2Proof.Machine.execBraEj g n1 ofs s
  | .call g ofs => Sys2Proof.Machine.execCall g ofs s
  | .brx g a => Sys2Proof.Machine.execBrx g a s
  | .callx g a => Sys2Proof.Machine.execCallx g a s
  | .ret g => Sys2Proof.Machine.execRet g s
  | .join g => Sys2Proof.Machine.execJoin g s
  | .exit g => Sys2Proof.Machine.execExit g s
  | .eret g => Sys2Proof.Machine.execEret g s
  | .live g n1 a => Sys2Proof.Machine.execLive g n1 a s
  | .yield g => Sys2Proof.Machine.execYield g s
  | .trap g n1 => Sys2Proof.Machine.execTrap g n1 s
  | .ld g d1 a w1 r hint => Sys2Proof.Machine.execLd g d1 a w1 r hint s
  | .st g d1 a w1 r hint => Sys2Proof.Machine.execSt g d1 a w1 r hint s
  | .lds g d1 a w1 r => Sys2Proof.Machine.execLds g d1 a w1 r s
  | .sts g d1 a w1 r => Sys2Proof.Machine.execSts g d1 a w1 r s
  | .smap g d1 a b1 => Sys2Proof.Machine.execSmap g d1 a b1 s
  | .pref g a => Sys2Proof.Machine.execPref g a s
  | .fenceAcq g => Sys2Proof.Machine.execFenceAcq g s
  | .fenceRel g => Sys2Proof.Machine.execFenceRel g s
  | .fenceAr g => Sys2Proof.Machine.execFenceAr g s
  | .atomAdd g d1 a f w1 => Sys2Proof.Machine.execAtomAdd g d1 a f w1 s
  | .atomMinS g d1 a f w1 => Sys2Proof.Machine.execAtomMinS g d1 a f w1 s
  | .atomMinZ g d1 a f w1 => Sys2Proof.Machine.execAtomMinZ g d1 a f w1 s
  | .atomMaxS g d1 a f w1 => Sys2Proof.Machine.execAtomMaxS g d1 a f w1 s
  | .atomMaxZ g d1 a f w1 => Sys2Proof.Machine.execAtomMaxZ g d1 a f w1 s
  | .atomAnd g d1 a f w1 => Sys2Proof.Machine.execAtomAnd g d1 a f w1 s
  | .atomOr g d1 a f w1 => Sys2Proof.Machine.execAtomOr g d1 a f w1 s
  | .atomXor g d1 a f w1 => Sys2Proof.Machine.execAtomXor g d1 a f w1 s
  | .atomExch g d1 a f w1 => Sys2Proof.Machine.execAtomExch g d1 a f w1 s
  | .incw g d1 a f => Sys2Proof.Machine.execIncw g d1 a f s
  | .decw g d1 a f => Sys2Proof.Machine.execDecw g d1 a f s
  | .atomAddb g d1 a f k => Sys2Proof.Machine.execAtomAddb g d1 a f k s
  | .atomCasW g d1 a f => Sys2Proof.Machine.execAtomCasW g d1 a f s
  | .atomCasD g d1 a f => Sys2Proof.Machine.execAtomCasD g d1 a f s
  | .atomCasQ g d1 a f => Sys2Proof.Machine.execAtomCasQ g d1 a f s
  | .waitc g d1 a w1 c => Sys2Proof.Machine.execWaitc g d1 a w1 c s
  | .give g a => Sys2Proof.Machine.execGive g a s
  | .take g a => Sys2Proof.Machine.execTake g a s
  | .barSync g b1 => Sys2Proof.Machine.execBarSync g b1 s
  | .barArr g b1 => Sys2Proof.Machine.execBarArr g b1 s
  | .barWait g b1 => Sys2Proof.Machine.execBarWait g b1 s
  | .rwait g d1 r => Sys2Proof.Machine.execRwait g d1 r s
  | .rdone g r => Sys2Proof.Machine.execRdone g r s
  | .eset g n1 a reg => Sys2Proof.Machine.execEset g n1 a reg s
  | .eget g d1 n1 reg => Sys2Proof.Machine.execEget g d1 n1 reg s
  | .ecmdGo g n1 a => Sys2Proof.Machine.execEcmdGo g n1 a s
  | .ecmdClear g n1 a cmd => Sys2Proof.Machine.execEcmdClear g n1 a cmd s
  | .sparseIndexGo g a => Sys2Proof.Machine.execSparseIndexGo g a s
  | .sparseIndexClear g a cmd => Sys2Proof.Machine.execSparseIndexClear g a cmd s
  | .lodestarGo g a => Sys2Proof.Machine.execLodestarGo g a s
  | .lodestarClear g a cmd => Sys2Proof.Machine.execLodestarClear g a cmd s
  | .copy g n1 a b1 => Sys2Proof.Machine.execCopy g n1 a b1 s
  | .ewait g a b1 => Sys2Proof.Machine.execEwait g a b1 s
  | .cbarSync g b1 => Sys2Proof.Machine.execCbarSync g b1 s
  | .cbarArr g b1 => Sys2Proof.Machine.execCbarArr g b1 s
  | .cbarWait g b1 => Sys2Proof.Machine.execCbarWait g b1 s
  | .dbar g a => Sys2Proof.Machine.execDbar g a s
  | .emit g a b1 => Sys2Proof.Machine.execEmit g a b1 s
  | .mfs g d1 n1 => Sys2Proof.Machine.execMfs g d1 n1 s
  | .mts g a n1 => Sys2Proof.Machine.execMts g a n1 s
  | .ctxsv g a => Sys2Proof.Machine.execCtxsv g a s
  | .ctxld g a => Sys2Proof.Machine.execCtxld g a s
  | .ldW g d1 a imm => Sys2Proof.Machine.execLdW g d1 a imm s
  | .ldD g d1 a imm => Sys2Proof.Machine.execLdD g d1 a imm s
  | .ldQ g d1 a imm => Sys2Proof.Machine.execLdQ g d1 a imm s
  | .stW g d1 a imm => Sys2Proof.Machine.execStW g d1 a imm s
  | .stD g d1 a imm => Sys2Proof.Machine.execStD g d1 a imm s
  | .stQ g d1 a imm => Sys2Proof.Machine.execStQ g d1 a imm s
  | .ldsW g d1 a imm => Sys2Proof.Machine.execLdsW g d1 a imm s
  | .stsW g d1 a imm => Sys2Proof.Machine.execStsW g d1 a imm s
  | .nop c bits => Sys2Proof.Machine.execNop c bits s
  | .sadd c g d1 a b1 => Sys2Proof.Machine.execSadd c g d1 a b1 s
  | .ssub c g d1 a b1 => Sys2Proof.Machine.execSsub c g d1 a b1 s
  | .smul c g d1 a b1 => Sys2Proof.Machine.execSmul c g d1 a b1 s
  | .sand c g d1 a b1 => Sys2Proof.Machine.execSand c g d1 a b1 s
  | .sor c g d1 a b1 => Sys2Proof.Machine.execSor c g d1 a b1 s
  | .sshl c g d1 a b1 => Sys2Proof.Machine.execSshl c g d1 a b1 s
  | .sli c g d1 imm => Sys2Proof.Machine.execSli c g d1 imm s
  | .scmp c g k cond a b1 => Sys2Proof.Machine.execScmp c g k cond a b1 s
  | .sbra c g ofs => Sys2Proof.Machine.execSbra c g ofs s
  | .sloop c g x ofs => Sys2Proof.Machine.execSloop c g x ofs s
  | .scall c g ofs => Sys2Proof.Machine.execScall c g ofs s
  | .sret c g => Sys2Proof.Machine.execSret c g s
  | .sgive c g t n1 => Sys2Proof.Machine.execSgive c g t n1 s
  | .stake c g t n1 => Sys2Proof.Machine.execStake c g t n1 s
  | .sbarSync c g b1 => Sys2Proof.Machine.execSbarSync c g b1 s
  | .sbarArr c g b1 => Sys2Proof.Machine.execSbarArr c g b1 s
  | .sbarWait c g b1 => Sys2Proof.Machine.execSbarWait c g b1 s
  | .sstat c g d1 => Sys2Proof.Machine.execSstat c g d1 s
  | .shalt c g => Sys2Proof.Machine.execShalt c g s
  | .tmmaBf16 c g t a b1 sx => Sys2Proof.Machine.execTmmaBf16 c g t a b1 sx s
  | .tmmaF16 c g t a b1 sx => Sys2Proof.Machine.execTmmaF16 c g t a b1 sx s
  | .tmmaE4M3 c g t a b1 sx => Sys2Proof.Machine.execTmmaE4M3 c g t a b1 sx s
  | .tmmaE5M2 c g t a b1 sx => Sys2Proof.Machine.execTmmaE5M2 c g t a b1 sx s
  | .tmmaQf4 c g t a b1 sx => Sys2Proof.Machine.execTmmaQf4 c g t a b1 sx s
  | .tmmaF32 c g t a b1 sx => Sys2Proof.Machine.execTmmaF32 c g t a b1 sx s
  | .tzero c g t n1 => Sys2Proof.Machine.execTzero c g t n1 s
  | .tcvt c g d1 sx f rz sat => Sys2Proof.Machine.execTcvt c g d1 sx f rz sat s
  | .vadd c g v1 => Sys2Proof.Machine.execVadd c g v1 s
  | .vmul c g v1 => Sys2Proof.Machine.execVmul c g v1 s
  | .vfma c g v1 => Sys2Proof.Machine.execVfma c g v1 s
  | .vmax c g v1 => Sys2Proof.Machine.execVmax c g v1 s
  | .vmin c g v1 => Sys2Proof.Machine.execVmin c g v1 s
  | .vrelu c g v1 => Sys2Proof.Machine.execVrelu c g v1 s
  | .vsel c g v1 => Sys2Proof.Machine.execVsel c g v1 s
  | .vred c g v1 r => Sys2Proof.Machine.execVred c g v1 r s
  | .vscl c g v1 => Sys2Proof.Machine.execVscl c g v1 s
  | .tld c g t x n1 => Sys2Proof.Machine.execTld c g t x n1 s
  | .tst c g t x n1 => Sys2Proof.Machine.execTst c g t x n1 s
  | .zbind c g z x => Sys2Proof.Machine.execZbind c g z x s
  | .zset c g z x f => Sys2Proof.Machine.execZset c g z x f s
  | .zskip c g z x => Sys2Proof.Machine.execZskip c g z x s
  | .fltLdf a k => Sys2Proof.Machine.execFltLdf a k s
  | .fltLdi a k => Sys2Proof.Machine.execFltLdi a k s
  | .fltMovk a k => Sys2Proof.Machine.execFltMovk a k s
  | .fltAddi a k => Sys2Proof.Machine.execFltAddi a k s
  | .fltShri a k => Sys2Proof.Machine.execFltShri a k s
  | .fltMov a b1 => Sys2Proof.Machine.execFltMov a b1 s
  | .fltAdd a b1 => Sys2Proof.Machine.execFltAdd a b1 s
  | .fltSub a b1 => Sys2Proof.Machine.execFltSub a b1 s
  | .fltAnd a b1 => Sys2Proof.Machine.execFltAnd a b1 s
  | .fltOr a b1 => Sys2Proof.Machine.execFltOr a b1 s
  | .fltShl a b1 => Sys2Proof.Machine.execFltShl a b1 s
  | .fltShr a b1 => Sys2Proof.Machine.execFltShr a b1 s
  | .fltCeq a b1 => Sys2Proof.Machine.execFltCeq a b1 s
  | .fltCltu a b1 => Sys2Proof.Machine.execFltCltu a b1 s
  | .fltClts a b1 => Sys2Proof.Machine.execFltClts a b1 s
  | .fltBz a k => Sys2Proof.Machine.execFltBz a k s
  | .fltBnz a k => Sys2Proof.Machine.execFltBnz a k s
  | .fltJmp ofs => Sys2Proof.Machine.execFltJmp ofs s
  | .fltHist a o => Sys2Proof.Machine.execFltHist a o s
  | .fltSku a b1 o => Sys2Proof.Machine.execFltSku a b1 o s
  | .fltCadd a o => Sys2Proof.Machine.execFltCadd a o s
  | .fltTrig a o => Sys2Proof.Machine.execFltTrig a o s
  | .fltEnd => Sys2Proof.Machine.execFltEnd s
  | .splitMerge b1 g ix j => Sys2Proof.Machine.execSplitMerge b1 g ix j s
  | .ejectedLaneStart c => Sys2Proof.Machine.execEjectedLaneStart c s
  | .copyBack c => Sys2Proof.Machine.execCopyBack c s
  | .joinTimeout b1 g k => Sys2Proof.Machine.execJoinTimeout b1 g k s
  | .loadDataLands id => Sys2Proof.Machine.execLoadDataLands id s
  | .ownershipRegistration id => Sys2Proof.Machine.execOwnershipRegistration id s
  | .registrationAck id => Sys2Proof.Machine.execRegistrationAck id s
  | .homeRead id part => Sys2Proof.Machine.execHomeRead id part s
  | .homeAtomic id addr => Sys2Proof.Machine.execHomeAtomic id addr s
  | .ownerForward id part => Sys2Proof.Machine.execOwnerForward id part s
  | .revocation word => Sys2Proof.Machine.execRevocation word s
  | .waitcReevaluate b1 g k => Sys2Proof.Machine.execWaitcReevaluate b1 g k s
  | .waitcPoll b1 g k => Sys2Proof.Machine.execWaitcPoll b1 g k s
  | .emitWake b1 g k => Sys2Proof.Machine.execEmitWake b1 g k s
  | .stashWriteBack b1 w1 => Sys2Proof.Machine.execStashWriteBack b1 w1 s
  | .takeCompletes b1 who => Sys2Proof.Machine.execTakeCompletes b1 who s
  | .takeLimit b1 who => Sys2Proof.Machine.execTakeLimit b1 who s
  | .operationLands b1 id => Sys2Proof.Machine.execOperationLands b1 id s
  | .tldFill b1 id => Sys2Proof.Machine.execTldFill b1 id s
  | .tstTileRead b1 id => Sys2Proof.Machine.execTstTileRead b1 id s
  | .streamReadAhead b1 c z => Sys2Proof.Machine.execStreamReadAhead b1 c z s
  | .writePortEntryWrite b1 c z => Sys2Proof.Machine.execWritePortEntryWrite b1 c z s
  | .safePointStop b1 => Sys2Proof.Machine.execSafePointStop b1 s
  | .forcedSavePoint b1 => Sys2Proof.Machine.execForcedSavePoint b1 s
  | .copySlotClaim id => Sys2Proof.Machine.execCopySlotClaim id s
  | .copySlotFilled id => Sys2Proof.Machine.execCopySlotFilled id s
  | .copyOperationDone id rows => Sys2Proof.Machine.execCopyOperationDone id rows s
  | .sparseIndexDone id => Sys2Proof.Machine.execSparseIndexDone id s
  | .lodestarDone id => Sys2Proof.Machine.execLodestarDone id s
  | .cbarHalfMessage q1 b1 => Sys2Proof.Machine.execCbarHalfMessage q1 b1 s
  | .dbarWindow o d1 => Sys2Proof.Machine.execDbarWindow o d1 s
  | .dbarCompletionMessage o d1 => Sys2Proof.Machine.execDbarCompletionMessage o d1 s
  | .dbarRelease o d1 => Sys2Proof.Machine.execDbarRelease o d1 s
  | .pageWalkStart d1 id => Sys2Proof.Machine.execPageWalkStart d1 id s
  | .pageWalkEnd d1 id => Sys2Proof.Machine.execPageWalkEnd d1 id s
  | .hintedRequestForward id => Sys2Proof.Machine.execHintedRequestForward id s
  | .translationInvalidation fn vf va len => Sys2Proof.Machine.execTranslationInvalidation fn vf va len s
  | .migrate fn desc => Sys2Proof.Machine.execMigrate fn desc s
  | .migrateBias fn desc => Sys2Proof.Machine.execMigrateBias fn desc s
  | .migrationPassEnd id => Sys2Proof.Machine.execMigrationPassEnd id s
  | .migrationComplete id => Sys2Proof.Machine.execMigrationComplete id s
  | .loaderRegister fn obj text seq data hdr => Sys2Proof.Machine.execLoaderRegister fn obj text seq data hdr s
  | .registerQueue fn q1 vf => Sys2Proof.Machine.execRegisterQueue fn q1 vf s
  | .stampObserved q1 => Sys2Proof.Machine.execStampObserved q1 s
  | .batchTimeout q1 => Sys2Proof.Machine.execBatchTimeout q1 s
  | .blockAdmission d1 => Sys2Proof.Machine.execBlockAdmission d1 s
  | .reservation d1 => Sys2Proof.Machine.execReservation d1 s
  | .quantumPreemption d1 => Sys2Proof.Machine.execQuantumPreemption d1 s
  | .preemption b1 => Sys2Proof.Machine.execPreemption b1 s
  | .accFirstUseService b1 => Sys2Proof.Machine.execAccFirstUseService b1 s
  | .parkRecord p => Sys2Proof.Machine.execParkRecord p s
  | .parkLimit b1 => Sys2Proof.Machine.execParkLimit b1 s
  | .allBlockedSwapOut b1 => Sys2Proof.Machine.execAllBlockedSwapOut b1 s
  | .distributorWaitcPoll b1 => Sys2Proof.Machine.execDistributorWaitcPoll b1 s
  | .resume fn ctx u => Sys2Proof.Machine.execResume fn ctx u s
  | .endBlock fn ctx u => Sys2Proof.Machine.execEndBlock fn ctx u s
  | .blockEnd b1 => Sys2Proof.Machine.execBlockEnd b1 s
  | .stop fn vf report status => Sys2Proof.Machine.execStop fn vf report status s
  | .functionLevelReset fn vf => Sys2Proof.Machine.execFunctionLevelReset fn vf s
  | .vfSliceEnd p => Sys2Proof.Machine.execVfSliceEnd p s
  | .energyWindowEnd p => Sys2Proof.Machine.execEnergyWindowEnd p s
  | .arbiterWindow d1 ch => Sys2Proof.Machine.execArbiterWindow d1 ch s
  | .eventDispatch m1 => Sys2Proof.Machine.execEventDispatch m1 s
  | .counterSample core => Sys2Proof.Machine.execCounterSample core s
  | .budgetWindow m1 => Sys2Proof.Machine.execBudgetWindow m1 s
  | .linkerrEmit m1 link kind => Sys2Proof.Machine.execLinkerrEmit m1 link kind s
  | .attach fn m1 slot desc => Sys2Proof.Machine.execAttach fn m1 slot desc s
  | .detach fn m1 slot => Sys2Proof.Machine.execDetach fn m1 slot s
  | .read fn m1 slot obj => Sys2Proof.Machine.execRead fn m1 slot obj s
  | .readclr fn m1 slot obj => Sys2Proof.Machine.execReadclr fn m1 slot obj s
  | .triggerRearm fn m1 slot obj => Sys2Proof.Machine.execTriggerRearm fn m1 slot obj s
  | .afterglowRead fn m1 ix => Sys2Proof.Machine.execAfterglowRead fn m1 ix s
  | .mctlWrite fn m1 v1 => Sys2Proof.Machine.execMctlWrite fn m1 v1 s
  | .cmodeWrite fn core v1 => Sys2Proof.Machine.execCmodeWrite fn core v1 s
  | .fownWrite fn facet v1 => Sys2Proof.Machine.execFownWrite fn facet v1 s
  | .cmerrWrite fn core v1 => Sys2Proof.Machine.execCmerrWrite fn core v1 s
  | .floorWrite fn p d1 v1 => Sys2Proof.Machine.execFloorWrite fn p d1 v1 s
  | .pctlWrite fn port v1 => Sys2Proof.Machine.execPctlWrite fn port v1 s
  | .registerWrite fn r v1 => Sys2Proof.Machine.execRegisterWrite fn r v1 s
  | .coldReset => Sys2Proof.Machine.execColdReset s
  | .warmReset => Sys2Proof.Machine.execWarmReset s
  | .firmwareImage fn img => Sys2Proof.Machine.execFirmwareImage fn img s
  | .flitReceive port seq flit fec => Sys2Proof.Machine.execFlitReceive port seq flit fec s
  | .flitAcknowledge port seq => Sys2Proof.Machine.execFlitAcknowledge port seq s
  | .replayRequest port seq => Sys2Proof.Machine.execReplayRequest port seq s
  | .portRetrainEnd port ok => Sys2Proof.Machine.execPortRetrainEnd port ok s
  | .remoteRequest src tag op addr n1 => Sys2Proof.Machine.execRemoteRequest src tag op addr n1 s
  | .hostCompletion id c => Sys2Proof.Machine.execHostCompletion id c s
  | .illegalInstruction w1 => Sys2Proof.Machine.execIllegalInstruction w1 s
  | .illegalBundle b1 => Sys2Proof.Machine.execIllegalBundle b1 s
  | .instructionFetchFault cause addr => Sys2Proof.Machine.execInstructionFetchFault cause addr s
  | .hostMemoryRequest op addr n1 => Sys2Proof.Machine.execHostMemoryRequest op addr n1 s
  | .sharedStorePerformed id => Sys2Proof.Machine.execSharedStorePerformed id s
  | .cbarReleaseMessage q1 b1 => Sys2Proof.Machine.execCbarReleaseMessage q1 b1 s
  | .dieLinkCrcRetry m1 link retrain => Sys2Proof.Machine.execDieLinkCrcRetry m1 link retrain s
  | .pqheadWrite fn p v1 => Sys2Proof.Machine.execPqheadWrite fn p v1 s

end Sys2Proof.Machine
end

