-- ==== Sys2Proof/Machine/SeqTurn.lean ====
section
/-!
DEFINITION. Machine/SeqTurn.lean: a turn of a tensor sequencer: fetch, the checks of a bundle, its waits, its interlocks and
its issue (spec/10_sequencer.md R222-R226, R236; 11 R239, R246).
-/

set_option linter.constructorNameAsVariable false

namespace Sys2Proof.Machine

/-- The state after an instruction; a refusal leaves the state. -/
def runInstr (i : Instr) (s : State) : State :=
  match exec i s with
  | .next t => t
  | _ => s

/-- What the fetch of a bundle gives. -/
inductive BundleAt
  | wait (s : State)
  | fault (cause addr : Nat)
  | illegal
  | ok (b : Bundle)

/-- Fetch and decode the bundle at the sequencer's PC. -/
def State.fetchBundle (s : State) (b : Nat) : BundleAt :=
  let p := s.site
  let q := s.seq b
  match s.fetchWords p q.pc.toNat 1 with
  | .fault c a => .fault c a
  | .ok ws =>
    let w := ws.headD 0
    match (decodeHead w).columns with
    | none => .illegal
    | some n =>
      if q.width < n then .illegal
      else
        match s.fetchWords p (q.pc.toNat + 4) (4 * n) with
        | .fault c a => .fault c a
        | .ok slots =>
          match decodeBundle q.width w slots with
          | some d => .ok d
          | none => .illegal
        | x => .wait (s.askFetch p x)
  | x => .wait (s.askFetch p x)

/-- The slots of a bundle in program order (11 R240). -/
def bundleSlots (d : Bundle) : List Instr := d.cols.flatMap fun p => [p.s, p.t, p.v, p.m]

/-- The slots whose guard is true, NOPs left out. -/
def Seq.active (q : Seq) (d : Bundle) : List Instr :=
  (bundleSlots d).filter fun i => match i with
    | .nop _ _ => false
    | _ => match slotGuard i with
      | some (c, g) => q.rdG c.toNat g.toNat
      | none => false

/-- The waiting S-slot operations (11 R246), with their columns. -/
def waitingCol : Instr → Option Nat
  | .stake c _ _ _ => some c.toNat
  | .sbarSync c _ _ => some c.toNat
  | .sbarWait c _ _ => some c.toNat
  | _ => none

/-- The barrier that an SBAR arrives at. -/
def arrivesAt : Instr → Option Nat
  | .sbarSync _ _ n => some n.toNat
  | .sbarArr _ _ n => some n.toNat
  | _ => none

/-- The first check of a list of slots that does not pass, with its slot. -/
def firstStop (f : Instr → SChk) : List Instr → Option (Instr × SChk)
  | [] => none
  | i :: is =>
    match f i with
    | .ok => firstStop f is
    | x => some (i, x)

/-- An earlier slot of the bundle arrives at the barrier that a slot arrives at (11 R247). -/
def arrivesTwice (is : List Instr) (i : Instr) : Bool :=
  match arrivesAt i with
  | none => false
  | some n => (is.takeWhile (· != i)).any fun j => arrivesAt j == some n

/-- The checks of the clock in which a bundle becomes a candidate (11 R239). -/
def State.candidate (s : State) (b : Nat) (is : List Instr) : Option (Instr × SChk) :=
  firstStop (fun i =>
    (s.slotCheck b i).and
      (if arrivesTwice is i then .trap 0x60 0 ((arrivesAt i).getD 0) else .ok)) is

/-- What holds the bundle, or traps it, at its issue: traps come before waits. -/
def State.atIssue (s : State) (b : Nat) (is : List Instr) : Option (Instr × SChk) :=
  let rs := is.map fun i => (i, s.lateCheck b i)
  let isTrap := fun (r : Instr × SChk) => match r.2 with
    | .trap _ _ _ => true
    | _ => false
  match rs.find? isTrap with
  | some r => some r
  | none =>
    rs.find? fun r => match r.2 with
      | .hold _ => true
      | _ => false

/-- The writes of a bundle would raise some tile's PEND above 63 (09 R198). -/
def State.bundlePend (s : State) (b : Nat) (is : List Instr) : Bool :=
  let x := s.blk b
  let ts := is.flatMap fun i => if writesTiles i then ((s.seq b).tilesOf i).2.map x.handleTile else []
  ts.any fun t => decide (63 < s.pend b t + (ts.filter (· == t)).length)

/-- The scoreboard on a bundle (R224): a slot's pending destinations, or two slots that write one in one clock, where the
later slot is named. -/
def State.boardStop (s : State) (b : Nat) : List Instr → Option Instr
  | [] => none
  | i :: is =>
    if s.scoreboard b i then some i
    else
      match s.boardStop b is with
      | some j => some j
      | none => is.find? fun j => s.doubleWrite b i j

/-- Run the waiting S slots that have not completed. -/
def State.runWaits (s : State) (b : Nat) (is : List Instr) : State :=
  is.foldl (fun t i =>
    match waitingCol i with
    | some c => if (t.seq b).waited.contains c then t else runInstr i t
    | none => t) s

/-- Every wait of the bundle is complete. -/
def State.waitsDone (s : State) (b : Nat) (is : List Instr) : Bool :=
  is.all fun i => match waitingCol i with
    | some c => (s.seq b).waited.contains c
    | none => true

/-- An SSTAT: it reads the statistics queue as it stands before its bundle's own records (R222). -/
def isSstat : Instr → Bool
  | .sstat _ _ _ => true
  | _ => false

/-- What the executing sequencer's bundle was fetched with is charged and over, and so are the requests of its slots that left the
package. -/
def State.bundleFetched (s : State) (b n : Nat) : State :=
  (s.useFetch s.site (s.seq b).pc.toNat (bundleBytes n)).dropOuts (.unit (.seqr b)) false

/-- The bundle issues: its slots take effect together, and the next bundle is settled (R222, R226). -/
def State.issueBundle (s : State) (b : Nat) (d : Bundle) (is : List Instr) : State :=
  let q := s.seq b
  let t := (s.bundleFetched b d.cols.length).modSeq b fun y =>
    { y with checked := true, next := some (y.pc + BitVec.ofNat 64 (bundleBytes d.cols.length)) }
  let rest := is.filter fun i => (waitingCol i).isNone
  let u := (rest.filter isSstat ++ rest.filter fun i => !isSstat i).foldl (fun t i => runInstr i t) t
  let v := u.modSeq b fun y =>
    { y with checked := false, pc := (y.next.getD q.pc).setWidth 52 |>.setWidth 64, next := none,
             nextIssue := s.now + 1 + d.head.stall.toNat, drain := d.head.drain || y.halting, since := none,
             waiting := false, synced := [], waited := [], reserved := [] }
  ((v.count (v.blk b).core 1 1).settleArrivals b).seqEnd b

/-- The ranges of engine addresses whose translations the TLDs and TSTs of a bundle reserve, from the clock in which it passes
its checks until they have landed (11 R259). -/
def State.tileRanges (s : State) (b : Nat) (is : List Instr) : List (Nat × Nat) :=
  is.filterMap fun i => match i with
    | .tld c _ _ x n => some (((s.seq b).rdXPair c.toNat x.toNat).toNat, 256 * (n.toNat + 1))
    | .tst c _ _ x n => some (((s.seq b).rdXPair c.toNat x.toNat).toNat, 256 * (n.toNat + 1))
    | _ => none

/-- The STAKEs of a bundle that still wait reach the take limit (09 R203; 11 R246). -/
def State.stakeLimits (s : State) (b : Nat) (is : List Instr) : State :=
  is.foldl (fun t i =>
    match i with
    | .stake c _ _ _ => if (t.seq b).waited.contains c.toNat then t else runInstr (.takeLimit b (.seqr c.toNat)) t
    | _ => t) s

/-- The bundle goes through its checks, waits and interlocks. -/
def State.tryBundle (s : State) (b : Nat) (d : Bundle) : State :=
  let is := (s.seq b).active d
  let checked := if (s.seq b).since.isSome then none else s.candidate b is
  match checked with
  | some (i, .trap k sub info) => s.slotTrap b i k sub info
  | some (_, .hold t) => t
  | _ =>
    let s1 := s.modSeq b fun q =>
      { q with since := some (q.since.getD s.now), checked := true,
               reserved := if q.since.isSome then q.reserved else s.tileRanges b is }
    let s2 := (s1.runWaits b is).modSeq b fun q => { q with checked := false }
    if !s2.waitsDone b is then s2.stakeLimits b is
    else
      let rest := is.filter fun i => (waitingCol i).isNone
      match s2.atIssue b rest with
      | some (i, .trap k sub info) => s2.slotTrap b i k sub info
      | some (_, .hold t) => t
      | _ =>
        if s2.bundlePend b rest then s2
        else
          match (if s2.schk b then s2.boardStop b rest else none) with
          | some i => s2.slotTrap b i 0x46 0 0
          | none => s2.issueBundle b d is

/-- The sequencer may issue in this clock (R222), and no pre-emption stops it (R236). -/
def Seq.mayIssue (q : Seq) (now : Nat) : Bool :=
  !q.parked && !q.halted && !q.halting && !q.stopped && decide (q.nextIssue ≤ now) && (!q.drain || q.landed)

/-- The pages of the address ranges that a restored block has to reserve again, lowest first. -/
def Block.reservePages (x : Block) : List Nat :=
  (x.reserving.filter fun r => r.1 < 2 ^ 52).flatMap fun r => pagesOf r.1 r.2

/-- A restored block reserves its translations again: every page is asked for, and once each has come, or has met a fault, which
ends its reservation (log 142), the block's units run (13 R276). -/
def State.reserveStep (s : State) (b : Nat) : State :=
  let x := s.blk b
  let p := s.blkSite (.unit (.seqr b)) b
  if x.reserving.isEmpty then s
  else
    match x.reservePages.filter fun va => s.resolve p .engine false va == .wait with
    | [] => s.modBlk b fun y =>
        { y with reserving := [], seq := y.seq.map fun q => { q with reserved := x.reserving } }
    | va :: vas => (va :: vas).foldl (fun t v => t.askWalk p v) s

/-- A parity error on the control of a datapath that serves the sequencer's bundle: the bundle traps (13 R270; 20 R419). -/
def State.seqParity (s : State) (b : Nat) : State :=
  if s.hasSeq b && (s.seq b).mayIssue s.now then s.seqTrap b 0xA6 0 0 0 0 else s

/-- A turn of the sequencer of a block. A pending pre-emption holds a safe point, also one whose waits have begun (R223, R236). -/
def State.seqTurn (s0 : State) (b : Nat) : State :=
  let s : State := { s0 with focus := .seqr b }
  if !s.hasSeq b || !(s.seq b).mayIssue s.now || !(s.blk b).reserving.isEmpty then s
  else
    match s.fetchBundle b with
    | .wait t => t
    | .fault c a => s.seqTrap b c 0 0 0 a
    | .illegal => s.seqTrap b 0x45 0 0 0 0
    | .ok d =>
      let t := s.keepFetch s.site (s.seq b).pc.toNat
      if d.head.safe && (s.blk b).preempt.isSome then t else t.tryBundle b d

end Sys2Proof.Machine
end

