-- ==== Sys2Proof/Machine/Turns.lean ====
section
/-!
DEFINITION. Machine/Turns.lean: a turn of a split, of a comet context and of a filter program: fetch, decode, execute
(spec/02_encoding.md R40, R42, R46; 03 R94, R95; 14 R300; 17 R358, R362, R364).
-/

set_option linter.constructorNameAsVariable false

namespace Sys2Proof.Machine

/-- What a meaning answers; a refusal leaves the state. -/
def settleOut (o : Out) (s : State) : State :=
  match o with
  | .next t => t
  | _ => s

/-- Decode a fetched word; a format X instruction takes the next word too (02 R42), whose fetch may wait or fault. The
instruction is run, or the trap of the fetch or of the decoding is taken. -/
def State.runWord (s : State) (w : Word) : State :=
  match decodeLane w 0 with
  | none => settleOut (execIllegalInstruction w s) s
  | some i =>
    if i.laneSize = 4 then runInstr i s
    else
      let va := s.pc.toNat + 4
      match s.fetchWord s.site va with
      | .fault c a => settleOut (execInstructionFetchFault c (BitVec.ofNat 64 a) s) s
      | .ok ws =>
        let t := s.useFetch s.site va
        match decodeLane w (ws.headD 0) with
        | some j => runInstr j t
        | none => settleOut (execIllegalInstruction w t) t
      | x => s.askFetch s.site x

/-- The unit in focus fetches at its PC, decodes and executes. -/
def State.unitStep (s : State) : State :=
  match s.fetchWord s.site s.pc.toNat with
  | .fault c a => settleOut (execInstructionFetchFault c (BitVec.ofNat 64 a) s) s
  | .ok ws => (s.useFetch s.site s.pc.toNat).runWord (ws.headD 0)
  | x => s.askFetch s.site x

/-! ## Splits -/

/-- The units of a block run: no pre-emption stops them, and the translations reserved at a restore are there (13 R275, R276). -/
def Block.runs (x : Block) : Bool := x.preempt.isNone && x.reserving.isEmpty

/-- A split may issue: it is ready, with lanes, and its block's units run. -/
def State.splitReady (s : State) (b g k : Nat) : Bool :=
  let x := s.spl b g k
  s.hasSplit b g k && !x.parked && x.am != 0 && x.wait == .ready && (s.blk b).runs

/-- A wait that looks again in each clock: by its instruction (an EWAIT on a shared counter; one on a counter in global memory waits
as a WAITC does, 09 R218), or a TAKE by its own steps. The other waits end by steps of their own. -/
def Wait.retries : Wait → Bool
  | .blocked (.take _ _) _ => true
  | .blocked (.barrier _) _ => true
  | .blocked (.clusterBarrier _) _ => true
  | .blocked (.ring _) _ => true
  | .blocked (.ewait _ _ _ c _) _ => engLocal c
  | .blocked (.dieBarrier _ _ _) _ => true
  | .blocked (.engineFull _) _ => true
  | .blocked (.stamps _) _ => true
  | _ => false

/-- The unit in focus looks again at what it waits for: by its instruction, but for an EMIT that has claimed its slots. -/
def State.retryStep (s : State) : State :=
  match s.unitWait with
  | .blocked (.stamps n) _ => s.emitDone n
  | _ => s.unitStep

/-- A split looks again at what it waits for. -/
def State.splitRetries (s : State) (b g k : Nat) : Bool :=
  let x := s.spl b g k
  s.hasSplit b g k && !x.parked && x.am != 0 && x.wait.retries && ((s.blk b).runs || x.wait.claimed)

/-- The guard of a branch (06 R140, R141, R143), which may lead to itself. -/
def branchGuard : Instr → Option Pred
  | .bra g _ => some g
  | .call g _ => some g
  | .brx g _ => some g
  | .callx g _ => some g
  | .ret g => some g
  | _ => none

/-- A branch that no result in flight holds stands at the unit's PC: it issues, also where it leads to itself. -/
def State.atBranch (s : State) : Bool :=
  match s.fetchWord s.site s.pc.toNat with
  | .ok ws =>
    match decodeLane (ws.headD 0) 0 with
    | some i =>
      match branchGuard i with
      | some g => !s.interlocked g (instrUses s.unitNode i)
      | none => false
    | none => false
  | _ => false

/-- The unit has issued an instruction from `s` to `t`: something of it has changed, or it stood at a branch. -/
def State.unitIssued (s t : State) : Bool :=
  s.atBranch ||
  match s.focus with
  | .split b g k => t.spl b g k != s.spl b g k
  | .comet c => t.comets.find c != s.comets.find c
  | _ => false

/-- A waiting TAKE looks again: it completes in the first clock in which its conditions hold, or traps once it has waited the
take limit (09 R202, R203). -/
def State.takeLooks (s : State) (b g k : Nat) : State :=
  runInstr (.takeLimit b (.split g k)) (runInstr (.takeCompletes b (.split g k)) s)

/-- A turn of a split. Its wait's end is no issue of an instruction (DEDUCED, log 136). -/
def State.laneTurn (s0 : State) (b g k : Nat) : State :=
  let s : State := { s0 with focus := .split b g k }
  if s.splitReady b g k then
    let t := s.unitStep
    if s.unitIssued t then
      (t.modSpl b g k fun x => { x with lastIssue := s.now }).count (s.blk b).core 0 1
    else t
  else if s.splitRetries b g k then
    if (s.spl b g k).taking.isSome then s.takeLooks b g k else s.retryStep
  else s

/-! ## Comet contexts -/

/-- A comet context may issue (14 R300): started, not at its JOIN, not parked, no wait, no pre-emption; or it looks again at
a wait: a WAITC when a monitor of it fired or is due. -/
def State.cometReady (s : State) (c : Nat) : Bool :=
  let x := s.ctx c
  s.comets.has c && x.started && x.arrived.isNone && !x.parked && decide (x.notBefore ≤ s.now) &&
  (s.blk x.blk).phase == .resident && ((s.blk x.blk).runs || x.wait.claimed) &&
  match x.wait with
  | .ready => true
  | .blocked (.waitc _ _ _ _ _) _ => s.monitors.vals.any fun m => m.comet == some c && (m.fired || s.pollDue m)
  | .blocked (.ewait _ _ _ a _) _ =>
    engLocal a || s.monitors.vals.any fun m => m.comet == some c && (m.fired || s.pollDue m)
  | .blocked (.emit _) _ => s.monitors.vals.any fun m => m.comet == some c && (m.fired || s.pollDue m)
  | w => w.retries

/-- The contexts of a comet core stand back for YIELD no longer. -/
def State.clearCometYields (s : State) (j : Nat) : State :=
  { s with comets := s.comets.mapv fun c x => if c / 8 == j && x.yielded then { x with yielded := false } else x }

/-- The context that issues in the comet-core cycle of a context: itself, or, where it has just issued YIELD, the ready one of
its core that has not and that issued least recently (06 R146). -/
def State.cycleOf (s : State) (c : Nat) : Option Nat :=
  if !(s.ctx c).yielded then some c
  else
    (minBy (fun e : Nat × Comet => e.2.lastIssue) (s.comets.filter fun e =>
      e.1 / 8 == c / 8 && !e.2.yielded && s.cometReady e.1 && e.2.wait == .ready)).map Prod.fst

/-- The issues of the contexts of a comet core are numbered, so that those of one clock are in order too (14 R300). -/
def State.nextCometIssue (s : State) (j : Nat) : Nat :=
  s.comets.foldl (fun n e => if e.1 / 8 = j then max n (e.2.lastIssue + 1) else n) 1

/-- An instruction of a comet context in a comet-core cycle. -/
def State.cometIssue (s0 : State) (c : Nat) : State :=
  let s : State := { s0 with focus := .comet c }
  let t := s.unitStep
  if s.unitIssued t then t.modCtx c fun x => { x with lastIssue := s.nextCometIssue (c / 8) } else t

/-- A turn of a comet context: a comet-core cycle; or, where the context waits, its wait looks again beside the cycles. -/
def State.cometTurn (s : State) (c : Nat) : State :=
  if !s.cometReady c then s
  else if (s.ctx c).wait != .ready then ({ s with focus := .comet c } : State).retryStep
  else
    let t := s.clearCometYields (c / 8)
    match s.cycleOf c with
    | some d => t.cometIssue d
    | none => t

/-! ## Errors (13 R270; 20 R419) -/

/-- A parity error on the control of a datapath or crossbar that serves a unit's instruction: the instruction traps in place of
its effect. A unit that has no instruction to issue is served by none. -/
def State.parityTurn (s : State) (f : Focus) : State :=
  let u : State := { s with focus := f }
  match f with
  | .split b g k => if s.splitReady b g k && !u.trapHeld b g k 0xA6 then u.takeTrap 0xA6 else s
  | .comet c => if s.cometReady c && (s.ctx c).wait == .ready then u.takeTrap 0xA6 else s
  | .seqr b => u.seqParity b
  | _ => s

/-- A load or an atomic of lanes that has gone on past its instruction has still to read a word: it has been checked (07 R156), so
a soft error of the word comes after it (log 7). -/
def State.readPending (s : State) (w : Nat) : Bool :=
  s.ops.vals.any fun o => !o.host && o.acc.any fun a => a.val.isNone && (wordsOf a.key o.bytes).contains w

/-- A soft error: a word is marked poisoned, or an integrity counter counts its correction (20 R419). -/
def State.upset (s : State) : Upset → State
  | .memory w => if s.poison.contains w || s.readPending w then s else { s with poison := s.poison ++ [w] }
  | .register b key => if s.blocks.has b then s.modBlk b fun x => { x with poisonRegs := addPoison key x.poisonRegs } else s
  | .comet c m => if s.comets.has c then s.modCtx c fun x => { x with poisonRegs := addPoison m x.poisonRegs } else s
  | .glow m ix => s.modMerid m fun x => { x with badGlow := addPoison (ix % 4096) x.badGlow }
  | .corrected n => { s with integrity := s.integrity.set n (s.integrity.getD n 0 + 1) }

/-! ## Filter programs (17 R362-R364) -/

/-- A turn of a Meridian's filter program. -/
def State.filterTurn (s0 : State) (m : Nat) : State :=
  let s : State := { s0 with focus := .filter m }
  let x := s.merid m
  match x.run with
  | none => s
  | some r =>
    match x.slots.find r.slot with
    | none => s
    | some a =>
      if !x.en then s
      else
        match decodeFilter (BitVec.ofNat 16 (a.words.getD r.pc 0)) with
        | some i => runInstr i s
        | none => s

end Sys2Proof.Machine
end

