-- ==== Sys2Proof/Machine/Clock.lean ====
section
/-!
DEFINITION. Machine/Clock.lean: a clock of the machine: what lands and counts at its end, the windows that begin with the
next, the choice of the packs that issue (spec/15_die_work.md R328, R329; 03 R81, R82, R95; 14 R300; 17 R355, R358, R362;
20 R409, R417), and the turns of the clock.

Which of the steps that are not instructions come in a clock, and the order of the turns within it, the spec leaves open
(log 1).
-/

set_option linter.constructorNameAsVariable false

namespace Sys2Proof.Config

/-- The parity errors of datapaths and crossbars and the soft errors of stored words that come in the n-th clock (20 R419). -/
opaque hardErrors : Nat → List Sys2Proof.Machine.Turn

/-- The blocks whose images are wanted from the n-th clock on: for a migration, or, where the second part says so, for a fault
dump (13 R284, R285). -/
opaque imagesWanted : Nat → List (Nat × Bool)

end Sys2Proof.Config

namespace Sys2Proof.Machine

/-! ## The issue arbitration of a port (R329) -/

/-- A group that is ready: block, slot, effective priority, sector. -/
structure ReadyGroup where
  blk : Nat
  slot : Nat
  ep : Nat
  sector : Nat
  deriving DecidableEq, Repr

/-- Whether a unit can issue now (R329): no result in flight holds its instruction (04 R96), and its translations are there.
Where it cannot, the state in which it has asked for the translations that it misses (log 127). -/
def State.tryUnit (s : State) (f : Focus) : Bool × State :=
  let u : State := { s with focus := f }
  let t := u.unitStep
  if u.unitIssued t then (true, s) else (false, { t with focus := s.focus })

/-- The units of a list that can issue, and the state in which the others have asked for what they miss. -/
def State.tryUnits (s : State) : List Focus → List Focus × State
  | [] => ([], s)
  | f :: fs =>
    let r := s.tryUnit f
    let q := r.2.tryUnits fs
    (if r.1 then f :: q.1 else q.1, q.2)

/-- The units that nothing makes wait: splits of groups that have not just yielded, and comet contexts. -/
def State.readyUnits (s : State) : List Focus :=
  ((s.blocks.filter fun e => e.2.phase == .resident).flatMap fun e =>
    (e.2.groups.filter fun g => !g.2.ended && !g.2.yielded).flatMap fun g =>
      (g.2.splits.filter fun k => s.splitReady e.1 g.1 k.1).map fun k => Focus.split e.1 g.1 k.1) ++
  (s.comets.filter fun e => s.cometReady e.1 && e.2.wait == .ready).map fun e => Focus.comet e.1

/-- The splits of a group that can issue, by the list of the units that can. -/
def State.readySplits (s : State) (can : List Focus) (b g : Nat) : List (Nat × Split) :=
  (s.grp b g).splits.filter fun e => can.contains (.split b g e.1)

/-- The ready groups of a facet's port. -/
def State.readyGroups (s : State) (can : List Focus) (f p : Nat) : List ReadyGroup :=
  (s.blocks.filter fun e => e.2.phase == .resident && e.2.facet == f).flatMap fun e =>
    (e.2.groups.filter fun g => g.2.port == p && !(s.readySplits can e.1 g.1).isEmpty).map fun g =>
      { blk := e.1, slot := g.1, ep := e.2.node.priority + g.2.skipped / 4096, sector := g.2.sector }

/-- The first of some slots that follows the slot that last issued, in ascending order with wrap. -/
def nextSlot (last : Option Nat) (rs : List ReadyGroup) : Option ReadyGroup :=
  match last with
  | none => minBy (·.slot) rs
  | some n =>
    match minBy (·.slot) (rs.filter fun r => decide (n < r.slot)) with
    | some r => some r
    | none => minBy (·.slot) rs

/-- One group for each sector, first ones kept. -/
def onePerSector : List ReadyGroup → List ReadyGroup
  | [] => []
  | r :: t => r :: (onePerSector t).filter fun x => x.sector != r.sector

/-- The pack of a port: the group that R329 picks, and with it the ready groups of its block at other sectors. -/
def State.pack (s : State) (can : List Focus) (f p : Nat) : List ReadyGroup :=
  let rs := s.readyGroups can f p
  let top := rs.foldl (fun n r => max n r.ep) 0
  let a := rs.filter fun r => r.ep == top
  let first := a.foldl (fun n r => min n r.blk) ((a.map (·.blk)).headD 0)
  match nextSlot ((s.facet f).lastPort.find p) (a.filter fun r => r.blk == first) with
  | none => []
  | some r => onePerSector (r :: rs.filter fun x => x.blk == r.blk)

/-- The ready split of a group that issued least recently (03 R95). -/
def State.oldestSplit (s : State) (can : List Focus) (b g : Nat) : Nat :=
  ((minBy (fun e : Nat × Split => e.2.lastIssue) (s.readySplits can b g)).map Prod.fst).getD 0

/-- A port's choice: its turns, and the counts of the groups that issue and of those that do not (R329, 17 R358). -/
def State.arbitrate (s : State) (can : List Focus) (f p : Nat) : List Turn × State :=
  let rs := s.readyGroups can f p
  let pk := s.pack can f p
  let skipped := rs.filter fun r => !pk.contains r
  let s1 := pk.foldl (fun (t : State) r => t.modGrp r.blk r.slot fun g => { g with skipped := 0 }) s
  let s2 := skipped.foldl (fun (t : State) r => t.modGrp r.blk r.slot fun g => { g with skipped := g.skipped + 1 }) s1
  let s3 := if skipped.isEmpty then s2 else s2.count (coreOfFacet f) 6 1
  let s4 := match pk with
    | [] => s3
    | r :: _ => s3.modFacet f fun x => { x with lastPort := x.lastPort.set p r.slot }
  (pk.map fun r => .lane r.blk r.slot (s.oldestSplit can r.blk r.slot), s4)

/-- Arbitration of a list of ports. -/
def State.arbitrateAll (s : State) (can : List Focus) : List (Nat × Nat) → List Turn × State
  | [] => ([], s)
  | (f, p) :: t =>
    let r := s.arbitrate can f p
    let q := r.2.arbitrateAll can t
    (r.1 ++ q.1, q.2)

/-- The ports of the facets that have blocks. -/
def State.busyPorts (s : State) : List (Nat × Nat) :=
  (sortN (dedupN ((s.blocks.filter fun e => e.2.phase == .resident).map fun e => e.2.facet))).flatMap fun f =>
    (List.range (s.facetWidth (coreOfFacet f))).map fun p => (f, p)

/-! ## The other turns -/

/-- The waiting splits that look again. -/
def State.retryTurns (s : State) : List Turn :=
  s.blocks.flatMap fun e => e.2.groups.flatMap fun g =>
    (g.2.splits.filter fun k => s.splitRetries e.1 g.1 k.1).map fun k => .lane e.1 g.1 k.1

/-- The comet contexts of a comet core that can issue, the one that issued least recently first. -/
def State.cometOrder (s : State) (can : List Focus) (j : Nat) : List Nat :=
  let cs := (s.comets.filter fun e => e.1 / 8 == j && can.contains (.comet e.1)).map fun e => (e.1, e.2.lastIssue)
  (cs.foldr (fun c l => (l.filter fun x => decide (x.2 < c.2)) ++ c :: l.filter fun x => !decide (x.2 < c.2)) []).map Prod.fst

/-- The turns of the comet cores: three comet-core cycles in a core clock (00 R2), one instruction each, in rotation among
the contexts that can issue. A context that waits looks again beside them (14 R300). -/
def State.cometTurns (s : State) (can : List Focus) : List Turn :=
  ((dedupN (s.comets.map fun e => e.1 / 8)).flatMap fun j =>
    let l := s.cometOrder can j
    ((l ++ l ++ l).take 3).map Turn.comet) ++
  (s.comets.filter fun e => s.cometReady e.1 && e.2.wait != .ready).map fun e => Turn.comet e.1

/-- The turns of the sequencers. -/
def State.seqTurns (s : State) : List Turn := (s.blocks.filter fun e => s.hasSeq e.1).map fun e => .seqr e.1

/-- The turns of the filter programs: 8 words a clock in a Meridian (17 R362). -/
def State.filterTurns (s : State) : List Turn := s.merids.flatMap fun e => List.replicate 8 (.filter e.1)

/-! ## What may come from outside a clock's own work -/

/-- The constructor is a step of the machine or an input, not an instruction of a program, and not one that a turn or the
clock itself makes. -/
def freeEvent (i : Instr) : Bool :=
  (laneCode i).isNone && (slotCode i).isNone && (encodeFilter i).isNone &&
  match i with
  | .illegalInstruction _ => false
  | .instructionFetchFault _ _ => false
  | .illegalBundle _ => false
  | .budgetWindow _ => false
  | .counterSample _ => false
  | .energyWindowEnd _ => false
  | .arbiterWindow _ _ => false
  | .takeCompletes _ _ => false
  | .takeLimit _ _ => false
  | .joinTimeout _ _ _ => false
  | .parkLimit _ => false
  | .allBlockedSwapOut _ => false
  | .batchTimeout _ => false
  | .vfSliceEnd _ => false
  | .migrationPassEnd _ => false
  | _ => true

/-- An error of the hardware, among the turns. -/
def Turn.isError : Turn → Bool
  | .parity _ => true
  | .upset _ => true
  | _ => false

/-- Insert a turn by its key. -/
def insertTurn (x : Nat × Turn) : List (Nat × Turn) → List (Nat × Turn)
  | [] => [x]
  | y :: t => if x.1 ≤ y.1 then x :: y :: t else y :: insertTurn x t

/-- Turns by their keys. -/
def sortTurns (ts : List (Nat × Turn)) : List Turn := (ts.foldr insertTurn []).map Prod.snd

/-- The place of a unit among the units of its clock, where the spec orders them: cores ascending, on a core the blocks, in a
block the groups by their slots, then its sequencer, then the claims of its ports (09 R209, R211; 14 R298, R303). -/
def State.unitOrder (s : State) : Turn → Option Nat
  | .lane b g _ => some (2 ^ 64 * (s.blk b).core + 128 * b + g)
  | .seqr b => some (2 ^ 64 * (s.blk b).core + 128 * b + 64)
  | .event (.streamReadAhead b _ _) => some (2 ^ 64 * (s.blk b).core + 128 * b + 65)
  | _ => none

/-- The units of a list of turns take the units' places in their own order; the other turns stay where they are. -/
def State.placeUnits (s : State) : List Turn → List Turn → List Turn
  | [], _ => []
  | x :: t, us =>
    if (s.unitOrder x).isNone then x :: s.placeUnits t us
    else
      match us with
      | [] => x :: s.placeUnits t []
      | u :: vs => u :: s.placeUnits t vs

/-- The turns of a clock in their order: by their free keys, but the units among themselves as the spec orders them. -/
def State.orderTurns (s : State) (ts : List Turn) : List Turn :=
  let l := sortTurns (List.zip ((List.range ts.length).map (Config.turnKey s.now)) ts)
  s.placeUnits l (sortTurns (l.filterMap fun x => (s.unitOrder x).map fun k => (k, x)))

/-! ## The clock -/

/-- Run a step of the machine. -/
def State.run (s : State) (f : State → Out) : State := settleOut (f s) s

/-- The splits of the resident blocks that satisfy a condition. -/
def State.splitsWhere (s : State) (p : Split → Bool) : List (Nat × Nat × Nat) :=
  (s.blocks.filter fun e => e.2.phase == .resident).flatMap fun e => e.2.groups.flatMap fun g =>
    (g.2.splits.filter fun k => p k.2).map fun k => (e.1, g.1, k.1)

/-- The counts of waiting JOINs, and the timeouts that they reach (14 R306). -/
def State.joinClock (s : State) : State :=
  let t : State := { s with blocks := s.blocks.mapv fun _ x =>
    if x.phase == .resident then { x with groups := x.groups.mapv fun _ g => g.startJoinCounts s.now } else x }
  (t.splitsWhere fun k => k.wait == .join && !k.parked).foldl (fun u e => u.run (execJoinTimeout e.1 e.2.1 e.2.2)) t

/-- The swap-outs that a clock decides at its end, when a RESUME or a firing of it has prevailed (15 R333, R334), and the ends of
slices (20 R408). -/
def State.swapClock (s : State) : State :=
  let bs := (s.blocks.filter fun e => e.2.phase == .resident).map Prod.fst
  let t := bs.foldl (fun (u : State) b => (u.run (execParkLimit b)).idleClock b) s
  (List.range 20).foldl (fun (u : State) p => if (u.part p).runVf.isSome then u.run (execVfSliceEnd p) else u) t

/-- A clock of the migrations: lines are read, a pass whose last line has been read ends, and a block ends within 1,400 clocks
(18 R381). -/
def State.moveClock (s : State) : State :=
  let t := s.migrateClock
  let u := (t.migrs.filter fun e => e.2.todo.isEmpty && decide (e.2.start ≤ t.now)).foldl
    (fun (u : State) e => u.run (execMigrationPassEnd e.1)) t
  (u.migrs.filter fun e => match e.2.final with
    | some n => decide (n + 1400 ≤ u.now)
    | none => false).foldl (fun (v : State) e => v.run (execMigrationComplete e.1)) u

/-- A clock of the fabric: accesses are handed to the ports, each port serves a channel, and a retraining that has lasted 70,000
clocks ends, one way or the other (21 R421, R422). -/
def State.fabClock (s : State) : State :=
  let t := (s.sendRemote (s.nextId - s.fabSent)).fabricClock
  (t.fports.filter fun e => e.2.train && e.2.resend.isSome && decide (e.2.trainSince + 70000 ≤ t.now)).foldl
    (fun (u : State) e => (u.run (execPortRetrainEnd e.1 (Config.freeBool u.freeCtr))).tickFree) t

/-- The end of a clock: what lands in it, the counts of waiting JOINs, transfers to the fabric, die barriers, energy, migration,
swap-outs, and the taps of the Meridians. -/
def State.endClock (s : State) : State :=
  let s1 := s.joinClock
  let s2 := ((s1.blocks.filter fun e => s1.hasSeq e.1).map Prod.fst).foldl (fun (t : State) b =>
    ((t.landDue b).settleArrivals b).seqEnd b) s1
  let s3 := s2.fabClock
  let s4 := s3.dbars.foldl (fun (t : State) e => t.dbarMaster e.1) s3
  (s4.energyClock.moveClock.swapClock).flushTaps

/-- The windows that begin with a clock (17 R358, R363; 20 R409, R417). -/
def State.windows (s : State) : State :=
  let s2 := (List.range 5).foldl (fun (t : State) m => if t.merids.has m then t.run (execBudgetWindow m) else t) s
  let s3 := if s2.now % 4096 = 0 then (List.range 384).foldl (fun (t : State) c => t.run (execCounterSample c)) s2 else s2
  let s4 := if s3.now % 700000 = 0 then (List.range 20).foldl (fun (t : State) p => t.run (execEnergyWindowEnd p)) s3 else s3
  if s4.now % 1024 = 0 then { s4 with charges := [] } else s4

/-- The wake-ups that are due in a clock at the latest (07 R176): polls, and monitors that have fired, at the clocks of their
polls; those of blocks that are out too (15 R333). -/
def State.wakeClock (s : State) : State :=
  let late (m : Monitor) : Bool := m.fired && decide (m.armed < s.now) && (s.now - m.armed) % 2048 == 0
  let waits (k : Split) : Bool := match k.wait with
    | .blocked (.waitc _ _ _ _ _) _ => true
    | .blocked (.emit _) _ => true
    | .blocked (.ewait _ _ _ c _) _ => !engLocal c
    | _ => false
  let t := (s.splitsWhere waits).foldl (fun (u : State) e =>
    let ms := u.splitMonitors e.1 e.2.1 e.2.2
    let v := if ms.any u.pollDue then (u.run (execWaitcPoll e.1 e.2.1 e.2.2)).run (execEmitWake e.1 e.2.1 e.2.2) else u
    if ms.any late then (v.run (execWaitcReevaluate e.1 e.2.1 e.2.2)).run (execEmitWake e.1 e.2.1 e.2.2) else v) s
  let out := (t.blocks.filter fun e => e.2.phase == .swapped && t.monitors.vals.any fun m => m.blk == e.1 && t.pollDue m).map
    Prod.fst
  (out.foldl (fun (u : State) b => u.run (execDistributorWaitcPoll b)) t).reenter
    ((t.monitors.filter fun e => e.2.fired).map fun e => e.2.blk)

/-- The distributors' acts that a clock brings at the latest: timeouts and looks at queues (15 R316, R317), a reservation that is
due, an admission within 16 clocks of what makes room for it, and the quantum (R326). -/
def State.distClock (s : State) : State :=
  let s1 := (s.queues.map Prod.fst).foldl State.queueClock s
  if !s1.blocks.any fun e => e.2.waits then s1
  else
    let s2 := (List.range 20).foldl (fun (t : State) p => t.settleVf p) s1
    let s3 := (List.range 4).foldl (fun (t : State) d => t.run (execReservation d)) s2
    let s4 := if s3.now % 16 = 0 then (List.range 4).foldl (fun (t : State) d => t.run (execBlockAdmission d)) s3 else s3
    s4.reserve.foldl (fun (t : State) e => t.run (execQuantumPreemption e.1)) s4

/-- A clock begins: its windows, what is due in it at the latest, the translations that restored blocks reserve again, and the
images that are wanted. -/
def State.beginClock (s : State) : State :=
  let s1 : State := { s with now := s.now + 1 }
  let s2 := s1.windows.wakeClock.distClock
  let s3 := (s2.blocks.filter fun e => e.2.phase == .resident && !e.2.reserving.isEmpty).foldl
    (fun (t : State) e => t.reserveStep e.1) s2
  (Config.imagesWanted s3.now).foldl (fun (t : State) w => t.wantImage w.1 (if w.2 then 4 else 3)) s3

/-- No group is held back by YIELD any more. -/
def State.clearYields (s : State) : State :=
  { s with blocks := s.blocks.mapv fun _ x => { x with groups := x.groups.mapv fun _ g =>
      if g.yielded then { g with yielded := false } else g } }

/-- A clock: its turns are laid out. Filter programs come last, so that an update falls after a READCLR of its clock (17 R370). -/
def State.clock (s : State) : State :=
  let t := s.endClock.beginClock
  let w := t.tryUnits t.readyUnits
  let r := w.2.arbitrateAll w.1 w.2.busyPorts
  let u := r.2.clearYields
  let ts := ((Config.events u.now).filter freeEvent).map .event ++ (Config.hardErrors u.now).filter Turn.isError ++ r.1 ++
    u.retryTurns ++ u.cometTurns w.1 ++ u.seqTurns
  { u with agenda := u.orderTurns ts ++ u.filterTurns }

/-- The part is halted by a failed boot: only a cold reset goes on (20 R418). -/
def State.halted (s : State) : Bool := decide (1 ≤ s.bootst) && decide (s.bootst ≤ 5)

/-- A turn that a halted part takes. -/
def Turn.always : Turn → Bool
  | .tick => true
  | .event .coldReset => true
  | _ => false

/-- A turn. -/
def State.takeTurn (s : State) (x : Turn) : Out :=
  if s.halted && !x.always then .next s
  else
    match x with
    | .tick => .next s.clock
    | .lane b g k => .next (s.laneTurn b g k)
    | .comet c => .next (s.cometTurn c)
    | .seqr b => .next (s.seqTurn b)
    | .filter m => .next (s.filterTurn m)
    | .event i => Sys2Proof.Machine.exec i s
    | .parity f => .next (s.parityTurn f)
    | .upset u => .next (s.upset u)

end Sys2Proof.Machine
end

