-- ==== Sys2Proof/Machine/Step.lean ====
section
/-!
DEFINITION. Machine/Step.lean: one step of the machine: the next turn of the clock, or, when the clock has no turn left, the
next clock; and the state whose next step runs a given instruction.
-/

namespace Sys2Proof.Machine

/-- The outcome of a turn, after which no unit is in focus. -/
def unfocus : Host.Outcome State Fault Refusal → Host.Outcome State Fault Refusal
  | .next t => .next { t with focus := .idle }
  | o => o

/-- One step: the first turn of the agenda, or a clock. -/
def step (s : State) : Host.Outcome State Fault Refusal :=
  match s.agenda with
  | [] => unfocus (s.takeTurn .tick)
  | x :: t => unfocus (({ s with agenda := t } : State).takeTurn x)

/-! ## A program that holds one instruction (log 40) -/

/-- The node of a block of one group of 8 lanes with every register, its code at address 0. -/
def oneNode : Node :=
  { (default : Node) with code := 0, width := 8, groups := 1, vregs := 64, sregs := 64, diemask := 1 }

/-- The translation of the block's first page to physical address 0, as a walk would leave it in the core's TLB. -/
def oneEntry : TlbEntry :=
  { vf := 1, va := 0, size := 4096, pa := 0, ipa := 0, mt := .n, ro := false, part := 31, pin := none, rem := none,
    dirty := true, leaves := [] }

/-- A block of that node, launched on core 0. -/
def oneBlock (now : Nat) : Block :=
  { Block.empty with
    node := oneNode, phase := .resident, vf := 1, ctxArea := 0x10000, formedAt := now, waitingSince := now,
    residentSince := now, groups := [(0, launchGroup oneNode 4 0 0 1 now)] }

/-- A filter program of one word, running on an event. -/
def oneFilter (w : Nat) (x : Merid) : Merid :=
  { x with
    en := true,
    slots := x.slots.set 0 { types := 0, part := 31, csel := 0, words := [w], objs := [], store := [], leaving := false },
    run := some { ev := default, slot := 0, pc := 0, f := [], done := 0, todo := [] } }

/-- `s` with an instruction where the next step fetches: a lane word, and the word after it, at address 0 of a block of one
group that has just been launched on core 0, or the first word of a filter program that Meridian 0 runs; its turn is next. -/
def State.withFetchWord (s : State) (nbits w : Nat) : State :=
  if nbits = 16 then
    { s with merids := s.merids.set 0 (oneFilter (w % 2 ^ 16) (s.merids.getD 0 Merid.reset)), agenda := [.filter 0] }
  else
    { s with
      mem := s.mem.write 0 8 (w % 2 ^ 64), blocks := s.blocks.set s.nextId (oneBlock s.now), nextId := s.nextId + 1,
      tlbs := s.tlbs.set 0 [oneEntry], agenda := [.lane s.nextId 0 0] }

end Sys2Proof.Machine
end

