-- ==== Sys2Proof/Laws/Encode.lean ====
section
/-!
SUPPORT. Laws/Encode.lean: the fields of a word that the encoder lays out are the fields the decoder reads, and the codes
of the enumerations are read back.
-/

namespace Sys2Proof.Laws.Enc

open Sys2Proof

theorem extract_append_high {m n w : Nat} (a : BitVec m) (b : BitVec n) (x : BitVec w) (h : x.toNat = (a ++ b).toNat)
    (k : Nat) (hk : n ≤ k) (l : Nat) : x.extractLsb' k l = a.extractLsb' (k - n) l := by
  apply BitVec.eq_of_getLsbD_eq
  intro i hi
  have hx : x.getLsbD (k + i) = (a ++ b).getLsbD (k + i) := by simp only [BitVec.getLsbD, h]
  simp only [BitVec.getLsbD_extractLsb', hx, BitVec.getLsbD_append]
  rw [if_neg (by omega), show k + i - n = k - n + i by omega]

theorem extract_append_low {m n w : Nat} (a : BitVec m) (b : BitVec n) (x : BitVec w) (h : x.toNat = (a ++ b).toNat)
    (k l : Nat) (hk : k + l ≤ n) : x.extractLsb' k l = b.extractLsb' k l := by
  apply BitVec.eq_of_getLsbD_eq
  intro i hi
  have hx : x.getLsbD (k + i) = (a ++ b).getLsbD (k + i) := by simp only [BitVec.getLsbD, h]
  simp only [BitVec.getLsbD_extractLsb', hx, BitVec.getLsbD_append]
  rw [if_pos (by omega)]

theorem laneFields_word (f : LaneFields) : laneFields f.word = f := by
  obtain ⟨op, g, d, a, b, fn⟩ := f
  simp only [laneFields, LaneFields.word, LaneFields.mk.injEq]
  refine ⟨?_, ?_, ?_, ?_, ?_, ?_⟩
  · rw [extract_append_high op _ _ rfl 26 (by decide)]; simp
  · rw [extract_append_low op _ _ rfl 22 4 (by decide), extract_append_high g _ _ rfl 22 (by decide)]; simp
  · rw [extract_append_low op _ _ rfl 16 6 (by decide), extract_append_low g _ _ rfl 16 6 (by decide), extract_append_high d _ _ rfl 16 (by decide)]; simp
  · rw [extract_append_low op _ _ rfl 10 6 (by decide), extract_append_low g _ _ rfl 10 6 (by decide), extract_append_low d _ _ rfl 10 6 (by decide), extract_append_high a _ _ rfl 10 (by decide)]; simp
  · rw [extract_append_low op _ _ rfl 4 6 (by decide), extract_append_low g _ _ rfl 4 6 (by decide), extract_append_low d _ _ rfl 4 6 (by decide), extract_append_low a _ _ rfl 4 6 (by decide), extract_append_high b _ _ rfl 4 (by decide)]; simp
  · rw [extract_append_low op _ _ rfl 0 4 (by decide), extract_append_low g _ _ rfl 0 4 (by decide), extract_append_low d _ _ rfl 0 4 (by decide), extract_append_low a _ _ rfl 0 4 (by decide), extract_append_low b _ _ rfl 0 4 (by decide)]; simp

theorem slotFields_word (f : SlotFields) : slotFields f.word = f := by
  obtain ⟨op, g, b⟩ := f
  simp only [slotFields, SlotFields.word, SlotFields.mk.injEq]
  refine ⟨?_, ?_, ?_⟩
  · rw [extract_append_high op _ _ rfl 26 (by decide)]; simp
  · rw [extract_append_low op _ _ rfl 22 4 (by decide), extract_append_high g _ _ rfl 22 (by decide)]; simp
  · rw [extract_append_low op _ _ rfl 0 22 (by decide), extract_append_low g _ _ rfl 0 22 (by decide)]; simp

theorem join_parts {w : Nat} (x : BitVec w) (k m n : Nat) :
    (x.extractLsb' (k + n) m ++ x.extractLsb' k n : BitVec (m + n)) = x.extractLsb' k (m + n) := by
  apply BitVec.eq_of_getLsbD_eq
  intro i hi
  simp only [BitVec.getLsbD_append, BitVec.getLsbD_extractLsb']
  by_cases h : i < n
  · simp [h, hi]
  · simp [h, hi, show i - n < m by omega, show k + n + (i - n) = k + i by omega]

theorem imm10_parts (x : BitVec 10) : (x.extractLsb' 4 6 ++ x.extractLsb' 0 4 : BitVec 10) = x := by
  have h := join_parts x 0 6 4
  simp only [Nat.zero_add, Nat.reduceAdd] at h
  rw [h]; simp

theorem imm16_parts (x : BitVec 16) : (x.extractLsb' 10 6 ++ (x.extractLsb' 4 6 ++ x.extractLsb' 0 4 : BitVec 10) : BitVec 16) = x := by
  have h := join_parts x 0 6 4
  have h2 := join_parts x 0 6 10
  simp only [Nat.zero_add, Nat.reduceAdd] at h h2
  rw [h, h2]; simp

theorem ofs22_parts (x : BitVec 22) : (x.extractLsb' 16 6 ++ (x.extractLsb' 10 6 ++ (x.extractLsb' 4 6 ++ x.extractLsb' 0 4 : BitVec 10) : BitVec 16) : BitVec 22) = x := by
  have h := join_parts x 0 6 4
  have h2 := join_parts x 0 6 10
  have h3 := join_parts x 0 6 16
  simp only [Nat.zero_add, Nat.reduceAdd] at h h2 h3
  rw [h, h2, h3]; simp

theorem append_high {m n : Nat} (a : BitVec m) (b : BitVec n) : (a ++ b).extractLsb' n m = a := by
  rw [extract_append_high a b _ rfl n (Nat.le_refl n) m]; simp

theorem append_low {m n : Nat} (a : BitVec m) (b : BitVec n) : (a ++ b).extractLsb' 0 n = b := by
  rw [extract_append_low a b _ rfl 0 n (by omega)]; simp

theorem cond_high (c k : BitVec 3) : (c ++ k : BitVec 6).extractLsb' 3 3 = c := append_high c k

theorem cond_low (c k : BitVec 3) : (c ++ k : BitVec 6).extractLsb' 0 3 = k := append_low c k

theorem pairField_low (k : PairIx) : (pairField k).extractLsb' 0 3 = k := append_low 0#3 k

theorem pairField_high (k : PairIx) : (pairField k).extractLsb' 3 3 = 0 := append_high 0#3 k

theorem numField_low (k : BitVec 4) : (numField k).extractLsb' 0 4 = k := append_low 0#2 k

theorem numField_high (k : BitVec 4) : (numField k).extractLsb' 4 2 = 0 := append_high 0#2 k

theorem engField_low (k : BitVec 2) : (engField k).extractLsb' 0 2 = k := append_low 0#4 k

theorem engField_high (k : BitVec 2) : (engField k).extractLsb' 2 4 = 0 := append_high 0#4 k

theorem n20_high (n : BitVec 2) (o : BitVec 20) : (n ++ o : BitVec 22).extractLsb' 20 2 = n := append_high n o

theorem n20_low (n : BitVec 2) (o : BitVec 20) : (n ++ o : BitVec 22).extractLsb' 0 20 = o := append_low n o

theorem decICond_enc (c : ICond) : decICond (encICond c) = some c := by cases c <;> rfl

theorem decFCond_enc (c : FCond) : decFCond (encFCond c) = some c := by cases c <;> rfl

theorem decSCond_enc (c : SCond) : decSCond (encSCond c) = some c := by cases c <;> rfl

theorem decFloatTy_enc (c : FloatTy) : decFloatTy (encFloatTy c) = some c := by cases c <;> rfl

theorem decCvtTy_enc (c : CvtTy) : decCvtTy (encCvtTy c) = some c := by cases c <;> rfl

theorem decFmt_enc (c : Fmt) : decFmt (encFmt c) = some c := by cases c <;> rfl

theorem decShape_enc (c : Shape) : decShape (encShape c) = some c := by cases c <;> rfl

theorem cvt_join (x : BitVec 4) : (x.extractLsb' 2 2 ++ x.extractLsb' 0 2 : BitVec 4) = x := by
  have h := join_parts x 0 2 2
  simp only [Nat.zero_add, Nat.reduceAdd] at h
  rw [h]; simp

theorem reduxB_x (x : Bool) (n : BitVec 2) (k : PairIx) : (reduxB x n k).getLsbD 5 = x := by revert x n k; decide

theorem reduxB_kind (x : Bool) (n : BitVec 2) (k : PairIx) : (reduxB x n k).extractLsb' 3 2 = n := by revert x n k; decide

theorem reduxB_pair (x : Bool) (n : BitVec 2) (k : PairIx) : (reduxB x n k).extractLsb' 0 3 = k := by revert x n k; decide

theorem atomB_low (t : AtomFlags) (k : BitVec 3) : (atomB t k).extractLsb' 0 3 = k := append_low _ k

theorem atomB_flags (t : AtomFlags) (k : BitVec 3) : ((atomB t k).getLsbD 5 = t.acq ∧ (atomB t k).getLsbD 4 = t.rel) ∧ (atomB t k).getLsbD 3 = t.ord := by
  obtain ⟨x, y, z⟩ := t; revert x y z k; decide

theorem decHint_enc (h : Option (BitVec 3)) : decHint (encHint h) = some h := by
  cases h with
  | none => rfl
  | some h => revert h; decide

theorem decRedOp_enc (c : RedOp) : decRedOp (encRedOp c) = some c := by cases c <;> rfl

theorem memB_width (x : Bool) (w : MWidth) (o : BitVec 2) : decMWidth ((memB x w o).extractLsb' 2 3) = some w := by
  cases w <;> revert x o <;> decide

theorem memB_low (x : Bool) (w : MWidth) (o : BitVec 2) : (memB x w o).extractLsb' 0 2 = o := append_low _ o

theorem memB_dir (x : Bool) (w : MWidth) (o : BitVec 2) : (memB x w o).getLsbD 5 = x := by
  cases w <;> revert x o <;> decide

theorem decMOrd_enc (c : MOrd) : decMOrd (encMOrd c) = some c := by cases c <;> rfl

theorem decSpecReg_enc (c : SpecReg) : decSpecReg (encSpecReg c) = some c := by cases c <;> rfl

theorem decWCmp_enc (c : WCmp) : decWCmp (encWCmp c) = some c := by cases c <;> rfl

theorem packedFn_w (e : EWidth) (u x : Bool) : decEWidth ((packedFn e u x).extractLsb' 2 2) = some e := by cases e <;> cases u <;> cases x <;> rfl

theorem packedFn_u (e : EWidth) (u x : Bool) : (packedFn e u x).getLsbD 1 = u := by cases e <;> cases u <;> cases x <;> rfl

theorem packedFn_x (e : EWidth) (u x : Bool) : (packedFn e u x).getLsbD 0 = x := by cases e <;> cases u <;> cases x <;> rfl

theorem src_dec (src : Src) (sub : BitVec 2) :
    decSrc ((src.oc ++ sub : BitVec 4).extractLsb' 2 2) src.field (src.literal.getD 0) = some src := by
  rw [append_high]; cases src <;> rfl

theorem src_low (src : Src) (sub : BitVec 2) : (src.oc ++ sub : BitVec 4).extractLsb' 0 2 = sub := append_low _ _

theorem int_op (grp : BitVec 3) (w : Bool) (g : Pred) (d a b : Reg) (fn : BitVec 4) (l : Word) :
    decLaneRaw ⟨((0#2 ++ grp : BitVec 5) ++ BitVec.ofBool w : BitVec 6), g, d, a, b, fn⟩ l =
      decInt ⟨((0#2 ++ grp : BitVec 5) ++ BitVec.ofBool w : BitVec 6), g, d, a, b, fn⟩ l := by
  have h : ((0#2 ++ grp : BitVec 5) ++ BitVec.ofBool w : BitVec 6).toNat < 16 := by revert grp w; decide
  unfold decLaneRaw
  exact if_pos h

theorem int_w (grp : BitVec 3) (w : Bool) : ((0#2 ++ grp : BitVec 5) ++ BitVec.ofBool w : BitVec 6).getLsbD 0 = w := by
  revert grp w; decide

theorem int_grp (grp : BitVec 3) (w : Bool) :
    ((0#2 ++ grp : BitVec 5) ++ BitVec.ofBool w : BitVec 6).extractLsb' 1 3 = grp := by
  revert grp w; decide

theorem icmp_u (src : Src) (u w : Bool) : (src.oc ++ (BitVec.ofBool u ++ BitVec.ofBool w : BitVec 2) : BitVec 4).getLsbD 1 = u := by
  generalize src.oc = x; revert x u w; decide

theorem icmp_w (src : Src) (u w : Bool) : (src.oc ++ (BitVec.ofBool u ++ BitVec.ofBool w : BitVec 2) : BitVec 4).getLsbD 0 = w := by
  generalize src.oc = x; revert x u w; decide

theorem ty_high (t : FloatTy) : (0#4 ++ encFloatTy t : BitVec 6).extractLsb' 2 4 = 0 := append_high _ _

theorem ty_low (t : FloatTy) : (0#4 ++ encFloatTy t : BitVec 6).extractLsb' 0 2 = encFloatTy t := append_low _ _

theorem cvt_b_high (a : BitVec 4) (b : BitVec 2) : (a ++ b : BitVec 6).extractLsb' 2 4 = a := append_high _ _

theorem cvt_b_low (a : BitVec 4) (b : BitVec 2) : (a ++ b : BitVec 6).extractLsb' 0 2 = b := append_low _ _

theorem cvt_fn (x : BitVec 2) (r s : Bool) : ((x ++ BitVec.ofBool r : BitVec 3) ++ BitVec.ofBool s : BitVec 4).extractLsb' 2 2 = x := by
  revert x r s; decide

theorem cvt_rz (x : BitVec 2) (r s : Bool) : ((x ++ BitVec.ofBool r : BitVec 3) ++ BitVec.ofBool s : BitVec 4).getLsbD 1 = r := by
  revert x r s; decide

theorem cvt_sat (x : BitVec 2) (r s : Bool) : ((x ++ BitVec.ofBool r : BitVec 3) ++ BitVec.ofBool s : BitVec 4).getLsbD 0 = s := by
  revert x r s; decide

theorem vote_x (x : Bool) (n : BitVec 3) : (BitVec.ofBool x ++ n : BitVec 4).getLsbD 3 = x := by revert x n; decide

theorem vote_fn (x : Bool) (n : BitVec 3) : (BitVec.ofBool x ++ n : BitVec 4).extractLsb' 0 3 = n := append_low _ _

theorem memB_rel (x : Bool) (w : MWidth) (r : Bool) : (memB x w (0#1 ++ BitVec.ofBool r)).getLsbD 0 = r := by
  cases w <;> cases x <;> cases r <;> rfl

theorem memB_zero (x : Bool) (w : MWidth) (r : Bool) : (memB x w (0#1 ++ BitVec.ofBool r)).getLsbD 1 = false := by
  cases w <;> cases x <;> cases r <;> rfl

theorem atomB_acq (t : AtomFlags) (k : BitVec 3) : (atomB t k).getLsbD 5 = t.acq := by
  obtain ⟨x, y, z⟩ := t; revert x y z k; decide

theorem atomB_rel (t : AtomFlags) (k : BitVec 3) : (atomB t k).getLsbD 4 = t.rel := by
  obtain ⟨x, y, z⟩ := t; revert x y z k; decide

theorem atomB_ord (t : AtomFlags) (k : BitVec 3) : (atomB t k).getLsbD 3 = t.ord := by
  obtain ⟨x, y, z⟩ := t; revert x y z k; decide

theorem atomB_w (t : AtomFlags) (w : Bool) : (atomB t (atomW w)).getLsbD 2 = w := by
  obtain ⟨x, y, z⟩ := t; revert x y z w; decide

theorem atomB_w_low (t : AtomFlags) (w : Bool) : (atomB t (atomW w)).extractLsb' 0 2 = 0 := by
  obtain ⟨x, y, z⟩ := t; revert x y z w; decide

theorem waitc_w (w : Bool) : (BitVec.ofBool w ++ 0#5 : BitVec 6).getLsbD 5 = w := by cases w <;> rfl

theorem waitc_low (w : Bool) : (BitVec.ofBool w ++ 0#5 : BitVec 6).extractLsb' 0 5 = 0 := append_low _ _

theorem ne_of_wf {cmd : BitVec 6} (h : (cmd != 0) = true) : cmd ≠ 0 := by simpa using h

theorem engine_clear {f : LaneFields} {i : Instr} (hz : f.b ≠ 0) (ho : f.op = 0x2F) (hf : f.fn = 2)
    (hi : (match f.d.extractLsb' 0 2 with
      | 2#2 => okIf (f.d.extractLsb' 2 4 == 0) (.sparseIndexClear f.g f.a f.b)
      | 3#2 => okIf (f.d.extractLsb' 2 4 == 0) (.lodestarClear f.g f.a f.b)
      | _ => okIf (f.d.extractLsb' 2 4 == 0) (.ecmdClear f.g ((f.d.extractLsb' 0 2).getLsbD 0) f.a f.b)) = some i) {l : Word} :
    decLaneRaw f l = some i := by
  obtain ⟨op, g, d, a, b, fn⟩ := f
  subst ho hf
  have e : decLaneRaw ⟨0x2F, g, d, a, b, 2⟩ l = decEngine ⟨0x2F, g, d, a, b, 2⟩ := rfl
  rw [e]
  unfold decEngine
  dsimp only
  rw [if_neg hz]
  exact hi

theorem ext_high {m n w : Nat} (a : BitVec m) (b : BitVec n) (x : BitVec w) (h : x.toNat = (a ++ b).toNat) :
    x.extractLsb' n m = a := by
  rw [extract_append_high a b x h n (Nat.le_refl n)]; simp

theorem ext_low {m n w : Nat} (a : BitVec m) (b : BitVec n) (x : BitVec w) (h : x.toNat = (a ++ b).toNat) {k l : Nat}
    {y : BitVec l} (hk : k + l ≤ n) (hb : b.extractLsb' k l = y) : x.extractLsb' k l = y := by
  rw [extract_append_low a b x h k l hk, hb]

theorem sBits_d (d a b : XReg) : (sBits d a b).extractLsb' 17 5 = d := ext_high d _ _ rfl

theorem sBits_a (d a b : XReg) : (sBits d a b).extractLsb' 12 5 = a := ext_low d _ _ rfl (by decide) (ext_high a _ _ rfl)

theorem sBits_b (d a b : XReg) : (sBits d a b).extractLsb' 7 5 = b :=
  ext_low d _ _ rfl (by decide) (ext_low a _ _ rfl (by decide) (ext_high b _ _ rfl))

theorem x17_high (x : BitVec 5) (o : BitVec 17) : (x ++ o : BitVec 22).extractLsb' 17 5 = x := ext_high _ _ _ rfl

theorem x17_low (x : BitVec 5) (o : BitVec 17) : (x ++ o : BitVec 22).extractLsb' 0 17 = o := append_low _ _

theorem scmp_k (k c : BitVec 3) (a b : XReg) :
    (k ++ (c ++ (a ++ (b ++ 0#6 : BitVec 11) : BitVec 16) : BitVec 19) : BitVec 22).extractLsb' 19 3 = k := ext_high _ _ _ rfl

theorem scmp_c (k c : BitVec 3) (a b : XReg) :
    (k ++ (c ++ (a ++ (b ++ 0#6 : BitVec 11) : BitVec 16) : BitVec 19) : BitVec 22).extractLsb' 16 3 = c :=
  ext_low k _ _ rfl (by decide) (ext_high _ _ _ rfl)

theorem scmp_a (k c : BitVec 3) (a b : XReg) :
    (k ++ (c ++ (a ++ (b ++ 0#6 : BitVec 11) : BitVec 16) : BitVec 19) : BitVec 22).extractLsb' 11 5 = a :=
  ext_low k _ _ rfl (by decide) (ext_low c _ _ rfl (by decide) (ext_high _ _ _ rfl))

theorem scmp_b (k c : BitVec 3) (a b : XReg) :
    (k ++ (c ++ (a ++ (b ++ 0#6 : BitVec 11) : BitVec 16) : BitVec 19) : BitVec 22).extractLsb' 6 5 = b :=
  ext_low k _ _ rfl (by decide) (ext_low c _ _ rfl (by decide) (ext_low a _ _ rfl (by decide) (ext_high _ _ _ rfl)))

theorem hBits_t (t : Handle) (n : BitVec 4) : (hBits t n).extractLsb' 14 8 = t := ext_high _ _ _ rfl

theorem hBits_n (t : Handle) (n : BitVec 4) : (hBits t n).extractLsb' 10 4 = n := ext_low t _ _ rfl (by decide) (ext_high _ _ _ rfl)

theorem barBits_b (b : BitVec 4) (m : BitVec 2) : (barBits b m).extractLsb' 18 4 = b := ext_high _ _ _ rfl

theorem barBits_m (b : BitVec 4) (m : BitVec 2) : (barBits b m).extractLsb' 16 2 = m :=
  ext_low b _ _ rfl (by decide) (ext_high _ _ _ rfl)

theorem tBits_t (t : Handle) (a b : BitVec 6) (s : Shape) : (tBits t a b s).extractLsb' 14 8 = t := ext_high _ _ _ rfl

theorem tBits_a (t : Handle) (a b : BitVec 6) (s : Shape) : (tBits t a b s).extractLsb' 8 6 = a :=
  ext_low t _ _ rfl (by decide) (ext_high _ _ _ rfl)

theorem tBits_b (t : Handle) (a b : BitVec 6) (s : Shape) : (tBits t a b s).extractLsb' 2 6 = b :=
  ext_low t _ _ rfl (by decide) (ext_low a _ _ rfl (by decide) (ext_high _ _ _ rfl))

theorem tBits_s (t : Handle) (a b : BitVec 6) (s : Shape) : (tBits t a b s).extractLsb' 0 2 = encShape s :=
  ext_low t _ _ rfl (by decide) (ext_low a _ _ rfl (by decide) (append_low _ _))

theorem tcvt_d (d s : Handle) (f : BitVec 4) (rz sat : Bool) :
    (d ++ (s ++ (f ++ (BitVec.ofBool rz ++ BitVec.ofBool sat : BitVec 2) : BitVec 6) : BitVec 14) : BitVec 22).extractLsb' 14 8 = d :=
  ext_high _ _ _ rfl

theorem tcvt_s (d s : Handle) (f : BitVec 4) (rz sat : Bool) :
    (d ++ (s ++ (f ++ (BitVec.ofBool rz ++ BitVec.ofBool sat : BitVec 2) : BitVec 6) : BitVec 14) : BitVec 22).extractLsb' 6 8 = s :=
  ext_low d _ _ rfl (by decide) (ext_high _ _ _ rfl)

theorem tcvt_f (d s : Handle) (f : BitVec 4) (rz sat : Bool) :
    (d ++ (s ++ (f ++ (BitVec.ofBool rz ++ BitVec.ofBool sat : BitVec 2) : BitVec 6) : BitVec 14) : BitVec 22).extractLsb' 2 4 = f :=
  ext_low d _ _ rfl (by decide) (ext_low s _ _ rfl (by decide) (ext_high _ _ _ rfl))

theorem getLsbD_of_extract {w : Nat} (x : BitVec w) (k : Nat) (b : Bool) (h : x.extractLsb' k 1 = BitVec.ofBool b) :
    x.getLsbD k = b := by
  have e : (x.extractLsb' k 1).getLsbD 0 = x.getLsbD k := by simp
  rw [← e, h]; cases b <;> rfl

theorem tcvt_rz (d s : Handle) (f : BitVec 4) (rz sat : Bool) :
    (d ++ (s ++ (f ++ (BitVec.ofBool rz ++ BitVec.ofBool sat : BitVec 2) : BitVec 6) : BitVec 14) : BitVec 22).getLsbD 1 = rz :=
  getLsbD_of_extract _ _ _ (ext_low d _ _ rfl (by decide) (ext_low s _ _ rfl (by decide) (ext_low f _ _ rfl (by decide)
    (ext_high _ _ _ rfl))))

theorem tcvt_sat (d s : Handle) (f : BitVec 4) (rz sat : Bool) :
    (d ++ (s ++ (f ++ (BitVec.ofBool rz ++ BitVec.ofBool sat : BitVec 2) : BitVec 6) : BitVec 14) : BitVec 22).getLsbD 0 = sat :=
  getLsbD_of_extract _ _ _ (ext_low d _ _ rfl (by decide) (ext_low s _ _ rfl (by decide) (ext_low f _ _ rfl (by decide)
    (append_low _ _))))

theorem mBits_t (t : Handle) (x : XReg) (n : BitVec 3) : (mBits t x n).extractLsb' 14 8 = t := ext_high _ _ _ rfl

theorem mBits_x (t : Handle) (x : XReg) (n : BitVec 3) : (mBits t x n).extractLsb' 9 5 = x :=
  ext_low t _ _ rfl (by decide) (ext_high _ _ _ rfl)

theorem mBits_n (t : Handle) (x : XReg) (n : BitVec 3) : (mBits t x n).extractLsb' 6 3 = n :=
  ext_low t _ _ rfl (by decide) (ext_low x _ _ rfl (by decide) (ext_high _ _ _ rfl))

theorem zBits_z (z : BitVec 3) (x : XReg) : (zBits z x).extractLsb' 19 3 = z := ext_high _ _ _ rfl

theorem zBits_x (z : BitVec 3) (x : XReg) : (zBits z x).extractLsb' 14 5 = x :=
  ext_low z _ _ rfl (by decide) (ext_high _ _ _ rfl)

theorem zset_z (z : BitVec 3) (x : XReg) (f : BitVec 4) :
    (z ++ (x ++ (f ++ 0#10 : BitVec 14) : BitVec 19) : BitVec 22).extractLsb' 19 3 = z := ext_high _ _ _ rfl

theorem zset_x (z : BitVec 3) (x : XReg) (f : BitVec 4) :
    (z ++ (x ++ (f ++ 0#10 : BitVec 14) : BitVec 19) : BitVec 22).extractLsb' 14 5 = x :=
  ext_low z _ _ rfl (by decide) (ext_high _ _ _ rfl)

theorem zset_f (z : BitVec 3) (x : XReg) (f : BitVec 4) :
    (z ++ (x ++ (f ++ 0#10 : BitVec 14) : BitVec 19) : BitVec 22).extractLsb' 10 4 = f :=
  ext_low z _ _ rfl (by decide) (ext_low x _ _ rfl (by decide) (ext_high _ _ _ rfl))

theorem decVFields_bits (v : VFields) : decVFields (vBits v) = v := by
  obtain ⟨od, os, m, f⟩ := v
  simp only [decVFields, vBits, VFields.mk.injEq]
  exact ⟨ext_high _ _ _ rfl, ext_low od _ _ rfl (by decide) (ext_high _ _ _ rfl),
    ext_low od _ _ rfl (by decide) (ext_low os _ _ rfl (by decide) (ext_high _ _ _ rfl)),
    ext_low od _ _ rfl (by decide) (ext_low os _ _ rfl (by decide) (append_low _ _))⟩

theorem fk_op (op : BitVec 5) (a : BitVec 4) (k : BitVec 7) : (op ++ (a ++ k : BitVec 11) : BitVec 16).extractLsb' 11 5 = op :=
  ext_high _ _ _ rfl

theorem fk_a (op : BitVec 5) (a : BitVec 4) (k : BitVec 7) : (op ++ (a ++ k : BitVec 11) : BitVec 16).extractLsb' 7 4 = a :=
  ext_low op _ _ rfl (by decide) (ext_high _ _ _ rfl)

theorem fk_k (op : BitVec 5) (a : BitVec 4) (k : BitVec 7) : (op ++ (a ++ k : BitVec 11) : BitVec 16).extractLsb' 0 7 = k :=
  ext_low op _ _ rfl (by decide) (append_low _ _)

theorem fr_op (op : BitVec 5) (a b : BitVec 4) (x : BitVec 3) :
    (op ++ (a ++ (b ++ x : BitVec 7) : BitVec 11) : BitVec 16).extractLsb' 11 5 = op := ext_high _ _ _ rfl

theorem fr_a (op : BitVec 5) (a b : BitVec 4) (x : BitVec 3) :
    (op ++ (a ++ (b ++ x : BitVec 7) : BitVec 11) : BitVec 16).extractLsb' 7 4 = a :=
  ext_low op _ _ rfl (by decide) (ext_high _ _ _ rfl)

theorem fr_b (op : BitVec 5) (a b : BitVec 4) (x : BitVec 3) :
    (op ++ (a ++ (b ++ x : BitVec 7) : BitVec 11) : BitVec 16).extractLsb' 3 4 = b :=
  ext_low op _ _ rfl (by decide) (ext_low a _ _ rfl (by decide) (ext_high _ _ _ rfl))

theorem fr_x (op : BitVec 5) (a b : BitVec 4) (x : BitVec 3) :
    (op ++ (a ++ (b ++ x : BitVec 7) : BitVec 11) : BitVec 16).extractLsb' 0 3 = x :=
  ext_low op _ _ rfl (by decide) (ext_low a _ _ rfl (by decide) (append_low _ _))

theorem decFilterRaw_jmp {o : BitVec 11} : decFilterRaw (0x12#5 ++ o) = some (.fltJmp o) := by
  unfold decFilterRaw
  have h1 : (0x12#5 ++ o : BitVec 16).extractLsb' 11 5 = 0x12#5 := ext_high _ _ _ rfl
  have h2 : (0x12#5 ++ o : BitVec 16).extractLsb' 0 11 = o := append_low _ _
  simp only [h1, h2]

end Sys2Proof.Laws.Enc
end

