-- ==== Sys2Proof/Laws/PerInstr.lean ====
section
/-!
SUPPORT. Laws/PerInstr.lean: decoding what is encoded gives the instruction back, for each constructor.
-/

set_option linter.constructorNameAsVariable false
set_option linter.unusedSimpArgs false
set_option linter.unnecessarySeqFocus false

namespace Sys2Proof.Laws.RoundTrip

set_option Elab.async false

open Sys2Proof.Laws.Enc

/-- Decoding the words of a well-formed instruction gives the instruction: the word and the literal word of a lane
instruction, the slot word of a slot instruction in its slot, the word of a filter instruction. -/
def Statement (i : Instr) : Prop :=
  i.wf = true →
    (∀ c, laneCode i = some c → decodeLane c.fields.word (c.lit.getD 0) = some i) ∧
    (∀ p c f, slotCode i = some (p, c, f) → decodeSlot c p f.word = some i) ∧
    (∀ w, encodeFilter i = some w → decodeFilter w = some i)

/-- The decoders of the four slots before the operand conditions. -/
def decSlotRaw (c : Col) (p : SlotPos) (f : SlotFields) : Option Instr :=
  match p with
      | .s => decSlotS c f
      | .t => decSlotT c f
      | .v => decSlotV c f
      | .m => decSlotM c f

theorem of_event {i : Instr} (h1 : laneCode i = none) (h2 : slotCode i = none) (h3 : encodeFilter i = none) : Statement i := by
  intro _
  simp [h1, h2, h3]

theorem of_lane {i : Instr} {c : LaneCode} (h1 : laneCode i = some c) (h2 : slotCode i = none) (h3 : encodeFilter i = none)
    (h : decLaneRaw c.fields (c.lit.getD 0) = some i) : Statement i := by
  intro hw
  refine ⟨?_, by simp [h2], by simp [h3]⟩
  intro c' hc
  rw [h1] at hc
  cases hc
  rw [decodeLane, laneFields_word, h]
  simp [hw]

theorem of_slot {i : Instr} {p : SlotPos} {c : Col} {f : SlotFields} (h1 : laneCode i = none) (h2 : slotCode i = some (p, c, f))
    (h3 : encodeFilter i = none) (ho : f.op ≠ 0) (h : decSlotRaw c p f = some i) : Statement i := by
  intro hw
  refine ⟨by simp [h1], ?_, by simp [h3]⟩
  intro p' c' f' hc
  rw [h2] at hc
  cases hc
  simp only [decodeSlot, slotFields_word, if_neg ho]
  cases p <;> simp_all [decSlotRaw]

theorem of_filter {i : Instr} {w : BitVec 16} (h1 : laneCode i = none) (h2 : slotCode i = none) (h3 : encodeFilter i = some w)
    (h : decFilterRaw w = some i) : Statement i := by
  intro hw
  simp [h1, h2, h3, decodeFilter, h, hw]

theorem of_raw {i : Instr} {c : LaneCode} (h1 : laneCode i = some c) (h2 : slotCode i = none) (h3 : encodeFilter i = none)
    (r : Option Instr) (hr : decLaneRaw c.fields (c.lit.getD 0) = r) (h : r = some i) : Statement i :=
  of_lane h1 h2 h3 (hr.trans h)

theorem of_dec {i : Instr} {c : LaneCode} (h1 : laneCode i = some c) (h2 : slotCode i = none) (h3 : encodeFilter i = none)
    (dec : LaneFields → Option Instr) (hr : decLaneRaw c.fields (c.lit.getD 0) = dec c.fields) (h : dec c.fields = some i) :
    Statement i :=
  of_lane h1 h2 h3 (hr.trans h)

theorem of_lane_wf {i : Instr} {c : LaneCode} (h1 : laneCode i = some c) (h2 : slotCode i = none) (h3 : encodeFilter i = none)
    (h : i.wf = true → decLaneRaw c.fields (c.lit.getD 0) = some i) : Statement i := fun hw => of_lane h1 h2 h3 (h hw) hw

theorem of_vred (c : Col) (g : Pred) (v : VFields) (r : VRedKind) : Statement (.vred c g v r) := fun h => by
  have hv : decVRedKind v.f = some r := by
    have h' : v.f = r.code := eq_of_beq h
    rw [h']; cases r <;> rfl
  exact of_slot rfl rfl rfl (by simp) (by simp [decSlotRaw, decSlotV, decVFields_bits, hv]) h

theorem of_nop (c : Col) (bits : BitVec 26) : Statement (.nop c bits) := by
  intro _
  have h1 : laneCode (.nop c bits) = none := rfl
  have h2 : slotCode (.nop c bits) = some (.s, c, ⟨0, bits.extractLsb' 22 4, bits.extractLsb' 0 22⟩) := rfl
  have h3 : encodeFilter (.nop c bits) = none := rfl
  refine ⟨by simp [h1], ?_, by simp [h3]⟩
  intro p c' f hc
  rw [h2] at hc
  cases hc
  have hj := join_parts bits 0 4 22
  simp only [Nat.zero_add, Nat.reduceAdd] at hj
  have hb : (SlotFields.word ⟨0, bits.extractLsb' 22 4, bits.extractLsb' 0 22⟩).extractLsb' 0 26 = bits := by
    change (0#6 ++ (bits.extractLsb' 22 4 ++ bits.extractLsb' 0 22 : BitVec 26) : BitVec 32).extractLsb' 0 26 = bits
    rw [extract_append_low 0#6 (bits.extractLsb' 22 4 ++ bits.extractLsb' 0 22 : BitVec 26) _ rfl 0 26 (by decide), hj]
    simp
  unfold decodeSlot
  simp only [slotFields_word, if_true, hb]

theorem iadd (g : Pred) (w : Bool) (d a : Reg) (src : Src) : Statement (.iadd g w d a src) :=
  of_raw rfl rfl rfl _ (int_op ..) (by unfold decInt; simp only [src_dec, int_w, int_grp, src_low]; rfl)
theorem isub (g : Pred) (w : Bool) (d a : Reg) (src : Src) : Statement (.isub g w d a src) :=
  of_raw rfl rfl rfl _ (int_op ..) (by unfold decInt; simp only [src_dec, int_w, int_grp, src_low]; rfl)
theorem iaddc (g : Pred) (w : Bool) (d a : Reg) (src : Src) : Statement (.iaddc g w d a src) :=
  of_raw rfl rfl rfl _ (int_op ..) (by unfold decInt; simp only [src_dec, int_w, int_grp, src_low]; rfl)
theorem lea (g : Pred) (w : Bool) (d a : Reg) (src : Src) : Statement (.lea g w d a src) :=
  of_raw rfl rfl rfl _ (int_op ..) (by unfold decInt; simp only [src_dec, int_w, int_grp, src_low]; rfl)
theorem imlo (g : Pred) (w : Bool) (d a : Reg) (src : Src) : Statement (.imlo g w d a src) :=
  of_raw rfl rfl rfl _ (int_op ..) (by unfold decInt; simp only [src_dec, int_w, int_grp, src_low]; rfl)
theorem imhiS (g : Pred) (w : Bool) (d a : Reg) (src : Src) : Statement (.imhiS g w d a src) :=
  of_raw rfl rfl rfl _ (int_op ..) (by unfold decInt; simp only [src_dec, int_w, int_grp, src_low]; rfl)
theorem imhiZ (g : Pred) (w : Bool) (d a : Reg) (src : Src) : Statement (.imhiZ g w d a src) :=
  of_raw rfl rfl rfl _ (int_op ..) (by unfold decInt; simp only [src_dec, int_w, int_grp, src_low]; rfl)
theorem imac (g : Pred) (w : Bool) (d a : Reg) (src : Src) : Statement (.imac g w d a src) :=
  of_raw rfl rfl rfl _ (int_op ..) (by unfold decInt; simp only [src_dec, int_w, int_grp, src_low]; rfl)
theorem idivS (g : Pred) (w : Bool) (d a : Reg) (src : Src) : Statement (.idivS g w d a src) :=
  of_raw rfl rfl rfl _ (int_op ..) (by unfold decInt; simp only [src_dec, int_w, int_grp, src_low]; rfl)
theorem idivZ (g : Pred) (w : Bool) (d a : Reg) (src : Src) : Statement (.idivZ g w d a src) :=
  of_raw rfl rfl rfl _ (int_op ..) (by unfold decInt; simp only [src_dec, int_w, int_grp, src_low]; rfl)
theorem iabs (g : Pred) (w : Bool) (d : Reg) (src : Src) : Statement (.iabs g w d src) :=
  of_raw rfl rfl rfl _ (int_op ..) (by unfold decInt; simp only [src_dec, int_w, int_grp, src_low]; rfl)
theorem ineg (g : Pred) (w : Bool) (d : Reg) (src : Src) : Statement (.ineg g w d src) :=
  of_raw rfl rfl rfl _ (int_op ..) (by unfold decInt; simp only [src_dec, int_w, int_grp, src_low]; rfl)
theorem iminS (g : Pred) (w : Bool) (d a : Reg) (src : Src) : Statement (.iminS g w d a src) :=
  of_raw rfl rfl rfl _ (int_op ..) (by unfold decInt; simp only [src_dec, int_w, int_grp, src_low]; rfl)
theorem iminZ (g : Pred) (w : Bool) (d a : Reg) (src : Src) : Statement (.iminZ g w d a src) :=
  of_raw rfl rfl rfl _ (int_op ..) (by unfold decInt; simp only [src_dec, int_w, int_grp, src_low]; rfl)
theorem imaxS (g : Pred) (w : Bool) (d a : Reg) (src : Src) : Statement (.imaxS g w d a src) :=
  of_raw rfl rfl rfl _ (int_op ..) (by unfold decInt; simp only [src_dec, int_w, int_grp, src_low]; rfl)
theorem imaxZ (g : Pred) (w : Bool) (d a : Reg) (src : Src) : Statement (.imaxZ g w d a src) :=
  of_raw rfl rfl rfl _ (int_op ..) (by unfold decInt; simp only [src_dec, int_w, int_grp, src_low]; rfl)
theorem and (g : Pred) (w : Bool) (d a : Reg) (src : Src) : Statement (.and g w d a src) :=
  of_raw rfl rfl rfl _ (int_op ..) (by unfold decInt; simp only [src_dec, int_w, int_grp, src_low]; rfl)
theorem or (g : Pred) (w : Bool) (d a : Reg) (src : Src) : Statement (.or g w d a src) :=
  of_raw rfl rfl rfl _ (int_op ..) (by unfold decInt; simp only [src_dec, int_w, int_grp, src_low]; rfl)
theorem xor (g : Pred) (w : Bool) (d a : Reg) (src : Src) : Statement (.xor g w d a src) :=
  of_raw rfl rfl rfl _ (int_op ..) (by unfold decInt; simp only [src_dec, int_w, int_grp, src_low]; rfl)
theorem andn (g : Pred) (w : Bool) (d a : Reg) (src : Src) : Statement (.andn g w d a src) :=
  of_raw rfl rfl rfl _ (int_op ..) (by unfold decInt; simp only [src_dec, int_w, int_grp, src_low]; rfl)
theorem shl (g : Pred) (w : Bool) (d a : Reg) (src : Src) : Statement (.shl g w d a src) :=
  of_raw rfl rfl rfl _ (int_op ..) (by unfold decInt; simp only [src_dec, int_w, int_grp, src_low]; rfl)
theorem shr (g : Pred) (w : Bool) (d a : Reg) (src : Src) : Statement (.shr g w d a src) :=
  of_raw rfl rfl rfl _ (int_op ..) (by unfold decInt; simp only [src_dec, int_w, int_grp, src_low]; rfl)
theorem sar (g : Pred) (w : Bool) (d a : Reg) (src : Src) : Statement (.sar g w d a src) :=
  of_raw rfl rfl rfl _ (int_op ..) (by unfold decInt; simp only [src_dec, int_w, int_grp, src_low]; rfl)
theorem rol (g : Pred) (w : Bool) (d a : Reg) (src : Src) : Statement (.rol g w d a src) :=
  of_raw rfl rfl rfl _ (int_op ..) (by unfold decInt; simp only [src_dec, int_w, int_grp, src_low]; rfl)
theorem bfxS (g : Pred) (w : Bool) (d a : Reg) (src : Src) : Statement (.bfxS g w d a src) :=
  of_raw rfl rfl rfl _ (int_op ..) (by unfold decInt; simp only [src_dec, int_w, int_grp, src_low]; rfl)
theorem bfxZ (g : Pred) (w : Bool) (d a : Reg) (src : Src) : Statement (.bfxZ g w d a src) :=
  of_raw rfl rfl rfl _ (int_op ..) (by unfold decInt; simp only [src_dec, int_w, int_grp, src_low]; rfl)
theorem bfi (g : Pred) (w : Bool) (d a : Reg) (src : Src) : Statement (.bfi g w d a src) :=
  of_raw rfl rfl rfl _ (int_op ..) (by unfold decInt; simp only [src_dec, int_w, int_grp, src_low]; rfl)
theorem not (g : Pred) (w : Bool) (d : Reg) (src : Src) : Statement (.not g w d src) :=
  of_raw rfl rfl rfl _ (int_op ..) (by unfold decInt; simp only [src_dec, int_w, int_grp, src_low]; rfl)
theorem clz (g : Pred) (w : Bool) (d : Reg) (src : Src) : Statement (.clz g w d src) :=
  of_raw rfl rfl rfl _ (int_op ..) (by unfold decInt; simp only [src_dec, int_w, int_grp, src_low]; rfl)
theorem popc (g : Pred) (w : Bool) (d : Reg) (src : Src) : Statement (.popc g w d src) :=
  of_raw rfl rfl rfl _ (int_op ..) (by unfold decInt; simp only [src_dec, int_w, int_grp, src_low]; rfl)
theorem brev (g : Pred) (w : Bool) (d : Reg) (src : Src) : Statement (.brev g w d src) :=
  of_raw rfl rfl rfl _ (int_op ..) (by unfold decInt; simp only [src_dec, int_w, int_grp, src_low]; rfl)
theorem mov (g : Pred) (w : Bool) (d : Reg) (src : Src) : Statement (.mov g w d src) :=
  of_raw rfl rfl rfl _ (int_op ..) (by unfold decInt; simp only [src_dec, int_w, int_grp, src_low]; rfl)
theorem moviV (g : Pred) (d : Reg) (imm : BitVec 16) : Statement (.moviV g d imm) :=
  of_raw rfl rfl rfl (some _) rfl (by simp only [LaneFields.imm16, imm16_parts])
theorem movhiV (g : Pred) (d : Reg) (imm : BitVec 16) : Statement (.movhiV g d imm) :=
  of_raw rfl rfl rfl (some _) rfl (by simp only [LaneFields.imm16, imm16_parts])
theorem moviS (g : Pred) (d : Reg) (imm : BitVec 16) : Statement (.moviS g d imm) :=
  of_raw rfl rfl rfl (some _) rfl (by simp only [LaneFields.imm16, imm16_parts])
theorem movhiS (g : Pred) (d : Reg) (imm : BitVec 16) : Statement (.movhiS g d imm) :=
  of_raw rfl rfl rfl (some _) rfl (by simp only [LaneFields.imm16, imm16_parts])
theorem icmp (g : Pred) (c : ICond) (k : PairIx) (a : Reg) (src : Src) (u w : Bool) : Statement (.icmp g c k a src u w) :=
  of_raw rfl rfl rfl (decCmp _ _) rfl (by unfold decCmp; simp only [src_dec, cond_high, cond_low, decICond_enc, icmp_u, icmp_w]; rfl)
theorem sel (g : Pred) (d a b : Reg) (f : Pred) : Statement (.sel g d a b f) :=
  of_raw rfl rfl rfl (some _) rfl rfl
theorem pand (g : Pred) (k : PairIx) (a b : Pred) : Statement (.pand g k a b) :=
  of_dec rfl rfl rfl decPred rfl (by unfold decPred; simp only [pairField_low, pairField_high, numField_low, numField_high, okIf] <;> simp)
theorem por (g : Pred) (k : PairIx) (a b : Pred) : Statement (.por g k a b) :=
  of_dec rfl rfl rfl decPred rfl (by unfold decPred; simp only [pairField_low, pairField_high, numField_low, numField_high, okIf] <;> simp)
theorem pxor (g : Pred) (k : PairIx) (a b : Pred) : Statement (.pxor g k a b) :=
  of_dec rfl rfl rfl decPred rfl (by unfold decPred; simp only [pairField_low, pairField_high, numField_low, numField_high, okIf] <;> simp)
theorem pnot (g : Pred) (k : PairIx) (a : Pred) : Statement (.pnot g k a) :=
  of_dec rfl rfl rfl decPred rfl (by unfold decPred; simp only [pairField_low, pairField_high, numField_low, numField_high, okIf] <;> simp)
theorem padd (g : Pred) (d a b : Reg) (e : EWidth) (u sat : Bool) : Statement (.padd g d a b e u sat) :=
  of_dec rfl rfl rfl decPacked rfl (by unfold decPacked; simp only [packedFn_w, packedFn_u, packedFn_x]; rfl)
theorem psub (g : Pred) (d a b : Reg) (e : EWidth) (u sat : Bool) : Statement (.psub g d a b e u sat) :=
  of_dec rfl rfl rfl decPacked rfl (by unfold decPacked; simp only [packedFn_w, packedFn_u, packedFn_x]; rfl)
theorem pmul (g : Pred) (d a b : Reg) (e : EWidth) (u sat : Bool) : Statement (.pmul g d a b e u sat) :=
  of_dec rfl rfl rfl decPacked rfl (by unfold decPacked; simp only [packedFn_w, packedFn_u, packedFn_x]; rfl)
theorem pmin (g : Pred) (d a b : Reg) (e : EWidth) (u : Bool) : Statement (.pmin g d a b e u) :=
  of_dec rfl rfl rfl decPacked rfl (by unfold decPacked; simp only [packedFn_w, packedFn_u, packedFn_x]; rfl)
theorem pmax (g : Pred) (d a b : Reg) (e : EWidth) (u : Bool) : Statement (.pmax g d a b e u) :=
  of_dec rfl rfl rfl decPacked rfl (by unfold decPacked; simp only [packedFn_w, packedFn_u, packedFn_x]; rfl)
theorem pdot (g : Pred) (d a b : Reg) (e : EWidth) (u : Bool) : Statement (.pdot g d a b e u) :=
  of_dec rfl rfl rfl decPacked rfl (by unfold decPacked; simp only [packedFn_w, packedFn_u, packedFn_x]; rfl)
theorem pwiden (g : Pred) (d b : Reg) (e : EWidth) (u : Bool) : Statement (.pwiden g d b e u) :=
  of_dec rfl rfl rfl decPacked rfl (by unfold decPacked; simp only [packedFn_w, packedFn_u, packedFn_x]; rfl)
theorem pnarrow (g : Pred) (d a b : Reg) (e : EWidth) (u : Bool) : Statement (.pnarrow g d a b e u) :=
  of_dec rfl rfl rfl decPacked rfl (by unfold decPacked; simp only [packedFn_w, packedFn_u, packedFn_x]; rfl)
theorem pcmpEq (g : Pred) (d a b : Reg) (e : EWidth) (u : Bool) : Statement (.pcmpEq g d a b e u) :=
  of_dec rfl rfl rfl decPacked rfl (by unfold decPacked; simp only [packedFn_w, packedFn_u, packedFn_x]; rfl)
theorem pcmpLt (g : Pred) (d a b : Reg) (e : EWidth) (u : Bool) : Statement (.pcmpLt g d a b e u) :=
  of_dec rfl rfl rfl decPacked rfl (by unfold decPacked; simp only [packedFn_w, packedFn_u, packedFn_x]; rfl)
theorem fadd (g : Pred) (d a : Reg) (src : Src) : Statement (.fadd g d a src) :=
  of_raw rfl rfl rfl (decFloat _ _) rfl (by unfold decFloat; simp only [src_dec, src_low]; rfl)
theorem fsub (g : Pred) (d a : Reg) (src : Src) : Statement (.fsub g d a src) :=
  of_raw rfl rfl rfl (decFloat _ _) rfl (by unfold decFloat; simp only [src_dec, src_low]; rfl)
theorem fmul (g : Pred) (d a : Reg) (src : Src) : Statement (.fmul g d a src) :=
  of_raw rfl rfl rfl (decFloat _ _) rfl (by unfold decFloat; simp only [src_dec, src_low]; rfl)
theorem ffma (g : Pred) (d a : Reg) (src : Src) : Statement (.ffma g d a src) :=
  of_raw rfl rfl rfl (decFloat _ _) rfl (by unfold decFloat; simp only [src_dec, src_low]; rfl)
theorem fmin (g : Pred) (d a : Reg) (src : Src) : Statement (.fmin g d a src) :=
  of_raw rfl rfl rfl (decFloat _ _) rfl (by unfold decFloat; simp only [src_dec, src_low]; rfl)
theorem fmax (g : Pred) (d a : Reg) (src : Src) : Statement (.fmax g d a src) :=
  of_raw rfl rfl rfl (decFloat _ _) rfl (by unfold decFloat; simp only [src_dec, src_low]; rfl)
theorem fclass (g : Pred) (d : Reg) (src : Src) : Statement (.fclass g d src) :=
  of_raw rfl rfl rfl (decFloat _ _) rfl (by unfold decFloat; simp only [src_dec, src_low]; rfl)
theorem pfmaF16 (g : Pred) (d a : Reg) (src : Src) : Statement (.pfmaF16 g d a src) :=
  of_raw rfl rfl rfl (decFloat _ _) rfl (by unfold decFloat; simp only [src_dec, src_low]; rfl)
theorem pfmaBf16 (g : Pred) (d a : Reg) (src : Src) : Statement (.pfmaBf16 g d a src) :=
  of_raw rfl rfl rfl (decFloat _ _) rfl (by unfold decFloat; simp only [src_dec, src_low]; rfl)
theorem fcmp (g : Pred) (c : FCond) (k : PairIx) (a : Reg) (src : Src) (t : FloatTy) : Statement (.fcmp g c k a src t) :=
  of_raw rfl rfl rfl (decCmp _ _) rfl (by unfold decCmp; simp only [src_dec, cond_high, cond_low, src_low, decFCond_enc, decFloatTy_enc]; rfl)
theorem fexp2 (g : Pred) (d a : Reg) (t : FloatTy) : Statement (.fexp2 g d a t) :=
  of_dec rfl rfl rfl decSpecial rfl (by unfold decSpecial; simp only [ty_high, ty_low, decFloatTy_enc]; rfl)
theorem flog2 (g : Pred) (d a : Reg) (t : FloatTy) : Statement (.flog2 g d a t) :=
  of_dec rfl rfl rfl decSpecial rfl (by unfold decSpecial; simp only [ty_high, ty_low, decFloatTy_enc]; rfl)
theorem frcp (g : Pred) (d a : Reg) (t : FloatTy) : Statement (.frcp g d a t) :=
  of_dec rfl rfl rfl decSpecial rfl (by unfold decSpecial; simp only [ty_high, ty_low, decFloatTy_enc]; rfl)
theorem frsq (g : Pred) (d a : Reg) (t : FloatTy) : Statement (.frsq g d a t) :=
  of_dec rfl rfl rfl decSpecial rfl (by unfold decSpecial; simp only [ty_high, ty_low, decFloatTy_enc]; rfl)
theorem fsqrt (g : Pred) (d a : Reg) (t : FloatTy) : Statement (.fsqrt g d a t) :=
  of_dec rfl rfl rfl decSpecial rfl (by unfold decSpecial; simp only [ty_high, ty_low, decFloatTy_enc]; rfl)
theorem fsinpi (g : Pred) (d a : Reg) (t : FloatTy) : Statement (.fsinpi g d a t) :=
  of_dec rfl rfl rfl decSpecial rfl (by unfold decSpecial; simp only [ty_high, ty_low, decFloatTy_enc]; rfl)
theorem fcospi (g : Pred) (d a : Reg) (t : FloatTy) : Statement (.fcospi g d a t) :=
  of_dec rfl rfl rfl decSpecial rfl (by unfold decSpecial; simp only [ty_high, ty_low, decFloatTy_enc]; rfl)
theorem ftanh (g : Pred) (d a : Reg) (t : FloatTy) : Statement (.ftanh g d a t) :=
  of_dec rfl rfl rfl decSpecial rfl (by unfold decSpecial; simp only [ty_high, ty_low, decFloatTy_enc]; rfl)
theorem fsigm (g : Pred) (d a : Reg) (t : FloatTy) : Statement (.fsigm g d a t) :=
  of_dec rfl rfl rfl decSpecial rfl (by unfold decSpecial; simp only [ty_high, ty_low, decFloatTy_enc]; rfl)
theorem fgelu (g : Pred) (d a : Reg) (t : FloatTy) : Statement (.fgelu g d a t) :=
  of_dec rfl rfl rfl decSpecial rfl (by unfold decSpecial; simp only [ty_high, ty_low, decFloatTy_enc]; rfl)
theorem fsilu (g : Pred) (d a : Reg) (t : FloatTy) : Statement (.fsilu g d a t) :=
  of_dec rfl rfl rfl decSpecial rfl (by unfold decSpecial; simp only [ty_high, ty_low, decFloatTy_enc]; rfl)
theorem ferf (g : Pred) (d a : Reg) (t : FloatTy) : Statement (.ferf g d a t) :=
  of_dec rfl rfl rfl decSpecial rfl (by unfold decSpecial; simp only [ty_high, ty_low, decFloatTy_enc]; rfl)
theorem cvt (g : Pred) (d a : Reg) (dt st : CvtTy) (rz sat : Bool) : Statement (.cvt g d a dt st rz sat) :=
  of_dec rfl rfl rfl decCvt rfl (by unfold decCvt; simp only [cvt_b_high, cvt_b_low, cvt_fn, cvt_join, decCvtTy_enc, cvt_rz, cvt_sat])
theorem qscale (g : Pred) (d a b : Reg) : Statement (.qscale g d a b) :=
  of_dec rfl rfl rfl decFw rfl (by simp [decFw, okIf])
theorem qpack (g : Pred) (d a b : Reg) : Statement (.qpack g d a b) :=
  of_dec rfl rfl rfl decFw rfl (by simp [decFw, okIf])
theorem qunpk (g : Pred) (d a b : Reg) : Statement (.qunpk g d a b) :=
  of_dec rfl rfl rfl decFw rfl (by simp [decFw, okIf])
theorem cvtFw (g : Pred) (d a b : Reg) : Statement (.cvtFw g d a b) :=
  of_dec rfl rfl rfl decFw rfl (by simp [decFw, okIf])
theorem voteAll (g : Pred) (k : PairIx) (p : Pred) (x : Bool) : Statement (.voteAll g k p x) :=
  of_dec rfl rfl rfl decVote rfl (by unfold decVote; simp only [vote_x, vote_fn, pairField_low, pairField_high, numField_low, numField_high, okIf] <;> simp)
theorem voteAny (g : Pred) (k : PairIx) (p : Pred) (x : Bool) : Statement (.voteAny g k p x) :=
  of_dec rfl rfl rfl decVote rfl (by unfold decVote; simp only [vote_x, vote_fn, pairField_low, pairField_high, numField_low, numField_high, okIf] <;> simp)
theorem voteBal (g : Pred) (d : Reg) (p : Pred) (x : Bool) : Statement (.voteBal g d p x) :=
  of_dec rfl rfl rfl decVote rfl (by unfold decVote; simp only [vote_x, vote_fn, pairField_low, pairField_high, numField_low, numField_high, okIf] <;> simp)
theorem voteEq (g : Pred) (k : PairIx) (p : Pred) (x : Bool) : Statement (.voteEq g k p x) :=
  of_dec rfl rfl rfl decVote rfl (by unfold decVote; simp only [vote_x, vote_fn, pairField_low, pairField_high, numField_low, numField_high, okIf] <;> simp)
theorem shflIdx (g : Pred) (d a b : Reg) (x : Bool) : Statement (.shflIdx g d a b x) :=
  of_dec rfl rfl rfl decVote rfl (by unfold decVote; simp only [vote_x, vote_fn, pairField_low, pairField_high, numField_low, numField_high, okIf] <;> simp)
theorem shflUp (g : Pred) (d a b : Reg) (x : Bool) : Statement (.shflUp g d a b x) :=
  of_dec rfl rfl rfl decVote rfl (by unfold decVote; simp only [vote_x, vote_fn, pairField_low, pairField_high, numField_low, numField_high, okIf] <;> simp)
theorem shflDn (g : Pred) (d a b : Reg) (x : Bool) : Statement (.shflDn g d a b x) :=
  of_dec rfl rfl rfl decVote rfl (by unfold decVote; simp only [vote_x, vote_fn, pairField_low, pairField_high, numField_low, numField_high, okIf] <;> simp)
theorem shflXor (g : Pred) (d a b : Reg) (x : Bool) : Statement (.shflXor g d a b x) :=
  of_dec rfl rfl rfl decVote rfl (by unfold decVote; simp only [vote_x, vote_fn, pairField_low, pairField_high, numField_low, numField_high, okIf] <;> simp)
theorem redux (g : Pred) (d a : Reg) (x : Bool) (k : PairIx) (op : RedOp) : Statement (.redux g d a x k op) :=
  of_dec rfl rfl rfl decRedux rfl (by unfold decRedux; simp only [reduxB_x, reduxB_kind, reduxB_pair, decRedOp_enc]; rfl)
theorem scanInc (g : Pred) (d a : Reg) (x : Bool) (k : PairIx) (op : RedOp) : Statement (.scanInc g d a x k op) :=
  of_dec rfl rfl rfl decRedux rfl (by unfold decRedux; simp only [reduxB_x, reduxB_kind, reduxB_pair, decRedOp_enc]; rfl)
theorem scanExc (g : Pred) (d a : Reg) (x : Bool) (k : PairIx) (op : RedOp) : Statement (.scanExc g d a x k op) :=
  of_dec rfl rfl rfl decRedux rfl (by unfold decRedux; simp only [reduxB_x, reduxB_kind, reduxB_pair, decRedOp_enc]; rfl)
theorem bra (g : Pred) (ofs : BitVec 22) : Statement (.bra g ofs) :=
  of_raw rfl rfl rfl (some _) rfl (by simp only [LaneFields.ofs22, ofs22_parts])
theorem braEj (g : Pred) (n : BitVec 2) (ofs : BitVec 20) : Statement (.braEj g n ofs) :=
  of_raw rfl rfl rfl (some _) rfl (by simp only [LaneFields.ofs22, ofs22_parts, n20_high, n20_low])
theorem call (g : Pred) (ofs : BitVec 22) : Statement (.call g ofs) :=
  of_raw rfl rfl rfl (some _) rfl (by simp only [LaneFields.ofs22, ofs22_parts])
theorem brx (g : Pred) (a : Reg) : Statement (.brx g a) :=
  of_dec rfl rfl rfl decControl rfl (by simp [decControl, okIf])
theorem callx (g : Pred) (a : Reg) : Statement (.callx g a) :=
  of_dec rfl rfl rfl decControl rfl (by simp [decControl, okIf])
theorem ret (g : Pred) : Statement (.ret g) :=
  of_dec rfl rfl rfl decControl rfl (by simp [decControl, okIf])
theorem join (g : Pred) : Statement (.join g) :=
  of_dec rfl rfl rfl decControl rfl (by simp [decControl, okIf])
theorem exit (g : Pred) : Statement (.exit g) :=
  of_dec rfl rfl rfl decControl rfl (by simp [decControl, okIf])
theorem eret (g : Pred) : Statement (.eret g) :=
  of_dec rfl rfl rfl decControl rfl (by simp [decControl, okIf])
theorem live (g : Pred) (n : BitVec 2) (a : Reg) : Statement (.live g n a) :=
  of_dec rfl rfl rfl decControl rfl (by unfold decControl; simp only [engField_low, engField_high, okIf] <;> simp)
theorem yield (g : Pred) : Statement (.yield g) :=
  of_dec rfl rfl rfl decControl rfl (by simp [decControl, okIf])
theorem trap (g : Pred) (n : BitVec 6) : Statement (.trap g n) :=
  of_dec rfl rfl rfl decControl rfl (by simp [decControl, okIf])
theorem ld (g : Pred) (d a : Reg) (w : MWidth) (r : MOrd) (hint : Option (BitVec 3)) : Statement (.ld g d a w r hint) :=
  of_dec rfl rfl rfl decMem rfl (by unfold decMem; simp only [memB_width, memB_low, memB_dir, decMOrd_enc, decHint_enc]; rfl)
theorem st (g : Pred) (d a : Reg) (w : MWidth) (r : MOrd) (hint : Option (BitVec 3)) : Statement (.st g d a w r hint) :=
  of_dec rfl rfl rfl decMem rfl (by unfold decMem; simp only [memB_width, memB_low, memB_dir, decMOrd_enc, decHint_enc]; rfl)
theorem lds (g : Pred) (d a : Reg) (w : MWidth) (r : Bool) : Statement (.lds g d a w r) :=
  of_dec rfl rfl rfl decShared rfl (by unfold decShared; simp only [memB_width, memB_dir, memB_rel, memB_zero]; rfl)
theorem sts (g : Pred) (d a : Reg) (w : MWidth) (r : Bool) : Statement (.sts g d a w r) :=
  of_dec rfl rfl rfl decShared rfl (by unfold decShared; simp only [memB_width, memB_dir, memB_rel, memB_zero]; rfl)
theorem smap (g : Pred) (d a b : Reg) : Statement (.smap g d a b) :=
  of_dec rfl rfl rfl decMisc rfl (by simp [decMisc, okIf])
theorem pref (g : Pred) (a : Reg) : Statement (.pref g a) :=
  of_dec rfl rfl rfl decMisc rfl (by simp [decMisc, okIf])
theorem fenceAcq (g : Pred) : Statement (.fenceAcq g) :=
  of_dec rfl rfl rfl decMisc rfl (by simp [decMisc, okIf])
theorem fenceRel (g : Pred) : Statement (.fenceRel g) :=
  of_dec rfl rfl rfl decMisc rfl (by simp [decMisc, okIf])
theorem fenceAr (g : Pred) : Statement (.fenceAr g) :=
  of_dec rfl rfl rfl decMisc rfl (by simp [decMisc, okIf])
theorem atomAdd (g : Pred) (d a : Reg) (f : AtomFlags) (w : Bool) : Statement (.atomAdd g d a f w) :=
  of_dec rfl rfl rfl decAtomic rfl (by unfold decAtomic; simp only [atomB_acq, atomB_rel, atomB_ord, atomB_w, atomB_w_low, okIf] <;> simp)
theorem atomMinS (g : Pred) (d a : Reg) (f : AtomFlags) (w : Bool) : Statement (.atomMinS g d a f w) :=
  of_dec rfl rfl rfl decAtomic rfl (by unfold decAtomic; simp only [atomB_acq, atomB_rel, atomB_ord, atomB_w, atomB_w_low, okIf] <;> simp)
theorem atomMinZ (g : Pred) (d a : Reg) (f : AtomFlags) (w : Bool) : Statement (.atomMinZ g d a f w) :=
  of_dec rfl rfl rfl decAtomic rfl (by unfold decAtomic; simp only [atomB_acq, atomB_rel, atomB_ord, atomB_w, atomB_w_low, okIf] <;> simp)
theorem atomMaxS (g : Pred) (d a : Reg) (f : AtomFlags) (w : Bool) : Statement (.atomMaxS g d a f w) :=
  of_dec rfl rfl rfl decAtomic rfl (by unfold decAtomic; simp only [atomB_acq, atomB_rel, atomB_ord, atomB_w, atomB_w_low, okIf] <;> simp)
theorem atomMaxZ (g : Pred) (d a : Reg) (f : AtomFlags) (w : Bool) : Statement (.atomMaxZ g d a f w) :=
  of_dec rfl rfl rfl decAtomic rfl (by unfold decAtomic; simp only [atomB_acq, atomB_rel, atomB_ord, atomB_w, atomB_w_low, okIf] <;> simp)
theorem atomAnd (g : Pred) (d a : Reg) (f : AtomFlags) (w : Bool) : Statement (.atomAnd g d a f w) :=
  of_dec rfl rfl rfl decAtomic rfl (by unfold decAtomic; simp only [atomB_acq, atomB_rel, atomB_ord, atomB_w, atomB_w_low, okIf] <;> simp)
theorem atomOr (g : Pred) (d a : Reg) (f : AtomFlags) (w : Bool) : Statement (.atomOr g d a f w) :=
  of_dec rfl rfl rfl decAtomic rfl (by unfold decAtomic; simp only [atomB_acq, atomB_rel, atomB_ord, atomB_w, atomB_w_low, okIf] <;> simp)
theorem atomXor (g : Pred) (d a : Reg) (f : AtomFlags) (w : Bool) : Statement (.atomXor g d a f w) :=
  of_dec rfl rfl rfl decAtomic rfl (by unfold decAtomic; simp only [atomB_acq, atomB_rel, atomB_ord, atomB_w, atomB_w_low, okIf] <;> simp)
theorem atomExch (g : Pred) (d a : Reg) (f : AtomFlags) (w : Bool) : Statement (.atomExch g d a f w) :=
  of_dec rfl rfl rfl decAtomic rfl (by unfold decAtomic; simp only [atomB_acq, atomB_rel, atomB_ord, atomB_w, atomB_w_low, okIf] <;> simp)
theorem incw (g : Pred) (d a : Reg) (f : AtomFlags) : Statement (.incw g d a f) :=
  of_dec rfl rfl rfl decAtomic rfl (by unfold decAtomic; simp only [atomB_acq, atomB_rel, atomB_ord, atomB_low, okIf] <;> simp)
theorem decw (g : Pred) (d a : Reg) (f : AtomFlags) : Statement (.decw g d a f) :=
  of_dec rfl rfl rfl decAtomic rfl (by unfold decAtomic; simp only [atomB_acq, atomB_rel, atomB_ord, atomB_low, okIf] <;> simp)
theorem atomAddb (g : Pred) (d a : Reg) (f : AtomFlags) (k : PairIx) : Statement (.atomAddb g d a f k) :=
  of_dec rfl rfl rfl decAtomic rfl (by unfold decAtomic; simp only [atomB_acq, atomB_rel, atomB_ord, atomB_low, okIf] <;> simp)
theorem atomCasW (g : Pred) (d a : Reg) (f : AtomFlags) : Statement (.atomCasW g d a f) :=
  of_dec rfl rfl rfl decAtomic rfl (by unfold decAtomic; simp only [atomB_acq, atomB_rel, atomB_ord, atomB_low, okIf] <;> simp)
theorem atomCasD (g : Pred) (d a : Reg) (f : AtomFlags) : Statement (.atomCasD g d a f) :=
  of_dec rfl rfl rfl decAtomic rfl (by unfold decAtomic; simp only [atomB_acq, atomB_rel, atomB_ord, atomB_low, okIf] <;> simp)
theorem atomCasQ (g : Pred) (d a : Reg) (f : AtomFlags) : Statement (.atomCasQ g d a f) :=
  of_dec rfl rfl rfl decAtomic rfl (by unfold decAtomic; simp only [atomB_acq, atomB_rel, atomB_ord, atomB_low, okIf] <;> simp)
theorem waitc (g : Pred) (d a : Reg) (w : Bool) (c : WCmp) : Statement (.waitc g d a w c) :=
  of_dec rfl rfl rfl decWaitc rfl (by unfold decWaitc; simp only [waitc_w, waitc_low, decWCmp_enc]; rfl)
theorem give (g : Pred) (a : Reg) : Statement (.give g a) :=
  of_dec rfl rfl rfl decBlock rfl (by simp [decBlock, okIf])
theorem take (g : Pred) (a : Reg) : Statement (.take g a) :=
  of_dec rfl rfl rfl decBlock rfl (by simp [decBlock, okIf])
theorem barSync (g : Pred) (b : BitVec 4) : Statement (.barSync g b) :=
  of_dec rfl rfl rfl decBlock rfl (by unfold decBlock; simp only [numField_low, numField_high, okIf] <;> simp)
theorem barArr (g : Pred) (b : BitVec 4) : Statement (.barArr g b) :=
  of_dec rfl rfl rfl decBlock rfl (by unfold decBlock; simp only [numField_low, numField_high, okIf] <;> simp)
theorem barWait (g : Pred) (b : BitVec 4) : Statement (.barWait g b) :=
  of_dec rfl rfl rfl decBlock rfl (by unfold decBlock; simp only [numField_low, numField_high, okIf] <;> simp)
theorem rwait (g : Pred) (d : Reg) (r : BitVec 4) : Statement (.rwait g d r) :=
  of_dec rfl rfl rfl decBlock rfl (by unfold decBlock; simp only [numField_low, numField_high, okIf] <;> simp)
theorem rdone (g : Pred) (r : BitVec 4) : Statement (.rdone g r) :=
  of_dec rfl rfl rfl decBlock rfl (by unfold decBlock; simp only [numField_low, numField_high, okIf] <;> simp)
theorem eset (g : Pred) (n : BitVec 2) (a : Reg) (reg : BitVec 6) : Statement (.eset g n a reg) :=
  of_dec rfl rfl rfl decEngine rfl (by unfold decEngine; simp only [engField_low, engField_high, okIf] <;> simp)
theorem eget (g : Pred) (d : Reg) (n : BitVec 2) (reg : BitVec 6) : Statement (.eget g d n reg) :=
  of_dec rfl rfl rfl decEngine rfl (by unfold decEngine; simp only [engField_low, engField_high, okIf] <;> simp)
theorem ecmdGo (g : Pred) (n : Bool) (a : Reg) : Statement (.ecmdGo g n a) :=
  of_dec rfl rfl rfl decEngine rfl (by cases n <;> simp [decEngine, okIf, copyField])
theorem ecmdClear (g : Pred) (n : Bool) (a : Reg) (cmd : BitVec 6) : Statement (.ecmdClear g n a cmd) :=
  of_lane_wf rfl rfl rfl fun h => by cases n <;> exact engine_clear (f := ⟨_, _, _, _, cmd, _⟩) (ne_of_wf h) rfl rfl (by simp [okIf, copyField])
theorem sparseIndexGo (g : Pred) (a : Reg) : Statement (.sparseIndexGo g a) :=
  of_dec rfl rfl rfl decEngine rfl (by simp [decEngine, okIf])
theorem sparseIndexClear (g : Pred) (a : Reg) (cmd : BitVec 6) : Statement (.sparseIndexClear g a cmd) :=
  of_lane_wf rfl rfl rfl fun h => engine_clear (f := ⟨_, _, _, _, cmd, _⟩) (ne_of_wf h) rfl rfl (by simp [okIf, copyField])
theorem lodestarGo (g : Pred) (a : Reg) : Statement (.lodestarGo g a) :=
  of_dec rfl rfl rfl decEngine rfl (by simp [decEngine, okIf])
theorem lodestarClear (g : Pred) (a : Reg) (cmd : BitVec 6) : Statement (.lodestarClear g a cmd) :=
  of_lane_wf rfl rfl rfl fun h => engine_clear (f := ⟨_, _, _, _, cmd, _⟩) (ne_of_wf h) rfl rfl (by simp [okIf, copyField])
theorem copy (g : Pred) (n : Bool) (a b : Reg) : Statement (.copy g n a b) :=
  of_dec rfl rfl rfl decEngine rfl (by cases n <;> simp [decEngine, okIf, copyField])
theorem ewait (g : Pred) (a b : Reg) : Statement (.ewait g a b) :=
  of_dec rfl rfl rfl decEngine rfl (by simp [decEngine, okIf])
theorem cbarSync (g : Pred) (b : BitVec 4) : Statement (.cbarSync g b) :=
  of_dec rfl rfl rfl decLevel rfl (by unfold decLevel; simp only [numField_low, numField_high, okIf] <;> simp)
theorem cbarArr (g : Pred) (b : BitVec 4) : Statement (.cbarArr g b) :=
  of_dec rfl rfl rfl decLevel rfl (by unfold decLevel; simp only [numField_low, numField_high, okIf] <;> simp)
theorem cbarWait (g : Pred) (b : BitVec 4) : Statement (.cbarWait g b) :=
  of_dec rfl rfl rfl decLevel rfl (by unfold decLevel; simp only [numField_low, numField_high, okIf] <;> simp)
theorem dbar (g : Pred) (a : Reg) : Statement (.dbar g a) :=
  of_dec rfl rfl rfl decLevel rfl (by simp [decLevel, okIf])
theorem emit (g : Pred) (a b : Reg) : Statement (.emit g a b) :=
  of_dec rfl rfl rfl decLevel rfl (by simp [decLevel, okIf])
theorem mfs (g : Pred) (d : Reg) (n : SpecReg) : Statement (.mfs g d n) :=
  of_dec rfl rfl rfl decSystem rfl (by unfold decSystem; simp only [decSpecReg_enc, okIf] <;> simp)
theorem mts (g : Pred) (a : Reg) (n : SpecReg) : Statement (.mts g a n) :=
  of_dec rfl rfl rfl decSystem rfl (by unfold decSystem; simp only [decSpecReg_enc, okIf] <;> simp)
theorem ctxsv (g : Pred) (a : Reg) : Statement (.ctxsv g a) :=
  of_dec rfl rfl rfl decSystem rfl (by simp [decSystem, okIf])
theorem ctxld (g : Pred) (a : Reg) : Statement (.ctxld g a) :=
  of_dec rfl rfl rfl decSystem rfl (by simp [decSystem, okIf])
theorem ldW (g : Pred) (d a : Reg) (imm : BitVec 10) : Statement (.ldW g d a imm) :=
  of_raw rfl rfl rfl (some _) rfl (by simp only [LaneFields.imm10, imm10_parts])
theorem ldD (g : Pred) (d a : Reg) (imm : BitVec 10) : Statement (.ldD g d a imm) :=
  of_raw rfl rfl rfl (some _) rfl (by simp only [LaneFields.imm10, imm10_parts])
theorem ldQ (g : Pred) (d a : Reg) (imm : BitVec 10) : Statement (.ldQ g d a imm) :=
  of_raw rfl rfl rfl (some _) rfl (by simp only [LaneFields.imm10, imm10_parts])
theorem stW (g : Pred) (d a : Reg) (imm : BitVec 10) : Statement (.stW g d a imm) :=
  of_raw rfl rfl rfl (some _) rfl (by simp only [LaneFields.imm10, imm10_parts])
theorem stD (g : Pred) (d a : Reg) (imm : BitVec 10) : Statement (.stD g d a imm) :=
  of_raw rfl rfl rfl (some _) rfl (by simp only [LaneFields.imm10, imm10_parts])
theorem stQ (g : Pred) (d a : Reg) (imm : BitVec 10) : Statement (.stQ g d a imm) :=
  of_raw rfl rfl rfl (some _) rfl (by simp only [LaneFields.imm10, imm10_parts])
theorem ldsW (g : Pred) (d a : Reg) (imm : BitVec 10) : Statement (.ldsW g d a imm) :=
  of_raw rfl rfl rfl (some _) rfl (by simp only [LaneFields.imm10, imm10_parts])
theorem stsW (g : Pred) (d a : Reg) (imm : BitVec 10) : Statement (.stsW g d a imm) :=
  of_raw rfl rfl rfl (some _) rfl (by simp only [LaneFields.imm10, imm10_parts])
theorem nop (c : Col) (bits : BitVec 26) : Statement (.nop c bits) :=
  of_nop c bits
theorem sadd (c : Col) (g : Pred) (d a b : XReg) : Statement (.sadd c g d a b) :=
  of_slot rfl rfl rfl (by simp) (by simp only [decSlotRaw]; simp [decSlotS, sBits_d, sBits_a, sBits_b])
theorem ssub (c : Col) (g : Pred) (d a b : XReg) : Statement (.ssub c g d a b) :=
  of_slot rfl rfl rfl (by simp) (by simp only [decSlotRaw]; simp [decSlotS, sBits_d, sBits_a, sBits_b])
theorem smul (c : Col) (g : Pred) (d a b : XReg) : Statement (.smul c g d a b) :=
  of_slot rfl rfl rfl (by simp) (by simp only [decSlotRaw]; simp [decSlotS, sBits_d, sBits_a, sBits_b])
theorem sand (c : Col) (g : Pred) (d a b : XReg) : Statement (.sand c g d a b) :=
  of_slot rfl rfl rfl (by simp) (by simp only [decSlotRaw]; simp [decSlotS, sBits_d, sBits_a, sBits_b])
theorem sor (c : Col) (g : Pred) (d a b : XReg) : Statement (.sor c g d a b) :=
  of_slot rfl rfl rfl (by simp) (by simp only [decSlotRaw]; simp [decSlotS, sBits_d, sBits_a, sBits_b])
theorem sshl (c : Col) (g : Pred) (d a b : XReg) : Statement (.sshl c g d a b) :=
  of_slot rfl rfl rfl (by simp) (by simp only [decSlotRaw]; simp [decSlotS, sBits_d, sBits_a, sBits_b])
theorem sli (c : Col) (g : Pred) (d : XReg) (imm : BitVec 17) : Statement (.sli c g d imm) :=
  of_slot rfl rfl rfl (by simp) (by simp only [decSlotRaw]; simp [decSlotS, x17_high, x17_low])
theorem scmp (c : Col) (g : Pred) (k : PairIx) (cond : SCond) (a b : XReg) : Statement (.scmp c g k cond a b) :=
  of_slot rfl rfl rfl (by simp) (by simp only [decSlotRaw]; simp [decSlotS]; rw [scmp_c]; exact ⟨decSCond_enc cond, scmp_k .., scmp_a .., scmp_b ..⟩)
theorem sbra (c : Col) (g : Pred) (ofs : BitVec 22) : Statement (.sbra c g ofs) :=
  of_slot rfl rfl rfl (by simp) (by simp only [decSlotRaw]; simp [decSlotS])
theorem sloop (c : Col) (g : Pred) (x : XReg) (ofs : BitVec 17) : Statement (.sloop c g x ofs) :=
  of_slot rfl rfl rfl (by simp) (by simp only [decSlotRaw]; simp [decSlotS, x17_high, x17_low])
theorem scall (c : Col) (g : Pred) (ofs : BitVec 22) : Statement (.scall c g ofs) :=
  of_slot rfl rfl rfl (by simp) (by simp only [decSlotRaw]; simp [decSlotS])
theorem sret (c : Col) (g : Pred) : Statement (.sret c g) :=
  of_slot rfl rfl rfl (by simp) (by simp only [decSlotRaw]; simp [decSlotS])
theorem sgive (c : Col) (g : Pred) (t : Handle) (n : BitVec 4) : Statement (.sgive c g t n) :=
  of_slot rfl rfl rfl (by simp) (by simp only [decSlotRaw]; simp [decSlotS, hBits_t, hBits_n])
theorem stake (c : Col) (g : Pred) (t : Handle) (n : BitVec 4) : Statement (.stake c g t n) :=
  of_slot rfl rfl rfl (by simp) (by simp only [decSlotRaw]; simp [decSlotS, hBits_t, hBits_n])
theorem sbarSync (c : Col) (g : Pred) (b : BitVec 4) : Statement (.sbarSync c g b) :=
  of_slot rfl rfl rfl (by simp) (by simp only [decSlotRaw]; simp [decSlotS, barBits_b, barBits_m])
theorem sbarArr (c : Col) (g : Pred) (b : BitVec 4) : Statement (.sbarArr c g b) :=
  of_slot rfl rfl rfl (by simp) (by simp only [decSlotRaw]; simp [decSlotS, barBits_b, barBits_m])
theorem sbarWait (c : Col) (g : Pred) (b : BitVec 4) : Statement (.sbarWait c g b) :=
  of_slot rfl rfl rfl (by simp) (by simp only [decSlotRaw]; simp [decSlotS, barBits_b, barBits_m])
theorem sstat (c : Col) (g : Pred) (d : XReg) : Statement (.sstat c g d) :=
  of_slot rfl rfl rfl (by simp) (by simp only [decSlotRaw]; simp [decSlotS, x17_high])
theorem shalt (c : Col) (g : Pred) : Statement (.shalt c g) :=
  of_slot rfl rfl rfl (by simp) (by simp only [decSlotRaw]; simp [decSlotS])
theorem tmmaBf16 (c : Col) (g : Pred) (t : Handle) (a b : BitVec 6) (s : Shape) : Statement (.tmmaBf16 c g t a b s) :=
  of_slot rfl rfl rfl (by simp) (by simp only [decSlotRaw]; simp [decSlotT, tBits_t, tBits_a, tBits_b, tBits_s, decShape_enc])
theorem tmmaF16 (c : Col) (g : Pred) (t : Handle) (a b : BitVec 6) (s : Shape) : Statement (.tmmaF16 c g t a b s) :=
  of_slot rfl rfl rfl (by simp) (by simp only [decSlotRaw]; simp [decSlotT, tBits_t, tBits_a, tBits_b, tBits_s, decShape_enc])
theorem tmmaE4M3 (c : Col) (g : Pred) (t : Handle) (a b : BitVec 6) (s : Shape) : Statement (.tmmaE4M3 c g t a b s) :=
  of_slot rfl rfl rfl (by simp) (by simp only [decSlotRaw]; simp [decSlotT, tBits_t, tBits_a, tBits_b, tBits_s, decShape_enc])
theorem tmmaE5M2 (c : Col) (g : Pred) (t : Handle) (a b : BitVec 6) (s : Shape) : Statement (.tmmaE5M2 c g t a b s) :=
  of_slot rfl rfl rfl (by simp) (by simp only [decSlotRaw]; simp [decSlotT, tBits_t, tBits_a, tBits_b, tBits_s, decShape_enc])
theorem tmmaQf4 (c : Col) (g : Pred) (t : Handle) (a b : BitVec 6) (s : Shape) : Statement (.tmmaQf4 c g t a b s) :=
  of_slot rfl rfl rfl (by simp) (by simp only [decSlotRaw]; simp [decSlotT, tBits_t, tBits_a, tBits_b, tBits_s, decShape_enc])
theorem tmmaF32 (c : Col) (g : Pred) (t : Handle) (a b : BitVec 6) (s : Shape) : Statement (.tmmaF32 c g t a b s) :=
  of_slot rfl rfl rfl (by simp) (by simp only [decSlotRaw]; simp [decSlotT, tBits_t, tBits_a, tBits_b, tBits_s, decShape_enc])
theorem tzero (c : Col) (g : Pred) (t : Handle) (n : BitVec 4) : Statement (.tzero c g t n) :=
  of_slot rfl rfl rfl (by simp) (by simp only [decSlotRaw]; simp [decSlotT, hBits_t, hBits_n])
theorem tcvt (c : Col) (g : Pred) (d s : Handle) (f : Fmt) (rz sat : Bool) : Statement (.tcvt c g d s f rz sat) :=
  of_slot rfl rfl rfl (by simp) (by simp only [decSlotRaw]; simp only [decSlotT, tcvt_d, tcvt_s, tcvt_f, tcvt_rz, tcvt_sat, decFmt_enc, Option.map_some]; rfl)
theorem vadd (c : Col) (g : Pred) (v : VFields) : Statement (.vadd c g v) :=
  of_slot rfl rfl rfl (by simp) (by simp only [decSlotRaw]; simp [decSlotV, decVFields_bits])
theorem vmul (c : Col) (g : Pred) (v : VFields) : Statement (.vmul c g v) :=
  of_slot rfl rfl rfl (by simp) (by simp only [decSlotRaw]; simp [decSlotV, decVFields_bits])
theorem vfma (c : Col) (g : Pred) (v : VFields) : Statement (.vfma c g v) :=
  of_slot rfl rfl rfl (by simp) (by simp only [decSlotRaw]; simp [decSlotV, decVFields_bits])
theorem vmax (c : Col) (g : Pred) (v : VFields) : Statement (.vmax c g v) :=
  of_slot rfl rfl rfl (by simp) (by simp only [decSlotRaw]; simp [decSlotV, decVFields_bits])
theorem vmin (c : Col) (g : Pred) (v : VFields) : Statement (.vmin c g v) :=
  of_slot rfl rfl rfl (by simp) (by simp only [decSlotRaw]; simp [decSlotV, decVFields_bits])
theorem vrelu (c : Col) (g : Pred) (v : VFields) : Statement (.vrelu c g v) :=
  of_slot rfl rfl rfl (by simp) (by simp only [decSlotRaw]; simp [decSlotV, decVFields_bits])
theorem vsel (c : Col) (g : Pred) (v : VFields) : Statement (.vsel c g v) :=
  of_slot rfl rfl rfl (by simp) (by simp only [decSlotRaw]; simp [decSlotV, decVFields_bits])
theorem vred (c : Col) (g : Pred) (v : VFields) (r : VRedKind) : Statement (.vred c g v r) :=
  of_vred c g v r
theorem vscl (c : Col) (g : Pred) (v : VFields) : Statement (.vscl c g v) :=
  of_slot rfl rfl rfl (by simp) (by simp only [decSlotRaw]; simp [decSlotV, decVFields_bits])
theorem tld (c : Col) (g : Pred) (t : Handle) (x : XReg) (n : BitVec 3) : Statement (.tld c g t x n) :=
  of_slot rfl rfl rfl (by simp) (by simp only [decSlotRaw]; simp [decSlotM, mBits_t, mBits_x, mBits_n])
theorem tst (c : Col) (g : Pred) (t : Handle) (x : XReg) (n : BitVec 3) : Statement (.tst c g t x n) :=
  of_slot rfl rfl rfl (by simp) (by simp only [decSlotRaw]; simp [decSlotM, mBits_t, mBits_x, mBits_n])
theorem zbind (c : Col) (g : Pred) (z : BitVec 3) (x : XReg) : Statement (.zbind c g z x) :=
  of_slot rfl rfl rfl (by simp) (by simp only [decSlotRaw]; simp [decSlotM, zBits_z, zBits_x])
theorem zset (c : Col) (g : Pred) (z : BitVec 3) (x : XReg) (f : BitVec 4) : Statement (.zset c g z x f) :=
  of_slot rfl rfl rfl (by simp) (by simp only [decSlotRaw]; simp [decSlotM]; exact ⟨zset_z .., zset_x .., zset_f ..⟩)
theorem zskip (c : Col) (g : Pred) (z : BitVec 3) (x : XReg) : Statement (.zskip c g z x) :=
  of_slot rfl rfl rfl (by simp) (by simp only [decSlotRaw]; simp [decSlotM, zBits_z, zBits_x])
theorem fltLdf (a : BitVec 4) (k : BitVec 7) : Statement (.fltLdf a k) :=
  of_filter rfl rfl rfl (by simp only [decFilterRaw, fk_op, fk_a, fk_k]; simp)
theorem fltLdi (a : BitVec 4) (k : BitVec 7) : Statement (.fltLdi a k) :=
  of_filter rfl rfl rfl (by simp only [decFilterRaw, fk_op, fk_a, fk_k]; simp)
theorem fltMovk (a : BitVec 4) (k : BitVec 7) : Statement (.fltMovk a k) :=
  of_filter rfl rfl rfl (by simp only [decFilterRaw, fk_op, fk_a, fk_k]; simp)
theorem fltAddi (a : BitVec 4) (k : BitVec 7) : Statement (.fltAddi a k) :=
  of_filter rfl rfl rfl (by simp only [decFilterRaw, fk_op, fk_a, fk_k]; simp)
theorem fltShri (a : BitVec 4) (k : BitVec 7) : Statement (.fltShri a k) :=
  of_filter rfl rfl rfl (by simp only [decFilterRaw, fk_op, fk_a, fk_k]; simp)
theorem fltMov (a b : BitVec 4) : Statement (.fltMov a b) :=
  of_filter rfl rfl rfl (by unfold decFilterRaw; simp only [fr_op, fr_a, fr_b, fr_x, okIf]; simp)
theorem fltAdd (a b : BitVec 4) : Statement (.fltAdd a b) :=
  of_filter rfl rfl rfl (by unfold decFilterRaw; simp only [fr_op, fr_a, fr_b, fr_x, okIf]; simp)
theorem fltSub (a b : BitVec 4) : Statement (.fltSub a b) :=
  of_filter rfl rfl rfl (by unfold decFilterRaw; simp only [fr_op, fr_a, fr_b, fr_x, okIf]; simp)
theorem fltAnd (a b : BitVec 4) : Statement (.fltAnd a b) :=
  of_filter rfl rfl rfl (by unfold decFilterRaw; simp only [fr_op, fr_a, fr_b, fr_x, okIf]; simp)
theorem fltOr (a b : BitVec 4) : Statement (.fltOr a b) :=
  of_filter rfl rfl rfl (by unfold decFilterRaw; simp only [fr_op, fr_a, fr_b, fr_x, okIf]; simp)
theorem fltShl (a b : BitVec 4) : Statement (.fltShl a b) :=
  of_filter rfl rfl rfl (by unfold decFilterRaw; simp only [fr_op, fr_a, fr_b, fr_x, okIf]; simp)
theorem fltShr (a b : BitVec 4) : Statement (.fltShr a b) :=
  of_filter rfl rfl rfl (by unfold decFilterRaw; simp only [fr_op, fr_a, fr_b, fr_x, okIf]; simp)
theorem fltCeq (a b : BitVec 4) : Statement (.fltCeq a b) :=
  of_filter rfl rfl rfl (by unfold decFilterRaw; simp only [fr_op, fr_a, fr_b, fr_x, okIf]; simp)
theorem fltCltu (a b : BitVec 4) : Statement (.fltCltu a b) :=
  of_filter rfl rfl rfl (by unfold decFilterRaw; simp only [fr_op, fr_a, fr_b, fr_x, okIf]; simp)
theorem fltClts (a b : BitVec 4) : Statement (.fltClts a b) :=
  of_filter rfl rfl rfl (by unfold decFilterRaw; simp only [fr_op, fr_a, fr_b, fr_x, okIf]; simp)
theorem fltBz (a : BitVec 4) (k : BitVec 7) : Statement (.fltBz a k) :=
  of_filter rfl rfl rfl (by simp only [decFilterRaw, fk_op, fk_a, fk_k]; simp)
theorem fltBnz (a : BitVec 4) (k : BitVec 7) : Statement (.fltBnz a k) :=
  of_filter rfl rfl rfl (by simp only [decFilterRaw, fk_op, fk_a, fk_k]; simp)
theorem fltJmp (ofs : BitVec 11) : Statement (.fltJmp ofs) :=
  of_filter rfl rfl rfl decFilterRaw_jmp
theorem fltHist (a o : BitVec 4) : Statement (.fltHist a o) :=
  of_filter rfl rfl rfl (by unfold decFilterRaw; simp only [fr_op, fr_a, fr_b, fr_x, okIf]; simp)
theorem fltSku (a b : BitVec 4) (o : BitVec 3) : Statement (.fltSku a b o) :=
  of_filter rfl rfl rfl (by unfold decFilterRaw; simp only [fr_op, fr_a, fr_b, fr_x, okIf]; simp)
theorem fltCadd (a o : BitVec 4) : Statement (.fltCadd a o) :=
  of_filter rfl rfl rfl (by unfold decFilterRaw; simp only [fr_op, fr_a, fr_b, fr_x, okIf]; simp)
theorem fltTrig (a o : BitVec 4) : Statement (.fltTrig a o) :=
  of_filter rfl rfl rfl (by unfold decFilterRaw; simp only [fr_op, fr_a, fr_b, fr_x, okIf]; simp)
theorem fltEnd : Statement (.fltEnd) :=
  of_filter rfl rfl rfl (by decide)
theorem splitMerge (b g i j : Nat) : Statement (.splitMerge b g i j) := of_event rfl rfl rfl
theorem ejectedLaneStart (c : Nat) : Statement (.ejectedLaneStart c) := of_event rfl rfl rfl
theorem copyBack (c : Nat) : Statement (.copyBack c) := of_event rfl rfl rfl
theorem joinTimeout (b g k : Nat) : Statement (.joinTimeout b g k) := of_event rfl rfl rfl
theorem loadDataLands (id : Nat) : Statement (.loadDataLands id) := of_event rfl rfl rfl
theorem ownershipRegistration (id : Nat) : Statement (.ownershipRegistration id) := of_event rfl rfl rfl
theorem registrationAck (id : Nat) : Statement (.registrationAck id) := of_event rfl rfl rfl
theorem homeRead (id part : Nat) : Statement (.homeRead id part) := of_event rfl rfl rfl
theorem homeAtomic (id addr : Nat) : Statement (.homeAtomic id addr) := of_event rfl rfl rfl
theorem ownerForward (id part : Nat) : Statement (.ownerForward id part) := of_event rfl rfl rfl
theorem revocation (word : Nat) : Statement (.revocation word) := of_event rfl rfl rfl
theorem waitcReevaluate (b g k : Nat) : Statement (.waitcReevaluate b g k) := of_event rfl rfl rfl
theorem waitcPoll (b g k : Nat) : Statement (.waitcPoll b g k) := of_event rfl rfl rfl
theorem emitWake (b g k : Nat) : Statement (.emitWake b g k) := of_event rfl rfl rfl
theorem stashWriteBack (b w : Nat) : Statement (.stashWriteBack b w) := of_event rfl rfl rfl
theorem takeCompletes (b : Nat) (who : Party) : Statement (.takeCompletes b who) := of_event rfl rfl rfl
theorem takeLimit (b : Nat) (who : Party) : Statement (.takeLimit b who) := of_event rfl rfl rfl
theorem operationLands (b id : Nat) : Statement (.operationLands b id) := of_event rfl rfl rfl
theorem tldFill (b id : Nat) : Statement (.tldFill b id) := of_event rfl rfl rfl
theorem tstTileRead (b id : Nat) : Statement (.tstTileRead b id) := of_event rfl rfl rfl
theorem streamReadAhead (b c z : Nat) : Statement (.streamReadAhead b c z) := of_event rfl rfl rfl
theorem writePortEntryWrite (b c z : Nat) : Statement (.writePortEntryWrite b c z) := of_event rfl rfl rfl
theorem safePointStop (b : Nat) : Statement (.safePointStop b) := of_event rfl rfl rfl
theorem forcedSavePoint (b : Nat) : Statement (.forcedSavePoint b) := of_event rfl rfl rfl
theorem copySlotClaim (id : Nat) : Statement (.copySlotClaim id) := of_event rfl rfl rfl
theorem copySlotFilled (id : Nat) : Statement (.copySlotFilled id) := of_event rfl rfl rfl
theorem copyOperationDone (id rows : Nat) : Statement (.copyOperationDone id rows) := of_event rfl rfl rfl
theorem sparseIndexDone (id : Nat) : Statement (.sparseIndexDone id) := of_event rfl rfl rfl
theorem lodestarDone (id : Nat) : Statement (.lodestarDone id) := of_event rfl rfl rfl
theorem cbarHalfMessage (q b : Nat) : Statement (.cbarHalfMessage q b) := of_event rfl rfl rfl
theorem dbarWindow (o d : Nat) : Statement (.dbarWindow o d) := of_event rfl rfl rfl
theorem dbarCompletionMessage (o d : Nat) : Statement (.dbarCompletionMessage o d) := of_event rfl rfl rfl
theorem dbarRelease (o d : Nat) : Statement (.dbarRelease o d) := of_event rfl rfl rfl
theorem pageWalkStart (d id : Nat) : Statement (.pageWalkStart d id) := of_event rfl rfl rfl
theorem pageWalkEnd (d id : Nat) : Statement (.pageWalkEnd d id) := of_event rfl rfl rfl
theorem hintedRequestForward (id : Nat) : Statement (.hintedRequestForward id) := of_event rfl rfl rfl
theorem translationInvalidation (fn vf va len : Nat) : Statement (.translationInvalidation fn vf va len) := of_event rfl rfl rfl
theorem migrate (fn desc : Nat) : Statement (.migrate fn desc) := of_event rfl rfl rfl
theorem migrateBias (fn desc : Nat) : Statement (.migrateBias fn desc) := of_event rfl rfl rfl
theorem migrationPassEnd (id : Nat) : Statement (.migrationPassEnd id) := of_event rfl rfl rfl
theorem migrationComplete (id : Nat) : Statement (.migrationComplete id) := of_event rfl rfl rfl
theorem loaderRegister (fn : Nat) (obj : List Byte) (text seq data hdr : Nat) : Statement (.loaderRegister fn obj text seq data hdr) := of_event rfl rfl rfl
theorem registerQueue (fn q vf : Nat) : Statement (.registerQueue fn q vf) := of_event rfl rfl rfl
theorem stampObserved (q : Nat) : Statement (.stampObserved q) := of_event rfl rfl rfl
theorem batchTimeout (q : Nat) : Statement (.batchTimeout q) := of_event rfl rfl rfl
theorem blockAdmission (d : Nat) : Statement (.blockAdmission d) := of_event rfl rfl rfl
theorem reservation (d : Nat) : Statement (.reservation d) := of_event rfl rfl rfl
theorem quantumPreemption (d : Nat) : Statement (.quantumPreemption d) := of_event rfl rfl rfl
theorem preemption (b : Nat) : Statement (.preemption b) := of_event rfl rfl rfl
theorem accFirstUseService (b : Nat) : Statement (.accFirstUseService b) := of_event rfl rfl rfl
theorem parkRecord (p : Nat) : Statement (.parkRecord p) := of_event rfl rfl rfl
theorem parkLimit (b : Nat) : Statement (.parkLimit b) := of_event rfl rfl rfl
theorem allBlockedSwapOut (b : Nat) : Statement (.allBlockedSwapOut b) := of_event rfl rfl rfl
theorem distributorWaitcPoll (b : Nat) : Statement (.distributorWaitcPoll b) := of_event rfl rfl rfl
theorem resume (fn ctx : Nat) (u : ParkUnit) : Statement (.resume fn ctx u) := of_event rfl rfl rfl
theorem endBlock (fn ctx : Nat) (u : ParkUnit) : Statement (.endBlock fn ctx u) := of_event rfl rfl rfl
theorem blockEnd (b : Nat) : Statement (.blockEnd b) := of_event rfl rfl rfl
theorem stop (fn vf report status : Nat) : Statement (.stop fn vf report status) := of_event rfl rfl rfl
theorem functionLevelReset (fn vf : Nat) : Statement (.functionLevelReset fn vf) := of_event rfl rfl rfl
theorem vfSliceEnd (p : Nat) : Statement (.vfSliceEnd p) := of_event rfl rfl rfl
theorem energyWindowEnd (p : Nat) : Statement (.energyWindowEnd p) := of_event rfl rfl rfl
theorem arbiterWindow (d ch : Nat) : Statement (.arbiterWindow d ch) := of_event rfl rfl rfl
theorem eventDispatch (m : Nat) : Statement (.eventDispatch m) := of_event rfl rfl rfl
theorem counterSample (core : Nat) : Statement (.counterSample core) := of_event rfl rfl rfl
theorem budgetWindow (m : Nat) : Statement (.budgetWindow m) := of_event rfl rfl rfl
theorem linkerrEmit (m link kind : Nat) : Statement (.linkerrEmit m link kind) := of_event rfl rfl rfl
theorem attach (fn m slot desc : Nat) : Statement (.attach fn m slot desc) := of_event rfl rfl rfl
theorem detach (fn m slot : Nat) : Statement (.detach fn m slot) := of_event rfl rfl rfl
theorem read (fn m slot obj : Nat) : Statement (.read fn m slot obj) := of_event rfl rfl rfl
theorem readclr (fn m slot obj : Nat) : Statement (.readclr fn m slot obj) := of_event rfl rfl rfl
theorem triggerRearm (fn m slot obj : Nat) : Statement (.triggerRearm fn m slot obj) := of_event rfl rfl rfl
theorem afterglowRead (fn m ix : Nat) : Statement (.afterglowRead fn m ix) := of_event rfl rfl rfl
theorem mctlWrite (fn m : Nat) (v : Word) : Statement (.mctlWrite fn m v) := of_event rfl rfl rfl
theorem cmodeWrite (fn core : Nat) (v : Word) : Statement (.cmodeWrite fn core v) := of_event rfl rfl rfl
theorem fownWrite (fn facet : Nat) (v : Word) : Statement (.fownWrite fn facet v) := of_event rfl rfl rfl
theorem cmerrWrite (fn core : Nat) (v : Word) : Statement (.cmerrWrite fn core v) := of_event rfl rfl rfl
theorem floorWrite (fn p d : Nat) (v : Word) : Statement (.floorWrite fn p d v) := of_event rfl rfl rfl
theorem pctlWrite (fn port : Nat) (v : Word) : Statement (.pctlWrite fn port v) := of_event rfl rfl rfl
theorem registerWrite (fn : Nat) (r : HubReg) (v : Dword) : Statement (.registerWrite fn r v) := of_event rfl rfl rfl
theorem coldReset : Statement (.coldReset) := of_event rfl rfl rfl
theorem warmReset : Statement (.warmReset) := of_event rfl rfl rfl
theorem firmwareImage (fn : Nat) (img : List Byte) : Statement (.firmwareImage fn img) := of_event rfl rfl rfl
theorem flitReceive (port seq : Nat) (flit : List Byte) (fec : Fec) : Statement (.flitReceive port seq flit fec) := of_event rfl rfl rfl
theorem flitAcknowledge (port seq : Nat) : Statement (.flitAcknowledge port seq) := of_event rfl rfl rfl
theorem replayRequest (port seq : Nat) : Statement (.replayRequest port seq) := of_event rfl rfl rfl
theorem portRetrainEnd (port : Nat) (ok : Bool) : Statement (.portRetrainEnd port ok) := of_event rfl rfl rfl
theorem remoteRequest (src : Nat) (tag : Word) (op : HostOp) (addr n : Nat) : Statement (.remoteRequest src tag op addr n) := of_event rfl rfl rfl
theorem hostCompletion (id : Nat) (c : Completion) : Statement (.hostCompletion id c) := of_event rfl rfl rfl
theorem illegalInstruction (w : Word) : Statement (.illegalInstruction w) := of_event rfl rfl rfl
theorem illegalBundle (b : Nat) : Statement (.illegalBundle b) := of_event rfl rfl rfl
theorem instructionFetchFault (cause : Nat) (addr : Dword) : Statement (.instructionFetchFault cause addr) := of_event rfl rfl rfl
theorem hostMemoryRequest (op : HostOp) (addr n : Nat) : Statement (.hostMemoryRequest op addr n) := of_event rfl rfl rfl
theorem sharedStorePerformed (id : Nat) : Statement (.sharedStorePerformed id) := of_event rfl rfl rfl
theorem cbarReleaseMessage (q b : Nat) : Statement (.cbarReleaseMessage q b) := of_event rfl rfl rfl
theorem dieLinkCrcRetry (m link : Nat) (retrain : Bool) : Statement (.dieLinkCrcRetry m link retrain) := of_event rfl rfl rfl
theorem pqheadWrite (fn p : Nat) (v : Dword) : Statement (.pqheadWrite fn p v) := of_event rfl rfl rfl

end Sys2Proof.Laws.RoundTrip
end

