-- ==== Sys2Proof/Safety.lean ====
section
/-!
DEFINITION. Safety.lean: the terms that the statements are made in: when a lane instruction issues, what its result is as
arithmetic on bit vectors (spec/04_lane_integer.md), and what an instruction leaves unchanged.
-/

set_option linter.constructorNameAsVariable false

namespace Sys2Proof.Machine

/-! ## When a lane instruction has its own effect (02 R46, 04 R96, 09 R200, 14 R301) -/

/-- A unit issues, and no check of R46 stops the instruction, nor the interlock, nor the registers' own check: it is well formed
for the group's width, not forbidden on the comet core, within the register budget, in tiles that the group owns, no access
in flight is to write a register that it names, and no register that an executing lane reads is poisoned (20 R419). -/
def State.mayIssue (s : State) (i : Instr) (g : Pred) : Bool :=
  s.issuing && !illegalFor s.unitNode i && !s.forbids i && s.budgetOk (instrUses s.unitNode i) &&
  s.ownOk (instrUses s.unitNode i) && !s.interlocked g (instrUses s.unitNode i) &&
  s.readsBad i g (instrUses s.unitNode i) == 0

/-- The executing lanes as a list. -/
def State.execs (s : State) (g : Pred) : List Nat := lanesOf (s.exec g)

/-- The PC of the unit after an instruction that goes on to the next one. -/
def State.after (s : State) (i : Instr) : Dword := s.pc + BitVec.ofNat 64 i.laneSize

/-- The guard of a lane instruction (02 R43). -/
def laneGuard : Instr → Option Pred
  | .iadd g _ _ _ _ => some g
  | .isub g _ _ _ _ => some g
  | .iaddc g _ _ _ _ => some g
  | .lea g _ _ _ _ => some g
  | .imlo g _ _ _ _ => some g
  | .imhiS g _ _ _ _ => some g
  | .imhiZ g _ _ _ _ => some g
  | .imac g _ _ _ _ => some g
  | .idivS g _ _ _ _ => some g
  | .idivZ g _ _ _ _ => some g
  | .iabs g _ _ _ => some g
  | .ineg g _ _ _ => some g
  | .iminS g _ _ _ _ => some g
  | .iminZ g _ _ _ _ => some g
  | .imaxS g _ _ _ _ => some g
  | .imaxZ g _ _ _ _ => some g
  | .and g _ _ _ _ => some g
  | .or g _ _ _ _ => some g
  | .xor g _ _ _ _ => some g
  | .andn g _ _ _ _ => some g
  | .shl g _ _ _ _ => some g
  | .shr g _ _ _ _ => some g
  | .sar g _ _ _ _ => some g
  | .rol g _ _ _ _ => some g
  | .bfxS g _ _ _ _ => some g
  | .bfxZ g _ _ _ _ => some g
  | .bfi g _ _ _ _ => some g
  | .not g _ _ _ => some g
  | .clz g _ _ _ => some g
  | .popc g _ _ _ => some g
  | .brev g _ _ _ => some g
  | .mov g _ _ _ => some g
  | .moviV g _ _ => some g
  | .movhiV g _ _ => some g
  | .moviS g _ _ => some g
  | .movhiS g _ _ => some g
  | .icmp g _ _ _ _ _ _ => some g
  | .sel g _ _ _ _ => some g
  | .pand g _ _ _ => some g
  | .por g _ _ _ => some g
  | .pxor g _ _ _ => some g
  | .pnot g _ _ => some g
  | .padd g _ _ _ _ _ _ => some g
  | .psub g _ _ _ _ _ _ => some g
  | .pmul g _ _ _ _ _ _ => some g
  | .pmin g _ _ _ _ _ => some g
  | .pmax g _ _ _ _ _ => some g
  | .pdot g _ _ _ _ _ => some g
  | .pwiden g _ _ _ _ => some g
  | .pnarrow g _ _ _ _ _ => some g
  | .pcmpEq g _ _ _ _ _ => some g
  | .pcmpLt g _ _ _ _ _ => some g
  | .fadd g _ _ _ => some g
  | .fsub g _ _ _ => some g
  | .fmul g _ _ _ => some g
  | .ffma g _ _ _ => some g
  | .fmin g _ _ _ => some g
  | .fmax g _ _ _ => some g
  | .fclass g _ _ => some g
  | .pfmaF16 g _ _ _ => some g
  | .pfmaBf16 g _ _ _ => some g
  | .fcmp g _ _ _ _ _ => some g
  | .fexp2 g _ _ _ => some g
  | .flog2 g _ _ _ => some g
  | .frcp g _ _ _ => some g
  | .frsq g _ _ _ => some g
  | .fsqrt g _ _ _ => some g
  | .fsinpi g _ _ _ => some g
  | .fcospi g _ _ _ => some g
  | .ftanh g _ _ _ => some g
  | .fsigm g _ _ _ => some g
  | .fgelu g _ _ _ => some g
  | .fsilu g _ _ _ => some g
  | .ferf g _ _ _ => some g
  | .cvt g _ _ _ _ _ _ => some g
  | .qscale g _ _ _ => some g
  | .qpack g _ _ _ => some g
  | .qunpk g _ _ _ => some g
  | .cvtFw g _ _ _ => some g
  | .voteAll g _ _ _ => some g
  | .voteAny g _ _ _ => some g
  | .voteBal g _ _ _ => some g
  | .voteEq g _ _ _ => some g
  | .shflIdx g _ _ _ _ => some g
  | .shflUp g _ _ _ _ => some g
  | .shflDn g _ _ _ _ => some g
  | .shflXor g _ _ _ _ => some g
  | .redux g _ _ _ _ _ => some g
  | .scanInc g _ _ _ _ _ => some g
  | .scanExc g _ _ _ _ _ => some g
  | .bra g _ => some g
  | .braEj g _ _ => some g
  | .call g _ => some g
  | .brx g _ => some g
  | .callx g _ => some g
  | .ret g => some g
  | .join g => some g
  | .exit g => some g
  | .eret g => some g
  | .live g _ _ => some g
  | .yield g => some g
  | .trap g _ => some g
  | .ld g _ _ _ _ _ => some g
  | .st g _ _ _ _ _ => some g
  | .lds g _ _ _ _ => some g
  | .sts g _ _ _ _ => some g
  | .smap g _ _ _ => some g
  | .pref g _ => some g
  | .fenceAcq g => some g
  | .fenceRel g => some g
  | .fenceAr g => some g
  | .atomAdd g _ _ _ _ => some g
  | .atomMinS g _ _ _ _ => some g
  | .atomMinZ g _ _ _ _ => some g
  | .atomMaxS g _ _ _ _ => some g
  | .atomMaxZ g _ _ _ _ => some g
  | .atomAnd g _ _ _ _ => some g
  | .atomOr g _ _ _ _ => some g
  | .atomXor g _ _ _ _ => some g
  | .atomExch g _ _ _ _ => some g
  | .incw g _ _ _ => some g
  | .decw g _ _ _ => some g
  | .atomAddb g _ _ _ _ => some g
  | .atomCasW g _ _ _ => some g
  | .atomCasD g _ _ _ => some g
  | .atomCasQ g _ _ _ => some g
  | .waitc g _ _ _ _ => some g
  | .give g _ => some g
  | .take g _ => some g
  | .barSync g _ => some g
  | .barArr g _ => some g
  | .barWait g _ => some g
  | .rwait g _ _ => some g
  | .rdone g _ => some g
  | .eset g _ _ _ => some g
  | .eget g _ _ _ => some g
  | .ecmdGo g _ _ => some g
  | .ecmdClear g _ _ _ => some g
  | .sparseIndexGo g _ => some g
  | .sparseIndexClear g _ _ => some g
  | .lodestarGo g _ => some g
  | .lodestarClear g _ _ => some g
  | .copy g _ _ _ => some g
  | .ewait g _ _ => some g
  | .cbarSync g _ => some g
  | .cbarArr g _ => some g
  | .cbarWait g _ => some g
  | .dbar g _ => some g
  | .emit g _ _ => some g
  | .mfs g _ _ => some g
  | .mts g _ _ => some g
  | .ctxsv g _ => some g
  | .ctxld g _ => some g
  | .ldW g _ _ _ => some g
  | .ldD g _ _ _ => some g
  | .ldQ g _ _ _ => some g
  | .stW g _ _ _ => some g
  | .stD g _ _ _ => some g
  | .stQ g _ _ _ => some g
  | .ldsW g _ _ _ => some g
  | .stsW g _ _ _ => some g
  | _ => none

/-! ## Results of the integer majors (04 R99-R104) -/

/-- The last source as a word. -/
def State.last32 (s : State) (src : Src) (l : Nat) : Word :=
  match src with
  | .vv b => s.rdV b.toNat l
  | .vs b => s.rdS b.toNat
  | .ss b => s.rdS b.toNat
  | .lit x => x

/-- The last source as 64 bits; `sx` sign-extends a literal (R98). -/
def State.last64 (s : State) (sx : Bool) (src : Src) (l : Nat) : Dword :=
  match src with
  | .vv b => s.rdVPair b.toNat l
  | .vs b => s.rdSPair b.toNat
  | .ss b => s.rdSPair b.toNat
  | .lit x => if sx then x.signExtend 64 else x.setWidth 64

/-- Position and length of a bit field of an n-bit value (R104). -/
def fieldOf (n : Nat) (c : Nat) : Nat × Nat := (c % 256, min (c / 256 % 256) (n - c % 256))

/-- The results of the integer majors but IADDC and LEA, on n bits, from a, b and d (R99, R102-R104). A shift count or
field control is the low word of `b`. -/
def intResult (n : Nat) : Instr → Option (BitVec n → BitVec n → BitVec n → BitVec n)
  | .iadd .. => some fun a b _ => a + b
  | .isub .. => some fun a b _ => a - b
  | .imlo .. => some fun a b _ => a * b
  | .imhiS .. => some fun a b _ => BitVec.ofInt n (a.toInt * b.toInt / 2 ^ n)
  | .imhiZ .. => some fun a b _ => BitVec.ofNat n (a.toNat * b.toNat / 2 ^ n)
  | .imac .. => some fun a b d => a * b + d
  | .idivS .. => some fun a b _ => if b = 0 then BitVec.allOnes n else a.sdiv b
  | .idivZ .. => some fun a b _ => if b = 0 then BitVec.allOnes n else a / b
  | .iabs .. => some fun _ b _ => if b.slt 0 then -b else b
  | .ineg .. => some fun _ b _ => -b
  | .iminS .. => some fun a b _ => if a.sle b then a else b
  | .iminZ .. => some fun a b _ => if a.ule b then a else b
  | .imaxS .. => some fun a b _ => if a.sle b then b else a
  | .imaxZ .. => some fun a b _ => if a.ule b then b else a
  | .and .. => some fun a b _ => a &&& b
  | .or .. => some fun a b _ => a ||| b
  | .xor .. => some fun a b _ => a ^^^ b
  | .andn .. => some fun a b _ => a &&& ~~~b
  | .shl .. => some fun a c _ => a <<< c.toNat
  | .shr .. => some fun a c _ => a >>> c.toNat
  | .sar .. => some fun a c _ => a.sshiftRight c.toNat
  | .rol .. => some fun a c _ => a.rotateLeft (c.toNat % n)
  | .bfxS .. => some fun a c _ =>
    let f := fieldOf n c.toNat
    if c.toNat / 256 % 256 = 0 ∨ n ≤ f.1 then 0 else (a.extractLsb' f.1 f.2).signExtend n
  | .bfxZ .. => some fun a c _ =>
    let f := fieldOf n c.toNat
    if c.toNat / 256 % 256 = 0 ∨ n ≤ f.1 then 0 else (a.extractLsb' f.1 f.2).setWidth n
  | .bfi .. => some fun a c d =>
    let f := fieldOf n c.toNat
    if c.toNat / 256 % 256 = 0 ∨ n ≤ f.1 then d
    else BitVec.ofNat n (d.toNat - d.toNat / 2 ^ f.1 % 2 ^ f.2 * 2 ^ f.1 + a.toNat % 2 ^ f.2 * 2 ^ f.1)
  | .not .. => some fun _ b _ => ~~~b
  | .clz .. => some fun _ b _ => b.clz
  | .popc .. => some fun _ b _ => b.cpop
  | .brev .. => some fun _ b _ => b.reverse
  | .mov .. => some fun _ b _ => b
  | _ => none

/-- Guard, width, destination, first source and last source of an integer major but IADDC and LEA; a unary one names D as
its first source, which it does not use. -/
def intOperands : Instr → Option (Pred × Bool × Reg × Reg × Src)
  | .iadd g w d a src => some (g, w, d, a, src)
  | .isub g w d a src => some (g, w, d, a, src)
  | .imlo g w d a src => some (g, w, d, a, src)
  | .imhiS g w d a src => some (g, w, d, a, src)
  | .imhiZ g w d a src => some (g, w, d, a, src)
  | .imac g w d a src => some (g, w, d, a, src)
  | .idivS g w d a src => some (g, w, d, a, src)
  | .idivZ g w d a src => some (g, w, d, a, src)
  | .iabs g w d src => some (g, w, d, d, src)
  | .ineg g w d src => some (g, w, d, d, src)
  | .iminS g w d a src => some (g, w, d, a, src)
  | .iminZ g w d a src => some (g, w, d, a, src)
  | .imaxS g w d a src => some (g, w, d, a, src)
  | .imaxZ g w d a src => some (g, w, d, a, src)
  | .and g w d a src => some (g, w, d, a, src)
  | .or g w d a src => some (g, w, d, a, src)
  | .xor g w d a src => some (g, w, d, a, src)
  | .andn g w d a src => some (g, w, d, a, src)
  | .shl g w d a src => some (g, w, d, a, src)
  | .shr g w d a src => some (g, w, d, a, src)
  | .sar g w d a src => some (g, w, d, a, src)
  | .rol g w d a src => some (g, w, d, a, src)
  | .bfxS g w d a src => some (g, w, d, a, src)
  | .bfxZ g w d a src => some (g, w, d, a, src)
  | .bfi g w d a src => some (g, w, d, a, src)
  | .not g w d src => some (g, w, d, d, src)
  | .clz g w d src => some (g, w, d, d, src)
  | .popc g w d src => some (g, w, d, d, src)
  | .brev g w d src => some (g, w, d, d, src)
  | .mov g w d src => some (g, w, d, d, src)
  | _ => none

/-- The last source of the form is one 32-bit count or control (R98). -/
def countForm : Instr → Bool
  | .shl .. => true
  | .shr .. => true
  | .sar .. => true
  | .rol .. => true
  | .bfxS .. => true
  | .bfxZ .. => true
  | .bfi .. => true
  | _ => false

/-- A literal of the 64-bit form is zero-extended (R98). -/
def zeroLiteral : Instr → Bool
  | .imhiZ .. => true
  | .idivZ .. => true
  | .iminZ .. => true
  | .imaxZ .. => true
  | _ => false

/-- The last source of a 64-bit form (R98). -/
def State.last64Of (s : State) (i : Instr) (src : Src) (l : Nat) : Dword :=
  if countForm i then (s.last32 src l).setWidth 64 else s.last64 (!zeroLiteral i) src l

/-! ## Results of the other lane instructions -/

/-- An integer condition on bit vectors, `u` for unsigned (R106). -/
def condBv {n : Nat} (c : ICond) (u : Bool) (x y : BitVec n) : Bool :=
  match c with
  | .eq => x == y
  | .ne => x != y
  | .lt => if u then x.ult y else x.slt y
  | .le => if u then x.ule y else x.sle y
  | .gt => if u then y.ult x else y.slt x
  | .ge => if u then y.ule x else y.sle x

/-- Guard, pair and new bit of lane l of an instruction that writes one predicate pair from a lane's own operands
(R106, R108, R123). -/
def State.pairResult (s : State) (l : Nat) : Instr → Option (Pred × PairIx × Bool)
  | .icmp g c k a src u w =>
    some (g, k, if w then condBv c u (s.rdVPair a.toNat l) (s.last64 (!u) src l)
      else condBv c u (s.rdV a.toNat l) (s.last32 src l))
  | .fcmp g c k a src t =>
    some (g, k, FCond.holds c (floatVal t (s.rdV a.toNat l).toNat) (floatVal t (s.last32 src l).toNat))
  | .pand g k a b => some (g, k, s.rdP a l && s.rdP b l)
  | .por g k a b => some (g, k, s.rdP a l || s.rdP b l)
  | .pxor g k a b => some (g, k, s.rdP a l ^^ s.rdP b l)
  | .pnot g k a => some (g, k, !s.rdP a l)
  | _ => none

/-- Guard, destination and new word of lane l of an instruction that writes one lane register from a lane's own
operands (R105, R107, R118, R122, R124). -/
def State.wordResult (s : State) (l : Nat) : Instr → Option (Pred × Reg × Word)
  | .moviV g d imm => some (g, d, imm.signExtend 32)
  | .movhiV g d imm => some (g, d, imm ++ (s.rdV d.toNat l).setWidth 16)
  | .sel g d a b f => some (g, d, if s.rdP f l then s.rdV a.toNat l else s.rdV b.toNat l)
  | .fadd g d a src => some (g, d, f32add (s.rdV a.toNat l) (s.last32 src l))
  | .fsub g d a src => some (g, d, f32sub (s.rdV a.toNat l) (s.last32 src l))
  | .fmul g d a src => some (g, d, f32mul (s.rdV a.toNat l) (s.last32 src l))
  | .ffma g d a src => some (g, d, f32fma (s.rdV a.toNat l) (s.last32 src l) (s.rdV d.toNat l))
  | .fmin g d a src => some (g, d, f32min (s.rdV a.toNat l) (s.last32 src l))
  | .fmax g d a src => some (g, d, f32max (s.rdV a.toNat l) (s.last32 src l))
  | .fclass g d src => some (g, d, f32class (s.last32 src l))
  | .pfmaF16 g d a src => some (g, d, packedFma fFP16 (s.rdV a.toNat l) (s.last32 src l) (s.rdV d.toNat l))
  | .pfmaBf16 g d a src => some (g, d, packedFma fBF16 (s.rdV a.toNat l) (s.last32 src l) (s.rdV d.toNat l))
  | .fexp2 g d a t => some (g, d, specialWord .exp2 t (s.rdV a.toNat l))
  | .flog2 g d a t => some (g, d, specialWord .log2 t (s.rdV a.toNat l))
  | .frcp g d a t => some (g, d, specialWord .rcp t (s.rdV a.toNat l))
  | .frsq g d a t => some (g, d, specialWord .rsq t (s.rdV a.toNat l))
  | .fsqrt g d a t => some (g, d, specialWord .sqrt t (s.rdV a.toNat l))
  | .fsinpi g d a t => some (g, d, specialWord .sinpi t (s.rdV a.toNat l))
  | .fcospi g d a t => some (g, d, specialWord .cospi t (s.rdV a.toNat l))
  | .ftanh g d a t => some (g, d, specialWord .tanh t (s.rdV a.toNat l))
  | .fsigm g d a t => some (g, d, specialWord .sigm t (s.rdV a.toNat l))
  | .fgelu g d a t => some (g, d, specialWord .gelu t (s.rdV a.toNat l))
  | .fsilu g d a t => some (g, d, specialWord .silu t (s.rdV a.toNat l))
  | .ferf g d a t => some (g, d, specialWord .erf t (s.rdV a.toNat l))
  | _ => none

/-- Element i of e bits of a value, as an integer in the signedness of U (R109). -/
def elemInt {n : Nat} (e : Nat) (u : Bool) (x : BitVec n) (i : Nat) : Int :=
  if u then ((x.extractLsb' (e * i) e).toNat : Int) else (x.extractLsb' (e * i) e).toInt

/-- The integer clamped to the values of e bits in the signedness of U (R110). -/
def clampTo (e : Nat) (u : Bool) (x : Int) : Int :=
  if u then max 0 (min x (2 ^ e - 1)) else max (-2 ^ (e - 1)) (min x (2 ^ (e - 1) - 1))

/-- Guard, destination, sources, element width and the new element at an index, before it is cut to its e bits, of an
elementwise packed instruction (R110, R113), from a and b. -/
def packedResult : Instr → Option (Pred × Reg × Reg × Reg × EWidth × (Word → Word → Nat → Int))
  | .padd g d a b e u sat => some (g, d, a, b, e, fun x y i =>
      let r := elemInt (ewBits e) u x i + elemInt (ewBits e) u y i
      if sat then clampTo (ewBits e) u r else r)
  | .psub g d a b e u sat => some (g, d, a, b, e, fun x y i =>
      let r := elemInt (ewBits e) u x i - elemInt (ewBits e) u y i
      if sat then clampTo (ewBits e) u r else r)
  | .pmul g d a b e u sat => some (g, d, a, b, e, fun x y i =>
      let r := elemInt (ewBits e) u x i * elemInt (ewBits e) u y i
      if sat then clampTo (ewBits e) u r else r)
  | .pmin g d a b e u => some (g, d, a, b, e, fun x y i => min (elemInt (ewBits e) u x i) (elemInt (ewBits e) u y i))
  | .pmax g d a b e u => some (g, d, a, b, e, fun x y i => max (elemInt (ewBits e) u x i) (elemInt (ewBits e) u y i))
  | .pcmpEq g d a b e _ => some (g, d, a, b, e, fun x y i =>
      if x.extractLsb' (ewBits e * i) (ewBits e) = y.extractLsb' (ewBits e * i) (ewBits e) then -1 else 0)
  | .pcmpLt g d a b e u => some (g, d, a, b, e, fun x y i =>
      if elemInt (ewBits e) u x i < elemInt (ewBits e) u y i then -1 else 0)
  | _ => none

/-- RNA of x / 2^c: the nearest integer, ties away from zero (R24, R112). -/
def rnaQuotient (x : Int) (c : Nat) : Int := x.sign * (((2 * x.natAbs + 2 ^ c) / 2 ^ (c + 1) : Nat) : Int)

/-- An FP32 word is a NaN (01 R16). -/
def f32Nan (w : Word) : Bool := w.extractLsb' 23 8 == 0xFF && w.extractLsb' 0 23 != 0

/-- The order of FP32 words that are not NaN, -0 below +0 (05 R120): sign and magnitude. -/
def f32Key (w : Word) : Int := if w.msb then -((w.extractLsb' 0 31).toNat : Int) - 1 else ((w.extractLsb' 0 31).toNat : Int)

/-! ## Group collectives in their plain form (04 R115, R116; 05 R135-R137) -/

/-- The source lane of a shuffle of lane l with operand c in a group of w lanes (05 R135). -/
def shuffleSource (w l c : Nat) : Instr → Option Nat
  | .shflIdx .. => some (c % w)
  | .shflUp .. => if c ≤ l then some (l - c) else none
  | .shflDn .. => if l + c < w then some (l + c) else none
  | .shflXor .. => some (l ^^^ c % w)
  | _ => none

/-- Guard, D, A and B of a shuffle in its plain form. -/
def shuffleOperands : Instr → Option (Pred × Reg × Reg × Reg)
  | .shflIdx g d a b false => some (g, d, a, b)
  | .shflUp g d a b false => some (g, d, a, b)
  | .shflDn g d a b false => some (g, d, a, b)
  | .shflXor g d a b false => some (g, d, a, b)
  | _ => none

/-- The left fold over values in ascending lanes (05 R137). -/
def foldOf (op : RedOp) : List Word → Word
  | [] => redId op
  | x :: xs => xs.foldl (redFn op) x

/-- Guard of a collective in its .G form (04 R115). -/
def gathers : Instr → Option Pred
  | .voteAll g _ _ true => some g
  | .voteAny g _ _ true => some g
  | .voteBal g _ _ true => some g
  | .voteEq g _ _ true => some g
  | .shflIdx g _ _ _ true => some g
  | .shflUp g _ _ _ true => some g
  | .shflDn g _ _ _ true => some g
  | .shflXor g _ _ _ true => some g
  | .redux g _ _ true _ _ => some g
  | .scanInc g _ _ true _ _ => some g
  | .scanExc g _ _ true _ _ => some g
  | _ => none

/-! ## Format-word instructions (01 R38, 05 R128-R134) -/

/-- The formats and modes that an instruction accepts (R128). -/
def fwAccepts (i : Instr) (fw : FormatWord) (sf df : Fmt) : Bool :=
  match i with
  | .qscale .. => isFloat sf && isQuant df && fw.smode == 0 && !fw.auto
  | .qpack .. => isFloat sf && isQuant df && (fw.smode == 0 || (fw.smode == 1 && df == .qf4))
  | .qunpk .. => isQuant sf && isFloat df && fw.smode == 2 && !fw.auto
  | .cvtFw .. => sf != .qf4 && df != .qf4 && sf != df && fw.smode == 0 && !fw.auto
  | _ => false

/-- The word is valid for the instruction, with its formats (R38 step 2). -/
def fwGood (i : Instr) (w : Word) (sf df : Fmt) : Bool :=
  decFmt (formatWord w).sfmt == some sf && decFmt (formatWord w).dfmt == some df &&
  (formatWord w).valid (fwAccepts i (formatWord w))

/-- Guard, D, A and B of a format-word instruction. -/
def fwOperands : Instr → Option (Pred × Reg × Reg × Reg)
  | .qscale g d a b => some (g, d, a, b)
  | .qpack g d a b => some (g, d, a, b)
  | .qunpk g d a b => some (g, d, a, b)
  | .cvtFw g d a b => some (g, d, a, b)
  | _ => none

/-- The word that lane l gets from QSCALE, QUNPK or CVT (R129, R132, R133). -/
def State.fwResult (s : State) (w : Word) (sf df : Fmt) (l : Nat) : Instr → Option Word
  | .qscale _ _ a _ => some (BitVec.ofNat 32 (qscaleByte (formatWord w) df (fmtVal sf (s.rdV a.toNat l))))
  | .qunpk _ _ a _ => some (BitVec.ofNat 32
      (encodeF (fmtOf df) (formatWord w).mode (formatWord w).sat
        (qunpkVal sf (s.rdV a.toNat l) (s.rdV (a.toNat + 1) l))).code)
  | .cvtFw _ _ a _ => some (BitVec.ofNat 32
      (encodeF (fmtOf df) (formatWord w).mode ((formatWord w).sat || isMx df) (fmtVal sf (s.rdV a.toNat l))).code)
  | _ => none

/-- Source element n of QPACK: of register A + n div GWIDTH in lane n mod GWIDTH, +0 for a lane that takes no part
(R130, R131). -/
def State.packSource (s : State) (g : Pred) (a : Reg) (sf : Fmt) (n : Nat) : FVal :=
  if hasLane (s.exec g) (n % s.unitNode.width) then
    fmtVal sf (s.rdV (a.toNat + n / s.unitNode.width) (n % s.unitNode.width))
  else .fin false 0 0

/-- The 64 words that QPACK writes (R130, R131). -/
def State.packWords (s : State) (g : Pred) (a : Reg) (w : Word) (sf df : Fmt) : List Word :=
  blockWords df (packBlock (formatWord w) df ((List.range 32).map (s.packSource g a sf)))
    (packBlock (formatWord w) df ((List.range 32).map fun n => s.packSource g a sf (n + 32)))

/-- The statistics records that a format-word instruction appends (R134). -/
def fwRecords : Instr → Nat
  | .qpack .. => 2
  | _ => 1

/-! ## Registers that an instruction writes -/

/-- Lane registers, uniform registers and predicate pairs that an instruction writes. -/
structure RegSet where
  d : List Nat
  u : List Nat
  p : List Nat

/-- `n` registers from D: lane registers in a lane form, else uniform ones. -/
def destOf (src : Src) (d : Reg) (n : Nat) : RegSet :=
  if src.laneForm then ⟨(List.range n).map (d.toNat + ·), [], []⟩ else ⟨[], (List.range n).map (d.toNat + ·), []⟩

/-- `n` lane registers from D. -/
def destV (d : Reg) (n : Nat) : RegSet := ⟨(List.range n).map (d.toNat + ·), [], []⟩

/-- Guard and written registers of the lane instructions that only change registers and never trap once they issue:
integer, predicate, packed and float instructions and the collectives in their plain form. -/
def regWrites (i : Instr) : Option (Pred × RegSet) :=
  match i with
  | .iaddc g w d _ src => some (g, destOf src d (if w then 3 else 2))
  | .lea g _ d _ src => some (g, destOf src d 2)
  | .moviV g d _ => some (g, destV d 1)
  | .movhiV g d _ => some (g, destV d 1)
  | .moviS g d _ => some (g, ⟨[], [d.toNat], []⟩)
  | .movhiS g d _ => some (g, ⟨[], [d.toNat], []⟩)
  | .icmp g _ k _ _ _ _ => some (g, ⟨[], [], [k.toNat]⟩)
  | .fcmp g _ k _ _ _ => some (g, ⟨[], [], [k.toNat]⟩)
  | .pand g k _ _ => some (g, ⟨[], [], [k.toNat]⟩)
  | .por g k _ _ => some (g, ⟨[], [], [k.toNat]⟩)
  | .pxor g k _ _ => some (g, ⟨[], [], [k.toNat]⟩)
  | .pnot g k _ => some (g, ⟨[], [], [k.toNat]⟩)
  | .sel g d _ _ _ => some (g, destV d 1)
  | .padd g d _ _ _ _ _ => some (g, destV d 1)
  | .psub g d _ _ _ _ _ => some (g, destV d 1)
  | .pmul g d _ _ _ _ _ => some (g, destV d 1)
  | .pmin g d _ _ _ _ => some (g, destV d 1)
  | .pmax g d _ _ _ _ => some (g, destV d 1)
  | .pdot g d _ _ _ _ => some (g, destV d 1)
  | .pcmpEq g d _ _ _ _ => some (g, destV d 1)
  | .pcmpLt g d _ _ _ _ => some (g, destV d 1)
  | .pwiden g d _ _ _ => some (g, destV d 2)
  | .pnarrow g d _ _ _ _ => some (g, destV d 1)
  | .fadd g d _ _ => some (g, destV d 1)
  | .fsub g d _ _ => some (g, destV d 1)
  | .fmul g d _ _ => some (g, destV d 1)
  | .ffma g d _ _ => some (g, destV d 1)
  | .fmin g d _ _ => some (g, destV d 1)
  | .fmax g d _ _ => some (g, destV d 1)
  | .fclass g d _ => some (g, destV d 1)
  | .pfmaF16 g d _ _ => some (g, destV d 1)
  | .pfmaBf16 g d _ _ => some (g, destV d 1)
  | .fexp2 g d _ _ => some (g, destV d 1)
  | .flog2 g d _ _ => some (g, destV d 1)
  | .frcp g d _ _ => some (g, destV d 1)
  | .frsq g d _ _ => some (g, destV d 1)
  | .fsqrt g d _ _ => some (g, destV d 1)
  | .fsinpi g d _ _ => some (g, destV d 1)
  | .fcospi g d _ _ => some (g, destV d 1)
  | .ftanh g d _ _ => some (g, destV d 1)
  | .fsigm g d _ _ => some (g, destV d 1)
  | .fgelu g d _ _ => some (g, destV d 1)
  | .fsilu g d _ _ => some (g, destV d 1)
  | .ferf g d _ _ => some (g, destV d 1)
  | .cvt g d _ dty _ _ _ => some (g, destV d (if cvtWide dty then 2 else 1))
  | .voteAll g k _ false => some (g, ⟨[], [], [k.toNat]⟩)
  | .voteAny g k _ false => some (g, ⟨[], [], [k.toNat]⟩)
  | .voteEq g k _ false => some (g, ⟨[], [], [k.toNat]⟩)
  | .voteBal g d _ false => some (g, destV d 2)
  | .shflIdx g d _ _ false => some (g, destV d 1)
  | .shflUp g d _ _ false => some (g, destV d 1)
  | .shflDn g d _ _ false => some (g, destV d 1)
  | .shflXor g d _ _ false => some (g, destV d 1)
  | .redux g d _ false k _ => some (g, ⟨[], [d.toNat], [k.toNat]⟩)
  | .scanInc g d _ false k _ => some (g, ⟨[d.toNat], [], [k.toNat]⟩)
  | .scanExc g d _ false k _ => some (g, ⟨[d.toNat], [], [k.toNat]⟩)
  | _ =>
    match intOperands i with
    | some (g, w, d, _, src) => some (g, destOf src d (if w then 2 else 1))
    | none => none

/-! ## Control of splits (03 R87-R91, 06 R138-R152) -/

/-- Guard and, for lane l, the target of a branch whose lanes choose between it and the next instruction (R138, R141,
R143). -/
def State.branchTo (s : State) (l : Nat) : Instr → Option (Pred × Dword)
  | .bra g ofs => some (g, s.pc + 4 * ofs.signExtend 64)
  | .braEj g _ ofs => some (g, s.pc + 4 * ofs.signExtend 64)
  | .call g ofs => some (g, s.pc + 4 * ofs.signExtend 64)
  | .brx g a => some (g, s.rdVPair a.toNat l)
  | .callx g a => some (g, s.rdVPair a.toNat l)
  | .ret g => some (g, s.rdVPair s.unitNode.link l)
  | _ => none

/-- The instruction takes its target from a register (R141). -/
def indirectBranch : Instr → Bool
  | .brx .. => true
  | .callx .. => true
  | .ret .. => true
  | _ => false

/-- The instruction writes the link pair (R143). -/
def writesLink : Instr → Bool
  | .call .. => true
  | .callx .. => true
  | _ => false

/-- An indirect target that R141 refuses: bits [1:0] or [63:52] not 0. -/
def targetBad (d : Dword) : Bool := d.extractLsb' 0 2 != 0 || d.extractLsb' 52 12 != 0

/-- The lanes of a split's AM lie below GWIDTH (03 R81, R87). -/
def State.amOk (s : State) (b gr k : Nat) : Prop := (s.spl b gr k).am = s.lanes

/-- The 64-bit value that memory holds at a key. -/
def State.mem64 (s : State) (a : Nat) : Dword := BitVec.ofNat 64 (s.mem.read a 8)
/-- The 32-bit value that memory holds at a key. -/
def State.mem32 (s : State) (a : Nat) : Word := BitVec.ofNat 32 (s.mem.read a 4)

/-- The lane instructions that only privileged code may execute (03 R80, 06 R152, 13 R290). -/
def privilegedOnly : Instr → Option Pred
  | .eret g => some g
  | .mfs g _ .accown => some g
  | .mts g _ .accown => some g
  | .ctxsv g _ => some g
  | .ctxld g _ => some g
  | _ => none

/-! ## Accesses of lanes (07 R155-R176) -/

/-- Guard, D, bytes, acquire flag and, for lane l, the effective address of a global load (R155, R157, R158). -/
def State.loadAddr (s : State) (l : Nat) : Instr → Option (Pred × Reg × Nat × Bool × Dword)
  | .ld g d a w r _ => some (g, d, widthBytes w, r == .sync, s.rdVPair a.toNat l)
  | .ldW g d a imm => some (g, d, 4, false, s.rdVPair a.toNat l + 4 * imm.signExtend 64)
  | .ldD g d a imm => some (g, d, 8, false, s.rdVPair a.toNat l + 8 * imm.signExtend 64)
  | .ldQ g d a imm => some (g, d, 16, false, s.rdVPair a.toNat l + 16 * imm.signExtend 64)
  | _ => none

/-- Guard, D, bytes and, for lane l, the effective address of a global store. -/
def State.storeAddr (s : State) (l : Nat) : Instr → Option (Pred × Reg × Nat × Dword)
  | .st g d a w _ _ => some (g, d, widthBytes w, s.rdVPair a.toNat l)
  | .stW g d a imm => some (g, d, 4, s.rdVPair a.toNat l + 4 * imm.signExtend 64)
  | .stD g d a imm => some (g, d, 8, s.rdVPair a.toNat l + 8 * imm.signExtend 64)
  | .stQ g d a imm => some (g, d, 16, s.rdVPair a.toNat l + 16 * imm.signExtend 64)
  | _ => none

/-- Guard, D, A, operation, bytes, flags and pair of an atomic (R168-R170). -/
def atomicOf : Instr → Option (Pred × Reg × Reg × AtomFn × Nat × AtomFlags × Option PairIx)
  | .atomAdd g d a f w => some (g, d, a, .add, if w then 8 else 4, f, none)
  | .atomMinS g d a f w => some (g, d, a, .minS, if w then 8 else 4, f, none)
  | .atomMinZ g d a f w => some (g, d, a, .minZ, if w then 8 else 4, f, none)
  | .atomMaxS g d a f w => some (g, d, a, .maxS, if w then 8 else 4, f, none)
  | .atomMaxZ g d a f w => some (g, d, a, .maxZ, if w then 8 else 4, f, none)
  | .atomAnd g d a f w => some (g, d, a, .and, if w then 8 else 4, f, none)
  | .atomOr g d a f w => some (g, d, a, .or, if w then 8 else 4, f, none)
  | .atomXor g d a f w => some (g, d, a, .xor, if w then 8 else 4, f, none)
  | .atomExch g d a f w => some (g, d, a, .exch, if w then 8 else 4, f, none)
  | .incw g d a f => some (g, d, a, .incw, 4, f, none)
  | .decw g d a f => some (g, d, a, .decw, 4, f, none)
  | .atomAddb g d a f k => some (g, d, a, .addb, 4, f, some k)
  | .atomCasW g d a f => some (g, d, a, .cas, 4, f, none)
  | .atomCasD g d a f => some (g, d, a, .cas, 8, f, none)
  | .atomCasQ g d a f => some (g, d, a, .cas, 16, f, none)
  | _ => none

/-- Guard, D, bytes, acquire flag and, for lane l, the core-local address of a core-local load. -/
def State.localLoadAddr (s : State) (l : Nat) : Instr → Option (Pred × Reg × Nat × Bool × Word)
  | .lds g d a w r => some (g, d, widthBytes w, r, s.rdV a.toNat l)
  | .ldsW g d a imm => some (g, d, 4, false, s.rdV a.toNat l + 4 * imm.signExtend 32)
  | _ => none

/-- Guard, D, bytes and, for lane l, the core-local address of a core-local store. -/
def State.localStoreAddr (s : State) (l : Nat) : Instr → Option (Pred × Reg × Nat × Word)
  | .sts g d a w _ => some (g, d, widthBytes w, s.rdV a.toNat l)
  | .stsW g d a imm => some (g, d, 4, s.rdV a.toNat l + 4 * imm.signExtend 32)
  | _ => none

/-- The checks of R156 let a global access of the lanes `ls` pass: no acquire of these lanes is in flight, the addresses
are aligned and in range, each translates to an entry `hit l` with the permission it needs, of a memory type that the
instruction may access, and no change of a page's bias holds one (18 R383). -/
def State.passes (s : State) (ls : List Nat) (n : Nat) (kind : AccKind) (wr : Bool) (forbid : MemType → Bool)
    (ea : Nat → Dword) (hit : Nat → TlbEntry × Bool) : Prop :=
  s.anyAcquiring ls = false ∧ ∀ l ∈ ls, (ea l).toNat % n = 0 ∧ (ea l).toNat < 2 ^ 52 ∧
    s.resolve s.site kind wr (ea l).toNat = .ok (hit l).1 (hit l).2 ∧ forbid (hit l).1.mt = false ∧
    s.biasHeld ((hit l).1.key (ea l).toNat) = false

/-- Nothing holds an access that the unit in focus makes in one step: no final block of a migration (18 R381), its request outside
the package, if it makes one, is completed (20 R413; 21 R425), and its channel serves no other partition first (20 R409). -/
def State.grants (s : State) (k : OutKind) (key n : Nat) : Prop :=
  s.pageHeld key = false ∧ s.reached s.site.asker k key n = .ok ∧ s.arbHeld key (s.blk s.unitBlk).part = false

/-- Every memory type. -/
def anyType : MemType → Bool := fun _ => false

/-- No word of the accesses is poisoned. -/
def State.clean (s : State) (ls : List Nat) (n : Nat) (ea : Nat → Dword) (hit : Nat → TlbEntry × Bool) : Prop :=
  ∀ l ∈ ls, s.poisoned ((hit l).1.key (ea l).toNat) n = false

/-- The unit is at the same registers, with the same uniform registers and predicates. -/
def sameRegs (s t : State) : Prop :=
  (∀ m l, t.rdV m l = s.rdV m l) ∧ (∀ m, t.rdS m = s.rdS m) ∧ ∀ p l, t.rdP p l = s.rdP p l

/-- A comparison of WAITC on bit vectors, memory first (R174). -/
def waitcHolds {n : Nat} (c : WCmp) (m v : BitVec n) : Bool :=
  match c with
  | .eq => m == v
  | .ne => m != v
  | .ltS => m.slt v
  | .ltZ => m.ult v
  | .geS => v.sle m
  | .geZ => v.ule m

/-- The unit in focus is blocked in a waiting instruction. -/
def State.blockedOn (s : State) (on : WaitOn) : Prop :=
  match s.focus with
  | .split b g k => ∃ n, (s.spl b g k).wait = .blocked on n
  | .comet c => ∃ n, (s.ctx c).wait = .blocked on n
  | _ => False

/-- The unit in focus has no deferred path on top of its stack: a wait does not rotate it (03 R94). -/
def State.staysPut (s : State) : Prop :=
  match s.focus with
  | .split b g k => s.topPath b g k = false
  | _ => True

/-- Guard and engine number of an ECMD with a command other than GO. -/
def clearForm : Instr → Option (Pred × Nat × BitVec 6)
  | .ecmdClear g n _ cmd => some (g, if n then 1 else 0, cmd)
  | .sparseIndexClear g _ cmd => some (g, 2, cmd)
  | .lodestarClear g _ cmd => some (g, 3, cmd)
  | _ => none

/-! ## Frames -/

/-- `t` differs from `s` in nothing but, in the unit in focus: the lane registers `D` of the lanes `ls`, the uniform
registers `U`, the predicate pairs `P` of those lanes, the PC and the wait; a register written is no longer poisoned. -/
def RegsOnly (ls D U P : List Nat) (s t : State) : Prop :=
  match s.focus with
  | .split b gr k =>
    t = { s with blocks := t.blocks } ∧
    (∀ b', b' ≠ b → t.blocks.find b' = s.blocks.find b') ∧
    t.blk b = { s.blk b with
      vregs := (t.blk b).vregs, groups := (t.blk b).groups, poisonRegs := (t.blk b).poisonRegs } ∧
    (∀ key, (∀ m ∈ D, ∀ l ∈ ls, key ≠ (s.blk b).regKey gr m l) → (∀ m ∈ U, key ≠ uniformKey gr m) →
      ((t.blk b).poisonRegs.contains key = (s.blk b).poisonRegs.contains key)) ∧
    (∀ key, (∀ m ∈ D, ∀ l ∈ ls, key ≠ (s.blk b).regKey gr m l) →
      (t.blk b).vregs.getD key 0 = (s.blk b).vregs.getD key 0) ∧
    (∀ g', g' ≠ gr → (t.blk b).groups.find g' = (s.blk b).groups.find g') ∧
    t.grp b gr = { s.grp b gr with
      splits := (t.grp b gr).splits, sregs := (t.grp b gr).sregs, preds := (t.grp b gr).preds } ∧
    (∀ m, m ∉ U → (t.grp b gr).sregs.getD m 0 = (s.grp b gr).sregs.getD m 0) ∧
    (∀ j l, ¬(j ∈ P ∧ l ∈ ls) →
      hasLane ((t.grp b gr).preds.getD j 0) l = hasLane ((s.grp b gr).preds.getD j 0) l) ∧
    (∀ k', k' ≠ k → (t.grp b gr).splits.find k' = (s.grp b gr).splits.find k') ∧
    t.spl b gr k = { s.spl b gr k with pc := (t.spl b gr k).pc, wait := (t.spl b gr k).wait }
  | .comet c =>
    t = { s with comets := t.comets } ∧
    (∀ c', c' ≠ c → t.comets.find c' = s.comets.find c') ∧
    t.ctx c = { s.ctx c with
      vregs := (t.ctx c).vregs, sregs := (t.ctx c).sregs, preds := (t.ctx c).preds, pc := (t.ctx c).pc,
      wait := (t.ctx c).wait, poisonRegs := (t.ctx c).poisonRegs } ∧
    (∀ key, ¬(key ∈ D ∧ ls ≠ []) → (∀ m ∈ U, key ≠ uniformKey 0 m) →
      ((t.ctx c).poisonRegs.contains key = (s.ctx c).poisonRegs.contains key)) ∧
    (∀ m, ¬(m ∈ D ∧ ls ≠ []) → (t.ctx c).vregs.getD m 0 = (s.ctx c).vregs.getD m 0) ∧
    (∀ m, m ∉ U → (t.ctx c).sregs.getD m 0 = (s.ctx c).sregs.getD m 0) ∧
    (∀ j, ¬(j ∈ P ∧ ls ≠ []) → (t.ctx c).preds.getD j false = (s.ctx c).preds.getD j false)
  | _ => t = s

/-! ## What a step adds to an instruction -/

/-- The state after a turn of a split that an instruction took from `u` to `t`: an issue, which changes the split or is of
a branch, is noted with its clock (03 R95) and counted (17 R358). -/
def issuedBy (u t : State) (b gr k : Nat) : State :=
  if t.spl b gr k = u.spl b gr k ∧ u.atBranch = false then t
  else (t.modSpl b gr k fun x => { x with lastIssue := u.now }).count (u.blk b).core 0 1

/-- The state after a comet-core cycle in which context `d` took an instruction from `u` to `t`: an issue is noted with its
number among those of its comet core (14 R300; log 114). -/
def cometIssuedBy (u t : State) (d : Nat) : State :=
  if t.comets.find d = u.comets.find d ∧ u.atBranch = false then t
  else t.modCtx d fun x => { x with lastIssue := u.nextCometIssue (d / 8) }

/-! ## Slots of a bundle (10 R222-R227, 11 R239-R263) -/

/-- A slot takes effect: a sequencer is in focus, the slot's guard is true, and its bundle has passed its checks, or, for a
slot executed alone, the slot's checks pass, nothing holds it and the scoreboard does not object. -/
def State.slotMay (s : State) (b : Nat) (i : Instr) : Prop :=
  s.focus = .seqr b ∧ s.hasSeq b = true ∧
  (∃ c g, slotGuard i = some (c, g) ∧ (s.seq b).rdG c.toNat g.toNat = true) ∧
  ((s.seq b).checked = true ∨ s.slotCheck b i = .ok ∧ s.lateCheck b i = .ok ∧ s.boardCheck b i = .ok)

/-- `t` differs from `s` in nothing but the sequencer of block `b` and the number of the next operation. -/
def SeqOnly (b : Nat) (s t : State) : Prop :=
  t = { s with blocks := t.blocks, nextId := t.nextId } ∧ (∀ x, x ≠ b → t.blocks.find x = s.blocks.find x) ∧
  t.blk b = { s.blk b with seq := (t.blk b).seq }

/-- The shift of SSHL by its count as an unsigned word (11 R241). -/
def shiftWord (x y : Word) : Word :=
  if y.toNat < 32 then x <<< y.toNat else if 2 ^ 32 - 32 < y.toNat then x >>> (2 ^ 32 - y.toNat) else 0

/-- The destination of a scalar slot, the word it writes there and its latency (11 R241, R242; 10 R224). -/
def Seq.scalarResult (q : Seq) : Instr → Option (SeqDest × Word × Nat)
  | .sadd c _ d a b => some (.xreg c.toNat d.toNat, q.rdX c.toNat a.toNat + q.rdX c.toNat b.toNat, 1)
  | .ssub c _ d a b => some (.xreg c.toNat d.toNat, q.rdX c.toNat a.toNat - q.rdX c.toNat b.toNat, 1)
  | .smul c _ d a b => some (.xreg c.toNat d.toNat, q.rdX c.toNat a.toNat * q.rdX c.toNat b.toNat, 3)
  | .sand c _ d a b => some (.xreg c.toNat d.toNat, q.rdX c.toNat a.toNat &&& q.rdX c.toNat b.toNat, 1)
  | .sor c _ d a b => some (.xreg c.toNat d.toNat, q.rdX c.toNat a.toNat ||| q.rdX c.toNat b.toNat, 1)
  | .sshl c _ d a b => some (.xreg c.toNat d.toNat, shiftWord (q.rdX c.toNat a.toNat) (q.rdX c.toNat b.toNat), 1)
  | .sli c _ d imm => some (.xreg c.toNat d.toNat, imm.signExtend 32, 1)
  | .scmp c _ k cond a b =>
    let x := q.rdX c.toNat a.toNat
    let y := q.rdX c.toNat b.toNat
    let v : Bool := match cond with
      | .eq => x == y
      | .ne => !(x == y)
      | .lt => x.slt y
      | .le => !y.slt x
      | .gt => y.slt x
      | .ge => !x.slt y
      | .ltu => x.ult y
      | .geu => !x.ult y
    if k = 0 then none else some (.gpair c.toNat k.toNat, if v then 1 else 0, 1)
  | _ => none

/-- The format, operands and shape of a TMMA (11 R249-R251). -/
def tmmaForm : Instr → Option (MmaTy × Col × Handle × BitVec 6 × BitVec 6 × Shape)
  | .tmmaBf16 c _ h a b sh => some (.f fBF16, c, h, a, b, sh)
  | .tmmaF16 c _ h a b sh => some (.f fFP16, c, h, a, b, sh)
  | .tmmaE4M3 c _ h a b sh => some (.f fE4M3, c, h, a, b, sh)
  | .tmmaE5M2 c _ h a b sh => some (.f fE5M2, c, h, a, b, sh)
  | .tmmaQf4 c _ h a b sh => some (.qf4, c, h, a, b, sh)
  | .tmmaF32 c _ h a b sh => some (.f fFP32, c, h, a, b, sh)
  | _ => none

/-- The latency of a TMMA (10 R224). -/
def tmmaLatency (ty : MmaTy) : Shape → Nat
  | .s1 => 5
  | .s2 => if ty = .f fFP32 then 8 else 6
  | .s4 => if ty = .f fFP32 then 20 else 12

/-- A word-by-word V slot: its fields, its function of the destination's word, the source's word and x(F), the word that a
port destination gives as first source (`none`: the source's word), and its latency (11 R257; 10 R224). -/
def vectorForm : Instr → Option (Col × VFields × (Word → Word → Word → Word) × Option Word × Nat)
  | .vadd c _ v => some (c, v, fun d o _ => f32add d o, some 0x80000000, 2)
  | .vmul c _ v => some (c, v, fun d o _ => f32mul d o, some 0x3F800000, 2)
  | .vfma c _ v => some (c, v, fun d o x => f32fma o x d, some 0x80000000, 4)
  | .vmax c _ v => some (c, v, fun d o _ => f32max d o, none, 2)
  | .vmin c _ v => some (c, v, fun d o _ => f32min d o, none, 2)
  | .vrelu c _ v => some (c, v, fun _ o _ =>
      if 0x7F800000 < (o &&& 0x7FFFFFFF).toNat then 0x7FC00000 else if o.msb then 0 else o, some 0, 2)
  | .vsel c _ v => some (c, v, fun _ o _ => o, some 0, 2)
  | .vscl c _ v => some (c, v, fun _ o x => vsclWord o x, some 0, 4)
  | _ => none

/-- The word n of the first source of a V slot: the destination tile's, or what stands for a port's. -/
def State.firstWord (s : State) (b c : Nat) (v : VFields) (ident : Option Word) (n : Nat) : Word :=
  if isPort v.od then ident.getD ((s.vWords b c v.os).getD n (0, false)).1 else s.handleWord b v.od.toNat n

/-! ## Filter words (17 R364-R367) -/

/-- The register that a filter word writes and the value, from the run and the Meridian's number (17 R365). -/
def Run.result (r : Run) (m : Nat) : Instr → Option (BitVec 4 × Dword)
  | .fltLdf a k => some (a, BitVec.ofNat 64 (match k.toNat with
      | 0 => r.ev.time
      | 1 => r.ev.type
      | 2 => r.ev.part
      | 3 => r.ev.ctx
      | 4 => r.ev.src
      | 5 => r.ev.sub
      | 6 => r.ev.ea
      | 7 => r.ev.eb
      | _ => m))
  | .fltLdi a k => some (a, k.signExtend 64)
  | .fltMovk a k => some (a, r.rd a * 128 + k.setWidth 64)
  | .fltAddi a k => some (a, r.rd a + k.signExtend 64)
  | .fltShri a k => some (a, r.rd a >>> k.toNat)
  | .fltMov a b => some (a, r.rd b)
  | .fltAdd a b => some (a, r.rd a + r.rd b)
  | .fltSub a b => some (a, r.rd a - r.rd b)
  | .fltAnd a b => some (a, r.rd a &&& r.rd b)
  | .fltOr a b => some (a, r.rd a ||| r.rd b)
  | .fltShl a b => some (a, r.rd a <<< (r.rd b).toNat)
  | .fltShr a b => some (a, r.rd a >>> (r.rd b).toNat)
  | .fltCeq a b => some (a, if r.rd a = r.rd b then 1 else 0)
  | .fltCltu a b => some (a, if (r.rd a).toNat < (r.rd b).toNat then 1 else 0)
  | .fltClts a b => some (a, if (r.rd a).toInt < (r.rd b).toInt then 1 else 0)
  | _ => none

/-- The words that a filter branch goes on (17 R365). -/
def Run.jump (r : Run) : Instr → Option Nat
  | .fltBz a k => some (if r.rd a = 0 then k.toNat else 1)
  | .fltBnz a k => some (if r.rd a = 0 then 1 else k.toNat)
  | .fltJmp o => some o.toNat
  | _ => none

/-- The storage of an object of an attachment. -/
def Merid.stored (x : Merid) (slot o : Nat) : Table Nat :=
  match x.slots.find slot with
  | some a => a.store.getD o []
  | none => []

/-- `t` differs from `s` in nothing but Meridian `m`. -/
def MeridOnly (m : Nat) (s t : State) : Prop :=
  t = { s with merids := t.merids } ∧ ∀ k, k ≠ m → t.merids.find k = s.merids.find k

/-- A saturating sum of 32 bits. -/
def sum32 (a b : Nat) : Nat := min (a + b) (2 ^ 32 - 1)

/-! ## Work: objects, blocks, commands (02 R72, 15 R311-R333) -/

/-- What the loader makes of an object placed at some addresses: the code of its checks, the nodes it registers and the parts
that it writes, each at its address (02 R72, R430; 15 R311). -/
def loadPlan (obj : List Byte) (text seq data hdr : Nat) : Option (Nat × List Node × List (Nat × List Byte)) :=
  (sectionsOf obj).map fun ss =>
    let o := objOf obj ss
    let a6 := hdr + 256 * o.headers.length
    let a7 := roundUp (a6 + o.maps.length) 64
    let a5 := roundUp (a7 + o.rings.length) 64
    let ms := (tileMapsOf o.maps).getD []
    let nodes := (List.zip (List.range o.headers.length) o.headers).map fun e =>
      nodeAt e.2 (hdr + 256 * e.1) text seq o.width ((mapFor ms e.1).elim 0 fun m => a6 + m.at_)
        (if o.rings.isEmpty then 0 else a7) (if o.lives.isEmpty then 0 else a5)
    (objCode o (sectionOf ss 1) nodes (tileMapsOf o.maps), nodes,
     [(text, o.text), (seq, o.seq), (data, o.data), (a6, o.maps), (a7, o.rings), (a5, o.lives)] ++
       (List.zip o.headers nodes).map fun e => (e.2.addr, fillHeader e.1 e.2))

/-- An answer was added for a function. -/
def State.answered (s t : State) (fn status : Nat) (vals : List Nat) : Prop :=
  t.answers = s.answers ++ [{ fn := fn, status := status, vals := vals }]

/-- Nothing of a block is left: no unit, no access in flight, no monitor. -/
def State.gone (t : State) (b : Nat) : Prop :=
  t.blocks.find b = none ∧ (∀ e ∈ t.ops, e.2.blk ≠ b) ∧ (∀ e ∈ t.stores, e.2.blk ≠ b) ∧ (∀ e ∈ t.engines, e.2.blk ≠ b) ∧
  (∀ e ∈ t.comets, e.2.blk ≠ b) ∧ ∀ e ∈ t.monitors, e.2.blk ≠ b

/-- The block that a queue's batch of `q.pending` records forms at number `b` (15 R317, R323): it waits, and the queue goes
on. Beside the queue's words memory changes in the leaves of the tables that were read (16 R345). -/
def formedBlock (s t : State) (q : Queue) (b : Nat) : Prop :=
  ∃ (x : Block) (q' : Queue), t.blocks.find b = some x ∧ x.phase = .waiting ∧ x.node = q.node ∧ x.queue = q.key ∧
    x.records = (List.range q.pending).map (q.cons + ·) ∧ x.seqNo = q.launched ∧ x.ctx = q.ctx ∧ x.vf = q.vf ∧
    x.coords = coordsOf q.node ((s.recordBytes q q.cons).getD []) q.launched ∧ x.gang = none ∧
    t.queues.find q.key = some q' ∧ q'.cons = q.cons + q.pending ∧ q'.pending = 0 ∧ q'.launched = q.launched + 1 ∧
    t.mem64 (q.key + 24) = BitVec.ofNat 64 (q.cons + q.pending) ∧ t.mem64 (q.key + 64) = BitVec.ofNat 64 (q.launched + 1) ∧
    ∀ a, (a < q.key + 24 ∨ q.key + 32 ≤ a) → (a < q.key + 64 ∨ q.key + 72 ≤ a) →
      t.mem.get a = ((s.markTable q.vf q.node.tmap 1).markTable q.vf q.node.rings 4).mem.get a

/-- A flit that joins those that wait at a port: it has no number yet (21 R421). -/
def waitingFlit (chan target src : Nat) (x : FlitLoad) : FabFlit :=
  { seq := 0, chan := chan, target := target, src := src, ack := 0, load := x }

/-- The effect of an access from outside the package at the homes `ks` of its bytes (15 R315, 21 R425): the value that it answers,
the bytes there after it, and every other byte as before. Beside them it is seen in the home slices and the channels' charges. -/
def outsideEffect (s t : State) (op : HostOp) (ks : List Nat) (v : Nat) : Prop :=
  (∀ a, a ∉ ks → t.mem.get a = s.mem.get a) ∧ t.blocks = s.blocks ∧ t.comets = s.comets ∧
  match op with
  | .load => v = leVal (ks.map s.mem.get) ∧ t = { s with
      slices := t.slices, charges := t.charges, served := t.served, answers := t.answers, fports := t.fports, freeCtr := t.freeCtr }
  | .store w => v = 0 ∧ leVal (ks.map t.mem.get) = w.toNat % 2 ^ (8 * ks.length)
  | .atom f a b => v = leVal (ks.map s.mem.get) ∧
      leVal (ks.map t.mem.get) = atomNew f ks.length v [a.toNat, b.toNat] % 2 ^ (8 * ks.length)

end Sys2Proof.Machine
end

