-- ==== Sys2Proof/Certificates/Slice0/Obligations.lean ====
section
/-!
DEFINITION. Certificates/Slice0/Obligations.lean: the statements for the provers. Each docstring names the rule of spec/
that the statement formalises, and the log entry where it rests on a choice of the model.
-/

set_option linter.constructorNameAsVariable false

open Sys2Proof Sys2Proof.Machine

/-- 02 R42-R66, 17 R364, R365: words that the spec spells out decode to the instructions they stand for. -/
def Obligations.DecodeWords : Prop :=
  decodeLane 0x01030424 0 = some (.iadd 4 false 3 1 (.vs 2)) ∧
  decodeLane 0x3805000F 0x3F800000 = some (.mov 0 false 5 (.lit 0x3F800000)) ∧
  decodeLane 0x0C042027 0 = some (.imac 0 true 4 8 (.vs 2)) ∧
  decodeLane 0x48120420 0 = some (.icmp 0 .lt 2 1 (.vv 2) false false) ∧
  decodeLane 0x54061C95 0 = some (.padd 0 6 7 9 .e8 false true) ∧
  decodeLane 0x80030820 0 = some (.fexp2 0 3 2 .bf16) ∧
  decodeLane 0x84010880 0 = some (.cvt 0 1 2 .bf16 .f32 false false) ∧
  decodeLane 0x8C0A1402 0 = some (.voteBal 0 10 5 false) ∧
  decodeLane 0xC0001844 0 = some (.emit 0 6 4) ∧
  decodeLane 0xC4001CA1 0 = some (.mts 0 7 .jto) ∧
  decodeSlot 0 .s 0x04021100 = some (.sadd 0 0 1 1 2) ∧
  decodeSlot 0 .m 0x04000108 = some (.tld 0 0 0 0 4) ∧
  decodeSlot 0 .t 0x04040006 = some (.tmmaBf16 0 0 16 0 1 .s4) ∧
  decodeSlot 0 .s 0x280BFFF6 = some (.sloop 0 0 5 0x1FFF6) ∧
  decodeFilter 0x0886 = some (.fltLdf 1 6) ∧
  decodeFilter 0x9880 = some (.fltHist 1 0) ∧
  decodeFilter 0xB088 = some (.fltTrig 1 1)

/-- 02 R41-R66, 17 R364: decoding what is encoded gives the instruction back, for every well-formed instruction: the word
and the literal word of a lane instruction, the slot word of a slot instruction in its slot, the word of a filter
instruction. -/
def Obligations.DecodeOfEncode : Prop :=
  ∀ i : Instr, i.wf = true →
    (∀ c, laneCode i = some c → decodeLane c.fields.word (c.lit.getD 0) = some i) ∧
    (∀ p c f, slotCode i = some (p, c, f) → decodeSlot c p f.word = some i) ∧
    (∀ w, encodeFilter i = some w → decodeFilter w = some i)

/-- 02 R44, R46, 17 R364: a lane word or a filter word that decodes is the encoding of the well-formed instruction that it
decodes to, so no bit of it is dropped and a nonzero reserved field decodes to nothing; a lane word of a major that R48
marks unused decodes to nothing. -/
def Obligations.EncodeOfDecode : Prop :=
  (∀ (w lit : Word) (i : Instr), decodeLane w lit = some i → i.wf = true ∧
    ∃ c, laneCode i = some c ∧ c.fields.word = w ∧ ∀ x, c.lit = some x → x = lit) ∧
  (∀ (w : BitVec 16) (i : Instr), decodeFilter w = some i → i.wf = true ∧ encodeFilter i = some w) ∧
  (∀ w lit : Word, 0x3C ≤ (w.extractLsb' 26 6).toNat → decodeLane w lit = none)

/-- 03 R78, 09 R198, 10 R221, 13 R271, R279, 18 R377, 20 R404-R408, R415, R418, 21 R423, 17 R368, R369: what reset leaves. -/
def Obligations.ResetState : Prop :=
  State.reset.now = 0 ∧ State.reset.blocks = [] ∧ State.reset.comets = [] ∧ State.reset.queues = [] ∧
  State.reset.engines = [] ∧ State.reset.bootst = 0 ∧ State.reset.hostcap = false ∧ State.reset.fabid = 0 ∧
  (∀ d v, State.reset.ways d v = 0xFFFF) ∧
  (∀ c, State.reset.facetCount c = 1 ∧ State.reset.facetWidth c = 4 ∧ State.reset.cmerr.getD c false = false) ∧
  (∀ f, (State.reset.facet f).fown = 31 ∧ (State.reset.facet f).tvec = 0 ∧ (State.reset.facet f).accV = false ∧
    (State.reset.facet f).fctl = 0x400000 ∧ (State.reset.facet f).drops = 0 ∧ (State.reset.facet f).stats = []) ∧
  (∀ p, (State.reset.part p).ptag = 0 ∧ (∀ d, (State.reset.part p).floor.getD d 0 = 0) ∧
    (State.reset.part p).comet = 64 ∧ (State.reset.part p).enbud = 0 ∧ (State.reset.part p).pqbase = 0 ∧
    (State.reset.part p).pqcap = 0 ∧ (State.reset.part p).plim = 14000 ∧ (State.reset.part p).slice = 7000000 ∧
    (State.reset.part p).pqhead = 0 ∧ (State.reset.part p).pqtail = 0) ∧
  (∀ m, (State.reset.merid m).en = true ∧ (State.reset.merid m).frozen = false ∧ (State.reset.merid m).wptr = 0 ∧
    ∀ p, (State.reset.merid m).budget p = 2048)

/-- The memory of the machine after reset is in its canonical form: addresses rising, no listed byte that an unlisted address reads
as (the form is the model's own, log 4). -/
def Obligations.ResetMemoryCanonical : Prop :=
  State.reset.mem.wf = true

/-- Every step keeps the canonical form of the memory: addresses rising, no listed byte that an unlisted address reads as
(the form is the model's own, log 4). -/
def Obligations.StepKeepsMemoryCanonical : Prop :=
  ∀ s t : State, s.mem.wf = true → step s = .next t → t.mem.wf = true

/-- 02 R41, R42, R46: a step whose turn is a ready split's runs the instruction that the word at its PC decodes to, with the
word that follows as the literal of a format X instruction; a word that decodes to nothing raises the illegal-instruction
trap, 0x00. Beside that the step notes the clock and the count of an issue (one that changed the split, or of a branch: the
model's, logs 111, 127), and takes the focus away. The word is `w`, the literal word `x`.

03 R94, 09 R202, R203, 15 R321: a turn of a split that waits, where its instruction looks again by itself, runs the instruction
at its PC again, and is no issue of another (log 136); an EMIT that has claimed its slots looks whether every stamp is written; a
waiting TAKE completes when its conditions hold, or else traps when it has waited the take limit. -/
def Obligations.StepRunsLaneInstruction : Prop :=
  (∀ (s u v : State) (b gr k : Nat) (ts : List Turn) (w : Word), s.agenda = .lane b gr k :: ts → s.halted = false →
     u = { s with agenda := ts, focus := .split b gr k } → u.splitReady b gr k = true →
     u.fetchWord u.site u.pc.toNat = .ok [w] → v = u.useFetch u.site u.pc.toNat →
     (∀ i t, decodeLane w 0 = some i → i.laneSize = 4 → Sys2Proof.Machine.exec i v = .next t →
       step s = .next { issuedBy u t b gr k with focus := .idle }) ∧
     (∀ i j x t, decodeLane w 0 = some i → i.laneSize ≠ 4 → v.fetchWord v.site (v.pc.toNat + 4) = .ok [x] →
       decodeLane w x = some j → Sys2Proof.Machine.exec j (v.useFetch v.site (v.pc.toNat + 4)) = .next t →
       step s = .next { issuedBy u t b gr k with focus := .idle }) ∧
     (decodeLane w 0 = none →
       step s = .next { issuedBy u (v.takeTrap 0x00) b gr k with focus := .idle })) ∧
  (∀ (s u v : State) (b gr k : Nat) (ts : List Turn) (w : Word), s.agenda = .lane b gr k :: ts → s.halted = false →
     u = { s with agenda := ts, focus := .split b gr k } → u.splitReady b gr k = false → u.splitRetries b gr k = true →
     ((u.spl b gr k).taking = none → (∀ n c, (u.spl b gr k).wait ≠ .blocked (.stamps n) c) →
       u.fetchWord u.site u.pc.toNat = .ok [w] → v = u.useFetch u.site u.pc.toNat →
       ∀ i t, decodeLane w 0 = some i → i.laneSize = 4 → Sys2Proof.Machine.exec i v = .next t →
         step s = .next { t with focus := .idle }) ∧
     (∀ n c, (u.spl b gr k).wait = .blocked (.stamps n) c →
       ((∃ e ∈ u.stores, e.2.inst = n ∧ e.2.performed = false) → step s = .next { u with focus := .idle }) ∧
       ((∀ e ∈ u.stores, e.2.inst = n → e.2.performed = true) → ∃ t, step s = .next t ∧
         (t.spl b gr k).pc = (u.spl b gr k).pc + 4 ∧ (t.spl b gr k).wait = .ready ∧ t.mem = u.mem ∧ t.stores = u.stores)) ∧
     ((u.spl b gr k).taking.isSome = true → ∀ t t', Sys2Proof.Machine.exec (.takeCompletes b (.split gr k)) u = .next t →
       Sys2Proof.Machine.exec (.takeLimit b (.split gr k)) t = .next t' → step s = .next { t' with focus := .idle }))

/-- 10 R222, 17 R362, 20 R418, R419: the other turns. A turn of an event runs it; a turn of a filter program runs the word at its
PC; a turn of a sequencer whose bundle passes every check issues the slots whose guard is true; a parity error on what serves a
ready split's instruction traps it, 0xA6. A part halted by a failed boot takes only clocks and cold resets (log 115).

06 R146, 14 R300: a turn of a comet context that can issue is a comet-core cycle: the instruction at the PC of the context
that the cycle falls to runs there; the context itself, or, where it has just issued YIELD, the ready one of its core that issued
least recently (the cycles and their numbered issues are the model's, log 114). A turn of a context that waits looks again at its
instruction, beside the cycles (log 113).

15 R328: with no turn left in its agenda the machine takes a clock, which raises CLK by 1. -/
def Obligations.StepRunsOtherTurns : Prop :=
  (∀ (s u : State) (x : Turn) (ts : List Turn), s.agenda = x :: ts → u = { s with agenda := ts } →
     (∀ i t, x = .event i → s.halted = false → Sys2Proof.Machine.exec i u = .next t →
       step s = .next { t with focus := .idle }) ∧
     (∀ m r a i t, x = .filter m → s.halted = false → (s.merid m).en = true → (s.merid m).run = some r →
       (s.merid m).slots.find r.slot = some a → decodeFilter (BitVec.ofNat 16 (a.words.getD r.pc 0)) = some i →
       Sys2Proof.Machine.exec i { u with focus := .filter m } = .next t → step s = .next { t with focus := .idle }) ∧
     (∀ b v y d js, x = .seqr b → s.halted = false → v = { u with focus := .seqr b } → v.hasSeq b = true →
       (v.seq b).mayIssue v.now = true → (v.blk b).reserving = [] → v.fetchBundle b = .ok d →
       (d.head.safe = false ∨ (v.blk b).preempt = none) → js = (v.seq b).active d → (v.seq b).checked = false →
       y = ((v.keepFetch v.site (v.seq b).pc.toNat).modSeq b fun q =>
         { q with since := some (q.since.getD v.now), reserved := if q.since.isSome then q.reserved
           else (v.keepFetch v.site (v.seq b).pc.toNat).tileRanges b js }) →
       ((v.seq b).since.isSome = true ∨ (v.keepFetch v.site (v.seq b).pc.toNat).candidate b js = none) →
       (∀ i ∈ js, waitingCol i = none) → y.atIssue b js = none → y.bundlePend b js = false →
       (y.schk b = false ∨ y.boardStop b js = none) →
       step s = .next { y.issueBundle b d js with focus := .idle }) ∧
     (∀ b gr k v, x = .parity (.split b gr k) → s.halted = false → s.splitReady b gr k = true →
       v = { u with focus := .split b gr k } → v.trapHeld b gr k 0xA6 = false →
       step s = .next { v.takeTrap 0xA6 with focus := .idle }) ∧
     (s.halted = true → x ≠ .tick → x ≠ .event .coldReset → step s = .next { u with focus := .idle })) ∧
  (∀ (s u : State) (c : Nat) (ts : List Turn), s.agenda = .comet c :: ts → s.halted = false →
     u = { s with agenda := ts } → u.cometReady c = true →
     (∀ (v y : State) (d : Nat) (w : Word), (u.ctx c).wait = .ready → u.cycleOf c = some d →
       v = { u.clearCometYields (c / 8) with focus := .comet d } → v.fetchWord v.site v.pc.toNat = .ok [w] →
       y = v.useFetch v.site v.pc.toNat →
       (∀ i t, decodeLane w 0 = some i → i.laneSize = 4 → Sys2Proof.Machine.exec i y = .next t →
         step s = .next { cometIssuedBy v t d with focus := .idle }) ∧
       (∀ i j x t, decodeLane w 0 = some i → i.laneSize ≠ 4 → y.fetchWord y.site (y.pc.toNat + 4) = .ok [x] →
         decodeLane w x = some j → Sys2Proof.Machine.exec j (y.useFetch y.site (y.pc.toNat + 4)) = .next t →
         step s = .next { cometIssuedBy v t d with focus := .idle })) ∧
     (∀ (v y : State) (w : Word) (i : Instr) (t : State), (u.ctx c).wait ≠ .ready →
       (∀ n k, (u.ctx c).wait ≠ .blocked (.stamps n) k) → v = { u with focus := .comet c } →
       v.fetchWord v.site v.pc.toNat = .ok [w] → y = v.useFetch v.site v.pc.toNat → decodeLane w 0 = some i →
       i.laneSize = 4 → Sys2Proof.Machine.exec i y = .next t → step s = .next { t with focus := .idle }) ∧
     (∀ n k, (u.ctx c).wait = .blocked (.stamps n) k →
       ((∃ e ∈ u.stores, e.2.inst = n ∧ e.2.performed = false) → step s = .next { u with focus := .idle }) ∧
       ((∀ e ∈ u.stores, e.2.inst = n → e.2.performed = true) → ∃ t, step s = .next t ∧
         (t.ctx c).pc = (u.ctx c).pc + 4 ∧ (t.ctx c).wait = .ready ∧ t.mem = u.mem ∧ t.stores = u.stores))) ∧
  (∀ s : State, s.agenda = [] → ∃ t, step s = .next t ∧ t.now = s.now + 1)

/-- 02 R46, 09 R200, 14 R301, R302: the first failing check decides the trap, for every lane instruction and whatever the
guards: illegal encoding 0x00, forbidden on a comet core 0x06, register budget 0x01, tile ownership 0x40; then a pending
write of a register that the instruction names holds it (04 R96); then a poisoned register word that some executing lane reads
traps those lanes, 0x3C (20 R419). -/
def Obligations.IssueChecks : Prop :=
  ∀ (i : Instr) (g : Pred), laneGuard i = some g → ∀ s : State, s.issuing = true →
    (illegalFor s.unitNode i = true → Sys2Proof.Machine.exec i s = .next (s.takeTrap 0x00)) ∧
    (illegalFor s.unitNode i = false → s.forbids i = true → Sys2Proof.Machine.exec i s = .next (s.takeTrap 0x06)) ∧
    (illegalFor s.unitNode i = false → s.forbids i = false → s.budgetOk (instrUses s.unitNode i) = false →
      Sys2Proof.Machine.exec i s = .next (s.takeTrap 0x01)) ∧
    (illegalFor s.unitNode i = false → s.forbids i = false → s.budgetOk (instrUses s.unitNode i) = true →
      s.ownOk (instrUses s.unitNode i) = false → Sys2Proof.Machine.exec i s = .next (s.takeTrap 0x40)) ∧
    (illegalFor s.unitNode i = false → s.forbids i = false → s.budgetOk (instrUses s.unitNode i) = true →
      s.ownOk (instrUses s.unitNode i) = true → s.interlocked g (instrUses s.unitNode i) = true →
      Sys2Proof.Machine.exec i s = .next s) ∧
    (illegalFor s.unitNode i = false → s.forbids i = false → s.budgetOk (instrUses s.unitNode i) = true →
      s.ownOk (instrUses s.unitNode i) = true → s.interlocked g (instrUses s.unitNode i) = false →
      s.readsBad i g (instrUses s.unitNode i) ≠ 0 →
      Sys2Proof.Machine.exec i s = .next (s.trapWith 0x3C (s.readsBad i g (instrUses s.unitNode i)) 0))

/-- 04 R99, R102, R103, R104: every integer major but IADDC and LEA completes, and writes its result, as arithmetic on
n-bit values, in every executing lane, or once to a uniform register when some lane executes.

04 R100: IADDC adds A, the last source and bit 0 of D; the sum goes to D and the carry out to the register after the
sum.

04 R101, R105: LEA adds a 64-bit index, or a sign-extended 32-bit one, to the pair A; MOVI and MOVHI write a uniform
register when some lane executes. -/
def Obligations.IntegerResults : Prop :=
  (∀ (i : Instr) (g : Pred) (w : Bool) (d a : Reg) (src : Src), intOperands i = some (g, w, d, a, src) →
     ∀ s : State, s.mayIssue i g = true → ∃ t : State,
       Sys2Proof.Machine.exec i s = .next t ∧ t.pc = s.after i ∧
       (src.laneForm = true → ∀ l ∈ s.execs g,
         (w = false → ∀ f, intResult 32 i = some f →
           t.rdV d.toNat l = f (s.rdV a.toNat l) (s.last32 src l) (s.rdV d.toNat l)) ∧
         (w = true → ∀ f, intResult 64 i = some f →
           t.rdVPair d.toNat l = f (s.rdVPair a.toNat l) (s.last64Of i src l) (s.rdVPair d.toNat l))) ∧
       (src.laneForm = false → s.exec g ≠ 0 →
         (w = false → ∀ f, intResult 32 i = some f →
           t.rdS d.toNat = f (s.rdS a.toNat) (s.last32 src 0) (s.rdS d.toNat)) ∧
         (w = true → ∀ f, intResult 64 i = some f →
           t.rdSPair d.toNat = f (s.rdSPair a.toNat) (s.last64Of i src 0) (s.rdSPair d.toNat)))) ∧
  (∀ (g : Pred) (w : Bool) (d a : Reg) (src : Src) (s : State), s.mayIssue (.iaddc g w d a src) g = true → ∃ t : State,
     Sys2Proof.Machine.exec (.iaddc g w d a src) s = .next t ∧ t.pc = s.after (.iaddc g w d a src) ∧
     (src.laneForm = true → ∀ l ∈ s.execs g,
       (w = false →
         t.rdV d.toNat l = s.rdV a.toNat l + s.last32 src l + (s.rdV d.toNat l &&& 1) ∧
         t.rdV (d.toNat + 1) l =
           if 2 ^ 32 ≤ (s.rdV a.toNat l).toNat + (s.last32 src l).toNat + (s.rdV d.toNat l).toNat % 2 then 1 else 0) ∧
       (w = true →
         t.rdVPair d.toNat l = s.rdVPair a.toNat l + s.last64 true src l + (s.rdVPair d.toNat l &&& 1) ∧
         t.rdV (d.toNat + 2) l =
           if 2 ^ 64 ≤ (s.rdVPair a.toNat l).toNat + (s.last64 true src l).toNat + (s.rdVPair d.toNat l).toNat % 2 then 1
           else 0)) ∧
     (src.laneForm = false → s.exec g ≠ 0 →
       (w = false →
         t.rdS d.toNat = s.rdS a.toNat + s.last32 src 0 + (s.rdS d.toNat &&& 1) ∧
         t.rdS (d.toNat + 1) =
           if 2 ^ 32 ≤ (s.rdS a.toNat).toNat + (s.last32 src 0).toNat + (s.rdS d.toNat).toNat % 2 then 1 else 0) ∧
       (w = true →
         t.rdSPair d.toNat = s.rdSPair a.toNat + s.last64 true src 0 + (s.rdSPair d.toNat &&& 1) ∧
         t.rdS (d.toNat + 2) =
           if 2 ^ 64 ≤ (s.rdSPair a.toNat).toNat + (s.last64 true src 0).toNat + (s.rdSPair d.toNat).toNat % 2 then 1
           else 0))) ∧
  ((∀ (g : Pred) (w : Bool) (d a : Reg) (src : Src) (s : State), s.mayIssue (.lea g w d a src) g = true → ∃ t : State,
     Sys2Proof.Machine.exec (.lea g w d a src) s = .next t ∧ t.pc = s.after (.lea g w d a src) ∧
     (src.laneForm = true → ∀ l ∈ s.execs g,
       t.rdVPair d.toNat l =
         s.rdVPair a.toNat l + if w then s.last64 true src l else (s.last32 src l).signExtend 64) ∧
     (src.laneForm = false → s.exec g ≠ 0 →
       t.rdSPair d.toNat =
         s.rdSPair a.toNat + if w then s.last64 true src 0 else (s.last32 src 0).signExtend 64)) ∧
   (∀ (g : Pred) (d : Reg) (imm : BitVec 16) (s : State), s.mayIssue (.moviS g d imm) g = true → ∃ t : State,
     Sys2Proof.Machine.exec (.moviS g d imm) s = .next t ∧ t.pc = s.after (.moviS g d imm) ∧
     t.rdS d.toNat = if s.exec g = 0 then s.rdS d.toNat else imm.signExtend 32) ∧
   (∀ (g : Pred) (d : Reg) (imm : BitVec 16) (s : State), s.mayIssue (.movhiS g d imm) g = true → ∃ t : State,
     Sys2Proof.Machine.exec (.movhiS g d imm) s = .next t ∧ t.pc = s.after (.movhiS g d imm) ∧
     t.rdS d.toNat = if s.exec g = 0 then s.rdS d.toNat else imm ++ (s.rdS d.toNat).setWidth 16))

/-- 04 R106, R108, 05 R123: ICMP, FCMP, PAND, POR, PXOR and PNOT complete and write pair k of every executing lane from
the values before the instruction; a write to pair 0 is discarded, so that p0 stays true.

04 R116: VOTE in its plain form writes, in every executing lane, whether all or some executing lanes have the
predicate, whether they agree, or the mask of those that have it; with no executing lane it writes nothing. -/
def Obligations.PredicateAndVoteResults : Prop :=
  (∀ (i : Instr) (g : Pred) (s : State) (k : PairIx) (v : Bool), s.pairResult 0 i = some (g, k, v) →
     s.mayIssue i g = true → ∃ t : State,
       Sys2Proof.Machine.exec i s = .next t ∧ t.pc = s.after i ∧
       ∀ l ∈ s.execs g, ∀ v, s.pairResult l i = some (g, k, v) → t.pairBit k.toNat l = (k == 0 || v)) ∧
  (∀ (g p : Pred) (s : State),
     (∀ k : PairIx, s.mayIssue (.voteAll g k p false) g = true → ∃ t : State,
       Sys2Proof.Machine.exec (.voteAll g k p false) s = .next t ∧ t.pc = s.pc + 4 ∧
       ∀ l ∈ s.execs g, t.pairBit k.toNat l = (k == 0 || decide (∀ m ∈ s.execs g, s.rdP p m = true))) ∧
     (∀ k : PairIx, s.mayIssue (.voteAny g k p false) g = true → ∃ t : State,
       Sys2Proof.Machine.exec (.voteAny g k p false) s = .next t ∧ t.pc = s.pc + 4 ∧
       ∀ l ∈ s.execs g, t.pairBit k.toNat l = (k == 0 || decide (∃ m ∈ s.execs g, s.rdP p m = true))) ∧
     (∀ k : PairIx, s.mayIssue (.voteEq g k p false) g = true → ∃ t : State,
       Sys2Proof.Machine.exec (.voteEq g k p false) s = .next t ∧ t.pc = s.pc + 4 ∧
       ∀ l ∈ s.execs g,
         t.pairBit k.toNat l = (k == 0 || decide (∀ m ∈ s.execs g, ∀ n ∈ s.execs g, s.rdP p m = s.rdP p n))) ∧
     (∀ d : Reg, s.mayIssue (.voteBal g d p false) g = true → ∃ t : State,
       Sys2Proof.Machine.exec (.voteBal g d p false) s = .next t ∧ t.pc = s.pc + 4 ∧
       ∀ l ∈ s.execs g, ∀ m, hasLane (t.rdVPair d.toNat l) m = (hasLane (s.exec g) m && s.rdP p m)))

/-- 04 R105, R107, 05 R118, R122, R124: MOVI, MOVHI, SEL, the FP32 instructions, the packed fused multiply-adds and the
special functions complete and write one lane register of every executing lane from the values before the
instruction.

04 R110, R113: element i of an elementwise packed instruction is computed from the elements i of A and B, and elements
never carry into one another.

04 R111, R112: PDOT adds the sum of the element products to D modulo 2^32; PWIDEN extends each element; PNARROW
divides each element by 2^c, rounds to nearest with ties away from zero, and clamps. -/
def Obligations.WordAndPackedResults : Prop :=
  (∀ (i : Instr) (g : Pred) (s : State) (d : Reg) (v : Word), s.wordResult 0 i = some (g, d, v) →
     s.mayIssue i g = true → ∃ t : State,
       Sys2Proof.Machine.exec i s = .next t ∧ t.pc = s.after i ∧
       ∀ l ∈ s.execs g, ∀ v, s.wordResult l i = some (g, d, v) → t.rdV d.toNat l = v) ∧
  (∀ (i : Instr) (g : Pred) (d a b : Reg) (e : EWidth) (f : Word → Word → Nat → Int),
     packedResult i = some (g, d, a, b, e, f) → ∀ s : State, s.mayIssue i g = true → ∃ t : State,
       Sys2Proof.Machine.exec i s = .next t ∧ t.pc = s.after i ∧
       ∀ l ∈ s.execs g, ∀ j < 32 / ewBits e,
         (t.rdV d.toNat l).extractLsb' (ewBits e * j) (ewBits e) =
           BitVec.ofInt (ewBits e) (f (s.rdV a.toNat l) (s.rdV b.toNat l) j)) ∧
  ((∀ (g : Pred) (d a b : Reg) (e : EWidth) (u : Bool) (s : State), s.mayIssue (.pdot g d a b e u) g = true →
     ∃ t : State, Sys2Proof.Machine.exec (.pdot g d a b e u) s = .next t ∧ t.pc = s.pc + 4 ∧
       ∀ l ∈ s.execs g, t.rdV d.toNat l =
         s.rdV d.toNat l + BitVec.ofInt 32 (((List.range (32 / ewBits e)).map fun j =>
           elemInt (ewBits e) u (s.rdV a.toNat l) j * elemInt (ewBits e) u (s.rdV b.toNat l) j).sum)) ∧
   (∀ (g : Pred) (d b : Reg) (e : EWidth) (u : Bool) (s : State), s.mayIssue (.pwiden g d b e u) g = true →
     ∃ t : State, Sys2Proof.Machine.exec (.pwiden g d b e u) s = .next t ∧ t.pc = s.pc + 4 ∧
       ∀ l ∈ s.execs g, ∀ j < 32 / ewBits e,
         (t.rdVPair d.toNat l).extractLsb' (2 * ewBits e * j) (2 * ewBits e) =
           BitVec.ofInt (2 * ewBits e) (elemInt (ewBits e) u (s.rdV b.toNat l) j)) ∧
   (∀ (g : Pred) (d a b : Reg) (e : EWidth) (u : Bool) (s : State), s.mayIssue (.pnarrow g d a b e u) g = true →
     ∃ t : State, Sys2Proof.Machine.exec (.pnarrow g d a b e u) s = .next t ∧ t.pc = s.pc + 4 ∧
       ∀ l ∈ s.execs g, ∀ j < 32 / ewBits e,
         (t.rdV d.toNat l).extractLsb' (ewBits e * j) (ewBits e) =
           BitVec.ofInt (ewBits e) (clampTo (ewBits e) u
             (rnaQuotient (elemInt (2 * ewBits e) u (s.rdVPair a.toNat l) j) (s.rdV b.toNat l).toNat))))

/-- 05 R119, R120: FADD, FSUB, FMUL and FFMA of any NaN give the canonical NaN; FMIN and FMAX give an operand unchanged,
never a NaN when one operand is a number, and the smaller or larger in an order with -0 below +0.

05 R121: FCLASS of a word sets exactly one bit, that of its class by sign, exponent and mantissa.

05 R126: the special functions of -infinity, -0, +0 and +infinity in FP32, and of every NaN. -/
def Obligations.FloatRules : Prop :=
  ((∀ a b : Word, f32Nan a = true ∨ f32Nan b = true →
     f32add a b = 0x7FC00000 ∧ f32sub a b = 0x7FC00000 ∧ f32mul a b = 0x7FC00000) ∧
   (∀ a b d : Word, f32Nan a = true ∨ f32Nan b = true ∨ f32Nan d = true → f32fma a b d = 0x7FC00000) ∧
   (∀ a b : Word, f32Nan a = true → f32Nan b = true → f32min a b = 0x7FC00000 ∧ f32max a b = 0x7FC00000) ∧
   (∀ a b : Word, f32Nan a = true → f32Nan b = false → f32min a b = b ∧ f32max a b = b) ∧
   (∀ a b : Word, f32Nan a = false → f32Nan b = true → f32min a b = a ∧ f32max a b = a) ∧
   (∀ a b : Word, f32Nan a = false → f32Nan b = false →
     f32min a b = (if f32Key a ≤ f32Key b then a else b) ∧ f32max a b = (if f32Key a ≤ f32Key b then b else a))) ∧
  (∀ w : Word,
     let e := w.extractLsb' 23 8
     let m := w.extractLsb' 0 23
     (e = 0xFF → m = 0 → f32class w = if w.msb then 1 <<< 0 else 1 <<< 7) ∧
     (e = 0xFF → m ≠ 0 → f32class w = if m.getLsbD 22 then 1 <<< 9 else 1 <<< 8) ∧
     (e = 0 → m = 0 → f32class w = if w.msb then 1 <<< 3 else 1 <<< 4) ∧
     (e = 0 → m ≠ 0 → f32class w = if w.msb then 1 <<< 2 else 1 <<< 5) ∧
     (e ≠ 0 → e ≠ 0xFF → f32class w = if w.msb then 1 <<< 1 else 1 <<< 6)) ∧
  ((∀ (f : SpecialFn) (w : Word), f32Nan w = true → specialWord f .f32 w = 0x7FC00000) ∧
   ([SpecialFn.exp2, .log2, .rcp, .rsq, .sqrt, .sinpi, .cospi, .tanh, .sigm, .gelu, .silu, .erf].map fun f =>
       [0xFF800000, 0x80000000, 0, 0x7F800000].map fun w => (specialWord f .f32 w).toNat) =
     [[0, 0x3F800000, 0x3F800000, 0x7F800000],
      [0x7FC00000, 0xFF800000, 0xFF800000, 0x7F800000],
      [0x80000000, 0xFF800000, 0x7F800000, 0],
      [0x7FC00000, 0xFF800000, 0x7F800000, 0],
      [0x7FC00000, 0x80000000, 0, 0x7F800000],
      [0x7FC00000, 0x80000000, 0, 0x7FC00000],
      [0x7FC00000, 0x3F800000, 0x3F800000, 0x7FC00000],
      [0xBF800000, 0x80000000, 0, 0x3F800000],
      [0, 0x3F000000, 0x3F000000, 0x3F800000],
      [0x80000000, 0x80000000, 0, 0x7F800000],
      [0x80000000, 0x80000000, 0, 0x7F800000],
      [0xBF800000, 0x80000000, 0, 0x3F800000]])

/-- 04 R114, 05 R127: typed CVT completes and writes the converted value, to a pair for a 64-bit type; between two
integer types without SAT the result is the source value modulo the destination's range.

05 R129, R131, R132, R133, R134: with one valid format word in the executing lanes a format-word instruction writes
its result from the values before it, and appends its records to the facet's statistics queue, as far as the queue has
room, when STAT is set; without STAT no facet changes.

01 R38: lanes that hold different format words raise the format-divergence trap, 0x04; an agreed word that is not
valid for the instruction raises the format-word trap, 0x05; lanes whose guard is false take no part, and with no
executing lane nothing happens. -/
def Obligations.Conversions : Prop :=
  ((∀ (g : Pred) (d a : Reg) (dty sty : CvtTy) (rz sat : Bool) (s : State),
     s.mayIssue (.cvt g d a dty sty rz sat) g = true → ∃ t : State,
       Sys2Proof.Machine.exec (.cvt g d a dty sty rz sat) s = .next t ∧ t.pc = s.pc + 4 ∧
       ∀ l ∈ s.execs g,
         let x := if cvtWide sty then (s.rdVPair a.toNat l).toNat else (s.rdV a.toNat l).toNat
         (cvtWide dty = false → t.rdV d.toNat l = BitVec.ofNat 32 (cvtVal dty sty rz sat x)) ∧
         (cvtWide dty = true → t.rdVPair d.toNat l = BitVec.ofNat 64 (cvtVal dty sty rz sat x))) ∧
   (∀ x : Dword, cvtVal .s64 .s32 false false x.toNat = ((x.setWidth 32).signExtend 64).toNat ∧
     cvtVal .z64 .z32 false false x.toNat = ((x.setWidth 32).setWidth 64).toNat ∧
     cvtVal .s32 .s8 false false x.toNat = ((x.setWidth 8).signExtend 32).toNat ∧
     cvtVal .z32 .z16 false false x.toNat = ((x.setWidth 16).setWidth 32).toNat ∧
     cvtVal .s8 .s32 false false x.toNat = ((x.setWidth 8).signExtend 32).toNat ∧
     cvtVal .z8 .s64 false false x.toNat = (x.setWidth 8).toNat)) ∧
  (∀ (i : Instr) (g : Pred) (d a b : Reg), fwOperands i = some (g, d, a, b) →
     ∀ (s : State) (w : Word) (sf df : Fmt), s.mayIssue i g = true → s.exec g ≠ 0 →
       (∀ l ∈ s.execs g, s.rdV b.toNat l = w) → fwGood i w sf df = true → ∃ t : State,
         Sys2Proof.Machine.exec i s = .next t ∧ t.pc = s.pc + 4 ∧
         (∀ l ∈ s.execs g, ∀ v, s.fwResult w sf df l i = some v → t.rdV d.toNat l = v) ∧
         (i = .qpack g d a b → ∀ n < 64, hasLane (s.exec g) (n % s.unitNode.width) = true →
           t.rdV (d.toNat + n / s.unitNode.width) (n % s.unitNode.width) = (s.packWords g a w sf df).getD n 0) ∧
         ((formatWord w).stat = false → t.facets = s.facets) ∧
         ((formatWord w).stat = true → ∀ f, f = (s.blk s.unitBlk).facet →
           (t.facet f).stats.length = min (max 64 (s.facet f).stats.length) ((s.facet f).stats.length + fwRecords i)) ∧
         RegsOnly (s.execs g) (match i with
           | .qpack .. => (List.range (64 / s.unitNode.width)).map (d.toNat + ·)
           | _ => [d.toNat]) [] [] s { t with facets := s.facets }) ∧
  (∀ (i : Instr) (g : Pred) (d a b : Reg), fwOperands i = some (g, d, a, b) →
     ∀ s : State, s.mayIssue i g = true →
       (s.exec g = 0 → Sys2Proof.Machine.exec i s = .next (s.setPc (s.pc + 4))) ∧
       (∀ l ∈ s.execs g, ∀ m ∈ s.execs g, s.rdV b.toNat l ≠ s.rdV b.toNat m →
         Sys2Proof.Machine.exec i s = .next (s.trapWith 0x04 (s.exec g) 0)) ∧
       (∀ w : Word, s.exec g ≠ 0 → (∀ l ∈ s.execs g, s.rdV b.toNat l = w) → (∀ sf df, fwGood i w sf df = false) →
         Sys2Proof.Machine.exec i s = .next (s.trapWith 0x05 (s.exec g) 0)))

/-- 05 R135, R137: SHFL takes the value of its source lane where that lane takes part, else its own; REDUX folds the
values of the participating lanes in ascending order into a uniform register; SCAN folds, for each lane, those at or
below it, or below it; pair k says whether there was none.

04 R115, the .G form: the split's lanes wait at the collective. While some lane of the group that has neither exited
nor been ejected waits at no split of this address, the split only waits, and no register changes.

04 R115, the .G form: a split that holds every lane of the group that has neither exited nor been ejected merges at
once, and the collective executes with all of them; here VOTE.G.BAL gives every executing lane the mask of those that
have the predicate. -/
def Obligations.Collectives : Prop :=
  ((∀ (i : Instr) (g : Pred) (d a b : Reg), shuffleOperands i = some (g, d, a, b) →
     ∀ s : State, s.mayIssue i g = true → ∃ t : State,
       Sys2Proof.Machine.exec i s = .next t ∧ t.pc = s.pc + 4 ∧
       ∀ l ∈ s.execs g,
         (∀ j, shuffleSource s.unitNode.width l (s.rdV b.toNat l).toNat i = some j → j ∈ s.execs g →
           t.rdV d.toNat l = s.rdV a.toNat j) ∧
         ((∀ j, shuffleSource s.unitNode.width l (s.rdV b.toNat l).toNat i = some j → j ∉ s.execs g) →
           t.rdV d.toNat l = s.rdV a.toNat l)) ∧
   (∀ (g : Pred) (d a : Reg) (k : PairIx) (op : RedOp) (s : State), s.mayIssue (.redux g d a false k op) g = true →
     ∃ t : State, Sys2Proof.Machine.exec (.redux g d a false k op) s = .next t ∧ t.pc = s.pc + 4 ∧
       t.rdS d.toNat = foldOf op ((s.execs g).map fun l => s.rdV a.toNat l) ∧
       ∀ l ∈ s.execs g, t.pairBit k.toNat l = (k == 0)) ∧
   (∀ (g : Pred) (d a : Reg) (k : PairIx) (op : RedOp) (s : State), s.mayIssue (.scanInc g d a false k op) g = true →
     ∃ t : State, Sys2Proof.Machine.exec (.scanInc g d a false k op) s = .next t ∧ t.pc = s.pc + 4 ∧
       ∀ l ∈ s.execs g,
         t.rdV d.toNat l = foldOf op (((s.execs g).filter (· ≤ l)).map fun m => s.rdV a.toNat m) ∧
         t.pairBit k.toNat l = (k == 0)) ∧
   (∀ (g : Pred) (d a : Reg) (k : PairIx) (op : RedOp) (s : State), s.mayIssue (.scanExc g d a false k op) g = true →
     ∃ t : State, Sys2Proof.Machine.exec (.scanExc g d a false k op) s = .next t ∧ t.pc = s.pc + 4 ∧
       ∀ l ∈ s.execs g,
         t.rdV d.toNat l = foldOf op (((s.execs g).filter (· < l)).map fun m => s.rdV a.toNat m) ∧
         t.pairBit k.toNat l = (k == 0 || decide (∀ m ∈ s.execs g, l ≤ m)))) ∧
  (∀ (i : Instr) (g : Pred), gathers i = some g → ∀ (s : State) (b gr k : Nat), s.focus = .split b gr k →
     s.mayIssue i g = true → s.topPath b gr k = false →
     (∃ l, hasLane (s.liveLanes b gr) l = true ∧ hasLane (s.spl b gr k).gm l = false ∧
       hasLane (s.spl b gr k).am l = false ∧
       ∀ e ∈ (s.grp b gr).splits, e.2.wait = .collective s.pc → hasLane e.2.gm l = false) →
     ∃ t : State, Sys2Proof.Machine.exec i s = .next t ∧
       t = s.modSpl b gr k fun y => { y with gm := y.gm ||| y.am, am := 0, wait := .collective s.pc }) ∧
  (∀ (g p : Pred) (d : Reg) (s : State) (b gr k : Nat), s.focus = .split b gr k →
     s.mayIssue (.voteBal g d p true) g = true → s.topPath b gr k = false → (s.spl b gr k).parked = false →
     s.liveLanes b gr ≠ 0 → (s.spl b gr k).gm = 0 → (s.spl b gr k).am = s.liveLanes b gr →
     (∀ e ∈ (s.grp b gr).splits, e.2.wait ≠ .collective s.pc) →
     ∃ t : State, Sys2Proof.Machine.exec (.voteBal g d p true) s = .next t ∧ t.pc = s.pc + 4 ∧ t.focus = s.focus ∧
       (t.spl b gr k).am = s.liveLanes b gr ∧ (t.spl b gr k).gm = 0 ∧
       ∀ l ∈ s.execs g, ∀ m, hasLane (t.rdVPair d.toNat l) m = (hasLane (s.exec g) m && s.rdP p m))

/-- The frame of the integer, predicate, packed and float instructions and of the collectives in their plain form (04 R96,
05 R117): in the executing lanes the destination registers, the destination pair, the uniform destination, the PC; every
other register, predicate and split, every special register, every other unit, all of memory and the rest of the machine
are as before. -/
def Obligations.RegisterFrame : Prop :=
  ∀ (i : Instr) (g : Pred) (w : RegSet), regWrites i = some (g, w) → ∀ s : State, s.mayIssue i g = true →
    ∃ t : State, Sys2Proof.Machine.exec i s = .next t ∧ RegsOnly (s.execs g) w.d w.u w.p s t

/-- 06 R140, R143: when every active lane of a split takes the same next PC, the split continues there. BRA, BRA.EJ, CALL,
BRX, CALLX and RET complete so; CALL and CALLX write the address of the next instruction to the link pair of the lanes
whose guard is true, and the branches write no register.

14 R301: an ejected lane on a comet core takes its own next PC: the target where its guard is true, else the next
instruction; BRA.EJ acts as BRA.

06 R141: a bad indirect target in some lane whose guard is true raises the branch-target trap, 0x03, of those lanes,
with the target of the lowest of them (the model's, log 28), and neither a branch nor a link is made.

06 R148, 14 R303, R304, R310: BRA.EJ of a split of a group of 16 lanes or more. `small` is the smaller side of the branch with its
PC, `big` the other. Where the small side is within EJT.E and within the free lane contexts of the partition's share, its lanes leave
for comet contexts of the cluster, each at its side's PC with the registers that LIVE mask n names, on the issuing die as long as it
has a free context, the lowest lane on the comet core of that die with the most; the split pushes its old CM, its AM becomes its CM
and it goes on with the other side, and an EJECT event is offered. With too few contexts BRA.EJ acts as BRA and an EJDECL event is
offered; with E exceeded, or sides of one size or empty, it acts as BRA. Which free context of a comet core a lane takes is the
model's (log 167). -/
def Obligations.Branches : Prop :=
  (∀ (i : Instr) (g : Pred) (s : State) (b gr k : Nat) (tgt next : Dword), s.focus = .split b gr k →
     s.branchTo (lowestLane s.lanes) i = some (g, tgt) → s.mayIssue i g = true → s.amOk b gr k → s.lanes ≠ 0 →
     s.topPath b gr k = false →
     ((∀ l ∈ lanesOf s.lanes, s.rdP g l = true ∧ s.branchTo l i = some (g, next)) ∧
         (indirectBranch i = true → targetBad next = false) ∨
       (∀ l ∈ lanesOf s.lanes, s.rdP g l = false) ∧ next = s.pc + 4) →
     ∃ t : State, Sys2Proof.Machine.exec i s = .next t ∧ t.pc = next ∧ t.lanes = s.lanes ∧
       (writesLink i = true → ∀ l ∈ s.execs g, t.rdVPair s.unitNode.link l = s.pc + 4) ∧
       RegsOnly (s.execs g) (if writesLink i then [s.unitNode.link, s.unitNode.link + 1] else []) [] [] s t) ∧
  (∀ (i : Instr) (g : Pred) (s : State) (c : Nat) (tgt : Dword), s.focus = .comet c →
     s.branchTo (s.ctx c).lane i = some (g, tgt) → s.mayIssue i g = true → (s.ctx c).lane < 64 →
     (indirectBranch i = true → targetBad tgt = false) →
     ∃ t : State, Sys2Proof.Machine.exec i s = .next t ∧
       t.pc = if s.rdP g (s.ctx c).lane then tgt else s.pc + 4) ∧
  (∀ (i : Instr) (g : Pred) (s : State) (l : Nat) (tgt : Dword), indirectBranch i = true → s.mayIssue i g = true →
     l ∈ s.execs g → s.branchTo l i = some (g, tgt) → targetBad tgt = true →
     (∀ j ∈ s.execs g, j < l → ∀ d, s.branchTo j i = some (g, d) → targetBad d = false) →
     ∃ m : Mask, Sys2Proof.Machine.exec i s = .next (s.trapWith 0x03 m tgt) ∧
       ∀ j, hasLane m j = true ↔ j ∈ s.execs g ∧ ∀ d, s.branchTo j i = some (g, d) → targetBad d = true) ∧
  (∀ (g : Pred) (n : BitVec 2) (ofs : BitVec 20) (s : State) (b gr k : Nat) (small big : Mask) (sp bp : Dword),
     s.focus = .split b gr k → s.mayIssue (.braEj g n ofs) g = true → s.mayIssue (.bra g (ofs.signExtend 22)) g = true →
     s.amOk b gr k → s.hasSplit b gr k = true →
     (small = s.exec g ∧ big = minusLanes s.lanes (s.exec g) ∧ sp = s.pc + 4 * ofs.signExtend 64 ∧ bp = s.pc + 4 ∨
       big = s.exec g ∧ small = minusLanes s.lanes (s.exec g) ∧ bp = s.pc + 4 * ofs.signExtend 64 ∧ sp = s.pc + 4) →
     laneCount small ≤ laneCount big →
     let e := (s.grp b gr).ejt.toNat % 16
     let cl := clusterOfCore (s.blk b).core
     let free := s.freeContexts cl (s.blk b).part
     (laneCount small = 0 ∨ laneCount small = laneCount big ∨ e < laneCount small ∨ (s.blk b).width < 16 →
       Sys2Proof.Machine.exec (.braEj g n ofs) s = Sys2Proof.Machine.exec (.bra g (ofs.signExtend 22)) s) ∧
     (laneCount small ≠ 0 → laneCount small < laneCount big → laneCount small ≤ e → 16 ≤ (s.blk b).width →
       (free < laneCount small → ∃ t, Sys2Proof.Machine.exec (.bra g (ofs.signExtend 22)) s = .next t ∧
         Sys2Proof.Machine.exec (.braEj g n ofs) s = .next (t.offerBlk b 0x04 gr small.toNat free)) ∧
       (laneCount small ≤ free → (s.spl b gr k).stack.length < 8 → ∃ t m,
         Sys2Proof.Machine.exec (.braEj g n ofs) s = .next t ∧ t.mem = s.mem ∧ t.pc = bp ∧ t.lanes = big ∧
         (t.spl b gr k).cm = s.lanes ∧
         (t.spl b gr k).stack = { path := false, pc := 0, mask := (s.spl b gr k).cm } :: (s.spl b gr k).stack ∧
         (t.grp b gr).ejected = (s.grp b gr).ejected ||| small ∧ (∀ j, j ≠ k → t.spl b gr j = s.spl b gr j) ∧
         t.taps = (s.offerBlk b 0x03 gr small.toNat m).taps ∧
         (∀ c, s.comets.has c = true → t.comets.find c = s.comets.find c) ∧
         (∀ l ∈ lanesOf small, ∃ c ∈ clusterContexts cl, s.comets.has c = false ∧ t.comets.has c = true ∧
           (t.ctx c).blk = b ∧ (t.ctx c).grp = gr ∧ (t.ctx c).lane = l ∧ (t.ctx c).pc = sp ∧ (t.ctx c).started = false ∧
           (t.ctx c).notBefore = s.now + (if dieOfComet c = (s.blk b).die then 24 else 40) ∧
           (dieOfComet c ≠ (s.blk b).die → ∀ d ∈ clusterContexts cl, dieOfComet d = (s.blk b).die → t.comets.has d = true) ∧
           (l = lowestLane small → ∀ d ∈ clusterContexts cl, dieOfComet d = dieOfComet c →
             (s.freeOn cl (cometCore d)).length ≤ (s.freeOn cl (cometCore c)).length) ∧
           ∀ r < 64, (((s.grp b gr).lv.getD n.toNat 0).getLsbD r = true → (t.ctx c).vregs.getD r 0 = s.rdV r l)))))

/-- 03 R88: a branch of a split whose lanes take two next PCs diverges: the split keeps the path of its lowest lane, its AM
becomes its CM above a pushed entry of the old CM, and the other path goes to the lowest free split index, with that CM
and one entry of the old CM.

03 R88: with no free split index the other path of a divergence is pushed as a D entry, above the entry of the old
CM.

03 R88, 06 R140, R141, R143: a branch of a split whose lanes take more than one next PC, a lane with a false guard the next
instruction, diverges. `ps` are the paths: every lane is in the one of its next PC, and they are ordered by their lowest lanes. The
split pushes its old CM, its AM becomes its CM, and it keeps the first path; each further path goes to a free split index, lowest
first, with that CM and one entry of the old CM; with no index left the others are pushed as D entries, the next of them on top.
BRA, CALL, BRX, CALLX and RET do so; here the stack stays on chip.

03 R88, R89: a BRA of a split whose lanes take two next PCs, with a full stack on chip: before the push of the old CM the 4
oldest entries on chip move to the save area in the block's context area, at the address that the block's tables give it (log 5),
16 bytes each, the oldest first; beyond 256 entries the branch raises the deferred-mask overflow trap, 0x61, and no more. A
context area that is page-aligned keeps the 4 entries in one page. -/
def Obligations.Divergence : Prop :=
  (∀ (g : Pred) (ofs : BitVec 22) (s : State) (b gr k j : Nat) (js : List Nat) (p q : Dword) (m n : Mask),
     s.focus = .split b gr k → s.mayIssue (.bra g ofs) g = true → s.amOk b gr k →
     (s.spl b gr k).stack.length < 8 → (s.grp b gr).freeSplits = j :: js →
     s.exec g ≠ 0 → s.exec g ≠ s.lanes → ofs ≠ 1 →
     (s.rdP g (lowestLane s.lanes) = true → p = s.pc + 4 * ofs.signExtend 64 ∧ m = s.exec g ∧
       q = s.pc + 4 ∧ n = minusLanes s.lanes (s.exec g)) →
     (s.rdP g (lowestLane s.lanes) = false → q = s.pc + 4 * ofs.signExtend 64 ∧ n = s.exec g ∧
       p = s.pc + 4 ∧ m = minusLanes s.lanes (s.exec g)) →
     ∃ t : State, Sys2Proof.Machine.exec (.bra g ofs) s = .next t ∧
       (t.spl b gr k).pc = p ∧ (t.spl b gr k).am = m ∧ (t.spl b gr k).cm = s.lanes ∧
       (t.spl b gr k).stack = { path := false, pc := 0, mask := (s.spl b gr k).cm } :: (s.spl b gr k).stack ∧
       (t.grp b gr).splits.has j = true ∧ (t.spl b gr j).pc = q ∧ (t.spl b gr j).am = n ∧ (t.spl b gr j).cm = s.lanes ∧
       (t.spl b gr j).stack = [{ path := false, pc := 0, mask := (s.spl b gr k).cm }] ∧
       (t.spl b gr j).priv = (s.spl b gr k).priv) ∧
  (∀ (g : Pred) (ofs : BitVec 22) (s : State) (b gr k : Nat),
     s.focus = .split b gr k → s.mayIssue (.bra g ofs) g = true → s.amOk b gr k →
     (s.spl b gr k).stack.length < 7 → (s.grp b gr).freeSplits = [] →
     s.exec g ≠ 0 → s.exec g ≠ s.lanes → ofs ≠ 1 → s.rdP g (lowestLane s.lanes) = true →
     ∃ t : State, Sys2Proof.Machine.exec (.bra g ofs) s = .next t ∧
       (t.spl b gr k).pc = s.pc + 4 * ofs.signExtend 64 ∧ (t.spl b gr k).am = s.exec g ∧
       (t.spl b gr k).cm = s.lanes ∧
       (t.spl b gr k).stack =
         { path := true, pc := s.pc + 4, mask := minusLanes s.lanes (s.exec g) } ::
         { path := false, pc := 0, mask := (s.spl b gr k).cm } :: (s.spl b gr k).stack) ∧
  (∀ (i : Instr) (g : Pred) (s : State) (b gr k : Nat) (tgt : Dword) (next : Nat → Dword) (p : Dword × Mask)
       (ps : List (Dword × Mask)), s.focus = .split b gr k → s.branchTo (lowestLane s.lanes) i = some (g, tgt) →
     (∀ h n o, i ≠ .braEj h n o) → s.mayIssue i g = true → s.amOk b gr k → s.hasSplit b gr k = true →
     (∀ l ∈ lanesOf s.lanes, if s.rdP g l = true then s.branchTo l i = some (g, next l) else next l = s.pc + 4) →
     (indirectBranch i = true → ∀ l ∈ s.execs g, targetBad (next l) = false) →
     (∀ q ∈ p :: ps, q.2 ≠ 0 ∧ ∀ l, hasLane q.2 l = true ↔ l ∈ lanesOf s.lanes ∧ next l = q.1) →
     (∀ l ∈ lanesOf s.lanes, ∃ q ∈ p :: ps, hasLane q.2 l = true) →
     (p :: ps).Pairwise (fun q r => lowestLane q.2 < lowestLane r.2) → ps ≠ [] →
     (s.spl b gr k).stack.length + 1 + (ps.length - (s.grp b gr).freeSplits.length) ≤ 8 →
     ∃ t : State, Sys2Proof.Machine.exec i s = .next t ∧
       (t.spl b gr k).pc = p.1 ∧ (t.spl b gr k).am = p.2 ∧ (t.spl b gr k).cm = s.lanes ∧
       (t.spl b gr k).stack =
         ((ps.drop (s.grp b gr).freeSplits.length).map fun q => { path := true, pc := q.1, mask := q.2 }) ++
           { path := false, pc := 0, mask := (s.spl b gr k).cm } :: (s.spl b gr k).stack ∧
       (∀ e ∈ List.zip (s.grp b gr).freeSplits ps, (t.grp b gr).splits.has e.1 = true ∧ (t.spl b gr e.1).pc = e.2.1 ∧
         (t.spl b gr e.1).am = e.2.2 ∧ (t.spl b gr e.1).cm = s.lanes ∧
         (t.spl b gr e.1).stack = [{ path := false, pc := 0, mask := (s.spl b gr k).cm }] ∧
         (t.spl b gr e.1).priv = (s.spl b gr k).priv) ∧
       (∀ j, j ≠ k → j ∉ (List.zip (s.grp b gr).freeSplits ps).map Prod.fst → t.spl b gr j = s.spl b gr j) ∧
       (writesLink i = true → ∀ l ∈ s.execs g, t.rdVPair s.unitNode.link l = s.pc + 4) ∧ t.mem = s.mem) ∧
  (∀ (g : Pred) (ofs : BitVec 22) (s : State) (b gr k j : Nat) (js : List Nat), s.focus = .split b gr k →
     s.mayIssue (.bra g ofs) g = true → s.amOk b gr k → s.mem.wf = true → (s.spl b gr k).stack.length = 8 →
     (s.grp b gr).freeSplits = j :: js → s.exec g ≠ 0 → s.exec g ≠ s.lanes → ofs ≠ 1 →
     let n := (s.spl b gr k).spilled
     let a := (s.blk b).saveArea gr k + 16 * n
     (256 < n + 4 → Sys2Proof.Machine.exec (.bra g ofs) s = .next (s.takeTrap 0x61)) ∧
     (n + 4 ≤ 256 → a % 4096 + 64 ≤ 4096 → ∃ t : State, Sys2Proof.Machine.exec (.bra g ofs) s = .next t ∧
       (t.spl b gr k).cm = s.lanes ∧ (t.spl b gr k).spilled = n + 4 ∧
       (t.spl b gr k).stack = { path := false, pc := 0, mask := (s.spl b gr k).cm } :: (s.spl b gr k).stack.take 4 ∧
       (∀ e ∈ List.zip (List.range 4) (s.spl b gr k).stack.reverse,
         t.mem64 (s.ctxKey b a + 16 * e.1) = e.2.mask ∧
         (e.2.path = false → t.mem64 (s.ctxKey b a + 16 * e.1 + 8) = 0x8000000000000000) ∧
         (e.2.path = true → e.2.pc.toNat % 4 = 0 → e.2.pc.toNat < 2 ^ 52 →
           t.mem64 (s.ctxKey b a + 16 * e.1 + 8) = e.2.pc)) ∧
       ∀ x, x < s.ctxKey b a ∨ s.ctxKey b a + 64 ≤ x → t.mem.get x = (s.touchCtx b a 64 true).mem.get x))

/-- 03 R90, R91: JOIN of the only split of a group. With a deferred path on top of its stack its lanes enter WM and it goes
on at that path with that path's lanes; with every lane of CM that has not exited arriving and a C entry on top it merges: it continues after
the JOIN with the lanes of CM that have not exited, and the entry's mask becomes CM.

03 R90: JOIN of the last of several splits of one CM, the others waiting at the JOIN: once every lane of CM that has not exited
has arrived, the split with the lowest index goes on alone, with those lanes, after the JOIN that the lowest of them reached; it
pops its C entry into CM, or keeps CM with an empty stack. Its stack is here on chip and the deepest (else the model takes the
deepest, log 6).

14 R305: JOIN of an ejected lane is its arrival; the copy-back completes 16 clocks later, or 32 across the bridge. -/
def Obligations.Joins : Prop :=
  (∀ (g : Pred) (s : State) (b gr k : Nat) (sp : Split) (d : Deferred) (ds : List Deferred),
     s.focus = .split b gr k → s.mayIssue (.join g) g = true → (s.grp b gr).splits = [(k, sp)] →
     sp.stack = d :: ds → (s.grp b gr).rj = 0 →
     (d.path = true → ∃ t : State, Sys2Proof.Machine.exec (.join g) s = .next t ∧ t.pc = d.pc ∧
       (t.spl b gr k).am = d.mask ∧ (t.spl b gr k).wm = sp.wm ||| sp.am ∧ (t.spl b gr k).stack = ds) ∧
     (d.path = false → sp.wm = 0 → sp.am = minusLanes sp.cm (s.grp b gr).exited → sp.am ≠ 0 →
       (s.grp b gr).returned = 0 →
       ∃ t : State, Sys2Proof.Machine.exec (.join g) s = .next t ∧ t.pc = s.pc + 4 ∧
         (t.spl b gr k).am = minusLanes sp.cm (s.grp b gr).exited ∧ (t.spl b gr k).wm = 0 ∧
         (t.spl b gr k).cm = d.mask ∧ (t.spl b gr k).stack = ds)) ∧
  (∀ (g : Pred) (s : State) (b gr k n : Nat) (x y : Split), s.focus = .split b gr k → s.mayIssue (.join g) g = true →
     (s.grp b gr).splits.Pairwise (fun e f => e.1 < f.1) → (k, x) ∈ (s.grp b gr).splits → (n, y) ∈ (s.grp b gr).splits →
     (∀ e ∈ (s.grp b gr).splits, n ≤ e.1 ∧ e.2.depth ≤ y.stack.length ∧ e.2.cm = x.cm ∧ subLanes e.2.wm x.cm = true ∧
       (e.1 ≠ k → e.2.wait = .join ∧ e.2.am = 0 ∧ e.2.gm = 0 ∧ e.2.wm ≠ 0)) →
     y.spilled = 0 → x.am ≠ 0 → subLanes x.am x.cm = true → x.wait = .ready → x.gm = 0 →
     s.topPath b gr k = false → s.topPath b gr n = false → (s.grp b gr).rj = 0 → (s.grp b gr).returned = 0 →
     minusLanes x.cm (s.grp b gr).exited ≠ 0 →
     (∀ l, hasLane (minusLanes x.cm (s.grp b gr).exited) l = true → hasLane x.am l = true ∨
       ∃ e ∈ (s.grp b gr).splits, hasLane e.2.wm l = true) →
     ∃ t : State, Sys2Proof.Machine.exec (.join g) s = .next t ∧ (t.grp b gr).splits.map Prod.fst = [n] ∧
       (t.spl b gr n).am = minusLanes x.cm (s.grp b gr).exited ∧ (t.spl b gr n).wm = 0 ∧ (t.spl b gr n).wait = .ready ∧
       (∀ l, l = lowestLane (minusLanes x.cm (s.grp b gr).exited) →
         (hasLane x.am l = true → (t.spl b gr n).pc = s.pc + 4) ∧
         (∀ p, hasLane x.am l = false → (s.grp b gr).joinAt.find l = some p → (t.spl b gr n).pc = p)) ∧
       (∀ d ds, y.stack = d :: ds → (t.spl b gr n).cm = d.mask ∧ (t.spl b gr n).stack = ds) ∧
       (y.stack = [] → (t.spl b gr n).cm = x.cm ∧ (t.spl b gr n).stack = []) ∧ t.mem = s.mem) ∧
  (∀ (g : Pred) (s : State) (c : Nat), s.focus = .comet c → s.mayIssue (.join g) g = true →
     (s.ctx c).arrived = none →
     ∃ t : State, Sys2Proof.Machine.exec (.join g) s = .next t ∧ (t.ctx c).arrived = some s.now ∧
       (t.ctx c).notBefore = s.now + (if dieOfComet c = (s.blk (s.ctx c).blk).die then 16 else 32) ∧
       (t.ctx c).vregs = (s.ctx c).vregs ∧ t.mem = s.mem)

/-- 06 R145, 03 R91: EXIT ends the lanes whose guard is true; they count as exited; when every lane of the group has, the
group has ended; with no such lane the split goes on at the next instruction.

06 R146, R147, R149: YIELD goes on and keeps its group from issuing in the next clock, or gives up the next cycle of its comet
core; with a deferred path on top the split goes on at that path with that path's lanes; LIVE writes the mask of
registers of the node once for the group, or in an ejected lane's copy; TRAP with no lane whose guard is true has no
effect, and else takes the software trap of those lanes with its number. -/
def Obligations.ExitYieldLiveTrap : Prop :=
  (∀ (g : Pred) (s : State) (b gr k : Nat), s.focus = .split b gr k → s.mayIssue (.exit g) g = true →
     ∃ t : State, Sys2Proof.Machine.exec (.exit g) s = .next t ∧
       (t.grp b gr).exited = (s.grp b gr).exited ||| s.exec g ∧
       (s.exec g = 0 → t.pc = s.pc + 4) ∧
       (s.exec g ≠ 0 → allLanes (s.blk b).width &&& ~~~((s.grp b gr).exited ||| s.exec g) = 0 →
         (t.grp b gr).ended = true)) ∧
  ((∀ (g : Pred) (s : State) (b gr k : Nat), s.focus = .split b gr k → s.mayIssue (.yield g) g = true →
     ∃ t : State, Sys2Proof.Machine.exec (.yield g) s = .next t ∧ (t.grp b gr).yielded = true ∧
       (s.topPath b gr k = false → t.pc = s.pc + 4 ∧ t.lanes = s.lanes) ∧
       ∀ d, s.topEntry b gr k = some d → d.path = true → t.pc = d.pc ∧ (t.spl b gr k).am = d.mask) ∧
   (∀ (g : Pred) (s : State) (c : Nat), s.focus = .comet c → s.mayIssue (.yield g) g = true → ∃ t : State,
     Sys2Proof.Machine.exec (.yield g) s = .next t ∧ t.pc = s.pc + 4 ∧ (t.ctx c).yielded = true ∧ t.mem = s.mem ∧
     ∀ m l, t.rdV m l = s.rdV m l) ∧
   (∀ (g : Pred) (n : BitVec 2) (a : Reg) (s : State) (b gr k : Nat), s.focus = .split b gr k →
     s.mayIssue (.live g n a) g = true → ∃ t : State, Sys2Proof.Machine.exec (.live g n a) s = .next t ∧
       t.pc = s.pc + 4 ∧ t.mem = s.mem ∧
       ((t.grp b gr).lv.getD n.toNat 0 = if s.exec g = 0 then (s.grp b gr).lv.getD n.toNat 0
         else s.rdSPair a.toNat &&& BitVec.ofNat 64 (2 ^ (s.blk b).node.vregs - 1)) ∧
       ∀ m, m ≠ n.toNat → (t.grp b gr).lv.getD m 0 = (s.grp b gr).lv.getD m 0) ∧
   (∀ (g : Pred) (n : BitVec 2) (a : Reg) (s : State) (c : Nat), s.focus = .comet c →
     s.mayIssue (.live g n a) g = true → ∃ t : State, Sys2Proof.Machine.exec (.live g n a) s = .next t ∧
       t.pc = s.pc + 4 ∧ t.mem = s.mem ∧ t.blocks = s.blocks ∧
       (t.ctx c).lv.getD n.toNat 0 = if s.exec g = 0 then (s.ctx c).lv.getD n.toNat 0
         else s.rdSPair a.toNat &&& BitVec.ofNat 64 (2 ^ (s.blk (s.ctx c).blk).node.vregs - 1)) ∧
   (∀ (g : Pred) (n : BitVec 6) (s : State), s.mayIssue (.trap g n) g = true →
     Sys2Proof.Machine.exec (.trap g n) s =
       .next (if s.exec g = 0 then s.setPc (s.pc + 4) else s.takeTrapN 0x02 n.toNat (s.exec g) 0)))

/-- 06 R150, R151: a vectored trap of a split, whose link pair no result in flight is to write (log 131), writes the frame to its
slot in the context area, at the address that the block's tables give the slot (log 5), the frame's address to the link pair of
every active lane, makes the split privileged and goes on at the facet's trap vector with the whole AM active; outside the frame
memory changes in the used and dirty bits of the leaves that translate the frame alone (16 R345), and no cache of the core keeps an
older copy of the frame. A context area that is page-aligned keeps a
frame in one page.

04 R96, 06 R150: a vectored trap of a split whose link pair a result in flight is still to write waits for it: nothing
changes (log 131).

06 R150, 15 R330: a trap that is not vectored, and every trap of an ejected lane, parks the unit at the instruction with
its trap state, and a park record is made; no frame and no register is written.

06 R150, 13 R271: which traps of a split are vectored: a cause of the vectored list, in unprivileged code of a node
that has a link pair, with a trap vector that is not 0. -/
def Obligations.TrapEntry : Prop :=
  (∀ (s : State) (b gr k cause n : Nat) (lmask : Mask) (info : Dword), s.focus = .split b gr k → s.issuing = true →
     s.mem.wf = true → s.vectors b gr k cause = true → s.linkPending b gr k = false → cause < 256 → n < 64 →
     (s.blk b).width ≤ 64 → (s.blk b).frameSlot gr k % 4096 + 64 + 8 * (s.blk b).width ≤ 4096 →
     let f := (s.blk b).frameSlot gr k
     let a := s.ctxKey b f
     let t := s.takeTrapN cause n lmask info
     t.pc = (s.facet (s.blk b).facet).tvec ∧ (t.spl b gr k).priv = true ∧ (t.spl b gr k).am = (s.spl b gr k).am ∧
     (∀ l ∈ lanesOf s.lanes, t.rdVPair (s.blk b).node.link l = BitVec.ofNat 64 f) ∧
     (∀ e used, walkBoth s.mem s.fabid (s.blk b).vf (s.vf (s.blk b).vf) f = .ok (e, used) → a = e.key f) ∧
     t.mem64 a = s.pc ∧ t.mem64 (a + 8) = (if cause = 0x02 then s.pc + 4 else s.pc) ∧
     t.mem32 (a + 16) = BitVec.ofNat 32 (cause + 256 * n) ∧ t.mem32 (a + 20) = 0 ∧ t.mem64 (a + 24) = lmask ∧
     t.mem64 (a + 32) = (s.spl b gr k).am ∧ t.mem64 (a + 40) = info ∧
     (∀ l < (s.blk b).width, t.mem64 (a + 64 + 8 * l) = s.rdVPair (s.blk b).node.link l) ∧
     (∀ x, x < a ∨ a + 64 + 8 * (s.blk b).width ≤ x →
       t.mem.get x = (s.touchCtx b f (64 + 8 * (s.blk b).width) true).mem.get x) ∧
     (∀ c w, s.cacheCore c = some (s.blk b).core → a ≤ 4 * w → 4 * w < a + 64 + 8 * (s.blk b).width →
       (t.copies.getD c []).find w = none)) ∧
  (∀ (s : State) (b gr k cause n : Nat) (lmask : Mask) (info : Dword), s.focus = .split b gr k →
     s.vectors b gr k cause = true → s.linkPending b gr k = true → s.takeTrapN cause n lmask info = s) ∧
  ((∀ (s : State) (b gr k cause n : Nat) (lmask : Mask) (info : Dword), s.focus = .split b gr k → s.issuing = true →
     s.vectors b gr k cause = false →
     let t := s.takeTrapN cause n lmask info
     t.pc = s.pc ∧ (t.spl b gr k).parked = true ∧ (t.spl b gr k).priv = (s.spl b gr k).priv ∧ t.mem = s.mem ∧
     (∀ m l, t.rdV m l = s.rdV m l) ∧
     ((t.spl b gr k).trap.map fun x => (x.epc, x.lmask, x.amask, x.info)) =
       some (s.pc, lmask, (s.spl b gr k).am, info) ∧
     t.parks.length = s.parks.length + 1) ∧
   (∀ (s : State) (c cause n : Nat) (lmask : Mask) (info : Dword), s.focus = .comet c → s.issuing = true →
     let t := s.takeTrapN cause n lmask info
     t.pc = s.pc ∧ (t.ctx c).parked = true ∧ t.mem = s.mem ∧ (∀ m l, t.rdV m l = s.rdV m l) ∧
     ((t.ctx c).trap.map fun x => (x.epc, x.lmask, x.info)) = some (s.pc, lmask, info) ∧
     t.parks.length = s.parks.length + 1)) ∧
  (∀ (s : State) (b gr k c : Nat), s.vectors b gr k c = true ↔
     c ∈ [0x00, 0x01, 0x02, 0x03, 0x04, 0x05, 0x36, 0x37, 0x38, 0x39, 0x3A, 0x3B, 0x3D, 0x40, 0x42, 0x43, 0x60, 0x62,
       0x63, 0x64, 0x65, 0x66, 0x80, 0x81, 0x82, 0x83, 0xA0, 0xA2, 0xA3] ∧
     (s.spl b gr k).priv = false ∧ (s.blk b).node.vregs % 2 = 0 ∧ 2 ≤ (s.blk b).node.vregs ∧
     (s.facet (s.blk b).facet).tvec ≠ 0)

/-- 06 R152, 09 R200: ERET of a privileged split whose group owns the link pair's tile and whose frame holds its AM goes on at the
frame's RPC, unprivileged, with the link pairs of its lanes from the frame; it sets the used bits of the leaves that translate the
frame (16 R345) and writes no other memory. A frame with another AMASK raises
the trap-return trap, 0xA1; a bad RPC the branch-target trap; a link pair in a tile of another owner the tile-ownership trap. The
frame is read at the address that the block's tables give it (log 5).

06 R150-R152 together: a split that takes a vectored trap and returns by ERET from a handler that changed nothing goes
on, unprivileged, at the trapping instruction, or after a TRAP, with every register of its lanes as before the trap; where the
frame does not overwrite the tables that translate it. -/
def Obligations.TrapReturn : Prop :=
  (∀ (g : Pred) (s v : State) (b gr k : Nat) (f : Nat), s.focus = .split b gr k → s.mayIssue (.eret g) g = true →
     (s.spl b gr k).priv = true →
     f = (s.rdVPair (s.blk b).node.link (lowestLane (s.spl b gr k).am)).toNat →
     v = s.touchCtx b f (64 + 8 * (s.blk b).width) false →
     (s.ownOk (usesV [((s.blk b).node.link, 2)]) = true → s.anyBusy (lanesOf s.lanes) = false →
       (s.frameAmask b f = (s.spl b gr k).am → targetBad (s.frameRpc b f) = false → ∃ t : State,
         Sys2Proof.Machine.exec (.eret g) s = .next t ∧ t.pc = s.frameRpc b f ∧ (t.spl b gr k).priv = false ∧
         t.mem = v.mem ∧ (t.spl b gr k).am = (s.spl b gr k).am ∧
         (∀ l ∈ lanesOf s.lanes, t.rdVPair (s.blk b).node.link l = s.frameLink b f l)) ∧
       (s.frameAmask b f ≠ (s.spl b gr k).am →
         Sys2Proof.Machine.exec (.eret g) s = .next (v.trapWith 0xA1 (s.spl b gr k).am (BitVec.ofNat 64 f))) ∧
       (s.frameAmask b f = (s.spl b gr k).am → targetBad (s.frameRpc b f) = true →
         Sys2Proof.Machine.exec (.eret g) s = .next (v.trapWith 0x03 (s.spl b gr k).am (s.frameRpc b f)))) ∧
     (s.ownOk (usesV [((s.blk b).node.link, 2)]) = false →
       Sys2Proof.Machine.exec (.eret g) s = .next (s.takeTrap 0x40))) ∧
  (∀ (s t : State) (g : Pred) (b gr k cause n : Nat) (lmask : Mask) (info : Dword), s.focus = .split b gr k →
     s.issuing = true → s.mem.wf = true → s.vectors b gr k cause = true → s.linkPending b gr k = false → cause < 256 →
     n < 64 → (s.blk b).width ≤ 64 → s.amOk b gr k → s.lanes ≠ 0 → (s.blk b).frameSlot gr k < 2 ^ 64 →
     (s.blk b).frameSlot gr k % 4096 + 64 + 8 * (s.blk b).width ≤ 4096 →
     s.pc.toNat % 4 = 0 → s.pc.toNat + 4 < 2 ^ 52 →
     t = s.takeTrapN cause n lmask info → t.mayIssue (.eret g) g = true → t.anyBusy (lanesOf s.lanes) = false →
     t.ownOk (usesV [((s.blk b).node.link, 2)]) = true →
     (∀ i < 64 + 8 * (s.blk b).width,
       t.ctxKey b ((s.blk b).frameSlot gr k + i) = s.ctxKey b ((s.blk b).frameSlot gr k) + i) →
     ∃ u : State, Sys2Proof.Machine.exec (.eret g) t = .next u ∧
       u.pc = (if cause = 0x02 then s.pc + 4 else s.pc) ∧ (u.spl b gr k).priv = false ∧ u.lanes = s.lanes ∧
       ∀ m, ∀ l ∈ lanesOf s.lanes, u.rdV m l = s.rdV m l)

/-- 03 R80, 06 R152, 13 R290: an instruction that only privileged code may execute raises the privileged-access trap, 0xA0,
in unprivileged code, whatever its guard.

02 R46, 06 R141, 13 R267: a fetched word that decodes to no instruction raises the illegal-instruction trap with every
active lane; a fetch that meets a fault raises it, with EPC at the instruction and INFO the address. A trap that goes to the handler waits while a result of its
link pair is in flight (the model's reading, log 131). -/
def Obligations.InstructionTraps : Prop :=
  (∀ (i : Instr) (g : Pred), privilegedOnly i = some g → ∀ s : State, s.mayIssue i g = true → s.privileged = false →
     Sys2Proof.Machine.exec i s = .next (s.takeTrap 0xA0)) ∧
  (∀ (s : State) (b g k : Nat), s.focus = .split b g k → s.issuing = true →
     (∀ w, decodeLane w 0 = none → s.trapHeld b g k 0 = true → Sys2Proof.Machine.exec (.illegalInstruction w) s = .next s) ∧
     (∀ w, decodeLane w 0 = none → s.trapHeld b g k 0 = false → ∃ (t : State) (x : TrapState),
       Sys2Proof.Machine.exec (.illegalInstruction w) s = .next t ∧ (t.spl b g k).trap = some x ∧ x.epc = s.pc ∧
       x.cause = 0 ∧ x.lmask = s.lanes ∧ x.info = 0 ∧
       (s.vectors b g k 0 = true → t.pc = (s.facet (s.blk b).facet).tvec ∧ (t.spl b g k).priv = true) ∧
       (s.vectors b g k 0 = false → t.pc = s.pc ∧ (t.spl b g k).parked = true ∧ t.mem = s.mem)) ∧
     (∀ c a, s.trapHeld b g k c = true → ∃ t : State, Sys2Proof.Machine.exec (.instructionFetchFault c a) s = .next t ∧
       t.mem = s.mem ∧ t.blocks = s.blocks) ∧
     (∀ c a, c < 256 → s.trapHeld b g k c = false → ∃ (t : State) (x : TrapState),
       Sys2Proof.Machine.exec (.instructionFetchFault c a) s = .next t ∧ (t.spl b g k).trap = some x ∧ x.epc = s.pc ∧
       x.cause = BitVec.ofNat 32 c ∧ x.lmask = s.lanes ∧ x.info = a ∧
       (s.vectors b g k c = false → t.pc = s.pc ∧ (t.spl b g k).parked = true ∧ t.mem = s.mem)))

/-- 07 R155, R158: a global load of executing lanes that pass every check starts: an operation in flight holds, for each
executing lane in ascending order, the address that its translation gives; no register and no byte of memory changes
yet, and the unit goes on when no lane's access leaves the package. The destination is held until the data land.

07 R155, R157-R159, 08 R180: a global store of executing lanes that pass every check puts one store in flight for each lane,
with the low bytes of its registers; no register changes, no byte is stored yet, and the unit goes on when no store leaves the
package and none is pending there. A release store, and any store to a page of type S, waits for every earlier access of its
lane. -/
def Obligations.GlobalAccessesStart : Prop :=
  (∀ (i : Instr) (g : Pred) (d : Reg) (n : Nat) (acq : Bool) (s : State) (ea : Nat → Dword)
     (hit : Nat → TlbEntry × Bool), (∀ l, s.loadAddr l i = some (g, d, n, acq, ea l)) → s.mayIssue i g = true →
     s.execs g ≠ [] → s.pendFull d ((n + 3) / 4) = false → s.passes (s.execs g) n .load false anyType ea hit →
     s.clean (s.execs g) n ea hit →
     ∃ (t : State) (o : LaneOp), Sys2Proof.Machine.exec i s = .next t ∧ t.ops.find s.nextId = some o ∧
       o.kind = .load ∧ o.bytes = n ∧ o.d = d ∧ o.acq = acq ∧ o.blk = s.unitBlk ∧ o.grp = s.unitGrp ∧
       o.acc.map (fun x => (x.lane, x.key)) = (s.execs g).map (fun l => (l, (hit l).1.key (ea l).toNat)) ∧
       sameRegs s t ∧ t.mem = s.mem ∧
       ((∀ l ∈ s.execs g, s.outside ((hit l).1.key (ea l).toNat) = false) → t.pc = s.pc + 4)) ∧
  (∀ (i : Instr) (g : Pred) (d : Reg) (n : Nat) (s : State) (ea : Nat → Dword) (hit : Nat → TlbEntry × Bool),
     (∀ l, s.storeAddr l i = some (g, d, n, ea l)) → s.mayIssue i g = true → s.execs g ≠ [] →
     s.passes (s.execs g) n .store true anyType ea hit →
     ∃ t : State, Sys2Proof.Machine.exec i s = .next t ∧ sameRegs s t ∧
       ((∀ l ∈ s.execs g, (hit l).1.dirty = true) → t.mem = s.mem) ∧
       (∀ l ∈ s.execs g, ∃ id x, s.nextId ≤ id ∧ t.stores.find id = some x ∧ x.thread = .lane s.unitBlk s.unitGrp l ∧
           x.cells = cellsAt ((hit l).1.key (ea l).toNat) (s.regBytes d l n) ∧ x.performed = false ∧
           ((hit l).1.mt = .s → x.after = id) ∧
           ∀ a w r h, i = .st g d a w r h → x.nt = (r == .nt && !orderedType (hit l).1.mt) ∧ (r = .sync → x.after = id)) ∧
       ((∀ l ∈ s.execs g, s.outside ((hit l).1.key (ea l).toNat) = false) → (∀ e ∈ s.stores, e.2.host = false) →
         t.pc = s.pc + 4))

/-- 07 R168-R171: an atomic of executing lanes that pass every check starts: an operation in flight holds the function,
the flags, the pair and, for each executing lane in ascending order, the address and the operands from D; no register
changes before it lands. The unit goes on where no address lies in host memory or in another package.

20 R414: a CAS.Q to host memory with HOSTCAP[0] = 0 raises 0xA2 for its lanes in host memory.

07 R170: the new value of a 32-bit atomic from the old value and its operands, for every function. -/
def Obligations.Atomics : Prop :=
  (∀ (i : Instr) (g : Pred) (d a : Reg) (f : AtomFn) (n : Nat) (fl : AtomFlags) (k : Option PairIx) (s : State)
     (hit : Nat → TlbEntry × Bool), atomicOf i = some (g, d, a, f, n, fl, k) → s.mayIssue i g = true →
     s.execs g ≠ [] → s.pendFull d ((n + 3) / 4) = false →
     s.passes (s.execs g) n .store true noAtomics (fun l => s.rdVPair a.toNat l) hit →
     s.clean (s.execs g) n (fun l => s.rdVPair a.toNat l) hit →
     (∀ (l : Nat) (ls : List Nat), n = 16 → s.hostcap = false →
       (s.execs g).filter (fun x => isHost ((hit x).1.key (s.rdVPair a.toNat x).toNat)) = l :: ls →
       Sys2Proof.Machine.exec i s = .next (s.trapWith 0xA2 (maskOfList (l :: ls)) (s.rdVPair a.toNat l))) ∧
     ((n = 16 → s.hostcap = true ∨ ∀ l ∈ s.execs g, isHost ((hit l).1.key (s.rdVPair a.toNat l).toNat) = false) →
     ∃ (t : State) (o : LaneOp), Sys2Proof.Machine.exec i s = .next t ∧ t.ops.find s.nextId = some o ∧
       o.kind = .atomic f ∧ o.bytes = n ∧ o.d = d ∧ o.pair = k ∧ o.acq = fl.acq ∧ o.ord = fl.ord ∧
       o.acc.map (fun x => (x.lane, x.key, x.opnds)) = (s.execs g).map (fun l =>
         (l, (hit l).1.key (s.rdVPair a.toNat l).toNat, s.atomOperands f d l n)) ∧
       (∀ x ∈ o.acc, x.val = none) ∧ sameRegs s t ∧
       ((∀ l ∈ s.execs g, atomOutside ((hit l).1.key (s.rdVPair a.toNat l).toNat) = false) → t.pc = s.pc + 4))) ∧
  (∀ old v b : Word,
     atomNew .add 4 old.toNat [v.toNat] = (old + v).toNat ∧
     atomNew .minS 4 old.toNat [v.toNat] = (if v.slt old then v else old).toNat ∧
     atomNew .minZ 4 old.toNat [v.toNat] = min old.toNat v.toNat ∧
     atomNew .maxS 4 old.toNat [v.toNat] = (if old.slt v then v else old).toNat ∧
     atomNew .maxZ 4 old.toNat [v.toNat] = max old.toNat v.toNat ∧
     atomNew .and 4 old.toNat [v.toNat] = (old &&& v).toNat ∧
     atomNew .or 4 old.toNat [v.toNat] = (old ||| v).toNat ∧
     atomNew .xor 4 old.toNat [v.toNat] = (old ^^^ v).toNat ∧
     atomNew .exch 4 old.toNat [v.toNat] = v.toNat ∧
     atomNew .incw 4 old.toNat [b.toNat] = (if b.toNat ≤ old.toNat then 0 else old.toNat + 1) ∧
     atomNew .decw 4 old.toNat [b.toNat] = (if old = 0 ∨ b.toNat < old.toNat then b.toNat else old.toNat - 1) ∧
     atomNew .addb 4 old.toNat [v.toNat, b.toNat] =
       (if old.toNat ≤ b.toNat then min (old.toNat + v.toNat) b.toNat else old.toNat) ∧
     atomNew .cas 4 old.toNat [v.toNat, b.toNat] = (if old = v then b else old).toNat)

/-- 07 R154, R155, R158: a core-local load of executing lanes whose addresses lie aligned in the shared memory of the
block starts an operation on those addresses, when no word of them is poisoned; a core-local store puts one store in flight for
each lane. Neither changes a register or a byte of memory yet, and the unit goes on.

07 R162-R164: SMAP of lanes that name windows of their own maps each window to its region and returns the old
mapping; a mapping that another window holds raises the stash-alias trap, 0x3A. -/
def Obligations.CoreLocalAccesses : Prop :=
  ((∀ (i : Instr) (g : Pred) (d : Reg) (n : Nat) (acq : Bool) (s : State) (ea : Nat → Word),
     (∀ l, s.localLoadAddr l i = some (g, d, n, acq, ea l)) → s.mayIssue i g = true → s.execs g ≠ [] →
     s.anyAcquiring (s.execs g) = false → s.pendFull d ((n + 3) / 4) = false →
     (∀ l ∈ s.execs g, (ea l).toNat % n = 0 ∧ (ea l).toNat + n ≤ s.unitNode.shared ∧
       s.poisoned (sharedKey s.unitBlk (ea l).toNat) n = false) →
     ∃ (t : State) (o : LaneOp), Sys2Proof.Machine.exec i s = .next t ∧ t.ops.find s.nextId = some o ∧
       o.kind = .load ∧ o.bytes = n ∧ o.d = d ∧ o.acq = acq ∧
       o.acc.map (fun x => (x.lane, x.key)) = (s.execs g).map (fun l => (l, sharedKey s.unitBlk (ea l).toNat)) ∧
       sameRegs s t ∧ t.mem = s.mem ∧ t.pc = s.pc + 4) ∧
   (∀ (i : Instr) (g : Pred) (d : Reg) (n : Nat) (s : State) (ea : Nat → Word),
     (∀ l, s.localStoreAddr l i = some (g, d, n, ea l)) → s.mayIssue i g = true → s.execs g ≠ [] →
     s.anyAcquiring (s.execs g) = false →
     (∀ l ∈ s.execs g, (ea l).toNat % n = 0 ∧ (ea l).toNat + n ≤ s.unitNode.shared) →
     ∃ t : State, Sys2Proof.Machine.exec i s = .next t ∧ sameRegs s t ∧ t.mem = s.mem ∧
       ((∀ e ∈ s.stores, e.2.host = false) → t.pc = s.pc + 4) ∧
       (∀ l ∈ s.execs g, ∃ id x, s.nextId ≤ id ∧ t.stores.find id = some x ∧ x.thread = .lane s.unitBlk s.unitGrp l ∧
           x.shared = some s.unitBlk ∧ x.cells = cellsAt (sharedKey s.unitBlk (ea l).toNat) (s.regBytes d l n)))) ∧
  (∀ (g : Pred) (d a b : Reg) (s : State), s.mayIssue (.smap g d a b) g = true → s.blocks.has s.unitBlk = true →
     s.execs g ≠ [] → s.anyAcquiring (s.execs g) = false →
     (∀ l ∈ s.execs g, (s.rdVPair a.toNat l).toNat % 4096 = 0 ∧ (s.rdVPair a.toNat l).toNat < 2 ^ 52 ∧
       (s.rdV b.toNat l).toNat < s.unitNode.stash / 4096) →
     (∀ l ∈ s.execs g, ∀ m ∈ s.execs g, l ≠ m → s.rdV b.toNat l ≠ s.rdV b.toNat m ∧
       (s.rdVPair a.toNat l ≠ s.rdVPair a.toNat m ∨ s.rdVPair a.toNat l = 0)) →
     ((∀ l ∈ s.execs g, s.rdVPair a.toNat l ≠ 0 → ∀ e ∈ (s.blk s.unitBlk).stash,
         e.1 ≠ (s.rdV b.toNat l).toNat → e.2.maps ≠ (s.rdVPair a.toNat l).toNat) →
       (∀ e ∈ s.stores, e.2.stash.isSome = false) → ∃ t : State,
       Sys2Proof.Machine.exec (.smap g d a b) s = .next t ∧ t.pc = s.pc + 4 ∧ t.mem = s.mem ∧
       ∀ l ∈ s.execs g,
         t.rdVPair d.toNat l = BitVec.ofNat 64 ((s.blk s.unitBlk).winMaps (s.rdV b.toNat l).toNat) ∧
         (t.blk s.unitBlk).winMaps (s.rdV b.toNat l).toNat = (s.rdVPair a.toNat l).toNat) ∧
     (∀ l, s.execs g = [l] → s.rdVPair a.toNat l ≠ 0 → ∀ e ∈ (s.blk s.unitBlk).stash,
       e.1 ≠ (s.rdV b.toNat l).toNat → e.2.maps = (s.rdVPair a.toNat l).toNat →
       Sys2Proof.Machine.exec (.smap g d a b) s = .next (s.trapWith 0x3A (laneBit l) (s.rdVPair a.toNat l))))

/-- 07 R156 steps 1 and 2: an executing lane with a misaligned address makes the whole instruction raise the
misaligned-access trap, 0x36, of the misaligned lanes with the address of the lowest of them; with all aligned, an
address at or above 2^52 the address-range trap, 0x37. Here for loads, stores and atomics of global memory. -/
def Obligations.AlignmentAndRange : Prop :=
  ∀ (i : Instr) (g : Pred) (n : Nat) (s : State) (ea : Nat → Dword),
    (∀ l, (∃ d q, s.loadAddr l i = some (g, d, n, q, ea l) ∧ s.pendFull d ((n + 3) / 4) = false) ∨
      (∃ d, s.storeAddr l i = some (g, d, n, ea l)) ∨
      ∃ d a f fl k, atomicOf i = some (g, d, a, f, n, fl, k) ∧ ea l = s.rdVPair a.toNat l ∧
        s.pendFull d ((n + 3) / 4) = false) →
    s.mayIssue i g = true → s.anyAcquiring (s.execs g) = false →
    (∀ l ∈ s.execs g, (ea l).toNat % n ≠ 0 → (∀ j ∈ s.execs g, j < l → (ea j).toNat % n = 0) →
      ∃ m : Mask, Sys2Proof.Machine.exec i s = .next (s.trapWith 0x36 m (ea l)) ∧
        ∀ j, hasLane m j = true ↔ j ∈ s.execs g ∧ (ea j).toNat % n ≠ 0) ∧
    ((∀ l ∈ s.execs g, (ea l).toNat % n = 0) → ∀ l ∈ s.execs g, 2 ^ 52 ≤ (ea l).toNat →
      (∀ j ∈ s.execs g, j < l → (ea j).toNat < 2 ^ 52) →
      ∃ m : Mask, Sys2Proof.Machine.exec i s = .next (s.trapWith 0x37 m (ea l)) ∧
        ∀ j, hasLane m j = true ↔ j ∈ s.execs g ∧ 2 ^ 52 ≤ (ea j).toNat)

/-- 07 R161, R174-R176: a WAITC whose comparison holds at the homes of every executing lane completes, and writes no register;
one whose comparison fails in some lane blocks its unit at the instruction. On a page of type S it waits first until its lanes'
earlier accesses are performed.

07 R166, R167, 08 R181, R188, 14 R300: PREF goes on and changes no register and no byte of memory. FENCE.REL waits while an
access of its lanes is in flight, and then makes their later stores and atomics wait for everything issued before. FENCE.ACQ, once
their loads have returned, and FENCE.AR, once none of their accesses is in flight, make the core drop the copies in its L1 and its
stashes; on a comet core the lane cache drops its lines, and the block's stash its copies, as an acquire may (07 R163; the model's
choice, log 27). -/
def Obligations.WaitsAndFences : Prop :=
  (∀ (g : Pred) (d a : Reg) (w : Bool) (c : WCmp) (s : State) (hit : Nat → TlbEntry × Bool),
     s.mayIssue (.waitc g d a w c) g = true → s.execs g ≠ [] → s.staysPut →
     s.passes (s.execs g) (if w then 8 else 4) .load false noAtomics (fun l => s.rdVPair a.toNat l) hit →
     s.clean (s.execs g) (if w then 8 else 4) (fun l => s.rdVPair a.toNat l) hit →
     (∀ l ∈ s.execs g, s.mayPerform (.lane s.unitBlk s.unitGrp l) s.nextId 0
       ((hit l).1.key (s.rdVPair a.toNat l).toNat) (if w then 8 else 4) (hit l).1.mt .load = true ∧
       s.grants .read ((hit l).1.key (s.rdVPair a.toNat l).toNat) (if w then 8 else 4) ∧
       ((hit l).1.mt = .s → s.anyBusy (s.execs g) = false)) →
     ∀ holds : Nat → Bool,
     (∀ l, holds l = if w then waitcHolds c (s.mem64 ((hit l).1.key (s.rdVPair a.toNat l).toNat)) (s.rdVPair d.toNat l)
       else waitcHolds c (s.mem32 ((hit l).1.key (s.rdVPair a.toNat l).toNat)) (s.rdV d.toNat l)) →
     ∃ t : State, Sys2Proof.Machine.exec (.waitc g d a w c) s = .next t ∧ sameRegs s t ∧ t.mem = s.mem ∧
       ((∀ l ∈ s.execs g, holds l = true) → t.pc = s.pc + 4) ∧
       ((∃ l ∈ s.execs g, holds l = false) → t.pc = s.pc ∧ t.blockedOn (.waitc g d a w c))) ∧
  ((∀ (g : Pred) (a : Reg) (s : State), s.mayIssue (.pref g a) g = true → ∃ t : State,
     Sys2Proof.Machine.exec (.pref g a) s = .next t ∧ t.pc = s.pc + 4 ∧ sameRegs s t ∧ t.mem = s.mem) ∧
   (∀ (g : Pred) (s : State) (b gr k : Nat), s.focus = .split b gr k → s.mayIssue (.fenceRel g) g = true →
     (s.anyBusy (s.execs g) = true → Sys2Proof.Machine.exec (.fenceRel g) s = .next s) ∧
     (s.anyBusy (s.execs g) = false → ∃ t : State, Sys2Proof.Machine.exec (.fenceRel g) s = .next t ∧ t.pc = s.pc + 4 ∧
       sameRegs s t ∧ t.mem = s.mem ∧
       ∀ l, (t.grp b gr).relBound.getD l 0 = if l ∈ s.execs g then s.nextId else (s.grp b gr).relBound.getD l 0)) ∧
   (∀ (g : Pred) (s : State) (b gr k : Nat), s.focus = .split b gr k → s.mayIssue (.fenceAcq g) g = true →
     s.execs g ≠ [] → (∀ l ∈ s.execs g, s.loading b gr l = false) →
     ∃ t : State, Sys2Proof.Machine.exec (.fenceAcq g) s = .next t ∧ t.pc = s.pc + 4 ∧ sameRegs s t ∧ t.mem = s.mem ∧
       ∀ c, s.cacheCore c = some (s.blk b).core → t.copies.find c = none) ∧
   (∀ (g : Pred) (s : State) (c : Nat), s.focus = .comet c → s.mayIssue (.fenceAcq g) g = true →
     s.execs g ≠ [] → (∀ l ∈ s.execs g, s.loading s.unitBlk s.unitGrp l = false) →
     ∃ t : State, Sys2Proof.Machine.exec (.fenceAcq g) s = .next t ∧ t.pc = s.pc + 4 ∧ sameRegs s t ∧ t.mem = s.mem ∧
       (∀ p < 32, t.copies.find (4096 + 32 * (c / 8) + p) = none) ∧ t.copies.find (stashCache s.unitBlk) = none) ∧
   (∀ (g : Pred) (s : State) (b gr k : Nat), s.focus = .split b gr k → s.mayIssue (.fenceAr g) g = true →
     s.execs g ≠ [] → s.anyBusy (s.execs g) = false →
     ∃ t : State, Sys2Proof.Machine.exec (.fenceAr g) s = .next t ∧ t.pc = s.pc + 4 ∧ sameRegs s t ∧ t.mem = s.mem ∧
       (∀ c, s.cacheCore c = some (s.blk b).core → t.copies.find c = none) ∧
       ∀ l ∈ s.execs g, (t.grp b gr).relBound.getD l 0 = s.nextId))

/-- 09 R201-R203, 08 R182: GIVE by the owner of a bound tile passes it into transfer to any column of the sequencer, once the
lanes' earlier core-local accesses are done; TAKE of an owned tile does nothing, TAKE of a tile in transfer to the group with no
write pending, given and last written in an earlier clock, passes it to the group, and any other TAKE of a bound tile waits; a tile that no handle binds raises the tile-unbound trap, 0x42, and GIVE by another than the
owner the tile-ownership trap, 0x40. -/
def Obligations.TileHandOver : Prop :=
  ∀ (g : Pred) (a : Reg) (s : State) (b gr k tile : Nat), s.focus = .split b gr k → s.exec g ≠ 0 →
    tile = (s.blk b).groupTile gr a.toNat →
    (s.mayIssue (.give g a) g = true →
      ((s.blk b).tileBound tile = true → (s.blk b).tile tile = .owned (.group gr) → s.localBusy (s.execs g) = false →
        ∃ t : State, Sys2Proof.Machine.exec (.give g a) s = .next t ∧ t.pc = s.pc + 4 ∧ sameRegs s t ∧ t.mem = s.mem ∧
          (t.blk b).tile tile = .transfer .seqAny ∧ ∀ j, j ≠ tile → (t.blk b).tile j = (s.blk b).tile j) ∧
      ((s.blk b).tileBound tile = true → (s.blk b).tile tile = .owned (.group gr) → s.localBusy (s.execs g) = true →
        Sys2Proof.Machine.exec (.give g a) s = .next s) ∧
      ((s.blk b).tileBound tile = false →
        Sys2Proof.Machine.exec (.give g a) s = .next (s.trapWith 0x42 (s.exec g) 0)) ∧
      ((s.blk b).tileBound tile = true → (s.blk b).tile tile ≠ .owned (.group gr) →
        Sys2Proof.Machine.exec (.give g a) s = .next (s.takeTrap 0x40))) ∧
    (s.mayIssue (.take g a) g = true →
      ((s.blk b).tileBound tile = true → (s.blk b).tile tile = .owned (.group gr) →
        ∃ t : State, Sys2Proof.Machine.exec (.take g a) s = .next t ∧ t.pc = s.pc + 4 ∧
          (∀ j, (t.blk b).tile j = (s.blk b).tile j)) ∧
      ((s.blk b).tileBound tile = true → (s.blk b).tile tile = .transfer (.group gr) → s.pend b tile = 0 →
        (∀ n, (s.blk b).gave.find tile = some n → n < s.now) →
        ∃ t : State, Sys2Proof.Machine.exec (.take g a) s = .next t ∧ t.pc = s.pc + 4 ∧ sameRegs s t ∧ t.mem = s.mem ∧
          (t.blk b).tile tile = .owned (.group gr) ∧ ∀ j, j ≠ tile → (t.blk b).tile j = (s.blk b).tile j) ∧
      ((s.blk b).tileBound tile = true → (s.blk b).tile tile ≠ .owned (.group gr) →
        ((s.blk b).tile tile ≠ .transfer (.group gr) ∨ s.pend b tile ≠ 0 ∨
          ∃ n, (s.blk b).gave.find tile = some n ∧ s.now ≤ n) → s.staysPut →
        ∃ t : State, Sys2Proof.Machine.exec (.take g a) s = .next t ∧ t.pc = s.pc ∧
          t.blockedOn (.take tile (s.exec g))) ∧
      ((s.blk b).tileBound tile = false →
        Sys2Proof.Machine.exec (.take g a) s = .next (s.trapWith 0x42 (s.exec g) 0)))

/-- 09 R208, R209: an arrival adds the lanes to those of the group at the barrier; when every lane of the group that has
not exited has arrived, the group arrives and N rises by 1; when N reaches X, the phase bit flips, N is 0 and no group
counts as arrived. A lane that arrives twice in a phase raises the double-arrival trap, 0x60.

09 R209: BAR.WAIT departs when its group is not counted as arrived, and waits otherwise; BAR.SYNC departs when the
phase that its lanes arrived in has completed, or completes with them as the last arrival, and waits otherwise. -/
def Obligations.BlockBarriers : Prop :=
  (∀ (g : Pred) (n : BitVec 4) (s : State) (b gr k : Nat) (bar : Barrier) (live : Mask), s.focus = .split b gr k →
     s.mayIssue (.barArr g n) g = true → s.exec g ≠ 0 → s.anyBusy (s.execs g) = false →
     bar = (s.blk b).bar n.toNat → live = minusLanes (allLanes (s.blk b).width) (s.grp b gr).exited → live ≠ 0 →
     (bar.of gr).arrived = false → bar.n < bar.x →
     (s.exec g &&& (bar.of gr).lanes = 0 → ∃ t : State,
       Sys2Proof.Machine.exec (.barArr g n) s = .next t ∧ t.pc = s.pc + 4 ∧ sameRegs s t ∧ t.mem = s.mem ∧
       (live &&& ~~~((bar.of gr).lanes ||| s.exec g) ≠ 0 →
         ((t.blk b).bar n.toNat).n = bar.n ∧ ((t.blk b).bar n.toNat).p = bar.p ∧
         (((t.blk b).bar n.toNat).of gr).lanes = (bar.of gr).lanes ||| s.exec g) ∧
       (live &&& ~~~((bar.of gr).lanes ||| s.exec g) = 0 → bar.n + 1 < bar.x →
         ((t.blk b).bar n.toNat).n = bar.n + 1 ∧ ((t.blk b).bar n.toNat).p = bar.p ∧
         (((t.blk b).bar n.toNat).of gr).arrived = true) ∧
       (live &&& ~~~((bar.of gr).lanes ||| s.exec g) = 0 → bar.n + 1 = bar.x →
         ((t.blk b).bar n.toNat).n = 0 ∧ ((t.blk b).bar n.toNat).p = !bar.p ∧
         (((t.blk b).bar n.toNat).of gr).arrived = false)) ∧
     (s.exec g &&& (bar.of gr).lanes ≠ 0 →
       Sys2Proof.Machine.exec (.barArr g n) s =
         .next (s.trapWith 0x60 (s.exec g &&& (bar.of gr).lanes) (BitVec.ofNat 64 n.toNat)))) ∧
  (∀ (g : Pred) (n : BitVec 4) (s : State) (b gr k : Nat) (bar : Barrier) (live : Mask), s.focus = .split b gr k →
     s.exec g ≠ 0 → bar = (s.blk b).bar n.toNat →
     live = minusLanes (allLanes (s.blk b).width) (s.grp b gr).exited →
     (s.mayIssue (.barWait g n) g = true → ∃ t : State, Sys2Proof.Machine.exec (.barWait g n) s = .next t ∧
       ((bar.of gr).arrived = false → t.pc = s.pc + 4) ∧
       ((bar.of gr).arrived = true → s.staysPut → t.pc = s.pc ∧ t.blockedOn (.barrier n.toNat))) ∧
     (s.mayIssue (.barSync g n) g = true → s.anyBusy (s.execs g) = false →
       (s.exec g &&& ~~~(bar.of gr).done = 0 → ∃ t : State,
         Sys2Proof.Machine.exec (.barSync g n) s = .next t ∧ t.pc = s.pc + 4 ∧ sameRegs s t) ∧
       ((bar.of gr).done = 0 → (bar.of gr).sync = 0 → s.exec g &&& (bar.of gr).lanes = 0 → live ≠ 0 →
         (bar.of gr).arrived = false → bar.n < bar.x → live &&& ~~~((bar.of gr).lanes ||| s.exec g) = 0 → ∃ t : State,
         Sys2Proof.Machine.exec (.barSync g n) s = .next t ∧ sameRegs s t ∧
         (bar.n + 1 = bar.x → t.pc = s.pc + 4 ∧ ((t.blk b).bar n.toNat).p = !bar.p) ∧
         (bar.n + 1 < bar.x → s.staysPut → t.pc = s.pc ∧ t.blockedOn (.barrier n.toNat) ∧
           ((t.blk b).bar n.toNat).n = bar.n + 1))))

/-- 14 R298: in a block outside any block cluster the cluster-barrier instructions trap with 0x64 and the barrier number; in
a cluster CBAR.ARR of lanes that have not arrived goes on, CBAR.WAIT departs when its group is not counted as arrived, and
CBAR.SYNC when its lanes' phase has completed, each once its half is open, and waits before that.

16 R350-R352: DBAR of a group that waits at a valid object and whose phase has completed departs; one that arrives
counts as arrived and waits; an object that is not valid, or lanes that name different objects, raise the die-barrier
trap, 0x65, with the address, and so do lanes whose arrival was taken back while their block was out. Lanes that have arrived are
not checked again: they wait, and depart when their phase has completed.

16 R352: a split that waits at a die-barrier object departs when the phase that its lanes arrived in has completed, whatever
its registers hold by then. -/
def Obligations.ClusterAndDieBarriers : Prop :=
  (∀ (g : Pred) (n : BitVec 4) (s : State) (b gr k : Nat), s.focus = .split b gr k → s.exec g ≠ 0 →
     (s.clusterGang b = none →
       (s.mayIssue (.cbarSync g n) g = true →
         Sys2Proof.Machine.exec (.cbarSync g n) s = .next (s.trapWith 0x64 (s.exec g) (BitVec.ofNat 64 n.toNat))) ∧
       (s.mayIssue (.cbarArr g n) g = true →
         Sys2Proof.Machine.exec (.cbarArr g n) s = .next (s.trapWith 0x64 (s.exec g) (BitVec.ofNat 64 n.toNat))) ∧
       (s.mayIssue (.cbarWait g n) g = true →
         Sys2Proof.Machine.exec (.cbarWait g n) s = .next (s.trapWith 0x64 (s.exec g) (BitVec.ofNat 64 n.toNat)))) ∧
     (∀ (qi : Nat) (q : Gang) (x : GangBar), s.clusterGang b = some (qi, q) → x = s.gangBar q n.toNat →
       (s.mayIssue (.cbarArr g n) g = true → s.anyBusy (s.execs g) = false →
         s.exec g &&& (x.bar.of (q.key b gr)).lanes = 0 →
         ∃ t : State, Sys2Proof.Machine.exec (.cbarArr g n) s = .next t ∧ t.pc = s.pc + 4 ∧ sameRegs s t ∧ t.mem = s.mem) ∧
       (s.mayIssue (.cbarWait g n) g = true → (x.bar.of (q.key b gr)).arrived = false →
         (s.memberLow b = true → x.openLow ≤ s.now) →
         ∃ t : State, Sys2Proof.Machine.exec (.cbarWait g n) s = .next t ∧ t.pc = s.pc + 4 ∧ sameRegs s t ∧ t.mem = s.mem) ∧
       (s.mayIssue (.cbarWait g n) g = true → s.memberLow b = true → s.now < x.openLow → s.staysPut →
         ∃ t : State, Sys2Proof.Machine.exec (.cbarWait g n) s = .next t ∧ t.pc = s.pc ∧
           t.blockedOn (.clusterBarrier n.toNat)) ∧
       (s.mayIssue (.cbarSync g n) g = true → s.anyBusy (s.execs g) = false →
         s.exec g &&& ~~~(x.bar.of (q.key b gr)).done = 0 → (s.memberLow b = true → x.openLow ≤ s.now) →
         ∃ t : State, Sys2Proof.Machine.exec (.cbarSync g n) s = .next t ∧ t.pc = s.pc + 4 ∧ sameRegs s t ∧ t.mem = s.mem))) ∧
  (∀ (g : Pred) (a : Reg) (s : State) (b gr k l : Nat) (ea : Dword) (e : TlbEntry) (l1 : Bool) (o : Nat),
     s.focus = .split b gr k → (s.spl b gr k).wait = .ready → s.mayIssue (.dbar g a) g = true → s.exec g ≠ 0 →
     l = lowestLane (s.exec g) →
     ea = s.rdVPair a.toNat l → s.anyAcquiring (s.execs g) = false → ea.toNat % 64 = 0 → ea.toNat < 2 ^ 52 →
     s.resolve s.site .store true ea.toNat = .ok e l1 → e.mt = .n → o = e.key ea.toNat → s.biasHeld o = false →
     (isRemote o = false → s.grants .read o 64) → s.poisoned o 64 = false →
     ((isRemote o = false ∧ s.mem.read o 4 = 0x52414244 ∧ s.mem.read (o + 4) 4 ≤ 3 ∧
         s.mem.read (o + 8 + 2 * (s.blk b).die) 2 ≠ 0 ∧ ∀ j ∈ s.execs g, s.rdVPair a.toNat j = ea) →
       s.anyBusy (s.execs g) = false →
       (s.exec g &&& ~~~(((s.dbars.getD o default).groups.getD (64 * b + gr) default).done) = 0 → ∃ t : State,
         Sys2Proof.Machine.exec (.dbar g a) s = .next t ∧ t.pc = s.pc + 4 ∧ sameRegs s t ∧ t.mem = s.mem) ∧
       ((s.dbars.getD o default).groups.getD (64 * b + gr) default = default →
         (s.dbars.getD o default).failed.getD (64 * b + gr) 0 = 0 → s.staysPut →
         minusLanes (allLanes (s.blk b).width) (s.grp b gr).exited = s.exec g → ∃ t : State,
         Sys2Proof.Machine.exec (.dbar g a) s = .next t ∧ t.pc = s.pc ∧ t.blockedOn (.dieBarrier o ea (s.exec g)) ∧
         ((t.dbars.getD o default).groups.getD (64 * b + gr) default).arrived = true)) ∧
     ((isRemote o = true ∨ s.mem.read o 4 ≠ 0x52414244 ∨ 3 < s.mem.read (o + 4) 4 ∨
         s.mem.read (o + 8 + 2 * (s.blk b).die) 2 = 0 ∨ ∃ j ∈ s.execs g, s.rdVPair a.toNat j ≠ ea) →
       (s.dbars.getD o default).groups.getD (64 * b + gr) default = default →
       (s.dbars.getD o default).failed.getD (64 * b + gr) 0 = 0 → s.anyBusy (s.execs g) = false →
       Sys2Proof.Machine.exec (.dbar g a) s = .next (s.trapWith 0x65 (s.exec g) ea)) ∧
     ((s.dbars.getD o default).groups.getD (64 * b + gr) default = default →
       s.exec g &&& ~~~((s.dbars.getD o default).failed.getD (64 * b + gr) 0) = 0 → s.vectors b gr k 0x65 = false →
       ∃ t : State, Sys2Proof.Machine.exec (.dbar g a) s = .next t ∧ t.pc = s.pc ∧ (t.spl b gr k).parked = true ∧
         ((t.spl b gr k).trap.map fun x => (x.lmask, x.info)) = some (s.exec g, ea))) ∧
  (∀ (g : Pred) (a : Reg) (s : State) (b gr k o n : Nat) (ea : Dword) (m : Mask), s.focus = .split b gr k →
     s.mayIssue (.dbar g a) g = true → s.exec g ≠ 0 → (s.spl b gr k).wait = .blocked (.dieBarrier o ea m) n →
     m &&& ~~~(((s.dbars.getD o default).groups.getD (64 * b + gr) default).done) = 0 →
     ∃ t : State, Sys2Proof.Machine.exec (.dbar g a) s = .next t ∧ t.pc = s.pc + 4 ∧ sameRegs s t ∧ t.mem = s.mem)

/-- 09 R211: RWAIT with a filled slot gives RI to every executing lane, advances RI modulo the slot count and moves one slot
from FILLED to HELD; with none it waits. RDONE advances DI and moves one slot from HELD to FREE; with none held it raises
the ring-underflow trap, 0x63. An undeclared ring raises 0x62.

15 R321: EMIT of one lane whose record stands in the block's shared memory, to a queue of the block's partition: with room
it raises the queue's TAIL by 1 and puts the stores of the record and of its stamp in flight, and writes no register; its unit
waits at the instruction until they are performed (the wait is the model's, log 23; its end stands in StepRunsLaneInstruction and
StepRunsOtherTurns); with none the unit waits at the instruction; a queue that is none, or of another partition, raises the queue
trap, 0x66. -/
def Obligations.RingsAndRecords : Prop :=
  (∀ (g : Pred) (d : Reg) (r : BitVec 4) (s : State) (x : Ring), s.exec g ≠ 0 → s.blocks.has s.unitBlk = true →
     (s.mayIssue (.rwait g d r) g = true →
       ((s.blk s.unitBlk).rings.find r.toNat = some x → x.filled ≠ 0 → ∃ t : State,
         Sys2Proof.Machine.exec (.rwait g d r) s = .next t ∧ t.pc = s.pc + 4 ∧ t.mem = s.mem ∧
         (∀ l ∈ s.execs g, t.rdV d.toNat l = BitVec.ofNat 32 x.ri) ∧
         (t.blk s.unitBlk).rings.find r.toNat =
           some { x with ri := (x.ri + 1) % x.slots, filled := x.filled - 1, held := x.held + 1 }) ∧
       ((s.blk s.unitBlk).rings.find r.toNat = some x → x.filled = 0 → s.staysPut → ∃ t : State,
         Sys2Proof.Machine.exec (.rwait g d r) s = .next t ∧ t.pc = s.pc ∧ t.blockedOn (.ring r.toNat)) ∧
       ((s.blk s.unitBlk).rings.find r.toNat = none →
         Sys2Proof.Machine.exec (.rwait g d r) s = .next (s.trapWith 0x62 (s.exec g) (r.setWidth 64)))) ∧
     (s.mayIssue (.rdone g r) g = true →
       ((s.blk s.unitBlk).rings.find r.toNat = some x → x.held ≠ 0 → s.anyBusy (s.execs g) = false → ∃ t : State,
         Sys2Proof.Machine.exec (.rdone g r) s = .next t ∧ t.pc = s.pc + 4 ∧ sameRegs s t ∧ t.mem = s.mem ∧
         (t.blk s.unitBlk).rings.find r.toNat =
           some { x with di := (x.di + 1) % x.slots, held := x.held - 1, free := x.free + 1 }) ∧
       ((s.blk s.unitBlk).rings.find r.toNat = some x → x.held = 0 →
         Sys2Proof.Machine.exec (.rdone g r) s = .next (s.trapWith 0x63 (s.exec g) (r.setWidth 64))) ∧
       ((s.blk s.unitBlk).rings.find r.toNat = none →
         Sys2Proof.Machine.exec (.rdone g r) s = .next (s.trapWith 0x62 (s.exec g) (r.setWidth 64))))) ∧
  (∀ (g : Pred) (a b : Reg) (s : State) (l src q o slot : Nat) (e e2 : TlbEntry) (l1 l2 : Bool),
     s.mayIssue (.emit g a b) g = true → s.execs g = [l] → s.anyBusy [l] = false →
     src = (s.rdVPair a.toNat l).toNat - 2 ^ 63 → (s.rdVPair a.toNat l).toNat = 2 ^ 63 + src → src % 64 = 0 →
     src + 64 ≤ s.unitNode.shared → src < 2 ^ 32 → s.poisoned (sharedKey s.unitBlk src) 64 = false →
     q = emitQueue s.unitNode (s.rdVPair b.toNat l).toNat → q ≠ 0 → q % 128 = 0 → q < 2 ^ 52 →
     s.resolve s.site .store true q = .ok e l1 → noAtomics e.mt = false → o = e.key q → s.biasHeld o = false →
     s.grants .read o 128 → s.poisoned o 128 = false →
     (s.mem.read o 4 = 0x51544E49 → s.mem.read (o + 52) 4 = (s.blk s.unitBlk).ptag.toNat → 1 ≤ s.mem.read (o + 4) 4 →
       (s.mem.read (o + 16) 8 - s.mem.read (o + 32) 8 + 1 ≤ s.mem.read (o + 4) 4 →
         slot = s.mem.read (o + 40) 8 + 64 * (s.mem.read (o + 16) 8 % s.mem.read (o + 4) 4) → slot < 2 ^ 64 →
         s.resolve s.site .store true slot = .ok e2 l2 → noAtomics e2.mt = false → e.dirty = true → e2.dirty = true →
         s.biasHeld (e2.key slot) = false → s.pageHeld (e2.key slot) = false →
         s.reached s.site.asker .atomic (o + 16) 8 = .ok → o % 64 = 0 → s.mem.wf = true →
         ∃ t : State, Sys2Proof.Machine.exec (.emit g a b) s = .next t ∧ t.pc = s.pc ∧ sameRegs s t ∧
           t.blockedOn (.stamps (s.nextId + 1)) ∧
           t.mem64 (o + 16) = s.mem64 (o + 16) + 1 ∧ (∀ x, x < o + 16 ∨ o + 24 ≤ x → t.mem.get x = s.mem.get x) ∧
           (∃ x, t.stores.find s.nextId = some x ∧ x.cells = cellsAt (e2.key slot + 8)
             ((s.blk s.unitBlk).shared.bytes (src + 8) 56) ∧ x.inst = s.nextId + 1 ∧ x.performed = false) ∧
           ∃ x, t.stores.find (s.nextId + 1) = some x ∧
             x.cells = cellsAt (e2.key slot) (leBytes 8 (s.mem.read (o + 16) 8 + 1)) ∧ x.inst = s.nextId + 1 ∧
             x.after = s.nextId + 1 ∧ x.performed = false) ∧
       (s.mem.read (o + 4) 4 < s.mem.read (o + 16) 8 - s.mem.read (o + 32) 8 + 1 → s.staysPut →
         ∃ t : State, Sys2Proof.Machine.exec (.emit g a b) s = .next t ∧ t.pc = s.pc ∧ sameRegs s t ∧ t.mem = s.mem ∧
           t.blockedOn (.emit q))) ∧
     (s.mem.read o 4 ≠ 0x51544E49 ∨ s.mem.read (o + 52) 4 ≠ (s.blk s.unitBlk).ptag.toNat →
       ∃ m : Mask, Sys2Proof.Machine.exec (.emit g a b) s = .next (s.trapWith 0x66 m (BitVec.ofNat 64 q)) ∧
         ∀ j, hasLane m j = true ↔ j = l))

/-- 09 R214, R215: ESET writes an engine register of the group from the lowest executing lane, without the reserved bits;
EGET reads one, the status with CAUSE and the number of operations not complete, a reserved one 0; ECMD with CLEAR makes
the writable registers and CAUSE 0, and with another command than GO and CLEAR it raises the engine-command trap, 0x81.

09 R216-R219, 10 R234, 19 R392: GO of a copy engine, COPY, GO of the sparse-index engine and GO of Lodestar start an
operation that holds a copy of the group's engine registers, when no error stands, the arguments are good, the engine has
room and the lanes' earlier accesses are done; COPY takes SRC and DST from its pairs and writes them to the registers. A
standing error raises 0x82, bad arguments 0x80, and a full engine makes the unit wait.

09 R218: EWAIT on a counter, in the block's shared memory or in global memory, completes once the counter has reached its
target, and waits before that, when no earlier access of its lane and nothing else holds the read back; an address that is no
counter's raises the engine-argument trap, 0x80. -/
def Obligations.EngineInstructions : Prop :=
  ((∀ (g : Pred) (n : BitVec 2) (a : Reg) (r : BitVec 6) (s : State) (b gr k : Nat), s.focus = .split b gr k →
     s.mayIssue (.eset g n a r) g = true → s.exec g ≠ 0 →
     (s.engCause b gr n.toNat = 0 → ∃ t : State, Sys2Proof.Machine.exec (.eset g n a r) s = .next t ∧ t.pc = s.pc + 4 ∧
       sameRegs s t ∧ t.mem = s.mem ∧
       t.engReg b gr n.toNat r.toNat =
         (if statusReg n.toNat ≤ r.toNat then s.engReg b gr n.toNat r.toNat
          else s.rdV a.toNat (lowestLane (s.exec g)) &&& engMask n.toNat r.toNat) ∧
       ∀ m j, j < 64 → ¬(m = n.toNat ∧ j = r.toNat) → t.engReg b gr m j = s.engReg b gr m j) ∧
     (s.engCause b gr n.toNat ≠ 0 →
       Sys2Proof.Machine.exec (.eset g n a r) s = .next (s.trapWith 0x82 (s.exec g) (s.engErr b gr n.toNat)))) ∧
   (∀ (g : Pred) (d : Reg) (n : BitVec 2) (r : BitVec 6) (s : State), s.mayIssue (.eget g d n r) g = true →
     ∃ t : State, Sys2Proof.Machine.exec (.eget g d n r) s = .next t ∧ t.pc = s.pc + 4 ∧
       RegsOnly (s.execs g) [d.toNat] [] [] s t ∧
       ∀ l ∈ s.execs g, t.rdV d.toNat l =
         if r.toNat = statusReg n.toNat then
           (s.engReg s.unitBlk s.unitGrp n.toNat r.toNat &&& 0xFF00) |||
             BitVec.ofNat 32 (s.engOut s.unitBlk s.unitGrp n.toNat)
         else if statusReg n.toNat + 2 < r.toNat then 0
         else s.engReg s.unitBlk s.unitGrp n.toNat r.toNat) ∧
   (∀ (i : Instr) (g : Pred) (n : Nat) (cmd : BitVec 6), clearForm i = some (g, n, cmd) →
     ∀ (s : State) (b gr k : Nat), s.focus = .split b gr k → s.mayIssue i g = true → s.exec g ≠ 0 →
     (cmd = 1 → ∃ t : State, Sys2Proof.Machine.exec i s = .next t ∧ t.pc = s.pc + 4 ∧ sameRegs s t ∧ t.mem = s.mem ∧
       (∀ r ≤ statusReg n, t.engReg b gr n r = 0) ∧ t.engCause b gr n = 0) ∧
     (cmd ≠ 1 → Sys2Proof.Machine.exec i s = .next (s.trapWith 0x81 (s.exec g) (cmd.setWidth 64))))) ∧
  ((∀ (i : Instr) (g : Pred) (n room : Nat) (s : State) (bad : Bool),
     (∃ m a, i = .ecmdGo g m a ∧ n = (if m then 1 else 0) ∧ room = 16 ∧
         bad = s.copyBad s.unitBlk (s.capture s.unitBlk s.unitGrp n)) ∨
       (∃ a, i = .sparseIndexGo g a ∧ n = 2 ∧ room = 1 ∧
         bad = s.sparseBad s.unitBlk (s.capture s.unitBlk s.unitGrp 2)) →
     s.mayIssue i g = true → s.exec g ≠ 0 →
     (s.engCause s.unitBlk s.unitGrp n = 0 → bad = false → s.engOut s.unitBlk s.unitGrp n < room →
       s.anyBusy (s.execs g) = false → ∃ (t : State) (o : EngineOp), Sys2Proof.Machine.exec i s = .next t ∧
       t.pc = s.pc + 4 ∧ sameRegs s t ∧ t.mem = s.mem ∧ t.engines.find s.nextId = some o ∧ o.engine = n ∧
       o.blk = s.unitBlk ∧ o.grp = s.unitGrp ∧ o.lane = lowestLane (s.exec g) ∧
       ∀ r < 64, o.regs.getD r 0 = s.engReg s.unitBlk s.unitGrp n r) ∧
     (s.engCause s.unitBlk s.unitGrp n ≠ 0 →
       Sys2Proof.Machine.exec i s = .next (s.trapWith 0x82 (s.exec g) (s.engErr s.unitBlk s.unitGrp n))) ∧
     (s.engCause s.unitBlk s.unitGrp n = 0 → bad = true →
       Sys2Proof.Machine.exec i s = .next (s.trapWith 0x80 (s.exec g) 0)) ∧
     (s.engCause s.unitBlk s.unitGrp n = 0 → bad = false → room ≤ s.engOut s.unitBlk s.unitGrp n → s.staysPut →
       ∃ t : State, Sys2Proof.Machine.exec i s = .next t ∧ t.pc = s.pc ∧ t.blockedOn (.engineFull n))) ∧
   (∀ (g : Pred) (m : Bool) (a b : Reg) (s : State) (bk gr k n l : Nat) (regs : Table Word), s.focus = .split bk gr k →
     n = (if m then 1 else 0) → l = lowestLane (s.exec g) → s.mayIssue (.copy g m a b) g = true → s.exec g ≠ 0 →
     s.engCause bk gr n = 0 → regs = s.copyRegs n a b l → s.copyBad bk regs = false → s.engOut bk gr n < 16 →
     s.anyBusy (s.execs g) = false → ∃ (t : State) (o : EngineOp), Sys2Proof.Machine.exec (.copy g m a b) s = .next t ∧
       t.pc = s.pc + 4 ∧ sameRegs s t ∧ t.mem = s.mem ∧ t.engines.find s.nextId = some o ∧ o.engine = n ∧
       o.regs.getD 0 0 = s.rdV a.toNat l ∧ o.regs.getD 1 0 = s.rdV (a.toNat + 1) l ∧
       o.regs.getD 2 0 = s.rdV b.toNat l ∧ o.regs.getD 3 0 = s.rdV (b.toNat + 1) l ∧
       (∀ r, 4 ≤ r → r < 64 → o.regs.getD r 0 = s.engReg bk gr n r) ∧
       (∀ r < 4, t.engReg bk gr n r = o.regs.getD r 0)) ∧
   (∀ (g : Pred) (a : Reg) (s : State) (roles ps : List Nat), s.mayIssue (.lodestarGo g a) g = true → s.exec g ≠ 0 →
     s.engCause s.unitBlk s.unitGrp 3 = 0 → s.lodeBad s.unitBlk (s.capture s.unitBlk s.unitGrp 3) = false →
     s.anyAcquiring (s.execs g) = false → s.anyBusy (s.execs g) = false →
     lodeStart (s.lodeWord s.site .load) (regAddr (s.capture s.unitBlk s.unitGrp 3) 0)
       ((s.capture s.unitBlk s.unitGrp 3).getD 2 0).toNat [] = .ok (roles, ps) →
     (roles.all (· == 2) = false → s.engOut s.unitBlk s.unitGrp 3 < 4 → ∃ (t : State) (o : EngineOp),
       Sys2Proof.Machine.exec (.lodestarGo g a) s = .next t ∧ t.pc = s.pc + 4 ∧ sameRegs s t ∧ t.mem = s.mem ∧
       t.engines.find s.nextId = some o ∧ o.engine = 3 ∧
       ∀ r < 64, o.regs.getD r 0 = s.engReg s.unitBlk s.unitGrp 3 r) ∧
     (roles.all (· == 2) = true → Sys2Proof.Machine.exec (.lodestarGo g a) s = .next (s.trapWith 0x80 (s.exec g) 0)) ∧
     (roles.all (· == 2) = false → 4 ≤ s.engOut s.unitBlk s.unitGrp 3 → s.staysPut → ∃ t : State,
       Sys2Proof.Machine.exec (.lodestarGo g a) s = .next t ∧ t.pc = s.pc ∧ t.blockedOn (.engineFull 3))) ∧
   (∀ (g : Pred) (a : Reg) (s : State), s.mayIssue (.lodestarGo g a) g = true → s.exec g ≠ 0 →
     (s.engCause s.unitBlk s.unitGrp 3 ≠ 0 → Sys2Proof.Machine.exec (.lodestarGo g a) s =
       .next (s.trapWith 0x82 (s.exec g) (s.engErr s.unitBlk s.unitGrp 3))) ∧
     (s.engCause s.unitBlk s.unitGrp 3 = 0 → s.lodeBad s.unitBlk (s.capture s.unitBlk s.unitGrp 3) = true →
       Sys2Proof.Machine.exec (.lodestarGo g a) s = .next (s.trapWith 0x80 (s.exec g) 0)))) ∧
  (∀ (g : Pred) (a b : Reg) (s : State) (l c : Nat), s.mayIssue (.ewait g a b) g = true → s.exec g ≠ 0 →
     l = lowestLane (s.exec g) → s.anyAcquiring (s.execs g) = false → s.staysPut →
     ((s.rdVPair a.toNat l).toNat = 2 ^ 63 + c → c % 8 = 0 → c + 8 ≤ s.unitNode.shared → c < 2 ^ 32 →
       s.mayPerform (s.threadOf l) s.nextId 0 (sharedKey s.unitBlk c) 8 .n .load = true →
       ∃ t : State, Sys2Proof.Machine.exec (.ewait g a b) s = .next t ∧ sameRegs s t ∧ t.mem = s.mem ∧
       ((s.rdVPair b.toNat l).toNat ≤ (s.blk s.unitBlk).shared.read c 8 → t.pc = s.pc + 4) ∧
       ((s.blk s.unitBlk).shared.read c 8 < (s.rdVPair b.toNat l).toNat →
         t.pc = s.pc ∧ t.blockedOn (.ewait g a b (2 ^ 63 + c) (s.rdVPair b.toNat l).toNat))) ∧
     (∀ (e : TlbEntry) (l1 : Bool), (s.rdVPair a.toNat l).toNat = c → c % 8 = 0 → c < 2 ^ 52 →
       s.resolve s.site .load false c = .ok e l1 → noAtomics e.mt = false → s.poisoned (e.key c) 8 = false →
       s.biasHeld (e.key c) = false → s.grants .read (e.key c) 8 → s.mayPerform (s.threadOf l) s.nextId 0 (e.key c) 8 e.mt .load = true →
       (e.mt = .s → s.anyBusy (s.execs g) = false) →
       ∃ t : State, Sys2Proof.Machine.exec (.ewait g a b) s = .next t ∧ sameRegs s t ∧ t.mem = s.mem ∧
       ((s.rdVPair b.toNat l).toNat ≤ s.mem.read (e.key c) 8 → t.pc = s.pc + 4) ∧
       (s.mem.read (e.key c) 8 < (s.rdVPair b.toNat l).toNat →
         t.pc = s.pc ∧ t.blockedOn (.ewait g a b c (s.rdVPair b.toNat l).toNat))) ∧
     (s.doneOk s.unitBlk (s.rdVPair a.toNat l).toNat = false →
       Sys2Proof.Machine.exec (.ewait g a b) s = .next (s.trapWith 0x80 (s.exec g) 0)))

/-- 03 R78-R80, 14 R301: MFS gives every executing lane the value of a special register, CLK to a pair; an ejected lane reads its
own EJT and JTO. Reading ACCOWN needs privilege. It changes no other register and nothing else.

03 R79, R80, 14 R301: MTS writes EJT clamped to 8, or JTO, of the group from the lowest executing lane, or of an ejected lane
its own copy, and, in privileged code of a split, ACCOWN of the facet without its reserved bits. With no executing lane it writes
nothing. It writes no memory and no other register.

13 R290, R291: privileged CTXSV. With no executing lane, or no owner in ACCOWN, it completes and does nothing else. With an
owner and an image at an address that is a multiple of 64 below 2^52, whose pages pass the checks of a lane access and which takes
the spill, it completes: the held tiles are written into the image, the facet holds none and ACCOWN names no owner any more; no
register changes. An image that does not take it raises the image trap, 0xA3.

13 R290, R292: privileged CTXLD. With no executing lane it completes and does nothing else. With an owner in ACCOWN, or no
sequencer block on the facet, it raises the image trap, 0xA3, before it looks at the image. Else, with an image at an address that
is a multiple of 64 below 2^52 whose pages pass the checks of a lane access, it completes: it loads the accumulator bank of the
facet's sequencer block, and changes no memory, no facet and no other block; the handles that the image does not list are zero and
the sequencer's. An image that is not acceptable raises 0xA3. -/
def Obligations.SpecialRegistersAndContext : Prop :=
  (∀ (g : Pred) (d : Reg) (n : SpecReg) (s : State), s.mayIssue (.mfs g d n) g = true →
     (n = .accown → s.privileged = true) → ∃ t : State, Sys2Proof.Machine.exec (.mfs g d n) s = .next t ∧
       t.pc = s.pc + 4 ∧ RegsOnly (s.execs g) (if n = .clk then [d.toNat, d.toNat + 1] else [d.toNat]) [] [] s t ∧
       ∀ l ∈ s.execs g,
         (n = .clk → t.rdVPair d.toNat l = BitVec.ofNat 64 s.now) ∧
         (n = .laneix → t.rdV d.toNat l = BitVec.ofNat 32 l) ∧
         (n = .gwidth → t.rdV d.toNat l = BitVec.ofNat 32 s.unitNode.width) ∧
         (n = .splitix → t.rdV d.toNat l = BitVec.ofNat 32 s.unitSplit) ∧
         (n = .coreix → t.rdV d.toNat l = BitVec.ofNat 32 ((s.blk s.unitBlk).facet / 4)) ∧
         (n = .dieix → t.rdV d.toNat l = BitVec.ofNat 32 ((s.blk s.unitBlk).facet / 4 / 96)) ∧
         (n = .clusix → t.rdV d.toNat l = BitVec.ofNat 32 (clusterOfCore ((s.blk s.unitBlk).facet / 4))) ∧
         (n = .widlo → t.rdV d.toNat l = BitVec.ofNat 32 ((s.blk s.unitBlk).workId s.unitGrp l)) ∧
         (n = .widhi → t.rdV d.toNat l = BitVec.ofNat 32 ((s.blk s.unitBlk).workId s.unitGrp l / 2 ^ 32)) ∧
         (∀ b gr k, s.focus = .split b gr k → (n = .ejt → t.rdV d.toNat l = (s.grp b gr).ejt) ∧
           (n = .jto → t.rdV d.toNat l = (s.grp b gr).jto)) ∧
         (∀ c, s.focus = .comet c → (n = .ejt → t.rdV d.toNat l = (s.ctx c).ejt) ∧
           (n = .jto → t.rdV d.toNat l = (s.ctx c).jto)) ∧
         (n = .accown → t.rdV d.toNat l = (s.facet (s.blk s.unitBlk).facet).accown)) ∧
  ((∀ (g : Pred) (a : Reg) (n : SpecReg) (s : State), s.mayIssue (.mts g a n) g = true → s.exec g = 0 →
     (n = .accown → s.privileged = true ∧ s.onComet = false) →
     Sys2Proof.Machine.exec (.mts g a n) s = .next (s.setPc (s.pc + 4))) ∧
   (∀ (g : Pred) (a : Reg) (s : State) (b gr k : Nat) (x : Word), s.focus = .split b gr k → s.exec g ≠ 0 →
     x = s.rdV a.toNat (lowestLane (s.exec g)) →
     (s.mayIssue (.mts g a .ejt) g = true → ∃ t : State, Sys2Proof.Machine.exec (.mts g a .ejt) s = .next t ∧
       t.pc = s.pc + 4 ∧ sameRegs s t ∧ t.mem = s.mem ∧ (t.grp b gr).ejt = BitVec.ofNat 32 (min x.toNat 8) ∧
       (t.grp b gr).jto = (s.grp b gr).jto ∧ t.facets = s.facets) ∧
     (s.mayIssue (.mts g a .jto) g = true → ∃ t : State, Sys2Proof.Machine.exec (.mts g a .jto) s = .next t ∧
       t.pc = s.pc + 4 ∧ sameRegs s t ∧ t.mem = s.mem ∧ (t.grp b gr).jto = x ∧ (t.grp b gr).ejt = (s.grp b gr).ejt ∧
       t.facets = s.facets) ∧
     (s.mayIssue (.mts g a .accown) g = true → s.privileged = true → ∃ t : State,
       Sys2Proof.Machine.exec (.mts g a .accown) s = .next t ∧ t.pc = s.pc + 4 ∧ sameRegs s t ∧ t.mem = s.mem ∧
       (t.facet (s.blk b).facet).accown = x &&& 0x8000FFFF ∧
       ∀ f, f ≠ (s.blk b).facet → t.facet f = s.facet f)) ∧
   (∀ (g : Pred) (a : Reg) (s : State) (c : Nat) (x : Word), s.focus = .comet c → s.exec g ≠ 0 →
     x = s.rdV a.toNat (lowestLane (s.exec g)) →
     (s.mayIssue (.mts g a .ejt) g = true → ∃ t : State, Sys2Proof.Machine.exec (.mts g a .ejt) s = .next t ∧
       t.pc = s.pc + 4 ∧ sameRegs s t ∧ t.mem = s.mem ∧ t.blocks = s.blocks ∧
       (t.ctx c).ejt = BitVec.ofNat 32 (min x.toNat 8) ∧ (t.ctx c).jto = (s.ctx c).jto) ∧
     (s.mayIssue (.mts g a .jto) g = true → ∃ t : State, Sys2Proof.Machine.exec (.mts g a .jto) s = .next t ∧
       t.pc = s.pc + 4 ∧ sameRegs s t ∧ t.mem = s.mem ∧ t.blocks = s.blocks ∧ (t.ctx c).jto = x ∧
       (t.ctx c).ejt = (s.ctx c).ejt) ∧
     (s.mayIssue (.mts g a .accown) g = true →
       Sys2Proof.Machine.exec (.mts g a .accown) s = .next (s.takeTrap 0xA0)))) ∧
  (∀ (g : Pred) (a : Reg) (s : State) (h : Dword) (l fx : Nat), s.mayIssue (.ctxsv g a) g = true → s.privileged = true →
     l = lowestLane (s.exec g) → h = s.rdVPair a.toNat l → fx = (s.blk s.unitBlk).facet →
     (s.exec g = 0 → Sys2Proof.Machine.exec (.ctxsv g a) s = .next (s.setPc (s.pc + 4))) ∧
     (s.exec g ≠ 0 → s.anyBusy (s.execs g) = false → h.toNat % 64 = 0 → h.toNat < 2 ^ 52 →
       ((s.facet fx).accV = false → Sys2Proof.Machine.exec (.ctxsv g a) s = .next (s.setPc (s.pc + 4))) ∧
       (∀ rd : List Hit, (s.facet fx).accV = true → s.imageRead (s.exec g) h.toNat = .ok rd →
         (s.spillFits (imageMap h.toNat rd) = false →
           Sys2Proof.Machine.exec (.ctxsv g a) s = .next (s.trapWith 0xA3 (s.exec g) h)) ∧
         (∀ wr : List Hit, s.spillFits (imageMap h.toNat rd) = true →
           s.imageTake true l h.toNat (s.spillWrites (imageMap h.toNat rd) fx) = .ok wr → ∃ t u : State,
           Sys2Proof.Machine.exec (.ctxsv g a) s = .next t ∧ t.pc = s.pc + 4 ∧ sameRegs s t ∧
           u = (s.useHits false rd).useHits true wr ∧
           t.mem = (u.commit (u.spillCells (imageMap h.toNat (wr ++ rd)) fx) none (s.blk s.unitBlk).vf).mem ∧
           (t.facet fx).held = [] ∧ (t.facet fx).accV = false ∧ (t.facet fx).accCtx = (s.facet fx).accCtx ∧
           ∀ f, f ≠ fx → t.facet f = s.facet f)))) ∧
  (∀ (g : Pred) (a : Reg) (s : State) (h : Dword) (l fx : Nat), s.mayIssue (.ctxld g a) g = true → s.privileged = true →
     l = lowestLane (s.exec g) → h = s.rdVPair a.toNat l → fx = (s.blk s.unitBlk).facet →
     (s.exec g = 0 → Sys2Proof.Machine.exec (.ctxld g a) s = .next (s.setPc (s.pc + 4))) ∧
     (s.exec g ≠ 0 → s.anyBusy (s.execs g) = false → h.toNat % 64 = 0 → h.toNat < 2 ^ 52 →
       ((s.facet fx).accV = true ∨ s.seqBlock fx = none →
         Sys2Proof.Machine.exec (.ctxld g a) s = .next (s.trapWith 0xA3 (s.exec g) h)) ∧
       (∀ (bq : Nat) (rd : List Hit), (s.facet fx).accV = false → s.seqBlock fx = some bq →
         s.imageRead (s.exec g) h.toNat = .ok rd →
         (s.loadOk (imageMap h.toNat rd) bq (s.tagOf (s.blk bq).part) = false →
           Sys2Proof.Machine.exec (.ctxld g a) s = .next (s.trapWith 0xA3 (s.exec g) h)) ∧
         (s.loadOk (imageMap h.toNat rd) bq (s.tagOf (s.blk bq).part) = true → ∃ t : State,
           Sys2Proof.Machine.exec (.ctxld g a) s = .next t ∧ t.pc = s.pc + 4 ∧ t.mem = s.mem ∧ t.facets = s.facets ∧
           (∀ x, x ≠ bq → x ≠ s.unitBlk → t.blocks.find x = s.blocks.find x) ∧
           (s.imgOwned (imageMap h.toNat rd) = none → ∀ x ∈ (s.blk bq).bankHandles, ∀ n < 64,
             (t.blk bq).tileWord (seqTile x) n = 0 ∧ (t.blk bq).tile (seqTile x) = .owned (.seqCol 0))))))

/-- 10 R227, 11 R239, 02 R64: a slot whose guard is false does nothing, and NOP does nothing. A slot executed alone whose
checks fail raises the trap of the first that fails: among the checks of its tiles, a first use of accumulators of another
context 0x44, a handle at or above the block's tiles 0x41, a tile that the sequencer does not own 0x40. -/
def Obligations.SlotChecks : Prop :=
  (∀ (c : Col) (bits : BitVec 26) (s : State) (b : Nat), s.focus = .seqr b → s.hasSeq b = true →
    Sys2Proof.Machine.exec (.nop c bits) s = .next s) ∧
  ∀ (i : Instr) (c : Col) (g : Pred) (s : State) (b : Nat), slotGuard i = some (c, g) → (∀ k bits, i ≠ .nop k bits) →
    s.focus = .seqr b → s.hasSeq b = true →
    ((s.seq b).rdG c.toNat g.toNat = false → Sys2Proof.Machine.exec i s = .next s) ∧
    ((s.seq b).rdG c.toNat g.toNat = true → (s.seq b).checked = false →
      (∀ k sub info, ((s.slotCheck b i).and (s.lateCheck b i)).and (s.boardCheck b i) = .trap k sub info →
        Sys2Proof.Machine.exec i s = .next (s.slotTrap b i k sub info)) ∧
      (∀ t, ((s.slotCheck b i).and (s.lateCheck b i)).and (s.boardCheck b i) = .hold t →
        Sys2Proof.Machine.exec i s = .next t) ∧
      (∀ h u w, (s.seq b).handlesOf i = u ++ h :: w → (∀ x ∈ u, (s.blk b).node.tiles ≤ x ∨ (s.blk b).seqOnly x = false) →
        h < (s.blk b).node.tiles → (s.blk b).seqOnly h = true →
        ((s.facet (s.blk b).facet).accV = false ∨ (s.facet (s.blk b).facet).accCtx ≠ (s.blk b).ctx) →
        Sys2Proof.Machine.exec i s = .next (s.slotTrap b i 0x44 0 h)) ∧
      ((s.facet (s.blk b).facet).accV = true → (s.facet (s.blk b).facet).accCtx = (s.blk b).ctx →
        (∀ h u w, (s.seq b).handlesOf i = u ++ h :: w → (∀ x ∈ u, x < (s.blk b).node.tiles) → (s.blk b).node.tiles ≤ h →
          Sys2Proof.Machine.exec i s = .next (s.slotTrap b i 0x41 0 h)) ∧
        (needsOwner i = true → (∀ h ∈ (s.seq b).handlesOf i, h < (s.blk b).node.tiles) →
          (∃ h ∈ (s.seq b).handlesOf i, (s.blk b).seqOwns ((s.blk b).handleTile h) = false) →
          Sys2Proof.Machine.exec i s = .next (s.slotTrap b i 0x40 0 0))))

/-- 11 R241, R242, 10 R224: a scalar slot puts the word that its rule gives in flight to its destination, to land at the end
of its latency; it changes nothing else. SCMP to pair 0 does nothing.

11 R243, R244: SBRA makes the bundle at its offset the next one; SLOOP counts down and branches while the count is not
over; SCALL links to the bundle in line and SRET goes to x31 within the 4 GiB region; SHALT lets no further bundle issue
and drains. -/
def Obligations.ScalarSlots : Prop :=
  ((∀ (i : Instr) (s : State) (b : Nat) (d : SeqDest) (v : Word) (l : Nat), (s.seq b).scalarResult i = some (d, v, l) →
     s.slotMay b i → ∃ t : State, Sys2Proof.Machine.exec i s = .next t ∧ SeqOnly b s t ∧
       (t.seq b).ops.find s.nextId = some { dest := d, words := [(0, v)], lands := s.now + l - 1 } ∧
       (∀ id, id ≠ s.nextId → (t.seq b).ops.find id = (s.seq b).ops.find id) ∧
       t.seq b = { s.seq b with ops := (t.seq b).ops }) ∧
   (∀ (c : Col) (g : Pred) (cond : SCond) (x y : XReg) (s : State) (b : Nat), s.slotMay b (.scmp c g 0 cond x y) →
     Sys2Proof.Machine.exec (.scmp c g 0 cond x y) s = .next s)) ∧
  (∀ (s : State) (b : Nat) (q : Seq), q = s.seq b →
     (∀ (c : Col) (g : Pred) (ofs : BitVec 22), s.slotMay b (.sbra c g ofs) → ∃ t : State,
       Sys2Proof.Machine.exec (.sbra c g ofs) s = .next t ∧ SeqOnly b s t ∧
       t.seq b = { q with next := some (q.pc + 4 * ofs.signExtend 64) }) ∧
     (∀ (c : Col) (g : Pred) (x : XReg) (ofs : BitVec 17), s.slotMay b (.sloop c g x ofs) →
       (q.rdX c.toNat x.toNat = 0 → Sys2Proof.Machine.exec (.sloop c g x ofs) s = .next s) ∧
       (q.rdX c.toNat x.toNat ≠ 0 → ∃ t : State, Sys2Proof.Machine.exec (.sloop c g x ofs) s = .next t ∧ SeqOnly b s t ∧
         (t.seq b).ops.find s.nextId = some
           { dest := .xreg c.toNat x.toNat, words := [(0, q.rdX c.toNat x.toNat - 1)], lands := s.now } ∧
         t.seq b = { q with
           ops := (t.seq b).ops,
           next := if q.rdX c.toNat x.toNat = 1 then q.next else some (q.pc + 4 * ofs.signExtend 64) })) ∧
     (∀ (c : Col) (g : Pred) (ofs : BitVec 22) (n : Dword), s.slotMay b (.scall c g ofs) → q.next = some n → ∃ t : State,
       Sys2Proof.Machine.exec (.scall c g ofs) s = .next t ∧ SeqOnly b s t ∧
       (t.seq b).ops.find s.nextId = some { dest := .xreg c.toNat 31, words := [(0, n.setWidth 32)], lands := s.now } ∧
       t.seq b = { q with ops := (t.seq b).ops, next := some (q.pc + 4 * ofs.signExtend 64) }) ∧
     (∀ (c : Col) (g : Pred), s.slotMay b (.sret c g) → ∃ t : State,
       Sys2Proof.Machine.exec (.sret c g) s = .next t ∧ SeqOnly b s t ∧
       t.seq b = { q with next := some ((q.pc &&& 0x000FFFFF00000000) ||| (q.rdX 0 31).setWidth 64) }) ∧
     (∀ (c : Col) (g : Pred), s.slotMay b (.shalt c g) → ∃ t : State,
       Sys2Proof.Machine.exec (.shalt c g) s = .next t ∧ SeqOnly b s t ∧
       t.seq b = { q with halting := true, drain := true }))

/-- 11 R245, R246, 09 R202, R203: SGIVE passes every tile of its range into transfer, a group's tile to that group and any
other to any column; STAKE, once every tile of its range is owned by the sequencer or in transfer to any column with no write
pending, makes the column the owner of those in transfer and completes; before that its bundle waits.

11 R247, 09 R209, 08 R188: SBAR.SYNC and SBAR.ARR arrive once what the sequencer issued before is performed: N rises by
1, and at X the phase flips, N is 0 and no participant counts as arrived. SBAR.SYNC departs when its phase completes, and
SBAR.WAIT unless the sequencer has arrived in the present phase, an SBAR.ARR of its own that has not arrived yet among that (the
model's, log 47); departing, the core drops its L1 copies.

11 R248, 10 R238: SSTAT takes the oldest record of the facet's statistics queue, its four words to four registers with
DROPS in the high half of the last, and makes DROPS 0; an empty queue gives zeros. -/
def Obligations.SequencerTilesAndBarriers : Prop :=
  (∀ (c : Col) (g : Pred) (h : Handle) (n : BitVec 4) (s : State) (b : Nat) (hs : List Nat),
     hs = (List.range (n.toNat + 1)).map (fun j => h.toNat + j) →
     (s.slotMay b (.sgive c g h n) → ∃ t : State, Sys2Proof.Machine.exec (.sgive c g h n) s = .next t ∧
       t.mem = s.mem ∧ (t.seq b).x = (s.seq b).x ∧ (t.blk b).vregs = (s.blk b).vregs ∧
       ∀ tile, (t.blk b).tile tile =
         if (∃ x ∈ hs, (s.blk b).handleTile x = tile) then
           .transfer (if tile < 4096 then .group (tile / 64) else .seqAny)
         else (s.blk b).tile tile) ∧
     (s.slotMay b (.stake c g h n) →
       ((∀ x ∈ hs, (s.blk b).seqOwns ((s.blk b).handleTile x) = true ∨
           s.takeReady b ((s.blk b).handleTile x) .seqAny = true) →
         ∃ t : State, Sys2Proof.Machine.exec (.stake c g h n) s = .next t ∧ t.mem = s.mem ∧ c.toNat ∈ (t.seq b).waited ∧
         (t.blk b).vregs = (s.blk b).vregs ∧
         ∀ tile, (t.blk b).tile tile =
           if (∃ x ∈ hs, (s.blk b).handleTile x = tile) ∧ (s.blk b).seqOwns tile = false then .owned (.seqCol c.toNat)
           else (s.blk b).tile tile) ∧
       ((∃ x ∈ hs, (s.blk b).seqOwns ((s.blk b).handleTile x) = false ∧
           s.takeReady b ((s.blk b).handleTile x) .seqAny = false) →
         ∃ t : State, Sys2Proof.Machine.exec (.stake c g h n) s = .next t ∧ (t.seq b).waited = (s.seq b).waited ∧
         (t.seq b).waiting = true ∧ (t.seq b).pc = (s.seq b).pc))) ∧
  (∀ (c : Col) (g : Pred) (n : BitVec 4) (s : State) (b : Nat) (y : Barrier), y = (s.blk b).bar n.toNat →
     (s.slotMay b (.sbarSync c g n) → (s.seq b).synced.contains c.toNat = false → s.seqReleased b s.nextId = true →
       ∃ t : State, Sys2Proof.Machine.exec (.sbarSync c g n) s = .next t ∧ t.mem = s.mem ∧
         (y.n + 1 = y.x → ((t.blk b).bar n.toNat).p = !y.p ∧ ((t.blk b).bar n.toNat).n = 0 ∧
           ((t.blk b).bar n.toNat).seqArrived = false ∧ c.toNat ∈ (t.seq b).waited ∧ ∀ k, s.cacheCore k = some (s.blk b).core → t.copies.find k = none) ∧
         (y.n + 1 ≠ y.x → ((t.blk b).bar n.toNat).p = y.p ∧ ((t.blk b).bar n.toNat).n = y.n + 1 ∧
           ((t.blk b).bar n.toNat).seqArrived = true ∧ (t.seq b).waited = (s.seq b).waited ∧
           c.toNat ∈ (t.seq b).synced)) ∧
     (s.slotMay b (.sbarArr c g n) → (s.seq b).arrivals = [] → ∃ t : State,
       Sys2Proof.Machine.exec (.sbarArr c g n) s = .next t ∧ t.mem = s.mem ∧ (t.seq b).waited = (s.seq b).waited ∧
       (s.seqReleased b s.nextId = true → (t.seq b).arrivals = [] ∧
         ((t.blk b).bar n.toNat).n = if y.n + 1 = y.x then 0 else y.n + 1) ∧
       (s.seqReleased b s.nextId = false → (t.seq b).arrivals = [(n.toNat, s.nextId)] ∧ (t.blk b).bar n.toNat = y)) ∧
     (s.slotMay b (.sbarWait c g n) → ∃ t : State, Sys2Proof.Machine.exec (.sbarWait c g n) s = .next t ∧ t.mem = s.mem ∧
       (s.seqAtBar b n.toNat = true → (t.seq b).waited = (s.seq b).waited ∧ (t.seq b).waiting = true) ∧
       (s.seqAtBar b n.toNat = false → c.toNat ∈ (t.seq b).waited ∧ ∀ k, s.cacheCore k = some (s.blk b).core → t.copies.find k = none))) ∧
  (∀ (c : Col) (g : Pred) (d : XReg) (s : State) (b fx : Nat), s.slotMay b (.sstat c g d) → fx = (s.blk b).facet →
     ((s.facet fx).stats = [] → ∃ t : State, Sys2Proof.Machine.exec (.sstat c g d) s = .next t ∧ SeqOnly b s t ∧
       ∀ j < 4, (t.seq b).ops.find (s.nextId + j) =
         some { dest := .xreg c.toNat (d.toNat + j), words := [(0, 0)], lands := s.now }) ∧
     (∀ r rs, (s.facet fx).stats = r :: rs → ∃ t : State, Sys2Proof.Machine.exec (.sstat c g d) s = .next t ∧
       t.mem = s.mem ∧ (t.facet fx).stats = rs ∧ (t.facet fx).drops = 0 ∧
       ∀ j < 4, (t.seq b).ops.find (s.nextId + j) =
         some { dest := .xreg c.toNat (d.toNat + j),
                words := [(0, if j = 3 then r.words.getD 3 0 ||| ((s.facet fx).drops <<< 16) else r.words.getD j 0)],
                lands := s.now }))

/-- 11 R249-R255, 10 R224: a TMMA puts every accumulator tile of its shape in flight: word (r, c) of tile (i, j) is the old
word with the products of row r of A tile i and row c of B tile j added; TZERO puts zero tiles in flight and TCVT the
converted tile. The latency is the shape's, one clock for each four tiles of TZERO, four clocks for TCVT.

11 R256-R258, 10 R230, R235: a V slot computes its 64 words from the destination tile's, or the operation's identity for a
port, and the source tile's or the oldest entry's; under the mask it puts them in flight to the tile, or as one entry to
the port, whose position goes on by an entry. A source port loses its oldest entry. VRED folds each row of the source under
the mask first. The addresses of a push and the port's position are fixed at issue (the model's, log 118). -/
def Obligations.TensorAndVectorSlots : Prop :=
  ((∀ (i : Instr) (ty : MmaTy) (c : Col) (h : Handle) (a e : BitVec 6) (sh : Shape) (s : State) (b side : Nat)
     (scale : Nat → Nat → Nat → Nat → Nat),
     tmmaForm i = some (ty, c, h, a, e, sh) → s.slotMay b i → side = (match sh with | .s1 => 1 | .s2 => 2 | .s4 => 4) →
     (∀ op j r k, scale op j r k =
       scaleByte (s.handleWord b (((s.seq b).rdX c.toNat 14).toNat / 256 ^ op % 256)) j r k) →
     ∃ t : State, Sys2Proof.Machine.exec i s = .next t ∧ t.mem = s.mem ∧ (t.blk b).vregs = (s.blk b).vregs ∧
       (t.blk b).tiles = (s.blk b).tiles ∧ (t.seq b).x = (s.seq b).x ∧
       ∀ n < side * side, ∃ o : SeqOp, (t.seq b).ops.find (s.nextId + n) = some o ∧
         o.dest = .tile ((s.blk b).handleTile (h.toNat + n)) ∧ o.lands = s.now + tmmaLatency ty sh - 1 ∧
         o.words.map Prod.fst = List.range 64 ∧
         ∀ w < 64, (o.words.getD w (0, 0)).2 = (mmaElem (s.handleWord b (h.toNat + n) w)
           ((List.range ty.ks).map fun k =>
             ty.val (s.handleWord b (4 * a.toNat + n / side)) (scale 0 (n / side)) (w / 8) k)
           ((List.range ty.ks).map fun k =>
             ty.val (s.handleWord b (4 * e.toNat + n % side)) (scale 1 (n % side)) (w % 8) k)).word) ∧
   (∀ (c : Col) (g : Pred) (h : Handle) (n : BitVec 4) (s : State) (b : Nat), s.slotMay b (.tzero c g h n) →
     ∃ t : State, Sys2Proof.Machine.exec (.tzero c g h n) s = .next t ∧ SeqOnly b s t ∧
       ∀ j ≤ n.toNat, ∃ o : SeqOp, (t.seq b).ops.find (s.nextId + j) = some o ∧
         o.dest = .tile ((s.blk b).handleTile (h.toNat + j)) ∧ o.lands = s.now + (n.toNat + 4) / 4 - 1 ∧
         o.words = (List.range 64).map fun w => (w, 0)) ∧
   (∀ (c : Col) (g : Pred) (d h : Handle) (f : Fmt) (rz sat : Bool) (s : State) (b : Nat),
     s.slotMay b (.tcvt c g d h f rz sat) → ∃ (t : State) (o : SeqOp),
       Sys2Proof.Machine.exec (.tcvt c g d h f rz sat) s = .next t ∧ t.mem = s.mem ∧
       (t.blk b).vregs = (s.blk b).vregs ∧ (t.seq b).ops.find s.nextId = some o ∧
       o.dest = .tile ((s.blk b).handleTile d.toNat) ∧ o.lands = s.now + 3 ∧
       o.words = List.zip (List.range 64) (tcvtWords f rz sat
         ((List.range 64).map fun n => decodeF fFP32 (s.handleWord b h.toNat n).toNat)).1)) ∧
  (∀ (i : Instr) (c : Col) (v : VFields) (f : Word → Word → Word → Word) (ident : Option Word) (l : Nat) (s : State)
     (b : Nat) (m : Mask) (src : Nat → Word) (res : Nat → Word),
     (vectorForm i = some (c, v, f, ident, l) ∨
       (∃ g r, i = .vred c g v r ∧ l = 4 ∧ f = (fun d o _ => (vredFn r).1 d o) ∧ ident = some (vredFn r).2)) →
     s.slotMay b i → m = (if v.m = 0 then BitVec.allOnes 64 else
       ((s.seq b).rdX c.toNat (17 + 2 * v.m.toNat)) ++ ((s.seq b).rdX c.toNat (16 + 2 * v.m.toNat))) →
     ((vectorForm i).isSome = true → ∀ n, src n = ((s.vWords b c.toNat v.os).getD n (0, false)).1) →
     (∀ g r, i = .vred c g v r → ∀ n, src n = foldFirst (vredFn r).1 (vredFn r).2
       ((((List.range 8).map fun j => 8 * (n / 8) + j).filter (hasLane m)).map fun j =>
         ((s.vWords b c.toNat v.os).getD j (0, false)).1)) →
     (∀ n, res n = f (s.firstWord b c.toNat v ident n) (src n) ((s.seq b).rdX c.toNat v.f.toNat)) →
     (isPort v.od = false → ∃ (t : State) (o : SeqOp), Sys2Proof.Machine.exec i s = .next t ∧ t.mem = s.mem ∧
       (t.blk b).vregs = (s.blk b).vregs ∧ (t.seq b).ops.find s.nextId = some o ∧
       o.dest = .tile ((s.blk b).handleTile v.od.toNat) ∧ o.lands = s.now + l - 1 ∧
       o.words = ((List.range 64).filter (hasLane m)).map (fun n => (n, res n)) ∧
       (isPort v.os = true → ((t.seq b).port c.toNat (portOf v.os)).elems =
         ((s.seq b).port c.toNat (portOf v.os)).elems.drop ((s.seq b).port c.toNat (portOf v.os)).entry.length)) ∧
     (∀ p ws cells, isPort v.od = true → p = (s.seq b).port c.toNat (portOf v.od) →
       ws = (List.range 64).map (fun n =>
         if hasLane m n && ((s.vWords b c.toNat v.os).getD n (0, false)).2 then (res n, true) else (0, false)) →
       s.pushCells b (p.pushParts ws) = .inr cells → ∃ (t : State) (o : SeqOp), Sys2Proof.Machine.exec i s = .next t ∧
       (t.blk b).vregs = (s.blk b).vregs ∧ (t.seq b).ops.find s.nextId = some o ∧
       o.dest = .push c.toNat (portOf v.od) cells ∧ o.lands = s.now + l - 1 ∧
       ((t.seq b).port c.toNat (portOf v.od)).pos = p.pos + 64 * p.perWord))

/-- 11 R259, R260: TLD reserves its range and its tiles until a step fills them; TST puts the stores of its tiles' words, as
they stand, in flight. Neither changes a tile or a byte of global memory where the pages written are dirty already.

11 R261-R263, 10 R228-R232: ZBIND binds a port to a copy of the descriptor that stands in shared memory, with nothing
read and position 0; ZSET of a field that leaves SRC, DIR and RING alone replaces that word of the copy; ZSKIP moves a write
port past elements of its pattern, at most to its end, and a read port past elements it holds. -/
def Obligations.TransfersAndPorts : Prop :=
  (∀ (c : Col) (g : Pred) (h : Handle) (x : XReg) (n : BitVec 3) (s : State) (b a : Nat),
     a = ((s.seq b).rdXPair c.toNat x.toNat).toNat →
     (s.slotMay b (.tld c g h x n) → ∃ (t : State) (y : TileXfer), Sys2Proof.Machine.exec (.tld c g h x n) s = .next t ∧
       t.mem = s.mem ∧ (t.blk b).vregs = (s.blk b).vregs ∧ (t.seq b).xfers.find s.nextId = some y ∧ y.store = false ∧
       y.addr = a ∧ y.count = n.toNat + 1 ∧
       y.tiles = (List.range (n.toNat + 1)).map fun j =>
         ((s.blk b).handleTile (h.toNat + j), (s.engLoc s.site false (a + 256 * j) 256).key)) ∧
     (s.slotMay b (.tst c g h x n) → ∃ (t : State) (y : TileXfer), Sys2Proof.Machine.exec (.tst c g h x n) s = .next t ∧
       (t.blk b).vregs = (s.blk b).vregs ∧ (t.seq b).xfers.find s.nextId = some y ∧ y.store = true ∧
       ((∀ j ≤ n.toNat, ∀ e l1 va w, s.engLoc s.site true (a + 256 * j) 256 = .glob e l1 va w → e.dirty = true) →
         t.mem = s.mem ∧ ∀ j ≤ n.toNat, ∃ id z, s.nextId < id ∧ t.stores.find id = some z ∧ z.thread = .seqr b ∧
           z.performed = false ∧ z.cells = cellsAt (s.engLoc s.site true (a + 256 * j) 256).key
             ((List.range 64).flatMap fun w => leBytes 4 (s.handleWord b (h.toNat + j) w).toNat)))) ∧
  (∀ (c : Col) (g : Pred) (z : BitVec 3) (x : XReg) (s : State) (b : Nat) (p : Port),
     p = (s.seq b).port c.toNat z.toNat →
     (s.slotMay b (.zbind c g z x) → ∃ (t : State) (y : Port), Sys2Proof.Machine.exec (.zbind c g z x) s = .next t ∧
       t.mem = s.mem ∧ y = (t.seq b).port c.toNat z.toNat ∧ y.bound = true ∧ y.pos = 0 ∧ y.elems = [] ∧ y.skip = 0 ∧
       y.fault = none ∧ y.slot = none ∧
       ∀ i < 16, y.word i = (s.blk b).shared.read (((s.seq b).rdX c.toNat x.toNat).toNat + 4 * i) 4) ∧
     (∀ f : BitVec 4, s.slotMay b (.zset c g z x f) → ∃ (t : State) (y : Port),
       Sys2Proof.Machine.exec (.zset c g z x f) s = .next t ∧ t.mem = s.mem ∧ y = (t.seq b).port c.toNat z.toNat ∧
       y.bound = (if f = 8 then y.bound else p.bound) ∧
       ∀ i < 16, y.word i = if i = f.toNat then ((s.seq b).rdX c.toNat x.toNat).toNat else p.word i) ∧
     (∀ n : Nat, s.slotMay b (.zskip c g z x) → n = ((s.seq b).rdX c.toNat x.toNat).toNat → ∃ t : State,
       Sys2Proof.Machine.exec (.zskip c g z x) s = .next t ∧ t.mem = s.mem ∧
       (n = 0 → t = s) ∧
       (0 < n → p.isWrite = true → ((t.seq b).port c.toNat z.toNat).pos = min p.len (p.pos + n)) ∧
       (0 < n → p.isWrite = false → n ≤ p.elems.length →
         ((t.seq b).port c.toNat z.toNat).elems = p.elems.drop n) ∧
       (p.elems.length < n → p.isWrite = false → p.src = 0 →
         ((t.seq b).port c.toNat z.toNat).elems = [] ∧
         ((t.seq b).port c.toNat z.toNat).pos = min p.len (p.pos + (n - p.elems.length)))))

/-- 17 R364, R365: a filter word of the register kind writes its register with the value of its rule and goes to the next
word; a branch goes on by its offset where it is taken, else to the next word. No other register of the run changes, and
nothing outside the run. -/
def Obligations.FilterResults : Prop :=
  ∀ (i : Instr) (s : State) (m : Nat) (r : Run), s.focus = .filter m → (s.merid m).run = some r →
    (∀ a v, r.result m i = some (a, v) → ∃ (t : State) (q : Run), Sys2Proof.Machine.exec i s = .next t ∧ MeridOnly m s t ∧
      t.merid m = { s.merid m with run := some q } ∧ q = { r with pc := r.pc + 1, done := r.done + 1, f := q.f } ∧
      q.rd a = v ∧ ∀ b, b ≠ a → q.rd b = r.rd b) ∧
    (∀ n, r.jump i = some n → ∃ t : State, Sys2Proof.Machine.exec i s = .next t ∧ MeridOnly m s t ∧
      t.merid m = { s.merid m with run := some { r with pc := r.pc + n, done := r.done + 1 } })

/-- 17 R366: HIST adds 1 to the bin of its value, or to UNDER and the first bin below the range, or to OVER and the last bin
above it; SKU adds its weight to one counter of each of four rows; CADD adds to the counter. All saturate, and no other
count of the object changes.

17 R363, R367: TRIG on a disarmed trigger has no effect; on an armed one it disarms it unless AUTO, freezes the afterglow
record where FREEZE is set, writes a MARK record where MARK is set and the record was not frozen, and raises the
interrupt of the attachment's partition where IRQ is set. END returns the reserved instructions that were not executed to
the window they were reserved in, where that is still the present one, and with no further program of the event the run is over. The
PART and CTX of a MARK record are those of the run's event (the model's, log 60). -/
def Obligations.FilterObjects : Prop :=
  (∀ (s : State) (m : Nat) (r : Run) (at' : Attach), s.focus = .filter m → (s.merid m).run = some r →
     (s.merid m).slots.find r.slot = some at' →
     (∀ (a o : BitVec 4) (e v last : Nat) (bin : Int), e = at'.objs.getD o.toNat 0 → v = (r.rd a).toNat →
       last = e / 2 ^ 5 % 64 →
       bin = (if e / 2 ^ 4 % 2 = 1 then (if v = 0 then 0 else (Nat.log2 v : Int) - (e / 2 ^ 32 % 2 ^ 32 : Nat) + 1)
         else ((v : Int) - (e / 2 ^ 32 % 2 ^ 32 : Nat)) / (2 ^ (e / 2 ^ 16 % 64) : Nat)) →
       ∃ t : State, Sys2Proof.Machine.exec (.fltHist a o) s = .next t ∧ MeridOnly m s t ∧
         (t.merid m).run = some { r with pc := r.pc + 1, done := r.done + 1 } ∧
         ∀ j, ((t.merid m).stored r.slot o.toNat).getD j 0 =
           if (0 ≤ bin ∧ bin ≤ last ∧ j = bin.toNat) ∨ (bin < 0 ∧ (j = 0 ∨ j = underAt)) ∨
             (last < bin ∧ (j = last ∨ j = underAt + 1))
           then sum32 (((s.merid m).stored r.slot o.toNat).getD j 0) 1
           else ((s.merid m).stored r.slot o.toNat).getD j 0) ∧
     (∀ (a b : BitVec 4) (o : BitVec 3), ∃ t : State, Sys2Proof.Machine.exec (.fltSku a b o) s = .next t ∧ MeridOnly m s t ∧
       (t.merid m).run = some { r with pc := r.pc + 1, done := r.done + 1 } ∧
       ∀ w < 4, ∀ c < 256, ((t.merid m).stored r.slot o.toNat).getD (256 * w + c) 0 =
         if c = (r.rd a * BitVec.ofNat 64 (sketchMul.getD w 0)).toNat / 2 ^ 56 then
           sum32 (((s.merid m).stored r.slot o.toNat).getD (256 * w + c) 0) (r.rd b).toNat
         else ((s.merid m).stored r.slot o.toNat).getD (256 * w + c) 0) ∧
     (∀ (a o : BitVec 4), ∃ t : State, Sys2Proof.Machine.exec (.fltCadd a o) s = .next t ∧ MeridOnly m s t ∧
       (t.merid m).run = some { r with pc := r.pc + 1, done := r.done + 1 } ∧
       ((t.merid m).stored r.slot o.toNat).getD 0 0 =
         min (((s.merid m).stored r.slot o.toNat).getD 0 0 + (r.rd a).toNat) (2 ^ 64 - 1) ∧
       ∀ j, j ≠ 0 → ((t.merid m).stored r.slot o.toNat).getD j 0 = ((s.merid m).stored r.slot o.toNat).getD j 0)) ∧
  (∀ (s : State) (m : Nat) (r : Run) (at' : Attach), s.focus = .filter m → (s.merid m).run = some r →
     (s.merid m).slots.find r.slot = some at' →
     (∀ (a o : BitVec 4) (e : Nat) (armed : Bool), e = at'.objs.getD o.toNat 0 →
       armed = decide ((at'.store.getD o.toNat []).getD 0 1 = 1) → ∃ t : State,
       Sys2Proof.Machine.exec (.fltTrig a o) s = .next t ∧ t.mem = s.mem ∧
       (t.merid m).run = some { r with pc := r.pc + 1, done := r.done + 1 } ∧
       (armed = false → MeridOnly m s t ∧
         t.merid m = { s.merid m with run := some { r with pc := r.pc + 1, done := r.done + 1 } }) ∧
       (armed = true →
         ((t.merid m).stored r.slot o.toNat).getD 0 1 = (if e / 2 ^ 7 % 2 = 1 then 1 else 0) ∧
         (t.merid m).frozen = ((s.merid m).frozen || decide (e / 2 ^ 5 % 2 = 1)) ∧
         (e / 2 ^ 6 % 2 = 1 → (s.merid m).frozen = false → (t.merid m).wptr = ((s.merid m).wptr + 1) % 2 ^ 32 ∧
           ∃ ev, (t.merid m).glow.find ((s.merid m).wptr % 4096) = some ev ∧ ev.time = s.now ∧ ev.type = 0x0F ∧
             ev.part = r.ev.part ∧ ev.ctx = r.ev.ctx ∧ ev.sub = 16 * r.slot + o.toNat ∧ ev.ea = (r.rd a).toNat) ∧
         (e / 2 ^ 6 % 2 = 0 ∨ (s.merid m).frozen = true → (t.merid m).wptr = (s.merid m).wptr ∧
           (t.merid m).glow = (s.merid m).glow) ∧
         ∀ p, t.telIrqs.getD p 0 =
           s.telIrqs.getD p 0 + if e / 2 ^ 4 % 2 = 1 ∧ p = at'.part then 1 else 0)) ∧
     (∃ t : State, Sys2Proof.Machine.exec .fltEnd s = .next t ∧ MeridOnly m s t ∧ (t.merid m).glow = (s.merid m).glow ∧
       (r.todo = [] → (t.merid m).run = none ∧
         (t.merid m).remainder at'.part =
           (s.merid m).remainder at'.part + (if r.past then 0 else at'.words.length - (r.done + 1)) ∧
         (at'.leaving = true → (t.merid m).slots.find r.slot = none) ∧
         (at'.leaving = false → (t.merid m).slots = (s.merid m).slots))))

/-- 03 R92: two ready splits of a group with equal PC, CM and stack, neither in a trap handler, merge into the one with the
lower index, which keeps its path and takes the other's lanes; the other index is free. That splits of different privilege, parked ones and those
in a handler never merge is the model's choice (log 159).

14 R300, R304-R306: an ejected lane whose stores are registered starts once its hand-over clocks are over, its lane cache
dropping its copies of every partition; a lane at its JOIN whose copy-back can complete writes its live registers and its predicates to its
place in the group, and its context is free; a split whose merge is held only by ejected lanes past JTO parks, with its
event, unless one of them arrives in that clock: then it waits on. -/
def Obligations.SplitAndEjectionSteps : Prop :=
  (∀ (b gr i j : Nat) (s : State), i < j → s.hasSplit b gr i = true → s.hasSplit b gr j = true →
     (∀ k, k = i ∨ k = j → (s.spl b gr k).wait = .ready ∧ (s.spl b gr k).parked = false ∧ (s.spl b gr k).am ≠ 0 ∧
       (s.spl b gr k).trap = none) →
     (s.spl b gr i).pc = (s.spl b gr j).pc → (s.spl b gr i).cm = (s.spl b gr j).cm →
     (s.spl b gr i).priv = (s.spl b gr j).priv → s.fullStack b gr i = s.fullStack b gr j →
     ∃ t : State, Sys2Proof.Machine.exec (.splitMerge b gr i j) s = .next t ∧ t.mem = s.mem ∧
       (t.spl b gr i).am = (s.spl b gr i).am ||| (s.spl b gr j).am ∧
       (t.spl b gr i).wm = (s.spl b gr i).wm ||| (s.spl b gr j).wm ∧ (t.spl b gr i).pc = (s.spl b gr i).pc ∧
       (t.spl b gr i).stack = (s.spl b gr i).stack ∧ (t.grp b gr).splits.find j = none ∧
       (∀ k, k ≠ i → k ≠ j → (t.grp b gr).splits.find k = (s.grp b gr).splits.find k) ∧
       (t.blk b).vregs = (s.blk b).vregs) ∧
  ((∀ (c : Nat) (s : State), s.comets.has c = true → (s.ctx c).started = false → (s.ctx c).notBefore ≤ s.now →
     s.laneStored (s.ctx c).blk (s.ctx c).grp (s.ctx c).lane = true → ∃ t : State,
       Sys2Proof.Machine.exec (.ejectedLaneStart c) s = .next t ∧ t.mem = s.mem ∧ t.blocks = s.blocks ∧
       (∀ p < 32, t.copies.find (4096 + 32 * (c / 8) + p) = none) ∧ t.ctx c = { s.ctx c with started := true } ∧
       ∀ k, k ≠ c → t.comets.find k = s.comets.find k) ∧
   (∀ (c : Nat) (s : State) (x : Comet), x = s.ctx c → s.copyBackReady c = true → 0 < (s.blk x.blk).width →
     (s.blk x.blk).groups.has x.grp = true → x.lane < 64 → ∃ t : State,
       Sys2Proof.Machine.exec (.copyBack c) s = .next t ∧ t.comets.find c = none ∧
       hasLane (t.grp x.blk x.grp).ejected x.lane = false ∧
       (∀ r < 64, x.live.getLsbD r = true → (t.blk x.blk).vregs.getD ((s.blk x.blk).regKey x.grp r x.lane) 0 =
         x.vregs.getD r 0) ∧
       (∀ k, 1 ≤ k → k ≤ 7 → hasLane ((t.grp x.blk x.grp).preds.getD k 0) x.lane = x.preds.getD k false)) ∧
   (∀ (b gr k : Nat) (s : State), s.timeoutDue b gr k = true → ∃ t : State,
     Sys2Proof.Machine.exec (.joinTimeout b gr k) s = .next t ∧ t.mem = s.mem ∧
     ((∃ e ∈ s.comets, e.2.blk = b ∧ e.2.grp = gr ∧ hasLane ((s.grp b gr).missing (s.spl b gr k).cm) e.2.lane = true ∧
         e.2.arrived = some s.now) → (t.spl b gr k).parked = false ∧ (t.spl b gr k).wait = .join ∧ t.taps = s.taps) ∧
     ((∀ e ∈ s.comets, e.2.blk = b → e.2.grp = gr → hasLane ((s.grp b gr).missing (s.spl b gr k).cm) e.2.lane = true →
         e.2.arrived ≠ some s.now) →
       t.spl b gr k = { s.spl b gr k with parked := true, parkedAt := s.now } ∧
       ∃ m e, t.taps = s.taps ++ [(m, e)] ∧ e.type = 0x05 ∧ e.sub = gr ∧ e.ea = (s.grp b gr).ejected.toNat ∧
         e.eb = (s.grp b gr).jto.toNat)))

/-- 07 R175, R176, 09 R202, R203, R218, 15 R321: a WAITC whose monitor has fired, or whose poll is due, evaluates again, and so
does an EWAIT on a counter in global memory; an EMIT that waits for a queue issues again; a waiting TAKE whose tile has come takes
it and goes on, and one that has waited the take limit raises the trap 0x43, once no result of its link pair is in flight (that
it waits for this is the model's choice, log 131). -/
def Obligations.WaitSteps : Prop :=
  ∀ (b gr k : Nat) (s u : State), s.hasSplit b gr k = true → (s.spl b gr k).parked = false →
    u = { s with focus := .split b gr k } →
    (∀ gd d a w c n, (s.spl b gr k).wait = .blocked (.waitc gd d a w c) n →
      ((∃ m ∈ s.splitMonitors b gr k, m.fired = true) → ∃ t : State,
        Sys2Proof.Machine.exec (.waitc gd d a w c) u = .next t ∧
        Sys2Proof.Machine.exec (.waitcReevaluate b gr k) s = .next { t with focus := s.focus }) ∧
      ((∃ m ∈ s.splitMonitors b gr k, m.poll = true ∧ m.armed + 2048 ≤ s.now) → ∃ t : State,
        Sys2Proof.Machine.exec (.waitc gd d a w c) u = .next t ∧
        Sys2Proof.Machine.exec (.waitcPoll b gr k) s = .next { t with focus := s.focus })) ∧
    (∀ gd a w c m n, (s.spl b gr k).wait = .blocked (.ewait gd a w c m) n → engLocal c = false →
      ((∃ m ∈ s.splitMonitors b gr k, m.fired = true) → ∃ t : State,
        Sys2Proof.Machine.exec (.ewait gd a w) u = .next t ∧
        Sys2Proof.Machine.exec (.waitcReevaluate b gr k) s = .next { t with focus := s.focus }) ∧
      ((∃ m ∈ s.splitMonitors b gr k, m.poll = true ∧ m.armed + 2048 ≤ s.now) → ∃ t : State,
        Sys2Proof.Machine.exec (.ewait gd a w) u = .next t ∧
        Sys2Proof.Machine.exec (.waitcPoll b gr k) s = .next { t with focus := s.focus }) ∧
      ((∀ m ∈ s.splitMonitors b gr k, m.fired = false) → Sys2Proof.Machine.exec (.waitcReevaluate b gr k) s = .next s)) ∧
    (∀ q n, (s.spl b gr k).wait = .blocked (.emit q) n →
      (∃ m ∈ s.splitMonitors b gr k, m.fired = true ∨ m.poll = true ∧ m.armed + 2048 ≤ s.now) → ∃ t : State,
      Sys2Proof.Machine.exec (.emitWake b gr k) s = .next t ∧ t.mem = s.mem ∧
      t.spl b gr k = { s.spl b gr k with wait := .ready }) ∧
    (∀ tile m n, (s.spl b gr k).wait = .blocked (.take tile m) n →
      (s.takeReady b tile (.group gr) = true → ∃ t : State,
        Sys2Proof.Machine.exec (.takeCompletes b (.split gr k)) s = .next t ∧ t.mem = s.mem ∧
        (t.blk b).tile tile = .owned (.group gr) ∧ (∀ j, j ≠ tile → (t.blk b).tile j = (s.blk b).tile j) ∧
        t.spl b gr k = { s.spl b gr k with pc := (s.spl b gr k).pc + 4, wait := .ready } ∧
        ∃ d e, t.taps = s.taps ++ [(d, e)] ∧ e.type = 0x06 ∧ e.sub = gr ∧ e.ea = s.now - n) ∧
      (s.takeReady b tile (.group gr) = false → n + s.takeLimit b ≤ s.now → s.trapHeld b gr k 0x43 = true →
        Sys2Proof.Machine.exec (.takeLimit b (.split gr k)) s = .next s) ∧
      (s.takeReady b tile (.group gr) = false → n + s.takeLimit b ≤ s.now → s.trapHeld b gr k 0x43 = false →
        Sys2Proof.Machine.exec (.takeLimit b (.split gr k)) s = .next
          { (u.modSpl b gr k fun x => { x with wait := .ready }).trapWith 0x43 m 0 with focus := s.focus }))

/-- 07 R158, R160, 08 R186, R187, 16 R338, 18 R374, R375, 20 R409: a part of a load that its home can serve takes the
value that memory holds now, unless another cache owns a word of it: then it is forwarded to the owner, which serves it; a
request that the channel's arbiter does not serve yet waits; a request, of a load or a store, that waited at a wrong die goes to
the page's home. No byte of memory, no register and nothing else of a block changes.

07 R169-R171, 18 R378: the parts of an atomic at one address take effect in one step, in ascending lanes: each part
returns the value that those before it left, the home takes the last value, and no other byte and no register changes. -/
def Obligations.MemoryParts : Prop :=
  (∀ (id i : Nat) (s : State) (o : LaneOp) (a : Access), s.ops.find id = some o → o.acc[i]? = some a →
     (s.readable id o a = true →
       (s.ownedElsewhere o.cache a.key o.bytes = false → s.arbHeld a.key (s.blk o.blk).part = false → ∃ (t : State) (p : LaneOp),
         Sys2Proof.Machine.exec (.homeRead id i) s = .next t ∧ t.mem = s.mem ∧ t.ops.find id = some p ∧
         p.acc[i]? = some { a with val := some (s.readKey a.key o.bytes) } ∧ t.blocks = s.blocks ∧ t.comets = s.comets ∧
         ∀ j, j ≠ i → p.acc[j]? = o.acc[j]?) ∧
       (s.ownedElsewhere o.cache a.key o.bytes = true → s.arbHeld a.key (s.blk o.blk).part = false → ∃ (t : State) (p : LaneOp),
         Sys2Proof.Machine.exec (.homeRead id i) s = .next t ∧ t.mem = s.mem ∧ t.ops.find id = some p ∧
         p.acc[i]? = some { a with fwd := true }) ∧
       (a.fwd = true → ∃ (t : State) (p : LaneOp),
         Sys2Proof.Machine.exec (.ownerForward id i) s = .next t ∧ t.mem = s.mem ∧ t.ops.find id = some p ∧
         p.acc[i]? = some { a with val := some (s.readKey a.key o.bytes) } ∧ t.blocks = s.blocks ∧ t.comets = s.comets) ∧
       (s.arbHeld a.key (s.blk o.blk).part = true → Sys2Proof.Machine.exec (.homeRead id i) s = .next s)) ∧
     (∀ d, o.hint = some d → ∃ (t : State) (p : LaneOp),
       Sys2Proof.Machine.exec (.hintedRequestForward id) s = .next t ∧ t.mem = s.mem ∧ t.ops.find id = some p ∧
       p.hint = none ∧ p.acc = o.acc ∧
       p.notBefore = o.notBefore + if (∃ x ∈ o.acc, isDevice x.key = true ∧ homeDie x.key / 4 ≠ d / 4) then 90 else 60) ∧
     ∀ (n d : Nat) (x : StoreOp), s.ops.find n = none → s.stores.find n = some x → x.hint = some d → ∃ t : State,
       Sys2Proof.Machine.exec (.hintedRequestForward n) s = .next t ∧ t.mem = s.mem ∧ t.stores.find n = some { x with
         hint := none,
         notBefore := x.notBefore + if (∃ c ∈ x.cells, isDevice c.1 = true ∧ homeDie c.1 / 4 ≠ d / 4) then 90 else 60 }) ∧
  (∀ (id addr v key : Nat) (s : State) (o : LaneOp) (f : AtomFn) (ps : List (Nat × Access)), s.ops.find id = some o →
     o.kind = .atomic f → ps ≠ [] → ps = o.parts.filter (fun p =>
       p.2.ea.toNat == addr && p.2.val.isNone && !atomOutside p.2.key) →
     (∀ p ∈ ps, s.atomReady id o p.2 = true ∧ s.arbHeld p.2.key (s.blk o.blk).part = false ∧ p.2.key = key) →
     s.mem.wf = true → s.armed.length < 48 → o.bytes ≤ 16 → v = s.mem.read key o.bytes →
     ∃ (t : State) (q : LaneOp), Sys2Proof.Machine.exec (.homeAtomic id addr) s = .next t ∧ t.ops.find id = some q ∧
       (∀ (n : Nat) (p : Nat × Access), ps[n]? = some p → q.acc[p.1]? = some { p.2 with
         val := some ((ps.take n).foldl (fun x y => atomNew f o.bytes x y.2.opnds) v) }) ∧
       t.blocks = s.blocks ∧ t.comets = s.comets ∧
       t.mem.bytes key o.bytes = leBytes o.bytes (ps.foldl (fun x y => atomNew f o.bytes x y.2.opnds) v) ∧
       ∀ x, x < key ∨ key + o.bytes ≤ x → t.mem.get x = s.mem.get x)

/-- 07 R158, R169, R170, 09 R202: an operation whose parts have their values and whose latency is over lands: its
destination registers, and the pair of an atomic that names one, take the values in each of its lanes, in the group or in
the comet context, also in the context that a lane has been ejected to since, and nothing of it is in flight any more. Every
other register and predicate, every uniform register, every word of shared memory, every other block and every other context
stay as they were. -/
def Obligations.OperationLandsInRegisters : Prop :=
  ∀ (id : Nat) (s : State) (o : LaneOp), s.ops.find id = some o → (∀ a ∈ o.acc, a.val.isSome = true) →
    o.notBefore ≤ s.now → (o.acc.map (·.lane)).Nodup →
    (o.comet = none → s.blocks.has o.blk = true → (∀ a ∈ o.acc, a.lane < (s.blk o.blk).width ∧ a.lane < 64) → ∃ t : State,
      Sys2Proof.Machine.exec (.loadDataLands id) s = .next t ∧ t.mem = s.mem ∧ t.ops.find id = none ∧
      (∀ a ∈ o.acc, ∀ j < (o.bytes + 3) / 4, ∀ v, a.val = some v →
        (t.blk o.blk).vregs.getD ((s.blk o.blk).regKey o.grp (o.d.toNat + j) a.lane) 0 = BitVec.ofNat 32 (v / 2 ^ (32 * j))) ∧
      (∀ k a x y rest v, o.pair = some k → k ≠ 0 → (s.blk o.blk).groups.has o.grp = true → a ∈ o.acc →
        a.opnds = x :: y :: rest → a.val = some v →
        hasLane ((t.grp o.blk o.grp).preds.getD k.toNat 0) a.lane = decide (y < v)) ∧
      (∀ c x, s.comets.find c = some x → ∀ a ∈ o.acc, x.blk = o.blk → x.grp = o.grp → x.lane = a.lane →
        ∀ j < (o.bytes + 3) / 4, x.live.getLsbD (o.d.toNat + j) = true → ∀ v, a.val = some v →
        (t.ctx c).vregs.getD (o.d.toNat + j) 0 = BitVec.ofNat 32 (v / 2 ^ (32 * j))) ∧
      (∀ n, (∀ a ∈ o.acc, ∀ j < (o.bytes + 3) / 4, n ≠ (s.blk o.blk).regKey o.grp (o.d.toNat + j) a.lane) →
        (t.blk o.blk).vregs.getD n 0 = (s.blk o.blk).vregs.getD n 0) ∧
      (∀ gr k l, (gr ≠ o.grp ∨ o.pair ≠ some (BitVec.ofNat 3 k) ∨ k = 0 ∨ 8 ≤ k ∨ ∀ a ∈ o.acc, a.lane ≠ l) →
        hasLane ((t.grp o.blk gr).preds.getD k 0) l = hasLane ((s.grp o.blk gr).preds.getD k 0) l) ∧
      (∀ gr, (t.grp o.blk gr).sregs = (s.grp o.blk gr).sregs ∧ (t.grp o.blk gr).splits = (s.grp o.blk gr).splits) ∧
      (t.blk o.blk).shared = (s.blk o.blk).shared ∧ (∀ b, b ≠ o.blk → t.blk b = s.blk b) ∧
      (∀ c x, s.comets.find c = some x → (x.blk ≠ o.blk ∨ x.grp ≠ o.grp ∨ ∀ a ∈ o.acc, a.lane ≠ x.lane) →
        t.comets.find c = some x)) ∧
    (∀ c a v, o.comet = some c → s.comets.has c = true → o.acc = [a] → a.val = some v → ∃ t : State,
      Sys2Proof.Machine.exec (.loadDataLands id) s = .next t ∧ t.mem = s.mem ∧ t.ops.find id = none ∧
      t.blocks = s.blocks ∧
      (∀ j < (o.bytes + 3) / 4, (t.ctx c).vregs.getD (o.d.toNat + j) 0 = BitVec.ofNat 32 (v / 2 ^ (32 * j))) ∧
      (∀ n, (∀ j < (o.bytes + 3) / 4, n ≠ o.d.toNat + j) → (t.ctx c).vregs.getD n 0 = (s.ctx c).vregs.getD n 0) ∧
      (∀ k, o.pair ≠ some (BitVec.ofNat 3 k) ∨ k = 0 ∨ 8 ≤ k → (t.ctx c).preds.getD k false = (s.ctx c).preds.getD k false) ∧
      ∀ k, k ≠ c → t.comets.find k = s.comets.find k)

/-- 07 R158, R159, R163, 08 R184, R186, 18 R374-R376: the stores of one instruction to one address are performed in one step
once each may be: the bytes of the highest lane stand at their home, no other byte changes, and the storing cache owns the
words where the page is of type N in device memory and the store is not .NT (in a registry with room); the acknowledgement
ends a store; stores to shared memory are performed and ended in one step. An owner that is revoked keeps a copy of the
word; a stash window that writes back owns nothing any more, and the leaves of the pages that it writes have A and D (16 R345).
Registers, tiles, ports and all else of the blocks stay as they were, but for the shared memory that a store writes.

20 R413, R414, R419, 21 R421, 13 R270, 07 R156, R158: a completion of a load whose request has been sent gives its part the
value, one of a store performs it, below a higher lane's store to its address (of a type that does not go to memory as issued)
without a byte of memory; poisoned data trap with 0x3C, and an unsuccessful completion traps the unit that is held at the access:
0xA4 for another package, 0xA5 for the host. A posted write to the host is acknowledged by a completion of its own (log 171).
A completion of a request of another asker is noted, a good one not before its least clock. No register changes but those of a
trap. -/
def Obligations.StoresAndCompletions : Prop :=
  ((∀ (id : Nat) (s : State) (x : StoreOp), s.stores.find id = some x →
     (∀ (all : List Host.Cell) (e : Nat × StoreOp), x.shared = none → x.performed = false →
       (s.siblings x).getLast? = some e → (∀ f ∈ s.siblings x, s.storeReady f.1 f.2 = true) →
       s.arbHeld ((x.cells.map Prod.fst).headD (2 ^ 62)) (s.blk x.blk).part = false → s.mem.wf = true →
       all = (s.siblings x).flatMap (fun f => f.2.cells) → (e.2.cells.map Prod.fst).Nodup →
       (∀ c ∈ e.2.cells, ∀ d ∈ e.2.cells, c.1 / 128 = d.1 / 128) →
       s.armed.length + all.length ≤ 64 → s.owners.length + all.length ≤ 262144 → ∃ (t : State) (y : StoreOp),
         Sys2Proof.Machine.exec (.ownershipRegistration id) s = .next t ∧
         t.stores.find id = some y ∧ y.performed = true ∧ (∀ c ∈ e.2.cells, t.mem.get c.1 = c.2) ∧
         (∀ a, a ∉ all.map Prod.fst → t.mem.get a = s.mem.get a) ∧ t.blocks = s.blocks ∧ t.comets = s.comets ∧
         (∀ c ∈ e.2.cells, e.2.mt = .n → e.2.nt = false → (∀ d ∈ e.2.cells, isDevice d.1 = true) →
           t.owners.find (c.1 / 4) = some { cache := e.2.cache, stash := e.2.stash, used := s.now }) ∧
         (∀ c ∈ e.2.cells, (e.2.mt ≠ .n ∨ e.2.nt = true ∨ ∃ d ∈ e.2.cells, isDevice d.1 = false) →
           t.owners.find (c.1 / 4) = none)) ∧
     (x.performed = true → x.posted = false → Sys2Proof.Machine.exec (.registrationAck id) s =
       .next { s with stores := s.stores.erase id }) ∧
     (∀ (home : Nat) (all : List Host.Cell) (e : Nat × StoreOp), x.shared = some home → x.performed = false →
       (s.siblings x).getLast? = some e → (∀ f ∈ s.siblings x, s.storeReady f.1 f.2 = true) →
       all = (s.siblings x).flatMap (fun f => f.2.cells) → s.blocks.has home = true →
       (s.blk home).shared.wf = true → (e.2.cells.map fun c => sharedOff c.1).Nodup → ∃ t : State,
         Sys2Proof.Machine.exec (.sharedStorePerformed id) s = .next t ∧ t.mem = s.mem ∧ t.stores.find id = none ∧
         (∀ c ∈ e.2.cells, (t.blk home).shared.get (sharedOff c.1) = c.2) ∧
         (∀ a, a ∉ all.map (fun c => sharedOff c.1) → (t.blk home).shared.get a = (s.blk home).shared.get a) ∧
         t.blk home = { s.blk home with shared := (t.blk home).shared } ∧ (∀ j, j ≠ home → t.blk j = s.blk j) ∧
         t.comets = s.comets)) ∧
   (∀ (w : Nat) (s : State) (o : Owner), s.owners.find w = some o → ∃ t : State,
     Sys2Proof.Machine.exec (.revocation w) s = .next t ∧ t.mem = s.mem ∧ t.owners.find w = none ∧
     t.blocks = s.blocks ∧ t.comets = s.comets ∧
     (t.copies.getD o.cache []).find w = some (s.memWord w) ∧ ∀ j, j ≠ w → t.owners.find j = s.owners.find j) ∧
   (∀ (b w : Nat) (s : State), ∃ t : State, Sys2Proof.Machine.exec (.stashWriteBack b w) s = .next t ∧
     t.mem = (s.dirtyStash b (· == w)).mem ∧ t.blocks = s.blocks ∧ t.comets = s.comets ∧
     ((∀ e ∈ (s.blk b).stash, e.1 = w → e.2.maps = 0) → t.mem = s.mem) ∧
     (∀ j o, s.owners.find j = some o → o.cache = stashCache b → o.stash = some w → t.owners.find j = none))) ∧
  ((∀ (id i : Nat) (s : State) (o : LaneOp) (a : Access), s.ops.find id = some o → o.kind = .load →
     s.hostPart o = some (i, a) → s.queuedReq id = false →
     (s.poisoned a.key o.bytes = false → s.outReady id o a = true → ∃ (t : State) (p : LaneOp),
       Sys2Proof.Machine.exec (.hostCompletion id .ok) s = .next t ∧ t.mem = s.mem ∧ t.ops.find id = some p ∧
       p.acc[i]? = some { a with val := some (s.readKey a.key o.bytes) } ∧
       (∀ b, (t.blk b).vregs = (s.blk b).vregs ∧ (t.blk b).seq = (s.blk b).seq ∧ (t.blk b).tiles = (s.blk b).tiles ∧
         (t.blk b).shared = (s.blk b).shared) ∧ ∀ c, (t.ctx c).vregs = (s.ctx c).vregs) ∧
     (s.poisoned a.key o.bytes = true → o.host = true → s.trapHeldFor o.comet o.blk o.grp o.split 0x3C = false →
       Sys2Proof.Machine.exec (.hostCompletion id .ok) s =
         .next (s.cutOp id o 0x3C (((s.hostParts o).map Prod.snd).filter fun x => s.poisoned x.key o.bytes))) ∧
     (∀ c, c ≠ .ok → o.host = true → s.trapHeldFor o.comet o.blk o.grp o.split 0xA2 = false →
       Sys2Proof.Machine.exec (.hostCompletion id c) s =
         .next (({ s with ops := s.ops.erase id } : State).abortTrap o.comet o.blk o.grp o.split
           (if isRemote a.key then 0xA4 else 0xA5) (laneBit a.lane) a.ea))) ∧
   (∀ (id key b g k n : Nat) (cm : Option Nat) (s : State) (x : StoreOp), s.ops.find id = none →
     s.stores.find id = some x → x.host = true → x.performed = false → x.posted = false →
     s.storeUnit x = some (cm, b, g, k, n) → s.queuedReq id = false → key = (x.cells.map Prod.fst).headD 0 →
     (n = id → s.outStoreReady id x = true → x.shared = none → s.mem.wf = true →
       (x.cells.map Prod.fst).Nodup → s.armed.length + x.cells.length ≤ 64 → ∃ t : State,
       Sys2Proof.Machine.exec (.hostCompletion id .ok) s = .next t ∧
       (isPosted key = false → t.stores.find id = none) ∧
       (isPosted key = true → ∃ y, t.stores.find id = some y ∧ y.performed = true ∧ y.posted = true ∧ y.host = false) ∧
       (s.overwritten id x = false → ∀ c ∈ x.cells, t.mem.get c.1 = c.2) ∧
       (s.overwritten id x = true → t.mem = s.mem) ∧
       (∀ a, a ∉ x.cells.map Prod.fst → t.mem.get a = s.mem.get a) ∧
       (∀ j, (t.blk j).vregs = (s.blk j).vregs ∧ (t.blk j).seq = (s.blk j).seq ∧ (t.blk j).tiles = (s.blk j).tiles ∧
         (t.blk j).shared = (s.blk j).shared) ∧ ∀ c, (t.ctx c).vregs = (s.ctx c).vregs) ∧
     (n ≠ id → Sys2Proof.Machine.exec (.hostCompletion id .ok) s = .next s) ∧
     (∀ c, c ≠ .ok → c ≠ .aborted → s.trapHeldFor cm b g k 0xA2 = false → Sys2Proof.Machine.exec (.hostCompletion id c) s =
       .next (({ s with stores := s.stores.keep fun i _ => !(s.instHost x).any fun e => e.1 == i } : State).abortTrap cm b g k
         (if isRemote key then 0xA4 else 0xA5)
         (maskOfList (((s.instHost x).filter fun e => (e.2.cells.map Prod.fst).headD 0 == key).map fun e => e.2.thread.laneOf))
         x.ea))) ∧
   (∀ (id : Nat) (s : State) (x : StoreOp) (c : Completion), s.ops.find id = none → s.stores.find id = some x →
     x.posted = true → s.queuedReq id = false → Sys2Proof.Machine.exec (.hostCompletion id c) s =
       .next { s with stores := s.stores.erase id }) ∧
   (∀ (id : Nat) (s : State) (r : OutReq) (c : Completion), s.ops.find id = none → s.stores.find id = none →
     s.outs.find id = some r → s.queuedReq id = false →
     (c ≠ .ok ∨ r.notBefore ≤ s.now → Sys2Proof.Machine.exec (.hostCompletion id c) s =
       .next { s with outs := s.outs.set id { r with answer := some c } }) ∧
     (c = .ok → s.now < r.notBefore → Sys2Proof.Machine.exec (.hostCompletion id c) s = .next s)))

/-- 10 R224, R225, 11 R260, 16 R339: an operation of the sequencer whose clock has come writes its register, its predicate pair, its
tile's words or hands its entry to its port; a TLD that may be filled fills its tiles with the words that memory holds
now, or, of a read-only page, that the die's read-only cache serves, and a TST that has read its tiles gives up its reservation;
a TLD of whose tiles the memory channels serve others first waits (20 R409). Every other register and predicate pair, every other
tile word, what the other write ports hold, and every other block stay as they were.

10 R231-R233: an affine port of the block's shared memory that holds no element reads ahead a full entry, in the order
of its pattern; a write port whose oldest entry may be written writes it and no longer holds it. The registers and tiles, the
other ports and the other blocks stay as they were. -/
def Obligations.SequencerSteps : Prop :=
  ((∀ (b id : Nat) (s : State) (o : SeqOp), s.hasSeq b = true → (s.seq b).ops.find id = some o → s.opDue b id o = true →
     ∃ t : State, Sys2Proof.Machine.exec (.operationLands b id) s = .next t ∧ t.mem = s.mem ∧
       (t.seq b).ops.find id = none ∧
       (∀ c r v, o.dest = .xreg c r → o.words = [(0, v)] → (t.seq b).x.getD (32 * c + r) 0 = v) ∧
       (∀ c k v, o.dest = .gpair c k → k ≠ 0 → o.words = [(0, v)] → (t.seq b).g.getD (8 * c + k) false = (v != 0)) ∧
       (∀ k, o.dest = .tile k → (o.words.map Prod.fst).Nodup → (∀ w ∈ o.words, w.1 < 64) →
         (∀ w ∈ o.words, (t.blk b).tileWord k w.1 = w.2) ∧
         ∀ n, n ∉ o.words.map Prod.fst → n < 64 → (t.blk b).tileWord k n = (s.blk b).tileWord k n) ∧
       (∀ c z cells, o.dest = .push c z cells →
         ((t.seq b).port c z).writes = ((s.seq b).port c z).writes ++ [(id, cells)]) ∧
       (∀ n, (∀ c r, o.dest = .xreg c r → n ≠ 32 * c + r) → (t.seq b).x.getD n 0 = (s.seq b).x.getD n 0) ∧
       (∀ n, (∀ c k, o.dest = .gpair c k → n ≠ 8 * c + k) → (t.seq b).g.getD n false = (s.seq b).g.getD n false) ∧
       (∀ n, (∀ k, o.dest = .tile k → ∀ w ∈ o.words, n ≠ 64 * k + w.1) →
         (t.blk b).vregs.getD n 0 = (s.blk b).vregs.getD n 0) ∧
       (∀ p q, (∀ c z cells, o.dest = .push c z cells → 8 * p + q ≠ 8 * c + z) →
         ((t.seq b).port p q).writes = ((s.seq b).port p q).writes) ∧
       (t.blk b).shared = (s.blk b).shared ∧ (∀ j, j ≠ b → t.blk j = s.blk j) ∧ t.comets = s.comets) ∧
   (∀ (b id : Nat) (s : State) (x : TileXfer), s.hasSeq b = true → (s.seq b).xfers.find id = some x →
     (s.fillReady b id x = true → s.fillHeld b x = [] → (x.tiles.map Prod.fst).Nodup → ∃ t : State,
       Sys2Proof.Machine.exec (.tldFill b id) s = .next t ∧ t.mem = s.mem ∧ (t.seq b).xfers.find id = none ∧
       (∀ e ∈ x.tiles, ∀ n < 64, (x.ro.contains e.2 = false →
           (t.blk b).tileWord e.1 n = BitVec.ofNat 32 (s.readKey (e.2 + 4 * n) 4)) ∧
         (x.ro.contains e.2 = true → (t.blk b).tileWord e.1 n = ((s.copies.getD (roCache (s.blk b).die (s.blk b).part)
           []).find (e.2 / 4 + n)).getD (s.memWord (e.2 / 4 + n)))) ∧
       (∀ n, (∀ e ∈ x.tiles, ∀ w < 64, n ≠ 64 * e.1 + w) → (t.blk b).vregs.getD n 0 = (s.blk b).vregs.getD n 0) ∧
       (t.seq b).x = (s.seq b).x ∧ (t.seq b).g = (s.seq b).g ∧ (t.seq b).ops = (s.seq b).ops ∧
       (t.blk b).shared = (s.blk b).shared ∧ (∀ j, j ≠ b → t.blk j = s.blk j) ∧ t.comets = s.comets) ∧
     (s.fillReady b id x = true → s.fillHeld b x ≠ [] → ∃ t : State,
       Sys2Proof.Machine.exec (.tldFill b id) s = .next t ∧ t.mem = s.mem ∧ t.blocks = s.blocks) ∧
     (x.store = true → ∃ t : State, Sys2Proof.Machine.exec (.tstTileRead b id) s = .next t ∧ t.mem = s.mem ∧
       (t.seq b).xfers.find id = none ∧ (t.blk b).vregs = (s.blk b).vregs ∧ (t.seq b).x = (s.seq b).x ∧
       (t.seq b).g = (s.seq b).g ∧ (t.blk b).shared = (s.blk b).shared ∧ (∀ j, j ≠ b → t.blk j = s.blk j) ∧
       t.comets = s.comets))) ∧
  ((∀ (b c z : Nat) (s : State) (p : Port), p = (s.seq b).port c z → s.mayRead b c z = true → p.src = 0 → p.exp = false →
     p.elems = [] → p.skip = 0 → p.pos + p.perEntry ≤ p.len →
     (∀ j < p.perEntry, ∃ x home off,
       x = s.engLoc (s.blkSite (.port b c z) b) false (p.unitAddr default (p.pos + j)) p.es ∧ x = .shared home off ∧
       s.seqStoring b x.key p.es = false ∧ s.locPoison x p.es = none) →
     ∃ (t : State) (q : Port), Sys2Proof.Machine.exec (.streamReadAhead b c z) s = .next t ∧ t.mem = s.mem ∧
       q = (t.seq b).port c z ∧ q.pos = p.pos + p.perEntry ∧
       q.elems.map (·.val) = ((List.range p.perEntry).map fun j => leVal (s.locBytes (s.blkSite (.port b c z) b)
         (s.engLoc (s.blkSite (.port b c z) b) false (p.unitAddr default (p.pos + j)) p.es) p.es)) ∧
       (t.blk b).vregs = (s.blk b).vregs ∧ (t.seq b).x = (s.seq b).x ∧ (t.seq b).g = (s.seq b).g ∧
       (∀ i y, 8 * i + y ≠ 8 * c + z → (t.seq b).port i y = (s.seq b).port i y) ∧
       (t.blk b).shared = (s.blk b).shared ∧ ∀ k, k ≠ b → t.blk k = s.blk k) ∧
   (∀ (b c z id : Nat) (s : State) (cs : List Host.Cell) (rest : List (Nat × List Host.Cell)), s.hasSeq b = true →
     ((s.seq b).port c z).writes = (id, cs) :: rest →
     (∀ x ∈ cs, s.mayPerform (.seqr b) id 0 x.1 1 .n .store = true ∧ isShared x.1 = false) →
     s.arbHeld ((cs.map Prod.fst).headD (2 ^ 62)) (s.blk b).part = false → s.mem.wf = true →
     (cs.map Prod.fst).Nodup → s.armed.length + cs.length ≤ 64 → ∃ t : State,
       Sys2Proof.Machine.exec (.writePortEntryWrite b c z) s = .next t ∧ ((t.seq b).port c z).writes = rest ∧
       (∀ x ∈ cs, t.mem.get x.1 = x.2) ∧ (∀ a, a ∉ cs.map Prod.fst → t.mem.get a = s.mem.get a) ∧
       (t.blk b).vregs = (s.blk b).vregs ∧ (t.seq b).x = (s.seq b).x ∧ (t.seq b).g = (s.seq b).g ∧
       (∀ i y, 8 * i + y ≠ 8 * c + z → (t.seq b).port i y = (s.seq b).port i y) ∧
       (t.blk b).shared = (s.blk b).shared ∧ ∀ k, k ≠ b → t.blk k = s.blk k))

/-- 10 R236, R237, 11 R246, 02 R64, 13 R272: a sequencer that a pre-emption waits for stops before a safe-point bundle, also
one whose waits have begun, with its LIVEIX, or at one held for more than 4,096 clocks; a STAKE of the waiting bundle takes its range when it can, and past
the take limit traps with 0x43; an illegal bundle parks the sequencer with the record of cause 0x45. -/
def Obligations.SequencerStops : Prop :=
  ∀ (b : Nat) (s : State),
    (∀ h, s.stopWanted b = true → (s.seq b).landed = true → s.headAt b = some h →
      h.safe = true → ∃ t : State, Sys2Proof.Machine.exec (.safePointStop b) s = .next t ∧ t.mem = s.mem ∧
      (t.seq b).stopped = true ∧ (t.seq b).forced = false ∧ (t.seq b).liveix = some h.liveix.toNat ∧
      (t.seq b).pc = (s.seq b).pc) ∧
    (∀ n, s.stopWanted b = true → (s.seq b).landed = true → (s.seq b).since = some n → n + 4096 < s.now → ∃ t : State,
      Sys2Proof.Machine.exec (.forcedSavePoint b) s = .next t ∧ t.mem = s.mem ∧ (t.seq b).stopped = true ∧
      (t.seq b).forced = true ∧ (t.seq b).pc = (s.seq b).pc) ∧
    (∀ c h n, s.hasSeq b = true → (s.seq b).waiting = true → (s.seq b).parked = false → (s.seq b).stopped = false →
      s.stakeOf b c = some (h, n) →
      ((∀ x, h ≤ x → x < h + n → s.takeReady b ((s.blk b).handleTile x) .seqAny = true) → ∃ t : State,
        Sys2Proof.Machine.exec (.takeCompletes b (.seqr c)) s = .next t ∧ t.mem = s.mem ∧ c ∈ (t.seq b).waited ∧
        ∀ x, h ≤ x → x < h + n → (t.blk b).tile ((s.blk b).handleTile x) = .owned (.seqCol c)) ∧
      (∀ w, (s.seq b).since = some w → w + s.takeLimit b ≤ s.now →
        (∃ x, h ≤ x ∧ x < h + n ∧ (s.blk b).seqOwns ((s.blk b).handleTile x) = false ∧
          s.takeReady b ((s.blk b).handleTile x) .seqAny = false) →
        Sys2Proof.Machine.exec (.takeLimit b (.seqr c)) s = .next (s.seqTrap b 0x43 0 0 c 0))) ∧
    (s.hasSeq b = true → (s.seq b).parked = false → ∃ t : State,
      Sys2Proof.Machine.exec (.illegalBundle b) s = .next t ∧ t.mem = s.mem ∧ (t.seq b).parked = true ∧
      (t.seq b).pc = (s.seq b).pc ∧ 
      (t.facet (s.blk b).facet).record = { sepc := (s.seq b).pc, scause := 0x80000045, sinfo := 0 })

/-- 14 R298, R299: the upper half's message completes the phase of a cluster barrier when the arrivals have met the expected
count, and is noted otherwise; the release opens the barrier for the groups of the upper half.

16 R351, R352: the unit of a die adds the arrivals of a window to CNT of the object, and sends its message when CNT
reaches EXP; the message of the last die completes the phase: the counts become 0, PHASE goes up by 1 and the releases go
out, after 40 clocks to the master's die and 80 to the others; a release lets the groups that the die counted for its phase
depart, and no others. Arrivals that would pass EXP are taken back: a group that is out traps once its block has entered again. -/
def Obligations.BarrierMessages : Prop :=
  (∀ (q n : Nat) (s : State) (x : Gang) (y : GangBar), s.gangs.find q = some x → y = s.gangBar x n → x.cluster = true →
     (y.half.isSome = true → ∃ (t : State) (x' : Gang) (z : GangBar),
       Sys2Proof.Machine.exec (.cbarHalfMessage q n) s = .next t ∧ t.mem = s.mem ∧ t.gangs.find q = some x' ∧
       x'.bars.find n = some z ∧ z.half = none ∧
       (y.bar.x ≤ y.bar.n → y.rel = none → z.bar.p = !y.bar.p ∧ z.bar.n = 0 ∧ z.halfIn = false ∧
         z.openLow = s.now + 4 ∧ z.rel = if s.hasHalf x false then some (s.now + 20) else none) ∧
       (y.bar.n < y.bar.x ∨ y.rel ≠ none → z.bar = y.bar ∧ z.halfIn = true)) ∧
     (∀ r, y.rel = some r → r ≤ s.now → ∃ (t : State) (x' : Gang) (z : GangBar),
       Sys2Proof.Machine.exec (.cbarReleaseMessage q n) s = .next t ∧ t.mem = s.mem ∧ t.gangs.find q = some x' ∧
       x'.bars.find n = some z ∧
       ∀ key w, y.bar.groups.find key = some w → s.memberLow (x.members.getD (key / 64) 0) = false →
         z.bar.groups.find key = some w.opened)) ∧
  (∀ (o d : Nat) (s : State) (x : DBar), s.dbars.find o = some x → o % 64 = 0 → d < 4 → s.mem.wf = true →
     (∀ w rest, x.window d = (w, rest) → w ≠ [] → s.mem.read (o + 16 + 2 * d) 2 + w.length ≤ s.dbarExp o d →
       ∃ (t : State) (y : DBar), Sys2Proof.Machine.exec (.dbarWindow o d) s = .next t ∧ t.dbars.find o = some y ∧
         t.mem.read (o + 16 + 2 * d) 2 = s.mem.read (o + 16 + 2 * d) 2 + w.length ∧ y.fresh = rest ∧
         y.counted = x.counted ++ w.map (fun e => (e.1, e.2.1, e.2.2.1, x.phase)) ∧ t.blocks = s.blocks ∧
         (y.msgs = if s.mem.read (o + 16 + 2 * d) 2 + w.length = s.dbarExp o d then x.msgs ++ [(d, s.now)] else x.msgs) ∧
         ∀ a, a < o + 16 + 2 * d ∨ o + 18 + 2 * d ≤ a → t.mem.get a = s.mem.get a) ∧
     (∀ e rest, x.window d = ([e], rest) → s.dbarExp o d < s.mem.read (o + 16 + 2 * d) 2 + 1 →
       (s.blk e.2.1).phase ≠ .resident → ∃ (t : State) (y : DBar),
         Sys2Proof.Machine.exec (.dbarWindow o d) s = .next t ∧ t.mem = s.mem ∧ t.dbars.find o = some y ∧ y.fresh = rest ∧
         y.failed.getD (64 * e.2.1 + e.2.2.1) 0 = x.failed.getD (64 * e.2.1 + e.2.2.1) 0 |||
           (x.groups.getD (64 * e.2.1 + e.2.2.1) default).lanes) ∧
     ((∃ m ∈ x.msgs, m.1 = d) →
       ((∀ e ∈ s.dbarDies o, e ∈ x.doneDies ∨ e = d) →
         (s.mem.read (o + 4) 4 % 2 = 0 ∨ s.mem.read (o + 48) 8 = 0) → ∃ (t : State) (y : DBar),
         Sys2Proof.Machine.exec (.dbarCompletionMessage o d) s = .next t ∧ t.dbars.find o = some y ∧
         t.mem.read (o + 16) 8 = 0 ∧ t.mem.read (o + 24) 4 = (s.mem.read (o + 24) 4 + 1) % 2 ^ 32 ∧ y.doneDies = [] ∧
         y.rels = x.rels ++ (s.dbarDies o).map (fun e =>
           (e, s.now + if e = s.dbarMasterDie o then 40 else 80, x.phase)) ∧ y.phase = x.phase + 1 ∧ t.blocks = s.blocks ∧
         ∀ a, a < o + 4 ∨ o + 28 ≤ a → t.mem.get a = s.mem.get a) ∧
       ((∃ e ∈ s.dbarDies o, e ∉ x.doneDies ∧ e ≠ d) → ∃ (t : State) (y : DBar),
         Sys2Proof.Machine.exec (.dbarCompletionMessage o d) s = .next t ∧ t.mem = s.mem ∧ t.dbars.find o = some y ∧
         y.doneDies = x.doneDies ++ [d])) ∧
     (∀ r, x.rels.find? (fun r => r.1 == d && decide (r.2.1 ≤ s.now)) = some r → ∃ (t : State) (y : DBar),
       Sys2Proof.Machine.exec (.dbarRelease o d) s = .next t ∧ t.mem = s.mem ∧ t.dbars.find o = some y ∧
       (∀ b gr w, (d, b, gr, r.2.2) ∈ x.counted → x.groups.find (64 * b + gr) = some w →
         y.groups.find (64 * b + gr) = some w.opened) ∧
       ∀ n, (∀ e ∈ x.counted, e.1 = d → e.2.2.2 = r.2.2 → 64 * e.2.1 + e.2.2.1 ≠ n) →
         y.groups.find n = x.groups.find n))

/-- 09 R210, R216, R219, 13 R267: a ring-mode copy claims a free slot and, when its plane is complete, hands it over filled; a copy
writes the bytes of its source to its destination, in shared memory or at the home of a global address (here where no
range is armed and the piece itself arms none: it writes no byte with bit 1 set, ARM, where an object would have its CTL, 4 modulo
64), parks at a fault or at poisoned data with the cause and the address, and
after its last plane adds 1 to its done counter and is over; poisoned data in the counter park it (20 R419).

09 R219, 10 R234, 19 R390, R399-R401: the sparse-index engine delivers the offsets of the set bits of a bitmap word, or of a
run, to its gather port (none past the end mark, log 59), and after the last marks their end and adds 1 to its done counter, as
an operation does that has failed. Lodestar goes on step by step with its progress record, and from phase to phase: a step that
reads takes the record on and changes no memory, a vector score is ranked, and the lists of modes 2 and 3 are fused; writing, it
checks all the places of its result area before it writes any, and with its last words it adds 1 to its counter, here both in
shared memory. What a step takes in is the model's choice (log 55). -/
def Obligations.EngineSteps : Prop :=
  (∀ (id : Nat) (s : State) (o : EngineOp), s.engines.find id = some o → o.engine ≤ 1 → s.engRuns o = true →
     (∀ r, (s.blk o.blk).rings.find o.ring = some r → o.ringMode = true →
       (o.copied = false → o.claimed = false → r.free ≠ 0 → ∃ t : State,
         Sys2Proof.Machine.exec (.copySlotClaim id) s = .next t ∧ t.mem = s.mem ∧
         t.engines.find id = some { o with claimed := true, slot := some r.fi, i1 := 0, byte := 0 } ∧
         (t.blk o.blk).rings.find o.ring = some { r with fi := (r.fi + 1) % r.slots, free := r.free - 1 }) ∧
       (o.failed = false → o.claimed = true → o.planeDone = true → ∃ t : State,
         Sys2Proof.Machine.exec (.copySlotFilled id) s = .next t ∧ t.mem = s.mem ∧
         t.engines.find id = some { o with claimed := false, slot := none, i1 := 0, byte := 0, i2 := o.i2 + 1 } ∧
         (t.blk o.blk).rings.find o.ring = some { r with filled := r.filled + 1 })) ∧
     (∀ rows home off, o.copied = true →
       s.engLoc (s.engSite id o) true (regAddr o.regs 12) 8 = .shared home off → off + 8 ≤ 2 ^ 32 →
       s.blocks.has home = true → (s.blk home).shared.wf = true →
       (s.locPoison (.shared home off) 8 = none → ∃ t : State,
         Sys2Proof.Machine.exec (.copyOperationDone id rows) s = .next t ∧ t.mem = s.mem ∧ t.engines.find id = none ∧
         (t.blk home).shared.read off 8 = ((s.blk home).shared.read off 8 + 1) % 2 ^ 64 ∧
         ∀ a, a < off ∨ off + 8 ≤ a → (t.blk home).shared.get a = (s.blk home).shared.get a) ∧
       (∀ i, s.locPoison (.shared home off) 8 = some i → ∃ (t : State) (y : EngineOp),
         Sys2Proof.Machine.exec (.copyOperationDone id rows) s = .next t ∧ t.mem = s.mem ∧ t.blocks = s.blocks ∧
         t.engines.find id = some y ∧ y.parked = true ∧ y.fault = some (0x3C, BitVec.ofNat 64 (regAddr o.regs 12)))) ∧
     (∀ r n x, o.copied = false → (o.ringMode = true → o.claimed = true ∧ o.planeDone = false) →
       r = (s.blk o.blk).rings.getD o.ring default →
       n = s.pieceLen o.blk (o.dst r) (s.pieceLen o.blk o.src (o.reg 4 - o.byte)) →
       x = s.engLoc (s.engSite id o) false o.src n →
       (∀ home off, (∀ va, x ≠ .wait va) → (∀ c a, x ≠ .fault c a) → x ≠ .held → (∀ k y m, x ≠ .out k y m) → s.locHeld (s.engSite id o) x = false →
         s.engLoc (s.engSite id o) true (o.dst r) n = .shared home off → (∀ i, s.locPoison x n = some i →
           ∃ (t : State) (y : EngineOp), Sys2Proof.Machine.exec (.copyOperationDone id 1) s = .next t ∧ t.mem = s.mem ∧
           t.blocks = s.blocks ∧ t.engines.find id = some y ∧ y.parked = true ∧
           y.fault = some (0x3C, BitVec.ofNat 64 (o.src + i))) ∧ (s.locPoison x n = none → off + n ≤ 2 ^ 32 → s.blocks.has home = true →
         (s.blk home).shared.wf = true → ∃ t : State,
         Sys2Proof.Machine.exec (.copyOperationDone id 1) s = .next t ∧ t.mem = s.mem ∧
         t.engines.find id = some (o.advance n) ∧ (t.blk home).shared.bytes off n = s.locBytes (s.engSite id o) x n ∧
         ∀ a, a < off ∨ off + n ≤ a → (t.blk home).shared.get a = (s.blk home).shared.get a)) ∧
       (∀ e l1 va win y, y = s.engLoc (s.engSite id o) true (o.dst r) n → y = .glob e l1 va win →
         (∀ va, x ≠ .wait va) → (∀ c a, x ≠ .fault c a) → x ≠ .held → (∀ k y m, x ≠ .out k y m) → s.locHeld (s.engSite id o) x = false →
         s.locHeld (s.engSite id o) y = false → s.locPoison x n = none → s.armed = [] →
         (∀ j < n, (e.key va + j) % 64 = 4 → ((s.locBytes (s.engSite id o) x n).getD j 0).getLsbD 1 = false) →
         s.mem.wf = true → ∃ t : State,
         Sys2Proof.Machine.exec (.copyOperationDone id 1) s = .next t ∧ t.engines.find id = some (o.advance n) ∧
         t.mem.bytes (e.key va) n = s.locBytes (s.engSite id o) x n) ∧
       (∀ c a, x = .fault c a → ∃ (t : State) (y : EngineOp),
         Sys2Proof.Machine.exec (.copyOperationDone id 1) s = .next t ∧ t.mem = s.mem ∧
         t.engines.find id = some y ∧ y.parked = true ∧ y.fault = some (c, BitVec.ofNat 64 a)))) ∧
  (∀ (id : Nat) (s : State) (o : EngineOp), s.engines.find id = some o → s.engRuns o = true →
     (o.engine = 2 → o.failed = false → o.claimed = false → s.gathers o = true → o.i2 < o.reg 3 → o.issued < s.now →
       ∀ w u p, p = (s.seq o.blk).port o.target.1 o.target.2 →
       s.metaWord id o (if o.reg 2 = 0 then o.i2 / 32 else o.i2) = .ok w u →
       (∀ n set, o.reg 2 = 0 → n = min (32 - o.i2 % 32) (o.reg 3 - o.i2) →
         set = (List.range n).filter (fun j => w / 2 ^ (o.i2 % 32 + j) % 2 == 1) → set.length ≤ p.rate →
         ∃ (t : State) (y : EngineOp), Sys2Proof.Machine.exec (.sparseIndexDone id) s = .next t ∧
         t.engines.find id = some y ∧ y.i2 = o.i2 + n ∧
         ((t.seq o.blk).port o.target.1 o.target.2).offs =
           if p.ended then p.offs else p.offs ++ set.map fun j => (o.reg 4 + o.i2 + j) % 2 ^ 32) ∧
       (o.reg 2 = 1 → o.byte = 0 → w / 2 ^ 16 ≤ p.rate →
         ∃ (t : State) (y : EngineOp), Sys2Proof.Machine.exec (.sparseIndexDone id) s = .next t ∧
         t.engines.find id = some y ∧ y.i2 = o.i2 + 1 ∧ y.i1 = (o.i1 + w % 2 ^ 16 + w / 2 ^ 16) % 2 ^ 32 ∧
         ((t.seq o.blk).port o.target.1 o.target.2).offs =
           if p.ended then p.offs
           else p.offs ++ (List.range (w / 2 ^ 16)).map fun j => (o.reg 4 + o.i1 + w % 2 ^ 16 + j) % 2 ^ 32)) ∧
     (∀ home off, o.engine = 2 → (o.failed = true ∨ o.claimed = true ∨ s.gathers o = true ∧ o.reg 3 ≤ o.i2) →
       s.engLoc (s.engSite id o) true (regAddr o.regs 6) 8 = .shared home off → off + 8 ≤ 2 ^ 32 →
       s.locPoison (.shared home off) 8 = none → s.blocks.has home = true → (s.blk home).shared.wf = true → ∃ t : State,
       Sys2Proof.Machine.exec (.sparseIndexDone id) s = .next t ∧ t.mem = s.mem ∧ t.engines.find id = none ∧
       (o.failed = false → o.claimed = false → ((t.seq o.blk).port o.target.1 o.target.2).ended = true) ∧
       (t.blk home).shared.read off 8 = ((s.blk home).shared.read off 8 + 1) % 2 ^ 64) ∧
     (o.engine = 3 → o.failed = false → o.claimed = false →
       (∀ r as, o.lode.phase < 3 →
         o.lodeStep (s.lodeWord (s.engSite id o) .engine) (s.lodeEng (s.engSite id o)) (Config.freeBool s.freeCtr) [] =
           .ok (r, as) →
         (r.phase = o.lode.phase ∨ r.phase = o.lode.phase + 1 ∨ o.lode.phase = 0 ∧ o.lodeMode ≤ 1 ∧ r.phase = 3) ∧
         (o.lode.phase = 0 → o.reg 2 ≤ o.lode.terms.length ∨ r.terms.length = o.lode.terms.length + 1) ∧
         (o.lode.phase = 1 → o.lode.nextDoc - o.reg 14 < o.reg 12 → ∃ w : Word, f32finite w = true ∧
           r = { o.lode with tv := (rankInsert (o.lode.nextDoc, w) o.lode.tv).take (o.reg 4), nextDoc := o.lode.nextDoc + 1 }) ∧
         (o.lode.phase = 1 → o.reg 12 ≤ o.lode.nextDoc - o.reg 14 → r = { o.lode with phase := 2 }) ∧
         (o.lode.phase = 2 → r = o.fuse) ∧ ∃ t : State,
         Sys2Proof.Machine.exec (.lodestarDone id) s = .next t ∧ t.mem = s.mem ∧ t.blocks = s.blocks ∧
         t.engines.find id = some { o with lode := r }) ∧
       ∀ home off r n i k, 3 ≤ o.lode.phase → r = o.lodeResult → n = 4 + 2 * r.entries.length →
         i = (if o.lode.checked < n then o.lode.checked else o.lode.written) → k = min 16 (n - i) →
         (∀ j, i ≤ j → j < i + k → s.engLoc (s.engSite id o) true (regAddr o.regs 16 + 4 * j) 4 notNormal =
           .shared home (off + 4 * j)) →
         (o.lode.checked < n → ∃ t : State, Sys2Proof.Machine.exec (.lodestarDone id) s = .next t ∧ t.mem = s.mem ∧
           t.blocks = s.blocks ∧ t.engines.find id = some { o with lode := { o.lode with checked := i + k } }) ∧
         (n ≤ o.lode.checked → off + 4 * n ≤ 2 ^ 32 → s.blocks.has home = true → (s.blk home).shared.wf = true →
           (i + k < n → ∃ t : State, Sys2Proof.Machine.exec (.lodestarDone id) s = .next t ∧ t.mem = s.mem ∧
             t.engines.find id = some { o with lode := { o.lode with written := i + k } } ∧
             (t.blk home).shared.bytes (off + 4 * i) (4 * k) = (r.bytes.drop (4 * i)).take (4 * k) ∧
             ∀ a, a < off + 4 * i ∨ off + 4 * (i + k) ≤ a → (t.blk home).shared.get a = (s.blk home).shared.get a) ∧
           (∀ c, i < n → i + k = n → s.engLoc (s.engSite id o) true (regAddr o.regs 19) 8 = .shared home c → c + 8 ≤ 2 ^ 32 →
             (c + 8 ≤ off + 4 * i ∨ off + 4 * n ≤ c) → s.locPoison (.shared home c) 8 = none → ∃ t : State,
             Sys2Proof.Machine.exec (.lodestarDone id) s = .next t ∧ t.mem = s.mem ∧ t.engines.find id = none ∧
             (t.blk home).shared.bytes (off + 4 * i) (4 * k) = r.bytes.drop (4 * i) ∧
             (t.blk home).shared.read c 8 = ((s.blk home).shared.read c 8 + 1) % 2 ^ 64))))

/-- 02 R72, R430, 15 R311, R313: the loader answers the code of an object's first failing check, and registers the nodes
of one that passes, its parts written where they are placed (where that is, and that parts which overlap are written one after
another, is the model's choice, logs 80 and 146); a queue's registration answers the first failing check, and 0 registers the queue
with what its descriptor says. Check 6 takes the tag of the partition of the named virtual function, also where PF0 registers, which
is the model's reading (log 81). -/
def Obligations.Registrations : Prop :=
  (∀ (fn text seq data hdr c : Nat) (obj : List Byte) (s : State) (nodes : List Node) (parts : List (Nat × List Byte)),
    s.bootst = 0x80 →
    (loadPlan obj text seq data hdr = none → ∃ t : State,
      Sys2Proof.Machine.exec (.loaderRegister fn obj text seq data hdr) s = .next t ∧ s.answered t fn 1 [] ∧
      t.mem = s.mem ∧ t.nodes = s.nodes) ∧
    (loadPlan obj text seq data hdr = some (c, nodes, parts) → c ≠ 0 → ∃ t : State,
      Sys2Proof.Machine.exec (.loaderRegister fn obj text seq data hdr) s = .next t ∧ s.answered t fn c [] ∧
      t.mem = s.mem ∧ t.nodes = s.nodes) ∧
    (∀ u, loadPlan obj text seq data hdr = some (0, nodes, parts) → text % 4 = 0 → seq % 4 = 0 → hdr % 256 = 0 →
      s.placeAll fn parts = some u → ∃ t : State,
      Sys2Proof.Machine.exec (.loaderRegister fn obj text seq data hdr) s = .next t ∧ t.mem = u.mem ∧
      (∃ old, t.nodes = old ++ nodes.map fun n => (fn, n)) ∧ u.answered t fn 0 [])) ∧
  (∀ (fn q vf key : Nat) (s : State) (ms : List (TlbEntry × List Nat)) (d : List Byte), (fn = 0 ∨ fn = vf) →
    s.spaceMap vf true q 128 = some ms → d = s.bytesIn ms q 128 → key = keyIn ms q → ∃ (t : State) (c : Nat),
    Sys2Proof.Machine.exec (.registerQueue fn q vf) s = .next t ∧ t.mem = s.mem ∧ s.answered t fn c [] ∧
    c = (if num d 0 4 ≠ 0x51544E49 then 1 else if (List.range 21).all (fun i => num d 4 4 != 2 ^ i) then 2
      else if num d 40 8 % 64 ≠ 0 then 3 else if q % 128 ≠ 0 ∨ allNormal ms = false then 4
      else match s.nodeOf vf (num d 8 8) with
        | none => 5
        | some n =>
          if num d 52 4 ≠ n.part ∨ num d 52 4 ≠ (s.part (s.vf vf).part).ptag.toNat then 6
          else if num d 16 24 ≠ 0 ∨ num d 56 24 ≠ 0 then 7 else if s.queues.has key then 8 else 0) ∧
    (c ≠ 0 → t.queues = s.queues) ∧
    (c = 0 → ∃ (x : Queue) (n : Node), t.queues.find key = some x ∧ s.nodeOf vf (num d 8 8) = some n ∧ x.node = n ∧
      x.addr = q ∧ x.vf = vf ∧ x.cap = num d 4 4 ∧ x.recs = num d 40 8 ∧ x.ctx = num d 48 2 ∧ x.cons = 0 ∧
      x.pending = 0 ∧ x.launched = 0 ∧ x.head = 0)) ∧
  ∀ (fn q vf : Nat) (s : State),
    (fn ≠ 0 → fn ≠ vf → Sys2Proof.Machine.exec (.registerQueue fn q vf) s = .next s) ∧
    ((fn = 0 ∨ fn = vf) → s.spaceMap vf true q 128 = none → ∃ t : State,
      Sys2Proof.Machine.exec (.registerQueue fn q vf) s = .next t ∧ s.answered t fn 4 [] ∧ t.queues = s.queues)

/-- 15 R314, R316, R317, R323: when the distributor looks, and the open batch's timeout is not over, the record whose slot
bears its stamp is pending; the record that fills the batch, or says so,
or stands in the queue's last slot, closes it; so does the timeout. A batch that closes forms a block, and CONS and
LAUNCHED of the descriptor follow; beside the queue's words memory changes in the leaves of the pages that were read (16 R345). A queue
whose words lie in the final block of a migration waits (18 R381). Here for a node of no gang.

15 R324-R328, 03 R75-R77, 10 R227: the first block of a die's waiting list enters the first facet, from its preferred
core on, that admits it, and is launched there: every group starts at the node's code with all its lanes and, where it has
three uniform registers, the address of its first slot and the number of its records, and the sequencer at the node's
bundle code. Here for the only block of the list, of no gang, with no image. -/
def Obligations.BlocksFormAndLaunch : Prop :=
  (∀ (k : Nat) (s : State) (q : Queue), s.queues.find k = some q → q.key = k → q.node.gangn = 0 →
     ((s.looksAt q = false ∨ s.batchDue q = true) → Sys2Proof.Machine.exec (.stampObserved k) s = .next s) ∧
     (∀ r i, s.looksAt q = true → s.batchDue q = false → i = q.cons + q.pending → s.recordBytes q i = some r →
       (num r 0 8 ≠ i + 1 → ∃ (t : State) (x : Queue), Sys2Proof.Machine.exec (.stampObserved k) s = .next t ∧
         t = { s with queues := t.queues, slices := t.slices } ∧ t.queues.find k = some x ∧
         x = { q with tailW := x.tailW, stampW := x.stampW }) ∧
       (num r 0 8 = i + 1 → q.pending + 1 ≠ q.node.coalesce → num r 16 4 / 2 % 2 = 0 → i % q.cap ≠ q.cap - 1 →
         ∃ (t : State) (x : Queue), Sys2Proof.Machine.exec (.stampObserved k) s = .next t ∧
         t.mem = (s.markSpace q.vf (q.slotAddr i) 64).mem ∧ t.blocks = s.blocks ∧ t.queues.find k = some x ∧ x.pending = q.pending + 1 ∧ x.cons = q.cons ∧
         x.firstAt = if q.pending = 0 then s.now else q.firstAt) ∧
       (num r 0 8 = i + 1 → (q.pending + 1 = q.node.coalesce ∨ num r 16 4 / 2 % 2 = 1 ∨ i % q.cap = q.cap - 1) →
         s.mem.wf = true → k % 64 = 0 → s.armed.length < 60 → ∃ t : State,
         Sys2Proof.Machine.exec (.stampObserved k) s = .next t ∧
         formedBlock (s.markSpace q.vf (q.slotAddr i) 64) t { q with pending := q.pending + 1 } s.nextId)) ∧
     ((q.pending = 0 ∨ q.node.timeout = 0 ∨ s.now < q.firstAt + q.node.timeout ∨ s.queueHeld q = true) →
       Sys2Proof.Machine.exec (.batchTimeout k) s = .next s) ∧
     (q.pending ≠ 0 → q.node.timeout ≠ 0 → q.firstAt + q.node.timeout ≤ s.now → s.queueHeld q = false → s.mem.wf = true →
       k % 64 = 0 → s.armed.length < 60 → ∃ t : State, Sys2Proof.Machine.exec (.batchTimeout k) s = .next t ∧
       formedBlock s t q s.nextId)) ∧
  (∀ (d b f : Nat) (s : State) (x : Block), d ≤ 3 → (∀ p < 20, s.settleVf p = s) → s.reserve = [] → s.waitList d = [b] →
     x = s.blk b → x.gang = none → x.image = false → s.heldOn b = none →
     (s.facetsOf x.coreOrder).find? (fun f => s.facetAdmits b f true) = some f → ∃ t : State,
       Sys2Proof.Machine.exec (.blockAdmission d) s = .next t ∧ (t.blk b).phase = .resident ∧ (t.blk b).facet = f ∧
       (∀ i < x.node.groups, t.hasSplit b i 0 = true ∧ (t.spl b i 0).pc = BitVec.ofNat 64 x.node.code ∧
         (t.spl b i 0).am = allLanes x.node.width ∧ (t.spl b i 0).cm = allLanes x.node.width ∧
         (t.spl b i 0).wait = .ready ∧ (t.spl b i 0).stack = [] ∧
         (3 ≤ x.node.sregs → pairVal ((t.grp b i).sregs.getD 0 0) ((t.grp b i).sregs.getD 1 0) =
           BitVec.ofNat 64 (s.firstSlot x) ∧ (t.grp b i).sregs.getD 2 0 = BitVec.ofNat 32 x.records.length)) ∧
       (x.node.facetw = 0 → (t.blk b).seq = none) ∧
       (x.node.facetw ≠ 0 → (t.blk b).seq = some (Seq.launch x.node.facetw (BitVec.ofNat 64 x.node.seqcode))))

/-- 15 R326, R327, 20 R408: the front block of a die that has waited 65,536 clocks gets the reservation; while it does not
fit, the youngest block that the quantum lets go is pre-empted; at the end of a slice the blocks of the running virtual
function are pre-empted when another one has waiting blocks, and that one runs, whose blocks enter once the others are out; where
none has, a new slice begins. That the youngest block is the one with the highest number (log 95), and that a new slice begins
where no other function waits (log 100), is the model's choice.

13 R275-R277, R285, R287, 15 R332-R334: a block asked to go out, whose units have stopped and whose accesses are done, is
saved: its image, with its registers, predicates, shared memory and engine registers, stands in its context area, as its tables map
it (that they do is the model's reading, log 5; here where no two of its bytes have one home, and, for a migration or a dump, no
tiles are held for it), it holds no facet and no context, and it waits, is swapped out or, for a fault
dump, stays; one that an END named meanwhile is gone. A park that lasts the limit, and a block all of whose units are
blocked, ask for that; a polled word of a swapped-out block's WAITC that holds brings it back. -/
def Obligations.ReservationAndPreemption : Prop :=
  ((∀ (d b : Nat) (bs : List Nat) (s : State), s.waitList d = b :: bs → s.reserve.has d = false →
     (s.blk b).waitingSince + 65536 ≤ s.now → ∃ t : State, Sys2Proof.Machine.exec (.reservation d) s = .next t ∧
     t = { s with reserve := t.reserve } ∧ t.reserve.find d = some b) ∧
   (∀ (d r b : Nat) (bs : List Nat) (s : State), s.reserve.find d = some r →
     (∀ e ∈ s.blocks, e.2.phase = .resident → e.2.die = d → e.2.preempt = none) → s.tryEntry r = none →
     s.quantumList d r = b :: bs → (s.blk b).gang = none → (s.blk b).phase = .resident → (s.blk b).preempt = none →
     ∃ t : State, Sys2Proof.Machine.exec (.quantumPreemption d) s = .next t ∧ t = { s with blocks := t.blocks } ∧
     (t.blk b).preempt = some 0 ∧ ∀ k, k ≠ b → t.blocks.find k = s.blocks.find k) ∧
   (∀ (p v : Nat) (s : State), (s.part p).runVf = some v → (s.part p).sliceStart + (s.part p).slice ≤ s.now →
     nextVf v ((s.waitingVfs p).filter (· != v)) = none → ∃ t : State,
     Sys2Proof.Machine.exec (.vfSliceEnd p) s = .next t ∧ t = { s with parts := t.parts } ∧
     t.part p = { s.part p with sliceStart := s.now }) ∧
   (∀ (p v w : Nat) (s : State), (s.part p).runVf = some v → (s.part p).sliceStart + (s.part p).slice ≤ s.now →
     nextVf v ((s.waitingVfs p).filter (· != v)) = some w → ∃ t : State,
     Sys2Proof.Machine.exec (.vfSliceEnd p) s = .next t ∧ t.mem = s.mem ∧ (t.part p).runVf = some w ∧
     (t.part p).sliceStart = s.now ∧
     ∀ b x, s.blocks.find b = some x → x.part = p → x.vf = v → x.phase = .resident →
       (∀ g, x.gang = some g → b ∈ (s.gangs.getD g default).members) → (t.blk b).preempt.isSome = true) ∧
   ∀ (d b : Nat) (s : State), b ∈ s.waitList d → (s.part (s.blk b).part).runVf = some (s.blk b).vf ∧
     ∀ e ∈ s.blocks, e.2.part = (s.blk b).part → e.2.phase = .resident → e.2.vf = (s.blk b).vf) ∧
  ((∀ (b code : Nat) (s : State) (x : Block), s.blocks.find b = some x → x.gang = none → s.saveReady b = true →
     x.preempt = some code → x.endAsked = false →
     (3 ≤ code → (s.facet x.facet).accV = false ∧ (s.facet x.facet).heldBlk ≠ some b) → ∃ t : State,
     Sys2Proof.Machine.exec (.preemption b) s = .next t ∧
     (t.blk b).phase = (if code = 1 ∨ code = 2 then .swapped else if code = 4 then .dumped else .waiting) ∧
     (t.blk b).image = true ∧
     (t.blk b).preempt = none ∧ (∀ e ∈ t.comets, e.2.blk ≠ b) ∧ (∀ e ∈ t.engines, e.2.blk ≠ b) ∧
     (code ≤ 2 → s.mem.wf = true → (∀ h, (s.facet x.facet).heldBlk = some h → h = b) →
       ∃ (hold : Nat) (secs : List ImgSec) (bs : List Byte) (cs : List Host.Cell) (u : State),
         u = (s.markSave b).dirtyStash b (fun _ => true) ∧
         bs = imageBytes (if code = 1 then 1 else 0) x.ptag x.ctx hold secs ∧
         fullSection 2 ((List.range x.node.groups).flatMap x.regBytes) ∈ secs ∧
         fullSection 3 ((List.range x.node.groups).flatMap x.uniformBytes) ∈ secs ∧
         fullSection 4 ((List.range x.node.groups).flatMap x.predBytes) ∈ secs ∧
         fullSection 12 (x.shared.bytes 0 x.node.shared) ∈ secs ∧
         fullSection 15 ((List.range x.node.groups).flatMap x.engineBytes) ∈ secs ∧
         cs = u.ctxCells b (bs.length / 4096 + 1) (x.imageAt 0) bs ∧
         ((cs.map Prod.fst).Nodup → ∀ c ∈ cs, t.mem.get c.1 = c.2))) ∧
   (∀ (b : Nat) (s : State) (x : Block), s.blocks.find b = some x → x.gang = none → s.saveReady b = true →
     x.endAsked = true → ∃ t : State, Sys2Proof.Machine.exec (.preemption b) s = .next t ∧ t.gone b) ∧
   (∀ (b : Nat) (s : State) (x : Block), s.blocks.find b = some x → x.phase = .resident → x.preempt = none → x.gang = none →
     ((∃ n ∈ s.parksSince b, n + (s.part x.part).plim ≤ s.now) → ∃ t : State,
       Sys2Proof.Machine.exec (.parkLimit b) s = .next t ∧ t = { s with blocks := t.blocks } ∧
       t.blocks.find b = some { x with preempt := some 1 }) ∧
     (s.allBlocked b = true → s.blockOver b = false → (∀ e ∈ s.monitors, e.2.blk = b → e.2.fired = false) → ∃ t : State,
       Sys2Proof.Machine.exec (.allBlockedSwapOut b) s = .next t ∧ t = { s with blocks := t.blocks } ∧
       t.blocks.find b = some { x with preempt := some 2 })) ∧
   (∀ (b k : Nat) (s : State) (x : Block) (m : Monitor), s.blocks.find b = some x → x.phase = .swapped →
     s.monitors.find k = some m → m.blk = b → m.poll = true → m.armed + 2048 ≤ s.now → ∃ (t : State) (y : Monitor),
     Sys2Proof.Machine.exec (.distributorWaitcPoll b) s = .next t ∧ t.mem = s.mem ∧ t.monitors.find k = some y ∧
     y.armed = s.now ∧
     ((∀ e ∈ s.monitors, e.2.blk = b → sameWaitc m e.2 = true → s.holdsNow e.2 = true) →
       t.blocks.find b = some { x with
         reentry := true, waitingSince := if x.reentry then x.waitingSince else s.now })))

/-- 15 R330, R331, 09 R219, 06 R150, 10 R233: the oldest park record of a partition goes to its park queue where it has room, with an
interrupt; RESUME lets a parked split, sequencer, comet context or engine operation go on, the splits and contexts at
their RPC, one that a join timeout parked at its JOIN, where it counts anew (the model's choice, log 34), the ports of a sequencer
without the faults that they met; an engine operation goes on where the command says that its fault is mended, and else as failed,
with the fault in the engine's registers (that the command says which is the model's choice, log 9); the unit of a block that is out goes on when the block, which enters again, is back.

13 R282-R284, 15 R333: the service of a first use of accumulators, where no other context's are held: the block's image
gives the bank, ACCOWN names the block's context, and the sequencer goes on; an image that does not pass ends the block,
with a park record of KIND 3 and its facet. Memory changes in the leaves of the image's pages only. A block that is out, or going out, pre-empted before the service, is resumed and enters
again, without a bank (the model's reading, log 126). -/
def Obligations.ParksAndResume : Prop :=
  ((∀ (p : Nat) (s u : State) (r : ParkRec), s.parks.find? (fun r => r.part == p) = some r → (s.part p).pqcap ≠ 0 →
     (s.part p).pqtail - (s.part p).pqhead < (s.part p).pqcap →
     s.writeSpace 0 ((s.part p).pqbase + 64 * ((s.part p).pqtail % (s.part p).pqcap)) (parkBytes r) =
       some u → ∃ t : State, Sys2Proof.Machine.exec (.parkRecord p) s = .next t ∧ t.mem = u.mem ∧
       t.parks = s.parks.erase r ∧ (t.part p).pqtail = (s.part p).pqtail + 1 ∧ (t.part p).irqs = (s.part p).irqs + 1) ∧
   (∀ (fn ctx b : Nat) (u : ParkUnit) (s : State) (x : Block), s.parkedBlock fn ctx u = some b →
     s.blocks.find b = some x →
     (x.image = true → ∃ (t : State) (y : Block), Sys2Proof.Machine.exec (.resume fn ctx u) s = .next t ∧
       t = { s with blocks := t.blocks } ∧ t.blocks.find b = some y ∧ y.resumed = x.resumed ++ [u] ∧
       y.reentry = (x.reentry || decide (x.phase = .swapped))) ∧
     (∀ g k, x.image = false → u = .split g k → (s.spl b g k).wait = .join → ∃ t : State,
       Sys2Proof.Machine.exec (.resume fn ctx u) s = .next t ∧ t.mem = s.mem ∧
       t.spl b g k = { s.spl b g k with parked := false, joinSince := none }) ∧
     (∀ g k, x.image = false → u = .split g k → (s.spl b g k).wait ≠ .join → ∃ t : State,
       Sys2Proof.Machine.exec (.resume fn ctx u) s = .next t ∧ t.mem = s.mem ∧ (t.spl b g k).parked = false ∧
       (t.spl b g k).wait = .ready ∧ (∀ y, (s.spl b g k).trap = some y → (t.spl b g k).pc = y.rpc) ∧
       (t.blk b).reentry = (x.reentry || x.preempt.isSome)) ∧
     (x.image = false → u = .seqr → ∃ t : State, Sys2Proof.Machine.exec (.resume fn ctx u) s = .next t ∧ t.mem = s.mem ∧
       (t.seq b).parked = false ∧ (t.seq b).pc = (s.seq b).pc ∧ ∀ e ∈ (t.seq b).ports, e.2.fault = none) ∧
     (∀ c, x.image = false → u = .comet c → s.comets.has c = true → (s.ctx c).blk = b → (s.ctx c).parked = true → ∃ t : State,
       Sys2Proof.Machine.exec (.resume fn ctx u) s = .next t ∧ t.mem = s.mem ∧ (t.ctx c).parked = false ∧
       (t.ctx c).wait = .ready ∧ ∀ y, (s.ctx c).trap = some y → (t.ctx c).pc = y.rpc) ∧
     (∀ id mended o, x.image = false → u = .engine id mended → s.engines.find id = some o →
       (mended = true → ∃ t : State, Sys2Proof.Machine.exec (.resume fn ctx u) s = .next t ∧ t.mem = s.mem ∧
         t.engines.find id = some { o with parked := false, fault := none }) ∧
       (∀ c a, mended = false → o.fault = some (c, a) → a.toNat ≠ regAddr o.regs (doneReg o.engine) →
         engLocal (regAddr o.regs (doneReg o.engine)) = false → x.groups.has o.grp = true → c < 256 → ∃ t : State,
         Sys2Proof.Machine.exec (.resume fn ctx u) s = .next t ∧ t.mem = s.mem ∧
         t.engines.find id = some { o with parked := false, fault := none, failed := true } ∧
         t.engCause b o.grp o.engine = c ∧ t.engErr b o.grp o.engine = a)))) ∧
  ((∀ (b f : Nat) (s : State) (x : Block), s.blocks.find b = some x → f = x.facet → s.firstUse b = true → s.bootst = 0x80 →
     (s.facet f).accV = false → s.loadOk (s.imageFn b) b (s.tagOf x.part) = true → ∃ t : State,
     Sys2Proof.Machine.exec (.accFirstUseService b) s = .next t ∧ t.mem = (s.touchImage b).mem ∧
     (t.facet f).accown = BitVec.ofNat 32 (2 ^ 31 + x.ctx % 2 ^ 16) ∧ (t.seq b).parked = false ∧
     (t.seq b).pc = (s.seq b).pc) ∧
   (∀ (b : Nat) (s : State) (x : Block), s.blocks.find b = some x → s.firstUse b = true → s.bootst = 0x80 →
     (s.facet x.facet).accV = false → s.loadOk (s.imageFn b) b (s.tagOf x.part) = false → ∃ (t : State) (r : ParkRec),
     Sys2Proof.Machine.exec (.accFirstUseService b) s = .next t ∧ t.gone b ∧ t.parks = s.parks ++ [r] ∧ r.kind = 3 ∧
     r.ctx = x.ctx ∧ r.part = x.part ∧ r.facet = x.facet) ∧
   (∀ (b : Nat) (s : State) (x : Block), s.blocks.find b = some x → s.firstUseOut b = true → s.bootst = 0x80 → ∃ t : State,
     Sys2Proof.Machine.exec (.accFirstUseService b) s = .next t ∧ t.mem = s.mem ∧ (t.blk b).reentry = true ∧
     (x.image = true → t = { s with blocks := t.blocks } ∧ ParkUnit.seqr ∈ (t.blk b).resumed) ∧
     (x.image = false → (t.seq b).parked = false ∧ (t.seq b).pc = (s.seq b).pc)))

/-- 15 R318, R319, R331, 20 R410, R411: a block whose groups, sequencer and engine operations have ended, with every access
done, ends: nothing of it is left, its slots are freed, and ENDED and HEAD of its queue follow; END ends the block of a
parked unit, one that is going out once it is out (R334), STOP and a function-level reset all blocks of a virtual function, STOP with
the report of its frames (those of its accesses and commands, log 156) and the status (as 4 bytes, the model's choice, log 92), the
reset with its translations and queues dropped. A block whose queue lies in the final block of a migration waits (18 R381). -/
def Obligations.BlockEnds : Prop :=
  (∀ (b : Nat) (s : State) (x : Block), s.blocks.find b = some x → s.pageHeld x.queue = true →
    Sys2Proof.Machine.exec (.blockEnd b) s = .next s) ∧
  (∀ (b : Nat) (s : State) (x : Block), s.blocks.find b = some x → s.blockOver b = true → s.pageHeld x.queue = false →
    ∃ t : State, Sys2Proof.Machine.exec (.blockEnd b) s = .next t ∧ t.gone b ∧ (∀ k, k ≠ b → t.blocks.find k = s.blocks.find k) ∧
    (∀ q, s.queues.find x.queue = some q → q.key = x.queue → q.freed = [] → x.records.headD q.head = q.head →
      x.records ≠ [] → s.mem.wf = true → q.key % 64 = 0 →
      t.mem64 (q.key + 56) = (s.drainStash b).mem64 (q.key + 56) + 1 ∧
      t.mem64 (q.key + 32) = BitVec.ofNat 64 (q.head + x.records.length))) ∧
  (∀ (fn ctx b : Nat) (u : ParkUnit) (s : State), s.parkedBlock fn ctx u = some b →
    ((s.blk b).preempt = none → ∃ t : State, Sys2Proof.Machine.exec (.endBlock fn ctx u) s = .next t ∧ t.gone b ∧
      ∀ k, k ≠ b → t.blocks.has k = s.blocks.has k) ∧
    ((s.blk b).preempt.isSome = true → ∃ t : State, Sys2Proof.Machine.exec (.endBlock fn ctx u) s = .next t ∧
      t = { s with blocks := t.blocks } ∧ (t.blk b).endAsked = true)) ∧
  (∀ (fn vf report status : Nat) (s t u z : State), (fn = 0 ∨ fn = vf) →
    t = (s.vfBlocks vf).foldl (fun (t : State) b => (t.performWrites b).finishBlock b true true) s →
    t.writeSpace fn report (reportBytes (sortN (t.vf vf).frames)) = some u →
    (u.modVf vf fun v => { v with frames := [] }).writeSpace fn status (leBytes 4 1) = some z →
    Sys2Proof.Machine.exec (.stop fn vf report status) s = .next z ∧
    (∀ b x, z.blocks.find b = some x → x.vf ≠ vf) ∧ (fn = 0 → (z.vf vf).frames = [])) ∧
  (∀ (fn vf : Nat) (s : State), (fn = 0 ∨ fn = vf) → ∃ t : State,
    Sys2Proof.Machine.exec (.functionLevelReset fn vf) s = .next t ∧
    (∀ b x, t.blocks.find b = some x → x.vf ≠ vf) ∧ (∀ k q, t.queues.find k = some q → q.vf ≠ vf) ∧
    (∀ k es, t.tlbs.find k = some es → ∀ e ∈ es, e.vf ≠ vf) ∧ ∀ k w, t.walks.find k = some w → w.vf ≠ vf)

/-- 10 R221, 20 R404-R407: a mode or an owner is written where the core is empty and the value is legal, else the write sets
CMERR; writing 1 clears CMERR; a floor is written where the floors of the die stay at most 64. Nothing else changes, and a
virtual function writes none of them.

10 R221, 17 R368, 20 R406, R407, R415, 21 R423: a register without a behaviour of its own holds what is written, in the bits
that it has; PF0 writes each, a virtual function only DROPB of its partition; a write at an offset of an interface is a write of the
register there; one with a behaviour of its own is written as its command does, and a read-only one keeps its value. A value written
to MBUD keeps the present window's remainder (log 86); ENBUD, SLICE, PQBASE, the roots, the base of the bias table, ROUTE and the
partition of a virtual function keep the width that is written (log 67); COMET above 64 is kept as 64 (log 176): these are the
model's choices, as are the offsets that no rule states (log 175), of which nothing is said here. -/
def Obligations.HubRegisters : Prop :=
  ((∀ (core : Nat) (v : Word) (s : State), core < 384 → ∃ t : State,
     Sys2Proof.Machine.exec (.cmodeWrite 0 core v) s = .next t ∧
     t = { s with cmode := t.cmode, cmerr := t.cmerr } ∧
     (v.toNat % 4 ≠ 3 → s.coreBusy core = false → t.cmode.getD core 0 = v.toNat % 4 ∧ t.cmerr = s.cmerr ∧
       ∀ k, k ≠ core → t.cmode.getD k 0 = s.cmode.getD k 0) ∧
     (v.toNat % 4 = 3 ∨ s.coreBusy core = true → t.cmode = s.cmode ∧ t.cmerr.getD core false = true ∧
       ∀ k, k ≠ core → t.cmerr.getD k false = s.cmerr.getD k false)) ∧
   (∀ (f : Nat) (v : Word) (s : State), f < 1536 → ∃ t : State,
     Sys2Proof.Machine.exec (.fownWrite 0 f v) s = .next t ∧ t = { s with facets := t.facets, cmerr := t.cmerr } ∧
     (∀ k, k ≠ f → t.facets.find k = s.facets.find k) ∧
     ((v.toNat % 32 < 20 ∨ v.toNat % 32 = 31) → s.coreBusy (f / 4) = false →
       t.facet f = { s.facet f with fown := v.toNat % 32 } ∧ t.cmerr = s.cmerr) ∧
     ((20 ≤ v.toNat % 32 ∧ v.toNat % 32 ≤ 30) ∨ s.coreBusy (f / 4) = true →
       t.facets = s.facets ∧ t.cmerr.getD (f / 4) false = true)) ∧
   (∀ (core : Nat) (v : Word) (s : State), core < 384 → ∃ t : State,
     Sys2Proof.Machine.exec (.cmerrWrite 0 core v) s = .next t ∧ t = { s with cmerr := t.cmerr } ∧
     t.cmerr.getD core false = (s.cmerr.getD core false && !v.getLsbD 0) ∧
     ∀ k, k ≠ core → t.cmerr.getD k false = s.cmerr.getD k false) ∧
   (∀ (p d : Nat) (v : Word) (s : State), p < 20 → d < 8 → ∃ t : State,
     Sys2Proof.Machine.exec (.floorWrite 0 p d v) s = .next t ∧ t = { s with parts := t.parts } ∧
     (((List.range 20).map fun q => if q = p then 0 else (s.part q).floor.getD d 0).sum + v.toNat % 64 ≤ 64 →
       (t.part p).floor.getD d 0 = v.toNat % 64) ∧
     (64 < ((List.range 20).map fun q => if q = p then 0 else (s.part q).floor.getD d 0).sum + v.toNat % 64 → t = s) ∧
     ∀ q e, (q ≠ p ∨ e ≠ d) → (t.part q).floor.getD e 0 = (s.part q).floor.getD e 0) ∧
   (∀ (p : Nat) (v : Dword) (s : State), p < 20 → ∃ t : State,
     Sys2Proof.Machine.exec (.pqheadWrite 0 p v) s = .next t ∧ t = { s with parts := t.parts } ∧
     t.part p = { s.part p with pqhead := v.toNat }) ∧
   ∀ (fn k d : Nat) (v : Word) (w : Dword) (s : State), fn ≠ 0 →
     Sys2Proof.Machine.exec (.cmodeWrite fn k v) s = .next s ∧ Sys2Proof.Machine.exec (.fownWrite fn k v) s = .next s ∧
     Sys2Proof.Machine.exec (.cmerrWrite fn k v) s = .next s ∧ Sys2Proof.Machine.exec (.floorWrite fn k d v) s = .next s ∧
     Sys2Proof.Machine.exec (.pqheadWrite fn k w) s = .next s) ∧
  ((∀ (fn : Nat) (r : HubReg) (v : Dword) (s : State), fn ≠ 0 →
     (∀ m p, resolveReg r = some (.dropb m p) → p ≠ (s.vf fn).part) →
     Sys2Proof.Machine.exec (.registerWrite fn r v) s = .next s) ∧
   (∀ (fn : Nat) (i : HubIface) (ofs : Nat) (r : HubReg) (v : Dword) (s : State), regAt i ofs = some r →
     Sys2Proof.Machine.exec (.registerWrite fn (.at i ofs) v) s = Sys2Proof.Machine.exec (.registerWrite fn r v) s) ∧
   (∀ (c i p d : Nat), c < 384 → i < 4 → p < 20 → d < 8 →
     regAt .facet (0x80 * c) = some (.cmode c) ∧ regAt .facet (0x80 * c + 4) = some (.cmerr c) ∧
     regAt .facet (0x80 * c + 0x10 + 0x18 * i) = some (.fctl (4 * c + i)) ∧
     regAt .facet (0x80 * c + 0x14 + 0x18 * i) = some (.fown (4 * c + i)) ∧
     regAt .facet (0x80 * c + 0x18 + 0x18 * i) = some (.tvec (4 * c + i)) ∧
     regAt .partition (0x1000 + 0x100 * p) = some (.ptag p) ∧
     regAt .partition (0x1000 + 0x100 * p + 8 + 4 * d) = some (.floor p d) ∧
     (∀ e ∈ [(0x28, HubReg.comet p), (0x30, .enbud p), (0x38, .enused p), (0x40, .pqbase p), (0x48, .pqcap p), (0x4C, .plim p),
         (0x50, .slice p), (0x58, .pqhead p), (0x60, .pqtail p)], regAt .partition (0x1000 + 0x100 * p + e.1) = some e.2) ∧
     regAt .boot 0 = some .bootst ∧ regAt .boot 8 = some .hostcap) ∧
   (∀ (t e q : Nat), t < 256 → e < 64 → q < 64 → regAt .fabric 0 = some .fabid ∧
     regAt .fabric (0x100 + 8 * t) = some (.route t) ∧ regAt .fabric (0x900 + 16 * e) = some (.expBase e) ∧
     regAt .fabric (0x908 + 16 * e) = some (.expLen e) ∧ regAt .fabric (0x90C + 16 * e) = some (.expTag e) ∧
     regAt .fabric (0xD00 + 8 * q) = some (.pctl q) ∧ regAt .fabric (0xD04 + 8 * q) = some (.pstat q)) ∧
   (∀ (fn k d : Nat) (v : Dword) (s : State),
     Sys2Proof.Machine.exec (.registerWrite fn (.cmode k) v) s = Sys2Proof.Machine.exec (.cmodeWrite fn k (v.setWidth 32)) s ∧
     Sys2Proof.Machine.exec (.registerWrite fn (.cmerr k) v) s = Sys2Proof.Machine.exec (.cmerrWrite fn k (v.setWidth 32)) s ∧
     Sys2Proof.Machine.exec (.registerWrite fn (.fown k) v) s = Sys2Proof.Machine.exec (.fownWrite fn k (v.setWidth 32)) s ∧
     Sys2Proof.Machine.exec (.registerWrite fn (.floor k d) v) s = Sys2Proof.Machine.exec (.floorWrite fn k d (v.setWidth 32)) s ∧
     Sys2Proof.Machine.exec (.registerWrite fn (.pqhead k) v) s = Sys2Proof.Machine.exec (.pqheadWrite fn k v) s ∧
     Sys2Proof.Machine.exec (.registerWrite fn (.mctl k) v) s = Sys2Proof.Machine.exec (.mctlWrite fn k (v.setWidth 32)) s ∧
     Sys2Proof.Machine.exec (.registerWrite fn (.pctl k) v) s = Sys2Proof.Machine.exec (.pctlWrite fn k (v.setWidth 32)) s ∧
     ∀ r ∈ [HubReg.enused k, .pqtail k, .monuse k d, .bootst, .integrity k, .wptr k, .pstat k],
       Sys2Proof.Machine.exec (.registerWrite fn r v) s = .next s) ∧
   (∀ (f : Nat) (v : Dword) (s : State), f < 1536 → ∃ t u : State,
     Sys2Proof.Machine.exec (.registerWrite 0 (.fctl f) v) s = .next t ∧ t = { s with facets := t.facets } ∧
     t.facet f = { s.facet f with fctl := v.setWidth 32 &&& 0x00FF0003 } ∧
     Sys2Proof.Machine.exec (.registerWrite 0 (.tvec f) v) s = .next u ∧ u = { s with facets := u.facets } ∧
     u.facet f = { s.facet f with tvec := v &&& 0x000FFFFFFFFFFFFC } ∧
     ∀ k, k ≠ f → t.facets.find k = s.facets.find k ∧ u.facets.find k = s.facets.find k) ∧
   (∀ (p : Nat) (v : Dword) (s : State) (r : HubReg) (x : Part), p < 20 →
     (r, x) ∈ [(HubReg.ptag p, { s.part p with ptag := v.setWidth 32 }), (.comet p, { s.part p with comet := min 64 (v.toNat % 128) }),
       (.enbud p, { s.part p with enbud := v.toNat }), (.pqbase p, { s.part p with pqbase := v.toNat }),
       (.pqcap p, { s.part p with pqcap := v.toNat % 2 ^ 32 }), (.plim p, { s.part p with plim := v.toNat % 2 ^ 32 }),
       (.slice p, { s.part p with slice := v.toNat })] → ∃ t : State,
     Sys2Proof.Machine.exec (.registerWrite 0 r v) s = .next t ∧ t = { s with parts := t.parts } ∧ t.part p = x ∧
     ∀ k, k ≠ p → t.parts.find k = s.parts.find k) ∧
   (∀ (i : Nat) (v : Dword) (s : State) (r : HubReg) (x : Vf), 1 ≤ i → i ≤ 512 →
     (r, x) ∈ [(HubReg.vfPart i, { s.vf i with part := v.toNat % 32 }), (.s1root i, { s.vf i with s1root := v.toNat }),
       (.s2root i, { s.vf i with s2root := v.toNat }), (.s2en i, { s.vf i with s2en := v.getLsbD 0 })] → ∃ t : State,
     Sys2Proof.Machine.exec (.registerWrite 0 r v) s = .next t ∧ t = { s with vfs := t.vfs } ∧ t.vf i = x ∧
     ∀ k, k ≠ i → t.vfs.find k = s.vfs.find k) ∧
   (∀ (fn m p : Nat) (v : Dword) (s : State), m < 5 → p < 20 → (fn = 0 ∨ p = (s.vf fn).part) → ∃ t : State,
     Sys2Proof.Machine.exec (.registerWrite fn (.dropb m p) v) s = .next t ∧ MeridOnly m s t ∧
     (t.merid m).dropb.getD p 0 = v.toNat % 2 ^ 32) ∧
   (∀ (m p : Nat) (v : Dword) (s : State), m < 5 → (p < 20 ∨ p = 31) → ∃ t : State,
     Sys2Proof.Machine.exec (.registerWrite 0 (.mbud m p) v) s = .next t ∧ MeridOnly m s t ∧
     (t.merid m).budget p = v.toNat % 65536 ∧ (t.merid m).remainder p = (s.merid m).remainder p) ∧
   (∀ (d m p : Nat) (v : Dword) (s : State), d < 8 → p < 20 → m < 5 → ∃ t u w : State,
     Sys2Proof.Machine.exec (.registerWrite 0 (.monq d p) v) s = .next t ∧ t = { s with monq := t.monq } ∧
     t.monq.getD (32 * d + p) 0 = v.toNat % 8192 ∧
     Sys2Proof.Machine.exec (.registerWrite 0 (.tapdrop m) v) s = .next u ∧ MeridOnly m s u ∧
     u.merid m = { s.merid m with tapdrop := v.toNat % 2 ^ 32 } ∧
     Sys2Proof.Machine.exec (.registerWrite 0 (.qdrop m) v) s = .next w ∧ MeridOnly m s w ∧
     w.merid m = { s.merid m with qdrop := v.toNat % 2 ^ 32 }) ∧
   (∀ (d i n e : Nat) (v : Dword) (s : State), d < 8 → 1 ≤ i → i ≤ 512 → n < 256 → e < 64 →
     (∃ t : State, Sys2Proof.Machine.exec (.registerWrite 0 (.wayMask d i) v) s = .next t ∧
       t = { s with wayMask := t.wayMask } ∧ t.wayMask.getD (1024 * d + i) 0 = v.setWidth 32 &&& 0xFFFF) ∧
     Sys2Proof.Machine.exec (.registerWrite 0 .hostcap v) s = .next { s with hostcap := v.getLsbD 0 } ∧
     Sys2Proof.Machine.exec (.registerWrite 0 .biasBase v) s = .next { s with biasBase := v.toNat } ∧
     Sys2Proof.Machine.exec (.registerWrite 0 .fabid v) s = .next { s with fabid := v.toNat % 256 } ∧
     (∃ t : State, Sys2Proof.Machine.exec (.registerWrite 0 (.route n) v) s = .next t ∧ t = { s with routes := t.routes } ∧
       t.routes.getD n 0 = v.toNat) ∧
     ∃ t u w : State, Sys2Proof.Machine.exec (.registerWrite 0 (.expBase e) v) s = .next t ∧
       t = { s with exports := t.exports } ∧
       t.exports.getD e default = { s.exports.getD e default with base := v.toNat / 4096 * 4096 % 2 ^ 48 } ∧
       Sys2Proof.Machine.exec (.registerWrite 0 (.expLen e) v) s = .next u ∧
       u.exports.getD e default = { s.exports.getD e default with len := v.toNat % 2 ^ 32 } ∧
       Sys2Proof.Machine.exec (.registerWrite 0 (.expTag e) v) s = .next w ∧
       w.exports.getD e default = { s.exports.getD e default with tag := v.setWidth 32 }))

/-- 16 R339, R378, 17 R357, 20 R409, R417, 17 R358, R363: at the clock of its window the energy of a partition starts again,
with a THROTTLE event where admission was refused; the charges of a channel start again; every counter of a core is sampled,
with a COUNT event for each that its die selects; every budget is whole again. The die and source of a THROTTLE event are free
values (log 87); PART 31 and CTX 0 of a COUNT event are the model's choice (log 60).

20 R415, R418, 17 R369, R370: a cold reset leaves the part as after reset, with the self-test's result in BOOTST; a warm
reset of a part that runs keeps, of a Meridian, the afterglow record, WPTR, FROZEN and the attachments that no DETACH waits for, and clears the rest;
the ROM takes one image through PF0 and answers with the first check that fails, or 0x80. The model's choices: memory, BOOTST and the
attachments outlive a warm reset (log 32), and memory reads 0 after a cold reset (log 4). -/
def Obligations.WindowsAndResets : Prop :=
  ((∀ (p : Nat) (s : State), s.now % 700000 = 0 → p < 20 → ∃ (t : State) (d src : Nat),
     Sys2Proof.Machine.exec (.energyWindowEnd p) s = .next t ∧
     t = { s with parts := t.parts, taps := t.taps, freeCtr := t.freeCtr } ∧
     t.part p = { s.part p with enused := 0, throttled := 0 } ∧
     t.taps = s.taps ++ (if (s.part p).throttled = 0 then [] else
       [(d, { time := s.now, type := 0x07, part := p, ctx := 0, src := src, sub := 0, ea := (s.part p).throttled,
              eb := (s.part p).enused })])) ∧
   (∀ (d ch : Nat) (s : State), s.now % 1024 = 0 → ch < 1024 → ∃ t : State,
     Sys2Proof.Machine.exec (.arbiterWindow d ch) s = .next t ∧ t = { s with charges := t.charges } ∧
     ∀ k, t.charges.getD k 0 = if k / 32 = 1024 * d + ch then 0 else s.charges.getD k 0) ∧
   (∀ (core : Nat) (s : State), s.now % 4096 = 0 → ∃ t : State,
     Sys2Proof.Machine.exec (.counterSample core) s = .next t ∧ t = { s with taps := t.taps, sampled := t.sampled } ∧
     (∀ i < 8, t.sampled.getD (8 * core + i) 0 = s.counters.getD (8 * core + i) 0) ∧
     (∀ k, k / 8 ≠ core → t.sampled.getD k 0 = s.sampled.getD k 0) ∧
     t.taps = s.taps ++ ((List.range 8).filter fun i =>
         (s.merid (core / 96)).slots.any fun a => a.2.csel / 2 ^ i % 2 == 1).map fun i =>
       (core / 96, { time := s.now, type := 0x01, part := 31, ctx := 0, src := core, sub := i,
                     ea := s.counters.getD (8 * core + i) 0 - s.sampled.getD (8 * core + i) 0, eb := 4096 })) ∧
   (∀ (m : Nat) (s : State), s.now % 700 = 0 → ∃ t : State, Sys2Proof.Machine.exec (.budgetWindow m) s = .next t ∧
     MeridOnly m s t ∧ (t.merid m).run = (s.merid m).run.map (fun r => { r with past := true }) ∧
     ∀ p, (t.merid m).remainder p = (s.merid m).budget p) ∧
   ∀ (p core m d ch : Nat) (s : State), s.now % 4 ≠ 0 →
     Sys2Proof.Machine.exec (.energyWindowEnd p) s = .next s ∧ Sys2Proof.Machine.exec (.counterSample core) s = .next s ∧
     Sys2Proof.Machine.exec (.budgetWindow m) s = .next s ∧ Sys2Proof.Machine.exec (.arbiterWindow d ch) s = .next s) ∧
  ((∀ s : State, ∃ t : State, Sys2Proof.Machine.exec .coldReset s = .next t ∧ (t.bootst = 0 ∨ t.bootst = 5) ∧
     t = { State.reset with agenda := s.agenda, freeCtr := t.freeCtr, nextId := s.nextId, bootst := t.bootst }) ∧
   (∀ s : State, (s.bootst = 0 ∨ 5 < s.bootst) → ∃ t : State, Sys2Proof.Machine.exec .warmReset s = .next t ∧
     t.mem = s.mem ∧ t.poison = s.poison ∧ t.bootst = s.bootst ∧ t.blocks = [] ∧ t.queues = [] ∧ t.facets = [] ∧ t.parts = [] ∧ t.vfs = [] ∧
     t.tlbs = [] ∧ t.hostcap = false ∧
     ∀ m, (t.merid m).glow = (s.merid m).glow ∧ (t.merid m).wptr = (s.merid m).wptr ∧
       (t.merid m).frozen = (s.merid m).frozen ∧ (t.merid m).slots = ((s.merid m).slots.keep fun _ a => !a.leaving) ∧ (t.merid m).en = true ∧
       (t.merid m).disp = [] ∧ (t.merid m).run = none ∧ (t.merid m).tapdrop = 0 ∧ (t.merid m).qdrop = 0) ∧
   (∀ (img : List Byte) (s : State), s.bootst = 0 → ∃ t : State,
     Sys2Proof.Machine.exec (.firmwareImage 0 img) s = .next t ∧ t = { s with bootst := t.bootst } ∧
     (leVal (img.take 4) ≠ 0x57524946 → t.bootst = 1) ∧
     (leVal (img.take 4) = 0x57524946 → t.bootst =
       if Config.headerOk img = false then 1 else if Config.ecdsaOk img = false then 2
       else if Config.lmsOk img = false then 3 else if Config.versionOk img = false then 4 else 0x80)) ∧
   ∀ (fn : Nat) (img : List Byte) (s : State), (fn ≠ 0 ∨ s.bootst ≠ 0) →
     Sys2Proof.Machine.exec (.firmwareImage fn img) s = .next s)

/-- 17 R359, R362, R363: a Meridian that is enabled and idle takes the next event of its dispatch queue and starts the first
program whose attachment names the event's type and partition and whose length the window's remainder covers; the length is
reserved; a program whose length it does not cover is refused, and DROPB of its partition counts it.

17 R357, R359-R361: ATTACH answers the code of the first check that fails and leaves the slot alone, or 0, and the slot
holds the program with its objects zeroed and its triggers armed; DETACH frees the slot, once its event is over; a link's
errors since the last are one LINKERR event. That DETACH waits also while the slot's program is still to run on the event is the
model's reading (log 63).

17 R367-R370, 20 R403, R419: READ answers an object's counts and changes none; READCLR answers the same and leaves them 0; a
function that may read neither gets a 0 (log 88). A trigger is armed again; the hypervisor alone reads the afterglow record and
writes EN and FROZEN. Each register of the hub and of a Meridian is read at its offset, and 0 by a function that may not. The model's
choices: the order of READ's words (bins, UNDER, OVER: log 62), READCLR leaves the armed flag (log 61), the slots 32 to 39 of READ
name the register interfaces and the attestation (logs 143, 175), and a poisoned record is answered with status 0x3C (log 172). -/
def Obligations.Meridians : Prop :=
  (∀ (m : Nat) (s : State) (x : Merid) (e : Event) (es : List Event) (ks : List Nat), x = s.merid m → x.disp = e :: es →
     ks = (x.slots.filter fun a => a.2.types / 2 ^ e.type % 2 == 1 && (a.2.part == 31 || a.2.part == e.part) &&
       !a.2.leaving).map Prod.fst →
     ((x.en = false ∨ x.run ≠ none) → Sys2Proof.Machine.exec (.eventDispatch m) s = .next s) ∧
     (x.en = true → x.run = none → ∃ t : State, Sys2Proof.Machine.exec (.eventDispatch m) s = .next t ∧ MeridOnly m s t ∧
       (t.merid m).disp = es ∧
       (ks = [] → t.merid m = { x with disp := es }) ∧
       (∀ k rest a, ks = k :: rest → x.slots.find k = some a → a.words.length ≤ x.remainder a.part →
         (t.merid m).run = some { ev := e, slot := k, pc := 0, f := [], done := 0, todo := rest } ∧
         (t.merid m).remainder a.part = x.remainder a.part - a.words.length ∧ (t.merid m).dropb = x.dropb) ∧
       (∀ k a, ks = [k] → x.slots.find k = some a → a.leaving = false → x.remainder a.part < a.words.length →
         (t.merid m).run = none ∧ (t.merid m).left = x.left ∧
         (t.merid m).dropb.getD a.part 0 = sum32 (x.dropb.getD a.part 0) 1))) ∧
  ((∀ (fn m slot desc n : Nat) (s : State) (d p : List Byte), m ≤ 4 → s.readSpace fn desc 192 = some d → n = num d 6 1 →
     s.readSpace fn (desc + 192) (2 * if 64 < n then 0 else n) = some p → ∃ (t : State) (c : Nat),
     Sys2Proof.Machine.exec (.attach fn m slot desc) s = .next t ∧ s.answered t fn c [] ∧
     t = { s.markSpace fn desc (192 + 2 * if 64 < n then 0 else n) with merids := t.merids, answers := t.answers } ∧
     (c ≠ 0 → t.merids = s.merids) ∧
     c = (if 32 ≤ slot ∨ (s.merid m).slots.has slot = true ∨ ((List.range 57).any fun i => num d (7 + i) 1 != 0) = true ∨
           ((List.range 16).any fun i => objReserved (num d (64 + 8 * i) 8)) = true then 1
       else if (if fn = 0 then 20 ≤ num d 4 1 ∧ num d 4 1 ≠ 31 else num d 4 1 ≠ (s.vf fn).part) ∨ num d 0 4 % 2 = 1 ∨
           1024 ≤ num d 0 4 then 2
       else if n = 0 ∨ 64 < n ∨ ((List.range n).any fun i => (filterAt (num p (2 * i) 2)).isNone) = true then 3
       else if ((List.range n).any fun i => match (filterAt (num p (2 * i) 2)).bind filterOfs with
           | some o => o == 0 || decide (n ≤ i + o)
           | none => false) = true ∨ filterAt (num p (2 * (n - 1)) 2) ≠ some .fltEnd then 4
       else if ((List.range n).any fun i => match (filterAt (num p (2 * i) 2)).bind objectOf with
           | some (o, k) => num d (64 + 8 * o) 8 % 16 != k
           | none => false) = true ∨ ((List.range 16).any fun i => decide (4 < num d (64 + 8 * i) 8 % 16)) = true then 5
       else if 262144 < (s.merid m).storeUsed + ((List.range 16).map fun i => objBytes (num d (64 + 8 * i) 8)).sum then 6
       else 0) ∧
     (c = 0 → slot < 32 ∧ (s.merid m).slots.has slot = false ∧ num d 0 4 % 2 = 0 ∧ num d 0 4 < 1024 ∧
       (if fn = 0 then num d 4 1 < 20 ∨ num d 4 1 = 31 else num d 4 1 = (s.vf fn).part) ∧ 1 ≤ n ∧ n ≤ 64 ∧
       filterAt (num p (2 * (n - 1)) 2) = some .fltEnd ∧ (∀ i < n, (filterAt (num p (2 * i) 2)).isSome = true) ∧
       (∀ k, k ≠ m → t.merids.find k = s.merids.find k) ∧ (t.merid m).storeUsed ≤ 262144 ∧
       ∃ a : Attach, (t.merid m).slots.find slot = some a ∧ a.types = num d 0 4 ∧ a.part = num d 4 1 ∧ a.csel = num d 5 1 ∧
         a.leaving = false ∧ a.words = (List.range n).map (fun i => num p (2 * i) 2) ∧
         a.objs = (List.range 16).map (fun i => num d (64 + 8 * i) 8) ∧
         ∀ o j, (a.store.getD o []).getD j 0 ≤ 1 ∧ (objKind (a.objs.getD o 0) ≠ 4 → (a.store.getD o []).getD j 0 = 0))) ∧
   (∀ (fn m slot : Nat) (s : State) (a : Attach), (s.merid m).slots.find slot = some a →
     ((fn ≠ 0 ∧ a.part ≠ (s.vf fn).part) → Sys2Proof.Machine.exec (.detach fn m slot) s = .next s) ∧
     ((fn = 0 ∨ a.part = (s.vf fn).part) → ∃ t : State, Sys2Proof.Machine.exec (.detach fn m slot) s = .next t ∧
       MeridOnly m s t ∧ (t.merid m).run = (s.merid m).run ∧
       ((∀ r, (s.merid m).run = some r → r.slot ≠ slot ∧ slot ∉ r.todo) → (t.merid m).slots.find slot = none) ∧
       (∀ r, (s.merid m).run = some r → (r.slot = slot ∨ slot ∈ r.todo) →
         (t.merid m).slots.find slot = some { a with leaving := true }))) ∧
   ∀ (m link kind k : Nat) (s : State) (x : LinkErr), m ≤ 4 → kind ≤ 3 → k = 1024 * m + 4 * link + kind →
     x = s.linkErrs.getD k default → x.count ≠ 0 →
     ((∃ n, x.last = some n ∧ s.now < n + 700) → Sys2Proof.Machine.exec (.linkerrEmit m link kind) s = .next s) ∧
     ((∀ n, x.last = some n → n + 700 ≤ s.now) → ∃ t : State,
       Sys2Proof.Machine.exec (.linkerrEmit m link kind) s = .next t ∧
       t = { s with linkErrs := t.linkErrs, taps := t.taps } ∧
       t.linkErrs.getD k default = { count := 0, last := some s.now } ∧
       t.taps = s.taps ++ [(m, { time := s.now, type := 0x08, part := 31, ctx := 0, src := 0x4000 + link, sub := kind,
                                 ea := x.count, eb := 0 })])) ∧
  ((∀ (fn m slot obj e : Nat) (s : State) (a : Attach), (s.merid m).slots.find slot = some a → slot < 32 →
     (fn = 0 ∨ a.part = (s.vf fn).part) → obj < 16 → e = a.objs.getD obj 0 → ∃ (t u : State) (vs : List Nat),
     Sys2Proof.Machine.exec (.read fn m slot obj) s = .next t ∧ s.answered t fn 0 vs ∧
     t = { s with answers := t.answers, freeCtr := t.freeCtr } ∧
     Sys2Proof.Machine.exec (.readclr fn m slot obj) s = .next u ∧ s.answered u fn 0 vs ∧
     MeridOnly m { s with answers := u.answers, freeCtr := u.freeCtr } u ∧
     (e % 16 = 1 → vs = (List.range (e / 2 ^ 5 % 64 + 1)).map (fun i => ((s.merid m).stored slot obj).getD i 0) ++
       [((s.merid m).stored slot obj).getD underAt 0, ((s.merid m).stored slot obj).getD (underAt + 1) 0]) ∧
     (e % 16 = 2 → vs = (List.range 1024).map fun i => ((s.merid m).stored slot obj).getD i 0) ∧
     (e % 16 = 3 → vs = [((s.merid m).stored slot obj).getD 0 0]) ∧
     (e % 16 = 4 → vs = [((s.merid m).stored slot obj).getD 1 0] ∧ ((u.merid m).stored slot obj).getD 1 0 = 0 ∧
       (u.merid m).armedTrig slot obj = (s.merid m).armedTrig slot obj) ∧
     (e % 16 ≠ 4 → ∀ i, ((u.merid m).stored slot obj).getD i 0 = 0) ∧
     (∀ o, o ≠ obj → (u.merid m).stored slot o = (s.merid m).stored slot o)) ∧
   (∀ (fn m slot obj : Nat) (s : State), fn ≠ 0 → slot < 32 →
     (∀ a, (s.merid m).slots.find slot = some a → a.part ≠ (s.vf fn).part) → ∃ t : State,
     Sys2Proof.Machine.exec (.read fn m slot obj) s = .next t ∧ Sys2Proof.Machine.exec (.readclr fn m slot obj) s = .next t ∧
     s.answered t fn 0 [0] ∧ t = { s with answers := t.answers }) ∧
   (∀ (fn m slot obj : Nat) (s : State) (a : Attach), (s.merid m).slots.find slot = some a →
     (fn = 0 ∨ a.part = (s.vf fn).part) → a.objs.getD obj 0 % 16 = 4 → ∃ t : State,
     Sys2Proof.Machine.exec (.triggerRearm fn m slot obj) s = .next t ∧ MeridOnly m s t ∧
     (t.merid m).armedTrig slot obj = true ∧ ∀ o, o ≠ obj → (t.merid m).stored slot o = (s.merid m).stored slot o) ∧
   (∀ (fn m ix : Nat) (s : State), ∃ t : State, Sys2Proof.Machine.exec (.afterglowRead fn m ix) s = .next t ∧
     t = { s with answers := t.answers } ∧ (fn ≠ 0 → s.answered t fn 0 [0]) ∧
     (fn = 0 → ix % 4096 ∈ (s.merid m).badGlow → s.answered t 0 0x3C []) ∧
     ∀ e, fn = 0 → ix % 4096 ∉ (s.merid m).badGlow → e = (s.merid m).glow.getD (ix % 4096) default →
       s.answered t 0 0 [e.time, e.type, e.part, e.ctx, e.src, e.sub, e.ea, e.eb]) ∧
   (∀ (m : Nat) (v : Word) (s : State), m ≤ 4 → ∃ t : State, Sys2Proof.Machine.exec (.mctlWrite 0 m v) s = .next t ∧
     MeridOnly m { s with freeCtr := t.freeCtr } t ∧
     t.merid m = { s.merid m with en := v.getLsbD 0, frozen := v.getLsbD 1, grace := (t.merid m).grace } ∧
     ((v.getLsbD 1 = false ∨ (s.merid m).frozen = true) → (t.merid m).grace = (s.merid m).grace)) ∧
   (∀ (fn m p ofs v : Nat) (s : State), m ≤ 4 → (p < 20 ∨ p = 31) →
     (fn = 0 ∧ (ofs, v) ∈ [(0x000, b2n (s.merid m).en + 2 * b2n (s.merid m).frozen), (0x008, (s.merid m).wptr),
         (0x010, (s.merid m).tapdrop), (0x018, (s.merid m).qdrop)] ∨
       (fn = 0 ∨ p = (s.vf fn).part) ∧ (ofs, v) ∈ [(0x100 + 8 * p, (s.merid m).budget p),
         (0x200 + 8 * p, (s.merid m).dropb.getD p 0)]) → ∃ t : State,
     Sys2Proof.Machine.exec (.read fn m 32 ofs) s = .next t ∧ s.answered t fn 0 [v] ∧ t = { s with answers := t.answers }) ∧
   (∀ (fn m slot ofs : Nat) (i : HubIface) (r : HubReg) (s : State), regAt i ofs = some r →
     (slot, i) ∈ [(33, HubIface.facet), (34, .partition), (35, .translation), (36, .memory), (37, .boot), (38, .fabric)] → ∃ t : State,
     Sys2Proof.Machine.exec (.read fn m slot ofs) s = .next t ∧ t = { s with answers := t.answers } ∧
     s.answered t fn 0 [if fn = 0 then s.readReg r else 0]) ∧
   (∀ (c f p d : Nat) (s : State), s.readReg (.cmode c) = s.cmode.getD c 0 ∧ s.readReg (.cmerr c) = b2n (s.cmerr.getD c false) ∧
     s.readReg (.fown f) = (s.facet f).fown ∧ s.readReg (.tvec f) = (s.facet f).tvec.toNat ∧
     (s.cmode.getD (f / 4) 0 < 3 → (s.facet f).fctl &&& 0x00FF0003 = (s.facet f).fctl →
       s.readReg (.fctl f) = (s.facet f).fctl.toNat + 4 * (2 - s.cmode.getD (f / 4) 0)) ∧
     s.readReg (.floor p d) = (s.part p).floor.getD d 0 ∧ s.readReg (.enused p) = (s.part p).enused ∧
     s.readReg (.pqtail p) = (s.part p).pqtail ∧ s.readReg .bootst = s.bootst ∧ s.readReg .hostcap = b2n s.hostcap ∧
     s.readReg .fabid = s.fabid ∧ s.readReg (.integrity d) = s.integrity.getD d 0) ∧
   ∀ (fn m : Nat) (v : Word) (s : State), fn ≠ 0 → Sys2Proof.Machine.exec (.mctlWrite fn m v) s = .next s)

/-- 20 R419, 21 R420-R424: PCTL starts the training of a port that is disabled or down, and its clearing takes the port down; the end
of training brings the port up with its flits to replay, or leaves it down; a replay goes on from its flit, the eighth in a row of
one flit trains the port again; the receiver takes a good flit with the number expected and acknowledges it, and discards a bad one,
counts its error and asks for a replay; a flit for another package goes on by this package's route, and the request of one that has
made four hops is aborted. While some channel holds a flit and has a credit of its own, a port that is up sends a flit of such a
channel, its 256 bytes with the next number and an acknowledgement: no channel is held up by another's lack of credits. The model's
choices: an acknowledgement drops every flit up to its number and gives their channels' credits back (log 72), their number
(log 140), a port that would cut the access of a unit that cannot trap yet waits (log 131).

15 R315, 20 R419, 21 R425: a request from another package whose range an export entry holds for its tag, and a host
thread's access to device memory, are performed at the home of their address and answered: a load with the bytes there, a
store writes its value and nothing else, an atomic answers the old value and writes the new; a request that no entry
admits is aborted. An error on a link of a core die, or on the host link, is counted. The model's choices: an access that reads
poisoned words is answered with status 2 (log 174), the integrity counter of a link is numbered 8 m + link (log 75), and which kind
of error a retry on the host link is, is free (log 173). -/
def Obligations.FabricAndOutside : Prop :=
  ((∀ (port : Nat) (v : Word) (s : State), port < 64 →
     (v.getLsbD 0 = true → ((s.fport port).en = false ∨ (s.fport port).down = true) → ∃ t : State,
       Sys2Proof.Machine.exec (.pctlWrite 0 port v) s = .next t ∧ t = { s with fports := t.fports } ∧
       (t.fport port).en = true ∧ (t.fport port).train = true ∧ (t.fport port).up = false ∧ (t.fport port).down = false ∧
       ∀ q, q ≠ port → t.fports.find q = s.fports.find q) ∧
     (v.getLsbD 0 = true → (s.fport port).en = true → (s.fport port).down = false →
       Sys2Proof.Machine.exec (.pctlWrite 0 port v) s = .next s) ∧
     (v.getLsbD 0 = false → s.portHeld port = true → Sys2Proof.Machine.exec (.pctlWrite 0 port v) s = .next s) ∧
     (v.getLsbD 0 = false → s.portHeld port = false → ∃ t : State, Sys2Proof.Machine.exec (.pctlWrite 0 port v) s = .next t ∧
       (t.fport port).en = false ∧ (t.fport port).up = false ∧ (t.fport port).train = false ∧
       (t.fport port).replay = [] ∧ (t.fport port).queued = [])) ∧
   (∀ (port : Nat) (s : State), port < 64 → (s.fport port).train = true → ∃ t : State,
     Sys2Proof.Machine.exec (.portRetrainEnd port true) s = .next t ∧
     t = { s with fports := t.fports, freeCtr := t.freeCtr } ∧ (t.fport port).up = true ∧ (t.fport port).train = false ∧
     (t.fport port).replay = (s.fport port).replay ∧ (t.fport port).resend = ((s.fport port).replay.map (·.seq)).head? ∧
     (s.portHeld port = true → Sys2Proof.Machine.exec (.portRetrainEnd port false) s = .next s) ∧
     (s.portHeld port = false → ∃ u : State,
       Sys2Proof.Machine.exec (.portRetrainEnd port false) s = .next u ∧ (u.fport port).up = false ∧
       (u.fport port).down = true ∧ (u.fport port).replay = [])) ∧
   (∀ (port seq : Nat) (s : State) (x : FabPort), port < 64 → x = s.fport port → x.up = true →
     (∃ t : State, Sys2Proof.Machine.exec (.flitAcknowledge port seq) s = .next t ∧ t = { s with fports := t.fports } ∧
       (t.fport port).replay = x.replay.filter (fun e => seq < e.seq) ∧
       (∀ c, (t.fport port).used.getD c 0 = x.used.getD c 0 - (x.replay.filter fun e => e.seq ≤ seq && e.chan == c).length) ∧ (t.fport port).up = true ∧
       (t.fport port).sent = x.sent ∧ (t.fport port).replays = 0) ∧
     ((∃ f ∈ x.replay, f.seq = seq) → ∃ t : State, Sys2Proof.Machine.exec (.replayRequest port seq) s = .next t ∧
       t = { s with fports := t.fports } ∧ (t.fport port).resend = some seq ∧ (t.fport port).replay = x.replay ∧
       (x.resend ≠ some seq → (t.fport port).up = true ∧ (t.fport port).replays = 1) ∧
       (x.resend = some seq → x.replays < 7 → (t.fport port).up = true ∧ (t.fport port).replays = x.replays + 1) ∧
       (x.resend = some seq → 7 ≤ x.replays → (t.fport port).up = false ∧ (t.fport port).train = true))) ∧
   (∀ (port seq : Nat) (flit : List Byte) (fec : Fec) (s : State) (x : FabPort), port < 64 → x = s.fport port → x.up = true →
     (Config.flitSeq (flit.take 16) ≠ seq → Sys2Proof.Machine.exec (.flitReceive port seq flit fec) s = .next s) ∧
     (Config.flitSeq (flit.take 16) = seq → ∃ t : State, Sys2Proof.Machine.exec (.flitReceive port seq flit fec) s = .next t ∧
       t = { s with fports := t.fports, linkErrs := t.linkErrs } ∧
       (t.fport port).replay = x.replay ∧ (t.fport port).sent = x.sent ∧ (t.fport port).up = true ∧
       (∀ f ∈ x.queued, f ∈ (t.fport port).queued) ∧
       (fec ≠ .failed → flit.length = 256 → leVal (flit.drop 248) = (Config.crc64 (flit.take 248)).toNat → seq = x.expect →
         (t.fport port).expect = x.expect + 1 ∧ (t.fport port).discard = false ∧
         (Config.flitChan (flit.take 16) % 44 < 42 → ∃ f ∈ (t.fport port).queued, f.chan = 42) ∧
         (Config.flitTarget (flit.take 16) % 256 = s.fabid → ∀ q, q ≠ port → t.fport q = s.fport q) ∧
         (∀ (c tg src q : Nat) (ps : List Nat), c = Config.flitChan (flit.take 16) % 44 → c < 42 →
           tg = Config.flitTarget (flit.take 16) % 256 → tg ≠ s.fabid → src = Config.flitSource (flit.take 16) % 256 →
           (((20 ≤ c ∧ c ≠ 40) ∨ Config.flitHops (flit.take 16) < 4 ∧ ∃ p ∈ routePorts (s.routes.getD tg 0), (s.fport p).up = true) →
             ps = routePorts (s.routes.getD tg 0) →
             ps[Config.flitHome ((flit.drop 16).take 232) % ps.length]? = some q → q ≠ port →
             (t.fport q).queued = (s.fport q).queued ++ [waitingFlit c tg src (.transit ((flit.drop 16).take 232))]) ∧
           ((c < 20 ∨ c = 40) → 4 ≤ Config.flitHops (flit.take 16) → ps = routePorts (s.routes.getD src 0) →
             ps[Config.flitHome ((flit.drop 16).take 232) % ps.length]? = some q → q ≠ port →
             (t.fport q).queued = (s.fport q).queued ++ [waitingFlit (responseChan c) src s.fabid .response])) ∧
         (fec = .clean → t.linkErrs = s.linkErrs) ∧
         (fec = .corrected → (t.linkErrs.getD (4096 + 4 * port + 2) default).count =
           (s.linkErrs.getD (4096 + 4 * port + 2) default).count + 1)) ∧
       ((fec = .failed ∨ flit.length ≠ 256 ∨ leVal (flit.drop 248) ≠ (Config.crc64 (flit.take 248)).toNat) →
         (t.fport port).discard = true ∧ (t.fport port).expect = x.expect ∧
         (∃ f ∈ (t.fport port).queued, f.chan = 43) ∧ (∀ q, q ≠ port → t.fport q = s.fport q) ∧
         (t.linkErrs.getD (4096 + 4 * port + if fec = .failed then 3 else 0) default).count =
           (s.linkErrs.getD (4096 + 4 * port + if fec = .failed then 3 else 0) default).count + 1 ∧
         (t.linkErrs.getD (4096 + 4 * port + 1) default).count =
           (s.linkErrs.getD (4096 + 4 * port + 1) default).count + 1) ∧
       (fec ≠ .failed → flit.length = 256 → leVal (flit.drop 248) = (Config.crc64 (flit.take 248)).toNat → seq ≠ x.expect →
         t.fports = s.fports ∧ (x.discard = true → fec = .clean →
           (t.linkErrs.getD (4096 + 4 * port) default).count = (s.linkErrs.getD (4096 + 4 * port) default).count + 1)))) ∧
   (∀ (x : FabPort) (me : Nat), x.train = true → x.serve me = { x with wire := (x.serve me).wire } ∧ (x.serve me).wire.length = 256) ∧
   ∀ (x : FabPort) (me c : Nat), x.train = false → x.up = true → x.replay.length < 512 → c < 44 → (∃ f ∈ x.queued, f.chan = c) →
     x.used.getD c 0 < channelCredits c → ∃ f ∈ x.queued, x.used.getD f.chan 0 < channelCredits f.chan ∧
       (x.serve me).queued = x.queued.erase f ∧ (x.serve me).replay = x.replay ++ [{ f with seq := x.sent, ack := x.expect }] ∧
       (x.serve me).wire = ({ f with seq := x.sent, ack := x.expect } : FabFlit).bytes ∧ (x.serve me).wire.length = 256 ∧
       (x.serve me).sent = x.sent + 1 ∧ (x.serve me).used.getD f.chan 0 = x.used.getD f.chan 0 + 1 ∧ (x.serve me).served = f.chan) ∧
  ((∀ (src : Nat) (tag : Word) (op : HostOp) (addr n k : Nat) (e : Export) (ks : List Nat) (s : State), s.exports.find k = some e →
     e.base ≤ addr → addr + n ≤ e.base + 4096 * e.len → e.tag = tag → hostFits op addr n = true → inWindow addr n = true →
     ks = (List.range n).map (fun i => canon (addr + i)) → s.mem.wf = true → s.armed.length < 64 →
     (s.outsideWaits ((s.partOfTag tag.toNat).getD 31) ks = true →
       Sys2Proof.Machine.exec (.remoteRequest src tag op addr n) s = .next s) ∧
     (s.outsideWaits ((s.partOfTag tag.toNat).getD 31) ks = false → ∃ (t : State) (v : Nat),
       Sys2Proof.Machine.exec (.remoteRequest src tag op addr n) s = .next t ∧
       (s.outsidePoison op ks = false → s.answered t (1024 + src) 0 [v] ∧ outsideEffect s t op ks v) ∧
       (s.outsidePoison op ks = true → s.answered t (1024 + src) 2 [] ∧ t.mem = s.mem))) ∧
   (∀ (src : Nat) (tag : Word) (op : HostOp) (addr n : Nat) (s : State), hostFits op addr n = true →
     s.exported tag addr n = false → ∃ t : State,
     Sys2Proof.Machine.exec (.remoteRequest src tag op addr n) s = .next t ∧ s.answered t (1024 + src) 1 [] ∧
     t = { s with answers := t.answers, fports := t.fports, freeCtr := t.freeCtr }) ∧
   (∀ (op : HostOp) (addr n : Nat) (ks : List Nat) (s : State), hostFits op addr n = true → inWindow addr n = true →
     ks = (List.range n).map (fun i => canon (addr + i)) → s.mem.wf = true → s.armed.length < 64 →
     (s.outsideWaits 31 ks = true → Sys2Proof.Machine.exec (.hostMemoryRequest op addr n) s = .next s) ∧
     (s.outsideWaits 31 ks = false → ∃ (t : State) (v : Nat),
       Sys2Proof.Machine.exec (.hostMemoryRequest op addr n) s = .next t ∧ t.fports = s.fports ∧ t.freeCtr = s.freeCtr ∧
       (s.outsidePoison op ks = false → s.answered t 0 0 [v] ∧ outsideEffect s t op ks v) ∧
       (s.outsidePoison op ks = true → s.answered t 0 2 [] ∧ t.mem = s.mem))) ∧
   ∀ (m link : Nat) (retrain : Bool) (s : State), (m ≤ 3 ∧ link ≤ 4 ∨ m = 4 ∧ link = 64) → ∃ (t : State) (k : Nat),
     Sys2Proof.Machine.exec (.dieLinkCrcRetry m link retrain) s = .next t ∧
     t = { s with linkErrs := t.linkErrs, integrity := t.integrity, freeCtr := t.freeCtr } ∧
     (retrain = true → k = 3) ∧ (retrain = false → k < 3 ∧ (link ≠ 64 → k = 0)) ∧
     (t.linkErrs.getD (1024 * m + 4 * link + k) default).count = (s.linkErrs.getD (1024 * m + 4 * link + k) default).count + 1 ∧
     t.integrity.getD (8 * m + link) 0 = s.integrity.getD (8 * m + link) 0 + if retrain then 0 else 1)

/-- 16 R345, R347-R349: a queued walk takes a free walker, oldest first; at its end the translation that the tables give is in
the L2 TLB of its die, or each request that joined it has the fault, and A is set in the leaves that it used; an invalidated walk
starts again; the channels of a walk's reads may serve another partition first; a walk that reads a poisoned entry faults as poisoned
data. An invalidation waits for the accesses under way, and then no TLB holds a page of the range. That the end of a walk fills the L2
TLB and no other is the model's choice (log 18).

18 R380-R383: a migration whose checks pass starts at once, or waits while the page moves already; one that fails them
ends with status 3. At the end of a pass the block begins where at most 64 lines were written in it, else those lines make the
next pass, and after the eighth the page stays, with status 2. Once the page is idle the leaf takes NEWPTE, no TLB and no
cache keeps anything of the page, an armed monitor watches the word at its new home, and the status is 1. That a LEAF that is no
multiple of 8 ends with status 3 (log 108) and that the acts of the end are one step (log 109) are the model's choices. -/
def Obligations.WalksAndMigration : Prop :=
  ((∀ (d id : Nat) (s : State) (w : Walk), s.walks.find id = some w → w.die = d → w.started = false →
     (((s.walks.filter fun e => e.2.die == d && e.2.started).length < 192 ∧
       ∀ e ∈ s.walks, e.1 < id → e.2.die = d → e.2.started = true) → ∃ t : State,
       Sys2Proof.Machine.exec (.pageWalkStart d id) s = .next t ∧ t = { s with walks := t.walks } ∧
       t.walks.find id = some { w with started := true } ∧ ∀ k, k ≠ id → t.walks.find k = s.walks.find k) ∧
     ((192 ≤ (s.walks.filter fun e => e.2.die == d && e.2.started).length ∨
       ∃ e ∈ s.walks, e.1 < id ∧ e.2.die = d ∧ e.2.started = false) →
       Sys2Proof.Machine.exec (.pageWalkStart d id) s = .next s)) ∧
   (∀ (d id : Nat) (s : State) (w : Walk), s.walks.find id = some w → w.die = d → w.started = true →
     (w.stale = true → ∃ t : State, Sys2Proof.Machine.exec (.pageWalkEnd d id) s = .next t ∧ t = { s with walks := t.walks } ∧
       t.walks.find id = some { w with started := false, stale := false }) ∧
     (w.stale = false → (∃ k ∈ walkReads s.mem s.fabid (s.vf w.vf) (w.vpn * 4096), s.arbHeld k (s.vf w.vf).part = true) →
       ∃ t : State, Sys2Proof.Machine.exec (.pageWalkEnd d id) s = .next t ∧ t = { s with asks := t.asks }) ∧
     (w.stale = false → (∀ k ∈ walkReads s.mem s.fabid (s.vf w.vf) (w.vpn * 4096), s.arbHeld k (s.vf w.vf).part = false) →
       (∃ k ∈ walkReads s.mem s.fabid (s.vf w.vf) (w.vpn * 4096), s.poisoned k 8 = true) → ∃ t : State,
       Sys2Proof.Machine.exec (.pageWalkEnd d id) s = .next t ∧ t.walks.find id = none ∧ t.mem = s.mem ∧ t.tlbs = s.tlbs ∧
       t.walkFaults = s.walkFaults ++ w.joined.map fun a =>
         { asker := a, vf := w.vf, vpn := w.vpn, stage2 := false, level := 0, poison := true }) ∧
     (∀ e used, w.stale = false → walkBoth s.mem s.fabid w.vf (s.vf w.vf) (w.vpn * 4096) = .ok (e, used) →
       (∀ k ∈ walkReads s.mem s.fabid (s.vf w.vf) (w.vpn * 4096),
         s.arbHeld k (s.vf w.vf).part = false ∧ s.poisoned k 8 = false) →
       s.mem.wf = true → ∃ t : State, Sys2Proof.Machine.exec (.pageWalkEnd d id) s = .next t ∧
       t.walks.find id = none ∧ t.walkFaults = s.walkFaults ∧ (∀ a ∈ used, t.mem.read a 8 / 2 ^ 5 % 2 = 1) ∧
       (∀ k, (∀ a ∈ used, k < a ∨ a + 8 ≤ k) → t.mem.get k = s.mem.get k) ∧ t.blocks = s.blocks ∧ t.ops = s.ops ∧ (t.tlbs.getD (2000 + d) []).head? = some e ∧
       (t.tlbs.getD (2000 + d) []).length ≤ 8192 ∧ ∀ k, k ≠ 2000 + d → t.tlbs.find k = s.tlbs.find k) ∧
     (∀ e, w.stale = false → walkBoth s.mem s.fabid w.vf (s.vf w.vf) (w.vpn * 4096) = .error e → s.mem.wf = true →
       (∀ k ∈ walkReads s.mem s.fabid (s.vf w.vf) (w.vpn * 4096),
         s.arbHeld k (s.vf w.vf).part = false ∧ s.poisoned k 8 = false) →
       ∃ t : State, Sys2Proof.Machine.exec (.pageWalkEnd d id) s = .next t ∧
       t.walks.find id = none ∧ t.tlbs = s.tlbs ∧ (∀ a ∈ e.used, t.mem.read a 8 / 2 ^ 5 % 2 = 1) ∧
       (∀ k, (∀ a ∈ e.used, k < a ∨ a + 8 ≤ k) → t.mem.get k = s.mem.get k) ∧ t.blocks = s.blocks ∧ t.ops = s.ops ∧
       t.walkFaults = s.walkFaults ++ w.joined.map fun a =>
         { asker := a, vf := w.vf, vpn := w.vpn, stage2 := e.stage2, level := e.level })) ∧
   (∀ (vf va len : Nat) (s : State),
     (s.usesRange vf va len = true → Sys2Proof.Machine.exec (.translationInvalidation 0 vf va len) s = .next s) ∧
     (s.usesRange vf va len = false → ∃ t : State,
       Sys2Proof.Machine.exec (.translationInvalidation 0 vf va len) s = .next t ∧
       t = { s with tlbs := t.tlbs, walks := t.walks, copies := t.copies } ∧
       (∀ k es, t.tlbs.find k = some es → ∀ e ∈ es,
         e.vf = vf → len ≠ 0 ∧ (e.va + e.size ≤ va ∨ va + len ≤ e.va)) ∧
       (∀ k es e, s.tlbs.find k = some es → e ∈ es → e.vf ≠ vf → ∃ fs, t.tlbs.find k = some fs ∧ e ∈ fs) ∧
       ∀ k w, s.walks.find k = some w → w.vf = vf → len = 0 → t.walks.find k = some { w with stale := true })) ∧
   ∀ (fn vf va len : Nat) (s : State), fn ≠ 0 →
     Sys2Proof.Machine.exec (.translationInvalidation fn vf va len) s = .next s) ∧
  ((∀ (desc : Nat) (s : State) (d : List Byte) (m : Migr) (i : Instr), s.readSpace 0 desc 64 = some d →
     (i = .migrate 0 desc ∧ num d 19 1 % 2 = 0 ∧ m = migrOf d false ∨
       i = .migrateBias 0 desc ∧ num d 19 1 % 2 = 1 ∧ m = migrOf d true) →
     ((∃ e ∈ s.migrs, e.2.leaf = m.leaf) → ∃ t : State, Sys2Proof.Machine.exec i s = .next t ∧ t.mem = s.mem ∧
       t.migrs.find s.nextId = some m ∧ m.pass = 0) ∧
     ((∀ e ∈ s.migrs, e.2.leaf ≠ m.leaf) →
       (s.migrOk m (s.mem.read m.leaf 8) = true → ∃ (t : State) (x : Migr), Sys2Proof.Machine.exec i s = .next t ∧
         t.mem = s.mem ∧ t.migrs.find s.nextId = some x ∧ x.pass = 1 ∧ x.oldPte = s.mem.read m.leaf 8 ∧ x.newPte = m.newPte ∧
         x.todo = x.lines ∧ x.dirty = [] ∧ x.final = none) ∧
       (s.migrOk m (s.mem.read m.leaf 8) = false → s.mem.wf = true → m.stat % 8 = 0 → rangeOf m.stat ≠ none → ∃ t : State,
         Sys2Proof.Machine.exec i s = .next t ∧ t.migrs.find s.nextId = none ∧ t.mem.read (canon m.stat) 8 = 3))) ∧
   (∀ (id : Nat) (s : State) (m : Migr), s.migrs.find id = some m → m.pass ≠ 0 → m.final = none → m.todo = [] →
     (m.dirty.length ≤ 64 → ∃ t : State, Sys2Proof.Machine.exec (.migrationPassEnd id) s = .next t ∧
       t = { s with migrs := t.migrs } ∧ t.migrs.find id = some { m with final := some s.now, bound := s.nextId }) ∧
     (64 < m.dirty.length → m.pass < 8 → ∃ t : State, Sys2Proof.Machine.exec (.migrationPassEnd id) s = .next t ∧
       t = { s with migrs := t.migrs } ∧ t.migrs.find id = some { m with
         pass := m.pass + 1, todo := m.lines.filter m.dirty.contains, dirty := [], start := s.now }) ∧
     (64 < m.dirty.length → 8 ≤ m.pass → s.mem.wf = true → m.stat % 8 = 0 → rangeOf m.stat ≠ none → ∃ t : State,
       Sys2Proof.Machine.exec (.migrationPassEnd id) s = .next t ∧ t.migrs.find id = none ∧
       t.mem.read (canon m.stat) 8 = 2)) ∧
   (∀ (id : Nat) (s : State) (m : Migr), s.migrs.find id = some m → m.final ≠ none →
     (s.pageBusy m = true → Sys2Proof.Machine.exec (.migrationComplete id) s = .next s) ∧
     (s.pageBusy m = false → ∃ t : State, Sys2Proof.Machine.exec (.migrationComplete id) s = .next t ∧
       t.migrs.find id = none ∧
       (∀ k es, t.tlbs.find k = some es → ∀ e ∈ es, e.vf = m.vf →
         e.va + e.size ≤ m.va ∨ m.va + pageBytes m.size ≤ e.va) ∧
       (m.stat % 8 = 0 → m.covers (canon m.stat) = false →
         ∀ c ws w v, t.copies.find c = some ws → ws.find w = some v → m.covers (4 * w) = false ∧
           ((∀ l ∈ m.lines, canon m.stat / 128 * 128 ≠ m.moved l) → ∀ l ∈ m.lines, w / 32 * 128 ≠ m.moved l)) ∧
       (s.mem.wf = true → m.stat % 8 = 0 → rangeOf m.stat ≠ none → t.mem.read (canon m.stat) 8 = 1) ∧
       (m.bias = false → ∀ k x, s.monitors.find k = some x → x.poll = false → x.fired = false → ∃ y, t.monitors.find k = some y ∧
         y.key = m.moved x.key) ∧
       (s.mem.wf = true → s.armed.length < 60 → m.size = 0 → m.newPte < 2 ^ 64 →
         (∀ a, m.leaf ≤ a → a < m.leaf + 8 → ∀ i < 8, canon (m.stat + i) ≠ a) →
         t.mem.read m.leaf 8 = m.newPte))))
end

