-- ==== Sys2Proof/Laws/State.lean ====
section
/-!
SUPPORT. Laws/State.lean: for each update of the state and each field that it leaves alone, the field reads as before; what
the changed field reads.
-/

set_option linter.constructorNameAsVariable false

namespace Sys2Proof.Machine

variable (s : State)

/-! ## modBlk -/

@[simp] theorem State.modBlk_agenda (b : Nat) (f : Block → Block) : (s.modBlk b f).agenda = s.agenda := rfl
@[simp] theorem State.modBlk_focus (b : Nat) (f : Block → Block) : (s.modBlk b f).focus = s.focus := rfl
@[simp] theorem State.modBlk_freeCtr (b : Nat) (f : Block → Block) : (s.modBlk b f).freeCtr = s.freeCtr := rfl
@[simp] theorem State.modBlk_nextId (b : Nat) (f : Block → Block) : (s.modBlk b f).nextId = s.nextId := rfl
@[simp] theorem State.modBlk_now (b : Nat) (f : Block → Block) : (s.modBlk b f).now = s.now := rfl
@[simp] theorem State.modBlk_mem (b : Nat) (f : Block → Block) : (s.modBlk b f).mem = s.mem := rfl
@[simp] theorem State.modBlk_poison (b : Nat) (f : Block → Block) : (s.modBlk b f).poison = s.poison := rfl
@[simp] theorem State.modBlk_owners (b : Nat) (f : Block → Block) : (s.modBlk b f).owners = s.owners := rfl
@[simp] theorem State.modBlk_copies (b : Nat) (f : Block → Block) : (s.modBlk b f).copies = s.copies := rfl
@[simp] theorem State.modBlk_ops (b : Nat) (f : Block → Block) : (s.modBlk b f).ops = s.ops := rfl
@[simp] theorem State.modBlk_stores (b : Nat) (f : Block → Block) : (s.modBlk b f).stores = s.stores := rfl
@[simp] theorem State.modBlk_outs (b : Nat) (f : Block → Block) : (s.modBlk b f).outs = s.outs := rfl
@[simp] theorem State.modBlk_tlbs (b : Nat) (f : Block → Block) : (s.modBlk b f).tlbs = s.tlbs := rfl
@[simp] theorem State.modBlk_walks (b : Nat) (f : Block → Block) : (s.modBlk b f).walks = s.walks := rfl
@[simp] theorem State.modBlk_walkFaults (b : Nat) (f : Block → Block) : (s.modBlk b f).walkFaults = s.walkFaults := rfl
@[simp] theorem State.modBlk_monitors (b : Nat) (f : Block → Block) : (s.modBlk b f).monitors = s.monitors := rfl
@[simp] theorem State.modBlk_armed (b : Nat) (f : Block → Block) : (s.modBlk b f).armed = s.armed := rfl
@[simp] theorem State.modBlk_vfs (b : Nat) (f : Block → Block) : (s.modBlk b f).vfs = s.vfs := rfl
@[simp] theorem State.modBlk_monq (b : Nat) (f : Block → Block) : (s.modBlk b f).monq = s.monq := rfl
@[simp] theorem State.modBlk_slices (b : Nat) (f : Block → Block) : (s.modBlk b f).slices = s.slices := rfl
@[simp] theorem State.modBlk_wayMask (b : Nat) (f : Block → Block) : (s.modBlk b f).wayMask = s.wayMask := rfl
@[simp] theorem State.modBlk_biasBase (b : Nat) (f : Block → Block) : (s.modBlk b f).biasBase = s.biasBase := rfl
@[simp] theorem State.modBlk_devBias (b : Nat) (f : Block → Block) : (s.modBlk b f).devBias = s.devBias := rfl
@[simp] theorem State.modBlk_hostcap (b : Nat) (f : Block → Block) : (s.modBlk b f).hostcap = s.hostcap := rfl
@[simp] theorem State.modBlk_comets (b : Nat) (f : Block → Block) : (s.modBlk b f).comets = s.comets := rfl
@[simp] theorem State.modBlk_gangs (b : Nat) (f : Block → Block) : (s.modBlk b f).gangs = s.gangs := rfl
@[simp] theorem State.modBlk_dbars (b : Nat) (f : Block → Block) : (s.modBlk b f).dbars = s.dbars := rfl
@[simp] theorem State.modBlk_parts (b : Nat) (f : Block → Block) : (s.modBlk b f).parts = s.parts := rfl
@[simp] theorem State.modBlk_facets (b : Nat) (f : Block → Block) : (s.modBlk b f).facets = s.facets := rfl
@[simp] theorem State.modBlk_engines (b : Nat) (f : Block → Block) : (s.modBlk b f).engines = s.engines := rfl
@[simp] theorem State.modBlk_taps (b : Nat) (f : Block → Block) : (s.modBlk b f).taps = s.taps := rfl
@[simp] theorem State.modBlk_parks (b : Nat) (f : Block → Block) : (s.modBlk b f).parks = s.parks := rfl
@[simp] theorem State.modBlk_counters (b : Nat) (f : Block → Block) : (s.modBlk b f).counters = s.counters := rfl
@[simp] theorem State.modBlk_sampled (b : Nat) (f : Block → Block) : (s.modBlk b f).sampled = s.sampled := rfl
@[simp] theorem State.modBlk_merids (b : Nat) (f : Block → Block) : (s.modBlk b f).merids = s.merids := rfl
@[simp] theorem State.modBlk_telIrqs (b : Nat) (f : Block → Block) : (s.modBlk b f).telIrqs = s.telIrqs := rfl
@[simp] theorem State.modBlk_linkErrs (b : Nat) (f : Block → Block) : (s.modBlk b f).linkErrs = s.linkErrs := rfl
@[simp] theorem State.modBlk_nodes (b : Nat) (f : Block → Block) : (s.modBlk b f).nodes = s.nodes := rfl
@[simp] theorem State.modBlk_queues (b : Nat) (f : Block → Block) : (s.modBlk b f).queues = s.queues := rfl
@[simp] theorem State.modBlk_reserve (b : Nat) (f : Block → Block) : (s.modBlk b f).reserve = s.reserve := rfl
@[simp] theorem State.modBlk_migrs (b : Nat) (f : Block → Block) : (s.modBlk b f).migrs = s.migrs := rfl
@[simp] theorem State.modBlk_charges (b : Nat) (f : Block → Block) : (s.modBlk b f).charges = s.charges := rfl
@[simp] theorem State.modBlk_served (b : Nat) (f : Block → Block) : (s.modBlk b f).served = s.served := rfl
@[simp] theorem State.modBlk_asks (b : Nat) (f : Block → Block) : (s.modBlk b f).asks = s.asks := rfl
@[simp] theorem State.modBlk_cmode (b : Nat) (f : Block → Block) : (s.modBlk b f).cmode = s.cmode := rfl
@[simp] theorem State.modBlk_cmerr (b : Nat) (f : Block → Block) : (s.modBlk b f).cmerr = s.cmerr := rfl
@[simp] theorem State.modBlk_fabid (b : Nat) (f : Block → Block) : (s.modBlk b f).fabid = s.fabid := rfl
@[simp] theorem State.modBlk_routes (b : Nat) (f : Block → Block) : (s.modBlk b f).routes = s.routes := rfl
@[simp] theorem State.modBlk_exports (b : Nat) (f : Block → Block) : (s.modBlk b f).exports = s.exports := rfl
@[simp] theorem State.modBlk_fports (b : Nat) (f : Block → Block) : (s.modBlk b f).fports = s.fports := rfl
@[simp] theorem State.modBlk_fabSent (b : Nat) (f : Block → Block) : (s.modBlk b f).fabSent = s.fabSent := rfl
@[simp] theorem State.modBlk_bootst (b : Nat) (f : Block → Block) : (s.modBlk b f).bootst = s.bootst := rfl
@[simp] theorem State.modBlk_integrity (b : Nat) (f : Block → Block) : (s.modBlk b f).integrity = s.integrity := rfl
@[simp] theorem State.modBlk_answers (b : Nat) (f : Block → Block) : (s.modBlk b f).answers = s.answers := rfl

/-! ## modGrp -/

@[simp] theorem State.modGrp_agenda (b g : Nat) (f : Group → Group) : (s.modGrp b g f).agenda = s.agenda := rfl
@[simp] theorem State.modGrp_focus (b g : Nat) (f : Group → Group) : (s.modGrp b g f).focus = s.focus := rfl
@[simp] theorem State.modGrp_freeCtr (b g : Nat) (f : Group → Group) : (s.modGrp b g f).freeCtr = s.freeCtr := rfl
@[simp] theorem State.modGrp_nextId (b g : Nat) (f : Group → Group) : (s.modGrp b g f).nextId = s.nextId := rfl
@[simp] theorem State.modGrp_now (b g : Nat) (f : Group → Group) : (s.modGrp b g f).now = s.now := rfl
@[simp] theorem State.modGrp_mem (b g : Nat) (f : Group → Group) : (s.modGrp b g f).mem = s.mem := rfl
@[simp] theorem State.modGrp_poison (b g : Nat) (f : Group → Group) : (s.modGrp b g f).poison = s.poison := rfl
@[simp] theorem State.modGrp_owners (b g : Nat) (f : Group → Group) : (s.modGrp b g f).owners = s.owners := rfl
@[simp] theorem State.modGrp_copies (b g : Nat) (f : Group → Group) : (s.modGrp b g f).copies = s.copies := rfl
@[simp] theorem State.modGrp_ops (b g : Nat) (f : Group → Group) : (s.modGrp b g f).ops = s.ops := rfl
@[simp] theorem State.modGrp_stores (b g : Nat) (f : Group → Group) : (s.modGrp b g f).stores = s.stores := rfl
@[simp] theorem State.modGrp_outs (b g : Nat) (f : Group → Group) : (s.modGrp b g f).outs = s.outs := rfl
@[simp] theorem State.modGrp_tlbs (b g : Nat) (f : Group → Group) : (s.modGrp b g f).tlbs = s.tlbs := rfl
@[simp] theorem State.modGrp_walks (b g : Nat) (f : Group → Group) : (s.modGrp b g f).walks = s.walks := rfl
@[simp] theorem State.modGrp_walkFaults (b g : Nat) (f : Group → Group) : (s.modGrp b g f).walkFaults = s.walkFaults := rfl
@[simp] theorem State.modGrp_monitors (b g : Nat) (f : Group → Group) : (s.modGrp b g f).monitors = s.monitors := rfl
@[simp] theorem State.modGrp_armed (b g : Nat) (f : Group → Group) : (s.modGrp b g f).armed = s.armed := rfl
@[simp] theorem State.modGrp_vfs (b g : Nat) (f : Group → Group) : (s.modGrp b g f).vfs = s.vfs := rfl
@[simp] theorem State.modGrp_monq (b g : Nat) (f : Group → Group) : (s.modGrp b g f).monq = s.monq := rfl
@[simp] theorem State.modGrp_slices (b g : Nat) (f : Group → Group) : (s.modGrp b g f).slices = s.slices := rfl
@[simp] theorem State.modGrp_wayMask (b g : Nat) (f : Group → Group) : (s.modGrp b g f).wayMask = s.wayMask := rfl
@[simp] theorem State.modGrp_biasBase (b g : Nat) (f : Group → Group) : (s.modGrp b g f).biasBase = s.biasBase := rfl
@[simp] theorem State.modGrp_devBias (b g : Nat) (f : Group → Group) : (s.modGrp b g f).devBias = s.devBias := rfl
@[simp] theorem State.modGrp_hostcap (b g : Nat) (f : Group → Group) : (s.modGrp b g f).hostcap = s.hostcap := rfl
@[simp] theorem State.modGrp_comets (b g : Nat) (f : Group → Group) : (s.modGrp b g f).comets = s.comets := rfl
@[simp] theorem State.modGrp_gangs (b g : Nat) (f : Group → Group) : (s.modGrp b g f).gangs = s.gangs := rfl
@[simp] theorem State.modGrp_dbars (b g : Nat) (f : Group → Group) : (s.modGrp b g f).dbars = s.dbars := rfl
@[simp] theorem State.modGrp_parts (b g : Nat) (f : Group → Group) : (s.modGrp b g f).parts = s.parts := rfl
@[simp] theorem State.modGrp_facets (b g : Nat) (f : Group → Group) : (s.modGrp b g f).facets = s.facets := rfl
@[simp] theorem State.modGrp_engines (b g : Nat) (f : Group → Group) : (s.modGrp b g f).engines = s.engines := rfl
@[simp] theorem State.modGrp_taps (b g : Nat) (f : Group → Group) : (s.modGrp b g f).taps = s.taps := rfl
@[simp] theorem State.modGrp_parks (b g : Nat) (f : Group → Group) : (s.modGrp b g f).parks = s.parks := rfl
@[simp] theorem State.modGrp_counters (b g : Nat) (f : Group → Group) : (s.modGrp b g f).counters = s.counters := rfl
@[simp] theorem State.modGrp_sampled (b g : Nat) (f : Group → Group) : (s.modGrp b g f).sampled = s.sampled := rfl
@[simp] theorem State.modGrp_merids (b g : Nat) (f : Group → Group) : (s.modGrp b g f).merids = s.merids := rfl
@[simp] theorem State.modGrp_telIrqs (b g : Nat) (f : Group → Group) : (s.modGrp b g f).telIrqs = s.telIrqs := rfl
@[simp] theorem State.modGrp_linkErrs (b g : Nat) (f : Group → Group) : (s.modGrp b g f).linkErrs = s.linkErrs := rfl
@[simp] theorem State.modGrp_nodes (b g : Nat) (f : Group → Group) : (s.modGrp b g f).nodes = s.nodes := rfl
@[simp] theorem State.modGrp_queues (b g : Nat) (f : Group → Group) : (s.modGrp b g f).queues = s.queues := rfl
@[simp] theorem State.modGrp_reserve (b g : Nat) (f : Group → Group) : (s.modGrp b g f).reserve = s.reserve := rfl
@[simp] theorem State.modGrp_migrs (b g : Nat) (f : Group → Group) : (s.modGrp b g f).migrs = s.migrs := rfl
@[simp] theorem State.modGrp_charges (b g : Nat) (f : Group → Group) : (s.modGrp b g f).charges = s.charges := rfl
@[simp] theorem State.modGrp_served (b g : Nat) (f : Group → Group) : (s.modGrp b g f).served = s.served := rfl
@[simp] theorem State.modGrp_asks (b g : Nat) (f : Group → Group) : (s.modGrp b g f).asks = s.asks := rfl
@[simp] theorem State.modGrp_cmode (b g : Nat) (f : Group → Group) : (s.modGrp b g f).cmode = s.cmode := rfl
@[simp] theorem State.modGrp_cmerr (b g : Nat) (f : Group → Group) : (s.modGrp b g f).cmerr = s.cmerr := rfl
@[simp] theorem State.modGrp_fabid (b g : Nat) (f : Group → Group) : (s.modGrp b g f).fabid = s.fabid := rfl
@[simp] theorem State.modGrp_routes (b g : Nat) (f : Group → Group) : (s.modGrp b g f).routes = s.routes := rfl
@[simp] theorem State.modGrp_exports (b g : Nat) (f : Group → Group) : (s.modGrp b g f).exports = s.exports := rfl
@[simp] theorem State.modGrp_fports (b g : Nat) (f : Group → Group) : (s.modGrp b g f).fports = s.fports := rfl
@[simp] theorem State.modGrp_fabSent (b g : Nat) (f : Group → Group) : (s.modGrp b g f).fabSent = s.fabSent := rfl
@[simp] theorem State.modGrp_bootst (b g : Nat) (f : Group → Group) : (s.modGrp b g f).bootst = s.bootst := rfl
@[simp] theorem State.modGrp_integrity (b g : Nat) (f : Group → Group) : (s.modGrp b g f).integrity = s.integrity := rfl
@[simp] theorem State.modGrp_answers (b g : Nat) (f : Group → Group) : (s.modGrp b g f).answers = s.answers := rfl

/-! ## modSpl -/

@[simp] theorem State.modSpl_agenda (b g k : Nat) (f : Split → Split) : (s.modSpl b g k f).agenda = s.agenda := rfl
@[simp] theorem State.modSpl_focus (b g k : Nat) (f : Split → Split) : (s.modSpl b g k f).focus = s.focus := rfl
@[simp] theorem State.modSpl_freeCtr (b g k : Nat) (f : Split → Split) : (s.modSpl b g k f).freeCtr = s.freeCtr := rfl
@[simp] theorem State.modSpl_nextId (b g k : Nat) (f : Split → Split) : (s.modSpl b g k f).nextId = s.nextId := rfl
@[simp] theorem State.modSpl_now (b g k : Nat) (f : Split → Split) : (s.modSpl b g k f).now = s.now := rfl
@[simp] theorem State.modSpl_mem (b g k : Nat) (f : Split → Split) : (s.modSpl b g k f).mem = s.mem := rfl
@[simp] theorem State.modSpl_poison (b g k : Nat) (f : Split → Split) : (s.modSpl b g k f).poison = s.poison := rfl
@[simp] theorem State.modSpl_owners (b g k : Nat) (f : Split → Split) : (s.modSpl b g k f).owners = s.owners := rfl
@[simp] theorem State.modSpl_copies (b g k : Nat) (f : Split → Split) : (s.modSpl b g k f).copies = s.copies := rfl
@[simp] theorem State.modSpl_ops (b g k : Nat) (f : Split → Split) : (s.modSpl b g k f).ops = s.ops := rfl
@[simp] theorem State.modSpl_stores (b g k : Nat) (f : Split → Split) : (s.modSpl b g k f).stores = s.stores := rfl
@[simp] theorem State.modSpl_outs (b g k : Nat) (f : Split → Split) : (s.modSpl b g k f).outs = s.outs := rfl
@[simp] theorem State.modSpl_tlbs (b g k : Nat) (f : Split → Split) : (s.modSpl b g k f).tlbs = s.tlbs := rfl
@[simp] theorem State.modSpl_walks (b g k : Nat) (f : Split → Split) : (s.modSpl b g k f).walks = s.walks := rfl
@[simp] theorem State.modSpl_walkFaults (b g k : Nat) (f : Split → Split) : (s.modSpl b g k f).walkFaults = s.walkFaults := rfl
@[simp] theorem State.modSpl_monitors (b g k : Nat) (f : Split → Split) : (s.modSpl b g k f).monitors = s.monitors := rfl
@[simp] theorem State.modSpl_armed (b g k : Nat) (f : Split → Split) : (s.modSpl b g k f).armed = s.armed := rfl
@[simp] theorem State.modSpl_vfs (b g k : Nat) (f : Split → Split) : (s.modSpl b g k f).vfs = s.vfs := rfl
@[simp] theorem State.modSpl_monq (b g k : Nat) (f : Split → Split) : (s.modSpl b g k f).monq = s.monq := rfl
@[simp] theorem State.modSpl_slices (b g k : Nat) (f : Split → Split) : (s.modSpl b g k f).slices = s.slices := rfl
@[simp] theorem State.modSpl_wayMask (b g k : Nat) (f : Split → Split) : (s.modSpl b g k f).wayMask = s.wayMask := rfl
@[simp] theorem State.modSpl_biasBase (b g k : Nat) (f : Split → Split) : (s.modSpl b g k f).biasBase = s.biasBase := rfl
@[simp] theorem State.modSpl_devBias (b g k : Nat) (f : Split → Split) : (s.modSpl b g k f).devBias = s.devBias := rfl
@[simp] theorem State.modSpl_hostcap (b g k : Nat) (f : Split → Split) : (s.modSpl b g k f).hostcap = s.hostcap := rfl
@[simp] theorem State.modSpl_comets (b g k : Nat) (f : Split → Split) : (s.modSpl b g k f).comets = s.comets := rfl
@[simp] theorem State.modSpl_gangs (b g k : Nat) (f : Split → Split) : (s.modSpl b g k f).gangs = s.gangs := rfl
@[simp] theorem State.modSpl_dbars (b g k : Nat) (f : Split → Split) : (s.modSpl b g k f).dbars = s.dbars := rfl
@[simp] theorem State.modSpl_parts (b g k : Nat) (f : Split → Split) : (s.modSpl b g k f).parts = s.parts := rfl
@[simp] theorem State.modSpl_facets (b g k : Nat) (f : Split → Split) : (s.modSpl b g k f).facets = s.facets := rfl
@[simp] theorem State.modSpl_engines (b g k : Nat) (f : Split → Split) : (s.modSpl b g k f).engines = s.engines := rfl
@[simp] theorem State.modSpl_taps (b g k : Nat) (f : Split → Split) : (s.modSpl b g k f).taps = s.taps := rfl
@[simp] theorem State.modSpl_parks (b g k : Nat) (f : Split → Split) : (s.modSpl b g k f).parks = s.parks := rfl
@[simp] theorem State.modSpl_counters (b g k : Nat) (f : Split → Split) : (s.modSpl b g k f).counters = s.counters := rfl
@[simp] theorem State.modSpl_sampled (b g k : Nat) (f : Split → Split) : (s.modSpl b g k f).sampled = s.sampled := rfl
@[simp] theorem State.modSpl_merids (b g k : Nat) (f : Split → Split) : (s.modSpl b g k f).merids = s.merids := rfl
@[simp] theorem State.modSpl_telIrqs (b g k : Nat) (f : Split → Split) : (s.modSpl b g k f).telIrqs = s.telIrqs := rfl
@[simp] theorem State.modSpl_linkErrs (b g k : Nat) (f : Split → Split) : (s.modSpl b g k f).linkErrs = s.linkErrs := rfl
@[simp] theorem State.modSpl_nodes (b g k : Nat) (f : Split → Split) : (s.modSpl b g k f).nodes = s.nodes := rfl
@[simp] theorem State.modSpl_queues (b g k : Nat) (f : Split → Split) : (s.modSpl b g k f).queues = s.queues := rfl
@[simp] theorem State.modSpl_reserve (b g k : Nat) (f : Split → Split) : (s.modSpl b g k f).reserve = s.reserve := rfl
@[simp] theorem State.modSpl_migrs (b g k : Nat) (f : Split → Split) : (s.modSpl b g k f).migrs = s.migrs := rfl
@[simp] theorem State.modSpl_charges (b g k : Nat) (f : Split → Split) : (s.modSpl b g k f).charges = s.charges := rfl
@[simp] theorem State.modSpl_served (b g k : Nat) (f : Split → Split) : (s.modSpl b g k f).served = s.served := rfl
@[simp] theorem State.modSpl_asks (b g k : Nat) (f : Split → Split) : (s.modSpl b g k f).asks = s.asks := rfl
@[simp] theorem State.modSpl_cmode (b g k : Nat) (f : Split → Split) : (s.modSpl b g k f).cmode = s.cmode := rfl
@[simp] theorem State.modSpl_cmerr (b g k : Nat) (f : Split → Split) : (s.modSpl b g k f).cmerr = s.cmerr := rfl
@[simp] theorem State.modSpl_fabid (b g k : Nat) (f : Split → Split) : (s.modSpl b g k f).fabid = s.fabid := rfl
@[simp] theorem State.modSpl_routes (b g k : Nat) (f : Split → Split) : (s.modSpl b g k f).routes = s.routes := rfl
@[simp] theorem State.modSpl_exports (b g k : Nat) (f : Split → Split) : (s.modSpl b g k f).exports = s.exports := rfl
@[simp] theorem State.modSpl_fports (b g k : Nat) (f : Split → Split) : (s.modSpl b g k f).fports = s.fports := rfl
@[simp] theorem State.modSpl_fabSent (b g k : Nat) (f : Split → Split) : (s.modSpl b g k f).fabSent = s.fabSent := rfl
@[simp] theorem State.modSpl_bootst (b g k : Nat) (f : Split → Split) : (s.modSpl b g k f).bootst = s.bootst := rfl
@[simp] theorem State.modSpl_integrity (b g k : Nat) (f : Split → Split) : (s.modSpl b g k f).integrity = s.integrity := rfl
@[simp] theorem State.modSpl_answers (b g k : Nat) (f : Split → Split) : (s.modSpl b g k f).answers = s.answers := rfl

/-! ## modCtx -/

@[simp] theorem State.modCtx_agenda (c : Nat) (f : Comet → Comet) : (s.modCtx c f).agenda = s.agenda := rfl
@[simp] theorem State.modCtx_focus (c : Nat) (f : Comet → Comet) : (s.modCtx c f).focus = s.focus := rfl
@[simp] theorem State.modCtx_freeCtr (c : Nat) (f : Comet → Comet) : (s.modCtx c f).freeCtr = s.freeCtr := rfl
@[simp] theorem State.modCtx_nextId (c : Nat) (f : Comet → Comet) : (s.modCtx c f).nextId = s.nextId := rfl
@[simp] theorem State.modCtx_now (c : Nat) (f : Comet → Comet) : (s.modCtx c f).now = s.now := rfl
@[simp] theorem State.modCtx_mem (c : Nat) (f : Comet → Comet) : (s.modCtx c f).mem = s.mem := rfl
@[simp] theorem State.modCtx_poison (c : Nat) (f : Comet → Comet) : (s.modCtx c f).poison = s.poison := rfl
@[simp] theorem State.modCtx_owners (c : Nat) (f : Comet → Comet) : (s.modCtx c f).owners = s.owners := rfl
@[simp] theorem State.modCtx_copies (c : Nat) (f : Comet → Comet) : (s.modCtx c f).copies = s.copies := rfl
@[simp] theorem State.modCtx_ops (c : Nat) (f : Comet → Comet) : (s.modCtx c f).ops = s.ops := rfl
@[simp] theorem State.modCtx_stores (c : Nat) (f : Comet → Comet) : (s.modCtx c f).stores = s.stores := rfl
@[simp] theorem State.modCtx_outs (c : Nat) (f : Comet → Comet) : (s.modCtx c f).outs = s.outs := rfl
@[simp] theorem State.modCtx_tlbs (c : Nat) (f : Comet → Comet) : (s.modCtx c f).tlbs = s.tlbs := rfl
@[simp] theorem State.modCtx_walks (c : Nat) (f : Comet → Comet) : (s.modCtx c f).walks = s.walks := rfl
@[simp] theorem State.modCtx_walkFaults (c : Nat) (f : Comet → Comet) : (s.modCtx c f).walkFaults = s.walkFaults := rfl
@[simp] theorem State.modCtx_monitors (c : Nat) (f : Comet → Comet) : (s.modCtx c f).monitors = s.monitors := rfl
@[simp] theorem State.modCtx_armed (c : Nat) (f : Comet → Comet) : (s.modCtx c f).armed = s.armed := rfl
@[simp] theorem State.modCtx_vfs (c : Nat) (f : Comet → Comet) : (s.modCtx c f).vfs = s.vfs := rfl
@[simp] theorem State.modCtx_monq (c : Nat) (f : Comet → Comet) : (s.modCtx c f).monq = s.monq := rfl
@[simp] theorem State.modCtx_slices (c : Nat) (f : Comet → Comet) : (s.modCtx c f).slices = s.slices := rfl
@[simp] theorem State.modCtx_wayMask (c : Nat) (f : Comet → Comet) : (s.modCtx c f).wayMask = s.wayMask := rfl
@[simp] theorem State.modCtx_biasBase (c : Nat) (f : Comet → Comet) : (s.modCtx c f).biasBase = s.biasBase := rfl
@[simp] theorem State.modCtx_devBias (c : Nat) (f : Comet → Comet) : (s.modCtx c f).devBias = s.devBias := rfl
@[simp] theorem State.modCtx_hostcap (c : Nat) (f : Comet → Comet) : (s.modCtx c f).hostcap = s.hostcap := rfl
@[simp] theorem State.modCtx_blocks (c : Nat) (f : Comet → Comet) : (s.modCtx c f).blocks = s.blocks := rfl
@[simp] theorem State.modCtx_gangs (c : Nat) (f : Comet → Comet) : (s.modCtx c f).gangs = s.gangs := rfl
@[simp] theorem State.modCtx_dbars (c : Nat) (f : Comet → Comet) : (s.modCtx c f).dbars = s.dbars := rfl
@[simp] theorem State.modCtx_parts (c : Nat) (f : Comet → Comet) : (s.modCtx c f).parts = s.parts := rfl
@[simp] theorem State.modCtx_facets (c : Nat) (f : Comet → Comet) : (s.modCtx c f).facets = s.facets := rfl
@[simp] theorem State.modCtx_engines (c : Nat) (f : Comet → Comet) : (s.modCtx c f).engines = s.engines := rfl
@[simp] theorem State.modCtx_taps (c : Nat) (f : Comet → Comet) : (s.modCtx c f).taps = s.taps := rfl
@[simp] theorem State.modCtx_parks (c : Nat) (f : Comet → Comet) : (s.modCtx c f).parks = s.parks := rfl
@[simp] theorem State.modCtx_counters (c : Nat) (f : Comet → Comet) : (s.modCtx c f).counters = s.counters := rfl
@[simp] theorem State.modCtx_sampled (c : Nat) (f : Comet → Comet) : (s.modCtx c f).sampled = s.sampled := rfl
@[simp] theorem State.modCtx_merids (c : Nat) (f : Comet → Comet) : (s.modCtx c f).merids = s.merids := rfl
@[simp] theorem State.modCtx_telIrqs (c : Nat) (f : Comet → Comet) : (s.modCtx c f).telIrqs = s.telIrqs := rfl
@[simp] theorem State.modCtx_linkErrs (c : Nat) (f : Comet → Comet) : (s.modCtx c f).linkErrs = s.linkErrs := rfl
@[simp] theorem State.modCtx_nodes (c : Nat) (f : Comet → Comet) : (s.modCtx c f).nodes = s.nodes := rfl
@[simp] theorem State.modCtx_queues (c : Nat) (f : Comet → Comet) : (s.modCtx c f).queues = s.queues := rfl
@[simp] theorem State.modCtx_reserve (c : Nat) (f : Comet → Comet) : (s.modCtx c f).reserve = s.reserve := rfl
@[simp] theorem State.modCtx_migrs (c : Nat) (f : Comet → Comet) : (s.modCtx c f).migrs = s.migrs := rfl
@[simp] theorem State.modCtx_charges (c : Nat) (f : Comet → Comet) : (s.modCtx c f).charges = s.charges := rfl
@[simp] theorem State.modCtx_served (c : Nat) (f : Comet → Comet) : (s.modCtx c f).served = s.served := rfl
@[simp] theorem State.modCtx_asks (c : Nat) (f : Comet → Comet) : (s.modCtx c f).asks = s.asks := rfl
@[simp] theorem State.modCtx_cmode (c : Nat) (f : Comet → Comet) : (s.modCtx c f).cmode = s.cmode := rfl
@[simp] theorem State.modCtx_cmerr (c : Nat) (f : Comet → Comet) : (s.modCtx c f).cmerr = s.cmerr := rfl
@[simp] theorem State.modCtx_fabid (c : Nat) (f : Comet → Comet) : (s.modCtx c f).fabid = s.fabid := rfl
@[simp] theorem State.modCtx_routes (c : Nat) (f : Comet → Comet) : (s.modCtx c f).routes = s.routes := rfl
@[simp] theorem State.modCtx_exports (c : Nat) (f : Comet → Comet) : (s.modCtx c f).exports = s.exports := rfl
@[simp] theorem State.modCtx_fports (c : Nat) (f : Comet → Comet) : (s.modCtx c f).fports = s.fports := rfl
@[simp] theorem State.modCtx_fabSent (c : Nat) (f : Comet → Comet) : (s.modCtx c f).fabSent = s.fabSent := rfl
@[simp] theorem State.modCtx_bootst (c : Nat) (f : Comet → Comet) : (s.modCtx c f).bootst = s.bootst := rfl
@[simp] theorem State.modCtx_integrity (c : Nat) (f : Comet → Comet) : (s.modCtx c f).integrity = s.integrity := rfl
@[simp] theorem State.modCtx_answers (c : Nat) (f : Comet → Comet) : (s.modCtx c f).answers = s.answers := rfl

/-! ## modFacet -/

@[simp] theorem State.modFacet_agenda (f : Nat) (h : Facet → Facet) : (s.modFacet f h).agenda = s.agenda := rfl
@[simp] theorem State.modFacet_focus (f : Nat) (h : Facet → Facet) : (s.modFacet f h).focus = s.focus := rfl
@[simp] theorem State.modFacet_freeCtr (f : Nat) (h : Facet → Facet) : (s.modFacet f h).freeCtr = s.freeCtr := rfl
@[simp] theorem State.modFacet_nextId (f : Nat) (h : Facet → Facet) : (s.modFacet f h).nextId = s.nextId := rfl
@[simp] theorem State.modFacet_now (f : Nat) (h : Facet → Facet) : (s.modFacet f h).now = s.now := rfl
@[simp] theorem State.modFacet_mem (f : Nat) (h : Facet → Facet) : (s.modFacet f h).mem = s.mem := rfl
@[simp] theorem State.modFacet_poison (f : Nat) (h : Facet → Facet) : (s.modFacet f h).poison = s.poison := rfl
@[simp] theorem State.modFacet_owners (f : Nat) (h : Facet → Facet) : (s.modFacet f h).owners = s.owners := rfl
@[simp] theorem State.modFacet_copies (f : Nat) (h : Facet → Facet) : (s.modFacet f h).copies = s.copies := rfl
@[simp] theorem State.modFacet_ops (f : Nat) (h : Facet → Facet) : (s.modFacet f h).ops = s.ops := rfl
@[simp] theorem State.modFacet_stores (f : Nat) (h : Facet → Facet) : (s.modFacet f h).stores = s.stores := rfl
@[simp] theorem State.modFacet_outs (f : Nat) (h : Facet → Facet) : (s.modFacet f h).outs = s.outs := rfl
@[simp] theorem State.modFacet_tlbs (f : Nat) (h : Facet → Facet) : (s.modFacet f h).tlbs = s.tlbs := rfl
@[simp] theorem State.modFacet_walks (f : Nat) (h : Facet → Facet) : (s.modFacet f h).walks = s.walks := rfl
@[simp] theorem State.modFacet_walkFaults (f : Nat) (h : Facet → Facet) : (s.modFacet f h).walkFaults = s.walkFaults := rfl
@[simp] theorem State.modFacet_monitors (f : Nat) (h : Facet → Facet) : (s.modFacet f h).monitors = s.monitors := rfl
@[simp] theorem State.modFacet_armed (f : Nat) (h : Facet → Facet) : (s.modFacet f h).armed = s.armed := rfl
@[simp] theorem State.modFacet_vfs (f : Nat) (h : Facet → Facet) : (s.modFacet f h).vfs = s.vfs := rfl
@[simp] theorem State.modFacet_monq (f : Nat) (h : Facet → Facet) : (s.modFacet f h).monq = s.monq := rfl
@[simp] theorem State.modFacet_slices (f : Nat) (h : Facet → Facet) : (s.modFacet f h).slices = s.slices := rfl
@[simp] theorem State.modFacet_wayMask (f : Nat) (h : Facet → Facet) : (s.modFacet f h).wayMask = s.wayMask := rfl
@[simp] theorem State.modFacet_biasBase (f : Nat) (h : Facet → Facet) : (s.modFacet f h).biasBase = s.biasBase := rfl
@[simp] theorem State.modFacet_devBias (f : Nat) (h : Facet → Facet) : (s.modFacet f h).devBias = s.devBias := rfl
@[simp] theorem State.modFacet_hostcap (f : Nat) (h : Facet → Facet) : (s.modFacet f h).hostcap = s.hostcap := rfl
@[simp] theorem State.modFacet_blocks (f : Nat) (h : Facet → Facet) : (s.modFacet f h).blocks = s.blocks := rfl
@[simp] theorem State.modFacet_comets (f : Nat) (h : Facet → Facet) : (s.modFacet f h).comets = s.comets := rfl
@[simp] theorem State.modFacet_gangs (f : Nat) (h : Facet → Facet) : (s.modFacet f h).gangs = s.gangs := rfl
@[simp] theorem State.modFacet_dbars (f : Nat) (h : Facet → Facet) : (s.modFacet f h).dbars = s.dbars := rfl
@[simp] theorem State.modFacet_parts (f : Nat) (h : Facet → Facet) : (s.modFacet f h).parts = s.parts := rfl
@[simp] theorem State.modFacet_engines (f : Nat) (h : Facet → Facet) : (s.modFacet f h).engines = s.engines := rfl
@[simp] theorem State.modFacet_taps (f : Nat) (h : Facet → Facet) : (s.modFacet f h).taps = s.taps := rfl
@[simp] theorem State.modFacet_parks (f : Nat) (h : Facet → Facet) : (s.modFacet f h).parks = s.parks := rfl
@[simp] theorem State.modFacet_counters (f : Nat) (h : Facet → Facet) : (s.modFacet f h).counters = s.counters := rfl
@[simp] theorem State.modFacet_sampled (f : Nat) (h : Facet → Facet) : (s.modFacet f h).sampled = s.sampled := rfl
@[simp] theorem State.modFacet_merids (f : Nat) (h : Facet → Facet) : (s.modFacet f h).merids = s.merids := rfl
@[simp] theorem State.modFacet_telIrqs (f : Nat) (h : Facet → Facet) : (s.modFacet f h).telIrqs = s.telIrqs := rfl
@[simp] theorem State.modFacet_linkErrs (f : Nat) (h : Facet → Facet) : (s.modFacet f h).linkErrs = s.linkErrs := rfl
@[simp] theorem State.modFacet_nodes (f : Nat) (h : Facet → Facet) : (s.modFacet f h).nodes = s.nodes := rfl
@[simp] theorem State.modFacet_queues (f : Nat) (h : Facet → Facet) : (s.modFacet f h).queues = s.queues := rfl
@[simp] theorem State.modFacet_reserve (f : Nat) (h : Facet → Facet) : (s.modFacet f h).reserve = s.reserve := rfl
@[simp] theorem State.modFacet_migrs (f : Nat) (h : Facet → Facet) : (s.modFacet f h).migrs = s.migrs := rfl
@[simp] theorem State.modFacet_charges (f : Nat) (h : Facet → Facet) : (s.modFacet f h).charges = s.charges := rfl
@[simp] theorem State.modFacet_served (f : Nat) (h : Facet → Facet) : (s.modFacet f h).served = s.served := rfl
@[simp] theorem State.modFacet_asks (f : Nat) (h : Facet → Facet) : (s.modFacet f h).asks = s.asks := rfl
@[simp] theorem State.modFacet_cmode (f : Nat) (h : Facet → Facet) : (s.modFacet f h).cmode = s.cmode := rfl
@[simp] theorem State.modFacet_cmerr (f : Nat) (h : Facet → Facet) : (s.modFacet f h).cmerr = s.cmerr := rfl
@[simp] theorem State.modFacet_fabid (f : Nat) (h : Facet → Facet) : (s.modFacet f h).fabid = s.fabid := rfl
@[simp] theorem State.modFacet_routes (f : Nat) (h : Facet → Facet) : (s.modFacet f h).routes = s.routes := rfl
@[simp] theorem State.modFacet_exports (f : Nat) (h : Facet → Facet) : (s.modFacet f h).exports = s.exports := rfl
@[simp] theorem State.modFacet_fports (f : Nat) (h : Facet → Facet) : (s.modFacet f h).fports = s.fports := rfl
@[simp] theorem State.modFacet_fabSent (f : Nat) (h : Facet → Facet) : (s.modFacet f h).fabSent = s.fabSent := rfl
@[simp] theorem State.modFacet_bootst (f : Nat) (h : Facet → Facet) : (s.modFacet f h).bootst = s.bootst := rfl
@[simp] theorem State.modFacet_integrity (f : Nat) (h : Facet → Facet) : (s.modFacet f h).integrity = s.integrity := rfl
@[simp] theorem State.modFacet_answers (f : Nat) (h : Facet → Facet) : (s.modFacet f h).answers = s.answers := rfl

/-! ## modPart -/

@[simp] theorem State.modPart_agenda (p : Nat) (f : Part → Part) : (s.modPart p f).agenda = s.agenda := rfl
@[simp] theorem State.modPart_focus (p : Nat) (f : Part → Part) : (s.modPart p f).focus = s.focus := rfl
@[simp] theorem State.modPart_freeCtr (p : Nat) (f : Part → Part) : (s.modPart p f).freeCtr = s.freeCtr := rfl
@[simp] theorem State.modPart_nextId (p : Nat) (f : Part → Part) : (s.modPart p f).nextId = s.nextId := rfl
@[simp] theorem State.modPart_now (p : Nat) (f : Part → Part) : (s.modPart p f).now = s.now := rfl
@[simp] theorem State.modPart_mem (p : Nat) (f : Part → Part) : (s.modPart p f).mem = s.mem := rfl
@[simp] theorem State.modPart_poison (p : Nat) (f : Part → Part) : (s.modPart p f).poison = s.poison := rfl
@[simp] theorem State.modPart_owners (p : Nat) (f : Part → Part) : (s.modPart p f).owners = s.owners := rfl
@[simp] theorem State.modPart_copies (p : Nat) (f : Part → Part) : (s.modPart p f).copies = s.copies := rfl
@[simp] theorem State.modPart_ops (p : Nat) (f : Part → Part) : (s.modPart p f).ops = s.ops := rfl
@[simp] theorem State.modPart_stores (p : Nat) (f : Part → Part) : (s.modPart p f).stores = s.stores := rfl
@[simp] theorem State.modPart_outs (p : Nat) (f : Part → Part) : (s.modPart p f).outs = s.outs := rfl
@[simp] theorem State.modPart_tlbs (p : Nat) (f : Part → Part) : (s.modPart p f).tlbs = s.tlbs := rfl
@[simp] theorem State.modPart_walks (p : Nat) (f : Part → Part) : (s.modPart p f).walks = s.walks := rfl
@[simp] theorem State.modPart_walkFaults (p : Nat) (f : Part → Part) : (s.modPart p f).walkFaults = s.walkFaults := rfl
@[simp] theorem State.modPart_monitors (p : Nat) (f : Part → Part) : (s.modPart p f).monitors = s.monitors := rfl
@[simp] theorem State.modPart_armed (p : Nat) (f : Part → Part) : (s.modPart p f).armed = s.armed := rfl
@[simp] theorem State.modPart_vfs (p : Nat) (f : Part → Part) : (s.modPart p f).vfs = s.vfs := rfl
@[simp] theorem State.modPart_monq (p : Nat) (f : Part → Part) : (s.modPart p f).monq = s.monq := rfl
@[simp] theorem State.modPart_slices (p : Nat) (f : Part → Part) : (s.modPart p f).slices = s.slices := rfl
@[simp] theorem State.modPart_wayMask (p : Nat) (f : Part → Part) : (s.modPart p f).wayMask = s.wayMask := rfl
@[simp] theorem State.modPart_biasBase (p : Nat) (f : Part → Part) : (s.modPart p f).biasBase = s.biasBase := rfl
@[simp] theorem State.modPart_devBias (p : Nat) (f : Part → Part) : (s.modPart p f).devBias = s.devBias := rfl
@[simp] theorem State.modPart_hostcap (p : Nat) (f : Part → Part) : (s.modPart p f).hostcap = s.hostcap := rfl
@[simp] theorem State.modPart_blocks (p : Nat) (f : Part → Part) : (s.modPart p f).blocks = s.blocks := rfl
@[simp] theorem State.modPart_comets (p : Nat) (f : Part → Part) : (s.modPart p f).comets = s.comets := rfl
@[simp] theorem State.modPart_gangs (p : Nat) (f : Part → Part) : (s.modPart p f).gangs = s.gangs := rfl
@[simp] theorem State.modPart_dbars (p : Nat) (f : Part → Part) : (s.modPart p f).dbars = s.dbars := rfl
@[simp] theorem State.modPart_facets (p : Nat) (f : Part → Part) : (s.modPart p f).facets = s.facets := rfl
@[simp] theorem State.modPart_engines (p : Nat) (f : Part → Part) : (s.modPart p f).engines = s.engines := rfl
@[simp] theorem State.modPart_taps (p : Nat) (f : Part → Part) : (s.modPart p f).taps = s.taps := rfl
@[simp] theorem State.modPart_parks (p : Nat) (f : Part → Part) : (s.modPart p f).parks = s.parks := rfl
@[simp] theorem State.modPart_counters (p : Nat) (f : Part → Part) : (s.modPart p f).counters = s.counters := rfl
@[simp] theorem State.modPart_sampled (p : Nat) (f : Part → Part) : (s.modPart p f).sampled = s.sampled := rfl
@[simp] theorem State.modPart_merids (p : Nat) (f : Part → Part) : (s.modPart p f).merids = s.merids := rfl
@[simp] theorem State.modPart_telIrqs (p : Nat) (f : Part → Part) : (s.modPart p f).telIrqs = s.telIrqs := rfl
@[simp] theorem State.modPart_linkErrs (p : Nat) (f : Part → Part) : (s.modPart p f).linkErrs = s.linkErrs := rfl
@[simp] theorem State.modPart_nodes (p : Nat) (f : Part → Part) : (s.modPart p f).nodes = s.nodes := rfl
@[simp] theorem State.modPart_queues (p : Nat) (f : Part → Part) : (s.modPart p f).queues = s.queues := rfl
@[simp] theorem State.modPart_reserve (p : Nat) (f : Part → Part) : (s.modPart p f).reserve = s.reserve := rfl
@[simp] theorem State.modPart_migrs (p : Nat) (f : Part → Part) : (s.modPart p f).migrs = s.migrs := rfl
@[simp] theorem State.modPart_charges (p : Nat) (f : Part → Part) : (s.modPart p f).charges = s.charges := rfl
@[simp] theorem State.modPart_served (p : Nat) (f : Part → Part) : (s.modPart p f).served = s.served := rfl
@[simp] theorem State.modPart_asks (p : Nat) (f : Part → Part) : (s.modPart p f).asks = s.asks := rfl
@[simp] theorem State.modPart_cmode (p : Nat) (f : Part → Part) : (s.modPart p f).cmode = s.cmode := rfl
@[simp] theorem State.modPart_cmerr (p : Nat) (f : Part → Part) : (s.modPart p f).cmerr = s.cmerr := rfl
@[simp] theorem State.modPart_fabid (p : Nat) (f : Part → Part) : (s.modPart p f).fabid = s.fabid := rfl
@[simp] theorem State.modPart_routes (p : Nat) (f : Part → Part) : (s.modPart p f).routes = s.routes := rfl
@[simp] theorem State.modPart_exports (p : Nat) (f : Part → Part) : (s.modPart p f).exports = s.exports := rfl
@[simp] theorem State.modPart_fports (p : Nat) (f : Part → Part) : (s.modPart p f).fports = s.fports := rfl
@[simp] theorem State.modPart_fabSent (p : Nat) (f : Part → Part) : (s.modPart p f).fabSent = s.fabSent := rfl
@[simp] theorem State.modPart_bootst (p : Nat) (f : Part → Part) : (s.modPart p f).bootst = s.bootst := rfl
@[simp] theorem State.modPart_integrity (p : Nat) (f : Part → Part) : (s.modPart p f).integrity = s.integrity := rfl
@[simp] theorem State.modPart_answers (p : Nat) (f : Part → Part) : (s.modPart p f).answers = s.answers := rfl

/-! ## modVf -/

@[simp] theorem State.modVf_agenda (v : Nat) (f : Vf → Vf) : (s.modVf v f).agenda = s.agenda := rfl
@[simp] theorem State.modVf_focus (v : Nat) (f : Vf → Vf) : (s.modVf v f).focus = s.focus := rfl
@[simp] theorem State.modVf_freeCtr (v : Nat) (f : Vf → Vf) : (s.modVf v f).freeCtr = s.freeCtr := rfl
@[simp] theorem State.modVf_nextId (v : Nat) (f : Vf → Vf) : (s.modVf v f).nextId = s.nextId := rfl
@[simp] theorem State.modVf_now (v : Nat) (f : Vf → Vf) : (s.modVf v f).now = s.now := rfl
@[simp] theorem State.modVf_mem (v : Nat) (f : Vf → Vf) : (s.modVf v f).mem = s.mem := rfl
@[simp] theorem State.modVf_poison (v : Nat) (f : Vf → Vf) : (s.modVf v f).poison = s.poison := rfl
@[simp] theorem State.modVf_owners (v : Nat) (f : Vf → Vf) : (s.modVf v f).owners = s.owners := rfl
@[simp] theorem State.modVf_copies (v : Nat) (f : Vf → Vf) : (s.modVf v f).copies = s.copies := rfl
@[simp] theorem State.modVf_ops (v : Nat) (f : Vf → Vf) : (s.modVf v f).ops = s.ops := rfl
@[simp] theorem State.modVf_stores (v : Nat) (f : Vf → Vf) : (s.modVf v f).stores = s.stores := rfl
@[simp] theorem State.modVf_outs (v : Nat) (f : Vf → Vf) : (s.modVf v f).outs = s.outs := rfl
@[simp] theorem State.modVf_tlbs (v : Nat) (f : Vf → Vf) : (s.modVf v f).tlbs = s.tlbs := rfl
@[simp] theorem State.modVf_walks (v : Nat) (f : Vf → Vf) : (s.modVf v f).walks = s.walks := rfl
@[simp] theorem State.modVf_walkFaults (v : Nat) (f : Vf → Vf) : (s.modVf v f).walkFaults = s.walkFaults := rfl
@[simp] theorem State.modVf_monitors (v : Nat) (f : Vf → Vf) : (s.modVf v f).monitors = s.monitors := rfl
@[simp] theorem State.modVf_armed (v : Nat) (f : Vf → Vf) : (s.modVf v f).armed = s.armed := rfl
@[simp] theorem State.modVf_monq (v : Nat) (f : Vf → Vf) : (s.modVf v f).monq = s.monq := rfl
@[simp] theorem State.modVf_slices (v : Nat) (f : Vf → Vf) : (s.modVf v f).slices = s.slices := rfl
@[simp] theorem State.modVf_wayMask (v : Nat) (f : Vf → Vf) : (s.modVf v f).wayMask = s.wayMask := rfl
@[simp] theorem State.modVf_biasBase (v : Nat) (f : Vf → Vf) : (s.modVf v f).biasBase = s.biasBase := rfl
@[simp] theorem State.modVf_devBias (v : Nat) (f : Vf → Vf) : (s.modVf v f).devBias = s.devBias := rfl
@[simp] theorem State.modVf_hostcap (v : Nat) (f : Vf → Vf) : (s.modVf v f).hostcap = s.hostcap := rfl
@[simp] theorem State.modVf_blocks (v : Nat) (f : Vf → Vf) : (s.modVf v f).blocks = s.blocks := rfl
@[simp] theorem State.modVf_comets (v : Nat) (f : Vf → Vf) : (s.modVf v f).comets = s.comets := rfl
@[simp] theorem State.modVf_gangs (v : Nat) (f : Vf → Vf) : (s.modVf v f).gangs = s.gangs := rfl
@[simp] theorem State.modVf_dbars (v : Nat) (f : Vf → Vf) : (s.modVf v f).dbars = s.dbars := rfl
@[simp] theorem State.modVf_parts (v : Nat) (f : Vf → Vf) : (s.modVf v f).parts = s.parts := rfl
@[simp] theorem State.modVf_facets (v : Nat) (f : Vf → Vf) : (s.modVf v f).facets = s.facets := rfl
@[simp] theorem State.modVf_engines (v : Nat) (f : Vf → Vf) : (s.modVf v f).engines = s.engines := rfl
@[simp] theorem State.modVf_taps (v : Nat) (f : Vf → Vf) : (s.modVf v f).taps = s.taps := rfl
@[simp] theorem State.modVf_parks (v : Nat) (f : Vf → Vf) : (s.modVf v f).parks = s.parks := rfl
@[simp] theorem State.modVf_counters (v : Nat) (f : Vf → Vf) : (s.modVf v f).counters = s.counters := rfl
@[simp] theorem State.modVf_sampled (v : Nat) (f : Vf → Vf) : (s.modVf v f).sampled = s.sampled := rfl
@[simp] theorem State.modVf_merids (v : Nat) (f : Vf → Vf) : (s.modVf v f).merids = s.merids := rfl
@[simp] theorem State.modVf_telIrqs (v : Nat) (f : Vf → Vf) : (s.modVf v f).telIrqs = s.telIrqs := rfl
@[simp] theorem State.modVf_linkErrs (v : Nat) (f : Vf → Vf) : (s.modVf v f).linkErrs = s.linkErrs := rfl
@[simp] theorem State.modVf_nodes (v : Nat) (f : Vf → Vf) : (s.modVf v f).nodes = s.nodes := rfl
@[simp] theorem State.modVf_queues (v : Nat) (f : Vf → Vf) : (s.modVf v f).queues = s.queues := rfl
@[simp] theorem State.modVf_reserve (v : Nat) (f : Vf → Vf) : (s.modVf v f).reserve = s.reserve := rfl
@[simp] theorem State.modVf_migrs (v : Nat) (f : Vf → Vf) : (s.modVf v f).migrs = s.migrs := rfl
@[simp] theorem State.modVf_charges (v : Nat) (f : Vf → Vf) : (s.modVf v f).charges = s.charges := rfl
@[simp] theorem State.modVf_served (v : Nat) (f : Vf → Vf) : (s.modVf v f).served = s.served := rfl
@[simp] theorem State.modVf_asks (v : Nat) (f : Vf → Vf) : (s.modVf v f).asks = s.asks := rfl
@[simp] theorem State.modVf_cmode (v : Nat) (f : Vf → Vf) : (s.modVf v f).cmode = s.cmode := rfl
@[simp] theorem State.modVf_cmerr (v : Nat) (f : Vf → Vf) : (s.modVf v f).cmerr = s.cmerr := rfl
@[simp] theorem State.modVf_fabid (v : Nat) (f : Vf → Vf) : (s.modVf v f).fabid = s.fabid := rfl
@[simp] theorem State.modVf_routes (v : Nat) (f : Vf → Vf) : (s.modVf v f).routes = s.routes := rfl
@[simp] theorem State.modVf_exports (v : Nat) (f : Vf → Vf) : (s.modVf v f).exports = s.exports := rfl
@[simp] theorem State.modVf_fports (v : Nat) (f : Vf → Vf) : (s.modVf v f).fports = s.fports := rfl
@[simp] theorem State.modVf_fabSent (v : Nat) (f : Vf → Vf) : (s.modVf v f).fabSent = s.fabSent := rfl
@[simp] theorem State.modVf_bootst (v : Nat) (f : Vf → Vf) : (s.modVf v f).bootst = s.bootst := rfl
@[simp] theorem State.modVf_integrity (v : Nat) (f : Vf → Vf) : (s.modVf v f).integrity = s.integrity := rfl
@[simp] theorem State.modVf_answers (v : Nat) (f : Vf → Vf) : (s.modVf v f).answers = s.answers := rfl

/-! ## offer -/

@[simp] theorem State.offer_agenda (m : Nat) (e : Event) : (s.offer m e).agenda = s.agenda := rfl
@[simp] theorem State.offer_focus (m : Nat) (e : Event) : (s.offer m e).focus = s.focus := rfl
@[simp] theorem State.offer_freeCtr (m : Nat) (e : Event) : (s.offer m e).freeCtr = s.freeCtr := rfl
@[simp] theorem State.offer_nextId (m : Nat) (e : Event) : (s.offer m e).nextId = s.nextId := rfl
@[simp] theorem State.offer_now (m : Nat) (e : Event) : (s.offer m e).now = s.now := rfl
@[simp] theorem State.offer_mem (m : Nat) (e : Event) : (s.offer m e).mem = s.mem := rfl
@[simp] theorem State.offer_poison (m : Nat) (e : Event) : (s.offer m e).poison = s.poison := rfl
@[simp] theorem State.offer_owners (m : Nat) (e : Event) : (s.offer m e).owners = s.owners := rfl
@[simp] theorem State.offer_copies (m : Nat) (e : Event) : (s.offer m e).copies = s.copies := rfl
@[simp] theorem State.offer_ops (m : Nat) (e : Event) : (s.offer m e).ops = s.ops := rfl
@[simp] theorem State.offer_stores (m : Nat) (e : Event) : (s.offer m e).stores = s.stores := rfl
@[simp] theorem State.offer_outs (m : Nat) (e : Event) : (s.offer m e).outs = s.outs := rfl
@[simp] theorem State.offer_tlbs (m : Nat) (e : Event) : (s.offer m e).tlbs = s.tlbs := rfl
@[simp] theorem State.offer_walks (m : Nat) (e : Event) : (s.offer m e).walks = s.walks := rfl
@[simp] theorem State.offer_walkFaults (m : Nat) (e : Event) : (s.offer m e).walkFaults = s.walkFaults := rfl
@[simp] theorem State.offer_monitors (m : Nat) (e : Event) : (s.offer m e).monitors = s.monitors := rfl
@[simp] theorem State.offer_armed (m : Nat) (e : Event) : (s.offer m e).armed = s.armed := rfl
@[simp] theorem State.offer_vfs (m : Nat) (e : Event) : (s.offer m e).vfs = s.vfs := rfl
@[simp] theorem State.offer_monq (m : Nat) (e : Event) : (s.offer m e).monq = s.monq := rfl
@[simp] theorem State.offer_slices (m : Nat) (e : Event) : (s.offer m e).slices = s.slices := rfl
@[simp] theorem State.offer_wayMask (m : Nat) (e : Event) : (s.offer m e).wayMask = s.wayMask := rfl
@[simp] theorem State.offer_biasBase (m : Nat) (e : Event) : (s.offer m e).biasBase = s.biasBase := rfl
@[simp] theorem State.offer_devBias (m : Nat) (e : Event) : (s.offer m e).devBias = s.devBias := rfl
@[simp] theorem State.offer_hostcap (m : Nat) (e : Event) : (s.offer m e).hostcap = s.hostcap := rfl
@[simp] theorem State.offer_blocks (m : Nat) (e : Event) : (s.offer m e).blocks = s.blocks := rfl
@[simp] theorem State.offer_comets (m : Nat) (e : Event) : (s.offer m e).comets = s.comets := rfl
@[simp] theorem State.offer_gangs (m : Nat) (e : Event) : (s.offer m e).gangs = s.gangs := rfl
@[simp] theorem State.offer_dbars (m : Nat) (e : Event) : (s.offer m e).dbars = s.dbars := rfl
@[simp] theorem State.offer_parts (m : Nat) (e : Event) : (s.offer m e).parts = s.parts := rfl
@[simp] theorem State.offer_facets (m : Nat) (e : Event) : (s.offer m e).facets = s.facets := rfl
@[simp] theorem State.offer_engines (m : Nat) (e : Event) : (s.offer m e).engines = s.engines := rfl
@[simp] theorem State.offer_parks (m : Nat) (e : Event) : (s.offer m e).parks = s.parks := rfl
@[simp] theorem State.offer_counters (m : Nat) (e : Event) : (s.offer m e).counters = s.counters := rfl
@[simp] theorem State.offer_sampled (m : Nat) (e : Event) : (s.offer m e).sampled = s.sampled := rfl
@[simp] theorem State.offer_merids (m : Nat) (e : Event) : (s.offer m e).merids = s.merids := rfl
@[simp] theorem State.offer_telIrqs (m : Nat) (e : Event) : (s.offer m e).telIrqs = s.telIrqs := rfl
@[simp] theorem State.offer_linkErrs (m : Nat) (e : Event) : (s.offer m e).linkErrs = s.linkErrs := rfl
@[simp] theorem State.offer_nodes (m : Nat) (e : Event) : (s.offer m e).nodes = s.nodes := rfl
@[simp] theorem State.offer_queues (m : Nat) (e : Event) : (s.offer m e).queues = s.queues := rfl
@[simp] theorem State.offer_reserve (m : Nat) (e : Event) : (s.offer m e).reserve = s.reserve := rfl
@[simp] theorem State.offer_migrs (m : Nat) (e : Event) : (s.offer m e).migrs = s.migrs := rfl
@[simp] theorem State.offer_charges (m : Nat) (e : Event) : (s.offer m e).charges = s.charges := rfl
@[simp] theorem State.offer_served (m : Nat) (e : Event) : (s.offer m e).served = s.served := rfl
@[simp] theorem State.offer_asks (m : Nat) (e : Event) : (s.offer m e).asks = s.asks := rfl
@[simp] theorem State.offer_cmode (m : Nat) (e : Event) : (s.offer m e).cmode = s.cmode := rfl
@[simp] theorem State.offer_cmerr (m : Nat) (e : Event) : (s.offer m e).cmerr = s.cmerr := rfl
@[simp] theorem State.offer_fabid (m : Nat) (e : Event) : (s.offer m e).fabid = s.fabid := rfl
@[simp] theorem State.offer_routes (m : Nat) (e : Event) : (s.offer m e).routes = s.routes := rfl
@[simp] theorem State.offer_exports (m : Nat) (e : Event) : (s.offer m e).exports = s.exports := rfl
@[simp] theorem State.offer_fports (m : Nat) (e : Event) : (s.offer m e).fports = s.fports := rfl
@[simp] theorem State.offer_fabSent (m : Nat) (e : Event) : (s.offer m e).fabSent = s.fabSent := rfl
@[simp] theorem State.offer_bootst (m : Nat) (e : Event) : (s.offer m e).bootst = s.bootst := rfl
@[simp] theorem State.offer_integrity (m : Nat) (e : Event) : (s.offer m e).integrity = s.integrity := rfl
@[simp] theorem State.offer_answers (m : Nat) (e : Event) : (s.offer m e).answers = s.answers := rfl

/-! ## offerBlk -/

@[simp] theorem State.offerBlk_agenda (b y u a e : Nat) : (s.offerBlk b y u a e).agenda = s.agenda := rfl
@[simp] theorem State.offerBlk_focus (b y u a e : Nat) : (s.offerBlk b y u a e).focus = s.focus := rfl
@[simp] theorem State.offerBlk_freeCtr (b y u a e : Nat) : (s.offerBlk b y u a e).freeCtr = s.freeCtr := rfl
@[simp] theorem State.offerBlk_nextId (b y u a e : Nat) : (s.offerBlk b y u a e).nextId = s.nextId := rfl
@[simp] theorem State.offerBlk_now (b y u a e : Nat) : (s.offerBlk b y u a e).now = s.now := rfl
@[simp] theorem State.offerBlk_mem (b y u a e : Nat) : (s.offerBlk b y u a e).mem = s.mem := rfl
@[simp] theorem State.offerBlk_poison (b y u a e : Nat) : (s.offerBlk b y u a e).poison = s.poison := rfl
@[simp] theorem State.offerBlk_owners (b y u a e : Nat) : (s.offerBlk b y u a e).owners = s.owners := rfl
@[simp] theorem State.offerBlk_copies (b y u a e : Nat) : (s.offerBlk b y u a e).copies = s.copies := rfl
@[simp] theorem State.offerBlk_ops (b y u a e : Nat) : (s.offerBlk b y u a e).ops = s.ops := rfl
@[simp] theorem State.offerBlk_stores (b y u a e : Nat) : (s.offerBlk b y u a e).stores = s.stores := rfl
@[simp] theorem State.offerBlk_outs (b y u a e : Nat) : (s.offerBlk b y u a e).outs = s.outs := rfl
@[simp] theorem State.offerBlk_tlbs (b y u a e : Nat) : (s.offerBlk b y u a e).tlbs = s.tlbs := rfl
@[simp] theorem State.offerBlk_walks (b y u a e : Nat) : (s.offerBlk b y u a e).walks = s.walks := rfl
@[simp] theorem State.offerBlk_walkFaults (b y u a e : Nat) : (s.offerBlk b y u a e).walkFaults = s.walkFaults := rfl
@[simp] theorem State.offerBlk_monitors (b y u a e : Nat) : (s.offerBlk b y u a e).monitors = s.monitors := rfl
@[simp] theorem State.offerBlk_armed (b y u a e : Nat) : (s.offerBlk b y u a e).armed = s.armed := rfl
@[simp] theorem State.offerBlk_vfs (b y u a e : Nat) : (s.offerBlk b y u a e).vfs = s.vfs := rfl
@[simp] theorem State.offerBlk_monq (b y u a e : Nat) : (s.offerBlk b y u a e).monq = s.monq := rfl
@[simp] theorem State.offerBlk_slices (b y u a e : Nat) : (s.offerBlk b y u a e).slices = s.slices := rfl
@[simp] theorem State.offerBlk_wayMask (b y u a e : Nat) : (s.offerBlk b y u a e).wayMask = s.wayMask := rfl
@[simp] theorem State.offerBlk_biasBase (b y u a e : Nat) : (s.offerBlk b y u a e).biasBase = s.biasBase := rfl
@[simp] theorem State.offerBlk_devBias (b y u a e : Nat) : (s.offerBlk b y u a e).devBias = s.devBias := rfl
@[simp] theorem State.offerBlk_hostcap (b y u a e : Nat) : (s.offerBlk b y u a e).hostcap = s.hostcap := rfl
@[simp] theorem State.offerBlk_blocks (b y u a e : Nat) : (s.offerBlk b y u a e).blocks = s.blocks := rfl
@[simp] theorem State.offerBlk_comets (b y u a e : Nat) : (s.offerBlk b y u a e).comets = s.comets := rfl
@[simp] theorem State.offerBlk_gangs (b y u a e : Nat) : (s.offerBlk b y u a e).gangs = s.gangs := rfl
@[simp] theorem State.offerBlk_dbars (b y u a e : Nat) : (s.offerBlk b y u a e).dbars = s.dbars := rfl
@[simp] theorem State.offerBlk_parts (b y u a e : Nat) : (s.offerBlk b y u a e).parts = s.parts := rfl
@[simp] theorem State.offerBlk_facets (b y u a e : Nat) : (s.offerBlk b y u a e).facets = s.facets := rfl
@[simp] theorem State.offerBlk_engines (b y u a e : Nat) : (s.offerBlk b y u a e).engines = s.engines := rfl
@[simp] theorem State.offerBlk_parks (b y u a e : Nat) : (s.offerBlk b y u a e).parks = s.parks := rfl
@[simp] theorem State.offerBlk_counters (b y u a e : Nat) : (s.offerBlk b y u a e).counters = s.counters := rfl
@[simp] theorem State.offerBlk_sampled (b y u a e : Nat) : (s.offerBlk b y u a e).sampled = s.sampled := rfl
@[simp] theorem State.offerBlk_merids (b y u a e : Nat) : (s.offerBlk b y u a e).merids = s.merids := rfl
@[simp] theorem State.offerBlk_telIrqs (b y u a e : Nat) : (s.offerBlk b y u a e).telIrqs = s.telIrqs := rfl
@[simp] theorem State.offerBlk_linkErrs (b y u a e : Nat) : (s.offerBlk b y u a e).linkErrs = s.linkErrs := rfl
@[simp] theorem State.offerBlk_nodes (b y u a e : Nat) : (s.offerBlk b y u a e).nodes = s.nodes := rfl
@[simp] theorem State.offerBlk_queues (b y u a e : Nat) : (s.offerBlk b y u a e).queues = s.queues := rfl
@[simp] theorem State.offerBlk_reserve (b y u a e : Nat) : (s.offerBlk b y u a e).reserve = s.reserve := rfl
@[simp] theorem State.offerBlk_migrs (b y u a e : Nat) : (s.offerBlk b y u a e).migrs = s.migrs := rfl
@[simp] theorem State.offerBlk_charges (b y u a e : Nat) : (s.offerBlk b y u a e).charges = s.charges := rfl
@[simp] theorem State.offerBlk_served (b y u a e : Nat) : (s.offerBlk b y u a e).served = s.served := rfl
@[simp] theorem State.offerBlk_asks (b y u a e : Nat) : (s.offerBlk b y u a e).asks = s.asks := rfl
@[simp] theorem State.offerBlk_cmode (b y u a e : Nat) : (s.offerBlk b y u a e).cmode = s.cmode := rfl
@[simp] theorem State.offerBlk_cmerr (b y u a e : Nat) : (s.offerBlk b y u a e).cmerr = s.cmerr := rfl
@[simp] theorem State.offerBlk_fabid (b y u a e : Nat) : (s.offerBlk b y u a e).fabid = s.fabid := rfl
@[simp] theorem State.offerBlk_routes (b y u a e : Nat) : (s.offerBlk b y u a e).routes = s.routes := rfl
@[simp] theorem State.offerBlk_exports (b y u a e : Nat) : (s.offerBlk b y u a e).exports = s.exports := rfl
@[simp] theorem State.offerBlk_fports (b y u a e : Nat) : (s.offerBlk b y u a e).fports = s.fports := rfl
@[simp] theorem State.offerBlk_fabSent (b y u a e : Nat) : (s.offerBlk b y u a e).fabSent = s.fabSent := rfl
@[simp] theorem State.offerBlk_bootst (b y u a e : Nat) : (s.offerBlk b y u a e).bootst = s.bootst := rfl
@[simp] theorem State.offerBlk_integrity (b y u a e : Nat) : (s.offerBlk b y u a e).integrity = s.integrity := rfl
@[simp] theorem State.offerBlk_answers (b y u a e : Nat) : (s.offerBlk b y u a e).answers = s.answers := rfl

/-! ## offerComet -/

@[simp] theorem State.offerComet_agenda (c y u a e : Nat) : (s.offerComet c y u a e).agenda = s.agenda := rfl
@[simp] theorem State.offerComet_focus (c y u a e : Nat) : (s.offerComet c y u a e).focus = s.focus := rfl
@[simp] theorem State.offerComet_freeCtr (c y u a e : Nat) : (s.offerComet c y u a e).freeCtr = s.freeCtr := rfl
@[simp] theorem State.offerComet_nextId (c y u a e : Nat) : (s.offerComet c y u a e).nextId = s.nextId := rfl
@[simp] theorem State.offerComet_now (c y u a e : Nat) : (s.offerComet c y u a e).now = s.now := rfl
@[simp] theorem State.offerComet_mem (c y u a e : Nat) : (s.offerComet c y u a e).mem = s.mem := rfl
@[simp] theorem State.offerComet_poison (c y u a e : Nat) : (s.offerComet c y u a e).poison = s.poison := rfl
@[simp] theorem State.offerComet_owners (c y u a e : Nat) : (s.offerComet c y u a e).owners = s.owners := rfl
@[simp] theorem State.offerComet_copies (c y u a e : Nat) : (s.offerComet c y u a e).copies = s.copies := rfl
@[simp] theorem State.offerComet_ops (c y u a e : Nat) : (s.offerComet c y u a e).ops = s.ops := rfl
@[simp] theorem State.offerComet_stores (c y u a e : Nat) : (s.offerComet c y u a e).stores = s.stores := rfl
@[simp] theorem State.offerComet_outs (c y u a e : Nat) : (s.offerComet c y u a e).outs = s.outs := rfl
@[simp] theorem State.offerComet_tlbs (c y u a e : Nat) : (s.offerComet c y u a e).tlbs = s.tlbs := rfl
@[simp] theorem State.offerComet_walks (c y u a e : Nat) : (s.offerComet c y u a e).walks = s.walks := rfl
@[simp] theorem State.offerComet_walkFaults (c y u a e : Nat) : (s.offerComet c y u a e).walkFaults = s.walkFaults := rfl
@[simp] theorem State.offerComet_monitors (c y u a e : Nat) : (s.offerComet c y u a e).monitors = s.monitors := rfl
@[simp] theorem State.offerComet_armed (c y u a e : Nat) : (s.offerComet c y u a e).armed = s.armed := rfl
@[simp] theorem State.offerComet_vfs (c y u a e : Nat) : (s.offerComet c y u a e).vfs = s.vfs := rfl
@[simp] theorem State.offerComet_monq (c y u a e : Nat) : (s.offerComet c y u a e).monq = s.monq := rfl
@[simp] theorem State.offerComet_slices (c y u a e : Nat) : (s.offerComet c y u a e).slices = s.slices := rfl
@[simp] theorem State.offerComet_wayMask (c y u a e : Nat) : (s.offerComet c y u a e).wayMask = s.wayMask := rfl
@[simp] theorem State.offerComet_biasBase (c y u a e : Nat) : (s.offerComet c y u a e).biasBase = s.biasBase := rfl
@[simp] theorem State.offerComet_devBias (c y u a e : Nat) : (s.offerComet c y u a e).devBias = s.devBias := rfl
@[simp] theorem State.offerComet_hostcap (c y u a e : Nat) : (s.offerComet c y u a e).hostcap = s.hostcap := rfl
@[simp] theorem State.offerComet_blocks (c y u a e : Nat) : (s.offerComet c y u a e).blocks = s.blocks := rfl
@[simp] theorem State.offerComet_comets (c y u a e : Nat) : (s.offerComet c y u a e).comets = s.comets := rfl
@[simp] theorem State.offerComet_gangs (c y u a e : Nat) : (s.offerComet c y u a e).gangs = s.gangs := rfl
@[simp] theorem State.offerComet_dbars (c y u a e : Nat) : (s.offerComet c y u a e).dbars = s.dbars := rfl
@[simp] theorem State.offerComet_parts (c y u a e : Nat) : (s.offerComet c y u a e).parts = s.parts := rfl
@[simp] theorem State.offerComet_facets (c y u a e : Nat) : (s.offerComet c y u a e).facets = s.facets := rfl
@[simp] theorem State.offerComet_engines (c y u a e : Nat) : (s.offerComet c y u a e).engines = s.engines := rfl
@[simp] theorem State.offerComet_parks (c y u a e : Nat) : (s.offerComet c y u a e).parks = s.parks := rfl
@[simp] theorem State.offerComet_counters (c y u a e : Nat) : (s.offerComet c y u a e).counters = s.counters := rfl
@[simp] theorem State.offerComet_sampled (c y u a e : Nat) : (s.offerComet c y u a e).sampled = s.sampled := rfl
@[simp] theorem State.offerComet_merids (c y u a e : Nat) : (s.offerComet c y u a e).merids = s.merids := rfl
@[simp] theorem State.offerComet_telIrqs (c y u a e : Nat) : (s.offerComet c y u a e).telIrqs = s.telIrqs := rfl
@[simp] theorem State.offerComet_linkErrs (c y u a e : Nat) : (s.offerComet c y u a e).linkErrs = s.linkErrs := rfl
@[simp] theorem State.offerComet_nodes (c y u a e : Nat) : (s.offerComet c y u a e).nodes = s.nodes := rfl
@[simp] theorem State.offerComet_queues (c y u a e : Nat) : (s.offerComet c y u a e).queues = s.queues := rfl
@[simp] theorem State.offerComet_reserve (c y u a e : Nat) : (s.offerComet c y u a e).reserve = s.reserve := rfl
@[simp] theorem State.offerComet_migrs (c y u a e : Nat) : (s.offerComet c y u a e).migrs = s.migrs := rfl
@[simp] theorem State.offerComet_charges (c y u a e : Nat) : (s.offerComet c y u a e).charges = s.charges := rfl
@[simp] theorem State.offerComet_served (c y u a e : Nat) : (s.offerComet c y u a e).served = s.served := rfl
@[simp] theorem State.offerComet_asks (c y u a e : Nat) : (s.offerComet c y u a e).asks = s.asks := rfl
@[simp] theorem State.offerComet_cmode (c y u a e : Nat) : (s.offerComet c y u a e).cmode = s.cmode := rfl
@[simp] theorem State.offerComet_cmerr (c y u a e : Nat) : (s.offerComet c y u a e).cmerr = s.cmerr := rfl
@[simp] theorem State.offerComet_fabid (c y u a e : Nat) : (s.offerComet c y u a e).fabid = s.fabid := rfl
@[simp] theorem State.offerComet_routes (c y u a e : Nat) : (s.offerComet c y u a e).routes = s.routes := rfl
@[simp] theorem State.offerComet_exports (c y u a e : Nat) : (s.offerComet c y u a e).exports = s.exports := rfl
@[simp] theorem State.offerComet_fports (c y u a e : Nat) : (s.offerComet c y u a e).fports = s.fports := rfl
@[simp] theorem State.offerComet_fabSent (c y u a e : Nat) : (s.offerComet c y u a e).fabSent = s.fabSent := rfl
@[simp] theorem State.offerComet_bootst (c y u a e : Nat) : (s.offerComet c y u a e).bootst = s.bootst := rfl
@[simp] theorem State.offerComet_integrity (c y u a e : Nat) : (s.offerComet c y u a e).integrity = s.integrity := rfl
@[simp] theorem State.offerComet_answers (c y u a e : Nat) : (s.offerComet c y u a e).answers = s.answers := rfl

/-! ## reportPark -/

@[simp] theorem State.reportPark_agenda (b y g k l : Nat) (t : TrapState) : (s.reportPark b y g k l t).agenda = s.agenda := rfl
@[simp] theorem State.reportPark_focus (b y g k l : Nat) (t : TrapState) : (s.reportPark b y g k l t).focus = s.focus := rfl
@[simp] theorem State.reportPark_freeCtr (b y g k l : Nat) (t : TrapState) : (s.reportPark b y g k l t).freeCtr = s.freeCtr := rfl
@[simp] theorem State.reportPark_nextId (b y g k l : Nat) (t : TrapState) : (s.reportPark b y g k l t).nextId = s.nextId := rfl
@[simp] theorem State.reportPark_now (b y g k l : Nat) (t : TrapState) : (s.reportPark b y g k l t).now = s.now := rfl
@[simp] theorem State.reportPark_mem (b y g k l : Nat) (t : TrapState) : (s.reportPark b y g k l t).mem = s.mem := rfl
@[simp] theorem State.reportPark_poison (b y g k l : Nat) (t : TrapState) : (s.reportPark b y g k l t).poison = s.poison := rfl
@[simp] theorem State.reportPark_owners (b y g k l : Nat) (t : TrapState) : (s.reportPark b y g k l t).owners = s.owners := rfl
@[simp] theorem State.reportPark_copies (b y g k l : Nat) (t : TrapState) : (s.reportPark b y g k l t).copies = s.copies := rfl
@[simp] theorem State.reportPark_ops (b y g k l : Nat) (t : TrapState) : (s.reportPark b y g k l t).ops = s.ops := rfl
@[simp] theorem State.reportPark_stores (b y g k l : Nat) (t : TrapState) : (s.reportPark b y g k l t).stores = s.stores := rfl
@[simp] theorem State.reportPark_outs (b y g k l : Nat) (t : TrapState) : (s.reportPark b y g k l t).outs = s.outs := rfl
@[simp] theorem State.reportPark_tlbs (b y g k l : Nat) (t : TrapState) : (s.reportPark b y g k l t).tlbs = s.tlbs := rfl
@[simp] theorem State.reportPark_walks (b y g k l : Nat) (t : TrapState) : (s.reportPark b y g k l t).walks = s.walks := rfl
@[simp] theorem State.reportPark_walkFaults (b y g k l : Nat) (t : TrapState) : (s.reportPark b y g k l t).walkFaults = s.walkFaults := rfl
@[simp] theorem State.reportPark_monitors (b y g k l : Nat) (t : TrapState) : (s.reportPark b y g k l t).monitors = s.monitors := rfl
@[simp] theorem State.reportPark_armed (b y g k l : Nat) (t : TrapState) : (s.reportPark b y g k l t).armed = s.armed := rfl
@[simp] theorem State.reportPark_vfs (b y g k l : Nat) (t : TrapState) : (s.reportPark b y g k l t).vfs = s.vfs := rfl
@[simp] theorem State.reportPark_monq (b y g k l : Nat) (t : TrapState) : (s.reportPark b y g k l t).monq = s.monq := rfl
@[simp] theorem State.reportPark_slices (b y g k l : Nat) (t : TrapState) : (s.reportPark b y g k l t).slices = s.slices := rfl
@[simp] theorem State.reportPark_wayMask (b y g k l : Nat) (t : TrapState) : (s.reportPark b y g k l t).wayMask = s.wayMask := rfl
@[simp] theorem State.reportPark_biasBase (b y g k l : Nat) (t : TrapState) : (s.reportPark b y g k l t).biasBase = s.biasBase := rfl
@[simp] theorem State.reportPark_devBias (b y g k l : Nat) (t : TrapState) : (s.reportPark b y g k l t).devBias = s.devBias := rfl
@[simp] theorem State.reportPark_hostcap (b y g k l : Nat) (t : TrapState) : (s.reportPark b y g k l t).hostcap = s.hostcap := rfl
@[simp] theorem State.reportPark_blocks (b y g k l : Nat) (t : TrapState) : (s.reportPark b y g k l t).blocks = s.blocks := rfl
@[simp] theorem State.reportPark_comets (b y g k l : Nat) (t : TrapState) : (s.reportPark b y g k l t).comets = s.comets := rfl
@[simp] theorem State.reportPark_gangs (b y g k l : Nat) (t : TrapState) : (s.reportPark b y g k l t).gangs = s.gangs := rfl
@[simp] theorem State.reportPark_dbars (b y g k l : Nat) (t : TrapState) : (s.reportPark b y g k l t).dbars = s.dbars := rfl
@[simp] theorem State.reportPark_parts (b y g k l : Nat) (t : TrapState) : (s.reportPark b y g k l t).parts = s.parts := rfl
@[simp] theorem State.reportPark_facets (b y g k l : Nat) (t : TrapState) : (s.reportPark b y g k l t).facets = s.facets := rfl
@[simp] theorem State.reportPark_engines (b y g k l : Nat) (t : TrapState) : (s.reportPark b y g k l t).engines = s.engines := rfl
@[simp] theorem State.reportPark_taps (b y g k l : Nat) (t : TrapState) : (s.reportPark b y g k l t).taps = s.taps := rfl
@[simp] theorem State.reportPark_counters (b y g k l : Nat) (t : TrapState) : (s.reportPark b y g k l t).counters = s.counters := rfl
@[simp] theorem State.reportPark_sampled (b y g k l : Nat) (t : TrapState) : (s.reportPark b y g k l t).sampled = s.sampled := rfl
@[simp] theorem State.reportPark_merids (b y g k l : Nat) (t : TrapState) : (s.reportPark b y g k l t).merids = s.merids := rfl
@[simp] theorem State.reportPark_telIrqs (b y g k l : Nat) (t : TrapState) : (s.reportPark b y g k l t).telIrqs = s.telIrqs := rfl
@[simp] theorem State.reportPark_linkErrs (b y g k l : Nat) (t : TrapState) : (s.reportPark b y g k l t).linkErrs = s.linkErrs := rfl
@[simp] theorem State.reportPark_nodes (b y g k l : Nat) (t : TrapState) : (s.reportPark b y g k l t).nodes = s.nodes := rfl
@[simp] theorem State.reportPark_queues (b y g k l : Nat) (t : TrapState) : (s.reportPark b y g k l t).queues = s.queues := rfl
@[simp] theorem State.reportPark_reserve (b y g k l : Nat) (t : TrapState) : (s.reportPark b y g k l t).reserve = s.reserve := rfl
@[simp] theorem State.reportPark_migrs (b y g k l : Nat) (t : TrapState) : (s.reportPark b y g k l t).migrs = s.migrs := rfl
@[simp] theorem State.reportPark_charges (b y g k l : Nat) (t : TrapState) : (s.reportPark b y g k l t).charges = s.charges := rfl
@[simp] theorem State.reportPark_served (b y g k l : Nat) (t : TrapState) : (s.reportPark b y g k l t).served = s.served := rfl
@[simp] theorem State.reportPark_asks (b y g k l : Nat) (t : TrapState) : (s.reportPark b y g k l t).asks = s.asks := rfl
@[simp] theorem State.reportPark_cmode (b y g k l : Nat) (t : TrapState) : (s.reportPark b y g k l t).cmode = s.cmode := rfl
@[simp] theorem State.reportPark_cmerr (b y g k l : Nat) (t : TrapState) : (s.reportPark b y g k l t).cmerr = s.cmerr := rfl
@[simp] theorem State.reportPark_fabid (b y g k l : Nat) (t : TrapState) : (s.reportPark b y g k l t).fabid = s.fabid := rfl
@[simp] theorem State.reportPark_routes (b y g k l : Nat) (t : TrapState) : (s.reportPark b y g k l t).routes = s.routes := rfl
@[simp] theorem State.reportPark_exports (b y g k l : Nat) (t : TrapState) : (s.reportPark b y g k l t).exports = s.exports := rfl
@[simp] theorem State.reportPark_fports (b y g k l : Nat) (t : TrapState) : (s.reportPark b y g k l t).fports = s.fports := rfl
@[simp] theorem State.reportPark_fabSent (b y g k l : Nat) (t : TrapState) : (s.reportPark b y g k l t).fabSent = s.fabSent := rfl
@[simp] theorem State.reportPark_bootst (b y g k l : Nat) (t : TrapState) : (s.reportPark b y g k l t).bootst = s.bootst := rfl
@[simp] theorem State.reportPark_integrity (b y g k l : Nat) (t : TrapState) : (s.reportPark b y g k l t).integrity = s.integrity := rfl
@[simp] theorem State.reportPark_answers (b y g k l : Nat) (t : TrapState) : (s.reportPark b y g k l t).answers = s.answers := rfl

/-! ## tickFree -/

@[simp] theorem State.tickFree_agenda : s.tickFree.agenda = s.agenda := rfl
@[simp] theorem State.tickFree_focus : s.tickFree.focus = s.focus := rfl
@[simp] theorem State.tickFree_nextId : s.tickFree.nextId = s.nextId := rfl
@[simp] theorem State.tickFree_now : s.tickFree.now = s.now := rfl
@[simp] theorem State.tickFree_mem : s.tickFree.mem = s.mem := rfl
@[simp] theorem State.tickFree_poison : s.tickFree.poison = s.poison := rfl
@[simp] theorem State.tickFree_owners : s.tickFree.owners = s.owners := rfl
@[simp] theorem State.tickFree_copies : s.tickFree.copies = s.copies := rfl
@[simp] theorem State.tickFree_ops : s.tickFree.ops = s.ops := rfl
@[simp] theorem State.tickFree_stores : s.tickFree.stores = s.stores := rfl
@[simp] theorem State.tickFree_outs : s.tickFree.outs = s.outs := rfl
@[simp] theorem State.tickFree_tlbs : s.tickFree.tlbs = s.tlbs := rfl
@[simp] theorem State.tickFree_walks : s.tickFree.walks = s.walks := rfl
@[simp] theorem State.tickFree_walkFaults : s.tickFree.walkFaults = s.walkFaults := rfl
@[simp] theorem State.tickFree_monitors : s.tickFree.monitors = s.monitors := rfl
@[simp] theorem State.tickFree_armed : s.tickFree.armed = s.armed := rfl
@[simp] theorem State.tickFree_vfs : s.tickFree.vfs = s.vfs := rfl
@[simp] theorem State.tickFree_monq : s.tickFree.monq = s.monq := rfl
@[simp] theorem State.tickFree_slices : s.tickFree.slices = s.slices := rfl
@[simp] theorem State.tickFree_wayMask : s.tickFree.wayMask = s.wayMask := rfl
@[simp] theorem State.tickFree_biasBase : s.tickFree.biasBase = s.biasBase := rfl
@[simp] theorem State.tickFree_devBias : s.tickFree.devBias = s.devBias := rfl
@[simp] theorem State.tickFree_hostcap : s.tickFree.hostcap = s.hostcap := rfl
@[simp] theorem State.tickFree_blocks : s.tickFree.blocks = s.blocks := rfl
@[simp] theorem State.tickFree_comets : s.tickFree.comets = s.comets := rfl
@[simp] theorem State.tickFree_gangs : s.tickFree.gangs = s.gangs := rfl
@[simp] theorem State.tickFree_dbars : s.tickFree.dbars = s.dbars := rfl
@[simp] theorem State.tickFree_parts : s.tickFree.parts = s.parts := rfl
@[simp] theorem State.tickFree_facets : s.tickFree.facets = s.facets := rfl
@[simp] theorem State.tickFree_engines : s.tickFree.engines = s.engines := rfl
@[simp] theorem State.tickFree_taps : s.tickFree.taps = s.taps := rfl
@[simp] theorem State.tickFree_parks : s.tickFree.parks = s.parks := rfl
@[simp] theorem State.tickFree_counters : s.tickFree.counters = s.counters := rfl
@[simp] theorem State.tickFree_sampled : s.tickFree.sampled = s.sampled := rfl
@[simp] theorem State.tickFree_merids : s.tickFree.merids = s.merids := rfl
@[simp] theorem State.tickFree_telIrqs : s.tickFree.telIrqs = s.telIrqs := rfl
@[simp] theorem State.tickFree_linkErrs : s.tickFree.linkErrs = s.linkErrs := rfl
@[simp] theorem State.tickFree_nodes : s.tickFree.nodes = s.nodes := rfl
@[simp] theorem State.tickFree_queues : s.tickFree.queues = s.queues := rfl
@[simp] theorem State.tickFree_reserve : s.tickFree.reserve = s.reserve := rfl
@[simp] theorem State.tickFree_migrs : s.tickFree.migrs = s.migrs := rfl
@[simp] theorem State.tickFree_charges : s.tickFree.charges = s.charges := rfl
@[simp] theorem State.tickFree_served : s.tickFree.served = s.served := rfl
@[simp] theorem State.tickFree_asks : s.tickFree.asks = s.asks := rfl
@[simp] theorem State.tickFree_cmode : s.tickFree.cmode = s.cmode := rfl
@[simp] theorem State.tickFree_cmerr : s.tickFree.cmerr = s.cmerr := rfl
@[simp] theorem State.tickFree_fabid : s.tickFree.fabid = s.fabid := rfl
@[simp] theorem State.tickFree_routes : s.tickFree.routes = s.routes := rfl
@[simp] theorem State.tickFree_exports : s.tickFree.exports = s.exports := rfl
@[simp] theorem State.tickFree_fports : s.tickFree.fports = s.fports := rfl
@[simp] theorem State.tickFree_fabSent : s.tickFree.fabSent = s.fabSent := rfl
@[simp] theorem State.tickFree_bootst : s.tickFree.bootst = s.bootst := rfl
@[simp] theorem State.tickFree_integrity : s.tickFree.integrity = s.integrity := rfl
@[simp] theorem State.tickFree_answers : s.tickFree.answers = s.answers := rfl

/-! ## count -/

@[simp] theorem State.count_agenda (c i n : Nat) : (s.count c i n).agenda = s.agenda := rfl
@[simp] theorem State.count_focus (c i n : Nat) : (s.count c i n).focus = s.focus := rfl
@[simp] theorem State.count_freeCtr (c i n : Nat) : (s.count c i n).freeCtr = s.freeCtr := rfl
@[simp] theorem State.count_nextId (c i n : Nat) : (s.count c i n).nextId = s.nextId := rfl
@[simp] theorem State.count_now (c i n : Nat) : (s.count c i n).now = s.now := rfl
@[simp] theorem State.count_mem (c i n : Nat) : (s.count c i n).mem = s.mem := rfl
@[simp] theorem State.count_poison (c i n : Nat) : (s.count c i n).poison = s.poison := rfl
@[simp] theorem State.count_owners (c i n : Nat) : (s.count c i n).owners = s.owners := rfl
@[simp] theorem State.count_copies (c i n : Nat) : (s.count c i n).copies = s.copies := rfl
@[simp] theorem State.count_ops (c i n : Nat) : (s.count c i n).ops = s.ops := rfl
@[simp] theorem State.count_stores (c i n : Nat) : (s.count c i n).stores = s.stores := rfl
@[simp] theorem State.count_outs (c i n : Nat) : (s.count c i n).outs = s.outs := rfl
@[simp] theorem State.count_tlbs (c i n : Nat) : (s.count c i n).tlbs = s.tlbs := rfl
@[simp] theorem State.count_walks (c i n : Nat) : (s.count c i n).walks = s.walks := rfl
@[simp] theorem State.count_walkFaults (c i n : Nat) : (s.count c i n).walkFaults = s.walkFaults := rfl
@[simp] theorem State.count_monitors (c i n : Nat) : (s.count c i n).monitors = s.monitors := rfl
@[simp] theorem State.count_armed (c i n : Nat) : (s.count c i n).armed = s.armed := rfl
@[simp] theorem State.count_vfs (c i n : Nat) : (s.count c i n).vfs = s.vfs := rfl
@[simp] theorem State.count_monq (c i n : Nat) : (s.count c i n).monq = s.monq := rfl
@[simp] theorem State.count_slices (c i n : Nat) : (s.count c i n).slices = s.slices := rfl
@[simp] theorem State.count_wayMask (c i n : Nat) : (s.count c i n).wayMask = s.wayMask := rfl
@[simp] theorem State.count_biasBase (c i n : Nat) : (s.count c i n).biasBase = s.biasBase := rfl
@[simp] theorem State.count_devBias (c i n : Nat) : (s.count c i n).devBias = s.devBias := rfl
@[simp] theorem State.count_hostcap (c i n : Nat) : (s.count c i n).hostcap = s.hostcap := rfl
@[simp] theorem State.count_blocks (c i n : Nat) : (s.count c i n).blocks = s.blocks := rfl
@[simp] theorem State.count_comets (c i n : Nat) : (s.count c i n).comets = s.comets := rfl
@[simp] theorem State.count_gangs (c i n : Nat) : (s.count c i n).gangs = s.gangs := rfl
@[simp] theorem State.count_dbars (c i n : Nat) : (s.count c i n).dbars = s.dbars := rfl
@[simp] theorem State.count_parts (c i n : Nat) : (s.count c i n).parts = s.parts := rfl
@[simp] theorem State.count_facets (c i n : Nat) : (s.count c i n).facets = s.facets := rfl
@[simp] theorem State.count_engines (c i n : Nat) : (s.count c i n).engines = s.engines := rfl
@[simp] theorem State.count_taps (c i n : Nat) : (s.count c i n).taps = s.taps := rfl
@[simp] theorem State.count_parks (c i n : Nat) : (s.count c i n).parks = s.parks := rfl
@[simp] theorem State.count_sampled (c i n : Nat) : (s.count c i n).sampled = s.sampled := rfl
@[simp] theorem State.count_merids (c i n : Nat) : (s.count c i n).merids = s.merids := rfl
@[simp] theorem State.count_telIrqs (c i n : Nat) : (s.count c i n).telIrqs = s.telIrqs := rfl
@[simp] theorem State.count_linkErrs (c i n : Nat) : (s.count c i n).linkErrs = s.linkErrs := rfl
@[simp] theorem State.count_nodes (c i n : Nat) : (s.count c i n).nodes = s.nodes := rfl
@[simp] theorem State.count_queues (c i n : Nat) : (s.count c i n).queues = s.queues := rfl
@[simp] theorem State.count_reserve (c i n : Nat) : (s.count c i n).reserve = s.reserve := rfl
@[simp] theorem State.count_migrs (c i n : Nat) : (s.count c i n).migrs = s.migrs := rfl
@[simp] theorem State.count_charges (c i n : Nat) : (s.count c i n).charges = s.charges := rfl
@[simp] theorem State.count_served (c i n : Nat) : (s.count c i n).served = s.served := rfl
@[simp] theorem State.count_asks (c i n : Nat) : (s.count c i n).asks = s.asks := rfl
@[simp] theorem State.count_cmode (c i n : Nat) : (s.count c i n).cmode = s.cmode := rfl
@[simp] theorem State.count_cmerr (c i n : Nat) : (s.count c i n).cmerr = s.cmerr := rfl
@[simp] theorem State.count_fabid (c i n : Nat) : (s.count c i n).fabid = s.fabid := rfl
@[simp] theorem State.count_routes (c i n : Nat) : (s.count c i n).routes = s.routes := rfl
@[simp] theorem State.count_exports (c i n : Nat) : (s.count c i n).exports = s.exports := rfl
@[simp] theorem State.count_fports (c i n : Nat) : (s.count c i n).fports = s.fports := rfl
@[simp] theorem State.count_fabSent (c i n : Nat) : (s.count c i n).fabSent = s.fabSent := rfl
@[simp] theorem State.count_bootst (c i n : Nat) : (s.count c i n).bootst = s.bootst := rfl
@[simp] theorem State.count_integrity (c i n : Nat) : (s.count c i n).integrity = s.integrity := rfl
@[simp] theorem State.count_answers (c i n : Nat) : (s.count c i n).answers = s.answers := rfl

/-! ## writeMem -/

@[simp] theorem State.writeMem_agenda (a n v : Nat) : (s.writeMem a n v).agenda = s.agenda := rfl
@[simp] theorem State.writeMem_focus (a n v : Nat) : (s.writeMem a n v).focus = s.focus := rfl
@[simp] theorem State.writeMem_freeCtr (a n v : Nat) : (s.writeMem a n v).freeCtr = s.freeCtr := rfl
@[simp] theorem State.writeMem_nextId (a n v : Nat) : (s.writeMem a n v).nextId = s.nextId := rfl
@[simp] theorem State.writeMem_now (a n v : Nat) : (s.writeMem a n v).now = s.now := rfl
@[simp] theorem State.writeMem_poison (a n v : Nat) : (s.writeMem a n v).poison = s.poison := rfl
@[simp] theorem State.writeMem_owners (a n v : Nat) : (s.writeMem a n v).owners = s.owners := rfl
@[simp] theorem State.writeMem_copies (a n v : Nat) : (s.writeMem a n v).copies = s.copies := rfl
@[simp] theorem State.writeMem_ops (a n v : Nat) : (s.writeMem a n v).ops = s.ops := rfl
@[simp] theorem State.writeMem_stores (a n v : Nat) : (s.writeMem a n v).stores = s.stores := rfl
@[simp] theorem State.writeMem_outs (a n v : Nat) : (s.writeMem a n v).outs = s.outs := rfl
@[simp] theorem State.writeMem_tlbs (a n v : Nat) : (s.writeMem a n v).tlbs = s.tlbs := rfl
@[simp] theorem State.writeMem_walks (a n v : Nat) : (s.writeMem a n v).walks = s.walks := rfl
@[simp] theorem State.writeMem_walkFaults (a n v : Nat) : (s.writeMem a n v).walkFaults = s.walkFaults := rfl
@[simp] theorem State.writeMem_monitors (a n v : Nat) : (s.writeMem a n v).monitors = s.monitors := rfl
@[simp] theorem State.writeMem_armed (a n v : Nat) : (s.writeMem a n v).armed = s.armed := rfl
@[simp] theorem State.writeMem_vfs (a n v : Nat) : (s.writeMem a n v).vfs = s.vfs := rfl
@[simp] theorem State.writeMem_monq (a n v : Nat) : (s.writeMem a n v).monq = s.monq := rfl
@[simp] theorem State.writeMem_slices (a n v : Nat) : (s.writeMem a n v).slices = s.slices := rfl
@[simp] theorem State.writeMem_wayMask (a n v : Nat) : (s.writeMem a n v).wayMask = s.wayMask := rfl
@[simp] theorem State.writeMem_biasBase (a n v : Nat) : (s.writeMem a n v).biasBase = s.biasBase := rfl
@[simp] theorem State.writeMem_devBias (a n v : Nat) : (s.writeMem a n v).devBias = s.devBias := rfl
@[simp] theorem State.writeMem_hostcap (a n v : Nat) : (s.writeMem a n v).hostcap = s.hostcap := rfl
@[simp] theorem State.writeMem_blocks (a n v : Nat) : (s.writeMem a n v).blocks = s.blocks := rfl
@[simp] theorem State.writeMem_comets (a n v : Nat) : (s.writeMem a n v).comets = s.comets := rfl
@[simp] theorem State.writeMem_gangs (a n v : Nat) : (s.writeMem a n v).gangs = s.gangs := rfl
@[simp] theorem State.writeMem_dbars (a n v : Nat) : (s.writeMem a n v).dbars = s.dbars := rfl
@[simp] theorem State.writeMem_parts (a n v : Nat) : (s.writeMem a n v).parts = s.parts := rfl
@[simp] theorem State.writeMem_facets (a n v : Nat) : (s.writeMem a n v).facets = s.facets := rfl
@[simp] theorem State.writeMem_engines (a n v : Nat) : (s.writeMem a n v).engines = s.engines := rfl
@[simp] theorem State.writeMem_taps (a n v : Nat) : (s.writeMem a n v).taps = s.taps := rfl
@[simp] theorem State.writeMem_parks (a n v : Nat) : (s.writeMem a n v).parks = s.parks := rfl
@[simp] theorem State.writeMem_counters (a n v : Nat) : (s.writeMem a n v).counters = s.counters := rfl
@[simp] theorem State.writeMem_sampled (a n v : Nat) : (s.writeMem a n v).sampled = s.sampled := rfl
@[simp] theorem State.writeMem_merids (a n v : Nat) : (s.writeMem a n v).merids = s.merids := rfl
@[simp] theorem State.writeMem_telIrqs (a n v : Nat) : (s.writeMem a n v).telIrqs = s.telIrqs := rfl
@[simp] theorem State.writeMem_linkErrs (a n v : Nat) : (s.writeMem a n v).linkErrs = s.linkErrs := rfl
@[simp] theorem State.writeMem_nodes (a n v : Nat) : (s.writeMem a n v).nodes = s.nodes := rfl
@[simp] theorem State.writeMem_queues (a n v : Nat) : (s.writeMem a n v).queues = s.queues := rfl
@[simp] theorem State.writeMem_reserve (a n v : Nat) : (s.writeMem a n v).reserve = s.reserve := rfl
@[simp] theorem State.writeMem_migrs (a n v : Nat) : (s.writeMem a n v).migrs = s.migrs := rfl
@[simp] theorem State.writeMem_charges (a n v : Nat) : (s.writeMem a n v).charges = s.charges := rfl
@[simp] theorem State.writeMem_served (a n v : Nat) : (s.writeMem a n v).served = s.served := rfl
@[simp] theorem State.writeMem_asks (a n v : Nat) : (s.writeMem a n v).asks = s.asks := rfl
@[simp] theorem State.writeMem_cmode (a n v : Nat) : (s.writeMem a n v).cmode = s.cmode := rfl
@[simp] theorem State.writeMem_cmerr (a n v : Nat) : (s.writeMem a n v).cmerr = s.cmerr := rfl
@[simp] theorem State.writeMem_fabid (a n v : Nat) : (s.writeMem a n v).fabid = s.fabid := rfl
@[simp] theorem State.writeMem_routes (a n v : Nat) : (s.writeMem a n v).routes = s.routes := rfl
@[simp] theorem State.writeMem_exports (a n v : Nat) : (s.writeMem a n v).exports = s.exports := rfl
@[simp] theorem State.writeMem_fports (a n v : Nat) : (s.writeMem a n v).fports = s.fports := rfl
@[simp] theorem State.writeMem_fabSent (a n v : Nat) : (s.writeMem a n v).fabSent = s.fabSent := rfl
@[simp] theorem State.writeMem_bootst (a n v : Nat) : (s.writeMem a n v).bootst = s.bootst := rfl
@[simp] theorem State.writeMem_integrity (a n v : Nat) : (s.writeMem a n v).integrity = s.integrity := rfl
@[simp] theorem State.writeMem_answers (a n v : Nat) : (s.writeMem a n v).answers = s.answers := rfl

/-! ## setPc -/

@[simp] theorem State.setPc_agenda (pc : Dword) : (s.setPc pc).agenda = s.agenda := by
  unfold State.setPc; split <;> rfl
@[simp] theorem State.setPc_focus (pc : Dword) : (s.setPc pc).focus = s.focus := by
  unfold State.setPc; split <;> rfl
@[simp] theorem State.setPc_freeCtr (pc : Dword) : (s.setPc pc).freeCtr = s.freeCtr := by
  unfold State.setPc; split <;> rfl
@[simp] theorem State.setPc_nextId (pc : Dword) : (s.setPc pc).nextId = s.nextId := by
  unfold State.setPc; split <;> rfl
@[simp] theorem State.setPc_now (pc : Dword) : (s.setPc pc).now = s.now := by
  unfold State.setPc; split <;> rfl
@[simp] theorem State.setPc_mem (pc : Dword) : (s.setPc pc).mem = s.mem := by
  unfold State.setPc; split <;> rfl
@[simp] theorem State.setPc_poison (pc : Dword) : (s.setPc pc).poison = s.poison := by
  unfold State.setPc; split <;> rfl
@[simp] theorem State.setPc_owners (pc : Dword) : (s.setPc pc).owners = s.owners := by
  unfold State.setPc; split <;> rfl
@[simp] theorem State.setPc_copies (pc : Dword) : (s.setPc pc).copies = s.copies := by
  unfold State.setPc; split <;> rfl
@[simp] theorem State.setPc_ops (pc : Dword) : (s.setPc pc).ops = s.ops := by
  unfold State.setPc; split <;> rfl
@[simp] theorem State.setPc_stores (pc : Dword) : (s.setPc pc).stores = s.stores := by
  unfold State.setPc; split <;> rfl
@[simp] theorem State.setPc_outs (pc : Dword) : (s.setPc pc).outs = s.outs := by
  unfold State.setPc; split <;> rfl
@[simp] theorem State.setPc_tlbs (pc : Dword) : (s.setPc pc).tlbs = s.tlbs := by
  unfold State.setPc; split <;> rfl
@[simp] theorem State.setPc_walks (pc : Dword) : (s.setPc pc).walks = s.walks := by
  unfold State.setPc; split <;> rfl
@[simp] theorem State.setPc_walkFaults (pc : Dword) : (s.setPc pc).walkFaults = s.walkFaults := by
  unfold State.setPc; split <;> rfl
@[simp] theorem State.setPc_monitors (pc : Dword) : (s.setPc pc).monitors = s.monitors := by
  unfold State.setPc; split <;> rfl
@[simp] theorem State.setPc_armed (pc : Dword) : (s.setPc pc).armed = s.armed := by
  unfold State.setPc; split <;> rfl
@[simp] theorem State.setPc_vfs (pc : Dword) : (s.setPc pc).vfs = s.vfs := by
  unfold State.setPc; split <;> rfl
@[simp] theorem State.setPc_monq (pc : Dword) : (s.setPc pc).monq = s.monq := by
  unfold State.setPc; split <;> rfl
@[simp] theorem State.setPc_slices (pc : Dword) : (s.setPc pc).slices = s.slices := by
  unfold State.setPc; split <;> rfl
@[simp] theorem State.setPc_wayMask (pc : Dword) : (s.setPc pc).wayMask = s.wayMask := by
  unfold State.setPc; split <;> rfl
@[simp] theorem State.setPc_biasBase (pc : Dword) : (s.setPc pc).biasBase = s.biasBase := by
  unfold State.setPc; split <;> rfl
@[simp] theorem State.setPc_devBias (pc : Dword) : (s.setPc pc).devBias = s.devBias := by
  unfold State.setPc; split <;> rfl
@[simp] theorem State.setPc_hostcap (pc : Dword) : (s.setPc pc).hostcap = s.hostcap := by
  unfold State.setPc; split <;> rfl
@[simp] theorem State.setPc_gangs (pc : Dword) : (s.setPc pc).gangs = s.gangs := by
  unfold State.setPc; split <;> rfl
@[simp] theorem State.setPc_dbars (pc : Dword) : (s.setPc pc).dbars = s.dbars := by
  unfold State.setPc; split <;> rfl
@[simp] theorem State.setPc_parts (pc : Dword) : (s.setPc pc).parts = s.parts := by
  unfold State.setPc; split <;> rfl
@[simp] theorem State.setPc_facets (pc : Dword) : (s.setPc pc).facets = s.facets := by
  unfold State.setPc; split <;> rfl
@[simp] theorem State.setPc_engines (pc : Dword) : (s.setPc pc).engines = s.engines := by
  unfold State.setPc; split <;> rfl
@[simp] theorem State.setPc_taps (pc : Dword) : (s.setPc pc).taps = s.taps := by
  unfold State.setPc; split <;> rfl
@[simp] theorem State.setPc_parks (pc : Dword) : (s.setPc pc).parks = s.parks := by
  unfold State.setPc; split <;> rfl
@[simp] theorem State.setPc_counters (pc : Dword) : (s.setPc pc).counters = s.counters := by
  unfold State.setPc; split <;> rfl
@[simp] theorem State.setPc_sampled (pc : Dword) : (s.setPc pc).sampled = s.sampled := by
  unfold State.setPc; split <;> rfl
@[simp] theorem State.setPc_merids (pc : Dword) : (s.setPc pc).merids = s.merids := by
  unfold State.setPc; split <;> rfl
@[simp] theorem State.setPc_telIrqs (pc : Dword) : (s.setPc pc).telIrqs = s.telIrqs := by
  unfold State.setPc; split <;> rfl
@[simp] theorem State.setPc_linkErrs (pc : Dword) : (s.setPc pc).linkErrs = s.linkErrs := by
  unfold State.setPc; split <;> rfl
@[simp] theorem State.setPc_nodes (pc : Dword) : (s.setPc pc).nodes = s.nodes := by
  unfold State.setPc; split <;> rfl
@[simp] theorem State.setPc_queues (pc : Dword) : (s.setPc pc).queues = s.queues := by
  unfold State.setPc; split <;> rfl
@[simp] theorem State.setPc_reserve (pc : Dword) : (s.setPc pc).reserve = s.reserve := by
  unfold State.setPc; split <;> rfl
@[simp] theorem State.setPc_migrs (pc : Dword) : (s.setPc pc).migrs = s.migrs := by
  unfold State.setPc; split <;> rfl
@[simp] theorem State.setPc_charges (pc : Dword) : (s.setPc pc).charges = s.charges := by
  unfold State.setPc; split <;> rfl
@[simp] theorem State.setPc_served (pc : Dword) : (s.setPc pc).served = s.served := by
  unfold State.setPc; split <;> rfl
@[simp] theorem State.setPc_asks (pc : Dword) : (s.setPc pc).asks = s.asks := by
  unfold State.setPc; split <;> rfl
@[simp] theorem State.setPc_cmode (pc : Dword) : (s.setPc pc).cmode = s.cmode := by
  unfold State.setPc; split <;> rfl
@[simp] theorem State.setPc_cmerr (pc : Dword) : (s.setPc pc).cmerr = s.cmerr := by
  unfold State.setPc; split <;> rfl
@[simp] theorem State.setPc_fabid (pc : Dword) : (s.setPc pc).fabid = s.fabid := by
  unfold State.setPc; split <;> rfl
@[simp] theorem State.setPc_routes (pc : Dword) : (s.setPc pc).routes = s.routes := by
  unfold State.setPc; split <;> rfl
@[simp] theorem State.setPc_exports (pc : Dword) : (s.setPc pc).exports = s.exports := by
  unfold State.setPc; split <;> rfl
@[simp] theorem State.setPc_fports (pc : Dword) : (s.setPc pc).fports = s.fports := by
  unfold State.setPc; split <;> rfl
@[simp] theorem State.setPc_fabSent (pc : Dword) : (s.setPc pc).fabSent = s.fabSent := by
  unfold State.setPc; split <;> rfl
@[simp] theorem State.setPc_bootst (pc : Dword) : (s.setPc pc).bootst = s.bootst := by
  unfold State.setPc; split <;> rfl
@[simp] theorem State.setPc_integrity (pc : Dword) : (s.setPc pc).integrity = s.integrity := by
  unfold State.setPc; split <;> rfl
@[simp] theorem State.setPc_answers (pc : Dword) : (s.setPc pc).answers = s.answers := by
  unfold State.setPc; split <;> rfl

/-! ## skip -/

@[simp] theorem State.skip_agenda (n : Nat) : (s.skip n).agenda = s.agenda := State.setPc_agenda s _
@[simp] theorem State.skip_focus (n : Nat) : (s.skip n).focus = s.focus := State.setPc_focus s _
@[simp] theorem State.skip_freeCtr (n : Nat) : (s.skip n).freeCtr = s.freeCtr := State.setPc_freeCtr s _
@[simp] theorem State.skip_nextId (n : Nat) : (s.skip n).nextId = s.nextId := State.setPc_nextId s _
@[simp] theorem State.skip_now (n : Nat) : (s.skip n).now = s.now := State.setPc_now s _
@[simp] theorem State.skip_mem (n : Nat) : (s.skip n).mem = s.mem := State.setPc_mem s _
@[simp] theorem State.skip_poison (n : Nat) : (s.skip n).poison = s.poison := State.setPc_poison s _
@[simp] theorem State.skip_owners (n : Nat) : (s.skip n).owners = s.owners := State.setPc_owners s _
@[simp] theorem State.skip_copies (n : Nat) : (s.skip n).copies = s.copies := State.setPc_copies s _
@[simp] theorem State.skip_ops (n : Nat) : (s.skip n).ops = s.ops := State.setPc_ops s _
@[simp] theorem State.skip_stores (n : Nat) : (s.skip n).stores = s.stores := State.setPc_stores s _
@[simp] theorem State.skip_outs (n : Nat) : (s.skip n).outs = s.outs := State.setPc_outs s _
@[simp] theorem State.skip_tlbs (n : Nat) : (s.skip n).tlbs = s.tlbs := State.setPc_tlbs s _
@[simp] theorem State.skip_walks (n : Nat) : (s.skip n).walks = s.walks := State.setPc_walks s _
@[simp] theorem State.skip_walkFaults (n : Nat) : (s.skip n).walkFaults = s.walkFaults := State.setPc_walkFaults s _
@[simp] theorem State.skip_monitors (n : Nat) : (s.skip n).monitors = s.monitors := State.setPc_monitors s _
@[simp] theorem State.skip_armed (n : Nat) : (s.skip n).armed = s.armed := State.setPc_armed s _
@[simp] theorem State.skip_vfs (n : Nat) : (s.skip n).vfs = s.vfs := State.setPc_vfs s _
@[simp] theorem State.skip_monq (n : Nat) : (s.skip n).monq = s.monq := State.setPc_monq s _
@[simp] theorem State.skip_slices (n : Nat) : (s.skip n).slices = s.slices := State.setPc_slices s _
@[simp] theorem State.skip_wayMask (n : Nat) : (s.skip n).wayMask = s.wayMask := State.setPc_wayMask s _
@[simp] theorem State.skip_biasBase (n : Nat) : (s.skip n).biasBase = s.biasBase := State.setPc_biasBase s _
@[simp] theorem State.skip_devBias (n : Nat) : (s.skip n).devBias = s.devBias := State.setPc_devBias s _
@[simp] theorem State.skip_hostcap (n : Nat) : (s.skip n).hostcap = s.hostcap := State.setPc_hostcap s _
@[simp] theorem State.skip_gangs (n : Nat) : (s.skip n).gangs = s.gangs := State.setPc_gangs s _
@[simp] theorem State.skip_dbars (n : Nat) : (s.skip n).dbars = s.dbars := State.setPc_dbars s _
@[simp] theorem State.skip_parts (n : Nat) : (s.skip n).parts = s.parts := State.setPc_parts s _
@[simp] theorem State.skip_facets (n : Nat) : (s.skip n).facets = s.facets := State.setPc_facets s _
@[simp] theorem State.skip_engines (n : Nat) : (s.skip n).engines = s.engines := State.setPc_engines s _
@[simp] theorem State.skip_taps (n : Nat) : (s.skip n).taps = s.taps := State.setPc_taps s _
@[simp] theorem State.skip_parks (n : Nat) : (s.skip n).parks = s.parks := State.setPc_parks s _
@[simp] theorem State.skip_counters (n : Nat) : (s.skip n).counters = s.counters := State.setPc_counters s _
@[simp] theorem State.skip_sampled (n : Nat) : (s.skip n).sampled = s.sampled := State.setPc_sampled s _
@[simp] theorem State.skip_merids (n : Nat) : (s.skip n).merids = s.merids := State.setPc_merids s _
@[simp] theorem State.skip_telIrqs (n : Nat) : (s.skip n).telIrqs = s.telIrqs := State.setPc_telIrqs s _
@[simp] theorem State.skip_linkErrs (n : Nat) : (s.skip n).linkErrs = s.linkErrs := State.setPc_linkErrs s _
@[simp] theorem State.skip_nodes (n : Nat) : (s.skip n).nodes = s.nodes := State.setPc_nodes s _
@[simp] theorem State.skip_queues (n : Nat) : (s.skip n).queues = s.queues := State.setPc_queues s _
@[simp] theorem State.skip_reserve (n : Nat) : (s.skip n).reserve = s.reserve := State.setPc_reserve s _
@[simp] theorem State.skip_migrs (n : Nat) : (s.skip n).migrs = s.migrs := State.setPc_migrs s _
@[simp] theorem State.skip_charges (n : Nat) : (s.skip n).charges = s.charges := State.setPc_charges s _
@[simp] theorem State.skip_served (n : Nat) : (s.skip n).served = s.served := State.setPc_served s _
@[simp] theorem State.skip_asks (n : Nat) : (s.skip n).asks = s.asks := State.setPc_asks s _
@[simp] theorem State.skip_cmode (n : Nat) : (s.skip n).cmode = s.cmode := State.setPc_cmode s _
@[simp] theorem State.skip_cmerr (n : Nat) : (s.skip n).cmerr = s.cmerr := State.setPc_cmerr s _
@[simp] theorem State.skip_fabid (n : Nat) : (s.skip n).fabid = s.fabid := State.setPc_fabid s _
@[simp] theorem State.skip_routes (n : Nat) : (s.skip n).routes = s.routes := State.setPc_routes s _
@[simp] theorem State.skip_exports (n : Nat) : (s.skip n).exports = s.exports := State.setPc_exports s _
@[simp] theorem State.skip_fports (n : Nat) : (s.skip n).fports = s.fports := State.setPc_fports s _
@[simp] theorem State.skip_fabSent (n : Nat) : (s.skip n).fabSent = s.fabSent := State.setPc_fabSent s _
@[simp] theorem State.skip_bootst (n : Nat) : (s.skip n).bootst = s.bootst := State.setPc_bootst s _
@[simp] theorem State.skip_integrity (n : Nat) : (s.skip n).integrity = s.integrity := State.setPc_integrity s _
@[simp] theorem State.skip_answers (n : Nat) : (s.skip n).answers = s.answers := State.setPc_answers s _

/-! ## wrV -/

@[simp] theorem State.wrV_agenda (m l : Nat) (v : Word) : (s.wrV m l v).agenda = s.agenda := by
  unfold State.wrV; split <;> rfl
@[simp] theorem State.wrV_focus (m l : Nat) (v : Word) : (s.wrV m l v).focus = s.focus := by
  unfold State.wrV; split <;> rfl
@[simp] theorem State.wrV_freeCtr (m l : Nat) (v : Word) : (s.wrV m l v).freeCtr = s.freeCtr := by
  unfold State.wrV; split <;> rfl
@[simp] theorem State.wrV_nextId (m l : Nat) (v : Word) : (s.wrV m l v).nextId = s.nextId := by
  unfold State.wrV; split <;> rfl
@[simp] theorem State.wrV_now (m l : Nat) (v : Word) : (s.wrV m l v).now = s.now := by
  unfold State.wrV; split <;> rfl
@[simp] theorem State.wrV_mem (m l : Nat) (v : Word) : (s.wrV m l v).mem = s.mem := by
  unfold State.wrV; split <;> rfl
@[simp] theorem State.wrV_poison (m l : Nat) (v : Word) : (s.wrV m l v).poison = s.poison := by
  unfold State.wrV; split <;> rfl
@[simp] theorem State.wrV_owners (m l : Nat) (v : Word) : (s.wrV m l v).owners = s.owners := by
  unfold State.wrV; split <;> rfl
@[simp] theorem State.wrV_copies (m l : Nat) (v : Word) : (s.wrV m l v).copies = s.copies := by
  unfold State.wrV; split <;> rfl
@[simp] theorem State.wrV_ops (m l : Nat) (v : Word) : (s.wrV m l v).ops = s.ops := by
  unfold State.wrV; split <;> rfl
@[simp] theorem State.wrV_stores (m l : Nat) (v : Word) : (s.wrV m l v).stores = s.stores := by
  unfold State.wrV; split <;> rfl
@[simp] theorem State.wrV_outs (m l : Nat) (v : Word) : (s.wrV m l v).outs = s.outs := by
  unfold State.wrV; split <;> rfl
@[simp] theorem State.wrV_tlbs (m l : Nat) (v : Word) : (s.wrV m l v).tlbs = s.tlbs := by
  unfold State.wrV; split <;> rfl
@[simp] theorem State.wrV_walks (m l : Nat) (v : Word) : (s.wrV m l v).walks = s.walks := by
  unfold State.wrV; split <;> rfl
@[simp] theorem State.wrV_walkFaults (m l : Nat) (v : Word) : (s.wrV m l v).walkFaults = s.walkFaults := by
  unfold State.wrV; split <;> rfl
@[simp] theorem State.wrV_monitors (m l : Nat) (v : Word) : (s.wrV m l v).monitors = s.monitors := by
  unfold State.wrV; split <;> rfl
@[simp] theorem State.wrV_armed (m l : Nat) (v : Word) : (s.wrV m l v).armed = s.armed := by
  unfold State.wrV; split <;> rfl
@[simp] theorem State.wrV_vfs (m l : Nat) (v : Word) : (s.wrV m l v).vfs = s.vfs := by
  unfold State.wrV; split <;> rfl
@[simp] theorem State.wrV_monq (m l : Nat) (v : Word) : (s.wrV m l v).monq = s.monq := by
  unfold State.wrV; split <;> rfl
@[simp] theorem State.wrV_slices (m l : Nat) (v : Word) : (s.wrV m l v).slices = s.slices := by
  unfold State.wrV; split <;> rfl
@[simp] theorem State.wrV_wayMask (m l : Nat) (v : Word) : (s.wrV m l v).wayMask = s.wayMask := by
  unfold State.wrV; split <;> rfl
@[simp] theorem State.wrV_biasBase (m l : Nat) (v : Word) : (s.wrV m l v).biasBase = s.biasBase := by
  unfold State.wrV; split <;> rfl
@[simp] theorem State.wrV_devBias (m l : Nat) (v : Word) : (s.wrV m l v).devBias = s.devBias := by
  unfold State.wrV; split <;> rfl
@[simp] theorem State.wrV_hostcap (m l : Nat) (v : Word) : (s.wrV m l v).hostcap = s.hostcap := by
  unfold State.wrV; split <;> rfl
@[simp] theorem State.wrV_gangs (m l : Nat) (v : Word) : (s.wrV m l v).gangs = s.gangs := by
  unfold State.wrV; split <;> rfl
@[simp] theorem State.wrV_dbars (m l : Nat) (v : Word) : (s.wrV m l v).dbars = s.dbars := by
  unfold State.wrV; split <;> rfl
@[simp] theorem State.wrV_parts (m l : Nat) (v : Word) : (s.wrV m l v).parts = s.parts := by
  unfold State.wrV; split <;> rfl
@[simp] theorem State.wrV_facets (m l : Nat) (v : Word) : (s.wrV m l v).facets = s.facets := by
  unfold State.wrV; split <;> rfl
@[simp] theorem State.wrV_engines (m l : Nat) (v : Word) : (s.wrV m l v).engines = s.engines := by
  unfold State.wrV; split <;> rfl
@[simp] theorem State.wrV_taps (m l : Nat) (v : Word) : (s.wrV m l v).taps = s.taps := by
  unfold State.wrV; split <;> rfl
@[simp] theorem State.wrV_parks (m l : Nat) (v : Word) : (s.wrV m l v).parks = s.parks := by
  unfold State.wrV; split <;> rfl
@[simp] theorem State.wrV_counters (m l : Nat) (v : Word) : (s.wrV m l v).counters = s.counters := by
  unfold State.wrV; split <;> rfl
@[simp] theorem State.wrV_sampled (m l : Nat) (v : Word) : (s.wrV m l v).sampled = s.sampled := by
  unfold State.wrV; split <;> rfl
@[simp] theorem State.wrV_merids (m l : Nat) (v : Word) : (s.wrV m l v).merids = s.merids := by
  unfold State.wrV; split <;> rfl
@[simp] theorem State.wrV_telIrqs (m l : Nat) (v : Word) : (s.wrV m l v).telIrqs = s.telIrqs := by
  unfold State.wrV; split <;> rfl
@[simp] theorem State.wrV_linkErrs (m l : Nat) (v : Word) : (s.wrV m l v).linkErrs = s.linkErrs := by
  unfold State.wrV; split <;> rfl
@[simp] theorem State.wrV_nodes (m l : Nat) (v : Word) : (s.wrV m l v).nodes = s.nodes := by
  unfold State.wrV; split <;> rfl
@[simp] theorem State.wrV_queues (m l : Nat) (v : Word) : (s.wrV m l v).queues = s.queues := by
  unfold State.wrV; split <;> rfl
@[simp] theorem State.wrV_reserve (m l : Nat) (v : Word) : (s.wrV m l v).reserve = s.reserve := by
  unfold State.wrV; split <;> rfl
@[simp] theorem State.wrV_migrs (m l : Nat) (v : Word) : (s.wrV m l v).migrs = s.migrs := by
  unfold State.wrV; split <;> rfl
@[simp] theorem State.wrV_charges (m l : Nat) (v : Word) : (s.wrV m l v).charges = s.charges := by
  unfold State.wrV; split <;> rfl
@[simp] theorem State.wrV_served (m l : Nat) (v : Word) : (s.wrV m l v).served = s.served := by
  unfold State.wrV; split <;> rfl
@[simp] theorem State.wrV_asks (m l : Nat) (v : Word) : (s.wrV m l v).asks = s.asks := by
  unfold State.wrV; split <;> rfl
@[simp] theorem State.wrV_cmode (m l : Nat) (v : Word) : (s.wrV m l v).cmode = s.cmode := by
  unfold State.wrV; split <;> rfl
@[simp] theorem State.wrV_cmerr (m l : Nat) (v : Word) : (s.wrV m l v).cmerr = s.cmerr := by
  unfold State.wrV; split <;> rfl
@[simp] theorem State.wrV_fabid (m l : Nat) (v : Word) : (s.wrV m l v).fabid = s.fabid := by
  unfold State.wrV; split <;> rfl
@[simp] theorem State.wrV_routes (m l : Nat) (v : Word) : (s.wrV m l v).routes = s.routes := by
  unfold State.wrV; split <;> rfl
@[simp] theorem State.wrV_exports (m l : Nat) (v : Word) : (s.wrV m l v).exports = s.exports := by
  unfold State.wrV; split <;> rfl
@[simp] theorem State.wrV_fports (m l : Nat) (v : Word) : (s.wrV m l v).fports = s.fports := by
  unfold State.wrV; split <;> rfl
@[simp] theorem State.wrV_fabSent (m l : Nat) (v : Word) : (s.wrV m l v).fabSent = s.fabSent := by
  unfold State.wrV; split <;> rfl
@[simp] theorem State.wrV_bootst (m l : Nat) (v : Word) : (s.wrV m l v).bootst = s.bootst := by
  unfold State.wrV; split <;> rfl
@[simp] theorem State.wrV_integrity (m l : Nat) (v : Word) : (s.wrV m l v).integrity = s.integrity := by
  unfold State.wrV; split <;> rfl
@[simp] theorem State.wrV_answers (m l : Nat) (v : Word) : (s.wrV m l v).answers = s.answers := by
  unfold State.wrV; split <;> rfl

/-! ## wrS -/

@[simp] theorem State.wrS_agenda (m : Nat) (v : Word) : (s.wrS m v).agenda = s.agenda := by
  unfold State.wrS; split <;> rfl
@[simp] theorem State.wrS_focus (m : Nat) (v : Word) : (s.wrS m v).focus = s.focus := by
  unfold State.wrS; split <;> rfl
@[simp] theorem State.wrS_freeCtr (m : Nat) (v : Word) : (s.wrS m v).freeCtr = s.freeCtr := by
  unfold State.wrS; split <;> rfl
@[simp] theorem State.wrS_nextId (m : Nat) (v : Word) : (s.wrS m v).nextId = s.nextId := by
  unfold State.wrS; split <;> rfl
@[simp] theorem State.wrS_now (m : Nat) (v : Word) : (s.wrS m v).now = s.now := by
  unfold State.wrS; split <;> rfl
@[simp] theorem State.wrS_mem (m : Nat) (v : Word) : (s.wrS m v).mem = s.mem := by
  unfold State.wrS; split <;> rfl
@[simp] theorem State.wrS_poison (m : Nat) (v : Word) : (s.wrS m v).poison = s.poison := by
  unfold State.wrS; split <;> rfl
@[simp] theorem State.wrS_owners (m : Nat) (v : Word) : (s.wrS m v).owners = s.owners := by
  unfold State.wrS; split <;> rfl
@[simp] theorem State.wrS_copies (m : Nat) (v : Word) : (s.wrS m v).copies = s.copies := by
  unfold State.wrS; split <;> rfl
@[simp] theorem State.wrS_ops (m : Nat) (v : Word) : (s.wrS m v).ops = s.ops := by
  unfold State.wrS; split <;> rfl
@[simp] theorem State.wrS_stores (m : Nat) (v : Word) : (s.wrS m v).stores = s.stores := by
  unfold State.wrS; split <;> rfl
@[simp] theorem State.wrS_outs (m : Nat) (v : Word) : (s.wrS m v).outs = s.outs := by
  unfold State.wrS; split <;> rfl
@[simp] theorem State.wrS_tlbs (m : Nat) (v : Word) : (s.wrS m v).tlbs = s.tlbs := by
  unfold State.wrS; split <;> rfl
@[simp] theorem State.wrS_walks (m : Nat) (v : Word) : (s.wrS m v).walks = s.walks := by
  unfold State.wrS; split <;> rfl
@[simp] theorem State.wrS_walkFaults (m : Nat) (v : Word) : (s.wrS m v).walkFaults = s.walkFaults := by
  unfold State.wrS; split <;> rfl
@[simp] theorem State.wrS_monitors (m : Nat) (v : Word) : (s.wrS m v).monitors = s.monitors := by
  unfold State.wrS; split <;> rfl
@[simp] theorem State.wrS_armed (m : Nat) (v : Word) : (s.wrS m v).armed = s.armed := by
  unfold State.wrS; split <;> rfl
@[simp] theorem State.wrS_vfs (m : Nat) (v : Word) : (s.wrS m v).vfs = s.vfs := by
  unfold State.wrS; split <;> rfl
@[simp] theorem State.wrS_monq (m : Nat) (v : Word) : (s.wrS m v).monq = s.monq := by
  unfold State.wrS; split <;> rfl
@[simp] theorem State.wrS_slices (m : Nat) (v : Word) : (s.wrS m v).slices = s.slices := by
  unfold State.wrS; split <;> rfl
@[simp] theorem State.wrS_wayMask (m : Nat) (v : Word) : (s.wrS m v).wayMask = s.wayMask := by
  unfold State.wrS; split <;> rfl
@[simp] theorem State.wrS_biasBase (m : Nat) (v : Word) : (s.wrS m v).biasBase = s.biasBase := by
  unfold State.wrS; split <;> rfl
@[simp] theorem State.wrS_devBias (m : Nat) (v : Word) : (s.wrS m v).devBias = s.devBias := by
  unfold State.wrS; split <;> rfl
@[simp] theorem State.wrS_hostcap (m : Nat) (v : Word) : (s.wrS m v).hostcap = s.hostcap := by
  unfold State.wrS; split <;> rfl
@[simp] theorem State.wrS_gangs (m : Nat) (v : Word) : (s.wrS m v).gangs = s.gangs := by
  unfold State.wrS; split <;> rfl
@[simp] theorem State.wrS_dbars (m : Nat) (v : Word) : (s.wrS m v).dbars = s.dbars := by
  unfold State.wrS; split <;> rfl
@[simp] theorem State.wrS_parts (m : Nat) (v : Word) : (s.wrS m v).parts = s.parts := by
  unfold State.wrS; split <;> rfl
@[simp] theorem State.wrS_facets (m : Nat) (v : Word) : (s.wrS m v).facets = s.facets := by
  unfold State.wrS; split <;> rfl
@[simp] theorem State.wrS_engines (m : Nat) (v : Word) : (s.wrS m v).engines = s.engines := by
  unfold State.wrS; split <;> rfl
@[simp] theorem State.wrS_taps (m : Nat) (v : Word) : (s.wrS m v).taps = s.taps := by
  unfold State.wrS; split <;> rfl
@[simp] theorem State.wrS_parks (m : Nat) (v : Word) : (s.wrS m v).parks = s.parks := by
  unfold State.wrS; split <;> rfl
@[simp] theorem State.wrS_counters (m : Nat) (v : Word) : (s.wrS m v).counters = s.counters := by
  unfold State.wrS; split <;> rfl
@[simp] theorem State.wrS_sampled (m : Nat) (v : Word) : (s.wrS m v).sampled = s.sampled := by
  unfold State.wrS; split <;> rfl
@[simp] theorem State.wrS_merids (m : Nat) (v : Word) : (s.wrS m v).merids = s.merids := by
  unfold State.wrS; split <;> rfl
@[simp] theorem State.wrS_telIrqs (m : Nat) (v : Word) : (s.wrS m v).telIrqs = s.telIrqs := by
  unfold State.wrS; split <;> rfl
@[simp] theorem State.wrS_linkErrs (m : Nat) (v : Word) : (s.wrS m v).linkErrs = s.linkErrs := by
  unfold State.wrS; split <;> rfl
@[simp] theorem State.wrS_nodes (m : Nat) (v : Word) : (s.wrS m v).nodes = s.nodes := by
  unfold State.wrS; split <;> rfl
@[simp] theorem State.wrS_queues (m : Nat) (v : Word) : (s.wrS m v).queues = s.queues := by
  unfold State.wrS; split <;> rfl
@[simp] theorem State.wrS_reserve (m : Nat) (v : Word) : (s.wrS m v).reserve = s.reserve := by
  unfold State.wrS; split <;> rfl
@[simp] theorem State.wrS_migrs (m : Nat) (v : Word) : (s.wrS m v).migrs = s.migrs := by
  unfold State.wrS; split <;> rfl
@[simp] theorem State.wrS_charges (m : Nat) (v : Word) : (s.wrS m v).charges = s.charges := by
  unfold State.wrS; split <;> rfl
@[simp] theorem State.wrS_served (m : Nat) (v : Word) : (s.wrS m v).served = s.served := by
  unfold State.wrS; split <;> rfl
@[simp] theorem State.wrS_asks (m : Nat) (v : Word) : (s.wrS m v).asks = s.asks := by
  unfold State.wrS; split <;> rfl
@[simp] theorem State.wrS_cmode (m : Nat) (v : Word) : (s.wrS m v).cmode = s.cmode := by
  unfold State.wrS; split <;> rfl
@[simp] theorem State.wrS_cmerr (m : Nat) (v : Word) : (s.wrS m v).cmerr = s.cmerr := by
  unfold State.wrS; split <;> rfl
@[simp] theorem State.wrS_fabid (m : Nat) (v : Word) : (s.wrS m v).fabid = s.fabid := by
  unfold State.wrS; split <;> rfl
@[simp] theorem State.wrS_routes (m : Nat) (v : Word) : (s.wrS m v).routes = s.routes := by
  unfold State.wrS; split <;> rfl
@[simp] theorem State.wrS_exports (m : Nat) (v : Word) : (s.wrS m v).exports = s.exports := by
  unfold State.wrS; split <;> rfl
@[simp] theorem State.wrS_fports (m : Nat) (v : Word) : (s.wrS m v).fports = s.fports := by
  unfold State.wrS; split <;> rfl
@[simp] theorem State.wrS_fabSent (m : Nat) (v : Word) : (s.wrS m v).fabSent = s.fabSent := by
  unfold State.wrS; split <;> rfl
@[simp] theorem State.wrS_bootst (m : Nat) (v : Word) : (s.wrS m v).bootst = s.bootst := by
  unfold State.wrS; split <;> rfl
@[simp] theorem State.wrS_integrity (m : Nat) (v : Word) : (s.wrS m v).integrity = s.integrity := by
  unfold State.wrS; split <;> rfl
@[simp] theorem State.wrS_answers (m : Nat) (v : Word) : (s.wrS m v).answers = s.answers := by
  unfold State.wrS; split <;> rfl

/-! ## wrPair -/

@[simp] theorem State.wrPair_agenda (k : PairIx) (l : Nat) (b : Bool) : (s.wrPair k l b).agenda = s.agenda := by
  unfold State.wrPair; split
  · rfl
  · split <;> rfl
@[simp] theorem State.wrPair_focus (k : PairIx) (l : Nat) (b : Bool) : (s.wrPair k l b).focus = s.focus := by
  unfold State.wrPair; split
  · rfl
  · split <;> rfl
@[simp] theorem State.wrPair_freeCtr (k : PairIx) (l : Nat) (b : Bool) : (s.wrPair k l b).freeCtr = s.freeCtr := by
  unfold State.wrPair; split
  · rfl
  · split <;> rfl
@[simp] theorem State.wrPair_nextId (k : PairIx) (l : Nat) (b : Bool) : (s.wrPair k l b).nextId = s.nextId := by
  unfold State.wrPair; split
  · rfl
  · split <;> rfl
@[simp] theorem State.wrPair_now (k : PairIx) (l : Nat) (b : Bool) : (s.wrPair k l b).now = s.now := by
  unfold State.wrPair; split
  · rfl
  · split <;> rfl
@[simp] theorem State.wrPair_mem (k : PairIx) (l : Nat) (b : Bool) : (s.wrPair k l b).mem = s.mem := by
  unfold State.wrPair; split
  · rfl
  · split <;> rfl
@[simp] theorem State.wrPair_poison (k : PairIx) (l : Nat) (b : Bool) : (s.wrPair k l b).poison = s.poison := by
  unfold State.wrPair; split
  · rfl
  · split <;> rfl
@[simp] theorem State.wrPair_owners (k : PairIx) (l : Nat) (b : Bool) : (s.wrPair k l b).owners = s.owners := by
  unfold State.wrPair; split
  · rfl
  · split <;> rfl
@[simp] theorem State.wrPair_copies (k : PairIx) (l : Nat) (b : Bool) : (s.wrPair k l b).copies = s.copies := by
  unfold State.wrPair; split
  · rfl
  · split <;> rfl
@[simp] theorem State.wrPair_ops (k : PairIx) (l : Nat) (b : Bool) : (s.wrPair k l b).ops = s.ops := by
  unfold State.wrPair; split
  · rfl
  · split <;> rfl
@[simp] theorem State.wrPair_stores (k : PairIx) (l : Nat) (b : Bool) : (s.wrPair k l b).stores = s.stores := by
  unfold State.wrPair; split
  · rfl
  · split <;> rfl
@[simp] theorem State.wrPair_outs (k : PairIx) (l : Nat) (b : Bool) : (s.wrPair k l b).outs = s.outs := by
  unfold State.wrPair; split
  · rfl
  · split <;> rfl
@[simp] theorem State.wrPair_tlbs (k : PairIx) (l : Nat) (b : Bool) : (s.wrPair k l b).tlbs = s.tlbs := by
  unfold State.wrPair; split
  · rfl
  · split <;> rfl
@[simp] theorem State.wrPair_walks (k : PairIx) (l : Nat) (b : Bool) : (s.wrPair k l b).walks = s.walks := by
  unfold State.wrPair; split
  · rfl
  · split <;> rfl
@[simp] theorem State.wrPair_walkFaults (k : PairIx) (l : Nat) (b : Bool) : (s.wrPair k l b).walkFaults = s.walkFaults := by
  unfold State.wrPair; split
  · rfl
  · split <;> rfl
@[simp] theorem State.wrPair_monitors (k : PairIx) (l : Nat) (b : Bool) : (s.wrPair k l b).monitors = s.monitors := by
  unfold State.wrPair; split
  · rfl
  · split <;> rfl
@[simp] theorem State.wrPair_armed (k : PairIx) (l : Nat) (b : Bool) : (s.wrPair k l b).armed = s.armed := by
  unfold State.wrPair; split
  · rfl
  · split <;> rfl
@[simp] theorem State.wrPair_vfs (k : PairIx) (l : Nat) (b : Bool) : (s.wrPair k l b).vfs = s.vfs := by
  unfold State.wrPair; split
  · rfl
  · split <;> rfl
@[simp] theorem State.wrPair_monq (k : PairIx) (l : Nat) (b : Bool) : (s.wrPair k l b).monq = s.monq := by
  unfold State.wrPair; split
  · rfl
  · split <;> rfl
@[simp] theorem State.wrPair_slices (k : PairIx) (l : Nat) (b : Bool) : (s.wrPair k l b).slices = s.slices := by
  unfold State.wrPair; split
  · rfl
  · split <;> rfl
@[simp] theorem State.wrPair_wayMask (k : PairIx) (l : Nat) (b : Bool) : (s.wrPair k l b).wayMask = s.wayMask := by
  unfold State.wrPair; split
  · rfl
  · split <;> rfl
@[simp] theorem State.wrPair_biasBase (k : PairIx) (l : Nat) (b : Bool) : (s.wrPair k l b).biasBase = s.biasBase := by
  unfold State.wrPair; split
  · rfl
  · split <;> rfl
@[simp] theorem State.wrPair_devBias (k : PairIx) (l : Nat) (b : Bool) : (s.wrPair k l b).devBias = s.devBias := by
  unfold State.wrPair; split
  · rfl
  · split <;> rfl
@[simp] theorem State.wrPair_hostcap (k : PairIx) (l : Nat) (b : Bool) : (s.wrPair k l b).hostcap = s.hostcap := by
  unfold State.wrPair; split
  · rfl
  · split <;> rfl
@[simp] theorem State.wrPair_gangs (k : PairIx) (l : Nat) (b : Bool) : (s.wrPair k l b).gangs = s.gangs := by
  unfold State.wrPair; split
  · rfl
  · split <;> rfl
@[simp] theorem State.wrPair_dbars (k : PairIx) (l : Nat) (b : Bool) : (s.wrPair k l b).dbars = s.dbars := by
  unfold State.wrPair; split
  · rfl
  · split <;> rfl
@[simp] theorem State.wrPair_parts (k : PairIx) (l : Nat) (b : Bool) : (s.wrPair k l b).parts = s.parts := by
  unfold State.wrPair; split
  · rfl
  · split <;> rfl
@[simp] theorem State.wrPair_facets (k : PairIx) (l : Nat) (b : Bool) : (s.wrPair k l b).facets = s.facets := by
  unfold State.wrPair; split
  · rfl
  · split <;> rfl
@[simp] theorem State.wrPair_engines (k : PairIx) (l : Nat) (b : Bool) : (s.wrPair k l b).engines = s.engines := by
  unfold State.wrPair; split
  · rfl
  · split <;> rfl
@[simp] theorem State.wrPair_taps (k : PairIx) (l : Nat) (b : Bool) : (s.wrPair k l b).taps = s.taps := by
  unfold State.wrPair; split
  · rfl
  · split <;> rfl
@[simp] theorem State.wrPair_parks (k : PairIx) (l : Nat) (b : Bool) : (s.wrPair k l b).parks = s.parks := by
  unfold State.wrPair; split
  · rfl
  · split <;> rfl
@[simp] theorem State.wrPair_counters (k : PairIx) (l : Nat) (b : Bool) : (s.wrPair k l b).counters = s.counters := by
  unfold State.wrPair; split
  · rfl
  · split <;> rfl
@[simp] theorem State.wrPair_sampled (k : PairIx) (l : Nat) (b : Bool) : (s.wrPair k l b).sampled = s.sampled := by
  unfold State.wrPair; split
  · rfl
  · split <;> rfl
@[simp] theorem State.wrPair_merids (k : PairIx) (l : Nat) (b : Bool) : (s.wrPair k l b).merids = s.merids := by
  unfold State.wrPair; split
  · rfl
  · split <;> rfl
@[simp] theorem State.wrPair_telIrqs (k : PairIx) (l : Nat) (b : Bool) : (s.wrPair k l b).telIrqs = s.telIrqs := by
  unfold State.wrPair; split
  · rfl
  · split <;> rfl
@[simp] theorem State.wrPair_linkErrs (k : PairIx) (l : Nat) (b : Bool) : (s.wrPair k l b).linkErrs = s.linkErrs := by
  unfold State.wrPair; split
  · rfl
  · split <;> rfl
@[simp] theorem State.wrPair_nodes (k : PairIx) (l : Nat) (b : Bool) : (s.wrPair k l b).nodes = s.nodes := by
  unfold State.wrPair; split
  · rfl
  · split <;> rfl
@[simp] theorem State.wrPair_queues (k : PairIx) (l : Nat) (b : Bool) : (s.wrPair k l b).queues = s.queues := by
  unfold State.wrPair; split
  · rfl
  · split <;> rfl
@[simp] theorem State.wrPair_reserve (k : PairIx) (l : Nat) (b : Bool) : (s.wrPair k l b).reserve = s.reserve := by
  unfold State.wrPair; split
  · rfl
  · split <;> rfl
@[simp] theorem State.wrPair_migrs (k : PairIx) (l : Nat) (b : Bool) : (s.wrPair k l b).migrs = s.migrs := by
  unfold State.wrPair; split
  · rfl
  · split <;> rfl
@[simp] theorem State.wrPair_charges (k : PairIx) (l : Nat) (b : Bool) : (s.wrPair k l b).charges = s.charges := by
  unfold State.wrPair; split
  · rfl
  · split <;> rfl
@[simp] theorem State.wrPair_served (k : PairIx) (l : Nat) (b : Bool) : (s.wrPair k l b).served = s.served := by
  unfold State.wrPair; split
  · rfl
  · split <;> rfl
@[simp] theorem State.wrPair_asks (k : PairIx) (l : Nat) (b : Bool) : (s.wrPair k l b).asks = s.asks := by
  unfold State.wrPair; split
  · rfl
  · split <;> rfl
@[simp] theorem State.wrPair_cmode (k : PairIx) (l : Nat) (b : Bool) : (s.wrPair k l b).cmode = s.cmode := by
  unfold State.wrPair; split
  · rfl
  · split <;> rfl
@[simp] theorem State.wrPair_cmerr (k : PairIx) (l : Nat) (b : Bool) : (s.wrPair k l b).cmerr = s.cmerr := by
  unfold State.wrPair; split
  · rfl
  · split <;> rfl
@[simp] theorem State.wrPair_fabid (k : PairIx) (l : Nat) (b : Bool) : (s.wrPair k l b).fabid = s.fabid := by
  unfold State.wrPair; split
  · rfl
  · split <;> rfl
@[simp] theorem State.wrPair_routes (k : PairIx) (l : Nat) (b : Bool) : (s.wrPair k l b).routes = s.routes := by
  unfold State.wrPair; split
  · rfl
  · split <;> rfl
@[simp] theorem State.wrPair_exports (k : PairIx) (l : Nat) (b : Bool) : (s.wrPair k l b).exports = s.exports := by
  unfold State.wrPair; split
  · rfl
  · split <;> rfl
@[simp] theorem State.wrPair_fports (k : PairIx) (l : Nat) (b : Bool) : (s.wrPair k l b).fports = s.fports := by
  unfold State.wrPair; split
  · rfl
  · split <;> rfl
@[simp] theorem State.wrPair_fabSent (k : PairIx) (l : Nat) (b : Bool) : (s.wrPair k l b).fabSent = s.fabSent := by
  unfold State.wrPair; split
  · rfl
  · split <;> rfl
@[simp] theorem State.wrPair_bootst (k : PairIx) (l : Nat) (b : Bool) : (s.wrPair k l b).bootst = s.bootst := by
  unfold State.wrPair; split
  · rfl
  · split <;> rfl
@[simp] theorem State.wrPair_integrity (k : PairIx) (l : Nat) (b : Bool) : (s.wrPair k l b).integrity = s.integrity := by
  unfold State.wrPair; split
  · rfl
  · split <;> rfl
@[simp] theorem State.wrPair_answers (k : PairIx) (l : Nat) (b : Bool) : (s.wrPair k l b).answers = s.answers := by
  unfold State.wrPair; split
  · rfl
  · split <;> rfl

end Sys2Proof.Machine
end

