-- ==== Sys2Proof/Laws/Table.lean ====
section
/-!
SUPPORT. Laws/Table.lean: reading a table after each of its operations.
-/

namespace Sys2Proof.Machine

variable {α : Type}

@[simp] theorem Table.find_nil (i : Nat) : Table.find ([] : Table α) i = none := rfl

theorem Table.find_set_self (t : Table α) (i : Nat) (v : α) : (t.set i v).find i = some v := by
  induction t with
  | nil => simp [Table.set, Table.find]
  | cons e t ih =>
    obtain ⟨k, w⟩ := e
    simp only [Table.set]
    split
    · simp [Table.find]
    · split
      · simp [Table.find]
      · next h => simp [Table.find, Ne.symm h, ih]

theorem Table.find_set_other (t : Table α) (i j : Nat) (v : α) (h : j ≠ i) : (t.set i v).find j = t.find j := by
  induction t with
  | nil => simp [Table.set, Table.find, Ne.symm h]
  | cons e t ih =>
    obtain ⟨k, w⟩ := e
    simp only [Table.set]
    split
    · simp [Table.find, Ne.symm h]
    · split
      · next _ hk => subst hk; simp [Table.find, Ne.symm h]
      · simp [Table.find, ih]

theorem Table.find_modify_self (t : Table α) (i : Nat) (f : α → α) : (t.modify i f).find i = (t.find i).map f := by
  induction t with
  | nil => rfl
  | cons e t ih =>
    obtain ⟨k, w⟩ := e
    simp only [Table.modify]
    split
    · next h => subst h; simp [Table.find]
    · next h => simp [Table.find, h, ih]

theorem Table.find_modify_other (t : Table α) (i j : Nat) (f : α → α) (h : j ≠ i) : (t.modify i f).find j = t.find j := by
  induction t with
  | nil => rfl
  | cons e t ih =>
    obtain ⟨k, w⟩ := e
    simp only [Table.modify]
    split
    · next hk => subst hk; simp [Table.find, Ne.symm h]
    · simp [Table.find, ih]

theorem Table.find_erase_self (t : Table α) (i : Nat) : (t.erase i).find i = none := by
  induction t with
  | nil => rfl
  | cons e t ih =>
    obtain ⟨k, w⟩ := e
    simp only [Table.erase]
    split
    · exact ih
    · next h => simp [Table.find, h, ih]

theorem Table.find_erase_other (t : Table α) (i j : Nat) (h : j ≠ i) : (t.erase i).find j = t.find j := by
  induction t with
  | nil => rfl
  | cons e t ih =>
    obtain ⟨k, w⟩ := e
    simp only [Table.erase]
    split
    · next hk => subst hk; simp [Table.find, Ne.symm h, ih]
    · simp [Table.find, ih]

@[simp] theorem Table.find_mapv (t : Table α) (f : Nat → α → α) (i : Nat) : (t.mapv f).find i = (t.find i).map (f i) := by
  induction t with
  | nil => rfl
  | cons e t ih =>
    obtain ⟨k, w⟩ := e
    simp only [Table.mapv, List.map_cons, Table.find]
    split
    · next h => subst h; simp
    · exact ih

/-- A table reads the value written to an entry. -/
@[simp] theorem Table.getD_set_self (t : Table α) (i : Nat) (v d : α) : (t.set i v).getD i d = v := by
  simp [Table.getD, Table.find_set_self]

/-- A write leaves every other entry alone. -/
theorem Table.getD_set_other (t : Table α) (i j : Nat) (v d : α) (h : j ≠ i) : (t.set i v).getD j d = t.getD j d := by
  simp [Table.getD, Table.find_set_other t i j v h]

/-- A listed entry reads as the change of what it was. -/
theorem Table.getD_modify_self (t : Table α) (i : Nat) (f : α → α) (d : α) (h : t.has i = true) :
    (t.modify i f).getD i d = f (t.getD i d) := by
  simp only [Table.has] at h
  obtain ⟨v, hv⟩ := Option.isSome_iff_exists.mp h
  simp [Table.getD, Table.find_modify_self, hv]

/-- A change leaves every other entry alone. -/
theorem Table.getD_modify_other (t : Table α) (i j : Nat) (f : α → α) (d : α) (h : j ≠ i) :
    (t.modify i f).getD j d = t.getD j d := by
  simp [Table.getD, Table.find_modify_other t i j f h]

theorem Table.getD_erase_other (t : Table α) (i j : Nat) (d : α) (h : j ≠ i) : (t.erase i).getD j d = t.getD j d := by
  simp [Table.getD, Table.find_erase_other t i j h]

@[simp] theorem Table.has_modify (t : Table α) (i j : Nat) (f : α → α) : (t.modify i f).has j = t.has j := by
  by_cases h : j = i
  · subst h; simp [Table.has, Table.find_modify_self]
  · simp [Table.has, Table.find_modify_other t i j f h]

@[simp] theorem Table.has_set_self (t : Table α) (i : Nat) (v : α) : (t.set i v).has i = true := by
  simp [Table.has, Table.find_set_self]

theorem Table.has_set_other (t : Table α) (i j : Nat) (v : α) (h : j ≠ i) : (t.set i v).has j = t.has j := by
  simp [Table.has, Table.find_set_other t i j v h]

/-- Two changes of one entry are one. -/
theorem Table.modify_modify (t : Table α) (i : Nat) (f g : α → α) : (t.modify i f).modify i g = t.modify i (g ∘ f) := by
  induction t with
  | nil => rfl
  | cons e t ih =>
    obtain ⟨k, w⟩ := e
    simp only [Table.modify]
    split
    · next h => simp [Table.modify, h]
    · next h => simp [Table.modify, h, ih]

end Sys2Proof.Machine
end

