-- ==== Sys2Proof/Laws/Lane.lean ====
section
/-!
SUPPORT. Laws/Lane.lean: what the registers of the executing unit read after each write, and what the checks of a lane
instruction lead to.
-/

set_option linter.constructorNameAsVariable false

namespace Sys2Proof.Machine

/-! ## Lane lists -/

theorem mem_lanesOf (m : Mask) (l : Nat) : l ∈ lanesOf m ↔ hasLane m l = true := by
  simp only [lanesOf, hasLane, List.mem_filter, List.mem_range, and_iff_right_iff_imp]
  intro h
  by_contra hl
  rw [BitVec.getLsbD_of_ge m l (by omega)] at h
  exact absurd h (by decide)

theorem lanesOf_nodup (m : Mask) : (lanesOf m).Nodup := List.Nodup.filter _ List.nodup_range

theorem hasLane_and (a b : Mask) (l : Nat) : hasLane (a &&& b) l = (hasLane a l && hasLane b l) := by
  simp [hasLane]

theorem hasLane_allLanes (n l : Nat) (h : hasLane (allLanes n) l = true) : l < n := by
  simp only [hasLane, allLanes, BitVec.getLsbD_ofNat, Bool.and_eq_true, decide_eq_true_eq, Nat.testBit_two_pow_sub_one] at h
  exact h.2

theorem maskOf_aux (p : Nat → Bool) (k : Nat) :
    (List.range k).foldl (fun n l => if p l then n + 2 ^ l else n) 0 < 2 ^ k ∧
      ∀ l, ((List.range k).foldl (fun n l => if p l then n + 2 ^ l else n) 0).testBit l = (decide (l < k) && p l) := by
  induction k with
  | zero => simp
  | succ k ih =>
    obtain ⟨hlt, hb⟩ := ih
    rw [List.range_succ, List.foldl_append]
    simp only [List.foldl_cons, List.foldl_nil]
    generalize (List.range k).foldl (fun n l => if p l then n + 2 ^ l else n) 0 = v at hlt hb
    by_cases hp : p k = true
    · rw [if_pos hp]
      refine ⟨by rw [Nat.pow_succ]; omega, ?_⟩
      intro l
      have e : v + 2 ^ k = 2 ^ k * 1 + v := by omega
      rw [e, Nat.testBit_two_pow_mul_add 1 hlt]
      split
      · next h => rw [hb]; simp [h, show l < k + 1 by omega]
      · next h =>
        by_cases hl : l = k
        · subst hl; simp [hp]
        · have : ¬ l < k + 1 := by omega
          simp only [this, decide_false, Bool.false_and]
          exact Nat.testBit_lt_two_pow (by
            have : 1 < 2 ^ (l - k) := Nat.one_lt_two_pow (by omega)
            exact this)
    · rw [if_neg hp]
      refine ⟨by rw [Nat.pow_succ]; omega, ?_⟩
      intro l
      rw [hb]
      by_cases hl : l = k
      · subst hl; simp [hp]
      · have : decide (l < k) = decide (l < k + 1) := by simp; omega
        rw [this]

/-- The mask of the lanes that satisfy a condition has exactly those lanes. -/
theorem hasLane_maskOf (p : Nat → Bool) (l : Nat) : hasLane (maskOf p) l = (decide (l < 64) && p l) := by
  obtain ⟨hlt, hb⟩ := maskOf_aux p 64
  simp only [hasLane, maskOf, BitVec.getLsbD_ofNat, hb]
  cases decide (l < 64) <;> simp

theorem exec_lanes (s : State) (g : Pred) (l : Nat) :
    l ∈ lanesOf (s.exec g) ↔ hasLane s.lanes l = true ∧ s.rdP g l = true := by
  rw [mem_lanesOf, State.exec, hasLane_maskOf]
  simp only [Bool.and_eq_true, decide_eq_true_eq]
  constructor
  · rintro ⟨_, h⟩; exact h
  · rintro h
    refine ⟨?_, h⟩
    by_contra hl
    have := BitVec.getLsbD_of_ge s.lanes l (by omega)
    rw [show hasLane s.lanes l = s.lanes.getLsbD l from rfl, this] at h
    exact absurd h.1 (by decide)

/-! ## The unit behind the focus -/

/-- A unit issues: the focus is a split with its block, group and entry, or a comet context with its entry. -/
theorem State.issuing_cases (s : State) (h : s.issuing = true) :
    (∃ b g k x y, s.focus = .split b g k ∧ s.blocks.find b = some x ∧ x.phase = .resident ∧ x.groups.find g = some y ∧
      y.splits.has k = true) ∨ (∃ c, s.focus = .comet c ∧ s.comets.has c = true) := by
  unfold State.issuing at h
  split at h
  · next b g k hf =>
    left
    unfold State.hasSplit at h
    split at h
    · exact absurd h (by decide)
    · next x hx =>
      simp only [Bool.and_eq_true, beq_iff_eq] at h
      obtain ⟨hp, h⟩ := h
      split at h
      · exact absurd h (by decide)
      · next y hy => exact ⟨b, g, k, x, y, hf, hx, hp, hy, h⟩
  · next c hf => exact .inr ⟨c, hf, h⟩
  · exact absurd h (by decide)

theorem Table.getD_of_find {α : Type} {t : Table α} {i : Nat} {v : α} (d : α) (h : t.find i = some v) : t.getD i d = v := by
  simp [Table.getD, h]

theorem Table.has_of_find {α : Type} {t : Table α} {i : Nat} {v : α} (h : t.find i = some v) : t.has i = true := by
  simp [Table.has, h]

/-- Two lane registers are one place: the same register word of the group (03 R83), or the same register of a context. -/
def State.sameReg (s : State) (m l m' l' : Nat) : Prop :=
  match s.focus with
  | .split b g _ => (s.blk b).regKey g m l = (s.blk b).regKey g m' l'
  | .comet _ => m = m'
  | _ => False

/-! Writing a register word of a block leaves its node, and so the places of its registers, alone. -/

@[simp] theorem Block.node_putReg (x : Block) (k : Nat) (v : Word) : (x.putReg k v).node = x.node := rfl
@[simp] theorem Block.width_putReg (x : Block) (k : Nat) (v : Word) : (x.putReg k v).width = x.width := rfl
@[simp] theorem Block.groups_putReg (x : Block) (k : Nat) (v : Word) : (x.putReg k v).groups = x.groups := rfl
@[simp] theorem Block.tiles_putReg (x : Block) (k : Nat) (v : Word) : (x.putReg k v).tiles = x.tiles := rfl
@[simp] theorem Block.vregs_putReg (x : Block) (k : Nat) (v : Word) : (x.putReg k v).vregs = x.vregs.set k v := rfl
@[simp] theorem Block.regKey_putReg (x : Block) (k : Nat) (v : Word) (g m l : Nat) :
    (x.putReg k v).regKey g m l = x.regKey g m l := rfl

@[simp] theorem Comet.lane_putReg (c : Comet) (m : Nat) (v : Word) : (c.putReg m v).lane = c.lane := rfl
@[simp] theorem Comet.blk_putReg (c : Comet) (m : Nat) (v : Word) : (c.putReg m v).blk = c.blk := rfl
@[simp] theorem Comet.pc_putReg (c : Comet) (m : Nat) (v : Word) : (c.putReg m v).pc = c.pc := rfl
@[simp] theorem Comet.sregs_putReg (c : Comet) (m : Nat) (v : Word) : (c.putReg m v).sregs = c.sregs := rfl
@[simp] theorem Comet.vregs_putReg (c : Comet) (m : Nat) (v : Word) : (c.putReg m v).vregs = c.vregs.set m v := rfl

/-- A register reads as it was written. -/
theorem State.rdV_wrV_same (s : State) (h : s.issuing = true) (m l m' l' : Nat) (v : Word) (hs : s.sameReg m' l' m l) :
    (s.wrV m l v).rdV m' l' = v := by
  rcases s.issuing_cases h with ⟨b, g, k, x, y, hf, hx, -, -, -⟩ | ⟨c, hf, hc⟩
  · simp only [State.sameReg, hf] at hs
    have hb : (s.blk b) = x := Table.getD_of_find _ hx
    have hn : (s.modBlk b fun x => x.putReg (x.regKey g m l) v).blk b = x.putReg (x.regKey g m l) v := by
      simp only [State.blk, State.modBlk]
      rw [Table.getD_modify_self _ _ _ _ (Table.has_of_find hx), show s.blocks.getD b Block.empty = x from hb]
    simp only [State.wrV, State.rdV, hf, State.modBlk_focus, hn, Block.regKey_putReg]
    rw [hb] at hs
    rw [hs]
    exact Table.getD_set_self ..
  · simp only [State.sameReg, hf] at hs
    subst hs
    simp only [State.wrV, State.rdV, hf, State.ctx, State.modCtx]
    rw [Table.getD_modify_self _ _ _ _ hc]
    exact Table.getD_set_self ..

/-- A write leaves every other lane register alone. -/
theorem State.rdV_wrV_other (s : State) (m l m' l' : Nat) (v : Word) (hs : ¬ s.sameReg m' l' m l) :
    (s.wrV m l v).rdV m' l' = s.rdV m' l' := by
  simp only [State.sameReg] at hs
  unfold State.wrV
  split
  · next b g k hf =>
    simp only [hf] at hs
    simp only [State.rdV, hf, State.blk, State.modBlk]
    by_cases hh : s.blocks.has b = true
    · rw [Table.getD_modify_self _ _ _ _ hh]
      exact Table.getD_set_other _ _ _ _ _ hs
    · have hn : Table.find s.blocks b = none := by simpa [Table.has] using hh
      simp [Table.getD, Table.find_modify_self, hn]
  · next c hf =>
    simp only [hf] at hs
    simp only [State.rdV, hf, State.ctx, State.modCtx]
    by_cases hh : s.comets.has c = true
    · rw [Table.getD_modify_self _ _ _ _ hh]
      exact Table.getD_set_other _ _ _ _ _ hs
    · have hn : Table.find s.comets c = none := by simpa [Table.has] using hh
      simp [Table.getD, Table.find_modify_self, hn]
  · rfl

/-! ## The unit after a register write -/

theorem State.blk_modBlk_self (s : State) (b : Nat) (f : Block → Block) (h : s.blocks.has b = true) :
    (s.modBlk b f).blk b = f (s.blk b) := Table.getD_modify_self _ _ _ _ h

theorem State.blk_modBlk_other (s : State) (b b' : Nat) (f : Block → Block) (h : b' ≠ b) :
    (s.modBlk b f).blk b' = s.blk b' := Table.getD_modify_other _ _ _ _ _ h

theorem Table.find_of_not_has {α : Type} {t : Table α} {i : Nat} (h : t.has i = false) : t.find i = none := by
  simpa [Table.has] using h

/-- A change of a block that keeps its node keeps what its register places are. -/
theorem State.blk_modBlk_node (s : State) (b b' : Nat) (f : Block → Block) (h : ∀ x, (f x).node = x.node) :
    ((s.modBlk b f).blk b').node = (s.blk b').node := by
  by_cases e : b' = b
  · subst e
    by_cases hh : s.blocks.has b' = true
    · rw [s.blk_modBlk_self b' f hh, h]
    · have hn : s.blocks.find b' = none := Table.find_of_not_has (by simpa using hh)
      simp [State.blk, State.modBlk, Table.getD, Table.find_modify_self, hn]
  · rw [s.blk_modBlk_other b b' f e]

theorem State.unitNode_of_blocks (s t : State) (hf : t.focus = s.focus) (hc : ∀ c, (t.ctx c).blk = (s.ctx c).blk)
    (hb : ∀ b, (t.blk b).node = (s.blk b).node) : t.unitNode = s.unitNode := by
  simp only [State.unitNode, State.unitBlk, hf]
  split
  · exact hb _
  · rw [hc]; exact hb _
  · exact hb _
  · exact hb _

theorem State.ctx_modCtx_self (s : State) (c : Nat) (f : Comet → Comet) (h : s.comets.has c = true) :
    (s.modCtx c f).ctx c = f (s.ctx c) := Table.getD_modify_self _ _ _ _ h

theorem State.ctx_modCtx_other (s : State) (c c' : Nat) (f : Comet → Comet) (h : c' ≠ c) :
    (s.modCtx c f).ctx c' = s.ctx c' := Table.getD_modify_other _ _ _ _ _ h

/-- A register write changes neither the place of a register nor which unit issues. -/
theorem State.sameReg_wrV (s : State) (m l : Nat) (v : Word) (m1 l1 m2 l2 : Nat) :
    (s.wrV m l v).sameReg m1 l1 m2 l2 ↔ s.sameReg m1 l1 m2 l2 := by
  have hf : (s.wrV m l v).focus = s.focus := State.wrV_focus ..
  simp only [State.sameReg, hf]
  split
  · next b g k hf' =>
    have hn : ((s.wrV m l v).blk b).node = (s.blk b).node := by
      simp only [State.wrV, hf']
      exact s.blk_modBlk_node b b _ (fun _ => rfl)
    simp only [Block.regKey, Block.width, hn]
  · rfl
  · rfl

@[simp] theorem State.issuing_wrV (s : State) (m l : Nat) (v : Word) : (s.wrV m l v).issuing = s.issuing := by
  have hf : (s.wrV m l v).focus = s.focus := State.wrV_focus ..
  simp only [State.issuing, hf]
  split
  · next b g k hf' =>
    simp only [State.wrV, hf', State.hasSplit, State.modBlk, Table.find_modify_self]
    cases s.blocks.find b <;> rfl
  · next c hf' => simp only [State.wrV, hf', State.modCtx, Table.has_modify]
  · rfl

@[simp] theorem State.lanes_wrV (s : State) (m l : Nat) (v : Word) : (s.wrV m l v).lanes = s.lanes := by
  have hf : (s.wrV m l v).focus = s.focus := State.wrV_focus ..
  simp only [State.lanes, hf]
  split
  · next b g k hf' =>
    simp only [State.wrV, hf', State.spl, State.grp]
    by_cases hh : s.blocks.has b = true
    · rw [s.blk_modBlk_self b _ hh]; rfl
    · have hn : s.blocks.find b = none := Table.find_of_not_has (by simpa using hh)
      simp [State.blk, State.modBlk, Table.getD, Table.find_modify_self, hn]
  · next c hf' =>
    simp only [State.wrV, hf']
    by_cases hh : s.comets.has c = true
    · rw [s.ctx_modCtx_self c _ hh]; rfl
    · have hn : s.comets.find c = none := Table.find_of_not_has (by simpa using hh)
      simp [State.ctx, State.modCtx, Table.getD, Table.find_modify_self, hn]
  · rfl

/-- Two registers of active lanes are one place exactly if they are the same register of the same lane. -/
theorem State.sameReg_iff (s : State) (m l m' l' : Nat) (hl : hasLane s.lanes l = true) (hl' : hasLane s.lanes l' = true) :
    s.sameReg m l m' l' ↔ m = m' ∧ l = l' := by
  simp only [State.lanes] at hl hl'
  simp only [State.sameReg]
  split
  · next b g k hf =>
    simp only [hf, hasLane_and, Bool.and_eq_true] at hl hl'
    have h1 := hasLane_allLanes _ _ hl.2
    have h2 := hasLane_allLanes _ _ hl'.2
    simp only [Block.regKey, Block.width]
    simp only [Block.width] at h1 h2
    generalize (s.blk b).node.width = w at h1 h2
    constructor
    · intro h
      have h' : m * w + l = m' * w + l' := by omega
      have e1 : (m * w + l) / w = m := by
        rw [Nat.add_comm, Nat.add_mul_div_right _ _ (by omega), Nat.div_eq_of_lt h1, Nat.zero_add]
      have e2 : (m' * w + l') / w = m' := by
        rw [Nat.add_comm, Nat.add_mul_div_right _ _ (by omega), Nat.div_eq_of_lt h2, Nat.zero_add]
      have hm : m = m' := by rw [← e1, h', e2]
      subst hm
      exact ⟨rfl, by omega⟩
    · rintro ⟨rfl, rfl⟩; rfl
  · next c hf =>
    simp only [hf] at hl hl'
    have one : ∀ j, hasLane (laneBit (s.ctx c).lane) j = true → j = (s.ctx c).lane := by
      intro j hj
      simp only [hasLane, laneBit, BitVec.getLsbD_shiftLeft, Bool.and_eq_true, decide_eq_true_eq, Bool.not_eq_true',
        decide_eq_false_iff_not] at hj
      have h1 : (1#64).getLsbD (j - (s.ctx c).lane) = true := hj.2
      rw [BitVec.getLsbD_one] at h1
      simp at h1
      omega
    constructor
    · intro h; exact ⟨h, by rw [one l hl, one l' hl']⟩
    · exact fun h => h.1
  · next h1 h2 =>
    exfalso
    split at hl
    · next b g k hf => exact h1 b g k hf
    · next c hf => exact h2 c hf
    · simp [hasLane] at hl

/-- Reading a register of an active lane after a register of an active lane was written. -/
theorem State.rdV_wrV (s : State) (h : s.issuing = true) (m l m' l' : Nat) (v : Word) (hl : hasLane s.lanes l = true)
    (hl' : hasLane s.lanes l' = true) : (s.wrV m l v).rdV m' l' = if m' = m ∧ l' = l then v else s.rdV m' l' := by
  split
  · next e => exact s.rdV_wrV_same h m l m' l' v ((s.sameReg_iff m' l' m l hl' hl).mpr e)
  · next e => exact s.rdV_wrV_other m l m' l' v (fun hs => e ((s.sameReg_iff m' l' m l hl' hl).mp hs))

@[simp] theorem State.rdS_wrV (s : State) (m l : Nat) (v : Word) (j : Nat) : (s.wrV m l v).rdS j = s.rdS j := by
  have hf : (s.wrV m l v).focus = s.focus := State.wrV_focus ..
  simp only [State.rdS, hf]
  split
  · next b g k hf' =>
    simp only [State.wrV, hf', State.grp]
    by_cases hh : s.blocks.has b = true
    · rw [s.blk_modBlk_self b _ hh]; rfl
    · have hn : s.blocks.find b = none := Table.find_of_not_has (by simpa using hh)
      simp [State.blk, State.modBlk, Table.getD, Table.find_modify_self, hn]
  · next c hf' =>
    simp only [State.wrV, hf']
    by_cases hh : s.comets.has c = true
    · rw [s.ctx_modCtx_self c _ hh]; rfl
    · have hn : s.comets.find c = none := Table.find_of_not_has (by simpa using hh)
      simp [State.ctx, State.modCtx, Table.getD, Table.find_modify_self, hn]
  · rfl

@[simp] theorem State.pc_wrV (s : State) (m l : Nat) (v : Word) : (s.wrV m l v).pc = s.pc := by
  have hf : (s.wrV m l v).focus = s.focus := State.wrV_focus ..
  simp only [State.pc, hf]
  split
  · next b g k hf' =>
    simp only [State.wrV, hf', State.spl, State.grp]
    by_cases hh : s.blocks.has b = true
    · rw [s.blk_modBlk_self b _ hh]; rfl
    · have hn : s.blocks.find b = none := Table.find_of_not_has (by simpa using hh)
      simp [State.blk, State.modBlk, Table.getD, Table.find_modify_self, hn]
  · next c hf' =>
    simp only [State.wrV, hf']
    by_cases hh : s.comets.has c = true
    · rw [s.ctx_modCtx_self c _ hh]; rfl
    · have hn : s.comets.find c = none := Table.find_of_not_has (by simpa using hh)
      simp [State.ctx, State.modCtx, Table.getD, Table.find_modify_self, hn]
  · rfl

/-! ## Writing every executing lane -/

@[simp] theorem State.putLanes_nil (s : State) (f : State → Nat → State) : s.putLanes [] f = s := rfl
theorem State.putLanes_cons (s : State) (l : Nat) (ls : List Nat) (f : State → Nat → State) :
    s.putLanes (l :: ls) f = (f s l).putLanes ls f := rfl

/-- What each lane's step leaves alone, the whole leaves alone. -/
theorem State.putLanes_proj {β : Type} (p : State → β) (s : State) (ls : List Nat) (f : State → Nat → State)
    (h : ∀ t l, p (f t l) = p t) : p (s.putLanes ls f) = p s := by
  induction ls generalizing s with
  | nil => rfl
  | cons l ls ih => rw [State.putLanes_cons, ih, h]

/-- A word in register d of each lane of a list. -/
theorem State.rdV_putLanes (s : State) (h : s.issuing = true) (ls : List Nat) (hn : ls.Nodup)
    (hl : ∀ l ∈ ls, hasLane s.lanes l = true) (d : Nat) (v : Nat → Word) (m l' : Nat) (hl' : hasLane s.lanes l' = true) :
    (s.putLanes ls fun t l => t.wrV d l (v l)).rdV m l' = if m = d ∧ l' ∈ ls then v l' else s.rdV m l' := by
  induction ls generalizing s with
  | nil => simp
  | cons l ls ih =>
    rw [State.putLanes_cons]
    have hn' := List.nodup_cons.mp hn
    rw [ih (s.wrV d l (v l)) (by simpa using h) hn'.2 (fun j hj => by simpa using hl j (List.mem_cons_of_mem _ hj))
      (by simpa using hl'), s.rdV_wrV h d l m l' (v l) (hl l (List.mem_cons_self ..)) hl']
    by_cases e : m = d
    · subst e
      by_cases e2 : l' = l
      · subst e2; simp [hn'.1]
      · by_cases e3 : l' ∈ ls <;> simp [e2, e3]
    · simp [e]

/-- Two words in registers d and e of each lane of a list. -/
theorem State.rdV_putLanes2 (s : State) (h : s.issuing = true) (ls : List Nat) (hn : ls.Nodup)
    (hl : ∀ l ∈ ls, hasLane s.lanes l = true) (d e : Nat) (hde : d ≠ e) (v w : Nat → Word) (m l' : Nat)
    (hl' : hasLane s.lanes l' = true) :
    (s.putLanes ls fun t l => (t.wrV d l (v l)).wrV e l (w l)).rdV m l' =
      if m = d ∧ l' ∈ ls then v l' else if m = e ∧ l' ∈ ls then w l' else s.rdV m l' := by
  induction ls generalizing s with
  | nil => simp
  | cons l ls ih =>
    rw [State.putLanes_cons]
    have hn' := List.nodup_cons.mp hn
    have hl0 := hl l (List.mem_cons_self ..)
    rw [ih ((s.wrV d l (v l)).wrV e l (w l)) (by simpa using h) hn'.2
      (fun j hj => by simpa using hl j (List.mem_cons_of_mem _ hj)) (by simpa using hl'),
      (s.wrV d l (v l)).rdV_wrV (by simpa using h) e l m l' (w l) (by simpa using hl0) (by simpa using hl'),
      s.rdV_wrV h d l m l' (v l) hl0 hl']
    by_cases e2 : l' = l
    · subst e2
      by_cases e3 : m = d
      · subst e3; simp [hn'.1, hde]
      · by_cases e4 : m = e <;> simp [hn'.1, e3, e4, Ne.symm hde]
    · by_cases e3 : l' ∈ ls <;> simp [e2, e3]

end Sys2Proof.Machine
end

