-- ==== Sys2Proof/Laws/Issue.lean ====
section
/-!
SUPPORT. Laws/Issue.lean: a lane instruction that may issue has its own effect, and what the checks of R46 give otherwise.
-/

set_option linter.constructorNameAsVariable false

namespace Sys2Proof.Machine

/-- With no check failing and no interlock, the meaning is the instruction's own body. -/
theorem laneRun_of_mayIssue {i : Instr} {g : Pred} {s : State} (h : s.mayIssue i g = true) (body : State → Out) :
    laneRun i g s body = body s := by
  simp only [State.mayIssue, Bool.and_eq_true, Bool.not_eq_true', beq_iff_eq] at h
  obtain ⟨⟨⟨⟨⟨⟨h1, h2⟩, h3⟩, h4⟩, h5⟩, h6⟩, h7⟩ := h
  simp [laneRun, h1, h2, h3, h4, h5, h6, h7]

theorem laneSimple_of_mayIssue {i : Instr} {g : Pred} {s : State} (h : s.mayIssue i g = true) (eff : State → State) :
    laneSimple i g s eff = .next ((eff s).skip i.laneSize) := laneRun_of_mayIssue h _

theorem issuing_of_mayIssue {i : Instr} {g : Pred} {s : State} (h : s.mayIssue i g = true) : s.issuing = true := by
  simp only [State.mayIssue, Bool.and_eq_true] at h
  exact h.1.1.1.1.1.1

theorem wf_of_mayIssue {i : Instr} {g : Pred} {s : State} (h : s.mayIssue i g = true) : i.wf = true := by
  simp only [State.mayIssue, illegalFor, Bool.and_eq_true, Bool.not_eq_true', Bool.or_eq_false_iff] at h
  simpa using h.1.1.1.1.1.2.1

/-- The checks of R46 in their order, for every body. -/
theorem laneRun_illegal {i : Instr} {g : Pred} {s : State} (h1 : s.issuing = true) (h2 : illegalFor s.unitNode i = true)
    (body : State → Out) : laneRun i g s body = .next (s.takeTrap 0x00) := by
  simp [laneRun, h1, h2]

theorem laneRun_forbidden {i : Instr} {g : Pred} {s : State} (h1 : s.issuing = true)
    (h2 : illegalFor s.unitNode i = false) (h3 : s.forbids i = true) (body : State → Out) :
    laneRun i g s body = .next (s.takeTrap 0x06) := by
  simp [laneRun, h1, h2, h3]

theorem laneRun_budget {i : Instr} {g : Pred} {s : State} (h1 : s.issuing = true)
    (h2 : illegalFor s.unitNode i = false) (h3 : s.forbids i = false) (h4 : s.budgetOk (instrUses s.unitNode i) = false)
    (body : State → Out) : laneRun i g s body = .next (s.takeTrap 0x01) := by
  simp [laneRun, h1, h2, h3, h4]

theorem laneRun_tile {i : Instr} {g : Pred} {s : State} (h1 : s.issuing = true)
    (h2 : illegalFor s.unitNode i = false) (h3 : s.forbids i = false) (h4 : s.budgetOk (instrUses s.unitNode i) = true)
    (h5 : s.ownOk (instrUses s.unitNode i) = false) (body : State → Out) :
    laneRun i g s body = .next (s.takeTrap 0x40) := by
  simp [laneRun, h1, h2, h3, h4, h5]

theorem laneRun_interlocked {i : Instr} {g : Pred} {s : State} (h1 : s.issuing = true)
    (h2 : illegalFor s.unitNode i = false) (h3 : s.forbids i = false) (h4 : s.budgetOk (instrUses s.unitNode i) = true)
    (h5 : s.ownOk (instrUses s.unitNode i) = true) (h6 : s.interlocked g (instrUses s.unitNode i) = true)
    (body : State → Out) : laneRun i g s body = .next s := by
  simp [laneRun, h1, h2, h3, h4, h5, h6]

theorem laneRun_poisoned {i : Instr} {g : Pred} {s : State} (h1 : s.issuing = true)
    (h2 : illegalFor s.unitNode i = false) (h3 : s.forbids i = false) (h4 : s.budgetOk (instrUses s.unitNode i) = true)
    (h5 : s.ownOk (instrUses s.unitNode i) = true) (h6 : s.interlocked g (instrUses s.unitNode i) = false)
    (h7 : s.readsBad i g (instrUses s.unitNode i) ≠ 0) (body : State → Out) :
    laneRun i g s body = .next (s.trapWith 0x3C (s.readsBad i g (instrUses s.unitNode i)) 0) := by
  simp [laneRun, h1, h2, h3, h4, h5, h6]
  exact fun e => absurd e h7

end Sys2Proof.Machine
end

