-- ==== Sys2Proof/Laws/Memory.lean ====
section
/-!
SUPPORT. Laws/Memory.lean: every operation on a memory keeps its canonical form; a byte reads as it was last written, and a
write leaves every other byte alone.
-/

namespace Sys2Proof.Machine

/-- Every listed address lies above a bound. -/
def Memory.above (b : Nat) (m : Memory) : Prop := ∀ c ∈ m, b < c.1

/-- The canonical form of a memory with a first cell. -/
theorem Memory.wf_cons (k : Nat) (v : Byte) (t : Memory) :
    Memory.wf ((k, v) :: t) = true ↔ v ≠ 0 ∧ Memory.above k t ∧ Memory.wf t = true := by
  induction t generalizing k v with
  | nil => simp [Memory.wf, Memory.above]
  | cons e t ih =>
    obtain ⟨k', v'⟩ := e
    simp only [Memory.wf, Bool.and_eq_true, decide_eq_true_eq, bne_iff_ne, ne_eq]
    constructor
    · rintro ⟨⟨hk, hv⟩, hw⟩
      refine ⟨hv, ?_, hw⟩
      intro c hc
      rcases List.mem_cons.mp hc with rfl | hc
      · exact hk
      · exact Nat.lt_trans hk (((ih k' v').mp hw).2.1 c hc)
    · rintro ⟨hv, ha, hw⟩
      exact ⟨⟨ha (k', v') (List.mem_cons_self ..), hv⟩, hw⟩

theorem Memory.above_put (b : Nat) (m : Memory) (a : Nat) (v : Byte) (ha : b < a) (hm : Memory.above b m) :
    Memory.above b (m.put a v) := by
  induction m with
  | nil =>
    simp only [Memory.put]
    split
    · exact hm
    · intro c hc; simp only [List.mem_singleton] at hc; subst hc; exact ha
  | cons e t ih =>
    obtain ⟨k, w⟩ := e
    have ht : Memory.above b t := fun c hc => hm c (List.mem_cons_of_mem _ hc)
    simp only [Memory.put]
    split
    · split
      · exact hm
      · intro c hc
        rcases List.mem_cons.mp hc with rfl | hc
        · exact ha
        · exact hm c hc
    · split
      · split
        · exact ht
        · intro c hc
          rcases List.mem_cons.mp hc with rfl | hc
          · exact ha
          · exact ht c hc
      · intro c hc
        rcases List.mem_cons.mp hc with rfl | hc
        · exact hm _ (List.mem_cons_self ..)
        · exact ih ht c hc

/-- Writing a byte keeps the canonical form. -/
theorem Memory.wf_put (m : Memory) (a : Nat) (v : Byte) (h : m.wf = true) : (m.put a v).wf = true := by
  induction m with
  | nil =>
    simp only [Memory.put]
    split
    · rfl
    · next hv => simpa [Memory.wf] using hv
  | cons e t ih =>
    obtain ⟨k, w⟩ := e
    obtain ⟨hw, ha, ht⟩ := (Memory.wf_cons k w t).mp h
    simp only [Memory.put]
    split
    · next hk =>
      split
      · exact h
      · next hv =>
        refine (Memory.wf_cons a v _).mpr ⟨hv, ?_, h⟩
        intro c hc
        rcases List.mem_cons.mp hc with rfl | hc
        · exact hk
        · exact Nat.lt_trans hk (ha c hc)
    · split
      · next _ he =>
        subst he
        split
        · exact ht
        · next hv => exact (Memory.wf_cons a v t).mpr ⟨hv, ha, ht⟩
      · next hn he =>
        exact (Memory.wf_cons k w _).mpr ⟨hw, Memory.above_put k t a v (by omega) ha, ih ht⟩

/-- Writing cells keeps the canonical form. -/
theorem Memory.wf_putAll (m : Memory) (cs : List Host.Cell) (h : m.wf = true) : (m.putAll cs).wf = true := by
  induction cs generalizing m with
  | nil => exact h
  | cons c cs ih => exact ih _ (Memory.wf_put m c.1 c.2 h)

/-- Writing a value keeps the canonical form. -/
theorem Memory.wf_write (m : Memory) (a n v : Nat) (h : m.wf = true) : (m.write a n v).wf = true :=
  Memory.wf_putAll m _ h


theorem Memory.get_of_above (t : Memory) (a : Nat) (h : Memory.above a t) : t.get a = 0 := by
  cases t with
  | nil => rfl
  | cons e t =>
    obtain ⟨k, v⟩ := e
    have hk : a < k := h (k, v) (List.mem_cons_self ..)
    simp only [Memory.get]
    rw [if_neg (by omega), if_pos hk]

/-- A byte reads as it was written. -/
theorem Memory.get_put_self (m : Memory) (a : Nat) (v : Byte) (h : m.wf = true) : (m.put a v).get a = v := by
  induction m with
  | nil =>
    simp only [Memory.put]
    split
    · next hv => simp [Memory.get, hv]
    · simp [Memory.get]
  | cons e t ih =>
    obtain ⟨k, w⟩ := e
    obtain ⟨_, ha, ht⟩ := (Memory.wf_cons k w t).mp h
    simp only [Memory.put]
    split
    · next hk =>
      split
      · next hv => subst hv; simp only [Memory.get]; rw [if_neg (by omega), if_pos hk]
      · simp [Memory.get]
    · split
      · next _ he =>
        subst he
        split
        · next hv => subst hv; exact Memory.get_of_above t a ha
        · simp [Memory.get]
      · next hn he =>
        simp only [Memory.get]
        rw [if_neg (fun hh => he hh.symm), if_neg hn]
        exact ih ht

/-- Writing a byte leaves every other byte alone. -/
theorem Memory.get_put_other (m : Memory) (a b : Nat) (v : Byte) (h : m.wf = true) (hb : b ≠ a) :
    (m.put a v).get b = m.get b := by
  induction m with
  | nil =>
    simp only [Memory.put]
    split
    · rfl
    · simp only [Memory.get]; rw [if_neg (Ne.symm hb)]; split <;> rfl
  | cons e t ih =>
    obtain ⟨k, w⟩ := e
    obtain ⟨_, ha, ht⟩ := (Memory.wf_cons k w t).mp h
    simp only [Memory.put]
    split
    · next hk =>
      split
      · rfl
      · simp only [Memory.get]
        rw [if_neg (Ne.symm hb)]
        split
        · rw [if_neg (by omega), if_pos (by omega)]
        · rfl
    · split
      · next _ he =>
        subst he
        split
        · simp only [Memory.get]
          rw [if_neg (Ne.symm hb)]
          split
          · next hl => exact Memory.get_of_above t b (fun c hc => Nat.lt_trans hl (ha c hc))
          · rfl
        · simp only [Memory.get]
          rw [if_neg (Ne.symm hb), if_neg (Ne.symm hb)]
      · simp only [Memory.get]
        rw [ih ht]

/-- Writing cells leaves every other byte alone. -/
theorem Memory.get_putAll_other (m : Memory) (cs : List Host.Cell) (b : Nat) (h : m.wf = true)
    (hb : ∀ c ∈ cs, c.1 ≠ b) : (m.putAll cs).get b = m.get b := by
  induction cs generalizing m with
  | nil => rfl
  | cons c cs ih =>
    have e : Memory.putAll m (c :: cs) = Memory.putAll (m.put c.1 c.2) cs := rfl
    rw [e, ih _ (Memory.wf_put m c.1 c.2 h) (fun d hd => hb d (List.mem_cons_of_mem _ hd))]
    exact Memory.get_put_other m c.1 b c.2 h (Ne.symm (hb c (List.mem_cons_self ..)))

theorem mem_cellsAt (a : Nat) (bs : List Byte) (c : Host.Cell) (h : c ∈ cellsAt a bs) : a ≤ c.1 ∧ c.1 < a + bs.length := by
  induction bs generalizing a with
  | nil => simp [cellsAt] at h
  | cons b bs ih =>
    simp only [cellsAt, List.mem_cons] at h
    rcases h with rfl | h
    · simp
    · have := ih (a + 1) h; simp only [List.length_cons]; omega

theorem leBytes_length (n v : Nat) : (leBytes n v).length = n := by
  induction n generalizing v with
  | zero => rfl
  | succ n ih => simp [leBytes, ih]

/-- The bytes of a number hold it, as far as they go. -/
theorem leVal_leBytes (n v : Nat) : leVal (leBytes n v) = v % 256 ^ n := by
  induction n generalizing v with
  | zero => simp [leBytes, leVal, Nat.mod_one]
  | succ n ih =>
    rw [leBytes, leVal, ih, Nat.pow_succ, Nat.mul_comm (256 ^ n) 256, Nat.mod_mul]
    simp

/-- Writing `n` bytes leaves every byte outside them alone. -/
theorem Memory.get_write_other (m : Memory) (a n v b : Nat) (h : m.wf = true) (hb : b < a ∨ a + n ≤ b) :
    (m.write a n v).get b = m.get b := by
  refine Memory.get_putAll_other m _ b h ?_
  intro c hc
  have := mem_cellsAt a _ c hc
  rw [leBytes_length] at this
  omega

/-! ## The writes of the state -/

/-- A fold whose steps leave memory alone leaves it alone. -/
theorem State.mem_foldl {α : Type} (f : State → α → State) (h : ∀ t a, (f t a).mem = t.mem) (l : List α) (s : State) :
    (l.foldl f s).mem = s.mem := by
  induction l generalizing s with
  | nil => rfl
  | cons a l ih => rw [List.foldl_cons, ih, h]

@[simp] theorem State.mem_revoke (s : State) (k : Option Nat) (ws : List Nat) : (s.revoke k ws).mem = s.mem := by
  refine State.mem_foldl _ (fun t w => ?_) ws s
  split
  · rfl
  · split <;> rfl

@[simp] theorem State.mem_dropCopies (s : State) (c k n : Nat) : (s.dropCopies c k n).mem = s.mem := by
  unfold State.dropCopies; split <;> rfl

@[simp] theorem State.mem_noteDirty (s : State) (cs : List Host.Cell) : (s.noteDirty cs).mem = s.mem := rfl

@[simp] theorem State.mem_fireMonitors (s : State) (cs : List Host.Cell) : (s.fireMonitors cs).mem = s.mem := rfl

@[simp] theorem State.mem_touchLine (s : State) (vf : Nat) (low need : Bool) (key : Nat) :
    (s.touchLine vf low need key).mem = s.mem := by
  unfold State.touchLine; split <;> rfl

@[simp] theorem State.mem_evictEntry (s : State) (die : Nat) : (s.evictEntry die).mem = s.mem := by
  unfold State.evictEntry
  split
  · rfl
  · dsimp only
    split
    · rfl
    · split
      · exact State.mem_revoke ..
      · rfl

@[simp] theorem State.mem_fillSlice (s : State) (vf : Nat) (f : Fill) (need : Bool) (key : Nat) :
    (s.fillSlice vf f need key).mem = s.mem := by
  cases f
  · rfl
  · exact State.mem_touchLine ..
  · exact State.mem_touchLine ..

@[simp] theorem State.mem_trimLane (s : State) (c line : Nat) : (s.trimLane c line).mem = s.mem := by
  unfold State.trimLane
  split
  · rfl
  · dsimp only
    split
    · rfl
    · split
      · exact State.mem_revoke ..
      · rfl

@[simp] theorem State.mem_ownWords (s : State) (c : Nat) (st : Option Nat) (ws : List Nat) :
    (s.ownWords c st ws).mem = s.mem :=
  State.mem_foldl _ (fun t w => by exact State.mem_dropCopies t c (16 * (w / 4)) 16) ws s

/-- Memory after a write at the homes of its cells. -/
@[simp] theorem State.mem_putHome (s : State) (cs : List Host.Cell) (o : Option (Nat × Option Nat)) :
    (s.putHome cs o).mem = s.mem.putAll cs := by
  unfold State.putHome
  cases o with
  | none => simp
  | some p =>
    obtain ⟨c, st⟩ := p
    simp only [State.mem_noteDirty]
    rw [State.mem_foldl _ (fun t n => by simp)]
    simp

/-- Memory after a write of the part itself. -/
@[simp] theorem State.mem_writeHome (s : State) (cs : List Host.Cell) : (s.writeHome cs).mem = s.mem.putAll cs := by
  simp [State.writeHome]

/-- Arming keeps the canonical form. -/
theorem State.wf_armObjects (s : State) (cs : List Host.Cell) (vf : Nat) (h : s.mem.wf = true) :
    (s.armObjects cs vf).mem.wf = true := by
  unfold State.armObjects
  generalize cs.filter (fun c => c.1 % 64 == 4) = l
  induction l generalizing s with
  | nil => exact h
  | cons c l ih =>
    refine ih _ ?_
    dsimp only
    repeat' split
    all_goals first | exact h | exact Memory.wf_write _ _ _ _ h

/-- A write of a virtual function keeps the canonical form. -/
theorem State.wf_commit (s : State) (cs : List Host.Cell) (o : Option (Nat × Option Nat)) (vf : Nat) (f : Fill)
    (h : s.mem.wf = true) : (s.commit cs o vf f).mem.wf = true := by
  simp only [State.commit, State.mem_fireMonitors]
  refine State.wf_armObjects _ _ _ ?_
  rw [State.mem_foldl _ (fun t l => State.mem_fillSlice ..), State.mem_putHome]
  exact Memory.wf_putAll _ _ h

/-- A write of the part itself keeps the canonical form. -/
theorem State.wf_writeHome (s : State) (cs : List Host.Cell) (h : s.mem.wf = true) : (s.writeHome cs).mem.wf = true := by
  rw [State.mem_writeHome]; exact Memory.wf_putAll _ _ h

end Sys2Proof.Machine
end

