-- ==== Sys2Proof/Tests/Slice0.lean ====
section
/-!
SUPPORT. Tests/Slice0.lean: the model's own tests: ill-formed terms that the well-formedness check refuses, words of the spec
that decode to their instructions, small steps whose results the spec states, and for every statement a state that meets its
hypotheses.
-/

set_option linter.constructorNameAsVariable false
set_option maxRecDepth 20000
set_option Elab.async false

open Sys2Proof Sys2Proof.Machine

namespace Sys2Proof.Tests

/-! ## Ill-formed terms, one for each check of the operands -/

theorem test_wf_refuses_integer : ∀ i ∈ ([.iadd 0 true 1 2 (.vv 4), .iadd 0 true 2 1 (.vv 4), .iadd 0 true 2 4 (.vs 5),
    .iadd 0 true 2 4 (.ss 5), .iaddc 0 true 62 2 (.vv 4), .iaddc 0 false 63 2 (.vv 4), .iaddc 0 true 2 4 (.vv 5),
    .lea 0 false 1 2 (.vv 4), .lea 0 false 2 1 (.vv 4), .lea 0 true 2 4 (.vv 5), .shl 0 true 3 2 (.vv 4),
    .bfi 0 true 2 3 (.vv 4), .iabs 0 true 3 (.vv 4), .mov 0 true 2 (.vv 5), .pwiden 0 3 2 .e8 false,
    .pnarrow 0 2 3 4 .e8 false] : List Instr), i.wf = false := by decide +kernel
theorem test_wf_refuses_forms : ∀ i ∈ ([.icmp 0 .eq 1 2 (.ss 4) false false, .icmp 0 .eq 1 3 (.vv 4) false true,
    .fcmp 0 .eq 1 2 (.ss 4) .f32, .fadd 0 2 4 (.ss 6), .fclass 0 2 (.ss 4), .pfmaF16 0 2 4 (.ss 6), .cvt 0 2 4 .f32 .f32 false false,
    .cvt 0 3 4 .s64 .f32 false false, .cvt 0 2 5 .f32 .z64 false false, .qunpk 0 2 5 6, .voteBal 0 3 0 false] : List Instr),
    i.wf = false := by decide +kernel
theorem test_wf_refuses_control : ∀ i ∈ ([.brx 0 3, .callx 0 3, .join 1, .exit 1, .eret 1, .yield 1, .live 0 0 3, .mfs 0 3 .clk,
    .mts 0 2 .laneix, .ecmdClear 0 false 2 0, .sparseIndexClear 0 2 0, .lodestarClear 0 2 0, .copy 0 false 3 4,
    .ewait 0 2 5, .dbar 0 3, .emit 0 3 4, .ctxsv 0 3, .ctxld 0 3] : List Instr), i.wf = false := by decide +kernel
theorem test_wf_refuses_memory : ∀ i ∈ ([.ld 0 3 4 .d .plain none, .ld 0 2 4 .q .plain none, .ld 0 2 5 .w .plain none,
    .lds 0 3 4 .d false, .sts 0 2 4 .q false, .smap 0 3 4 6, .pref 0 3, .atomAdd 0 3 4 ⟨false, false, false⟩ true,
    .atomAddb 0 3 4 ⟨false, false, false⟩ 1, .atomCasW 0 3 4 ⟨false, false, false⟩, .atomCasD 0 2 4 ⟨false, false, false⟩, .atomCasQ 0 4 8 ⟨false, false, false⟩,
    .waitc 0 3 4 true .eq, .ldD 0 3 4 0, .ldQ 0 2 4 0, .stW 0 2 5 0] : List Instr), i.wf = false := by decide +kernel
theorem test_wf_refuses_slots : ∀ i ∈ ([.sbra 1 0 0, .shalt 2 0, .sgive 0 0 250 15, .sstat 0 0 2, .tmmaBf16 0 0 2 0 0 .s2,
    .tmmaF32 0 0 8 0 0 .s4, .tzero 0 0 250 15, .tcvt 0 0 0 0 .fp32 false false,
    .vred 0 0 { m := 0, od := 0, os := 0, f := 1 } .sum, .tld 0 0 0 1 0, .tst 0 0 255 0 1, .zset 0 0 0 0 11,
    .fltLdf 0 9, .fltShri 0 64] : List Instr), i.wf = false := by decide +kernel

/-! ## Words of the spec's encodings -/

/-- The worked words of 17 R370 and the examples of 02, written from the field layouts; hypotheses of EncodeOfDecode. -/
theorem test_decode_lane : (decodeLane 0x01030424 0, decodeLane 0x3805000F 0x3F800000, decodeLane 0x48120420 0) =
    (some (.iadd 4 false 3 1 (.vs 2)), some (.mov 0 false 5 (.lit 0x3F800000)), some (.icmp 0 .lt 2 1 (.vv 2) false false)) := by
  decide +kernel
theorem test_decode_float : (decodeLane 0x80030820 0, decodeLane 0x84010880 0, decodeLane 0x54061C95 0) =
    (some (.fexp2 0 3 2 .bf16), some (.cvt 0 1 2 .bf16 .f32 false false), some (.padd 0 6 7 9 .e8 false true)) := by
  decide +kernel
theorem test_decode_system : (decodeLane 0x8C0A1402 0, decodeLane 0xC0001844 0, decodeLane 0xC4001CA1 0) =
    (some (.voteBal 0 10 5 false), some (.emit 0 6 4), some (.mts 0 7 .jto)) := by decide +kernel
theorem test_decode_slots : (decodeSlot 0 .s 0x04021100, decodeSlot 0 .m 0x04000108, decodeSlot 0 .t 0x04040006) =
    (some (.sadd 0 0 1 1 2), some (.tld 0 0 0 0 4), some (.tmmaBf16 0 0 16 0 1 .s4)) := by decide +kernel
theorem test_decode_filter : [0x0886, 0x9880, 0x1103, 0x1954, 0x7108, 0x8102, 0xB088, 0xB800].map decodeFilter =
    [some (.fltLdf 1 6), some (.fltHist 1 0), some (.fltLdi 2 3), some (.fltMovk 2 84), some (.fltCltu 2 1),
     some (.fltBz 2 2), some (.fltTrig 1 1), some .fltEnd] := by decide +kernel
theorem test_decode_refuses : decodeLane 0xF0000000 0 = none ∧ decodeFilter 0xB801 = none ∧ decodeFilter 0xFFFF = none := by
  decide +kernel

/-! ## Small machines -/

/-- One group of 8 lanes on core 0, its page of code and data translated to physical address 0. -/
def lane : State :=
  ({ State.reset.withFetchWord 32 0 with agenda := [], focus := .split 0 0 0 } : State).modBlk 0 fun x =>
    { x with node := { x.node with shared := 8192, stash := 8192, tiles := 8 }, bound := [(0, 0)] }

/-- A lane register of all 8 lanes. -/
def setV (s : State) (m : Nat) (f : Nat → Nat) : State :=
  (List.range 8).foldl (fun t l => t.wrV m l (BitVec.ofNat 32 (f l))) s

/-- A lane of the group, ejected to context 0. -/
def comet : State :=
  { lane with
    comets := [(0, { Comet.empty with lane := 2, live := BitVec.allOnes 64, started := true })], focus := .comet 0 }

/-- The block's sequencer, at a bundle that has passed its checks. -/
def seqr : State :=
  { (lane.modBlk 0 fun x => { x with
      node := { x.node with facetw := 4 }, seq := some { Seq.launch 4 0x1000 with checked := true } }) with
    focus := .seqr 0 }

/-- Meridian 0, running a program of one word on an event. -/
def filt : State := { State.reset.withFetchWord 16 0xB800 with agenda := [], focus := .filter 0 }

/-- Nothing holds an access of the unit in focus, as `State.grants` asks. -/
def granted (s : State) (k : OutKind) (key n : Nat) : Bool :=
  !s.pageHeld key && decide (s.reached s.site.asker k key n = .ok) && !s.arbHeld key (s.blk s.unitBlk).part
theorem grants_of {s : State} {k : OutKind} {key n : Nat} (h : granted s k key n = true) : s.grants k key n := by
  simp only [granted, Bool.and_eq_true, Bool.not_eq_true', decide_eq_true_eq] at h
  exact ⟨h.1.1, h.1.2, h.2⟩

/-- The state of a step that goes on. -/
def next (o : Host.Outcome State Fault Refusal) : State :=
  match o with
  | .next t => t
  | _ => State.reset


/-! ## Witnesses: register instructions -/

/-- The group of `lane` with one lane active in its split. -/
def lone : State := lane.modSpl 0 0 0 fun x => { x with am := 1 }

/-- Hypotheses of IntegerResults: the lane forms. -/
theorem witness_integer_lanes : ∀ i ∈ ([
    .iadd 0 false 4 8 (.vv 16), .isub 0 false 4 8 (.vv 16), .imlo 0 false 4 8 (.vv 16), .imhiS 0 false 4 8 (.vv 16),
    .imhiZ 0 false 4 8 (.vv 16), .imac 0 false 4 8 (.vv 16), .idivS 0 false 4 8 (.vv 16), .idivZ 0 false 4 8 (.vv 16),
    .iabs 0 false 4 (.vv 16), .ineg 0 false 4 (.vv 16), .iminS 0 false 4 8 (.vv 16), .iminZ 0 false 4 8 (.vv 16),
    .imaxS 0 false 4 8 (.vv 16), .imaxZ 0 false 4 8 (.vv 16), .and 0 false 4 8 (.vv 16), .or 0 false 4 8 (.vv 16),
    .xor 0 false 4 8 (.vv 16), .andn 0 false 4 8 (.vv 16), .shl 0 false 4 8 (.vv 16), .shr 0 false 4 8 (.vv 16),
    .sar 0 false 4 8 (.vv 16), .rol 0 false 4 8 (.vv 16), .bfxS 0 false 4 8 (.vv 16), .bfxZ 0 false 4 8 (.vv 16),
    .bfi 0 false 4 8 (.vv 16), .not 0 false 4 (.vv 16), .clz 0 false 4 (.vv 16), .popc 0 false 4 (.vv 16),
    .brev 0 false 4 (.vv 16), .mov 0 false 4 (.vv 16)] : List Instr),
    (intOperands i).any (fun p => lane.mayIssue i p.1 && !(lane.execs p.1).isEmpty) = true := by decide +kernel

/-- Hypotheses of IntegerResults: the uniform forms, 64 bits wide where there are two widths. -/
theorem witness_integer_uniform : ∀ i ∈ ([
    .iadd 0 true 4 8 (.ss 16), .isub 0 true 4 8 (.ss 16), .imlo 0 true 4 8 (.ss 16), .imhiS 0 true 4 8 (.ss 16),
    .imhiZ 0 true 4 8 (.ss 16), .imac 0 true 4 8 (.ss 16), .idivS 0 true 4 8 (.ss 16), .idivZ 0 true 4 8 (.ss 16),
    .iabs 0 true 4 (.ss 16), .ineg 0 true 4 (.ss 16), .iminS 0 true 4 8 (.ss 16), .iminZ 0 true 4 8 (.ss 16),
    .imaxS 0 true 4 8 (.ss 16), .imaxZ 0 true 4 8 (.ss 16), .and 0 true 4 8 (.ss 16), .or 0 true 4 8 (.ss 16),
    .xor 0 true 4 8 (.ss 16), .andn 0 true 4 8 (.ss 16), .shl 0 true 4 8 (.ss 16), .shr 0 true 4 8 (.ss 16),
    .sar 0 true 4 8 (.ss 16), .rol 0 true 4 8 (.ss 16), .bfxS 0 true 4 8 (.ss 16), .bfxZ 0 true 4 8 (.ss 16),
    .bfi 0 true 4 8 (.ss 16), .not 0 true 4 (.ss 16), .clz 0 true 4 (.ss 16), .popc 0 true 4 (.ss 16),
    .brev 0 true 4 (.ss 16), .mov 0 true 4 (.ss 16)] : List Instr),
    (intOperands i).any (fun p => lane.mayIssue i p.1 && !(lane.execs p.1).isEmpty) = true := by decide +kernel

/-- Hypotheses of IntegerResults: IADDC, LEA, MOVI and MOVHI. -/
theorem witness_integer_others : ∀ i ∈ ([
    .iaddc 0 false 4 8 (.vv 16), .iaddc 0 true 4 8 (.ss 16), .lea 0 false 4 8 (.vv 16), .lea 0 true 4 8 (.ss 16),
    .moviS 0 4 1, .movhiS 0 4 1] : List Instr),
    lane.mayIssue i 0 && !(lane.execs 0).isEmpty = true := by decide +kernel

/-- Hypotheses of PredicateAndVoteResults: the instructions that write a pair. -/
theorem witness_predicate : ∀ i ∈ ([
    .icmp 0 .lt 1 8 (.vv 16) false false, .fcmp 0 .lt 1 8 (.vv 16) .f32, .pand 0 1 0 0, .por 0 1 0 0, .pxor 0 1 0 0,
    .pnot 0 1 0] : List Instr),
    (lane.pairResult 0 i).any (fun p => lane.mayIssue i p.1 && !(lane.execs p.1).isEmpty) = true := by decide +kernel

/-- Hypotheses of PredicateAndVoteResults: the votes. -/
theorem witness_votes : ∀ i ∈ ([
    .voteAll 0 1 0 false, .voteAny 0 1 0 false, .voteEq 0 1 0 false, .voteBal 0 4 0 false] : List Instr),
    lane.mayIssue i 0 && !(lane.execs 0).isEmpty = true := by decide +kernel

/-- Hypotheses of WordAndPackedResults: the instructions that write a word. -/
theorem witness_words : ∀ i ∈ ([
    .moviV 0 4 1, .movhiV 0 4 1, .sel 0 4 8 12 0, .fadd 0 4 8 (.vv 16), .fsub 0 4 8 (.vv 16), .fmul 0 4 8 (.vv 16),
    .ffma 0 4 8 (.vv 16), .fmin 0 4 8 (.vv 16), .fmax 0 4 8 (.vv 16), .fclass 0 4 (.vv 16), .pfmaF16 0 4 8 (.vv 16),
    .pfmaBf16 0 4 8 (.vv 16), .fexp2 0 4 8 .f32, .flog2 0 4 8 .f32, .frcp 0 4 8 .f32, .frsq 0 4 8 .f32, .fsqrt 0 4 8 .f32,
    .fsinpi 0 4 8 .f32, .fcospi 0 4 8 .f32, .ftanh 0 4 8 .f32, .fsigm 0 4 8 .f32, .fgelu 0 4 8 .f32, .fsilu 0 4 8 .f32,
    .ferf 0 4 8 .f32] : List Instr),
    (lane.wordResult 0 i).any (fun p => lane.mayIssue i p.1 && !(lane.execs p.1).isEmpty) = true := by decide +kernel

/-- Hypotheses of WordAndPackedResults: the elementwise packed instructions. -/
theorem witness_packed : ∀ i ∈ ([
    .padd 0 4 8 12 .e8 false false, .psub 0 4 8 12 .e8 false false, .pmul 0 4 8 12 .e8 false false, .pmin 0 4 8 12 .e8 false,
    .pmax 0 4 8 12 .e8 false, .pcmpEq 0 4 8 12 .e8 false, .pcmpLt 0 4 8 12 .e8 false] : List Instr),
    (packedResult i).any (fun p => lane.mayIssue i p.1 && !(lane.execs p.1).isEmpty) = true := by decide +kernel

/-- Hypotheses of WordAndPackedResults and Conversions: PDOT, PWIDEN, PNARROW, typed CVT to a word and to a pair. -/
theorem witness_packed_others : ∀ i ∈ ([
    .pdot 0 4 8 12 .e8 false, .pwiden 0 4 12 .e8 false, .pnarrow 0 4 8 12 .e8 false, .cvt 0 4 8 .s32 .f32 false false,
    .cvt 0 4 8 .s64 .f32 false false] : List Instr),
    lane.mayIssue i 0 && !(lane.execs 0).isEmpty = true := by decide +kernel

/-- Hypotheses of RegisterFrame. -/
theorem witness_frame_a : ∀ i ∈ ([
    .iadd 0 false 4 8 (.vv 16), .isub 0 false 4 8 (.vv 16), .imlo 0 false 4 8 (.vv 16), .imhiS 0 false 4 8 (.vv 16),
    .imhiZ 0 false 4 8 (.vv 16), .imac 0 false 4 8 (.vv 16), .idivS 0 false 4 8 (.vv 16), .idivZ 0 false 4 8 (.vv 16),
    .iabs 0 false 4 (.vv 16), .ineg 0 false 4 (.vv 16), .iminS 0 false 4 8 (.vv 16), .iminZ 0 false 4 8 (.vv 16),
    .imaxS 0 false 4 8 (.vv 16), .imaxZ 0 false 4 8 (.vv 16), .and 0 false 4 8 (.vv 16), .or 0 false 4 8 (.vv 16),
    .xor 0 false 4 8 (.vv 16), .andn 0 false 4 8 (.vv 16), .shl 0 false 4 8 (.vv 16), .shr 0 false 4 8 (.vv 16),
    .sar 0 false 4 8 (.vv 16), .rol 0 false 4 8 (.vv 16), .bfxS 0 false 4 8 (.vv 16), .bfxZ 0 false 4 8 (.vv 16),
    .bfi 0 false 4 8 (.vv 16), .not 0 false 4 (.vv 16), .clz 0 false 4 (.vv 16), .popc 0 false 4 (.vv 16),
    .brev 0 false 4 (.vv 16), .mov 0 false 4 (.vv 16), .iaddc 0 false 4 8 (.vv 16), .lea 0 false 4 8 (.vv 16),
    .icmp 0 .lt 1 8 (.vv 16) false false, .fcmp 0 .lt 1 8 (.vv 16) .f32, .pand 0 1 0 0, .por 0 1 0 0, .pxor 0 1 0 0,
    .pnot 0 1 0, .moviV 0 4 1, .movhiV 0 4 1, .sel 0 4 8 12 0, .fadd 0 4 8 (.vv 16), .fsub 0 4 8 (.vv 16)] : List Instr),
    (regWrites i).any (fun p => lane.mayIssue i p.1 && !(lane.execs p.1).isEmpty) = true := by decide +kernel

/-- Hypotheses of RegisterFrame. -/
theorem witness_frame_b : ∀ i ∈ ([
    .fmul 0 4 8 (.vv 16), .ffma 0 4 8 (.vv 16), .fmin 0 4 8 (.vv 16), .fmax 0 4 8 (.vv 16), .fclass 0 4 (.vv 16),
    .pfmaF16 0 4 8 (.vv 16), .pfmaBf16 0 4 8 (.vv 16), .fexp2 0 4 8 .f32, .flog2 0 4 8 .f32, .frcp 0 4 8 .f32,
    .frsq 0 4 8 .f32, .fsqrt 0 4 8 .f32, .fsinpi 0 4 8 .f32, .fcospi 0 4 8 .f32, .ftanh 0 4 8 .f32, .fsigm 0 4 8 .f32,
    .fgelu 0 4 8 .f32, .fsilu 0 4 8 .f32, .ferf 0 4 8 .f32, .padd 0 4 8 12 .e8 false false, .psub 0 4 8 12 .e8 false false,
    .pmul 0 4 8 12 .e8 false false, .pmin 0 4 8 12 .e8 false, .pmax 0 4 8 12 .e8 false, .pcmpEq 0 4 8 12 .e8 false,
    .pcmpLt 0 4 8 12 .e8 false, .moviS 0 4 1, .movhiS 0 4 1, .pdot 0 4 8 12 .e8 false, .pwiden 0 4 12 .e8 false,
    .pnarrow 0 4 8 12 .e8 false, .cvt 0 4 8 .s32 .f32 false false, .voteAll 0 1 0 false, .voteAny 0 1 0 false,
    .voteEq 0 1 0 false, .voteBal 0 4 0 false, .shflIdx 0 4 8 12 false, .shflUp 0 4 8 12 false, .shflDn 0 4 8 12 false,
    .shflXor 0 4 8 12 false, .redux 0 4 8 false 1 .iadd, .scanInc 0 4 8 false 1 .iadd, .scanExc 0 4 8 false 1 .iadd] : List Instr),
    (regWrites i).any (fun p => lane.mayIssue i p.1 && !(lane.execs p.1).isEmpty) = true := by decide +kernel

/-- Hypotheses of Collectives: the shuffles, REDUX and the scans. -/
theorem witness_shuffles : ∀ i ∈ ([
    .shflIdx 0 4 8 12 false, .shflUp 0 4 8 12 false, .shflDn 0 4 8 12 false, .shflXor 0 4 8 12 false,
    .redux 0 4 8 false 1 .iadd, .scanInc 0 4 8 false 1 .iadd, .scanExc 0 4 8 false 1 .iadd] : List Instr),
    lane.mayIssue i 0 && !(lane.execs 0).isEmpty = true := by decide +kernel

/-- Hypotheses of Collectives: the operands of the shuffles. -/
theorem witness_shuffle_operands : ∀ i ∈ ([
    .shflIdx 0 4 8 12 false, .shflUp 0 4 8 12 false, .shflDn 0 4 8 12 false, .shflXor 0 4 8 12 false] : List Instr),
    (shuffleOperands i).isSome = true := by decide +kernel

/-- Hypotheses of Collectives: a split of one lane at a collective in its .G form. -/
theorem witness_gathers : ∀ i ∈ ([
    .voteAll 0 1 0 true, .voteAny 0 1 0 true, .voteBal 0 4 0 true, .voteEq 0 1 0 true, .shflIdx 0 4 8 12 true,
    .shflUp 0 4 8 12 true, .shflDn 0 4 8 12 true, .shflXor 0 4 8 12 true, .redux 0 4 8 true 1 .iadd,
    .scanInc 0 4 8 true 1 .iadd, .scanExc 0 4 8 true 1 .iadd] : List Instr),
    (gathers i).any (fun g => (lone.mayIssue i g) && !(lone.topPath 0 0 0) && hasLane (lone.liveLanes 0 0) 1 &&
      !(hasLane (lone.spl 0 0 0).gm 1) && !(hasLane (lone.spl 0 0 0).am 1) && (lone.grp 0 0).splits.all fun e => !(e.2.wait == .collective lone.pc)) = true := by decide +kernel

/-- Hypotheses of Collectives: a vote of the whole group. -/
theorem witness_gather_merges : lane.focus = .split 0 0 0 ∧ lane.mayIssue (.voteBal 0 4 2 true) 0 = true ∧
    lane.topPath 0 0 0 = false ∧ (lane.spl 0 0 0).parked = false ∧ lane.liveLanes 0 0 ≠ 0 ∧ (lane.spl 0 0 0).gm = 0 ∧
    (lane.spl 0 0 0).am = lane.liveLanes 0 0 ∧ ∀ e ∈ (lane.grp 0 0).splits, e.2.wait ≠ .collective lane.pc := by decide +kernel

/-- Hypotheses of Conversions: a valid format word in every lane, FP32 to BF16 by CVT, FP32 to MX-E4M3 by QSCALE and QPACK. -/
theorem witness_format_word : let s := setV (setV lane 12 fun _ => 0x20) 13 fun _ => 0x60
    (s.mayIssue (.cvtFw 0 4 8 12) 0 = true ∧ s.exec 0 ≠ 0 ∧ (∀ l ∈ s.execs 0, s.rdV 12 l = 0x20) ∧
      fwGood (.cvtFw 0 4 8 12) 0x20 .fp32 .bf16 = true) ∧
    (s.mayIssue (.qscale 0 4 8 13) 0 = true ∧ (∀ l ∈ s.execs 0, s.rdV 13 l = 0x60) ∧
      fwGood (.qscale 0 4 8 13) 0x60 .fp32 .mxE4M3 = true) ∧
    s.mayIssue (.qpack 0 16 24 13) 0 = true ∧ fwGood (.qpack 0 16 24 13) 0x60 .fp32 .mxE4M3 = true := by decide +kernel

/-- Hypotheses of Conversions: no executing lane, lanes that disagree, a word of reserved formats. -/
theorem witness_format_traps : let s := setV lane 12 fun l => l
    s.mayIssue (.cvtFw 1 4 8 12) 1 = true ∧ s.exec 1 = 0 ∧
    s.mayIssue (.cvtFw 0 4 8 12) 0 = true ∧ 0 ∈ s.execs 0 ∧ 1 ∈ s.execs 0 ∧ s.rdV 12 0 ≠ s.rdV 12 1 := by decide +kernel
theorem witness_format_reserved : let s := setV lane 12 fun _ => 0xFFFFFFFF
    (s.mayIssue (.cvtFw 0 4 8 12) 0 = true ∧ s.exec 0 ≠ 0 ∧ ∀ l ∈ s.execs 0, s.rdV 12 l = 0xFFFFFFFF) ∧
    ∀ sf df, fwGood (.cvtFw 0 4 8 12) 0xFFFFFFFF sf df = false := by
  refine ⟨by decide +kernel, fun sf df => ?_⟩
  cases sf <;> cases df <;> decide +kernel

/-! ## Witnesses: branches, convergence, traps -/

/-- A state whose group has predicate pair 1 true in the lanes of a mask. -/
def setP (s : State) (m : Mask) : State := s.modGrp 0 0 fun y => { y with preds := y.preds.set 1 m }

/-- Hypotheses of Branches: a split whose lanes all branch, and all go on. -/
theorem witness_branches : ∀ i ∈ ([.bra 0 4, .braEj 0 1 4, .call 0 4, .brx 0 8, .callx 0 8, .ret 0] : List Instr),
    (lane.focus = .split 0 0 0 ∧ lane.mayIssue i 0 = true ∧ lane.lanes ≠ 0 ∧ lane.topPath 0 0 0 = false ∧
      (lane.spl 0 0 0).am = lane.lanes ∧ ∀ l ∈ lanesOf lane.lanes, lane.rdP 0 l = true ∧
        lane.branchTo l i = lane.branchTo 0 i ∧ (lane.branchTo l i).any (fun p => !targetBad p.2) = true) := by decide +kernel
theorem witness_comet_branches : let s := comet.modCtx 0 fun x => { x with depth := 1 }
    ∀ i ∈ ([.bra 0 4, .braEj 0 1 4, .call 0 4, .ret 0] : List Instr),
    s.focus = .comet 0 ∧ s.mayIssue i 0 = true ∧ (s.ctx 0).lane < 64 ∧
      (s.branchTo (s.ctx 0).lane i).any (fun p => !targetBad p.2) = true := by decide +kernel
theorem witness_branches_not_taken : lane.mayIssue (.bra 1 4) 1 = true ∧ ∀ l ∈ lanesOf lane.lanes, lane.rdP 1 l = false := by
  decide +kernel

/-- Hypotheses of Branches: a lane with a misaligned target. -/
theorem witness_bad_targets : let s := setV lane 8 fun l => if l = 3 then 2 else 0
    ∀ i ∈ ([.brx 0 8, .callx 0 8] : List Instr), indirectBranch i = true ∧ s.mayIssue i 0 = true ∧ 3 ∈ s.execs 0 ∧
      s.branchTo 3 i = some (0, 2) ∧ targetBad 2 = true ∧ ∀ j ∈ s.execs 0, j < 3 →
        (s.branchTo j i).all (fun p => !targetBad p.2) = true := by decide +kernel

/-- The group of `lane` with four splits. -/
def crowded : State :=
  (lane.modGrp 0 0 fun y => { y with
    preds := [(1, 1)],
    splits := [(0, { Split.empty with am := 3, cm := 3, stack := [] }), (1, { Split.empty with am := 4, cm := 4 }),
      (2, { Split.empty with am := 8, cm := 8 }), (3, { Split.empty with am := 0xF0, cm := 0xF0 })] })

/-- Hypotheses of Divergence: the lanes of a split part, with a free split index and without one. -/
theorem witness_divergence : ∀ s ∈ [setP lane 0x0F, setP lane 0xF0], s.focus = .split 0 0 0 ∧
    s.mayIssue (.bra 2 4) 2 = true ∧ (s.spl 0 0 0).am = s.lanes ∧ (s.spl 0 0 0).stack.length < 7 ∧
    (s.grp 0 0).freeSplits = [1, 2, 3] ∧ s.exec 2 ≠ 0 ∧ s.exec 2 ≠ s.lanes := by decide +kernel
theorem witness_divergence_to_stack : crowded.focus = .split 0 0 0 ∧ crowded.mayIssue (.bra 2 4) 2 = true ∧
    (crowded.spl 0 0 0).am = crowded.lanes ∧ (crowded.grp 0 0).freeSplits = [] ∧ (crowded.spl 0 0 0).stack.length < 7 ∧
    crowded.exec 2 ≠ 0 ∧ crowded.exec 2 ≠ crowded.lanes ∧ crowded.rdP 2 (lowestLane crowded.lanes) = true := by
  decide +kernel

/-- The group of `lane` with one split, a deferred entry on top of its stack. -/
def deferred (path : Bool) : State :=
  lane.modSpl 0 0 0 fun x => { x with am := 0x0F, cm := 0x0F, stack := [{ path := path, pc := 0x40, mask := 0xFF }] }

/-- Hypotheses of Joins: the two kinds of entry, and an ejected lane. -/
theorem witness_joins : (∀ p : Bool, (deferred p).mayIssue (.join 0) 0 = true ∧ (deferred p).focus = .split 0 0 0 ∧
      ((deferred p).grp 0 0).splits = [(0, (deferred p).spl 0 0 0)] ∧
      ((deferred p).spl 0 0 0).stack = [{ path := p, pc := 0x40, mask := 0xFF }] ∧ ((deferred p).grp 0 0).rj = 0) ∧
    ((deferred false).spl 0 0 0).wm = 0 ∧ ((deferred false).grp 0 0).returned = 0 ∧
    ((deferred false).spl 0 0 0).am = minusLanes ((deferred false).spl 0 0 0).cm ((deferred false).grp 0 0).exited ∧
    ((deferred false).spl 0 0 0).am ≠ 0 ∧
    comet.mayIssue (.join 0) 0 = true ∧ (comet.ctx 0).arrived = none := by decide +kernel

/-- Hypotheses of ExitYieldLiveTrap: with and without executing lanes. -/
theorem witness_exit_yield : ∀ g ∈ ([0, 2] : List Pred), ∀ i ∈ ([.exit g, .yield g, .live g 1 8, .trap g 5] : List Instr),
    lane.focus = .split 0 0 0 ∧ lane.mayIssue i g = true ∧ lane.topPath 0 0 0 = false ∧ (lane.exec g = 0 ↔ g = 2) := by
  decide +kernel
theorem witness_yield_elsewhere : (deferred true).mayIssue (.yield 0) 0 = true ∧
    (deferred true).topEntry 0 0 0 = some { path := true, pc := 0x40, mask := 0xFF } ∧
    comet.mayIssue (.yield 0) 0 = true ∧ comet.mayIssue (.live 0 1 8) 0 = true := by decide +kernel
theorem witness_exit_ends : lane.exec 0 ≠ 0 ∧ allLanes (lane.blk 0).width &&& ~~~((lane.grp 0 0).exited ||| lane.exec 0) = 0 := by
  decide +kernel

/-- `lane` with a trap vector. -/
def vectored : State := lane.modFacet 0 fun x => { x with tvec := 0x8000 }

/-- A load of two words in flight to a register pair of lane 0. -/
def linkLoad (m : Nat) : LaneOp :=
  { (default : LaneOp) with d := BitVec.ofNat _ m, bytes := 8, acc := [{ (default : Access) with lane := 0 }] }

/-- Hypotheses of TrapEntry: a vectored trap, and a parking one on a group and on an ejected lane. -/
theorem witness_trap_entry : vectored.focus = .split 0 0 0 ∧ vectored.issuing = true ∧ vectored.mem.wf = true ∧
    vectored.vectors 0 0 0 2 = true ∧ vectored.linkPending 0 0 0 = false ∧ (vectored.blk 0).width ≤ 64 ∧
    (vectored.blk 0).frameSlot 0 0 % 4096 + 64 + 8 * (vectored.blk 0).width ≤ 4096 ∧ lane.issuing = true ∧
    lane.vectors 0 0 0 2 = false ∧ comet.focus = .comet 0 ∧ comet.issuing = true ∧
    let s := { vectored with ops := [(1, linkLoad (vectored.blk 0).node.link)] }
    s.vectors 0 0 0 2 = true ∧ s.linkPending 0 0 0 = true := by decide +kernel

/-- The handler of a software trap of `vectored`. -/
def handler : State := vectored.takeTrapN 2 7 0xFF 0

/-- Hypotheses of TrapReturn: a frame of this split, of other lanes, with a bad RPC; and the trap before the return. -/
theorem witness_trap_return : handler.focus = .split 0 0 0 ∧ handler.mayIssue (.eret 0) 0 = true ∧
    (handler.spl 0 0 0).priv = true ∧ handler.anyBusy (lanesOf handler.lanes) = false ∧
    (let f := (handler.rdVPair (handler.blk 0).node.link (lowestLane (handler.spl 0 0 0).am)).toNat
     (handler.mem64 (f + 32) = (handler.spl 0 0 0).am ∧ targetBad (handler.mem64 (f + 8)) = false) ∧
     (let s := handler.modSpl 0 0 0 fun x => { x with am := 1 }
      s.mem64 (f + 32) ≠ (s.spl 0 0 0).am ∧ s.mayIssue (.eret 0) 0 = true ∧ (s.spl 0 0 0).priv = true) ∧
     let s : State := { handler with mem := handler.mem.write (f + 8) 1 2 }
     s.mem64 (f + 32) = (s.spl 0 0 0).am ∧ targetBad (s.mem64 (f + 8)) = true ∧ s.mayIssue (.eret 0) 0 = true) ∧
    (vectored.spl 0 0 0).am = vectored.lanes ∧ vectored.lanes ≠ 0 ∧ (vectored.blk 0).frameSlot 0 0 < 2 ^ 64 ∧
    vectored.pc.toNat % 4 = 0 ∧ vectored.pc.toNat + 4 < 2 ^ 52 ∧
    handler.ownOk (usesV [((handler.blk 0).node.link, 2)]) = true := by decide +kernel
/-- Hypotheses of TrapReturn: the frame is read where it was written; the link pair in another's tile. -/
theorem witness_trap_frame : (let f := (handler.blk 0).frameSlot 0 0
      (handler.rdVPair (handler.blk 0).node.link 0).toNat = f ∧ handler.frameAmask 0 f = (handler.spl 0 0 0).am ∧
      targetBad (handler.frameRpc 0 f) = false ∧
      ∀ i < 64 + 8 * (vectored.blk 0).width, handler.ctxKey 0 (f + i) = vectored.ctxKey 0 f + i) ∧
    let s := handler.modBlk 0 fun y => y.setTile (y.groupTile 0 y.node.link) (.owned .seqAny)
    s.mayIssue (.eret 0) 0 = true ∧ s.ownOk (usesV [((s.blk 0).node.link, 2)]) = false := by decide +kernel

/-- 06 R150, R152 on one trap: the software trap 7 saves its frame, and the return leads past it with the link pair as
before. -/
theorem test_trap_and_return : let t := next (exec (.trap 0 7) vectored)
    let u := next (exec (.eret 0) t)
    (t.pc = 0x8000 ∧ (t.spl 0 0 0).priv = true ∧ t.mem32 ((t.blk 0).frameSlot 0 0 + 16) = 0x702) ∧
    u.pc = 4 ∧ (u.spl 0 0 0).priv = false ∧ u.rdVPair (u.blk 0).node.link 3 = vectored.rdVPair (u.blk 0).node.link 3 := by
  decide +kernel

/-- Hypotheses of IssueChecks: each check that fails, where those before it pass. -/
theorem witness_issue_checks :
    (lane.issuing = true ∧ comet.issuing = true ∧ illegalFor lane.unitNode (.iadd 0 true 1 2 (.vv 4)) = true) ∧
    (illegalFor comet.unitNode (.give 0 0) = false ∧ comet.forbids (.give 0 0) = true) ∧
    (let s := lane.modBlk 0 fun y => { y with node := { y.node with vregs := 16 } }
     let i : Instr := .iadd 0 false 4 8 (.vv 16)
     illegalFor s.unitNode i = false ∧ s.forbids i = false ∧ s.budgetOk (instrUses s.unitNode i) = false) ∧
    let i : Instr := .iadd 0 false 4 8 (.vv 16)
    let u := instrUses lane.unitNode i
    illegalFor lane.unitNode i = false ∧ lane.forbids i = false ∧ lane.budgetOk u = true ∧
    (lane.modBlk 0 fun y => y.setTile 0 (.transfer .seqAny)).ownOk u = false ∧ lane.ownOk u = true ∧
    ({ lane with ops := [(1, linkLoad 8)] } : State).interlocked 0 u = true ∧ lane.interlocked 0 u = false ∧
    (lane.modBlk 0 fun y => { y with poisonRegs := [y.regKey 0 8 2] }).readsBad i 0 u = 4 := by decide +kernel

/-- Hypotheses of FloatRules: a NaN and a number; the field values of each class of words. -/
theorem witness_nan : f32Nan 0x7FC00001 = true ∧ f32Nan 0x3F800000 = false ∧ f32Nan 0xFF800000 = false := by decide +kernel
theorem witness_float_classes :
    ((0xFF800000 : Word).extractLsb' 23 8).toNat = 255 ∧ ((0xFF800000 : Word).extractLsb' 0 23).toNat = 0 ∧
    ((0x7FC00000 : Word).extractLsb' 23 8).toNat = 255 ∧ ((0x7FC00000 : Word).extractLsb' 0 23).toNat = 0x400000 ∧
    ((1 : Word).extractLsb' 23 8).toNat = 0 ∧ ((1 : Word).extractLsb' 0 23).toNat = 1 ∧
    ((0x3F800000 : Word).extractLsb' 23 8).toNat = 127 := by decide +kernel

/-- Hypotheses of InstructionTraps. -/
theorem witness_privilege : ∀ i ∈ ([.eret 0, .mfs 0 4 .accown, .mts 0 4 .accown, .ctxsv 0 4, .ctxld 0 4] : List Instr),
    privilegedOnly i = some 0 ∧ lane.mayIssue i 0 = true ∧ lane.privileged = false := by decide +kernel
theorem witness_fetch_traps : lane.issuing = true ∧ decodeLane 0xF0000000 0 = none ∧ vectored.vectors 0 0 0 0 = true := by
  decide +kernel

/-- The group of `lane` with 16 lanes, all active, and a limit `e` of ejection; pair 1 true in the lanes of a mask; the share `n` of
its partition. -/
def wide (e n : Nat) (m : Mask) : State :=
  (setP ((lane.modBlk 0 fun y => { y with node := { y.node with width := 16 } }).modSpl 0 0 0 fun x => { x with am := 0xFFFF, cm := 0xFFFF }) m).modGrp 0 0
    (fun y => { y with ejt := BitVec.ofNat _ e }) |>.modPart 0 fun p => { p with comet := n }
/-- Hypotheses of Branches: BRA.EJ whose taken side, or other side, is the smaller one: it ejects, the limit or the contexts are too
few, the sides are of one size, none is taken. -/
theorem witness_ejecting_branch : (∀ x ∈ [(15, 64, (3 : Mask)), (1, 64, 3), (15, 1, 3), (15, 64, 0xFF), (15, 64, 0)],
      let s := wide x.1 x.2.1 x.2.2
      s.focus = .split 0 0 0 ∧ s.mayIssue (.braEj 2 1 4) 2 = true ∧ s.mayIssue (.bra 2 4) 2 = true ∧ (s.spl 0 0 0).am = s.lanes ∧
      s.hasSplit 0 0 0 = true ∧ s.exec 2 = x.2.2 ∧ laneCount x.2.2 ≤ laneCount (minusLanes s.lanes x.2.2) ∧
      (s.blk 0).width = 16 ∧ ((s.grp 0 0).ejt.toNat % 16) = x.1 ∧
      s.freeContexts (clusterOfCore (s.blk 0).core) (s.blk 0).part = x.2.1 ∧ (s.spl 0 0 0).stack.length < 8) ∧
    (let s := wide 15 64 0xFFFC
     s.mayIssue (.braEj 2 1 4) 2 = true ∧ laneCount (minusLanes s.lanes (s.exec 2)) = 2 ∧ laneCount (s.exec 2) = 14) := by
  decide +kernel

/-- The group of `s` whose lanes 0-3, 4-5 and 6-7 name three targets in a register pair. -/
def parting (s : State) (m : Nat) : State := setV (setV s m fun l => 64 * (1 + l / 4 + l / 6)) (m + 1) fun _ => 0
/-- Hypotheses of Divergence: indirect branches with three next PCs, with free split indices and with none. -/
theorem witness_divergence_paths : ∀ s ∈ [parting (parting lane 8) (lane.blk 0).node.link,
      parting (parting (crowded.modSpl 0 0 0 fun x => { x with am := 0xFF, cm := 0xFF }) 8) (lane.blk 0).node.link],
    ∀ i ∈ ([.brx 0 8, .callx 0 8, .ret 0] : List Instr),
    (s.focus = .split 0 0 0 ∧ s.branchTo (lowestLane s.lanes) i = some (0, 64) ∧ s.mayIssue i 0 = true ∧
      (s.spl 0 0 0).am = s.lanes ∧ s.hasSplit 0 0 0 = true ∧ s.lanes = 0xFF) ∧
    (∀ l ∈ lanesOf s.lanes, s.rdP 0 l = true ∧ s.branchTo l i = some (0, BitVec.ofNat 64 (64 * (1 + l / 4 + l / 6))) ∧
      targetBad (BitVec.ofNat 64 (64 * (1 + l / 4 + l / 6))) = false) ∧
    (s.spl 0 0 0).stack.length + 1 + (2 - (s.grp 0 0).freeSplits.length) ≤ 8 := by decide +kernel
theorem witness_paths : (∀ l ∈ List.range 64, hasLane 0x0F l = decide (l < 4) ∧
      hasLane 0x30 l = (decide (4 ≤ l) && decide (l < 6)) ∧ hasLane 0xC0 l = (decide (6 ≤ l) && decide (l < 8))) ∧
    (∀ l ∈ List.range 8, 64 * (1 + l / 4 + l / 6) = if l < 4 then 64 else if l < 6 then 128 else 192) ∧
    lowestLane (0x0F : Mask) < lowestLane (0x30 : Mask) ∧ lowestLane (0x30 : Mask) < lowestLane (0xC0 : Mask) := by decide +kernel

/-- The group of `lane` whose split has a full stack on chip and `n` entries in its save area. -/
def deep (n : Nat) : State :=
  setP (lane.modSpl 0 0 0 fun x => { x with stack := List.replicate 8 { path := false, pc := 0, mask := 0xFF }, spilled := n }) 0x0F
/-- Hypotheses of Divergence: a push that spills, and one that finds the save area full. -/
theorem witness_divergence_spills : ∀ n ∈ [0, 252, 256], let s := deep n
    s.focus = .split 0 0 0 ∧ s.mayIssue (.bra 2 4) 2 = true ∧ (s.spl 0 0 0).am = s.lanes ∧ s.mem.wf = true ∧
    (s.spl 0 0 0).stack.length = 8 ∧ (s.grp 0 0).freeSplits = [1, 2, 3] ∧ s.exec 2 ≠ 0 ∧ s.exec 2 ≠ s.lanes ∧
    (s.spl 0 0 0).spilled = n ∧ ((s.blk 0).saveArea 0 0 + 16 * n) % 4096 + 64 ≤ 4096 + 16 * (n / 256 * 4) := by decide +kernel

/-- The group of `lane` in two splits of one CM, the other of which waits at the JOIN. -/
def joining : State :=
  lane.modGrp 0 0 fun y => { y with
    joinAt := [(4, 0x40)]
    splits := [(0, { Split.empty with am := 0x0F, cm := 0xFF }),
      (1, { Split.empty with am := 0, wm := 0xF0, cm := 0xFF, wait := .join })] }
/-- Hypotheses of Joins: the last of two splits. -/
theorem witness_joins_several : joining.focus = .split 0 0 0 ∧ joining.mayIssue (.join 0) 0 = true ∧
    (joining.grp 0 0).splits.Pairwise (fun e f => e.1 < f.1) ∧ (0, joining.spl 0 0 0) ∈ (joining.grp 0 0).splits ∧
    (∀ e ∈ (joining.grp 0 0).splits, 0 ≤ e.1 ∧ e.2.depth ≤ (joining.spl 0 0 0).stack.length ∧ e.2.cm = (joining.spl 0 0 0).cm ∧
      subLanes e.2.wm (joining.spl 0 0 0).cm = true ∧
      (e.1 ≠ 0 → e.2.wait = .join ∧ e.2.am = 0 ∧ e.2.gm = 0 ∧ e.2.wm ≠ 0)) ∧
    (joining.spl 0 0 0).spilled = 0 ∧ (joining.spl 0 0 0).am ≠ 0 ∧
    subLanes (joining.spl 0 0 0).am (joining.spl 0 0 0).cm = true ∧ (joining.spl 0 0 0).wait = .ready ∧
    (joining.spl 0 0 0).gm = 0 ∧ joining.topPath 0 0 0 = false ∧ (joining.grp 0 0).rj = 0 ∧ (joining.grp 0 0).returned = 0 ∧
    minusLanes (joining.spl 0 0 0).cm (joining.grp 0 0).exited = 0xFF ∧
    ∀ l < 8, hasLane (joining.spl 0 0 0).am l = true ∨ ∃ e ∈ (joining.grp 0 0).splits, hasLane e.2.wm l = true := by decide +kernel

/-! ## Witnesses: memory -/

/-- `lane` with the pair v9:v8 at consecutive aligned addresses, and v10 at addresses of shared memory. -/
def spread (n : Nat) : State := setV (setV lane 8 fun l => 64 + n * l) 10 fun l => n * l

/-- The entry that every access of `spread` meets. -/
def theHit : Nat → TlbEntry × Bool := fun _ => (oneEntry, true)

/-- Hypotheses of GlobalAccessesStart, for every load and store form. -/
theorem witness_loads (l : Nat) : (spread 16).loadAddr l (.ld 0 4 8 .w .plain none) = some (0, 4, 4, false, (spread 16).rdVPair 8 l) ∧
    (spread 16).loadAddr l (.ldW 0 4 8 0) = some (0, 4, 4, false, (spread 16).rdVPair 8 l + 0) ∧
    (spread 16).storeAddr l (.st 0 4 8 .d .plain none) = some (0, 4, 8, (spread 16).rdVPair 8 l) :=
  ⟨rfl, rfl, rfl⟩
theorem witness_accesses_pass : let s := spread 16
    (∀ i ∈ ([.ld 0 4 8 .w .plain none, .ldW 0 4 8 0, .ldD 0 4 8 0, .ldQ 0 4 8 0, .st 0 4 8 .q .plain none, .stW 0 4 8 0,
      .stD 0 4 8 0, .stQ 0 4 8 0] : List Instr), s.mayIssue i 0 = true) ∧
    (∀ n ∈ [4, 8, 16], s.execs 0 ≠ [] ∧ s.pendFull 4 ((n + 3) / 4) = false ∧ s.anyAcquiring (s.execs 0) = false ∧
      ∀ l ∈ s.execs 0, (s.rdVPair 8 l).toNat % n = 0 ∧ (s.rdVPair 8 l).toNat < 2 ^ 52 ∧
        s.resolve s.site .load false (s.rdVPair 8 l).toNat = .ok (theHit l).1 (theHit l).2 ∧
        s.resolve s.site .store true (s.rdVPair 8 l).toNat = .ok (theHit l).1 (theHit l).2 ∧
        (theHit l).1.mt ≠ .s ∧ noAtomics (theHit l).1.mt = false ∧ (theHit l).1.dirty = true ∧
        s.poisoned ((theHit l).1.key (s.rdVPair 8 l).toNat) n = false ∧
        s.outside ((theHit l).1.key (s.rdVPair 8 l).toNat) = false ∧
        ∀ m ∈ s.execs 0, l < m → (theHit m).1.key (s.rdVPair 8 m).toNat ≠ (theHit l).1.key (s.rdVPair 8 l).toNat) ∧
    s.stores = [] := by decide +kernel

/-- Hypotheses of Atomics, with `witness_accesses_pass`. -/
theorem witness_atomics : let s := { spread 16 with hostcap := true }
    (∀ i ∈ ([
      .atomAdd 0 16 8 ⟨false, false, false⟩ false, .atomMinS 0 16 8 ⟨false, false, false⟩ false,
      .atomMinZ 0 16 8 ⟨false, false, false⟩ false, .atomMaxS 0 16 8 ⟨false, false, false⟩ false,
      .atomMaxZ 0 16 8 ⟨false, false, false⟩ false, .atomAnd 0 16 8 ⟨false, false, false⟩ false,
      .atomOr 0 16 8 ⟨false, false, false⟩ false, .atomXor 0 16 8 ⟨false, false, false⟩ false,
      .atomExch 0 16 8 ⟨false, false, false⟩ false, .incw 0 16 8 ⟨false, false, false⟩, .decw 0 16 8 ⟨false, false, false⟩,
      .atomAddb 0 16 8 ⟨false, false, false⟩ 1, .atomCasW 0 16 8 ⟨false, false, false⟩,
      .atomCasD 0 16 8 ⟨false, false, false⟩, .atomCasQ 0 16 8 ⟨false, false, false⟩] : List Instr),
      (atomicOf i).any (fun p => s.mayIssue i p.1 && !(s.pendFull p.2.1 4)) = true) ∧ s.hostcap = true ∧ s.execs 0 ≠ [] ∧
    s.anyAcquiring (s.execs 0) = false ∧ ∀ l ∈ s.execs 0,
      s.resolve s.site .store true (s.rdVPair 8 l).toNat = .ok (theHit l).1 (theHit l).2 ∧
      s.poisoned ((theHit l).1.key (s.rdVPair 8 l).toNat) 16 = false := by decide +kernel

/-- Hypotheses of Atomics: a CAS.Q to host memory that the root port does not complete. -/
theorem witness_cas_host : let e : TlbEntry := { oneEntry with pa := 0x400000000000 }
    let s : State := { spread 16 with tlbs := [(0, [e])] }
    (atomicOf (.atomCasQ 0 16 8 ⟨false, false, false⟩)).any (fun p => s.mayIssue (.atomCasQ 0 16 8 ⟨false, false, false⟩) p.1 &&
      !(s.pendFull p.2.1 4)) = true ∧ s.hostcap = false ∧ s.anyAcquiring (s.execs 0) = false ∧
    (s.execs 0).filter (fun l => isHost (e.key (s.rdVPair 8 l).toNat)) = [0, 1, 2, 3, 4, 5, 6, 7] ∧ ∀ l ∈ s.execs 0,
      s.resolve s.site .store true (s.rdVPair 8 l).toNat = .ok e true ∧ (s.rdVPair 8 l).toNat % 16 = 0 ∧
      s.poisoned (e.key (s.rdVPair 8 l).toNat) 16 = false := by decide +kernel

/-- Hypotheses of CoreLocalAccesses: loads and stores of shared memory. -/
theorem witness_shared : let s := spread 16
    (∀ i ∈ ([.lds 0 4 10 .w false, .ldsW 0 4 10 0, .sts 0 4 10 .w false, .stsW 0 4 10 0] : List Instr),
      s.mayIssue i 0 = true) ∧ s.pendFull 4 1 = false ∧
    s.execs 0 ≠ [] ∧ s.anyAcquiring (s.execs 0) = false ∧ (∀ e ∈ s.stores, e.2.host = false ∧ e.2.stash.isSome = false) ∧
    (∀ l ∈ s.execs 0, (s.rdV 10 l).toNat % 4 = 0 ∧ (s.rdV 10 l).toNat + 4 ≤ s.unitNode.shared ∧
      s.poisoned (sharedKey s.unitBlk (s.rdV 10 l).toNat) 4 = false ∧
      (s.rdV 10 l + 4 * (0 : BitVec 10).signExtend 32).toNat = (s.rdV 10 l).toNat ∧
      ∀ m ∈ s.execs 0, l < m → s.rdV 10 m ≠ s.rdV 10 l) := by decide +kernel
theorem witness_shared_operands (l : Nat) :
    (spread 16).localLoadAddr l (.lds 0 4 10 .w false) = some (0, 4, 4, false, (spread 16).rdV 10 l) ∧
    (spread 16).localStoreAddr l (.stsW 0 4 10 0) = some (0, 4, 4, (spread 16).rdV 10 l + 4 * (0 : BitVec 10).signExtend 32) :=
  ⟨rfl, rfl⟩

/-- One lane that maps window 1 to the page at 0x3000. -/
def mapper : State := setV (setV (lane.modSpl 0 0 0 fun x => { x with am := 1 }) 8 fun _ => 0x3000) 12 fun _ => 1

/-- Hypotheses of CoreLocalAccesses: SMAP, and SMAP of a page that another window maps. -/
theorem witness_smap : mapper.mayIssue (.smap 0 4 8 12) 0 = true ∧ mapper.blocks.has mapper.unitBlk = true ∧
    mapper.execs 0 = [0] ∧ mapper.anyAcquiring (mapper.execs 0) = false ∧ (mapper.rdVPair 8 0).toNat = 0x3000 ∧
    (mapper.rdV 12 0).toNat < mapper.unitNode.stash / 4096 ∧ (mapper.blk 0).stash = [] ∧ mapper.stores = [] ∧
    let s := mapper.modBlk 0 fun x => { x with stash := [(0, { maps := 0x3000 })] }
    s.mayIssue (.smap 0 4 8 12) 0 = true ∧ ∃ e ∈ (s.blk 0).stash, e.1 ≠ (s.rdV 12 0).toNat ∧ e.2.maps = (s.rdVPair 8 0).toNat := by
  decide +kernel

/-- Hypotheses of AlignmentAndRange: lane 2 is misaligned; lane 2 lies above 2^52. -/
theorem witness_misaligned : let s := setV lane 8 fun l => if l = 2 then 65 else 64
    let u := setV lane 9 fun l => if l = 2 then 0x100000 else 0
    (∀ i ∈ ([.ld 0 4 8 .w .plain none, .stW 0 4 8 0, .incw 0 4 8 ⟨false, false, false⟩] : List Instr),
      s.mayIssue i 0 = true ∧ u.mayIssue i 0 = true) ∧ s.anyAcquiring (s.execs 0) = false ∧ s.pendFull 4 1 = false ∧
    (2 ∈ s.execs 0 ∧ (s.rdVPair 8 2).toNat % 4 ≠ 0 ∧ ∀ j ∈ s.execs 0, j < 2 → (s.rdVPair 8 j).toNat % 4 = 0) ∧
    (∀ l ∈ u.execs 0, (u.rdVPair 8 l).toNat % 4 = 0) ∧ 2 ^ 52 ≤ (u.rdVPair 8 2).toNat ∧
    ∀ j ∈ u.execs 0, j < 2 → (u.rdVPair 8 j).toNat < 2 ^ 52 := by decide +kernel

/-- Hypotheses of WaitsAndFences: the comparison holds, and fails, with `witness_accesses_pass` for the rest. -/
theorem witness_waitc : let s := spread 16
    s.mayIssue (.waitc 0 4 8 false .eq) 0 = true ∧ s.mayIssue (.waitc 0 4 8 true .ne) 0 = true ∧ s.topPath 0 0 0 = false ∧
    s.execs 0 ≠ [] ∧ s.anyAcquiring (s.execs 0) = false ∧
    ∀ l ∈ s.execs 0, s.resolve s.site .load false (s.rdVPair 8 l).toNat = .ok (theHit l).1 (theHit l).2 ∧
      s.mayPerform (.lane 0 0 l) s.nextId 0 ((theHit l).1.key (s.rdVPair 8 l).toNat) 8 (theHit l).1.mt .load = true ∧
      (∀ n ∈ [4, 8], granted s .read ((theHit l).1.key (s.rdVPair 8 l).toNat) n = true) ∧
      s.biasHeld ((theHit l).1.key (s.rdVPair 8 l).toNat) = false ∧
      s.poisoned ((theHit l).1.key (s.rdVPair 8 l).toNat) 8 = false ∧
      waitcHolds .eq (s.mem32 ((theHit l).1.key (s.rdVPair 8 l).toNat)) (s.rdV 4 l) = true ∧
      waitcHolds .ne (s.mem64 ((theHit l).1.key (s.rdVPair 8 l).toNat)) (s.rdVPair 4 l) = false := by decide +kernel
theorem witness_fences : (∀ i ∈ ([.pref 0 8, .fenceRel 0, .fenceAcq 0, .fenceAr 0] : List Instr), lane.mayIssue i 0 = true) ∧
    lane.execs 0 ≠ [] ∧ (∀ l ∈ lane.execs 0, lane.loading 0 0 l = false) ∧ lane.anyBusy (lane.execs 0) = false ∧
    let s := { lane with stores := [(1, { (default : StoreOp) with thread := .lane 0 0 2 })] }
    s.mayIssue (.fenceRel 0) 0 = true ∧ s.anyBusy (s.execs 0) = true := by decide +kernel
theorem witness_comet_fence : comet.mayIssue (.fenceAcq 0) 0 = true ∧ comet.execs 0 = [2] ∧
    comet.loading comet.unitBlk comet.unitGrp 2 = false := by decide +kernel

/-! ## Witnesses: tiles, barriers, rings, engines, special registers -/

/-- `lane` with a status word for the tile of v0. -/
def tiled (x : TileState) : State := lane.modBlk 0 fun y => y.setTile 0 x

/-- Hypotheses of TileHandOver: GIVE by the owner and TAKE of an owned tile; GIVE of a tile in transfer, and its TAKE by
the group, and while it is on its way to the sequencer; an unbound tile. -/
theorem witness_tiles : lane.exec 0 ≠ 0 ∧ (lane.blk 0).groupTile 0 0 = 0 ∧ (lane.blk 0).tileBound 0 = true ∧
    (lane.blk 0).tile 0 = .owned (.group 0) ∧ lane.localBusy (lane.execs 0) = false ∧ lane.topPath 0 0 0 = false ∧
    (∀ i ∈ ([.give 0 0, .take 0 0, .give 0 8, .take 0 8] : List Instr), lane.mayIssue i 0 = true) ∧
    (lane.blk 0).tileBound ((lane.blk 0).groupTile 0 8) = false := by decide +kernel
theorem witness_tiles_in_transfer : ∀ x ∈ [TileState.transfer (.group 0), .transfer .seqAny],
    (tiled x).mayIssue (.give 0 0) 0 = true ∧ (tiled x).mayIssue (.take 0 0) 0 = true ∧ ((tiled x).blk 0).tile 0 = x ∧
    ((tiled x).blk 0).tileBound 0 = true ∧ (tiled x).pend 0 0 = 0 ∧ ((tiled x).blk 0).gave.find 0 = none ∧
    (tiled x).exec 0 ≠ 0 ∧ (tiled x).topPath 0 0 0 = false := by decide +kernel
/-- Hypotheses of TileHandOver: GIVE while a core-local store of its lanes is in flight. -/
theorem witness_give_waits : let s := { lane with stores := [(1, { (default : StoreOp) with thread := .lane 0 0 2, shared := some 0 })] }
    s.mayIssue (.give 0 0) 0 = true ∧ (s.blk 0).tile 0 = .owned (.group 0) ∧ s.localBusy (s.execs 0) = true := by
  decide +kernel

/-- `lane` with a barrier 0 in the state given. -/
def barred (x : Barrier) : State := lane.modBlk 0 fun y => y.setBar 0 x
/-- Barrier 0 of two participants. -/
def bar2 : Barrier := { (default : Barrier) with x := 2 }

/-- Hypotheses of BlockBarriers: BAR.ARR of some lanes, of all of them before the last participant and as the last, and
twice. -/
theorem witness_arrivals : ∀ s ∈ [barred bar2, lane, barred { bar2 with n := 1 }, mapper],
    s.mayIssue (.barArr 0 0) 0 = true ∧ s.mayIssue (.barSync 0 0) 0 = true ∧ s.exec 0 ≠ 0 ∧ s.anyBusy (s.execs 0) = false ∧
    (((s.blk 0).bar 0).of 0).arrived = false ∧ ((s.blk 0).bar 0).n < ((s.blk 0).bar 0).x ∧
    (((s.blk 0).bar 0).of 0).lanes = 0 ∧ (((s.blk 0).bar 0).of 0).done = 0 ∧ (((s.blk 0).bar 0).of 0).sync = 0 ∧
    minusLanes (allLanes (s.blk 0).width) (s.grp 0 0).exited = 0xFF := by decide +kernel
theorem witness_arrival_cases : ((barred bar2).exec 0 = 0xFF ∧ ((barred bar2).blk 0).bar 0 = bar2) ∧
    (lane.exec 0 = 0xFF ∧ ((lane.blk 0).bar 0).n + 1 = ((lane.blk 0).bar 0).x) ∧ mapper.exec 0 = 1 ∧
    let s := barred { bar2 with groups := [(0, { (default : BarGroup) with lanes := 1 })] }
    s.mayIssue (.barArr 0 0) 0 = true ∧ s.exec 0 &&& (((s.blk 0).bar 0).of 0).lanes ≠ 0 ∧
      (((s.blk 0).bar 0).of 0).arrived = false := by decide +kernel
/-- Hypotheses of BlockBarriers: BAR.WAIT of a group that has not arrived and of one that has, BAR.SYNC whose phase has
completed. -/
theorem witness_barrier_waits : lane.mayIssue (.barWait 0 0) 0 = true ∧ (((lane.blk 0).bar 0).of 0).arrived = false ∧
    (let s := barred { bar2 with groups := [(0, { (default : BarGroup) with arrived := true })] }
     s.mayIssue (.barWait 0 0) 0 = true ∧ (((s.blk 0).bar 0).of 0).arrived = true ∧ s.topPath 0 0 0 = false) ∧
    let s := barred { bar2 with groups := [(0, { (default : BarGroup) with done := 0xFF })] }
    s.mayIssue (.barSync 0 0) 0 = true ∧ s.exec 0 &&& ~~~(((s.blk 0).bar 0).of 0).done = 0 := by decide +kernel

/-- `lane` in a block cluster of one member, whose barrier 1 has completed a phase of its group. -/
def clustered : State :=
  { lane.modBlk 0 fun y => { y with gang := some 7 } with
    gangs := [(7, { members := [0], cluster := true, bars := [(1, { (default : GangBar) with
      bar := { (default : Barrier) with x := 1, groups := [(0, { (default : BarGroup) with done := 0xFF })] } })] })] }

/-- Hypotheses of ClusterAndDieBarriers: outside a cluster; in one, an arrival, a wait, a completed phase. -/
theorem witness_cluster_barriers :
    (lane.clusterGang 0 = none ∧ ∀ i ∈ ([.cbarSync 0 1, .cbarArr 0 1, .cbarWait 0 1] : List Instr),
      lane.mayIssue i 0 = true ∧ clustered.mayIssue i 0 = true) ∧
    (clustered.clusterGang 0).any (fun p => let x := (clustered.gangBar p.2 1).bar.of (p.2.key 0 0)
      p.1 == 7 && (clustered.exec 0 &&& x.lanes) == 0 && !x.arrived && (clustered.exec 0 &&& ~~~x.done) == 0 &&
      decide ((clustered.gangBar p.2 1).openLow ≤ clustered.now)) = true ∧
    clustered.anyBusy (clustered.execs 0) = false ∧ clustered.topPath 0 0 0 = false ∧ clustered.memberLow 0 = true ∧
    let s := { clustered with gangs := [(7, { members := [0], cluster := true, bars := [(1, { (default : GangBar) with
      openLow := clustered.now + 3 })] })] }
    s.mayIssue (.cbarWait 0 1) 0 = true ∧ (s.clusterGang 0).any (fun p => decide (s.now < (s.gangBar p.2 1).openLow)) = true := by
  decide +kernel

/-- `lane` with a die-barrier object at address 64 for one group of its die, every lane naming it. -/
def dieBarred : State :=
  setV { lane with mem := ((lane.mem.write 64 4 0x52414244).write 72 2 1) } 8 fun _ => 64

/-- Hypotheses of ClusterAndDieBarriers: a valid object, with and without a completed phase; an object that is not one. -/
theorem witness_die_barrier :
    (dieBarred.mayIssue (.dbar 0 8) 0 = true ∧ dieBarred.exec 0 ≠ 0 ∧ dieBarred.anyAcquiring (dieBarred.execs 0) = false ∧
      dieBarred.rdVPair 8 0 = 64 ∧ dieBarred.resolve dieBarred.site .store true 64 = .ok oneEntry true ∧
      oneEntry.mt = .n ∧ oneEntry.key 64 = 64 ∧ isRemote 64 = false ∧ dieBarred.mem.read 64 4 = 0x52414244 ∧
      dieBarred.mem.read 68 4 ≤ 3 ∧ dieBarred.mem.read (64 + 8 + 2 * (dieBarred.blk 0).die) 2 ≠ 0 ∧
      dieBarred.biasHeld 64 = false ∧ granted dieBarred .read 64 64 = true ∧ dieBarred.poisoned 64 64 = false ∧
      (dieBarred.dbars.getD 64 default).failed.getD 0 0 = 0 ∧
      (∀ j ∈ dieBarred.execs 0, dieBarred.rdVPair 8 j = 64) ∧ dieBarred.anyBusy (dieBarred.execs 0) = false ∧
      (dieBarred.dbars.getD 64 default).groups.getD 0 default = default ∧ dieBarred.topPath 0 0 0 = false ∧
      minusLanes (allLanes (dieBarred.blk 0).width) (dieBarred.grp 0 0).exited = dieBarred.exec 0) ∧
    (let s := { dieBarred with dbars := [(64, { (default : DBar) with groups := [(0, { (default : BarGroup) with done := 0xFF })] })] }
     s.mayIssue (.dbar 0 8) 0 = true ∧ (s.spl 0 0 0).wait = .ready ∧
     s.exec 0 &&& ~~~((s.dbars.getD 64 default).groups.getD 0 default).done = 0 ∧
     let t := s.modSpl 0 0 0 fun x => { x with wait := .blocked (.dieBarrier 64 64 0xFF) 0 }
     t.mayIssue (.dbar 0 8) 0 = true ∧ t.exec 0 ≠ 0) ∧
    (let s := setV lane 8 fun _ => 64
     s.mem.read 64 4 ≠ 0x52414244 ∧ s.mayIssue (.dbar 0 8) 0 = true ∧ s.anyBusy (s.execs 0) = false ∧
      s.resolve s.site .store true 64 = .ok oneEntry true) ∧
    let s : State := { dieBarred with dbars := [(64, { (default : DBar) with failed := [(0, 0xFF)] })] }
    s.mayIssue (.dbar 0 8) 0 = true ∧ s.exec 0 &&& ~~~((s.dbars.getD 64 default).failed.getD 0 0) = 0 ∧
      (s.dbars.getD 64 default).groups.getD 0 default = default ∧ s.vectors 0 0 0 0x65 = false := by decide +kernel

/-- `lane` with ring 2 of two slots. -/
def ringed (filled held : Nat) : State :=
  lane.modBlk 0 fun y => { y with rings := [(2, { (default : Ring) with slots := 2, size := 64, filled := filled, held := held })] }

/-- Hypotheses of RingsAndRecords: a filled slot, none, a held slot, none, and a ring that is not declared. -/
theorem witness_rings : (∀ s ∈ [ringed 1 0, ringed 0 1, lane], s.exec 0 ≠ 0 ∧ s.blocks.has s.unitBlk = true ∧
      s.mayIssue (.rwait 0 4 2) 0 = true ∧ s.mayIssue (.rdone 0 2) 0 = true ∧ s.topPath 0 0 0 = false ∧
      s.anyBusy (s.execs 0) = false) ∧
    ((ringed 1 0).blk 0).rings.find 2 = some { (default : Ring) with slots := 2, size := 64, filled := 1 } ∧
    ((ringed 0 1).blk 0).rings.find 2 = some { (default : Ring) with slots := 2, size := 64, held := 1 } ∧
    (lane.blk 0).rings.find 2 = none := by decide +kernel

/-- One lane with a record at shared address 0 and a queue of 8 slots at address 0x200. -/
def emitter : State :=
  let s := setV (setV (setV (lane.modSpl 0 0 0 fun x => { x with am := 1 }) 8 fun _ => 0) 9 fun _ => 0x80000000) 12 fun _ => 0x200
  { s with mem := ((s.mem.write 0x200 4 0x51544E49).write 0x204 4 8).write 0x228 8 0x400 }

/-- Hypotheses of RingsAndRecords: EMIT to a queue with room. -/
theorem witness_emit : emitter.mayIssue (.emit 0 8 12) 0 = true ∧ emitter.execs 0 = [0] ∧ emitter.anyBusy [0] = false ∧
    (emitter.rdVPair 8 0).toNat = 2 ^ 63 + 0 ∧ 64 ≤ emitter.unitNode.shared ∧
    emitQueue emitter.unitNode (emitter.rdVPair 12 0).toNat = 0x200 ∧
    emitter.resolve emitter.site .store true 0x200 = .ok oneEntry true ∧ noAtomics oneEntry.mt = false ∧
    oneEntry.key 0x200 = 0x200 ∧ oneEntry.dirty = true ∧ emitter.mem.read 0x200 4 = 0x51544E49 ∧
    emitter.mem.read (0x200 + 52) 4 = (emitter.blk emitter.unitBlk).ptag.toNat ∧ emitter.mem.read (0x200 + 4) 4 = 8 ∧
    emitter.mem.read (0x200 + 16) 8 = 0 ∧ emitter.mem.read (0x200 + 32) 8 = 0 ∧ emitter.mem.read (0x200 + 40) 8 = 0x400 ∧
    emitter.resolve emitter.site .store true 0x400 = .ok oneEntry true ∧ emitter.mem.wf = true ∧
    emitter.poisoned (sharedKey emitter.unitBlk 0) 64 = false ∧ emitter.biasHeld 0x200 = false ∧
    granted emitter .read 0x200 128 = true ∧ emitter.poisoned 0x200 128 = false ∧ emitter.biasHeld (oneEntry.key 0x400) = false ∧
    emitter.pageHeld (oneEntry.key 0x400) = false ∧ emitter.reached emitter.site.asker .atomic (0x200 + 16) 8 = .ok := by
  decide +kernel
/-- Hypotheses of RingsAndRecords: the queue is full; the object is no queue. -/
theorem witness_emit_refused : (let s := { emitter with mem := emitter.mem.write 0x210 4 8 }
      s.mayIssue (.emit 0 8 12) 0 = true ∧ s.topPath 0 0 0 = false ∧
      s.mem.read 0x204 4 < s.mem.read 0x210 8 - s.mem.read 0x220 8 + 1) ∧
    let s := { emitter with mem := emitter.mem.write 0x200 4 0 }
    s.mayIssue (.emit 0 8 12) 0 = true ∧ s.mem.read 0x200 4 ≠ 0x51544E49 := by decide +kernel

/-- `lane` with an engine register. -/
def engReged (n r : Nat) (v : Word) (s : State) : State := s.setEngReg 0 0 n r v

/-- `lane` with the done counter of every engine in shared memory. -/
def engined : State :=
  engReged 3 20 0x80000000 (engReged 2 7 0x80000000 (engReged 1 13 0x80000000 (engReged 0 13 0x80000000 lane)))
/-- `lane` whose engines have an error. -/
def failed : State := (List.range 4).foldl (fun t n => engReged n (statusReg n) 0x100 t) lane

/-- Hypotheses of EngineInstructions: ESET, EGET and CLEAR with and without an error, another command. -/
theorem witness_engine_registers : (∀ i ∈ ([.eset 0 1 8 2, .eget 0 4 1 2, .eget 0 4 0 14, .eget 0 4 0 63, .ecmdClear 0 false 8 1,
      .sparseIndexClear 0 8 1, .lodestarClear 0 8 1, .ecmdClear 0 true 8 5] : List Instr),
      lane.mayIssue i 0 = true ∧ failed.mayIssue i 0 = true) ∧
    lane.engCause 0 0 1 = 0 ∧ failed.engCause 0 0 1 ≠ 0 ∧ lane.exec 0 ≠ 0 := by decide +kernel

/-- Hypotheses of EngineInstructions: GO of the engines and COPY; a standing error, bad arguments, a full engine. -/
theorem witness_engine_starts : (∀ i ∈ ([.ecmdGo 0 false 8, .ecmdGo 0 true 8, .sparseIndexGo 0 8, .copy 0 false 8 12] : List Instr),
      engined.mayIssue i 0 = true ∧ failed.mayIssue i 0 = true ∧ lane.mayIssue i 0 = true) ∧
    (∀ n ∈ [0, 1, 2], engined.engCause 0 0 n = 0 ∧ failed.engCause 0 0 n ≠ 0 ∧ engined.engOut 0 0 n = 0) ∧
    engined.copyBad 0 (engined.capture 0 0 0) = false ∧ engined.sparseBad 0 (engined.capture 0 0 2) = false ∧
    engined.copyBad 0 (engined.copyRegs 0 8 12 0) = false ∧ engined.anyBusy (engined.execs 0) = false ∧
    (let s := engReged 0 1 0x80000000 (engReged 0 0 0 (engReged 0 1 0x00100000 lane))
     s.copyBad 0 ((s.capture 0 0 0).set 1 0x00100000) = true) := by decide +kernel
theorem witness_engine_full : let s := { engReged 0 1 0x00100000 lane with engines := [] }
    let u := { engined with engines := [(100, { (default : EngineOp) with engine := 2 })] }
    (s.mayIssue (.ecmdGo 0 false 8) 0 = true ∧ s.engCause 0 0 0 = 0 ∧ s.copyBad 0 (s.capture 0 0 0) = true) ∧
    u.mayIssue (.sparseIndexGo 0 8) 0 = true ∧ u.engCause 0 0 2 = 0 ∧ u.sparseBad 0 (u.capture 0 0 2) = false ∧
    1 ≤ u.engOut 0 0 2 ∧ u.topPath 0 0 0 = false := by decide +kernel

/-- `lane` with a Lodestar operation of one term, whose list at address 128 is empty, in its registers. -/
def starred : State :=
  engReged 3 2 1 (engReged 3 0 64 { engined with mem := (lane.mem.write 64 4 128).write 128 4 0x54534F50 })

/-- Hypotheses of EngineInstructions: GO of Lodestar. -/
theorem witness_lodestar_go : starred.mayIssue (.lodestarGo 0 8) 0 = true ∧ starred.exec 0 ≠ 0 ∧ starred.engCause 0 0 3 = 0 ∧
    starred.lodeBad 0 (starred.capture 0 0 3) = false ∧ starred.anyAcquiring (starred.execs 0) = false ∧
    starred.anyBusy (starred.execs 0) = false ∧ starred.engOut 0 0 3 < 4 ∧
    (match lodeStart (starred.lodeWord starred.site .load) (regAddr (starred.capture 0 0 3) 0)
      ((starred.capture 0 0 3).getD 2 0).toNat [] with
    | .ok r => r.1 == [0]
    | .error _ => false) = true ∧
    let s := { starred with engines := (List.range 4).map fun n => (100 + n, { (default : EngineOp) with engine := 3 }) }
    s.mayIssue (.lodestarGo 0 8) 0 = true ∧ 4 ≤ s.engOut 0 0 3 ∧ s.topPath 0 0 0 = false := by decide +kernel
/-- Hypotheses of EngineInstructions: GO of Lodestar with a standing error, and without an argument; terms that all exclude. -/
theorem witness_lodestar_refused : (failed.mayIssue (.lodestarGo 0 8) 0 = true ∧ failed.engCause 0 0 3 ≠ 0) ∧
    (lane.mayIssue (.lodestarGo 0 8) 0 = true ∧ lane.engCause 0 0 3 = 0 ∧ lane.lodeBad 0 (lane.capture 0 0 3) = true) ∧
    let s := { starred with mem := starred.mem.write 72 1 2 }
    s.mayIssue (.lodestarGo 0 8) 0 = true ∧ s.lodeBad 0 (s.capture 0 0 3) = false ∧
    (match lodeStart (s.lodeWord s.site .load) (regAddr (s.capture 0 0 3) 0) ((s.capture 0 0 3).getD 2 0).toNat [] with
    | .ok r => r.1 == [2]
    | .error _ => false) = true := by decide +kernel

/-- Hypotheses of EngineInstructions: EWAIT on a counter that has reached its target, on one that has not, and on an address
that is no counter's. -/
theorem witness_ewait : let s := setV (setV lane 9 fun _ => 0x80000000) 12 fun l => if l = 0 then 0 else 1
    let u := setV s 12 fun _ => 1
    let x := setV s 8 fun _ => 4
    s.mayIssue (.ewait 0 8 12) 0 = true ∧ u.mayIssue (.ewait 0 8 12) 0 = true ∧ x.mayIssue (.ewait 0 8 12) 0 = true ∧
    lowestLane (s.exec 0) = 0 ∧ s.anyAcquiring (s.execs 0) = false ∧ s.topPath 0 0 0 = false ∧
    (s.rdVPair 8 0).toNat = 2 ^ 63 + 0 ∧ (s.rdVPair 12 0).toNat ≤ (s.blk 0).shared.read 0 8 ∧
    (u.blk 0).shared.read 0 8 < (u.rdVPair 12 0).toNat ∧ x.doneOk 0 (x.rdVPair 8 0).toNat = false ∧
    s.mayPerform (s.threadOf 0) s.nextId 0 (sharedKey 0 0) 8 .n .load = true := by decide +kernel
/-- Hypotheses of EngineInstructions: a counter in global memory. -/
theorem witness_ewait_global : let s := setV lane 8 fun _ => 64
    let u := setV s 12 fun _ => 1
    (∀ t ∈ [s, u], t.mayIssue (.ewait 0 8 12) 0 = true ∧ lowestLane (t.exec 0) = 0 ∧ (t.rdVPair 8 0).toNat = 64 ∧
      t.resolve t.site .load false 64 = .ok oneEntry true ∧ t.poisoned (oneEntry.key 64) 8 = false ∧
      t.biasHeld (oneEntry.key 64) = false ∧ granted t .read (oneEntry.key 64) 8 = true ∧ t.mayPerform (t.threadOf 0) t.nextId 0 (oneEntry.key 64) 8 .n .load = true) ∧
    (s.rdVPair 12 0).toNat ≤ s.mem.read 64 8 ∧ u.mem.read 64 8 < (u.rdVPair 12 0).toNat := by decide +kernel

/-- Hypotheses of SpecialRegistersAndContext: MFS of every special register, MTS of each that it writes. -/
theorem witness_special_registers : (∀ n ∈ [SpecReg.clk, .laneix, .gwidth, .splitix, .coreix, .dieix, .clusix, .widlo, .widhi,
      .accown], handler.mayIssue (.mfs 0 4 n) 0 = true) ∧ handler.privileged = true ∧
    (∀ n ∈ [SpecReg.ejt, .jto, .accown], handler.mayIssue (.mts 0 4 n) 0 = true) ∧ handler.exec 0 ≠ 0 := by decide +kernel

/-- A Toganik image of context 0 at address 0: the 60 bytes of its header before the CRC. -/
def imgHead (sections hold : Nat) : List Byte :=
  leBytes 4 0x4B4E4754 ++ leBytes 4 1 ++ leBytes 4 0x4808 ++ leBytes 4 0 ++ leBytes 4 0 ++ leBytes 4 sections ++
  leBytes 8 2048 ++ leBytes 4 hold ++ leBytes 24 0
/-- A privileged split, with an image at address 0, on a facet with a sequencer's block. -/
def imaged (sections hold accown : Nat) : State :=
  let s := (lane.modSpl 0 0 0 fun x => { x with priv := true }).modFacet 0 fun x => { x with accown := BitVec.ofNat 32 accown }
  let m := (s.mem.putAll (cellsAt 0 (imgHead sections hold))).write 60 4 (crc32c (imgHead sections hold))
  { s.modBlk 0 fun y => { y with seq := some (Seq.launch 4 0x1000) } with mem := ((m.write 64 4 0x10007).write 68 4 128).write 72 4 1024 }

/-- What the translations of an image give. -/
def checked (c : Chk) (p : List Hit → Bool) : Bool :=
  match c with
  | .ok hs => p hs
  | .stop _ => false

/-- Hypotheses of SpecialRegistersAndContext: the image is read; with and without an owner. -/
theorem witness_context : ∀ s ∈ [imaged 1 0x80000000 0x80000000, imaged 0 0 0],
      s.privileged = true ∧ s.exec 0 ≠ 0 ∧ (s.rdVPair 8 0).toNat = 0 ∧ s.anyBusy (s.execs 0) = false ∧
      s.mayIssue (.ctxsv 0 8) 0 = true ∧ s.mayIssue (.ctxld 0 8) 0 = true ∧ (s.blk 0).facet = 0 ∧ s.seqBlock 0 = some 0 ∧
      checked (s.imageRead (s.exec 0) 0) (fun _ => true) = true ∧
      s.mayIssue (.ctxsv 1 8) 1 = true ∧ s.mayIssue (.ctxld 1 8) 1 = true ∧ s.exec 1 = 0 := by decide +kernel
/-- Hypotheses of SpecialRegistersAndContext: the image takes the spill; it belongs to another facet. -/
theorem witness_context_save : (imaged 1 0x80000000 0x80000000).seqBlock 0 = some 0 ∧
    ((imaged 1 0x80000000 0x80000000).facet 0).accV = true ∧ ((imaged 0 0 0).facet 0).accV = false ∧
    (let s := imaged 1 0x80000000 0x80000000
     checked (s.imageRead (s.exec 0) 0) (fun rd => s.spillFits (imageMap 0 rd) &&
      checked (s.imageTake true 0 0 (s.spillWrites (imageMap 0 rd) 0)) fun _ => true) = true) ∧
    let s := imaged 1 0x80000001 0x80000000
    checked (s.imageRead (s.exec 0) 0) (fun rd => !s.spillFits (imageMap 0 rd)) = true := by decide +kernel
/-- Hypotheses of SpecialRegistersAndContext: an acceptable image without owned tiles; one that is held. -/
theorem witness_context_load :
    (let s := imaged 0 0 0
     checked (s.imageRead (s.exec 0) 0) (fun rd => s.loadOk (imageMap 0 rd) 0 (s.tagOf (s.blk 0).part) &&
      (s.imgOwned (imageMap 0 rd)).isNone) = true) ∧
    let s := imaged 1 0x80000000 0
    (s.facet 0).accV = false ∧
      checked (s.imageRead (s.exec 0) 0) (fun rd => !s.loadOk (imageMap 0 rd) 0 (s.tagOf (s.blk 0).part)) = true := by
  decide +kernel

/-! ## Witnesses: slots -/

/-- A slot takes effect in `s`, in which the bundle of block 0 has passed its checks. -/
theorem may_of (s : State) (i : Instr) (h : s.focus = .seqr 0 ∧ s.hasSeq 0 = true ∧ (s.seq 0).checked = true ∧
    (slotGuard i).any (fun p => (s.seq 0).rdG p.1.toNat p.2.toNat) = true) : s.slotMay 0 i := by
  obtain ⟨h1, h2, h3, h4⟩ := h
  cases hg : slotGuard i with
  | none => rw [hg] at h4; cases h4
  | some p => exact ⟨h1, h2, ⟨p.1, p.2, hg, by rw [hg] at h4; exact h4⟩, Or.inl h3⟩

/-- The premise of the statements about slots, for every slot. -/
theorem witness_slots : ∀ i ∈ ([
    .sadd 0 0 2 2 2, .ssub 0 0 2 2 2, .smul 0 0 2 2 2, .sand 0 0 2 2 2, .sor 0 0 2 2 2, .sshl 0 0 2 2 2, .sli 0 0 2 1,
    .scmp 0 0 1 .lt 2 2, .sbra 0 0 1, .sloop 0 0 2 1, .scall 0 0 1, .sret 0 0, .sgive 0 0 4 1, .stake 0 0 4 1,
    .sbarSync 0 0 1, .sbarArr 0 0 1, .sbarWait 0 0 1, .sstat 0 0 2, .shalt 0 0, .tmmaBf16 0 0 4 1 1 .s1,
    .tmmaF16 0 0 4 1 1 .s1, .tmmaE4M3 0 0 4 1 1 .s1, .tmmaE5M2 0 0 4 1 1 .s1, .tmmaQf4 0 0 4 1 1 .s1, .tmmaF32 0 0 4 1 1 .s1,
    .tzero 0 0 4 1, .tcvt 0 0 4 5 .bf16 false false, .vadd 0 0 ⟨4, 5, 0, 0⟩, .vmul 0 0 ⟨4, 5, 0, 0⟩, .vfma 0 0 ⟨4, 5, 0, 0⟩,
    .vmax 0 0 ⟨4, 5, 0, 0⟩, .vmin 0 0 ⟨4, 5, 0, 0⟩, .vrelu 0 0 ⟨4, 5, 0, 0⟩, .vsel 0 0 ⟨4, 5, 0, 0⟩,
    .vred 0 0 ⟨4, 5, 0, 0⟩ .sum, .vscl 0 0 ⟨4, 5, 0, 0⟩, .tld 0 0 4 2 1, .tst 0 0 4 2 1, .zbind 0 0 1 2, .zset 0 0 1 2 1,
    .zskip 0 0 1 2] : List Instr), seqr.slotMay 0 i := by
  intro i hi
  exact may_of seqr i ((by decide +kernel : ∀ i ∈ ([
    .sadd 0 0 2 2 2, .ssub 0 0 2 2 2, .smul 0 0 2 2 2, .sand 0 0 2 2 2, .sor 0 0 2 2 2, .sshl 0 0 2 2 2, .sli 0 0 2 1,
    .scmp 0 0 1 .lt 2 2, .sbra 0 0 1, .sloop 0 0 2 1, .scall 0 0 1, .sret 0 0, .sgive 0 0 4 1, .stake 0 0 4 1,
    .sbarSync 0 0 1, .sbarArr 0 0 1, .sbarWait 0 0 1, .sstat 0 0 2, .shalt 0 0, .tmmaBf16 0 0 4 1 1 .s1,
    .tmmaF16 0 0 4 1 1 .s1, .tmmaE4M3 0 0 4 1 1 .s1, .tmmaE5M2 0 0 4 1 1 .s1, .tmmaQf4 0 0 4 1 1 .s1, .tmmaF32 0 0 4 1 1 .s1,
    .tzero 0 0 4 1, .tcvt 0 0 4 5 .bf16 false false, .vadd 0 0 ⟨4, 5, 0, 0⟩, .vmul 0 0 ⟨4, 5, 0, 0⟩, .vfma 0 0 ⟨4, 5, 0, 0⟩,
    .vmax 0 0 ⟨4, 5, 0, 0⟩, .vmin 0 0 ⟨4, 5, 0, 0⟩, .vrelu 0 0 ⟨4, 5, 0, 0⟩, .vsel 0 0 ⟨4, 5, 0, 0⟩,
    .vred 0 0 ⟨4, 5, 0, 0⟩ .sum, .vscl 0 0 ⟨4, 5, 0, 0⟩, .tld 0 0 4 2 1, .tst 0 0 4 2 1, .zbind 0 0 1 2, .zset 0 0 1 2 1,
    .zskip 0 0 1 2] : List Instr), seqr.focus = .seqr 0 ∧
    seqr.hasSeq 0 = true ∧ (seqr.seq 0).checked = true ∧
    (slotGuard i).any (fun p => (seqr.seq 0).rdG p.1.toNat p.2.toNat) = true) i hi)

/-- `seqr` with the accumulators of its context, and a bundle that has not been checked. -/
def seqNew (acc : Bool) : State :=
  (seqr.modFacet 0 fun x => { x with accown := if acc then 0x80000000 else 0 }).modSeq 0 fun q => { q with
    checked := false, x := [(2, 0x100000)] }

/-- Hypotheses of SlotChecks: a false guard; a first use, a handle above the tiles, a tile of a group; a translation that is
not there yet. -/
theorem witness_slot_checks : (∀ a, (seqNew a).focus = .seqr 0 ∧ (seqNew a).hasSeq 0 = true ∧ ((seqNew a).seq 0).checked = false ∧
      ((seqNew a).seq 0).rdG 0 1 = false ∧ ((seqNew a).seq 0).rdG 0 0 = true) ∧
    (((seqNew false).seq 0).handlesOf (.tzero 0 0 5 0) = [5] ∧ 5 < ((seqNew false).blk 0).node.tiles ∧
      ((seqNew false).blk 0).seqOnly 5 = true ∧ ((seqNew false).facet 0).accV = false) ∧
    (((seqNew true).facet 0).accV = true ∧ ((seqNew true).facet 0).accCtx = ((seqNew true).blk 0).ctx ∧
      ((seqNew true).seq 0).handlesOf (.tzero 0 0 20 0) = [20] ∧ ((seqNew true).blk 0).node.tiles ≤ 20 ∧
      needsOwner (.tzero 0 0 0 0) = true ∧ ((seqNew true).seq 0).handlesOf (.tzero 0 0 0 0) = [0] ∧
      ((seqNew true).blk 0).seqOwns (((seqNew true).blk 0).handleTile 0) = false) ∧
    (match (((seqNew true).slotCheck 0 (.tld 0 0 5 2 0)).and ((seqNew true).lateCheck 0 (.tld 0 0 5 2 0))).and
        ((seqNew true).boardCheck 0 (.tld 0 0 5 2 0)) with
      | .hold _ => true
      | _ => false) = true ∧
    (match (((seqNew true).slotCheck 0 (.tzero 0 0 20 0)).and ((seqNew true).lateCheck 0 (.tzero 0 0 20 0))).and
        ((seqNew true).boardCheck 0 (.tzero 0 0 20 0)) with
      | .trap k _ _ => k == 0x41
      | _ => false) = true := by decide +kernel

/-- Hypotheses of ScalarSlots: a slot executed alone, whose checks pass. -/
theorem witness_slot_alone : (seqNew true).slotMay 0 (.sadd 0 0 3 1 2) :=
  ⟨rfl, by decide +kernel, ⟨0, 0, rfl, by decide +kernel⟩,
    Or.inr ⟨by rfl, by rfl, by rfl⟩⟩
theorem witness_scalar : ∀ i ∈ ([.sadd 0 0 3 1 2, .ssub 0 0 3 1 2, .smul 0 0 3 1 2, .sand 0 0 3 1 2, .sor 0 0 3 1 2, .sshl 0 0 3 1 2,
    .sli 0 0 3 5, .scmp 0 0 1 .lt 1 2] : List Instr), ((seqr.seq 0).scalarResult i).isSome = true := by decide +kernel

/-- `seqr` with x2 of column 0 and a next bundle. -/
def counted (n : Nat) : State := seqr.modSeq 0 fun q => { q with x := [(2, BitVec.ofNat 32 n)], next := some 0x1014 }
/-- Hypotheses of ScalarSlots: SLOOP at 0, at 1 and above, SCALL with a next bundle. -/
theorem witness_control : ∀ n ∈ [0, 1, 2], (counted n).slotMay 0 (.sloop 0 0 2 4) ∧ (counted n).slotMay 0 (.scall 0 0 4) ∧
    ((counted n).seq 0).rdX 0 2 = BitVec.ofNat 32 n ∧ ((counted n).seq 0).next = some 0x1014 := by
  intro n hn
  have h : ∀ n ∈ [0, 1, 2], (counted n).focus = .seqr 0 ∧ (counted n).hasSeq 0 = true ∧ ((counted n).seq 0).checked = true ∧
    ((counted n).seq 0).rdG 0 0 = true ∧ ((counted n).seq 0).rdX 0 2 = BitVec.ofNat 32 n ∧
    ((counted n).seq 0).next = some 0x1014 := by decide +kernel
  obtain ⟨h1, h2, h3, h4, h5, h6⟩ := h n hn
  exact ⟨⟨h1, h2, ⟨0, 0, rfl, h4⟩, .inl h3⟩, ⟨h1, h2, ⟨0, 0, rfl, h4⟩, .inl h3⟩, h5, h6⟩

/-- `seqr` with tile 5 in transfer to any column. -/
def handed : State := seqr.modBlk 0 fun y => y.setTile (y.handleTile 5) (.transfer .seqAny)
/-- Hypotheses of SequencerTilesAndBarriers: STAKE of a tile that is ready and of one that is not. -/
theorem witness_stake : handed.hasSeq 0 = true ∧ (handed.seq 0).checked = true ∧ (handed.blk 0).seqOwns ((handed.blk 0).handleTile 5) = false ∧
    handed.takeReady 0 ((handed.blk 0).handleTile 5) .seqAny = true ∧
    (seqr.blk 0).seqOwns ((seqr.blk 0).handleTile 0) = false ∧ seqr.takeReady 0 ((seqr.blk 0).handleTile 0) .seqAny = false := by
  decide +kernel

/-- `seqr` whose sequencer has a store in flight. -/
def storing : State := { seqr with stores := [(0, { (default : StoreOp) with thread := .seqr 0 })] }
/-- Hypotheses of SequencerTilesAndBarriers: arrivals before the last participant and as the last; a store not performed;
waits of a sequencer that has arrived and of one that has not. -/
theorem witness_sequencer_barriers : (seqr.seq 0).synced = [] ∧ (seqr.seq 0).arrivals = [] ∧ seqr.seqReleased 0 seqr.nextId = true ∧
    ((seqr.blk 0).bar 0).n + 1 ≠ ((seqr.blk 0).bar 0).x ∧ seqr.seqAtBar 0 0 = false ∧
    (let s := seqr.modBlk 0 fun y => y.setBar 0 { bar2 with n := 1, seqArrived := true }
     ((s.blk 0).bar 0).n + 1 = ((s.blk 0).bar 0).x ∧ s.seqAtBar 0 0 = true ∧ s.seqReleased 0 s.nextId = true ∧
       s.hasSeq 0 = true) ∧
    storing.seqReleased 0 storing.nextId = false ∧ storing.hasSeq 0 = true := by decide +kernel

/-- Hypotheses of SequencerTilesAndBarriers: SYNC as the last arrival. -/
theorem witness_sequencer_sync : (seqr.modBlk 0 fun y => y.setBar 0 { bar2 with n := 1 }).slotMay 0 (.sbarSync 0 0 0) :=
  may_of _ _ (by decide +kernel)

/-- Hypotheses of SequencerTilesAndBarriers: SSTAT with an empty queue and with a record. -/
theorem witness_statistics : (seqr.facet 0).stats = [] ∧
    let s := seqr.modFacet 0 fun x => { x with stats := [{ (default : StatRec) with words := [1, 2, 3, 4] }] }
    (s.facet 0).stats ≠ [] ∧ s.hasSeq 0 = true ∧ (s.seq 0).checked = true := by decide +kernel

/-- An element that a port holds. -/
def held (v : Nat) : PortElem := { gen := 0, val := v, clip := false, nan := false }
/-- `seqr` with read port 0 of three elements, and write port 1. -/
def ported : State :=
  seqr.modSeq 0 fun q => (q.setPort 0 0 { Port.unbound with bound := true, elems := [held 1, held 2, held 3], desc := [(5, 16), (6, 1), (7, 1)] }).setPort
    0 1 { Port.unbound with bound := true, desc := [(1, 0x80000000), (2, 4), (5, 64), (6, 1), (7, 1), (8, 1)] }
/-- Hypotheses of TensorAndVectorSlots: a tile and a port as destination, a tile and a port as source. -/
theorem witness_vector : isPort 4 = false ∧ isPort 0xF8 = true ∧ isPort 0xF9 = true ∧ portOf 0xF9 = 1 ∧
    (vectorForm (.vadd 0 0 ⟨4, 5, 0, 0⟩)).isSome = true ∧ (vectorForm (.vred 0 0 ⟨4, 5, 0, 0⟩ .sum)).isSome = false ∧
    ported.hasSeq 0 = true ∧ (ported.seq 0).checked = true ∧
    (match ported.pushCells 0 (((ported.seq 0).port 0 1).pushParts ((List.range 64).map fun _ => (0, true))) with
      | .inr _ => true
      | .inl _ => false) = true := by decide +kernel
theorem witness_tensor : ∀ i ∈ ([.tmmaBf16 0 0 4 1 1 .s1, .tmmaF16 0 0 4 1 1 .s1, .tmmaE4M3 0 0 4 1 1 .s1, .tmmaE5M2 0 0 4 1 1 .s1,
    .tmmaQf4 0 0 4 1 1 .s1, .tmmaF32 0 0 4 1 1 .s1] : List Instr), (tmmaForm i).isSome = true := by decide +kernel

/-- Hypotheses of TransfersAndPorts: ZSKIP of nothing, of elements that a read port holds and of more, and of a write
port. -/
theorem witness_ports : (((ported.seq 0).port 0 0).isWrite = false ∧ ((ported.seq 0).port 0 0).src = 0 ∧
      2 ≤ ((ported.seq 0).port 0 0).elems.length ∧ ((ported.seq 0).port 0 0).elems.length < 5 ∧
      ((ported.seq 0).port 0 1).isWrite = true) ∧ ((ported.seq 0).rdX 0 2).toNat = 0 := by decide +kernel
/-- Hypotheses of TransfersAndPorts: TST of tiles whose pages are dirty already. -/
theorem witness_tst : (match seqr.engLoc seqr.site true 0 256 with
    | .glob e _ _ _ => e.dirty
    | _ => false) = true := by decide +kernel

/-! ## Witnesses: filter words -/

/-- Hypotheses of FilterResults and FilterObjects. -/
theorem witness_filter : filt.focus = .filter 0 ∧ ((filt.merid 0).run).isSome = true ∧
    ((filt.merid 0).run).any (fun r => (filt.merid 0).slots.has r.slot && r.todo.isEmpty &&
      ([.fltLdf 1 2, .fltLdi 1 2, .fltMovk 1 2, .fltAddi 1 2, .fltShri 1 2, .fltMov 1 2, .fltAdd 1 2, .fltSub 1 2, .fltAnd 1 2,
        .fltOr 1 2, .fltShl 1 2, .fltShr 1 2, .fltCeq 1 2, .fltCltu 1 2, .fltClts 1 2] : List Instr).all (fun i =>
          (r.result 0 i).isSome) &&
      ([.fltBz 1 2, .fltBnz 1 2, .fltJmp 2] : List Instr).all fun i => (r.jump i).isSome) = true := by decide +kernel

/-- `filt` with an object, and with its state. -/
def triggered (e armed : Nat) : State := filt.modMerid 0 fun x => { x with
  slots := x.slots.mapv fun _ a => { a with objs := [e], store := [(0, [(0, armed)])] } }
/-- Hypotheses of FilterObjects: armed and disarmed triggers with and without MARK, a program that is leaving. -/
theorem witness_trigger : ∀ e ∈ [0, 0x60], ∀ a ∈ [0, 1], ((triggered e a).merid 0).run.isSome = true ∧
    (((triggered e a).merid 0).slots.find 0).any (fun x => decide (((x.store.getD 0 []).getD 0 1 = 1) ↔ a = 1) &&
      decide (x.objs.getD 0 0 = e) && !x.leaving) = true ∧ ((triggered e a).merid 0).frozen = false := by decide +kernel

/-! ## Witnesses: events of cores -/

/-- Hypotheses of SplitAndEjectionSteps: two splits that merge. -/
def twins : State :=
  lane.modGrp 0 0 fun y => { y with
    splits := [(0, { Split.empty with am := 0x0F, cm := 0xFF }), (1, { Split.empty with am := 0xF0, cm := 0xFF })] }
theorem witness_merge : (∀ k ∈ [0, 1], twins.hasSplit 0 0 k = true ∧ (twins.spl 0 0 k).wait = .ready ∧
      (twins.spl 0 0 k).parked = false ∧ (twins.spl 0 0 k).am ≠ 0 ∧ (twins.spl 0 0 k).trap = none) ∧
    (twins.spl 0 0 0).pc = (twins.spl 0 0 1).pc ∧ (twins.spl 0 0 0).cm = (twins.spl 0 0 1).cm ∧
    (twins.spl 0 0 0).priv = (twins.spl 0 0 1).priv ∧ twins.fullStack 0 0 0 = twins.fullStack 0 0 1 := by decide +kernel

/-- `lane` with lane 2 ejected to a context that has not started, and with one that has arrived; its split waits at the
JOIN. -/
def ejected (arrived : Bool) : State :=
  { (lane.modGrp 0 0 fun y => { y with ejected := 4, jto := 0 }).modSpl 0 0 0 (fun x => { x with
      am := 0, wm := 0xFB, cm := 0xFF, wait := .join, joinSince := some 0 }) with
    comets := [(0, { Comet.empty with
      lane := 2, live := 0xFF, started := arrived, arrived := if arrived then some 0 else none })] }
/-- Hypotheses of SplitAndEjectionSteps: the start of a lane, its copy-back, a timeout. -/
theorem witness_ejection : ((ejected false).comets.has 0 = true ∧ ((ejected false).ctx 0).started = false ∧
      ((ejected false).ctx 0).notBefore ≤ (ejected false).now ∧ (ejected false).laneStored 0 0 2 = true) ∧
    ((ejected true).copyBackReady 0 = true ∧ 0 < ((ejected true).blk 0).width ∧ ((ejected true).blk 0).groups.has 0 = true ∧
      ((ejected true).ctx 0).lane < 64) ∧ (ejected false).timeoutDue 0 0 0 = true ∧ ((ejected false).ctx 0).arrived = none ∧
    let s := { (ejected false) with comets := (ejected false).comets.mapv fun _ x => { x with arrived := some (ejected false).now } }
    s.timeoutDue 0 0 0 = true ∧ hasLane ((s.grp 0 0).missing (s.spl 0 0 0).cm) 2 = true := by decide +kernel

/-- The group of `spread` blocked in a WAITC whose monitor has fired, and in one whose poll is due. -/
def monitored (fired : Bool) : State :=
  let s := next (exec (.waitc 0 4 8 true .ne) (spread 16))
  { s with now := 4096, monitors := s.monitors.mapv fun _ m => { m with fired := fired, poll := !fired } }
/-- Hypotheses of WaitSteps: WAITC. -/
theorem witness_waitc_steps : (∀ f, (monitored f).hasSplit 0 0 0 = true ∧ ((monitored f).spl 0 0 0).parked = false ∧
      (match ((monitored f).spl 0 0 0).wait with
        | .blocked (.waitc _ _ _ _ _) _ => true
        | _ => false) = true) ∧
    (∃ m ∈ (monitored true).splitMonitors 0 0 0, m.fired = true) ∧
    ∃ m ∈ (monitored false).splitMonitors 0 0 0, m.poll = true ∧ m.armed + 2048 ≤ (monitored false).now := by decide +kernel

/-- The group of `lane` blocked in an EWAIT on a counter in global memory, whose monitor has fired, or whose poll is due. -/
def ewaiting (fired : Bool) : State :=
  let s := next (exec (.ewait 0 8 12) (setV (setV lane 8 fun _ => 64) 12 fun _ => 1))
  { s with now := 4096, monitors := s.monitors.mapv fun _ m => { m with fired := fired, poll := !fired } }
/-- Hypotheses of WaitSteps: EWAIT. -/
theorem witness_ewait_steps : (∀ f, (ewaiting f).hasSplit 0 0 0 = true ∧ ((ewaiting f).spl 0 0 0).parked = false ∧
      (match ((ewaiting f).spl 0 0 0).wait with
        | .blocked (.ewait _ _ _ c _) _ => c == 64 && !engLocal c
        | _ => false) = true) ∧
    (∃ m ∈ (ewaiting true).splitMonitors 0 0 0, m.fired = true) ∧
    (∀ m ∈ (ewaiting false).splitMonitors 0 0 0, m.fired = false) ∧
    ∃ m ∈ (ewaiting false).splitMonitors 0 0 0, m.poll = true ∧ m.armed + 2048 ≤ (ewaiting false).now := by decide +kernel

/-- The group of `emitter` blocked in an EMIT to a full queue. -/
def emitting : State :=
  let s := next (exec (.emit 0 8 12) { emitter with mem := emitter.mem.write 0x210 8 8 })
  { s with monitors := s.monitors.mapv fun _ m => { m with fired := true } }
/-- Hypotheses of WaitSteps: EMIT. -/
theorem witness_emit_step : emitting.hasSplit 0 0 0 = true ∧ (match (emitting.spl 0 0 0).wait with
      | .blocked (.emit _) _ => true
      | _ => false) = true ∧ ∃ m ∈ emitting.splitMonitors 0 0 0, m.fired = true := by decide +kernel

/-- A group blocked in a TAKE of its first tile. -/
def taking (x : TileState) : State :=
  { (tiled x).modSpl 0 0 0 (fun y => { y with wait := .blocked (.take 0 0xFF) 0 }) with now := 1000000 }
/-- Hypotheses of WaitSteps: TAKE. -/
theorem witness_take_steps : (taking (.transfer (.group 0))).takeReady 0 0 (.group 0) = true ∧
    (taking (.transfer .seqAny)).takeReady 0 0 (.group 0) = false ∧
    0 + (taking (.transfer .seqAny)).takeLimit 0 ≤ (taking (.transfer .seqAny)).now ∧
    (taking (.transfer .seqAny)).hasSplit 0 0 0 = true ∧ (taking (.transfer .seqAny)).trapHeld 0 0 0 0x43 = false ∧
    let s := ({ taking (.transfer .seqAny) with ops := [(1, linkLoad (vectored.blk 0).node.link)] } : State).modFacet 0
      fun x => { x with tvec := 0x8000 }
    s.takeReady 0 0 (.group 0) = false ∧ 0 + s.takeLimit 0 ≤ s.now ∧ s.trapHeld 0 0 0 0x43 = true := by decide +kernel

/-- A load in flight; and one that a wrong die holds, one that was forwarded. -/
def loading : State := next (exec (.ld 0 4 8 .w .sync none) (spread 16))
/-- The load of `loading` with a change. -/
def loadWith (f : LaneOp → LaneOp) : State := { loading with ops := loading.ops.mapv fun _ o => f o }
/-- Hypotheses of MemoryParts: a part that may be read, with and without another owner, a forwarded one, a hint. -/
theorem witness_load_parts : (loading.ops.find 1).any (fun o => (o.acc[0]?).any (fun a => loading.readable 1 o a &&
      !(loading.ownedElsewhere o.cache a.key o.bytes) && !(loading.arbHeld a.key (loading.blk o.blk).part) &&
      (let s := { loading with owners := [(a.key / 4, { (default : Owner) with cache := 77 })] }
       s.readable 1 o a && s.ownedElsewhere o.cache a.key o.bytes && !(s.arbHeld a.key (s.blk o.blk).part)))) = true ∧
    (let s := loadWith fun o => { o with acc := o.acc.map fun a => { a with fwd := true } }
     (s.ops.find 1).any (fun o => (o.acc[0]?).any (fun a => a.fwd && s.readable 1 o a)) = true) ∧
    ((loadWith fun o => { o with hint := some 2 }).ops.find 1).any (fun o => o.hint == some 2) = true ∧
    let s : State := { lane with stores := [(9, { (default : StoreOp) with hint := some 2, cells := [(64, 5)] })] }
    s.ops.find 9 = none ∧ (s.stores.find 9).any (fun x => x.hint == some 2) = true := by decide +kernel

/-- A load of a block of partition 0 and one of partition 1, of the same word. -/
def crossed : State :=
  { lane with
    blocks := lane.blocks ++ [(1, { lane.blk 0 with part := 1 })],
    ops := (List.range 2).map fun b => (b + 1, { (default : LaneOp) with
      kind := .load, blk := b, bytes := 4, acc := [{ (default : Access) with key := 64 }] }) }
/-- The arbiter of a word's channel serves partition 0, which has a load of it in flight, before partition 1, in a machine that has
served nobody yet. -/
theorem arb_of (s : State) (k id : Nat) (o : LaneOp) (a : Access) (ho : s.ops.head? = some (id, o)) (hp : o.parts = [(0, a)])
    (hk : a.key = k) (hv : a.val = none) (hd : isDevice k = true) (hl : o.kind = .load) (hr : s.readable id o a = true)
    (hb : (s.blk o.blk).part = 0) (hs : s.served = []) (hq : s.parts = [])
    (hx : s.blocks.any (fun e => e.2.part != 1) = true) : s.arbHeld k 1 = true := by
  have hw : 0 ∈ s.waitsOn (channelIx k) := by
    refine List.mem_append_left _ (List.mem_append_left _ (List.mem_flatMap.2 ⟨(id, o), ?_, List.mem_map.2 ⟨(0, a), ?_, hb⟩⟩))
    · exact List.mem_of_mem_head? ho
    · refine List.mem_filter.2 ⟨by simp [hp], ?_⟩
      subst hk
      simp only [Bool.and_eq_true]
      refine ⟨⟨⟨?_, hd⟩, beq_self_eq_true _⟩, ?_⟩
      · show a.val.isNone = true
        rw [hv]; rfl
      · show (match o.kind with | .load => _ | .atomic _ => _) = true
        rw [hl]; exact hr
  have hb' : ∀ p, s.belowFloor (channelIx k) p = false := fun p => by
    simp [State.belowFloor, State.part, hq, Table.getD, Table.find, Part.reset]
  simp only [State.arbHeld, Bool.and_eq_true, List.any_eq_true]
  exact ⟨⟨hd, by simpa [List.any_eq_true] using hx⟩, 0, hw, by simp [State.goesBefore, hb', State.turnOf, hs, Table.getD, Table.find]⟩
/-- Hypotheses of MemoryParts: a request that the arbiter does not serve yet. -/
theorem witness_held_part : (crossed.ops.find 2).any (fun o => o.blk == 1 && (o.acc[0]?).any fun a => a.key == 64 &&
      crossed.readable 2 o a && !(crossed.ownedElsewhere o.cache 64 4)) = true ∧ crossed.arbHeld 64 1 = true := by
  refine ⟨by decide +kernel, arb_of crossed 64 1 _ { (default : Access) with key := 64 } rfl rfl rfl rfl (by decide +kernel) rfl
    (by decide +kernel) (by decide +kernel) rfl (by decide +kernel) (by decide +kernel)⟩

/-- An atomic in flight. -/
def updating : State := next (exec (.atomAdd 0 4 8 ⟨false, false, false⟩ false) (setV lane 8 fun _ => 64))
/-- Hypotheses of MemoryParts: an atomic of eight lanes at one address. -/
theorem witness_atomic_parts : (updating.ops.find 1).any (fun o => o.kind == .atomic .add &&
      let ps := o.parts.filter fun p => p.2.ea.toNat == 64 && p.2.val.isNone && !atomOutside p.2.key
      ps.length == 8 && decide (o.bytes ≤ 16) && ps.all fun p => updating.atomReady 1 o p.2 &&
        !(updating.arbHeld p.2.key (updating.blk o.blk).part) && p.2.key == 64) = true ∧
    updating.mem.wf = true ∧ updating.armed.length < 48 := by decide +kernel

/-- Hypotheses of OperationLandsInRegisters: in a group, with a pair, and in a comet context. -/
theorem witness_lands : (let s := loadWith fun o => { o with notBefore := 0, acc := o.acc.map fun a => { a with val := some 7 } }
     (s.ops.find 1).any (fun o => o.acc.all (fun a => a.val.isSome && decide (a.lane < (s.blk o.blk).width) && decide (a.lane < 64)) &&
       decide (o.notBefore ≤ s.now) && decide (o.acc.map (·.lane)).Nodup && o.comet.isNone && s.blocks.has o.blk) = true) ∧
    (let s : State := { next (exec (.atomAddb 0 4 8 ⟨false, false, false⟩ 1) (setV lane 8 fun _ => 64)) with now := 10000 }
     let u : State := { s with ops := s.ops.mapv fun _ (o : LaneOp) => { o with acc := o.acc.map fun a => { a with val := some 7 } } }
     (u.ops.find 1).any (fun o => o.pair == some 1 && decide (o.notBefore ≤ u.now) && (u.blk o.blk).groups.has o.grp &&
       o.acc.all fun a => decide (2 ≤ a.opnds.length)) = true) ∧
    let s := loadWith fun o => { o with notBefore := 0, comet := some 0, acc := (o.acc.take 1).map fun a => { a with val := some 7 } }
    (({ s with comets := comet.comets } : State).ops.find 1).any (fun o => o.comet == some 0 && o.acc.length == 1) = true := by
  decide +kernel

/-- Stores in flight: global ones, and one to shared memory. -/
def storingLanes : State := { next (exec (.st 0 4 8 .w .plain none) (spread 16)) with now := 10000 }
def storingShared : State := { next (exec (.sts 0 4 10 .w false) (spread 16)) with now := 10000 }
/-- Hypotheses of StoresAndCompletions: a global store, an acknowledged one, one to shared memory, an owner. -/
theorem witness_stores : (storingLanes.stores.any fun e => e.2.shared.isNone && storingLanes.storeReady e.1 e.2 &&
      !(storingLanes.arbHeld ((e.2.cells.map Prod.fst).headD (2 ^ 62)) (storingLanes.blk e.2.blk).part) &&
      decide (e.2.cells.map Prod.fst).Nodup && e.2.cells.all (fun c => e.2.cells.all fun d => c.1 / 128 == d.1 / 128) &&
      !e.2.posted && decide (storingLanes.armed.length + e.2.cells.length ≤ 64) &&
      e.2.mt == .n && e.2.cells.all fun c => isDevice c.1) = true ∧ storingLanes.mem.wf = true ∧
    (storingShared.stores.any fun e => e.2.shared == some 0 && storingShared.storeReady e.1 e.2 &&
      decide (e.2.cells.map fun c => sharedOff c.1).Nodup) = true ∧ storingShared.blocks.has 0 = true ∧
    (storingShared.blk 0).shared.wf = true := by decide +kernel
/-- Hypotheses of StoresAndCompletions: eight lanes that store to one address; non-temporal stores. -/
theorem witness_one_address : let s : State := { next (exec (.st 0 4 8 .w .plain none) (setV lane 8 fun _ => 64)) with now := 10000 }
    (s.stores.all fun e => (s.siblings e.2).length == 8 && (s.siblings e.2).all (fun f => s.storeReady f.1 f.2) &&
      ((s.siblings e.2).getLast?).any (fun f => f.2.thread == .lane 0 0 7) &&
      decide (s.owners.length + ((s.siblings e.2).flatMap fun f => f.2.cells).length ≤ 262144) &&
      decide (s.armed.length + ((s.siblings e.2).flatMap fun f => f.2.cells).length ≤ 64)) = true ∧ s.stores.length = 8 := by
  decide +kernel
theorem witness_nontemporal : let s : State := { next (exec (.st 0 4 8 .w .nt none) (spread 16)) with now := 10000 }
    (s.stores.all fun e => e.2.nt && (s.siblings e.2).length == 1 && s.storeReady e.1 e.2) = true ∧ s.stores.length = 8 := by
  decide +kernel
theorem witness_registered : (({ storingLanes with stores := storingLanes.stores.mapv fun _ x => { x with performed := true } } :
      State).stores.any fun e => e.2.performed) = true ∧
    ({ lane with owners := [(16, { (default : Owner) with cache := stashCache 0, stash := some 1 })] } : State).owners.find 16 =
      some { (default : Owner) with cache := stashCache 0, stash := some 1 } := by decide +kernel

/-- A load from host memory, and a store to it that holds its unit. -/
def fromHost : State :=
  loadWith fun o => { o with host := true, acc := (o.acc.take 1).map fun a => { a with key := 0x400000000000 } }
def toHost : State :=
  { (lane.modSpl 0 0 0 fun y => { y with wait := .blocked (.host 9) 0 }) with
    stores := [(9, { (default : StoreOp) with thread := .lane 0 0 0, host := true, cells := [(0x400000000000, 5)] })] }
/-- Hypotheses of StoresAndCompletions: completions from outside: of a load, good and poisoned data, and of a store. -/
theorem witness_completions : (fromHost.ops.find 1).any (fun o => o.kind == .load && o.host &&
      !(fromHost.trapHeldFor o.comet o.blk o.grp o.split 0xA2) && !(fromHost.trapHeldFor o.comet o.blk o.grp o.split 0x3C) &&
      (fromHost.hostPart o).any (fun p => fromHost.outReady 1 o p.2 && !(fromHost.poisoned p.2.key o.bytes) &&
        ({ fromHost with poison := [p.2.key / 4] } : State).poisoned p.2.key o.bytes)) = true ∧
    fromHost.queuedReq 1 = false ∧ toHost.ops.find 9 = none ∧ toHost.queuedReq 9 = false ∧
    (toHost.stores.find 9).any (fun x => x.host && !x.performed && !x.posted && (toHost.storeUnit x == some (none, 0, 0, 0, 9)) &&
      toHost.outStoreReady 9 x && x.shared.isNone && decide (x.cells.map Prod.fst).Nodup && !(toHost.overwritten 9 x)) = true ∧
    toHost.mem.wf = true ∧ isPosted 0x400000000000 = true ∧ isPosted 0x800000000000 = false ∧
    toHost.trapHeldFor none 0 0 0 0xA2 = false ∧
    let s : State := { toHost with stores := toHost.stores ++
      [(10, { (default : StoreOp) with thread := .lane 0 0 1, host := true, cells := [(0x400000000000, 6)] })] }
    (s.stores.find 9).any (fun x => s.overwritten 9 x) = true ∧
    (s.stores.find 10).any (fun x => s.storeUnit x == some (none, 0, 0, 0, 9)) = true := by decide +kernel
/-- Hypotheses of StoresAndCompletions: a posted store, and a request of another asker before and after its least clock. -/
theorem witness_other_completions : (let s : State := { lane with stores := [(9, { (default : StoreOp) with performed := true, posted := true })] }
      s.ops.find 9 = none ∧ (s.stores.find 9).any (fun x => x.posted) = true ∧ s.queuedReq 9 = false) ∧
    let r : OutReq := { asker := .unit (.seqr 0), kind := .read, key := 0x400000000000, bytes := 8, blk := 0, notBefore := 0, answer := none }
    let s : State := { lane with outs := [(9, { r with notBefore := lane.now + 5 }), (10, r)] }
    s.ops.find 9 = none ∧ s.stores.find 9 = none ∧ s.queuedReq 9 = false ∧ s.queuedReq 10 = false ∧
    (s.outs.find 9).any (fun r => decide (s.now < r.notBefore)) = true ∧
    (s.outs.find 10).any (fun r => decide (r.notBefore ≤ s.now)) = true := by decide +kernel

/-- `seqr` with operations in flight to each kind of destination. -/
def landing : State := { seqr.modSeq 0 fun q => { q with
  ops := [(1, { dest := .xreg 0 3, words := [(0, 9)], lands := 1 }), (2, { dest := .gpair 0 1, words := [(0, 1)], lands := 1 }),
    (3, { dest := .tile 4101, words := [(0, 9), (5, 8)], lands := 1 }), (4, { dest := .push 0 1 [(64, 1)], words := [], lands := 1 })],
  xfers := [(5, { store := false, tiles := [(4102, 8192)], addr := 0, count := 1, notBefore := 0 }),
    (6, { store := true, tiles := [(4103, 256)], addr := 256, count := 1, notBefore := 0 })] } with now := 100 }
/-- Hypotheses of SequencerSteps: landings, a fill, a tile that has been read. -/
theorem witness_landing : landing.hasSeq 0 = true ∧ ((landing.seq 0).ops.all fun e => landing.opDue 0 e.1 e.2) = true ∧
    ((landing.seq 0).xfers.find 5).any (fun x => landing.fillReady 0 5 x && (landing.fillHeld 0 x).isEmpty && decide (x.tiles.map Prod.fst).Nodup) = true ∧
    ((landing.seq 0).xfers.find 6).any (fun x => x.store) = true ∧
    let s := landing.modSeq 0 fun q => { q with xfers := q.xfers.mapv fun _ x => { x with ro := [8192] } }
    ((s.seq 0).xfers.find 5).any (fun x => s.fillReady 0 5 x && x.ro.contains 8192) = true := by decide +kernel
/-- `landing` in partition 1, beside a block of partition 0 with a load of a word of the TLD's tile in flight. -/
def crossedFill : State :=
  let s := landing.modBlk 0 fun y => { y with part := 1 }
  { s with
    blocks := s.blocks ++ [(1, lane.blk 0)],
    ops := [(1, { (default : LaneOp) with kind := .load, blk := 1, bytes := 4, acc := [{ (default : Access) with key := 8192 }] })] }
/-- Hypotheses of SequencerSteps: a fill whose channel serves another partition first. -/
theorem witness_fill_held : ((crossedFill.seq 0).xfers.find 5).any (fun x => crossedFill.fillReady 0 5 x &&
      decide (8192 ∈ x.tiles.map Prod.snd)) = true ∧ crossedFill.arbHeld 8192 (crossedFill.blk 0).part = true := by
  have hp : (crossedFill.blk 0).part = 1 := by decide +kernel
  rw [hp]
  refine ⟨by decide +kernel, arb_of crossedFill 8192 1 _ { (default : Access) with key := 8192 } rfl rfl rfl rfl (by decide +kernel)
    rfl (by decide +kernel) (by decide +kernel) rfl (by decide +kernel) (by decide +kernel)⟩

/-- `seqr` with a bound read port over shared memory, and with a write port that holds an entry. -/
def reading : State := seqr.modSeq 0 fun q =>
  q.setPort 0 0 { Port.unbound with bound := true, desc := [(1, 0x80000000), (2, 4), (5, 64), (6, 1), (7, 1)] }
def writing : State := seqr.modSeq 0 fun q =>
  q.setPort 0 1 { Port.unbound with bound := true, desc := [(8, 1)], writes := [(1, [(64, 5), (65, 6)])] }
/-- Hypotheses of SequencerSteps: a port reads ahead, and one writes. -/
theorem witness_port_traffic : (let p := (reading.seq 0).port 0 0
     reading.mayRead 0 0 0 = true ∧ p.src = 0 ∧ p.exp = false ∧ p.elems = [] ∧ p.skip = 0 ∧ p.pos + p.perEntry ≤ p.len ∧
     (∀ j < p.perEntry, (match reading.engLoc (reading.blkSite (.port 0 0 0) 0) false (p.unitAddr default (p.pos + j)) p.es with
        | .shared home off => !(reading.seqStoring 0 (Loc.shared home off).key p.es) &&
          (reading.locPoison (.shared home off) p.es).isNone
        | _ => false) = true)) ∧
    writing.hasSeq 0 = true ∧ ((writing.seq 0).port 0 1).writes = [(1, [(64, 5), (65, 6)])] ∧
    (∀ x ∈ ([64, 65] : List Nat), writing.mayPerform (.seqr 0) 1 0 x 1 .n .store = true ∧ isShared x = false) ∧
    writing.arbHeld 64 (writing.blk 0).part = false ∧ writing.mem.wf = true := by decide +kernel

/-- `seqr` at a bundle of one column at address 0: a STAKE of tile 5, with a safe point or without. -/
def bundled (safe : Bool) (x : TileState) : State :=
  { (handed.modBlk 0 fun y => { y.setTile (y.handleTile 5) x with preempt := some 0 }).modSeq 0
      (fun q => { q with pc := 0, checked := false, since := some 0 }) with
    now := 1000000, mem := (handed.mem.write 0 4 (if safe then 2 ^ 25 else 0)).write 4 4 939606016 }
/-- Hypotheses of SequencerStops. -/
theorem witness_seq_stops : (bundled true (.transfer .seqAny)).stopWanted 0 = true ∧ ((bundled true (.transfer .seqAny)).seq 0).landed = true ∧
    ((bundled true (.transfer .seqAny)).seq 0).waiting = false ∧
    ((bundled true (.transfer .seqAny)).headAt 0).any (fun h => h.safe) = true ∧
    (∀ x ∈ [TileState.transfer .seqAny, .transfer (.group 0)],
      let s := (bundled false x).modSeq 0 fun q => { q with waiting := true }
      s.hasSeq 0 = true ∧ (s.seq 0).waiting = true ∧ (s.seq 0).parked = false ∧ (s.seq 0).stopped = false ∧
      s.stakeOf 0 0 = some (5, 1) ∧ (s.seq 0).since = some 0 ∧ 0 + s.takeLimit 0 ≤ s.now ∧
      (s.takeReady 0 ((s.blk 0).handleTile 5) .seqAny = true ↔ x = .transfer .seqAny) ∧
      (s.blk 0).seqOwns ((s.blk 0).handleTile 5) = false) := by decide +kernel

/-- A cluster of one member, on the lower or the upper half of its cluster, with messages in flight at barrier 1. -/
def messaged (full : Bool) : State :=
  { clustered with now := 100, gangs := [(7, { members := [0], cluster := true, bars := [(1, { (default : GangBar) with
      half := some 0, bar := { (default : Barrier) with
        x := 2, n := if full then 2 else 1, groups := [(0, { (default : BarGroup) with arrived := full })] } })] })] }
/-- Hypotheses of BarrierMessages: the upper half's message, and the release. -/
theorem witness_cluster_messages : (∀ f, ((messaged f).gangs.find 7).any (fun x => let y := (messaged f).gangBar x 1
      x.cluster && y.half.isSome && y.rel.isNone && (decide (y.bar.x ≤ y.bar.n) == f)) = true) ∧
    (({ clustered with now := 100, gangs := [(7, { members := [0], cluster := true, bars := [(1, { (default : GangBar) with
        rel := some 20, bar := { (default : Barrier) with x := 2, groups := [(0, default)] } })] })] } : State).gangs.find 7).any
      (fun x => (x.bars.find 1).any fun y => y.rel == some 20) = true := by decide +kernel

/-- `dieBarred` with its object in use: an arrival not counted, a message, a release that is due. -/
def messaging (dies : Nat) : State :=
  { dieBarred with
    now := 100, mem := if dies = 1 then dieBarred.mem else dieBarred.mem.write 74 2 1,
    dbars := [(64, { (default : DBar) with
      fresh := [(0, 0, 0, 5)], msgs := [(0, 90)], counted := [(0, 0, 0, 2)], rels := [(0, 50, 2)],
      groups := [(0, { (default : BarGroup) with arrived := true })] })] }
/-- Hypotheses of BarrierMessages: the die-barrier unit, with one die and with two. -/
theorem witness_die_messages : (∀ n ∈ [1, 2], ((messaging n).dbars.find 64).any (fun x => (x.window 0).1 == [(0, 0, 0, 5)] &&
      x.msgs == [(0, 90)] && x.rels.find? (fun r => r.1 == 0 && decide (r.2.1 ≤ (messaging n).now)) == some (0, 50, 2) &&
      x.doneDies == []) = true ∧ (messaging n).mem.wf = true ∧
      (messaging n).mem.read (64 + 16) 2 + 1 ≤ (messaging n).dbarExp 64 0) ∧
    (let s := (messaging 1).modBlk 0 fun y => { y with phase := .swapped }
     let u : State := { s with mem := s.mem.write 80 2 1 }
     u.dbarExp 64 0 < u.mem.read (64 + 16) 2 + 1 ∧ (u.blk 0).phase ≠ .resident) ∧
    (messaging 1).dbarDies 64 = [0] ∧ (messaging 2).dbarDies 64 = [0, 1] ∧ (messaging 1).mem.read (64 + 4) 4 % 2 = 0 := by
  decide +kernel

/-! ## Witnesses: engines, queues, admission, pre-emption, the end of blocks -/

/-- `lane` with an engine operation 5 whose done counter stands at shared address 64, and ring 0. -/
def engine (o : EngineOp) (regs : Table Word) : State :=
  { (lane.modBlk 0 fun y => { y with rings := [(0, { (default : Ring) with slots := 2, size := 64, free := 1 })] }) with
    engines := [(5, { o with regs := regs })], now := 100 }
/-- The registers of a copy of 16 bytes from shared address 0 to shared address 128. -/
def copyRegs : Table Word := [(1, 0x80000000), (2, 128), (3, 0x80000000), (4, 16), (5, 1), (6, 1), (12, 64), (13, 0x80000000)]
/-- The registers of a copy in ring mode. -/
def ringRegs : Table Word := [(1, 0x80000000), (4, 16), (5, 1), (6, 1), (11, 1), (12, 64), (13, 0x80000000)]

/-- Hypotheses of EngineSteps: a slot to claim, a slot to hand over. -/
theorem witness_ring_copy : (let s := engine default ringRegs
     let o := (s.engines.find 5).getD default
     s.engRuns o = true ∧ o.engine ≤ 1 ∧ o.copied = false ∧ o.claimed = false ∧ o.ring = 0 ∧
     o.ringMode = true ∧ ((s.blk 0).rings.find 0).any (fun r => r.free != 0) = true) ∧
    (let o := ((engine { (default : EngineOp) with claimed := true, slot := some 0, i1 := 1 } ringRegs).engines.find 5).getD default
     o.failed = false ∧ o.claimed = true ∧ o.planeDone = true) := by decide +kernel
/-- Hypotheses of EngineSteps: a piece to copy, a copy that is over, a source that meets a fault. -/
theorem witness_copy : (let s := engine default copyRegs
     let o := (s.engines.find 5).getD default
     o.copied = false ∧ o.ringMode = false ∧ s.pieceLen 0 (o.dst default) (s.pieceLen 0 o.src (o.reg 4 - o.byte)) = 16 ∧
     (match s.engLoc (s.engSite 5 o) false o.src 16, s.engLoc (s.engSite 5 o) true (o.dst default) 16 with
       | .shared _ _, .shared h off => h == 0 && off == 128
       | _, _ => false) = true ∧ s.locPoison (s.engLoc (s.engSite 5 o) false o.src 16) 16 = none ∧
     s.locHeld (s.engSite 5 o) (s.engLoc (s.engSite 5 o) false o.src 16) = false ∧ s.engRuns o = true ∧
     s.blocks.has 0 = true ∧ (s.blk 0).shared.wf = true ∧
     let u := { s with poison := [(sharedKey 0 4) / 4] }
     u.locPoison (u.engLoc (u.engSite 5 o) false o.src 16) 16 = some 4) ∧
    (let s := engine { (default : EngineOp) with i2 := 1 } copyRegs
     let o := (s.engines.find 5).getD default
     o.copied = true ∧ (s.locPoison (.shared 0 64) 8).isNone = true ∧
     (({ s with poison := [sharedKey 0 64 / 4] } : State).locPoison (.shared 0 64) 8).isSome = true ∧ (match s.engLoc (s.engSite 5 o) true (regAddr o.regs 12) 8 with
       | .shared h off => h == 0 && off == 64
       | _ => false) = true) ∧
    (let s := engine default ((copyRegs.set 0 0x20000))
     let o := (s.engines.find 5).getD default
     (match s.engLoc (s.engSite 5 o) false o.src 16 with
       | .fault _ _ => true
       | _ => false) = true) := by decide +kernel
/-- Hypotheses of EngineSteps: a copy to global memory. -/
theorem witness_copy_out : let s := engine default ((copyRegs.set 2 0x808).set 3 0)
    let o := (s.engines.find 5).getD default
    s.engRuns o = true ∧ s.pieceLen 0 (o.dst default) (s.pieceLen 0 o.src (o.reg 4 - o.byte)) = 16 ∧ s.armed = [] ∧
    s.mem.wf = true ∧ (∀ j < 16, (0x808 + j) % 64 ≠ 4) ∧ s.locPoison (s.engLoc (s.engSite 5 o) false o.src 16) 16 = none ∧
    (match s.engLoc (s.engSite 5 o) true (o.dst default) 16 with
      | .glob e l1 va win => e.key va == 0x808 && !(s.locHeld (s.engSite 5 o) (.glob e l1 va win))
      | _ => false) = true := by decide +kernel

/-- `seqr` with a gather port 0 and an operation 5 of the sparse-index engine with its metadata at shared address 0. -/
def sparse (mode i2 : Nat) : State :=
  { ((seqr.modSeq 0 fun q => q.setPort 0 0 { Port.unbound with bound := true, desc := [(8, 0x400002)] }).modBlk 0 fun y =>
      { y with shared := y.shared.write 0 4 5 }) with
    now := 100
    engines := [(5, { (default : EngineOp) with
      engine := 2, i2 := i2,
      regs := [(1, 0x80000000), (2, BitVec.ofNat 32 mode), (3, 3), (4, 10), (6, 64), (7, 0x80000000)] })] }
/-- Hypotheses of EngineSteps: a bitmap word, a run, the end of an operation. -/
theorem witness_sparse : (∀ m ∈ [0, 1], let s := sparse m 0
     let o := (s.engines.find 5).getD default
     s.engRuns o = true ∧ o.failed = false ∧ s.gathers o = true ∧ o.i2 < o.reg 3 ∧ o.issued < s.now ∧ o.reg 2 = m ∧
     2 ≤ ((s.seq 0).port 0 0).rate ∧ (match s.metaWord 5 o 0 with
       | .ok w _ => w == 5
       | _ => false) = true) ∧
    let s := sparse 0 3
    let o := (s.engines.find 5).getD default
    o.reg 3 ≤ o.i2 ∧ o.claimed = false ∧ (s.locPoison (.shared 0 64) 8).isNone = true ∧ (match s.engLoc (s.engSite 5 o) true (regAddr o.regs 6) 8 with
      | .shared h off => h == 0 && off == 64
      | _ => false) = true ∧ (s.blk 0).shared.wf = true := by decide +kernel
/-- Hypotheses of EngineSteps: an operation that has failed ends. -/
theorem witness_sparse_failed : let s := sparse 0 0
    let u := { s with engines := s.engines.mapv fun _ o => { o with failed := true } }
    let o := (u.engines.find 5).getD default
    u.engRuns o = true ∧ o.failed = true ∧ (match u.engLoc (u.engSite 5 o) true (regAddr o.regs 6) 8 with
      | .shared h off => h == 0 && off == 64
      | _ => false) = true := by decide +kernel
/-- `starred` whose operation is in flight, its result area at shared address 256. -/
def lodestar : State :=
  let s := engReged 3 17 0x80000000 (engReged 3 16 256 (engReged 3 19 64 starred))
  next (exec (.lodestarGo 0 8) s)
/-- `lodestar` with a change to its operation. -/
def lodeAt (f : EngineOp → EngineOp) : State := { lodestar with engines := lodestar.engines.mapv fun _ o => f o }
/-- A step of its operation that reads gives a record. -/
def lodeReads (s : State) (p : EngineOp → LodeRec → Bool) : Bool :=
  s.engines.length == 1 && s.engines.all fun e => e.2.engine == 3 && s.engRuns e.2 && !e.2.failed && !e.2.claimed && decide (e.2.lode.phase < 3) &&
    match e.2.lodeStep (s.lodeWord (s.engSite e.1 e.2) .engine) (s.lodeEng (s.engSite e.1 e.2)) (Config.freeBool s.freeCtr) [] with
    | .ok r => p e.2 r.1
    | .error _ => false
/-- Hypotheses of EngineSteps: Lodestar reads a term, passes the end of its lists, reads a vector score, has read them all, fuses. -/
theorem witness_lodestar_reads :
    lodeReads lodestar (fun o r => o.lode.phase == 0 && decide (o.lode.terms.length < o.reg 2) && r.terms.length == 1) = true ∧
    lodeReads (lodeAt fun o => { o with lode := { o.lode with terms := [default] } }) (fun o r => o.reg 2 == 1 && r.phase == 0) = true ∧
    lodeReads (lodeAt fun o => { o with lode := { o.lode with terms := [default], nextDoc := 2 ^ 32 } }) (fun _ r => r.phase == 3) = true ∧
    lodeReads (lodeAt fun o => { o with regs := (o.regs.set 12 1).set 10 64, lode := { o.lode with phase := 1 } })
      (fun o r => decide (o.lode.nextDoc - o.reg 14 < o.reg 12) && r.nextDoc == 1) = true ∧
    lodeReads (lodeAt fun o => { o with lode := { o.lode with phase := 1 } })
      (fun o r => decide (o.reg 12 ≤ o.lode.nextDoc - o.reg 14) && r.phase == 2) = true ∧
    lodeReads (lodeAt fun o => { o with lode := { o.lode with phase := 2 } }) (fun o r => r == o.fuse) = true := by decide +kernel

/-- `lodestar` writing a result of ten documents, of whose words some are checked and some written. -/
def concluding (checked written : Nat) : State :=
  lodeAt fun o => { o with lode := { o.lode with
    phase := 3, checked := checked, written := written, res := (List.range 10).map fun d => (d, 0) } }
/-- Hypotheses of EngineSteps: Lodestar checks its result area, writes some of it, and the rest. -/
theorem witness_lodestar_writes : (∀ x ∈ [(0, 0), (23, 0), (24, 0), (24, 16)],
    ((concluding x.1 x.2).engines.all fun e => e.2.engine == 3 && (concluding x.1 x.2).engRuns e.2 && !e.2.failed && !e.2.claimed &&
      decide (3 ≤ e.2.lode.phase) && e.2.lodeResult.entries.length == 10 && e.2.lode.checked == x.1 && e.2.lode.written == x.2 &&
      ((List.range 24).all fun j =>
        match (concluding x.1 x.2).engLoc ((concluding x.1 x.2).engSite e.1 e.2) true (regAddr e.2.regs 16 + 4 * j) 4 notNormal with
        | .shared h off => h == 0 && off == 256 + 4 * j
        | _ => false) &&
      (match (concluding x.1 x.2).engLoc ((concluding x.1 x.2).engSite e.1 e.2) true (regAddr e.2.regs 19) 8 with
        | .shared h off => h == 0 && off == 64
        | _ => false) && ((concluding x.1 x.2).locPoison (.shared 0 64) 8).isNone) = true) ∧
    (concluding 24 16).blocks.has 0 = true ∧ ((concluding 24 16).blk 0).shared.wf = true ∧ (concluding 24 16).engines.length = 1 := by
  decide +kernel

/-- A code object of one node, whose lane text is one EXIT. -/
def header : List Byte :=
  leBytes 4 0x45444F4E ++ leBytes 4 1 ++ leBytes 16 0 ++ leBytes 4 0x04080108 ++ leBytes 12 0 ++ leBytes 8 0x0001000000000003 ++
  leBytes 2 1 ++ leBytes 206 0
def object (text : List Byte) : List Byte :=
  leBytes 4 0x4E524D4C ++ leBytes 4 1 ++ leBytes 4 0 ++ leBytes 4 2 ++
  leBytes 8 1 ++ leBytes 4 48 ++ leBytes 4 256 ++ leBytes 8 2 ++ leBytes 4 304 ++ leBytes 4 text.length ++ header ++ text
/-- The machine with its firmware running. -/
def booted : State := { State.reset with bootst := 0x80 }
/-- Hypotheses of Registrations: an object that is not well formed, one with an illegal word, one that passes. -/
theorem witness_loader : loadPlan [] 0 0 0 0 = none ∧
    (loadPlan (object (leBytes 4 0xF0000000)) 0x1000 0 0 0x2000).any (fun p => p.1 == 2) = true ∧
    (loadPlan (object (leBytes 4 2684354564)) 0x1000 0 0 0x2000).any (fun p => p.1 == 0 && p.2.1.length == 1 &&
      (booted.placeAll 0 p.2.2).isSome) = true := by decide +kernel

/-- A queue descriptor in the physical space of PF0. -/
def queueBytes (magic cap recs : Nat) : List Byte := leBytes 4 magic ++ leBytes 4 cap ++ leBytes 32 0 ++ leBytes 8 recs ++ leBytes 80 0
/-- Hypotheses of Registrations: a queue whose descriptor fails each of the first checks. -/
theorem witness_queue : ∀ d ∈ [queueBytes 0 8 0, queueBytes 0x51544E49 3 0, queueBytes 0x51544E49 8 1], let s : State :=
      { booted with mem := booted.mem.putAll (cellsAt 0x1000 d) }
    (s.spaceMap 0 true 0x1000 128).any (fun ms => s.bytesIn ms 0x1000 128 == d) = true := by decide +kernel
theorem witness_queue_unmapped : booted.spaceMap 1 true 0x1000 128 = none := by decide +kernel
theorem witness_queue_passes : num (queueBytes 0x51544E49 8 64) 0 4 = 0x51544E49 ∧
    num (queueBytes 0x51544E49 8 64) 4 4 = 2 ^ 3 ∧ num (queueBytes 0x51544E49 8 64) 40 8 % 64 = 0 := by decide +kernel

/-- A queue at address 0x1000 of a node whose batches hold `coalesce` records, its first record standing in its slot. -/
def queued (coalesce pending : Nat) : State :=
  { booted with
    mem := booted.mem.write 0x2000 8 1, now := 100,
    queues := [(0x1000, { (default : Queue) with
      addr := 0x1000, key := 0x1000, cap := 8, recs := 0x2000, pending := pending,
      node := { oneNode with coalesce := coalesce, timeout := 50 } })] }
/-- Hypotheses of BlocksFormAndLaunch: a record that is pending, one that closes its batch, none, a timeout. -/
theorem witness_records : (∀ c ∈ [1, 4], let s := queued c 0
      let q := (s.queues.find 0x1000).getD default
      q.key = 0x1000 ∧ q.node.gangn = 0 ∧ q.node.coalesce = c ∧
      s.looksAt q = true ∧ s.batchDue q = false ∧
      (s.recordBytes q 0).any (fun r => num r 0 8 == 1 && num r 16 4 == 0) = true ∧ s.mem.wf = true ∧ s.armed.length < 60) ∧
    (let q := ((queued 4 0).queues.find 0x1000).getD default
     let w : QWatch := { watcher := 0, die := 0, key := 0, cmp := .eq, value := 0, poll := true, fired := false, armed := 100 }
     (queued 4 0).looksAt { q with stampW := some w } = false) ∧
    (let s := queued 4 1
     let q := (s.queues.find 0x1000).getD default
     s.looksAt q = true ∧ s.batchDue { q with firstAt := 90 } = false ∧ s.batchDue q = true ∧
     (s.recordBytes q 1).any (fun r => num r 0 8 != 2) = true ∧ q.pending ≠ 0 ∧ q.node.timeout ≠ 0 ∧
     q.firstAt + q.node.timeout ≤ s.now ∧ s.queueHeld q = false) ∧
    let s := queued 4 1
    let u : State := { s with migrs := [(3, { (default : Migr) with final := some 0, oldPte := 0x1F000000001003, newPte := 0x1F000000006003 })] }
    (u.queues.find 0x1000).any (fun q => u.queueHeld q) = true := by decide +kernel

/-- A block of one group that waits on die 0, in a partition that runs its virtual function, with a facet of it. -/
def admitting : State :=
  ({ booted with blocks := [(3, { oneBlock 0 with node := { oneNode with part := 5 }, phase := .waiting })] }.modPart 0 fun p =>
    { p with ptag := 5, runVf := some 1 }).modFacet 0 fun f => { f with fown := 0 }
/-- Hypotheses of BlocksFormAndLaunch: admission. -/
theorem witness_admission : (∀ p < 20, admitting.settleVf p = admitting) ∧ admitting.reserve = [] ∧ admitting.waitList 0 = [3] ∧
    (admitting.blk 3).gang = none ∧ (admitting.blk 3).image = false ∧ admitting.heldOn 3 = none ∧
    (admitting.facetsOf (admitting.blk 3).coreOrder).find? (fun f => admitting.facetAdmits 3 f true) = some 0 := by
  decide +kernel

/-- `admitting` in which the block has waited long, and a resident block of another virtual function; no facet admits. -/
def crowdedDie : State :=
  { ({ admitting with now := 10000000, blocks := admitting.blocks ++ [(4, { oneBlock 0 with vf := 2 })] }.modFacet 0 fun f =>
      { f with fown := 31 }).modPart 0 (fun p => { p with runVf := some 2 }) with reserve := [(0, 3)] }
/-- Hypotheses of ReservationAndPreemption: a reservation, the quantum, the end of a slice. -/
theorem witness_reservation : (let s : State := { admitting with now := 100000 }
     s.waitList 0 = [3] ∧ s.reserve.has 0 = false ∧ (s.blk 3).waitingSince + 65536 ≤ s.now) ∧
    (crowdedDie.reserve.find 0 = some 3 ∧ (∀ e ∈ crowdedDie.blocks, e.2.phase = .resident → e.2.die = 0 → e.2.preempt = none) ∧
      (crowdedDie.tryEntry 3).isNone = true ∧ crowdedDie.quantumList 0 3 = [4] ∧ (crowdedDie.blk 4).gang = none ∧
      (crowdedDie.blk 4).phase = .resident ∧ (crowdedDie.blk 4).preempt = none) ∧
    (crowdedDie.part 0).runVf = some 2 ∧ (crowdedDie.part 0).sliceStart + (crowdedDie.part 0).slice ≤ crowdedDie.now ∧
    nextVf 2 ((crowdedDie.waitingVfs 0).filter (· != 2)) = some 1 ∧
    let s : State := { admitting with now := 10000000 }
    (s.part 0).runVf = some 1 ∧ (s.part 0).sliceStart + (s.part 0).slice ≤ s.now ∧
    nextVf 1 ((s.waitingVfs 0).filter (· != 1)) = none := by decide +kernel

/-- `lane` parked in a trap. -/
def parked : State := { next (exec (.trap 0 5) lane) with now := 100000000 }
/-- Hypotheses of ReservationAndPreemption: a block that is saved, a park limit, a block all of whose units are blocked, a
poll of a block that is swapped out. -/
theorem witness_preemption : (∀ c ∈ [0, 1, 2, 3, 4], let s := lane.modBlk 0 fun y => { y with preempt := some c }
     s.blocks.has 0 = true ∧ (s.blk 0).gang = none ∧ (s.blk 0).endAsked = false ∧ s.saveReady 0 = true ∧ s.mem.wf = true ∧
     (s.facet (s.blk 0).facet).accV = false ∧ (s.facet (s.blk 0).facet).heldBlk = none ∧
     (s.modBlk 0 fun y => { y with endAsked := true }).saveReady 0 = true) ∧
    ((parked.blk 0).phase = .resident ∧ (parked.blk 0).preempt = none ∧ (parked.blk 0).gang = none ∧
      ∃ n ∈ parked.parksSince 0, n + (parked.part (parked.blk 0).part).plim ≤ parked.now) ∧
    (let s := { monitored false with monitors := (monitored false).monitors.mapv fun _ m => { m with fired := false } }
     s.allBlocked 0 = true ∧ s.blockOver 0 = false ∧ ∀ e ∈ s.monitors, e.2.blk = 0 → e.2.fired = false) ∧
    (let s := (monitored false).modBlk 0 fun y => { y with phase := .swapped }
     (s.blk 0).phase = .swapped ∧ s.monitors.any (fun e => e.2.blk == 0 && e.2.poll && decide (e.2.armed + 2048 ≤ s.now)) = true) := by
  decide +kernel

/-- Hypotheses of ParksAndResume: a park queue with room, a parked split, sequencer, context and engine operation, first use
of accumulators. -/
theorem witness_parks : (let s := parked.modPart 0 fun p => { p with pqcap := 8, pqbase := 0x4000 }
     (s.parks.find? fun r => r.part == 0).any (fun r => (s.writeSpace 0 0x4000 (parkBytes r)).isSome) = true ∧
     (s.part 0).pqcap ≠ 0 ∧ (s.part 0).pqtail - (s.part 0).pqhead < (s.part 0).pqcap) ∧
    (parked.parkedBlock 0 0 (.split 0 0) = some 0 ∧ (parked.blk 0).image = false ∧ (parked.spl 0 0 0).wait ≠ .join ∧
     (parked.spl 0 0 0).trap.isSome = true) ∧
    (let s := (ejected false).modSpl 0 0 0 fun x => { x with parked := true }
     s.parkedBlock 0 0 (.split 0 0) = some 0 ∧ (s.spl 0 0 0).wait = .join) ∧
    (let s := parked.modBlk 0 fun y => { y with phase := .swapped, image := true, saved := [(5, .splits y.groups)] }
     s.parkedBlock 0 0 (.split 0 0) = some 0) ∧
    (let s := seqr.modSeq 0 fun q => { q with parked := true }
     s.parkedBlock 0 0 .seqr = some 0) ∧
    (let s := comet.modCtx 0 fun x => { x with parked := true }
     s.parkedBlock 0 0 (.comet 0) = some 0 ∧ s.comets.has 0 = true ∧ (s.ctx 0).blk = 0 ∧ (s.ctx 0).parked = true) ∧
    (let s := engine { (default : EngineOp) with parked := true, fault := some (0x38, 0) } ((copyRegs.set 12 0x40).set 13 0)
     s.parkedBlock 0 0 (.engine 5 true) = some 0 ∧ s.parkedBlock 0 0 (.engine 5 false) = some 0 ∧
     engLocal (regAddr ((s.engines.find 5).getD default).regs (doneReg 0)) = false ∧ (s.blk 0).groups.has 0 = true) := by
  decide +kernel

/-- `imaged`'s block, its sequencer parked at a first use, with its image where a save puts it. -/
def firstUse : State :=
  { (seqr.modBlk 0 fun y => { y with seq := y.seq.map fun q => { q with parked := true } }).modFacet 0 (fun f =>
      { f with record := { f.record with scause := 0x80000044 } }) with
    bootst := 0x80
    mem := (seqr.mem.putAll (cellsAt (0x10000 + 20480) (imgHead 0 0))).write (0x10000 + 20480 + 60) 4 (crc32c (imgHead 0 0)) }
theorem witness_first_use : firstUse.blocks.has 0 = true ∧ firstUse.firstUse 0 = true ∧ firstUse.bootst = 0x80 ∧
    (firstUse.facet (firstUse.blk 0).facet).accV = false ∧
    firstUse.loadOk (firstUse.imageFn 0) 0 (firstUse.tagOf (firstUse.blk 0).part) = true ∧
    (let s : State := { firstUse with mem := seqr.mem }
     s.firstUse 0 = true ∧ s.loadOk (s.imageFn 0) 0 (s.tagOf (s.blk 0).part) = false) ∧
    (let s := firstUse.modBlk 0 fun y => { y with preempt := some 0 }
     s.blocks.has 0 = true ∧ s.firstUseOut 0 = true ∧ (s.blk 0).image = false) ∧
    (let s := firstUse.modBlk 0 fun y => { y with
       phase := .swapped, image := true, saved := [(8, .seqr (y.seq.getD (Seq.launch 4 0)) (firstUse.facet 0).record)] }
     s.blocks.has 0 = true ∧ s.firstUseOut 0 = true) := by decide +kernel

/-- Hypotheses of BlockEnds: END of a block that is in, and of one that is going out. -/
theorem witness_end : parked.parkedBlock 0 0 (.split 0 0) = some 0 ∧ (parked.blk 0).preempt = none ∧
    let s := parked.modBlk 0 fun y => { y with preempt := some 1 }
    s.parkedBlock 0 0 (.split 0 0) = some 0 := by decide +kernel

/-- Hypotheses of BlockEnds: a block that is over, with its queue; STOP with both writes possible. -/
theorem witness_block_end : (let s := { lane.modGrp 0 0 (fun y => { y with ended := true }) with
        queues := [(0, { (default : Queue) with cap := 8 })] }
     let u := s.modBlk 0 fun y => { y with records := [0] }
     u.blockOver 0 = true ∧ u.pageHeld (u.blk 0).queue = false ∧
     ({ u with migrs := [(3, { (default : Migr) with final := some 0, oldPte := 0x1F000000000003 })] } : State).pageHeld (u.blk 0).queue = true ∧
     (u.queues.find 0).any (fun q => q.key == 0 && q.freed.isEmpty && q.head == 0) = true ∧ u.mem.wf = true) ∧
    (let t := (lane.vfBlocks 1).foldl (fun (t : State) b => (t.performWrites b).finishBlock b true true) lane
     ((t.writeSpace 0 0x4000 (reportBytes (sortN (t.vf 1).frames))).bind fun u =>
       (u.modVf 1 fun v => { v with frames := [] }).writeSpace 0 0x5000 (leBytes 4 1)).isSome = true) := by decide +kernel

/-! ### The bytes of an image have distinct homes -/

theorem read_none (a n : Nat) : Memory.read [] a n = 0 := by
  unfold Memory.read
  induction n generalizing a with
  | zero => rfl
  | succ n ih => simp [Memory.bytes, Memory.get, leVal, ih]
theorem canon_low (a : Nat) (h : a < 0x10000000000) : canon a = a := by
  have : pinnedDie a = none := by
    simp only [pinnedDie, firstWhere, pinnedBase]
    rw [List.filter_eq_nil_iff.2 ?_]
    · rfl
    · intro d _
      rw [Bool.and_eq_true]
      intro hc
      have := of_decide_eq_true hc.1
      omega
  simp [canon, this]
/-- A block has no tables, in a memory that lists nothing: its context area lies where its addresses say (log 5). -/
def untabled (s : State) : Prop := s.mem = [] ∧ (s.vf (s.blk 0).vf).s2en = false
theorem untabled_ctxKey (s : State) (hs : untabled s) (a : Nat) (h : a < 0x10000000000) : s.ctxKey 0 a = a := by
  have hw : walkBoth s.mem s.fabid (s.blk 0).vf (s.vf (s.blk 0).vf) a = .error { stage2 := false, level := 0, used := [] } := by
    rw [hs.1]
    simp [walkBoth, walkTable, via2, walk2, hs.2, read_none, decodePte, bit]
  rw [State.ctxKey, hw]
  exact canon_low a h
theorem cellsAt_keys (a : Nat) (bs : List Byte) : (cellsAt a bs).map Prod.fst = List.range' a bs.length := by
  induction bs generalizing a with
  | nil => rfl
  | cons b bs ih => simp [cellsAt, ih, List.range'_succ]
theorem ctxCells_keys (s : State) (hs : untabled s) (n a : Nat) (bs : List Byte) (h : a + bs.length < 0x10000000000) :
    (s.ctxCells 0 n a bs).map Prod.fst = List.range' a bs.length := by
  induction n generalizing a bs with
  | zero => rw [State.ctxCells, untabled_ctxKey s hs a (by omega), cellsAt_keys]
  | succ n ih =>
    rw [State.ctxCells]
    split
    · rw [untabled_ctxKey s hs a (by omega), cellsAt_keys]
    · next hk =>
      rw [List.map_append, ih _ _ (by simp; omega), untabled_ctxKey s hs a (by omega), cellsAt_keys, List.length_take,
        List.length_drop, Nat.min_eq_left (by omega), List.range'_append_1]
      congr 1
      omega
/-- Hypotheses of ReservationAndPreemption: no two bytes of an image of any length below 2^39 have one home. -/
theorem witness_image_cells (bs : List Byte) (h : bs.length < 2 ^ 39) :
    ((((lane.markSave 0).dirtyStash 0 fun _ => true).ctxCells 0 (bs.length / 4096 + 1) ((lane.blk 0).imageAt 0) bs).map Prod.fst).Nodup := by
  have hi : (lane.blk 0).imageAt 0 = 86016 := by decide +kernel
  have hu : untabled ((lane.markSave 0).dirtyStash 0 fun _ => true) := ⟨by decide +kernel, by decide +kernel⟩
  rw [hi, ctxCells_keys _ hu _ _ _ (by omega)]
  exact List.nodup_range'

/-! ## Witnesses: the machine, the hub, Meridian, the fabric, translation -/

/-- Hypotheses of StepKeepsMemoryCanonical, StepRunsLaneInstruction, StepRunsOtherTurns: a block's first instruction after reset;
DecodeOfEncode: a well-formed instruction. -/
theorem witness_step : (Instr.iadd 0 true 2 4 (.vv 6)).wf = true ∧ (let s := State.reset.withFetchWord 32 0x01030424
     let u : State := { s with agenda := [], focus := .split 0 0 0 }
     s.mem.wf = true ∧ s.agenda = [.lane 0 0 0] ∧ s.halted = false ∧ u.splitReady 0 0 0 = true ∧
     (match u.fetchWord u.site u.pc.toNat with
       | .ok ws => ws == [0x01030424]
       | _ => false) = true) ∧
    (∃ t, step (State.reset.withFetchWord 32 0x01030424) = .next t ∧ t.mem.wf = true) ∧ State.reset.agenda = [] := by
  refine ⟨by decide +kernel, by decide +kernel, ⟨_, rfl, by decide +kernel⟩, rfl⟩
/-- Hypotheses of StepRunsOtherTurns: a filter program's turn, a context's turn, a halted part. -/
theorem witness_turns : (let s := State.reset.withFetchWord 16 0xB800
     s.agenda = [.filter 0] ∧ s.halted = false ∧ (s.merid 0).en = true ∧ (s.merid 0).run.isSome = true ∧
     decodeFilter 0xB800 = some .fltEnd) ∧
    (let s : State := { comet with tlbs := [(1000, [oneEntry])] }
     s.cometReady 0 = true ∧ s.fetchWord s.site s.pc.toNat = .ok [0] ∧ (decodeLane 0 0).isSome = true) ∧
    (let s := (seqr.modSeq 0 fun q => { q with pc := 0x100, checked := false })
     s.hasSeq 0 = true ∧ (s.seq 0).mayIssue s.now = true ∧ (match s.fetchBundle 0 with
       | .ok d => let y := (s.keepFetch s.site (s.seq 0).pc.toNat).modSeq 0 fun q => { q with since := some (q.since.getD s.now) }
         let js := (s.seq 0).active d
         ((s.keepFetch s.site (s.seq 0).pc.toNat).candidate 0 js).isNone && js.all (fun i => (waitingCol i).isNone) &&
         (y.atIssue 0 js).isNone && !y.bundlePend 0 js && (y.boardStop 0 js).isNone
       | _ => false) = true ∧ (s.blk 0).preempt = none) ∧
    (let s : State := { State.reset with bootst := 2, agenda := [.event (.energyWindowEnd 0)] }
     s.halted = true) := by decide +kernel

/-- Hypotheses of StepRunsOtherTurns: a context's own cycle, one that it has yielded, a wait that looks again. -/
theorem witness_comet_turns : (let s : State := { comet with tlbs := [(1000, [oneEntry])] }
     s.cometReady 0 = true ∧ (s.ctx 0).wait = .ready ∧ s.cycleOf 0 = some 0) ∧
    (let s : State := { comet with comets := [(0, { comet.ctx 0 with yielded := true }), (3, { comet.ctx 0 with lane := 3 })] }
     s.cometReady 0 = true ∧ s.cycleOf 0 = some 3 ∧
     let v : State := { s.clearCometYields 0 with focus := .comet 3, tlbs := [(1000, [oneEntry])] }
     v.fetchWord v.site v.pc.toNat = .ok [0]) ∧
    (let s := comet.modCtx 0 fun x => { x with wait := .blocked (.ring 2) 0 }
     s.cometReady 0 = true ∧ (s.ctx 0).wait ≠ .ready) := by decide +kernel
/-- Hypotheses of StepRunsLaneInstruction: a split that waits at a barrier, and one that waits in a TAKE. -/
theorem witness_looks_again : (let s := barred { bar2 with groups := [(0, { (default : BarGroup) with arrived := true })] }
     let u := s.modSpl 0 0 0 fun x => { x with wait := .blocked (.barrier 0) 0 }
     u.splitReady 0 0 0 = false ∧ u.splitRetries 0 0 0 = true ∧ (u.spl 0 0 0).taking = none ∧
     (match u.fetchWord u.site u.pc.toNat with
       | .ok ws => ws == [0]
       | _ => false) = true) ∧
    let u := taking (.transfer (.group 0))
    u.splitReady 0 0 0 = false ∧ u.splitRetries 0 0 0 = true ∧ (u.spl 0 0 0).taking.isSome = true := by decide +kernel
/-- Block 0's split, and a context, in an EMIT that waits until its stamps are written, with a store of it where `open`. -/
def stamping (performed : Bool) : State :=
  { comet.modSpl 0 0 0 fun x => { x with wait := .blocked (.stamps 7) 0 } with
    comets := [(0, { comet.ctx 0 with wait := .blocked (.stamps 7) 0 })]
    stores := [(1, { (default : StoreOp) with inst := 7, performed := performed })] }
/-- Hypotheses of StepLooksAgain and StepRunsCometInstruction: an EMIT whose stamps are written, and one whose are not. -/
theorem witness_stamps : ∀ x ∈ [true, false], (stamping x).splitReady 0 0 0 = false ∧ (stamping x).splitRetries 0 0 0 = true ∧
    ((stamping x).spl 0 0 0).wait = .blocked (.stamps 7) 0 ∧ (stamping x).cometReady 0 = true ∧
    ((stamping x).ctx 0).wait = .blocked (.stamps 7) 0 ∧
    ((stamping x).stores.any fun e => e.2.inst == 7 && !e.2.performed) = !x := by decide +kernel
/-- Hypotheses of StepRunsOtherTurns: a parity error at a ready split; InstructionTraps: a trap that a result in flight holds. -/
theorem witness_parity : lane.splitReady 0 0 0 = true ∧ lane.trapHeld 0 0 0 0xA6 = false ∧ lane.trapHeld 0 0 0 0 = false ∧
    let s := { vectored with ops := [(1, linkLoad (vectored.blk 0).node.link)] }
    s.issuing = true ∧ s.trapHeld 0 0 0 0 = true := by decide +kernel

/-- Hypotheses of HubRegisters and WindowsAndResets: an empty core and a busy one, an illegal value of each register, floors that
fit and floors that do not, the clock of each window. -/
theorem witness_hub : State.reset.coreBusy 0 = false ∧ lane.coreBusy 0 = true ∧ (3 : Word).toNat % 4 = 3 ∧
    (20 : Word).toNat % 32 = 20 ∧ (63 : Word).toNat % 64 ≤ 64 ∧
    (let s := State.reset.modPart 1 fun x => { x with floor := [(0, 40)] }
     64 < ((List.range 20).map fun q => if q = 0 then 0 else (s.part q).floor.getD 0 0).sum + (25 : Word).toNat % 64) ∧
    regAt .boot 8 = some .hostcap ∧ resolveReg (.at .partition 0x1000) = some (.ptag 0) ∧
    resolveReg (.dropb 2 3) = some (.dropb 2 3) ∧ 3 ≠ (State.reset.vf 1).part ∧
    0 % 700000 = 0 ∧ 0 % 1024 = 0 ∧ 0 % 4096 = 0 ∧ 0 % 700 = 0 ∧ ({ lane with now := 5 } : State).now % 4 ≠ 0 := by
  decide +kernel
/-- 20 R404, R405: mode 1 of an empty core leaves two facets of two columns; mode 3 sets CMERR. -/
theorem test_cmode : (next (exec (.cmodeWrite 0 5 1) State.reset)).facetCount 5 = 2 ∧
    (next (exec (.cmodeWrite 0 5 1) State.reset)).facetWidth 5 = 2 ∧
    (next (exec (.cmodeWrite 0 5 3) State.reset)).cmerr.getD 5 false = true ∧
    (next (exec (.cmodeWrite 0 0 1) lane)).facetCount 0 = 1 := by decide +kernel
/-- Hypotheses of WindowsAndResets: the ROM waits, the firmware runs. -/
theorem witness_boot : State.reset.bootst = 0 ∧ booted.bootst = 0x80 ∧ 5 < booted.bootst ∧
    leVal ((leBytes 4 0x57524946).take 4) = 0x57524946 := by decide +kernel

/-- Meridian 0 with an event of type 1 to dispatch, its slot 2 running a program of one word, `n` words left in the window. -/
def dispatching (types n : Nat) : State :=
  State.reset.modMerid 0 fun x => { x with
    disp := [{ (default : Event) with type := 1 }], left := [(31, n)]
    slots := [(2, { (default : Attach) with types := types, part := 31, words := [0xB800] })] }
/-- Hypotheses of Meridians: a program that runs, none, one that the budget refuses. -/
theorem witness_dispatch : (∀ x ∈ [(2, 5), (0, 5), (2, 0)], let y := (dispatching x.1 x.2).merid 0
     y.disp = [{ (default : Event) with type := 1 }] ∧ y.en = true ∧ y.run = none ∧ y.remainder 31 = x.2 ∧
     ((y.slots.filter fun a => a.2.types / 2 ^ 1 % 2 == 1 && (a.2.part == 31 || a.2.part == 0) && !a.2.leaving).map Prod.fst) =
       if x.1 = 2 then [2] else []) := by decide +kernel

/-- A descriptor of type 1 for every partition with one word, then END, with its objects. -/
def attachBytes (objs : List Nat) (words : List Nat) : List Byte :=
  leBytes 4 2 ++ leBytes 1 31 ++ leBytes 1 0 ++ leBytes 1 words.length ++ leBytes 57 0 ++ objs.flatMap (leBytes 8) ++
  leBytes (128 - 8 * objs.length) 0 ++ words.flatMap (leBytes 2)
/-- That descriptor in memory. -/
def attachable (objs words : List Nat) : State :=
  { booted with mem := booted.mem.putAll (cellsAt 0x1000 (attachBytes objs words)) }
/-- Hypotheses of Meridians: a descriptor that passes, one that fails, a slot to detach, a link's errors. -/
theorem witness_attach : (let s := attachable [3] [0xB800]
     (s.readSpace 0 0x1000 192).any (fun d => num d 6 1 == 1) = true ∧
     (s.readSpace 0 (0x1000 + 192) 2).isSome = true ∧
     ((next (exec (.attach 0 0 2 0x1000) s)).answers.map Answer.status) = [0] ∧
     ((next (exec (.attach 0 0 40 0x1000) s)).answers.map Answer.status) = [1]) ∧
    (filt.merid 0).slots.has 0 = true ∧ (filt.merid 0).run.any (fun r => r.slot == 0) = true ∧
    (let x : LinkErr := { count := 3, last := some 5 }
     x.count ≠ 0 ∧ 4 < 5 + 700 ∧ 5 + 700 ≤ 705) := by decide +kernel

/-- Meridian 0 with slot 2 of partition 3 attached, its objects a histogram, a sketch, a counter and a trigger, and its afterglow
record 5 poisoned. -/
def telemetry : State :=
  (State.reset.modMerid 0 fun x => { x with
    badGlow := [5]
    slots := [(2, { (default : Attach) with
      part := 3, words := [0xB800], objs := [1, 2, 3, 4], store := [(2, [(0, 7)])] })] }).modVf 1 fun v => { v with part := 3 }
/-- Hypotheses of Meridians: each kind of object, a function of the partition and one of another. -/
theorem witness_telemetry : (telemetry.merid 0).slots.has 2 = true ∧
    (((telemetry.merid 0).slots.getD 2 default).objs.map (· % 16)) = [1, 2, 3, 4] ∧
    ((telemetry.merid 0).slots.getD 2 default).part = (telemetry.vf 1).part ∧
    ((telemetry.merid 0).slots.getD 2 default).part ≠ (telemetry.vf 2).part ∧
    ((0x008, 0) ∈ [(0x000, b2n (telemetry.merid 0).en + 2 * b2n (telemetry.merid 0).frozen), (0x008, (telemetry.merid 0).wptr)]) ∧
    ((0x218, 0) ∈ [(0x100 + 8 * 3, (telemetry.merid 0).budget 3), (0x200 + 8 * 3, (telemetry.merid 0).dropb.getD 3 0)]) ∧
    3 = (telemetry.vf 1).part ∧ 5 % 4096 ∈ (telemetry.merid 0).badGlow ∧ 6 % 4096 ∉ (telemetry.merid 0).badGlow ∧
    (∀ x ∈ [(HubIface.facet, 0x80, HubReg.cmode 1), (.partition, 0x1108, .floor 1 0), (.boot, 0, .bootst), (.fabric, 0xD04, .pstat 0)],
      regAt x.1 x.2.1 = some x.2.2) ∧
    telemetry.cmode.getD 0 0 < 3 ∧ (telemetry.facet 0).fctl &&& 0x00FF0003 = (telemetry.facet 0).fctl := by decide +kernel
/-- 17 R367: READ answers a counter's count, READCLR leaves it 0; a function of another partition reads 0. -/
theorem test_read : ((next (exec (.read 1 0 2 2) telemetry)).answers.map Answer.vals) = [[7]] ∧
    (((next (exec (.readclr 1 0 2 2) telemetry)).merid 0).stored 2 2).getD 0 0 = 0 ∧
    ((next (exec (.read 2 0 2 2) telemetry)).answers.map Answer.vals) = [[0]] := by decide +kernel

/-- Fabric port 0 up, with flit 4 to acknowledge, the request of access 9, and a response that waits. -/
def portUp (resend : Option Nat) (n : Nat) : State :=
  State.reset.modPort64 0 fun p => { p with
    en := true, up := true, replay := [{ seq := 4, chan := 2, target := 1, src := 0, ack := 0, load := .request 9 }], resend := resend,
    replays := n, queued := [waitingFlit 23 1 0 .response] }
/-- Fabric port 0 in training. -/
def portTrains : State := State.reset.modPort64 0 fun p => { p with en := true, train := true }
/-- Hypotheses of FabricPorts. -/
theorem witness_fabric : (State.reset.fport 0).en = false ∧ (1 : Word).getLsbD 0 = true ∧ (0 : Word).getLsbD 0 = false ∧
    ((next (exec (.pctlWrite 0 0 1) State.reset)).fport 0).train = true ∧
    (((portUp none 0).fport 0).up = true ∧ (∃ f ∈ ((portUp none 0).fport 0).replay, f.seq = 4) ∧
      ((portUp none 0).fport 0).resend ≠ some 4 ∧ ((portUp none 0).fport 0).replay.length < 512 ∧
      (∃ f ∈ ((portUp none 0).fport 0).queued, f.chan = 23) ∧ ((portUp none 0).fport 0).used.getD 23 0 = 0 ∧
      ((portUp none 0).fport 0).en = true ∧ ((portUp none 0).fport 0).down = false ∧ ((portUp none 0).fport 0).train = false ∧
      (portUp none 0).portHeld 0 = false) ∧
    (∀ n ∈ [6, 7], ((portUp (some 4) n).fport 0).resend = some 4 ∧ ((portUp (some 4) n).fport 0).replays = n) ∧
    (portTrains.fport 0).train = true ∧ portTrains.portHeld 0 = false := by decide +kernel
/-- Hypotheses of FabricPorts: a flit of the number that its header bears, one that is expected and one that is not, one whose CRC
fails. -/
theorem witness_flit (flit : List Byte) (n : Nat) : ∃ s : State, (s.fport 0).up = true ∧ (s.fport 0).expect = n ∧
    (s.fport 0).discard = true ∧ (n = Config.flitSeq (flit.take 16) ∨ n ≠ Config.flitSeq (flit.take 16)) :=
  ⟨State.reset.modPort64 0 fun p => { p with up := true, expect := n, discard := true }, rfl, rfl, rfl, em _⟩
theorem witness_flit_crc : (∃ flit : List Byte, flit.length ≠ 256) ∧
    ∃ flit : List Byte, flit.length = 256 ∧ leVal (flit.drop 248) = (Config.crc64 (flit.take 248)).toNat := by
  refine ⟨⟨[], by decide⟩, ?_⟩
  have h : (List.replicate 248 (0 : Byte)).length = 248 := List.length_replicate ..
  refine ⟨List.replicate 248 0 ++ leBytes 8 (Config.crc64 (List.replicate 248 0)).toNat, ?_, ?_⟩
  · rw [List.length_append, h, leBytes_length]
  · rw [List.drop_left' h, List.take_left' h, leVal_leBytes]
    exact Nat.mod_eq_of_lt (Config.crc64 (List.replicate 248 0)).isLt
/-- Fabric port 0 up, carrying a load of the link pair of a split whose trap to the handler that result would hold. -/
def portBlocked : State :=
  { (vectored.modPort64 0 fun p => { p with en := true, up := true, queued := [waitingFlit 0 1 0 (.request 9)] }) with
    routes := [(1, 1)]
    ops := [(9, { linkLoad (vectored.blk 0).node.link with
      kind := .load, host := true, acc := [{ (default : Access) with key := remoteKey 1 64 }] })] }
/-- Hypotheses of FabricPorts: the fall of a port that must wait. -/
theorem witness_port_held : portBlocked.portHeld 0 = true := by decide +kernel
theorem witness_credit (c : Nat) : 0 < channelCredits c := by unfold channelCredits; omega

/-- Export entry 0 opens the first page to tag 5. -/
def exporting : State := { State.reset with exports := [(0, { base := 0, len := 1, tag := 5 })] }
/-- Hypotheses of OutsideRequests: an access that is served, one of poisoned words, one of a page that is being moved, one that no
entry admits. -/
theorem witness_outside : exporting.exports.find 0 = some { base := 0, len := 1, tag := 5 } ∧ 0 ≤ 4088 ∧ 4088 + 8 ≤ 0 + 4096 * 1 ∧
    (∀ op ∈ [HostOp.load, .store 7, .atom .add 1 0], hostFits op 4088 8 = true) ∧ inWindow 4088 8 = true ∧
    exporting.mem.wf = true ∧ exporting.armed.length < 64 ∧ State.reset.exported 5 0 8 = false ∧
    (let ks := (List.range 8).map fun i => canon (4088 + i)
     let moving : State := { exporting with migrs := [(3, { (default : Migr) with final := some 0, oldPte := 0x1F000000000003 })] }
     let bad : State := { exporting with poison := [4088 / 4] }
     (∀ part ∈ [0, 31], exporting.outsideWaits part ks = false ∧ moving.outsideWaits part ks = true ∧
       bad.outsideWaits part ks = false) ∧
     exporting.outsidePoison .load ks = false ∧ bad.outsidePoison .load ks = true) := by decide +kernel

/-- A walk of page 0 of virtual function 1, whose tables map it where `ok`. -/
def walking (started stale ok : Bool) : State :=
  { (State.reset.modVf 1 fun v => { v with s1root := 0x1000, part := 1 }) with
    mem := if ok then (((State.reset.mem.write 0x1000 8 0x2001).write 0x2000 8 0x3001).write 0x3000 8 0x4001).write 0x4000 8 0x1F000000005003
      else State.reset.mem
    walks := [(7, { (default : Walk) with vf := 1, started := started, stale := stale })] }
/-- Hypotheses of WalksAndInvalidation: walks that start and that wait for a walker, one that ends, one that faults, one of tables
with a poisoned entry, one that is stale. -/
theorem witness_walk : (let s := walking false false true
     s.walks.find 7 = some { (default : Walk) with vf := 1 } ∧ (s.walks.filter fun e => e.2.die == 0 && e.2.started).length < 192 ∧
     (∀ e ∈ s.walks, e.1 < 7 → e.2.die = 0 → e.2.started = true)) ∧
    (∃ e ∈ [(6, (default : Walk)), (7, default)], e.1 < 7 ∧ e.2.die = 0 ∧ e.2.started = false) ∧
    (match walkBoth (walking true false true).mem 0 1 ((walking true false true).vf 1) 0 with
      | .ok (e, used) => e.rem == none && e.pa == 0x5000 && used == [0x4000]
      | .error _ => false) = true ∧
    (match walkBoth (walking true false false).mem 0 1 ((walking true false false).vf 1) 0 with
      | .ok _ => false
      | .error e => e.level == 0 && !e.stage2) = true ∧
    (∀ ok ∈ [true, false], let s := walking true false ok
     (walkReads s.mem s.fabid (s.vf 1) 0).all (fun k => !s.arbHeld k (s.vf 1).part && !s.poisoned k 8) = true) ∧
    (let s : State := { walking true false true with poison := [0x2000 / 4] }
     (walkReads s.mem s.fabid (s.vf 1) 0).all (fun k => !s.arbHeld k (s.vf 1).part) = true ∧
     (walkReads s.mem s.fabid (s.vf 1) 0).any (fun k => s.poisoned k 8) = true) ∧
    (walking true true true).walks.any (fun e => e.2.stale && e.2.started) = true ∧
    State.reset.usesRange 1 0 0 = false := by decide +kernel
/-- A walk of partition 1, with a load of partition 0 in flight to the root of its tables. -/
def walkBehind : State :=
  { walking true false true with
    blocks := crossed.blocks
    ops := [(1, { (default : LaneOp) with kind := .load, bytes := 4, acc := [{ (default : Access) with key := 0x1000 }] })] }
/-- Hypotheses of WalksAndInvalidation: a walk whose reads wait for the arbiter. -/
theorem witness_walk_waits : 0x1000 ∈ walkReads walkBehind.mem walkBehind.fabid (walkBehind.vf 1) 0 ∧
    walkBehind.arbHeld 0x1000 (walkBehind.vf 1).part = true := by
  have h : (walkBehind.vf 1).part = 1 := by decide +kernel
  rw [h]
  refine ⟨by decide +kernel, arb_of walkBehind 0x1000 1 _ { (default : Access) with key := 0x1000 } rfl rfl rfl rfl (by decide +kernel)
    rfl (by decide +kernel) (by decide +kernel) rfl (by decide +kernel) (by decide +kernel)⟩
/-- Hypotheses of WalksAndInvalidation: accesses under way that hold an invalidation up. -/
theorem witness_uses_range : (let o : LaneOp := { (default : LaneOp) with bytes := 4, acc := [{ (default : Access) with ea := 8 }] }
     ({ lane with ops := [(1, o)] } : State).usesRange 1 0 0 = true) := by decide +kernel

/-- A migration descriptor of virtual function 1's page 0, whose leaf stands at 0x4000, its status word at 0x9000. -/
def migrBytes (old new : Nat) (bias : Nat) : State :=
  { booted with
    mem := (booted.mem.write 0x4000 8 old).putAll (cellsAt 0x1000 (leBytes 8 0x4000 ++ leBytes 8 new ++ leBytes 2 1 ++ leBytes 1 0 ++
      leBytes 1 bias ++ leBytes 4 0 ++ leBytes 8 0 ++ leBytes 8 0x9000 ++ leBytes 24 0)) }
/-- A leaf of the page at a frame. -/
def leafAt (frame : Nat) : Nat := 0x1F000000000003 + 4096 * frame
/-- Hypotheses of Migrations: a migration that passes its checks, one that fails them, one of the bias. -/
theorem witness_migrate : (∀ x ∈ [(true, leafAt 5, leafAt 6, 0), (false, leafAt 5, leafAt 5, 0), (true, leafAt 5, leafAt 5, 1)],
     let s := migrBytes x.2.1 x.2.2.1 x.2.2.2
     (s.readSpace 0 0x1000 64).any (fun d => num d 19 1 == x.2.2.2 &&
       s.migrOk (migrOf d (x.2.2.2 == 1)) (s.mem.read (migrOf d (x.2.2.2 == 1)).leaf 8) == x.1 &&
       (migrOf d (x.2.2.2 == 1)).stat == 0x9000) = true ∧ s.migrs = [] ∧ s.mem.wf = true ∧ rangeOf 0x9000 ≠ none) ∧
    (let s := next (exec (.migrate 0 0x1000) (migrBytes (leafAt 5) (leafAt 6) 0))
     s.migrs.any (fun e => e.2.leaf == 0x4000 && e.2.pass == 1) = true) := by decide +kernel
/-- The state of a migration after `pass` passes with `n` lines written since, in its final block where `final`. -/
def migrating (pass n : Nat) (final : Bool) : State :=
  { booted with migrs := [(3, { (default : Migr) with
      leaf := 0x4000, stat := 0x9000, vf := 1, pass := pass, dirty := List.range n, final := if final then some 0 else none,
      oldPte := leafAt 5, newPte := leafAt 6 })] }
/-- Hypotheses of Migrations: the three ends of a pass; the final block, idle and busy. -/
theorem witness_passes : (∀ x ∈ [(1, 64), (1, 65), (8, 65)], let m := ((migrating x.1 x.2 false).migrs.getD 3 default)
     (migrating x.1 x.2 false).migrs.has 3 = true ∧ m.pass = x.1 ∧ m.final = none ∧ m.todo = [] ∧ m.dirty.length = x.2 ∧
     m.stat % 8 = 0 ∧ rangeOf m.stat ≠ none) ∧
    (let s := migrating 2 0 true
     let m := s.migrs.getD 3 default
     m.final ≠ none ∧ s.pageBusy m = false ∧ s.mem.wf = true ∧ m.size = 0 ∧ m.newPte < 2 ^ 64 ∧ m.bias = false ∧
     s.armed.length < 60 ∧
     (∀ j < 8, ∀ i < 8, canon (m.stat + i) ≠ m.leaf + j) ∧ m.covers (canon m.stat) = false ∧
     m.lines.all (fun l => canon m.stat / 128 * 128 != m.moved l) = true) ∧
    (let s : State := { migrating 2 0 true with monitors := [(4, ⟨0, 0x5004, 4, .ne, 0, 0, 0, 0, none, 0, 0, false, false, 0⟩)] }
     s.pageBusy (s.migrs.getD 3 default) = false ∧
     (s.monitors.find 4).any (fun x => !x.poll && !x.fired) = true) ∧
    (let s := migrating 2 0 true
     let o : LaneOp := { (default : LaneOp) with host := true, acc := [{ (default : Access) with key := 0x5000 }] }
     let m := s.migrs.getD 3 default
     ({ s with ops := [(1, o)], migrs := [(3, { m with bound := 2 })] } : State).pageBusy { m with bound := 2 } = true) := by
  decide +kernel

end Sys2Proof.Tests
end

/-!
PROOFS. Every step keeps the canonical form of the memory (spec/00_scope.md R6, log 4). One lemma for each function of the model
that gives a state: `mem_f` where it leaves the memory as it is, `wf_f` where it writes it and keeps the canonical form, and `memWf_f`
where it gives an outcome or a check, whose states all have canonical memory. Only `writeHome` and `commit` write bytes; the lemmas of
Laws/Memory.lean and Laws/State.lean say that they keep the form.
-/

section

namespace Sys2Proof.Machine

/-! ## Rules for the shapes of the model's functions -/

/-- A fold whose steps keep the canonical form of memory keeps it. -/
theorem State.wf_foldl {α : Type} {f : State → α → State} (hf : ∀ t a, t.mem.wf = true → (f t a).mem.wf = true) {l : List α}
    {s : State} (h : s.mem.wf = true) : (l.foldl f s).mem.wf = true := by
  induction l generalizing s with
  | nil => exact h
  | cons a l ih => exact ih (hf s a h)

/-- An iteration of a partial step that keeps the canonical form of memory keeps it. -/
theorem wf_iterOpt {f : State → Option State} (hf : ∀ t r, t.mem.wf = true → f t = some r → r.mem.wf = true) {n : Nat}
    {s : State} (h : s.mem.wf = true) : (iterOpt n f s).mem.wf = true := by
  induction n generalizing s with
  | zero => exact h
  | succ n ih =>
    rw [iterOpt]
    split
    · next r e => exact ih (hf s r h e)
    · exact h

/-- Two stops tried in turn: each keeps the canonical form of memory, so whichever stands does. -/
theorem State.wf_of_orElse {x : Option State} {f : Unit → Option State} {r : State} (hx : ∀ u, x = some u → u.mem.wf = true)
    (hf : ∀ u, f () = some u → u.mem.wf = true) (e : x.orElse f = some r) : r.mem.wf = true := by
  rw [Option.orElse_eq_or, Option.or_eq_some_iff] at e
  rcases e with e | ⟨-, e⟩
  · exact hx r e
  · exact hf r e

/-! ## Outcomes whose states have canonical memory -/

/-- Every state that an outcome of `Out` carries has canonical memory. -/
def Out.MemWf : Out → Prop
  | .next t => t.mem.wf = true
  | .fault _ => True
  | .refused _ => True

@[simp] theorem Out.memWf_next {t : State} : Out.MemWf (.next t) ↔ t.mem.wf = true := .rfl
@[simp] theorem Out.memWf_fault {a} : Out.MemWf (.fault a) := trivial
@[simp] theorem Out.memWf_refused {a} : Out.MemWf (.refused a) := trivial

/-- Every state that an outcome of `Chk` carries has canonical memory. -/
def Chk.MemWf : Chk → Prop
  | .stop t => t.mem.wf = true
  | .ok _ => True

@[simp] theorem Chk.memWf_stop {t : State} : Chk.MemWf (.stop t) ↔ t.mem.wf = true := .rfl
@[simp] theorem Chk.memWf_ok {a} : Chk.MemWf (.ok a) := trivial

/-- Every state that an outcome of `EngStep` carries has canonical memory. -/
def EngStep.MemWf : EngStep → Prop
  | .wait t => t.mem.wf = true
  | .fault _ _ => True
  | .ok t => t.mem.wf = true

@[simp] theorem EngStep.memWf_wait {t : State} : EngStep.MemWf (.wait t) ↔ t.mem.wf = true := .rfl
@[simp] theorem EngStep.memWf_fault {a} {b} : EngStep.MemWf (.fault a b) := trivial
@[simp] theorem EngStep.memWf_ok {t : State} : EngStep.MemWf (.ok t) ↔ t.mem.wf = true := .rfl

/-- Every state that an outcome of `SChk` carries has canonical memory. -/
def SChk.MemWf : SChk → Prop
  | .ok => True
  | .hold t => t.mem.wf = true
  | .trap _ _ _ => True

@[simp] theorem SChk.memWf_ok : SChk.MemWf .ok := trivial
@[simp] theorem SChk.memWf_hold {t : State} : SChk.MemWf (.hold t) ↔ t.mem.wf = true := .rfl
@[simp] theorem SChk.memWf_trap {a} {b} {c} : SChk.MemWf (.trap a b c) := trivial

/-- Every state that an outcome of `ElemStep` carries has canonical memory. -/
def ElemStep.MemWf : ElemStep → Prop
  | .wait t => t.mem.wf = true
  | .fault _ _ => True
  | .ok _ t => t.mem.wf = true

@[simp] theorem ElemStep.memWf_wait {t : State} : ElemStep.MemWf (.wait t) ↔ t.mem.wf = true := .rfl
@[simp] theorem ElemStep.memWf_fault {a} {b} : ElemStep.MemWf (.fault a b) := trivial
@[simp] theorem ElemStep.memWf_ok {v} {t : State} : ElemStep.MemWf (.ok v t) ↔ t.mem.wf = true := .rfl

/-- Every state that an outcome of `ElemGet` carries has canonical memory. -/
def ElemGet.MemWf : ElemGet → Prop
  | .wait t => t.mem.wf = true
  | .fault _ _ => True
  | .ok _ t => t.mem.wf = true

@[simp] theorem ElemGet.memWf_wait {t : State} : ElemGet.MemWf (.wait t) ↔ t.mem.wf = true := .rfl
@[simp] theorem ElemGet.memWf_fault {a} {b} : ElemGet.MemWf (.fault a b) := trivial
@[simp] theorem ElemGet.memWf_ok {v} {t : State} : ElemGet.MemWf (.ok v t) ↔ t.mem.wf = true := .rfl

/-- Every state that an outcome of `BundleAt` carries has canonical memory. -/
def BundleAt.MemWf : BundleAt → Prop
  | .wait t => t.mem.wf = true
  | .fault _ _ => True
  | .illegal => True
  | .ok _ => True

@[simp] theorem BundleAt.memWf_wait {t : State} : BundleAt.MemWf (.wait t) ↔ t.mem.wf = true := .rfl
@[simp] theorem BundleAt.memWf_fault {a} {b} : BundleAt.MemWf (.fault a b) := trivial
@[simp] theorem BundleAt.memWf_illegal : BundleAt.MemWf .illegal := trivial
@[simp] theorem BundleAt.memWf_ok {a} : BundleAt.MemWf (.ok a) := trivial

theorem Chk.MemWf.stop {x : Chk} {u : State} (hx : x.MemWf) (e : x = .stop u) : u.mem.wf = true := by
  subst e; exact hx

theorem EngStep.MemWf.wait {x : EngStep} {u : State} (hx : x.MemWf) (e : x = .wait u) : u.mem.wf = true := by
  subst e; exact hx

theorem EngStep.MemWf.ok {x : EngStep} {u : State} (hx : x.MemWf) (e : x = .ok u) : u.mem.wf = true := by
  subst e; exact hx

theorem SChk.MemWf.hold {x : SChk} {u : State} (hx : x.MemWf) (e : x = .hold u) : u.mem.wf = true := by
  subst e; exact hx

theorem ElemStep.MemWf.wait {x : ElemStep} {u : State} (hx : x.MemWf) (e : x = .wait u) : u.mem.wf = true := by
  subst e; exact hx

theorem ElemStep.MemWf.ok {x : ElemStep} {u : State} {v : Nat} (hx : x.MemWf) (e : x = .ok v u) : u.mem.wf = true := by
  subst e; exact hx

theorem ElemGet.MemWf.wait {x : ElemGet} {u : State} (hx : x.MemWf) (e : x = .wait u) : u.mem.wf = true := by
  subst e; exact hx

theorem ElemGet.MemWf.ok {x : ElemGet} {u : State} {v : PortElem} (hx : x.MemWf) (e : x = .ok v u) : u.mem.wf = true := by
  subst e; exact hx

theorem BundleAt.MemWf.wait {x : BundleAt} {u : State} (hx : x.MemWf) (e : x = .wait u) : u.mem.wf = true := by
  subst e; exact hx

theorem Out.MemWf.next {x : Out} {u : State} (hx : Out.MemWf x) (e : x = .next u) : u.mem.wf = true := by
  subst e; exact hx

/-! ## Memory: the functions of `Machine/Home` -/

@[simp] theorem State.wf_orLeaf {s : State} {a bitNo : Nat} (h : s.mem.wf = true) : (s.orLeaf a bitNo).mem.wf = true := by
  unfold State.orLeaf
  dsimp only
  split
  · exact h
  · exact State.wf_writeHome _ _ h

@[simp] theorem State.wf_markUsed {s : State} {used : List Nat} (h : s.mem.wf = true) : (s.markUsed used).mem.wf = true :=
  State.wf_foldl (fun _ _ ht => State.wf_orLeaf ht) h

@[simp] theorem State.wf_setDirty {s : State} {e : TlbEntry} (h : s.mem.wf = true) : (s.setDirty e).mem.wf = true := by
  unfold State.setDirty
  split
  · exact h
  · exact State.wf_foldl (fun _ _ ht => State.wf_orLeaf ht) h

/-! ## Memory: the functions of `Machine/Ops` -/

@[simp] theorem State.mem_dropWords (s : State) (p : Nat → Bool) (ws : List Nat) : (s.dropWords p ws).mem = s.mem := rfl

@[simp] theorem State.mem_wrVPair (s : State) (m l : Nat) (v : Dword) : (s.wrVPair m l v).mem = s.mem := by
  simp [State.wrVPair]

@[simp] theorem State.mem_wrSPair (s : State) (m : Nat) (v : Dword) : (s.wrSPair m v).mem = s.mem := by
  simp [State.wrSPair]

@[simp] theorem State.mem_putLanes (s : State) (ls : List Nat) (f : State → Nat → State) (hf : ∀ t l, (f t l).mem = t.mem) :
    (s.putLanes ls f).mem = s.mem :=
  State.putLanes_proj State.mem s ls f hf

@[simp] theorem State.mem_reportPark (s : State) (b kind slot split lane : Nat) (t : TrapState) (splitix : Nat) :
    (s.reportPark b kind slot split lane t splitix).mem = s.mem :=
  rfl

@[simp] theorem State.wf_touchRange {s : State} {vf a n : Nat} {wr : Bool} (h : s.mem.wf = true) :
    (s.touchRange vf a n wr).mem.wf = true := by
  refine State.wf_foldl (fun t i ht => ?_) h
  split
  · split <;> simp [ht]
  · exact ht

@[simp] theorem State.wf_touchCtx {s : State} {b a n : Nat} {wr : Bool} (h : s.mem.wf = true) :
    (s.touchCtx b a n wr).mem.wf = true := by
  simp [State.touchCtx, h]

@[simp] theorem State.wf_writeCtx {s : State} {b a : Nat} {bs : List Byte} (h : s.mem.wf = true) :
    (s.writeCtx b a bs).mem.wf = true := by
  simpa only [State.writeCtx, State.mem_dropWords] using State.wf_writeHome _ _ (State.wf_touchCtx h)

@[simp] theorem State.wf_takeTrapN {s : State} {cause n : Nat} {lmask : Mask} {info : Dword} (h : s.mem.wf = true) :
    (s.takeTrapN cause n lmask info).mem.wf = true := by
  unfold State.takeTrapN
  dsimp only
  repeat' split
  all_goals simp [h]

@[simp] theorem State.wf_takeTrap {s : State} {cause : Nat} (h : s.mem.wf = true) : (s.takeTrap cause).mem.wf = true := by
  simp [State.takeTrap, h]

@[simp] theorem State.wf_trapWith {s : State} {cause : Nat} {lmask : Mask} {info : Dword} (h : s.mem.wf = true) :
    (s.trapWith cause lmask info).mem.wf = true := by
  simp [State.trapWith, h]

/-! ## Memory: the functions of `Machine/Operands` -/

theorem Out.memWf_laneRun {i : Instr} {g : Pred} {s : State} {body : State → Out} (h : s.mem.wf = true)
    (hb : ∀ t, t.mem.wf = true → Out.MemWf (body t)) : Out.MemWf (laneRun i g s body) := by
  unfold laneRun
  dsimp only
  repeat' split
  case isFalse => exact hb s h
  all_goals simp [h]

theorem Out.memWf_laneSimple {i : Instr} {g : Pred} {s : State} {eff : State → State} (h : s.mem.wf = true)
    (he : ∀ t, (eff t).mem = t.mem) :
    Out.MemWf (laneSimple i g s eff) :=
  Out.memWf_laneRun h fun t ht => by simpa [he] using ht

@[simp] theorem State.mem_wrVn (s : State) (w : Bool) (r l v : Nat) : (s.wrVn w r l v).mem = s.mem := by
  unfold State.wrVn
  split <;> simp

@[simp] theorem State.mem_wrSn (s : State) (w : Bool) (r v : Nat) : (s.wrSn w r v).mem = s.mem := by
  unfold State.wrSn
  split <;> simp

@[simp] theorem mem_intEffect (g : Pred) (w bw sx : Bool) (d a : Reg) (src : Src) (f : Nat → Nat → Nat → Nat) (s : State) :
    (intEffect g w bw sx d a src f s).mem = s.mem := by
  unfold intEffect
  split
  · split <;> simp
  · simp

@[simp] theorem mem_vEffect (g : Pred) (d : Reg) (f : State → Nat → Word) (s : State) : (vEffect g d f s).mem = s.mem := by
  simp [vEffect]

@[simp] theorem mem_pEffect (g : Pred) (k : PairIx) (f : State → Nat → Bool) (s : State) : (pEffect g k f s).mem = s.mem := by
  simp [pEffect]

/-! ## Memory: the functions of `Machine/Splits` -/

@[simp] theorem State.wf_writeSpill {s : State} {b g k i : Nat} {ds : List Deferred} (h : s.mem.wf = true) :
    (s.writeSpill b g k i ds).mem.wf = true := by
  unfold State.writeSpill
  split <;> simp [h]

theorem State.wf_of_pushEntry {s r : State} {b g k : Nat} {d : Deferred} (h : s.mem.wf = true)
    (e : s.pushEntry b g k d = some r) : r.mem.wf = true := by
  unfold State.pushEntry at e
  dsimp only at e
  repeat' split at e
  all_goals cases e
  · exact h
  · exact State.wf_writeSpill h

theorem State.wf_of_pushAll {s r : State} {b g k : Nat} {ds : List Deferred} (h : s.mem.wf = true)
    (e : s.pushAll b g k ds = some r) : r.mem.wf = true := by
  induction ds generalizing s with
  | nil => cases e; exact h
  | cons d ds ih =>
    obtain ⟨u, hu, e⟩ := Option.bind_eq_some_iff.mp e
    exact ih (State.wf_of_pushEntry h hu) e

@[simp] theorem State.wf_refill {s : State} {b g k : Nat} (h : s.mem.wf = true) : (s.refill b g k).mem.wf = true := by
  unfold State.refill
  extract_lets sp
  split
  · rw [State.modSpl_mem]
    exact State.wf_touchCtx h
  · exact h

@[simp] theorem State.wf_popEntry {s : State} {b g k : Nat} (h : s.mem.wf = true) : (s.popEntry b g k).mem.wf = true := by
  simp [State.popEntry, h]

@[simp] theorem State.wf_popPath {s : State} {b g k : Nat} (h : s.mem.wf = true) : (s.popPath b g k).mem.wf = true := by
  unfold State.popPath
  split <;> simp [h]

@[simp] theorem State.wf_rotate {s : State} {b g k : Nat} (h : s.mem.wf = true) : (s.rotate b g k).mem.wf = true := by
  unfold State.rotate
  dsimp only
  repeat' split
  all_goals simp [h]

theorem State.wf_of_diverge {s r : State} {b g k : Nat} {ps : List (Dword × Mask)} (h : s.mem.wf = true)
    (e : s.diverge b g k ps = some r) : r.mem.wf = true := by
  unfold State.diverge at e
  split at e
  · cases e; exact h
  · obtain ⟨u, hu, e⟩ := Option.bind_eq_some_iff.mp e
    refine State.wf_of_pushAll ?_ e
    exact State.wf_foldl (fun _ _ ht => by exact ht) (by simpa using State.wf_of_pushEntry h hu)

@[simp] theorem State.wf_branch {s s0 : State} {b g k : Nat} {nextPc : Nat → Dword} (h : s.mem.wf = true)
    (h0 : s0.mem.wf = true) : (s.branch s0 b g k nextPc).mem.wf = true := by
  unfold State.branch
  dsimp only
  repeat' split
  · exact h
  · exact State.wf_rotate h
  · exact h
  · exact State.wf_of_diverge h ‹_›
  · exact State.wf_takeTrap h0

@[simp] theorem State.mem_dropCache (s : State) (c : Nat) : (s.dropCache c).mem = s.mem := rfl

@[simp] theorem State.mem_selfInvalidate (s : State) (core : Nat) : (s.selfInvalidate core).mem = s.mem := rfl

@[simp] theorem State.mem_dropLaneCache (s : State) (c : Nat) : (s.dropLaneCache c).mem = s.mem := rfl

@[simp] theorem State.wf_takeStack {s : State} {b g k j : Nat} (h : s.mem.wf = true) :
    (s.takeStack b g k j).mem.wf = true := by
  unfold State.takeStack
  split <;> simp [h]

@[simp] theorem State.wf_merge {s : State} {b g : Nat} {cm : Mask} (h : s.mem.wf = true) :
    (s.merge b g cm).mem.wf = true := by
  have htop (t u : State) (k : Nat) (hu : u.mem.wf = true) : (match t.topEntry b g k with
      | some d => (u.popEntry b g k).modSpl b g k fun y => { y with cm := d.mask }
      | none => u).mem.wf = true := by
    split
    · simp [hu]
    · exact hu
  unfold State.merge
  extract_lets
  split
  · exact h
  · extract_lets rest pc deep s0 top s1 s2 s3
    have h3 : s3.mem.wf = true := State.wf_foldl (fun _ _ hu => by exact hu) (htop _ _ _ (by simp [s1, s0, h]))
    repeat' split
    · exact State.wf_popPath h3
    · exact h3
    · simpa using h3
    · exact h3

theorem State.mem_of_tryCollect {s : State} {r : Nat × State} {b g : Nat} {pc : Dword} (e : s.tryCollect b g pc = some r) :
    r.2.mem = s.mem := by
  unfold State.tryCollect at e
  dsimp only at e
  split at e
  · cases e
  · split at e <;> cases e
    exact State.mem_foldl _ (fun _ _ => by rfl) _ _

@[simp] theorem State.mem_freeEmpty (s : State) (b g : Nat) : (s.freeEmpty b g).mem = s.mem := rfl

theorem State.wf_of_settleOnce {s r : State} {b g : Nat} (h : s.mem.wf = true) (e : s.settleOnce b g = some r) :
    r.mem.wf = true := by
  unfold State.settleOnce at e
  dsimp only at e
  split at e
  · cases e; exact State.wf_merge h
  · split at e
    · obtain ⟨p, hp, rfl⟩ := Option.map_eq_some_iff.mp e
      rw [State.mem_of_tryCollect hp]; exact h
    · cases e

@[simp] theorem State.wf_settle {s : State} {b g : Nat} (h : s.mem.wf = true) : (s.settle b g).mem.wf = true :=
  wf_iterOpt (fun _ _ => State.wf_of_settleOnce) (by simpa using h)

@[simp] theorem State.wf_endPath {s : State} {b g k : Nat} (h : s.mem.wf = true) : (s.endPath b g k).mem.wf = true := by
  unfold State.endPath
  split
  · exact State.wf_popPath h
  · exact State.wf_settle h

@[simp] theorem State.wf_joinSplit {s : State} {b g k : Nat} {next : Dword} (h : s.mem.wf = true) :
    (s.joinSplit b g k next).mem.wf = true := by
  simp [State.joinSplit, h]

@[simp] theorem State.wf_block {s : State} {b g k : Nat} {on : WaitOn} (h : s.mem.wf = true) :
    (s.block b g k on).mem.wf = true := by
  unfold State.block
  split <;> simp [h]

@[simp] theorem State.wf_blockUnit {s : State} {on : WaitOn} (h : s.mem.wf = true) : (s.blockUnit on).mem.wf = true := by
  unfold State.blockUnit
  split <;> simp [h]

@[simp] theorem State.mem_unblock (s : State) : s.unblock.mem = s.mem := by
  unfold State.unblock
  split <;> rfl

@[simp] theorem State.mem_acquireUnit (s : State) : s.acquireUnit.mem = s.mem := by
  unfold State.acquireUnit
  split <;> rfl

/-! ## Memory: the functions of `Machine/Barriers` -/

@[simp] theorem State.mem_gangLeave (s : State) (b : Nat) : (s.gangLeave b).mem = s.mem := by
  unfold State.gangLeave
  dsimp only
  repeat' split
  all_goals rfl

@[simp] theorem State.mem_freeTiles (s : State) (b g : Nat) : (s.freeTiles b g).mem = s.mem := rfl

@[simp] theorem State.mem_exitDbars (s : State) (b g : Nat) (live : Mask) : (s.exitDbars b g live).mem = s.mem := rfl

@[simp] theorem State.mem_exitArrivals (s : State) (b g : Nat) : (s.exitArrivals b g).mem = s.mem := by
  unfold State.exitArrivals
  dsimp only
  repeat' split
  all_goals rfl

@[simp] theorem State.mem_groupEnd (s : State) (b g : Nat) : (s.groupEnd b g).mem = s.mem := by
  unfold State.groupEnd
  split <;> simp

@[simp] theorem Out.memWf_barRun {i : Instr} {g : Pred} {a : BarAct} {n : Nat} {s : State} (h : s.mem.wf = true) :
    Out.MemWf (barRun i g a n s) := by
  unfold barRun
  refine Out.memWf_laneRun h fun t ht => ?_
  dsimp only
  repeat' split
  all_goals simp [ht]

@[simp] theorem Out.memWf_cbarRun {i : Instr} {g : Pred} {a : BarAct} {n : Nat} {s : State} (h : s.mem.wf = true) :
    Out.MemWf (cbarRun i g a n s) := by
  unfold cbarRun
  refine Out.memWf_laneRun h fun t ht => ?_
  dsimp only
  repeat' split
  all_goals simp [ht]

/-! ## Memory: the functions of `Machine/Xlate` -/

@[simp] theorem State.mem_tlbFill (s : State) (t : Nat) (e : TlbEntry) : (s.tlbFill t e).mem = s.mem := rfl

@[simp] theorem State.mem_askWalk (s : State) (p : Site) (va : Nat) : (s.askWalk p va).mem = s.mem := by
  unfold State.askWalk
  dsimp only
  repeat' split
  all_goals rfl

@[simp] theorem State.mem_clearFaults (s : State) (a : Asker) : (s.clearFaults a).mem = s.mem := rfl

@[simp] theorem State.mem_useEntry (s : State) (p : Site) (e : TlbEntry) (l1 : Bool) : (s.useEntry p e l1).mem = s.mem := by
  unfold State.useEntry
  dsimp only
  repeat' split
  all_goals rfl

@[simp] theorem State.mem_countFaulted (s : State) (p : Site) (va cause : Nat) : (s.countFaulted p va cause).mem = s.mem := by
  unfold State.countFaulted
  split <;> rfl

/-! ## Memory: the functions of `Machine/MemPath` -/

@[simp] theorem State.mem_fillLine (s : State) (c key : Nat) : (s.fillLine c key).mem = s.mem := by
  simp [State.fillLine]

@[simp] theorem State.mem_fillRo (s : State) (die part key : Nat) : (s.fillRo die part key).mem = s.mem := by
  unfold State.fillRo
  dsimp only
  repeat' split
  all_goals simp

@[simp] theorem State.mem_dropOthers (s : State) (th : Thread) (used : Option Nat) (ws : List Nat) :
    (s.dropOthers th used ws).mem = s.mem := by
  unfold State.dropOthers
  split <;> rfl

@[simp] theorem State.mem_commitShared (s : State) (home : Nat) (cs : List Host.Cell) :
    (s.commitShared home cs).mem = s.mem :=
  rfl

@[simp] theorem State.mem_noteFrame (s : State) (vf f : Nat) : (s.noteFrame vf f).mem = s.mem := rfl

@[simp] theorem State.mem_touchStash (s : State) (c key : Nat) : (s.touchStash c key).mem = s.mem := by
  unfold State.touchStash
  dsimp only
  split <;> simp

@[simp] theorem State.wf_performGlobal {s : State} {t : StoreOp} (h : s.mem.wf = true) :
    (s.performGlobal t).mem.wf = true := by
  unfold State.performGlobal
  dsimp only
  repeat' split
  all_goals simp [h, State.wf_commit]

@[simp] theorem State.wf_performStore {s : State} {id : Nat} {t : StoreOp} (h : s.mem.wf = true) :
    (s.performStore id t).mem.wf = true := by
  unfold State.performStore
  split <;> simp [h]

@[simp] theorem State.wf_performAll {s : State} {xs : List (Nat × StoreOp)} (h : s.mem.wf = true) :
    (s.performAll xs).mem.wf = true := by
  simp +contextual [State.performAll, h, State.wf_foldl]

/-! ## Memory: the functions of `Machine/Route` -/

@[simp] theorem State.mem_modPort64 (s : State) (q : Nat) (f : FabPort → FabPort) : (s.modPort64 q f).mem = s.mem := rfl

@[simp] theorem State.mem_askOut (s : State) (a : Asker) (b : Nat) (k : OutKind) (key n : Nat) :
    (s.askOut a b k key n).mem = s.mem := by
  unfold State.askOut
  split <;> rfl

@[simp] theorem State.mem_dropOuts (s : State) (a : Asker) (fetch : Bool) : (s.dropOuts a fetch).mem = s.mem := rfl

@[simp] theorem State.mem_dropOut (s : State) (a : Asker) (k : OutKind) (key n : Nat) : (s.dropOut a k key n).mem = s.mem := rfl

@[simp] theorem State.mem_completeOut (s : State) (id : Nat) (r : OutReq) (c : Completion) :
    (s.completeOut id r c).mem = s.mem := by
  unfold State.completeOut
  split <;> rfl

/-! ## Memory: the functions of `Machine/Arbiter` -/

@[simp] theorem State.mem_charge (s : State) (key part n : Nat) : (s.charge key part n).mem = s.mem := by
  unfold State.charge
  split <;> rfl

@[simp] theorem State.mem_ask (s : State) (a : Asker) (key part : Nat) : (s.ask a key part).mem = s.mem := by
  unfold State.ask
  dsimp only
  split <;> simp

@[simp] theorem State.mem_chargeFor (s : State) (a : Asker) (key part n : Nat) : (s.chargeFor a key part n).mem = s.mem := by
  simp [State.chargeFor]

theorem State.mem_of_channelStop {s : State} {keys : List Nat} {r : State} (e : s.channelStop keys = some r) :
    r.mem = s.mem := by
  unfold State.channelStop at e
  dsimp only at e
  repeat' split at e
  all_goals cases e
  all_goals simp [State.mem_foldl]

@[simp] theorem State.mem_chargeUnit (s : State) (xs : List (Nat × Nat)) : (s.chargeUnit xs).mem = s.mem := by
  simp [State.chargeUnit, State.mem_foldl]

/-! ## Memory: the functions of `Machine/LaneMem` -/

@[simp] theorem State.memWf_settlePieces {s : State} {forbid : Hit → Bool} {res : List (Piece × Res)} (h : s.mem.wf = true) :
    (s.settlePieces forbid res).MemWf := by
  unfold State.settlePieces
  dsimp only
  repeat' split
  · simp [h, State.mem_foldl]
  · simp [h, State.mem_foldl]
  · exact h
  · trivial
  · simp [h]

@[simp] theorem State.memWf_translatePieces {s : State} {kind : AccKind} {wr : Bool} {forbid : MemType → Bool}
    {ps : List Piece} (h : s.mem.wf = true) :
    (s.translatePieces kind wr forbid ps).MemWf :=
  State.memWf_settlePieces h

theorem State.wf_of_checkGlobal {s r : State} {ls : List Nat} {size : Nat} {ea : Nat → Dword} (h : s.mem.wf = true)
    (e : s.checkGlobal ls size ea = some r) : r.mem.wf = true := by
  unfold State.checkGlobal at e
  repeat' split at e
  all_goals cases e
  all_goals exact State.wf_trapWith h

theorem State.wf_of_poisonTrap {s : State} {hs : List Hit} {n : Nat} {r : State} (h : s.mem.wf = true)
    (e : s.poisonTrap hs n = some r) : r.mem.wf = true := by
  unfold State.poisonTrap at e
  split at e
  · cases e
  · cases e
    simp [h]

theorem State.wf_of_outsideStop {s r : State} {k : OutKind} {n : Nat} {hs : List Hit} (h : s.mem.wf = true)
    (e : s.outsideStop k n hs = some r) : r.mem.wf = true := by
  unfold State.outsideStop at e
  dsimp only at e
  repeat' split at e
  all_goals cases e
  · exact State.wf_trapWith h
  · simp [h, State.mem_foldl]

@[simp] theorem State.mem_holdUnit (s : State) (on : WaitOn) : (s.holdUnit on).mem = s.mem := by
  unfold State.holdUnit
  split <;> rfl

@[simp] theorem State.mem_blockHost (s : State) (id : Nat) : (s.blockHost id).mem = s.mem := by
  simp [State.blockHost]

@[simp] theorem State.mem_startOp (t : State) (kind : OpKind) (bytes : Nat) (d : Reg) (pair : Option PairIx)
    (acq ord nt : Bool) (cache : Nat) (hint : Option Nat) (notBefore : Nat) (acc : List Access) (hs : List Hit) :
    (t.startOp kind bytes d pair acq ord nt cache hint notBefore acc hs).mem = t.mem := by
  unfold State.startOp
  dsimp only
  repeat' split
  all_goals simp [State.mem_foldl]

@[simp] theorem State.mem_countLoads (t : State) (acc : List Access) : (t.countLoads acc).mem = t.mem := by
  unfold State.countLoads
  split <;> rfl

@[simp] theorem State.mem_noteReads (t : State) (n cache : Nat) (acc : List Access) :
    (t.noteReads n cache acc).mem = t.mem := by
  simp [State.noteReads, State.mem_foldl]

@[simp] theorem Out.memWf_loadRun {i : Instr} {g : Pred} {d : Reg} {n : Nat} {acq nt : Bool} {hint : Option Nat}
    {ea : State → Nat → Dword} {s : State} (h : s.mem.wf = true) : Out.MemWf (loadRun i g d n acq nt hint ea s) := by
  unfold loadRun
  refine Out.memWf_laneRun h fun t ht => ?_
  dsimp only
  repeat' split
  · simp [ht]
  · exact ht
  · exact State.wf_of_checkGlobal ht ‹_›
  · exact (State.memWf_settlePieces ht).stop ‹_›
  · exact State.wf_of_poisonTrap ht ‹_›
  · simp [ht]

@[simp] theorem State.wf_startStores {t : State} {d : Reg} {n : Nat} {f : StoreFlags} {cache : Nat} {stash : Hit → Option Nat}
    {hs : List Hit} (h : t.mem.wf = true) : (t.startStores d n f cache stash hs).mem.wf = true := by
  unfold State.startStores
  refine State.wf_foldl (fun _ _ hu => by exact hu) ?_
  exact State.wf_foldl (fun u x hu => State.wf_setDirty (by simpa using hu)) h

@[simp] theorem State.mem_afterStores (t : State) (first : Nat) : (t.afterStores first).mem = t.mem := by
  unfold State.afterStores
  split <;> simp

@[simp] theorem Out.memWf_storeRun {i : Instr} {g : Pred} {d : Reg} {n : Nat} {rel nt : Bool} {hint : Option Nat}
    {ea : State → Nat → Dword} {s : State} (h : s.mem.wf = true) : Out.MemWf (storeRun i g d n rel nt hint ea s) := by
  unfold storeRun
  refine Out.memWf_laneRun h fun t ht => ?_
  dsimp only
  repeat' split
  · simp [ht]
  · exact ht
  · exact State.wf_of_checkGlobal ht ‹_›
  · exact (State.memWf_settlePieces ht).stop ‹_›
  · simp [ht]

theorem State.wf_of_checkLocal {t u : State} {ls : List Nat} {n : Nat} {ea : Nat → Word} (h : t.mem.wf = true)
    (e : t.checkLocal ls n ea = .inl u) : u.mem.wf = true := by
  unfold State.checkLocal at e
  dsimp only at e
  repeat' split at e
  all_goals cases e
  all_goals exact State.wf_trapWith h

theorem State.wf_of_poisonLocal {t : State} {hs : List Hit} {near : List Access} {n : Nat} {r : State} (h : t.mem.wf = true)
    (e : t.poisonLocal hs near n = some r) : r.mem.wf = true := by
  unfold State.poisonLocal at e
  dsimp only at e
  repeat' split at e
  all_goals cases e
  all_goals simp [h]

@[simp] theorem Out.memWf_ldsRun {i : Instr} {g : Pred} {d : Reg} {n : Nat} {acq : Bool} {ea : State → Nat → Word} {s : State}
    (h : s.mem.wf = true) : Out.MemWf (ldsRun i g d n acq ea s) := by
  unfold ldsRun
  refine Out.memWf_laneRun h fun t ht => ?_
  dsimp only
  repeat' split
  · simp [ht]
  · exact ht
  · exact State.wf_of_checkLocal ht ‹_›
  · exact (State.memWf_translatePieces ht).stop ‹_›
  · exact State.wf_of_poisonLocal ht ‹_›
  · simp [ht]

@[simp] theorem State.mem_sharedStores (t : State) (d : Reg) (n : Nat) (rel : Bool) (ls : List Nat)
    (reg : Nat → Option Region) :
    (t.sharedStores d n rel ls reg).mem = t.mem :=
  (State.mem_foldl _ (fun _ _ => by rfl) _ _).trans (by simp)

@[simp] theorem Out.memWf_stsRun {i : Instr} {g : Pred} {d : Reg} {n : Nat} {rel : Bool} {ea : State → Nat → Word} {s : State}
    (h : s.mem.wf = true) : Out.MemWf (stsRun i g d n rel ea s) := by
  unfold stsRun
  refine Out.memWf_laneRun h fun t ht => ?_
  dsimp only
  repeat' split
  · simp [ht]
  · exact ht
  · exact State.wf_of_checkLocal ht ‹_›
  · exact (State.memWf_translatePieces ht).stop ‹_›
  · simp [ht]

@[simp] theorem State.mem_writeBackWin (s : State) (b w : Nat) : (s.writeBackWin b w).mem = s.mem := rfl

@[simp] theorem State.mem_smapLane (t : State) (d : Reg) (l w g : Nat) : (t.smapLane d l w g).mem = t.mem := by
  simp [State.smapLane]

@[simp] theorem Out.memWf_execSmap {g : Pred} {d a b : Reg} {s : State} (h : s.mem.wf = true) :
    Out.MemWf (execSmap g d a b s) := by
  unfold execSmap
  refine Out.memWf_laneRun h fun t ht => ?_
  have htrap {f : Option (Nat × Mask)} {i : Mask → Dword} {u : State}
      (e : (f.map fun x => t.trapWith x.1 x.2 (i x.2)) = some u) : u.mem.wf = true := by
    obtain ⟨x, -, rfl⟩ := Option.map_eq_some_iff.mp e
    exact State.wf_trapWith ht
  dsimp only
  repeat' split
  · exact ht
  · exact htrap (i := fun m => t.rdVPair a.toNat (lowestLane m)) ‹_›
  · exact htrap (i := fun m => t.rdVPair a.toNat (lowestLane m)) ‹_›
  · exact htrap (i := fun m => t.rdVPair a.toNat (lowestLane m)) ‹_›
  · exact ht
  · simp [ht]

@[simp] theorem State.mem_prefLane (t u : State) (a : Reg) (l : Nat) : (t.prefLane u a l).mem = u.mem := by
  unfold State.prefLane
  dsimp only
  repeat' split
  all_goals simp

@[simp] theorem Out.memWf_execPref {g : Pred} {a : Reg} {s : State} (h : s.mem.wf = true) : Out.MemWf (execPref g a s) :=
  Out.memWf_laneRun h fun t ht => by simp [ht]

@[simp] theorem State.mem_fenceRel (t : State) (ls : List Nat) : (t.fenceRel ls).mem = t.mem := rfl

@[simp] theorem Out.memWf_execFenceRel {g : Pred} {s : State} (h : s.mem.wf = true) : Out.MemWf (execFenceRel g s) := by
  unfold execFenceRel
  refine Out.memWf_laneRun h fun t ht => ?_
  dsimp only
  repeat' split
  all_goals simp [ht]

@[simp] theorem Out.memWf_execFenceAcq {g : Pred} {s : State} (h : s.mem.wf = true) : Out.MemWf (execFenceAcq g s) := by
  unfold execFenceAcq
  refine Out.memWf_laneRun h fun t ht => ?_
  dsimp only
  repeat' split
  all_goals simp [ht]

@[simp] theorem Out.memWf_execFenceAr {g : Pred} {s : State} (h : s.mem.wf = true) : Out.MemWf (execFenceAr g s) := by
  unfold execFenceAr
  refine Out.memWf_laneRun h fun t ht => ?_
  dsimp only
  repeat' split
  all_goals simp [ht]

/-! ## Memory: the functions of `Machine/Atomic` -/

theorem State.wf_of_cas128Trap {t r : State} {f : AtomFn} {n : Nat} {hs : List Hit} (h : t.mem.wf = true)
    (e : t.cas128Trap f n hs = some r) : r.mem.wf = true := by
  unfold State.cas128Trap at e
  repeat' split at e
  all_goals cases e
  exact State.wf_trapWith h

@[simp] theorem Out.memWf_atomRun {i : Instr} {g : Pred} {d a : Reg} {f : AtomFn} {n : Nat} {fl : AtomFlags}
    {pair : Option PairIx} {s : State} (h : s.mem.wf = true) : Out.MemWf (atomRun i g d a f n fl pair s) := by
  unfold atomRun
  refine Out.memWf_laneRun h fun t ht => ?_
  dsimp only
  repeat' split
  · simp [ht]
  · exact ht
  · exact State.wf_of_checkGlobal ht ‹_›
  · exact (State.memWf_settlePieces ht).stop ‹_›
  · exact State.wf_of_poisonTrap ht ‹_›
  · exact State.wf_of_cas128Trap ht ‹_›
  · simp +contextual [ht, State.wf_foldl]

theorem State.wf_of_accessStop {t r : State} {k : OutKind} {n : Nat} {hs : List Hit} (h : t.mem.wf = true)
    (e : t.accessStop k n hs = some r) : r.mem.wf = true := by
  unfold State.accessStop at e
  split at e
  · cases e; exact h
  · refine State.wf_of_orElse (fun u hu => State.wf_of_outsideStop h hu) (fun u hu => ?_) e
    rw [State.mem_of_channelStop hu]; exact h

@[simp] theorem State.mem_releaseMonitors (s : State) : s.releaseMonitors.mem = s.mem := rfl

@[simp] theorem State.mem_arm (t : State) (key n : Nat) (c : WCmp) (v : Nat) : (t.arm key n c v).mem = t.mem := by
  unfold State.arm
  dsimp only
  split <;> simp

@[simp] theorem State.mem_armAll (t : State) (n : Nat) (c : WCmp) (xs : List (Nat × Nat)) :
    (t.armAll n c xs).mem = t.mem := by
  refine State.mem_foldl _ (fun u x => ?_) _ _
  split <;> simp

@[simp] theorem Out.memWf_execWaitc {g : Pred} {d a : Reg} {w : Bool} {c : WCmp} {s : State} (h : s.mem.wf = true) :
    Out.MemWf (execWaitc g d a w c s) := by
  unfold execWaitc
  refine Out.memWf_laneRun h fun t ht => ?_
  dsimp only
  repeat' split
  · simp [ht]
  · exact ht
  · exact State.wf_of_checkGlobal ht ‹_›
  · exact (State.memWf_settlePieces ht).stop ‹_›
  · exact State.wf_of_poisonTrap ht ‹_›
  · exact ht
  · exact ht
  · exact State.wf_of_accessStop ht ‹_›
  all_goals simp +contextual [ht, State.wf_foldl]

/-! ## Memory: the functions of `Machine/Packed` -/

@[simp] theorem Out.memWf_packedRun {i : Instr} {g : Pred} {d a b : Reg} {f : Word → Word → Word} {s : State}
    (h : s.mem.wf = true) :
    Out.MemWf (packedRun i g d a b f s) :=
  Out.memWf_laneSimple h fun t => by simp

/-! ## Memory: the functions of `Machine/FloatOps` -/

@[simp] theorem Out.memWf_floatRun {i : Instr} {g : Pred} {d a : Reg} {src : Src} {f : Word → Word → Word → Word} {s : State}
    (h : s.mem.wf = true) :
    Out.MemWf (floatRun i g d a src f s) :=
  Out.memWf_laneSimple h fun t => by simp

@[simp] theorem Out.memWf_specialRun {i : Instr} {f : SpecialFn} {g : Pred} {d a : Reg} {t : FloatTy} {s : State}
    (h : s.mem.wf = true) :
    Out.MemWf (specialRun i f g d a t s) :=
  Out.memWf_laneSimple h fun t => by simp

/-! ## Memory: the functions of `Machine/Collective` -/

theorem Out.memWf_collectiveRun {i : Instr} {g : Pred} {x : Bool} {s : State} {body : List Nat → State → State}
    (h : s.mem.wf = true) (hb : ∀ ls t, (body ls t).mem = t.mem) : Out.MemWf (collectiveRun i g x s body) := by
  unfold collectiveRun
  refine Out.memWf_laneRun h fun t ht => ?_
  have hcol {b gr : Nat} {u : State} {pc : Dword} {r : Nat × State} (e : u.tryCollect b gr pc = some r)
      (hu : u.mem.wf = true) : r.2.mem.wf = true := by rw [State.mem_of_tryCollect e]; exact hu
  dsimp only
  repeat' split
  · simpa [hb] using ht
  · exact State.wf_rotate ht
  · exact ht
  · exact hcol ‹_› (by exact ht)
  · simpa [hb] using hcol ‹_› (by exact ht)
  · exact ht

@[simp] theorem mem_shflBody (d a b : Reg) (src : Nat → Nat → Nat → Option Nat) (ls : List Nat) (t : State) :
    (shflBody d a b src ls t).mem = t.mem := by
  simp [shflBody]

@[simp] theorem mem_scanBody (d a : Reg) (k : PairIx) (op : RedOp) (before : Nat → Nat → Bool) (ls : List Nat) (t : State) :
    (scanBody d a k op before ls t).mem = t.mem := by
  simp [scanBody]

/-! ## Memory: the functions of `Machine/Control` -/

@[simp] theorem State.wf_jump {s s0 : State} {nextPc : Nat → Dword} (h : s.mem.wf = true) (h1 : s0.mem.wf = true) :
    (s.jump s0 nextPc).mem.wf = true := by
  unfold State.jump
  split <;> simp [h, h1]

@[simp] theorem State.mem_setLinks (s : State) (ls : List Nat) : (s.setLinks ls).mem = s.mem := by
  simp [State.setLinks]

@[simp] theorem State.mem_callDepth (s : State) (f : Nat → Nat) : (s.callDepth f).mem = s.mem := by
  unfold State.callDepth
  split <;> rfl

@[simp] theorem Out.memWf_execBra {g : Pred} {ofs : BitVec 22} {s : State} (h : s.mem.wf = true) :
    Out.MemWf (execBra g ofs s) := by
  unfold execBra
  refine Out.memWf_laneRun h fun t ht => ?_
  simp [ht]

@[simp] theorem Out.memWf_execCall {g : Pred} {ofs : BitVec 22} {s : State} (h : s.mem.wf = true) :
    Out.MemWf (execCall g ofs s) := by
  unfold execCall
  refine Out.memWf_laneRun h fun t ht => ?_
  simp [ht]

theorem State.wf_indirect {t : State} {m : Mask} {tgt : Nat → Dword} {pre : State → State} (h : t.mem.wf = true)
    (hp : (pre t).mem = t.mem) : (t.indirect m tgt pre).mem.wf = true := by
  unfold State.indirect
  dsimp only
  split
  · exact State.wf_trapWith h
  · exact State.wf_jump (by rw [hp]; exact h) h

@[simp] theorem Out.memWf_execBrx {g : Pred} {a : Reg} {s : State} (h : s.mem.wf = true) : Out.MemWf (execBrx g a s) :=
  Out.memWf_laneRun h fun _ ht => State.wf_indirect ht rfl

@[simp] theorem Out.memWf_execCallx {g : Pred} {a : Reg} {s : State} (h : s.mem.wf = true) : Out.MemWf (execCallx g a s) :=
  Out.memWf_laneRun h fun _ ht => State.wf_indirect ht (by simp)

@[simp] theorem Out.memWf_execRet {g : Pred} {s : State} (h : s.mem.wf = true) : Out.MemWf (execRet g s) :=
  Out.memWf_laneRun h fun _ ht => State.wf_indirect ht (by simp)

@[simp] theorem State.mem_ejectLanes (s : State) (b g k n : Nat) (pc : Dword) (ls : List Nat) :
    (s.ejectLanes b g k n pc ls).1.mem = s.mem := by
  induction ls generalizing s with
  | nil => rfl
  | cons l ls ih =>
    unfold State.ejectLanes
    dsimp only
    split
    · rfl
    · exact ih _

@[simp] theorem State.wf_braEjSplit {t : State} {b gr k n : Nat} {m : Mask} {tgt : Dword} (h : t.mem.wf = true) :
    (t.braEjSplit b gr k n m tgt).mem.wf = true := by
  unfold State.braEjSplit
  dsimp only
  repeat' split
  · simp [h]
  · simp [h]
  · simp [h]
  · simp [h]
  · simp [State.wf_of_pushEntry h ‹_›]

@[simp] theorem Out.memWf_execBraEj {g : Pred} {n : BitVec 2} {ofs : BitVec 20} {s : State} (h : s.mem.wf = true) :
    Out.MemWf (execBraEj g n ofs s) := by
  unfold execBraEj
  refine Out.memWf_laneRun h fun t ht => ?_
  split <;> simp [ht]

@[simp] theorem Out.memWf_execJoin {g : Pred} {s : State} (h : s.mem.wf = true) : Out.MemWf (execJoin g s) := by
  unfold execJoin
  refine Out.memWf_laneRun h fun t ht => ?_
  dsimp only
  repeat' split
  all_goals simp [ht]

@[simp] theorem State.wf_dropLanes {s : State} {b g : Nat} {m : Mask} (h : s.mem.wf = true) :
    (s.dropLanes b g m).mem.wf = true := by
  simp +contextual [State.dropLanes, h, State.wf_foldl]

@[simp] theorem State.wf_exitSplit {t : State} {b gr k : Nat} {m : Mask} (h : t.mem.wf = true) :
    (t.exitSplit b gr k m).mem.wf = true := by
  unfold State.exitSplit
  dsimp only
  split <;> split <;> simp [h]

@[simp] theorem Out.memWf_execExit {g : Pred} {s : State} (h : s.mem.wf = true) : Out.MemWf (execExit g s) := by
  refine Out.memWf_laneRun h fun t ht => ?_
  split
  · split <;> simp [ht]
  · exact ht

@[simp] theorem Out.memWf_execYield {g : Pred} {s : State} (h : s.mem.wf = true) : Out.MemWf (execYield g s) := by
  unfold execYield
  refine Out.memWf_laneRun h fun t ht => ?_
  dsimp only
  repeat' split
  all_goals simp [ht]

@[simp] theorem Out.memWf_execLive {g : Pred} {n : BitVec 2} {a : Reg} {s : State} (h : s.mem.wf = true) :
    Out.MemWf (execLive g n a s) := by
  unfold execLive
  refine Out.memWf_laneRun h fun t ht => ?_
  dsimp only
  repeat' split
  all_goals simp [ht]

@[simp] theorem Out.memWf_execTrap {g : Pred} {n : BitVec 6} {s : State} (h : s.mem.wf = true) :
    Out.MemWf (execTrap g n s) := by
  unfold execTrap
  refine Out.memWf_laneRun h fun t ht => ?_
  split <;> simp [ht]

@[simp] theorem State.wf_eretSplit {t : State} {b gr k : Nat} (h : t.mem.wf = true) : (t.eretSplit b gr k).mem.wf = true := by
  unfold State.eretSplit
  dsimp only
  repeat' split
  all_goals simp [h]

@[simp] theorem Out.memWf_execEret {g : Pred} {s : State} (h : s.mem.wf = true) : Out.MemWf (execEret g s) := by
  refine Out.memWf_laneRun h fun t ht => ?_
  repeat' split
  all_goals simp [ht]

/-! ## Memory: the functions of `Machine/Convert` -/

@[simp] theorem State.mem_appendLaneStats (s : State) (rs : List StatRec) : (s.appendLaneStats rs).mem = s.mem :=
  State.mem_foldl _ (fun _ _ => by rfl) _ _

theorem Out.memWf_fwRun {i : Instr} {g : Pred} {b : Reg} {ok : FormatWord → Fmt → Fmt → Bool}
    {eff : FormatWord → Fmt → Fmt → State → State} {s : State} (h : s.mem.wf = true)
    (he : ∀ fw sf df t, (eff fw sf df t).mem = t.mem) : Out.MemWf (fwRun i g b ok eff s) := by
  unfold fwRun
  refine Out.memWf_laneRun h fun t ht => ?_
  dsimp only
  repeat' split
  all_goals simp [ht, he]

@[simp] theorem mem_qscaleEffect (g : Pred) (d a : Reg) (fw : FormatWord) (sf df : Fmt) (s : State) :
    (qscaleEffect g d a fw sf df s).mem = s.mem := by
  unfold qscaleEffect
  split <;> simp

@[simp] theorem mem_qpackEffect (g : Pred) (d a : Reg) (fw : FormatWord) (sf df : Fmt) (s : State) :
    (qpackEffect g d a fw sf df s).mem = s.mem := by
  have hput (p : Nat → Bool) (r l : Nat → Nat) (v : Nat → Word) : (s.putLanes (List.range 64) fun u n =>
      if p n then u.wrV (r n) (l n) (v n) else u).mem = s.mem :=
    State.mem_putLanes _ _ _ fun t n => by split <;> simp
  unfold qpackEffect
  dsimp only
  split
  · rw [State.mem_appendLaneStats, hput]
  · exact hput ..

@[simp] theorem mem_fwLaneEffect (g : Pred) (d : Reg) (fw : FormatWord) (df : Fmt) (f : State → Nat → Rounded) (fdiv : Bool)
    (s : State) : (fwLaneEffect g d fw df f fdiv s).mem = s.mem := by
  unfold fwLaneEffect
  split <;> simp

/-! ## Memory: the functions of `Machine/Engine` -/

@[simp] theorem State.mem_setEngReg (s : State) (b g n r : Nat) (v : Word) : (s.setEngReg b g n r v).mem = s.mem := rfl

@[simp] theorem State.mem_setEngErr (s : State) (b g n cause : Nat) (a : Dword) : (s.setEngErr b g n cause a).mem = s.mem := rfl

@[simp] theorem State.mem_clearEng (s : State) (b g n : Nat) : (s.clearEng b g n).mem = s.mem :=
  State.mem_foldl _ (fun _ _ => by rfl) _ _

@[simp] theorem State.mem_startEngine (s : State) (n : Nat) (regs : Table Word) (lane : Nat) :
    (s.startEngine n regs lane).mem = s.mem :=
  rfl

@[simp] theorem Out.memWf_execEset {g : Pred} {n : BitVec 2} {a : Reg} {reg : BitVec 6} {s : State} (h : s.mem.wf = true) :
    Out.MemWf (execEset g n a reg s) := by
  unfold execEset
  refine Out.memWf_laneRun h fun t ht => ?_
  dsimp only
  repeat' split
  all_goals simp [ht]

@[simp] theorem Out.memWf_clearRun {i : Instr} {g : Pred} {n : Nat} {cmd : BitVec 6} {s : State} (h : s.mem.wf = true) :
    Out.MemWf (clearRun i g n cmd s) := by
  unfold clearRun
  refine Out.memWf_laneRun h fun t ht => ?_
  dsimp only
  repeat' split
  all_goals simp [ht]

theorem Out.memWf_goRun {i : Instr} {g : Pred} {n room : Nat} {regs : State → Table Word} {bad : State → Table Word → Bool}
    {commit : State → Table Word → State} {s : State} (h : s.mem.wf = true) (hc : ∀ t r, (commit t r).mem = t.mem) :
    Out.MemWf (goRun i g n room regs bad commit s) := by
  unfold goRun
  refine Out.memWf_laneRun h fun t ht => ?_
  dsimp only
  repeat' split
  all_goals simp [ht, hc]

@[simp] theorem State.mem_putSrcDst (t : State) (n : Nat) (r : Table Word) : (t.putSrcDst n r).mem = t.mem :=
  State.mem_foldl _ (fun _ _ => by rfl) _ _

@[simp] theorem Out.memWf_execEwait {g : Pred} {a b : Reg} {s : State} (h : s.mem.wf = true) :
    Out.MemWf (execEwait g a b s) := by
  unfold execEwait
  refine Out.memWf_laneRun h fun t ht => ?_
  dsimp only
  repeat' split
  · simp [ht]
  · exact ht
  · simp [ht]
  · exact ht
  · simp [ht]
  · simp [ht]
  · simp [ht]
  · exact (State.memWf_settlePieces ht).stop ‹_›
  · exact State.wf_of_poisonTrap ht ‹_›
  · exact ht
  · exact ht
  · exact State.wf_of_accessStop ht ‹_›
  · simp +contextual [ht, State.wf_foldl]
  · simp +contextual [ht, State.wf_foldl]
  all_goals simp [ht]

/-! ## Memory: the functions of `Machine/DieSync` -/

@[simp] theorem State.wf_dbarStep {t : State} {b g k o : Nat} {ea : Dword} {m : Mask} (h : t.mem.wf = true) :
    (t.dbarStep b g k o ea m).mem.wf = true := by
  unfold State.dbarStep
  dsimp only
  split <;> simp [h]

@[simp] theorem State.wf_dbarLate {t : State} {b g o : Nat} {ea : Dword} {m : Mask} (h : t.mem.wf = true) :
    (t.dbarLate b g o ea m).mem.wf = true := by
  simp [State.dbarLate, h]

/-- The checks of DBAR trap or wait; only its first arrival writes, the dirty bit of its object's page. -/
@[simp] theorem Out.memWf_execDbar {g : Pred} {a : Reg} {s : State} (h : s.mem.wf = true) : Out.MemWf (execDbar g a s) := by
  unfold execDbar
  refine Out.memWf_laneRun h fun t ht => ?_
  have hstep {b gr k o : Nat} {ea : Dword} {m : Mask} : (t.dbarStep b gr k o ea m).mem.wf = true := State.wf_dbarStep ht
  split
  · extract_lets m l ea
    split
    · simpa using ht
    · split
      · exact hstep
      · split
        · exact ht
        · split
          · exact State.wf_of_checkGlobal ht ‹_›
          · split
            · exact (State.memWf_translatePieces ht).stop ‹_›
            · extract_lets o
              repeat' split
              · exact hstep
              · exact State.wf_dbarLate ht
              · exact ht
              · next e => exact State.wf_of_orElse (fun _ => State.wf_of_accessStop ht) (fun _ => State.wf_of_poisonTrap ht) e
              · exact State.wf_trapWith ht
              · refine State.wf_dbarStep ?_
                rw [State.mem_chargeUnit]
                exact State.wf_foldl (fun x h hx => by simpa using State.wf_setDirty (by simpa using hx)) ht
  · exact ht

theorem State.wf_of_emitCheck {t : State} {ls : List Nat} {src q : Nat → Nat} {r : State} (h : t.mem.wf = true)
    (e : t.emitCheck ls src q = some r) : r.mem.wf = true := by
  unfold State.emitCheck at e
  dsimp only at e
  repeat' split at e
  all_goals cases e
  all_goals simp [h]

@[simp] theorem State.wf_emitWait {t : State} {o qva : Nat} (h : t.mem.wf = true) : (t.emitWait o qva).mem.wf = true := by
  simp [State.emitWait, h]

@[simp] theorem State.wf_emitClaim {t : State} {ls : List Nat} {o tail : Nat} {qs hs : List Hit} {srcKey : Nat → Nat}
    (h : t.mem.wf = true) : (t.emitClaim ls o tail qs hs srcKey).mem.wf = true := by
  unfold State.emitClaim
  dsimp only
  rw [State.mem_holdUnit, State.mem_foldl _ (fun _ _ => by rfl), State.mem_foldl _ (fun _ _ => by simp),
    State.mem_foldl _ (fun _ _ => by rfl), State.mem_chargeUnit]
  refine State.wf_commit _ _ _ _ _ ?_
  exact State.wf_foldl (fun x e hx => State.wf_setDirty (by simpa using hx)) h

@[simp] theorem State.wf_emitGo {t : State} {ls : List Nat} {o qva : Nat} {qs : List Hit} {srcKey : Nat → Nat}
    (h : t.mem.wf = true) : (t.emitGo ls o qva qs srcKey).mem.wf = true := by
  unfold State.emitGo
  dsimp only
  repeat' split
  · simp [h]
  · exact (State.memWf_settlePieces h).stop ‹_›
  · exact h
  · exact State.wf_of_outsideStop h ‹_›
  · simp [h]

@[simp] theorem State.mem_emitDone (t : State) (inst : Nat) : (t.emitDone inst).mem = t.mem := by
  unfold State.emitDone
  split <;> simp

@[simp] theorem State.wf_emitRead {t : State} {ls : List Nat} {src q : Nat → Nat} {hits : List Hit} (h : t.mem.wf = true) :
    (t.emitRead ls src q hits).mem.wf = true := by
  unfold State.emitRead
  dsimp only
  repeat' split
  · next e =>
    refine State.wf_of_orElse (fun u hu => ?_) (fun u hu => ?_) e
    · exact State.wf_of_orElse (fun _ => State.wf_of_accessStop h) (fun _ => State.wf_of_accessStop h) hu
    · exact State.wf_of_orElse (fun _ => State.wf_of_poisonLocal h) (fun _ => State.wf_of_poisonTrap h) hu
  · exact State.wf_trapWith h
  · exact State.wf_emitGo h

@[simp] theorem Out.memWf_execEmit {g : Pred} {a b : Reg} {s : State} (h : s.mem.wf = true) :
    Out.MemWf (execEmit g a b s) := by
  unfold execEmit
  refine Out.memWf_laneRun h fun t ht => ?_
  dsimp only
  repeat' split
  · simp [ht]
  · exact ht
  · exact State.wf_of_emitCheck ht ‹_›
  · exact (State.memWf_settlePieces ht).stop ‹_›
  · simp [ht]

/-! ## Memory: the functions of `Machine/Sync` -/

@[simp] theorem State.mem_takeTile (s : State) (b t : Nat) (o : TileOwner) : (s.takeTile b t o).mem = s.mem := rfl

@[simp] theorem State.mem_giveTile (s : State) (b t : Nat) (r : TileOwner) : (s.giveTile b t r).mem = s.mem := rfl

@[simp] theorem Out.memWf_execGive {g : Pred} {a : Reg} {s : State} (h : s.mem.wf = true) : Out.MemWf (execGive g a s) := by
  unfold execGive
  refine Out.memWf_laneRun h fun t ht => ?_
  dsimp only
  repeat' split
  all_goals simp [ht]

@[simp] theorem Out.memWf_execTake {g : Pred} {a : Reg} {s : State} (h : s.mem.wf = true) : Out.MemWf (execTake g a s) := by
  unfold execTake
  refine Out.memWf_laneRun h fun t ht => ?_
  dsimp only
  repeat' split
  all_goals simp [ht]

@[simp] theorem State.mem_setRing (s : State) (b n : Nat) (r : Ring) : (s.setRing b n r).mem = s.mem := rfl

@[simp] theorem Out.memWf_execRwait {g : Pred} {d : Reg} {r : BitVec 4} {s : State} (h : s.mem.wf = true) :
    Out.MemWf (execRwait g d r s) := by
  unfold execRwait
  refine Out.memWf_laneRun h fun t ht => ?_
  dsimp only
  repeat' split
  all_goals simp [ht]

@[simp] theorem Out.memWf_execRdone {g : Pred} {r : BitVec 4} {s : State} (h : s.mem.wf = true) :
    Out.MemWf (execRdone g r s) := by
  unfold execRdone
  refine Out.memWf_laneRun h fun t ht => ?_
  dsimp only
  repeat' split
  all_goals simp [ht]

/-! ## Memory: the functions of `Machine/EvMem` -/

@[simp] theorem State.mem_modAccess (s : State) (id i : Nat) (f : Access → Access) : (s.modAccess id i f).mem = s.mem := rfl

@[simp] theorem State.mem_afterRead (s : State) (o : LaneOp) (a : Access) : (s.afterRead o a).mem = s.mem := by
  unfold State.afterRead
  split
  · rfl
  · split
    · simp
    · dsimp only
      rw [State.mem_dropOthers]
      split <;> simp

@[simp] theorem State.mem_serve (s : State) (id i : Nat) (o : LaneOp) (a : Access) : (s.serve id i o a).mem = s.mem := by
  unfold State.serve
  dsimp only
  split <;> simp

@[simp] theorem State.mem_useOwners (s : State) (key n : Nat) : (s.useOwners key n).mem = s.mem := rfl

@[simp] theorem Out.memWf_execHomeRead {id part : Nat} {s : State} (h : s.mem.wf = true) :
    Out.MemWf (execHomeRead id part s) := by
  unfold execHomeRead
  repeat' split
  all_goals simp [h]

@[simp] theorem Out.memWf_execOwnerForward {id part : Nat} {s : State} (h : s.mem.wf = true) :
    Out.MemWf (execOwnerForward id part s) := by
  unfold execOwnerForward
  repeat' split
  all_goals simp [h]

@[simp] theorem Out.memWf_execHintedRequestForward {id : Nat} {s : State} (h : s.mem.wf = true) :
    Out.MemWf (execHintedRequestForward id s) := by
  unfold execHintedRequestForward
  dsimp only
  repeat' split
  all_goals exact h

@[simp] theorem State.wf_applyAtomic {s : State} {id : Nat} {o : LaneOp} {f : AtomFn} {ps : List (Nat × Access)}
    (h : s.mem.wf = true) : (s.applyAtomic id o f ps).mem.wf = true := by
  unfold State.applyAtomic
  split
  · exact h
  · dsimp only
    rw [State.mem_foldl _ (fun _ _ => by simp)]
    split <;> exact State.wf_commit _ _ _ _ _ h

@[simp] theorem Out.memWf_execHomeAtomic {id addr : Nat} {s : State} (h : s.mem.wf = true) :
    Out.MemWf (execHomeAtomic id addr s) := by
  unfold execHomeAtomic
  dsimp only
  repeat' split
  all_goals simp [h]

@[simp] theorem State.mem_landGroup (s : State) (o : LaneOp) (a : Access) (v : Nat) : (s.landGroup o a v).mem = s.mem := by
  unfold State.landGroup
  dsimp only
  repeat' split
  all_goals rfl

@[simp] theorem State.mem_landComet (s : State) (o : LaneOp) (c : Nat) (a : Access) (v : Nat) :
    (s.landComet o c a v).mem = s.mem :=
  rfl

@[simp] theorem State.mem_landAcquire (s : State) (o : LaneOp) : (s.landAcquire o).mem = s.mem := by
  unfold State.landAcquire
  split
  · split
    · rfl
    · exact State.mem_foldl _ (fun _ _ => by rfl) _ _
  · rfl

@[simp] theorem Out.memWf_execLoadDataLands {id : Nat} {s : State} (h : s.mem.wf = true) :
    Out.MemWf (execLoadDataLands id s) := by
  unfold execLoadDataLands
  dsimp only
  repeat' split
  · exact h
  · exact h
  all_goals simp +contextual [h, State.wf_foldl]

@[simp] theorem Out.memWf_execOwnershipRegistration {id : Nat} {s : State} (h : s.mem.wf = true) :
    Out.MemWf (execOwnershipRegistration id s) := by
  unfold execOwnershipRegistration
  dsimp only
  repeat' split
  all_goals simp [h]

@[simp] theorem Out.memWf_execRegistrationAck {id : Nat} {s : State} (h : s.mem.wf = true) :
    Out.MemWf (execRegistrationAck id s) := by
  unfold execRegistrationAck
  repeat' split
  all_goals exact h

@[simp] theorem Out.memWf_execSharedStorePerformed {id : Nat} {s : State} (h : s.mem.wf = true) :
    Out.MemWf (execSharedStorePerformed id s) := by
  unfold execSharedStorePerformed
  dsimp only
  repeat' split
  all_goals simp [h]

@[simp] theorem Out.memWf_execRevocation {word : Nat} {s : State} (h : s.mem.wf = true) :
    Out.MemWf (execRevocation word s) := by
  simp [execRevocation, h]

@[simp] theorem State.wf_dirtyStash {s : State} {b : Nat} {win : Nat → Bool} (h : s.mem.wf = true) :
    (s.dirtyStash b win).mem.wf = true := by
  refine State.wf_foldl (fun t e ht => ?_) h
  split
  · exact ht
  · refine State.wf_foldl (fun u i hu => ?_) ht
    dsimp only
    repeat' split
    · exact State.wf_setDirty (State.wf_markUsed hu)
    · exact hu
    · exact hu

@[simp] theorem Out.memWf_execStashWriteBack {b w : Nat} {s : State} (h : s.mem.wf = true) :
    Out.MemWf (execStashWriteBack b w s) := by
  simp [execStashWriteBack, h]

theorem WaitOn.memWf_of_evaluate {w : WaitOn} {s : State} {o : Out} (h : s.mem.wf = true) (e : w.evaluate s = some o) :
    Out.MemWf o := by
  unfold WaitOn.evaluate at e
  repeat' split at e
  all_goals cases e
  · exact Out.memWf_execWaitc h
  · exact Out.memWf_execEwait h

@[simp] theorem Out.memWf_wakeWaitc {s : State} {b g k : Nat} {cond : Monitor → Bool} (h : s.mem.wf = true) :
    Out.MemWf (s.wakeWaitc b g k cond) := by
  have hw {w : WaitOn} {o : Out} (e : w.evaluate { s with focus := .split b g k } = some o) : Out.MemWf o :=
    WaitOn.memWf_of_evaluate (by exact h) e
  unfold State.wakeWaitc
  dsimp only
  repeat' split
  · exact h
  · next e => exact (hw e :)
  · next e => exact hw e
  all_goals exact h

@[simp] theorem Out.memWf_execWaitcReevaluate {b g k : Nat} {s : State} (h : s.mem.wf = true) :
    Out.MemWf (execWaitcReevaluate b g k s) :=
  Out.memWf_wakeWaitc h

@[simp] theorem Out.memWf_execWaitcPoll {b g k : Nat} {s : State} (h : s.mem.wf = true) : Out.MemWf (execWaitcPoll b g k s) :=
  Out.memWf_wakeWaitc h

@[simp] theorem Out.memWf_execEmitWake {b g k : Nat} {s : State} (h : s.mem.wf = true) :
    Out.MemWf (execEmitWake b g k s) := by
  unfold execEmitWake
  dsimp only
  repeat' split
  all_goals exact h

@[simp] theorem State.mem_takeCompletes (s : State) (b g k : Nat) : (s.takeCompletes b g k).mem = s.mem := by
  unfold State.takeCompletes
  repeat' split
  all_goals rfl

@[simp] theorem State.wf_takeLimitTrap {s : State} {b g k : Nat} (h : s.mem.wf = true) :
    (s.takeLimitTrap b g k).mem.wf = true := by
  unfold State.takeLimitTrap
  dsimp only
  repeat' split
  all_goals simp [h]

@[simp] theorem State.mem_releaseUnit (s : State) (comet : Option Nat) (b g k : Nat) :
    (s.releaseUnit comet b g k).mem = s.mem := by
  unfold State.releaseUnit
  split <;> rfl

@[simp] theorem State.wf_abortTrap {s : State} {comet : Option Nat} {b g k cause : Nat} {lanes : Mask} {ea : Dword}
    (h : s.mem.wf = true) : (s.abortTrap comet b g k cause lanes ea).mem.wf = true := by
  simp [State.abortTrap, h]

@[simp] theorem State.wf_hostAtomic {s : State} {id : Nat} {o : LaneOp} {f : AtomFn} {p : Nat × Access}
    (h : s.mem.wf = true) : (s.hostAtomic id o f p).mem.wf = true := by
  unfold State.hostAtomic
  dsimp only
  split <;> simp [h]

@[simp] theorem State.mem_hostDone (s : State) (id : Nat) : (s.hostDone id).mem = s.mem := by
  unfold State.hostDone
  repeat' split
  all_goals simp

@[simp] theorem State.wf_maybeStore {s : State} {x : StoreOp} (h : s.mem.wf = true) : (s.maybeStore x).mem.wf = true :=
  State.wf_commit _ _ _ _ _ h

@[simp] theorem State.wf_maybeAtomic {s : State} {id : Nat} {o : LaneOp} (h : s.mem.wf = true) :
    (s.maybeAtomic id o).mem.wf = true := by
  unfold State.maybeAtomic
  split
  · exact h
  · refine State.wf_foldl (fun t k ht => ?_) h
    dsimp only
    split
    · exact State.wf_applyAtomic ht
    · exact ht

@[simp] theorem State.mem_afterOutside (s : State) (o : LaneOp) (a : Access) : (s.afterOutside o a).mem = s.mem := by
  unfold State.afterOutside
  split <;> simp

@[simp] theorem State.wf_cutOp {s : State} {id : Nat} {o : LaneOp} {cause : Nat} {ps : List Access} (h : s.mem.wf = true) :
    (s.cutOp id o cause ps).mem.wf = true := by
  unfold State.cutOp
  split <;> simp [h]

@[simp] theorem State.wf_arriveOp {s : State} {id : Nat} {o : LaneOp} {p : Nat × Access} (h : s.mem.wf = true) :
    (s.arriveOp id o p).mem.wf = true := by
  unfold State.arriveOp
  repeat' split
  all_goals simp [h]

@[simp] theorem State.wf_completeOp {s : State} {id : Nat} {o : LaneOp} {c : Completion} {cut : Option (Nat → Bool)}
    (h : s.mem.wf = true) : (s.completeOp id o c cut).mem.wf = true := by
  unfold State.completeOp
  dsimp only
  repeat' split
  all_goals simp [h]

@[simp] theorem State.mem_nextHost (s : State) (x : StoreOp) (cm : Option Nat) (b g k : Nat) :
    (s.nextHost x cm b g k).mem = s.mem := by
  unfold State.nextHost
  dsimp only
  split <;> simp

@[simp] theorem State.wf_storeOutside {s : State} {id : Nat} {x : StoreOp} (h : s.mem.wf = true) :
    (s.storeOutside id x).mem.wf = true := by
  unfold State.storeOutside
  dsimp only
  split <;> simp [h]

@[simp] theorem State.wf_cutStores {s : State} {x : StoreOp} {c : Completion} {cut : Nat → Bool} {cm : Option Nat}
    {b g k : Nat} (h : s.mem.wf = true) : (s.cutStores x c cut cm b g k).mem.wf = true := by
  refine State.wf_abortTrap ?_
  show (if c == .aborted then (s.instHost x).foldl (fun (u : State) e => u.maybeStore e.2) s else s).mem.wf = true
  split
  · exact State.wf_foldl (fun u e hu => State.wf_maybeStore hu) h
  · exact h

@[simp] theorem State.wf_completeStore {s : State} {id : Nat} {x : StoreOp} {c : Completion} {cut : Option (Nat → Bool)}
    (h : s.mem.wf = true) : (s.completeStore id x c cut).mem.wf = true := by
  unfold State.completeStore
  repeat' split
  all_goals simp [h]

@[simp] theorem State.wf_completeAccess {s : State} {id : Nat} {c : Completion} {cut : Option (Nat → Bool)}
    (h : s.mem.wf = true) : (s.completeAccess id c cut).mem.wf = true := by
  unfold State.completeAccess
  repeat' split
  all_goals simp [h]

@[simp] theorem Out.memWf_execHostCompletion {id : Nat} {c : Completion} {s : State} (h : s.mem.wf = true) :
    Out.MemWf (execHostCompletion id c s) := by
  unfold execHostCompletion
  split <;> simp [h]

/-! ## Memory: the functions of `Machine/Filter` -/

@[simp] theorem State.mem_modMerid (s : State) (m : Nat) (f : Merid → Merid) : (s.modMerid m f).mem = s.mem := rfl

theorem Out.memWf_filterRun {s : State} {f : Nat → Run → State} (hf : ∀ m r, (f m r).mem.wf = true) :
    Out.MemWf (filterRun s f) := by
  unfold filterRun
  repeat' split
  · exact hf ..
  all_goals trivial

@[simp] theorem Out.memWf_filterStep {s : State} {f : Nat → Run → Run} (h : s.mem.wf = true) : Out.MemWf (filterStep s f) :=
  Out.memWf_filterRun fun _ _ => h

@[simp] theorem Out.memWf_filterWrite {s : State} {a : BitVec 4} {v : Run → Dword} (h : s.mem.wf = true) :
    Out.MemWf (filterWrite s a v) :=
  Out.memWf_filterStep h

@[simp] theorem Out.memWf_filterUpdate {s : State} {o : Nat} {f : Nat → Run → Table Nat → Table Nat} (h : s.mem.wf = true) :
    Out.MemWf (filterUpdate s o f) :=
  Out.memWf_filterRun fun _ _ => h

@[simp] theorem State.mem_fire (s : State) (m : Nat) (r : Run) (o v : Nat) : (s.fire m r o v).mem = s.mem := by
  unfold State.fire
  dsimp only
  repeat' split
  all_goals rfl

/-! ## Memory: the functions of `Machine/EvSync` -/

@[simp] theorem State.mem_reenter (s : State) (bs : List Nat) : (s.reenter bs).mem = s.mem := rfl

@[simp] theorem Out.memWf_execCbarHalfMessage {q b : Nat} {s : State} (h : s.mem.wf = true) :
    Out.MemWf (execCbarHalfMessage q b s) := by
  unfold execCbarHalfMessage
  dsimp only
  repeat' split
  all_goals exact h

@[simp] theorem Out.memWf_execCbarReleaseMessage {q b : Nat} {s : State} (h : s.mem.wf = true) :
    Out.MemWf (execCbarReleaseMessage q b s) := by
  unfold execCbarReleaseMessage
  dsimp only
  repeat' split
  all_goals exact h

@[simp] theorem State.wf_putObject {s : State} {a n v : Nat} (h : s.mem.wf = true) : (s.putObject a n v).mem.wf = true :=
  State.wf_writeHome _ _ h

@[simp] theorem State.wf_dbarMaster {s : State} {o : Nat} (h : s.mem.wf = true) : (s.dbarMaster o).mem.wf = true := by
  unfold State.dbarMaster
  split
  · exact h
  · dsimp only
    split
    · exact h
    · exact State.wf_putObject (State.wf_putObject (State.wf_putObject h))

@[simp] theorem State.mem_dbarFail (s : State) (o b g : Nat) : (s.dbarFail o b g).mem = s.mem := rfl

@[simp] theorem State.wf_dbarTrap {s : State} {o b g : Nat} (h : s.mem.wf = true) : (s.dbarTrap o b g).mem.wf = true := by
  unfold State.dbarTrap
  split
  · exact h
  · refine State.wf_foldl (fun t e ht => ?_) h
    dsimp only
    repeat' split
    · exact State.wf_trapWith (by simpa using ht)
    · exact ht
    · exact ht

@[simp] theorem Out.memWf_execDbarWindow {o d : Nat} {s : State} (h : s.mem.wf = true) :
    Out.MemWf (execDbarWindow o d s) := by
  unfold execDbarWindow
  dsimp only
  repeat' split
  · exact h
  · exact h
  · exact h
  · simp +contextual [h, State.wf_foldl]
  all_goals simp [h]

@[simp] theorem Out.memWf_execDbarCompletionMessage {o d : Nat} {s : State} (h : s.mem.wf = true) :
    Out.MemWf (execDbarCompletionMessage o d s) := by
  unfold execDbarCompletionMessage
  dsimp only
  repeat' split
  all_goals simp [h]

@[simp] theorem Out.memWf_execDbarRelease {o d : Nat} {s : State} (h : s.mem.wf = true) :
    Out.MemWf (execDbarRelease o d s) := by
  unfold execDbarRelease
  dsimp only
  repeat' split
  all_goals exact h

@[simp] theorem State.wf_countBytes {s : State} {vf va n : Nat} (h : s.mem.wf = true) :
    (s.countBytes vf va n).mem.wf = true := by
  refine State.wf_foldl (fun t a ht => ?_) h
  dsimp only
  split
  · exact ht
  · exact State.wf_dbarMaster (State.wf_putObject ht)

/-! ## Memory: the functions of `Machine/EngMem` -/

@[simp] theorem State.mem_askLoc (s : State) (p : Site) (x : Loc) : (s.askLoc p x).mem = s.mem := by
  unfold State.askLoc
  split <;> simp

@[simp] theorem State.mem_touchWin (s : State) (p : Site) (win : Option Nat) (key n : Nat) :
    (s.touchWin p win key n).mem = s.mem := by
  unfold State.touchWin
  split
  · exact State.mem_foldl _ (fun _ _ => State.mem_touchStash ..) _ _
  · rfl

@[simp] theorem State.mem_afterLocRead (s : State) (p : Site) (x : Loc) (n : Nat) : (s.afterLocRead p x n).mem = s.mem := by
  unfold State.afterLocRead
  dsimp only
  repeat' split
  · simp
  · simp [State.mem_foldl]
  · rfl

@[simp] theorem State.wf_useLoc {s : State} {p : Site} {x : Loc} {wr : Bool} {nt : Bool} (h : s.mem.wf = true) :
    (s.useLoc p x wr nt).mem.wf = true := by
  unfold State.useLoc
  dsimp only
  repeat' split
  all_goals simp [h]

@[simp] theorem State.wf_locPut {s : State} {p : Site} {x : Loc} {bs : List Byte} {cost : Nat} {nt : Bool}
    (h : s.mem.wf = true) : (s.locPut p x bs cost nt).mem.wf = true := by
  unfold State.locPut
  split
  · exact h
  · simp [h, State.wf_commit]
  · exact h

@[simp] theorem State.wf_locWrite {s : State} {p : Site} {x : Loc} {bs : List Byte} {nt : Bool} (h : s.mem.wf = true) :
    (s.locWrite p x bs nt).mem.wf = true := by
  simp [State.locWrite, h]

@[simp] theorem State.memWf_bumpDone {s : State} {p : Site} {a : Nat} (h : s.mem.wf = true) : (s.bumpDone p a).MemWf := by
  unfold State.bumpDone
  dsimp only
  repeat' split
  all_goals simp [h]

@[simp] theorem State.mem_modEngine (s : State) (id : Nat) (f : EngineOp → EngineOp) : (s.modEngine id f).mem = s.mem := rfl

@[simp] theorem State.mem_parkEngine (s : State) (id cause addr : Nat) : (s.parkEngine id cause addr).mem = s.mem := by
  simp [State.parkEngine]

@[simp] theorem State.wf_finishEngine {s : State} {id : Nat} {o : EngineOp} {done : Nat} (h : s.mem.wf = true) :
    (s.finishEngine id o done).mem.wf = true := by
  unfold State.finishEngine
  split
  · exact (State.memWf_bumpDone h).wait ‹_›
  · simpa using h
  · next e => simpa using (State.memWf_bumpDone h).ok e

/-! ## Memory: the functions of `Machine/EvXlate` -/

@[simp] theorem Out.memWf_execPageWalkStart {d id : Nat} {s : State} (h : s.mem.wf = true) :
    Out.MemWf (execPageWalkStart d id s) := by
  unfold execPageWalkStart
  repeat' split
  all_goals exact h

@[simp] theorem State.mem_countMisses (s : State) (w : Walk) : (s.countMisses w).mem = s.mem := by
  refine State.mem_foldl _ (fun t a => ?_) _ _
  split <;> rfl

@[simp] theorem State.mem_chargeWalk (s : State) (id : Nat) (w : Walk) (keys : List Nat) :
    (s.chargeWalk id w keys).mem = s.mem := by
  simp [State.chargeWalk, State.mem_foldl]

theorem State.mem_of_walkStop {s r : State} {id : Nat} {w : Walk} {keys : List Nat} (e : s.walkStop id w keys = some r) :
    r.mem = s.mem := by
  unfold State.walkStop at e
  split at e <;> cases e
  exact State.mem_foldl _ (fun _ _ => State.mem_ask ..) _ _

@[simp] theorem Out.memWf_execPageWalkEnd {d id : Nat} {s : State} (h : s.mem.wf = true) :
    Out.MemWf (execPageWalkEnd d id s) := by
  unfold execPageWalkEnd
  split
  · exact h
  · dsimp only
    repeat' split
    · exact h
    · exact h
    · next e => simpa only [Out.MemWf, State.mem_of_walkStop e] using h
    · simp [h]
    · simp [h]
    · simp [h]

@[simp] theorem State.mem_invalidate (s : State) (vf va len : Nat) : (s.invalidate vf va len).mem = s.mem := rfl

@[simp] theorem Out.memWf_execTranslationInvalidation {fn vf va len : Nat} {s : State} (h : s.mem.wf = true) :
    Out.MemWf (execTranslationInvalidation fn vf va len s) := by
  unfold execTranslationInvalidation
  split <;> simp [h]

/-! ## Memory: the functions of `Machine/Mgmt` -/

@[simp] theorem State.wf_markLeaves {s : State} {ms : List (TlbEntry × List Nat)} {wr : Bool} (h : s.mem.wf = true) :
    (s.markLeaves ms wr).mem.wf = true := by
  refine State.wf_foldl (fun t m ht => ?_) h
  dsimp only
  split <;> simp [ht]

@[simp] theorem State.wf_markSpace {s : State} {fn va n : Nat} (h : s.mem.wf = true) :
    (s.markSpace fn va n).mem.wf = true := by
  unfold State.markSpace
  split <;> simp [h]

@[simp] theorem State.wf_putIn {s : State} {fn : Nat} {ms : List (TlbEntry × List Nat)} {va : Nat} {bs : List Byte}
    (h : s.mem.wf = true) : (s.putIn fn ms va bs).mem.wf = true := by
  refine State.wf_foldl (fun u m hu => ?_) (State.wf_commit _ _ _ _ _ (State.wf_markLeaves h))
  split
  all_goals exact hu

theorem State.wf_of_writeSpace {s r : State} {fn va : Nat} {bs : List Byte} (h : s.mem.wf = true)
    (e : s.writeSpace fn va bs = some r) : r.mem.wf = true := by
  unfold State.writeSpace at e
  repeat' split at e
  all_goals cases e
  exact State.wf_putIn h

@[simp] theorem State.mem_reply (s : State) (fn status : Nat) (vals : List Nat) : (s.reply fn status vals).mem = s.mem := rfl

/-! ## Memory: the functions of `Machine/EvMeridian` -/

@[simp] theorem State.mem_flushTaps (s : State) : s.flushTaps.mem = s.mem := State.mem_foldl _ (fun _ _ => by rfl) _ _

@[simp] theorem Out.memWf_execEventDispatch {m : Nat} {s : State} (h : s.mem.wf = true) :
    Out.MemWf (execEventDispatch m s) := by
  unfold execEventDispatch
  dsimp only
  repeat' split
  all_goals exact h

@[simp] theorem Out.memWf_execBudgetWindow {m : Nat} {s : State} (h : s.mem.wf = true) :
    Out.MemWf (execBudgetWindow m s) := by
  unfold execBudgetWindow
  split <;> simp [h]

@[simp] theorem Out.memWf_execCounterSample {core : Nat} {s : State} (h : s.mem.wf = true) :
    Out.MemWf (execCounterSample core s) := by
  unfold execCounterSample
  split
  · exact h
  · refine State.wf_foldl (fun t i ht => ?_) h
    dsimp only
    split <;> exact ht

@[simp] theorem State.mem_noteLinkErr (s : State) (m link kind : Nat) : (s.noteLinkErr m link kind).mem = s.mem := rfl

@[simp] theorem Out.memWf_execLinkerrEmit {m link kind : Nat} {s : State} (h : s.mem.wf = true) :
    Out.MemWf (execLinkerrEmit m link kind s) := by
  unfold execLinkerrEmit
  dsimp only
  repeat' split
  all_goals exact h

@[simp] theorem Out.memWf_execAttach {fn m slot desc : Nat} {s : State} (h : s.mem.wf = true) :
    Out.MemWf (execAttach fn m slot desc s) := by
  have hm (n : Nat) : (s.markSpace fn desc n).mem.wf = true := State.wf_markSpace h
  unfold execAttach
  split
  · exact h
  · split
    · simpa using h
    · extract_lets n plen t objs
      split
      · rw [Out.MemWf, State.mem_reply]; exact hm _
      · extract_lets ws c a
        split
        · rw [Out.MemWf, State.mem_reply]; exact hm _
        · rw [Out.MemWf, State.mem_reply]; exact hm _

@[simp] theorem Out.memWf_execDetach {fn m slot : Nat} {s : State} (h : s.mem.wf = true) :
    Out.MemWf (execDetach fn m slot s) := by
  unfold execDetach
  repeat' split
  all_goals exact h

@[simp] theorem State.mem_readObject (s : State) (clear : Bool) (fn m slot obj : Nat) :
    (s.readObject clear fn m slot obj).mem = s.mem := by
  unfold State.readObject
  dsimp only
  repeat' split
  all_goals rfl

@[simp] theorem Out.memWf_execRead {fn m slot obj : Nat} {s : State} (h : s.mem.wf = true) :
    Out.MemWf (execRead fn m slot obj s) := by
  simp [execRead, h]

@[simp] theorem Out.memWf_execReadclr {fn m slot obj : Nat} {s : State} (h : s.mem.wf = true) :
    Out.MemWf (execReadclr fn m slot obj s) := by
  simp [execReadclr, h]

@[simp] theorem Out.memWf_execTriggerRearm {fn m slot obj : Nat} {s : State} (h : s.mem.wf = true) :
    Out.MemWf (execTriggerRearm fn m slot obj s) := by
  unfold execTriggerRearm
  repeat' split
  all_goals exact h

@[simp] theorem Out.memWf_execAfterglowRead {fn m ix : Nat} {s : State} (h : s.mem.wf = true) :
    Out.MemWf (execAfterglowRead fn m ix s) := by
  unfold execAfterglowRead
  repeat' split
  all_goals exact h

@[simp] theorem Out.memWf_execMctlWrite {fn m : Nat} {v : Word} {s : State} (h : s.mem.wf = true) :
    Out.MemWf (execMctlWrite fn m v s) := by
  unfold execMctlWrite
  split <;> simp [h]

/-! ## Memory: the functions of `Machine/EvFabric` -/

@[simp] theorem State.mem_enqueue (s : State) (q chan target : Nat) (x : FlitLoad) (src : Nat) :
    (s.enqueue q chan target x src).mem = s.mem :=
  rfl

@[simp] theorem State.mem_control (s : State) (q chan : Nat) (x : FlitLoad) : (s.control q chan x).mem = s.mem := by
  unfold State.control
  split <;> rfl

@[simp] theorem State.wf_sendAccess {s : State} {id : Nat} (h : s.mem.wf = true) : (s.sendAccess id).mem.wf = true := by
  unfold State.sendAccess
  dsimp only
  split
  · exact State.wf_completeAccess h
  · refine State.wf_foldl (fun t k ht => ?_) h
    split <;> exact ht

@[simp] theorem State.wf_sendRemote {s : State} {n : Nat} (h : s.mem.wf = true) : (s.sendRemote n).mem.wf = true := by
  induction n generalizing s with
  | zero => exact h
  | succ n ih =>
    unfold State.sendRemote
    dsimp only
    repeat' split
    · exact h
    · exact h
    · exact ih (State.wf_sendAccess h)

@[simp] theorem State.mem_fabricClock (s : State) : s.fabricClock.mem = s.mem := rfl

@[simp] theorem State.mem_discardFlits (s : State) (vf : Nat) : (s.discardFlits vf).mem = s.mem := rfl

@[simp] theorem State.wf_portDown {s : State} {q : Nat} (h : s.mem.wf = true) : (s.portDown q).mem.wf = true := by
  simp +contextual [State.portDown, h, State.wf_foldl]

@[simp] theorem Out.memWf_execPctlWrite {fn port : Nat} {v : Word} {s : State} (h : s.mem.wf = true) :
    Out.MemWf (execPctlWrite fn port v s) := by
  unfold execPctlWrite
  dsimp only
  repeat' split
  all_goals simp [h]

@[simp] theorem Out.memWf_execPortRetrainEnd {port : Nat} {ok : Bool} {s : State} (h : s.mem.wf = true) :
    Out.MemWf (execPortRetrainEnd port ok s) := by
  unfold execPortRetrainEnd
  repeat' split
  all_goals simp [h]

@[simp] theorem Out.memWf_execFlitAcknowledge {port seq : Nat} {s : State} (h : s.mem.wf = true) :
    Out.MemWf (execFlitAcknowledge port seq s) := by
  unfold execFlitAcknowledge
  split <;> simp [h]

@[simp] theorem Out.memWf_execReplayRequest {port seq : Nat} {s : State} (h : s.mem.wf = true) :
    Out.MemWf (execReplayRequest port seq s) := by
  unfold execReplayRequest
  dsimp only
  repeat' split
  all_goals exact h

@[simp] theorem State.mem_abortBack (s : State) (src chan h : Nat) : (s.abortBack src chan h).mem = s.mem := by
  unfold State.abortBack
  dsimp only
  split <;> simp

@[simp] theorem State.mem_forward (s : State) (flit : List Byte) : (s.forward flit).mem = s.mem := by
  unfold State.forward
  dsimp only
  repeat' split
  all_goals simp

@[simp] theorem State.mem_acceptFlit (s : State) (port : Nat) (flit : List Byte) : (s.acceptFlit port flit).mem = s.mem := by
  unfold State.acceptFlit
  split <;> simp

@[simp] theorem Out.memWf_execFlitReceive {port seq : Nat} {flit : List Byte} {fec : Fec} {s : State} (h : s.mem.wf = true) :
    Out.MemWf (execFlitReceive port seq flit fec s) := by
  unfold execFlitReceive
  dsimp only
  repeat' split
  all_goals simp [h]

@[simp] theorem State.wf_outsideAccess {s : State} {op : HostOp} {ks : List Nat} (h : s.mem.wf = true) :
    (s.outsideAccess op ks).2.mem.wf = true := by
  unfold State.outsideAccess
  dsimp only
  split
  · exact State.wf_foldl (fun t l ht => by simpa using ht) h
  all_goals exact State.wf_commit _ _ _ _ _ h

@[simp] theorem State.mem_chargeOutside (s : State) (part : Nat) (op : HostOp) (ks : List Nat) :
    (s.chargeOutside part op ks).mem = s.mem := by
  unfold State.chargeOutside
  split <;> exact State.mem_foldl _ (fun _ _ => State.mem_charge ..) _ _

@[simp] theorem State.wf_serveOutside {s : State} {fn part : Nat} {op : HostOp} {ks : List Nat} (h : s.mem.wf = true) :
    (s.serveOutside fn part op ks).mem.wf = true := by
  unfold State.serveOutside
  split <;> simp [h]

@[simp] theorem State.mem_respond (s : State) (src addr : Nat) : (s.respond src addr).mem = s.mem := by
  unfold State.respond
  split <;> rfl

@[simp] theorem State.mem_quietQueues (s t : State) : (s.quietQueues t).mem = t.mem := rfl

@[simp] theorem Out.memWf_execRemoteRequest {src : Nat} {tag : Word} {op : HostOp} {addr n : Nat} {s : State}
    (h : s.mem.wf = true) : Out.MemWf (execRemoteRequest src tag op addr n s) := by
  unfold execRemoteRequest
  dsimp only
  repeat' split
  all_goals simp [h]

@[simp] theorem Out.memWf_execHostMemoryRequest {op : HostOp} {addr n : Nat} {s : State} (h : s.mem.wf = true) :
    Out.MemWf (execHostMemoryRequest op addr n s) := by
  unfold execHostMemoryRequest
  split <;> simp [h]

@[simp] theorem Out.memWf_execDieLinkCrcRetry {m link : Nat} {retrain : Bool} {s : State} (h : s.mem.wf = true) :
    Out.MemWf (execDieLinkCrcRetry m link retrain s) := by
  unfold execDieLinkCrcRetry
  dsimp only
  repeat' split
  all_goals exact h

/-! ## Memory: the functions of `Machine/EvHub` -/

@[simp] theorem Out.memWf_execCmodeWrite {fn core : Nat} {v : Word} {s : State} (h : s.mem.wf = true) :
    Out.MemWf (execCmodeWrite fn core v s) := by
  unfold execCmodeWrite
  dsimp only
  repeat' split
  all_goals exact h

@[simp] theorem Out.memWf_execFownWrite {fn facet : Nat} {v : Word} {s : State} (h : s.mem.wf = true) :
    Out.MemWf (execFownWrite fn facet v s) := by
  unfold execFownWrite
  dsimp only
  repeat' split
  all_goals exact h

@[simp] theorem Out.memWf_execCmerrWrite {fn core : Nat} {v : Word} {s : State} (h : s.mem.wf = true) :
    Out.MemWf (execCmerrWrite fn core v s) := by
  unfold execCmerrWrite
  split <;> simp [h]

@[simp] theorem Out.memWf_execFloorWrite {fn p d : Nat} {v : Word} {s : State} (h : s.mem.wf = true) :
    Out.MemWf (execFloorWrite fn p d v s) := by
  unfold execFloorWrite
  dsimp only
  split <;> simp [h]

@[simp] theorem Out.memWf_execPqheadWrite {fn p : Nat} {v : Dword} {s : State} (h : s.mem.wf = true) :
    Out.MemWf (execPqheadWrite fn p v s) := by
  unfold execPqheadWrite
  split <;> simp [h]

@[simp] theorem State.mem_writeReg (s : State) (r : HubReg) (v : Dword) : (s.writeReg r v).mem = s.mem := by
  unfold State.writeReg
  dsimp only
  repeat' split
  all_goals rfl

@[simp] theorem Out.memWf_regWrite {fn : Nat} {r : HubReg} {v : Dword} {s : State} (h : s.mem.wf = true) :
    Out.MemWf (regWrite fn r v s) := by
  unfold regWrite
  dsimp only
  repeat' split
  all_goals simp [h]

@[simp] theorem Out.memWf_execRegisterWrite {fn : Nat} {r : HubReg} {v : Dword} {s : State} (h : s.mem.wf = true) :
    Out.MemWf (execRegisterWrite fn r v s) := by
  unfold execRegisterWrite
  split <;> simp [h]

@[simp] theorem Out.memWf_execEnergyWindowEnd {p : Nat} {s : State} (h : s.mem.wf = true) :
    Out.MemWf (execEnergyWindowEnd p s) := by
  unfold execEnergyWindowEnd
  dsimp only
  repeat' split
  all_goals exact h

@[simp] theorem Out.memWf_execArbiterWindow {d ch : Nat} {s : State} (h : s.mem.wf = true) :
    Out.MemWf (execArbiterWindow d ch s) := by
  unfold execArbiterWindow
  split <;> simp [h]

/-- The memory after a cold reset is that of reset, which lists nothing (20 R418). -/
@[simp] theorem Out.memWf_execColdReset {s : State} : Out.MemWf (execColdReset s) := rfl

@[simp] theorem Out.memWf_execWarmReset {s : State} (h : s.mem.wf = true) : Out.MemWf (execWarmReset s) := by
  unfold execWarmReset
  split <;> simp [h]

@[simp] theorem Out.memWf_execFirmwareImage {fn : Nat} {img : List Byte} {s : State} (h : s.mem.wf = true) :
    Out.MemWf (execFirmwareImage fn img s) := by
  unfold execFirmwareImage
  split <;> simp [h]

/-! ## Memory: the functions of `Machine/EvCopy` -/

@[simp] theorem State.memWf_copyPiece {s : State} {id : Nat} {o : EngineOp} (h : s.mem.wf = true) :
    (s.copyPiece id o).MemWf := by
  have hmove {p : Site} {x y : Loc} {n : Nat} {bs : List Byte} : ((((s.useLoc p x false o.nt).afterLocRead p x n).useLoc p y
      true o.nt).locWrite p y bs o.nt).mem.wf = true :=
    State.wf_locWrite (State.wf_useLoc (by rw [State.mem_afterLocRead]; exact State.wf_useLoc h))
  unfold State.copyPiece
  dsimp only
  split
  case h_9 =>
    split
    · simpa using h
    · split
      · simpa using h
      · split
        · trivial
        · rw [EngStep.memWf_ok, State.mem_dropOuts, State.mem_modEngine]
          split
          · split
            · exact hmove
            · exact State.wf_countBytes hmove
          · exact hmove
  all_goals simp [h]

@[simp] theorem State.wf_copyPieces {s : State} {id n : Nat} (h : s.mem.wf = true) : (s.copyPieces id n).mem.wf = true := by
  induction n generalizing s with
  | zero => exact h
  | succ n ih =>
    unfold State.copyPieces
    repeat' split
    · exact h
    · exact h
    · exact (State.memWf_copyPiece h).wait ‹_›
    · simpa using h
    · exact ih ((State.memWf_copyPiece h).ok ‹_›)

@[simp] theorem Out.memWf_execCopyOperationDone {id rows : Nat} {s : State} (h : s.mem.wf = true) :
    Out.MemWf (execCopyOperationDone id rows s) := by
  unfold execCopyOperationDone
  repeat' split
  all_goals simp [h]

@[simp] theorem Out.memWf_execCopySlotClaim {id : Nat} {s : State} (h : s.mem.wf = true) :
    Out.MemWf (execCopySlotClaim id s) := by
  unfold execCopySlotClaim
  repeat' split
  all_goals exact h

@[simp] theorem Out.memWf_execCopySlotFilled {id : Nat} {s : State} (h : s.mem.wf = true) :
    Out.MemWf (execCopySlotFilled id s) := by
  unfold execCopySlotFilled
  repeat' split
  all_goals exact h

/-! ## Memory: the functions of `Machine/Fetch` -/

@[simp] theorem State.mem_askFetch (s : State) (p : Site) (x : Fetched) : (s.askFetch p x).mem = s.mem := by
  unfold State.askFetch
  split <;> simp

@[simp] theorem State.mem_keepFetch (s : State) (p : Site) (va : Nat) : (s.keepFetch p va).mem = s.mem := by
  unfold State.keepFetch
  split <;> simp

@[simp] theorem State.mem_useFetch (s : State) (p : Site) (va : Nat) (n : Nat) : (s.useFetch p va n).mem = s.mem := by
  unfold State.useFetch
  split <;> simp

/-! ## Memory: the functions of `Machine/Image` -/

@[simp] theorem State.mem_clearStats (s : State) (b f : Nat) : (s.clearStats b f).mem = s.mem := by
  unfold State.clearStats
  dsimp only
  split <;> simp

@[simp] theorem State.mem_writeAcc (s : State) (b f : Nat) (v : Word) : (s.writeAcc b f v).mem = s.mem := by
  unfold State.writeAcc
  split <;> simp

@[simp] theorem State.wf_spill {s : State} {f : Nat → Nat} {fx vf : Nat} (h : s.mem.wf = true) :
    (s.spill f fx vf).mem.wf = true := by
  rw [State.spill, State.modFacet_mem]
  exact State.wf_commit _ _ _ _ _ h

@[simp] theorem State.mem_loadBank (s : State) (f : Nat → Nat) (b : Nat) : (s.loadBank f b).mem = s.mem := rfl

/-! ## Memory: the functions of `Machine/Seq` -/

@[simp] theorem State.mem_modSeq (s : State) (b : Nat) (f : Seq → Seq) : (s.modSeq b f).mem = s.mem := rfl

@[simp] theorem State.mem_seqTrap (s : State) (b cause sub slot col info : Nat) :
    (s.seqTrap b cause sub slot col info).mem = s.mem := by
  simp [State.seqTrap]

@[simp] theorem SChk.memWf_and {a b : SChk} (ha : a.MemWf) (hb : b.MemWf) : (a.and b).MemWf := by
  cases a with
  | ok => exact hb
  | hold t => exact ha
  | trap k sub info => trivial

@[simp] theorem State.mem_seqOp (s : State) (b : Nat) (d : SeqDest) (ws : List (Nat × Word)) (l : Nat) :
    (s.seqOp b d ws l).mem = s.mem :=
  rfl

@[simp] theorem State.mem_landOp (s : State) (b id : Nat) (o : SeqOp) : (s.landOp b id o).mem = s.mem := by
  unfold State.landOp
  dsimp only
  repeat' split
  all_goals rfl

@[simp] theorem State.mem_landDue (s : State) (b : Nat) : (s.landDue b).mem = s.mem := by
  simp [State.landDue, State.mem_foldl]

@[simp] theorem State.mem_settleArrivals (s : State) (b : Nat) : (s.settleArrivals b).mem = s.mem := by
  refine State.mem_foldl _ (fun t e => ?_) _ _
  split <;> rfl

@[simp] theorem State.memWf_tileChecks {s : State} {b : Nat} {i : Instr} :
    (s.tileChecks b i).MemWf := by
  unfold State.tileChecks
  dsimp only
  repeat' split
  all_goals simp

@[simp] theorem State.memWf_poisonCheck (s : State) (b : Nat) (i : Instr) : (s.poisonCheck b i).MemWf := by
  unfold State.poisonCheck
  repeat' split
  all_goals trivial

@[simp] theorem State.mem_occupy (s : State) (b c : Nat) (i : Instr) : (s.occupy b c i).mem = s.mem := by
  unfold State.occupy
  split <;> rfl

/-! ## Memory: the functions of `Machine/SeqPort` -/

@[simp] theorem State.memWf_portPiece {s : State} {b c z at_ a n : Nat} (h : s.mem.wf = true) :
    (s.portPiece b c z at_ a n).MemWf := by
  unfold State.portPiece
  dsimp only
  repeat' split
  all_goals simp [h]

@[simp] theorem State.memWf_portBytes {s : State} {b c z at_ a n : Nat} (h : s.mem.wf = true) :
    (s.portBytes b c z at_ a n).MemWf := by
  unfold State.portBytes
  dsimp only
  split
  · exact State.memWf_portPiece h
  · split
    · next e =>
      have ht := (State.memWf_portPiece h).ok e
      split
      · exact (State.memWf_portPiece ht).ok ‹_›
      · exact State.memWf_portPiece ht
    · exact State.memWf_portPiece h

@[simp] theorem State.memWf_portElem {s : State} {b c z : Nat} {p : Port} {r : Ring} {pos : Nat} (h : s.mem.wf = true) :
    (s.portElem b c z p r pos).MemWf := by
  unfold State.portElem
  dsimp only
  split
  · split
    · exact (State.memWf_portBytes h).wait ‹_›
    · trivial
    · next e =>
      have ht := (State.memWf_portBytes h).ok e
      split
      · exact (State.memWf_portBytes ht).wait ‹_›
      · trivial
      · exact (State.memWf_portBytes ht).ok ‹_›
  · split
    · exact (State.memWf_portBytes h).wait ‹_›
    · trivial
    · exact (State.memWf_portBytes h).ok ‹_›

@[simp] theorem State.mem_modPort (s : State) (b c z : Nat) (f : Port → Port) : (s.modPort b c z f).mem = s.mem := rfl

@[simp] theorem State.mem_returnSlot (s : State) (b c z : Nat) : (s.returnSlot b c z).mem = s.mem := by
  unfold State.returnSlot
  dsimp only
  split <;> simp

@[simp] theorem State.mem_closeStretch (s : State) (b c z : Nat) : (s.closeStretch b c z).mem = s.mem := by
  unfold State.closeStretch
  dsimp only
  repeat' split
  all_goals simp

@[simp] theorem State.mem_portFault (s : State) (b c z k a : Nat) : (s.portFault b c z k a).mem = s.mem := by
  simp [State.portFault]

theorem State.wf_of_readStep {s : State} {b c z : Nat} {r : State} (h : s.mem.wf = true) (e : s.readStep b c z = some r) :
    r.mem.wf = true := by
  unfold State.readStep at e
  dsimp only at e
  repeat' split at e
  all_goals cases e
  · exact h
  · exact h
  · exact (State.memWf_portBytes h).wait ‹_›
  · simp [h]
  · simp [(State.memWf_portBytes h).ok ‹_›]
  · exact h
  · simp [h]
  · exact (State.memWf_portElem h).wait ‹_›
  · simp [h]
  · simp [(State.memWf_portElem h).ok ‹_›]

@[simp] theorem State.wf_readAhead {s : State} {b c z n : Nat} (h : s.mem.wf = true) :
    (s.readAhead b c z n).mem.wf = true := by
  induction n generalizing s with
  | zero => exact h
  | succ n ih =>
    unfold State.readAhead
    repeat' split
    · exact ih (State.wf_of_readStep h ‹_›)
    · exact h
    · exact h

@[simp] theorem Out.memWf_execStreamReadAhead {b c z : Nat} {s : State} (h : s.mem.wf = true) :
    Out.MemWf (execStreamReadAhead b c z s) := by
  simp [execStreamReadAhead, h]

@[simp] theorem State.memWf_popCheck {s : State} {b c z : Nat} (h : s.mem.wf = true) : (s.popCheck b c z).MemWf := by
  unfold State.popCheck
  dsimp only
  repeat' split
  all_goals simp [h]

theorem State.memWf_of_pushElem {s : State} {at_ : Nat} {ps : List (Nat × List Byte)} {x : SChk} (h : s.mem.wf = true)
    (e : s.pushElem at_ ps = .inl x) : x.MemWf := by
  induction ps generalizing x with
  | nil => cases e
  | cons p ps ih =>
    unfold State.pushElem at e
    dsimp only at e
    split at e
    case h_5 =>
      split at e
      · next hy => cases e; exact ih hy
      · cases e
    all_goals cases e
    all_goals simp [h]

theorem State.memWf_of_pushCells {s : State} {b : Nat} {ps : List (Nat × List Byte)} {x : SChk} (h : s.mem.wf = true)
    (e : s.pushCells b ps = .inl x) : x.MemWf := by
  induction ps generalizing x with
  | nil => cases e
  | cons p ps ih =>
    unfold State.pushCells at e
    repeat' split at e
    all_goals cases e
    · exact State.memWf_of_pushElem h ‹_›
    · exact ih ‹_›

@[simp] theorem State.memWf_pushCheck {s : State} {b c z : Nat} {ws : List (Word × Bool)} (h : s.mem.wf = true) :
    (s.pushCheck b c z ws).MemWf := by
  unfold State.pushCheck
  dsimp only
  repeat' split
  · trivial
  · exact State.memWf_of_pushCells h ‹_›
  · trivial
  · exact h

@[simp] theorem State.wf_usePush {s : State} {b : Nat} {nt : Bool} {ps : List (Nat × List Byte)} (h : s.mem.wf = true) :
    (s.usePush b nt ps).mem.wf = true := by
  refine State.wf_foldl (fun t e ht => ?_) h
  dsimp only
  split <;> simp [ht]

@[simp] theorem State.wf_push {s : State} {b c z : Nat} {ws : List (Word × Bool)} {l : Nat} (h : s.mem.wf = true) :
    (s.push b c z ws l).mem.wf = true := by
  unfold State.push
  dsimp only
  split <;> simp [h]

@[simp] theorem State.wf_writeCells {s : State} {cs : List Host.Cell} {vf : Nat} (h : s.mem.wf = true) :
    (s.writeCells cs vf).mem.wf = true := by
  unfold State.writeCells
  dsimp only
  split
  · exact State.wf_foldl (fun _ _ ht => by exact ht) h
  · exact State.wf_commit _ _ _ _ _ (State.wf_foldl (fun _ _ ht => by exact ht) h)

@[simp] theorem Out.memWf_execWritePortEntryWrite {b c z : Nat} {s : State} (h : s.mem.wf = true) :
    Out.MemWf (execWritePortEntryWrite b c z s) := by
  unfold execWritePortEntryWrite
  dsimp only
  repeat' split
  all_goals simp [h]

@[simp] theorem State.mem_unbindPort (s : State) (b c z : Nat) : (s.unbindPort b c z).mem = s.mem := by
  simp [State.unbindPort]

@[simp] theorem State.mem_discardOffsets (s : State) (b c z : Nat) : (s.discardOffsets b c z).mem = s.mem := by
  unfold State.discardOffsets
  split <;> rfl

@[simp] theorem State.mem_bindPort (s : State) (b c z : Nat) (desc : Table Word) : (s.bindPort b c z desc).mem = s.mem := by
  simp [State.bindPort]

@[simp] theorem State.mem_setField (s : State) (b c z f : Nat) (v : Word) : (s.setField b c z f v).mem = s.mem := by
  unfold State.setField
  dsimp only
  split <;> simp

@[simp] theorem State.mem_skipElems (s : State) (b c z n : Nat) : (s.skipElems b c z n).mem = s.mem := by
  unfold State.skipElems
  dsimp only
  repeat' split
  all_goals simp

/-! ## Memory: the functions of `Machine/SeqCheck` -/

@[simp] theorem State.memWf_tilesMapped {s : State} {wr : Bool} {vas : List Nat} (h : s.mem.wf = true) :
    (s.tilesMapped wr vas).MemWf := by
  unfold State.tilesMapped
  dsimp only
  repeat' split
  · simp
  · simp
  · simp +contextual [h, State.wf_foldl]

@[simp] theorem State.memWf_tilesNormal {s : State} {wr : Bool} {vas : List Nat} :
    (s.tilesNormal wr vas).MemWf := by
  unfold State.tilesNormal
  split <;> simp

@[simp] theorem State.memWf_tilesReached {s : State} {wr : Bool} {as : List Nat} (h : s.mem.wf = true) :
    (s.tilesReached wr as).MemWf := by
  induction as with
  | nil => trivial
  | cons a as ih =>
    unfold State.tilesReached
    dsimp only
    split
    · trivial
    · exact h
    · simp [h]
    · exact ih

@[simp] theorem State.memWf_tilePages {s : State} {wr : Bool} {a n : Nat} (h : s.mem.wf = true) :
    (s.tilePages wr a n).MemWf :=
  SChk.memWf_and (SChk.memWf_and (State.memWf_tilesMapped h) State.memWf_tilesNormal) (State.memWf_tilesReached h)

@[simp] theorem State.memWf_tileRange {s : State} {b : Nat} {wr : Bool} {a n : Nat} (h : s.mem.wf = true) :
    (s.tileRange b wr a n).MemWf := by
  unfold State.tileRange
  dsimp only
  repeat' split
  all_goals simp [h]

@[simp] theorem State.memWf_portDir {s : State} {b c : Nat} {o : Handle} {wr : Bool} :
    (s.portDir b c o wr).MemWf := by
  unfold State.portDir
  dsimp only
  repeat' split
  all_goals simp

@[simp] theorem State.memWf_bindAddr {s : State} {b c : Nat} {x : XReg} : (s.bindAddr b c x).MemWf := by
  unfold State.bindAddr
  dsimp only
  repeat' split
  all_goals simp

@[simp] theorem State.memWf_bindCheck {s : State} {b c z : Nat} {x : XReg} :
    (s.bindCheck b c z x).MemWf :=
  SChk.memWf_and State.memWf_bindAddr (by split <;> trivial)

@[simp] theorem State.memWf_setPort {s : State} {b c z : Nat} : (s.setPort b c z).MemWf := by
  unfold State.setPort
  split <;> simp

@[simp] theorem State.memWf_setCheck {s : State} {b c z : Nat} {x : XReg} {f : Nat} :
    (s.setCheck b c z x f).MemWf :=
  SChk.memWf_and State.memWf_setPort (by split <;> trivial)

@[simp] theorem State.memWf_vDirs {s : State} {b : Nat} {c : Col} {v : VFields} : (s.vDirs b c v).MemWf :=
  SChk.memWf_and State.memWf_portDir State.memWf_portDir

@[simp] theorem State.memWf_ownCheck {s : State} {b : Nat} {i : Instr} (h : s.mem.wf = true) : (s.ownCheck b i).MemWf := by
  unfold State.ownCheck
  dsimp only
  repeat' split
  all_goals simp [h]

@[simp] theorem State.memWf_slotCheck {s : State} {b : Nat} {i : Instr} (h : s.mem.wf = true) : (s.slotCheck b i).MemWf :=
  SChk.memWf_and State.memWf_tileChecks (State.memWf_ownCheck h)

@[simp] theorem State.memWf_vLate {s : State} {b : Nat} {c : Col} {v : VFields} (h : s.mem.wf = true) :
    (s.vLate b c v).MemWf :=
  SChk.memWf_and (by split <;> simp [h]) (by split <;> simp [h])

@[simp] theorem State.memWf_lateCheck {s : State} {b : Nat} {i : Instr} (h : s.mem.wf = true) : (s.lateCheck b i).MemWf := by
  have hbusy {c : Bool} {x : SChk} (hx : x.MemWf) : (if c = true then SChk.hold s else x).MemWf := by
    split
    · exact h
    · exact hx
  unfold State.lateCheck
  extract_lets own
  have hown : own.MemWf := by
    dsimp only [own]
    split
    case h_12 => exact hbusy State.memWf_bindCheck
    case h_16 => exact hbusy trivial
    all_goals simp [h]
  split
  · exact hbusy trivial
  · exact SChk.memWf_and hown (State.memWf_poisonCheck ..)

@[simp] theorem State.memWf_boardCheck {s : State} {b : Nat} {i : Instr} :
    (s.boardCheck b i).MemWf := by
  unfold State.boardCheck
  split <;> simp

@[simp] theorem State.mem_slotTrap (s : State) (b : Nat) (i : Instr) (cause sub info : Nat) :
    (s.slotTrap b i cause sub info).mem = s.mem := by
  unfold State.slotTrap
  dsimp only
  repeat' split
  all_goals simp

theorem Out.memWf_slotRun {i : Instr} {c : Col} {g : Pred} {s : State} {eff : Nat → State → State} (h : s.mem.wf = true)
    (he : ∀ k t, t.mem.wf = true → (eff k t).mem.wf = true) : Out.MemWf (slotRun i c g s eff) := by
  unfold slotRun
  split
  · next b hf =>
    have hc : (((s.slotCheck b i).and (s.lateCheck b i)).and (s.boardCheck b i)).MemWf :=
      SChk.memWf_and (SChk.memWf_and (State.memWf_slotCheck h) (State.memWf_lateCheck h)) State.memWf_boardCheck
    dsimp only
    repeat' split
    · trivial
    · exact h
    · exact he _ _ h
    · simpa using h
    · exact hc.hold ‹_›
    · exact he _ _ h
  · trivial

/-! ## Memory: the functions of `Machine/SeqScalar` -/

@[simp] theorem Out.memWf_execNop {c : Col} {bits : BitVec 26} {s : State} (h : s.mem.wf = true) :
    Out.MemWf (execNop c bits s) := by
  unfold execNop
  dsimp only
  repeat' split
  all_goals simp [h]

@[simp] theorem Out.memWf_scalarRun {i : Instr} {c : Col} {g : Pred} {d a b : XReg} {l : Nat} {f : Word → Word → Word}
    {s : State} (h : s.mem.wf = true) :
    Out.MemWf (scalarRun i c g d a b l f s) :=
  Out.memWf_slotRun h fun _ _ ht => ht

@[simp] theorem Out.memWf_execSli {c : Col} {g : Pred} {d : XReg} {imm : BitVec 17} {s : State} (h : s.mem.wf = true) :
    Out.MemWf (execSli c g d imm s) :=
  Out.memWf_slotRun h fun _ _ ht => ht

@[simp] theorem Out.memWf_execScmp {c : Col} {g : Pred} {p : PairIx} {cond : SCond} {a b : XReg} {s : State}
    (h : s.mem.wf = true) :
    Out.MemWf (execScmp c g p cond a b s) :=
  Out.memWf_slotRun h fun _ _ ht => by split <;> exact ht

@[simp] theorem Out.memWf_execSbra {c : Col} {g : Pred} {ofs : BitVec 22} {s : State} (h : s.mem.wf = true) :
    Out.MemWf (execSbra c g ofs s) :=
  Out.memWf_slotRun h fun _ _ ht => ht

@[simp] theorem Out.memWf_execSloop {c : Col} {g : Pred} {x : XReg} {ofs : BitVec 17} {s : State} (h : s.mem.wf = true) :
    Out.MemWf (execSloop c g x ofs s) := by
  refine Out.memWf_slotRun h fun k t ht => ?_
  dsimp only
  repeat' split
  all_goals exact ht

@[simp] theorem Out.memWf_execScall {c : Col} {g : Pred} {ofs : BitVec 22} {s : State} (h : s.mem.wf = true) :
    Out.MemWf (execScall c g ofs s) :=
  Out.memWf_slotRun h fun _ _ ht => ht

@[simp] theorem Out.memWf_execSret {c : Col} {g : Pred} {s : State} (h : s.mem.wf = true) : Out.MemWf (execSret c g s) :=
  Out.memWf_slotRun h fun _ _ ht => ht

@[simp] theorem State.mem_seqEnd (s : State) (b : Nat) : (s.seqEnd b).mem = s.mem := by
  unfold State.seqEnd
  dsimp only
  repeat' split
  · simp [State.mem_foldl]
  · rfl

@[simp] theorem Out.memWf_execShalt {c : Col} {g : Pred} {s : State} (h : s.mem.wf = true) : Out.MemWf (execShalt c g s) :=
  Out.memWf_slotRun h fun _ _ ht => ht

@[simp] theorem Out.memWf_execSgive {c : Col} {g : Pred} {x : Handle} {n : BitVec 4} {s : State} (h : s.mem.wf = true) :
    Out.MemWf (execSgive c g x n s) :=
  Out.memWf_slotRun h fun _ _ ht => State.wf_foldl (fun _ _ hu => by exact hu) ht

@[simp] theorem State.mem_beginWait (s : State) (b : Nat) : (s.beginWait b).mem = s.mem := rfl

@[simp] theorem State.mem_endWait (s : State) (b c : Nat) : (s.endWait b c).mem = s.mem := rfl

@[simp] theorem State.mem_stakeRange (s : State) (b c : Nat) (hs : List Nat) : (s.stakeRange b c hs).1.mem = s.mem := by
  induction hs generalizing s with
  | nil => rfl
  | cons x xs ih =>
    unfold State.stakeRange
    dsimp only
    repeat' split
    · exact ih s
    · exact ih _
    · rfl

@[simp] theorem State.mem_stakeStep (s : State) (b c first n : Nat) : (s.stakeStep b c first n).mem = s.mem := by
  unfold State.stakeStep
  dsimp only
  repeat' split
  all_goals simp

@[simp] theorem Out.memWf_execStake {c : Col} {g : Pred} {x : Handle} {n : BitVec 4} {s : State} (h : s.mem.wf = true) :
    Out.MemWf (execStake c g x n s) :=
  Out.memWf_slotRun h fun _ _ ht => by simpa using ht

@[simp] theorem Out.memWf_execSbarSync {c : Col} {g : Pred} {n : BitVec 4} {s : State} (h : s.mem.wf = true) :
    Out.MemWf (execSbarSync c g n s) := by
  refine Out.memWf_slotRun h fun k t ht => ?_
  extract_lets t0 t1
  have h1 : t1.mem.wf = true := by
    dsimp only [t1]
    split
    · exact ht
    · split <;> exact ht
  split
  all_goals exact h1

@[simp] theorem Out.memWf_execSbarArr {c : Col} {g : Pred} {n : BitVec 4} {s : State} (h : s.mem.wf = true) :
    Out.MemWf (execSbarArr c g n s) :=
  Out.memWf_slotRun h fun _ _ ht => by simpa using ht

@[simp] theorem Out.memWf_execSbarWait {c : Col} {g : Pred} {n : BitVec 4} {s : State} (h : s.mem.wf = true) :
    Out.MemWf (execSbarWait c g n s) :=
  Out.memWf_slotRun h fun _ _ ht => by dsimp only; split <;> exact ht

@[simp] theorem Out.memWf_execSstat {c : Col} {g : Pred} {d : XReg} {s : State} (h : s.mem.wf = true) :
    Out.MemWf (execSstat c g d s) := by
  refine Out.memWf_slotRun h fun k t ht => ?_
  dsimp only
  split <;> exact State.wf_foldl (fun _ _ hu => by exact hu) ht

/-! ## Memory: the functions of `Machine/Loader` -/

theorem State.wf_of_placeAll {s r : State} {fn : Nat} {xs : List (Nat × List Byte)} (h : s.mem.wf = true)
    (e : s.placeAll fn xs = some r) : r.mem.wf = true := by
  induction xs generalizing s with
  | nil => cases e; exact h
  | cons x xs ih =>
    unfold State.placeAll at e
    split at e
    · exact ih h e
    · obtain ⟨u, hu, e⟩ := Option.bind_eq_some_iff.mp e
      exact ih (State.wf_of_writeSpace h hu) e

@[simp] theorem Out.memWf_execLoaderRegister {fn : Nat} {obj : List Byte} {text seq data hdr : Nat} {s : State}
    (h : s.mem.wf = true) : Out.MemWf (execLoaderRegister fn obj text seq data hdr s) := by
  unfold execLoaderRegister
  split
  · exact h
  · split
    · exact h
    · extract_lets
      split
      · exact h
      · split
        · exact h
        · split
          · exact h
          · next e => exact (State.wf_of_placeAll h e :)

/-! ## Memory: the functions of `Machine/System` -/

@[simp] theorem Out.memWf_execMfs {g : Pred} {d : Reg} {n : SpecReg} {s : State} (h : s.mem.wf = true) :
    Out.MemWf (execMfs g d n s) := by
  refine Out.memWf_laneRun h fun t ht => ?_
  repeat' split
  all_goals simp [ht]

@[simp] theorem State.mem_setEjt (s : State) (x : Word) : (s.setEjt x).mem = s.mem := by
  unfold State.setEjt
  split <;> rfl

@[simp] theorem State.mem_setJto (s : State) (x : Word) : (s.setJto x).mem = s.mem := by
  unfold State.setJto
  split <;> rfl

@[simp] theorem Out.memWf_execMts {g : Pred} {a : Reg} {n : SpecReg} {s : State} (h : s.mem.wf = true) :
    Out.MemWf (execMts g a n s) := by
  unfold execMts
  refine Out.memWf_laneRun h fun t ht => ?_
  dsimp only
  repeat' split
  all_goals simp [ht]

@[simp] theorem State.memWf_imageTake {t : State} {wr : Bool} {l a : Nat} {rs : List (Nat × Nat)} (h : t.mem.wf = true) :
    (t.imageTake wr l a rs).MemWf := by
  unfold State.imageTake
  repeat' split
  · exact (State.memWf_translatePieces h).stop ‹_›
  · exact State.wf_of_accessStop h ‹_›
  · trivial
  · exact State.wf_trapWith h
  · trivial

@[simp] theorem State.memWf_imageRead {t : State} {m : Mask} {a : Nat} (h : t.mem.wf = true) : (t.imageRead m a).MemWf := by
  rw [State.imageRead]
  repeat' split
  · exact (State.memWf_imageTake h).stop ‹_›
  · exact State.wf_trapWith h
  · exact (State.memWf_imageTake h).stop ‹_›
  · exact State.wf_trapWith h
  · exact State.memWf_imageTake h

@[simp] theorem State.wf_useHits {t : State} {wr : Bool} {hs : List Hit} (h : t.mem.wf = true) :
    (t.useHits wr hs).mem.wf = true := by
  unfold State.useHits
  dsimp only
  repeat' split
  all_goals simp +contextual [h, State.wf_foldl]

@[simp] theorem State.mem_chargeImage (t : State) (f : Nat → Nat) (rs : List (Nat × Nat)) :
    (t.chargeImage f rs).mem = t.mem := by
  simp [State.chargeImage]

theorem Out.memWf_ctxRun {i : Instr} {g : Pred} {a : Reg} {s : State} {early : State → Mask → Dword → Option State}
    {body : State → Mask → Dword → State} (h : s.mem.wf = true)
    (he : ∀ t m x r, t.mem.wf = true → early t m x = some r → r.mem.wf = true)
    (hb : ∀ t m x, t.mem.wf = true → Out.MemWf (.next (body t m x))) : Out.MemWf (ctxRun i g a s early body) := by
  unfold ctxRun
  refine Out.memWf_laneRun h fun t ht => ?_
  dsimp only
  repeat' split
  · exact State.wf_takeTrap ht
  · simpa using ht
  · exact ht
  · exact State.wf_of_checkGlobal ht ‹_›
  · exact he _ _ _ _ ht ‹_›
  · exact hb _ _ _ ht

@[simp] theorem State.wf_ctxSave {t : State} {m : Mask} {a : Dword} (h : t.mem.wf = true) :
    (t.ctxSave m a).mem.wf = true := by
  rw [State.ctxSave]
  split
  · exact (State.memWf_imageRead h).stop ‹_›
  · extract_lets f
    split
    · exact State.wf_trapWith h
    · split
      · exact (State.memWf_imageTake h).stop ‹_›
      · rw [State.skip_mem, State.mem_foldl _ (fun _ _ => State.mem_dropOthers ..)]
        refine State.wf_spill ?_
        rw [State.mem_chargeImage, State.mem_chargeImage]
        exact State.wf_useHits (State.wf_useHits h)

@[simp] theorem State.wf_ctxLoad {t : State} {b : Nat} {m : Mask} {a : Dword} (h : t.mem.wf = true) :
    (t.ctxLoad b m a).mem.wf = true := by
  rw [State.ctxLoad]
  split
  · exact (State.memWf_imageRead h).stop ‹_›
  · extract_lets f
    split
    · simp [h]
    · exact State.wf_trapWith h

/-! ## Memory: the functions of `Machine/EvQueue` -/

@[simp] theorem State.wf_putQueue {s : State} {q : Queue} {off v : Nat} (h : s.mem.wf = true) :
    (s.putQueue q off v).mem.wf = true :=
  State.wf_commit _ _ _ _ _ h

@[simp] theorem State.mem_keepWatched (s : State) (q : Queue) : (s.keepWatched q).mem = s.mem := by
  simp [State.keepWatched, State.mem_foldl]

@[simp] theorem State.mem_armQueue (s : State) (k : Nat) : (s.armQueue k).mem = s.mem := by
  unfold State.armQueue
  split <;> simp

@[simp] theorem Out.memWf_execRegisterQueue {fn q vf : Nat} {s : State} (h : s.mem.wf = true) :
    Out.MemWf (execRegisterQueue fn q vf s) := by
  rw [execRegisterQueue]
  split
  · exact h
  · split
    · simpa using h
    · extract_lets d key c
      split
      · simpa using h
      · split <;> simpa using h

@[simp] theorem State.wf_markTable {s : State} {vf addr per : Nat} (h : s.mem.wf = true) :
    (s.markTable vf addr per).mem.wf = true := by
  rw [State.markTable]
  repeat' split
  · exact h
  · exact h
  · exact State.wf_markSpace h

@[simp] theorem State.mem_formGang (s : State) (n : Node) (bs : List Nat) : (s.formGang n bs).mem = s.mem :=
  (State.mem_foldl _ (fun _ _ => by rfl) _ _).trans rfl

@[simp] theorem State.wf_formBlock {s : State} {q : Queue} (h : s.mem.wf = true) : (s.formBlock q).mem.wf = true := by
  have hput {t : State} {q' : Queue} {w x y z vf a b : Nat} (ht : t.mem.wf = true) :
      ((((t.markTable vf a 1).markTable vf b 4).putQueue q' w x).putQueue q' y z).mem.wf = true :=
    State.wf_putQueue (State.wf_putQueue (State.wf_markTable (State.wf_markTable ht)))
  rw [State.formBlock]
  split
  · exact h
  · extract_lets b x full q1 s1 s2
    have h2 : s2.mem.wf = true := hput h
    split
    · rw [State.mem_formGang]; exact h2
    · exact h2

@[simp] theorem Out.memWf_execStampObserved {q : Nat} {s : State} (h : s.mem.wf = true) :
    Out.MemWf (execStampObserved q s) := by
  have hset {u : State} {qs : Table Queue} (hu : u.mem.wf = true) : ({ u with queues := qs } : State).mem.wf = true := hu
  simp only [execStampObserved]
  split
  · exact h
  · split
    · exact h
    · split
      · exact h
      · split
        · simpa using h
        · rw [Out.memWf_next, State.mem_armQueue]
          split
          · exact State.wf_formBlock (hset (State.wf_markSpace h))
          · exact hset (State.wf_markSpace h)

@[simp] theorem Out.memWf_execBatchTimeout {q : Nat} {s : State} (h : s.mem.wf = true) :
    Out.MemWf (execBatchTimeout q s) := by
  unfold execBatchTimeout
  repeat' split
  all_goals simp [h]

@[simp] theorem State.wf_lookAll {s : State} {k n : Nat} (h : s.mem.wf = true) : (s.lookAll k n).mem.wf = true := by
  induction n generalizing s with
  | zero => exact h
  | succ n ih =>
    unfold State.lookAll
    repeat' split
    · exact h
    · exact h
    · exact ih ((Out.memWf_execStampObserved h).next ‹_›)
    · exact h

@[simp] theorem State.wf_queueClock {s : State} {k : Nat} (h : s.mem.wf = true) : (s.queueClock k).mem.wf = true := by
  have ht {o : Out} (ho : o.MemWf) : (match o with
      | .next t => t
      | _ => s).mem.wf = true := by
    split
    · exact ho
    · exact h
  unfold State.queueClock
  extract_lets t
  have h1 : t.mem.wf = true := ht (Out.memWf_execBatchTimeout h)
  clear_value t
  split
  · exact h1
  · split
    · exact h1
    · extract_lets u
      have hu : u.mem.wf = true := State.wf_lookAll h1
      split
      · split
        · simpa using hu
        · exact hu
      · exact hu

@[simp] theorem State.wf_freeRecords {s : State} {x : Block} {aborted : Bool} (h : s.mem.wf = true) :
    (s.freeRecords x aborted).mem.wf = true := by
  unfold State.freeRecords
  split
  · exact h
  · extract_lets bump s1 s2 q1 q2 s3
    have hbump {t : State} {off : Nat} (ht : t.mem.wf = true) : (bump t off).mem.wf = true := State.wf_putQueue ht
    have h1 : s1.mem.wf = true := by
      dsimp only [s1]
      split
      · exact hbump h
      · exact h
    have h3 : s3.mem.wf = true := (hbump h1 : s2.mem.wf = true)
    split
    · exact h3
    · exact State.wf_putQueue h3

/-! ## Memory: the functions of `Machine/SeqMem` -/

@[simp] theorem State.wf_startXfer {s : State} {b : Nat} {wr : Bool} {x n a : Nat} (h : s.mem.wf = true) :
    (s.startXfer b wr x n a).mem.wf = true :=
  State.wf_foldl (fun _ _ ht => State.wf_useLoc ht) h

@[simp] theorem Out.memWf_execTld {c : Col} {g : Pred} {x : Handle} {r : XReg} {n : BitVec 3} {s : State}
    (h : s.mem.wf = true) :
    Out.MemWf (execTld c g x r n s) :=
  Out.memWf_slotRun h fun _ _ ht => State.wf_startXfer ht

@[simp] theorem Out.memWf_execTst {c : Col} {g : Pred} {x : Handle} {r : XReg} {n : BitVec 3} {s : State}
    (h : s.mem.wf = true) :
    Out.MemWf (execTst c g x r n s) :=
  Out.memWf_slotRun h fun _ _ ht => State.wf_foldl (fun _ _ hu => by exact hu) (State.wf_startXfer ht)

@[simp] theorem Out.memWf_execZbind {c : Col} {g : Pred} {z : BitVec 3} {x : XReg} {s : State} (h : s.mem.wf = true) :
    Out.MemWf (execZbind c g z x s) :=
  Out.memWf_slotRun h fun _ _ ht => by simpa using ht

@[simp] theorem Out.memWf_execZset {c : Col} {g : Pred} {z : BitVec 3} {x : XReg} {f : BitVec 4} {s : State}
    (h : s.mem.wf = true) :
    Out.MemWf (execZset c g z x f s) :=
  Out.memWf_slotRun h fun _ _ ht => by simpa using ht

@[simp] theorem Out.memWf_execZskip {c : Col} {g : Pred} {z : BitVec 3} {x : XReg} {s : State} (h : s.mem.wf = true) :
    Out.MemWf (execZskip c g z x s) :=
  Out.memWf_slotRun h fun _ _ ht => by simpa using ht

/-! ## Memory: the functions of `Machine/SeqTensor` -/

@[simp] theorem State.mem_seqStat (s : State) (b c : Nat) (rep : Report) (fdiv : Bool) (elem fmt : Nat) :
    (s.seqStat b c rep fdiv elem fmt).mem = s.mem := by
  unfold State.seqStat
  split <;> rfl

@[simp] theorem Out.memWf_tmmaRun {i : Instr} {ty : MmaTy} {c : Col} {g : Pred} {x : Handle} {a b : BitVec 6} {sh : Shape}
    {s : State} (h : s.mem.wf = true) : Out.MemWf (tmmaRun i ty c g x a b sh s) := by
  refine Out.memWf_slotRun h fun k t ht => ?_
  dsimp only
  rw [State.mem_seqStat, State.mem_foldl _ (fun _ _ => by rfl), State.count_mem, State.mem_occupy]
  exact ht

@[simp] theorem Out.memWf_execTzero {c : Col} {g : Pred} {x : Handle} {n : BitVec 4} {s : State} (h : s.mem.wf = true) :
    Out.MemWf (execTzero c g x n s) :=
  Out.memWf_slotRun h fun _ _ ht => State.wf_foldl (fun _ _ hu => by exact hu) (by simpa using ht)

@[simp] theorem Out.memWf_execTcvt {c : Col} {g : Pred} {d x : Handle} {f : Fmt} {rz sat : Bool} {s : State}
    (h : s.mem.wf = true) :
    Out.MemWf (execTcvt c g d x f rz sat s) :=
  Out.memWf_slotRun h fun _ _ ht => by simpa using ht

/-! ## Memory: the functions of `Machine/SeqVector` -/

@[simp] theorem State.wf_vDeliver {s : State} {k : Nat} {i : Instr} {c : Col} {v : VFields} {os : List (Word × Bool)}
    {res : List Word} {rep : Report} (h : s.mem.wf = true) : (s.vDeliver k i c v os res rep).mem.wf = true := by
  unfold State.vDeliver
  dsimp only
  repeat' split
  all_goals simp [h]

@[simp] theorem Out.memWf_vRun {i : Instr} {c : Col} {g : Pred} {v : VFields} {ident : Option Word} {fl : Bool}
    {f : Word → Word → Word → Word} {s : State} (h : s.mem.wf = true) :
    Out.MemWf (vRun i c g v ident fl f s) :=
  Out.memWf_slotRun h fun _ _ ht => State.wf_vDeliver ht

@[simp] theorem Out.memWf_execVred {c : Col} {g : Pred} {v : VFields} {r : VRedKind} {s : State} (h : s.mem.wf = true) :
    Out.MemWf (execVred c g v r s) :=
  Out.memWf_slotRun h fun _ _ ht => State.wf_vDeliver ht

/-! ## Memory: the functions of `Machine/EvSeq` -/

@[simp] theorem Out.memWf_execOperationLands {b id : Nat} {s : State} (h : s.mem.wf = true) :
    Out.MemWf (execOperationLands b id s) := by
  unfold execOperationLands
  repeat' split
  all_goals simp [h]

@[simp] theorem State.mem_tldRo (s : State) (b : Nat) (x : TileXfer) : (s.tldRo b x).mem = s.mem := by
  simp [State.tldRo, State.mem_foldl]

@[simp] theorem Out.memWf_execTldFill {b id : Nat} {s : State} (h : s.mem.wf = true) : Out.MemWf (execTldFill b id s) := by
  unfold execTldFill
  dsimp only
  repeat' split
  · exact h
  · exact h
  · exact h
  all_goals simp +contextual [h, State.wf_foldl]

@[simp] theorem Out.memWf_execTstTileRead {b id : Nat} {s : State} (h : s.mem.wf = true) :
    Out.MemWf (execTstTileRead b id s) := by
  unfold execTstTileRead
  repeat' split
  all_goals simp [h]

@[simp] theorem State.mem_stopSeq (s : State) (b : Nat) (forced : Bool) (ix : Option Nat) :
    (s.stopSeq b forced ix).mem = s.mem :=
  rfl

@[simp] theorem Out.memWf_execSafePointStop {b : Nat} {s : State} (h : s.mem.wf = true) :
    Out.MemWf (execSafePointStop b s) := by
  unfold execSafePointStop
  repeat' split
  all_goals simp [h]

@[simp] theorem Out.memWf_execForcedSavePoint {b : Nat} {s : State} (h : s.mem.wf = true) :
    Out.MemWf (execForcedSavePoint b s) := by
  unfold execForcedSavePoint
  dsimp only
  repeat' split
  all_goals exact h

@[simp] theorem Out.memWf_execTakeCompletes {b : Nat} {who : Party} {s : State} (h : s.mem.wf = true) :
    Out.MemWf (execTakeCompletes b who s) := by
  unfold execTakeCompletes
  repeat' split
  all_goals simp [h]

@[simp] theorem Out.memWf_execTakeLimit {b : Nat} {who : Party} {s : State} (h : s.mem.wf = true) :
    Out.MemWf (execTakeLimit b who s) := by
  unfold execTakeLimit
  dsimp only
  repeat' split
  all_goals simp [h]

@[simp] theorem Out.memWf_execIllegalBundle {b : Nat} {s : State} (h : s.mem.wf = true) :
    Out.MemWf (execIllegalBundle b s) := by
  unfold execIllegalBundle
  split <;> simp [h]

/-! ## Memory: the functions of `Machine/EvSparse` -/

@[simp] theorem State.memWf_metaWord {s : State} {id : Nat} {o : EngineOp} {n : Nat} (h : s.mem.wf = true) :
    (s.metaWord id o n).MemWf := by
  unfold State.metaWord
  dsimp only
  repeat' split
  all_goals simp [h]

@[simp] theorem Out.memWf_execSparseIndexDone {id : Nat} {s : State} (h : s.mem.wf = true) :
    Out.MemWf (execSparseIndexDone id s) := by
  unfold execSparseIndexDone
  split
  · exact h
  · dsimp only
    repeat' split
    · exact h
    · simp [h]
    · exact h
    · simp [h]
    · exact h
    · exact (State.memWf_metaWord h).wait ‹_›
    · simpa using h
    · next e _ => exact ((State.memWf_metaWord h).ok e :)
    · next e _ => exact ((State.memWf_metaWord h).ok e :)

/-! ## Memory: the functions of `Machine/Lodestar` -/

@[simp] theorem State.wf_writePlaces {s : State} {p : Site} {xs : List Loc} {bs : List Byte} (h : s.mem.wf = true) :
    (s.writePlaces p xs bs).mem.wf = true := by
  induction xs generalizing s bs with
  | nil => exact h
  | cons x xs ih => exact ih (State.wf_locWrite (State.wf_useLoc h))

@[simp] theorem State.wf_lodeFinish {s : State} {id : Nat} {o : EngineOp} (h : s.mem.wf = true) :
    (s.lodeFinish id o).mem.wf = true := by
  unfold State.lodeFinish
  dsimp only
  split <;> simp [h]

@[simp] theorem State.wf_lodeStop {s : State} {id : Nat} {o : EngineOp} {e : LStop} (h : s.mem.wf = true) :
    (s.lodeStop id o e).mem.wf = true := by
  unfold State.lodeStop
  split <;> simp [h]

@[simp] theorem State.mem_lodeFill (s : State) (p : Site) (as : List Nat) : (s.lodeFill p as).mem = s.mem := by
  simp [State.lodeFill, State.mem_foldl]

@[simp] theorem State.wf_lodeWrite {s : State} {id : Nat} {o : EngineOp} (h : s.mem.wf = true) :
    (s.lodeWrite id o).mem.wf = true := by
  unfold State.lodeWrite
  dsimp only
  repeat' split
  all_goals simp [h]

@[simp] theorem Out.memWf_execLodestarDone {id : Nat} {s : State} (h : s.mem.wf = true) :
    Out.MemWf (execLodestarDone id s) := by
  unfold execLodestarDone
  dsimp only
  repeat' split
  all_goals simp [h]

@[simp] theorem Out.memWf_execLodestarGo {g : Pred} {a : Reg} {s : State} (h : s.mem.wf = true) :
    Out.MemWf (execLodestarGo g a s) := by
  unfold execLodestarGo
  refine Out.memWf_laneRun h fun t ht => ?_
  dsimp only
  repeat' split
  all_goals simp [ht]

/-! ## Memory: the functions of `Machine/Sections` -/

@[simp] theorem State.wf_touchImage {s : State} {b : Nat} (h : s.mem.wf = true) : (s.touchImage b).mem.wf = true := by
  simp [State.touchImage, h]

@[simp] theorem State.wf_putImage {s : State} {b reason hold : Nat} {xs : List ImgSec} (h : s.mem.wf = true) :
    (s.putImage b reason hold xs).mem.wf = true := by
  simp [State.putImage, h]

/-! ## Memory: the functions of `Machine/EvEnd` -/

@[simp] theorem State.mem_freeCells (s : State) (cs : List Host.Cell) : (s.freeCells cs).2.mem = s.mem := rfl

@[simp] theorem State.wf_looseStore {s : State} {id : Nat} {x : StoreOp} (h : s.mem.wf = true) :
    (s.looseStore id x).mem.wf = true := by
  simp [State.looseStore, h]

@[simp] theorem State.wf_looseAtomic {s : State} {id : Nat} {o : LaneOp} (h : s.mem.wf = true) :
    (s.looseAtomic id o).mem.wf = true := by
  unfold State.looseAtomic
  split
  · exact h
  · refine State.wf_foldl (fun t p ht => ?_) h
    dsimp only
    split
    · exact State.wf_applyAtomic ht
    · exact ht

@[simp] theorem State.wf_loosePushes {s : State} {b : Nat} (h : s.mem.wf = true) : (s.loosePushes b).mem.wf = true := by
  simp [State.loosePushes, h]

@[simp] theorem State.wf_performWrites {s : State} {b : Nat} (h : s.mem.wf = true) : (s.performWrites b).mem.wf = true := by
  unfold State.performWrites
  dsimp only
  have ht : ((s.stores.filter fun e => e.2.blk == b && !e.2.performed).foldl (fun (t : State) e => t.performStore e.1 e.2)
      s).mem.wf = true := State.wf_foldl (fun _ _ hu => State.wf_performStore hu) h
  split
  · exact State.wf_writeCells ht
  · exact ht

@[simp] theorem State.wf_looseAll {s : State} {b : Nat} (h : s.mem.wf = true) : (s.looseAll b).mem.wf = true := by
  unfold State.looseAll
  dsimp only
  split
  · exact State.wf_loosePushes (State.wf_foldl (fun _ _ => State.wf_looseAtomic) (State.wf_foldl (fun _ _ => State.wf_looseStore) h))
  · exact State.wf_foldl (fun _ _ => State.wf_looseAtomic) (State.wf_foldl (fun _ _ => State.wf_looseStore) h)

@[simp] theorem State.wf_drainStash {s : State} {b : Nat} (h : s.mem.wf = true) : (s.drainStash b).mem.wf = true := by
  simp [State.drainStash, h]

@[simp] theorem State.mem_dropUnits (s : State) (b : Nat) : (s.dropUnits b).mem = s.mem := rfl

@[simp] theorem State.mem_endAcc (s : State) (b : Nat) : (s.endAcc b).mem = s.mem := by
  unfold State.endAcc
  dsimp only
  repeat' split
  all_goals rfl

@[simp] theorem State.mem_removeBlock (s : State) (b : Nat) : (s.removeBlock b).mem = s.mem := by
  unfold State.removeBlock
  dsimp only
  repeat' split
  all_goals rfl

@[simp] theorem State.wf_finishBlock {s : State} {b : Nat} {aborted counts : Bool} (h : s.mem.wf = true) :
    (s.finishBlock b aborted counts).mem.wf = true := by
  unfold State.finishBlock
  dsimp only
  rw [State.mem_removeBlock]
  split
  · exact State.wf_freeRecords (by simp [h])
  · simp [h]

@[simp] theorem Out.memWf_execBlockEnd {b : Nat} {s : State} (h : s.mem.wf = true) : Out.MemWf (execBlockEnd b s) := by
  unfold execBlockEnd
  split <;> simp [h]

@[simp] theorem State.wf_rejectImage {s : State} {b : Nat} (h : s.mem.wf = true) : (s.rejectImage b).mem.wf = true := by
  simp [State.rejectImage, h]

@[simp] theorem Out.memWf_execEndBlock {fn ctx : Nat} {u : ParkUnit} {s : State} (h : s.mem.wf = true) :
    Out.MemWf (execEndBlock fn ctx u s) := by
  unfold execEndBlock
  repeat' split
  all_goals simp [h]

-- Two nested matches are compared here through the read and write of a space, deeper than the default.
set_option maxRecDepth 2000 in
@[simp] theorem Out.memWf_execStop {fn vf report status : Nat} {s : State} (h : s.mem.wf = true) :
    Out.MemWf (execStop fn vf report status s) := by
  have hclear {u : State} (hu : u.mem.wf = true) : (u.modVf vf fun v => { v with frames := [] }).mem.wf = true := hu
  rw [execStop]
  split
  · exact h
  · extract_lets t fs
    have ht : t.mem.wf = true := State.wf_foldl (fun _ _ hu => State.wf_finishBlock (State.wf_performWrites hu)) h
    clear_value t
    split
    · exact ht
    · next u e =>
      extract_lets w
      have hw : w.mem.wf = true := hclear (State.wf_of_writeSpace ht e)
      split
      · exact hw
      · exact State.wf_of_writeSpace hw ‹_›

@[simp] theorem Out.memWf_execFunctionLevelReset {fn vf : Nat} {s : State} (h : s.mem.wf = true) :
    Out.MemWf (execFunctionLevelReset fn vf s) := by
  unfold execFunctionLevelReset
  dsimp only
  repeat' split
  · exact h
  · simp +contextual [h, State.wf_foldl]

/-! ## Memory: the functions of `Machine/EvAdmit` -/

@[simp] theorem State.mem_settleStats (s : State) (b f : Nat) : (s.settleStats b f).mem = s.mem := by
  unfold State.settleStats
  dsimp only
  split <;> simp

@[simp] theorem State.wf_launch {s : State} {b f : Nat} (h : s.mem.wf = true) : (s.launch b f).mem.wf = true := by
  unfold State.launch
  dsimp only
  rw [State.mem_selfInvalidate, State.mem_settleStats, State.modBlk_mem]
  have hacc {c : Bool} {t u : State} (ht : t.mem = s.mem) (hu : u.mem = s.mem) :
      (if c = true then t else u).mem.wf = true := by
    split
    · rw [ht]; exact h
    · rw [hu]; exact h
  exact State.wf_putImage (hacc (by simp) rfl)

@[simp] theorem State.mem_reclaim (s : State) (b f : Nat) : (s.reclaim b f).mem = s.mem := by
  unfold State.reclaim
  dsimp only
  split <;> simp

@[simp] theorem State.mem_placeComet (s : State) (b c0 : Nat) (y : Comet) : (s.placeComet b c0 y).mem = s.mem := by
  unfold State.placeComet
  dsimp only
  split <;> simp

@[simp] theorem State.mem_serveEngine (s : State) (b : Nat) (o : EngineOp) (mended : Bool) :
    (s.serveEngine b o mended).2.mem = s.mem := by
  unfold State.serveEngine
  dsimp only
  repeat' split
  all_goals rfl

@[simp] theorem State.mem_resumeUnit (s : State) (b : Nat) (u : ParkUnit) : (s.resumeUnit b u).mem = s.mem := by
  unfold State.resumeUnit
  dsimp only
  repeat' split
  all_goals simp

@[simp] theorem State.mem_resumeSaved (s : State) (b : Nat) (place : Nat → Nat) (us : List ParkUnit) :
    (s.resumeSaved b place us).mem = s.mem := by
  refine State.mem_foldl _ (fun t u => ?_) _ _
  split <;> simp

@[simp] theorem State.mem_placeComets (s : State) (b : Nat) (cs : List (Nat × Comet)) :
    (s.placeComets b cs).1.mem = s.mem := by
  induction cs generalizing s with
  | nil => rfl
  | cons c cs ih => exact (ih _).trans (State.mem_placeComet ..)

@[simp] theorem State.mem_restoreBars (s : State) (b : Nat) (d : SectionData) : (s.restoreBars b d).mem = s.mem := by
  unfold State.restoreBars
  dsimp only
  repeat' split
  all_goals rfl

@[simp] theorem State.wf_restore {s : State} {b f : Nat} (h : s.mem.wf = true) : (s.restore b f).mem.wf = true := by
  unfold State.restore
  dsimp only
  split
  · exact State.wf_rejectImage h
  · rw [State.mem_selfInvalidate, State.mem_reclaim, State.mem_settleStats, State.mem_resumeSaved, State.mem_placeComets,
      State.mem_restoreBars]
    dsimp only
    split <;> simp [h]

@[simp] theorem State.wf_enter {s : State} {b f : Nat} (h : s.mem.wf = true) : (s.enter b f).mem.wf = true := by
  unfold State.enter
  split <;> simp [h]

@[simp] theorem State.wf_spillHeld {s : State} {f : Nat} (h : s.mem.wf = true) : (s.spillHeld f).mem.wf = true := by
  have htouch {c : Bool} {b : Nat} : (if c = true then s.touchImage b else s).mem.wf = true := by
    split
    · exact State.wf_touchImage h
    · exact h
  unfold State.spillHeld
  split
  · simpa using h
  · dsimp only
    split
    · exact State.wf_spill (State.wf_touchCtx (State.wf_touchCtx htouch))
    · exact State.wf_rejectImage (by simpa using htouch)

theorem State.wf_of_admitPlain {s : State} {b : Nat} {fs : List Nat} {r : State} (h : s.mem.wf = true)
    (e : s.admitPlain b fs = some r) : r.mem.wf = true := by
  unfold State.admitPlain at e
  dsimp only at e
  repeat' split at e
  all_goals cases e
  all_goals simp [h]

theorem State.wf_of_admitTo {s r : State} {b : Nat} {cores : List Nat} (h : s.mem.wf = true)
    (e : s.admitTo b cores = some r) : r.mem.wf = true := by
  unfold State.admitTo at e
  dsimp only at e
  repeat' split at e
  · exact State.wf_of_admitPlain h e
  · cases e; exact State.wf_enter h
  · exact State.wf_of_admitPlain (State.wf_spillHeld h) e
  · cases e; exact State.wf_spillHeld h
  · cases e

theorem State.wf_of_admitAll {s r : State} {u : Option Nat} {used bs : List Nat} (h : s.mem.wf = true)
    (e : s.admitAll u used bs = some r) : r.mem.wf = true := by
  induction bs generalizing s used with
  | nil => cases e; exact h
  | cons b bs ih =>
    unfold State.admitAll at e
    dsimp only at e
    split at e
    · cases e
    · exact ih (State.wf_of_admitTo h ‹_›) e

theorem State.wf_of_admitCluster {s r : State} {ms : List Nat} (h : s.mem.wf = true) (e : s.admitCluster ms = some r) :
    r.mem.wf = true := by
  obtain ⟨u, -, e⟩ := List.exists_of_findSome?_eq_some e
  exact State.wf_of_admitAll h e

theorem State.wf_of_tryEntry {s r : State} {b : Nat} (h : s.mem.wf = true) (e : s.tryEntry b = some r) : r.mem.wf = true := by
  unfold State.tryEntry at e
  dsimp only at e
  repeat' split at e
  · exact State.wf_of_admitAll h e
  · exact State.wf_of_admitCluster h e
  · exact State.wf_of_admitAll h e

@[simp] theorem State.mem_runVf (s : State) (p : Nat) (v : Option Nat) : (s.runVf p v).mem = s.mem := rfl

@[simp] theorem State.mem_settleVf (s : State) (p : Nat) : (s.settleVf p).mem = s.mem := by
  unfold State.settleVf
  dsimp only
  repeat' split
  all_goals rfl

@[simp] theorem State.mem_energyClock (s : State) : s.energyClock.mem = s.mem := State.mem_foldl _ (fun _ _ => by rfl) _ _

@[simp] theorem State.wf_admitStep {s : State} {d b : Nat} (h : s.mem.wf = true) : (s.admitStep d b).mem.wf = true := by
  unfold State.admitStep
  extract_lets
  split
  · exact h
  · split
    · exact h
    · next e => exact (State.wf_of_tryEntry h e :)

@[simp] theorem State.mem_dropReserves (s : State) : s.dropReserves.mem = s.mem := rfl

@[simp] theorem Out.memWf_execBlockAdmission {d : Nat} {s : State} (h : s.mem.wf = true) :
    Out.MemWf (execBlockAdmission d s) := by
  unfold execBlockAdmission
  split
  · exact h
  · refine State.wf_foldl (fun u b hu => State.wf_admitStep hu) ?_
    rw [State.mem_dropReserves, State.mem_foldl _ (fun _ _ => State.mem_settleVf ..)]
    exact h

@[simp] theorem Out.memWf_execReservation {d : Nat} {s : State} (h : s.mem.wf = true) : Out.MemWf (execReservation d s) := by
  unfold execReservation
  repeat' split
  all_goals exact h

@[simp] theorem State.mem_wantPreempt (s : State) (b code : Nat) : (s.wantPreempt b code).mem = s.mem :=
  State.mem_foldl _ (fun _ _ => by rfl) _ _

@[simp] theorem Out.memWf_execQuantumPreemption {d : Nat} {s : State} (h : s.mem.wf = true) :
    Out.MemWf (execQuantumPreemption d s) := by
  unfold execQuantumPreemption
  dsimp only
  repeat' split
  all_goals simp [h]

@[simp] theorem Out.memWf_execVfSliceEnd {p : Nat} {s : State} (h : s.mem.wf = true) : Out.MemWf (execVfSliceEnd p s) := by
  unfold execVfSliceEnd
  dsimp only
  repeat' split
  · exact h
  · exact h
  · exact h
  · simp +contextual [h, State.wf_foldl]

/-! ## Memory: the functions of `Machine/EvFetch` -/

@[simp] theorem Out.memWf_execIllegalInstruction {w : Word} {s : State} (h : s.mem.wf = true) :
    Out.MemWf (execIllegalInstruction w s) := by
  unfold execIllegalInstruction
  split <;> simp [h]

@[simp] theorem Out.memWf_execInstructionFetchFault {cause : Nat} {addr : Dword} {s : State} (h : s.mem.wf = true) :
    Out.MemWf (execInstructionFetchFault cause addr s) := by
  unfold execInstructionFetchFault
  repeat' split
  all_goals simp [h]

/-! ## Memory: the functions of `Machine/EvMigrate` -/

@[simp] theorem State.wf_putStat {s : State} {m : Migr} {v : Nat} (h : s.mem.wf = true) : (s.putStat m v).mem.wf = true := by
  unfold State.putStat
  cases e : s.writeSpace 0 m.stat (leBytes 8 v) with
  | none => exact h
  | some t => exact State.wf_of_writeSpace h e

@[simp] theorem State.wf_startMigr {s : State} {id : Nat} {m : Migr} (h : s.mem.wf = true) :
    (s.startMigr id m).mem.wf = true := by
  unfold State.startMigr
  dsimp only
  split <;> simp [h]

@[simp] theorem State.wf_endMigr {s : State} {id : Nat} {m : Migr} {v : Nat} (h : s.mem.wf = true) :
    (s.endMigr id m v).mem.wf = true := by
  simp [State.endMigr, h]

-- Two nested matches are compared here through the read and write of a space, deeper than the default.
set_option maxRecDepth 2000 in
@[simp] theorem Out.memWf_migrateRun {fn desc : Nat} {bias : Bool} {s : State} (h : s.mem.wf = true) :
    Out.MemWf (migrateRun fn desc bias s) := by
  rw [migrateRun]
  split
  · exact h
  · split
    · exact h
    · split
      · exact h
      · extract_lets m t
        have ht : t.mem.wf = true := h
        split
        · exact ht
        · exact State.wf_startMigr ht

@[simp] theorem State.wf_copyLine {s : State} {m : Migr} {line : Nat} (h : s.mem.wf = true) :
    (s.copyLine m line).mem.wf = true := by
  unfold State.copyLine
  dsimp only
  split
  · simpa using h
  · rw [State.mem_touchLine]; exact State.wf_writeHome _ _ h

@[simp] theorem State.wf_startWaiting {s : State} (h : s.mem.wf = true) : s.startWaiting.mem.wf = true := by
  unfold State.startWaiting
  split <;> simp [h]

@[simp] theorem State.wf_migrateClock {s : State} (h : s.mem.wf = true) : s.migrateClock.mem.wf = true := by
  refine State.wf_foldl (fun t e ht => ?_) (State.wf_startWaiting h)
  split
  · exact ht
  · dsimp only
    split
    · exact ht
    · exact State.wf_copyLine ht

@[simp] theorem Out.memWf_execMigrationPassEnd {id : Nat} {s : State} (h : s.mem.wf = true) :
    Out.MemWf (execMigrationPassEnd id s) := by
  unfold execMigrationPassEnd
  dsimp only
  repeat' split
  all_goals simp [h]

@[simp] theorem State.wf_writeLeaves {s : State} {m : Migr} (h : s.mem.wf = true) : (s.writeLeaves m).mem.wf = true :=
  State.wf_foldl (fun _ _ => State.wf_writeHome _ _) h

@[simp] theorem Out.memWf_execMigrationComplete {id : Nat} {s : State} (h : s.mem.wf = true) :
    Out.MemWf (execMigrationComplete id s) := by
  unfold execMigrationComplete
  split
  · exact h
  · dsimp only
    split
    · exact h
    · refine State.wf_endMigr ?_
      rw [State.mem_invalidate]
      dsimp only
      split <;> exact State.wf_writeLeaves (State.wf_foldl (fun _ _ => State.wf_copyLine) (by simpa using h))

/-! ## Memory: the functions of `Machine/EvSplit` -/

@[simp] theorem Out.memWf_execSplitMerge {b g i j : Nat} {s : State} (h : s.mem.wf = true) :
    Out.MemWf (execSplitMerge b g i j s) := by
  unfold execSplitMerge
  split <;> simp [h]

@[simp] theorem Out.memWf_execEjectedLaneStart {c : Nat} {s : State} (h : s.mem.wf = true) :
    Out.MemWf (execEjectedLaneStart c s) := by
  unfold execEjectedLaneStart
  dsimp only
  split <;> simp [h]

@[simp] theorem State.mem_copyRegsBack (s : State) (x : Comet) : (s.copyRegsBack x).mem = s.mem := rfl

@[simp] theorem State.mem_returnLane (s : State) (c : Nat) : (s.returnLane c).mem = s.mem := rfl

@[simp] theorem Out.memWf_execCopyBack {c : Nat} {s : State} (h : s.mem.wf = true) : Out.MemWf (execCopyBack c s) := by
  unfold execCopyBack
  dsimp only
  split <;> simp [h]

@[simp] theorem Out.memWf_execJoinTimeout {b g k : Nat} {s : State} (h : s.mem.wf = true) :
    Out.MemWf (execJoinTimeout b g k s) := by
  unfold execJoinTimeout
  dsimp only
  repeat' split
  all_goals exact h

/-! ## Memory: the functions of `Machine/EvPreempt` -/

-- Two nested matches are compared here through the read and write of a space, deeper than the default.
set_option maxRecDepth 2000 in
@[simp] theorem State.wf_markList {s : State} {vf : Nat} {n : Node} {i : Nat} (h : s.mem.wf = true) :
    (s.markList vf n i).mem.wf = true := by
  have ht : (s.markSpace vf (n.lives + 4 + 4 * i) 4).mem.wf = true := State.wf_markSpace h
  rw [State.markList]
  split
  · exact ht
  · split
    · exact ht
    · exact State.wf_markSpace ht

@[simp] theorem State.mem_savePorts (s : State) (b : Nat) (ls : Option (List LiveRange)) :
    (s.savePorts b ls).mem = s.mem := by
  refine State.mem_foldl _ (fun t e => ?_) _ _
  dsimp only
  repeat' split
  all_goals simp

@[simp] theorem State.wf_spillOthers {s : State} {b f : Nat} (h : s.mem.wf = true) : (s.spillOthers b f).mem.wf = true := by
  unfold State.spillOthers
  dsimp only
  split <;> simp [h]

@[simp] theorem State.wf_saveBank {s0 : State} {b : Nat} {ls : Option (List LiveRange)} (h : s0.mem.wf = true) :
    (s0.saveBank b ls).2.2.mem.wf = true := by
  unfold State.saveBank
  dsimp only
  repeat' split
  all_goals simp [h]

@[simp] theorem State.mem_putOut (s : State) (b code : Nat) (due : Bool) (d : Table SectionData) :
    (s.putOut b code due d).mem = s.mem :=
  rfl

@[simp] theorem State.wf_markSave {s : State} {b : Nat} (h : s.mem.wf = true) : (s.markSave b).mem.wf = true := by
  unfold State.markSave
  repeat' split
  all_goals simp [h]

@[simp] theorem State.wf_saveBlock {s : State} {b : Nat} (h : s.mem.wf = true) : (s.saveBlock b).mem.wf = true := by
  unfold State.saveBlock
  extract_lets x code ls due s1 s2 r s3 s4
  have h1 : s1.mem.wf = true := by
    dsimp only [s1]
    rw [State.mem_savePorts]
    exact State.wf_drainStash (by simp [h])
  clear_value s1 ls
  have h2 : s2.mem.wf = true := by
    dsimp only [s2]
    split
    · exact h1
    · exact h1
  clear_value s2
  have h3 : s3.mem.wf = true := by
    dsimp only [s3]
    rw [State.mem_putOut]
    exact State.wf_putImage (State.wf_saveBank h2)
  clear_value s3
  have h4 : s4.mem.wf = true := by
    dsimp only [s4]
    split
    · exact State.wf_spillHeld h3
    · exact h3
  split
  · exact State.wf_finishBlock h4
  · exact h4

@[simp] theorem Out.memWf_execPreemption {b : Nat} {s : State} (h : s.mem.wf = true) : Out.MemWf (execPreemption b s) := by
  unfold execPreemption
  dsimp only
  repeat' split
  · simp [h]
  · exact h
  · simp +contextual [h, State.wf_foldl]
  · exact h

@[simp] theorem Out.memWf_execParkLimit {b : Nat} {s : State} (h : s.mem.wf = true) : Out.MemWf (execParkLimit b s) := by
  unfold execParkLimit
  dsimp only
  split <;> simp [h]

@[simp] theorem Out.memWf_execAllBlockedSwapOut {b : Nat} {s : State} (h : s.mem.wf = true) :
    Out.MemWf (execAllBlockedSwapOut b s) := by
  unfold execAllBlockedSwapOut
  split <;> simp [h]

@[simp] theorem State.wf_idleClock {s : State} {b : Nat} (h : s.mem.wf = true) : (s.idleClock b).mem.wf = true := by
  unfold State.idleClock
  split
  · exact h
  · extract_lets n t
    have ht : t.mem.wf = true := h
    split
    · split
      · exact (Out.memWf_execAllBlockedSwapOut ht).next ‹_›
      · exact ht
    · exact ht

@[simp] theorem State.wf_wantImage {s : State} {b code : Nat} (h : s.mem.wf = true) : (s.wantImage b code).mem.wf = true := by
  unfold State.wantImage
  repeat' split
  all_goals simp [h]

@[simp] theorem Out.memWf_execDistributorWaitcPoll {b : Nat} {s : State} (h : s.mem.wf = true) :
    Out.MemWf (execDistributorWaitcPoll b s) := by
  unfold execDistributorWaitcPoll
  dsimp only
  repeat' split
  all_goals exact h

@[simp] theorem Out.memWf_execParkRecord {p : Nat} {s : State} (h : s.mem.wf = true) : Out.MemWf (execParkRecord p s) := by
  rw [execParkRecord]
  split
  · exact h
  · split
    · exact h
    · split
      · exact h
      · next e => exact (State.wf_of_writeSpace h e :)

@[simp] theorem State.mem_resumeBlock (s : State) (b : Nat) (u : ParkUnit) : (s.resumeBlock b u).mem = s.mem := by
  unfold State.resumeBlock
  dsimp only
  split <;> simp

@[simp] theorem Out.memWf_execResume {fn ctx : Nat} {u : ParkUnit} {s : State} (h : s.mem.wf = true) :
    Out.MemWf (execResume fn ctx u s) := by
  unfold execResume
  split <;> simp [h]

@[simp] theorem Out.memWf_execAccFirstUseService {b : Nat} {s : State} (h : s.mem.wf = true) :
    Out.MemWf (execAccFirstUseService b s) := by
  have hheld {c : Bool} {f : Nat} : (if c = true then s.spillHeld f else s).mem.wf = true := by
    split
    · exact State.wf_spillHeld h
    · exact h
  unfold execAccFirstUseService
  split
  · exact h
  · split
    · simpa using h
    · split
      · exact h
      · extract_lets f s1 x fn s2
        have h1 : s1.mem.wf = true := hheld
        split
        · exact h1
        · split
          · exact State.wf_rejectImage h1
          · simpa [s2] using State.wf_touchImage h1

/-! ## Memory: the functions of `Machine/Integer` -/

@[simp] theorem Out.memWf_intRun {i : Instr} {g : Pred} {w sx : Bool} {d a : Reg} {src : Src}
    {f : Nat → Nat → Nat → Nat → Nat} {s : State} (h : s.mem.wf = true) :
    Out.MemWf (intRun i g w sx d a src f s) :=
  Out.memWf_laneSimple h fun t => by simp

@[simp] theorem Out.memWf_shiftRun {i : Instr} {g : Pred} {w : Bool} {d a : Reg} {src : Src} {f : Nat → Nat → Nat → Nat → Nat}
    {s : State} (h : s.mem.wf = true) :
    Out.MemWf (shiftRun i g w d a src f s) :=
  Out.memWf_laneSimple h fun t => by simp

@[simp] theorem mem_iaddcEffect (g : Pred) (w : Bool) (d a : Reg) (src : Src) (s : State) :
    (iaddcEffect g w d a src s).mem = s.mem := by
  unfold iaddcEffect
  dsimp only
  repeat' split
  all_goals simp

/-! ## Memory: the functions of `Machine/Dispatch` -/

/-- One arm per shape: the instructions of a shared run together, every other one by the lemma about its own effect. -/
theorem Out.memWf_exec {i : Instr} {s : State} (h : s.mem.wf = true) : Out.MemWf (exec i s) := by
  cases i
  all_goals unfold exec
  case iadd | isub | imlo | imhiS | imhiZ | imac | idivS | idivZ | iabs | ineg | iminS | iminZ | imaxS | imaxZ | and |
      or | xor | andn | not | clz | popc | brev | mov =>
    exact Out.memWf_intRun h
  case iaddc | lea | moviV | movhiV | icmp | sel | pand | por | pxor | pnot | pdot | pwiden | pnarrow | fcmp | cvt |
      eget =>
    exact Out.memWf_laneSimple h fun _ => by simp
  case shl | shr | sar | rol | bfxS | bfxZ | bfi =>
    exact Out.memWf_shiftRun h
  case padd | psub | pmul | pmin | pmax | pcmpEq | pcmpLt =>
    exact Out.memWf_packedRun h
  case fadd | fsub | fmul | ffma | fmin | fmax | fclass | pfmaF16 | pfmaBf16 =>
    exact Out.memWf_floatRun h
  case fexp2 | flog2 | frcp | frsq | fsqrt | fsinpi | fcospi | ftanh | fsigm | fgelu | fsilu | ferf =>
    exact Out.memWf_specialRun h
  case qscale | qpack | qunpk | cvtFw =>
    exact Out.memWf_fwRun h fun _ _ _ _ => by simp
  case voteAll | voteAny | voteBal | voteEq | shflIdx | shflUp | shflDn | shflXor | redux | scanInc | scanExc =>
    exact Out.memWf_collectiveRun h fun _ _ => by simp
  case bra => exact Out.memWf_execBra h
  case braEj => exact Out.memWf_execBraEj h
  case call => exact Out.memWf_execCall h
  case brx => exact Out.memWf_execBrx h
  case callx => exact Out.memWf_execCallx h
  case ret => exact Out.memWf_execRet h
  case join => exact Out.memWf_execJoin h
  case exit => exact Out.memWf_execExit h
  case eret => exact Out.memWf_execEret h
  case live => exact Out.memWf_execLive h
  case yield => exact Out.memWf_execYield h
  case trap => exact Out.memWf_execTrap h
  case ld | ldW | ldD | ldQ =>
    exact Out.memWf_loadRun h
  case st | stW | stD | stQ =>
    exact Out.memWf_storeRun h
  case lds | ldsW =>
    exact Out.memWf_ldsRun h
  case sts | stsW =>
    exact Out.memWf_stsRun h
  case smap => exact Out.memWf_execSmap h
  case pref => exact Out.memWf_execPref h
  case fenceAcq => exact Out.memWf_execFenceAcq h
  case fenceRel => exact Out.memWf_execFenceRel h
  case fenceAr => exact Out.memWf_execFenceAr h
  case atomAdd | atomMinS | atomMinZ | atomMaxS | atomMaxZ | atomAnd | atomOr | atomXor | atomExch | incw | decw |
      atomAddb | atomCasW | atomCasD | atomCasQ =>
    exact Out.memWf_atomRun h
  case waitc => exact Out.memWf_execWaitc h
  case give => exact Out.memWf_execGive h
  case take => exact Out.memWf_execTake h
  case barSync | barArr | barWait =>
    exact Out.memWf_barRun h
  case rwait => exact Out.memWf_execRwait h
  case rdone => exact Out.memWf_execRdone h
  case eset => exact Out.memWf_execEset h
  case ecmdGo | sparseIndexGo | copy =>
    exact Out.memWf_goRun h fun _ _ => by simp
  case ecmdClear | sparseIndexClear | lodestarClear =>
    exact Out.memWf_clearRun h
  case lodestarGo => exact Out.memWf_execLodestarGo h
  case ewait => exact Out.memWf_execEwait h
  case cbarSync | cbarArr | cbarWait =>
    exact Out.memWf_cbarRun h
  case dbar => exact Out.memWf_execDbar h
  case emit => exact Out.memWf_execEmit h
  case mfs => exact Out.memWf_execMfs h
  case mts => exact Out.memWf_execMts h
  case ctxsv =>
    refine Out.memWf_ctxRun h (fun _ _ _ _ ht e => ?_) fun _ _ _ ht =>
      Out.memWf_next.mpr (State.wf_ctxSave ht)
    obtain ⟨-, ⟨⟩⟩ := Option.ite_none_left_eq_some.mp e
    simpa using ht
  case ctxld =>
    refine Out.memWf_ctxRun h (fun _ _ _ _ ht e => ?_) fun _ _ _ ht =>
      Out.memWf_next.mpr (State.wf_ctxLoad ht)
    obtain ⟨-, ⟨⟩⟩ := Option.ite_none_right_eq_some.mp e
    exact State.wf_trapWith ht
  case nop => exact Out.memWf_execNop h
  case sadd | ssub | smul | sand | sor | sshl =>
    exact Out.memWf_scalarRun h
  case sli => exact Out.memWf_execSli h
  case scmp => exact Out.memWf_execScmp h
  case sbra => exact Out.memWf_execSbra h
  case sloop => exact Out.memWf_execSloop h
  case scall => exact Out.memWf_execScall h
  case sret => exact Out.memWf_execSret h
  case sgive => exact Out.memWf_execSgive h
  case stake => exact Out.memWf_execStake h
  case sbarSync => exact Out.memWf_execSbarSync h
  case sbarArr => exact Out.memWf_execSbarArr h
  case sbarWait => exact Out.memWf_execSbarWait h
  case sstat => exact Out.memWf_execSstat h
  case shalt => exact Out.memWf_execShalt h
  case tmmaBf16 | tmmaF16 | tmmaE4M3 | tmmaE5M2 | tmmaQf4 | tmmaF32 =>
    exact Out.memWf_tmmaRun h
  case tzero => exact Out.memWf_execTzero h
  case tcvt => exact Out.memWf_execTcvt h
  case vadd | vmul | vfma | vmax | vmin | vrelu | vsel | vscl =>
    exact Out.memWf_vRun h
  case vred => exact Out.memWf_execVred h
  case tld => exact Out.memWf_execTld h
  case tst => exact Out.memWf_execTst h
  case zbind => exact Out.memWf_execZbind h
  case zset => exact Out.memWf_execZset h
  case zskip => exact Out.memWf_execZskip h
  case fltLdf | fltBz | fltBnz | fltJmp =>
    exact Out.memWf_filterStep h
  case fltLdi | fltMovk | fltAddi | fltShri | fltMov | fltAdd | fltSub | fltAnd | fltOr | fltShl | fltShr | fltCeq |
      fltCltu | fltClts =>
    exact Out.memWf_filterWrite h
  case fltHist | fltSku | fltCadd =>
    exact Out.memWf_filterUpdate h
  case fltTrig | fltEnd =>
    exact Out.memWf_filterRun fun _ _ => by simp [h]
  case splitMerge => exact Out.memWf_execSplitMerge h
  case ejectedLaneStart => exact Out.memWf_execEjectedLaneStart h
  case copyBack => exact Out.memWf_execCopyBack h
  case joinTimeout => exact Out.memWf_execJoinTimeout h
  case loadDataLands => exact Out.memWf_execLoadDataLands h
  case ownershipRegistration => exact Out.memWf_execOwnershipRegistration h
  case registrationAck => exact Out.memWf_execRegistrationAck h
  case homeRead => exact Out.memWf_execHomeRead h
  case homeAtomic => exact Out.memWf_execHomeAtomic h
  case ownerForward => exact Out.memWf_execOwnerForward h
  case revocation => exact Out.memWf_execRevocation h
  case waitcReevaluate => exact Out.memWf_execWaitcReevaluate h
  case waitcPoll => exact Out.memWf_execWaitcPoll h
  case emitWake => exact Out.memWf_execEmitWake h
  case stashWriteBack => exact Out.memWf_execStashWriteBack h
  case takeCompletes => exact Out.memWf_execTakeCompletes h
  case takeLimit => exact Out.memWf_execTakeLimit h
  case operationLands => exact Out.memWf_execOperationLands h
  case tldFill => exact Out.memWf_execTldFill h
  case tstTileRead => exact Out.memWf_execTstTileRead h
  case streamReadAhead => exact Out.memWf_execStreamReadAhead h
  case writePortEntryWrite => exact Out.memWf_execWritePortEntryWrite h
  case safePointStop => exact Out.memWf_execSafePointStop h
  case forcedSavePoint => exact Out.memWf_execForcedSavePoint h
  case copySlotClaim => exact Out.memWf_execCopySlotClaim h
  case copySlotFilled => exact Out.memWf_execCopySlotFilled h
  case copyOperationDone => exact Out.memWf_execCopyOperationDone h
  case sparseIndexDone => exact Out.memWf_execSparseIndexDone h
  case lodestarDone => exact Out.memWf_execLodestarDone h
  case cbarHalfMessage => exact Out.memWf_execCbarHalfMessage h
  case dbarWindow => exact Out.memWf_execDbarWindow h
  case dbarCompletionMessage => exact Out.memWf_execDbarCompletionMessage h
  case dbarRelease => exact Out.memWf_execDbarRelease h
  case pageWalkStart => exact Out.memWf_execPageWalkStart h
  case pageWalkEnd => exact Out.memWf_execPageWalkEnd h
  case hintedRequestForward => exact Out.memWf_execHintedRequestForward h
  case translationInvalidation => exact Out.memWf_execTranslationInvalidation h
  case migrate | migrateBias =>
    exact Out.memWf_migrateRun h
  case migrationPassEnd => exact Out.memWf_execMigrationPassEnd h
  case migrationComplete => exact Out.memWf_execMigrationComplete h
  case loaderRegister => exact Out.memWf_execLoaderRegister h
  case registerQueue => exact Out.memWf_execRegisterQueue h
  case stampObserved => exact Out.memWf_execStampObserved h
  case batchTimeout => exact Out.memWf_execBatchTimeout h
  case blockAdmission => exact Out.memWf_execBlockAdmission h
  case reservation => exact Out.memWf_execReservation h
  case quantumPreemption => exact Out.memWf_execQuantumPreemption h
  case preemption => exact Out.memWf_execPreemption h
  case accFirstUseService => exact Out.memWf_execAccFirstUseService h
  case parkRecord => exact Out.memWf_execParkRecord h
  case parkLimit => exact Out.memWf_execParkLimit h
  case allBlockedSwapOut => exact Out.memWf_execAllBlockedSwapOut h
  case distributorWaitcPoll => exact Out.memWf_execDistributorWaitcPoll h
  case resume => exact Out.memWf_execResume h
  case endBlock => exact Out.memWf_execEndBlock h
  case blockEnd => exact Out.memWf_execBlockEnd h
  case stop => exact Out.memWf_execStop h
  case functionLevelReset => exact Out.memWf_execFunctionLevelReset h
  case vfSliceEnd => exact Out.memWf_execVfSliceEnd h
  case energyWindowEnd => exact Out.memWf_execEnergyWindowEnd h
  case arbiterWindow => exact Out.memWf_execArbiterWindow h
  case eventDispatch => exact Out.memWf_execEventDispatch h
  case counterSample => exact Out.memWf_execCounterSample h
  case budgetWindow => exact Out.memWf_execBudgetWindow h
  case linkerrEmit => exact Out.memWf_execLinkerrEmit h
  case attach => exact Out.memWf_execAttach h
  case detach => exact Out.memWf_execDetach h
  case read => exact Out.memWf_execRead h
  case readclr => exact Out.memWf_execReadclr h
  case triggerRearm => exact Out.memWf_execTriggerRearm h
  case afterglowRead => exact Out.memWf_execAfterglowRead h
  case mctlWrite => exact Out.memWf_execMctlWrite h
  case cmodeWrite => exact Out.memWf_execCmodeWrite h
  case fownWrite => exact Out.memWf_execFownWrite h
  case cmerrWrite => exact Out.memWf_execCmerrWrite h
  case floorWrite => exact Out.memWf_execFloorWrite h
  case pctlWrite => exact Out.memWf_execPctlWrite h
  case registerWrite => exact Out.memWf_execRegisterWrite h
  case coldReset => exact Out.memWf_execColdReset
  case warmReset => exact Out.memWf_execWarmReset h
  case firmwareImage => exact Out.memWf_execFirmwareImage h
  case flitReceive => exact Out.memWf_execFlitReceive h
  case flitAcknowledge => exact Out.memWf_execFlitAcknowledge h
  case replayRequest => exact Out.memWf_execReplayRequest h
  case portRetrainEnd => exact Out.memWf_execPortRetrainEnd h
  case remoteRequest => exact Out.memWf_execRemoteRequest h
  case hostCompletion => exact Out.memWf_execHostCompletion h
  case illegalInstruction => exact Out.memWf_execIllegalInstruction h
  case illegalBundle => exact Out.memWf_execIllegalBundle h
  case instructionFetchFault => exact Out.memWf_execInstructionFetchFault h
  case hostMemoryRequest => exact Out.memWf_execHostMemoryRequest h
  case sharedStorePerformed => exact Out.memWf_execSharedStorePerformed h
  case cbarReleaseMessage => exact Out.memWf_execCbarReleaseMessage h
  case dieLinkCrcRetry => exact Out.memWf_execDieLinkCrcRetry h
  case pqheadWrite => exact Out.memWf_execPqheadWrite h
  case moviS | movhiS =>
    exact Out.memWf_laneSimple h fun _ => by split <;> simp

/-! ## Memory: the functions of `Machine/SeqTurn` -/

@[simp] theorem State.wf_runInstr {i : Instr} {s : State} (h : s.mem.wf = true) : (runInstr i s).mem.wf = true := by
  unfold runInstr
  split
  · exact (Out.memWf_exec h).next ‹_›
  · exact h

@[simp] theorem State.memWf_fetchBundle {s : State} {b : Nat} (h : s.mem.wf = true) : (s.fetchBundle b).MemWf := by
  unfold State.fetchBundle
  dsimp only
  repeat' split
  all_goals simp [h]

theorem SChk.memWf_of_firstStop {f : Instr → SChk} (hf : ∀ i, (f i).MemWf) {is : List Instr} {r : Instr × SChk}
    (e : firstStop f is = some r) : r.2.MemWf := by
  induction is with
  | nil => cases e
  | cons i is ih =>
    unfold firstStop at e
    split at e
    · exact ih e
    · cases e; exact hf i

theorem State.memWf_of_candidate {s : State} {b : Nat} {is : List Instr} {r : Instr × SChk} (h : s.mem.wf = true)
    (e : s.candidate b is = some r) :
    r.2.MemWf :=
  SChk.memWf_of_firstStop (fun i => SChk.memWf_and (State.memWf_slotCheck h) (by split <;> simp)) e

theorem State.memWf_of_atIssue {s : State} {b : Nat} {is : List Instr} {r : Instr × SChk} (h : s.mem.wf = true)
    (e : s.atIssue b is = some r) : r.2.MemWf := by
  have hmem {p : Instr × SChk → Bool} {r : Instr × SChk} (e : (is.map fun i => (i, s.lateCheck b i)).find? p = some r) :
      r.2.MemWf := by
    obtain ⟨i, -, rfl⟩ := List.mem_map.mp (List.mem_of_find?_eq_some e)
    exact State.memWf_lateCheck h
  unfold State.atIssue at e
  dsimp only at e
  split at e
  · next e' => cases e; exact hmem e'
  · exact hmem e

@[simp] theorem State.wf_runWaits {s : State} {b : Nat} {is : List Instr} (h : s.mem.wf = true) :
    (s.runWaits b is).mem.wf = true := by
  refine State.wf_foldl (fun t i ht => ?_) h
  split
  · split
    · exact ht
    · exact State.wf_runInstr ht
  · exact ht

@[simp] theorem State.mem_bundleFetched (s : State) (b n : Nat) : (s.bundleFetched b n).mem = s.mem := by
  simp [State.bundleFetched]

@[simp] theorem State.wf_issueBundle {s : State} {b : Nat} {d : Bundle} {is : List Instr} (h : s.mem.wf = true) :
    (s.issueBundle b d is).mem.wf = true := by
  unfold State.issueBundle
  dsimp only
  rw [State.mem_seqEnd, State.mem_settleArrivals, State.count_mem, State.mem_modSeq]
  exact State.wf_foldl (fun _ _ ht => State.wf_runInstr ht) (by simpa using h)

@[simp] theorem State.wf_stakeLimits {s : State} {b : Nat} {is : List Instr} (h : s.mem.wf = true) :
    (s.stakeLimits b is).mem.wf = true := by
  refine State.wf_foldl (fun t i ht => ?_) h
  split
  · split
    · exact ht
    · exact State.wf_runInstr ht
  · exact ht

@[simp] theorem State.wf_tryBundle {s : State} {b : Nat} {d : Bundle} (h : s.mem.wf = true) :
    (s.tryBundle b d).mem.wf = true := by
  unfold State.tryBundle
  extract_lets is checked s1 s2 rest
  have h2 : s2.mem.wf = true := State.wf_runWaits (by exact h)
  have hchecked {r : Instr × SChk} (e : checked = some r) : r.2.MemWf := by
    dsimp only [checked] at e
    split at e
    · cases e
    · exact State.memWf_of_candidate h e
  clear_value s2 checked
  split
  · simpa using h
  · exact hchecked rfl
  · split
    · exact State.wf_stakeLimits h2
    · split
      · simpa using h2
      · next e => exact State.memWf_of_atIssue h2 e
      · split
        · exact h2
        · split
          · simpa using h2
          · exact State.wf_issueBundle h2

@[simp] theorem State.mem_reserveStep (s : State) (b : Nat) : (s.reserveStep b).mem = s.mem := by
  unfold State.reserveStep
  dsimp only
  repeat' split
  · rfl
  · rfl
  · simp [State.mem_foldl]

@[simp] theorem State.mem_seqParity (s : State) (b : Nat) : (s.seqParity b).mem = s.mem := by
  unfold State.seqParity
  split <;> simp

@[simp] theorem State.wf_seqTurn {s : State} {b : Nat} (h : s.mem.wf = true) : (s.seqTurn b).mem.wf = true := by
  unfold State.seqTurn
  extract_lets u t
  have hu : u.mem.wf = true := h
  have ht : t.mem.wf = true := by simpa [t] using hu
  split
  · exact hu
  · split
    · exact (State.memWf_fetchBundle hu).wait ‹_›
    · simpa using hu
    · simpa using hu
    · split
      · exact ht
      · exact State.wf_tryBundle ht

/-! ## Memory: the functions of `Machine/Turns` -/

@[simp] theorem State.wf_settleOut {o : Out} {s : State} (ho : o.MemWf) (h : s.mem.wf = true) :
    (settleOut o s).mem.wf = true := by
  unfold settleOut
  split
  · exact ho
  · exact h

@[simp] theorem State.wf_runWord {s : State} {w : Word} (h : s.mem.wf = true) : (s.runWord w).mem.wf = true := by
  unfold State.runWord
  split
  · exact State.wf_settleOut (Out.memWf_execIllegalInstruction h) h
  · split
    · exact State.wf_runInstr h
    · extract_lets va t
      have ht : t.mem.wf = true := by simpa [t] using h
      split
      · exact State.wf_settleOut (Out.memWf_execInstructionFetchFault h) h
      · split
        · exact State.wf_runInstr ht
        · exact State.wf_settleOut (Out.memWf_execIllegalInstruction ht) ht
      · simpa using h

@[simp] theorem State.wf_unitStep {s : State} (h : s.mem.wf = true) : s.unitStep.mem.wf = true := by
  unfold State.unitStep
  split
  · exact State.wf_settleOut (Out.memWf_execInstructionFetchFault h) h
  · exact State.wf_runWord (by simpa using h)
  · simpa using h

@[simp] theorem State.wf_retryStep {s : State} (h : s.mem.wf = true) : s.retryStep.mem.wf = true := by
  unfold State.retryStep
  split <;> simp [h]

@[simp] theorem State.wf_takeLooks {s : State} {b g k : Nat} (h : s.mem.wf = true) : (s.takeLooks b g k).mem.wf = true :=
  State.wf_runInstr (State.wf_runInstr h)

@[simp] theorem State.wf_laneTurn {s0 : State} {b g k : Nat} (h : s0.mem.wf = true) : (s0.laneTurn b g k).mem.wf = true := by
  unfold State.laneTurn
  dsimp only
  repeat' split
  all_goals simp [h]

@[simp] theorem State.mem_clearCometYields (s : State) (j : Nat) : (s.clearCometYields j).mem = s.mem := rfl

@[simp] theorem State.wf_cometIssue {s0 : State} {c : Nat} (h : s0.mem.wf = true) : (s0.cometIssue c).mem.wf = true := by
  unfold State.cometIssue
  dsimp only
  split <;> simp [h]

@[simp] theorem State.wf_cometTurn {s : State} {c : Nat} (h : s.mem.wf = true) : (s.cometTurn c).mem.wf = true := by
  unfold State.cometTurn
  dsimp only
  repeat' split
  all_goals simp [h]

@[simp] theorem State.wf_parityTurn {s : State} {f : Focus} (h : s.mem.wf = true) : (s.parityTurn f).mem.wf = true := by
  unfold State.parityTurn
  dsimp only
  repeat' split
  all_goals simp [h]

@[simp] theorem State.mem_upset (s : State) (u : Upset) : (s.upset u).mem = s.mem := by
  unfold State.upset
  repeat' split
  all_goals rfl

@[simp] theorem State.wf_filterTurn {s0 : State} {m : Nat} (h : s0.mem.wf = true) : (s0.filterTurn m).mem.wf = true := by
  unfold State.filterTurn
  dsimp only
  repeat' split
  all_goals simp [h]

/-! ## Memory: the functions of `Machine/Clock` -/

@[simp] theorem State.wf_tryUnit {s : State} {f : Focus} (h : s.mem.wf = true) : (s.tryUnit f).2.mem.wf = true := by
  unfold State.tryUnit
  dsimp only
  split <;> simp [h]

@[simp] theorem State.wf_tryUnits {s : State} {fs : List Focus} (h : s.mem.wf = true) : (s.tryUnits fs).2.mem.wf = true := by
  induction fs generalizing s with
  | nil => exact h
  | cons f fs ih => exact ih (State.wf_tryUnit h)

@[simp] theorem State.mem_arbitrate (s : State) (can : List Focus) (f p : Nat) : (s.arbitrate can f p).2.mem = s.mem := by
  have hskip {l : List ReadyGroup} {n : Group → Nat} {t : State} :
      (l.foldl (fun t r => t.modGrp r.blk r.slot fun g => { g with skipped := n g }) t).mem = t.mem :=
    State.mem_foldl _ (fun _ _ => by rfl) _ _
  have h2 : ∀ l m : List ReadyGroup, ((m.foldl (fun t r => t.modGrp r.blk r.slot fun g => { g with skipped := g.skipped + 1 })
      (l.foldl (fun t r => t.modGrp r.blk r.slot fun g => { g with skipped := 0 }) s)).mem = s.mem) := fun _ _ => hskip.trans hskip
  unfold State.arbitrate
  dsimp only
  repeat' split
  all_goals simpa using h2 _ _

@[simp] theorem State.mem_arbitrateAll (s : State) (can : List Focus) (ps : List (Nat × Nat)) :
    (s.arbitrateAll can ps).2.mem = s.mem := by
  induction ps generalizing s with
  | nil => rfl
  | cons p ps ih => exact (ih _).trans (State.mem_arbitrate ..)

@[simp] theorem State.wf_run {s : State} {f : State → Out} (h : s.mem.wf = true) (hf : (f s).MemWf) :
    (s.run f).mem.wf = true :=
  State.wf_settleOut hf h

@[simp] theorem State.wf_joinClock {s : State} (h : s.mem.wf = true) : s.joinClock.mem.wf = true := by
  unfold State.joinClock
  dsimp only
  exact State.wf_foldl (fun _ _ hu => State.wf_run hu (Out.memWf_execJoinTimeout hu)) (by exact h)

@[simp] theorem State.wf_swapClock {s : State} (h : s.mem.wf = true) : s.swapClock.mem.wf = true := by
  unfold State.swapClock
  dsimp only
  refine State.wf_foldl (fun u p hu => ?_) (State.wf_foldl (fun u b hu => ?_) h)
  · split
    · exact State.wf_run hu (Out.memWf_execVfSliceEnd hu)
    · exact hu
  · exact State.wf_idleClock (State.wf_run hu (Out.memWf_execParkLimit hu))

@[simp] theorem State.wf_moveClock {s : State} (h : s.mem.wf = true) : s.moveClock.mem.wf = true := by
  unfold State.moveClock
  dsimp only
  refine State.wf_foldl (fun u e hu => State.wf_run hu (Out.memWf_execMigrationComplete hu)) ?_
  exact State.wf_foldl (fun u e hu => State.wf_run hu (Out.memWf_execMigrationPassEnd hu)) (State.wf_migrateClock h)

@[simp] theorem State.wf_fabClock {s : State} (h : s.mem.wf = true) : s.fabClock.mem.wf = true := by
  unfold State.fabClock
  dsimp only
  refine State.wf_foldl (fun u e hu => ?_) ?_
  · rw [State.tickFree_mem]
    exact State.wf_run hu (Out.memWf_execPortRetrainEnd hu)
  · rw [State.mem_fabricClock]
    exact State.wf_sendRemote h

@[simp] theorem State.wf_endClock {s : State} (h : s.mem.wf = true) : s.endClock.mem.wf = true := by
  unfold State.endClock
  extract_lets s1 s2 s3 s4
  have h2 : s2.mem.wf = true := by
    refine State.wf_foldl (fun t b ht => ?_) (State.wf_joinClock h)
    rw [State.mem_seqEnd, State.mem_settleArrivals, State.mem_landDue]
    exact ht
  have h4 : s4.mem.wf = true := State.wf_foldl (fun t e ht => State.wf_dbarMaster ht) (State.wf_fabClock h2)
  rw [State.mem_flushTaps]
  exact State.wf_swapClock (State.wf_moveClock (by simpa using h4))

@[simp] theorem State.wf_windows {s : State} (h : s.mem.wf = true) : s.windows.mem.wf = true := by
  have hfold {ns : List Nat} {f : State → Nat → State} {c : Prop} [Decidable c] {t : State}
      (hf : ∀ u n, u.mem.wf = true → (f u n).mem.wf = true) (ht : t.mem.wf = true) :
      (if c then ns.foldl f t else t).mem.wf = true := by
    split
    · exact State.wf_foldl hf ht
    · exact ht
  unfold State.windows
  extract_lets s2 s3 s4
  have h2 : s2.mem.wf = true := by
    refine State.wf_foldl (fun t m ht => ?_) h
    split
    · exact State.wf_run ht (Out.memWf_execBudgetWindow ht)
    · exact ht
  have h4 : s4.mem.wf = true :=
    hfold (fun u _ hu => State.wf_run hu (Out.memWf_execEnergyWindowEnd hu))
      (hfold (fun u _ hu => State.wf_run hu (Out.memWf_execCounterSample hu)) h2)
  split
  all_goals exact h4

@[simp] theorem State.wf_wakeClock {s : State} (h : s.mem.wf = true) : s.wakeClock.mem.wf = true := by
  unfold State.wakeClock
  dsimp only
  rw [State.mem_reenter]
  refine State.wf_foldl (fun u b hu => State.wf_run hu (Out.memWf_execDistributorWaitcPoll hu)) ?_
  have hpoll {c : Bool} {u : State} {b g k : Nat} (hu : u.mem.wf = true) :
      (if c = true then (u.run (execWaitcPoll b g k)).run (execEmitWake b g k) else u).mem.wf = true := by
    have hp := State.wf_run hu (Out.memWf_execWaitcPoll (b := b) (g := g) (k := k) hu)
    split
    · exact State.wf_run hp (Out.memWf_execEmitWake hp)
    · exact hu
  refine State.wf_foldl (fun u e hu => ?_) h
  split
  · have hlate {v : State} {b g k : Nat} (hv : v.mem.wf = true) : (v.run (execWaitcReevaluate b g k)).mem.wf = true :=
      State.wf_run hv (Out.memWf_execWaitcReevaluate hv)
    exact State.wf_run (hlate (hpoll hu)) (Out.memWf_execEmitWake (hlate (hpoll hu)))
  · exact hpoll hu

@[simp] theorem State.wf_distClock {s : State} (h : s.mem.wf = true) : s.distClock.mem.wf = true := by
  unfold State.distClock
  extract_lets s1 s2 s3 s4
  have h1 : s1.mem.wf = true := State.wf_foldl (fun _ _ ht => State.wf_queueClock ht) h
  have h3 : s3.mem.wf = true :=
    State.wf_foldl (fun _ _ ht => State.wf_run ht (Out.memWf_execReservation ht))
      (State.wf_foldl (fun _ _ ht => by simpa using ht) h1)
  have h4 : s4.mem.wf = true := by
    dsimp only [s4]
    split
    · exact State.wf_foldl (fun _ _ ht => State.wf_run ht (Out.memWf_execBlockAdmission ht)) h3
    · exact h3
  split
  · exact h1
  · exact State.wf_foldl (fun _ _ ht => State.wf_run ht (Out.memWf_execQuantumPreemption ht)) h4

@[simp] theorem State.wf_beginClock {s : State} (h : s.mem.wf = true) : s.beginClock.mem.wf = true := by
  unfold State.beginClock
  dsimp only
  refine State.wf_foldl (fun _ _ ht => State.wf_wantImage ht) (State.wf_foldl (fun _ _ ht => by simpa using ht) ?_)
  exact State.wf_distClock (State.wf_wakeClock (State.wf_windows (by exact h)))

@[simp] theorem State.mem_clearYields (s : State) : s.clearYields.mem = s.mem := rfl

@[simp] theorem State.wf_clock {s : State} (h : s.mem.wf = true) : s.clock.mem.wf = true := by
  unfold State.clock
  dsimp only
  rw [State.mem_clearYields, State.mem_arbitrateAll]
  exact State.wf_tryUnits (State.wf_beginClock (State.wf_endClock h))

/-- A turn of any agenda item keeps the canonical form of memory. -/
theorem State.memWf_takeTurn {s : State} {x : Turn} (h : s.mem.wf = true) : Out.MemWf (s.takeTurn x) := by
  unfold State.takeTurn
  split
  · exact h
  · split
    · exact State.wf_clock h
    · exact State.wf_laneTurn h
    · exact State.wf_cometTurn h
    · exact State.wf_seqTurn h
    · exact State.wf_filterTurn h
    · exact Out.memWf_exec h
    · exact State.wf_parityTurn h
    · simpa using h

/-! ## Memory: the functions of `Machine/Step` -/

theorem Out.memWf_unfocus {o : Out} (ho : o.MemWf) : Out.MemWf (unfocus o) := by
  unfold unfocus
  split
  all_goals exact ho

/-- A step from a state with canonical memory ends in one: whichever turn it takes keeps it. -/
theorem Out.memWf_step {s : State} (h : s.mem.wf = true) : Out.MemWf (step s) := by
  unfold step
  split
  · exact Out.memWf_unfocus (State.memWf_takeTurn h)
  · exact Out.memWf_unfocus (State.memWf_takeTurn (by exact h))

/-! ## The obligations -/

/-- Settles O5: the memory after reset lists no byte. -/
theorem resetMemoryCanonical : Obligations.ResetMemoryCanonical := rfl

/-- Settles O6, by the lemma about `step`: whichever turn a step takes, it ends in a state with canonical memory. -/
theorem stepKeepsMemoryCanonical : Obligations.StepKeepsMemoryCanonical := by
  unfold Obligations.StepKeepsMemoryCanonical
  intro s t h e
  exact (Out.memWf_step h).next e

end Sys2Proof.Machine

end

/-!
PROOFS. Conversions (spec/01_numbers.md R38, spec/04_lane_integer.md R114, spec/05_lane_float.md R127-R134). The statement O14 fails
in one of its clauses, the frame of QPACK, and only for a group whose width does not divide 64, which no node has. What it says besides,
and the frame for every other width, is proved first: `exec_cvt`, `cvtVal_int_pairs`, `exec_formatWord`, `exec_formatWord_checks`.
-/

section

namespace Sys2Proof.Machine

/-! ## The unit after its PC is set -/

/-- A change of an entry that keeps a part of every value keeps that part of every entry. -/
theorem Table.proj_getD_modify {α β : Type} {t : Table α} {i j : Nat} {f : α → α} {d : α} (p : α → β)
    (h : ∀ x, p (f x) = p x) : p ((t.modify i f).getD j d) = p (t.getD j d) := by
  by_cases e : j = i
  · subst e
    simp only [Table.getD, Table.find_modify_self]
    cases t.find j with
    | none => rfl
    | some x => exact h x
  · rw [Table.getD_modify_other _ _ _ _ _ e]

/-- A split that goes on at an address, its wait over. -/
def Split.readyAt (v : Dword) (x : Split) : Split := { x with pc := v, wait := .ready }

/-- A context that goes on at an address, its wait over. -/
def Comet.readyAt (v : Dword) (x : Comet) : Comet := { x with pc := v, wait := .ready }

theorem State.setPc_of_split {s : State} {b g k : Nat} (hf : s.focus = .split b g k) (v : Dword) :
    s.setPc v = s.modSpl b g k (Split.readyAt v) := by
  rw [State.setPc, hf]
  rfl

theorem State.setPc_of_comet {s : State} {c : Nat} (hf : s.focus = .comet c) (v : Dword) :
    s.setPc v = s.modCtx c (Comet.readyAt v) := by
  rw [State.setPc, hf]
  rfl

/-- Setting the PC leaves every lane register alone. -/
@[simp] theorem State.rdV_setPc (s : State) (v : Dword) (m l : Nat) : (s.setPc v).rdV m l = s.rdV m l := by
  unfold State.setPc
  split
  · next b g k hf =>
    simp only [State.rdV, State.modSpl_focus, hf]
    exact Table.proj_getD_modify (fun x : Block => x.vregs.getD (x.regKey g m l) 0) fun _ => by rfl
  · next c hf =>
    simp only [State.rdV, State.modCtx_focus, hf]
    exact Table.proj_getD_modify (fun x : Comet => x.vregs.getD m 0) fun _ => by rfl
  · rfl

@[simp] theorem State.rdV_skip (s : State) (n m l : Nat) : (s.skip n).rdV m l = s.rdV m l := s.rdV_setPc ..

/-- The block, group and split of a unit that issues are listed. -/
theorem State.listed_of_issuing {s : State} {b g k : Nat} (hf : s.focus = .split b g k) (h : s.issuing = true) :
    s.blocks.has b = true ∧ (s.blk b).groups.has g = true ∧ (s.grp b g).splits.has k = true := by
  rcases s.issuing_cases h with ⟨b', g', k', x, y, hf', hx, -, hy, hk⟩ | ⟨c, hf', -⟩
  · cases hf.symm.trans hf'
    have hb : s.blk b = x := Table.getD_of_find _ hx
    have hg : s.grp b g = y := by rw [State.grp, hb]; exact Table.getD_of_find _ hy
    exact ⟨Table.has_of_find hx, by rw [hb]; exact Table.has_of_find hy, by rw [hg]; exact hk⟩
  · cases hf.symm.trans hf'

theorem State.listed_of_issuing_comet {s : State} {c : Nat} (hf : s.focus = .comet c) (h : s.issuing = true) :
    s.comets.has c = true := by
  rw [State.issuing, hf] at h
  exact h

theorem State.grp_modGrp_self {s : State} {b g : Nat} (hb : s.blocks.has b = true) (hg : (s.blk b).groups.has g = true)
    (f : Group → Group) : (s.modGrp b g f).grp b g = f (s.grp b g) := by
  rw [State.grp, State.modGrp, s.blk_modBlk_self b _ hb]
  exact Table.getD_modify_self _ _ _ _ hg

theorem State.spl_modSpl_self {s : State} {b g k : Nat} (hb : s.blocks.has b = true) (hg : (s.blk b).groups.has g = true)
    (hk : (s.grp b g).splits.has k = true) (f : Split → Split) : (s.modSpl b g k f).spl b g k = f (s.spl b g k) := by
  rw [State.spl, State.modSpl, State.grp_modGrp_self hb hg]
  exact Table.getD_modify_self _ _ _ _ hk

/-- The PC of a unit that issues is what it was set to. -/
theorem State.pc_setPc {s : State} (h : s.issuing = true) (v : Dword) : (s.setPc v).pc = v := by
  rcases s.issuing_cases h with ⟨b, g, k, -, -, hf, -⟩ | ⟨c, hf, hc⟩
  · obtain ⟨hb, hg, hk⟩ := State.listed_of_issuing hf h
    simp only [State.setPc_of_split hf, State.pc, hf, State.modSpl_focus, State.spl_modSpl_self hb hg hk, Split.readyAt]
  · simp only [State.setPc_of_comet hf, State.pc, hf, State.modCtx_focus, s.ctx_modCtx_self c _ hc, Comet.readyAt]

theorem State.pc_skip {s : State} (h : s.issuing = true) (n : Nat) : (s.skip n).pc = s.pc + BitVec.ofNat 64 n :=
  State.pc_setPc h _

/-! ## The frame of registers -/

theorem RegsOnly.refl (ls D U P : List Nat) (s : State) : RegsOnly ls D U P s s := by
  unfold RegsOnly
  split <;> simp

/-- Removing a number from a list leaves the others in it. -/
theorem contains_filter_ne {l : List Nat} {a b : Nat} (h : a ≠ b) : (l.filter (· != b)).contains a = l.contains a := by
  rw [Bool.eq_iff_iff]
  simp [h]

/-- A lane register of the group outside the frame's registers reads as before. -/
theorem State.rdV_of_regsOnly {ls D U P : List Nat} {s t : State} {b g k m l : Nat} (hf : s.focus = .split b g k)
    (h : RegsOnly ls D U P s t) (hk : ∀ d ∈ D, ∀ j ∈ ls, (s.blk b).regKey g m l ≠ (s.blk b).regKey g d j) :
    t.rdV m l = s.rdV m l := by
  unfold RegsOnly at h
  rw [hf] at h
  obtain ⟨hrest, -, hblk, -, hvregs, -⟩ := h
  have hft : t.focus = .split b g k := by rw [hrest]
  have hkey : (t.blk b).regKey g m l = (s.blk b).regKey g m l := by rw [hblk]; rfl
  simp only [State.rdV, hf, hft, hkey]
  exact hvregs _ hk

/-- Writing a register of the frame keeps the frame. -/
theorem RegsOnly.wrV {ls D U P : List Nat} {s t : State} (h : RegsOnly ls D U P s t) (ht : t.issuing = true) {m l : Nat}
    (hm : m ∈ D) (hl : l ∈ ls) (v : Word) : RegsOnly ls D U P s (t.wrV m l v) := by
  unfold RegsOnly at h ⊢
  split at h
  · next b g k hf =>
    obtain ⟨hrest, hblks, hblk, hbad, hv, hgrps, hgrp, hu, hp, hspls, hspl⟩ := h
    have hft : t.focus = .split b g k := by rw [hrest]; exact hf
    have hkey : (t.blk b).regKey g m l = (s.blk b).regKey g m l := by rw [hblk]; rfl
    have hnew : (t.wrV m l v).blk b = (t.blk b).putReg ((s.blk b).regKey g m l) v := by
      rw [State.wrV, hft, ← hkey]
      exact t.blk_modBlk_self b _ (State.listed_of_issuing hft ht).1
    have hnewg : (t.wrV m l v).grp b g = t.grp b g := by rw [State.grp, hnew]; rfl
    have hnews : (t.wrV m l v).spl b g k = t.spl b g k := by rw [State.spl, hnewg]; rfl
    refine ⟨?_, fun b' hb' => ?_, ?_, fun key hd hu' => ?_, fun key hd => ?_, ?_, ?_, ?_, ?_, ?_, ?_⟩
    · rw [State.wrV, hft]
      exact congrArg (fun u : State => { u with blocks := (t.modBlk b fun x => x.putReg (x.regKey g m l) v).blocks }) hrest
    · rw [State.wrV, hft, ← hblks b' hb']
      exact Table.find_modify_other _ _ _ _ hb'
    · rw [hnew]
      exact congrArg (·.putReg ((s.blk b).regKey g m l) v) hblk
    · rw [hnew, ← hbad key hd hu']
      exact contains_filter_ne (hd m hm l hl)
    · rw [hnew, ← hv key hd]
      exact Table.getD_set_other _ _ _ _ _ (hd m hm l hl)
    · rw [hnew]; exact hgrps
    · rw [hnewg]; exact hgrp
    · rw [hnewg]; exact hu
    · rw [hnewg]; exact hp
    · rw [hnewg]; exact hspls
    · rw [hnews]; exact hspl
  · next c hf =>
    obtain ⟨hrest, hctxs, hctx, hbad, hv, hu, hp⟩ := h
    have hft : t.focus = .comet c := by rw [hrest]; exact hf
    have hnew : (t.wrV m l v).ctx c = (t.ctx c).putReg m v := by
      rw [State.wrV, hft]
      exact t.ctx_modCtx_self c _ (State.listed_of_issuing_comet hft ht)
    have hne {key : Nat} (hd : ¬(key ∈ D ∧ ls ≠ [])) : key ≠ m := fun e => hd ⟨e ▸ hm, List.ne_nil_of_mem hl⟩
    refine ⟨?_, fun c' hc' => ?_, ?_, fun key hd hu' => ?_, fun key hd => ?_, ?_, ?_⟩
    · rw [State.wrV, hft]
      exact congrArg (fun u : State => { u with comets := (t.modCtx c fun x => x.putReg m v).comets }) hrest
    · rw [State.wrV, hft, ← hctxs c' hc']
      exact Table.find_modify_other _ _ _ _ hc'
    · rw [hnew]
      exact congrArg (·.putReg m v) hctx
    · rw [hnew, ← hbad key hd hu']
      exact contains_filter_ne (hne hd)
    · rw [hnew, ← hv key hd]
      exact Table.getD_set_other _ _ _ _ _ (hne hd)
    · rw [hnew]; exact hu
    · rw [hnew]; exact hp
  · next hns hnc =>
    subst h
    exact absurd ht (by simp [State.issuing])

/-- Setting the PC keeps the frame. -/
theorem RegsOnly.setPc {ls D U P : List Nat} {s t : State} (h : RegsOnly ls D U P s t) (ht : t.issuing = true) (v : Dword) :
    RegsOnly ls D U P s (t.setPc v) := by
  unfold RegsOnly at h ⊢
  split at h
  · next b g k hf =>
    obtain ⟨hrest, hblks, hblk, hbad, hv, hgrps, hgrp, hu, hp, hspls, hspl⟩ := h
    have hft : t.focus = .split b g k := by rw [hrest]; exact hf
    obtain ⟨hb, hg, hk⟩ := State.listed_of_issuing hft ht
    have hnew : (t.modSpl b g k (Split.readyAt v)).blk b = (t.blk b).modGrp g fun x => x.modSpl k (Split.readyAt v) :=
      t.blk_modBlk_self b _ hb
    have hnewg : (t.modSpl b g k (Split.readyAt v)).grp b g = (t.grp b g).modSpl k (Split.readyAt v) := State.grp_modGrp_self hb hg _
    have hnews : (t.modSpl b g k (Split.readyAt v)).spl b g k = (t.spl b g k).readyAt v := State.spl_modSpl_self hb hg hk _
    rw [State.setPc_of_split hft]
    refine ⟨?_, fun b' hb' => ?_, ?_, ?_, ?_, fun g' hg' => ?_, ?_, ?_, ?_, fun k' hk' => ?_, ?_⟩
    · exact congrArg (fun u : State => { u with blocks := (t.modSpl b g k (Split.readyAt v)).blocks }) hrest
    · rw [← hblks b' hb']
      exact Table.find_modify_other _ _ _ _ hb'
    · rw [hnew]
      exact congrArg (·.modGrp g fun x => x.modSpl k (Split.readyAt v)) hblk
    · rw [hnew]; exact hbad
    · rw [hnew]; exact hv
    · rw [hnew, ← hgrps g' hg']
      exact Table.find_modify_other _ _ _ _ hg'
    · rw [hnewg]
      exact congrArg (·.modSpl k (Split.readyAt v)) hgrp
    · rw [hnewg]; exact hu
    · rw [hnewg]; exact hp
    · rw [hnewg, ← hspls k' hk']
      exact Table.find_modify_other _ _ _ _ hk'
    · rw [hnews]
      exact (congrArg (Split.readyAt v) hspl).trans rfl
  · next c hf =>
    obtain ⟨hrest, hctxs, hctx, hbad, hv, hu, hp⟩ := h
    have hft : t.focus = .comet c := by rw [hrest]; exact hf
    have hnew : (t.modCtx c (Comet.readyAt v)).ctx c = (t.ctx c).readyAt v :=
      t.ctx_modCtx_self c _ (State.listed_of_issuing_comet hft ht)
    rw [State.setPc_of_comet hft]
    refine ⟨?_, fun c' hc' => ?_, ?_, ?_, ?_, ?_, ?_⟩
    · exact congrArg (fun u : State => { u with comets := (t.modCtx c (Comet.readyAt v)).comets }) hrest
    · rw [← hctxs c' hc']
      exact Table.find_modify_other _ _ _ _ hc'
    · rw [hnew]
      exact congrArg (Comet.readyAt v) hctx
    all_goals rw [hnew]; assumption
  · next hns hnc =>
    subst h
    exact absurd ht (by simp [State.issuing])

/-- Writing registers of the frame at places of a list keeps it. -/
theorem RegsOnly.putLanes {ls D U P : List Nat} {s t : State} (h : RegsOnly ls D U P s t) (ht : t.issuing = true) {ns : List Nat}
    {m l : Nat → Nat} (hm : ∀ n ∈ ns, m n ∈ D) (hl : ∀ n ∈ ns, l n ∈ ls) (v : Nat → Word) :
    RegsOnly ls D U P s (t.putLanes ns fun u n => u.wrV (m n) (l n) (v n)) := by
  induction ns generalizing t with
  | nil => exact h
  | cons n ns ih =>
    rw [State.putLanes_cons]
    exact ih (h.wrV ht (hm n List.mem_cons_self) (hl n List.mem_cons_self) _) (by simpa using ht)
      (fun j hj => hm j (List.mem_cons_of_mem _ hj)) fun j hj => hl j (List.mem_cons_of_mem _ hj)

/-! ## Words written at places of a list -/

@[simp] theorem State.issuing_putLanes_wrV (s : State) (ns : List Nat) (m l : Nat → Nat) (v : Nat → Word) :
    (s.putLanes ns fun u n => u.wrV (m n) (l n) (v n)).issuing = s.issuing :=
  State.putLanes_proj _ _ _ _ (by simp)

@[simp] theorem State.pc_putLanes_wrV (s : State) (ns : List Nat) (m l : Nat → Nat) (v : Nat → Word) :
    (s.putLanes ns fun u n => u.wrV (m n) (l n) (v n)).pc = s.pc :=
  State.putLanes_proj _ _ _ _ (by simp)

@[simp] theorem State.facets_putLanes_wrV (s : State) (ns : List Nat) (m l : Nat → Nat) (v : Nat → Word) :
    (s.putLanes ns fun u n => u.wrV (m n) (l n) (v n)).facets = s.facets :=
  State.putLanes_proj _ _ _ _ (by simp)

theorem State.unitFacet_wrV (s : State) (m l : Nat) (v : Word) :
    ((s.wrV m l v).blk (s.wrV m l v).unitBlk).facet = (s.blk s.unitBlk).facet := by
  obtain ⟨x, hf⟩ : ∃ x, s.focus = x := ⟨_, rfl⟩
  cases x with
  | split b g k =>
    simp only [State.unitBlk, State.wrV, State.modBlk_focus, hf]
    exact Table.proj_getD_modify Block.facet fun _ => by rfl
  | comet c =>
    have hblk : ((s.modCtx c fun x => x.putReg m v).ctx c).blk = (s.ctx c).blk :=
      Table.proj_getD_modify Comet.blk fun _ => by rfl
    simp only [State.unitBlk, State.wrV, State.modCtx_focus, hf, hblk]
    rfl
  | idle | seqr | filter => simp only [State.wrV, hf]

theorem State.unitFacet_putLanes_wrV (s : State) (ns : List Nat) (m l : Nat → Nat) (v : Nat → Word) :
    ((s.putLanes ns fun u n => u.wrV (m n) (l n) (v n)).blk (s.putLanes ns fun u n => u.wrV (m n) (l n) (v n)).unitBlk).facet =
      (s.blk s.unitBlk).facet :=
  State.putLanes_proj (fun u => (u.blk u.unitBlk).facet) _ _ _ fun u _ => u.unitFacet_wrV ..

/-- A register of an active lane that is none of the places reads as before. -/
theorem State.rdV_putLanes_elsewhere {s : State} (h : s.issuing = true) {ns : List Nat} {m l : Nat → Nat} {m' l' : Nat}
    (hl : ∀ n ∈ ns, hasLane s.lanes (l n) = true) (hl' : hasLane s.lanes l' = true) (hne : ∀ n ∈ ns, ¬(m' = m n ∧ l' = l n))
    (v : Nat → Word) : (s.putLanes ns fun u n => u.wrV (m n) (l n) (v n)).rdV m' l' = s.rdV m' l' := by
  induction ns generalizing s with
  | nil => rfl
  | cons a ns ih =>
    rw [State.putLanes_cons, ih (by simpa using h) (by simpa using fun n hn => hl n (List.mem_cons_of_mem _ hn))
      (by simpa using hl') fun n hn => hne n (List.mem_cons_of_mem _ hn),
      s.rdV_wrV h _ _ _ _ _ (hl a List.mem_cons_self) hl', if_neg (hne a List.mem_cons_self)]

/-- A word written at one place of a list, the places being distinct registers of active lanes, reads as it was written. -/
theorem State.rdV_putLanes_place {s : State} (h : s.issuing = true) {ns : List Nat} (hn : ns.Nodup) {m l : Nat → Nat}
    (hl : ∀ n ∈ ns, hasLane s.lanes (l n) = true) (hinj : ∀ i j, m i = m j → l i = l j → i = j) (v : Nat → Word)
    {n : Nat} (hmem : n ∈ ns) : (s.putLanes ns fun u n => u.wrV (m n) (l n) (v n)).rdV (m n) (l n) = v n := by
  induction ns generalizing s with
  | nil => exact absurd hmem List.not_mem_nil
  | cons a ns ih =>
    obtain ⟨ha, hn⟩ := List.nodup_cons.mp hn
    have hl1 : ∀ j ∈ ns, hasLane (s.wrV (m a) (l a) (v a)).lanes (l j) = true := by
      simpa using fun j hj => hl j (List.mem_cons_of_mem _ hj)
    rw [State.putLanes_cons]
    rcases List.mem_cons.mp hmem with rfl | hmem
    · have hla := hl n List.mem_cons_self
      rw [State.rdV_putLanes_elsewhere (by simpa using h) hl1 (by simpa using hla)
        fun j hj e => ha (hinj n j e.1 e.2 ▸ hj), s.rdV_wrV h _ _ _ _ _ hla hla, if_pos ⟨rfl, rfl⟩]
    · exact ih (by simpa using h) hn hl1 hmem

/-! ## Statistics records (05 R134, 10 R238) -/

/-- One record appended to a facet's queue: the queue grows by one while it has room. -/
theorem State.stats_appendStat (s : State) (f : Nat) (r : StatRec) : ((s.appendStat f r).facet f).stats.length =
    min (max 64 (s.facet f).stats.length) ((s.facet f).stats.length + 1) := by
  rw [State.appendStat, State.facet, State.modFacet, Table.getD_set_self]
  split
  · rw [List.length_append, List.length_singleton]; omega
  · dsimp only; omega

/-- The records of a lane instruction appended to the queue of the facet of its block. -/
theorem State.stats_appendLaneStats (s : State) (rs : List StatRec) {f : Nat} (hf : f = (s.blk s.unitBlk).facet) :
    ((s.appendLaneStats rs).facet f).stats.length =
      min (max 64 (s.facet f).stats.length) ((s.facet f).stats.length + rs.length) := by
  induction rs generalizing s with
  | nil => rw [List.length_nil]; simp only [State.appendLaneStats, List.foldl_nil]; omega
  | cons r rs ih =>
    have h1 := s.stats_appendStat f r
    have h2 := ih (s.appendStat f r) hf
    rw [List.length_cons]
    simp only [State.appendLaneStats, List.foldl_cons, ← hf] at h2 ⊢
    omega

/-- Appending records changes only the facets. -/
theorem State.appendLaneStats_eq (s : State) (rs : List StatRec) :
    s.appendLaneStats rs = { s with facets := (s.appendLaneStats rs).facets } := by
  induction rs generalizing s with
  | nil => rfl
  | cons r rs ih => exact ih (s.appendStat (s.blk s.unitBlk).facet r)

/-- Setting the PC does not depend on the facets. -/
theorem State.setPc_withFacets (s : State) (F : Table Facet) (v : Dword) :
    State.setPc { s with facets := F } v = { s.setPc v with facets := F } := by
  obtain ⟨x, hf⟩ : ∃ x, s.focus = x := ⟨_, rfl⟩
  cases x with
  | split b g k => rw [State.setPc_of_split (s := { s with facets := F }) hf, State.setPc_of_split hf]; rfl
  | comet c => rw [State.setPc_of_comet (s := { s with facets := F }) hf, State.setPc_of_comet hf]; rfl
  | idle | seqr | filter => simp only [State.setPc, hf]

/-- The state of a lane instruction that has appended its records is that of its writes but for the facets. -/
theorem State.skip_appendLaneStats (s : State) (rs : List StatRec) (n : Nat) :
    (s.appendLaneStats rs).skip n = { s.skip n with facets := (s.appendLaneStats rs).facets } := by
  rw [s.appendLaneStats_eq rs]
  exact s.setPc_withFacets ..

/-! ## Typed conversion (04 R114, 05 R127) -/

theorem pairVal_lowWord_highWord (x : Dword) : pairVal (lowWord x) (highWord x) = x := by
  apply BitVec.eq_of_getLsbD_eq
  intro i hi
  simp only [pairVal, lowWord, highWord, BitVec.getLsbD_append, BitVec.getLsbD_extractLsb']
  by_cases h : i < 32
  · simp [h]
  · simp [h, show i - 32 < 32 by omega, show 32 + (i - 32) = i by omega]

@[simp] theorem State.issuing_wrVn (s : State) (w : Bool) (r l v : Nat) : (s.wrVn w r l v).issuing = s.issuing := by
  cases w <;> simp [State.wrVn, State.wrVPair]

@[simp] theorem State.pc_wrVn (s : State) (w : Bool) (r l v : Nat) : (s.wrVn w r l v).pc = s.pc := by
  cases w <;> simp [State.wrVn, State.wrVPair]

/-- Typed CVT gives every executing lane the converted value, from the values before it. -/
theorem exec_cvt {g : Pred} {d a : Reg} {dty sty : CvtTy} {rz sat : Bool} {s : State}
    (h : s.mayIssue (.cvt g d a dty sty rz sat) g = true) : ∃ t : State,
      exec (.cvt g d a dty sty rz sat) s = .next t ∧ t.pc = s.pc + 4 ∧
      ∀ l ∈ s.execs g,
        let x := s.rdVn (cvtWide sty) a.toNat l
        (cvtWide dty = false → t.rdV d.toNat l = BitVec.ofNat 32 (cvtVal dty sty rz sat x)) ∧
        (cvtWide dty = true → t.rdVPair d.toNat l = BitVec.ofNat 64 (cvtVal dty sty rz sat x)) := by
  have hi := issuing_of_mayIssue h
  have hlanes : ∀ l ∈ lanesOf (s.exec g), hasLane s.lanes l = true := fun l hl => ((exec_lanes s g l).mp hl).1
  have hexec : execCvt g d a dty sty rz sat s = _ := laneSimple_of_mayIssue h _
  refine ⟨_, hexec, ?_, fun l hl => ⟨fun hw => ?_, fun hw => ?_⟩⟩
  · rw [State.pc_skip (by rw [State.putLanes_proj State.issuing _ _ _ (by simp), hi]),
      State.putLanes_proj State.pc _ _ _ (by simp)]
    rfl
  · rw [State.rdV_skip]
    simp only [State.wrVn, hw, Bool.false_eq_true, if_false]
    rw [s.rdV_putLanes hi _ (lanesOf_nodup _) hlanes _ _ _ _ (hlanes l hl), if_pos ⟨rfl, hl⟩]
  · have hl' := hlanes l hl
    simp only [State.rdVPair, State.rdV_skip, State.wrVn, hw, if_true, State.wrVPair]
    rw [s.rdV_putLanes2 hi _ (lanesOf_nodup _) hlanes _ _ (by omega) _ _ _ _ hl', if_pos ⟨rfl, hl⟩,
      s.rdV_putLanes2 hi _ (lanesOf_nodup _) hlanes _ _ (by omega) _ _ _ _ hl', if_neg (by omega), if_pos ⟨rfl, hl⟩,
      pairVal_lowWord_highWord]

/-- The low k bits of a register value, sign-extended. -/
theorem toNat_signExtend_setWidth (n : Nat) {k : Nat} (hk : 0 < k) (x : Dword) :
    ((x.setWidth k).signExtend n).toNat = wrapN n (sgnN k (x.toNat % 2 ^ k)) := by
  have hsgn : (x.setWidth k).toInt = sgnN k (x.toNat % 2 ^ k) := by
    obtain ⟨j, rfl⟩ : ∃ j, k = j + 1 := ⟨k - 1, by omega⟩
    rw [BitVec.toInt_eq_toNat_cond, BitVec.toNat_setWidth, sgnN, Nat.add_sub_cancel, Nat.pow_succ, Nat.mul_comm (2 ^ j)]
    simp only [Nat.mul_lt_mul_left (show 0 < 2 by decide)]
    push_cast
    rw [pow_succ' (2 : Int)]
  rw [BitVec.signExtend, hsgn, BitVec.toNat_ofInt, wrapN]

theorem wrapN_natCast (n m : Nat) : wrapN n (m : Int) = m % 2 ^ n := by
  rw [wrapN, ← Int.natCast_emod, Int.toNat_natCast]

/-- The sign bit of a wider value does not change its low bits. -/
theorem wrapN_sgnN {n k : Nat} (h : n ≤ k) (x : Nat) : wrapN n (sgnN k (x % 2 ^ k)) = x % 2 ^ n := by
  have hdvd : ((2 ^ n : Nat) : Int) ∣ (2 : Int) ^ k := by
    exact_mod_cast Nat.pow_dvd_pow 2 h
  have hmod : wrapN n (sgnN k (x % 2 ^ k)) = wrapN n ((x % 2 ^ k : Nat) : Int) := by
    unfold sgnN
    split
    · rfl
    · rw [wrapN, wrapN, Int.sub_emod, Int.emod_eq_zero_of_dvd hdvd, Int.sub_zero, Int.emod_emod]
  rw [hmod, wrapN_natCast, Nat.mod_mod_of_dvd _ (Nat.pow_dvd_pow 2 h)]

/-- Between integer types without SAT the result is the source value modulo the destination's range. -/
theorem cvtVal_int {dty sty : CvtTy} {n k : Nat} {sg ks : Bool} (hd : cvtInt dty = some (n, sg)) (hs : cvtInt sty = some (k, ks))
    (rz : Bool) (x : Nat) : cvtVal dty sty rz false x =
      cvtStore n sg (if ks then sgnN k (x % 2 ^ k) else (x % 2 ^ k : Nat)) := by
  simp only [cvtVal, hd, hs, Bool.false_eq_true, if_false]

/-- Six pairs of integer types: a longer type extends the source by the source's sign, a shorter one keeps its low bits, extended to the
register by the destination's sign. -/
theorem cvtVal_int_pairs (x : Dword) : cvtVal .s64 .s32 false false x.toNat = ((x.setWidth 32).signExtend 64).toNat ∧
    cvtVal .z64 .z32 false false x.toNat = ((x.setWidth 32).setWidth 64).toNat ∧
    cvtVal .s32 .s8 false false x.toNat = ((x.setWidth 8).signExtend 32).toNat ∧
    cvtVal .z32 .z16 false false x.toNat = ((x.setWidth 16).setWidth 32).toNat ∧
    cvtVal .s8 .s32 false false x.toNat = ((x.setWidth 8).signExtend 32).toNat ∧
    cvtVal .z8 .s64 false false x.toNat = (x.setWidth 8).toNat := by
  refine ⟨?_, ?_, ?_, ?_, ?_, ?_⟩
  · rw [cvtVal_int rfl rfl, toNat_signExtend_setWidth 64 (by decide)]; rfl
  · rw [cvtVal_int rfl rfl, BitVec.toNat_setWidth, BitVec.toNat_setWidth, ← wrapN_natCast]; rfl
  · rw [cvtVal_int rfl rfl, toNat_signExtend_setWidth 32 (by decide)]; rfl
  · rw [cvtVal_int rfl rfl, BitVec.toNat_setWidth, BitVec.toNat_setWidth, ← wrapN_natCast]; rfl
  · rw [cvtVal_int rfl rfl, toNat_signExtend_setWidth 32 (by decide), ← wrapN_sgnN (show 8 ≤ 32 by decide)]; rfl
  · rw [cvtVal_int rfl rfl, BitVec.toNat_setWidth, ← wrapN_sgnN (show 8 ≤ 64 by decide)]; rfl

/-! ## Format-word instructions -/

/-- The effect of a format-word instruction whose word is valid. -/
def fwEffect : Instr → FormatWord → Fmt → Fmt → State → State
  | .qscale g d a _ => qscaleEffect g d a
  | .qpack g d a _ => qpackEffect g d a
  | .qunpk g d a _ => fun fw sf df t => fwLaneEffect g d fw df (fun u l =>
      encodeF (fmtOf df) fw.mode fw.sat (qunpkVal sf (u.rdV a.toNat l) (u.rdV (a.toNat + 1) l)))
      (divergent sf (qunpkScales g a t)) t
  | .cvtFw g d a _ => fun fw sf df t => fwLaneEffect g d fw df (fun u l =>
      encodeF (fmtOf df) fw.mode (fw.sat || isMx df) (fmtVal sf (u.rdV a.toNat l))) false t
  | _ => fun _ _ _ t => t

/-- The four format-word instructions make the checks of R38 with their own formats and modes, then have their effect. -/
theorem exec_fwOperands {i : Instr} {g : Pred} {d a b : Reg} (h : fwOperands i = some (g, d, a, b)) (s : State) :
    exec i s = fwRun i g b (fwAccepts i) (fwEffect i) s := by
  unfold fwOperands at h
  split at h <;> cases h <;> rfl

theorem laneSize_fwOperands {i : Instr} {g : Pred} {d a b : Reg} (h : fwOperands i = some (g, d, a, b)) : i.laneSize = 4 := by
  unfold fwOperands at h
  split at h <;> cases h <;> rfl

theorem lanesOf_ne_nil {m : Mask} (h : m ≠ 0) : lanesOf m ≠ [] := by
  intro e
  refine h (BitVec.eq_of_getLsbD_eq fun l _ => ?_)
  have hl : l ∉ lanesOf m := by rw [e]; exact List.not_mem_nil
  simpa [mem_lanesOf, hasLane] using hl

/-- Executing lanes that hold one word agree on it. -/
theorem State.agreedWord_of_agree {s : State} {g : Pred} {b : Reg} {w : Word} (h : s.exec g ≠ 0)
    (hw : ∀ l ∈ s.execs g, s.rdV b.toNat l = w) : s.agreedWord g b = some w := by
  unfold State.execs at hw
  unfold State.agreedWord
  split
  · next e => exact absurd e (lanesOf_ne_nil h)
  · next l ls e =>
    have hl : s.rdV b.toNat l = w := hw l (by simp [e])
    have hls : (ls.all fun j => s.rdV b.toNat j == s.rdV b.toNat l) = true := by
      simpa [hl] using fun j hj => hw j (by simp [e, hj])
    rw [if_pos hls, hl]

/-- Two executing lanes with different words: no word is agreed on. -/
theorem State.agreedWord_of_differ {s : State} {g : Pred} {b : Reg} {l m : Nat} (hl : l ∈ s.execs g) (hm : m ∈ s.execs g)
    (h : s.rdV b.toNat l ≠ s.rdV b.toNat m) : s.agreedWord g b = none := by
  unfold State.execs at hl hm
  unfold State.agreedWord
  split
  · rfl
  · next l0 ls e =>
    refine if_neg fun hall => h ?_
    have hall' : ∀ j ∈ l0 :: ls, s.rdV b.toNat j = s.rdV b.toNat l0 := by simpa using hall
    exact (hall' l (e ▸ hl)).trans (hall' m (e ▸ hm)).symm

/-- With no executing lane a format-word instruction has no effect (R38). -/
theorem fwRun_of_no_lane {i : Instr} {g : Pred} {b : Reg} {s : State} (h : s.mayIssue i g = true) (h0 : s.exec g = 0)
    (ok : FormatWord → Fmt → Fmt → Bool) (eff : FormatWord → Fmt → Fmt → State → State) :
    fwRun i g b ok eff s = .next (s.skip i.laneSize) := by
  rw [fwRun, laneRun_of_mayIssue h, if_pos h0]

/-- Executing lanes with different format words trap (R38 step 1). -/
theorem fwRun_of_differ {i : Instr} {g : Pred} {b : Reg} {s : State} (h : s.mayIssue i g = true) {l m : Nat}
    (hl : l ∈ s.execs g) (hm : m ∈ s.execs g) (hne : s.rdV b.toNat l ≠ s.rdV b.toNat m)
    (ok : FormatWord → Fmt → Fmt → Bool) (eff : FormatWord → Fmt → Fmt → State → State) :
    fwRun i g b ok eff s = .next (s.trapWith 0x04 (s.exec g) 0) := by
  have h0 : s.exec g ≠ 0 := by
    intro h0
    rw [State.execs, h0] at hl
    exact absurd hl (by simp [lanesOf])
  rw [fwRun, laneRun_of_mayIssue h, if_neg h0, State.agreedWord_of_differ hl hm hne]

/-- A word on which the executing lanes agree and that is valid: the instruction has its effect (R38). -/
theorem fwRun_of_good {i : Instr} {g : Pred} {b : Reg} {s : State} {w : Word} {sf df : Fmt} (h : s.mayIssue i g = true)
    (h0 : s.exec g ≠ 0) (hw : ∀ l ∈ s.execs g, s.rdV b.toNat l = w) (hgood : fwGood i w sf df = true)
    (eff : FormatWord → Fmt → Fmt → State → State) :
    fwRun i g b (fwAccepts i) eff s = .next ((eff (formatWord w) sf df s).skip i.laneSize) := by
  simp only [fwGood, Bool.and_eq_true, beq_iff_eq] at hgood
  obtain ⟨⟨hs, hd⟩, hv⟩ := hgood
  simp only [fwRun, laneRun_of_mayIssue h, h0, if_false, State.agreedWord_of_agree h0 hw, hs, hd, hv, if_true]

/-- A word on which the executing lanes agree and that is not valid traps (R38 step 2). -/
theorem fwRun_of_bad {i : Instr} {g : Pred} {b : Reg} {s : State} {w : Word} (h : s.mayIssue i g = true)
    (h0 : s.exec g ≠ 0) (hw : ∀ l ∈ s.execs g, s.rdV b.toNat l = w) (hbad : ∀ sf df, fwGood i w sf df = false)
    (eff : FormatWord → Fmt → Fmt → State → State) :
    fwRun i g b (fwAccepts i) eff s = .next (s.trapWith 0x05 (s.exec g) 0) := by
  simp only [fwRun, laneRun_of_mayIssue h, h0, if_false, State.agreedWord_of_agree h0 hw]
  split
  · next sf df hs hd =>
    have hv : (formatWord w).valid (fwAccepts i (formatWord w)) = false := by simpa [fwGood, hs, hd] using hbad sf df
    rw [hv]; rfl
  · rfl

/-! ## What a valid format-word instruction writes -/

/-- The numbers of the words that a format-word instruction writes: executing lanes; for QPACK the word positions that lie in executing
lanes (R130). -/
def State.fwPlaces (s : State) (g : Pred) : Instr → List Nat
  | .qpack .. => (List.range 64).filter fun n => hasLane (s.exec g) (n % s.unitNode.width)
  | _ => s.execs g

/-- The register of word n. -/
def State.fwReg (s : State) (d : Reg) (n : Nat) : Instr → Nat
  | .qpack .. => d.toNat + n / s.unitNode.width
  | _ => d.toNat

/-- The lane of word n. -/
def State.fwLane (s : State) (n : Nat) : Instr → Nat
  | .qpack .. => n % s.unitNode.width
  | _ => n

/-- Word n. -/
def State.fwWord (s : State) (g : Pred) (w : Word) (sf df : Fmt) (n : Nat) (i : Instr) : Word :=
  match i with
  | .qpack _ _ a _ => (s.packWords g a w sf df).getD n 0
  | _ => (s.fwResult w sf df n i).getD 0

/-- The destination registers. -/
def State.fwDest (s : State) (d : Reg) : Instr → List Nat
  | .qpack .. => (List.range (64 / s.unitNode.width)).map (d.toNat + ·)
  | _ => [d.toNat]

/-- The state after the words are written. -/
def State.fwWrites (s : State) (g : Pred) (d : Reg) (w : Word) (sf df : Fmt) (i : Instr) : State :=
  s.putLanes (s.fwPlaces g i) fun u n => u.wrV (s.fwReg d n i) (s.fwLane n i) (s.fwWord g w sf df n i)

/-- The effect is the writes, then with STAT the records (R134). -/
theorem fwEffect_eq {i : Instr} {g : Pred} {d a b : Reg} (h : fwOperands i = some (g, d, a, b)) (s : State) (w : Word) (sf df : Fmt) :
    ∃ rs, rs.length = fwRecords i ∧ fwEffect i (formatWord w) sf df s =
      if (formatWord w).stat then (s.fwWrites g d w sf df i).appendLaneStats rs else s.fwWrites g d w sf df i := by
  unfold fwOperands at h
  split at h <;> cases h
  · exact ⟨[_], rfl, rfl⟩
  · have hput : (s.putLanes (List.range 64) fun u n => if hasLane (s.exec g) (n % s.unitNode.width) then
        u.wrV (d.toNat + n / s.unitNode.width) (n % s.unitNode.width) ((s.packWords g a w sf df).getD n 0) else u) =
        s.fwWrites g d w sf df (.qpack g d a b) := by
      rw [State.fwWrites, State.putLanes, State.putLanes, State.fwPlaces, List.foldl_filter]
      rfl
    rw [← hput]
    exact ⟨[_, _], rfl, rfl⟩
  · exact ⟨[_], rfl, rfl⟩
  · exact ⟨[_], rfl, rfl⟩

section
variable {i : Instr} {g : Pred} {d a b : Reg} {s : State}

theorem State.fwPlaces_nodup (h : fwOperands i = some (g, d, a, b)) : (s.fwPlaces g i).Nodup := by
  unfold fwOperands at h
  split at h <;> cases h
  case h_2 => exact List.nodup_range.filter _
  all_goals exact lanesOf_nodup _

/-- Every word goes to an executing lane. -/
theorem State.fwLane_mem (h : fwOperands i = some (g, d, a, b)) {n : Nat} (hn : n ∈ s.fwPlaces g i) :
    s.fwLane n i ∈ s.execs g := by
  unfold fwOperands at h
  split at h <;> cases h
  case h_2 => exact (mem_lanesOf _ _).mpr (List.mem_filter.mp hn).2
  all_goals exact hn

/-- Different words go to different registers or lanes. -/
theorem State.fwPlace_inj (h : fwOperands i = some (g, d, a, b)) (n j : Nat) (hr : s.fwReg d n i = s.fwReg d j i)
    (hl : s.fwLane n i = s.fwLane j i) : n = j := by
  unfold fwOperands at h
  split at h <;> cases h
  case h_2 =>
    have hq : n / s.unitNode.width = j / s.unitNode.width := Nat.add_left_cancel hr
    have hm : n % s.unitNode.width = j % s.unitNode.width := hl
    rw [← Nat.div_add_mod n s.unitNode.width, hq, hm, Nat.div_add_mod]
  all_goals exact hl

/-- Every word goes to a destination register, where the width of the group divides 64. -/
theorem State.fwReg_mem (h : fwOperands i = some (g, d, a, b)) (hw : s.unitNode.width ∣ 64) {n : Nat}
    (hn : n ∈ s.fwPlaces g i) : s.fwReg d n i ∈ s.fwDest d i := by
  unfold fwOperands at h
  split at h <;> cases h
  case h_2 =>
    have hn64 : n < 64 := List.mem_range.mp (List.mem_filter.mp hn).1
    have hq : n / s.unitNode.width < 64 / s.unitNode.width :=
      Nat.div_lt_of_lt_mul (by rwa [Nat.mul_div_cancel' hw])
    exact List.mem_map.mpr ⟨_, List.mem_range.mpr hq, rfl⟩
  all_goals exact List.mem_singleton.mpr rfl

theorem State.hasLane_fwLane (h : fwOperands i = some (g, d, a, b)) {n : Nat} (hn : n ∈ s.fwPlaces g i) :
    hasLane s.lanes (s.fwLane n i) = true :=
  ((exec_lanes s g _).mp (State.fwLane_mem h hn)).1

theorem State.issuing_fwWrites (w : Word) (sf df : Fmt) : (s.fwWrites g d w sf df i).issuing = s.issuing :=
  State.issuing_putLanes_wrV ..

theorem State.facets_fwWrites (w : Word) (sf df : Fmt) : (s.fwWrites g d w sf df i).facets = s.facets :=
  State.facets_putLanes_wrV ..

theorem State.pc_skip_fwWrites (hs : s.issuing = true) (w : Word) (sf df : Fmt) :
    ((s.fwWrites g d w sf df i).skip 4).pc = s.pc + 4 := by
  rw [State.pc_skip (by rw [State.issuing_fwWrites, hs]), State.fwWrites, State.pc_putLanes_wrV]
  rfl

/-- Every word reads as it was written. -/
theorem State.rdV_skip_fwWrites (h : fwOperands i = some (g, d, a, b)) (hs : s.issuing = true) (w : Word) (sf df : Fmt) {n : Nat}
    (hn : n ∈ s.fwPlaces g i) :
    ((s.fwWrites g d w sf df i).skip 4).rdV (s.fwReg d n i) (s.fwLane n i) = s.fwWord g w sf df n i := by
  rw [State.rdV_skip]
  exact State.rdV_putLanes_place hs (State.fwPlaces_nodup h) (m := fun n => s.fwReg d n i) (l := fun n => s.fwLane n i)
    (fun _ => State.hasLane_fwLane h) (State.fwPlace_inj h) (fun n => s.fwWord g w sf df n i) hn

/-- The writes stay within the destination registers of the executing lanes, where the width of the group divides 64. -/
theorem State.regsOnly_skip_fwWrites (h : fwOperands i = some (g, d, a, b)) (hs : s.issuing = true) (w : Word) (sf df : Fmt)
    (hw : s.unitNode.width ∣ 64) : RegsOnly (s.execs g) (s.fwDest d i) [] [] s ((s.fwWrites g d w sf df i).skip 4) :=
  ((RegsOnly.refl _ _ _ _ s).putLanes hs (fun _ => State.fwReg_mem h hw) (fun _ => State.fwLane_mem h) _).setPc
    (by rw [State.issuing_putLanes_wrV, hs]) _

/-- The result of a lane is the word that it writes to D. -/
theorem State.fwPlace_of_fwResult (h : fwOperands i = some (g, d, a, b)) {w v : Word} {sf df : Fmt} {l : Nat}
    (hl : l ∈ s.execs g) (hv : s.fwResult w sf df l i = some v) :
    l ∈ s.fwPlaces g i ∧ s.fwReg d l i = d.toNat ∧ s.fwLane l i = l ∧ s.fwWord g w sf df l i = v := by
  unfold fwOperands at h
  split at h <;> cases h
  case h_2 => exact absurd hv (by simp [State.fwResult])
  all_goals exact ⟨hl, rfl, rfl, congrArg (fun r : Option Word => r.getD 0) hv⟩

/-- The records: none without STAT; with it the queue of the group's facet grows by them while it has room. -/
theorem fwEffect_skip (h : fwOperands i = some (g, d, a, b)) (w : Word) (sf df : Fmt) : ∃ F : Table Facet,
    (fwEffect i (formatWord w) sf df s).skip 4 = { (s.fwWrites g d w sf df i).skip 4 with facets := F } ∧
    ((formatWord w).stat = false → F = s.facets) ∧
    ((formatWord w).stat = true → ∀ f, f = (s.blk s.unitBlk).facet → (F.getD f Facet.reset).stats.length =
      min (max 64 (s.facet f).stats.length) ((s.facet f).stats.length + fwRecords i)) := by
  obtain ⟨rs, hlen, heff⟩ := fwEffect_eq h s w sf df
  rw [heff]
  cases hs : (formatWord w).stat with
  | false =>
    refine ⟨s.facets, ?_, fun _ => rfl, fun e => absurd e (by decide)⟩
    have hf : ((s.fwWrites g d w sf df i).skip 4).facets = s.facets := by
      rw [State.skip_facets, State.facets_fwWrites]
    rw [← hf]
    rfl
  | true =>
    refine ⟨_, State.skip_appendLaneStats .., fun e => absurd e (by decide), fun _ f hf => ?_⟩
    have hunit : f = ((s.fwWrites g d w sf df i).blk (s.fwWrites g d w sf df i).unitBlk).facet := by
      rw [hf, State.fwWrites, State.unitFacet_putLanes_wrV]
    have hsame : (s.fwWrites g d w sf df i).facet f = s.facet f := by
      rw [State.facet, State.facets_fwWrites, State.facet]
    rw [← hlen, ← hsame]
    exact State.stats_appendLaneStats _ rs hunit

/-- A valid format-word instruction (R129-R134): its results, its records, and, where the width of the group divides 64, its frame. -/
theorem exec_formatWord (h : fwOperands i = some (g, d, a, b)) {w : Word} {sf df : Fmt} (hi : s.mayIssue i g = true)
    (h0 : s.exec g ≠ 0) (hw : ∀ l ∈ s.execs g, s.rdV b.toNat l = w) (hgood : fwGood i w sf df = true) : ∃ t : State,
      exec i s = .next t ∧ t.pc = s.pc + 4 ∧
      (∀ l ∈ s.execs g, ∀ v, s.fwResult w sf df l i = some v → t.rdV d.toNat l = v) ∧
      (i = .qpack g d a b → ∀ n < 64, hasLane (s.exec g) (n % s.unitNode.width) = true →
        t.rdV (d.toNat + n / s.unitNode.width) (n % s.unitNode.width) = (s.packWords g a w sf df).getD n 0) ∧
      ((formatWord w).stat = false → t.facets = s.facets) ∧
      ((formatWord w).stat = true → ∀ f, f = (s.blk s.unitBlk).facet →
        (t.facet f).stats.length = min (max 64 (s.facet f).stats.length) ((s.facet f).stats.length + fwRecords i)) ∧
      (s.unitNode.width ∣ 64 → RegsOnly (s.execs g) (s.fwDest d i) [] [] s { t with facets := s.facets }) := by
  have hs := issuing_of_mayIssue hi
  obtain ⟨F, heff, hnone, hrecs⟩ := fwEffect_skip (s := s) h w sf df
  have hexec := fwRun_of_good hi h0 hw hgood (fwEffect i)
  rw [← exec_fwOperands h, laneSize_fwOperands h, heff] at hexec
  have hwords := fun n => State.rdV_skip_fwWrites (n := n) h hs w sf df
  refine ⟨_, hexec, State.pc_skip_fwWrites hs w sf df, fun l hl v hv => ?_, fun hq n hn hlane => ?_, hnone, hrecs, fun hd => ?_⟩
  · obtain ⟨hplace, hreg, hlane, hword⟩ := State.fwPlace_of_fwResult h hl hv
    have hread := hwords l hplace
    rwa [hreg, hlane, hword] at hread
  · subst hq
    exact hwords n (List.mem_filter.mpr ⟨List.mem_range.mpr hn, hlane⟩)
  · have hf : ((s.fwWrites g d w sf df i).skip 4).facets = s.facets := by
      rw [State.skip_facets, State.facets_fwWrites]
    rw [← hf]
    exact State.regsOnly_skip_fwWrites h hs w sf df hd

end

/-- The checks of R38, in their order: no executing lane, no effect; lanes that disagree; a word that is not valid. -/
theorem exec_formatWord_checks {i : Instr} {g : Pred} {d a b : Reg} {s : State} (h : fwOperands i = some (g, d, a, b))
    (hi : s.mayIssue i g = true) :
    (s.exec g = 0 → exec i s = .next (s.setPc (s.pc + 4))) ∧
    (∀ l ∈ s.execs g, ∀ m ∈ s.execs g, s.rdV b.toNat l ≠ s.rdV b.toNat m →
      exec i s = .next (s.trapWith 0x04 (s.exec g) 0)) ∧
    (∀ w : Word, s.exec g ≠ 0 → (∀ l ∈ s.execs g, s.rdV b.toNat l = w) → (∀ sf df, fwGood i w sf df = false) →
      exec i s = .next (s.trapWith 0x05 (s.exec g) 0)) := by
  rw [exec_fwOperands h]
  refine ⟨fun h0 => ?_, fun l hl m hm hne => fwRun_of_differ hi hl hm hne _ _, fun w h0 hw hbad => fwRun_of_bad hi h0 hw hbad _⟩
  rw [fwRun_of_no_lane hi h0, laneSize_fwOperands h]
  rfl

/-! ## QPACK in a group whose width does not divide 64

QPACK writes word position n of 0 to 63 to register D + n div WIDTH (R130), and its destination is stated as 64 div WIDTH registers.
These are all of them exactly where the width divides 64, as the loader's check of a node's width has it (02 R72: 8, 16, 32 or 64).
The statement quantifies over every state, and so over widths that no node has. -/

/-- The word of a lane register in the state that an outcome goes on to. -/
def Out.rdV (o : Out) (m l : Nat) : Option Word :=
  match o with
  | .next t => some (t.rdV m l)
  | _ => none

/-- A resident block of one group of width 3, one lane of it active: 64 div 3 = 21 registers of 3 words hold 63 of the 64 words
that QPACK writes. v21 of lane 0 holds 1, and v60 the format word of FP32 to MX-E4M3. -/
def groupOfThree : State :=
  { State.reset with
    focus := .split 0 0 0
    blocks := [(0, { Block.empty with
      node := { (default : Node) with width := 3, vregs := 64 }
      phase := .resident
      groups := [(0, { Group.empty with splits := [(0, { Split.empty with am := 1 })] })]
      vregs := [(21 * 3, 1), (60 * 3, 0x60)] })] }

theorem groupOfThree_mayIssue : groupOfThree.mayIssue (.qpack 0 0 0 60) 0 = true := by decide +kernel

theorem groupOfThree_execs : groupOfThree.execs 0 = [0] := by decide +kernel

theorem groupOfThree_rdV : groupOfThree.rdV 21 0 = 1 := by decide +kernel

/-- The last of the 64 words, a zero, goes to the 22nd register from D. -/
theorem rdV_qpack_groupOfThree : Out.rdV (exec (.qpack 0 0 0 60) groupOfThree) 21 0 = some 0 := by decide +kernel

/-- Refutes O14: QPACK v0, v0, v60 in the group `groupOfThree`, of width 3, sets v21 of lane 0 to 0 where it was 1, and the frame of
the second clause lets only v0 to v20 change. -/
theorem not_conversions : ¬ Obligations.Conversions := by
  unfold Obligations.Conversions
  rintro ⟨-, hword, -⟩
  obtain ⟨t, hexec, -, -, -, -, -, hframe⟩ :=
    hword (.qpack 0 0 0 60) 0 0 0 60 rfl groupOfThree 0x60 .fp32 .mxE4M3 groupOfThree_mayIssue (by decide +kernel)
      (by rw [groupOfThree_execs]; decide +kernel) (by decide +kernel)
  have hwritten : t.rdV 21 0 = 0 := by
    have h := rdV_qpack_groupOfThree
    rw [hexec] at h
    exact Option.some.inj h
  have hkept : ({ t with facets := groupOfThree.facets } : State).rdV 21 0 = groupOfThree.rdV 21 0 :=
    State.rdV_of_regsOnly rfl hframe (by rw [groupOfThree_execs]; decide +kernel)
  have hold : t.rdV 21 0 = 1 := hkept.trans groupOfThree_rdV
  exact absurd (hwritten.symm.trans hold) (by decide)

end Sys2Proof.Machine

end

/-!
PROOFS. Encodings (spec/02_encoding.md R41-R66, spec/17_die_telemetry.md R364, R365): the words that the spec spells out (O1), decoding
of what is encoded (O2), and encoding of what decodes (O3). For O3 each decoder of `Decode.lean` has one lemma, that the fields it read are
those of the instruction it answers.
-/

section

namespace Sys2Proof.Laws.RoundTrip

/-- Decoding gives back every well-formed instruction: the lemma of each row of the opcode table, in the table's order. -/
theorem statement_of_instr (i : Instr) : Statement i :=
  Instr.casesOn (motive := Statement) i
    iadd isub iaddc lea imlo imhiS imhiZ imac idivS idivZ iabs ineg iminS iminZ imaxS imaxZ and or xor andn shl shr sar rol
    bfxS bfxZ bfi not clz popc brev mov moviV movhiV moviS movhiS icmp sel pand por pxor pnot padd psub pmul pmin pmax pdot
    pwiden pnarrow pcmpEq pcmpLt fadd fsub fmul ffma fmin fmax fclass pfmaF16 pfmaBf16 fcmp fexp2 flog2 frcp frsq fsqrt fsinpi
    fcospi ftanh fsigm fgelu fsilu ferf cvt qscale qpack qunpk cvtFw voteAll voteAny voteBal voteEq shflIdx shflUp shflDn
    shflXor redux scanInc scanExc bra braEj call brx callx ret join exit eret live yield trap ld st lds sts smap pref fenceAcq
    fenceRel fenceAr atomAdd atomMinS atomMinZ atomMaxS atomMaxZ atomAnd atomOr atomXor atomExch incw decw atomAddb atomCasW
    atomCasD atomCasQ waitc give take barSync barArr barWait rwait rdone eset eget ecmdGo ecmdClear sparseIndexGo
    sparseIndexClear lodestarGo lodestarClear copy ewait cbarSync cbarArr cbarWait dbar emit mfs mts ctxsv ctxld ldW ldD ldQ
    stW stD stQ ldsW stsW nop sadd ssub smul sand sor sshl sli scmp sbra sloop scall sret sgive stake sbarSync sbarArr
    sbarWait sstat shalt tmmaBf16 tmmaF16 tmmaE4M3 tmmaE5M2 tmmaQf4 tmmaF32 tzero tcvt vadd vmul vfma vmax vmin vrelu vsel
    vred vscl tld tst zbind zset zskip fltLdf fltLdi fltMovk fltAddi fltShri fltMov fltAdd fltSub fltAnd fltOr fltShl fltShr
    fltCeq fltCltu fltClts fltBz fltBnz fltJmp fltHist fltSku fltCadd fltTrig fltEnd splitMerge ejectedLaneStart copyBack
    joinTimeout loadDataLands ownershipRegistration registrationAck homeRead homeAtomic ownerForward revocation
    waitcReevaluate waitcPoll emitWake stashWriteBack takeCompletes takeLimit operationLands tldFill tstTileRead
    streamReadAhead writePortEntryWrite safePointStop forcedSavePoint copySlotClaim copySlotFilled copyOperationDone
    sparseIndexDone lodestarDone cbarHalfMessage dbarWindow dbarCompletionMessage dbarRelease pageWalkStart pageWalkEnd
    hintedRequestForward translationInvalidation migrate migrateBias migrationPassEnd migrationComplete loaderRegister
    registerQueue stampObserved batchTimeout blockAdmission reservation quantumPreemption preemption accFirstUseService
    parkRecord parkLimit allBlockedSwapOut distributorWaitcPoll resume endBlock blockEnd stop functionLevelReset vfSliceEnd
    energyWindowEnd arbiterWindow eventDispatch counterSample budgetWindow linkerrEmit attach detach read readclr triggerRearm
    afterglowRead mctlWrite cmodeWrite fownWrite cmerrWrite floorWrite pctlWrite registerWrite coldReset warmReset
    firmwareImage flitReceive flitAcknowledge replayRequest portRetrainEnd remoteRequest hostCompletion illegalInstruction
    illegalBundle instructionFetchFault hostMemoryRequest sharedStorePerformed cbarReleaseMessage dieLinkCrcRetry pqheadWrite

/-- Settles O2: each row of the opcode table has its lemma in `Laws/PerInstr`. -/
theorem decodeOfEncode : Obligations.DecodeOfEncode := statement_of_instr

/-- Settles O1, by running the decoders on the seventeen words. -/
theorem decodeWords : Obligations.DecodeWords := by
  unfold Obligations.DecodeWords
  decide +kernel

end Sys2Proof.Laws.RoundTrip

namespace Sys2Proof.Laws.Inverse
open Sys2Proof Sys2Proof.Laws.Enc
set_option linter.constructorNameAsVariable false

/-! ## Words are their fields -/

theorem append_parts {m n : Nat} (x : BitVec (m + n)) : x.extractLsb' n m ++ x.extractLsb' 0 n = x := by
  have h := join_parts x 0 m n
  rw [Nat.zero_add] at h
  rw [h]; simp

theorem word_laneFields (w : Word) : (laneFields w).word = w := by
  have hb := join_parts w 0 6 4
  have ha := join_parts w 0 6 10
  have hd := join_parts w 0 6 16
  have hg := join_parts w 0 4 22
  have hop := append_parts (m := 6) (n := 26) w
  simp only [Nat.zero_add, Nat.reduceAdd] at hb ha hd hg
  simp only [laneFields, LaneFields.word, hb, ha, hd, hg]
  exact hop

/-! ## Fields that encode an instruction -/

/-- The encoding of `i` has the fields `f`, and its literal word, where it has one, is `lit`. -/
def Encodes (i : Instr) (f : LaneFields) (lit : Word) : Prop :=
  ∃ c, laneCode i = some c ∧ c.fields = f ∧ ∀ x, c.lit = some x → x = lit

theorem encodes_of_codeT {i : Instr} {f : LaneFields} {lit : Word} {op : BitVec 6} {g : Pred} {d a b : Reg} {fn : BitVec 4}
    (h : laneCode i = codeT op g d a b fn) (ho : op = f.op) (hg : g = f.g) (hd : d = f.d) (ha : a = f.a) (hb : b = f.b)
    (hf : fn = f.fn) : Encodes i f lit := by
  subst ho hg hd ha hb hf
  exact ⟨_, h, rfl, nofun⟩

theorem okIf_eq_some {c : Bool} {i j : Instr} : okIf c i = some j ↔ c = true ∧ i = j := by
  cases c <;> simp [okIf]

/-- A last source that is read from an operand class, a field B and the literal word has them as its own. -/
theorem of_decSrc {oc : BitVec 2} {b : BitVec 6} {lit : Word} {src : Src} (h : decSrc oc b lit = some src) :
    src.oc = oc ∧ src.field = b ∧ ∀ x, src.literal = some x → x = lit := by
  unfold decSrc at h
  split at h
  case h_4 h0 h1 h2 =>
    obtain ⟨rfl, rfl⟩ : b = 0 ∧ .lit lit = src := by simpa using h
    have hoc : oc = 0b11 := by
      clear h
      revert oc; decide
    exact ⟨hoc.symm, rfl, by simp [Src.literal]⟩
  all_goals
    cases h
    exact ⟨rfl, rfl, nofun⟩

theorem encodes_of_codeOC {i : Instr} {f : LaneFields} {lit : Word} {src : Src} {op : BitVec 6} {d a : Reg} {sub : BitVec 2}
    (hs : decSrc (f.fn.extractLsb' 2 2) f.b lit = some src) (h : laneCode i = codeOC op f.g d a src sub)
    (ho : op = f.op) (hd : d = f.d) (ha : a = f.a) (hf : f.fn.extractLsb' 0 2 = sub) : Encodes i f lit := by
  obtain ⟨hoc, hb, hlit⟩ := of_decSrc hs
  have hfn : f.fn.extractLsb' 2 2 ++ f.fn.extractLsb' 0 2 = f.fn := append_parts (m := 2) (n := 2) f.fn
  subst ho hd ha hf
  refine ⟨_, h, ?_, hlit⟩
  rw [hoc, hb, hfn]

/-! ## Integer and float majors, compares (R47, R48, R50) -/

theorem intOp_of_lt {op : BitVec 6} (h : op.toNat < 16) :
    ((0#2 ++ op.extractLsb' 1 3 : BitVec 5) ++ BitVec.ofBool (op.getLsbD 0) : BitVec 6) = op := by
  revert op; decide

theorem encodes_of_codeInt {i : Instr} {f : LaneFields} {lit : Word} {src : Src} {a : Reg} {sub : BitVec 2} {grp : BitVec 3}
    (hop : f.op.toNat < 16) (hs : decSrc (f.fn.extractLsb' 2 2) f.b lit = some src)
    (h : laneCode i = codeInt grp sub f.g (f.op.getLsbD 0) f.d a src) (hg : f.op.extractLsb' 1 3 = grp) (ha : a = f.a)
    (hf : f.fn.extractLsb' 0 2 = sub) : Encodes i f lit :=
  encodes_of_codeOC hs h (by rw [← hg, intOp_of_lt hop]) rfl ha hf

theorem encodes_of_decInt {f : LaneFields} {lit : Word} {i : Instr} (hop : f.op.toNat < 16) (h : decInt f lit = some i) :
    Encodes i f lit := by
  unfold decInt at h
  split at h
  · cases h
  next src hs =>
    split at h
    case h_11 hg hf | h_12 hg hf | h_28 hg hf | h_29 hg hf | h_30 hg hf | h_31 hg hf | h_32 hg hf =>
      obtain ⟨ha, rfl⟩ := okIf_eq_some.mp h
      exact encodes_of_codeInt hop hs rfl hg (eq_of_beq ha).symm hf
    all_goals
      rename_i hg hf
      cases h
      exact encodes_of_codeInt hop hs rfl hg rfl hf

theorem encodes_of_decFloat {f : LaneFields} {lit : Word} {i : Instr} (h : decFloat f lit = some i) : Encodes i f lit := by
  unfold decFloat at h
  split at h
  · cases h
  next src hs =>
    split at h
    case h_7 ho hf =>
      obtain ⟨ha, rfl⟩ := okIf_eq_some.mp h
      exact encodes_of_codeOC hs rfl ho.symm rfl (eq_of_beq ha).symm hf
    case h_10 => cases h
    all_goals
      rename_i ho hf
      cases h
      exact encodes_of_codeOC hs rfl ho.symm rfl rfl hf

/-! ## Codes of the enumerations -/

theorem encICond_of_dec {x : BitVec 3} {c : ICond} (h : decICond x = some c) : encICond c = x := by
  revert h; revert x; cases c <;> decide
theorem encFCond_of_dec {x : BitVec 3} {c : FCond} (h : decFCond x = some c) : encFCond c = x := by
  revert h; revert x; cases c <;> decide
theorem encFloatTy_of_dec {x : BitVec 2} {c : FloatTy} (h : decFloatTy x = some c) : encFloatTy c = x := by
  revert h; revert x; cases c <;> decide
theorem encEWidth_of_dec {x : BitVec 2} {c : EWidth} (h : decEWidth x = some c) : encEWidth c = x := by
  revert h; revert x; cases c <;> decide
theorem encCvtTy_of_dec {x : BitVec 4} {c : CvtTy} (h : decCvtTy x = some c) : encCvtTy c = x := by
  revert h; revert x; cases c <;> decide
theorem encRedOp_of_dec {x : BitVec 4} {c : RedOp} (h : decRedOp x = some c) : encRedOp c = x := by
  revert h; revert x; cases c <;> decide
theorem encMWidth_of_dec {x : BitVec 3} {c : MWidth} (h : decMWidth x = some c) : encMWidth c = x := by
  revert h; revert x; cases c <;> decide
theorem encMOrd_of_dec {x : BitVec 2} {c : MOrd} (h : decMOrd x = some c) : encMOrd c = x := by
  revert h; revert x; cases c <;> decide
theorem encWCmp_of_dec {x : BitVec 4} {c : WCmp} (h : decWCmp x = some c) : encWCmp c = x := by
  revert h; revert x; cases c <;> decide
theorem encSpecReg_of_dec {x : BitVec 6} {c : SpecReg} (h : decSpecReg x = some c) : encSpecReg c = x := by
  revert h; revert x; cases c <;> decide
theorem encHint_of_dec {x : BitVec 4} {c : Option (BitVec 3)} (h : decHint x = some c) : encHint c = x := by
  revert h; revert x c; decide

/-! ## Compares (R50) -/

theorem low_of_bits (x : BitVec 4) : x.extractLsb' 0 2 = BitVec.ofBool (x.getLsbD 1) ++ BitVec.ofBool (x.getLsbD 0) := by
  revert x; decide

theorem encodes_of_decCmp {f : LaneFields} {lit : Word} {i : Instr} (ho : f.op = 0x12 ∨ f.op = 0x1F) (h : decCmp f lit = some i) :
    Encodes i f lit := by
  have hd : f.d.extractLsb' 3 3 ++ f.d.extractLsb' 0 3 = f.d := append_parts (m := 3) (n := 3) f.d
  unfold decCmp at h
  split at h
  · cases h
  next src hs =>
    split at h
    next hop =>
      obtain ⟨c, hc, rfl⟩ := Option.map_eq_some_iff.mp h
      exact encodes_of_codeOC hs rfl hop.symm (by rw [encICond_of_dec hc, hd]) rfl (low_of_bits f.fn)
    next hop =>
      split at h
      next c t hc ht =>
        cases h
        exact encodes_of_codeOC hs rfl (ho.resolve_left hop).symm (by rw [encFCond_of_dec hc, hd]) rfl (encFloatTy_of_dec ht).symm
      · cases h

/-! ## Format T majors (R51-R62): the reserved fields are 0 -/

theorem pairField_of_high {d : BitVec 6} (h : d.extractLsb' 3 3 = 0) : pairField (d.extractLsb' 0 3) = d := by
  revert d; decide
theorem numField_of_high {d : BitVec 6} (h : d.extractLsb' 4 2 = 0) : numField (d.extractLsb' 0 4) = d := by
  revert d; decide
theorem engField_of_high {d : BitVec 6} (h : d.extractLsb' 2 4 = 0) : engField (d.extractLsb' 0 2) = d := by
  revert d; decide

theorem encodes_of_decPred {f : LaneFields} {lit : Word} {i : Instr} (ho : 0x14 = f.op) (h : decPred f = some i) : Encodes i f lit := by
  unfold decPred at h
  dsimp only at h
  split at h
  case h_5 => cases h
  all_goals
    rename_i hf
    simp only [okIf_eq_some, Bool.and_eq_true, beq_iff_eq] at h
  case h_4 =>
    obtain ⟨⟨⟨⟨hd, ha⟩, hb⟩, hp⟩, rfl⟩ := h
    refine encodes_of_codeT rfl ho rfl (pairField_of_high hd) (numField_of_high ha) ?_ hf.symm
    rw [← numField_of_high hb, hp]; rfl
  all_goals
    obtain ⟨⟨⟨hd, ha⟩, hb⟩, rfl⟩ := h
    exact encodes_of_codeT rfl ho rfl (pairField_of_high hd) (numField_of_high ha) (numField_of_high hb) hf.symm

theorem packedFn_of_dec {fn : BitVec 4} {e : EWidth} {x : Bool} (h : decEWidth (fn.extractLsb' 2 2) = some e) (hx : fn.getLsbD 0 = x) :
    packedFn e (fn.getLsbD 1) x = fn := by
  subst hx
  rw [packedFn, encEWidth_of_dec h]
  clear h
  revert fn; decide

theorem encodes_of_decPacked {f : LaneFields} {lit : Word} {i : Instr} (h : decPacked f = some i) : Encodes i f lit := by
  unfold decPacked at h
  dsimp only at h
  split at h
  · cases h
  next e he =>
    split at h
    case h_1 ho | h_2 ho | h_3 ho =>
      cases h
      exact encodes_of_codeT rfl ho.symm rfl rfl rfl rfl (packedFn_of_dec he rfl)
    case h_4 ho | h_7 ho =>
      cases hx : f.fn.getLsbD 0 <;> rw [hx] at h <;> cases h <;>
        exact encodes_of_codeT rfl ho.symm rfl rfl rfl rfl (packedFn_of_dec he hx)
    case h_5 ho =>
      obtain ⟨hx, rfl⟩ := okIf_eq_some.mp h
      exact encodes_of_codeT rfl ho.symm rfl rfl rfl rfl (packedFn_of_dec he (by simpa using hx))
    case h_6 ho =>
      split at h
      next hx =>
        cases h
        exact encodes_of_codeT rfl ho.symm rfl rfl rfl rfl (packedFn_of_dec he hx)
      next hx =>
        obtain ⟨ha, rfl⟩ := okIf_eq_some.mp h
        exact encodes_of_codeT rfl ho.symm rfl rfl (eq_of_beq ha).symm rfl (packedFn_of_dec he (by simpa using hx))
    case h_8 => cases h

theorem high_zero_append {b : BitVec 6} (h : b.extractLsb' 2 4 = 0) : 0#4 ++ b.extractLsb' 0 2 = b := by
  revert b; decide

theorem encodes_of_decSpecial {f : LaneFields} {lit : Word} {i : Instr} (ho : 0x20 = f.op) (h : decSpecial f = some i) :
    Encodes i f lit := by
  unfold decSpecial at h
  split at h
  next hb =>
    split at h
    · cases h
    next t ht =>
      have hb : 0#4 ++ encFloatTy t = f.b := by rw [encFloatTy_of_dec ht, high_zero_append hb]
      split at h
      case h_13 => cases h
      all_goals
        rename_i hf
        cases h
        exact encodes_of_codeT rfl ho rfl rfl rfl hb hf.symm
  · cases h

theorem encodes_of_decCvt {f : LaneFields} {lit : Word} {i : Instr} (ho : 0x21 = f.op) (h : decCvt f = some i) : Encodes i f lit := by
  unfold decCvt at h
  split at h
  next x y hx hy =>
    cases h
    refine encodes_of_codeT rfl ho rfl rfl rfl ?_ ?_
    · rw [encCvtTy_of_dec hx, encCvtTy_of_dec hy]
      generalize f.b = b
      generalize f.fn = fn
      revert b fn; decide
    · rw [encCvtTy_of_dec hy]
      generalize f.b = b
      generalize f.fn = fn
      revert b fn; decide
  · cases h

theorem encodes_of_decFw {f : LaneFields} {lit : Word} {i : Instr} (ho : 0x22 = f.op) (h : decFw f = some i) : Encodes i f lit := by
  unfold decFw at h
  split at h
  case h_5 => cases h
  all_goals
    rename_i hf
    cases h
    exact encodes_of_codeT rfl ho rfl rfl rfl rfl hf.symm

theorem voteFn_of {fn : BitVec 4} {n : BitVec 3} (h : fn.extractLsb' 0 3 = n) : BitVec.ofBool (fn.getLsbD 3) ++ n = fn := by
  subst h; revert fn; decide

theorem encodes_of_decVote {f : LaneFields} {lit : Word} {i : Instr} (ho : 0x23 = f.op) (h : decVote f = some i) : Encodes i f lit := by
  unfold decVote at h
  dsimp only at h
  split at h
  case h_1 hf | h_2 hf | h_4 hf =>
    simp only [okIf_eq_some, Bool.and_eq_true, beq_iff_eq] at h
    obtain ⟨⟨⟨ha, hb⟩, hd⟩, rfl⟩ := h
    exact encodes_of_codeT rfl ho rfl (pairField_of_high hd) (numField_of_high ha) hb.symm (voteFn_of hf)
  case h_3 hf =>
    simp only [okIf_eq_some, Bool.and_eq_true, beq_iff_eq] at h
    obtain ⟨⟨ha, hb⟩, rfl⟩ := h
    exact encodes_of_codeT rfl ho rfl rfl (numField_of_high ha) hb.symm (voteFn_of hf)
  all_goals
    rename_i hf
    cases h
    exact encodes_of_codeT rfl ho rfl rfl rfl rfl (voteFn_of hf)

theorem reduxB_of {b : BitVec 6} {n : BitVec 2} (h : b.extractLsb' 3 2 = n) : reduxB (b.getLsbD 5) n (b.extractLsb' 0 3) = b := by
  subst h; revert b; decide

theorem encodes_of_decRedux {f : LaneFields} {lit : Word} {i : Instr} (ho : 0x24 = f.op) (h : decRedux f = some i) :
    Encodes i f lit := by
  unfold decRedux at h
  dsimp only at h
  split at h
  · cases h
  next op hop =>
    split at h
    case h_4 => cases h
    all_goals
      rename_i hb
      cases h
      exact encodes_of_codeT rfl ho rfl rfl rfl (reduxB_of hb) (encRedOp_of_dec hop)

theorem encodes_of_decControl {f : LaneFields} {lit : Word} {i : Instr} (ho : 0x28 = f.op) (h : decControl f = some i) :
    Encodes i f lit := by
  unfold decControl at h
  dsimp only at h
  split at h
  case h_10 => cases h
  all_goals
    rename_i hf
    simp only [okIf_eq_some, Bool.and_eq_true, beq_iff_eq] at h
  case h_1 | h_2 | h_9 =>
    obtain ⟨⟨hd, hb⟩, rfl⟩ := h
    exact encodes_of_codeT rfl ho rfl hd.symm rfl hb.symm hf.symm
  case h_7 =>
    obtain ⟨⟨hd, hb⟩, rfl⟩ := h
    exact encodes_of_codeT rfl ho rfl (engField_of_high hd) rfl hb.symm hf.symm
  all_goals
    obtain ⟨⟨⟨hd, ha⟩, hb⟩, rfl⟩ := h
    exact encodes_of_codeT rfl ho rfl hd.symm ha.symm hb.symm hf.symm

theorem memB_of {b : BitVec 6} {w : MWidth} {x : Bool} {r : BitVec 2} (hw : decMWidth (b.extractLsb' 2 3) = some w)
    (hx : b.getLsbD 5 = x) (hr : r = b.extractLsb' 0 2) : memB x w r = b := by
  subst hx hr
  rw [memB, encMWidth_of_dec hw]
  clear hw
  revert b; decide

theorem encodes_of_decMem {f : LaneFields} {lit : Word} {i : Instr} (ho : 0x29 = f.op) (h : decMem f = some i) : Encodes i f lit := by
  unfold decMem at h
  split at h
  next w r n hw hr hn =>
    cases hx : f.b.getLsbD 5 <;> rw [hx] at h <;> cases h <;>
      exact encodes_of_codeT rfl ho rfl rfl rfl (memB_of hw hx (encMOrd_of_dec hr)) (encHint_of_dec hn)
  · cases h

theorem low_of_rel {b : BitVec 6} (h : b.getLsbD 1 = false) : 0#1 ++ BitVec.ofBool (b.getLsbD 0) = b.extractLsb' 0 2 := by
  revert b; decide

theorem encodes_of_decShared {f : LaneFields} {lit : Word} {i : Instr} (ho : 0x2A = f.op) (h : decShared f = some i) :
    Encodes i f lit := by
  unfold decShared at h
  split at h
  · cases h
  next w hw =>
    simp only [okIf_eq_some, Bool.and_eq_true, beq_iff_eq, Bool.not_eq_true'] at h
    obtain ⟨⟨hf, h1⟩, hi⟩ := h
    cases hx : f.b.getLsbD 5 <;> rw [hx] at hi <;> cases hi <;>
      exact encodes_of_codeT rfl ho rfl rfl rfl (memB_of hw hx (low_of_rel h1)) hf.symm

theorem encodes_of_decMisc {f : LaneFields} {lit : Word} {i : Instr} (ho : 0x2B = f.op) (h : decMisc f = some i) : Encodes i f lit := by
  unfold decMisc at h
  dsimp only at h
  split at h
  case h_1 hf =>
    cases h
    exact encodes_of_codeT rfl ho rfl rfl rfl rfl hf.symm
  case h_6 => cases h
  all_goals
    rename_i hf
    simp only [okIf_eq_some, Bool.and_eq_true, beq_iff_eq] at h
  case h_2 =>
    obtain ⟨⟨hd, hb⟩, rfl⟩ := h
    exact encodes_of_codeT rfl ho rfl hd.symm rfl hb.symm hf.symm
  all_goals
    obtain ⟨⟨⟨hd, ha⟩, hb⟩, rfl⟩ := h
    exact encodes_of_codeT rfl ho rfl hd.symm ha.symm hb.symm hf.symm

theorem atomB_of {b : BitVec 6} {low : BitVec 3} (h : low = b.extractLsb' 0 3) :
    atomB ⟨b.getLsbD 5, b.getLsbD 4, b.getLsbD 3⟩ low = b := by
  subst h; revert b; decide

theorem atomW_of {b : BitVec 6} (h : b.extractLsb' 0 2 = 0) : atomW (b.getLsbD 2) = b.extractLsb' 0 3 := by
  revert b; decide

theorem encodes_of_decAtomic {f : LaneFields} {lit : Word} {i : Instr} (ho : 0x2C = f.op) (h : decAtomic f = some i) :
    Encodes i f lit := by
  unfold decAtomic at h
  dsimp only at h
  split at h
  case h_16 => cases h
  case h_12 hf =>
    cases h
    exact encodes_of_codeT rfl ho rfl rfl rfl (atomB_of rfl) hf.symm
  all_goals
    rename_i hf
    obtain ⟨hb, rfl⟩ := okIf_eq_some.mp h
  case h_10 | h_11 | h_13 | h_14 | h_15 =>
    exact encodes_of_codeT rfl ho rfl rfl rfl (atomB_of (eq_of_beq hb).symm) hf.symm
  all_goals exact encodes_of_codeT rfl ho rfl rfl rfl (atomB_of (atomW_of (eq_of_beq hb))) hf.symm

theorem waitcB_of {b : BitVec 6} (h : b.extractLsb' 0 5 = 0) : BitVec.ofBool (b.getLsbD 5) ++ 0#5 = b := by
  revert b; decide

theorem encodes_of_decWaitc {f : LaneFields} {lit : Word} {i : Instr} (ho : 0x2D = f.op) (h : decWaitc f = some i) :
    Encodes i f lit := by
  unfold decWaitc at h
  split at h
  · cases h
  next c hc =>
    obtain ⟨hb, rfl⟩ := okIf_eq_some.mp h
    exact encodes_of_codeT rfl ho rfl rfl rfl (waitcB_of (eq_of_beq hb)) (encWCmp_of_dec hc)

theorem encodes_of_decBlock {f : LaneFields} {lit : Word} {i : Instr} (ho : 0x2E = f.op) (h : decBlock f = some i) :
    Encodes i f lit := by
  unfold decBlock at h
  dsimp only at h
  split at h
  case h_8 => cases h
  all_goals
    rename_i hf
    simp only [okIf_eq_some, Bool.and_eq_true, beq_iff_eq] at h
  case h_1 | h_2 =>
    obtain ⟨⟨hd, hb⟩, rfl⟩ := h
    exact encodes_of_codeT rfl ho rfl hd.symm rfl hb.symm hf.symm
  case h_6 =>
    obtain ⟨⟨ha, hb⟩, rfl⟩ := h
    exact encodes_of_codeT rfl ho rfl rfl (numField_of_high ha) hb.symm hf.symm
  all_goals
    obtain ⟨⟨hd, ha, hb⟩, rfl⟩ := h
    exact encodes_of_codeT rfl ho rfl hd.symm (numField_of_high ha) hb.symm hf.symm

theorem copyField_of_high {d : BitVec 6} (h : d.extractLsb' 2 4 = 0) (h1 : (d.extractLsb' 0 2).getLsbD 1 = false) :
    copyField ((d.extractLsb' 0 2).getLsbD 0) = d := by
  revert d; decide

theorem getLsbD_one_of_ne {n : BitVec 2} (h2 : n ≠ 2) (h3 : n ≠ 3) : n.getLsbD 1 = false := by
  revert n; decide

theorem engField_of_low {d : BitVec 6} {n : BitVec 2} (h : d.extractLsb' 2 4 = 0) (hn : d.extractLsb' 0 2 = n) :
    engField n = d := hn ▸ engField_of_high h

theorem encodes_of_decEngine {f : LaneFields} {lit : Word} {i : Instr} (ho : 0x2F = f.op) (h : decEngine f = some i) :
    Encodes i f lit := by
  unfold decEngine at h
  dsimp only at h
  split at h
  case h_6 => cases h
  case h_1 hf =>
    obtain ⟨hd, rfl⟩ := okIf_eq_some.mp h
    exact encodes_of_codeT rfl ho rfl (engField_of_high (eq_of_beq hd)) rfl rfl hf.symm
  case h_2 hf =>
    obtain ⟨ha, rfl⟩ := okIf_eq_some.mp h
    exact encodes_of_codeT rfl ho rfl rfl (engField_of_high (eq_of_beq ha)) rfl hf.symm
  case h_3 hf =>
    split at h
    next hb =>
      split at h
      all_goals
        obtain ⟨hd, rfl⟩ := okIf_eq_some.mp h
      case h_1 hn | h_2 hn =>
        exact encodes_of_codeT rfl ho rfl (engField_of_low (eq_of_beq hd) hn) rfl hb.symm hf.symm
      case h_3 h2 h3 =>
        exact encodes_of_codeT rfl ho rfl (copyField_of_high (eq_of_beq hd) (getLsbD_one_of_ne h2 h3)) rfl hb.symm hf.symm
    next =>
      split at h
      all_goals
        obtain ⟨hd, rfl⟩ := okIf_eq_some.mp h
      case h_1 hn | h_2 hn =>
        exact encodes_of_codeT rfl ho rfl (engField_of_low (eq_of_beq hd) hn) rfl rfl hf.symm
      case h_3 h2 h3 =>
        exact encodes_of_codeT rfl ho rfl (copyField_of_high (eq_of_beq hd) (getLsbD_one_of_ne h2 h3)) rfl rfl hf.symm
  case h_4 hf =>
    simp only [okIf_eq_some, Bool.and_eq_true, beq_iff_eq, Bool.not_eq_true'] at h
    obtain ⟨⟨hd, h1⟩, rfl⟩ := h
    exact encodes_of_codeT rfl ho rfl (copyField_of_high hd h1) rfl rfl hf.symm
  case h_5 hf =>
    obtain ⟨hd, rfl⟩ := okIf_eq_some.mp h
    exact encodes_of_codeT rfl ho rfl (eq_of_beq hd).symm rfl rfl hf.symm

theorem encodes_of_decLevel {f : LaneFields} {lit : Word} {i : Instr} (ho : 0x30 = f.op) (h : decLevel f = some i) :
    Encodes i f lit := by
  unfold decLevel at h
  dsimp only at h
  split at h
  case h_6 => cases h
  all_goals
    rename_i hf
    simp only [okIf_eq_some, Bool.and_eq_true, beq_iff_eq] at h
  case h_4 =>
    obtain ⟨⟨hd, hb⟩, rfl⟩ := h
    exact encodes_of_codeT rfl ho rfl hd.symm rfl hb.symm hf.symm
  case h_5 =>
    obtain ⟨hd, rfl⟩ := h
    exact encodes_of_codeT rfl ho rfl hd.symm rfl rfl hf.symm
  all_goals
    obtain ⟨⟨⟨hd, ha⟩, hb⟩, rfl⟩ := h
    exact encodes_of_codeT rfl ho rfl hd.symm (numField_of_high ha) hb.symm hf.symm

theorem encodes_of_decSystem {f : LaneFields} {lit : Word} {i : Instr} (ho : 0x31 = f.op) (h : decSystem f = some i) :
    Encodes i f lit := by
  unfold decSystem at h
  split at h
  case h_5 => cases h
  case h_1 hf =>
    obtain ⟨n, hn, h⟩ := Option.bind_eq_some_iff.mp h
    obtain ⟨ha, rfl⟩ := okIf_eq_some.mp h
    exact encodes_of_codeT rfl ho rfl rfl (eq_of_beq ha).symm (encSpecReg_of_dec hn) hf.symm
  case h_2 hf =>
    obtain ⟨n, hn, h⟩ := Option.bind_eq_some_iff.mp h
    obtain ⟨hd, rfl⟩ := okIf_eq_some.mp h
    exact encodes_of_codeT rfl ho rfl (eq_of_beq hd).symm rfl (encSpecReg_of_dec hn) hf.symm
  all_goals
    rename_i hf
    simp only [okIf_eq_some, Bool.and_eq_true, beq_iff_eq] at h
    obtain ⟨⟨hd, hb⟩, rfl⟩ := h
    exact encodes_of_codeT rfl ho rfl hd.symm rfl hb.symm hf.symm

/-! ## Formats I, M and J -/

theorem encodes_of_codeM {i : Instr} {f : LaneFields} {lit : Word} {op : BitVec 6}
    (h : laneCode i = codeM op f.g f.d f.a f.imm10) (ho : op = f.op) : Encodes i f lit :=
  encodes_of_codeT h ho rfl rfl rfl (append_high f.b f.fn) (append_low f.b f.fn)

theorem encodes_of_codeI {i : Instr} {f : LaneFields} {lit : Word} {op : BitVec 6}
    (h : laneCode i = codeI op f.g f.d f.imm16) (ho : op = f.op) : Encodes i f lit :=
  encodes_of_codeT h ho rfl rfl (ext_high f.a _ _ rfl) (ext_low f.a _ _ rfl (by decide) (append_high f.b f.fn))
    (ext_low f.a _ _ rfl (by decide) (append_low f.b f.fn))

theorem encodes_of_codeJ {i : Instr} {f : LaneFields} {lit : Word} {op : BitVec 6}
    (h : laneCode i = codeJ op f.g f.ofs22) (ho : op = f.op) : Encodes i f lit :=
  encodes_of_codeT h ho rfl (ext_high f.d _ _ rfl) (ext_low f.d _ _ rfl (by decide) (ext_high f.a _ _ rfl))
    (ext_low f.d _ _ rfl (by decide) (ext_low f.a _ _ rfl (by decide) (append_high f.b f.fn)))
    (ext_low f.d _ _ rfl (by decide) (ext_low f.a _ _ rfl (by decide) (append_low f.b f.fn)))

theorem laneCode_braEj_ofs (g : Pred) (o : BitVec 22) :
    laneCode (.braEj g (o.extractLsb' 20 2) (o.extractLsb' 0 20)) = codeJ 0x26 g o := by
  change codeJ 0x26 g (o.extractLsb' 20 2 ++ o.extractLsb' 0 20) = _
  rw [append_parts (m := 2) (n := 20) o]

/-! ## The lane decoder -/

/-- By the major of the word, as R47 and R48 list them. -/
theorem encodes_of_decLaneRaw {f : LaneFields} {lit : Word} {i : Instr} (h : decLaneRaw f lit = some i) : Encodes i f lit := by
  unfold decLaneRaw at h
  split at h
  · exact encodes_of_decInt ‹_› h
  split at h <;> rename_i ho
  · cases h; exact encodes_of_codeI rfl ho.symm
  · cases h; exact encodes_of_codeI rfl ho.symm
  · exact encodes_of_decCmp (.inl ho) h
  · cases h; exact encodes_of_codeT rfl ho.symm rfl rfl rfl rfl rfl
  · exact encodes_of_decPred ho.symm h
  iterate 7 exact encodes_of_decPacked h
  iterate 3 exact encodes_of_decFloat h
  · exact encodes_of_decCmp (.inr ho) h
  · exact encodes_of_decSpecial ho.symm h
  · exact encodes_of_decCvt ho.symm h
  · exact encodes_of_decFw ho.symm h
  · exact encodes_of_decVote ho.symm h
  · exact encodes_of_decRedux ho.symm h
  · cases h; exact encodes_of_codeJ rfl ho.symm
  · cases h; exact encodes_of_codeJ (laneCode_braEj_ofs ..) ho.symm
  · cases h; exact encodes_of_codeJ rfl ho.symm
  · exact encodes_of_decControl ho.symm h
  · exact encodes_of_decMem ho.symm h
  · exact encodes_of_decShared ho.symm h
  · exact encodes_of_decMisc ho.symm h
  · exact encodes_of_decAtomic ho.symm h
  · exact encodes_of_decWaitc ho.symm h
  · exact encodes_of_decBlock ho.symm h
  · exact encodes_of_decEngine ho.symm h
  · exact encodes_of_decLevel ho.symm h
  · exact encodes_of_decSystem ho.symm h
  iterate 8
    · cases h; exact encodes_of_codeM rfl ho.symm
  · cases h; exact encodes_of_codeI rfl ho.symm
  · cases h; exact encodes_of_codeI rfl ho.symm
  · cases h

theorem decodeLane_eq_some {w lit : Word} {i : Instr} (h : decodeLane w lit = some i) :
    decLaneRaw (laneFields w) lit = some i ∧ i.wf = true := Option.filter_eq_some_iff.mp h

theorem decLaneRaw_of_unused {f : LaneFields} {lit : Word} (h : 0x3C ≤ f.op.toNat) : decLaneRaw f lit = none := by
  unfold decLaneRaw
  rw [if_neg (by omega)]
  split
  case h_45 => rfl
  all_goals
    rename_i ho
    rw [ho] at h
    exact absurd h (by decide)

/-! ## Filter words -/

theorem filter_parts (w : BitVec 16) :
    w.extractLsb' 11 5 ++ (w.extractLsb' 7 4 ++ w.extractLsb' 0 7 : BitVec 11) = w := by
  have h := join_parts w 0 4 7
  simp only [Nat.zero_add, Nat.reduceAdd] at h
  rw [h]
  exact append_parts (m := 5) (n := 11) w

theorem filterK_of {w : BitVec 16} {op : BitVec 5} (h : w.extractLsb' 11 5 = op) :
    filterK op (w.extractLsb' 7 4) (w.extractLsb' 0 7) = some w := by
  rw [filterK, ← h, filter_parts]

theorem filterR_of {w : BitVec 16} {op : BitVec 5} {a b : BitVec 4} {x : BitVec 3} (h : w.extractLsb' 11 5 = op) (ha : w.extractLsb' 7 4 = a)
    (hb : w.extractLsb' 3 4 = b) (hx : w.extractLsb' 0 3 = x) : filterR op a b x = some w := by
  have h7 := join_parts w 0 4 3
  simp only [Nat.zero_add, Nat.reduceAdd] at h7
  rw [filterR, ← h, ← ha, ← hb, ← hx, h7, filter_parts]

theorem encodeFilter_of_decFilterRaw {w : BitVec 16} {i : Instr} (h : decFilterRaw w = some i) : encodeFilter i = some w := by
  unfold decFilterRaw at h
  dsimp only at h
  split at h <;> rename_i ho
  iterate 5
    · cases h; exact filterK_of ho
  iterate 10
    · obtain ⟨hx, rfl⟩ := okIf_eq_some.mp h
      exact filterR_of ho rfl rfl (eq_of_beq hx)
  iterate 2
    · cases h; exact filterK_of ho
  · cases h
    change some (0x12#5 ++ w.extractLsb' 0 11) = some w
    rw [← ho]
    exact congrArg some (append_parts (m := 5) (n := 11) w)
  · obtain ⟨hx, rfl⟩ := okIf_eq_some.mp h
    exact filterR_of ho rfl rfl (eq_of_beq hx)
  · cases h; exact filterR_of ho rfl rfl rfl
  iterate 2
    · obtain ⟨hx, rfl⟩ := okIf_eq_some.mp h
      exact filterR_of ho rfl rfl (eq_of_beq hx)
  · simp only [okIf_eq_some, Bool.and_eq_true, beq_iff_eq] at h
    obtain ⟨⟨⟨ha, hb⟩, hx⟩, rfl⟩ := h
    exact filterR_of ho ha hb hx
  · cases h

/-! ## The obligation -/

/-- Settles O3: each decoder has read the fields that the encoder lays out. -/
theorem encodeOfDecode : Obligations.EncodeOfDecode := by
  unfold Obligations.EncodeOfDecode
  refine ⟨fun w lit i h => ?_, fun w i h => ?_, fun w lit h => ?_⟩
  · obtain ⟨hraw, hwf⟩ := decodeLane_eq_some h
    obtain ⟨c, hc, hf, hl⟩ := encodes_of_decLaneRaw hraw
    exact ⟨hwf, c, hc, by rw [hf, word_laneFields], hl⟩
  · obtain ⟨hraw, hwf⟩ := Option.filter_eq_some_iff.mp h
    exact ⟨hwf, encodeFilter_of_decFilterRaw hraw⟩
  · rw [decodeLane, decLaneRaw_of_unused h]; rfl

end Sys2Proof.Laws.Inverse

end

/-!
PROOFS. The checks before every lane instruction (02 R46; 09 R200; 14 R301, R302; 04 R96; 20 R419): the statement O9.
-/

section

namespace Sys2Proof.Machine

set_option linter.constructorNameAsVariable false

/-- The outcome is that of a lane instruction's checks, with some body behind them. -/
def Gated (i : Instr) (g : Pred) (s : State) (o : Out) : Prop := ∃ body, o = laneRun i g s body

/-! ## The shared runs of lane instructions -/

section
variable {i : Instr} {g : Pred} {s : State} {d a b : Reg} {src : Src} {n : Nat}

theorem gated_laneRun {body : State → Out} : Gated i g s (laneRun i g s body) := ⟨body, rfl⟩
theorem gated_laneSimple {eff : State → State} : Gated i g s (laneSimple i g s eff) := gated_laneRun
theorem gated_intRun {w sx : Bool} {f : Nat → Nat → Nat → Nat → Nat} : Gated i g s (intRun i g w sx d a src f s) :=
  gated_laneSimple
theorem gated_shiftRun {w : Bool} {f : Nat → Nat → Nat → Nat → Nat} : Gated i g s (shiftRun i g w d a src f s) :=
  gated_laneSimple
theorem gated_packedRun {f : Word → Word → Word} : Gated i g s (packedRun i g d a b f s) := gated_laneSimple
theorem gated_floatRun {f : Word → Word → Word → Word} : Gated i g s (floatRun i g d a src f s) := gated_laneSimple
theorem gated_specialRun {f : SpecialFn} {t : FloatTy} : Gated i g s (specialRun i f g d a t s) := gated_laneSimple
theorem gated_fwRun {ok : FormatWord → Fmt → Fmt → Bool} {eff : FormatWord → Fmt → Fmt → State → State} :
    Gated i g s (fwRun i g b ok eff s) := gated_laneRun
theorem gated_collectiveRun {x : Bool} {body : List Nat → State → State} : Gated i g s (collectiveRun i g x s body) := gated_laneRun
theorem gated_loadRun {acq nt : Bool} {hint : Option Nat} {ea : State → Nat → Dword} :
    Gated i g s (loadRun i g d n acq nt hint ea s) := gated_laneRun
theorem gated_storeRun {rel nt : Bool} {hint : Option Nat} {ea : State → Nat → Dword} :
    Gated i g s (storeRun i g d n rel nt hint ea s) := gated_laneRun
theorem gated_ldsRun {acq : Bool} {ea : State → Nat → Word} : Gated i g s (ldsRun i g d n acq ea s) := gated_laneRun
theorem gated_stsRun {rel : Bool} {ea : State → Nat → Word} : Gated i g s (stsRun i g d n rel ea s) := gated_laneRun
theorem gated_atomRun {f : AtomFn} {fl : AtomFlags} {pair : Option PairIx} : Gated i g s (atomRun i g d a f n fl pair s) :=
  gated_laneRun
theorem gated_barRun {x : BarAct} : Gated i g s (barRun i g x n s) := gated_laneRun
theorem gated_cbarRun {x : BarAct} : Gated i g s (cbarRun i g x n s) := gated_laneRun
theorem gated_goRun {room : Nat} {regs : State → Table Word} {bad : State → Table Word → Bool}
    {commit : State → Table Word → State} : Gated i g s (goRun i g n room regs bad commit s) := gated_laneRun
theorem gated_clearRun {cmd : BitVec 6} : Gated i g s (clearRun i g n cmd s) := gated_laneRun
theorem gated_ctxRun {early : State → Mask → Dword → Option State} {body : State → Mask → Dword → State} :
    Gated i g s (ctxRun i g a s early body) := gated_laneRun
end

/-! ## The obligation -/

/-- Every lane instruction's meaning begins with the checks of 02 R46. -/
theorem gated_exec {i : Instr} {g : Pred} (s : State) (h : laneGuard i = some g) : Gated i g s (exec i s) := by
  cases i <;> cases h <;> unfold exec
  case iadd | isub | imlo | imhiS | imhiZ | imac | idivS | idivZ | iabs | ineg | iminS | iminZ | imaxS | imaxZ | and |
      or | xor | andn | not | clz | popc | brev | mov =>
    exact gated_intRun
  case iaddc | lea | moviV | movhiV | moviS | movhiS | icmp | sel | pand | por | pxor | pnot | pdot | pwiden | pnarrow | fcmp |
      cvt | eget =>
    exact gated_laneSimple
  case shl | shr | sar | rol | bfxS | bfxZ | bfi =>
    exact gated_shiftRun
  case padd | psub | pmul | pmin | pmax | pcmpEq | pcmpLt =>
    exact gated_packedRun
  case fadd | fsub | fmul | ffma | fmin | fmax | fclass | pfmaF16 | pfmaBf16 =>
    exact gated_floatRun
  case fexp2 | flog2 | frcp | frsq | fsqrt | fsinpi | fcospi | ftanh | fsigm | fgelu | fsilu | ferf =>
    exact gated_specialRun
  case qscale | qpack | qunpk | cvtFw =>
    exact gated_fwRun
  case voteAll | voteAny | voteBal | voteEq | shflIdx | shflUp | shflDn | shflXor | redux | scanInc | scanExc =>
    exact gated_collectiveRun
  case ld | ldW | ldD | ldQ =>
    exact gated_loadRun
  case st | stW | stD | stQ =>
    exact gated_storeRun
  case lds | ldsW =>
    exact gated_ldsRun
  case sts | stsW =>
    exact gated_stsRun
  case atomAdd | atomMinS | atomMinZ | atomMaxS | atomMaxZ | atomAnd | atomOr | atomXor | atomExch | incw | decw |
      atomAddb | atomCasW | atomCasD | atomCasQ =>
    exact gated_atomRun
  case barSync | barArr | barWait =>
    exact gated_barRun
  case cbarSync | cbarArr | cbarWait =>
    exact gated_cbarRun
  case ecmdGo | sparseIndexGo | copy =>
    exact gated_goRun
  case ecmdClear | sparseIndexClear | lodestarClear =>
    exact gated_clearRun
  case ctxsv | ctxld =>
    exact gated_ctxRun
  all_goals exact gated_laneRun

/-- Settles O9: the meaning of a lane instruction is `laneRun` of some body, and the rules of `laneRun` say the rest. -/
theorem issueChecks : Obligations.IssueChecks := by
  unfold Obligations.IssueChecks
  intro i g hg s hs
  obtain ⟨body, hexec⟩ := gated_exec s hg
  rw [hexec]
  exact ⟨fun h1 => laneRun_illegal hs h1 body,
    fun h1 h2 => laneRun_forbidden hs h1 h2 body,
    fun h1 h2 h3 => laneRun_budget hs h1 h2 h3 body,
    fun h1 h2 h3 h4 => laneRun_tile hs h1 h2 h3 h4 body,
    fun h1 h2 h3 h4 h5 => laneRun_interlocked hs h1 h2 h3 h4 h5 body,
    fun h1 h2 h3 h4 h5 h6 => laneRun_poisoned hs h1 h2 h3 h4 h5 h6 body⟩

end Sys2Proof.Machine

end

/-!
PROOFS. A step whose turn is a split's (02 R41, R42, R46; 03 R94; 09 R202, R203; 15 R321): the statement O7.
-/

section

namespace Sys2Proof.Machine

set_option linter.constructorNameAsVariable false

/-! ## What a step runs -/

theorem runInstr_of_next {i : Instr} {s t : State} (h : exec i s = .next t) : runInstr i s = t := by
  rw [runInstr, h]

theorem step_lane {s : State} {b g k : Nat} {ts : List Turn} (ha : s.agenda = .lane b g k :: ts) (hh : s.halted = false) :
    step s = .next { ({ s with agenda := ts } : State).laneTurn b g k with focus := .idle } := by
  have hh' : ({ s with agenda := ts } : State).halted = false := hh
  simp only [step, ha, State.takeTurn, hh', Bool.false_and, Bool.false_eq_true, if_false, unfocus]

theorem State.unitStep_of_fetch {s : State} {w : Word} (h : s.fetchWord s.site s.pc.toNat = .ok [w]) :
    s.unitStep = (s.useFetch s.site s.pc.toNat).runWord w := by
  simp only [State.unitStep, h, List.headD_cons]

theorem State.runWord_word {s t : State} {w : Word} {i : Instr} (hd : decodeLane w 0 = some i) (hl : i.laneSize = 4)
    (h : Sys2Proof.Machine.exec i s = .next t) : s.runWord w = t := by
  simp only [State.runWord, hd, hl, if_true, runInstr_of_next h]

theorem State.runWord_literal {s t : State} {w x : Word} {i j : Instr} (hd : decodeLane w 0 = some i) (hl : i.laneSize ≠ 4)
    (hf : s.fetchWord s.site (s.pc.toNat + 4) = .ok [x]) (hj : decodeLane w x = some j)
    (h : Sys2Proof.Machine.exec j (s.useFetch s.site (s.pc.toNat + 4)) = .next t) : s.runWord w = t := by
  simp only [State.runWord, hd, hl, if_false, hf, List.headD_cons, hj, runInstr_of_next h]

theorem State.runWord_illegal {s : State} {w : Word} (hd : decodeLane w 0 = none) (hi : s.issuing = true) :
    s.runWord w = s.takeTrap 0x00 := by
  simp only [State.runWord, hd, execIllegalInstruction, hi, settleOut, Option.isSome_none, Bool.not_true, Bool.or_false,
    Bool.false_eq_true, if_false]

/-! ## A fetch leaves the units alone -/

@[simp] theorem State.focus_useEntry (s : State) (p : Site) (e : TlbEntry) (l1 : Bool) : (s.useEntry p e l1).focus = s.focus := by
  unfold State.useEntry
  split
  · rfl
  · dsimp only; split <;> rfl

@[simp] theorem State.blocks_useEntry (s : State) (p : Site) (e : TlbEntry) (l1 : Bool) : (s.useEntry p e l1).blocks = s.blocks := by
  unfold State.useEntry
  split
  · rfl
  · dsimp only; split <;> rfl

@[simp] theorem State.focus_chargeFor (s : State) (a : Asker) (key part n : Nat) : (s.chargeFor a key part n).focus = s.focus := by
  simp only [State.chargeFor, State.charge]
  split <;> rfl

@[simp] theorem State.blocks_chargeFor (s : State) (a : Asker) (key part n : Nat) : (s.chargeFor a key part n).blocks = s.blocks := by
  simp only [State.chargeFor, State.charge]
  split <;> rfl

@[simp] theorem State.focus_useFetch (s : State) (p : Site) (va n : Nat) : (s.useFetch p va n).focus = s.focus := by
  unfold State.useFetch
  split
  · simp [State.dropOuts]
  · rfl

@[simp] theorem State.blocks_useFetch (s : State) (p : Site) (va n : Nat) : (s.useFetch p va n).blocks = s.blocks := by
  unfold State.useFetch
  split
  · simp [State.dropOuts]
  · rfl

theorem State.issuing_of_hasSplit {s : State} {b g k : Nat} (hf : s.focus = .split b g k) (h : s.hasSplit b g k = true) :
    s.issuing = true := by
  rw [State.issuing, hf]; exact h

theorem State.issuing_useFetch {s : State} {b g k : Nat} (hf : s.focus = .split b g k) (h : s.hasSplit b g k = true) (p : Site)
    (va : Nat) : (s.useFetch p va).issuing = true := by
  refine State.issuing_of_hasSplit (by simpa using hf) ?_
  rw [State.hasSplit, State.blocks_useFetch]
  exact h

/-! ## A turn of a split -/

theorem State.hasSplit_of_ready {s : State} {b g k : Nat} (h : s.splitReady b g k = true) : s.hasSplit b g k = true := by
  simp only [State.splitReady, Bool.and_eq_true] at h
  exact h.1.1.1.1

theorem State.hasSplit_of_retries {s : State} {b g k : Nat} (h : s.splitRetries b g k = true) : s.hasSplit b g k = true := by
  simp only [State.splitRetries, Bool.and_eq_true] at h
  exact h.1.1.1.1

theorem State.unitIssued_iff {s t : State} {b g k : Nat} (hf : s.focus = .split b g k) :
    s.unitIssued t = true ↔ ¬ (t.spl b g k = s.spl b g k ∧ s.atBranch = false) := by
  simp only [State.unitIssued, hf, Bool.or_eq_true, bne_iff_ne, ne_eq]
  cases s.atBranch <;> simp

section
variable {s u : State} {b g k : Nat} (hu : u = { s with focus := .split b g k })
include hu

theorem State.laneTurn_of_ready (h : u.splitReady b g k = true) : s.laneTurn b g k = issuedBy u u.unitStep b g k := by
  have hf : u.focus = .split b g k := by rw [hu]
  have hturn : s.laneTurn b g k = if u.unitIssued u.unitStep then
      (u.unitStep.modSpl b g k fun x => { x with lastIssue := u.now }).count (u.blk b).core 0 1 else u.unitStep := by
    subst hu
    exact if_pos h
  rw [hturn, issuedBy]
  by_cases hkept : u.unitStep.spl b g k = u.spl b g k ∧ u.atBranch = false
  · rw [if_pos hkept, if_neg (fun hi => (State.unitIssued_iff hf).mp hi hkept)]
  · rw [if_neg hkept, if_pos ((State.unitIssued_iff hf).mpr hkept)]

theorem State.laneTurn_of_taking (h : u.splitReady b g k = false) (hr : u.splitRetries b g k = true)
    (ht : (u.spl b g k).taking.isSome = true) : s.laneTurn b g k = u.takeLooks b g k := by
  subst hu
  simp only [State.laneTurn, h, hr, ht, if_true, Bool.false_eq_true, if_false]

theorem State.laneTurn_of_retry (h : u.splitReady b g k = false) (hr : u.splitRetries b g k = true)
    (ht : (u.spl b g k).taking = none) : s.laneTurn b g k = u.retryStep := by
  subst hu
  simp only [State.laneTurn, h, hr, ht, if_true, Bool.false_eq_true, if_false, Option.isSome_none]

end

theorem State.retryStep_of_word {s : State} {b g k : Nat} (hf : s.focus = .split b g k)
    (h : ∀ n c, (s.spl b g k).wait ≠ .blocked (.stamps n) c) : s.retryStep = s.unitStep := by
  unfold State.retryStep
  split
  · next n c hw =>
    rw [State.unitWait, hf] at hw
    exact absurd hw (h n c)
  · rfl

theorem State.retryStep_of_stamps {s : State} {b g k n c : Nat} (hf : s.focus = .split b g k)
    (h : (s.spl b g k).wait = .blocked (.stamps n) c) : s.retryStep = s.emitDone n := by
  simp only [State.retryStep, State.unitWait, hf, h]

theorem Table.any_vals {α : Type} (t : Table α) (p : α → Bool) : t.vals.any p = true ↔ ∃ e ∈ t, p e.2 = true := by
  simp [Table.vals]

theorem State.emitDone_of_pending {s : State} {n : Nat} (h : ∃ e ∈ s.stores, e.2.inst = n ∧ e.2.performed = false) :
    s.emitDone n = s := by
  have hany : (s.stores.vals.any fun x => x.inst == n && !x.performed) = true := by
    rw [Table.any_vals]
    simpa using h
  rw [State.emitDone, if_pos hany]

theorem State.emitDone_of_performed {s : State} {n : Nat} (h : ∀ e ∈ s.stores, e.2.inst = n → e.2.performed = true) :
    s.emitDone n = s.skip 4 := by
  have hany : ¬ (s.stores.vals.any fun x => x.inst == n && !x.performed) = true := by
    rw [Table.any_vals]
    rintro ⟨e, he, hp⟩
    simp only [Bool.and_eq_true, beq_iff_eq, Bool.not_eq_true'] at hp
    exact absurd (h e he hp.1) (by simp [hp.2])
  rw [State.emitDone, if_neg hany]

theorem Split.taking_of_stamps {x : Split} {n c : Nat} (h : x.wait = .blocked (.stamps n) c) : x.taking = none := by
  simp only [Split.taking, h]

theorem State.spl_skip {s : State} {b g k : Nat} (hf : s.focus = .split b g k) (h : s.hasSplit b g k = true) (n : Nat) :
    (s.skip n).spl b g k = (s.spl b g k).readyAt ((s.spl b g k).pc + BitVec.ofNat 64 n) := by
  obtain ⟨hb, hg, hk⟩ := State.listed_of_issuing hf (State.issuing_of_hasSplit hf h)
  rw [State.skip, State.setPc_of_split hf, State.spl_modSpl_self hb hg hk, State.pc, hf]

/-! ## The obligation -/

/-- Settles O7: the first part is a turn of a ready split, the second one of a split that looks again at its wait. -/
theorem stepRunsLaneInstruction : Obligations.StepRunsLaneInstruction := by
  unfold Obligations.StepRunsLaneInstruction
  refine ⟨fun s u v b g k ts w ha hh hu hr hw hv => ?_, fun s u v b g k ts w ha hh hu hn hr => ?_⟩
  · have hf : u.focus = .split b g k := by rw [hu]
    have hturn : ({ s with agenda := ts } : State).laneTurn b g k = issuedBy u (v.runWord w) b g k := by
      rw [State.laneTurn_of_ready hu hr, State.unitStep_of_fetch hw, hv]
    rw [step_lane ha hh, hturn]
    refine ⟨fun i t hd hl hx => ?_, fun i j x t hd hl hx hj ht => ?_, fun hd => ?_⟩
    · rw [State.runWord_word hd hl hx]
    · rw [State.runWord_literal hd hl hx hj ht]
    · rw [State.runWord_illegal hd (hv ▸ State.issuing_useFetch hf (State.hasSplit_of_ready hr) _ _)]
  · have hf : u.focus = .split b g k := by rw [hu]
    rw [step_lane ha hh]
    refine ⟨fun ht hs hw hv i t hd hl hx => ?_, fun n c hwait => ?_, fun ht t t' hx hx' => ?_⟩
    · rw [State.laneTurn_of_retry hu hn hr ht, State.retryStep_of_word hf hs, State.unitStep_of_fetch hw, ← hv,
        State.runWord_word hd hl hx]
    · rw [State.laneTurn_of_retry hu hn hr (Split.taking_of_stamps hwait), State.retryStep_of_stamps hf hwait]
      refine ⟨fun hp => by rw [State.emitDone_of_pending hp], fun hp => ⟨_, rfl, ?_⟩⟩
      rw [State.emitDone_of_performed hp]
      have hspl : ((u.skip 4).spl b g k) = _ := State.spl_skip hf (State.hasSplit_of_retries hr) 4
      refine ⟨?_, ?_, State.skip_mem .., State.skip_stores ..⟩
      · change ((u.skip 4).spl b g k).pc = _
        rw [hspl]; rfl
      · change ((u.skip 4).spl b g k).wait = _
        rw [hspl]; rfl
    · rw [State.laneTurn_of_taking hu hn hr ht, State.takeLooks, runInstr_of_next hx, runInstr_of_next hx']

end Sys2Proof.Machine

end

/-!
PROOFS. The sequencer's stops, its waiting STAKE and its illegal bundle (10 R236, R237; 11 R246; 02 R64; 13 R272): the statement O48.
-/

section

namespace Sys2Proof.Machine

set_option linter.constructorNameAsVariable false

/-! ## A resident block's sequencer -/

theorem State.has_of_hasSeq {s : State} {b : Nat} (h : s.hasSeq b = true) : s.blocks.has b = true := by
  unfold State.hasSeq at h
  cases hf : s.blocks.find b with
  | none => rw [hf] at h; cases h
  | some x => exact Table.has_of_find hf

theorem State.seq_isSome_of_hasSeq {s : State} {b : Nat} (h : s.hasSeq b = true) : (s.blk b).seq.isSome = true := by
  unfold State.hasSeq at h
  cases hf : s.blocks.find b with
  | none => rw [hf] at h; cases h
  | some x =>
    rw [hf] at h
    rw [State.blk, Table.getD_of_find _ hf]
    exact (Bool.and_eq_true_iff.mp h).2

theorem State.blk_modSeq_self {s : State} {b : Nat} (hb : s.blocks.has b = true) (f : Seq → Seq) :
    (s.modSeq b f).blk b = { s.blk b with seq := (s.blk b).seq.map f } := s.blk_modBlk_self b _ hb

theorem State.seq_modSeq_self {s : State} {b : Nat} (h : s.hasSeq b = true) (f : Seq → Seq) :
    (s.modSeq b f).seq b = f (s.seq b) := by
  obtain ⟨q, hq⟩ := Option.isSome_iff_exists.mp (State.seq_isSome_of_hasSeq h)
  simp only [State.seq, State.blk_modSeq_self (State.has_of_hasSeq h), hq, Option.map_some, Option.getD_some]

theorem State.hasSeq_of_stopWanted {s : State} {b : Nat} (h : s.stopWanted b = true) : s.hasSeq b = true := by
  simp only [State.stopWanted, Bool.and_eq_true] at h
  exact h.1.1.1.1.1

@[simp] theorem State.blk_clearFaults (s : State) (a : Asker) (b : Nat) : (s.clearFaults a).blk b = s.blk b := rfl
@[simp] theorem State.seq_clearFaults (s : State) (a : Asker) (b : Nat) : (s.clearFaults a).seq b = s.seq b := rfl
@[simp] theorem State.facet_clearFaults (s : State) (a : Asker) (f : Nat) : (s.clearFaults a).facet f = s.facet f := rfl

/-- Counting a fault changes the counters alone. -/
theorem State.countFaulted_keeps {β : Type} (s : State) (q : Site) (va cause : Nat) (p : State → β)
    (h : ∀ (t : State) x, p { t with counters := x } = p t) : p (s.countFaulted q va cause) = p s := by
  unfold State.countFaulted
  split
  · exact h _ _
  · rfl

@[simp] theorem State.blk_countFaulted (s : State) (p : Site) (va cause b : Nat) : (s.countFaulted p va cause).blk b = s.blk b :=
  s.countFaulted_keeps p va cause (State.blk · b) fun _ _ => rfl
@[simp] theorem State.seq_countFaulted (s : State) (p : Site) (va cause b : Nat) : (s.countFaulted p va cause).seq b = s.seq b :=
  s.countFaulted_keeps p va cause (State.seq · b) fun _ _ => rfl
@[simp] theorem State.facet_countFaulted (s : State) (p : Site) (va cause f : Nat) :
    (s.countFaulted p va cause).facet f = s.facet f := s.countFaulted_keeps p va cause (State.facet · f) fun _ _ => rfl

/-! ## Stops -/

theorem State.seq_stopSeq {s : State} {b : Nat} (h : s.hasSeq b = true) (forced : Bool) (ix : Option Nat) :
    (s.stopSeq b forced ix).seq b = { s.seq b with stopped := true, forced := forced, liveix := ix, since := none, waiting := false,
                                                   waited := [], next := none } := by
  rw [State.stopSeq, State.seq_clearFaults, State.seq_modSeq_self h]

theorem execSafePointStop_of_safe {s : State} {b : Nat} {h : Head} (hw : s.stopWanted b = true) (hl : (s.seq b).landed = true)
    (hh : s.headAt b = some h) (hs : h.safe = true) :
    execSafePointStop b s = .next (s.stopSeq b false (some h.liveix.toNat)) := by
  simp [execSafePointStop, hw, hl, hh, hs]

theorem execForcedSavePoint_of_held {s : State} {b n : Nat} (hw : s.stopWanted b = true) (hl : (s.seq b).landed = true)
    (hn : (s.seq b).since = some n) (hh : n + 4096 < s.now) : execForcedSavePoint b s = .next (s.stopSeq b true none) := by
  simp [execForcedSavePoint, hw, hl, hn, hh]

/-! ## The tiles of a STAKE -/

theorem mem_handleRange {x h n : Nat} : x ∈ handleRange h n ↔ h ≤ x ∧ x < h + n := by
  simp only [handleRange, List.mem_map, List.mem_range]
  constructor
  · rintro ⟨a, ha, rfl⟩; omega
  · rintro ⟨h1, h2⟩; exact ⟨x - h, by omega, by omega⟩

theorem Block.seqOwns_of_seqCol {x : Block} {t c : Nat} (h : x.tile t = .owned (.seqCol c)) : x.seqOwns t = true := by
  rw [Block.seqOwns, h]

theorem Block.seqOwns_congr {x y : Block} {t : Nat} (h : x.tile t = y.tile t) : x.seqOwns t = y.seqOwns t := by
  rw [Block.seqOwns, Block.seqOwns, h]

section
variable {s : State} {b : Nat} (hb : s.blocks.has b = true) (t : Nat) (o : TileOwner)
include hb

theorem State.blk_takeTile : (s.takeTile b t o).blk b = { (s.blk b).setTile t (.owned o) with gave := (s.blk b).gave.erase t } :=
  s.blk_modBlk_self b _ hb

theorem State.tile_takeTile_self : ((s.takeTile b t o).blk b).tile t = .owned o := by
  rw [State.blk_takeTile hb]; exact Table.getD_set_self _ _ _ _

theorem State.tile_takeTile_other {u : Nat} (h : u ≠ t) : ((s.takeTile b t o).blk b).tile u = (s.blk b).tile u := by
  rw [State.blk_takeTile hb]; exact Table.getD_set_other _ _ _ _ _ h

theorem State.handleTile_takeTile (x : Nat) : ((s.takeTile b t o).blk b).handleTile x = (s.blk b).handleTile x := by
  rw [State.blk_takeTile hb]; rfl

theorem State.pend_takeTile (u : Nat) : (s.takeTile b t o).pend b u = s.pend b u := by
  simp only [State.pend, State.blk_takeTile hb]; rfl

theorem State.takeReady_takeTile_other {u : Nat} (h : u ≠ t) (r : TileOwner) :
    (s.takeTile b t o).takeReady b u r = s.takeReady b u r := by
  simp only [State.takeReady, State.tile_takeTile_other hb t o h, State.pend_takeTile hb]
  rw [State.blk_takeTile hb, Table.find_erase_other _ _ _ h]
  rfl

theorem State.has_takeTile : (s.takeTile b t o).blocks.has b = true := (Table.has_modify _ _ _ _).trans hb

end

/-- The tile of a handle is the column's, or can be taken. -/
def State.StakeFree (s : State) (b c x : Nat) : Prop :=
  (s.blk b).tile ((s.blk b).handleTile x) = .owned (.seqCol c) ∨ s.takeReady b ((s.blk b).handleTile x) .seqAny = true

/-- The tile of a handle is not the sequencer's, and cannot be taken. -/
def State.StakeBlocked (s : State) (b x : Nat) : Prop :=
  (s.blk b).seqOwns ((s.blk b).handleTile x) = false ∧ s.takeReady b ((s.blk b).handleTile x) .seqAny = false

theorem State.StakeFree.takeTile {s : State} {b c x : Nat} (hb : s.blocks.has b = true) (t : Nat) (h : s.StakeFree b c x) :
    (s.takeTile b t (.seqCol c)).StakeFree b c x := by
  unfold State.StakeFree
  rw [State.handleTile_takeTile hb]
  by_cases e : (s.blk b).handleTile x = t
  · exact .inl (by rw [e, State.tile_takeTile_self hb])
  · rwa [State.tile_takeTile_other hb _ _ e, State.takeReady_takeTile_other hb _ _ e]

theorem State.StakeBlocked.takeTile {s : State} {b x : Nat} (hb : s.blocks.has b = true) {t : Nat} (o : TileOwner)
    (ht : (s.blk b).handleTile x ≠ t) (h : s.StakeBlocked b x) : (s.takeTile b t o).StakeBlocked b x := by
  unfold State.StakeBlocked
  rw [State.handleTile_takeTile hb, Block.seqOwns_congr (State.tile_takeTile_other hb _ _ ht),
    State.takeReady_takeTile_other hb _ _ ht]
  exact h

theorem State.tile_of_takeReady {s : State} {b t : Nat} {r : TileOwner} (h : s.takeReady b t r = true) :
    (s.blk b).tile t = .transfer r := by
  simp only [State.takeReady, Bool.and_eq_true, beq_iff_eq] at h
  exact h.1.1

theorem State.seqOwns_of_takeReady {s : State} {b t : Nat} {r : TileOwner} (h : s.takeReady b t r = true) :
    (s.blk b).seqOwns t = false := by
  rw [Block.seqOwns, State.tile_of_takeReady h]

/-- What the tiles of a block stand like after a range of which nothing is blocked: all taken, and nothing else of the block changed. -/
structure State.Staked (s t : State) (b c : Nat) (hs : List Nat) : Prop where
  has : t.blocks.has b = true
  seq : (t.blk b).seq = (s.blk b).seq
  kept : ∀ u, (s.blk b).tile u = .owned (.seqCol c) → (t.blk b).tile u = .owned (.seqCol c)
  taken : ∀ x ∈ hs, (t.blk b).tile ((s.blk b).handleTile x) = .owned (.seqCol c)

theorem State.stakeRange_of_free {b c : Nat} {hs : List Nat} : ∀ {s : State}, s.blocks.has b = true →
    (∀ x ∈ hs, s.StakeFree b c x) → (s.stakeRange b c hs).2 = true ∧ s.Staked (s.stakeRange b c hs).1 b c hs := by
  induction hs with
  | nil => exact fun hb _ => ⟨rfl, hb, rfl, fun _ h => h, fun _ h => nomatch h⟩
  | cons x xs ih =>
    intro s hb hf
    have hx := hf x List.mem_cons_self
    have hxs : ∀ y ∈ xs, s.StakeFree b c y := fun y hy => hf y (List.mem_cons_of_mem _ hy)
    rcases hx with ho | hr
    · obtain ⟨h2, st⟩ := ih hb hxs
      simp only [State.stakeRange, Block.seqOwns_of_seqCol ho, if_true]
      refine ⟨h2, st.has, st.seq, st.kept, fun y hy => ?_⟩
      rcases List.mem_cons.mp hy with rfl | hy
      · exact st.kept _ ho
      · exact st.taken y hy
    · have hn := State.seqOwns_of_takeReady hr
      obtain ⟨h2, st⟩ := ih (State.has_takeTile hb ((s.blk b).handleTile x) (.seqCol c)) fun y hy => (hxs y hy).takeTile hb _
      simp only [State.stakeRange, hn, hr, if_true, Bool.false_eq_true, if_false]
      refine ⟨h2, st.has, ?_, fun u hu => st.kept u ?_, fun y hy => ?_⟩
      · rw [st.seq, State.blk_takeTile hb]; rfl
      · by_cases e : u = (s.blk b).handleTile x
        · rw [e, State.tile_takeTile_self hb]
        · rw [State.tile_takeTile_other hb _ _ e, hu]
      · rcases List.mem_cons.mp hy with rfl | hy
        · exact st.kept _ (State.tile_takeTile_self hb _ _)
        · rw [← State.handleTile_takeTile hb ((s.blk b).handleTile x) (.seqCol c) y]; exact st.taken y hy

theorem State.stakeRange_of_blocked {b c x : Nat} {hs : List Nat} : ∀ {s : State}, s.blocks.has b = true → x ∈ hs →
    s.StakeBlocked b x → (s.stakeRange b c hs).2 = false := by
  induction hs with
  | nil => exact fun _ h => nomatch h
  | cons y ys ih =>
    intro s hb hx hbl
    simp only [State.stakeRange]
    split
    · next ho =>
      have hne : x ≠ y := fun e => by rw [e] at hbl; exact absurd ho (by rw [hbl.1]; exact Bool.false_ne_true)
      exact ih hb (List.mem_of_ne_of_mem hne hx) hbl
    · split
      · next hr =>
        have ht : (s.blk b).handleTile x ≠ (s.blk b).handleTile y := fun e => by
          rw [State.StakeBlocked, e] at hbl; exact absurd hr (by rw [hbl.2]; exact Bool.false_ne_true)
        have hne : x ≠ y := fun e => ht (by rw [e])
        exact ih (State.has_takeTile hb _ _) (List.mem_of_ne_of_mem hne hx) (hbl.takeTile hb _ ht)
      · rfl

theorem State.blk_beginWait {s : State} {b : Nat} (hb : s.blocks.has b = true) :
    (s.beginWait b).blk b = { s.blk b with
      seq := (s.blk b).seq.map fun q => { q with since := some (q.since.getD s.now), waiting := true } } :=
  State.blk_modSeq_self hb _

theorem State.takeReady_beginWait {s : State} {b : Nat} (hb : s.blocks.has b = true) (t : Nat) (r : TileOwner) :
    (s.beginWait b).takeReady b t r = s.takeReady b t r := by
  have hp : (s.beginWait b).pend b t = s.pend b t := by
    simp only [State.pend, State.blk_beginWait hb]
    cases (s.blk b).seq <;> rfl
  simp only [State.takeReady, hp, State.blk_beginWait hb]
  rfl

theorem State.StakeFree.beginWait {s : State} {b c x : Nat} (hb : s.blocks.has b = true) (h : s.StakeFree b c x) :
    (s.beginWait b).StakeFree b c x := by
  rw [State.StakeFree, State.takeReady_beginWait hb, State.blk_beginWait hb]; exact h

/-- A STAKE whose range is free takes it and completes. -/
theorem State.stakeStep_of_free {s : State} {b c h n : Nat} (hq : s.hasSeq b = true)
    (hf : ∀ x ∈ handleRange h n, s.StakeFree b c x) :
    c ∈ ((s.stakeStep b c h n).seq b).waited ∧
      ∀ x ∈ handleRange h n, ((s.stakeStep b c h n).blk b).tile ((s.blk b).handleTile x) = .owned (.seqCol c) := by
  have hb := State.has_of_hasSeq hq
  have hb' : (s.beginWait b).blocks.has b = true := (Table.has_modify _ _ _ _).trans hb
  obtain ⟨h2, st⟩ := State.stakeRange_of_free hb' fun x hx => (hf x hx).beginWait hb
  have hblk : (s.stakeStep b c h n).blk b = ((((s.beginWait b).stakeRange b c (handleRange h n)).1).endWait b c).blk b := by
    simp only [State.stakeStep, h2, Bool.not_true, Bool.false_eq_true, if_false]
    split <;> rfl
  rw [State.seq, hblk, State.endWait, State.blk_modSeq_self st.has, st.seq, State.blk_beginWait hb]
  obtain ⟨q, hq'⟩ := Option.isSome_iff_exists.mp (State.seq_isSome_of_hasSeq hq)
  refine ⟨by simp [hq'], fun x hx => ?_⟩
  have := st.taken x hx
  rwa [State.blk_beginWait hb] at this

theorem execTakeCompletes_seqr {s : State} {b c h n : Nat} (hq : s.hasSeq b = true) (hw : (s.seq b).waiting = true)
    (hp : (s.seq b).parked = false) (hs : (s.seq b).stopped = false) (hk : s.stakeOf b c = some (h, n)) :
    execTakeCompletes b (.seqr c) s = .next (s.stakeStep b c h n) := by
  simp [execTakeCompletes, hq, hw, hp, hs, hk]

theorem execTakeLimit_of_blocked {s : State} {b c h n w x : Nat} (hq : s.hasSeq b = true) (hw : (s.seq b).waiting = true)
    (hp : (s.seq b).parked = false) (hs : (s.seq b).stopped = false) (hk : s.stakeOf b c = some (h, n))
    (hi : (s.seq b).since = some w) (hl : w + s.takeLimit b ≤ s.now) (hx : x ∈ handleRange h n) (hbl : s.StakeBlocked b x) :
    execTakeLimit b (.seqr c) s = .next (s.seqTrap b 0x43 0 0 c 0) := by
  simp [execTakeLimit, hq, hw, hp, hs, hk, hi, Nat.not_lt.mpr hl, State.stakeRange_of_blocked (State.has_of_hasSeq hq) hx hbl]

/-! ## The trap of a sequencer -/

theorem State.seq_seqTrap {s : State} {b : Nat} (h : s.hasSeq b = true) (cause sub slot col info : Nat) :
    (s.seqTrap b cause sub slot col info).seq b =
      { s.seq b with parked := true, parkedAt := s.now, trapped := true, since := none, waiting := false, waited := [],
                     reserved := [], checked := false, next := none } := by
  rw [State.seqTrap, State.seq_clearFaults, State.seq_countFaulted]
  exact State.seq_modSeq_self (s := s.modFacet _ _) h _

theorem State.record_seqTrap (s : State) (b cause sub slot col info : Nat) :
    ((s.seqTrap b cause sub slot col info).facet (s.blk b).facet).record = seqRecord (s.seq b).pc cause sub slot col info := by
  rw [State.seqTrap, State.facet_clearFaults, State.facet_countFaulted]
  exact congrArg Facet.record (Table.getD_set_self _ _ _ _)

/-- Settles O48: a stop writes the sequencer's stop fields; a STAKE goes through its range in turn, each tile taken or blocked as it
was at the start. -/
theorem sequencerStops : Obligations.SequencerStops := by
  unfold Obligations.SequencerStops
  intro b s
  refine ⟨fun h hw hl hh hs => ?_, fun n hw hl hn hh => ?_, fun c h n hq hw hp hs hk => ⟨fun hr => ?_, fun w hi hl hx => ?_⟩,
    fun hq hp => ?_⟩
  · have hq := State.hasSeq_of_stopWanted hw
    refine ⟨_, execSafePointStop_of_safe hw hl hh hs, State.mem_stopSeq .., ?_⟩
    simp only [State.seq_stopSeq hq, true_and]
  · have hq := State.hasSeq_of_stopWanted hw
    refine ⟨_, execForcedSavePoint_of_held hw hl hn hh, State.mem_stopSeq .., ?_⟩
    simp only [State.seq_stopSeq hq, true_and]
  · obtain ⟨hd, ht⟩ := State.stakeStep_of_free (n := n) (h := h) (c := c) hq fun x hx =>
      .inr (hr x (mem_handleRange.mp hx).1 (mem_handleRange.mp hx).2)
    exact ⟨_, execTakeCompletes_seqr hq hw hp hs hk, State.mem_stakeStep .., hd, fun x h1 h2 => ht x (mem_handleRange.mpr ⟨h1, h2⟩)⟩
  · obtain ⟨x, h1, h2, hbl⟩ := hx
    exact execTakeLimit_of_blocked hq hw hp hs hk hi hl (mem_handleRange.mpr ⟨h1, h2⟩) hbl
  · refine ⟨s.seqTrap b 0x45 0 0 0 0, ?_, State.mem_seqTrap .., ?_, ?_, State.record_seqTrap ..⟩
    · show execIllegalBundle b s = _
      simp [execIllegalBundle, hq, hp]
    · rw [State.seq_seqTrap hq]
    · rw [State.seq_seqTrap hq]

end Sys2Proof.Machine

end

/-!
PROOFS. The loader's and the queues' registrations (02 R72, R430; 15 R311, R313): the statement O51.
-/

section

namespace Sys2Proof.Machine

set_option linter.constructorNameAsVariable false

/-! ## The loader -/

/-- The nodes of an object take the place of those that the function had at their addresses. -/
def State.registerNodes (s : State) (fn : Nat) (nodes : List Node) : State :=
  { s with nodes := s.nodes.filter (fun e => !nodes.any fun n => e.1 == fn && n.addr == e.2.addr) ++ nodes.map fun n => (fn, n) }

/-- The loader's answer, through what it makes of the object. -/
theorem execLoaderRegister_eq (fn : Nat) (obj : List Byte) (text seq data hdr : Nat) (s : State) (hb : s.bootst = 0x80) :
    execLoaderRegister fn obj text seq data hdr s =
      (loadPlan obj text seq data hdr).elim (.next (s.reply fn 1 [])) fun p =>
        if p.1 != 0 then .next (s.reply fn p.1 [])
        else if text % 4 != 0 || seq % 4 != 0 || hdr % 256 != 0 then .next s
        else match s.placeAll fn p.2.2 with
        | none => .next s
        | some t => .next ((t.registerNodes fn p.2.1).reply fn 0 []) := by
  simp only [execLoaderRegister, hb, bne_self_eq_false, Bool.false_eq_true, if_false, loadPlan]
  cases sectionsOf obj with
  | none => rfl
  | some ss =>
    have he (o : Option TileMap) (x : Nat) : o.elim 0 (fun m => x + m.at_) = match o with
        | some m => x + m.at_
        | none => 0 := by cases o <;> rfl
    simp only [Option.map_some, Option.elim_some, he]
    rfl

theorem State.answered_reply (s : State) (fn c : Nat) (vals : List Nat) : s.answered (s.reply fn c vals) fn c vals := rfl

/-! ## Queues -/

theorem capOk_eq_false {n : Nat} : (List.range 21).all (fun i => n != 2 ^ i) = !capOk n := by
  rw [capOk, List.not_any_eq_all_not]; rfl

theorem State.foldl_keeps {α β : Type} (p : State → β) (f : State → α → State) (h : ∀ t a, p (f t a) = p t) (l : List α) :
    ∀ s : State, p (l.foldl f s) = p s := by
  induction l with
  | nil => exact fun s => rfl
  | cons a l ih => exact fun s => (ih (f s a)).trans (h s a)

/-- An access at a home slice changes the slices alone. -/
theorem State.touchLine_keeps {β : Type} (p : State → β) (h : ∀ (t : State) x, p { t with slices := x } = p t) (s : State) (vf : Nat)
    (low need : Bool) (key : Nat) : p (s.touchLine vf low need key) = p s := by
  unfold State.touchLine
  split
  · exact h _ _
  · rfl

theorem State.keepWatched_keeps {β : Type} (p : State → β) (h : ∀ (t : State) x, p { t with slices := x } = p t) (s : State)
    (q : Queue) : p (s.keepWatched q) = p s :=
  State.foldl_keeps p _ (fun t _ => State.touchLine_keeps p h t _ _ _ _) _ s

/-- Arming the watches of a queue changes nothing of it but the watches. -/
theorem State.find_armQueue {s : State} {k : Nat} {q : Queue} (h : s.queues.find k = some q) :
    ∃ tail stamp, (s.armQueue k).queues.find k = some { q with tailW := tail, stampW := stamp } := by
  simp only [State.armQueue, h, State.keepWatched_keeps State.queues (fun _ _ => rfl)]
  exact ⟨_, _, Table.find_set_self _ _ _⟩

@[simp] theorem State.answers_armQueue (s : State) (k : Nat) : (s.armQueue k).answers = s.answers := by
  unfold State.armQueue
  split
  · rfl
  · exact State.keepWatched_keeps State.answers (fun _ _ => rfl) _ _

theorem State.queueStatus_eq (s : State) (vf q : Nat) (normal : Bool) (d : List Byte) (key : Nat) :
    s.queueStatus vf q normal d key =
      if num d 0 4 ≠ 0x51544E49 then 1 else if (List.range 21).all (fun i => num d 4 4 != 2 ^ i) then 2
      else if num d 40 8 % 64 ≠ 0 then 3 else if q % 128 ≠ 0 ∨ normal = false then 4
      else match s.nodeOf vf (num d 8 8) with
        | none => 5
        | some n =>
          if num d 52 4 ≠ n.part ∨ num d 52 4 ≠ (s.part (s.vf vf).part).ptag.toNat then 6
          else if num d 16 24 ≠ 0 ∨ num d 56 24 ≠ 0 then 7 else if s.queues.has key then 8 else 0 := by
  cases hn : s.nodeOf vf (num d 8 8) <;>
    simp only [State.queueStatus, hn, capOk_eq_false, State.tagOf, bne_iff_ne, Bool.or_eq_true, Bool.not_eq_true']

theorem State.nodeOf_of_queueStatus {s : State} {vf q : Nat} {normal : Bool} {d : List Byte} {key : Nat}
    (h : s.queueStatus vf q normal d key = 0) : ∃ n, s.nodeOf vf (num d 8 8) = some n := by
  cases hn : s.nodeOf vf (num d 8 8) with
  | some n => exact ⟨n, rfl⟩
  | none =>
    simp only [State.queueStatus, hn] at h
    split_ifs at h

theorem execRegisterQueue_unmapped {fn q vf : Nat} {s : State} (hf : fn = 0 ∨ fn = vf)
    (hm : s.spaceMap vf true q 128 = none) :
    execRegisterQueue fn q vf s = .next (s.reply fn 4 []) := by
  have : (fn != 0 && fn != vf) = false := by rcases hf with rfl | rfl <;> simp
  simp [execRegisterQueue, this, hm]

section
variable {fn q vf : Nat} {s : State} {ms : List (TlbEntry × List Nat)} (hf : fn = 0 ∨ fn = vf) (hm : s.spaceMap vf true q 128 = some ms)

include hf hm

theorem execRegisterQueue_of_fails (h : s.queueStatus vf q (allNormal ms) (s.bytesIn ms q 128) (keyIn ms q) ≠ 0) :
    execRegisterQueue fn q vf s =
      .next (s.reply fn (s.queueStatus vf q (allNormal ms) (s.bytesIn ms q 128) (keyIn ms q)) []) := by
  have : (fn != 0 && fn != vf) = false := by rcases hf with rfl | rfl <;> simp
  simp [execRegisterQueue, this, hm, h]

/-- The queue that a descriptor's bytes register. -/
def registeredQueue (s : State) (q vf key : Nat) (d : List Byte) (n : Node) : Queue :=
  { addr := q, key := key, vf := vf, node := n, cap := num d 4 4, recs := num d 40 8, ctx := num d 48 2,
    ptag := BitVec.ofNat 32 (num d 52 4), part := (s.vf vf).part, cons := 0, pending := 0,
    firstAt := 0, launched := 0, head := 0, freed := [], forming := [] }

theorem execRegisterQueue_of_passes {n : Node} (h : s.queueStatus vf q (allNormal ms) (s.bytesIn ms q 128) (keyIn ms q) = 0)
    (hn : s.nodeOf vf (num (s.bytesIn ms q 128) 8 8) = some n) :
    execRegisterQueue fn q vf s = .next
      ((({ s with queues := s.queues.set (keyIn ms q) (registeredQueue s q vf (keyIn ms q) (s.bytesIn ms q 128) n) } :
        State).armQueue (keyIn ms q)).reply fn 0 []) := by
  have : (fn != 0 && fn != vf) = false := by rcases hf with rfl | rfl <;> simp
  simp [execRegisterQueue, this, hm, h, hn, registeredQueue]

end

theorem execRegisterQueue_other {fn q vf : Nat} (s : State) (h0 : fn ≠ 0) (hv : fn ≠ vf) :
    execRegisterQueue fn q vf s = .next s := by
  simp [execRegisterQueue, h0, hv]

/-- A registration of a mapped descriptor: the answer, and what is registered. -/
theorem execRegisterQueue_mapped {fn q vf : Nat} {s : State} {ms : List (TlbEntry × List Nat)} (hf : fn = 0 ∨ fn = vf)
    (hm : s.spaceMap vf true q 128 = some ms) {d : List Byte} {key c : Nat} (hd : d = s.bytesIn ms q 128) (hk : key = keyIn ms q)
    (hc : c = s.queueStatus vf q (allNormal ms) d key) :
    ∃ t : State, execRegisterQueue fn q vf s = .next t ∧ t.mem = s.mem ∧ s.answered t fn c [] ∧ (c ≠ 0 → t.queues = s.queues) ∧
      (c = 0 → ∃ n tail stamp, s.nodeOf vf (num d 8 8) = some n ∧
        t.queues.find key = some { registeredQueue s q vf key d n with tailW := tail, stampW := stamp }) := by
  subst hd hk
  by_cases h0 : c = 0
  · obtain ⟨n, hn⟩ := State.nodeOf_of_queueStatus (hc.symm.trans h0)
    refine ⟨_, execRegisterQueue_of_passes hf hm (hc.symm.trans h0) hn, ?_, ?_, fun h => absurd h0 h, fun _ => ?_⟩
    · rw [State.mem_reply, State.mem_armQueue]
    · rw [h0, State.answered, State.reply, State.answers_armQueue]
    · obtain ⟨tail, stamp, ht⟩ := State.find_armQueue (s := { s with queues := s.queues.set (keyIn ms q) _ })
        (Table.find_set_self s.queues _ (registeredQueue s q vf (keyIn ms q) (s.bytesIn ms q 128) n))
      exact ⟨n, tail, stamp, hn, ht⟩
  · refine ⟨_, execRegisterQueue_of_fails hf hm (hc ▸ h0), rfl, ?_, fun _ => rfl, fun h => absurd h h0⟩
    rw [← hc]; exact State.answered_reply ..

/-- Settles O51: the loader works by its plan; the status of a queue's descriptor is the chain of its checks, and arming the watches of
a registered queue keeps what the descriptor says. -/
theorem registrations : Obligations.Registrations := by
  unfold Obligations.Registrations
  refine ⟨fun fn text seq data hdr c obj s nodes parts hb => ?_, fun fn q vf key s ms d hf hm hd hk => ?_, fun fn q vf s => ?_⟩
  · have he := execLoaderRegister_eq fn obj text seq data hdr s hb
    refine ⟨fun h => ⟨_, he.trans (by rw [h]; rfl), State.answered_reply .., rfl, rfl⟩, fun h hc => ?_, fun u h ht hs hh hu => ?_⟩
    · refine ⟨_, he.trans ?_, State.answered_reply .., rfl, rfl⟩
      simp only [h, Option.elim_some, bne_iff_ne.mpr hc, if_true]
    · refine ⟨(u.registerNodes fn nodes).reply fn 0 [], he.trans ?_, rfl, ⟨_, rfl⟩, State.answered_reply ..⟩
      simp only [h, Option.elim_some, ht, hs, hh, hu, bne_self_eq_false, Bool.or_self, Bool.false_eq_true, if_false]
  · obtain ⟨t, ht, hmem, ha, hne, hz⟩ := execRegisterQueue_mapped hf hm hd hk rfl
    refine ⟨t, _, ht, hmem, ha, State.queueStatus_eq .., hne, fun h0 => ?_⟩
    obtain ⟨n, tail, stamp, hn, hx⟩ := hz h0
    exact ⟨_, n, hx, hn, rfl, rfl, rfl, rfl, rfl, rfl, rfl, rfl, rfl, rfl⟩
  · exact ⟨fun h0 hv => execRegisterQueue_other s h0 hv, fun hf hm =>
      ⟨_, execRegisterQueue_unmapped hf hm, State.answered_reply .., rfl⟩⟩

end Sys2Proof.Machine

end

/-!
PROOFS. The checks of a slot that is executed alone (10 R227; 11 R239; 02 R64): the statement O35.
-/

section

namespace Sys2Proof.Machine

set_option linter.constructorNameAsVariable false

/-! ## Every slot instruction but NOP runs behind the slot's checks -/

/-- The outcome is that of a slot's checks, with some effect behind them. -/
def SlotGated (i : Instr) (c : Col) (g : Pred) (s : State) (o : Out) : Prop := ∃ eff, o = slotRun i c g s eff

section
variable {i : Instr} {c : Col} {g : Pred} {s : State}

theorem slotGated_slotRun {eff : Nat → State → State} : SlotGated i c g s (slotRun i c g s eff) := ⟨eff, rfl⟩
theorem slotGated_scalarRun {d a b : XReg} {l : Nat} {f : Word → Word → Word} : SlotGated i c g s (scalarRun i c g d a b l f s) :=
  slotGated_slotRun
theorem slotGated_tmmaRun {ty : MmaTy} {h : Handle} {a b : BitVec 6} {sh : Shape} :
    SlotGated i c g s (tmmaRun i ty c g h a b sh s) := slotGated_slotRun
theorem slotGated_vRun {v : VFields} {ident : Option Word} {fl : Bool} {f : Word → Word → Word → Word} :
    SlotGated i c g s (vRun i c g v ident fl f s) := slotGated_slotRun
end

theorem slotGated_exec {i : Instr} {c : Col} {g : Pred} (s : State) (h : slotGuard i = some (c, g))
    (hn : ∀ k bits, i ≠ .nop k bits) : SlotGated i c g s (exec i s) := by
  cases i <;> cases h <;> unfold exec
  case nop => exact absurd rfl (hn _ _)
  case sadd | ssub | smul | sand | sor | sshl => exact slotGated_scalarRun
  case tmmaBf16 | tmmaF16 | tmmaE4M3 | tmmaE5M2 | tmmaQf4 | tmmaF32 => exact slotGated_tmmaRun
  case vadd | vmul | vfma | vmax | vmin | vrelu | vsel | vscl => exact slotGated_vRun
  all_goals exact slotGated_slotRun

/-! ## The frame of a slot -/

section
variable {i : Instr} {c : Col} {g : Pred} {s : State} {b : Nat} (hf : s.focus = .seqr b) (hq : s.hasSeq b = true)
  (eff : Nat → State → State)
include hf hq

theorem slotRun_of_guard_false (hg : (s.seq b).rdG c.toNat g.toNat = false) : slotRun i c g s eff = .next s := by
  simp [slotRun, hf, hq, hg]

variable (hg : (s.seq b).rdG c.toNat g.toNat = true) (hc : (s.seq b).checked = false)
include hg hc

theorem slotRun_of_trap {k sub info : Nat}
    (h : ((s.slotCheck b i).and (s.lateCheck b i)).and (s.boardCheck b i) = .trap k sub info) :
    slotRun i c g s eff = .next (s.slotTrap b i k sub info) := by
  simp [slotRun, hf, hq, hg, hc, h]

theorem slotRun_of_hold {t : State} (h : ((s.slotCheck b i).and (s.lateCheck b i)).and (s.boardCheck b i) = .hold t) :
    slotRun i c g s eff = .next t := by
  simp [slotRun, hf, hq, hg, hc, h]

/-- The checks of a slot's tiles come first. -/
theorem slotRun_of_tileChecks {k sub info : Nat} (h : s.tileChecks b i = .trap k sub info) :
    slotRun i c g s eff = .next (s.slotTrap b i k sub info) :=
  slotRun_of_trap hf hq eff hg hc (by simp only [State.slotCheck, h, SChk.and])

end

/-! ## The checks of a slot's tiles -/

/-- The first element that a filter keeps heads it. -/
theorem filter_split {α : Type} {p : α → Bool} {u w : List α} {h : α} (hu : ∀ x ∈ u, p x = false) (hh : p h = true) :
    (u ++ h :: w).filter p = h :: w.filter p := by
  rw [List.filter_append, List.filter_eq_nil_iff.mpr fun x hx => by simp [hu x hx], List.nil_append, List.filter_cons_of_pos hh]

theorem State.tileChecks_firstUse {s : State} {b : Nat} {i : Instr} {u w : List Nat} {h : Nat}
    (hs : (s.seq b).handlesOf i = u ++ h :: w) (hu : ∀ x ∈ u, (s.blk b).node.tiles ≤ x ∨ (s.blk b).seqOnly x = false)
    (hh : h < (s.blk b).node.tiles) (ho : (s.blk b).seqOnly h = true)
    (ha : (s.facet (s.blk b).facet).accV = false ∨ (s.facet (s.blk b).facet).accCtx ≠ (s.blk b).ctx) :
    s.tileChecks b i = .trap 0x44 0 h := by
  have hfil := filter_split (p := fun h => decide (h < (s.blk b).node.tiles) && (s.blk b).seqOnly h) (w := w) (h := h)
    (fun x hx => by rcases hu x hx with h | h <;> simp [h]) (by simp [hh, ho])
  have hacc : (!(s.facet (s.blk b).facet).accV || (s.facet (s.blk b).facet).accCtx != (s.blk b).ctx) = true := by
    rcases ha with h | h <;> simp [h]
  simp [State.tileChecks, hs, hfil, hacc]

section
variable {s : State} {b : Nat} {i : Instr} (hv : (s.facet (s.blk b).facet).accV = true)
  (hx : (s.facet (s.blk b).facet).accCtx = (s.blk b).ctx)
include hv hx

theorem State.tileChecks_handle {u w : List Nat} {h : Nat} (hs : (s.seq b).handlesOf i = u ++ h :: w)
    (hu : ∀ x ∈ u, x < (s.blk b).node.tiles) (hh : (s.blk b).node.tiles ≤ h) : s.tileChecks b i = .trap 0x41 0 h := by
  have hfil := filter_split (p := fun h => decide ((s.blk b).node.tiles ≤ h)) (w := w)
    (fun x hx => decide_eq_false (Nat.not_le.mpr (hu x hx))) (decide_eq_true hh)
  simp [State.tileChecks, hs, hfil, hv, hx]

theorem State.tileChecks_owner (hn : needsOwner i = true) (hs : ∀ h ∈ (s.seq b).handlesOf i, h < (s.blk b).node.tiles)
    (ho : ∃ h ∈ (s.seq b).handlesOf i, (s.blk b).seqOwns ((s.blk b).handleTile h) = false) :
    s.tileChecks b i = .trap 0x40 0 0 := by
  have hfil : ((s.seq b).handlesOf i).filter (fun h => decide ((s.blk b).node.tiles ≤ h)) = [] :=
    List.filter_eq_nil_iff.mpr fun x hx => by simp [hs x hx]
  have hany : ((s.seq b).handlesOf i).any (fun h => !(s.blk b).seqOwns ((s.blk b).handleTile h)) = true := by
    simpa using ho
  simp only [State.tileChecks, hv, hx, hfil, hn, hany, Bool.not_true, bne_self_eq_false, Bool.or_self, Bool.false_and,
    Bool.true_and, Bool.false_eq_true, if_false, if_true]

end

/-- Settles O35: the meaning of a slot instruction but NOP is `slotRun` of some effect, and the first tile check that fails decides. -/
theorem slotChecks : Obligations.SlotChecks := by
  unfold Obligations.SlotChecks
  refine ⟨fun c bits s b hf hq => ?_, fun i c g s b hi hn hf hq => ?_⟩
  · show execNop c bits s = .next s
    simp [execNop, hf, hq]
  · obtain ⟨eff, hexec⟩ := slotGated_exec s hi hn
    rw [hexec]
    refine ⟨slotRun_of_guard_false hf hq eff, fun hg hc => ⟨fun k sub info => slotRun_of_trap hf hq eff hg hc,
      fun t => slotRun_of_hold hf hq eff hg hc, fun h u w hs hu hh ho ha => ?_, fun hv hx => ⟨fun h u w hs hu hh => ?_, fun hown hs ho => ?_⟩⟩⟩
    · exact slotRun_of_tileChecks hf hq eff hg hc (State.tileChecks_firstUse hs hu hh ho ha)
    · exact slotRun_of_tileChecks hf hq eff hg hc (State.tileChecks_handle hv hx hs hu hh)
    · exact slotRun_of_tileChecks hf hq eff hg hc (State.tileChecks_owner hv hx hown hs ho)

end Sys2Proof.Machine

end

/-!
PROOFS. The traps of privilege and of fetching (03 R80; 06 R150-R152; 13 R267, R290; 02 R46): the statement O23.
-/

section

namespace Sys2Proof.Machine

set_option linter.constructorNameAsVariable false

/-! ## A write to a context area leaves the units alone -/

/-- The focus and the blocks. -/
def State.units (s : State) : Focus × Table Block := (s.focus, s.blocks)

@[simp] theorem State.units_noteDirty (s : State) (cs : List Host.Cell) : (s.noteDirty cs).units = s.units := rfl
@[simp] theorem State.units_fireMonitors (s : State) (cs : List Host.Cell) : (s.fireMonitors cs).units = s.units := rfl
@[simp] theorem State.units_dropWords (s : State) (p : Nat → Bool) (ws : List Nat) : (s.dropWords p ws).units = s.units := rfl

@[simp] theorem State.units_revoke (s : State) (keep : Option Nat) (ws : List Nat) : (s.revoke keep ws).units = s.units := by
  refine State.foldl_keeps State.units _ (fun t w => ?_) ws s
  split
  · rfl
  · split <;> rfl

@[simp] theorem State.units_writeHome (s : State) (cs : List Host.Cell) : (s.writeHome cs).units = s.units :=
  s.units_revoke none (cellWords cs)

@[simp] theorem State.units_orLeaf (s : State) (a bitNo : Nat) : (s.orLeaf a bitNo).units = s.units := by
  unfold State.orLeaf
  dsimp only
  split
  · rfl
  · exact s.units_writeHome _

@[simp] theorem State.units_markUsed (s : State) (used : List Nat) : (s.markUsed used).units = s.units :=
  State.foldl_keeps State.units _ (fun t a => t.units_orLeaf a 5) used s

@[simp] theorem State.units_setDirty (s : State) (e : TlbEntry) : (s.setDirty e).units = s.units := by
  unfold State.setDirty
  split
  · rfl
  · exact State.foldl_keeps State.units _ (fun t a => t.units_orLeaf a 6) e.leaves s

@[simp] theorem State.units_touchCtx (s : State) (b a n : Nat) (wr : Bool) : (s.touchCtx b a n wr).units = s.units := by
  refine State.foldl_keeps State.units _ (fun t i => ?_) _ s
  split
  · split <;> simp
  · rfl

@[simp] theorem State.units_writeCtx (s : State) (b a : Nat) (bs : List Byte) : (s.writeCtx b a bs).units = s.units := by
  simp [State.writeCtx]

theorem State.issuing_of_units {s t : State} {b g k : Nat} (hf : s.focus = .split b g k) (h : t.units = s.units) :
    t.focus = .split b g k ∧ t.issuing = s.issuing := by
  obtain ⟨h1, h2⟩ := Prod.mk.inj h
  have hf' : t.focus = .split b g k := h1.trans hf
  exact ⟨hf', by simp only [State.issuing, hf, hf', State.hasSplit, h2]⟩

/-! ## Taking a trap -/

/-- The trap state that a split records. -/
def State.trapOf (s : State) (b g k cause n : Nat) (lmask : Mask) (info : Dword) : TrapState :=
  trapState (s.spl b g k).pc (s.spl b g k).am cause n lmask info

section
variable {s : State} {b g k : Nat} (hf : s.focus = .split b g k) (cause n : Nat) (lmask : Mask) (info : Dword)
include hf

theorem State.takeTrapN_of_held (hh : s.trapHeld b g k cause = true) : s.takeTrapN cause n lmask info = s := by
  simp only [State.takeTrapN, hf, hh, if_true]

variable (hi : s.issuing = true)
include hi

/-- A vectored trap: the split goes on, privileged, at the facet's handler. -/
theorem State.takeTrapN_of_vectors (hh : s.trapHeld b g k cause = false) (hv : s.vectors b g k cause = true) :
    (s.takeTrapN cause n lmask info).focus = .split b g k ∧
    ((s.takeTrapN cause n lmask info).spl b g k).trap = some (s.trapOf b g k cause n lmask info) ∧
    ((s.takeTrapN cause n lmask info).spl b g k).pc = (s.facet (s.blk b).facet).tvec ∧
    ((s.takeTrapN cause n lmask info).spl b g k).priv = true := by
  simp only [State.takeTrapN, hf, hh, hv, Bool.false_eq_true, if_false, if_true]
  generalize hw : s.writeCtx b _ _ = s1
  obtain ⟨hf1, hi1⟩ := State.issuing_of_units hf (hw ▸ s.units_writeCtx b _ _)
  generalize hp : s1.putLanes _ _ = s2
  have hf2 : s2.focus = .split b g k := by
    rw [← hp, State.putLanes_proj State.focus _ _ _ fun t l => by simp [State.wrVPair], hf1]
  have hi2 : s2.issuing = true := by
    rw [← hp, State.putLanes_proj State.issuing _ _ _ fun t l => by simp [State.wrVPair], hi1, hi]
  obtain ⟨hb, hg, hk⟩ := State.listed_of_issuing hf2 hi2
  have hs (f : Split → Split) (y u a e : Nat) : ((s2.modSpl b g k f).offerBlk b y u a e).spl b g k = f (s2.spl b g k) :=
    State.spl_modSpl_self hb hg hk f
  refine ⟨hf2, ?_⟩
  rw [hs]
  exact ⟨rfl, rfl, rfl⟩

/-- A trap that no vector takes: the split parks. -/
theorem State.takeTrapN_of_parks (hv : s.vectors b g k cause = false) :
    (s.takeTrapN cause n lmask info).focus = .split b g k ∧
    (s.takeTrapN cause n lmask info).mem = s.mem ∧
    (s.takeTrapN cause n lmask info).spl b g k =
      { s.spl b g k with parked := true, parkedAt := s.now, trap := some (s.trapOf b g k cause n lmask info) } := by
  have hh : s.trapHeld b g k cause = false := by rw [State.trapHeld, hv, Bool.false_and]
  obtain ⟨hb, hg, hk⟩ := State.listed_of_issuing hf hi
  simp only [State.takeTrapN, hf, hh, hv, Bool.false_eq_true, if_false]
  exact ⟨hf, rfl, State.spl_modSpl_self hb hg hk _⟩

/-- A trap that is taken leaves its trap state with the split. -/
theorem State.trap_takeTrapN (hh : s.trapHeld b g k cause = false) :
    ((s.takeTrapN cause n lmask info).spl b g k).trap = some (s.trapOf b g k cause n lmask info) := by
  cases hv : s.vectors b g k cause with
  | true => exact (State.takeTrapN_of_vectors hf cause n lmask info hi hh hv).2.1
  | false => rw [(State.takeTrapN_of_parks hf cause n lmask info hi hv).2.2]

end

theorem State.pc_of_split {s : State} {b g k : Nat} (hf : s.focus = .split b g k) : s.pc = (s.spl b g k).pc := by
  rw [State.pc, hf]

/-! ## Privilege -/

theorem exec_of_privilegedOnly {i : Instr} {g : Pred} {s : State} (hi : privilegedOnly i = some g) (hm : s.mayIssue i g = true)
    (hp : s.privileged = false) : Sys2Proof.Machine.exec i s = .next (s.takeTrap 0xA0) := by
  unfold privilegedOnly at hi
  split at hi <;> cases hi
  case h_1 =>
    show execEret _ _ = _
    rw [execEret, laneRun_of_mayIssue hm]
    cases s.focus <;> simp [hp]
  case h_2 =>
    show execMfs _ _ _ _ = _
    rw [execMfs, laneRun_of_mayIssue hm]
    simp [hp]
  case h_3 =>
    show execMts _ _ _ _ = _
    rw [execMts, laneRun_of_mayIssue hm]
    simp [hp]
  case h_4 =>
    show execCtxsv _ _ _ = _
    rw [execCtxsv, ctxRun, laneRun_of_mayIssue hm]
    simp [hp]
  case h_5 =>
    show execCtxld _ _ _ = _
    rw [execCtxld, ctxRun, laneRun_of_mayIssue hm]
    simp [hp]

/-! ## Fetching -/

theorem execIllegalInstruction_of_none {s : State} {w : Word} (hd : decodeLane w 0 = none) (hi : s.issuing = true) :
    execIllegalInstruction w s = .next (s.takeTrap 0x00) := by
  simp only [execIllegalInstruction, hd, hi, Option.isSome_none, Bool.not_true, Bool.or_false, Bool.false_eq_true, if_false]

/-- A fault of a split's fetch traps in a state that differs in the counters. -/
theorem execInstructionFetchFault_of_split {s : State} {b g k : Nat} (hf : s.focus = .split b g k) (hi : s.issuing = true) (c : Nat)
    (a : Dword) : ∃ u : State,
      execInstructionFetchFault c a s = .next ((u.trapWith c s.lanes a).clearFaults (.unit s.focus)) ∧ u.focus = .split b g k ∧
      u.issuing = true ∧ ∀ {β : Type} (p : State → β), (∀ (t : State) x, p { t with counters := x } = p t) → p u = p s := by
  have hu {β : Type} := State.countFaulted_keeps (β := β) s s.site a.toNat c
  refine ⟨s.countFaulted s.site a.toNat c, ?_, (hu State.focus fun _ _ => rfl).trans hf, (hu State.issuing fun _ _ => rfl).trans hi, hu⟩
  simp only [execInstructionFetchFault, hf, hi, if_true]

/-- Settles O23: a trap is held, vectored or parked, and the trap state says where and why. -/
theorem instructionTraps : Obligations.InstructionTraps := by
  unfold Obligations.InstructionTraps
  refine ⟨fun i g hi s hm hp => exec_of_privilegedOnly hi hm hp, fun s b g k hf hi =>
    ⟨fun w hd hh => ?_, fun w hd hh => ?_, fun c a hh => ?_, fun c a hc hh => ?_⟩⟩
  · refine (execIllegalInstruction_of_none hd hi).trans ?_
    rw [State.takeTrap, State.takeTrapN_of_held hf _ _ _ _ hh]
  · refine ⟨_, _, execIllegalInstruction_of_none hd hi, State.trap_takeTrapN hf _ _ _ _ hi hh, (State.pc_of_split hf).symm,
      rfl, rfl, rfl, fun hv => ?_, fun hv => ?_⟩
    · obtain ⟨hft, -, hpc, hpr⟩ := State.takeTrapN_of_vectors hf 0 0 s.lanes 0 hi hh hv
      exact ⟨(State.pc_of_split hft).trans hpc, hpr⟩
    · obtain ⟨hft, hmem, hspl⟩ := State.takeTrapN_of_parks hf 0 0 s.lanes 0 hi hv
      refine ⟨(State.pc_of_split hft).trans ?_, ?_, hmem⟩
      · exact (congrArg Split.pc hspl).trans (State.pc_of_split hf).symm
      · exact congrArg Split.parked hspl
  · obtain ⟨u, hx, hfu, -, hu⟩ := execInstructionFetchFault_of_split hf hi c a
    refine ⟨_, hx, ?_⟩
    rw [State.trapWith, State.takeTrapN_of_held hfu _ _ _ _ ((hu (State.trapHeld · b g k c) fun _ _ => rfl).trans hh)]
    exact ⟨hu State.mem fun _ _ => rfl, hu State.blocks fun _ _ => rfl⟩
  · obtain ⟨u, hx, hfu, hiu, hu⟩ := execInstructionFetchFault_of_split hf hi c a
    have hhu : u.trapHeld b g k c = false := (hu (State.trapHeld · b g k c) fun _ _ => rfl).trans hh
    have hpc : (u.spl b g k).pc = s.pc := (hu (State.spl · b g k |>.pc) fun _ _ => rfl).trans (State.pc_of_split hf).symm
    refine ⟨_, _, hx, State.trap_takeTrapN hfu c 0 s.lanes a hiu hhu, hpc, rfl, rfl, rfl, fun hv => ?_⟩
    obtain ⟨hft, hmem, hspl⟩ := State.takeTrapN_of_parks hfu c 0 s.lanes a hiu ((hu (State.vectors · b g k c) fun _ _ => rfl).trans hv)
    refine ⟨(State.pc_of_split hft).trans ?_, ?_, hmem.trans (hu State.mem fun _ _ => rfl)⟩
    · exact (congrArg Split.pc hspl).trans hpc
    · exact congrArg Split.parked hspl

end Sys2Proof.Machine

end


/-!
PROOFS. The reset values (spec/20_package_tenancy.md R404-R408, R415, R418 and the rules that it names): the statement O4.
-/

section

namespace Sys2Proof.Machine

/-- Settles O4: no table lists anything at reset, so every accessor answers its reset value. -/
theorem resetState : Obligations.ResetState := by
  unfold Obligations.ResetState
  refine ⟨rfl, rfl, rfl, rfl, rfl, rfl, rfl, rfl, fun d v => rfl, fun c => ⟨rfl, ?_, rfl⟩, fun f => ⟨rfl, rfl, ?_, rfl, rfl, rfl⟩,
    fun p => ⟨rfl, fun d => rfl, rfl, rfl, rfl, rfl, rfl, rfl, rfl, rfl⟩, fun m => ⟨rfl, rfl, rfl, fun p => rfl⟩⟩
  · have hcount : State.reset.facetCount c = 1 := rfl
    rw [State.facetWidth, hcount]
  · have hacc : (State.reset.facet f).accown = 0 := rfl
    rw [Facet.accV, hacc]
    decide

end Sys2Proof.Machine

end


/-!
PROOFS. Lane masks, the paths of a branch, changes of a group, and bytes laid out in memory: the facts that the proofs about
divergence, JOIN and merges share
(spec/03_lane_state.md R87-R92).
-/

section

namespace Sys2Proof.Machine

set_option linter.constructorNameAsVariable false

/-! ## Lane masks -/

theorem mask_ext {m n : Mask} (h : ∀ l, hasLane m l = hasLane n l) : m = n :=
  BitVec.eq_of_getLsbD_eq fun l _ => h l

theorem lt_of_hasLane {m : Mask} {l : Nat} (h : hasLane m l = true) : l < 64 := BitVec.lt_of_getLsbD h

@[simp] theorem hasLane_zero (l : Nat) : hasLane 0#64 l = false := by simp [hasLane]

theorem hasLane_or (a b : Mask) (l : Nat) : hasLane (a ||| b) l = (hasLane a l || hasLane b l) := by simp [hasLane]

theorem hasLane_laneBit (k l : Nat) : hasLane (laneBit k) l = (decide (l < 64) && decide (l = k)) := by
  simp only [hasLane, laneBit, BitVec.getLsbD_shiftLeft]
  rw [show (1 : Mask) = 1#64 from rfl, BitVec.getLsbD_one]
  rcases Nat.lt_trichotomy l k with h | h | h
  · simp [h, Nat.ne_of_lt h]
  · simp [h]
  · simp [Nat.ne_of_gt h, Nat.sub_eq_zero_iff_le, Nat.not_le.mpr h]

theorem hasLane_minusLanes (a b : Mask) (l : Nat) : hasLane (minusLanes a b) l = (hasLane a l && !hasLane b l) := by
  simp only [hasLane, minusLanes, BitVec.getLsbD_and, BitVec.getLsbD_not]
  cases h : a.getLsbD l with
  | false => simp
  | true => simp [BitVec.lt_of_getLsbD h]

theorem subLanes_iff (a b : Mask) : subLanes a b = true ↔ ∀ l, hasLane a l = true → hasLane b l = true := by
  have he : subLanes a b = true ↔ minusLanes a b = 0 := by simp [subLanes, minusLanes]
  rw [he]
  constructor
  · intro h l hl
    have := hasLane_minusLanes a b l
    rw [h, hl] at this
    simpa using this
  · intro h
    refine mask_ext fun l => ?_
    rw [hasLane_minusLanes]
    cases ha : hasLane a l with
    | false => simp
    | true => simp [h l ha]

theorem mask_ne_zero_of_hasLane {m : Mask} {l : Nat} (h : hasLane m l = true) : m ≠ 0 := by
  rintro rfl
  exact absurd h (by simp)

theorem lanesOf_sorted (m : Mask) : (lanesOf m).Pairwise (· < ·) := List.Pairwise.filter _ List.pairwise_lt_range

/-- The lowest lane of a mask that is not empty is in it. -/
theorem hasLane_lowestLane {m : Mask} (h : m ≠ 0) : hasLane m (lowestLane m) = true := by
  rw [← mem_lanesOf, lowestLane]
  cases hl : lanesOf m with
  | cons l ls => exact List.mem_cons_self
  | nil =>
    refine absurd (mask_ext fun l => ?_) h
    have hn : ¬ hasLane m l = true := by simp [← mem_lanesOf, hl]
    simpa using hn

theorem lowestLane_le {m : Mask} {l : Nat} (h : hasLane m l = true) : lowestLane m ≤ l := by
  have hs := lanesOf_sorted m
  rw [← mem_lanesOf] at h
  rw [lowestLane]
  cases hl : lanesOf m with
  | nil => simp
  | cons k ks =>
    rw [hl] at hs h
    rcases List.mem_cons.mp h with rfl | h
    · exact Nat.le_refl _
    · exact Nat.le_of_lt ((List.pairwise_cons.mp hs).1 l h)

theorem lowestLane_eq {m : Mask} {l : Nat} (h : hasLane m l = true) (hle : ∀ k, hasLane m k = true → l ≤ k) : lowestLane m = l :=
  Nat.le_antisymm (lowestLane_le h) (hle _ (hasLane_lowestLane (mask_ne_zero_of_hasLane h)))

/-! ## The paths of a branch (03 R88) -/

/-- `ps` are the paths of the lanes `ls` with these next PCs: every lane is in the one of its PC, and they are ordered by their lowest
lanes. -/
structure IsPaths (next : Nat → Dword) (ls : List Nat) (ps : List (Dword × Mask)) : Prop where
  lanes : ∀ q ∈ ps, q.2 ≠ 0 ∧ ∀ l, hasLane q.2 l = true ↔ l ∈ ls ∧ next l = q.1
  cover : ∀ l ∈ ls, ∃ q ∈ ps, hasLane q.2 l = true
  sorted : ps.Pairwise fun q r => lowestLane q.2 < lowestLane r.2

/-- A path joins or follows those of the higher lanes as the first. -/
theorem IsPaths.cons {next : Nat → Dword} {l : Nat} {ls : List Nat} {m : Mask} {ps qs : List (Dword × Mask)} (h : IsPaths next ls ps)
    (hlow : ∀ k ∈ ls, l < k) (hm : ∀ k, hasLane m k = true ↔ k ∈ l :: ls ∧ next k = next l)
    (hq : ∀ q, q ∈ qs ↔ q ∈ ps ∧ q.1 ≠ next l) (hs : qs.Sublist ps) : IsPaths next (l :: ls) ((next l, m) :: qs) := by
  have hml : hasLane m l = true := (hm l).mpr ⟨List.mem_cons_self, rfl⟩
  have hlm : lowestLane m = l := lowestLane_eq hml fun k hk => by
    rcases List.mem_cons.mp ((hm k).mp hk).1 with rfl | hk
    · exact Nat.le_refl _
    · exact Nat.le_of_lt (hlow k hk)
  refine ⟨fun q hmem => ?_, fun k hk => ?_, ?_⟩
  · rcases List.mem_cons.mp hmem with rfl | hmem
    · exact ⟨mask_ne_zero_of_hasLane hml, hm⟩
    · obtain ⟨hp, hne⟩ := (hq q).mp hmem
      obtain ⟨h0, hl⟩ := h.lanes q hp
      refine ⟨h0, fun k => (hl k).trans ⟨fun ⟨a, e⟩ => ⟨List.mem_cons_of_mem _ a, e⟩, fun ⟨a, e⟩ => ⟨?_, e⟩⟩⟩
      rcases List.mem_cons.mp a with rfl | a
      · exact absurd e.symm hne
      · exact a
  · by_cases e : next k = next l
    · exact ⟨_, List.mem_cons_self, (hm k).mpr ⟨hk, e⟩⟩
    · rcases List.mem_cons.mp hk with rfl | hk
      · exact absurd rfl e
      · obtain ⟨q, hp, hl⟩ := h.cover k hk
        have hne : q.1 ≠ next l := fun e' => e (((h.lanes q hp).2 k).mp hl |>.2.trans e')
        exact ⟨q, List.mem_cons_of_mem _ ((hq q).mpr ⟨hp, hne⟩), hl⟩
  · refine List.pairwise_cons.mpr ⟨fun q hmem => ?_, h.sorted.sublist hs⟩
    obtain ⟨h0, hl⟩ := h.lanes q ((hq q).mp hmem).1
    rw [hlm]
    exact hlow _ ((hl _).mp (hasLane_lowestLane h0)).1

/-- The model's paths are the paths. -/
theorem isPaths_pathsOf (next : Nat → Dword) {ls : List Nat} (hs : ls.Pairwise (· < ·)) (hb : ∀ l ∈ ls, l < 64) :
    IsPaths next ls (pathsOf next ls) := by
  induction ls with
  | nil => exact ⟨by simp [pathsOf], by simp, by simp [pathsOf]⟩
  | cons l ls ih =>
    obtain ⟨hlow, hs'⟩ := List.pairwise_cons.mp hs
    have h := ih hs' fun k hk => hb k (List.mem_cons_of_mem _ hk)
    have hl64 : l < 64 := hb l List.mem_cons_self
    have hbit (k : Nat) : hasLane (laneBit l) k = true ↔ k = l := by
      rw [hasLane_laneBit]
      simp only [Bool.and_eq_true, decide_eq_true_eq, and_iff_right_iff_imp]
      rintro rfl
      exact hl64
    rw [pathsOf]
    split
    · next p hp =>
      have hmem := List.mem_of_find?_eq_some hp
      have hpc : p.1 = next l := by simpa using List.find?_some hp
      rw [hpc]
      refine h.cons hlow (fun k => ?_) (fun q => by simp) List.filter_sublist
      rw [hasLane_or, Bool.or_eq_true, (h.lanes p hmem).2, hbit, hpc, List.mem_cons]
      constructor
      · rintro (⟨a, e⟩ | rfl)
        · exact ⟨.inr a, e⟩
        · exact ⟨.inl rfl, rfl⟩
      · rintro ⟨rfl | a, e⟩
        · exact .inr rfl
        · exact .inl ⟨a, e⟩
    · next hn =>
      have hne : ∀ q ∈ pathsOf next ls, q.1 ≠ next l := by simpa using List.find?_eq_none.mp hn
      refine h.cons hlow (fun k => ?_) (fun q => ⟨fun hq => ⟨hq, hne q hq⟩, And.left⟩) (List.Sublist.refl _)
      rw [hbit, List.mem_cons]
      constructor
      · rintro rfl
        exact ⟨.inl rfl, rfl⟩
      · rintro ⟨rfl | a, e⟩
        · rfl
        · obtain ⟨q, hq, hl⟩ := h.cover k a
          exact absurd ((((h.lanes q hq).2 k).mp hl).2.symm.trans e) (hne q hq)

theorem IsPaths.mem_of_mem {next next' : Nat → Dword} {ls : List Nat} {ps qs : List (Dword × Mask)} (h : IsPaths next ls ps)
    (h' : IsPaths next' ls qs) (he : ∀ l ∈ ls, next l = next' l) {q : Dword × Mask} (hq : q ∈ ps) : q ∈ qs := by
  obtain ⟨h0, hl⟩ := h.lanes q hq
  obtain ⟨ha, hn⟩ := (hl _).mp (hasLane_lowestLane h0)
  obtain ⟨r, hr, hlr⟩ := h'.cover _ ha
  have hr1 : r.1 = q.1 := by rw [← (((h'.lanes r hr).2 _).mp hlr).2, ← he _ ha, hn]
  have hr2 : r.2 = q.2 := mask_ext fun l => by
    rw [Bool.eq_iff_iff, (h'.lanes r hr).2, hl, hr1]
    exact and_congr_right fun hl => by rw [he l hl]
  rwa [← Prod.ext hr1 hr2]

/-- The paths of a branch are unique. -/
theorem IsPaths.unique {next next' : Nat → Dword} {ls : List Nat} {ps qs : List (Dword × Mask)} (h : IsPaths next ls ps)
    (h' : IsPaths next' ls qs) (he : ∀ l ∈ ls, next l = next' l) : ps = qs := by
  have : Std.Irrefl fun q r : Dword × Mask => lowestLane q.2 < lowestLane r.2 := ⟨fun _ => Nat.lt_irrefl _⟩
  have : Std.Antisymm fun q r : Dword × Mask => lowestLane q.2 < lowestLane r.2 :=
    ⟨fun _ _ a b => absurd a (Nat.lt_asymm b)⟩
  exact h.sorted.eq_of_mem_iff h'.sorted fun q => ⟨fun hq => h.mem_of_mem h' he hq, fun hq =>
    h'.mem_of_mem h (fun l hl => (he l hl).symm) hq⟩

/-! ## Entries written one after the other -/

theorem Table.modify_id {α : Type} (t : Table α) (i : Nat) : t.modify i (fun x => x) = t := by
  induction t with
  | nil => rfl
  | cons e t ih =>
    rw [Table.modify]
    split
    · rfl
    · rw [ih]

theorem Table.find_foldl_set_other {α : Type} (l : List (Nat × α)) (t : Table α) {k : Nat} (h : k ∉ l.map Prod.fst) :
    (l.foldl (fun t e => t.set e.1 e.2) t).find k = t.find k := by
  induction l generalizing t with
  | nil => rfl
  | cons e l ih =>
    simp only [List.map_cons, List.mem_cons, not_or] at h
    rw [List.foldl_cons, ih _ h.2, Table.find_set_other _ _ _ _ h.1]

theorem Table.find_foldl_set_mem {α : Type} (l : List (Nat × α)) (t : Table α) (hn : (l.map Prod.fst).Nodup) {e : Nat × α}
    (h : e ∈ l) : (l.foldl (fun t e => t.set e.1 e.2) t).find e.1 = some e.2 := by
  induction l generalizing t with
  | nil => exact absurd h List.not_mem_nil
  | cons f l ih =>
    obtain ⟨hf, hn⟩ := List.nodup_cons.mp hn
    rw [List.foldl_cons]
    rcases List.mem_cons.mp h with rfl | h
    · rw [Table.find_foldl_set_other l _ hf, Table.find_set_self]
    · exact ih _ hn h

/-! ## Changes of a group -/

theorem State.modGrp_modGrp (s : State) (b g : Nat) (f h : Group → Group) :
    (s.modGrp b g f).modGrp b g h = s.modGrp b g fun x => h (f x) := by
  simp only [State.modGrp, State.modBlk, Block.modGrp, Table.modify_modify]
  congr 2
  funext x
  simp only [Function.comp_apply, Table.modify_modify]
  rfl

theorem State.modGrp_same (s : State) (b g : Nat) : s.modGrp b g (fun x => x) = s := by
  simp only [State.modGrp, State.modBlk, Block.modGrp, Table.modify_id]

/-- Changes of a group one after the other are one change of it. -/
theorem State.foldl_modGrp {α : Type} (s : State) (b g : Nat) (f : α → Group → Group) (l : List α) :
    l.foldl (fun t e => t.modGrp b g (f e)) s = s.modGrp b g fun x => l.foldl (fun y e => f e y) x := by
  induction l generalizing s with
  | nil => exact (s.modGrp_same b g).symm
  | cons e l ih => rw [List.foldl_cons, ih, State.modGrp_modGrp]; rfl

@[simp] theorem State.has_modGrp (s : State) (b g : Nat) (f : Group → Group) (c : Nat) :
    (s.modGrp b g f).blocks.has c = s.blocks.has c := Table.has_modify ..

/-- Changing a group leaves the rest of its block alone. -/
theorem State.blk_modGrp (s : State) (b g : Nat) (f : Group → Group) : (s.modGrp b g f).blk b = (s.blk b).modGrp g f := by
  by_cases hb : s.blocks.has b = true
  · exact s.blk_modBlk_self b _ hb
  · have hn : s.blocks.find b = none := Table.find_of_not_has (by simpa using hb)
    simp [State.blk, State.modGrp, State.modBlk, Table.getD, Table.find_modify_self, hn, Block.modGrp, Block.empty, Table.modify]

@[simp] theorem State.groups_has_modGrp (s : State) (b g : Nat) (f : Group → Group) (c : Nat) :
    ((s.modGrp b g f).blk b).groups.has c = (s.blk b).groups.has c := by
  rw [State.blk_modGrp]
  exact Table.has_modify ..

theorem State.spl_modGrp_self {s : State} {b g : Nat} (hb : s.blocks.has b = true) (hg : (s.blk b).groups.has g = true)
    (f : Group → Group) (k : Nat) : (s.modGrp b g f).spl b g k = (f (s.grp b g)).spl k := by
  rw [State.spl, State.grp_modGrp_self hb hg]

@[simp] theorem Group.has_modSpl (x : Group) (k : Nat) (f : Split → Split) (j : Nat) :
    (x.modSpl k f).splits.has j = x.splits.has j := Table.has_modify ..

theorem Group.spl_modSpl_self {x : Group} {k : Nat} (h : x.splits.has k = true) (f : Split → Split) :
    (x.modSpl k f).spl k = f (x.spl k) := Table.getD_modify_self _ _ _ _ h

theorem Group.spl_modSpl_other (x : Group) {k j : Nat} (f : Split → Split) (h : j ≠ k) : (x.modSpl k f).spl j = x.spl j :=
  Table.getD_modify_other _ _ _ _ _ h

/-- Changing a group whose registers stay leaves the lane registers of every unit alone. -/
@[simp] theorem State.rdV_modGrp (s : State) (b g : Nat) (f : Group → Group) (m l : Nat) :
    (s.modGrp b g f).rdV m l = s.rdV m l := by
  simp only [State.rdV, State.modGrp_focus]
  split
  · next b' g' k hf => exact Table.proj_getD_modify (fun x : Block => x.vregs.getD (x.regKey g' m l) 0) fun _ => by rfl
  · rfl
  · rfl

@[simp] theorem State.rdV_modSpl (s : State) (b g k : Nat) (f : Split → Split) (m l : Nat) :
    (s.modSpl b g k f).rdV m l = s.rdV m l := s.rdV_modGrp ..

/-- The group with some splits set, each at its index. -/
def Group.addSplits (x : Group) (l : List (Nat × Split)) : Group := { x with splits := l.foldl (fun t e => t.set e.1 e.2) x.splits }

theorem Group.find_addSplits_mem (x : Group) {l : List (Nat × Split)} (hn : (l.map Prod.fst).Nodup) {e : Nat × Split} (h : e ∈ l) :
    (x.addSplits l).splits.find e.1 = some e.2 := Table.find_foldl_set_mem l _ hn h

theorem Group.find_addSplits_other (x : Group) {l : List (Nat × Split)} {k : Nat} (h : k ∉ l.map Prod.fst) :
    (x.addSplits l).splits.find k = x.splits.find k := Table.find_foldl_set_other l _ h

theorem Group.addSplits_eq_foldl (x : Group) (l : List (Nat × Split)) :
    l.foldl (fun (y : Group) e => { y with splits := y.splits.set e.1 e.2 }) x = x.addSplits l := by
  induction l generalizing x with
  | nil => rfl
  | cons e l ih => rw [List.foldl_cons, ih]; rfl

theorem Group.freeSplits_nodup (x : Group) : x.freeSplits.Nodup := List.Nodup.filter _ List.nodup_range

theorem Group.not_has_of_mem_freeSplits {x : Group} {k : Nat} (h : k ∈ x.freeSplits) : x.splits.has k = false := by
  simpa using (List.mem_filter.mp h).2

/-! ## Bytes laid out from an address -/

theorem Memory.get_putAll_cellsAt {m : Memory} (h : m.wf = true) (a : Nat) {bs : List Byte} {i : Nat} (hi : i < bs.length) :
    (m.putAll (cellsAt a bs)).get (a + i) = bs[i] := by
  induction bs generalizing a i m with
  | nil => exact absurd hi (Nat.not_lt_zero _)
  | cons b bs ih =>
    show ((m.put a b).putAll (cellsAt (a + 1) bs)).get (a + i) = _
    cases i with
    | zero =>
      rw [Memory.get_putAll_other _ _ _ (Memory.wf_put m a b h) fun c hc => by have := mem_cellsAt _ _ c hc; omega]
      exact Memory.get_put_self m a b h
    | succ i =>
      rw [show a + (i + 1) = a + 1 + i by omega, ih (Memory.wf_put m a b h) (a + 1) (Nat.lt_of_succ_lt_succ hi)]
      rfl

/-- Reading some of the bytes that were laid out from an address. -/
theorem Memory.bytes_putAll_cellsAt {m : Memory} (h : m.wf = true) (a : Nat) {bs : List Byte} {i n : Nat} (hi : i + n ≤ bs.length) :
    (m.putAll (cellsAt a bs)).bytes (a + i) n = (bs.drop i).take n := by
  induction n generalizing i with
  | zero => rfl
  | succ n ih =>
    rw [Memory.bytes, Memory.get_putAll_cellsAt h a (by omega), Nat.add_assoc, ih (by omega),
      List.drop_eq_getElem_cons (i := i) (by omega), List.take_succ_cons]

theorem leBytes_add (m n v : Nat) : leBytes (m + n) v = leBytes m v ++ leBytes n (v / 256 ^ m) := by
  induction m generalizing v with
  | zero => simp [leBytes]
  | succ m ih =>
    rw [Nat.add_right_comm, leBytes, ih, leBytes, List.cons_append, Nat.div_div_eq_div_mul, Nat.pow_succ, Nat.mul_comm 256]

/-- Parts of one length, from one of them on. -/
theorem drop_flatMap_of_length {α β : Type} {f : α → List β} {n : Nat} (h : ∀ a, (f a).length = n) (l : List α) (i : Nat) :
    (l.flatMap f).drop (n * i) = (l.drop i).flatMap f := by
  induction l generalizing i with
  | nil => simp
  | cons a l ih =>
    cases i with
    | zero => simp
    | succ i =>
      rw [List.flatMap_cons, Nat.mul_succ, Nat.add_comm, List.drop_append, h, List.drop_of_length_le (by rw [h]; omega),
        List.nil_append, Nat.add_sub_cancel_left, ih, List.drop_succ_cons]

end Sys2Proof.Machine

end


/-!
PROOFS. Divergence to free splits and to the stack (spec/03_lane_state.md R88, R89; 06 R140, R141, R143): the statement O18.
-/

section

namespace Sys2Proof.Machine

set_option linter.constructorNameAsVariable false

/-! ## The stack on chip -/

/-- A split with entries pushed, the first of the list on top. -/
def Split.push (ds : List Deferred) (x : Split) : Split := { x with stack := ds ++ x.stack }

@[simp] theorem Split.push_nil (x : Split) : x.push [] = x := rfl

theorem Group.modSpl_modSpl (x : Group) (k : Nat) (f h : Split → Split) :
    (x.modSpl k f).modSpl k h = x.modSpl k fun y => h (f y) := by
  simp only [Group.modSpl, Table.modify_modify]
  rfl

theorem State.modSpl_modSpl (s : State) (b g k : Nat) (f h : Split → Split) :
    (s.modSpl b g k f).modSpl b g k h = s.modSpl b g k fun y => h (f y) := by
  simp only [State.modSpl, State.modGrp_modGrp, Group.modSpl_modSpl]

theorem State.pushEntry_of_room {s : State} {b g k : Nat} (h : (s.spl b g k).stack.length < 8) (d : Deferred) :
    s.pushEntry b g k d = some (s.modSpl b g k (Split.push [d])) := by
  rw [State.pushEntry, if_pos h]
  rfl

/-- Entries for which the stack on chip has room: the last of the list comes to lie on top. -/
theorem State.pushAll_of_room {s : State} {b g k : Nat} (hb : s.blocks.has b = true) (hg : (s.blk b).groups.has g = true)
    (hk : (s.grp b g).splits.has k = true) {ds : List Deferred} (h : (s.spl b g k).stack.length + ds.length ≤ 8) :
    s.pushAll b g k ds = some (s.modSpl b g k (Split.push ds.reverse)) := by
  induction ds generalizing s with
  | nil =>
    have : s.modSpl b g k (fun x => x) = s := by
      simp only [State.modSpl, Group.modSpl, Table.modify_id]
      exact s.modGrp_same b g
    exact congrArg some this.symm
  | cons d ds ih =>
    rw [List.length_cons] at h
    have hspl := State.spl_modSpl_self hb hg hk (Split.push [d])
    rw [State.pushAll, State.pushEntry_of_room (by omega), Option.bind_some,
      ih (s := s.modSpl b g k (Split.push [d])) (by simpa [State.modSpl] using hb) (by simpa [State.modSpl] using hg)
        (by rw [State.modSpl, State.grp_modGrp_self hb hg, Group.has_modSpl]; exact hk)
        (by rw [hspl]; simp only [Split.push, List.length_append, List.length_cons, List.length_nil]; omega),
      State.modSpl_modSpl]
    congr 2
    funext x
    simp [Split.push]

/-! ## A divergence -/

/-- The D entry of a path. -/
def pathEntry (q : Dword × Mask) : Deferred := { path := true, pc := q.1, mask := q.2 }

/-- The entry of the CM that a split has before it diverges. -/
def Split.cmEntry (x : Split) : Deferred := { path := false, pc := 0, mask := x.cm }

/-- A split goes on at a path within a convergence mask. -/
def Split.takePath (now : Nat) (cm : Mask) (p : Dword × Mask) (x : Split) : Split :=
  { x with cm := cm, am := p.2, pc := p.1, pathStart := now }

/-- The free split indices with the further paths that they get. -/
def State.givenPaths (s : State) (b g : Nat) (ps : List (Dword × Mask)) : List (Nat × (Dword × Mask)) :=
  (s.grp b g).freeSplits.zip ps

/-- `t` is `u`, in which split k of `s` has pushed its old CM, after the divergence of that split (R88): the first path stays, free
indices take the next ones, and the rest lies on the stack. -/
structure Diverged (s u t : State) (b g k : Nat) (p : Dword × Mask) (ps : List (Dword × Mask)) : Prop where
  kept : t.spl b g k = ((u.spl b g k).takePath s.now (s.spl b g k).am p).push
    ((ps.drop (s.grp b g).freeSplits.length).map pathEntry)
  given : ∀ e ∈ s.givenPaths b g ps, (t.grp b g).splits.find e.1 = some (newSplit s.now (s.spl b g k) (s.spl b g k).am e.2)
  others : ∀ j, j ≠ k → j ∉ (s.givenPaths b g ps).map Prod.fst → t.spl b g j = u.spl b g j
  regs : ∀ m l, t.rdV m l = u.rdV m l
  mem : t.mem = u.mem

/-- The splits that a divergence makes, each with its index. -/
def State.newSplits (s : State) (b g k : Nat) (ps : List (Dword × Mask)) : List (Nat × Split) :=
  (s.givenPaths b g ps).map fun e => (e.1, newSplit s.now (s.spl b g k) (s.spl b g k).am e.2)

/-- The group after a divergence, but for the paths that find no free index. -/
def State.divergeGroup (s : State) (b g k : Nat) (p : Dword × Mask) (ps : List (Dword × Mask)) (x : Group) : Group :=
  (x.modSpl k (Split.takePath s.now (s.spl b g k).am p)).addSplits (s.newSplits b g k ps)

theorem State.newSplits_keys (s : State) (b g k : Nat) (ps : List (Dword × Mask)) :
    (s.newSplits b g k ps).map Prod.fst = (s.givenPaths b g ps).map Prod.fst := by simp [State.newSplits]

theorem State.givenPaths_keys_sublist (s : State) (b g : Nat) (ps : List (Dword × Mask)) :
    ((s.givenPaths b g ps).map Prod.fst).Sublist (s.grp b g).freeSplits := by
  rw [State.givenPaths, List.zip_eq_zip_take_min, List.map_fst_zip (by simp)]
  exact List.take_sublist _ _

theorem State.newSplits_nodup (s : State) (b g k : Nat) (ps : List (Dword × Mask)) :
    ((s.newSplits b g k ps).map Prod.fst).Nodup := by
  rw [State.newSplits_keys]
  exact (Group.freeSplits_nodup _).sublist (s.givenPaths_keys_sublist b g ps)

theorem State.diverge_eq (s : State) (b g k : Nat) (p : Dword × Mask) (ps : List (Dword × Mask)) :
    s.diverge b g k (p :: ps) = (s.pushEntry b g k (s.spl b g k).cmEntry).bind fun u =>
      (u.modGrp b g (s.divergeGroup b g k p ps)).pushAll b g k
        ((ps.drop (s.grp b g).freeSplits.length).reverse.map pathEntry) := by
  rw [State.diverge]
  congr 1
  funext u
  dsimp only
  rw [State.foldl_modGrp, State.modSpl, State.modGrp_modGrp]
  congr 2
  funext x
  simp only [State.divergeGroup, State.newSplits, ← Group.addSplits_eq_foldl, List.foldl_map]
  rfl

section
variable {s u : State} {b g k : Nat} {p : Dword × Mask} {ps : List (Dword × Mask)} (hfree : k ∉ (s.grp b g).freeSplits)
include hfree

theorem State.find_divergeGroup_self (x : Group) : (s.divergeGroup b g k p ps x).splits.find k =
    (x.modSpl k (Split.takePath s.now (s.spl b g k).am p)).splits.find k := by
  refine Group.find_addSplits_other _ fun h => hfree ?_
  rw [State.newSplits_keys] at h
  exact (s.givenPaths_keys_sublist b g ps).subset h

theorem State.diverge_of_push (hu : s.pushEntry b g k (s.spl b g k).cmEntry = some u) (hb : u.blocks.has b = true)
    (hg : (u.blk b).groups.has g = true) (hk : (u.grp b g).splits.has k = true)
    (hroom : (u.spl b g k).stack.length + (ps.length - (s.grp b g).freeSplits.length) ≤ 8) :
    ∃ t, s.diverge b g k (p :: ps) = some t ∧ Diverged s u t b g k p ps := by
  have hfind := State.find_divergeGroup_self (p := p) (ps := ps) hfree (u.grp b g)
  have hspl : (u.modGrp b g (s.divergeGroup b g k p ps)).spl b g k = (u.spl b g k).takePath s.now (s.spl b g k).am p := by
    rw [State.spl_modGrp_self hb hg, Group.spl, Table.getD, hfind]
    exact Group.spl_modSpl_self hk _
  have hlisted : ((u.modGrp b g (s.divergeGroup b g k p ps)).grp b g).splits.has k = true := by
    rw [State.grp_modGrp_self hb hg, Table.has, hfind]
    exact (Group.has_modSpl _ _ _ _).trans hk
  have hpush := State.pushAll_of_room (by simpa using hb) (by simpa using hg) hlisted
    (ds := (ps.drop (s.grp b g).freeSplits.length).reverse.map pathEntry)
    (by rw [hspl, List.length_map, List.length_reverse, List.length_drop]; exact hroom)
  rw [List.map_reverse, List.reverse_reverse] at hpush
  rw [s.diverge_eq, hu, Option.bind_some, List.map_reverse, hpush]
  refine ⟨_, rfl, ?_, fun e he => ?_, fun j hj hj' => ?_, fun m l => ?_, ?_⟩
  · rw [State.spl_modSpl_self (by simpa using hb) (by simpa using hg) hlisted, hspl]
  · have hek : e.1 ≠ k := fun h => hfree (h ▸ (s.givenPaths_keys_sublist b g ps).subset (List.mem_map_of_mem he))
    rw [State.modSpl, State.grp_modGrp_self (by simpa using hb) (by simpa using hg), Group.modSpl,
      Table.find_modify_other _ _ _ _ hek, State.grp_modGrp_self hb hg]
    exact Group.find_addSplits_mem _ (s.newSplits_nodup b g k ps) (List.mem_map_of_mem he)
  · rw [State.modSpl, State.spl_modGrp_self (by simpa using hb) (by simpa using hg), Group.spl_modSpl_other _ _ hj,
      State.grp_modGrp_self hb hg, Group.spl, Table.getD, State.divergeGroup,
      Group.find_addSplits_other _ (s.newSplits_keys b g k ps ▸ hj')]
    exact Group.spl_modSpl_other _ _ hj
  · simp
  · rfl

end

/-! ## The branches of a split (06 R140, R141, R143) -/

theorem badTarget_eq_targetBad (d : Dword) : badTarget d = targetBad d := by
  have h2 : (d.extractLsb' 0 2 == 0) = (d.toNat % 4 == 0) := by
    rw [Bool.eq_iff_iff, beq_iff_eq, beq_iff_eq, ← BitVec.toNat_inj]
    simp [BitVec.extractLsb'_toNat]
  have h12 : (d.extractLsb' 52 12 == 0) = decide (d.toNat < 2 ^ 52) := by
    rw [Bool.eq_iff_iff, beq_iff_eq, decide_eq_true_eq, ← BitVec.toNat_inj]
    simp only [BitVec.extractLsb'_toNat, Nat.shiftRight_eq_div_pow]
    have := d.isLt
    simp
    omega
  simp only [badTarget, targetBad, bne, h2, h12]
  congr 1
  rw [Bool.eq_iff_iff]
  simp

/-- The state whose lanes a branch moves: a call has written its links. -/
def State.linked (s : State) (i : Instr) (g : Pred) : State := if writesLink i then s.setLinks (s.execs g) else s

/-- The target of a lane of a branch. -/
def State.laneTarget (s : State) (i : Instr) (l : Nat) : Dword := ((s.branchTo l i).map Prod.snd).getD 0

theorem State.branchTo_laneTarget {s : State} {i : Instr} {g : Pred} {l : Nat} {d : Dword} (h : s.branchTo l i = some (g, d))
    (j : Nat) : s.branchTo j i = some (g, s.laneTarget i j) := by
  unfold State.laneTarget
  unfold State.branchTo at h ⊢
  split at h <;> cases h <;> rfl

theorem State.indirect_of_good {t : State} {m : Mask} {tgt : Nat → Dword} (h : ∀ l, hasLane m l = true → badTarget (tgt l) = false)
    (pre : State → State) : t.indirect m tgt pre = (pre t).jump t (t.choose m tgt) := by
  have h0 : (maskOf fun l => hasLane m l && badTarget (tgt l)) = 0 := mask_ext fun l => by
    rw [hasLane_maskOf]
    cases hl : hasLane m l with
    | false => simp
    | true => simp [h l hl]
  simp [State.indirect, h0]

section
variable {i : Instr} {g : Pred} {s : State} {b gr k : Nat} (hf : s.focus = .split b gr k)
include hf

theorem State.jump_of_split (t : State) (next : Nat → Dword) : s.jump t next = s.branch t b gr k next := by
  rw [State.jump, hf]

theorem State.callDepth_of_split (f : Nat → Nat) : s.callDepth f = s := by
  rw [State.callDepth, hf]

/-- The branch instructions but BRA.EJ move the lanes of a split, each to its next PC. -/
theorem exec_branch (hm : s.mayIssue i g = true) (hej : ∀ h n o, i ≠ .braEj h n o) {l : Nat} {d : Dword}
    (ht : s.branchTo l i = some (g, d))
    (hgood : indirectBranch i = true → ∀ l ∈ s.execs g, targetBad (s.laneTarget i l) = false) :
    Sys2Proof.Machine.exec i s = .next ((s.linked i g).branch s b gr k (s.choose (s.exec g) (s.laneTarget i))) := by
  have hgood' (h : indirectBranch i = true) (l : Nat) (hl : hasLane (s.exec g) l = true) :
      badTarget (s.laneTarget i l) = false := by
    rw [badTarget_eq_targetBad]
    exact hgood h l ((mem_lanesOf _ _).mpr hl)
  have hfl : (s.setLinks (s.execs g)).focus = .split b gr k := by
    rw [← hf]
    exact State.putLanes_proj State.focus _ _ _ fun t l => by simp [State.wrVPair]
  unfold State.branchTo at ht
  split at ht <;> cases ht
  case h_1 ofs =>
    show execBra _ _ _ = _
    rw [execBra, laneRun_of_mayIssue hm]
    dsimp only
    rw [State.jump_of_split hf]
    rfl
  case h_2 => exact absurd rfl (hej _ _ _)
  case h_3 ofs =>
    show execCall _ _ _ = _
    rw [execCall, laneRun_of_mayIssue hm]
    dsimp only
    rw [show lanesOf (s.exec g) = s.execs g from rfl, State.callDepth_of_split hfl, State.jump_of_split hfl]
    rfl
  case h_4 a =>
    show execBrx _ _ _ = _
    rw [execBrx, laneRun_of_mayIssue hm, State.indirect_of_good (tgt := fun l => s.rdVPair a.toNat l) (hgood' rfl), id_eq, State.jump_of_split hf]
    rfl
  case h_5 a =>
    show execCallx _ _ _ = _
    rw [execCallx, laneRun_of_mayIssue hm]
    dsimp only
    rw [State.indirect_of_good (tgt := fun l => s.rdVPair a.toNat l) (hgood' rfl), show lanesOf (s.exec g) = s.execs g from rfl, State.jump_of_split hfl]
    rfl
  case h_6 =>
    show execRet _ _ = _
    rw [execRet, laneRun_of_mayIssue hm]
    dsimp only
    rw [State.indirect_of_good (tgt := fun l => s.rdVPair s.linkReg l) (hgood' rfl), State.callDepth_of_split hf,
      State.jump_of_split hf]
    rfl

end

/-! ## Writing the links leaves the splits alone -/

@[simp] theorem State.groups_wrV (s : State) (m l : Nat) (v : Word) (b : Nat) :
    ((s.wrV m l v).blk b).groups = (s.blk b).groups := by
  unfold State.wrV
  split
  · exact Table.proj_getD_modify (fun x : Block => x.groups) fun _ => by rfl
  · rfl
  · rfl

@[simp] theorem State.has_wrV (s : State) (m l : Nat) (v : Word) (b : Nat) : (s.wrV m l v).blocks.has b = s.blocks.has b := by
  unfold State.wrV
  split
  · exact Table.has_modify ..
  · rfl
  · rfl

/-- What writing a lane register leaves alone, a call leaves alone. -/
theorem State.linked_keeps {β : Type} (p : State → β) (h : ∀ t m l v, p (State.wrV t m l v) = p t) (s : State) (i : Instr) (g : Pred) :
    p (s.linked i g) = p s := by
  unfold State.linked
  split
  · exact State.putLanes_proj p _ _ _ fun t l => by rw [State.wrVPair, h, h]
  · rfl

/-- A call leaves the address of the next instruction in the link pair of its lanes. -/
theorem State.rdVPair_linked {s : State} {i : Instr} {g : Pred} (hi : s.issuing = true) (hw : writesLink i = true) {l : Nat}
    (hl : l ∈ s.execs g) : (s.linked i g).rdVPair s.unitNode.link l = s.pc + 4 := by
  have hlanes (j : Nat) (hj : j ∈ s.execs g) : hasLane s.lanes j = true := ((exec_lanes s g j).mp hj).1
  have hr (m : Nat) := State.rdV_putLanes2 s hi (s.execs g) (lanesOf_nodup _) hlanes s.linkReg (s.linkReg + 1) (by omega)
    (fun _ => lowWord s.nextPc) (fun _ => highWord s.nextPc) m l (hlanes l hl)
  rw [State.linked, if_pos hw, State.rdVPair]
  refine Eq.trans ?_ (pairVal_lowWord_highWord s.nextPc)
  congr 1
  · exact (hr s.linkReg).trans (by simp [hl])
  · exact (hr (s.linkReg + 1)).trans (by simp [hl])

/-! ## A branch over several paths -/

theorem State.branch_of_diverge {u s t : State} {b g k : Nat} {next : Nat → Dword} {p : Dword × Mask} {ps : List (Dword × Mask)}
    (hp : pathsOf next (lanesOf (s.spl b g k).am) = p :: ps) (hps : ps ≠ []) (ht : u.diverge b g k (p :: ps) = some t) :
    u.branch s b g k next = t := by
  cases ps with
  | nil => exact absurd rfl hps
  | cons q ps => simp only [State.branch, hp, ht]

theorem State.branch_of_overflow {u s : State} {b g k : Nat} {next : Nat → Dword} {p : Dword × Mask} {ps : List (Dword × Mask)}
    (hp : pathsOf next (lanesOf (s.spl b g k).am) = p :: ps) (hps : ps ≠ []) (ht : u.diverge b g k (p :: ps) = none) :
    u.branch s b g k next = s.takeTrap 0x61 := by
  cases ps with
  | nil => exact absurd rfl hps
  | cons q ps => simp only [State.branch, hp, ht]

theorem pathsOf_eq {s : State} {next : Nat → Dword} {m : Mask} {ps : List (Dword × Mask)} (hm : m = s.lanes)
    (h : IsPaths next (lanesOf s.lanes) ps) : pathsOf next (lanesOf m) = ps := by
  subst hm
  exact (isPaths_pathsOf next (lanesOf_sorted _) fun l hl => lt_of_hasLane ((mem_lanesOf _ l).mp hl)).unique h fun _ _ => rfl

section
variable {i : Instr} {g : Pred} {s : State} {b gr k : Nat} (hf : s.focus = .split b gr k) (hm : s.mayIssue i g = true)
include hf hm

theorem not_mem_freeSplits : k ∉ (s.grp b gr).freeSplits := fun h => by
  have hk := (State.listed_of_issuing hf (issuing_of_mayIssue hm)).2.2
  rw [Group.not_has_of_mem_freeSplits h] at hk
  exact absurd hk (by decide)

/-- A branch whose paths the stack on chip has room for diverges: the first path stays above the entry of the old CM, free indices
take the next ones, and the rest lies on the stack. -/
theorem exec_diverging_branch (hej : ∀ h n o, i ≠ .braEj h n o) {l : Nat} {d : Dword} (ht : s.branchTo l i = some (g, d))
    (hgood : indirectBranch i = true → ∀ l ∈ s.execs g, targetBad (s.laneTarget i l) = false) (ham : s.amOk b gr k)
    {p : Dword × Mask} {ps : List (Dword × Mask)}
    (hp : IsPaths (s.choose (s.exec g) (s.laneTarget i)) (lanesOf s.lanes) (p :: ps)) (hps : ps ≠ [])
    (hroom : (s.spl b gr k).stack.length + 1 + (ps.length - (s.grp b gr).freeSplits.length) ≤ 8) :
    ∃ t, Sys2Proof.Machine.exec i s = .next t ∧
      t.spl b gr k = (((s.spl b gr k).push [(s.spl b gr k).cmEntry]).takePath s.now s.lanes p).push
        ((ps.drop (s.grp b gr).freeSplits.length).map pathEntry) ∧
      (∀ e ∈ s.givenPaths b gr ps, (t.grp b gr).splits.find e.1 = some (newSplit s.now (s.spl b gr k) s.lanes e.2)) ∧
      (∀ j, j ≠ k → j ∉ (s.givenPaths b gr ps).map Prod.fst → t.spl b gr j = s.spl b gr j) ∧
      (∀ m l, t.rdV m l = (s.linked i g).rdV m l) ∧ t.mem = s.mem := by
  obtain ⟨hb, hg, hk⟩ := State.listed_of_issuing hf (issuing_of_mayIssue hm)
  have hgroups : ((s.linked i g).blk b).groups = (s.blk b).groups := s.linked_keeps (fun t => (t.blk b).groups) (by simp) i g
  have hgrp : (s.linked i g).grp b gr = s.grp b gr := congrArg (fun x : Table Group => x.getD gr Group.empty) hgroups
  have hsplj (j : Nat) : (s.linked i g).spl b gr j = s.spl b gr j := congrArg (Group.spl · j) hgrp
  have hnow : (s.linked i g).now = s.now := s.linked_keeps State.now (by simp) i g
  have hgiven : (s.linked i g).givenPaths b gr ps = s.givenPaths b gr ps := by rw [State.givenPaths, hgrp]; rfl
  have hb' : (s.linked i g).blocks.has b = true := (s.linked_keeps (fun t => t.blocks.has b) (by simp) i g).trans hb
  have hg' : ((s.linked i g).blk b).groups.has gr = true := hgroups ▸ hg
  have hk' : ((s.linked i g).grp b gr).splits.has k = true := hgrp ▸ hk
  have hpushed : ((s.linked i g).modSpl b gr k (Split.push [(s.spl b gr k).cmEntry])).spl b gr k =
      (s.spl b gr k).push [(s.spl b gr k).cmEntry] := by
    rw [State.spl_modSpl_self hb' hg' hk', hsplj]
  obtain ⟨t, hdiv, hd⟩ := State.diverge_of_push (p := p) (ps := ps) (hgrp ▸ not_mem_freeSplits hf hm)
    (by rw [hsplj]; exact State.pushEntry_of_room (by rw [hsplj]; omega) _) (by simpa [State.modSpl] using hb')
    (by simpa [State.modSpl] using hg') (by rw [State.modSpl, State.grp_modGrp_self hb' hg', Group.has_modSpl]; exact hk')
    (by rw [hpushed, hgrp]; simpa [Split.push, Nat.add_assoc, Nat.add_comm, Nat.add_left_comm] using hroom)
  have ham' : (s.spl b gr k).am = s.lanes := ham
  refine ⟨t, (exec_branch hf hm hej ht hgood).trans (congrArg _ (State.branch_of_diverge (pathsOf_eq ham hp) hps hdiv)),
    ?_, fun e he => ?_, fun j hj hj' => ?_, fun m l => ?_, ?_⟩
  · rw [hd.kept, hpushed, hsplj, hnow, hgrp, ham']
  · rw [hd.given e (hgiven ▸ he), hsplj, hnow, ham']
  · rw [hd.others j hj (hgiven ▸ hj'), State.modSpl, State.spl_modGrp_self hb' hg', Group.spl_modSpl_other _ _ hj]
    exact hsplj j
  · rw [hd.regs, State.rdV_modSpl]
  · rw [hd.mem, State.modSpl_mem]
    exact s.linked_keeps State.mem (by simp) i g

end

/-! ## BRA over two paths -/

theorem target_ne_next (pc : Dword) {ofs : BitVec 22} (h : ofs ≠ 1) : pc + 4 * ofs.signExtend 64 ≠ pc + 4 := by
  intro he
  have h4 : 4 * ofs.signExtend 64 = (4 : Dword) := (BitVec.add_right_inj _).mp he
  have h1 : ofs.toInt = 1 := by
    have ht := congrArg BitVec.toInt h4
    rw [BitVec.toInt_mul, BitVec.toInt_signExtend_of_le (by decide)] at ht
    have hlt := ofs.toInt_lt
    have hle := ofs.le_toInt
    simp only [show (4 : Dword).toInt = 4 from rfl, Int.bmod] at ht
    split at ht <;> omega
  exact h (BitVec.eq_of_toInt_eq h1)

/-- Two masks that part the lanes, the lowest lane in the first, are the paths of two next PCs. -/
theorem isPaths_pair {next : Nat → Dword} {a m n : Mask} {p q : Dword} (hpq : p ≠ q)
    (hm : ∀ l, hasLane m l = true ↔ hasLane a l = true ∧ next l = p) (hn : ∀ l, hasLane n l = true ↔ hasLane a l = true ∧ next l = q)
    (hc : ∀ l, hasLane a l = true → next l = p ∨ next l = q) (ha : a ≠ 0) (hlow : next (lowestLane a) = p) (hn0 : n ≠ 0) :
    IsPaths next (lanesOf a) [(p, m), (q, n)] := by
  have hml : hasLane m (lowestLane a) = true := (hm _).mpr ⟨hasLane_lowestLane ha, hlow⟩
  refine ⟨fun r hr => ?_, fun l hl => ?_, ?_⟩
  · simp only [List.mem_cons, List.not_mem_nil, or_false] at hr
    rcases hr with rfl | rfl
    · exact ⟨mask_ne_zero_of_hasLane hml, fun l => by rw [mem_lanesOf]; exact hm l⟩
    · exact ⟨hn0, fun l => by rw [mem_lanesOf]; exact hn l⟩
  · rw [mem_lanesOf] at hl
    rcases hc l hl with h | h
    · exact ⟨_, List.mem_cons_self, (hm l).mpr ⟨hl, h⟩⟩
    · exact ⟨_, List.mem_cons_of_mem _ List.mem_cons_self, (hn l).mpr ⟨hl, h⟩⟩
  · rw [List.pairwise_pair]
    obtain ⟨hla, hlq⟩ := (hn _).mp (hasLane_lowestLane hn0)
    refine Nat.lt_of_le_of_ne ((lowestLane_le hml).trans (lowestLane_le hla)) fun he => hpq ?_
    rw [← ((hm _).mp (he ▸ hasLane_lowestLane (mask_ne_zero_of_hasLane hml))).2, hlq]

section
variable {g : Pred} {ofs : BitVec 22} {s : State} (h0 : s.exec g ≠ 0) (hne : s.exec g ≠ s.lanes) (hofs : ofs ≠ 1)

theorem hasLane_exec (s : State) (g : Pred) (l : Nat) : hasLane (s.exec g) l = true ↔ hasLane s.lanes l = true ∧ s.rdP g l = true :=
  (mem_lanesOf _ _).symm.trans (exec_lanes s g l)

theorem lanes_ne_zero_of_exec (h0 : s.exec g ≠ 0) : s.lanes ≠ 0 :=
  mask_ne_zero_of_hasLane ((hasLane_exec s g _).mp (hasLane_lowestLane h0)).1

theorem rest_ne_zero (hne : s.exec g ≠ s.lanes) : minusLanes s.lanes (s.exec g) ≠ 0 := by
  intro h
  refine hne (mask_ext fun l => ?_)
  have hl := hasLane_minusLanes s.lanes (s.exec g) l
  rw [h, show hasLane 0 l = false from hasLane_zero l] at hl
  rw [Bool.eq_iff_iff]
  constructor
  · exact fun he => ((hasLane_exec s g l).mp he).1
  · intro ha
    simpa [ha] using hl

include h0 hne hofs

/-- The paths of a BRA whose guard is true in some lanes only. -/
theorem isPaths_bra {p q : Dword} {m n : Mask}
    (ht : s.rdP g (lowestLane s.lanes) = true → p = s.pc + 4 * ofs.signExtend 64 ∧ m = s.exec g ∧
      q = s.pc + 4 ∧ n = minusLanes s.lanes (s.exec g))
    (hn : s.rdP g (lowestLane s.lanes) = false → q = s.pc + 4 * ofs.signExtend 64 ∧ n = s.exec g ∧
      p = s.pc + 4 ∧ m = minusLanes s.lanes (s.exec g)) :
    IsPaths (s.choose (s.exec g) (s.laneTarget (.bra g ofs))) (lanesOf s.lanes) [(p, m), (q, n)] := by
  have htgt := target_ne_next s.pc hofs
  have hchoose (l : Nat) : s.choose (s.exec g) (s.laneTarget (.bra g ofs)) l =
      if hasLane (s.exec g) l = true then s.pc + 4 * ofs.signExtend 64 else s.pc + 4 := rfl
  have htaken (l : Nat) : hasLane (s.exec g) l = true ↔ hasLane s.lanes l = true ∧
      s.choose (s.exec g) (s.laneTarget (.bra g ofs)) l = s.pc + 4 * ofs.signExtend 64 := by
    rw [hchoose]
    split
    · next h => simp [h, ((hasLane_exec s g l).mp h).1]
    · next h => exact iff_of_false h fun ha => htgt ha.2.symm
  have hrest (l : Nat) : hasLane (minusLanes s.lanes (s.exec g)) l = true ↔ hasLane s.lanes l = true ∧
      s.choose (s.exec g) (s.laneTarget (.bra g ofs)) l = s.pc + 4 := by
    rw [hchoose, hasLane_minusLanes]
    split
    · next h => exact iff_of_false (by simp [h]) fun ha => htgt ha.2
    · next h => simp [h]
  have hcover (l : Nat) : s.choose (s.exec g) (s.laneTarget (.bra g ofs)) l = s.pc + 4 * ofs.signExtend 64 ∨
      s.choose (s.exec g) (s.laneTarget (.bra g ofs)) l = s.pc + 4 := by
    rw [hchoose]
    split
    · exact .inl rfl
    · exact .inr rfl
  have hl0 := lanes_ne_zero_of_exec h0
  have hlow := hasLane_lowestLane hl0
  cases hr : s.rdP g (lowestLane s.lanes) with
  | true =>
    obtain ⟨rfl, rfl, rfl, rfl⟩ := ht hr
    exact isPaths_pair htgt htaken hrest (fun l _ => hcover l) hl0
      ((htaken _).mp ((hasLane_exec s g _).mpr ⟨hlow, hr⟩)).2 (rest_ne_zero hne)
  | false =>
    obtain ⟨rfl, rfl, rfl, rfl⟩ := hn hr
    have hx : hasLane (s.exec g) (lowestLane s.lanes) = false := by
      rw [Bool.eq_false_iff]
      exact fun h => by simpa [hr] using ((hasLane_exec s g _).mp h).2
    refine isPaths_pair (Ne.symm htgt) hrest htaken (fun l _ => (hcover l).symm) hl0 ((hrest _).mp ?_).2 h0
    rw [hasLane_minusLanes, hlow, hx]
    rfl

/-- Every BRA whose guard is true in some lanes only has two paths. -/
theorem exists_isPaths_bra : ∃ p r : Dword × Mask,
    IsPaths (s.choose (s.exec g) (s.laneTarget (.bra g ofs))) (lanesOf s.lanes) [p, r] := by
  cases hr : s.rdP g (lowestLane s.lanes) with
  | true => exact ⟨_, _, isPaths_bra h0 hne hofs (fun _ => ⟨rfl, rfl, rfl, rfl⟩) (fun h => by simp [hr] at h)⟩
  | false => exact ⟨_, _, isPaths_bra h0 hne hofs (fun h => by simp [hr] at h) (fun _ => ⟨rfl, rfl, rfl, rfl⟩)⟩

end

/-! ## The save area (03 R89) -/

/-- The bytes of spilled entries. -/
def spillBytes (ds : List Deferred) : List Byte := ds.flatMap fun d => leBytes 16 (encDeferred d)

theorem spillBytes_length (ds : List Deferred) : (spillBytes ds).length = 16 * ds.length := by
  simp [spillBytes, leBytes_length, List.length_flatMap, Nat.mul_comm]

/-- The 16 bytes of entry i: its low and its high half. -/
theorem spillBytes_drop {ds : List Deferred} {i : Nat} (hi : i < ds.length) : (spillBytes ds).drop (16 * i) =
    leBytes 8 (encDeferred ds[i]) ++ (leBytes 8 (encDeferred ds[i] / 256 ^ 8) ++ spillBytes (ds.drop (i + 1))) := by
  rw [spillBytes, drop_flatMap_of_length (fun d => leBytes_length _ _), List.drop_eq_getElem_cons hi, List.flatMap_cons,
    leBytes_add 8 8, List.append_assoc]
  rfl

theorem encDeferred_low (d : Deferred) : BitVec.ofNat 64 (encDeferred d % 256 ^ 8) = d.mask := by
  apply BitVec.eq_of_toNat_eq
  have := d.mask.isLt
  simp only [encDeferred, BitVec.toNat_ofNat]
  split <;> omega

theorem encDeferred_high (d : Deferred) :
    (d.path = false → BitVec.ofNat 64 (encDeferred d / 256 ^ 8 % 256 ^ 8) = 0x8000000000000000) ∧
    (d.path = true → d.pc.toNat % 4 = 0 → d.pc.toNat < 2 ^ 52 →
      BitVec.ofNat 64 (encDeferred d / 256 ^ 8 % 256 ^ 8) = d.pc) := by
  have hm := d.mask.isLt
  refine ⟨fun hp => BitVec.eq_of_toNat_eq ?_, fun hp h4 h52 => BitVec.eq_of_toNat_eq ?_⟩
  · rw [BitVec.toNat_ofNat, show (0x8000000000000000 : Dword).toNat = 2 ^ 63 from rfl]
    simp only [encDeferred, hp, Bool.false_eq_true, if_false]
    omega
  · rw [BitVec.toNat_ofNat]
    simp only [encDeferred, hp, if_true]
    omega

/-- What the save area holds of an entry after spilled entries were written from a key on. -/
theorem mem64_spilled {t : State} {m : Memory} (hw : m.wf = true) {key : Nat} {ds : List Deferred}
    (ht : t.mem = m.putAll (cellsAt key (spillBytes ds))) {i : Nat} (hi : i < ds.length) :
    t.mem64 (key + 16 * i) = ds[i].mask ∧
      t.mem64 (key + 16 * i + 8) = BitVec.ofNat 64 (encDeferred ds[i] / 256 ^ 8 % 256 ^ 8) := by
  have hlen := spillBytes_length ds
  have hlow := Memory.bytes_putAll_cellsAt hw key (i := 16 * i) (n := 8) (bs := spillBytes ds) (by omega)
  have hhigh := Memory.bytes_putAll_cellsAt hw key (i := 16 * i + 8) (n := 8) (bs := spillBytes ds) (by omega)
  rw [← List.drop_drop, spillBytes_drop hi, List.drop_left' (leBytes_length _ _), List.take_left' (leBytes_length _ _)] at hhigh
  rw [spillBytes_drop hi, List.take_left' (leBytes_length _ _)] at hlow
  constructor
  · rw [State.mem64, ht, Memory.read, hlow, leVal_leBytes, encDeferred_low]
  · rw [State.mem64, ht, Memory.read, Nat.add_assoc, hhigh, leVal_leBytes]

/-- Entries that lie in one page of the save area are written at their key. -/
theorem State.writeSpill_eq (s : State) (b g k i : Nat) {ds : List Deferred} (h0 : ds ≠ [])
    (hp : ((s.blk b).saveArea g k + 16 * i) % 4096 + 16 * ds.length ≤ 4096) :
    (s.writeSpill b g k i ds).mem =
      (s.touchCtx b ((s.blk b).saveArea g k + 16 * i) (16 * ds.length) true).mem.putAll
        (cellsAt (s.ctxKey b ((s.blk b).saveArea g k + 16 * i)) (spillBytes ds)) := by
  have hlen := spillBytes_length ds
  rw [State.writeSpill, if_neg (by simpa using h0)]
  show (s.writeCtx b _ (spillBytes ds)).mem = _
  rw [State.writeCtx, State.mem_dropWords, State.mem_writeHome, hlen, State.ctxCells, if_pos (by omega)]

@[simp] theorem State.units_writeSpill (s : State) (b g k i : Nat) (ds : List Deferred) :
    (s.writeSpill b g k i ds).units = s.units := by
  unfold State.writeSpill
  split
  · rfl
  · exact s.units_writeCtx ..

/-- A push onto a full stack: the split whose 4 oldest entries on chip have moved to the save area. -/
def Split.spillPush (d : Deferred) (x : Split) : Split := { x with stack := d :: x.stack.take 4, spilled := x.spilled + 4 }

section
variable {s : State} {b g k : Nat} (h8 : (s.spl b g k).stack.length = 8) (d : Deferred)
include h8

theorem State.pushEntry_of_overflow (hn : 256 < (s.spl b g k).spilled + 4) : s.pushEntry b g k d = none := by
  rw [State.pushEntry, if_neg (by omega), if_pos hn]

theorem State.pushEntry_of_full (hn : (s.spl b g k).spilled + 4 ≤ 256) : s.pushEntry b g k d =
    some ((s.writeSpill b g k (s.spl b g k).spilled ((s.spl b g k).stack.reverse.take 4)).modSpl b g k (Split.spillPush d)) := by
  rw [State.pushEntry, if_neg (by omega), if_neg (by omega), List.take_reverse, h8]
  rfl

end

theorem State.grp_of_units {s t : State} (h : t.units = s.units) (b g : Nat) : t.grp b g = s.grp b g := by
  rw [State.grp, State.grp, State.blk, State.blk, (Prod.mk.inj h).2]

section
variable {g : Pred} {ofs : BitVec 22} {s : State} {b gr k j : Nat} {js : List Nat} (hf : s.focus = .split b gr k)
  (hm : s.mayIssue (.bra g ofs) g = true) (ham : s.amOk b gr k) (h8 : (s.spl b gr k).stack.length = 8)
  (h0 : s.exec g ≠ 0) (hne : s.exec g ≠ s.lanes) (hofs : ofs ≠ 1)
include hf hm ham h8 h0 hne hofs

/-- With no room in the save area a BRA over two paths raises the overflow trap. -/
theorem exec_bra_overflow (hn : 256 < (s.spl b gr k).spilled + 4) :
    Sys2Proof.Machine.exec (.bra g ofs) s = .next (s.takeTrap 0x61) := by
  obtain ⟨p, r, hp⟩ := exists_isPaths_bra h0 hne hofs
  refine (exec_branch hf hm (by simp) (l := 0) rfl (by simp [indirectBranch])).trans (congrArg _ ?_)
  exact State.branch_of_overflow (pathsOf_eq ham hp) (by simp) (by
    rw [State.diverge_eq, show s.linked (.bra g ofs) g = s from rfl, State.pushEntry_of_overflow h8 _ hn]
    rfl)

/-- A BRA over two paths with a full stack and a free split index: its 4 oldest entries on chip move to the save area. -/
theorem exec_bra_spill (hfree : (s.grp b gr).freeSplits = j :: js) (hn : (s.spl b gr k).spilled + 4 ≤ 256) : ∃ t,
    Sys2Proof.Machine.exec (.bra g ofs) s = .next t ∧ (t.spl b gr k).cm = s.lanes ∧
    (t.spl b gr k).spilled = (s.spl b gr k).spilled + 4 ∧
    (t.spl b gr k).stack = (s.spl b gr k).cmEntry :: (s.spl b gr k).stack.take 4 ∧
    t.mem = (s.writeSpill b gr k (s.spl b gr k).spilled ((s.spl b gr k).stack.reverse.take 4)).mem := by
  obtain ⟨hb, hg, hk⟩ := State.listed_of_issuing hf (issuing_of_mayIssue hm)
  obtain ⟨p, r, hp⟩ := exists_isPaths_bra h0 hne hofs
  have hpush := State.pushEntry_of_full h8 (s.spl b gr k).cmEntry hn
  generalize hw : s.writeSpill b gr k (s.spl b gr k).spilled ((s.spl b gr k).stack.reverse.take 4) = w at hpush ⊢
  have hu : w.units = s.units := hw ▸ s.units_writeSpill ..
  have hgrp := State.grp_of_units hu b gr
  have hsplk : w.spl b gr k = s.spl b gr k := congrArg (Group.spl · k) hgrp
  have hblocks : w.blocks = s.blocks := (Prod.mk.inj hu).2
  have hb' : w.blocks.has b = true := hblocks ▸ hb
  have hg' : (w.blk b).groups.has gr = true := by rw [State.blk, hblocks]; exact hg
  have hk' : (w.grp b gr).splits.has k = true := hgrp ▸ hk
  have hspl : (w.modSpl b gr k (Split.spillPush (s.spl b gr k).cmEntry)).spl b gr k =
      Split.spillPush (s.spl b gr k).cmEntry (s.spl b gr k) := by
    rw [State.spl_modSpl_self hb' hg' hk', hsplk]
  obtain ⟨t, hdiv, hd⟩ := State.diverge_of_push (p := p) (ps := [r]) (not_mem_freeSplits hf hm) hpush
    (by simpa [State.modSpl] using hb') (by simpa [State.modSpl] using hg')
    (by rw [State.modSpl, State.grp_modGrp_self hb' hg', Group.has_modSpl]; exact hk')
    (by rw [hspl, hfree]; simp [Split.spillPush, h8])
  have hkept : t.spl b gr k = (Split.spillPush (s.spl b gr k).cmEntry (s.spl b gr k)).takePath s.now s.lanes p := by
    rw [hd.kept, hspl, hfree, ham, List.length_cons, List.drop_succ_cons, List.drop_nil, List.map_nil, Split.push_nil]
  refine ⟨t, ?_, ?_, ?_, ?_, hd.mem⟩
  · exact (exec_branch hf hm (by simp) (l := 0) rfl (by simp [indirectBranch])).trans
      (congrArg _ (State.branch_of_diverge (pathsOf_eq ham hp) (by simp) hdiv))
  all_goals rw [hkept]; rfl

end

/-- Settles O18: a branch over several paths pushes the old CM and gives the further paths to free indices and then to the stack;
BRA is the case of two paths, and with a full stack the push goes through the save area. -/
theorem divergence : Obligations.Divergence := by
  unfold Obligations.Divergence
  refine ⟨?_, ?_, ?_, ?_⟩
  · intro g ofs s b gr k j js p q m n hf hm ham hlen hfree h0 hne hofs ht hn
    obtain ⟨t, hx, hk, hgiven, -⟩ := exec_diverging_branch hf hm (by simp) (l := 0) rfl (by simp [indirectBranch]) ham
      (isPaths_bra h0 hne hofs ht hn) (by simp) (by rw [hfree]; simp; omega)
    have hj := hgiven (j, q, n) (by simp [State.givenPaths, hfree])
    have hsplj : t.spl b gr j = newSplit s.now (s.spl b gr k) s.lanes (q, n) := Table.getD_of_find _ hj
    rw [hfree, List.length_cons, List.drop_succ_cons, List.drop_nil, List.map_nil, Split.push_nil] at hk
    refine ⟨t, hx, ?_⟩
    rw [hk, hsplj]
    exact ⟨rfl, rfl, rfl, rfl, Table.has_of_find hj, rfl, rfl, rfl, rfl, rfl⟩
  · intro g ofs s b gr k hf hm ham hlen hfree h0 hne hofs hr
    obtain ⟨t, hx, hk, -⟩ := exec_diverging_branch hf hm (by simp) (l := 0) rfl (by simp [indirectBranch]) ham
      (isPaths_bra h0 hne hofs (fun _ => ⟨rfl, rfl, rfl, rfl⟩) fun h => by simp [hr] at h) (by simp)
      (by rw [hfree]; simp; omega)
    rw [hfree] at hk
    refine ⟨t, hx, ?_⟩
    rw [hk]
    exact ⟨rfl, rfl, rfl, rfl⟩
  · intro i g s b gr k tgt next p ps hf ht hej hm ham _ hnext hgood hlanes hcover hsorted hps hroom
    have htgt (l : Nat) (hl : l ∈ s.execs g) : s.laneTarget i l = next l := by
      obtain ⟨hl, hr⟩ := (exec_lanes s g l).mp hl
      have h := hnext l ((mem_lanesOf _ l).mpr hl)
      rw [if_pos hr, State.branchTo_laneTarget ht l] at h
      exact (Prod.mk.inj (Option.some.inj h)).2
    have hchoose (l : Nat) (hl : l ∈ lanesOf s.lanes) : s.choose (s.exec g) (s.laneTarget i) l = next l := by
      have h := hnext l hl
      have hx := hasLane_exec s g l
      rw [mem_lanesOf] at hl
      rw [State.choose]
      split at h
      · next hr =>
        rw [if_pos (hx.mpr ⟨hl, hr⟩)]
        exact htgt l ((mem_lanesOf _ l).mpr (hx.mpr ⟨hl, hr⟩))
      · next hr => rw [if_neg fun hh => hr (hx.mp hh).2, h, State.nextPc]
    have hp : IsPaths (s.choose (s.exec g) (s.laneTarget i)) (lanesOf s.lanes) (p :: ps) := by
      refine ⟨fun q hq => ⟨(hlanes q hq).1, fun l => ((hlanes q hq).2 l).trans ?_⟩, hcover, hsorted⟩
      exact and_congr_right fun hl => by rw [hchoose l hl]
    obtain ⟨t, hx, hk, hgiven, hothers, hregs, hmem⟩ := exec_diverging_branch hf hm hej ht
      (fun hi l hl => by rw [htgt l hl]; exact hgood hi l hl) ham hp hps hroom
    refine ⟨t, hx, congrArg Split.pc hk, congrArg Split.am hk, congrArg Split.cm hk, congrArg Split.stack hk, fun e he => ?_, hothers,
      fun hw l hl => ?_, hmem⟩
    · have hsplj : t.spl b gr e.1 = newSplit s.now (s.spl b gr k) s.lanes e.2 := Table.getD_of_find _ (hgiven e he)
      rw [hsplj]
      exact ⟨Table.has_of_find (hgiven e he), rfl, rfl, rfl, rfl, rfl⟩
    · rw [State.rdVPair, hregs, hregs]
      exact State.rdVPair_linked (issuing_of_mayIssue hm) hw hl
  · intro g ofs s b gr k j js hf hm ham hw h8 hfree h0 hne hofs
    refine ⟨exec_bra_overflow hf hm ham h8 h0 hne hofs, fun hn hpage => ?_⟩
    obtain ⟨t, hx, hcm, hsp, hst, hmem⟩ := exec_bra_spill hf hm ham h8 h0 hne hofs hfree hn
    have hlen : ((s.spl b gr k).stack.reverse.take 4).length = 4 := by simp [h8]
    have heq := s.writeSpill_eq b gr k (s.spl b gr k).spilled (ds := (s.spl b gr k).stack.reverse.take 4)
      (fun h => by simp [h] at hlen) (by rw [hlen]; exact hpage)
    rw [hlen] at heq
    have hwt : (s.touchCtx b ((s.blk b).saveArea gr k + 16 * (s.spl b gr k).spilled) 64 true).mem.wf = true :=
      State.wf_touchCtx hw
    refine ⟨t, hx, hcm, hsp, hst, fun e he => ?_, fun x hx => ?_⟩
    · obtain ⟨i, hi, rfl⟩ := List.mem_iff_getElem.mp he
      have hi4 : i < ((s.spl b gr k).stack.reverse.take 4).length := by
        simp only [List.length_zip, List.length_range] at hi
        omega
      obtain ⟨hlow, hhigh⟩ := mem64_spilled hwt (hmem.trans heq) hi4
      simp only [List.getElem_zip, List.getElem_range]
      simp only [List.getElem_take] at hlow hhigh
      rw [hlow, hhigh]
      exact ⟨rfl, encDeferred_high _⟩
    · rw [hmem, heq]
      refine Memory.get_putAll_other _ _ _ hwt fun c hc => ?_
      have := mem_cellsAt _ _ c hc
      rw [spillBytes_length, hlen] at this
      omega

end Sys2Proof.Machine

end


/-!
PROOFS. JOIN of a split and of an ejected lane (spec/03_lane_state.md R90, R91; 14 R305): the statement O19.
-/

section

namespace Sys2Proof.Machine

set_option linter.constructorNameAsVariable false

/-! ## A group replaced by another -/

theorem Table.modify_congr {α : Type} {t : Table α} {i : Nat} {f h : α → α} (he : ∀ v, t.find i = some v → f v = h v) :
    t.modify i f = t.modify i h := by
  induction t with
  | nil => rfl
  | cons e t ih =>
    obtain ⟨k, v⟩ := e
    by_cases hk : k = i
    · simp only [Table.modify, hk, if_true, he v (by simp [Table.find, hk])]
    · simp only [Table.modify, hk, if_false]
      rw [ih fun w hw => he w (by simpa [Table.find, hk] using hw)]

/-- The state with a group in the place of a listed one. -/
def State.setGrp (s : State) (b g : Nat) (x : Group) : State := s.modGrp b g fun _ => x

section
variable {s : State} {b g : Nat}

/-- A change of a group puts what it makes of the group in its place. -/
theorem State.modGrp_eq_setGrp (f : Group → Group) : s.modGrp b g f = s.setGrp b g (f (s.grp b g)) := by
  simp only [State.setGrp, State.modGrp, State.modBlk]
  congr 1
  refine Table.modify_congr fun x hx => ?_
  simp only [Block.modGrp]
  congr 1
  refine Table.modify_congr fun y hy => ?_
  have hxb : s.blk b = x := Table.getD_of_find _ hx
  have hyg : s.grp b g = y := by rw [State.grp, hxb]; exact Table.getD_of_find _ hy
  rw [hyg]

@[simp] theorem State.setGrp_setGrp (x y : Group) : (s.setGrp b g x).setGrp b g y = s.setGrp b g y := s.modGrp_modGrp ..

variable (hb : s.blocks.has b = true) (hg : (s.blk b).groups.has g = true)
include hb hg

theorem State.grp_setGrp (x : Group) : (s.setGrp b g x).grp b g = x := State.grp_modGrp_self hb hg _

theorem State.spl_setGrp (x : Group) (k : Nat) : (s.setGrp b g x).spl b g k = x.spl k := State.spl_modGrp_self hb hg _ k

theorem State.modGrp_setGrp (x : Group) (f : Group → Group) : (s.setGrp b g x).modGrp b g f = s.setGrp b g (f x) := by
  rw [State.modGrp_eq_setGrp, State.grp_setGrp hb hg, State.setGrp_setGrp]

theorem State.modSpl_setGrp (x : Group) (k : Nat) (f : Split → Split) :
    (s.setGrp b g x).modSpl b g k f = s.setGrp b g (x.modSpl k f) := State.modGrp_setGrp hb hg x _

end

theorem Table.find_of_mem {α : Type} {t : Table α} (hs : t.Pairwise fun e f => e.1 < f.1) {e : Nat × α} (he : e ∈ t) :
    t.find e.1 = some e.2 := by
  induction t with
  | nil => exact absurd he List.not_mem_nil
  | cons a t ih =>
    obtain ⟨ha, hs⟩ := List.pairwise_cons.mp hs
    rcases List.mem_cons.mp he with rfl | he
    · exact if_pos rfl
    · exact (if_neg (Nat.ne_of_lt (ha e he))).trans (ih hs he)

theorem Table.modify_eq_map {α : Type} {t : Table α} (hs : t.Pairwise fun e f => e.1 < f.1) (i : Nat) (f : α → α) :
    t.modify i f = t.map fun e => if e.1 = i then (e.1, f e.2) else e := by
  induction t with
  | nil => rfl
  | cons a t ih =>
    obtain ⟨ha, hs⟩ := List.pairwise_cons.mp hs
    rw [Table.modify, List.map_cons]
    split
    · next h =>
      have : (t.map fun e => if e.1 = i then (e.1, f e.2) else e) = t := by
        refine (List.map_congr_left fun e he => if_neg ?_).trans t.map_id
        exact Nat.ne_of_gt (h ▸ ha e he)
      rw [this]
    · rw [ih hs]

/-! ## The context area of a block -/

/-- Where a context area lies depends on the tables, the memory that holds them and the block's virtual function alone. -/
theorem State.ctxKey_congr {s t : State} {b : Nat} (hm : t.mem = s.mem) (hf : t.fabid = s.fabid) (hv : t.vfs = s.vfs)
    (hvf : (t.blk b).vf = (s.blk b).vf) (a : Nat) : t.ctxKey b a = s.ctxKey b a := by
  simp only [State.ctxKey, State.vf, hm, hf, hv, hvf]

theorem State.readCtx_congr {s t : State} {b : Nat} (hm : t.mem = s.mem) (hf : t.fabid = s.fabid) (hv : t.vfs = s.vfs)
    (hvf : (t.blk b).vf = (s.blk b).vf) (a n : Nat) : t.readCtx b a n = s.readCtx b a n := by
  have hk := State.ctxKey_congr hm hf hv hvf
  suffices h : ∀ k a n, t.ctxBytes b k a n = s.ctxBytes b k a n by rw [State.readCtx, h, ← State.readCtx]
  intro k
  induction k with
  | zero => intro a n; simp only [State.ctxBytes, hm, hk]
  | succ k ih => intro a n; simp only [State.ctxBytes, hm, hk, ih]

/-! ## The stack of a split -/

section
variable {s : State} {b g k : Nat}

/-- The stack of a split lies where it did when other fields of its group change. -/
theorem State.fullStack_modGrp {f : Group → Group} (hk : ((s.modGrp b g f).spl b g k).stack = (s.spl b g k).stack)
    (hn : ((s.modGrp b g f).spl b g k).spilled = (s.spl b g k).spilled) :
    (s.modGrp b g f).fullStack b g k = s.fullStack b g k := by
  have hread := State.readCtx_congr (s := s) (t := s.modGrp b g f) (b := b) rfl rfl rfl (by rw [State.blk_modGrp]; rfl)
  simp only [State.fullStack, State.spillList, hk, hn, hread, State.blk_modGrp]
  rfl

theorem State.topPath_congr {t : State} (h : t.fullStack b g k = s.fullStack b g k) : t.topPath b g k = s.topPath b g k := by
  rw [State.topPath, State.topEntry, h]
  rfl

/-- The top of a stack whose entries on chip are not all gone is the top on chip. -/
theorem State.topEntry_eq_head (h : (s.spl b g k).stack ≠ [] ∨ (s.spl b g k).spilled = 0) :
    s.topEntry b g k = (s.spl b g k).stack.head? := by
  rw [State.topEntry, State.fullStack]
  cases hs : (s.spl b g k).stack with
  | cons d ds => rfl
  | nil => simp [State.spillList, h.resolve_left (by simp [hs])]

/-- Taking the top off a stack whose entries on chip are not all gone takes it off on chip. -/
theorem State.popEntry_eq_modSpl (h : (s.spl b g k).stack ≠ [] ∨ (s.spl b g k).spilled = 0) :
    s.popEntry b g k = s.modSpl b g k fun x => { x with stack := x.stack.drop 1 } := by
  rw [State.popEntry, State.refill, if_neg]
  rintro ⟨h0, h1⟩
  exact h.elim (absurd h0) h1

end

/-! ## Splits freed and merged -/

theorem Table.keep_eq_self {α : Type} {t : Table α} {p : Nat → α → Bool} (h : ∀ e ∈ t, p e.1 e.2 = true) : t.keep p = t :=
  List.filter_eq_self.mpr h

section
variable {s : State} {b g : Nat} (hb : s.blocks.has b = true) (hg : (s.blk b).groups.has g = true)
include hb hg

/-- A split that has a lane is not free. -/
theorem State.freeEmpty_setGrp {x : Group} (h : ∀ e ∈ x.splits, e.2.am ≠ 0 ∨ e.2.wm ≠ 0) :
    (s.setGrp b g x).freeEmpty b g = s.setGrp b g x := by
  rw [State.freeEmpty, State.modGrp_setGrp hb hg, Table.keep_eq_self]
  intro e he
  rcases h e he with h | h
  · simp [show ¬ e.2.am = 0#64 from h]
  · simp [show ¬ e.2.wm = 0#64 from h]

end

theorem Table.erase_eq_filter {α : Type} (t : Table α) (i : Nat) : t.erase i = t.filter fun e => e.1 != i := by
  induction t with
  | nil => rfl
  | cons e t ih =>
    obtain ⟨k, v⟩ := e
    by_cases hk : k = i <;> simp [Table.erase, hk, ih]

/-- Freeing splits leaves the others. -/
theorem foldl_erase_splits (x : Group) (l : List (Nat × Split)) :
    l.foldl (fun (y : Group) f => { y with splits := y.splits.erase f.1 }) x =
      { x with splits := x.splits.filter fun e => l.all (·.1 != e.1) } := by
  induction l generalizing x with
  | nil => simp
  | cons f l ih =>
    rw [List.foldl_cons, ih]
    simp only [Table.erase_eq_filter, List.filter_filter, List.all_cons]
    congr 2
    funext e
    rw [Bool.and_comm, bne_comm]

/-- Of a group whose other splits are freed one split stays. -/
theorem foldl_erase_others (x : Group) (e : Nat × Split) {l : List (Nat × Split)} (hx : x.splits = e :: l)
    (hl : ∀ f ∈ l, f.1 ≠ e.1) :
    l.foldl (fun (y : Group) f => { y with splits := y.splits.erase f.1 }) x = { x with splits := [e] } := by
  have he : l.all (·.1 != e.1) = true := by simpa using fun a b h => hl (a, b) h
  have hf : l.filter (fun f => l.all (·.1 != f.1)) = [] := by
    refine List.filter_eq_nil_iff.mpr fun f hf => ?_
    simp only [List.all_eq_true, not_forall]
    exact ⟨f, hf, by simp⟩
  rw [foldl_erase_splits, hx, List.filter_cons_of_pos (by exact he), hf]

/-- The union of wait masks holds a lane that one of them holds. -/
theorem hasLane_unionWm (l : List (Nat × Split)) (i : Nat) :
    hasLane (unionWm l) i = true ↔ ∃ e ∈ l, hasLane e.2.wm i = true := by
  suffices h : ∀ m : Mask, hasLane (l.foldl (fun m e => m ||| e.2.wm) m) i = true ↔
      hasLane m i = true ∨ ∃ e ∈ l, hasLane e.2.wm i = true by
    rw [unionWm, h]
    simp [show (0 : Mask) = 0#64 from rfl]
  induction l with
  | nil => simp
  | cons e l ih =>
    intro m
    rw [List.foldl_cons, ih, hasLane_or, Bool.or_eq_true]
    simp [or_assoc]

/-- Of splits none of which is deeper than the first, the first is the deepest. -/
theorem deepest_cons {e : Nat × Split} {l : List (Nat × Split)} (h : ∀ f ∈ l, f.2.depth ≤ e.2.depth) :
    deepest (e :: l) = some e := by
  have hmem : ∀ (l : List (Nat × Split)) (f : Nat × Split), deepest l = some f → f ∈ l := by
    intro l
    induction l with
    | nil => intro f hf; exact absurd hf (by simp [deepest])
    | cons a l ih =>
      intro f hf
      rw [deepest] at hf
      cases hd : deepest l with
      | none => simp_all
      | some d =>
        rw [hd] at hf
        simp only at hf
        split at hf
        · simp_all
        · exact List.mem_cons_of_mem _ (ih f (by rw [hd]; exact hf))
  rw [deepest]
  cases hd : deepest l with
  | none => rfl
  | some f => exact if_pos (h f (hmem l f hd))

/-- What a merge makes of the split that goes on: the lanes `need` continue at `pc`, and its top entry gives its convergence mask. -/
def Split.merged (y : Split) (need : Mask) (pc : Dword) (now : Nat) : Split :=
  { y with
    am := need, wm := 0, pc := pc, wait := .ready, pathStart := now, joinSince := none, joinKept := false, parked := false,
    cm := (y.stack.head?.map Deferred.mask).getD y.cm, stack := y.stack.drop 1 }

/-- The lanes of a split arrive at a JOIN. -/
def Split.arrive (y : Split) (next : Dword) : Split := { y with wm := y.wm ||| y.am, am := 0, pc := next }

/-- A split waits at a JOIN. -/
def Split.join (y : Split) : Split := { y with wait := .join, joinSince := none, joinKept := false }

/-- The lanes of a split of the group arrive at a JOIN. -/
def Group.arrive (x : Group) (k : Nat) (next : Dword) : Group :=
  { x with
    joinAt := (lanesOf (x.spl k).am).foldl (fun t l => t.set l next) x.joinAt
    splits := x.splits.modify k (Split.arrive · next) }

/-- The group whose splits all wait at a JOIN of one convergence mask, none of them outside it, merged into the first. -/
def Group.mergedInto (x : Group) (n : Nat) (y : Split) (now : Nat) : Group :=
  let need := minusLanes y.cm x.exited
  { x with splits := [(n, y.merged need (x.joinAt.getD (lowestLane need) y.pc) now)] }

section
variable {s : State} {b g : Nat} (hb : s.blocks.has b = true) (hg : (s.blk b).groups.has g = true)
include hb hg

/-- The merge of all splits of a group. -/
theorem State.merge_setGrp {x : Group} {n : Nat} {y : Split} {l : List (Nat × Split)} (hx : x.splits = (n, y) :: l)
    (hl : ∀ f ∈ l, f.1 ≠ n) (hw : ∀ e ∈ x.splits, e.2.wait = .join ∧ e.2.cm = y.cm ∧ subLanes e.2.wm y.cm = true)
    (hd : ∀ e ∈ l, e.2.depth ≤ y.depth) (hs : y.stack ≠ [] ∨ y.spilled = 0) (hn : minusLanes y.cm x.exited ≠ 0)
    (hr : x.returned = 0) : (s.setGrp b g x).merge b g y.cm = s.setGrp b g (x.mergedInto n y s.now) := by
  have hws : x.waiters y.cm = (n, y) :: l := by
    rw [← hx]
    refine List.filter_eq_self.mpr fun e he => ?_
    obtain ⟨h1, h2, -⟩ := hw e he
    simp [h1, h2]
  have hrest : minusLanes (unionWm ((n, y) :: l)) y.cm = 0 := by
    refine mask_ext fun i => ?_
    rw [hasLane_minusLanes]
    cases hu : hasLane (unionWm ((n, y) :: l)) i with
    | false => simp
    | true =>
      obtain ⟨e, he, hi⟩ := (hasLane_unionWm _ _).mp hu
      simp [(subLanes_iff _ _).mp (hw e (hx ▸ he)).2.2 i hi]
  have hfind : x.splits.has n = true ∧ x.spl n = y := by
    simp [Group.spl, Table.getD, Table.has, hx, Table.find]
  have hspl : (s.setGrp b g x).spl b g n = y := by rw [State.spl_setGrp hb hg, hfind.2]
  have htop : (s.setGrp b g x).topEntry b g n = y.stack.head? := by
    rw [State.topEntry_eq_head (by rwa [hspl]), hspl]
  have hdeep : deepest ((n, y) :: l) = some (n, y) := deepest_cons fun f hf => hd f hf
  simp only [State.merge, State.grp_setGrp hb hg, hws, hdeep, hrest, State.takeStack, if_true, htop, hn, hr, if_false]
  rw [if_neg (by simp), State.modSpl_setGrp hb hg, State.foldl_modGrp]
  cases hst : y.stack with
  | nil =>
    simp only [List.head?_nil]
    rw [State.modGrp_setGrp hb hg, foldl_erase_others _ (n, y.merged (minusLanes y.cm x.exited)
      (x.joinAt.getD (lowestLane (minusLanes y.cm x.exited)) y.pc) s.now) (l := l) _ hl]
    · rfl
    · simp [Group.modSpl, hx, Table.modify, Split.merged, hst]
      rfl
  | cons d ds =>
    simp only [List.head?_cons]
    rw [State.popEntry_eq_modSpl, State.modSpl_setGrp hb hg, State.modSpl_setGrp hb hg, State.modGrp_setGrp hb hg,
      foldl_erase_others _ (n, y.merged (minusLanes y.cm x.exited)
        (x.joinAt.getD (lowestLane (minusLanes y.cm x.exited)) y.pc) s.now) (l := l) _ hl]
    · rfl
    · simp [Group.modSpl, hx, Table.modify, Split.merged, hst]
      rfl
    · left
      rw [State.spl_setGrp hb hg, Group.spl_modSpl_self hfind.1, hfind.2]
      simp [hst]

/-- The merges that are due, when all splits of a group wait at a JOIN of one convergence mask whose lanes have all arrived. -/
theorem State.settle_setGrp {x : Group} {n : Nat} {y : Split} {l : List (Nat × Split)} (hx : x.splits = (n, y) :: l)
    (hl : ∀ f ∈ l, f.1 ≠ n)
    (hw : ∀ e ∈ x.splits, e.2.wait = .join ∧ e.2.cm = y.cm ∧ subLanes e.2.wm y.cm = true) (h0 : ∀ e ∈ x.splits, e.2.wm ≠ 0)
    (hd : ∀ e ∈ l, e.2.depth ≤ y.depth) (hs : y.stack ≠ [] ∨ y.spilled = 0) (hn : minusLanes y.cm x.exited ≠ 0)
    (hr : x.returned = 0)
    (hall : ∀ i, hasLane (minusLanes y.cm x.exited) i = true → ∃ e ∈ x.splits, hasLane e.2.wm i = true) :
    (s.setGrp b g x).settle b g = s.setGrp b g (x.mergedInto n y s.now) := by
  have hdue (e : Nat × Split) (he : e ∈ x.splits) : (e.2.wait == .join && x.mergeDue e.2.cm) = true := by
    have hws : x.waiters y.cm = x.splits := List.filter_eq_self.mpr fun f hf => by simp [hw f hf]
    simp only [hw e he, BEq.rfl, Bool.true_and, Group.mergeDue, subLanes_iff, hws, hasLane_unionWm]
    exact hall
  have hfirst : (x.splits.filter fun e => e.2.wait == .join && x.mergeDue e.2.cm).head? = some (n, y) := by
    rw [List.filter_eq_self.mpr hdue, hx, List.head?_cons]
  have hkeep : (s.setGrp b g (x.mergedInto n y s.now)).freeEmpty b g = s.setGrp b g (x.mergedInto n y s.now) :=
    State.freeEmpty_setGrp hb hg (by simpa [Group.mergedInto, Split.merged] using hn)
  have hone : (s.setGrp b g x).settleOnce b g = some (s.setGrp b g (x.mergedInto n y s.now)) := by
    simp only [State.settleOnce, State.grp_setGrp hb hg, hfirst]
    rw [State.merge_setGrp hb hg hx hl hw hd hs hn hr, hkeep]
  have htwo : (s.setGrp b g (x.mergedInto n y s.now)).settleOnce b g = none := by
    simp only [State.settleOnce, State.grp_setGrp hb hg]
    simp [Group.mergedInto, Split.merged]
  rw [State.settle, State.freeEmpty_setGrp hb hg fun e he => .inr (h0 e he)]
  show iterOpt (1098 + 1 + 1) _ _ = _
  simp only [iterOpt, hone, htwo]

theorem State.joinSplit_eq {k : Nat} (next : Dword) (hrj : (s.grp b g).rj = 0) :
    s.joinSplit b g k next = (s.setGrp b g ((s.grp b g).arrive k next)).endPath b g k := by
  simp only [State.joinSplit, hrj]
  rw [State.modGrp_eq_setGrp, State.modSpl_setGrp hb hg, Group.arrive]
  congr 2
  simp only [Group.modSpl, hrj]
  simp [State.spl, minusLanes]
  rfl

theorem State.spl_arrive {k : Nat} (hk : (s.grp b g).splits.has k = true) (next : Dword) :
    (s.setGrp b g ((s.grp b g).arrive k next)).spl b g k = (s.spl b g k).arrive next := by
  rw [State.spl_setGrp hb hg]
  exact Table.getD_modify_self _ _ _ _ hk

theorem State.topPath_arrive {k : Nat} (hk : (s.grp b g).splits.has k = true) (next : Dword) :
    (s.setGrp b g ((s.grp b g).arrive k next)).topPath b g k = s.topPath b g k := by
  have h := State.spl_arrive hb hg hk next
  exact State.topPath_congr (State.fullStack_modGrp (congrArg Split.stack h :) (congrArg Split.spilled h :))

/-- JOIN of a split without a deferred path on top: its lanes wait, and the merges that this completes follow. -/
theorem State.joinSplit_of_no_path {k : Nat} (hk : (s.grp b g).splits.has k = true) (next : Dword)
    (htop : s.topPath b g k = false) (hrj : (s.grp b g).rj = 0) :
    s.joinSplit b g k next = (s.setGrp b g (((s.grp b g).arrive k next).modSpl k Split.join)).settle b g := by
  rw [State.joinSplit_eq hb hg next hrj, State.endPath, State.topPath_arrive hb hg hk, htop, if_neg (by simp),
    State.modSpl_setGrp hb hg]
  rfl

end

/-! ## JOIN of the last split of a group -/

/-- The JOIN of a split `x` at index `k` completes the merge of all splits of its group: every other split waits at a JOIN of the same
convergence mask, no lane that waits is outside it, and each of its lanes that has not exited waits or arrives. The split `y` at the
lowest index `n` has the deepest stack. -/
structure Group.LastAtJoin (G : Group) (k n : Nat) (x y : Split) : Prop where
  sorted : G.splits.Pairwise fun e f => e.1 < f.1
  here : (k, x) ∈ G.splits
  first : (n, y) ∈ G.splits
  least : ∀ e ∈ G.splits, n ≤ e.1
  deepest : ∀ e ∈ G.splits, e.2.depth ≤ y.depth
  onChip : y.stack ≠ [] ∨ y.spilled = 0
  cm : ∀ e ∈ G.splits, e.2.cm = x.cm
  inside : ∀ e ∈ G.splits, subLanes e.2.wm x.cm = true
  waits : ∀ e ∈ G.splits, e.1 ≠ k → e.2.wait = .join ∧ e.2.wm ≠ 0
  lanes : x.am ≠ 0
  lanesInside : subLanes x.am x.cm = true
  someLane : minusLanes x.cm G.exited ≠ 0
  cover : ∀ l, hasLane (minusLanes x.cm G.exited) l = true → hasLane x.am l = true ∨ ∃ e ∈ G.splits, hasLane e.2.wm l = true
  noneReturned : G.returned = 0
  noneAtJoin : G.rj = 0

theorem Group.LastAtJoin.spl_eq {G : Group} {k n : Nat} {x y : Split} (h : G.LastAtJoin k n x y) {e : Nat × Split}
    (he : e ∈ G.splits) : G.spl e.1 = e.2 := Table.getD_of_find _ (Table.find_of_mem h.sorted he)

/-- The only split of a group arrives with all lanes of its convergence mask that have not exited. -/
theorem Group.lastAtJoin_single {G : Group} {k : Nat} {x : Split} (hx : G.splits = [(k, x)]) (hs : x.stack ≠ []) (hw : x.wm = 0)
    (ha : x.am = minusLanes x.cm G.exited) (hne : x.am ≠ 0) (hret : G.returned = 0) (hrj : G.rj = 0) : G.LastAtJoin k k x x := {
  sorted := by simp [hx]
  here := by simp [hx]
  first := by simp [hx]
  least := by simp [hx]
  deepest := by simp [hx]
  onChip := .inl hs
  cm := by simp [hx]
  inside := by simp [hx, hw, subLanes]
  waits := by simp [hx]
  lanes := hne
  lanesInside := (subLanes_iff _ _).mpr fun l hl => by
    rw [ha, hasLane_minusLanes, Bool.and_eq_true] at hl
    exact hl.1
  someLane := ha ▸ hne
  cover := fun l hl => .inl (ha ▸ hl)
  noneReturned := hret
  noneAtJoin := hrj }

/-- The split of the lowest index stands first. -/
theorem Group.LastAtJoin.splits_eq {G : Group} {k n : Nat} {x y : Split} (h : G.LastAtJoin k n x y) :
    ∃ l, G.splits = (n, y) :: l ∧ ∀ e ∈ l, e.1 ≠ n := by
  have hsorted := h.sorted
  have hfirst := h.first
  have hleast := h.least
  cases hl : G.splits with
  | nil => exact absurd (hl ▸ hfirst) List.not_mem_nil
  | cons e l =>
    rw [hl] at hsorted hfirst hleast
    obtain ⟨he, -⟩ := List.pairwise_cons.mp hsorted
    rcases List.mem_cons.mp hfirst with rfl | hm
    · exact ⟨l, rfl, fun f hf => Nat.ne_of_gt (he f hf)⟩
    · exact absurd (hleast e List.mem_cons_self) (Nat.not_le.mpr (he _ hm))

/-- A split at a JOIN that the split at index `k` has just reached. -/
def joinEntry (k : Nat) (next : Dword) (e : Nat × Split) : Nat × Split :=
  if e.1 = k then (e.1, (e.2.arrive next).join) else e

/-- What JOIN leaves of a split besides its lanes and its wait. -/
theorem joinEntry_keeps (k : Nat) (next : Dword) (e : Nat × Split) :
    (joinEntry k next e).1 = e.1 ∧ (joinEntry k next e).2.cm = e.2.cm ∧ (joinEntry k next e).2.stack = e.2.stack ∧
      (joinEntry k next e).2.spilled = e.2.spilled ∧
      ∀ need pc now, (joinEntry k next e).2.merged need pc now = e.2.merged need pc now := by
  rw [joinEntry]
  split
  · exact ⟨rfl, rfl, rfl, rfl, fun _ _ _ => rfl⟩
  · exact ⟨rfl, rfl, rfl, rfl, fun _ _ _ => rfl⟩

/-- After the JOIN of the last split all splits wait, with the lanes that they had and those that arrive. -/
theorem Group.LastAtJoin.joinEntry_waits {G : Group} {k n : Nat} {x y : Split} (h : G.LastAtJoin k n x y) (next : Dword)
    {e : Nat × Split} (he : e ∈ G.splits) :
    (joinEntry k next e).2.wait = .join ∧ (joinEntry k next e).2.wm ≠ 0 ∧ subLanes (joinEntry k next e).2.wm x.cm = true ∧
      ∀ l, hasLane e.2.wm l = true → hasLane (joinEntry k next e).2.wm l = true := by
  rw [joinEntry]
  split
  · next hk =>
    have hx : e.2 = x := by rw [← h.spl_eq he, hk]; exact h.spl_eq h.here
    have hor (l : Nat) : hasLane ((e.2.arrive next).join).wm l = (hasLane e.2.wm l || hasLane x.am l) := by
      rw [← hx]
      exact hasLane_or ..
    refine ⟨rfl, ?_, (subLanes_iff _ _).mpr fun l hl => ?_, fun l hl => by rw [hor, hl, Bool.true_or]⟩
    · exact mask_ne_zero_of_hasLane (l := lowestLane x.am) (by rw [hor, hasLane_lowestLane h.lanes, Bool.or_true])
    · rw [hor, Bool.or_eq_true] at hl
      exact hl.elim ((subLanes_iff _ _).mp (h.inside e he) l) ((subLanes_iff _ _).mp h.lanesInside l)
  · next hk => exact ⟨(h.waits e he hk).1, (h.waits e he hk).2, h.inside e he, fun _ hl => hl⟩

/-- The JOIN of the last split of a group: the split at the lowest index goes on alone. -/
theorem State.joinSplit_merges {s : State} {b g k n : Nat} {x y : Split} (hb : s.blocks.has b = true)
    (hg : (s.blk b).groups.has g = true)
    (h : (s.grp b g).LastAtJoin k n x y) (htop : s.topPath b g k = false) (next : Dword) :
    ∃ p, s.joinSplit b g k next = s.setGrp b g { (s.grp b g).arrive k next with
      splits := [(n, y.merged (minusLanes x.cm (s.grp b g).exited)
        (((s.grp b g).arrive k next).joinAt.getD (lowestLane (minusLanes x.cm (s.grp b g).exited)) p) s.now)] } := by
  obtain ⟨l, hl, hne⟩ := h.splits_eq
  have hsplits : (((s.grp b g).arrive k next).modSpl k Split.join).splits = (s.grp b g).splits.map (joinEntry k next) :=
    (Table.modify_modify ..).trans (Table.modify_eq_map h.sorted k fun y => (y.arrive next).join)
  obtain ⟨hn1, hcm, hstack, hspilled, hmerged⟩ := joinEntry_keeps k next (n, y)
  have hX : (((s.grp b g).arrive k next).modSpl k Split.join).splits =
      (n, (joinEntry k next (n, y)).2) :: l.map (joinEntry k next) := by
    rw [hsplits, hl, List.map_cons]
    congr 1
    exact Prod.ext hn1 rfl
  have hcm' : (joinEntry k next (n, y)).2.cm = x.cm := hcm.trans (h.cm _ h.first)
  have hk : (s.grp b g).splits.has k = true := Table.has_of_find (Table.find_of_mem h.sorted h.here)
  refine ⟨(joinEntry k next (n, y)).2.pc, ?_⟩
  rw [State.joinSplit_of_no_path hb hg hk next htop h.noneAtJoin, State.settle_setGrp hb hg hX]
  · simp only [Group.mergedInto, hcm', hmerged]
    rfl
  · intro f hf
    obtain ⟨e, he, rfl⟩ := List.mem_map.mp hf
    rw [(joinEntry_keeps k next e).1]
    exact hne e he
  · intro f hf
    rw [hsplits] at hf
    obtain ⟨e, he, rfl⟩ := List.mem_map.mp hf
    obtain ⟨hw, -, hin, -⟩ := h.joinEntry_waits next he
    rw [hcm', (joinEntry_keeps k next e).2.1, h.cm e he]
    exact ⟨hw, rfl, hin⟩
  · intro f hf
    rw [hsplits] at hf
    obtain ⟨e, he, rfl⟩ := List.mem_map.mp hf
    exact (h.joinEntry_waits next he).2.1
  · intro f hf
    obtain ⟨e, he, rfl⟩ := List.mem_map.mp hf
    obtain ⟨-, -, hs, hp, -⟩ := joinEntry_keeps k next e
    rw [Split.depth, Split.depth, hs, hp, hstack, hspilled]
    exact h.deepest e (hl ▸ List.mem_cons_of_mem _ he)
  · rw [hstack, hspilled]
    exact h.onChip
  · rw [hcm']
    exact h.someLane
  · exact h.noneReturned
  · rw [hcm', hsplits]
    intro i hi
    rcases h.cover i hi with hx | ⟨e, he, hx⟩
    · refine ⟨_, List.mem_map_of_mem h.here, ?_⟩
      simp only [joinEntry, if_true]
      exact (hasLane_or ..).trans (by rw [hx, Bool.or_true])
    · exact ⟨_, List.mem_map_of_mem he, (h.joinEntry_waits next he).2.2.2 i hx⟩

/-- The address at which a lane has reached a JOIN: that of the split which arrives for its lanes. -/
theorem Group.find_joinAt_arrive (G : Group) (k : Nat) (next : Dword) (l : Nat) :
    (G.arrive k next).joinAt.find l = if hasLane (G.spl k).am l = true then some next else G.joinAt.find l := by
  have hfold : (G.arrive k next).joinAt =
      ((lanesOf (G.spl k).am).map fun l => (l, next)).foldl (fun t e => t.set e.1 e.2) G.joinAt := by
    rw [List.foldl_map]
    rfl
  have hkeys : ((lanesOf (G.spl k).am).map fun l => (l, next)).map Prod.fst = lanesOf (G.spl k).am := by
    rw [List.map_map]
    exact List.map_id _
  rw [hfold]
  split
  · next h =>
    refine Table.find_foldl_set_mem _ _ ?_ (e := (l, next)) (List.mem_map_of_mem ((mem_lanesOf _ l).mpr h))
    rw [hkeys]
    exact (lanesOf_sorted _).imp Nat.ne_of_lt
  · next h =>
    refine Table.find_foldl_set_other _ _ ?_
    rw [hkeys, mem_lanesOf]
    exact h

/-- JOIN of a split with a deferred path on top: its lanes wait, and it goes on at that path. -/
theorem State.joinSplit_path {s : State} {b g k : Nat} {d : Deferred} {ds : List Deferred} (hb : s.blocks.has b = true)
    (hg : (s.blk b).groups.has g = true) (hk : (s.grp b g).splits.has k = true) (hs : (s.spl b g k).stack = d :: ds)
    (hd : d.path = true) (hrj : (s.grp b g).rj = 0) (next : Dword) :
    (s.joinSplit b g k next).focus = s.focus ∧ (s.joinSplit b g k next).spl b g k = { s.spl b g k with
      wm := (s.spl b g k).wm ||| (s.spl b g k).am, stack := ds, pc := d.pc, am := d.mask, pathStart := s.now, wait := .ready } := by
  have hspl := State.spl_arrive hb hg hk next
  have hon : ((s.setGrp b g ((s.grp b g).arrive k next)).spl b g k).stack ≠ [] ∨
      ((s.setGrp b g ((s.grp b g).arrive k next)).spl b g k).spilled = 0 := .inl (by rw [hspl]; simp [Split.arrive, hs])
  have htop : (s.setGrp b g ((s.grp b g).arrive k next)).topEntry b g k = some d := by
    rw [State.topEntry_eq_head hon, hspl]
    simp [Split.arrive, hs]
  have hpath : (s.setGrp b g ((s.grp b g).arrive k next)).topPath b g k = true := by simp only [State.topPath, htop, hd]
  rw [State.joinSplit_eq hb hg next hrj, State.endPath, hpath, if_pos rfl]
  simp only [State.popPath, htop]
  rw [State.popEntry_eq_modSpl hon, State.modSpl_setGrp hb hg, State.modSpl_setGrp hb hg, State.spl_setGrp hb hg]
  refine ⟨rfl, ?_⟩
  have hkj : ((s.grp b g).arrive k next).splits.has k = true := (Table.has_modify ..).trans hk
  rw [Group.spl_modSpl_self (by simpa using hkj), Group.spl_modSpl_self hkj, ← State.spl_setGrp hb hg, hspl]
  simp [Split.arrive, hs]
  rfl

theorem exec_join_split {g : Pred} {s : State} {b gr k : Nat} (hf : s.focus = .split b gr k) (hm : s.mayIssue (.join g) g = true) :
    Sys2Proof.Machine.exec (.join g) s = .next (s.joinSplit b gr k (s.pc + 4)) := by
  rw [show Sys2Proof.Machine.exec (.join g) s = execJoin g s from rfl, execJoin, laneRun_of_mayIssue hm]
  simp only [hf]
  rfl

theorem exec_join_comet {g : Pred} {s : State} {c : Nat} (hf : s.focus = .comet c) (hm : s.mayIssue (.join g) g = true)
    (ha : (s.ctx c).arrived = none) : Sys2Proof.Machine.exec (.join g) s = .next (s.modCtx c fun y =>
      { y with
        arrived := some s.now
        notBefore := s.now + if dieOfComet c != (s.blk (s.ctx c).blk).die then 32 else 16 }) := by
  rw [show Sys2Proof.Machine.exec (.join g) s = execJoin g s from rfl, execJoin, laneRun_of_mayIssue hm]
  simp only [hf, ha]
  rfl

/-- A JOIN that completes the merge of all splits of its group leaves the split at the lowest index with the lanes of its convergence
mask that have not exited. -/
theorem exec_join_merges {g : Pred} {s : State} {b gr k n : Nat} {x y : Split} (hf : s.focus = .split b gr k)
    (hm : s.mayIssue (.join g) g = true) (h : (s.grp b gr).LastAtJoin k n x y) (htop : s.topPath b gr k = false) :
    ∃ t p, Sys2Proof.Machine.exec (.join g) s = .next t ∧ t.focus = s.focus ∧ t.mem = s.mem ∧
      (t.grp b gr).splits = [(n, t.spl b gr n)] ∧ t.spl b gr n = y.merged (minusLanes x.cm (s.grp b gr).exited) p s.now ∧
      ∀ l, l = lowestLane (minusLanes x.cm (s.grp b gr).exited) →
        (hasLane x.am l = true → p = s.pc + 4) ∧
        (∀ q, hasLane x.am l = false → (s.grp b gr).joinAt.find l = some q → p = q) := by
  obtain ⟨hb, hg, -⟩ := State.listed_of_issuing hf (issuing_of_mayIssue hm)
  obtain ⟨p, hj⟩ := State.joinSplit_merges hb hg h htop (s.pc + 4)
  refine ⟨_, ((s.grp b gr).arrive k (s.pc + 4)).joinAt.getD (lowestLane (minusLanes x.cm (s.grp b gr).exited)) p,
    exec_join_split hf hm, ?_⟩
  rw [hj]
  refine ⟨rfl, rfl, ?_, ?_, ?_⟩
  · rw [State.grp_setGrp hb hg, State.spl_setGrp hb hg]
    simp [Group.spl, Table.getD, Table.find]
  · rw [State.spl_setGrp hb hg]
    simp [Group.spl, Table.getD, Table.find]
  · rintro l rfl
    rw [Table.getD, Group.find_joinAt_arrive, h.spl_eq h.here]
    refine ⟨fun hl => by rw [if_pos hl]; rfl, fun q hl hq => ?_⟩
    rw [if_neg (by simp [hl]), hq, Option.getD_some]

/-- Settles O19: JOIN gives the next path of the stack, or completes the merge of the splits of its group, or is the arrival of an
ejected lane. -/
theorem joins : Obligations.Joins := by
  refine ⟨?_, ?_, ?_⟩
  · intro g s b gr k sp d ds hf hm hsp hst hrj
    obtain ⟨hb, hg, hk⟩ := State.listed_of_issuing hf (issuing_of_mayIssue hm)
    have hspl : s.spl b gr k = sp := by simp [State.spl, Group.spl, hsp, Table.getD, Table.find]
    refine ⟨fun hd => ?_, fun hd hwm ham hne hret => ?_⟩
    · obtain ⟨hfoc, h⟩ := State.joinSplit_path hb hg hk (hspl ▸ hst) hd hrj (s.pc + 4)
      refine ⟨_, exec_join_split hf hm, ?_⟩
      rw [State.pc, hfoc, hf]
      simp only [h, hspl, and_self]
    · have hone : (s.grp b gr).LastAtJoin k k sp sp := Group.lastAtJoin_single hsp (by simp [hst]) hwm ham hne hret hrj
      have htop : s.topPath b gr k = false := by
        rw [State.topPath, State.topEntry_eq_head (.inl (by simp [hspl, hst])), hspl, hst]
        exact hd
      obtain ⟨t, p, hx, hfoc, -, -, hspl', hpc⟩ := exec_join_merges hf hm hone htop
      refine ⟨t, hx, ?_⟩
      rw [State.pc, hfoc, hf]
      simp only [hspl']
      rw [← (hpc _ rfl).1 (by rw [← ham]; exact hasLane_lowestLane hne)]
      simp [Split.merged, hst]
  · intro g s b gr k n x y hf hm hsorted hx hy hall hsp hne hin hw hgm htopk htopn hrj hret hneed hcover
    have hlast : (s.grp b gr).LastAtJoin k n x y := {
      sorted := hsorted, here := hx, first := hy, onChip := .inr hsp, lanes := hne, lanesInside := hin, someLane := hneed
      cover := hcover, noneReturned := hret, noneAtJoin := hrj
      least := fun e he => (hall e he).1
      deepest := fun e he => Nat.le_trans (hall e he).2.1 (Nat.le_add_right ..)
      cm := fun e he => (hall e he).2.2.1
      inside := fun e he => (hall e he).2.2.2.1
      waits := fun e he hk => ⟨((hall e he).2.2.2.2 hk).1, ((hall e he).2.2.2.2 hk).2.2.2⟩ }
    obtain ⟨t, p, hexec, -, hmem, hsplits, hspl, hpc⟩ := exec_join_merges hf hm hlast htopk
    refine ⟨t, hexec, by rw [hsplits]; rfl, ?_⟩
    rw [hspl]
    refine ⟨rfl, rfl, rfl, hpc, fun d ds hs => ?_, fun hs => ?_, hmem⟩
    · simp [Split.merged, hs]
    · simpa [Split.merged, hs] using hlast.cm _ hy
  · intro g s c hf hm ha
    have hc := State.listed_of_issuing_comet hf (issuing_of_mayIssue hm)
    refine ⟨_, exec_join_comet hf hm ha, ?_⟩
    rw [State.ctx_modCtx_self _ _ _ hc]
    refine ⟨rfl, ?_, rfl, rfl⟩
    by_cases hd : dieOfComet c = (s.blk (s.ctx c).blk).die <;> simp [hd]

end Sys2Proof.Machine

end


/-!
PROOFS. What a write of the part itself to memory leaves alone (spec/08 R186, 16 R345): everything besides memory, the caches, the
monitors and the migrations' dirty lines.
-/

section

namespace Sys2Proof.Machine

set_option linter.constructorNameAsVariable false

/-- A queue besides its watches. -/
def Queue.aside (q : Queue) : Queue := { q with tailW := none, stampW := none }

/-- The state besides the memory, what caches, registries and translations hold of it, and what watches it. -/
def State.aside (s : State) : State :=
  { s with
    mem := [], poison := [], owners := [], copies := [], tlbs := [], monitors := [], slices := [], migrs := []
    queues := s.queues.mapv fun _ => Queue.aside }

@[simp] theorem State.aside_noteDirty (s : State) (cs : List Host.Cell) : (s.noteDirty cs).aside = s.aside := rfl
@[simp] theorem State.aside_dropWords (s : State) (p : Nat → Bool) (ws : List Nat) : (s.dropWords p ws).aside = s.aside := rfl
@[simp] theorem State.aside_selfInvalidate (s : State) (core : Nat) : (s.selfInvalidate core).aside = s.aside := rfl

@[simp] theorem State.aside_fireMonitors (s : State) (cs : List Host.Cell) : (s.fireMonitors cs).aside = s.aside := by
  simp only [State.aside, State.fireMonitors, Table.mapv, List.map_map]
  rfl

@[simp] theorem State.aside_revoke (s : State) (keep : Option Nat) (ws : List Nat) : (s.revoke keep ws).aside = s.aside := by
  refine State.foldl_keeps State.aside _ (fun t w => ?_) ws s
  split
  · rfl
  · split <;> rfl

@[simp] theorem State.aside_putHome (s : State) (cs : List Host.Cell) : (s.putHome cs none).aside = s.aside :=
  s.aside_revoke none (cellWords cs)

@[simp] theorem State.aside_writeHome (s : State) (cs : List Host.Cell) : (s.writeHome cs).aside = s.aside := by
  simp [State.writeHome]

@[simp] theorem State.aside_orLeaf (s : State) (a bitNo : Nat) : (s.orLeaf a bitNo).aside = s.aside := by
  unfold State.orLeaf
  dsimp only
  split
  · rfl
  · exact s.aside_writeHome _

@[simp] theorem State.aside_markUsed (s : State) (used : List Nat) : (s.markUsed used).aside = s.aside :=
  State.foldl_keeps State.aside _ (fun t a => t.aside_orLeaf a 5) used s

@[simp] theorem State.aside_setDirty (s : State) (e : TlbEntry) : (s.setDirty e).aside = s.aside := by
  unfold State.setDirty
  split
  · rfl
  · exact State.foldl_keeps State.aside _ (fun t a => t.aside_orLeaf a 6) e.leaves s

@[simp] theorem State.aside_touchRange (s : State) (vf a n : Nat) (wr : Bool) : (s.touchRange vf a n wr).aside = s.aside := by
  refine State.foldl_keeps State.aside _ (fun t i => ?_) _ s
  split
  · split <;> simp
  · rfl

@[simp] theorem State.aside_touchCtx (s : State) (b a n : Nat) (wr : Bool) : (s.touchCtx b a n wr).aside = s.aside :=
  s.aside_touchRange ..

@[simp] theorem State.aside_writeCtx (s : State) (b a : Nat) (bs : List Byte) : (s.writeCtx b a bs).aside = s.aside := by
  simp [State.writeCtx]

@[simp] theorem State.aside_fillSlice (s : State) (vf : Nat) (f : Fill) (need : Bool) (key : Nat) :
    (s.fillSlice vf f need key).aside = s.aside := by
  cases f with
  | none => rfl
  | low => unfold State.fillSlice State.touchLine; dsimp only; split <;> rfl
  | usual => unfold State.fillSlice State.touchLine; dsimp only; split <;> rfl

theorem State.armed_fillSlice (s : State) (vf : Nat) (f : Fill) (need : Bool) (key : Nat) :
    (s.fillSlice vf f need key).armed = s.armed := (congrArg State.armed (s.aside_fillSlice vf f need key) :)

theorem State.armed_putHome (s : State) (cs : List Host.Cell) : (s.putHome cs none).armed = s.armed :=
  (congrArg State.armed (s.aside_putHome cs) :)

theorem State.aside_armObjects (s : State) (cs : List Host.Cell) (vf : Nat) :
    (s.armObjects cs vf).aside = { s.aside with armed := (s.armObjects cs vf).armed } := by
  refine List.foldlRecOn (motive := fun t : State => t.aside = { s.aside with armed := t.armed }) _ _ rfl fun t h c _ => ?_
  have hset (m : Memory) (l : List Armed) : State.aside { t with mem := m, armed := l } = { s.aside with armed := l } := by
    rw [show State.aside { t with mem := m, armed := l } = { t.aside with armed := l } from rfl, h]
  dsimp only
  repeat' split
  · exact h
  · exact hset t.mem _
  · exact hset _ t.armed
  · exact hset t.mem _

theorem State.aside_commit (s : State) (cs : List Host.Cell) (vf : Nat) (f : Fill) :
    (s.commit cs none vf f).aside = { s.aside with armed := (s.commit cs none vf f).armed } := by
  unfold State.commit
  dsimp only
  rw [State.aside_fireMonitors, State.aside_armObjects]
  rw [(State.foldl_keeps State.aside _ (fun t l => t.aside_fillSlice ..) _ _).trans (s.aside_putHome cs)]
  rfl

/-- What arming makes of the memory and of the armed ranges depends on these alone. -/
theorem State.armObjects_congr {s t : State} (hm : t.mem = s.mem) (ha : t.armed = s.armed) (cs : List Host.Cell) (vf : Nat) :
    (t.armObjects cs vf).mem = (s.armObjects cs vf).mem ∧ (t.armObjects cs vf).armed = (s.armObjects cs vf).armed := by
  unfold State.armObjects
  dsimp only
  induction cs.filter (fun c => c.1 % 64 == 4) generalizing s t with
  | nil => exact ⟨hm, ha⟩
  | cons c l ih =>
    rw [List.foldl_cons, List.foldl_cons]
    refine ih ?_ ?_
    · simp only [hm, ha]
      repeat' split
      · exact hm
      all_goals rfl
    · simp only [hm, ha]
      repeat' split
      · exact ha
      all_goals rfl

/-- The memory after a write depends on the memory and the armed ranges before it. -/
theorem State.mem_commit_congr {s t : State} (hm : t.mem = s.mem) (ha : t.armed = s.armed) (cs : List Host.Cell) (vf : Nat)
    (f : Fill) : (t.commit cs none vf f).mem = (s.commit cs none vf f).mem := by
  unfold State.commit
  dsimp only
  refine (State.armObjects_congr ?_ ?_ cs vf).1
  · rw [State.mem_foldl _ fun t l => t.mem_fillSlice .., State.mem_foldl _ fun t l => t.mem_fillSlice .., State.mem_putHome,
      State.mem_putHome, hm]
  · rw [State.foldl_keeps State.armed _ fun t l => t.armed_fillSlice .., State.foldl_keeps State.armed _ fun t l => t.armed_fillSlice ..,
      State.armed_putHome, State.armed_putHome, ha]

end Sys2Proof.Machine

end


/-!
PROOFS. Steps of splits and of ejected lanes (spec/03_lane_state.md R92; 14 R300, R304-R306): the statement O42.
-/

section

namespace Sys2Proof.Machine

set_option linter.constructorNameAsVariable false

/-! ## What merges of splits leave alone -/

/-- The comet contexts, the registers of the blocks, and of the groups the predicates and which lanes are ejected. -/
structure State.SameLanes (s t : State) : Prop where
  comets : t.comets = s.comets
  vregs (b : Nat) : (t.blk b).vregs = (s.blk b).vregs
  preds (b g : Nat) : (t.grp b g).preds = (s.grp b g).preds
  ejected (b g : Nat) : (t.grp b g).ejected = (s.grp b g).ejected

theorem State.SameLanes.refl (s : State) : s.SameLanes s := ⟨rfl, fun _ => rfl, fun _ _ => rfl, fun _ _ => rfl⟩

theorem State.SameLanes.trans {s t u : State} (h : s.SameLanes t) (h' : t.SameLanes u) : s.SameLanes u :=
  ⟨h'.comets.trans h.comets, fun b => (h'.vregs b).trans (h.vregs b), fun b g => (h'.preds b g).trans (h.preds b g),
    fun b g => (h'.ejected b g).trans (h.ejected b g)⟩

theorem State.SameLanes.of_aside {s t : State} (h : t.aside = s.aside) : s.SameLanes t := by
  have hc : t.comets = s.comets := (congrArg State.comets h :)
  have hb : t.blocks = s.blocks := (congrArg State.blocks h :)
  refine ⟨hc, fun b => ?_, fun b g => ?_, fun b g => ?_⟩ <;> simp only [State.grp, State.blk, hb]

theorem State.SameLanes.modGrp {s : State} {b g : Nat} {f : Group → Group} (hp : ∀ x, (f x).preds = x.preds)
    (he : ∀ x, (f x).ejected = x.ejected) : s.SameLanes (s.modGrp b g f) :=
  ⟨rfl, fun _ => Table.proj_getD_modify Block.vregs fun _ => rfl,
    fun _ h => Table.proj_getD_modify (fun x : Block => (x.groups.getD h Group.empty).preds) fun _ =>
      Table.proj_getD_modify Group.preds hp,
    fun _ h => Table.proj_getD_modify (fun x : Block => (x.groups.getD h Group.empty).ejected) fun _ =>
      Table.proj_getD_modify Group.ejected he⟩

theorem State.SameLanes.modSpl (s : State) (b g k : Nat) (f : Split → Split) : s.SameLanes (s.modSpl b g k f) :=
  .modGrp (fun _ => by rfl) fun _ => by rfl

/-- What each of a row of steps leaves alone all of them do. -/
theorem State.SameLanes.foldl {α : Type} {f : State → α → State} (h : ∀ (t : State) a, t.SameLanes (f t a)) (l : List α) (s : State) :
    s.SameLanes (l.foldl f s) := by
  induction l generalizing s with
  | nil => exact .refl s
  | cons a l ih => exact (h s a).trans (ih _)

theorem State.SameLanes.ite {s t u : State} {c : Prop} [Decidable c] (ht : s.SameLanes t) (hu : s.SameLanes u) :
    s.SameLanes (if c then t else u) := by
  split
  · exact ht
  · exact hu

section
variable (s : State) (b g k : Nat)

theorem State.sameLanes_popEntry : s.SameLanes (s.popEntry b g k) := by
  refine .trans ?_ (.modSpl ..)
  unfold State.refill
  dsimp only
  split
  · exact .trans (.of_aside (s.aside_touchCtx ..)) (.modSpl ..)
  · exact .refl s

theorem State.sameLanes_popPath : s.SameLanes (s.popPath b g k) := by
  unfold State.popPath
  split
  · exact (s.sameLanes_popEntry b g k).trans (.modSpl ..)
  · exact .refl s

theorem State.sameLanes_takeStack (j : Nat) : s.SameLanes (s.takeStack b g k j) := by
  unfold State.takeStack
  dsimp only
  split
  · exact .refl s
  · refine .trans (.of_aside ?_) (.modSpl ..)
    unfold State.writeSpill
    split
    · rfl
    · exact s.aside_writeCtx ..

theorem State.sameLanes_eraseSplits (l : List (Nat × Split)) :
    s.SameLanes (l.foldl (fun t e => t.modGrp b g fun y => { y with splits := y.splits.erase e.1 }) s) :=
  .foldl (fun t _ => .modGrp (fun _ => by rfl) fun _ => by rfl) l s

theorem State.sameLanes_freeEmpty : s.SameLanes (s.freeEmpty b g) := .modGrp (fun _ => by rfl) fun _ => by rfl

theorem State.sameLanes_merge (cm : Mask) : s.SameLanes (s.merge b g cm) := by
  have hstart (k j : Nat) (f : Split → Split) : s.SameLanes ((s.takeStack b g k j).modSpl b g k f) :=
    (s.sameLanes_takeStack b g k j).trans (.modSpl ..)
  unfold State.merge
  dsimp only
  split
  · exact .refl s
  · refine .ite (.ite (.trans ?_ (State.sameLanes_popPath ..)) (.trans ?_ (.modSpl ..)))
      (.ite (.trans (.trans ?_ (.modGrp (fun _ => by rfl) fun _ => by rfl)) (.of_aside (State.aside_selfInvalidate ..))) ?_)
    all_goals
      refine .trans ?_ (State.sameLanes_eraseSplits ..)
      split
      · exact ((hstart ..).trans (State.sameLanes_popEntry ..)).trans (.modSpl ..)
      · exact hstart ..

theorem State.sameLanes_settleOnce {t : State} (h : s.settleOnce b g = some t) : s.SameLanes t := by
  unfold State.settleOnce at h
  dsimp only at h
  split at h
  · cases h
    exact (s.sameLanes_merge b g _).trans (State.sameLanes_freeEmpty ..)
  · split at h
    · next pc _ _ =>
      obtain ⟨⟨j, u⟩, hc, rfl⟩ := Option.map_eq_some_iff.mp h
      unfold State.tryCollect at hc
      dsimp only at hc
      split at hc
      · exact absurd hc (by simp)
      · split at hc
        · cases hc
          exact (State.SameLanes.modSpl ..).trans (State.sameLanes_eraseSplits ..)
        · exact absurd hc (by simp)
    · exact absurd h (by simp)

theorem State.sameLanes_settle : s.SameLanes (s.settle b g) := by
  have hiter (n : Nat) : ∀ t : State, t.SameLanes (iterOpt n (fun t => t.settleOnce b g) t) := by
    induction n with
    | zero => exact fun t => .refl t
    | succ n ih =>
      intro t
      rw [iterOpt]
      split
      · next u hu => exact (t.sameLanes_settleOnce b g hu).trans (ih u)
      · exact .refl t
  exact (s.sameLanes_freeEmpty b g).trans (hiter 1100 _)

end

/-! ## The merge of equal splits (03 R92) -/

theorem State.listed_of_hasSplit {s : State} {b g k : Nat} (h : s.hasSplit b g k = true) :
    s.blocks.has b = true ∧ (s.blk b).groups.has g = true ∧ (s.grp b g).splits.has k = true :=
  State.listed_of_issuing (s := { s with focus := .split b g k }) rfl h

/-- What split `i` becomes when split `y` merges into it. -/
def Split.joinedBy (y x : Split) : Split :=
  { x with am := x.am ||| y.am, wm := x.wm ||| y.wm, pathStart := min x.pathStart y.pathStart }

theorem exec_splitMerge {b g i j : Nat} {s : State} (h : s.canMerge b g i j = true) :
    Sys2Proof.Machine.exec (.splitMerge b g i j) s = .next (s.setGrp b g { s.grp b g with
      splits := ((s.grp b g).splits.modify i ((s.spl b g j).joinedBy)).erase j }) := by
  rw [show Sys2Proof.Machine.exec (.splitMerge b g i j) s = execSplitMerge b g i j s from rfl, execSplitMerge]
  simp only [h, Bool.not_true, Bool.false_eq_true, if_false]
  rw [State.modSpl, State.modGrp_modGrp, State.modGrp_eq_setGrp]
  rfl

/-! ## The start of an ejected lane (14 R304) -/

theorem exec_ejectedLaneStart {c : Nat} {s : State} (hc : s.comets.has c = true) (hn : (s.ctx c).started = false)
    (hb : (s.ctx c).notBefore ≤ s.now) (hs : s.laneStored (s.ctx c).blk (s.ctx c).grp (s.ctx c).lane = true) :
    Sys2Proof.Machine.exec (.ejectedLaneStart c) s =
      .next ((s.dropLaneCache c).modCtx c fun y => { y with started := true }) := by
  rw [show Sys2Proof.Machine.exec (.ejectedLaneStart c) s = execEjectedLaneStart c s from rfl, execEjectedLaneStart]
  simp [hc, hn, hs, Nat.not_lt.mpr hb]

theorem Table.find_keep_of_not {α : Type} (t : Table α) {p : Nat → α → Bool} {i : Nat} (h : ∀ v, p i v = false) :
    (t.keep p).find i = none := by
  induction t with
  | nil => rfl
  | cons e t ih =>
    obtain ⟨k, v⟩ := e
    rw [Table.keep, List.filter_cons]
    split
    · next hk =>
      have hne : k ≠ i := by
        rintro rfl
        simp [h] at hk
      exact (if_neg hne).trans ih
    · exact ih

/-- The lane cache of a comet core holds no copy of any partition after its self-invalidation. -/
theorem State.find_dropLaneCache (s : State) (c : Nat) {p : Nat} (hp : p < 32) :
    (s.dropLaneCache c).copies.find (4096 + 32 * (c / 8) + p) = none := by
  have h : (4096 + 32 * (c / 8) + p - 4096) / 32 = c / 8 := by omega
  show (s.copies.keep fun k _ => !(decide (4096 ≤ k) && (k - 4096) / 32 == c / 8)).find _ = none
  refine Table.find_keep_of_not _ fun _ => ?_
  simp only [h, BEq.rfl, Bool.and_true, Bool.not_eq_false', decide_eq_true_eq]
  omega

/-! ## The copy-back of an ejected lane (14 R305) -/

theorem hasLane_putLane (m : Mask) {l : Nat} (hl : l < 64) (b : Bool) : hasLane (putLane m l b) l = b := by
  have hbit : hasLane (laneBit l) l = true := by simp [hasLane_laneBit, hl]
  cases b with
  | true => exact (hasLane_or ..).trans (by rw [hbit, Bool.or_true])
  | false => exact (hasLane_minusLanes ..).trans (by rw [hbit, Bool.not_true, Bool.and_false])

/-- One LIVE register of a context goes to its lane's place in the block. -/
def Comet.putBack (x : Comet) (z : Block) (r : Nat) : Block :=
  let w := z.putReg (z.regKey x.grp r x.lane) (x.vregs.getD r 0)
  if x.poisonRegs.contains r then { w with poisonRegs := w.poisonRegs ++ [w.regKey x.grp r x.lane] } else w

/-- One predicate pair of a context goes to its lane's place in the group. -/
def Comet.putPair (x : Comet) (z : Group) (i : Nat) : Group :=
  { z with preds := z.preds.set (i + 1) (putLane (z.preds.getD (i + 1) 0) x.lane (x.preds.getD (i + 1) false)) }

theorem State.copyRegsBack_eq (s : State) (x : Comet) : s.copyRegsBack x =
    (s.modBlk x.blk fun y => (liveRegs x.live).foldl x.putBack y).modGrp x.blk x.grp fun y => (List.range 7).foldl x.putPair y :=
  rfl

theorem Comet.vregs_putBack (x : Comet) (z : Block) (r : Nat) :
    (x.putBack z r).vregs = z.vregs.set (z.regKey x.grp r x.lane) (x.vregs.getD r 0) ∧ (x.putBack z r).width = z.width ∧
      (x.putBack z r).groups = z.groups := by
  unfold Comet.putBack
  dsimp only
  split <;> exact ⟨rfl, rfl, rfl⟩

theorem Comet.foldl_putBack (x : Comet) (b : Block) (rs : List Nat) (z : Block) (hw : z.width = b.width) :
    (rs.foldl x.putBack z).vregs =
      (rs.map fun r => (b.regKey x.grp r x.lane, x.vregs.getD r 0)).foldl (fun t e => t.set e.1 e.2) z.vregs ∧
    (rs.foldl x.putBack z).groups = z.groups := by
  induction rs generalizing z with
  | nil => exact ⟨rfl, rfl⟩
  | cons r rs ih =>
    obtain ⟨hv, hwidth, hg⟩ := x.vregs_putBack z r
    have hkey : z.regKey x.grp r x.lane = b.regKey x.grp r x.lane := by rw [Block.regKey, hw, ← Block.regKey]
    obtain ⟨h1, h2⟩ := ih (x.putBack z r) (hwidth.trans hw)
    rw [List.foldl_cons, h1, hv, hkey, h2, hg]
    exact ⟨rfl, rfl⟩

theorem Block.regKey_injective {b : Block} (hw : 0 < b.width) (g l : Nat) {r r' : Nat} (h : b.regKey g r l = b.regKey g r' l) :
    r = r' := by
  simp only [Block.regKey] at h
  exact Nat.eq_of_mul_eq_mul_right hw (by omega)

/-- A LIVE register reads in its lane's place as it did in the context. -/
theorem Comet.getD_putBack (x : Comet) {b : Block} (hw : 0 < b.width) {r : Nat} (hr : r < 64) (hl : x.live.getLsbD r = true) :
    ((liveRegs x.live).foldl x.putBack b).vregs.getD (b.regKey x.grp r x.lane) 0 = x.vregs.getD r 0 := by
  have hmem : r ∈ liveRegs x.live := List.mem_filter.mpr ⟨List.mem_range.mpr hr, hl⟩
  have hnd : (liveRegs x.live).Nodup := List.Nodup.filter _ List.nodup_range
  rw [(x.foldl_putBack b _ b rfl).1]
  refine Table.getD_of_find _ (Table.find_foldl_set_mem _ _ ?_ (e := (b.regKey x.grp r x.lane, x.vregs.getD r 0))
    (List.mem_map_of_mem hmem))
  rw [List.map_map]
  exact hnd.map fun _ _ h => Block.regKey_injective hw _ _ h

/-- A predicate pair reads in its lane's place as it did in the context. -/
theorem Comet.getD_putPair (x : Comet) (hl : x.lane < 64) (k : Nat) (is : List Nat) (z : Group)
    (h : k ∈ is.map (· + 1) ∨ hasLane (z.preds.getD k 0) x.lane = x.preds.getD k false) :
    hasLane ((is.foldl x.putPair z).preds.getD k 0) x.lane = x.preds.getD k false := by
  induction is generalizing z with
  | nil => exact h.resolve_left (by simp)
  | cons i is ih =>
    rw [List.foldl_cons]
    refine ih _ ?_
    by_cases hk : k = i + 1
    · subst hk
      refine .inr ?_
      rw [Comet.putPair, Table.getD_set_self, hasLane_putLane _ hl]
    · rw [List.map_cons, List.mem_cons, or_iff_right hk] at h
      rw [Comet.putPair, Table.getD_set_other _ _ _ _ _ hk]
      exact h

theorem State.listed_of_groups {s : State} {b g : Nat} (h : (s.blk b).groups.has g = true) : s.blocks.has b = true := by
  by_contra hn
  have he : s.blk b = Block.empty := by simp [State.blk, Table.getD, Table.find_of_not_has (by simpa using hn)]
  rw [he] at h
  exact absurd h (by simp [Block.empty, Table.has])

theorem exec_copyBack {c : Nat} {s : State} (h : s.copyBackReady c = true) :
    Sys2Proof.Machine.exec (.copyBack c) s =
      .next (((s.copyRegsBack (s.ctx c)).returnLane c).settle (s.ctx c).blk (s.ctx c).grp) := by
  rw [show Sys2Proof.Machine.exec (.copyBack c) s = execCopyBack c s from rfl, execCopyBack]
  simp [h]

/-- What the return of a lane makes of its group. -/
theorem State.returnLane_eq (s : State) (c : Nat) : ∃ f : Group → Group,
    s.returnLane c = ({ s with comets := s.comets.erase c } : State).modGrp (s.ctx c).blk (s.ctx c).grp f ∧
    ∀ y, (f y).preds = y.preds ∧ (f y).ejected = minusLanes y.ejected (laneBit (s.ctx c).lane) := by
  refine ⟨_, rfl, fun y => ?_⟩
  dsimp only
  split <;> exact ⟨rfl, rfl⟩

/-- The copy-back of a lane before the merges that it completes. -/
theorem State.copied_back {c : Nat} {s : State} (hw : 0 < (s.blk (s.ctx c).blk).width)
    (hg : (s.blk (s.ctx c).blk).groups.has (s.ctx c).grp = true) (hl : (s.ctx c).lane < 64) :
    let x := s.ctx c
    let t := (s.copyRegsBack x).returnLane c
    t.comets.find c = none ∧ hasLane (t.grp x.blk x.grp).ejected x.lane = false ∧
      (∀ r < 64, x.live.getLsbD r = true →
        (t.blk x.blk).vregs.getD ((s.blk x.blk).regKey x.grp r x.lane) 0 = x.vregs.getD r 0) ∧
      ∀ k, 1 ≤ k → k ≤ 7 → hasLane ((t.grp x.blk x.grp).preds.getD k 0) x.lane = x.preds.getD k false := by
  intro x t
  have hb := State.listed_of_groups hg
  obtain ⟨f, hf, hkeep⟩ := (s.copyRegsBack x).returnLane_eq c
  replace hkeep : ∀ y, (f y).preds = y.preds ∧ (f y).ejected = minusLanes y.ejected (laneBit x.lane) := hkeep
  let u := s.modBlk x.blk fun y => (liveRegs x.live).foldl x.putBack y
  have hu : u.blk x.blk = (liveRegs x.live).foldl x.putBack (s.blk x.blk) := s.blk_modBlk_self x.blk _ hb
  have hug : (u.blk x.blk).groups = (s.blk x.blk).groups := by
    rw [hu]
    exact (x.foldl_putBack (s.blk x.blk) (liveRegs x.live) _ rfl).2
  have ht : t = (({ u with comets := u.comets.erase c } : State).modGrp x.blk x.grp fun y => (List.range 7).foldl x.putPair y).modGrp
      x.blk x.grp f := by
    rw [State.copyRegsBack_eq] at hf
    exact hf
  rw [State.modGrp_modGrp] at ht
  have hgrp : t.grp x.blk x.grp = f ((List.range 7).foldl x.putPair (u.grp x.blk x.grp)) := by
    rw [ht, State.grp_modGrp_self]
    · rfl
    · exact (Table.has_modify ..).trans hb
    · show (u.blk x.blk).groups.has x.grp = true
      rwa [hug]
  refine ⟨?_, ?_, fun r hr hlive => ?_, fun k h1 h7 => ?_⟩
  · rw [ht]
    exact Table.find_erase_self ..
  · rw [hgrp, (hkeep _).2, hasLane_minusLanes]
    simp [hasLane_laneBit, show x.lane < 64 from hl]
  · rw [ht, State.blk_modGrp]
    show (u.blk x.blk).vregs.getD _ 0 = _
    rw [hu]
    exact x.getD_putBack hw hr hlive
  · rw [hgrp, (hkeep _).1]
    refine x.getD_putPair hl k _ _ (.inl ?_)
    simp only [List.mem_map, List.mem_range]
    exact ⟨k - 1, by omega, by omega⟩

/-! ## The join timeout (14 R306) -/

theorem State.joinArrival_iff {s : State} {b g : Nat} {y : Split} : s.joinArrival b g y = true ↔
    ∃ e ∈ s.comets, e.2.blk = b ∧ e.2.grp = g ∧ hasLane ((s.grp b g).missing y.cm) e.2.lane = true ∧
      e.2.arrived = some s.now := by
  simp [State.joinArrival, List.any_eq_true, and_assoc]

theorem exec_joinTimeout {b g k : Nat} {s : State} (h : s.timeoutDue b g k = true) :
    Sys2Proof.Machine.exec (.joinTimeout b g k) s = .next (
      if s.joinArrival b g (s.spl b g k) then s.modSpl b g k fun y => { y with joinKept := true }
      else (s.modSpl b g k fun y => { y with parked := true, parkedAt := s.now }).offerBlk b 0x05 g
        (s.grp b g).ejected.toNat (s.grp b g).jto.toNat) := by
  rw [show Sys2Proof.Machine.exec (.joinTimeout b g k) s = execJoinTimeout b g k s from rfl, execJoinTimeout]
  simp only [h, Bool.not_true, Bool.false_eq_true, if_false]
  split <;> rfl

theorem State.waiting_of_timeoutDue {s : State} {b g k : Nat} (h : s.timeoutDue b g k = true) :
    s.hasSplit b g k = true ∧ (s.spl b g k).parked = false ∧ (s.spl b g k).wait = .join := by
  simp only [State.timeoutDue, Group.heldByEjected, Bool.and_eq_true, Bool.not_eq_true', beq_iff_eq] at h
  obtain ⟨⟨⟨⟨h1, h2⟩, ⟨⟨h3, -⟩, -⟩⟩, -⟩, -⟩ := h
  exact ⟨h1, h2, h3⟩

/-- Settles O42: the merge of equal splits, the start of an ejected lane, its copy-back, and the join timeout. -/
theorem splitAndEjectionSteps : Obligations.SplitAndEjectionSteps := by
  refine ⟨?_, ?_, ?_, ?_⟩
  · intro b gr i j s hij hi hj hplain hpc hcm hpriv hstack
    obtain ⟨hb, hg, hki⟩ := State.listed_of_hasSplit hi
    have hmay : s.canMerge b gr i j = true := by
      obtain ⟨hwi, hpi, hai, hti⟩ := hplain i (.inl rfl)
      obtain ⟨hwj, hpj, haj, htj⟩ := hplain j (.inr rfl)
      simp [State.canMerge, Split.plain, hij, hi, hj, hpc, hcm, hpriv, hstack, hwi, hpi, hti, hwj, hpj, htj]
      exact ⟨hai, haj⟩
    refine ⟨_, exec_splitMerge hmay, rfl, ?_⟩
    rw [State.spl_setGrp hb hg, State.grp_setGrp hb hg]
    have hspl : Group.spl { s.grp b gr with
        splits := ((s.grp b gr).splits.modify i ((s.spl b gr j).joinedBy)).erase j } i = (s.spl b gr j).joinedBy (s.spl b gr i) := by
      rw [Group.spl, Table.getD_erase_other _ _ _ _ (Nat.ne_of_lt hij)]
      exact Table.getD_modify_self _ _ _ _ hki
    rw [hspl]
    refine ⟨rfl, rfl, rfl, rfl, Table.find_erase_self .., fun k hk hk' => ?_, ?_⟩
    · exact (Table.find_erase_other _ _ _ hk').trans (Table.find_modify_other _ _ _ _ hk)
    · rw [State.setGrp, State.blk_modGrp]
      rfl
  · intro c s hc hn hb hs
    refine ⟨_, exec_ejectedLaneStart hc hn hb hs, rfl, rfl, fun p hp => s.find_dropLaneCache c hp, ?_, fun k hk => ?_⟩
    · exact State.ctx_modCtx_self (s.dropLaneCache c) c _ hc
    · exact Table.find_modify_other _ _ _ _ hk
  · rintro c s x rfl hready hw hg hl
    obtain ⟨hcomets, hej, hregs, hpreds⟩ := State.copied_back hw hg hl
    have hsame := ((s.copyRegsBack (s.ctx c)).returnLane c).sameLanes_settle (s.ctx c).blk (s.ctx c).grp
    refine ⟨_, exec_copyBack hready, ?_⟩
    rw [hsame.comets, hsame.ejected, hsame.vregs, hsame.preds]
    exact ⟨hcomets, hej, hregs, hpreds⟩
  · intro b gr k s hdue
    obtain ⟨hlisted, hparked, hwait⟩ := State.waiting_of_timeoutDue hdue
    obtain ⟨hb, hg, hk⟩ := State.listed_of_hasSplit hlisted
    refine ⟨_, exec_joinTimeout hdue, ?_⟩
    by_cases ha : s.joinArrival b gr (s.spl b gr k) = true
    · rw [if_pos ha]
      refine ⟨rfl, fun _ => ?_, fun hno => ?_⟩
      · rw [State.spl_modSpl_self hb hg hk]
        exact ⟨hparked, hwait, rfl⟩
      · obtain ⟨e, he, h1, h2, h3, h4⟩ := State.joinArrival_iff.mp ha
        exact absurd h4 (hno e he h1 h2 h3)
    · rw [if_neg ha]
      refine ⟨rfl, fun h => absurd (State.joinArrival_iff.mpr h) ha, fun _ => ⟨?_, _, _, rfl, rfl, rfl, rfl, rfl⟩⟩
      exact State.spl_modSpl_self hb hg hk _

end Sys2Proof.Machine

end


/-!
PROOFS. Special registers, context save and load (spec/03_lane_state.md R78-R80; 13 R290-R292; 14 R301): the statement O34.
-/

section

namespace Sys2Proof.Machine

set_option linter.constructorNameAsVariable false

/-! ## Registers that stay -/

theorem sameRegs.refl (s : State) : sameRegs s s := ⟨fun _ _ => rfl, fun _ => rfl, fun _ _ => rfl⟩

theorem sameRegs.trans {s t u : State} (h : sameRegs s t) (h' : sameRegs t u) : sameRegs s u :=
  ⟨fun m l => (h'.1 m l).trans (h.1 m l), fun m => (h'.2.1 m).trans (h.2.1 m), fun p l => (h'.2.2 p l).trans (h.2.2 p l)⟩

/-- Registers are read from the blocks and the comet contexts. -/
theorem sameRegs.of_units {s t : State} (hf : t.focus = s.focus) (hb : t.blocks = s.blocks) (hc : t.comets = s.comets) :
    sameRegs s t := by
  refine ⟨fun m l => ?_, fun m => ?_, fun p l => ?_⟩
  · simp only [State.rdV, State.blk, State.ctx, hf, hb, hc]
  · simp only [State.rdS, State.grp, State.blk, State.ctx, hf, hb, hc]
  · simp only [State.rdP, State.pairBit, State.grp, State.blk, State.ctx, hf, hb, hc]

theorem sameRegs.modGrp (s : State) (b g : Nat) {f : Group → Group} (hs : ∀ x, (f x).sregs = x.sregs)
    (hp : ∀ x, (f x).preds = x.preds) : sameRegs s (s.modGrp b g f) := by
  have hgrp {β : Type} (p : Group → β) (h : ∀ x, p (f x) = p x) (b' g' : Nat) :
      p ((s.modGrp b g f).grp b' g') = p (s.grp b' g') :=
    Table.proj_getD_modify (fun x : Block => p (x.groups.getD g' Group.empty)) fun _ => Table.proj_getD_modify p h
  refine ⟨fun m l => s.rdV_modGrp .., fun m => ?_, fun p l => ?_⟩
  · simp only [State.rdS, State.modGrp_focus, hgrp Group.sregs hs]
    rfl
  · simp only [State.rdP, State.pairBit, State.modGrp_focus, hgrp Group.preds hp]
    rfl

theorem sameRegs.modCtx (s : State) (c : Nat) {f : Comet → Comet} (hv : ∀ x, (f x).vregs = x.vregs) (hs : ∀ x, (f x).sregs = x.sregs)
    (hp : ∀ x, (f x).preds = x.preds) : sameRegs s (s.modCtx c f) := by
  have hctx {β : Type} (p : Comet → β) (h : ∀ x, p (f x) = p x) (c' : Nat) : p ((s.modCtx c f).ctx c') = p (s.ctx c') :=
    Table.proj_getD_modify p h
  refine ⟨fun m l => ?_, fun m => ?_, fun p l => ?_⟩
  · simp only [State.rdV, State.modCtx_focus, hctx Comet.vregs hv]
    rfl
  · simp only [State.rdS, State.modCtx_focus, hctx Comet.sregs hs]
    rfl
  · simp only [State.rdP, State.pairBit, State.modCtx_focus, hctx Comet.preds hp]
    rfl

theorem sameRegs.setPc (s : State) (v : Dword) : sameRegs s (s.setPc v) := by
  unfold State.setPc
  split
  · exact .modGrp _ _ _ (fun _ => rfl) fun _ => rfl
  · exact .modCtx _ _ (fun _ => rfl) (fun _ => rfl) fun _ => rfl
  · exact .refl s

theorem sameRegs.skip (s : State) (n : Nat) : sameRegs s (s.skip n) := .setPc s _

/-! ## MFS -/

theorem hasLane_of_mem_execs {s : State} {g : Pred} {l : Nat} (h : l ∈ s.execs g) : hasLane s.lanes l = true :=
  ((exec_lanes s g l).mp h).1

theorem State.execs_nodup (s : State) (g : Pred) : (s.execs g).Nodup := List.Nodup.filter _ List.nodup_range

/-- MFS of a register of 32 bits: every executing lane gets its value. -/
theorem exec_mfs {g : Pred} {d : Reg} {n : SpecReg} {s : State} (hm : s.mayIssue (.mfs g d n) g = true)
    (hp : n = .accown → s.privileged = true) (hn : n ≠ .clk) : ∃ t, Sys2Proof.Machine.exec (.mfs g d n) s = .next t ∧
      t.pc = s.pc + 4 ∧ RegsOnly (s.execs g) [d.toNat] [] [] s t ∧ ∀ l ∈ s.execs g, t.rdV d.toNat l = s.special n l := by
  have hs := issuing_of_mayIssue hm
  refine ⟨(s.putLanes (s.execs g) fun t l => t.wrV d.toNat l (s.special n l)).skip 4, ?_, ?_, ?_, fun l hl => ?_⟩
  · rw [show Sys2Proof.Machine.exec (.mfs g d n) s = execMfs g d n s from rfl, execMfs, laneRun_of_mayIssue hm, if_neg, if_neg]
    · rfl
    · simpa using hn
    · simpa using hp
  · rw [State.pc_skip (by simpa using hs), State.pc_putLanes_wrV]
    rfl
  · exact .setPc (.putLanes (.refl ..) hs (m := fun _ => d.toNat) (l := fun l => l) (by simp) (by simp) _) (by simpa using hs) _
  · rw [State.rdV_skip, s.rdV_putLanes hs _ (s.execs_nodup g) (fun _ => hasLane_of_mem_execs) _ _ _ _
      (hasLane_of_mem_execs hl), if_pos ⟨rfl, hl⟩]

/-- Writing a pair of the frame in each lane of a list keeps the frame. -/
theorem RegsOnly.putLanes_pair {ls D U P : List Nat} {s t : State} (h : RegsOnly ls D U P s t) (ht : t.issuing = true) {ns : List Nat}
    {d : Nat} (hd : d ∈ D) (hd' : d + 1 ∈ D) (hl : ∀ l ∈ ns, l ∈ ls) (v : Nat → Dword) :
    RegsOnly ls D U P s (t.putLanes ns fun u l => u.wrVPair d l (v l)) := by
  induction ns generalizing t with
  | nil => exact h
  | cons n ns ih =>
    have hn := hl n List.mem_cons_self
    rw [State.putLanes_cons]
    exact ih ((h.wrV ht hd hn _).wrV (by simpa using ht) hd' hn _) (by simpa [State.wrVPair] using ht)
      fun j hj => hl j (List.mem_cons_of_mem _ hj)

/-- A pair written in each active lane of a list reads as it was written. -/
theorem State.rdVPair_putLanes {s : State} (h : s.issuing = true) {ls : List Nat} (hn : ls.Nodup)
    (hl : ∀ l ∈ ls, hasLane s.lanes l = true) (d : Nat) (v : Nat → Dword) {l : Nat} (hmem : l ∈ ls) :
    (s.putLanes ls fun t l => t.wrVPair d l (v l)).rdVPair d l = v l := by
  have hread := s.rdV_putLanes2 h ls hn hl d (d + 1) (by simp) (fun l => lowWord (v l)) (fun l => highWord (v l))
  simp only [State.rdVPair, State.wrVPair, hread _ _ (hl l hmem), hmem, and_true, if_true, Nat.succ_ne_self, if_false]
  exact pairVal_lowWord_highWord _

/-- MFS of CLK: every executing lane gets the clock counter in a pair. -/
theorem exec_mfs_clk {g : Pred} {d : Reg} {s : State} (hm : s.mayIssue (.mfs g d .clk) g = true) :
    ∃ t, Sys2Proof.Machine.exec (.mfs g d .clk) s = .next t ∧ t.pc = s.pc + 4 ∧
      RegsOnly (s.execs g) [d.toNat, d.toNat + 1] [] [] s t ∧
      ∀ l ∈ s.execs g, t.rdVPair d.toNat l = BitVec.ofNat 64 s.now := by
  have hs := issuing_of_mayIssue hm
  have hi : (s.putLanes (s.execs g) fun t l => t.wrVPair d.toNat l (BitVec.ofNat 64 s.now)).issuing = true :=
    (State.putLanes_proj State.issuing _ _ _ fun _ _ => by simp [State.wrVPair]).trans hs
  refine ⟨(s.putLanes (s.execs g) fun t l => t.wrVPair d.toNat l (BitVec.ofNat 64 s.now)).skip 4, ?_, ?_,
    .setPc (.putLanes_pair (.refl ..) hs (by simp) (by simp) (fun _ h => h) _) hi _, fun l hl => ?_⟩
  · rw [show Sys2Proof.Machine.exec (.mfs g d .clk) s = execMfs g d .clk s from rfl, execMfs, laneRun_of_mayIssue hm]
    rfl
  · rw [State.pc_skip hi, State.putLanes_proj State.pc _ _ _ fun _ _ => by simp [State.wrVPair]]
    rfl
  · rw [State.rdVPair, State.rdV_skip, State.rdV_skip]
    exact State.rdVPair_putLanes hs (s.execs_nodup g) (fun _ => hasLane_of_mem_execs) d.toNat (fun _ => BitVec.ofNat 64 s.now) hl

/-! ## MTS -/

/-- The write of MTS. -/
def State.writeSpecial (s : State) (n : SpecReg) (x : Word) : State :=
  match n with
  | .ejt => s.setEjt x
  | .jto => s.setJto x
  | _ => s.writeAcc s.unitBlk (s.blk s.unitBlk).facet (x &&& 0x8000FFFF)

theorem exec_mts {g : Pred} {a : Reg} {n : SpecReg} {s : State} (hm : s.mayIssue (.mts g a n) g = true)
    (hp : n = .accown → s.privileged = true ∧ s.onComet = false) :
    Sys2Proof.Machine.exec (.mts g a n) s = .next (
      if s.exec g = 0 then s.skip 4 else (s.writeSpecial n (s.rdV a.toNat (lowestLane (s.exec g)))).skip 4) := by
  have hmay : ¬ (n == .accown && (!s.privileged || s.onComet)) = true := by
    by_cases h : n = .accown
    · simp [hp h]
    · simp [h]
  rw [show Sys2Proof.Machine.exec (.mts g a n) s = execMts g a n s from rfl, execMts, laneRun_of_mayIssue hm, if_neg hmay]
  split
  · rfl
  · cases n <;> rfl

theorem State.pc_skip4 {s : State} (h : s.issuing = true) : (s.skip 4).pc = s.pc + 4 := State.pc_skip h 4

theorem State.facets_setPc (s : State) (v : Dword) : (s.setPc v).facets = s.facets := by
  unfold State.setPc
  split <;> rfl

/-- A change of the group of a split that leaves the splits alone, and then the next instruction. -/
theorem State.skip_modGrp {s : State} {b g k : Nat} (hf : s.focus = .split b g k) (hi : s.issuing = true) {f : Group → Group}
    (hs : ∀ x, (f x).splits = x.splits) (n : Nat) : (s.modGrp b g f).skip n =
      s.modGrp b g fun x => (f x).modSpl k (Split.readyAt (s.pc + BitVec.ofNat 64 n)) := by
  obtain ⟨hb, hg, -⟩ := State.listed_of_issuing hf hi
  have hpc : (s.modGrp b g f).pc = s.pc := by
    simp only [State.pc, State.modGrp_focus, hf, State.spl_modGrp_self hb hg, Group.spl, hs]
    rfl
  rw [State.skip, hpc, State.setPc_of_split (by rw [State.modGrp_focus]; exact hf), State.modSpl, State.modGrp_modGrp]

/-- A change of the context of an ejected lane that leaves its PC alone, and then the next instruction. -/
theorem State.skip_modCtx {s : State} {c : Nat} (hf : s.focus = .comet c) (hi : s.issuing = true) {f : Comet → Comet}
    (hs : ∀ x, (f x).pc = x.pc) (n : Nat) : (s.modCtx c f).skip n =
      s.modCtx c fun x => (f x).readyAt (s.pc + BitVec.ofNat 64 n) := by
  have hc := State.listed_of_issuing_comet hf hi
  have hpc : (s.modCtx c f).pc = s.pc := by
    simp only [State.pc, State.modCtx_focus, hf, s.ctx_modCtx_self c f hc, hs]
  rw [State.skip, hpc, State.setPc_of_comet (by rw [State.modCtx_focus]; exact hf), State.modCtx, State.modCtx]
  simp only [Table.modify_modify]
  rfl

/-- MTS of EJT or JTO of a group. -/
theorem mts_grp {s : State} {b g k : Nat} (hf : s.focus = .split b g k) (hi : s.issuing = true) {f : Group → Group}
    (hs : ∀ x, (f x).splits = x.splits) (hr : ∀ x, (f x).sregs = x.sregs) (hp : ∀ x, (f x).preds = x.preds) :
    let t := (s.modGrp b g f).skip 4
    t.pc = s.pc + 4 ∧ sameRegs s t ∧ t.mem = s.mem ∧ t.facets = s.facets ∧
      ∃ l, t.grp b g = { f (s.grp b g) with splits := l } := by
  obtain ⟨hb, hg, hk⟩ := State.listed_of_issuing hf hi
  intro t
  have ht : t = s.modGrp b g fun x => (f x).modSpl k (Split.readyAt (s.pc + 4)) := State.skip_modGrp hf hi hs 4
  have hspl : t.spl b g k = Split.readyAt (s.pc + 4) (s.spl b g k) := by
    rw [ht, State.spl_modGrp_self hb hg, Group.spl_modSpl_self (by rwa [hs]), Group.spl, hs]
    rfl
  refine ⟨?_, ?_, ?_, ?_, ?_⟩
  · rw [State.pc, show t.focus = .split b g k by rw [ht, State.modGrp_focus, hf]]
    exact congrArg Split.pc hspl
  · rw [ht]
    exact .modGrp _ _ _ hr hp
  · rw [ht]
    rfl
  · rw [ht]
    rfl
  · rw [ht, State.grp_modGrp_self hb hg]
    exact ⟨_, rfl⟩

/-- MTS of EJT or JTO of an ejected lane. -/
theorem mts_ctx {s : State} {c : Nat} (hf : s.focus = .comet c) (hi : s.issuing = true) {f : Comet → Comet}
    (hs : ∀ x, (f x).pc = x.pc) (hv : ∀ x, (f x).vregs = x.vregs) (hr : ∀ x, (f x).sregs = x.sregs)
    (hp : ∀ x, (f x).preds = x.preds) :
    let t := (s.modCtx c f).skip 4
    t.pc = s.pc + 4 ∧ sameRegs s t ∧ t.mem = s.mem ∧ t.blocks = s.blocks ∧
      t.ctx c = (f (s.ctx c)).readyAt (s.pc + 4) := by
  have hc := State.listed_of_issuing_comet hf hi
  intro t
  have ht : t = s.modCtx c fun x => (f x).readyAt (s.pc + 4) := State.skip_modCtx hf hi hs 4
  have hctx : t.ctx c = (f (s.ctx c)).readyAt (s.pc + 4) := by rw [ht, s.ctx_modCtx_self c _ hc]
  refine ⟨?_, ?_, ?_, ?_, hctx⟩
  · rw [State.pc, show t.focus = .comet c by rw [ht, State.modCtx_focus, hf]]
    exact congrArg Comet.pc hctx
  · rw [ht]
    exact .modCtx _ _ hv hr hp
  · rw [ht]
    rfl
  · rw [ht]
    rfl

/-- A write of ACCOWN changes its facet, and offers at most an event. -/
theorem State.writeAcc_eq (s : State) (b f : Nat) (v : Word) : ∃ F T, s.writeAcc b f v = { s with facets := F, taps := T } ∧
    (s.writeAcc b f v).facet f = { (s.writeAcc b f v).facet f with accown := v } ∧
    ∀ f', f' ≠ f → (s.writeAcc b f v).facet f' = s.facet f' := by
  unfold State.writeAcc State.clearStats
  dsimp only
  repeat' split
  all_goals
    refine ⟨_, _, rfl, ?_, fun f' h => ?_⟩
    · rw [State.facet, State.modFacet, Table.getD_set_self]
    · simp [State.facet, State.modFacet, State.offerBlk, State.offer, Table.getD_set_other _ _ _ _ _ h]

theorem mfs_spec (g : Pred) (d : Reg) (n : SpecReg) (s : State) (hm : s.mayIssue (.mfs g d n) g = true)
    (hp : n = .accown → s.privileged = true) : ∃ t : State, Sys2Proof.Machine.exec (.mfs g d n) s = .next t ∧
      t.pc = s.pc + 4 ∧ RegsOnly (s.execs g) (if n = .clk then [d.toNat, d.toNat + 1] else [d.toNat]) [] [] s t ∧
      (n = .clk → ∀ l ∈ s.execs g, t.rdVPair d.toNat l = BitVec.ofNat 64 s.now) ∧
      (n ≠ .clk → ∀ l ∈ s.execs g, t.rdV d.toNat l = s.special n l) := by
  by_cases hn : n = .clk
  · subst hn
    obtain ⟨t, hx, hpc, hr, hv⟩ := exec_mfs_clk hm
    exact ⟨t, hx, hpc, hr, fun _ => hv, fun h => absurd rfl h⟩
  · obtain ⟨t, hx, hpc, hr, hv⟩ := exec_mfs hm hp hn
    exact ⟨t, hx, hpc, by rwa [if_neg hn], fun h => absurd h hn, fun _ => hv⟩

theorem State.writeSpecial_of_split {s : State} {b g k : Nat} (hf : s.focus = .split b g k) (x : Word) :
    s.writeSpecial .ejt x = (s.modGrp b g fun y => { y with ejt := BitVec.ofNat 32 (min x.toNat 8) }) ∧
      s.writeSpecial .jto x = (s.modGrp b g fun y => { y with jto := x }) := by
  simp only [State.writeSpecial, State.setEjt, State.setJto, State.unitBlk, State.unitGrp, hf, and_self]

theorem State.writeSpecial_of_comet {s : State} {c : Nat} (hf : s.focus = .comet c) (x : Word) :
    s.writeSpecial .ejt x = (s.modCtx c fun y => { y with ejt := BitVec.ofNat 32 (min x.toNat 8) }) ∧
      s.writeSpecial .jto x = (s.modCtx c fun y => { y with jto := x }) := by
  simp only [State.writeSpecial, State.setEjt, State.setJto, hf, and_self]

theorem exec_mts_of_exec {g : Pred} {a : Reg} {n : SpecReg} {s : State} (hm : s.mayIssue (.mts g a n) g = true)
    (hx : s.exec g ≠ 0) (hp : n = .accown → s.privileged = true ∧ s.onComet = false) : Sys2Proof.Machine.exec (.mts g a n) s =
      .next ((s.writeSpecial n (s.rdV a.toNat (lowestLane (s.exec g)))).skip 4) := by
  rw [exec_mts hm hp, if_neg hx]

/-- MTS of ACCOWN in privileged code of a split. -/
theorem mts_accown {s : State} {b g k : Nat} (hf : s.focus = .split b g k) (hi : s.issuing = true) (x : Word) :
    let t := (s.writeSpecial .accown x).skip 4
    t.pc = s.pc + 4 ∧ sameRegs s t ∧ t.mem = s.mem ∧ (t.facet (s.blk b).facet).accown = x &&& 0x8000FFFF ∧
      ∀ f, f ≠ (s.blk b).facet → t.facet f = s.facet f := by
  intro t
  obtain ⟨F, T, he, hself, hother⟩ := s.writeAcc_eq b (s.blk b).facet (x &&& 0x8000FFFF)
  have hw : s.writeSpecial .accown x = s.writeAcc b (s.blk b).facet (x &&& 0x8000FFFF) := by
    simp only [State.writeSpecial, State.unitBlk, hf]
  have ht : t = (s.writeAcc b (s.blk b).facet (x &&& 0x8000FFFF)).skip 4 := by rw [← hw]
  have hfac (f : Nat) : t.facet f = (s.writeAcc b (s.blk b).facet (x &&& 0x8000FFFF)).facet f := by
    rw [ht, State.facet, State.skip, State.facets_setPc, State.facet]
  refine ⟨?_, ?_, ?_, ?_, fun f h => (hfac f).trans (hother f h)⟩
  · rw [ht, he]
    exact State.pc_skip4 hi
  · rw [ht, he]
    exact (sameRegs.of_units rfl rfl rfl).trans (.skip ..)
  · rw [ht, he]
    simp [State.skip]
  · rw [hfac, hself]

/-! ## What CTXSV and CTXLD leave alone -/

/-- The state besides the memory system and what an access of a unit leaves there: the translations' use, counts and faults. -/
def State.asideAccess (s : State) : State := { s.aside with counters := [], vfs := [], walkFaults := [], outs := [] }

theorem State.asideAccess_of_aside {s t : State} (h : t.aside = s.aside) : t.asideAccess = s.asideAccess :=
  congrArg (fun u : State => { u with counters := [], vfs := [], walkFaults := [], outs := [] }) h

theorem State.asideAccess_useEntry (s : State) (p : Site) (e : TlbEntry) (l1 : Bool) :
    (s.useEntry p e l1).asideAccess = s.asideAccess := by
  unfold State.useEntry
  split
  · rfl
  · dsimp only; split <;> rfl

theorem State.asideAccess_useHits (s : State) (wr : Bool) (hs : List Hit) : (s.useHits wr hs).asideAccess = s.asideAccess := by
  refine State.foldl_keeps State.asideAccess _ (fun t y => ?_) hs s
  dsimp only
  split
  · exact (State.asideAccess_of_aside (State.aside_setDirty ..)).trans (t.asideAccess_useEntry ..)
  · exact t.asideAccess_useEntry ..

theorem State.mem_useHits_read (s : State) (hs : List Hit) : (s.useHits false hs).mem = s.mem :=
  State.foldl_keeps State.mem _ (fun t _ => t.mem_useEntry ..) hs s

/-- The state with other counts and requests of the channels. -/
def State.withCharges (s : State) (a b : Table Nat) (c : List (Asker × Nat × Nat)) : State :=
  { s with charges := a, served := b, asks := c }

/-- Charging accesses changes what the channels count and hold. -/
theorem State.chargeUnit_eq (s : State) (xs : List (Nat × Nat)) : ∃ a b c, s.chargeUnit xs = s.withCharges a b c := by
  refine List.foldlRecOn (motive := fun t : State => ∃ a b c, t = s.withCharges a b c) xs _ ⟨_, _, _, rfl⟩ fun t ht x _ => ?_
  obtain ⟨a, b, c, rfl⟩ := ht
  unfold State.chargeFor State.charge
  dsimp only
  split <;> exact ⟨_, _, _, rfl⟩

theorem State.chargeImage_chargeImage (s : State) (f : Nat → Nat) (r r' : List (Nat × Nat)) :
    ∃ a b c, (s.chargeImage f r).chargeImage f r' = s.withCharges a b c := by
  obtain ⟨x, y, z, h⟩ := s.chargeUnit_eq (r.flatMap fun r => (List.range (ceilDiv r.2 32)).map fun i => (f (r.1 + 32 * i), 32))
  obtain ⟨x', y', z', h'⟩ := (s.chargeImage f r).chargeUnit_eq
    (r'.flatMap fun r => (List.range (ceilDiv r.2 32)).map fun i => (f (r.1 + 32 * i), 32))
  refine ⟨x', y', z', h'.trans ?_⟩
  rw [State.chargeImage, h]
  rfl

theorem checkGlobal_of_aligned {s : State} {l size : Nat} {h : Dword} (ha : h.toNat % size = 0) (hr : h.toNat < 2 ^ 52) :
    s.checkGlobal [l] size (fun _ => h) = none := by
  simp [State.checkGlobal, failOf, ha, Nat.not_le.mpr (show h.toNat < 4503599627370496 from hr)]

section
variable {i : Instr} {g : Pred} {a : Reg} {s : State} (hm : s.mayIssue i g = true) (hp : s.privileged = true)
  (early : State → Mask → Dword → Option State) (body : State → Mask → Dword → State)
include hm hp

theorem ctxRun_of_no_lane (hx : s.exec g = 0) : ctxRun i g a s early body = .next (s.setPc (s.pc + 4)) := by
  rw [ctxRun, laneRun_of_mayIssue hm]
  simp only [hp, hx, Bool.not_true, Bool.false_eq_true, if_false, if_true]
  rfl

variable (hx : s.exec g ≠ 0) (hb : s.anyBusy (s.execs g) = false)
  (h64 : (s.rdVPair a.toNat (lowestLane (s.exec g))).toNat % 64 = 0)
  (h52 : (s.rdVPair a.toNat (lowestLane (s.exec g))).toNat < 2 ^ 52)
include hx hb h64 h52

theorem ctxRun_of_early {u : State} (he : early s (s.exec g) (s.rdVPair a.toNat (lowestLane (s.exec g))) = some u) :
    ctxRun i g a s early body = .next u := by
  rw [State.execs] at hb
  rw [ctxRun, laneRun_of_mayIssue hm]
  simp only [hp, hx, hb, he, checkGlobal_of_aligned h64 h52, Bool.not_true, Bool.false_eq_true, if_false]

theorem ctxRun_of_body (he : early s (s.exec g) (s.rdVPair a.toNat (lowestLane (s.exec g))) = none) :
    ctxRun i g a s early body = .next (body s (s.exec g) (s.rdVPair a.toNat (lowestLane (s.exec g)))) := by
  rw [State.execs] at hb
  rw [ctxRun, laneRun_of_mayIssue hm]
  simp only [hp, hx, hb, he, checkGlobal_of_aligned h64 h52, Bool.not_true, Bool.false_eq_true, if_false]

end

/-! ## CTXSV -/

/-- What frees the held tiles of a facet leaves of it. -/
theorem Facet.freed (x : Facet) : x.freeHeld.clearAcc.held = [] ∧ x.freeHeld.clearAcc.accV = false ∧
    x.freeHeld.clearAcc.accCtx = x.accCtx := by
  refine ⟨rfl, ?_, ?_⟩
  · simp only [Facet.accV, Facet.clearAcc, Facet.freeHeld, BitVec.getLsbD_and]
    rw [show (0x7FFFFFFF : Word).getLsbD 31 = false from rfl, Bool.and_false]
  · have hn : (0x7FFFFFFF : Word).toNat = 2 ^ 31 - 1 := rfl
    simp only [Facet.accCtx, Facet.clearAcc, Facet.freeHeld, BitVec.toNat_and, hn, Nat.and_two_pow_sub_one_eq_mod]
    omega

theorem State.aside_dropOthers (s : State) (th : Thread) (used : Option Nat) (ws : List Nat) :
    (s.dropOthers th used ws).aside = s.aside := by
  cases th <;> rfl

/-- The units stay where the state besides accesses stays. -/
theorem State.units_of_asideAccess {s t : State} (h : t.asideAccess = s.asideAccess) :
    t.focus = s.focus ∧ t.blocks = s.blocks ∧ t.comets = s.comets ∧ t.facets = s.facets :=
  ⟨(congrArg State.focus h :), (congrArg State.blocks h :), (congrArg State.comets h :), (congrArg State.facets h :)⟩

theorem State.units_of_aside {s t : State} {l : List Armed} (h : t.aside = { s.aside with armed := l }) :
    t.focus = s.focus ∧ t.blocks = s.blocks ∧ t.comets = s.comets ∧ t.facets = s.facets :=
  ⟨(congrArg State.focus h :), (congrArg State.blocks h :), (congrArg State.comets h :), (congrArg State.facets h :)⟩

/-- The spill of a facet: the cells written, the tiles freed. -/
theorem State.spill_spec (s : State) (f : Nat → Nat) (fx vf : Nat) :
    (s.spill f fx vf).focus = s.focus ∧ (s.spill f fx vf).blocks = s.blocks ∧ (s.spill f fx vf).comets = s.comets ∧
      (s.spill f fx vf).mem = (s.commit (s.spillCells f fx) none vf).mem ∧
      (s.spill f fx vf).facets = s.facets.set fx (s.facet fx).freeHeld.clearAcc := by
  have h := s.aside_commit (s.spillCells f fx) vf .usual
  simp only [State.spill]
  generalize s.commit (s.spillCells f fx) none vf = w at h ⊢
  obtain ⟨hfoc, hblk, hcom, hfac⟩ := State.units_of_aside h
  refine ⟨hfoc, hblk, hcom, rfl, ?_⟩
  rw [State.modFacet, State.facet, hfac]
  rfl

theorem State.unitBlk_congr {s t : State} (hf : t.focus = s.focus) (hc : t.comets = s.comets) : t.unitBlk = s.unitBlk := by
  simp only [State.unitBlk, State.ctx, hf, hc]

theorem State.issuing_congr {s t : State} (hf : t.focus = s.focus) (hb : t.blocks = s.blocks) (hc : t.comets = s.comets) :
    t.issuing = s.issuing := by
  simp only [State.issuing, State.hasSplit, hf, hb, hc]

theorem State.pc_congr {s t : State} (hf : t.focus = s.focus) (hb : t.blocks = s.blocks) (hc : t.comets = s.comets) :
    t.pc = s.pc := by
  simp only [State.pc, State.spl, State.grp, State.blk, State.ctx, hf, hb, hc]

/-- The spill of CTXSV: the words that the lanes' other caches drop, and the next instruction. -/
def State.spillFor (s c : State) (m : Mask) (map : Nat → Nat) : State :=
  ((lanesOf m).foldl (fun x l => x.dropOthers (s.threadOf l) none (cellWords (s.spillCells map s.unitFacet)))
    (c.spill map c.unitFacet (c.blk c.unitBlk).vf)).skip 4

/-- CTXSV on an image that takes the spill. -/
theorem State.ctxSave_of_fits {s : State} {m : Mask} {h : Dword} {rd wr : List Hit}
    (hread : s.imageRead m h.toNat = .ok rd) (hfits : s.spillFits (imageMap h.toNat rd) = true)
    (htake : s.imageTake true (lowestLane m) h.toNat (s.spillWrites (imageMap h.toNat rd) s.unitFacet) = .ok wr) :
    ∃ x y z, s.ctxSave m h = s.spillFor (((s.useHits false rd).useHits true wr).withCharges x y z) m
      (imageMap h.toNat (wr ++ rd)) := by
  obtain ⟨x, y, z, hc⟩ := ((s.useHits false rd).useHits true wr).chargeImage_chargeImage (imageMap h.toNat (wr ++ rd))
    (s.imgReads (imageMap h.toNat rd)) (s.spillWrites (imageMap h.toNat rd) s.unitFacet)
  refine ⟨x, y, z, ?_⟩
  rw [State.ctxSave, hread]
  simp only [hfits, htake, hc, Bool.not_true, Bool.false_eq_true, if_false]
  rfl

/-- What CTXSV leaves when its image takes the spill. -/
theorem State.spillFor_spec {s c : State} {m : Mask} (map : Nat → Nat) (hi : s.issuing = true)
    (hc : c.focus = s.focus ∧ c.blocks = s.blocks ∧ c.comets = s.comets ∧ c.facets = s.facets) :
    let t := s.spillFor c m map
    t.pc = s.pc + 4 ∧ sameRegs s t ∧ t.mem = (c.commit (c.spillCells map s.unitFacet) none (s.blk s.unitBlk).vf).mem ∧
      t.facets = s.facets.set s.unitFacet (s.facet s.unitFacet).freeHeld.clearAcc := by
  intro t
  obtain ⟨hfc, hbc, hcc, hac⟩ := hc
  have hunit : c.unitBlk = s.unitBlk := State.unitBlk_congr hfc hcc
  have hblk : c.blk c.unitBlk = s.blk s.unitBlk := by rw [hunit, State.blk, hbc, ← State.blk]
  have hfacet : c.unitFacet = s.unitFacet := congrArg Block.facet hblk
  obtain ⟨hf, hb, hcm, hmem, hfac⟩ := c.spill_spec map s.unitFacet (s.blk s.unitBlk).vf
  let v := c.spill map s.unitFacet (s.blk s.unitBlk).vf
  let w := (lanesOf m).foldl (fun x l => x.dropOthers (s.threadOf l) none (cellWords (s.spillCells map s.unitFacet))) v
  have ht : t = w.skip 4 := by
    show s.spillFor c m map = _
    rw [State.spillFor, hblk, hfacet]
  have haside : w.aside = v.aside := State.foldl_keeps State.aside _ (fun x l => x.aside_dropOthers ..) _ _
  obtain ⟨hfw, hbw, hcw, haw⟩ := State.units_of_asideAccess (State.asideAccess_of_aside haside)
  have hmemw : w.mem = v.mem := State.mem_foldl _ (fun x l => by simp) _ _
  have hfoc := hfw.trans (hf.trans hfc)
  have hblocks := hbw.trans (hb.trans hbc)
  have hcomets := hcw.trans (hcm.trans hcc)
  rw [ht]
  refine ⟨?_, (sameRegs.of_units hfoc hblocks hcomets).trans (.skip ..), ?_, ?_⟩
  · rw [State.pc_skip4 ((State.issuing_congr hfoc hblocks hcomets).trans hi), State.pc_congr hfoc hblocks hcomets]
  · rw [State.skip, State.setPc_mem, hmemw]
    exact hmem
  · rw [State.skip, State.facets_setPc, haw]
    refine hfac.trans ?_
    rw [State.facet, hac]
    rfl

theorem State.spillCells_withCharges (u : State) (x y : Table Nat) (z : List (Asker × Nat × Nat)) (f : Nat → Nat) (fx : Nat) :
    (u.withCharges x y z).spillCells f fx = u.spillCells f fx := rfl

theorem State.mem_commit_withCharges (u : State) (x y : Table Nat) (z : List (Asker × Nat × Nat)) (cs : List Host.Cell) (vf : Nat) :
    ((u.withCharges x y z).commit cs none vf).mem = (u.commit cs none vf).mem :=
  State.mem_commit_congr (s := u) (t := u.withCharges x y z) rfl rfl cs vf .usual

/-- CTXSV on an image that takes the spill: the held tiles are in the image, and the facet holds none. -/
theorem State.ctxSave_spec {s : State} {m : Mask} {h : Dword} {rd wr : List Hit} (hi : s.issuing = true)
    (hread : s.imageRead m h.toNat = .ok rd) (hfits : s.spillFits (imageMap h.toNat rd) = true)
    (htake : s.imageTake true (lowestLane m) h.toNat (s.spillWrites (imageMap h.toNat rd) s.unitFacet) = .ok wr) :
    let t := s.ctxSave m h
    let u := (s.useHits false rd).useHits true wr
    let fx := s.unitFacet
    t.pc = s.pc + 4 ∧ sameRegs s t ∧
      t.mem = (u.commit (u.spillCells (imageMap h.toNat (wr ++ rd)) fx) none (s.blk s.unitBlk).vf).mem ∧
      (t.facet fx).held = [] ∧ (t.facet fx).accV = false ∧ (t.facet fx).accCtx = (s.facet fx).accCtx ∧
      ∀ f, f ≠ fx → t.facet f = s.facet f := by
  intro t u fx
  obtain ⟨x, y, z, ht⟩ := State.ctxSave_of_fits hread hfits htake
  have hu := State.units_of_asideAccess
    ((State.asideAccess_useHits (s.useHits false rd) true wr).trans (s.asideAccess_useHits false rd))
  obtain ⟨hpc, hr, hmem, hfac⟩ := State.spillFor_spec (c := u.withCharges x y z) (m := m) (imageMap h.toNat (wr ++ rd)) hi hu
  obtain ⟨hheld, hacc, hctx⟩ := (s.facet fx).freed
  have hfx : t.facet fx = (s.facet fx).freeHeld.clearAcc := by
    show (s.ctxSave m h).facet fx = _
    rw [ht, State.facet, hfac, Table.getD_set_self]
  rw [State.spillCells_withCharges, State.mem_commit_withCharges] at hmem
  refine ⟨?_, ?_, ?_, (congrArg Facet.held hfx).trans hheld, (congrArg Facet.accV hfx).trans hacc,
    (congrArg Facet.accCtx hfx).trans hctx, fun f hf => ?_⟩
  · exact (congrArg State.pc ht).trans hpc
  · show sameRegs s (s.ctxSave m h)
    rw [ht]
    exact hr
  · exact (congrArg State.mem ht).trans hmem
  · show (s.ctxSave m h).facet f = _
    rw [ht, State.facet, hfac, Table.getD_set_other _ _ _ _ _ hf]
    rfl

/-! ## CTXLD -/

/-- What a load of a bank leaves of a block. -/
theorem Block.zeroBank_keeps {β : Type} (p : Block → β) (hp : ∀ x t r v, p { x with tiles := t, poisonRegs := r, vregs := v } = p x)
    (x : Block) : p x.zeroBank = p x := by
  refine List.foldlRecOn (motive := fun y : Block => p y = p x) _ _ rfl fun y hy h _ => ?_
  rw [← hy]
  exact hp y _ _ _

theorem Block.putTile_keeps {β : Type} (p : Block → β) (hp : ∀ x t r v, p { x with tiles := t, poisonRegs := r, vregs := v } = p x)
    (x : Block) (t : Nat) (ws : List Word) : p (x.putTile t ws) = p x := by
  refine List.foldlRecOn (motive := fun y : Block => p y = p x) _ _ rfl fun y hy e _ => ?_
  rw [← hy]
  exact hp y y.tiles _ _

theorem Block.fillBank_keeps {β : Type} (p : Block → β) (hp : ∀ x t r v, p { x with tiles := t, poisonRegs := r, vregs := v } = p x)
    (x : Block) (ts : List (Nat × TileState × List Word)) : p (x.fillBank ts) = p x := by
  unfold Block.fillBank
  dsimp only
  refine (hp _ _ _ _).trans ?_
  refine List.foldlRecOn (motive := fun y : Block => p y = p x) _ _ (x.zeroBank_keeps p hp) fun y hy e _ => ?_
  rw [Block.putTile_keeps p hp, ← hy]
  exact hp y _ y.poisonRegs y.vregs

/-- A load changes the tiles and the registers of its block alone. -/
theorem State.loadBank_eq (s : State) (f : Nat → Nat) (b : Nat) : ∃ F : Block → Block, s.loadBank f b = s.modBlk b F ∧
    (∀ {β : Type} (p : Block → β), (∀ x t r v, p { x with tiles := t, poisonRegs := r, vregs := v } = p x) →
      ∀ x, p (F x) = p x) ∧
    (s.imgOwned f = none → F = Block.zeroBank) := by
  refine ⟨_, rfl, fun p hp x => ?_, fun h => by simp only [h]⟩
  dsimp only
  split
  · exact x.zeroBank_keeps p hp
  · exact x.fillBank_keeps p hp _

theorem Table.find_keep_key {α : Type} (t : Table α) (p : Nat → Bool) (i : Nat) :
    (t.keep fun k _ => p k).find i = if p i = true then t.find i else none := by
  induction t with
  | nil => simp [Table.keep, Table.find]
  | cons e t ih =>
    obtain ⟨k, v⟩ := e
    rw [Table.keep] at ih ⊢
    by_cases hk : k = i
    · subst hk
      by_cases hp : p k = true
      · simp [hp, Table.find]
      · rw [if_neg hp] at ih ⊢
        simpa [List.filter_cons, hp] using ih
    · by_cases hp : p k = true
      · simpa [List.filter_cons, hp, Table.find, hk] using ih
      · simpa [List.filter_cons, hp, Table.find, hk] using ih

/-- A tile of a block is zero and the sequencer's, of column 0. -/
def Block.Fresh (x : Block) (h : Nat) : Prop :=
  (∀ n < 64, x.tileWord (seqTile h) n = 0) ∧ x.tile (seqTile h) = .owned (.seqCol 0)

/-- A tile of the sequencer at its launch state. -/
def Block.zeroTile (y : Block) (h : Nat) : Block :=
  { y.setTile (seqTile h) (.owned (.seqCol 0)) with
    poisonRegs := y.poisonRegs.filter fun k => k / 64 != seqTile h
    vregs := y.vregs.keep fun k _ => !(64 * seqTile h ≤ k && k < 64 * seqTile h + 64) }

theorem Block.fresh_zeroTile (y : Block) {a h : Nat} (hf : h = a ∨ y.Fresh h) : (y.zeroTile a).Fresh h := by
  have hword (n : Nat) := Table.find_keep_key y.vregs (fun k => !(64 * seqTile a ≤ k && k < 64 * seqTile a + 64))
    (64 * seqTile h + n)
  by_cases he : h = a
  · subst he
    refine ⟨fun n hn => ?_, Table.getD_set_self ..⟩
    rw [Block.tileWord, Table.getD, Block.zeroTile, hword, if_neg (by simp [hn])]
    rfl
  · obtain ⟨hz, ht⟩ := hf.resolve_left he
    refine ⟨fun n hn => ?_, (Table.getD_set_other _ _ _ _ _ (by simp [seqTile, he])).trans ht⟩
    rw [Block.tileWord, Table.getD, Block.zeroTile, hword]
    split
    · exact hz n hn
    · rfl

/-- In a zeroed bank every tile of the sequencer alone is zero and the sequencer's. -/
theorem Block.fresh_zeroBank (x : Block) {h : Nat} (hh : h ∈ x.bankHandles) : x.zeroBank.Fresh h := by
  suffices hs : ∀ (hs : List Nat) (y : Block), h ∈ hs ∨ y.Fresh h → (hs.foldl Block.zeroTile y).Fresh h from hs _ x (.inl hh)
  intro hs
  induction hs with
  | nil => exact fun y hy => hy.resolve_left List.not_mem_nil
  | cons a hs ih =>
    intro y hy
    rw [List.mem_cons, or_comm (a := h = a), or_assoc] at hy
    exact ih _ (hy.imp_right y.fresh_zeroTile)

theorem Table.has_of_mem {α : Type} {t : Table α} {e : Nat × α} (h : e ∈ t) : t.has e.1 = true := by
  induction t with
  | nil => exact absurd h List.not_mem_nil
  | cons a t ih =>
    by_cases hk : a.1 = e.1
    · simp [Table.has, Table.find, hk]
    · rcases List.mem_cons.mp h with rfl | h
      · exact absurd rfl hk
      · simpa [Table.has, Table.find, hk] using ih h

theorem State.has_of_seqBlock {s : State} {fx b : Nat} (h : s.seqBlock fx = some b) : s.blocks.has b = true := by
  unfold State.seqBlock at h
  split at h
  · next e he =>
    cases h
    exact Table.has_of_mem (List.mem_of_find?_eq_some he)
  · exact absurd h (by simp)

/-- Setting a PC leaves what is not the groups of a block alone. -/
theorem State.proj_blk_setPc {β : Type} (p : Block → β) (hp : ∀ x l, p { x with groups := l } = p x) (s : State) (v : Dword)
    (b : Nat) : p ((s.setPc v).blk b) = p (s.blk b) := by
  unfold State.setPc
  split
  · exact Table.proj_getD_modify p fun x => hp x _
  · rfl
  · rfl

theorem State.find_blocks_setPc (s : State) (v : Dword) {b : Nat} (h : b ≠ s.unitBlk) :
    (s.setPc v).blocks.find b = s.blocks.find b := by
  unfold State.unitBlk at h
  unfold State.setPc
  split
  · next hf =>
    rw [hf] at h
    exact Table.find_modify_other _ _ _ _ h
  · rfl
  · rfl

/-- CTXLD on an image that can be loaded. -/
theorem State.ctxLoad_of_ok {s : State} {b : Nat} {m : Mask} {h : Dword} {rd : List Hit} (hread : s.imageRead m h.toNat = .ok rd)
    (hok : s.loadOk (imageMap h.toNat rd) b (s.tagOf (s.blk b).part) = true) :
    ∃ x y z, s.ctxLoad b m h = (((s.useHits false rd).withCharges x y z).loadBank (imageMap h.toNat rd) b).skip 4 := by
  obtain ⟨x, y, z, hc⟩ := (s.useHits false rd).chargeUnit_eq
    ((s.imgReads (imageMap h.toNat rd)).flatMap fun r => (List.range (ceilDiv r.2 32)).map fun i =>
      (imageMap h.toNat rd (r.1 + 32 * i), 32))
  refine ⟨x, y, z, ?_⟩
  rw [State.ctxLoad, hread]
  simp only [hok, if_true, State.chargeImage, hc]

/-- A change of a block that leaves its phase and its groups alone keeps the unit and its PC. -/
theorem State.unit_modBlk (s : State) (b : Nat) {F : Block → Block} (hp : ∀ x, (F x).phase = x.phase)
    (hg : ∀ x, (F x).groups = x.groups) : (s.modBlk b F).issuing = s.issuing ∧ (s.modBlk b F).pc = s.pc := by
  have hsplit (b' g k : Nat) : (s.modBlk b F).hasSplit b' g k = s.hasSplit b' g k := by
    simp only [State.hasSplit, State.modBlk]
    by_cases hb : b' = b
    · subst hb
      rw [Table.find_modify_self]
      cases s.blocks.find b' with
      | none => rfl
      | some x => simp only [Option.map_some, hp, hg]
    · rw [Table.find_modify_other _ _ _ _ hb]
  have hspl (b' g k : Nat) : (s.modBlk b F).spl b' g k = s.spl b' g k :=
    Table.proj_getD_modify (fun x : Block => (x.groups.getD g Group.empty).spl k) fun x => by rw [hg]
  constructor
  · simp only [State.issuing, State.modBlk_focus, hsplit]
    rfl
  · simp only [State.pc, State.modBlk_focus, hspl]
    rfl

theorem State.ctxLoad_spec {s : State} {b : Nat} {m : Mask} {h : Dword} {rd : List Hit} (hi : s.issuing = true)
    (hb : s.blocks.has b = true) (hread : s.imageRead m h.toNat = .ok rd)
    (hok : s.loadOk (imageMap h.toNat rd) b (s.tagOf (s.blk b).part) = true) :
    let t := s.ctxLoad b m h
    t.pc = s.pc + 4 ∧ t.mem = s.mem ∧ t.facets = s.facets ∧
      (∀ x, x ≠ b → x ≠ s.unitBlk → t.blocks.find x = s.blocks.find x) ∧
      (s.imgOwned (imageMap h.toNat rd) = none → ∀ x ∈ (s.blk b).bankHandles, (t.blk b).Fresh x) := by
  intro t
  obtain ⟨x, y, z, ht⟩ := s.ctxLoad_of_ok hread hok
  let c := (s.useHits false rd).withCharges x y z
  obtain ⟨hf, hbl, hcm, hfac⟩ := State.units_of_asideAccess (s.asideAccess_useHits false rd)
  obtain ⟨F, hload, hkeep, hzero⟩ := c.loadBank_eq (imageMap h.toNat rd) b
  have hmem : c.mem = s.mem := s.mem_useHits_read rd
  replace ht : t = (c.modBlk b F).skip 4 := ht.trans (congrArg (State.skip · 4) hload)
  have hblk : c.blk b = s.blk b := by rw [State.blk, State.blk]; exact congrArg (Table.getD · b Block.empty) hbl
  have hunit : (c.modBlk b F).unitBlk = s.unitBlk := State.unitBlk_congr hf hcm
  obtain ⟨hissue, hpc⟩ := c.unit_modBlk b (F := F) (hkeep Block.phase fun _ _ _ _ => rfl) (hkeep Block.groups fun _ _ _ _ => rfl)
  rw [ht]
  refine ⟨?_, ?_, ?_, fun j hj hu => ?_, fun hnone j hj => ?_⟩
  · rw [State.pc_skip4 (hissue.trans ((State.issuing_congr hf hbl hcm).trans hi)), hpc]
    exact congrArg (· + 4) (State.pc_congr hf hbl hcm)
  · rw [State.skip_mem]
    exact hmem
  · rw [State.skip, State.facets_setPc]
    exact hfac
  · rw [State.skip, State.find_blocks_setPc _ _ (by rwa [hunit])]
    exact (Table.find_modify_other _ _ _ _ hj).trans (congrArg (Table.find · j) hbl)
  · have hF : F = Block.zeroBank := hzero (by simpa [State.imgOwned, State.imgDir, State.imgEntry, State.imgCount, State.imgNat,
      State.imgBytes, hmem] using hnone)
    have hb' : c.blocks.has b = true := (congrArg (Table.has · b) hbl).trans hb
    rw [State.skip, State.proj_blk_setPc (·.Fresh j) fun _ _ => rfl, c.blk_modBlk_self b F hb', hF, hblk]
    exact (s.blk b).fresh_zeroBank hj

/-- Settles O34: what MFS, MTS, CTXSV and CTXLD do and leave alone. -/
theorem specialRegistersAndContext : Obligations.SpecialRegistersAndContext := by
  refine ⟨?_, ⟨?_, ?_, ?_⟩, ?_, ?_⟩
  · intro g d n s hm hp
    obtain ⟨t, hx, hpc, hr, hclk, hval⟩ := mfs_spec g d n s hm hp
    refine ⟨t, hx, hpc, hr, fun l hl => ?_⟩
    have hv {m : SpecReg} (h : n = m) (hm : m ≠ .clk) : t.rdV d.toNat l = s.special m l := h ▸ hval (h ▸ hm) l hl
    refine ⟨fun h => hclk h l hl, fun h => hv h (by simp), fun h => hv h (by simp), fun h => hv h (by simp), fun h => hv h (by simp),
      fun h => hv h (by simp), fun h => hv h (by simp), fun h => hv h (by simp), fun h => hv h (by simp),
      fun b gr k hf => ⟨fun h => ?_, fun h => ?_⟩, fun c hf => ⟨fun h => ?_, fun h => ?_⟩, fun h => hv h (by simp)⟩
    all_goals
      rw [hv h (by simp)]
      simp only [State.special, State.rwSpecial, State.unitBlk, State.unitGrp, hf]
  · intro g a n s hm h0 hp
    rw [exec_mts hm hp, if_pos h0]
    rfl
  · rintro g a s b gr k x hf hx rfl
    refine ⟨fun hm => ?_, fun hm => ?_, fun hm hp => ?_⟩
    · have hi := issuing_of_mayIssue hm
      refine ⟨_, exec_mts_of_exec hm hx (by simp), ?_⟩
      rw [(State.writeSpecial_of_split hf _).1]
      obtain ⟨hpc, hr, hmem, hfac, l, hgrp⟩ := mts_grp hf hi
        (f := fun y => { y with ejt := BitVec.ofNat 32 (min (s.rdV a.toNat (lowestLane (s.exec g))).toNat 8) })
        (fun _ => rfl) (fun _ => rfl) fun _ => rfl
      rw [hgrp]
      exact ⟨hpc, hr, hmem, rfl, rfl, hfac⟩
    · have hi := issuing_of_mayIssue hm
      refine ⟨_, exec_mts_of_exec hm hx (by simp), ?_⟩
      rw [(State.writeSpecial_of_split hf _).2]
      obtain ⟨hpc, hr, hmem, hfac, l, hgrp⟩ := mts_grp hf hi
        (f := fun y => { y with jto := s.rdV a.toNat (lowestLane (s.exec g)) }) (fun _ => rfl) (fun _ => rfl) fun _ => rfl
      rw [hgrp]
      exact ⟨hpc, hr, hmem, rfl, rfl, hfac⟩
    · exact ⟨_, exec_mts_of_exec hm hx fun _ => ⟨hp, by rw [State.onComet, hf]⟩, mts_accown hf (issuing_of_mayIssue hm) _⟩
  · rintro g a s c x hf hx rfl
    refine ⟨fun hm => ?_, fun hm => ?_, fun hm => ?_⟩
    · refine ⟨_, exec_mts_of_exec hm hx (by simp), ?_⟩
      rw [(State.writeSpecial_of_comet hf _).1]
      obtain ⟨hpc, hr, hmem, hblk, hctx⟩ := mts_ctx hf (issuing_of_mayIssue hm)
        (f := fun y => { y with ejt := BitVec.ofNat 32 (min (s.rdV a.toNat (lowestLane (s.exec g))).toNat 8) })
        (fun _ => rfl) (fun _ => rfl) (fun _ => rfl) fun _ => rfl
      rw [hctx]
      exact ⟨hpc, hr, hmem, hblk, rfl, rfl⟩
    · refine ⟨_, exec_mts_of_exec hm hx (by simp), ?_⟩
      rw [(State.writeSpecial_of_comet hf _).2]
      obtain ⟨hpc, hr, hmem, hblk, hctx⟩ := mts_ctx hf (issuing_of_mayIssue hm)
        (f := fun y => { y with jto := s.rdV a.toNat (lowestLane (s.exec g)) }) (fun _ => rfl) (fun _ => rfl) (fun _ => rfl)
        fun _ => rfl
      rw [hctx]
      exact ⟨hpc, hr, hmem, hblk, rfl, rfl⟩
    · rw [show Sys2Proof.Machine.exec (.mts g a .accown) s = execMts g a .accown s from rfl, execMts, laneRun_of_mayIssue hm]
      simp [State.onComet, hf]
  · rintro g a s h l fx hm hp rfl rfl rfl
    rw [show Sys2Proof.Machine.exec (.ctxsv g a) s = execCtxsv g a s from rfl, execCtxsv]
    refine ⟨ctxRun_of_no_lane hm hp _ _, fun hx hb h64 h52 => ⟨fun hacc => ?_, fun rd hacc hread => ⟨fun hfits => ?_,
      fun wr hfits htake => ?_⟩⟩⟩
    · exact ctxRun_of_early hm hp _ _ hx hb h64 h52 (if_neg (by simp [State.unitFacet, hacc]))
    · rw [ctxRun_of_body hm hp _ _ hx hb h64 h52 (if_pos hacc), State.ctxSave, hread]
      simp [hfits]
    · obtain ⟨hpc, hr, hmem, hheld, hacc', hctx, hother⟩ := State.ctxSave_spec (issuing_of_mayIssue hm) hread hfits htake
      exact ⟨_, _, ctxRun_of_body hm hp _ _ hx hb h64 h52 (if_pos hacc), hpc, hr, rfl, hmem, hheld, hacc', hctx, hother⟩
  · rintro g a s h l fx hm hp rfl rfl rfl
    rw [show Sys2Proof.Machine.exec (.ctxld g a) s = execCtxld g a s from rfl, execCtxld]
    refine ⟨ctxRun_of_no_lane hm hp _ _, fun hx hb h64 h52 => ⟨fun hacc => ?_, fun bq rd hacc hseq hread => ?_⟩⟩
    · refine ctxRun_of_early hm hp _ _ hx hb h64 h52 (if_pos ?_)
      rcases hacc with h | h <;> simp [State.unitFacet, h]
    · rw [ctxRun_of_body hm hp _ _ hx hb h64 h52 (if_neg (by simp [State.unitFacet, hacc, hseq]))]
      rw [show s.seqBlock s.unitFacet = some bq from hseq, Option.getD_some]
      refine ⟨fun hok => ?_, fun hok => ?_⟩
      · rw [State.ctxLoad, hread]
        simp [hok]
      · obtain ⟨hpc, hmem, hfac, hblk, hbank⟩ := State.ctxLoad_spec (issuing_of_mayIssue hm) (State.has_of_seqBlock hseq) hread hok
        exact ⟨_, rfl, hpc, hmem, hfac, hblk, fun hn x hx n h => ⟨(hbank hn x hx).1 n h, (hbank hn x hx).2⟩⟩

end Sys2Proof.Machine

end


/-!
PROOFS. Records form blocks, and blocks are admitted (spec/15_die_work.md R314, R316, R317, R323-R328; 16 R345; 18 R381; 03 R75-R77; 10
R227): the statement O52.
-/

section

namespace Sys2Proof.Machine

set_option linter.constructorNameAsVariable false

/-! ## The space of a function, and the leaves that its walks mark -/

/-- Two states in which every walk of a function's space goes the same way. -/
structure State.SameSpace (s t : State) : Prop where
  mem : t.mem = s.mem
  fabid : t.fabid = s.fabid
  vfs : t.vfs = s.vfs

section
variable {s t : State} (h : s.SameSpace t)
include h

theorem State.SameSpace.spaceMap_eq (fn : Nat) (wr : Bool) (va n : Nat) : t.spaceMap fn wr va n = s.spaceMap fn wr va n := by
  have hfind (va : Nat) : t.spaceFind fn wr va = s.spaceFind fn wr va := by
    unfold State.spaceFind State.vf
    rw [h.mem, h.fabid, h.vfs]
  simp only [State.spaceMap, hfind]

theorem State.SameSpace.readSpace_eq (fn va n : Nat) : t.readSpace fn va n = s.readSpace fn va n := by
  simp only [State.readSpace, h.spaceMap_eq, State.bytesIn, h.mem]

theorem State.SameSpace.orLeaf (a bitNo : Nat) : (s.orLeaf a bitNo).SameSpace (t.orLeaf a bitNo) := by
  have hside (u : State) : (u.orLeaf a bitNo).fabid = u.fabid ∧ (u.orLeaf a bitNo).vfs = u.vfs :=
    ⟨(congrArg State.fabid (u.aside_orLeaf a bitNo) :), (congrArg State.vfs (u.aside_orLeaf a bitNo) :)⟩
  refine ⟨?_, (hside t).1.trans (h.fabid.trans (hside s).1.symm), (hside t).2.trans (h.vfs.trans (hside s).2.symm)⟩
  unfold State.orLeaf
  rw [h.mem]
  dsimp only
  split
  · exact h.mem
  · rw [State.mem_writeHome, State.mem_writeHome, h.mem]

theorem State.SameSpace.markUsed (used : List Nat) : (s.markUsed used).SameSpace (t.markUsed used) := by
  induction used generalizing s t with
  | nil => exact h
  | cons a used ih => exact ih (h.orLeaf a 5)

theorem State.SameSpace.markSpace (fn va n : Nat) : (s.markSpace fn va n).SameSpace (t.markSpace fn va n) := by
  unfold State.markSpace
  rw [h.spaceMap_eq]
  split
  · next ms _ =>
    unfold State.markLeaves
    clear * - h
    induction ms generalizing s t with
    | nil => exact h
    | cons m ms ih => exact ih (h.markUsed m.2)
  · exact h

theorem State.SameSpace.markTable (vf addr per : Nat) : (s.markTable vf addr per).SameSpace (t.markTable vf addr per) := by
  unfold State.markTable
  rw [h.readSpace_eq]
  split
  · exact h
  · split
    · exact h
    · exact h.markSpace ..

end

/-! ## The distributor's writes to a descriptor -/

theorem cellsAt_sorted (a : Nat) (bs : List Byte) : (cellsAt a bs).Pairwise fun x y => x.1 < y.1 := by
  induction bs generalizing a with
  | nil => exact List.Pairwise.nil
  | cons b bs ih =>
    refine List.pairwise_cons.mpr ⟨fun c hc => ?_, ih (a + 1)⟩
    have := mem_cellsAt _ _ c hc
    show a < c.1
    omega

/-- Of 8 bytes one at most is the first of the second word of a 64-byte object. -/
theorem ctl_cells_le (a v : Nat) : ((cellsAt a (leBytes 8 v)).filter fun c => c.1 % 64 == 4).length ≤ 1 := by
  have hsorted := (cellsAt_sorted a (leBytes 8 v)).filter fun c => c.1 % 64 == 4
  have hmem (c : Host.Cell) (hc : c ∈ (cellsAt a (leBytes 8 v)).filter fun c => c.1 % 64 == 4) :
      a ≤ c.1 ∧ c.1 < a + 8 ∧ c.1 % 64 = 4 := by
    obtain ⟨h1, h2⟩ := List.mem_filter.mp hc
    have := mem_cellsAt _ _ c h1
    rw [leBytes_length] at this
    exact ⟨this.1, this.2, by simpa using h2⟩
  generalize (cellsAt a (leBytes 8 v)).filter (fun c => c.1 % 64 == 4) = l at hsorted hmem ⊢
  match l with
  | [] => exact Nat.zero_le _
  | [c] => exact Nat.le_refl _
  | c :: d :: l =>
    have hlt := (List.pairwise_cons.mp hsorted).1 d List.mem_cons_self
    have hc := hmem c List.mem_cons_self
    have hd := hmem d (List.mem_cons_of_mem _ List.mem_cons_self)
    omega

/-- What a write of one CTL word arms. -/
def State.armOne (vf : Nat) (t : State) (c : Host.Cell) : State :=
  let o := c.1 - 4
  let a : Armed := { obj := o, dst := t.mem.read (o + 32) 8, len := t.mem.read (o + 40) 8, vf := vf }
  if t.mem.read o 4 != 0x52414244 || !bit (t.mem.read (o + 4) 4) 1 then t
  else if t.armed.any (·.obj == o) then { t with armed := t.armed.map fun x => if x.obj == o then a else x }
  else if 64 ≤ t.armed.length then { t with mem := t.mem.write (o + 4) 4 (t.mem.read (o + 4) 4 - 2) }
  else { t with armed := t.armed ++ [a] }

theorem State.armOne_of_room (s : State) (vf : Nat) (c : Host.Cell) (h : s.armed.length < 64) :
    (s.armOne vf c).mem = s.mem ∧ (s.armOne vf c).armed.length ≤ s.armed.length + 1 := by
  unfold State.armOne
  dsimp only
  rw [if_neg (Nat.not_le.mpr h)]
  repeat' split
  · exact ⟨rfl, Nat.le_succ _⟩
  · exact ⟨rfl, by simp⟩
  · exact ⟨rfl, by simp⟩

/-- With room for the ranges armed, arming writes no memory. -/
theorem State.armObjects_of_room (s : State) (cs : List Host.Cell) (vf : Nat)
    (h : s.armed.length + (cs.filter fun c => c.1 % 64 == 4).length ≤ 64) : (s.armObjects cs vf).mem = s.mem ∧
      (s.armObjects cs vf).armed.length ≤ s.armed.length + (cs.filter fun c => c.1 % 64 == 4).length := by
  rw [show s.armObjects cs vf = (cs.filter fun c => c.1 % 64 == 4).foldl (State.armOne vf) s from rfl]
  generalize cs.filter (fun c => c.1 % 64 == 4) = l at h ⊢
  induction l generalizing s with
  | nil => exact ⟨rfl, Nat.le_refl _⟩
  | cons c l ih =>
    rw [List.length_cons] at h ⊢
    obtain ⟨hm, ha⟩ := s.armOne_of_room vf c (by omega)
    obtain ⟨hm', ha'⟩ := ih (s.armOne vf c) (by omega)
    rw [List.foldl_cons]
    exact ⟨hm'.trans hm, by omega⟩

/-- A write of the distributor to a word of a descriptor: the word, and at most one range more. -/
theorem State.putQueue_spec (s : State) (q : Queue) (off v : Nat) (h : s.armed.length < 64) :
    (s.putQueue q off v).mem = s.mem.putAll (cellsAt (q.key + off) (leBytes 8 v)) ∧
      (s.putQueue q off v).armed.length ≤ s.armed.length + 1 := by
  let u := (dedupN ((cellsAt (q.key + off) (leBytes 8 v)).map fun c => c.1 / 128 * 128)).foldl
    (fun (t : State) l => t.fillSlice q.vf .usual false l) (s.putHome (cellsAt (q.key + off) (leBytes 8 v)) none)
  have hmem : u.mem = s.mem.putAll (cellsAt (q.key + off) (leBytes 8 v)) :=
    (State.mem_foldl _ (fun t l => t.mem_fillSlice ..) _ _).trans (s.mem_putHome _ _)
  have harm : u.armed = s.armed :=
    (State.foldl_keeps State.armed _ (fun t l => t.armed_fillSlice ..) _ _).trans (s.armed_putHome _)
  have hle := ctl_cells_le (q.key + off) v
  obtain ⟨hm, ha⟩ := u.armObjects_of_room (cellsAt (q.key + off) (leBytes 8 v)) q.vf (by rw [harm]; omega)
  refine ⟨hm.trans hmem, Nat.le_trans ha ?_⟩
  rw [harm]
  omega

theorem State.aside_markSpace (s : State) (fn va n : Nat) : (s.markSpace fn va n).aside = s.aside := by
  unfold State.markSpace
  split
  · exact State.foldl_keeps State.aside _ (fun t (m : TlbEntry × List Nat) => t.aside_markUsed m.2) _ s
  · rfl

theorem State.aside_markTable (s : State) (vf addr per : Nat) : (s.markTable vf addr per).aside = s.aside := by
  unfold State.markTable
  split
  · rfl
  · split
    · rfl
    · exact s.aside_markSpace ..

theorem State.aside_putQueue (s : State) (q : Queue) (off v : Nat) :
    (s.putQueue q off v).aside = { s.aside with armed := (s.putQueue q off v).armed } :=
  State.aside_commit ..

/-- Two writes to the words of a queue. -/
theorem State.aside_putQueue_putQueue (s : State) (q : Queue) (off off' v v' : Nat) :
    ((s.putQueue q off v).putQueue q off' v').aside = { s.aside with armed := ((s.putQueue q off v).putQueue q off' v').armed } := by
  generalize ht : (s.putQueue q off v).putQueue q off' v' = t
  have h := (s.putQueue q off v).aside_putQueue q off' v'
  rw [ht] at h
  exact h.trans (congrArg (fun z : State => { z with armed := t.armed }) (s.aside_putQueue q off v))

/-- A queue whose words the distributor writes stays but for its watches. -/
theorem State.find_of_aside {s t : State} {l : List Armed} (h : t.aside = { s.aside with armed := l }) {k : Nat} {q : Queue}
    (hq : s.queues.find k = some q) : ∃ tail stamp, t.queues.find k = some { q with tailW := tail, stampW := stamp } := by
  have hqs : t.queues.mapv (fun _ => Queue.aside) = s.queues.mapv fun _ => Queue.aside := (congrArg State.queues h :)
  have hfind := congrArg (Table.find · k) hqs
  simp only [Table.find_mapv, hq, Option.map_some, Option.map_eq_some_iff] at hfind
  obtain ⟨r, hr, he⟩ := hfind
  refine ⟨r.tailW, r.stampW, hr.trans (congrArg some ?_)⟩
  exact congrArg (fun x : Queue => { x with tailW := r.tailW, stampW := r.stampW }) he

/-! ## A batch forms a block (15 R317, R323) -/

/-- The queue after its open batch, of no gang, has formed a block. -/
def Queue.launchedOne (q : Queue) : Queue :=
  { q with cons := q.cons + q.pending, pending := 0, launched := q.launched + 1, forming := [] }

/-- The state with the block formed, before the distributor's reads and writes. -/
def State.withBlock (s : State) (q : Queue) : State :=
  { s with
    blocks := s.blocks.set s.nextId (s.newBlock q q.pending ((s.recordBytes q q.cons).getD []))
    nextId := s.nextId + 1, freeCtr := s.freeCtr + 1, queues := s.queues.set q.key q.launchedOne }

theorem State.formBlock_eq {s : State} {q : Queue} (hg : q.node.gangn = 0) (hp : q.pending ≠ 0) : s.formBlock q =
    ((((s.withBlock q).markTable q.vf q.node.tmap 1).markTable q.vf q.node.rings 4).putQueue q.launchedOne 24
      (q.cons + q.pending)).putQueue q.launchedOne 64 (q.launched + 1) := by
  simp only [State.formBlock, hp, if_false, hg]
  rfl

theorem State.formBlock_spec {s : State} {q : Queue} (hg : q.node.gangn = 0) (hp : q.pending ≠ 0) (ha : s.armed.length < 60) :
    (s.formBlock q).blocks.find s.nextId = some (s.newBlock q q.pending ((s.recordBytes q q.cons).getD [])) ∧
    (∃ tail stamp, (s.formBlock q).queues.find q.key = some { q.launchedOne with tailW := tail, stampW := stamp }) ∧
    (s.formBlock q).mem =
      (((s.markTable q.vf q.node.tmap 1).markTable q.vf q.node.rings 4).mem.putAll
        (cellsAt (q.key + 24) (leBytes 8 (q.cons + q.pending)))).putAll (cellsAt (q.key + 64) (leBytes 8 (q.launched + 1))) := by
  have hu : (((s.withBlock q).markTable q.vf q.node.tmap 1).markTable q.vf q.node.rings 4).aside = (s.withBlock q).aside :=
    (State.aside_markTable ..).trans (State.aside_markTable ..)
  have hua : (((s.withBlock q).markTable q.vf q.node.tmap 1).markTable q.vf q.node.rings 4).armed = s.armed :=
    (congrArg State.armed hu :)
  have hsame : ((s.markTable q.vf q.node.tmap 1).markTable q.vf q.node.rings 4).SameSpace
      (((s.withBlock q).markTable q.vf q.node.tmap 1).markTable q.vf q.node.rings 4) :=
    State.SameSpace.markTable (State.SameSpace.markTable (s := s) (t := s.withBlock q) ⟨rfl, rfl, rfl⟩ ..) ..
  rw [State.formBlock_eq hg hp]
  generalize ((s.withBlock q).markTable q.vf q.node.tmap 1).markTable q.vf q.node.rings 4 = u at hu hua hsame
  obtain ⟨hm1, ha1⟩ := u.putQueue_spec q.launchedOne 24 (q.cons + q.pending) (by rw [hua]; omega)
  rw [hua] at ha1
  obtain ⟨hm2, -⟩ := (u.putQueue q.launchedOne 24 (q.cons + q.pending)).putQueue_spec q.launchedOne 64 (q.launched + 1) (by omega)
  have haside := u.aside_putQueue_putQueue q.launchedOne 24 64 (q.cons + q.pending) (q.launched + 1)
  rw [hu] at haside
  rw [hm1, hsame.mem] at hm2
  generalize (u.putQueue q.launchedOne 24 (q.cons + q.pending)).putQueue q.launchedOne 64 (q.launched + 1) = t at hm2 haside ⊢
  refine ⟨?_, State.find_of_aside haside (Table.find_set_self ..), hm2⟩
  rw [show t.blocks = (s.withBlock q).blocks from (congrArg State.blocks haside :)]
  exact Table.find_set_self ..

theorem State.blocks_armQueue (s : State) (k : Nat) : (s.armQueue k).blocks = s.blocks := by
  unfold State.armQueue
  split
  · rfl
  · exact State.keepWatched_keeps State.blocks (fun _ _ => rfl) _ _

/-! ### A descriptor's two words -/

theorem Memory.bytes_congr {m m' : Memory} {a n : Nat} (h : ∀ b, a ≤ b → b < a + n → m'.get b = m.get b) :
    m'.bytes a n = m.bytes a n := by
  induction n generalizing a with
  | zero => rfl
  | succ n ih => rw [Memory.bytes, Memory.bytes, h a (by omega) (by omega), ih fun b h1 h2 => h b (by omega) (by omega)]

theorem Memory.read_putAll_word {m : Memory} (h : m.wf = true) (a v : Nat) :
    (m.putAll (cellsAt a (leBytes 8 v))).read a 8 = v % 2 ^ 64 := by
  have hb := Memory.bytes_putAll_cellsAt h a (bs := leBytes 8 v) (i := 0) (n := 8) (by rw [leBytes_length])
  rw [Nat.add_zero, List.drop_zero, List.take_of_length_le (by rw [leBytes_length])] at hb
  rw [Memory.read, hb, leVal_leBytes]
  norm_num

/-- A word written at `a` leaves every byte outside its 8 bytes. -/
theorem Memory.get_putAll_word {m : Memory} (h : m.wf = true) {a v b : Nat} (hb : b < a ∨ a + 8 ≤ b) :
    (m.putAll (cellsAt a (leBytes 8 v))).get b = m.get b :=
  Memory.get_putAll_other _ _ _ h fun c hc => by
    have := mem_cellsAt _ _ c hc
    rw [leBytes_length] at this
    omega

/-- A batch of a queue that no gang waits for, closed and its watches armed: its block is formed. -/
theorem formedBlock_of {s u : State} {q : Queue} (hsame : s.SameSpace u) (hg : q.node.gangn = 0) (hp : q.pending ≠ 0)
    (hw : s.mem.wf = true) (ha : u.armed.length < 60) : formedBlock s ((u.formBlock q).armQueue q.key) q u.nextId := by
  obtain ⟨hblock, ⟨tail, stamp, hqueue⟩, hmem⟩ := State.formBlock_spec hg hp ha
  obtain ⟨tail', stamp', hqueue'⟩ := State.find_armQueue hqueue
  have htables := ((hsame.markTable q.vf q.node.tmap 1).markTable q.vf q.node.rings 4).mem
  have hw0 : ((s.markTable q.vf q.node.tmap 1).markTable q.vf q.node.rings 4).mem.wf = true :=
    State.wf_markTable (State.wf_markTable hw)
  rw [htables] at hmem
  generalize hm : ((s.markTable q.vf q.node.tmap 1).markTable q.vf q.node.rings 4).mem = m at hmem hw0
  have hw1 := Memory.wf_putAll m (cellsAt (q.key + 24) (leBytes 8 (q.cons + q.pending))) hw0
  have hcons : (m.putAll (cellsAt (q.key + 24) (leBytes 8 (q.cons + q.pending)))).read (q.key + 24) 8 =
      ((m.putAll (cellsAt (q.key + 24) (leBytes 8 (q.cons + q.pending)))).putAll
        (cellsAt (q.key + 64) (leBytes 8 (q.launched + 1)))).read (q.key + 24) 8 :=
    congrArg leVal (Memory.bytes_congr fun b h1 h2 => Memory.get_putAll_word hw1 (by omega)).symm
  refine ⟨_, _, (congrArg (Table.find · u.nextId) (State.blocks_armQueue ..)).trans hblock, rfl, rfl, rfl, rfl, rfl, rfl, rfl, ?_,
    rfl, hqueue', rfl, rfl, rfl, ?_, ?_, fun a h1 h2 => ?_⟩
  · exact congrArg (fun r => coordsOf q.node (Option.getD r []) q.launched) (hsame.readSpace_eq ..)
  · rw [State.mem64, State.mem_armQueue, hmem, ← hcons, Memory.read_putAll_word hw0]
    exact BitVec.eq_of_toNat_eq (by simp)
  · rw [State.mem64, State.mem_armQueue, hmem, Memory.read_putAll_word hw1]
    exact BitVec.eq_of_toNat_eq (by simp)
  · rw [State.mem_armQueue, hmem, Memory.get_putAll_word hw1 h2, Memory.get_putAll_word hw0 h1, hm]

/-! ### The distributor looks at a queue -/

/-- A queue whose next record is pending. -/
def Queue.taken (q : Queue) (now : Nat) : Queue :=
  { q with pending := q.pending + 1, firstAt := if q.pending = 0 then now else q.firstAt }

/-- The next record of a queue is taken. -/
def State.takeRecord (s : State) (q : Queue) : State :=
  { s.markSpace q.vf (q.slotAddr (q.cons + q.pending)) 64 with queues := s.queues.set q.key (q.taken s.now) }

/-- The record closes the batch that it joins. -/
def Queue.closes (q : Queue) (r : List Byte) : Bool :=
  q.pending + 1 == q.node.coalesce || bit (num r 16 4) 1 || (q.cons + q.pending) % q.cap == q.cap - 1

theorem Queue.closes_iff (q : Queue) (r : List Byte) : q.closes r = true ↔ q.pending + 1 = q.node.coalesce ∨
    num r 16 4 / 2 % 2 = 1 ∨ (q.cons + q.pending) % q.cap = q.cap - 1 := by
  simp [Queue.closes, bit, or_assoc]

section
variable {s : State} {q : Queue} (hq : s.queues.find q.key = some q)
include hq

theorem execStampObserved_of_idle (h : s.looksAt q = false ∨ s.batchDue q = true) : execStampObserved q.key s = .next s := by
  rw [execStampObserved, hq]
  exact if_pos (by simpa using h)

theorem execStampObserved_of_looks (hl : s.looksAt q = true) (hd : s.batchDue q = false) {r : List Byte}
    (hr : s.recordBytes q (q.cons + q.pending) = some r) : execStampObserved q.key s =
      if num r 0 8 ≠ q.cons + q.pending + 1 then .next (s.armQueue q.key)
      else .next ((if q.closes r then (s.takeRecord q).formBlock (q.taken s.now) else s.takeRecord q).armQueue q.key) := by
  rw [execStampObserved, hq]
  simp only [hl, hd, Queue.nextIx, hr]
  simp only [bne_iff_ne, ne_eq]
  rfl

theorem execBatchTimeout_eq : execBatchTimeout q.key s =
    if s.batchDue q && !s.queueHeld q then .next ((s.formBlock q).armQueue q.key) else .next s := by
  rw [execBatchTimeout, hq]

end

/-- Arming a queue's watches changes the queues and the slices alone. -/
theorem State.armQueue_eq (s : State) (k : Nat) :
    s.armQueue k = { s with queues := (s.armQueue k).queues, slices := (s.armQueue k).slices } := by
  have h : ({ s.armQueue k with queues := [], slices := default } : State) = { s with queues := [], slices := default } := by
    unfold State.armQueue
    split
    · rfl
    · exact State.keepWatched_keeps (fun t : State => { t with queues := [], slices := default }) (fun _ _ => rfl) _ _
  generalize s.armQueue k = t at h ⊢
  exact congrArg (fun z : State => { z with queues := t.queues, slices := t.slices }) h

theorem State.sameSpace_queues (s : State) (qs : Table Queue) : s.SameSpace { s with queues := qs } := ⟨rfl, rfl, rfl⟩

theorem State.takeRecord_eq (s : State) (q : Queue) : s.takeRecord q =
    { s.markSpace q.vf (q.slotAddr (q.cons + q.pending)) 64 with queues := s.queues.set q.key (q.taken s.now) } := rfl

theorem State.sameSpace_takeRecord (s : State) (q : Queue) :
    (s.markSpace q.vf (q.slotAddr (q.cons + q.pending)) 64).SameSpace (s.takeRecord q) := by
  rw [State.takeRecord_eq]
  exact State.sameSpace_queues _ _

theorem State.takeRecord_keeps (s : State) (q : Queue) : (s.takeRecord q).blocks = s.blocks ∧ (s.takeRecord q).nextId = s.nextId ∧
    (s.takeRecord q).armed = s.armed := by
  have h := s.aside_markSpace q.vf (q.slotAddr (q.cons + q.pending)) 64
  rw [State.takeRecord_eq]
  generalize s.markSpace q.vf (q.slotAddr (q.cons + q.pending)) 64 = u at h ⊢
  exact ⟨(congrArg State.blocks h :), (congrArg State.nextId h :), (congrArg State.armed h :)⟩

theorem execStampObserved_unstamped {s : State} {q : Queue} (hq : s.queues.find q.key = some q) (hl : s.looksAt q = true)
    (hd : s.batchDue q = false) {r : List Byte} (hr : s.recordBytes q (q.cons + q.pending) = some r)
    (hn : num r 0 8 ≠ q.cons + q.pending + 1) : ∃ (t : State) (x : Queue), execStampObserved q.key s = .next t ∧
      t = { s with queues := t.queues, slices := t.slices } ∧ t.queues.find q.key = some x ∧
      x = { q with tailW := x.tailW, stampW := x.stampW } := by
  obtain ⟨tail, stamp, h⟩ := State.find_armQueue hq
  rw [execStampObserved_of_looks hq hl hd hr, if_pos hn]
  exact ⟨_, _, rfl, s.armQueue_eq q.key, h, rfl⟩

theorem execStampObserved_pending {s : State} {q : Queue} (hq : s.queues.find q.key = some q) (hl : s.looksAt q = true)
    (hd : s.batchDue q = false) {r : List Byte} (hr : s.recordBytes q (q.cons + q.pending) = some r)
    (hn : num r 0 8 = q.cons + q.pending + 1) (hc : ¬ q.closes r = true) : ∃ (t : State) (x : Queue),
      execStampObserved q.key s = .next t ∧ t.mem = (s.markSpace q.vf (q.slotAddr (q.cons + q.pending)) 64).mem ∧
      t.blocks = s.blocks ∧ t.queues.find q.key = some x ∧ x.pending = q.pending + 1 ∧ x.cons = q.cons ∧
      x.firstAt = if q.pending = 0 then s.now else q.firstAt := by
  obtain ⟨tail, stamp, h⟩ := State.find_armQueue (s := s.takeRecord q) (k := q.key) (q := q.taken s.now) (Table.find_set_self ..)
  rw [execStampObserved_of_looks hq hl hd hr, if_neg (not_not.mpr hn), if_neg hc]
  refine ⟨_, _, rfl, ?_, ?_, h, rfl, rfl, rfl⟩
  · exact (State.mem_armQueue ..).trans (s.sameSpace_takeRecord q).mem
  · exact (State.blocks_armQueue ..).trans (s.takeRecord_keeps q).1

theorem execStampObserved_closing {s : State} {q : Queue} (hq : s.queues.find q.key = some q) (hl : s.looksAt q = true)
    (hd : s.batchDue q = false) {r : List Byte} (hr : s.recordBytes q (q.cons + q.pending) = some r)
    (hn : num r 0 8 = q.cons + q.pending + 1) (hc : q.closes r = true) (hg : q.node.gangn = 0) (hw : s.mem.wf = true)
    (ha : s.armed.length < 60) : ∃ t : State, execStampObserved q.key s = .next t ∧
      formedBlock (s.markSpace q.vf (q.slotAddr (q.cons + q.pending)) 64) t { q with pending := q.pending + 1 } s.nextId := by
  obtain ⟨-, hid, harm⟩ := s.takeRecord_keeps q
  have h := formedBlock_of (q := q.taken s.now) (s.sameSpace_takeRecord q) hg (Nat.succ_ne_zero _) (State.wf_markSpace hw) (harm ▸ ha)
  rw [execStampObserved_of_looks hq hl hd hr, if_neg (not_not.mpr hn), if_pos hc]
  exact ⟨_, rfl, hid ▸ h⟩

/-- The distributor's looks at a queue, and its timeouts (15 R316, R317). -/
theorem blocksForm (k : Nat) (s : State) (q : Queue) (hq : s.queues.find k = some q) (hk : q.key = k) (hg : q.node.gangn = 0) :
    ((s.looksAt q = false ∨ s.batchDue q = true) → exec (.stampObserved k) s = .next s) ∧
     (∀ r i, s.looksAt q = true → s.batchDue q = false → i = q.cons + q.pending → s.recordBytes q i = some r →
       (num r 0 8 ≠ i + 1 → ∃ (t : State) (x : Queue), exec (.stampObserved k) s = .next t ∧
         t = { s with queues := t.queues, slices := t.slices } ∧ t.queues.find k = some x ∧
         x = { q with tailW := x.tailW, stampW := x.stampW }) ∧
       (num r 0 8 = i + 1 → q.pending + 1 ≠ q.node.coalesce → num r 16 4 / 2 % 2 = 0 → i % q.cap ≠ q.cap - 1 →
         ∃ (t : State) (x : Queue), exec (.stampObserved k) s = .next t ∧
         t.mem = (s.markSpace q.vf (q.slotAddr i) 64).mem ∧ t.blocks = s.blocks ∧ t.queues.find k = some x ∧ x.pending = q.pending + 1 ∧ x.cons = q.cons ∧
         x.firstAt = if q.pending = 0 then s.now else q.firstAt) ∧
       (num r 0 8 = i + 1 → (q.pending + 1 = q.node.coalesce ∨ num r 16 4 / 2 % 2 = 1 ∨ i % q.cap = q.cap - 1) →
         s.mem.wf = true → k % 64 = 0 → s.armed.length < 60 → ∃ t : State,
         exec (.stampObserved k) s = .next t ∧
         formedBlock (s.markSpace q.vf (q.slotAddr i) 64) t { q with pending := q.pending + 1 } s.nextId)) ∧
     ((q.pending = 0 ∨ q.node.timeout = 0 ∨ s.now < q.firstAt + q.node.timeout ∨ s.queueHeld q = true) →
       exec (.batchTimeout k) s = .next s) ∧
     (q.pending ≠ 0 → q.node.timeout ≠ 0 → q.firstAt + q.node.timeout ≤ s.now → s.queueHeld q = false → s.mem.wf = true →
       k % 64 = 0 → s.armed.length < 60 → ∃ t : State, exec (.batchTimeout k) s = .next t ∧
       formedBlock s t q s.nextId) := by
  subst hk
  refine ⟨execStampObserved_of_idle hq, fun r i hl hd hi hr => ?_, fun h => ?_, fun hp ht hdue hheld hw _ ha => ?_⟩
  · subst hi
    refine ⟨execStampObserved_unstamped hq hl hd hr, fun hn h1 h2 h3 => execStampObserved_pending hq hl hd hr hn ?_,
      fun hn hc hw _ ha => execStampObserved_closing hq hl hd hr hn ((q.closes_iff r).mpr hc) hg hw ha⟩
    rw [Queue.closes_iff]
    omega
  · refine (execBatchTimeout_eq hq).trans (if_neg fun hc => ?_)
    simp only [State.batchDue, Bool.and_eq_true, bne_iff_ne, ne_eq, decide_eq_true_eq, Bool.not_eq_true'] at hc
    obtain ⟨⟨⟨hp, ht⟩, hdue⟩, hheld⟩ := hc
    rcases h with h | h | h | h
    · exact hp h
    · exact ht h
    · exact absurd hdue (Nat.not_le.mpr h)
    · exact absurd h (by simp [hheld])
  · exact ⟨_, (execBatchTimeout_eq hq).trans (if_pos (by simp [State.batchDue, hp, ht, hdue, hheld])),
      formedBlock_of ⟨rfl, rfl, rfl⟩ hg hp hw ha⟩

/-! ## A block is launched (15 R324-R328, 03 R75-R77, 10 R227) -/

theorem State.blocks_settleStats (s : State) (b f : Nat) : (s.settleStats b f).blocks = s.blocks := by
  unfold State.settleStats State.clearStats
  dsimp only
  split
  · split <;> rfl
  · rfl

theorem State.blocks_putImage (s : State) (b reason hold : Nat) (xs : List ImgSec) : (s.putImage b reason hold xs).blocks = s.blocks :=
  (congrArg State.blocks (s.aside_writeCtx b ((s.blk b).imageAt 0) (imageBytes reason (s.blk b).ptag (s.blk b).ctx hold xs)) :)

/-- What a launch makes of a block: its groups with their first splits, and its sequencer. -/
def State.launched (s : State) (f : Nat) (x : Block) : Block :=
  { x with
    phase := .resident, facet := f, residentSince := s.now,
    groups := (List.range x.node.groups).map fun i =>
      (i, launchGroup x.node (s.facetWidth (coreOfFacet f)) i (BitVec.ofNat 64 (s.firstSlot x)) x.records.length s.now),
    seq := if x.node.facetw = 0 then none else some (Seq.launch x.node.facetw (BitVec.ofNat 64 x.node.seqcode)),
    saved := [(1, x.blockData)] }

theorem State.find_launch {s : State} {b : Nat} (hb : s.blocks.has b = true) (f : Nat) :
    (s.launch b f).blocks.find b = some (s.launched f (s.blk b)) := by
  obtain ⟨x, hx⟩ := Option.isSome_iff_exists.mp hb
  have hblk : s.blk b = x := Table.getD_of_find _ hx
  have hacc (t : State) (v : Word) : (t.writeAcc b f v).blocks = t.blocks := by
    obtain ⟨F, T, h, -⟩ := t.writeAcc_eq b f v
    rw [h]
  unfold State.launch
  dsimp only
  rw [show ∀ (t : State) c, (t.selfInvalidate c).blocks = t.blocks from fun _ _ => rfl, State.blocks_settleStats, State.modBlk,
    Table.find_modify_self, State.blocks_putImage, apply_ite State.blocks, hacc, ite_self, State.modBlk, Table.find_modify_self,
    hx, hblk]
  rfl

theorem Table.find_range_map {α : Type} (g : Nat → α) {n i : Nat} (hi : i < n) :
    Table.find ((List.range n).map fun k => (k, g k)) i = some (g i) := by
  have hsorted : ((List.range n).map fun k => (k, g k)).Pairwise fun e f => e.1 < f.1 :=
    List.pairwise_map.mpr List.pairwise_lt_range
  exact Table.find_of_mem hsorted (e := (i, g i)) (List.mem_map_of_mem (List.mem_range.mpr hi))

/-- A launched group: its first split at the node's code with all its lanes, its first slot and its number of records. -/
theorem launchGroup_spec (n : Node) (c i : Nat) (slot : Dword) (count now : Nat) :
    (launchGroup n c i slot count now).splits.find 0 = some { Split.empty with
      pc := BitVec.ofNat 64 n.code, am := allLanes n.width, cm := allLanes n.width, pathStart := now, lastIssue := now } ∧
    (3 ≤ n.sregs → pairVal ((launchGroup n c i slot count now).sregs.getD 0 0) ((launchGroup n c i slot count now).sregs.getD 1 0) =
      slot ∧ (launchGroup n c i slot count now).sregs.getD 2 0 = BitVec.ofNat 32 count) := by
  refine ⟨rfl, fun h => ?_⟩
  have hs : (launchGroup n c i slot count now).sregs = [(0, lowWord slot), (1, highWord slot), (2, BitVec.ofNat 32 count)] :=
    List.filter_eq_self.mpr fun e he => by
      simp only [List.mem_cons, List.not_mem_nil, or_false] at he
      rcases he with rfl | rfl | rfl <;> simp <;> omega
  rw [hs]
  exact ⟨pairVal_lowWord_highWord slot, rfl⟩

/-! ## The waiting list of a die -/

theorem mem_insertEntry {s : State} {a b : Nat} {l : List Nat} (h : a ∈ insertEntry s b l) : a = b ∨ a ∈ l := by
  induction l with
  | nil => exact .inl (List.mem_singleton.mp h)
  | cons c l ih =>
    rw [insertEntry] at h
    split at h
    · exact List.mem_cons.mp h
    · rcases List.mem_cons.mp h with h | h
      · exact .inr (h ▸ List.mem_cons_self)
      · exact (ih h).imp_right (List.mem_cons_of_mem c)

/-- A block of a waiting list is there and waits to enter. -/
theorem State.of_mem_waitList {s : State} {d b : Nat} (h : b ∈ s.waitList d) : s.blocks.has b = true ∧ s.entryWaits b = true := by
  have hmem {l : List Nat} (h : b ∈ l.foldr (fun c l => insertEntry s c l) []) : b ∈ l := by
    induction l with
    | nil => exact h
    | cons c l ih => exact (mem_insertEntry h).elim (fun e => e ▸ List.mem_cons_self) fun h => List.mem_cons_of_mem c (ih h)
  obtain ⟨e, he, rfl⟩ := List.mem_map.mp (hmem h)
  obtain ⟨hb, hw⟩ := List.mem_filter.mp he
  simp only [State.mayEnter, Bool.and_eq_true] at hw
  exact ⟨Table.has_of_mem hb, hw.1.1⟩

/-- With no reservation and the running functions settled, the only block of a waiting list is admitted on the first facet that
takes it. -/
theorem execBlockAdmission_single {d b f : Nat} {s : State} (hd : d ≤ 3) (hset : ∀ p < 20, s.settleVf p = s) (hres : s.reserve = [])
    (hlist : s.waitList d = [b]) (hgang : (s.blk b).gang = none) (himg : (s.blk b).image = false) (hheld : s.heldOn b = none)
    (hf : (s.facetsOf (s.blk b).coreOrder).find? (fun f => s.facetAdmits b f true) = some f) :
    ∃ R, execBlockAdmission d s = .next { s.launch b f with reserve := R } := by
  obtain ⟨hb, hw⟩ := State.of_mem_waitList (hlist ▸ List.mem_singleton_self b)
  have hsettled : ∀ l : List Nat, (∀ p ∈ l, s.settleVf p = s) → l.foldl (fun (t : State) p => t.settleVf p) s = s := by
    intro l
    induction l with
    | nil => exact fun _ => rfl
    | cons p l ih =>
      intro h
      rw [List.foldl_cons, h p List.mem_cons_self]
      exact ih fun p hp => h p (List.mem_cons_of_mem _ hp)
  have hdrop : s.dropReserves = s := by
    unfold State.dropReserves
    rw [hres]
    exact congrArg (fun R => { s with reserve := R }) hres.symm
  have hentry : s.tryEntry b = some (s.launch b f) := by
    simp [State.tryEntry, hgang, State.admitAll, State.admitTo, hheld, State.admitPlain, hf, State.enter, himg]
  rw [execBlockAdmission, if_neg (by omega), hsettled _ fun p hp => hset p (List.mem_range.mp hp), hdrop]
  have hstep : s.admitStep d b = { s.launch b f with
      reserve := (s.launch b f).reserve.keep fun _ r => (s.launch b f).blocks.has r && (s.launch b f).entryWaits r } := by
    simp [State.admitStep, hgang, hres, hb, hw, hentry]
  simp only [hlist, List.foldl_cons, List.foldl_nil]
  exact ⟨_, congrArg Host.Outcome.next hstep⟩

/-- The block of a waiting list alone, of no gang and with no image, is launched on the first facet that admits it. -/
theorem blocksLaunch (d b f : Nat) (s : State) (x : Block) (hd : d ≤ 3) (hset : ∀ p < 20, s.settleVf p = s) (hres : s.reserve = [])
    (hlist : s.waitList d = [b]) (hx : x = s.blk b) (hgang : x.gang = none) (himg : x.image = false) (hheld : s.heldOn b = none)
    (hf : (s.facetsOf x.coreOrder).find? (fun f => s.facetAdmits b f true) = some f) : ∃ t : State,
       exec (.blockAdmission d) s = .next t ∧ (t.blk b).phase = .resident ∧ (t.blk b).facet = f ∧
       (∀ i < x.node.groups, t.hasSplit b i 0 = true ∧ (t.spl b i 0).pc = BitVec.ofNat 64 x.node.code ∧
         (t.spl b i 0).am = allLanes x.node.width ∧ (t.spl b i 0).cm = allLanes x.node.width ∧
         (t.spl b i 0).wait = .ready ∧ (t.spl b i 0).stack = [] ∧
         (3 ≤ x.node.sregs → pairVal ((t.grp b i).sregs.getD 0 0) ((t.grp b i).sregs.getD 1 0) =
           BitVec.ofNat 64 (s.firstSlot x) ∧ (t.grp b i).sregs.getD 2 0 = BitVec.ofNat 32 x.records.length)) ∧
       (x.node.facetw = 0 → (t.blk b).seq = none) ∧
       (x.node.facetw ≠ 0 → (t.blk b).seq = some (Seq.launch x.node.facetw (BitVec.ofNat 64 x.node.seqcode))) := by
  subst hx
  obtain ⟨R, hexec⟩ := execBlockAdmission_single hd hset hres hlist hgang himg hheld hf
  have hlaunch := State.find_launch (State.of_mem_waitList (hlist ▸ List.mem_singleton_self b)).1 f
  generalize s.launch b f = u at hexec hlaunch
  generalize s.blk b = x at hlaunch ⊢
  have hblk : ({ u with reserve := R } : State).blk b = s.launched f x := Table.getD_of_find _ hlaunch
  refine ⟨_, hexec, by rw [hblk]; rfl, by rw [hblk]; rfl, fun i hi => ?_, fun h => ?_, fun h => ?_⟩
  · obtain ⟨hsplit, hregs⟩ := launchGroup_spec x.node (s.facetWidth (coreOfFacet f)) i (BitVec.ofNat 64 (s.firstSlot x))
      x.records.length s.now
    have hgroup := Table.find_range_map (fun i => launchGroup x.node (s.facetWidth (coreOfFacet f)) i
      (BitVec.ofNat 64 (s.firstSlot x)) x.records.length s.now) hi
    have hgrp : ({ u with reserve := R } : State).grp b i = launchGroup x.node (s.facetWidth (coreOfFacet f)) i
        (BitVec.ofNat 64 (s.firstSlot x)) x.records.length s.now := by
      rw [State.grp, hblk]
      exact Table.getD_of_find _ hgroup
    have hspl : ({ u with reserve := R } : State).spl b i 0 = { Split.empty with
        pc := BitVec.ofNat 64 x.node.code, am := allLanes x.node.width, cm := allLanes x.node.width, pathStart := s.now,
        lastIssue := s.now } := by
      rw [State.spl, hgrp]
      rfl
    refine ⟨?_, by rw [hspl], by rw [hspl], by rw [hspl], by rw [hspl]; rfl, by rw [hspl]; rfl, by rw [hgrp]; exact hregs⟩
    simp only [State.hasSplit, hlaunch]
    rw [State.launched, hgroup]
    rfl
  · rw [hblk, State.launched, h]
    rfl
  · rw [hblk, State.launched, if_neg h]

/-- Settles O52: the distributor's looks and timeouts form blocks; the block at the head of a die's list is launched. -/
theorem blocksFormAndLaunch : Obligations.BlocksFormAndLaunch := by
  unfold Obligations.BlocksFormAndLaunch
  exact ⟨blocksForm, blocksLaunch⟩

end Sys2Proof.Machine

end


/-!
PROOFS. The registers of the executing unit: what each write of one leaves alone and gives, a write in every executing lane, and the
frame of an instruction that only changes registers (spec/03_lane_state.md R76, R83; 04 R96; 20 R419).
-/

section

namespace Sys2Proof.Machine

set_option linter.constructorNameAsVariable false

/-! ## The unit after a register write -/

/-- Of the executing unit, what no register write changes: whether it issues, its active lanes, its PC. -/
def State.unitView (s : State) : Bool × Mask × Dword := (s.issuing, s.lanes, s.pc)

theorem State.issuing_of_unitView {s t : State} (h : t.unitView = s.unitView) : t.issuing = s.issuing := (congrArg Prod.fst h :)
theorem State.lanes_of_unitView {s t : State} (h : t.unitView = s.unitView) : t.lanes = s.lanes := (congrArg (·.2.1) h :)
theorem State.pc_of_unitView {s t : State} (h : t.unitView = s.unitView) : t.pc = s.pc := (congrArg (·.2.2) h :)

/-- A change of a block that keeps its phase, its node and the splits of its groups. -/
theorem State.unitView_modBlk (s : State) (b : Nat) {F : Block → Block} {g : Nat} {f : Group → Group}
    (hp : ∀ x, (F x).phase = x.phase) (hn : ∀ x, (F x).node = x.node) (hg : ∀ x, (F x).groups = x.groups.modify g f)
    (hf : ∀ y, (f y).splits = y.splits) : (s.modBlk b F).unitView = s.unitView := by
  have hspl (b' g' k : Nat) : (s.modBlk b F).spl b' g' k = s.spl b' g' k := by
    refine Table.proj_getD_modify (fun x : Block => (x.groups.getD g' Group.empty).spl k) fun x => ?_
    simp only [hg]
    exact Table.proj_getD_modify (fun y : Group => y.spl k) fun y => by rw [Group.spl, hf, Group.spl]
  have hnode (b' : Nat) : ((s.modBlk b F).blk b').node = (s.blk b').node := s.blk_modBlk_node b b' F hn
  have hsplit (b' g' k : Nat) : (s.modBlk b F).hasSplit b' g' k = s.hasSplit b' g' k := by
    simp only [State.hasSplit, State.modBlk]
    by_cases hb : b' = b
    · subst hb
      rw [Table.find_modify_self]
      cases s.blocks.find b' with
      | none => rfl
      | some x =>
        simp only [Option.map_some, hp, hg]
        by_cases hg' : g' = g
        · subst hg'
          rw [Table.find_modify_self]
          cases x.groups.find g' with
          | none => rfl
          | some y => simp only [Option.map_some, hf]
        · rw [Table.find_modify_other _ _ _ _ hg']
    · rw [Table.find_modify_other _ _ _ _ hb]
  simp only [State.unitView, State.issuing, State.lanes, State.pc, State.modBlk_focus, hsplit, hspl, Block.width, hnode]
  rfl

/-- A change of a context that keeps its lane and its PC. -/
theorem State.unitView_modCtx (s : State) (c : Nat) {F : Comet → Comet} (hl : ∀ x, (F x).lane = x.lane)
    (hpc : ∀ x, (F x).pc = x.pc) : (s.modCtx c F).unitView = s.unitView := by
  have hhas (c' : Nat) : (s.modCtx c F).comets.has c' = s.comets.has c' := Table.has_modify ..
  have hlane (c' : Nat) : ((s.modCtx c F).ctx c').lane = (s.ctx c').lane := Table.proj_getD_modify Comet.lane hl
  have hpc' (c' : Nat) : ((s.modCtx c F).ctx c').pc = (s.ctx c').pc := Table.proj_getD_modify Comet.pc hpc
  simp only [State.unitView, State.issuing, State.lanes, State.pc, State.modCtx_focus, hhas, hlane, hpc']
  rfl

@[simp] theorem State.unitView_wrV (s : State) (m l : Nat) (v : Word) : (s.wrV m l v).unitView = s.unitView := by
  simp [State.unitView]

@[simp] theorem State.unitView_wrS (s : State) (m : Nat) (v : Word) : (s.wrS m v).unitView = s.unitView := by
  unfold State.wrS
  split
  · exact s.unitView_modBlk _ (fun _ => rfl) (fun _ => rfl) (fun _ => rfl) fun _ => by rfl
  · exact s.unitView_modCtx _ (fun _ => rfl) fun _ => rfl
  · rfl

@[simp] theorem State.unitView_wrPair (s : State) (k : PairIx) (l : Nat) (b : Bool) : (s.wrPair k l b).unitView = s.unitView := by
  unfold State.wrPair
  split
  · rfl
  · split
    · exact s.unitView_modBlk _ (fun _ => rfl) (fun _ => rfl) (fun _ => rfl) fun _ => by rfl
    · exact s.unitView_modCtx _ (fun _ => rfl) fun _ => rfl
    · rfl

@[simp] theorem State.unitView_wrVPair (s : State) (m l : Nat) (v : Dword) : (s.wrVPair m l v).unitView = s.unitView := by
  simp [State.wrVPair]

@[simp] theorem State.unitView_wrSPair (s : State) (m : Nat) (v : Dword) : (s.wrSPair m v).unitView = s.unitView := by
  simp [State.wrSPair]

@[simp] theorem State.unitView_wrVn (s : State) (w : Bool) (m l v : Nat) : (s.wrVn w m l v).unitView = s.unitView := by
  cases w <;> simp [State.wrVn]

@[simp] theorem State.unitView_wrSn (s : State) (w : Bool) (m v : Nat) : (s.wrSn w m v).unitView = s.unitView := by
  cases w <;> simp [State.wrSn]

theorem State.unitView_putLanes (s : State) (ls : List Nat) {f : State → Nat → State} (hf : ∀ t l, (f t l).unitView = t.unitView) :
    (s.putLanes ls f).unitView = s.unitView := State.putLanes_proj State.unitView _ _ _ hf

/-! ## What a register write gives -/

/-- A uniform register reads as it was last written. -/
theorem State.rdS_wrS {s : State} (hi : s.issuing = true) (m : Nat) (v : Word) (j : Nat) :
    (s.wrS m v).rdS j = if j = m then v else s.rdS j := by
  have hread (t : Table Word) : (t.set m v).getD j 0 = if j = m then v else t.getD j 0 := by
    split
    · next h => rw [h, Table.getD_set_self]
    · next h => exact Table.getD_set_other _ _ _ _ _ h
  rcases s.issuing_cases hi with ⟨b, g, k, -, -, hf, -⟩ | ⟨c, hf, hc⟩
  · obtain ⟨hb, hg, -⟩ := State.listed_of_issuing hf hi
    have hgrp : ((s.wrS m v).grp b g).sregs = (s.grp b g).sregs.set m v := by
      rw [State.wrS, hf, State.grp]
      dsimp only
      rw [s.blk_modBlk_self b _ hb]
      exact congrArg Group.sregs (Table.getD_modify_self _ _ _ _ hg)
    simp only [State.rdS, State.wrS_focus, hf, hgrp, hread]
  · have hctx : ((s.wrS m v).ctx c).sregs = (s.ctx c).sregs.set m v := by
      rw [State.wrS, hf]
      exact congrArg Comet.sregs (s.ctx_modCtx_self c _ hc)
    simp only [State.rdS, State.wrS_focus, hf, hctx, hread]

theorem State.rdSPair_wrSPair {s : State} (hi : s.issuing = true) (m : Nat) (v : Dword) : (s.wrSPair m v).rdSPair m = v := by
  have hi' : (s.wrS m (lowWord v)).issuing = true := (State.issuing_of_unitView (by simp)).trans hi
  simp only [State.rdSPair, State.wrSPair, State.rdS_wrS hi', State.rdS_wrS hi, if_true, Nat.succ_ne_self,
    (Nat.succ_ne_self m).symm, if_false]
  exact pairVal_lowWord_highWord v

theorem hasLane_putLane_other (m : Mask) {l l' : Nat} (h : l' ≠ l) (b : Bool) : hasLane (putLane m l b) l' = hasLane m l' := by
  have hbit : hasLane (laneBit l) l' = false := by simp [hasLane_laneBit, h]
  unfold putLane
  split
  · rw [hasLane_or, hbit, Bool.or_false]
  · rw [show m &&& ~~~laneBit l = minusLanes m (laneBit l) from rfl, hasLane_minusLanes, hbit]
    simp

theorem PairIx.toNat_eq_zero {k : PairIx} : k.toNat = 0 ↔ k = 0 := by
  rw [← BitVec.toNat_inj]
  rfl

/-- A pair of an active lane reads as it was last written; pair 0 holds 1 (03 R76). -/
theorem State.pairBit_wrPair {s : State} (hi : s.issuing = true) (k : PairIx) {l : Nat} (v : Bool) (hl : hasLane s.lanes l = true) :
    (s.wrPair k l v).pairBit k.toNat l = (k == 0 || v) := by
  by_cases hk : k = 0
  · subst hk; rfl
  · have hk' : k.toNat ≠ 0 := fun h => hk (PairIx.toNat_eq_zero.mp h)
    rw [show (k == 0) = false by simpa using hk, Bool.false_or]
    rcases s.issuing_cases hi with ⟨b, g, j, -, -, hf, -⟩ | ⟨c, hf, hc⟩
    · obtain ⟨hb, hg, -⟩ := State.listed_of_issuing hf hi
      have hgrp : ((s.wrPair k l v).grp b g).preds = (s.grp b g).preds.set k.toNat (putLane ((s.grp b g).preds.getD k.toNat 0) l v) := by
        rw [State.wrPair, if_neg hk, hf]
        exact congrArg Group.preds (State.grp_modGrp_self hb hg _)
      simp only [State.pairBit, if_neg hk', State.wrPair_focus, hf, hgrp, Table.getD_set_self]
      exact hasLane_putLane _ (lt_of_hasLane hl) v
    · have hctx : ((s.wrPair k l v).ctx c).preds = (s.ctx c).preds.set k.toNat v := by
        rw [State.wrPair, if_neg hk, hf]
        exact congrArg Comet.preds (s.ctx_modCtx_self c _ hc)
      simp only [State.pairBit, if_neg hk', State.wrPair_focus, hf, hctx, Table.getD_set_self]

/-- Another active lane's pair stays as it is. -/
theorem State.pairBit_wrPair_other {s : State} (k : PairIx) {l l' : Nat} (v : Bool) (hl : hasLane s.lanes l = true)
    (hl' : hasLane s.lanes l' = true) (h : l' ≠ l) (j : Nat) : (s.wrPair k l v).pairBit j l' = s.pairBit j l' := by
  unfold State.wrPair
  split
  · rfl
  · split
    · next b g i hf =>
      simp only [State.pairBit, State.modGrp_focus, hf]
      split
      · rfl
      · refine Table.proj_getD_modify (fun x : Block => hasLane ((x.groups.getD g Group.empty).preds.getD j 0) l') fun x => ?_
        refine Table.proj_getD_modify (fun y : Group => hasLane (y.preds.getD j 0) l') fun y => ?_
        dsimp only
        by_cases hj : j = k.toNat
        · rw [hj, Table.getD_set_self, hasLane_putLane_other _ h]
        · rw [Table.getD_set_other _ _ _ _ _ hj]
    · next c hf =>
      have hone (j : Nat) (hj : hasLane s.lanes j = true) : j = (s.ctx c).lane := by
        rw [State.lanes, hf] at hj
        simp only [hasLane_laneBit, Bool.and_eq_true, decide_eq_true_eq] at hj
        exact hj.2
      exact absurd ((hone l' hl').trans (hone l hl).symm) h
    · rfl

@[simp] theorem State.rdV_wrPair (s : State) (k : PairIx) (l : Nat) (b : Bool) (m l' : Nat) :
    (s.wrPair k l b).rdV m l' = s.rdV m l' := by
  unfold State.wrPair
  split
  · rfl
  · split
    · exact s.rdV_modGrp ..
    · next c hf =>
      simp only [State.rdV, State.modCtx_focus, hf]
      exact Table.proj_getD_modify (fun x : Comet => x.vregs.getD m 0) fun _ => rfl
    · rfl

@[simp] theorem State.pairBit_wrV (s : State) (m l : Nat) (v : Word) (j l' : Nat) :
    (s.wrV m l v).pairBit j l' = s.pairBit j l' := by
  unfold State.wrV
  split
  · next b g k hf =>
    simp only [State.pairBit, State.modBlk_focus, hf]
    split
    · rfl
    · exact Table.proj_getD_modify (fun x : Block => hasLane ((x.groups.getD g Group.empty).preds.getD j 0) l') fun _ => rfl
  · next c hf =>
    simp only [State.pairBit, State.modCtx_focus, hf]
    split
    · rfl
    · exact Table.proj_getD_modify (fun x : Comet => x.preds.getD j false) fun _ => rfl
  · rfl

@[simp] theorem State.rdS_wrPair (s : State) (k : PairIx) (l : Nat) (b : Bool) (m : Nat) : (s.wrPair k l b).rdS m = s.rdS m := by
  unfold State.wrPair
  split
  · rfl
  · split
    · next b g i hf =>
      simp only [State.rdS, State.modGrp_focus, hf]
      exact Table.proj_getD_modify (fun x : Block => (x.groups.getD g Group.empty).sregs.getD m 0) fun _ =>
        Table.proj_getD_modify (fun y : Group => y.sregs.getD m 0) fun _ => rfl
    · next c hf =>
      simp only [State.rdS, State.modCtx_focus, hf]
      exact Table.proj_getD_modify (fun x : Comet => x.sregs.getD m 0) fun _ => rfl
    · rfl

section
variable {β : Type} {r : State → Nat → β} {f : State → Nat → State} (hkeep : ∀ t l, (f t l).unitView = t.unitView)
  (hother : ∀ t l l', t.issuing = true → hasLane t.lanes l = true → hasLane t.lanes l' = true → l' ≠ l → r (f t l) l' = r t l')
include hkeep hother

/-- What every step keeps of the other lanes, a row of steps keeps of the lanes outside its list. -/
theorem State.read_putLanes_elsewhere {ls : List Nat} {s : State} (hi : s.issuing = true) (hl : ∀ l ∈ ls, hasLane s.lanes l = true)
    {l' : Nat} (hl' : hasLane s.lanes l' = true) (hn : l' ∉ ls) : r (s.putLanes ls f) l' = r s l' := by
  induction ls generalizing s with
  | nil => rfl
  | cons a ls ih =>
    rw [List.mem_cons, not_or] at hn
    have hlanes := State.lanes_of_unitView (hkeep s a)
    rw [State.putLanes_cons, ih ((State.issuing_of_unitView (hkeep s a)).trans hi)
      (fun j hj => by rw [hlanes]; exact hl j (List.mem_cons_of_mem _ hj)) (by rw [hlanes]; exact hl') hn.2]
    exact hother s a l' hi (hl a List.mem_cons_self) hl' hn.1

/-- What a step gives its own lane and keeps of every other lane, the row of the steps gives every lane of the list. -/
theorem State.read_putLanes {v : Nat → β} (hself : ∀ t l, t.issuing = true → hasLane t.lanes l = true → r (f t l) l = v l)
    {ls : List Nat} (hn : ls.Nodup) {s : State} (hi : s.issuing = true) (hl : ∀ l ∈ ls, hasLane s.lanes l = true) {l : Nat}
    (hmem : l ∈ ls) : r (s.putLanes ls f) l = v l := by
  induction ls generalizing s with
  | nil => exact absurd hmem List.not_mem_nil
  | cons a ls ih =>
    obtain ⟨ha, hn⟩ := List.nodup_cons.mp hn
    have hi' := (State.issuing_of_unitView (hkeep s a)).trans hi
    have hlanes := State.lanes_of_unitView (hkeep s a)
    have hl' : ∀ j ∈ ls, hasLane (f s a).lanes j = true := fun j hj => by
      rw [hlanes]
      exact hl j (List.mem_cons_of_mem _ hj)
    rw [State.putLanes_cons]
    rcases List.mem_cons.mp hmem with rfl | hmem
    · have hll := hl l List.mem_cons_self
      rw [State.read_putLanes_elsewhere hkeep hother hi' hl' (by rw [hlanes]; exact hll) ha]
      exact hself s l hi hll
    · exact ih hn hi' hl' hmem

end

/-! ## The frame of registers -/

theorem RegsOnly.focus {ls D U P : List Nat} {s t : State} (h : RegsOnly ls D U P s t) : t.focus = s.focus := by
  unfold RegsOnly at h
  split at h
  · rw [h.1]
  · rw [h.1]
  · rw [h]

/-- The group of the unit with other uniform registers or predicates, and the block's list of poisoned words. -/
def Block.setUniform (g : Nat) (f : Group → Group) (r : List Nat → List Nat) (x : Block) : Block :=
  { x.modGrp g f with poisonRegs := r x.poisonRegs }

section
variable {ls D U P : List Nat} {s t : State} (h : RegsOnly ls D U P s t) (ht : t.issuing = true)
include h ht

/-- A change of uniform registers and predicates of the frame, in a split's group. -/
theorem RegsOnly.setUniform {b g k : Nat} (hf : s.focus = .split b g k) {f : Group → Group} {r : List Nat → List Nat}
    (hr : ∀ l key, (∀ m ∈ U, key ≠ uniformKey g m) → (r l).contains key = l.contains key)
    (hrest : ∀ y, f y = { y with sregs := (f y).sregs, preds := (f y).preds })
    (hu : ∀ y m, m ∉ U → (f y).sregs.getD m 0 = y.sregs.getD m 0)
    (hp : ∀ y j l, ¬(j ∈ P ∧ l ∈ ls) → hasLane ((f y).preds.getD j 0) l = hasLane (y.preds.getD j 0) l) :
    RegsOnly ls D U P s (t.modBlk b (Block.setUniform g f r)) := by
  unfold RegsOnly at h ⊢
  simp only [hf] at h ⊢
  obtain ⟨hrest', hblks, hblk, hbad, hv, hgrps, hgrp, hu', hp', hspls, hspl⟩ := h
  have hft : t.focus = .split b g k := by rw [hrest']
  obtain ⟨hb, hg, -⟩ := State.listed_of_issuing hft ht
  have hnew := t.blk_modBlk_self b (Block.setUniform g f r) hb
  have hnewg : (t.modBlk b (Block.setUniform g f r)).grp b g = f (t.grp b g) := by
    rw [State.grp, hnew]
    exact Table.getD_modify_self _ _ _ _ hg
  have hsplits : (f (t.grp b g)).splits = (t.grp b g).splits := by rw [hrest]
  refine ⟨?_, fun b' hb' => ?_, ?_, fun key hd hk => ?_, ?_, fun g' hg' => ?_, ?_, fun m hm => ?_, fun j l hjl => ?_, ?_, ?_⟩
  · exact congrArg (fun u : State => { u with blocks := (t.modBlk b (Block.setUniform g f r)).blocks }) hrest'
  · rw [← hblks b' hb']
    exact Table.find_modify_other _ _ _ _ hb'
  · rw [hnew]
    exact congrArg (Block.setUniform g f r) hblk
  · rw [hnew, ← hbad key hd hk]
    exact hr _ key hk
  · rw [hnew]; exact hv
  · rw [hnew, ← hgrps g' hg']
    exact Table.find_modify_other _ _ _ _ hg'
  · rw [hnewg, hrest]
    exact congrArg (fun y : Group => { y with sregs := (f (t.grp b g)).sregs, preds := (f (t.grp b g)).preds }) hgrp
  · rw [hnewg, hu _ m hm, hu' m hm]
  · rw [hnewg, hp _ j l hjl, hp' j l hjl]
  · rw [hnewg, hsplits]; exact hspls
  · rw [State.spl, hnewg, Group.spl, hsplits]; exact hspl

/-- A change of uniform registers and predicates of the frame, in a context. -/
theorem RegsOnly.setContext {c : Nat} (hf : s.focus = .comet c) {f : Comet → Comet}
    (hrest : ∀ x, f x = { x with sregs := (f x).sregs, preds := (f x).preds, poisonRegs := (f x).poisonRegs })
    (hr : ∀ x key, (∀ m ∈ U, key ≠ uniformKey 0 m) → (f x).poisonRegs.contains key = x.poisonRegs.contains key)
    (hu : ∀ x m, m ∉ U → (f x).sregs.getD m 0 = x.sregs.getD m 0)
    (hp : ∀ x j, ¬(j ∈ P ∧ ls ≠ []) → (f x).preds.getD j false = x.preds.getD j false) :
    RegsOnly ls D U P s (t.modCtx c f) := by
  unfold RegsOnly at h ⊢
  simp only [hf] at h ⊢
  obtain ⟨hrest', hctxs, hctx, hbad, hv, hu', hp'⟩ := h
  have hft : t.focus = .comet c := by rw [hrest']
  have hnew := t.ctx_modCtx_self c f (State.listed_of_issuing_comet hft ht)
  have hvregs : (f (t.ctx c)).vregs = (t.ctx c).vregs := by rw [hrest]
  refine ⟨?_, fun c' hc' => ?_, ?_, fun key hd hk => ?_, ?_, fun m hm => ?_, fun j hj => ?_⟩
  · exact congrArg (fun u : State => { u with comets := (t.modCtx c f).comets }) hrest'
  · rw [← hctxs c' hc']
    exact Table.find_modify_other _ _ _ _ hc'
  · rw [hnew, hrest]
    exact congrArg (fun x : Comet => { x with
      sregs := (f (t.ctx c)).sregs, preds := (f (t.ctx c)).preds, poisonRegs := (f (t.ctx c)).poisonRegs }) hctx
  · rw [hnew, hr _ key hk, hbad key hd hk]
  · rw [hnew, hvregs]; exact hv
  · rw [hnew, hu _ m hm, hu' m hm]
  · rw [hnew, hp _ j hj, hp' j hj]

/-- Writing a uniform register of the frame keeps the frame. -/
theorem RegsOnly.wrS {m : Nat} (hm : m ∈ U) (v : Word) : RegsOnly ls D U P s (t.wrS m v) := by
  have hset (x : Table Word) (j : Nat) (hj : j ∉ U) : (x.set m v).getD j 0 = x.getD j 0 :=
    Table.getD_set_other _ _ _ _ _ fun e => hj (e ▸ hm)
  have hft : t.focus = s.focus := h.focus
  rcases t.issuing_cases ht with ⟨b, g, k, -, -, hf, -⟩ | ⟨c, hf, -⟩
  · rw [State.wrS, hf]
    exact h.setUniform ht (hft ▸ hf) (f := fun y => { y with sregs := y.sregs.set m v }) (r := (·.filter (· != uniformKey g m)))
      (fun _ _ hk => contains_filter_ne (hk m hm)) (fun _ => rfl) (fun _ => hset _) fun _ _ _ _ => rfl
  · rw [State.wrS, hf]
    exact h.setContext ht (hft ▸ hf) (fun _ => rfl) (fun _ _ hk => contains_filter_ne (hk m hm)) (fun _ => hset _) fun _ _ _ => rfl

/-- Writing a pair of the frame keeps the frame. -/
theorem RegsOnly.wrPair {k : PairIx} (hk : k.toNat ∈ P) {l : Nat} (hl : l ∈ ls) (v : Bool) :
    RegsOnly ls D U P s (t.wrPair k l v) := by
  have hft : t.focus = s.focus := h.focus
  unfold State.wrPair
  split
  · exact h
  · rcases t.issuing_cases ht with ⟨b, g, i, -, -, hf, -⟩ | ⟨c, hf, -⟩
    · rw [hf]
      refine h.setUniform ht (hft ▸ hf) (r := fun x => x)
        (f := fun y => { y with preds := y.preds.set k.toNat (putLane (y.preds.getD k.toNat 0) l v) })
        (fun _ _ _ => rfl) (fun _ => rfl) (fun _ _ _ => rfl) fun y j l' hj => ?_
      dsimp only
      by_cases e : j = k.toNat
      · rw [e, Table.getD_set_self, hasLane_putLane_other _ fun e' : l' = l => hj ⟨e ▸ hk, e' ▸ hl⟩]
      · rw [Table.getD_set_other _ _ _ _ _ e]
    · rw [hf]
      exact h.setContext ht (hft ▸ hf) (fun _ => rfl) (fun _ _ _ => rfl) (fun _ _ _ => rfl) fun _ j hj =>
        Table.getD_set_other _ _ _ _ _ fun e => hj ⟨e ▸ hk, List.ne_nil_of_mem hl⟩

end

/-! ## Registers after the PC is set -/

theorem State.rdS_skip (s : State) (n m : Nat) : (s.skip n).rdS m = s.rdS m := (sameRegs.skip s n).2.1 m

theorem State.rdVn_skip (s : State) (n : Nat) (w : Bool) (m l : Nat) : (s.skip n).rdVn w m l = s.rdVn w m l := by
  simp only [State.rdVn, State.rdVPair, State.rdV_skip]

theorem State.rdSn_skip (s : State) (n : Nat) (w : Bool) (m : Nat) : (s.skip n).rdSn w m = s.rdSn w m := by
  simp only [State.rdSn, State.rdSPair, State.rdS_skip]

theorem State.rdVPair_skip (s : State) (n m l : Nat) : (s.skip n).rdVPair m l = s.rdVPair m l := by
  simp only [State.rdVPair, State.rdV_skip]

theorem State.rdSPair_skip (s : State) (n m : Nat) : (s.skip n).rdSPair m = s.rdSPair m := by
  simp only [State.rdSPair, State.rdS_skip]

/-- A stored pair is what its even predicate reads. -/
theorem State.pairBit_eq_rdP (s : State) (k : PairIx) (l : Nat) : s.pairBit k.toNat l = s.rdP (k ++ 0#1) l := by
  have h : (k ++ 0#1 : BitVec (3 + 1)).toNat = 2 * k.toNat := by
    rw [BitVec.toNat_append, Nat.shiftLeft_eq, Nat.mul_comm]
    exact Nat.or_zero _
  rw [State.rdP, if_pos (by omega), h, Nat.mul_div_cancel_left _ (by decide)]

theorem State.pairBit_skip (s : State) (n : Nat) (k : PairIx) (l : Nat) : (s.skip n).pairBit k.toNat l = s.pairBit k.toNat l := by
  rw [State.pairBit_eq_rdP, State.pairBit_eq_rdP, (sameRegs.skip s n).2.2]

/-! ## Registers of 32 or 64 bits -/

@[simp] theorem State.rdVn_false (s : State) (m l : Nat) : s.rdVn false m l = (s.rdV m l).toNat := rfl
@[simp] theorem State.rdVn_true (s : State) (m l : Nat) : s.rdVn true m l = (s.rdVPair m l).toNat := rfl
@[simp] theorem State.rdSn_false (s : State) (m : Nat) : s.rdSn false m = (s.rdS m).toNat := rfl
@[simp] theorem State.rdSn_true (s : State) (m : Nat) : s.rdSn true m = (s.rdSPair m).toNat := rfl

theorem State.rdVPair_wrVPair {s : State} (hi : s.issuing = true) (m : Nat) {l : Nat} (v : Dword) (hl : hasLane s.lanes l = true) :
    (s.wrVPair m l v).rdVPair m l = v :=
  State.rdVPair_putLanes hi (List.nodup_singleton l) (by simpa using hl) m (fun _ => v) List.mem_cons_self

theorem State.rdVn_wrVn {s : State} (hi : s.issuing = true) (w : Bool) (m : Nat) {l : Nat} (x : Nat) (hl : hasLane s.lanes l = true) :
    (s.wrVn w m l x).rdVn w m l = x % 2 ^ nOf w := by
  cases w with
  | false =>
    simp only [State.wrVn, Bool.false_eq_true, if_false, State.rdVn_false, s.rdV_wrV hi _ _ _ _ _ hl hl, and_self, if_true]
    rfl
  | true =>
    simp only [State.wrVn, if_true, State.rdVn_true, State.rdVPair_wrVPair hi _ _ hl]
    rfl

theorem State.rdSn_wrSn {s : State} (hi : s.issuing = true) (w : Bool) (m x : Nat) :
    (s.wrSn w m x).rdSn w m = x % 2 ^ nOf w := by
  cases w with
  | false =>
    simp only [State.wrSn, Bool.false_eq_true, if_false, State.rdSn_false, State.rdS_wrS hi, if_true]
    rfl
  | true =>
    simp only [State.wrSn, if_true, State.rdSn_true, State.rdSPair_wrSPair hi]
    rfl

/-- A register outside D is not written. -/
theorem State.rdV_wrVn {s : State} (hi : s.issuing = true) (w : Bool) (m : Nat) {l l' : Nat} (x : Nat) (hl : hasLane s.lanes l = true)
    (hl' : hasLane s.lanes l' = true) {j : Nat} (h : l' = l → j < m ∨ m + wn w ≤ j) : (s.wrVn w m l x).rdV j l' = s.rdV j l' := by
  cases w with
  | false =>
    rw [State.wrVn, if_neg (by decide), s.rdV_wrV hi _ _ _ _ _ hl hl', if_neg]
    rintro ⟨rfl, e⟩
    simpa [wn] using h e
  | true =>
    have hi' : (s.wrV m l (lowWord (BitVec.ofNat 64 x))).issuing = true := by simpa using hi
    rw [State.wrVn, if_pos rfl, State.wrVPair, State.rdV_wrV _ hi' _ _ _ _ _ (by simpa using hl) (by simpa using hl'),
      s.rdV_wrV hi _ _ _ _ _ hl hl', if_neg, if_neg]
    · rintro ⟨rfl, e⟩
      simpa [wn] using h e
    · rintro ⟨rfl, e⟩
      simpa [wn] using h e

theorem State.rdVn_wrVn_other {s : State} (hi : s.issuing = true) (w w' : Bool) (m : Nat) {l l' : Nat} (x : Nat)
    (hl : hasLane s.lanes l = true) (hl' : hasLane s.lanes l' = true) (h : l' ≠ l) (j : Nat) :
    (s.wrVn w m l x).rdVn w' j l' = s.rdVn w' j l' := by
  have hread (j : Nat) := State.rdV_wrVn hi w m x hl hl' (j := j) fun e => absurd e h
  cases w' <;> simp [State.rdVPair, hread]

/-- A register after the pair or word is written by another instruction's step. -/
theorem State.rdVn_wrV {s : State} (hi : s.issuing = true) (w : Bool) {m c l l' : Nat} (v : Word) (hl : hasLane s.lanes l = true)
    (hl' : hasLane s.lanes l' = true) (h : l' = l → m + wn w ≤ c) : (s.wrV c l v).rdVn w m l' = s.rdVn w m l' := by
  have hread {j : Nat} (hj : l' = l → j ≠ c) : (s.wrV c l v).rdV j l' = s.rdV j l' := by
    rw [s.rdV_wrV hi _ _ _ _ _ hl hl', if_neg fun e => hj e.2 e.1]
  cases w with
  | false =>
    simp only [wn, Bool.false_eq_true, if_false] at h
    rw [State.rdVn_false, State.rdVn_false, hread fun e => by have := h e; omega]
  | true =>
    simp only [wn, if_true] at h
    rw [State.rdVn_true, State.rdVn_true, State.rdVPair, State.rdVPair, hread fun e => by have := h e; omega,
      hread fun e => by have := h e; omega]

theorem State.rdSn_wrS {s : State} (hi : s.issuing = true) (w : Bool) {m c : Nat} (v : Word) (h : m + wn w ≤ c) :
    (s.wrS c v).rdSn w m = s.rdSn w m := by
  have hread {j : Nat} (hj : j ≠ c) : (s.wrS c v).rdS j = s.rdS j := by rw [State.rdS_wrS hi, if_neg hj]
  cases w with
  | false => rw [State.rdSn_false, State.rdSn_false, hread (by simp [wn] at h; omega)]
  | true =>
    simp only [wn, if_true] at h
    rw [State.rdSn_true, State.rdSn_true, State.rdSPair, State.rdSPair, hread (by omega), hread (by omega)]

/-! ## The last source (02 R44, R98) -/

theorem State.srcVal_false (s : State) (sx : Bool) (src : Src) (l : Nat) : s.srcVal false sx src l = (s.last32 src l).toNat := by
  cases src <;> rfl

theorem State.srcVal_true (s : State) (sx : Bool) (src : Src) (l : Nat) : s.srcVal true sx src l = (s.last64 sx src l).toNat := by
  cases src with
  | lit x =>
    cases sx with
    | false =>
      have := x.isLt
      show x.toNat = (x.setWidth 64).toNat
      rw [BitVec.toNat_setWidth, Nat.mod_eq_of_lt (by omega)]
    | true => rfl
  | _ => rfl

/-- The last source of an integer major of 64 bits. -/
theorem State.srcVal_intOperands (s : State) (i : Instr) (src : Src) (l : Nat) :
    s.srcVal (!countForm i && true) (!countForm i && !zeroLiteral i) src l = (s.last64Of i src l).toNat := by
  rw [State.last64Of]
  cases countForm i with
  | true =>
    have := (s.last32 src l).isLt
    rw [if_pos rfl, BitVec.toNat_setWidth, Nat.mod_eq_of_lt (by omega)]
    exact s.srcVal_false ..
  | false => exact s.srcVal_true ..

/-! ## Effects on registers -/

/-- Writing registers of the frame in each lane of a list keeps the frame. -/
theorem RegsOnly.putLanes_of {ls D U P : List Nat} {s t : State} (h : RegsOnly ls D U P s t) (ht : t.issuing = true)
    {f : State → Nat → State} (hkeep : ∀ u l, (f u l).unitView = u.unitView)
    (hf : ∀ u l, l ∈ ls → u.issuing = true → RegsOnly ls D U P s u → RegsOnly ls D U P s (f u l)) {ns : List Nat}
    (hn : ∀ l ∈ ns, l ∈ ls) : RegsOnly ls D U P s (t.putLanes ns f) := by
  induction ns generalizing t with
  | nil => exact h
  | cons n ns ih =>
    exact ih (hf t n (hn n List.mem_cons_self) ht h) ((State.issuing_of_unitView (hkeep t n)).trans ht) fun l hl =>
      hn l (List.mem_cons_of_mem _ hl)

theorem RegsOnly.wrVn {ls D U P : List Nat} {s t : State} (h : RegsOnly ls D U P s t) (ht : t.issuing = true) {w : Bool} {m l : Nat}
    (hm : ∀ j < wn w, m + j ∈ D) (hl : l ∈ ls) (x : Nat) : RegsOnly ls D U P s (t.wrVn w m l x) := by
  cases w with
  | false => exact h.wrV ht (hm 0 (by decide)) hl _
  | true => exact (h.wrV ht (hm 0 (by decide)) hl _).wrV (by simpa using ht) (hm 1 (by decide)) hl _

theorem RegsOnly.wrSn {ls D U P : List Nat} {s t : State} (h : RegsOnly ls D U P s t) (ht : t.issuing = true) {w : Bool} {m : Nat}
    (hm : ∀ j < wn w, m + j ∈ U) (x : Nat) : RegsOnly ls D U P s (t.wrSn w m x) := by
  cases w with
  | false => exact h.wrS ht (hm 0 (by decide)) _
  | true =>
    exact (h.wrS ht (hm 0 (by decide)) _).wrS ((State.issuing_of_unitView (by simp)).trans ht) (hm 1 (by decide)) _

/-- An effect that changes, in the executing lanes, registers of a set, and neither the unit nor anything else. -/
structure Changes (g : Pred) (w : RegSet) (eff : State → State) : Prop where
  view (s : State) : (eff s).unitView = s.unitView
  frame (s : State) : s.issuing = true → RegsOnly (s.execs g) w.d w.u w.p s (eff s)

/-- An effect on each executing lane. -/
theorem Changes.lanes {g : Pred} {w : RegSet} {f : State → State → Nat → State}
    (hkeep : ∀ s t l, (f s t l).unitView = t.unitView)
    (hf : ∀ s t l, t.issuing = true → l ∈ s.execs g → RegsOnly (s.execs g) w.d w.u w.p s t →
      RegsOnly (s.execs g) w.d w.u w.p s (f s t l)) : Changes g w fun s => s.putLanes (lanesOf (s.exec g)) (f s) where
  view s := s.unitView_putLanes _ (hkeep s)
  frame s hi := (RegsOnly.refl ..).putLanes_of hi (hkeep s) (fun t l hl ht h => hf s t l ht hl h) fun _ h => h

/-- An effect once for the unit, where some lane executes. -/
theorem Changes.uniform {g : Pred} {w : RegSet} {f : State → State} (hkeep : ∀ s, (f s).unitView = s.unitView)
    (hf : ∀ s, s.issuing = true → RegsOnly (s.execs g) w.d w.u w.p s (f s)) :
    Changes g w fun s => if s.exec g = 0 then s else f s where
  view s := by
    split
    · rfl
    · exact hkeep s
  frame s hi := by
    split
    · exact .refl ..
    · exact hf s hi

/-- A lane instruction that only changes registers goes on to the next instruction. -/
theorem exec_of_laneSimple {i : Instr} {g : Pred} {s : State} {eff : State → State} (hx : exec i s = laneSimple i g s eff)
    (hm : s.mayIssue i g = true) (hv : (eff s).unitView = s.unitView) :
    exec i s = .next ((eff s).skip i.laneSize) ∧ ((eff s).skip i.laneSize).pc = s.after i := by
  have hi := (State.issuing_of_unitView hv).trans (issuing_of_mayIssue hm)
  exact ⟨hx.trans (laneSimple_of_mayIssue hm eff), by rw [State.pc_skip hi, State.pc_of_unitView hv, State.after]⟩

end Sys2Proof.Machine

end


/-!
PROOFS. The numbers that the integer majors compute are their results on bit vectors (spec/04_lane_integer.md R99, R102-R104).
-/

section

namespace Sys2Proof.Machine

set_option linter.constructorNameAsVariable false

/-! ## Numbers of n bits and bit vectors -/

section
variable {n : Nat}

theorem sgnN_toNat (hn : 0 < n) (x : BitVec n) : sgnN n x.toNat = x.toInt := by
  rw [BitVec.toInt_eq_toNat_cond, sgnN]
  have h2 : 2 ^ n = 2 * 2 ^ (n - 1) := by rw [← pow_succ', Nat.sub_add_cancel hn]
  have h : x.toNat < 2 ^ (n - 1) ↔ 2 * x.toNat < 2 ^ n := by omega
  simp only [h]
  push_cast
  rfl

theorem ofNat_wrapN (n : Nat) (i : Int) : BitVec.ofNat n (wrapN n i) = BitVec.ofInt n i := by
  apply BitVec.eq_of_toNat_eq
  rw [BitVec.toNat_ofNat, BitVec.toNat_ofInt, wrapN, Nat.mod_eq_of_lt]
  have := Int.emod_lt_of_pos i (b := ((2 ^ n : Nat) : Int)) (by exact_mod_cast Nat.two_pow_pos n)
  have := Int.emod_nonneg i (b := ((2 ^ n : Nat) : Int)) (by exact_mod_cast (Nat.two_pow_pos n).ne')
  omega

@[simp] theorem ofNat_mod_two_pow (n x : Nat) : BitVec.ofNat n (x % 2 ^ n) = BitVec.ofNat n x := by
  apply BitVec.eq_of_toNat_eq
  simp

theorem ofNat_toNat_sub (x y : BitVec n) : BitVec.ofNat n (x.toNat + 2 ^ n - y.toNat) = x - y := by
  apply BitVec.eq_of_toNat_eq
  have := y.isLt
  rw [BitVec.toNat_ofNat, BitVec.toNat_sub]
  congr 1
  omega

theorem ofNat_neg (y : BitVec n) : BitVec.ofNat n (2 ^ n - y.toNat) = -y := by
  apply BitVec.eq_of_toNat_eq
  rw [BitVec.toNat_ofNat, BitVec.toNat_neg]

theorem ofNat_onesN (n : Nat) : BitVec.ofNat n (onesN n) = BitVec.allOnes n := by
  apply BitVec.eq_of_toNat_eq
  have := Nat.two_pow_pos n
  rw [BitVec.toNat_ofNat, BitVec.toNat_allOnes, onesN, Nat.mod_eq_of_lt (by omega)]

theorem onesN_xor (y : BitVec n) : onesN n ^^^ y.toNat = (~~~y).toNat := by
  rw [← BitVec.allOnes_xor, BitVec.toNat_xor, BitVec.toNat_allOnes, onesN]

theorem bit_toNat (x : BitVec n) (i : Nat) : bit x.toNat i = x.getLsbD i := by
  rw [bit, ← BitVec.testBit_toNat, Nat.testBit_eq_decide_div_mod_eq]
  rfl

/-! ## The integer majors on n bits (04 R99-R104) -/

theorem sdiv_eq_ofInt (x y : BitVec n) : x.sdiv y = BitVec.ofInt n (x.toInt.tdiv y.toInt) := by
  apply BitVec.eq_of_toInt_eq
  rw [BitVec.toInt_sdiv, BitVec.toInt_ofInt]

/-- The most negative value by -1 gives itself (R102). -/
theorem ofInt_neg_least (hn : 0 < n) {x : BitVec n} (hx : x.toInt = -(2 ^ (n - 1) : Nat)) : BitVec.ofInt n (-x.toInt) = x := by
  have h2 : 2 ^ n = 2 * 2 ^ (n - 1) := by rw [← pow_succ', Nat.sub_add_cancel hn]
  have hneg : -x.toInt = x.toInt + (2 ^ n : Nat) := by rw [hx, h2]; push_cast; ring
  rw [hneg]
  apply BitVec.eq_of_toNat_eq
  rw [BitVec.toNat_ofInt, Int.add_emod_right, ← BitVec.toNat_ofInt, BitVec.ofInt_toInt]

theorem ofNat_idivS (hn : 0 < n) (x y : BitVec n) :
    BitVec.ofNat n (idivS n x.toNat y.toNat) = if y = 0 then BitVec.allOnes n else x.sdiv y := by
  have hy : y.toNat = 0 ↔ y = 0 := by rw [← BitVec.toNat_inj]; rfl
  rw [idivS, sgnN_toNat hn, sgnN_toNat hn]
  simp only [hy]
  split
  · exact ofNat_onesN n
  · rw [sdiv_eq_ofInt]
    split
    · next h => rw [h.2, Int.tdiv_neg, Int.tdiv_one, ofInt_neg_least hn h.1, BitVec.ofNat_toNat, BitVec.setWidth_eq]
    · exact ofNat_wrapN ..

theorem ofNat_idivZ (x y : BitVec n) :
    BitVec.ofNat n (idivZ n x.toNat y.toNat) = if y = 0 then BitVec.allOnes n else x / y := by
  have hy : y.toNat = 0 ↔ y = 0 := by rw [← BitVec.toNat_inj]; rfl
  rw [idivZ]
  simp only [hy]
  split
  · exact ofNat_onesN n
  · rw [← BitVec.toNat_udiv, BitVec.ofNat_toNat, BitVec.setWidth_eq]

theorem ofNat_shlN (x : BitVec n) (c : Nat) : BitVec.ofNat n (shlN n x.toNat c) = x <<< c := by
  apply BitVec.eq_of_toNat_eq
  rw [shlN, BitVec.toNat_ofNat, BitVec.toNat_shiftLeft, Nat.shiftLeft_eq]
  split
  · rw [Nat.mod_mod]
  · next h =>
    obtain ⟨k, rfl⟩ := Nat.exists_eq_add_of_le (Nat.not_lt.mp h)
    rw [Nat.zero_mod, pow_add, ← Nat.mul_assoc, Nat.mul_right_comm, Nat.mul_mod_left]

theorem ofNat_shrN (x : BitVec n) (c : Nat) : BitVec.ofNat n (shrN n x.toNat c) = x >>> c := by
  apply BitVec.eq_of_toNat_eq
  rw [BitVec.toNat_ofNat, BitVec.toNat_ushiftRight, Nat.shiftRight_eq_div_pow, shrN]
  split
  · exact Nat.mod_eq_of_lt (Nat.lt_of_le_of_lt (Nat.div_le_self ..) x.isLt)
  · next h =>
    rw [Nat.zero_mod, Nat.div_eq_of_lt]
    exact Nat.lt_of_lt_of_le x.isLt (Nat.pow_le_pow_right (by decide) (Nat.not_lt.mp h))

theorem ofNat_sarN (hn : 0 < n) (x : BitVec n) (c : Nat) : BitVec.ofNat n (sarN n x.toNat c) = x.sshiftRight c := by
  rw [sarN]
  split
  · rw [ofNat_wrapN, sgnN_toNat hn, BitVec.sshiftRight, Int.shiftRight_eq_div_pow]
  · next h =>
    have hmsb : BitVec.ofNat n (if x.msb then onesN n else 0) = if x.msb then BitVec.allOnes n else 0 := by
      rw [apply_ite (BitVec.ofNat n), ofNat_onesN]
      rfl
    rw [bit_toNat, ← BitVec.msb_eq_getLsbD_last, hmsb]
    apply BitVec.eq_of_getLsbD_eq
    intro i hi
    have hout : ¬ c + i < n := by omega
    rw [BitVec.getLsbD_sshiftRight, if_neg hout]
    cases x.msb <;> simp [hi]

theorem ofNat_rolN (hn : 0 < n) (x : BitVec n) (c : Nat) : BitVec.ofNat n (rolN n x.toNat c) = x.rotateLeft (c % n) := by
  have hc := Nat.mod_lt c hn
  apply BitVec.eq_of_toNat_eq
  rw [rolN, ofNat_mod_two_pow, BitVec.toNat_ofNat, BitVec.toNat_rotateLeft, Nat.mod_mod, Nat.shiftLeft_eq, Nat.shiftRight_eq_div_pow]
  generalize c % n = k at hc
  have hpow : 2 ^ n = 2 ^ k * 2 ^ (n - k) := by rw [← pow_add, Nat.add_sub_cancel' hc.le]
  have hlow : x.toNat / 2 ^ (n - k) < 2 ^ k := Nat.div_lt_of_lt_mul (by rw [Nat.mul_comm, ← hpow]; exact x.isLt)
  rw [Nat.mul_comm x.toNat, hpow, Nat.mul_mod_mul_left, ← Nat.two_pow_add_eq_or_of_lt hlow, Nat.mod_mul,
    Nat.mul_add_mod, Nat.mod_eq_of_lt hlow, Nat.mul_add_div (Nat.two_pow_pos k), Nat.div_eq_of_lt hlow,
    Nat.add_zero, Nat.add_comm]

theorem toNat_clz (hn : 0 < n) (x : BitVec n) : x.clz.toNat = clzN n x.toNat := by
  rw [clzN]
  split
  · next h =>
    rw [(BitVec.clz_eq_iff_eq_zero).mpr (BitVec.eq_of_toNat_eq h)]
    simp [Nat.mod_eq_of_lt Nat.lt_two_pow_self]
  · next h =>
    have h0 : x ≠ 0#n := fun e => h (by rw [e]; rfl)
    have hle := BitVec.two_pow_sub_clz_le_toNat_of_ne_zero hn h0
    have hlt := BitVec.toNat_lt_two_pow_sub_clz (x := x)
    have hclz : x.clz.toNat < n := by
      have := BitVec.clz_lt_iff_ne_zero.mpr h0
      simpa [BitVec.lt_def, Nat.mod_eq_of_lt Nat.lt_two_pow_self] using this
    have : Nat.log2 x.toNat = n - 1 - x.clz.toNat := by
      rw [Nat.log2_eq_iff h]
      refine ⟨hle, ?_⟩
      rwa [show n - 1 - x.clz.toNat + 1 = n - x.clz.toNat by omega]
    omega

theorem popcN_succ (n b : Nat) : popcN (n + 1) b = popcN n b + b2n (bit b n) := by
  rw [popcN, List.range_succ, List.filter_append, List.length_append, ← popcN]
  cases h : bit b n <;> simp [b2n, h]

theorem toNat_cpop (x : BitVec n) : x.cpop.toNat = popcN n x.toNat := by
  have hrec (k : Nat) : x.cpopNatRec k 0 = popcN k x.toNat := by
    induction k with
    | zero => rfl
    | succ k ih =>
      rw [popcN_succ, BitVec.cpopNatRec_succ, BitVec.cpopNatRec_eq, ih, bit_toNat]
      cases x.getLsbD k <;> rfl
  rw [BitVec.toNat_cpop, hrec]

/-- The sum of the weights of the places that a condition marks. -/
theorem foldl_weights (p : Nat → Bool) (c : Nat → Nat) (l : List Nat) (v : Nat) :
    l.foldl (fun v i => if p i then v + c i else v) v = v + (l.map fun i => b2n (p i) * c i).sum := by
  induction l generalizing v with
  | nil => rfl
  | cons i l ih =>
    rw [List.foldl_cons, ih, List.map_cons, List.sum_cons]
    cases p i <;> simp [b2n, Nat.add_assoc]

theorem brevN_eq_sum (n b : Nat) : brevN n b = ((List.range n).map fun i => b2n (bit b i) * 2 ^ (n - 1 - i)).sum := by
  rw [brevN, foldl_weights, Nat.zero_add]

theorem brevN_succ (n b : Nat) : brevN (n + 1) b = 2 * brevN n b + b2n (bit b n) := by
  have hweight : ∀ i ∈ List.range n, b2n (bit b i) * 2 ^ (n + 1 - 1 - i) = 2 * (b2n (bit b i) * 2 ^ (n - 1 - i)) := by
    intro i hi
    have hi := List.mem_range.mp hi
    rw [show n + 1 - 1 - i = n - 1 - i + 1 by omega, pow_succ]
    ring
  rw [brevN_eq_sum, brevN_eq_sum, List.range_succ, List.map_append, List.sum_append, List.map_congr_left hweight,
    List.sum_map_mul_left]
  simp

theorem toNat_reverse (x : BitVec n) : x.reverse.toNat = brevN n x.toNat := by
  induction n with
  | zero => rw [BitVec.of_length_zero (x := x.reverse)]; rfl
  | succ n ih =>
    have hlow : brevN n (x.setWidth n).toNat = brevN n x.toNat := by
      rw [brevN_eq_sum, brevN_eq_sum]
      refine congrArg _ (List.map_congr_left fun i hi => ?_)
      rw [bit_toNat, bit_toNat, BitVec.getLsbD_setWidth, decide_eq_true (List.mem_range.mp hi), Bool.true_and]
    rw [brevN_succ, BitVec.reverse, BitVec.toNat_concat, ih, hlow, bit_toNat, BitVec.msb_eq_getLsbD_last, Nat.add_sub_cancel,
      Nat.mul_comm]
    cases x.getLsbD n <;> rfl

/-! ## Bit fields (04 R104) -/

theorem bfField_eq (n c : Nat) :
    bfField n c = if c / 256 % 256 = 0 ∨ n ≤ (fieldOf n c).1 then none else some (fieldOf n c) := by
  have hp : bits c 7 0 = c % 256 := by simp [bits]
  have hl : bits c 15 8 = c / 256 % 256 := by simp [bits]
  simp only [bfField, hp, hl, fieldOf]
  rfl

theorem toNat_extractLsb' (x : BitVec n) (p l : Nat) : (x.extractLsb' p l).toNat = x.toNat / 2 ^ p % 2 ^ l := by
  rw [BitVec.extractLsb'_toNat, Nat.shiftRight_eq_div_pow]

theorem ofNat_bfxZN (x : BitVec n) (c : Nat) : BitVec.ofNat n (bfxZN n x.toNat c) =
    if c / 256 % 256 = 0 ∨ n ≤ (fieldOf n c).1 then 0 else (x.extractLsb' (fieldOf n c).1 (fieldOf n c).2).setWidth n := by
  by_cases hf : c / 256 % 256 = 0 ∨ n ≤ (fieldOf n c).1
  · rw [bfxZN, bfField_eq, if_pos hf, if_pos hf]
    rfl
  · rw [bfxZN, bfField_eq, if_neg hf, if_neg hf]
    dsimp only
    rw [← toNat_extractLsb', BitVec.ofNat_toNat]

theorem ofNat_bfxSN (x : BitVec n) (c : Nat) : BitVec.ofNat n (bfxSN n x.toNat c) =
    if c / 256 % 256 = 0 ∨ n ≤ (fieldOf n c).1 then 0 else (x.extractLsb' (fieldOf n c).1 (fieldOf n c).2).signExtend n := by
  by_cases hf : c / 256 % 256 = 0 ∨ n ≤ (fieldOf n c).1
  · rw [bfxSN, bfField_eq, if_pos hf, if_pos hf]
    rfl
  · have hl : 0 < (fieldOf n c).2 := by
      simp only [fieldOf] at hf ⊢
      omega
    rw [bfxSN, bfField_eq, if_neg hf, if_neg hf]
    dsimp only
    rw [← toNat_extractLsb', sgnN_toNat hl, ofNat_wrapN, BitVec.signExtend]

/-- A number is the low part, the field and the high part. -/
theorem field_split (d p l : Nat) : d = d % 2 ^ p + d / 2 ^ p % 2 ^ l * 2 ^ p + d / 2 ^ (p + l) * 2 ^ (p + l) := by
  conv_lhs => rw [← Nat.mod_add_div d (2 ^ p), ← Nat.mod_add_div (d / 2 ^ p) (2 ^ l), Nat.div_div_eq_div_mul, ← pow_add]
  rw [pow_add]
  ring

theorem ofNat_bfiN (x d : BitVec n) (c : Nat) : BitVec.ofNat n (bfiN n x.toNat c d.toNat) =
    if c / 256 % 256 = 0 ∨ n ≤ (fieldOf n c).1 then d
    else BitVec.ofNat n (d.toNat - d.toNat / 2 ^ (fieldOf n c).1 % 2 ^ (fieldOf n c).2 * 2 ^ (fieldOf n c).1 +
      x.toNat % 2 ^ (fieldOf n c).2 * 2 ^ (fieldOf n c).1) := by
  by_cases hf : c / 256 % 256 = 0 ∨ n ≤ (fieldOf n c).1
  · rw [bfiN, bfField_eq, if_pos hf, if_pos hf]
    rw [BitVec.ofNat_toNat, BitVec.setWidth_eq]
  · rw [bfiN, bfField_eq, if_neg hf, if_neg hf]
    dsimp only
    have h := field_split d.toNat (fieldOf n c).1 (fieldOf n c).2
    congr 1
    omega

end

/-! ## The integer majors as one run (04 R99-R104) -/

/-- What an integer major but IADDC and LEA computes from the numbers of its sources and of the old D, modulo 2^n. -/
def intNumber (n : Nat) : Instr → Nat → Nat → Nat → Nat
  | .iadd .. => fun a b _ => (a + b) % 2 ^ n
  | .isub .. => fun a b _ => (a + 2 ^ n - b) % 2 ^ n
  | .imlo .. => fun a b _ => a * b % 2 ^ n
  | .imhiS .. => fun a b _ => wrapN n (sgnN n a * sgnN n b / (2 ^ n : Nat))
  | .imhiZ .. => fun a b _ => a * b / 2 ^ n
  | .imac .. => fun a b d => (a * b + d) % 2 ^ n
  | .idivS .. => fun a b _ => idivS n a b
  | .idivZ .. => fun a b _ => idivZ n a b
  | .iabs .. => fun _ b _ => if sgnN n b < 0 then (2 ^ n - b) % 2 ^ n else b
  | .ineg .. => fun _ b _ => (2 ^ n - b) % 2 ^ n
  | .iminS .. => fun a b _ => if sgnN n a ≤ sgnN n b then a else b
  | .iminZ .. => fun a b _ => min a b
  | .imaxS .. => fun a b _ => if sgnN n a ≤ sgnN n b then b else a
  | .imaxZ .. => fun a b _ => max a b
  | .and .. => fun a b _ => a &&& b
  | .or .. => fun a b _ => a ||| b
  | .xor .. => fun a b _ => a ^^^ b
  | .andn .. => fun a b _ => a &&& (onesN n ^^^ b)
  | .shl .. => fun a c _ => shlN n a c
  | .shr .. => fun a c _ => shrN n a c
  | .sar .. => fun a c _ => sarN n a c
  | .rol .. => fun a c _ => rolN n a c
  | .bfxS .. => fun a c _ => bfxSN n a c
  | .bfxZ .. => fun a c _ => bfxZN n a c
  | .bfi .. => fun a c d => bfiN n a c d
  | .not .. => fun _ b _ => onesN n ^^^ b
  | .clz .. => fun _ b _ => clzN n b
  | .popc .. => fun _ b _ => popcN n b
  | .brev .. => fun _ b _ => brevN n b
  | .mov .. => fun _ b _ => b
  | _ => fun _ _ _ => 0

/-- The integer majors have the register checks of a lane instruction, and write their numbers. -/
theorem exec_intOperands {i : Instr} {g : Pred} {w : Bool} {d a : Reg} {src : Src} (h : intOperands i = some (g, w, d, a, src))
    (s : State) : exec i s = laneSimple i g s
      (intEffect g w (!countForm i && w) (!countForm i && !zeroLiteral i) d a src (intNumber (nOf w) i)) := by
  unfold intOperands at h
  split at h <;> cases h <;> rfl

/-- On n-bit values the number that an integer major computes is its result. -/
theorem ofNat_intNumber {n : Nat} (hn : 0 < n) {i : Instr} {f : BitVec n → BitVec n → BitVec n → BitVec n}
    (h : intResult n i = some f) (x y z : BitVec n) : BitVec.ofNat n (intNumber n i x.toNat y.toNat z.toNat) = f x y z := by
  have hself (x : BitVec n) : BitVec.ofNat n x.toNat = x := by rw [BitVec.ofNat_toNat, BitVec.setWidth_eq]
  have hsle (x y : BitVec n) : sgnN n x.toNat ≤ sgnN n y.toNat ↔ x.sle y = true := by
    rw [sgnN_toNat hn, sgnN_toNat hn, BitVec.sle_iff_toInt_le]
  have hif {p : Prop} [Decidable p] (x y : Nat) : BitVec.ofNat n (if p then x else y) = if p then BitVec.ofNat n x else BitVec.ofNat n y :=
    apply_ite _ ..
  unfold intResult at h
  split at h <;> cases h <;> unfold intNumber <;> dsimp only
  · rw [ofNat_mod_two_pow, BitVec.ofNat_add, hself, hself]
  · rw [ofNat_mod_two_pow, ofNat_toNat_sub]
  · rw [ofNat_mod_two_pow, BitVec.ofNat_mul, hself, hself]
  · rw [sgnN_toNat hn, sgnN_toNat hn, ofNat_wrapN]
    push_cast
    rfl
  · rw [ofNat_mod_two_pow, BitVec.ofNat_add, BitVec.ofNat_mul, hself, hself, hself]
  · exact ofNat_idivS hn x y
  · exact ofNat_idivZ x y
  · rw [hif, sgnN_toNat hn, ofNat_mod_two_pow, ofNat_neg, hself]
    simp [BitVec.slt_iff_toInt_lt]
  · rw [ofNat_mod_two_pow, ofNat_neg]
  · simp only [hif, hsle, hself]
  · rw [Nat.min_def, hif, hself, hself]
    simp only [BitVec.ule_iff_toNat_le]
  · simp only [hif, hsle, hself]
  · rw [Nat.max_def, hif, hself, hself]
    simp only [BitVec.ule_iff_toNat_le]
  · rw [← BitVec.toNat_and, hself]
  · rw [← BitVec.toNat_or, hself]
  · rw [← BitVec.toNat_xor, hself]
  · rw [onesN_xor, ← BitVec.toNat_and, hself]
  · exact ofNat_shlN x _
  · exact ofNat_shrN x _
  · exact ofNat_sarN hn x _
  · exact ofNat_rolN hn x _
  · exact ofNat_bfxSN x _
  · exact ofNat_bfxZN x _
  · exact ofNat_bfiN x z _
  · rw [onesN_xor, hself]
  · rw [← toNat_clz hn, hself]
  · rw [← toNat_cpop, hself]
  · rw [← toNat_reverse, hself]
  · exact hself y

end Sys2Proof.Machine

end


/-!
PROOFS. Results of the integer instructions (spec/04_lane_integer.md R99-R105): the statement O10.
-/

section

namespace Sys2Proof.Machine

set_option linter.constructorNameAsVariable false

/-! ## The integer effect -/

theorem mem_dest {d : Reg} {n j : Nat} (h : j < n) : d.toNat + j ∈ (List.range n).map (d.toNat + ·) :=
  List.mem_map.mpr ⟨j, List.mem_range.mpr h, rfl⟩

section
variable {g : Pred} {w bw sx : Bool} {d a : Reg} {src : Src} {f : Nat → Nat → Nat → Nat}

theorem intEffect_lanes (h : src.laneForm = true) : intEffect g w bw sx d a src f = fun s =>
    s.putLanes (lanesOf (s.exec g)) fun t l =>
      t.wrVn w d.toNat l (f (s.rdVn w a.toNat l) (s.srcVal bw sx src l) (s.rdVn w d.toNat l)) := by
  cases src with
  | ss b => simp [Src.laneForm] at h
  | _ => rfl

theorem intEffect_uniform (h : src.laneForm = false) : intEffect g w bw sx d a src f = fun s =>
    if s.exec g = 0 then s else s.wrSn w d.toNat (f (s.rdSn w a.toNat) (s.srcVal bw sx src 0) (s.rdSn w d.toNat)) := by
  cases src with
  | ss b => rfl
  | _ => simp [Src.laneForm] at h

theorem changes_intEffect : Changes g (destOf src d (wn w)) (intEffect g w bw sx d a src f) := by
  cases h : src.laneForm with
  | true =>
    rw [intEffect_lanes h, destOf, if_pos h]
    exact .lanes (fun _ _ _ => State.unitView_wrVn ..) fun s t l ht hl ho => ho.wrVn ht (fun j hj => mem_dest hj) hl _
  | false =>
    rw [intEffect_uniform h, destOf, if_neg (by simp [h])]
    exact .uniform (fun _ => State.unitView_wrSn ..) fun s hs => (RegsOnly.refl ..).wrSn hs (fun j hj => mem_dest hj) _

/-- Every executing lane gets the number of its own operands. -/
theorem rdVn_intEffect (h : src.laneForm = true) {s : State} (hi : s.issuing = true) {l : Nat} (hl : l ∈ s.execs g) :
    (intEffect g w bw sx d a src f s).rdVn w d.toNat l =
      f (s.rdVn w a.toNat l) (s.srcVal bw sx src l) (s.rdVn w d.toNat l) % 2 ^ nOf w := by
  rw [intEffect_lanes h]
  exact State.read_putLanes (r := fun t l => t.rdVn w d.toNat l)
    (v := fun l => f (s.rdVn w a.toNat l) (s.srcVal bw sx src l) (s.rdVn w d.toNat l) % 2 ^ nOf w) (fun _ _ => State.unitView_wrVn ..)
    (fun t l l' ht hl hl' hne => State.rdVn_wrVn_other ht w w _ _ hl hl' hne _) (fun t l ht hl => State.rdVn_wrVn ht w _ _ hl)
    (s.execs_nodup g) hi (fun _ => hasLane_of_mem_execs) hl

/-- A uniform register gets the number of the uniform operands. -/
theorem rdSn_intEffect (h : src.laneForm = false) {s : State} (hi : s.issuing = true) (h0 : s.exec g ≠ 0) :
    (intEffect g w bw sx d a src f s).rdSn w d.toNat =
      f (s.rdSn w a.toNat) (s.srcVal bw sx src 0) (s.rdSn w d.toNat) % 2 ^ nOf w := by
  rw [intEffect_uniform h]
  simp only [if_neg h0]
  exact State.rdSn_wrSn hi w _ _

/-- A lane instruction with the integer effect: its results as numbers. -/
theorem exec_of_intEffect {i : Instr} {s : State} (hx : exec i s = laneSimple i g s (intEffect g w bw sx d a src f))
    (hm : s.mayIssue i g = true) : ∃ t : State, exec i s = .next t ∧ t.pc = s.after i ∧
      (src.laneForm = true → ∀ l ∈ s.execs g, t.rdVn w d.toNat l =
        f (s.rdVn w a.toNat l) (s.srcVal bw sx src l) (s.rdVn w d.toNat l) % 2 ^ nOf w) ∧
      (src.laneForm = false → s.exec g ≠ 0 → t.rdSn w d.toNat =
        f (s.rdSn w a.toNat) (s.srcVal bw sx src 0) (s.rdSn w d.toNat) % 2 ^ nOf w) := by
  have hi := issuing_of_mayIssue hm
  obtain ⟨hnext, hpc⟩ := exec_of_laneSimple hx hm (changes_intEffect.view s)
  refine ⟨_, hnext, hpc, fun hl l hmem => ?_, fun hl h0 => ?_⟩
  · rw [State.rdVn_skip, rdVn_intEffect hl hi hmem]
  · rw [State.rdSn_skip, rdSn_intEffect hl hi h0]

end

/-- A word or dword whose number is known modulo its width. -/
theorem eq_of_toNat_eq_mod {n x : Nat} {v y : BitVec n} (h : v.toNat = x % 2 ^ n) (hx : BitVec.ofNat n x = y) : v = y := by
  rw [← hx]
  exact BitVec.eq_of_toNat_eq (by rw [h, BitVec.toNat_ofNat])

/-! ## IADDC (04 R100) -/

section
variable {n : Nat} (x y z : BitVec n)

theorem ofNat_addCarry (hn : 0 < n) : BitVec.ofNat n (x.toNat + y.toNat + z.toNat % 2) = x + y + (z &&& 1) := by
  have hself (x : BitVec n) : BitVec.ofNat n x.toNat = x := by rw [BitVec.ofNat_toNat, BitVec.setWidth_eq]
  have hone : (1 : BitVec n).toNat = 1 := Nat.mod_eq_of_lt (Nat.one_lt_two_pow hn.ne')
  have hlow : (z &&& 1).toNat = z.toNat % 2 := by rw [BitVec.toNat_and, hone, Nat.and_one_is_mod]
  rw [← hlow, BitVec.ofNat_add, BitVec.ofNat_add, hself, hself, hself]

theorem carry_addCarry : b2w (bit (x.toNat + y.toNat + z.toNat % 2) n) =
    if 2 ^ n ≤ x.toNat + y.toNat + z.toNat % 2 then 1 else 0 := by
  have hx := x.isLt
  have hy := y.isLt
  have hbit : bit (x.toNat + y.toNat + z.toNat % 2) n = decide (2 ^ n ≤ x.toNat + y.toNat + z.toNat % 2) := by
    rw [bit, Bool.eq_iff_iff, beq_iff_eq, decide_eq_true_eq]
    constructor
    · intro h
      by_contra hlt
      rw [Nat.div_eq_of_lt (Nat.not_le.mp hlt)] at h
      exact absurd h (by decide)
    · intro h
      rw [Nat.div_eq_of_lt_le (k := 1) (by omega) (by omega)]
  rw [hbit, b2w]
  simp only [decide_eq_true_eq]

end

section
variable {g : Pred} {w : Bool} {d a : Reg} {src : Src}

/-- The exact sum of IADDC in a lane. -/
def State.addCarryV (s : State) (w : Bool) (d a : Reg) (src : Src) (l : Nat) : Nat :=
  s.rdVn w a.toNat l + s.srcVal w true src l + s.rdVn w d.toNat l % 2

/-- The exact sum of IADDC in the uniform form. -/
def State.addCarryS (s : State) (w : Bool) (d a : Reg) (src : Src) : Nat :=
  s.rdSn w a.toNat + s.srcVal w true src 0 + s.rdSn w d.toNat % 2

theorem iaddcEffect_lanes (h : src.laneForm = true) : iaddcEffect g w d a src = fun s =>
    s.putLanes (lanesOf (s.exec g)) fun t l => (t.wrVn w d.toNat l (s.addCarryV w d a src l % 2 ^ nOf w)).wrV (d.toNat + wn w) l
      (b2w (bit (s.addCarryV w d a src l) (nOf w))) := by
  cases src with
  | ss b => simp [Src.laneForm] at h
  | _ => rfl

theorem iaddcEffect_uniform (h : src.laneForm = false) : iaddcEffect g w d a src = fun s =>
    if s.exec g = 0 then s else (s.wrSn w d.toNat (s.addCarryS w d a src % 2 ^ nOf w)).wrS (d.toNat + wn w)
      (b2w (bit (s.addCarryS w d a src) (nOf w))) := by
  cases src with
  | ss b => rfl
  | _ => simp [Src.laneForm] at h

theorem changes_iaddcEffect : Changes g (destOf src d (wn w + 1)) (iaddcEffect g w d a src) := by
  have hmem {j : Nat} (hj : j ≤ wn w) : d.toNat + j ∈ (List.range (wn w + 1)).map (d.toNat + ·) := mem_dest (Nat.lt_succ_of_le hj)
  cases h : src.laneForm with
  | true =>
    rw [iaddcEffect_lanes h, destOf, if_pos h]
    exact .lanes (fun _ _ _ => by simp) fun s t l ht hl ho =>
      (ho.wrVn ht (fun j hj => hmem hj.le) hl _).wrV (by simpa using ht) (hmem le_rfl) hl _
  | false =>
    rw [iaddcEffect_uniform h, destOf, if_neg (by simp [h])]
    exact .uniform (fun _ => by simp) fun s hs =>
      ((RegsOnly.refl ..).wrSn hs (fun j hj => hmem hj.le) _).wrS ((State.issuing_of_unitView (by simp)).trans hs) (hmem le_rfl) _

/-- IADDC gives every executing lane the sum of its own operands, and the carry out. -/
theorem read_iaddcEffect (h : src.laneForm = true) {s : State} (hi : s.issuing = true) {l : Nat} (hl : l ∈ s.execs g) :
    (iaddcEffect g w d a src s).rdVn w d.toNat l = s.addCarryV w d a src l % 2 ^ nOf w ∧
    (iaddcEffect g w d a src s).rdV (d.toNat + wn w) l = b2w (bit (s.addCarryV w d a src l) (nOf w)) := by
  rw [iaddcEffect_lanes h]
  refine Prod.mk.inj (State.read_putLanes (r := fun t l => (t.rdVn w d.toNat l, t.rdV (d.toNat + wn w) l))
    (v := fun l => (s.addCarryV w d a src l % 2 ^ nOf w, b2w (bit (s.addCarryV w d a src l) (nOf w)))) (fun _ _ => by simp)
    (fun t l l' ht hl hl' hne => ?_) (fun t l ht hl => ?_) (s.execs_nodup g) hi (fun _ => hasLane_of_mem_execs) hl)
  · have hv := State.unitView_wrVn t w d.toNat l (s.addCarryV w d a src l % 2 ^ nOf w)
    have ht' := (State.issuing_of_unitView hv).trans ht
    have hlanes := State.lanes_of_unitView hv
    rw [State.rdVn_wrV ht' w _ (hlanes ▸ hl) (hlanes ▸ hl') (fun e => absurd e hne), State.rdVn_wrVn_other ht w w _ _ hl hl' hne,
      State.rdV_wrV _ ht' _ _ _ _ _ (hlanes ▸ hl) (hlanes ▸ hl'), if_neg (fun e => hne e.2),
      State.rdV_wrVn ht w _ _ hl hl' fun e => absurd e hne]
  · have hv := State.unitView_wrVn t w d.toNat l (s.addCarryV w d a src l % 2 ^ nOf w)
    have ht' := (State.issuing_of_unitView hv).trans ht
    have hlanes := State.lanes_of_unitView hv
    rw [State.rdVn_wrV ht' w _ (hlanes ▸ hl) (hlanes ▸ hl) (fun _ => le_rfl), State.rdVn_wrVn ht w _ _ hl, Nat.mod_mod,
      State.rdV_wrV _ ht' _ _ _ _ _ (hlanes ▸ hl) (hlanes ▸ hl), if_pos ⟨rfl, rfl⟩]

theorem read_iaddcEffect_uniform (h : src.laneForm = false) {s : State} (hi : s.issuing = true) (h0 : s.exec g ≠ 0) :
    (iaddcEffect g w d a src s).rdSn w d.toNat = s.addCarryS w d a src % 2 ^ nOf w ∧
    (iaddcEffect g w d a src s).rdS (d.toNat + wn w) = b2w (bit (s.addCarryS w d a src) (nOf w)) := by
  rw [iaddcEffect_uniform h]
  simp only [if_neg h0]
  have hi' : (s.wrSn w d.toNat (s.addCarryS w d a src % 2 ^ nOf w)).issuing = true :=
    (State.issuing_of_unitView (by simp)).trans hi
  rw [State.rdSn_wrS hi' w _ le_rfl, State.rdSn_wrSn hi, Nat.mod_mod, State.rdS_wrS hi', if_pos rfl]
  exact ⟨rfl, rfl⟩

/-- IADDC: its sum and its carry out as numbers. -/
theorem exec_iaddc {s : State} (hm : s.mayIssue (.iaddc g w d a src) g = true) : ∃ t : State,
    exec (.iaddc g w d a src) s = .next t ∧ t.pc = s.after (.iaddc g w d a src) ∧
    (src.laneForm = true → ∀ l ∈ s.execs g, t.rdVn w d.toNat l = s.addCarryV w d a src l % 2 ^ nOf w ∧
      t.rdV (d.toNat + wn w) l = b2w (bit (s.addCarryV w d a src l) (nOf w))) ∧
    (src.laneForm = false → s.exec g ≠ 0 → t.rdSn w d.toNat = s.addCarryS w d a src % 2 ^ nOf w ∧
      t.rdS (d.toNat + wn w) = b2w (bit (s.addCarryS w d a src) (nOf w))) := by
  have hi := issuing_of_mayIssue hm
  have hx : exec (.iaddc g w d a src) s = laneSimple (.iaddc g w d a src) g s (iaddcEffect g w d a src) := rfl
  obtain ⟨hnext, hpc⟩ := exec_of_laneSimple hx hm (changes_iaddcEffect.view s)
  refine ⟨_, hnext, hpc, fun hl l hmem => ?_, fun hl h0 => ?_⟩
  · rw [State.rdVn_skip, State.rdV_skip]
    exact read_iaddcEffect hl hi hmem
  · rw [State.rdSn_skip, State.rdS_skip]
    exact read_iaddcEffect_uniform hl hi h0

end

/-! ## LEA, MOVI, MOVHI (04 R101, R105) -/

/-- The address that LEA forms from the base and an index of 64 bits, or of 32 bits that is sign-extended. -/
theorem ofNat_leaNumber (w : Bool) (s : State) (src : Src) (l : Nat) (x : Dword) :
    BitVec.ofNat 64 (if w then (x.toNat + s.srcVal w true src l) % 2 ^ 64
      else (x.toNat + wrapN 64 (sgnN 32 (s.srcVal w true src l))) % 2 ^ 64) =
    x + if w then s.last64 true src l else (s.last32 src l).signExtend 64 := by
  have hself (x : Dword) : BitVec.ofNat 64 x.toNat = x := by rw [BitVec.ofNat_toNat, BitVec.setWidth_eq]
  cases w with
  | false =>
    simp only [Bool.false_eq_true, if_false]
    rw [State.srcVal_false, sgnN_toNat (by decide), ofNat_mod_two_pow, BitVec.ofNat_add, hself, ofNat_wrapN, BitVec.signExtend]
  | true =>
    simp only [if_true]
    rw [State.srcVal_true, ofNat_mod_two_pow, BitVec.ofNat_add, hself, hself]

theorem changes_uniformWord {g : Pred} {d : Reg} {f : State → Word} :
    Changes g ⟨[], [d.toNat], []⟩ fun s => if s.exec g = 0 then s else s.wrS d.toNat (f s) :=
  .uniform (fun _ => by simp) fun _ hs => (RegsOnly.refl ..).wrS hs List.mem_cons_self _

/-- An instruction that writes one uniform word when some lane executes. -/
theorem exec_of_uniformWord {i : Instr} {g : Pred} {d : Reg} {f : State → Word} {s : State}
    (hx : exec i s = laneSimple i g s fun s => if s.exec g = 0 then s else s.wrS d.toNat (f s)) (hm : s.mayIssue i g = true) :
    ∃ t : State, exec i s = .next t ∧ t.pc = s.after i ∧ t.rdS d.toNat = if s.exec g = 0 then s.rdS d.toNat else f s := by
  obtain ⟨hnext, hpc⟩ := exec_of_laneSimple hx hm (changes_uniformWord.view s)
  refine ⟨_, hnext, hpc, ?_⟩
  rw [State.rdS_skip]
  split
  · rfl
  · rw [State.rdS_wrS (issuing_of_mayIssue hm), if_pos rfl]

/-- Settles O10: an integer instruction writes the number of its operands, in every executing lane or once, and that number is the
result on bit vectors. -/
theorem integerResults : Obligations.IntegerResults := by
  unfold Obligations.IntegerResults
  refine ⟨fun i g w d a src hop s hm => ?_, fun g w d a src s hm => ?_, fun g w d a src s hm => ?_, fun g d imm s hm => ?_,
    fun g d imm s hm => ?_⟩
  · obtain ⟨t, hx, hpc, hlanes, huniform⟩ := exec_of_intEffect (exec_intOperands hop s) hm
    refine ⟨t, hx, hpc, fun hl l hmem => ?_, fun hl h0 => ?_⟩
    · have hread := hlanes hl l hmem
      refine ⟨?_, ?_⟩ <;> rintro rfl f hf
      · rw [Bool.and_false, State.srcVal_false] at hread
        exact eq_of_toNat_eq_mod hread (ofNat_intNumber (by decide) hf ..)
      · rw [State.srcVal_intOperands] at hread
        exact eq_of_toNat_eq_mod hread (ofNat_intNumber (by decide) hf ..)
    · have hread := huniform hl h0
      refine ⟨?_, ?_⟩ <;> rintro rfl f hf
      · rw [Bool.and_false, State.srcVal_false] at hread
        exact eq_of_toNat_eq_mod hread (ofNat_intNumber (by decide) hf ..)
      · rw [State.srcVal_intOperands] at hread
        exact eq_of_toNat_eq_mod hread (ofNat_intNumber (by decide) hf ..)
  · obtain ⟨t, hx, hpc, hlanes, huniform⟩ := exec_iaddc hm
    refine ⟨t, hx, hpc, fun hl l hmem => ?_, fun hl h0 => ?_⟩
    · obtain ⟨hsum, hcarry⟩ := hlanes hl l hmem
      refine ⟨?_, ?_⟩ <;> rintro rfl
      · rw [State.addCarryV, State.srcVal_false] at hsum hcarry
        exact ⟨eq_of_toNat_eq_mod hsum (ofNat_addCarry _ _ _ (by decide)), hcarry.trans (carry_addCarry ..)⟩
      · rw [State.addCarryV, State.srcVal_true] at hsum hcarry
        exact ⟨eq_of_toNat_eq_mod hsum (ofNat_addCarry _ _ _ (by decide)), hcarry.trans (carry_addCarry ..)⟩
    · obtain ⟨hsum, hcarry⟩ := huniform hl h0
      refine ⟨?_, ?_⟩ <;> rintro rfl
      · rw [State.addCarryS, State.srcVal_false] at hsum hcarry
        exact ⟨eq_of_toNat_eq_mod hsum (ofNat_addCarry _ _ _ (by decide)), hcarry.trans (carry_addCarry ..)⟩
      · rw [State.addCarryS, State.srcVal_true] at hsum hcarry
        exact ⟨eq_of_toNat_eq_mod hsum (ofNat_addCarry _ _ _ (by decide)), hcarry.trans (carry_addCarry ..)⟩
  · obtain ⟨t, hx, hpc, hlanes, huniform⟩ := exec_of_intEffect (i := .lea g w d a src) rfl hm
    exact ⟨t, hx, hpc, fun hl l hmem => eq_of_toNat_eq_mod (hlanes hl l hmem) (ofNat_leaNumber w s src l _),
      fun hl h0 => eq_of_toNat_eq_mod (huniform hl h0) (ofNat_leaNumber w s src 0 _)⟩
  · exact exec_of_uniformWord (f := fun _ => imm.signExtend 32) rfl hm
  · exact exec_of_uniformWord (f := fun s => imm ++ (s.rdS d.toNat).setWidth 16) rfl hm

end Sys2Proof.Machine

end


/-!
PROOFS. Results of the compares, of predicate logic and of the plain votes (spec/04_lane_integer.md R106, R108, R116; 05 R123): the
statement O11.
-/

section

namespace Sys2Proof.Machine

set_option linter.constructorNameAsVariable false

/-! ## A result in each executing lane -/

section
variable {g : Pred}

/-- A dword in a pair of registers of every executing lane, from the old state. -/
def vPairEffect (g : Pred) (d : Reg) (f : State → Nat → Dword) (s : State) : State :=
  s.putLanes (lanesOf (s.exec g)) fun t l => t.wrVPair d.toNat l (f s l)

theorem changes_vEffect {d : Reg} {f : State → Nat → Word} : Changes g (destV d 1) (vEffect g d f) :=
  .lanes (fun _ _ _ => by simp) fun _ _ _ ht hl h => h.wrV ht (mem_dest (j := 0) Nat.one_pos) hl _

theorem changes_pEffect {k : PairIx} {f : State → Nat → Bool} : Changes g ⟨[], [], [k.toNat]⟩ (pEffect g k f) :=
  .lanes (fun _ _ _ => by simp) fun _ _ _ ht hl h => h.wrPair ht List.mem_cons_self hl _

theorem changes_vPairEffect {d : Reg} {f : State → Nat → Dword} : Changes g (destV d 2) (vPairEffect g d f) :=
  .lanes (fun _ _ _ => by simp) fun _ _ _ ht hl h =>
    (h.wrV ht (mem_dest (j := 0) Nat.two_pos) hl _).wrV (by simpa using ht) (mem_dest (j := 1) Nat.one_lt_two) hl _

section
variable {s : State} (hi : s.issuing = true) {l : Nat} (hl : l ∈ s.execs g)
include hi hl

theorem rdV_vEffect (d : Reg) (f : State → Nat → Word) : (vEffect g d f s).rdV d.toNat l = f s l :=
  (s.rdV_putLanes hi _ (s.execs_nodup g) (fun _ => hasLane_of_mem_execs) _ (f s) _ _ (hasLane_of_mem_execs hl)).trans
    (if_pos ⟨rfl, hl⟩)

theorem rdVPair_vPairEffect (d : Reg) (f : State → Nat → Dword) : (vPairEffect g d f s).rdVPair d.toNat l = f s l :=
  State.rdVPair_putLanes hi (s.execs_nodup g) (fun _ => hasLane_of_mem_execs) _ (f s) hl

theorem pairBit_pEffect (k : PairIx) (f : State → Nat → Bool) : (pEffect g k f s).pairBit k.toNat l = (k == 0 || f s l) :=
  State.read_putLanes (r := fun t l => t.pairBit k.toNat l) (v := fun l => k == 0 || f s l) (fun _ _ => by simp)
    (fun _ _ _ _ hl hl' hne => State.pairBit_wrPair_other k _ hl hl' hne _) (fun _ _ ht hl => State.pairBit_wrPair ht k _ hl)
    (s.execs_nodup g) hi (fun _ => hasLane_of_mem_execs) hl

end

section
variable {i : Instr} {s : State} (hm : s.mayIssue i g = true)
include hm

/-- An instruction that writes a word of every executing lane. -/
theorem exec_of_vEffect {d : Reg} {f : State → Nat → Word} (hx : exec i s = laneSimple i g s (vEffect g d f)) :
    ∃ t : State, exec i s = .next t ∧ t.pc = s.after i ∧ ∀ l ∈ s.execs g, t.rdV d.toNat l = f s l := by
  obtain ⟨hnext, hpc⟩ := exec_of_laneSimple hx hm (changes_vEffect.view s)
  exact ⟨_, hnext, hpc, fun l hl => by rw [State.rdV_skip, rdV_vEffect (issuing_of_mayIssue hm) hl]⟩

/-- An instruction that writes a pair of registers of every executing lane. -/
theorem exec_of_vPairEffect {d : Reg} {f : State → Nat → Dword} (hx : exec i s = laneSimple i g s (vPairEffect g d f)) :
    ∃ t : State, exec i s = .next t ∧ t.pc = s.after i ∧ ∀ l ∈ s.execs g, t.rdVPair d.toNat l = f s l := by
  obtain ⟨hnext, hpc⟩ := exec_of_laneSimple hx hm (changes_vPairEffect.view s)
  exact ⟨_, hnext, hpc, fun l hl => by rw [State.rdVPair_skip, rdVPair_vPairEffect (issuing_of_mayIssue hm) hl]⟩

/-- An instruction that writes a predicate pair of every executing lane. -/
theorem exec_of_pEffect {k : PairIx} {f : State → Nat → Bool} (hx : exec i s = laneSimple i g s (pEffect g k f)) :
    ∃ t : State, exec i s = .next t ∧ t.pc = s.after i ∧ ∀ l ∈ s.execs g, t.pairBit k.toNat l = (k == 0 || f s l) := by
  obtain ⟨hnext, hpc⟩ := exec_of_laneSimple hx hm (changes_pEffect.view s)
  exact ⟨_, hnext, hpc, fun l hl => by rw [State.pairBit_skip, pairBit_pEffect (issuing_of_mayIssue hm) hl]⟩

end

end

/-! ## Compares and predicate logic -/

/-- A condition on the numbers of two bit vectors is the condition on the bit vectors. -/
theorem ICond.holds_toNat {n : Nat} (hn : 0 < n) (c : ICond) (u : Bool) (x y : BitVec n) :
    ICond.holds c u n x.toNat y.toNat = condBv c u x y := by
  simp only [ICond.holds, condBv, sgnN_toNat hn]
  cases u with
  | false => cases c <;> simp [BitVec.slt, BitVec.sle, BitVec.toInt_inj, bne, beq_eq_decide]
  | true => cases c <;> simp [BitVec.ult, BitVec.ule, ← BitVec.toNat_inj, bne, beq_eq_decide]

/-- The bit that an instruction of one predicate pair writes for lane l. -/
def pairBitOf (i : Instr) (s : State) (l : Nat) : Bool := (s.pairResult l i).elim false (·.2.2)

theorem exec_pairResult {i : Instr} {g : Pred} {k : PairIx} {v : Bool} {s : State} (h : s.pairResult 0 i = some (g, k, v)) :
    exec i s = laneSimple i g s (pEffect g k (pairBitOf i)) := by
  unfold State.pairResult at h
  split at h <;> cases h
  case _ c a src u w =>
    refine congrArg (fun f => laneSimple _ g s (pEffect g k f)) (funext₂ fun t l => ?_)
    cases w with
    | false => exact (congrArg _ (t.srcVal_false ..)).trans (ICond.holds_toNat (by decide) ..)
    | true => exact (congrArg _ (t.srcVal_true ..)).trans (ICond.holds_toNat (by decide) ..)
  case _ c a src t =>
    refine congrArg (fun f => laneSimple _ g s (pEffect g k f)) (funext₂ fun u l => ?_)
    exact congrArg (fun x => FCond.holds c (floatVal t (u.rdV a.toNat l).toNat) (floatVal t x)) (u.srcVal_false ..)
  case _ => rfl
  case _ => rfl
  case _ a b =>
    refine congrArg (fun f => laneSimple _ g s (pEffect g k f)) (funext₂ fun u l => ?_)
    exact congrFun₂ Bool.bne_eq_xor _ _
  case _ => rfl

/-! ## Votes (04 R116) -/

theorem hasLane_maskOfList (ls : List Nat) (l : Nat) : hasLane (maskOfList ls) l = (decide (l < 64) && decide (l ∈ ls)) := by
  suffices h : ∀ m : Mask, hasLane (ls.foldl (fun m j => m ||| laneBit j) m) l =
      (hasLane m l || (decide (l < 64) && decide (l ∈ ls))) by
    rw [maskOfList, h]
    simp [show (0 : Mask) = 0#64 from rfl]
  induction ls with
  | nil => simp
  | cons a ls ih =>
    intro m
    rw [List.foldl_cons, ih, hasLane_or, hasLane_laneBit]
    by_cases h : l = a <;> simp [h]
    grind

/-- The lanes of P that have the predicate, in the executing lanes. -/
theorem hasLane_voteBalOf (s : State) (g p : Pred) (l : Nat) :
    hasLane (voteBalOf s p (s.execs g)) l = (hasLane (s.exec g) l && s.rdP p l) := by
  rw [voteBalOf, hasLane_maskOfList]
  cases h : hasLane (s.exec g) l with
  | false => simp [State.execs, mem_lanesOf, h]
  | true => simp [State.execs, mem_lanesOf, h, lt_of_hasLane h]

theorem voteAllOf_eq (s : State) (g p : Pred) : voteAllOf s p (s.execs g) = decide (∀ m ∈ s.execs g, s.rdP p m = true) := by
  rw [voteAllOf, Bool.eq_iff_iff, List.all_eq_true, decide_eq_true_eq]

theorem voteAnyOf_eq (s : State) (g p : Pred) : voteAnyOf s p (s.execs g) = decide (∃ m ∈ s.execs g, s.rdP p m = true) := by
  rw [voteAnyOf, Bool.eq_iff_iff, List.any_eq_true, decide_eq_true_eq]

/-- The executing lanes agree where all of them have the predicate or none has it. -/
theorem voteEqOf_eq (s : State) (g p : Pred) : (voteAllOf s p (s.execs g) || !voteAnyOf s p (s.execs g)) =
    decide (∀ m ∈ s.execs g, ∀ n ∈ s.execs g, s.rdP p m = s.rdP p n) := by
  rw [voteAllOf_eq, voteAnyOf_eq, Bool.eq_iff_iff, Bool.or_eq_true, Bool.not_eq_true', decide_eq_true_eq, decide_eq_false_iff_not,
    decide_eq_true_eq]
  constructor
  · rintro (h | h) m hm n hn
    · rw [h m hm, h n hn]
    · rw [Bool.eq_false_iff.mpr fun e => h ⟨m, hm, e⟩, Bool.eq_false_iff.mpr fun e => h ⟨n, hn, e⟩]
  · intro h
    by_cases he : ∃ m ∈ s.execs g, s.rdP p m = true
    · obtain ⟨n, hn, e⟩ := he
      exact .inl fun m hm => (h m hm n hn).trans e
    · exact .inr he

/-- Settles O11: each instruction writes its pair or its ballot from the values before it, in every executing lane. -/
theorem predicateAndVoteResults : Obligations.PredicateAndVoteResults := by
  unfold Obligations.PredicateAndVoteResults
  refine ⟨fun i g s k v hr hm => ?_, fun g p s => ⟨fun k hm => ?_, fun k hm => ?_, fun k hm => ?_, fun d hm => ?_⟩⟩
  · obtain ⟨t, hx, hpc, hread⟩ := exec_of_pEffect hm (exec_pairResult hr)
    refine ⟨t, hx, hpc, fun l hl v hv => ?_⟩
    rw [hread l hl, pairBitOf, hv]
    rfl
  · obtain ⟨t, hx, hpc, hread⟩ := exec_of_pEffect hm (f := fun t _ => voteAllOf t p (t.execs g)) rfl
    exact ⟨t, hx, hpc, fun l hl => (hread l hl).trans (by rw [voteAllOf_eq])⟩
  · obtain ⟨t, hx, hpc, hread⟩ := exec_of_pEffect hm (f := fun t _ => voteAnyOf t p (t.execs g)) rfl
    exact ⟨t, hx, hpc, fun l hl => (hread l hl).trans (by rw [voteAnyOf_eq])⟩
  · obtain ⟨t, hx, hpc, hread⟩ := exec_of_pEffect hm
      (f := fun t _ => voteAllOf t p (t.execs g) || !voteAnyOf t p (t.execs g)) rfl
    exact ⟨t, hx, hpc, fun l hl => (hread l hl).trans (by rw [voteEqOf_eq])⟩
  · obtain ⟨t, hx, hpc, hread⟩ := exec_of_vPairEffect hm (f := fun t _ => voteBalOf t p (t.execs g)) rfl
    exact ⟨t, hx, hpc, fun l hl m => by rw [hread l hl, hasLane_voteBalOf]⟩

end Sys2Proof.Machine

end


/-!
PROOFS. Results of select, of the float instructions and of the packed instructions (spec/04_lane_integer.md R105, R107, R109-R113;
05 R118, R122, R124): the statement O12.
-/

section

namespace Sys2Proof.Machine

set_option linter.constructorNameAsVariable false

/-! ## One word from a lane's own operands -/

/-- The word that an instruction writes for lane l. -/
def resultWord (i : Instr) (s : State) (l : Nat) : Word := (s.wordResult l i).elim 0 (·.2.2)

theorem floatRun_eq (i : Instr) (g : Pred) (d a : Reg) (src : Src) (f : Word → Word → Word → Word) (s : State) :
    floatRun i g d a src f s =
      laneSimple i g s (vEffect g d fun t l => f (t.rdV a.toNat l) (t.last32 src l) (t.rdV d.toNat l)) := by
  simp only [floatRun, State.srcVal_false, BitVec.ofNat_toNat, BitVec.setWidth_eq]

theorem exec_wordResult {i : Instr} {g : Pred} {d : Reg} {v : Word} {s : State} (h : s.wordResult 0 i = some (g, d, v)) :
    exec i s = laneSimple i g s (vEffect g d (resultWord i)) := by
  unfold State.wordResult at h
  split at h <;> cases h
  case h_2 imm =>
    refine congrArg (fun f => laneSimple _ g s (vEffect g d f)) (funext₂ fun t l => ?_)
    exact congrArg (imm ++ ·) (BitVec.eq_of_toNat_eq (by simp))
  case h_4 a src => exact floatRun_eq (.fadd g d a src) g d a src (fun x y _ => f32add x y) s
  case h_5 a src => exact floatRun_eq (.fsub g d a src) g d a src (fun x y _ => f32sub x y) s
  case h_6 a src => exact floatRun_eq (.fmul g d a src) g d a src (fun x y _ => f32mul x y) s
  case h_7 a src => exact floatRun_eq (.ffma g d a src) g d a src f32fma s
  case h_8 a src => exact floatRun_eq (.fmin g d a src) g d a src (fun x y _ => f32min x y) s
  case h_9 a src => exact floatRun_eq (.fmax g d a src) g d a src (fun x y _ => f32max x y) s
  case h_10 src => exact floatRun_eq (.fclass g d src) g d d src (fun _ y _ => f32class y) s
  case h_11 a src => exact floatRun_eq (.pfmaF16 g d a src) g d a src (packedFma fFP16) s
  case h_12 a src => exact floatRun_eq (.pfmaBf16 g d a src) g d a src (packedFma fBF16) s
  all_goals rfl

/-! ## Packed elements (04 R109) -/

theorem wrapN_lt (e : Nat) (x : Int) : wrapN e x < 2 ^ e := by
  have := Int.emod_lt_of_pos x (b := ((2 ^ e : Nat) : Int)) (by exact_mod_cast Nat.two_pow_pos e)
  have := Int.emod_nonneg x (b := ((2 ^ e : Nat) : Int)) (by exact_mod_cast (Nat.two_pow_pos e).ne')
  rw [wrapN]
  omega

theorem packElems_succ (e n : Nat) (f : Nat → Int) : packElems e (n + 1) f = packElems e n f + wrapN e (f n) * 2 ^ (e * n) := by
  simp [packElems, List.range_succ]

theorem packElems_lt (e n : Nat) (f : Nat → Int) : packElems e n f < 2 ^ (e * n) := by
  induction n with
  | zero => simp [packElems]
  | succ n ih =>
    have h : wrapN e (f n) * 2 ^ (e * n) ≤ (2 ^ e - 1) * 2 ^ (e * n) :=
      Nat.mul_le_mul_right _ (Nat.le_sub_one_of_lt (wrapN_lt e _))
    rw [Nat.sub_mul, Nat.one_mul] at h
    have : 2 ^ (e * n) ≤ 2 ^ e * 2 ^ (e * n) := Nat.le_mul_of_pos_left _ (Nat.two_pow_pos e)
    rw [packElems_succ, Nat.mul_succ, Nat.pow_add, Nat.mul_comm (2 ^ (e * n))]
    omega

/-- Elements never carry into one another: element j is the number at j cut to its bits. -/
theorem elem_packElems (e : Nat) {n j : Nat} (hj : j < n) (f : Nat → Int) :
    packElems e n f / 2 ^ (e * j) % 2 ^ e = wrapN e (f j) := by
  induction n with
  | zero => exact absurd hj (Nat.not_lt_zero j)
  | succ n ih =>
    rw [packElems_succ]
    rcases Nat.lt_succ_iff_lt_or_eq.mp hj with hj | rfl
    · obtain ⟨k, rfl⟩ := Nat.exists_eq_add_of_lt hj
      have hsplit : 2 ^ (e * (j + k + 1)) = 2 ^ (e * j) * (2 ^ e * 2 ^ (e * k)) := by ring
      rw [hsplit, Nat.mul_left_comm, Nat.add_mul_div_left _ _ (Nat.two_pow_pos _), Nat.mul_left_comm, Nat.add_mul_mod_self_left, ih hj]
    · rw [Nat.add_mul_div_right _ _ (Nat.two_pow_pos _), Nat.div_eq_of_lt (packElems_lt e j f), Nat.zero_add,
        Nat.mod_eq_of_lt (wrapN_lt e _)]

theorem extractLsb'_packElems {m e n j : Nat} (hm : e * n ≤ m) (hj : j < n) (f : Nat → Int) :
    (BitVec.ofNat m (packElems e n f)).extractLsb' (e * j) e = BitVec.ofInt e (f j) := by
  have h : packElems e n f % 2 ^ m = packElems e n f :=
    Nat.mod_eq_of_lt ((packElems_lt e n f).trans_le (Nat.pow_le_pow_right (by decide) hm))
  rw [← ofNat_wrapN, ← elem_packElems e hj f]
  apply BitVec.eq_of_toNat_eq
  rw [toNat_extractLsb', BitVec.toNat_ofNat, BitVec.toNat_ofNat, h, Nat.mod_mod]

theorem elemVal_toNat {n e : Nat} (he : 0 < e) (u : Bool) (x : BitVec n) (i : Nat) : elemVal e u x.toNat i = elemInt e u x i := by
  simp only [elemVal, elemInt, ← toNat_extractLsb', sgnN_toNat he]

theorem ewBits_pos (e : EWidth) : 0 < ewBits e := by cases e <;> decide
theorem ewBits_mul (e : EWidth) : ewBits e * (32 / ewBits e) = 32 := by cases e <;> rfl

theorem clampI_eq (e : Nat) (u : Bool) (x : Int) : clampI x (elemLo e u) (elemHi e u) = clampTo e u x := by
  have he : (0 : Int) < 2 ^ e := by positivity
  have he' : (0 : Int) < 2 ^ (e - 1) := by positivity
  cases u <;> simp only [clampI, elemLo, elemHi, clampTo] <;> push_cast <;> grind

/-- The word of elements of e bits that are given by index. -/
def packWord (e : EWidth) (f : Nat → Int) : Word := BitVec.ofNat 32 (packElems (ewBits e) (32 / ewBits e) f)

theorem extractLsb'_packWord (e : EWidth) {j : Nat} (hj : j < 32 / ewBits e) (f : Nat → Int) :
    (packWord e f).extractLsb' (ewBits e * j) (ewBits e) = BitVec.ofInt (ewBits e) (f j) :=
  extractLsb'_packElems (ewBits_mul e).le hj f

/-! ## Elementwise instructions (04 R110, R113) -/

theorem packedOp_eq (e : EWidth) (u sat : Bool) (f : Int → Int → Int) (x y : Word) : packedOp e u sat f x y = packWord e fun i =>
    if sat then clampTo (ewBits e) u (f (elemInt (ewBits e) u x i) (elemInt (ewBits e) u y i))
    else f (elemInt (ewBits e) u x i) (elemInt (ewBits e) u y i) := by
  simp only [packedOp, packWord, elemVal_toNat (ewBits_pos e), clampI_eq]

theorem pcmpEq_eq (e : EWidth) (x y : Word) :
    (pcmp e fun i => decide (elemVal (ewBits e) true x.toNat i = elemVal (ewBits e) true y.toNat i)) = packWord e fun i =>
      if x.extractLsb' (ewBits e * i) (ewBits e) = y.extractLsb' (ewBits e * i) (ewBits e) then -1 else 0 := by
  simp only [pcmp, packWord, elemVal_toNat (ewBits_pos e), elemInt, if_true, Nat.cast_inj, BitVec.toNat_inj, decide_eq_true_eq]

theorem pcmpLt_eq (e : EWidth) (u : Bool) (x y : Word) :
    (pcmp e fun i => decide (elemVal (ewBits e) u x.toNat i < elemVal (ewBits e) u y.toNat i)) = packWord e fun i =>
      if elemInt (ewBits e) u x i < elemInt (ewBits e) u y i then -1 else 0 := by
  simp only [pcmp, packWord, elemVal_toNat (ewBits_pos e), decide_eq_true_eq]

theorem packedRun_eq {f f' : Word → Word → Word} (h : ∀ x y, f x y = f' x y) (i : Instr) (g : Pred) (d a b : Reg) (s : State) :
    packedRun i g d a b f s = laneSimple i g s (vEffect g d fun t l => f' (t.rdV a.toNat l) (t.rdV b.toNat l)) := by
  simp only [packedRun, h]

theorem exec_packedResult {i : Instr} {g : Pred} {d a b : Reg} {e : EWidth} {f : Word → Word → Nat → Int}
    (h : packedResult i = some (g, d, a, b, e, f)) (s : State) :
    exec i s = laneSimple i g s (vEffect g d fun t l => packWord e (f (t.rdV a.toNat l) (t.rdV b.toNat l))) := by
  unfold packedResult at h
  split at h <;> cases h
  case h_1 u sat => exact packedRun_eq (packedOp_eq e u sat (· + ·)) (.padd g d a b e u sat) g d a b s
  case h_2 u sat => exact packedRun_eq (packedOp_eq e u sat (· - ·)) (.psub g d a b e u sat) g d a b s
  case h_3 u sat => exact packedRun_eq (packedOp_eq e u sat (· * ·)) (.pmul g d a b e u sat) g d a b s
  case h_4 u => exact packedRun_eq (packedOp_eq e u false min) (.pmin g d a b e u) g d a b s
  case h_5 u => exact packedRun_eq (packedOp_eq e u false max) (.pmax g d a b e u) g d a b s
  case h_6 u => exact packedRun_eq (pcmpEq_eq e) (.pcmpEq g d a b e u) g d a b s
  case h_7 u => exact packedRun_eq (pcmpLt_eq e u) (.pcmpLt g d a b e u) g d a b s

/-! ## Sums of products, wider and narrower elements (04 R111, R112) -/

theorem foldl_add_eq_sum (f : Nat → Int) (l : List Nat) (z : Int) : l.foldl (fun t i => t + f i) z = z + (l.map f).sum := by
  induction l generalizing z with
  | nil => simp
  | cons i l ih => rw [List.foldl_cons, ih, List.map_cons, List.sum_cons, add_assoc]

theorem pdot_eq (e : EWidth) (u : Bool) (x y z : Word) : pdot e u x y z =
    z + BitVec.ofInt 32 (((List.range (32 / ewBits e)).map fun j => elemInt (ewBits e) u x j * elemInt (ewBits e) u y j).sum) := by
  simp only [pdot, elemVal_toNat (ewBits_pos e)]
  rw [ofNat_wrapN, foldl_add_eq_sum, BitVec.ofInt_add, BitVec.ofInt_natCast, BitVec.ofNat_toNat, BitVec.setWidth_eq]

theorem extractLsb'_widen (e : EWidth) (u : Bool) (x : Word) {j : Nat} (hj : j < 32 / ewBits e) :
    (widen e u x).extractLsb' (2 * ewBits e * j) (2 * ewBits e) = BitVec.ofInt (2 * ewBits e) (elemInt (ewBits e) u x j) := by
  have hm : 2 * ewBits e * (32 / ewBits e) = 64 := by rw [Nat.mul_assoc, ewBits_mul]
  rw [← elemVal_toNat (ewBits_pos e)]
  exact extractLsb'_packElems hm.le hj _

theorem natAbs_elemInt_lt {n : Nat} (e : Nat) (u : Bool) (x : BitVec n) (i : Nat) : (elemInt e u x i).natAbs < 2 ^ (e + 1) := by
  have := (x.extractLsb' (e * i) e).isLt
  rw [Nat.pow_succ]
  cases u with
  | true => simp only [elemInt, if_true]; omega
  | false =>
    simp only [elemInt, Bool.false_eq_true, if_false, BitVec.toInt_eq_toNat_cond]
    split <;> omega

/-- A shift of 64 or more divides every element to 0. -/
theorem rnaShift_min {x : Int} (hx : x.natAbs < 2 ^ 63) (c : Nat) : rnaShift x (min c 64) = rnaQuotient x c := by
  have hq : (2 * x.natAbs + 2 ^ min c 64) / 2 ^ (min c 64 + 1) = (2 * x.natAbs + 2 ^ c) / 2 ^ (c + 1) := by
    rcases Nat.le_total c 64 with h | h
    · rw [Nat.min_eq_left h]
    · have : 2 ^ 64 ≤ 2 ^ c := Nat.pow_le_pow_right (by decide) h
      rw [Nat.min_eq_right h, Nat.div_eq_of_lt (by omega), Nat.div_eq_of_lt (by omega)]
  rw [rnaShift, rnaQuotient, hq]
  rcases Int.lt_trichotomy x 0 with h | rfl | h
  · rw [if_pos h, Int.sign_eq_neg_one_of_neg h, Int.neg_one_mul]
  · rw [if_neg (Int.lt_irrefl 0), Int.sign_zero, Int.zero_mul]
    simp [Nat.pow_succ, Nat.div_eq_of_lt, Nat.two_pow_pos]
  · rw [if_neg (Int.not_lt.mpr h.le), Int.sign_eq_one_of_pos h, Int.one_mul]

theorem extractLsb'_narrow (e : EWidth) (u : Bool) (x : Dword) (c : Nat) {j : Nat} (hj : j < 32 / ewBits e) :
    (narrow e u x c).extractLsb' (ewBits e * j) (ewBits e) =
      BitVec.ofInt (ewBits e) (clampTo (ewBits e) u (rnaQuotient (elemInt (2 * ewBits e) u x j) c)) := by
  have hlt : (elemInt (2 * ewBits e) u x j).natAbs < 2 ^ 63 :=
    (natAbs_elemInt_lt ..).trans_le (Nat.pow_le_pow_right (by decide) (by cases e <;> decide))
  rw [← rnaShift_min hlt, ← clampI_eq, ← elemVal_toNat (Nat.mul_pos Nat.two_pos (ewBits_pos e))]
  exact extractLsb'_packWord e hj _

/-- Settles O12: each instruction writes its word from the values before it, in every executing lane; a packed word is its elements. -/
theorem wordAndPackedResults : Obligations.WordAndPackedResults := by
  unfold Obligations.WordAndPackedResults
  refine ⟨fun i g s d v hr hm => ?_, fun i g d a b e f hr s hm => ?_, fun g d a b e u s hm => ?_, fun g d b e u s hm => ?_,
    fun g d a b e u s hm => ?_⟩
  · obtain ⟨t, hx, hpc, hread⟩ := exec_of_vEffect hm (exec_wordResult hr)
    refine ⟨t, hx, hpc, fun l hl v hv => ?_⟩
    rw [hread l hl, resultWord, hv]
    rfl
  · obtain ⟨t, hx, hpc, hread⟩ := exec_of_vEffect hm (exec_packedResult hr s)
    exact ⟨t, hx, hpc, fun l hl j hj => by rw [hread l hl, extractLsb'_packWord e hj]⟩
  · obtain ⟨t, hx, hpc, hread⟩ := exec_of_vEffect hm
      (f := fun t l => pdot e u (t.rdV a.toNat l) (t.rdV b.toNat l) (t.rdV d.toNat l)) rfl
    exact ⟨t, hx, hpc, fun l hl => by rw [hread l hl, pdot_eq]⟩
  · obtain ⟨t, hx, hpc, hread⟩ := exec_of_vPairEffect hm (f := fun t l => widen e u (t.rdV b.toNat l)) rfl
    exact ⟨t, hx, hpc, fun l hl j hj => by rw [hread l hl, extractLsb'_widen e u _ hj]⟩
  · obtain ⟨t, hx, hpc, hread⟩ := exec_of_vEffect hm
      (f := fun t l => narrow e u (t.rdVPair a.toNat l) (t.rdV b.toNat l).toNat) rfl
    exact ⟨t, hx, hpc, fun l hl j hj => by rw [hread l hl, extractLsb'_narrow e u _ _ hj]⟩

end Sys2Proof.Machine

end


/-!
PROOFS. The group collectives in their plain form (spec/05_lane_float.md R135, R137): what they write and what they leave unchanged.
-/

section

namespace Sys2Proof.Machine

set_option linter.constructorNameAsVariable false

section
variable {g : Pred} {d a b : Reg} {k : PairIx} {op : RedOp} {s : State}

/-! ## SHFL (05 R135) -/

/-- The word that a shuffle gives lane l. -/
def shuffleWord (i : Instr) (g : Pred) (a b : Reg) (s : State) (l : Nat) : Word :=
  s.rdV a.toNat (shflSource (s.execs g) l (shuffleSource s.unitNode.width l (s.rdV b.toNat l).toNat i))

theorem collectiveRun_plain (i : Instr) (g : Pred) (s : State) (body : List Nat → State → State) :
    collectiveRun i g false s body = laneSimple i g s fun t => body (lanesOf (t.exec g)) t := rfl

/-- The source lane of SHFL.UP. -/
def shflUpSource (l c : Nat) : Option Nat := if l < c then none else some (l - c)

theorem shflUpSource_eq (l c : Nat) : shflUpSource l c = if c ≤ l then some (l - c) else none := by
  simp only [shflUpSource, ← Nat.not_le, ite_not]

theorem exec_shuffle {i : Instr} (h : shuffleOperands i = some (g, d, a, b)) (s : State) :
    exec i s = laneSimple i g s (vEffect g d (shuffleWord i g a b)) := by
  unfold shuffleOperands at h
  split at h <;> cases h
  case h_1 => rfl
  case h_2 =>
    refine congrArg (fun f => laneSimple (.shflUp g d a b false) g s (vEffect g d f)) (a₁ := fun t l => t.rdV a.toNat
      (shflSource (t.execs g) l (shflUpSource l (t.rdV b.toNat l).toNat))) (funext₂ fun t l => ?_)
    rw [shflUpSource_eq]
    rfl
  case h_3 => rfl
  case h_4 => rfl

theorem shflSource_of_mem {ls : List Nat} (l : Nat) {j : Nat} (h : j ∈ ls) : shflSource ls l (some j) = j := by
  simp [shflSource, h]

theorem shflSource_of_not_mem {ls : List Nat} (l : Nat) {o : Option Nat} (h : ∀ j, o = some j → j ∉ ls) : shflSource ls l o = l := by
  cases o with
  | none => rfl
  | some j => simp [shflSource, h j rfl]

/-! ## REDUX (05 R137) -/

theorem redFold_eq (op : RedOp) (l : List Word) : redFold op l = foldOf op l := by cases l <;> rfl

/-- The effect of REDUX on the executing lanes. -/
def reduxEffect (g : Pred) (d a : Reg) (k : PairIx) (op : RedOp) (s : State) : State :=
  (s.wrS d.toNat (redFold op ((s.execs g).map fun l => s.rdV a.toNat l))).putLanes (s.execs g) fun t l =>
    t.wrPair k l (s.execs g).isEmpty

theorem changes_reduxEffect : Changes g ⟨[], [d.toNat], [k.toNat]⟩ (reduxEffect g d a k op) where
  view s := (State.unitView_putLanes _ _ fun _ _ => by simp).trans (by simp)
  frame s hs := ((RegsOnly.refl ..).wrS hs List.mem_cons_self _).putLanes_of ((State.issuing_of_unitView (by simp)).trans hs)
    (fun _ _ => by simp) (fun _ _ hl ht h => h.wrPair ht List.mem_cons_self hl _) fun _ h => h

theorem rdS_reduxEffect (hi : s.issuing = true) :
    (reduxEffect g d a k op s).rdS d.toNat = foldOf op ((s.execs g).map fun l => s.rdV a.toNat l) := by
  rw [reduxEffect, State.putLanes_proj (fun t : State => t.rdS d.toNat) _ _ _ fun _ _ => by simp, State.rdS_wrS hi, if_pos rfl,
    redFold_eq]

theorem pairBit_reduxEffect (hi : s.issuing = true) {l : Nat} (hl : l ∈ s.execs g) :
    (reduxEffect g d a k op s).pairBit k.toNat l = (k == 0) := by
  have hview := State.unitView_wrS s d.toNat (redFold op ((s.execs g).map fun l => s.rdV a.toNat l))
  rw [reduxEffect, State.read_putLanes (r := fun t l => t.pairBit k.toNat l) (v := fun _ => k == 0 || (s.execs g).isEmpty)
    (fun _ _ => by simp) (fun _ _ _ _ hl hl' hne => State.pairBit_wrPair_other k _ hl hl' hne _)
    (fun _ _ ht hl => State.pairBit_wrPair ht k _ hl) (s.execs_nodup g) ((State.issuing_of_unitView hview).trans hi)
    (fun j hj => by rw [State.lanes_of_unitView hview]; exact hasLane_of_mem_execs hj) hl,
    List.isEmpty_eq_false_iff.mpr (List.ne_nil_of_mem hl), Bool.or_false]

/-! ## SCAN (05 R137) -/

section
variable {before : Nat → Nat → Bool}

/-- The effect of SCAN on the executing lanes. -/
def scanEffect (g : Pred) (d a : Reg) (k : PairIx) (op : RedOp) (before : Nat → Nat → Bool) (s : State) : State :=
  scanBody d a k op before (s.execs g) s

theorem changes_scanEffect : Changes g ⟨[d.toNat], [], [k.toNat]⟩ (scanEffect g d a k op before) :=
  .lanes (fun _ _ _ => by simp) fun _ _ _ ht hl h =>
    (h.wrV ht List.mem_cons_self hl _).wrPair (by simpa using ht) List.mem_cons_self hl _

/-- SCAN folds the lanes before its own, and pair k says whether there was none. -/
theorem read_scanEffect (hi : s.issuing = true) {l : Nat} (hl : l ∈ s.execs g) :
    (scanEffect g d a k op before s).rdV d.toNat l =
      foldOf op (((s.execs g).filter fun j => before j l).map fun j => s.rdV a.toNat j) ∧
    (scanEffect g d a k op before s).pairBit k.toNat l = (k == 0 || ((s.execs g).filter fun j => before j l).isEmpty) := by
  rw [← redFold_eq]
  refine Prod.mk.inj (State.read_putLanes (r := fun t l => (t.rdV d.toNat l, t.pairBit k.toNat l))
    (v := fun l => (redFold op (((s.execs g).filter fun j => before j l).map fun j => s.rdV a.toNat j),
      k == 0 || ((s.execs g).filter fun j => before j l).isEmpty)) (fun _ _ => by simp) (fun t l l' ht hl hl' hne => ?_)
    (fun t l ht hl => ?_) (s.execs_nodup g) hi (fun _ => hasLane_of_mem_execs) hl)
  · rw [State.rdV_wrPair, t.rdV_wrV ht _ _ _ _ _ hl hl', if_neg fun e => hne e.2,
      State.pairBit_wrPair_other k _ (by simpa using hl) (by simpa using hl') hne, State.pairBit_wrV]
  · rw [State.rdV_wrPair, t.rdV_wrV ht _ _ _ _ _ hl hl, if_pos ⟨rfl, rfl⟩,
      State.pairBit_wrPair (by simpa using ht) k _ (by simpa using hl)]

end

end

end Sys2Proof.Machine

end


/-!
PROOFS. The frame of the instructions that only change registers (spec/04_lane_integer.md R96; 05 R117): the statement O16.
-/

section

namespace Sys2Proof.Machine

set_option linter.constructorNameAsVariable false

/-- The effect of CVT on the executing lanes. -/
def cvtEffect (g : Pred) (d a : Reg) (dty sty : CvtTy) (rz sat : Bool) (s : State) : State :=
  s.putLanes (lanesOf (s.exec g)) fun t l =>
    t.wrVn (cvtWide dty) d.toNat l (cvtVal dty sty rz sat (s.rdVn (cvtWide sty) a.toNat l))

theorem changes_cvtEffect {g : Pred} {d a : Reg} {dty sty : CvtTy} {rz sat : Bool} :
    Changes g (destV d (wn (cvtWide dty))) (cvtEffect g d a dty sty rz sat) :=
  .lanes (fun _ _ _ => State.unitView_wrVn ..) fun _ _ _ ht hl h => h.wrVn ht (fun _ hj => mem_dest hj) hl _

theorem wn_add_one (w : Bool) : wn w + 1 = if w then 3 else 2 := by cases w <;> rfl

/-- An instruction with a table of written registers has an effect that changes no other. -/
theorem exists_effect_of_regWrites {i : Instr} {g : Pred} {w : RegSet} (h : regWrites i = some (g, w)) :
    ∃ eff : State → State, (∀ s, exec i s = laneSimple i g s eff) ∧ Changes g w eff := by
  unfold regWrites at h
  split at h
  case h_57 =>
    split at h <;> cases h
    next hop => exact ⟨_, exec_intOperands hop, changes_intEffect⟩
  all_goals cases h
  -- IADDC, LEA, and the uniform forms of MOVI and MOVHI
  case h_1 w d a src => exact ⟨iaddcEffect g w d a src, fun _ => rfl, wn_add_one w ▸ changes_iaddcEffect⟩
  case h_2 w d a src => exact ⟨_, fun _ => rfl, changes_intEffect (w := true)⟩
  case h_5 d imm => exact ⟨_, fun _ => rfl, changes_uniformWord (f := fun _ => imm.signExtend 32)⟩
  case h_6 d imm => exact ⟨_, fun _ => rfl, changes_uniformWord (f := fun s => imm ++ (s.rdS d.toNat).setWidth 16)⟩
  -- one predicate pair of each lane
  case h_7 | h_8 | h_9 | h_10 | h_11 | h_12 => exact ⟨_, fun _ => exec_pairResult rfl, changes_pEffect⟩
  -- elementwise packed instructions
  case h_14 | h_15 | h_16 | h_17 | h_18 | h_20 | h_21 => exact ⟨_, exec_packedResult rfl, changes_vEffect⟩
  -- PDOT, PWIDEN, PNARROW, CVT
  case h_19 d a b e u =>
    exact ⟨vEffect g d fun t l => pdot e u (t.rdV a.toNat l) (t.rdV b.toNat l) (t.rdV d.toNat l), fun _ => rfl, changes_vEffect⟩
  case h_22 d b e u => exact ⟨vPairEffect g d fun t l => widen e u (t.rdV b.toNat l), fun _ => rfl, changes_vPairEffect⟩
  case h_23 d a b e u =>
    exact ⟨vEffect g d fun t l => narrow e u (t.rdVPair a.toNat l) (t.rdV b.toNat l).toNat, fun _ => rfl, changes_vEffect⟩
  case h_45 d a dty sty rz sat => exact ⟨cvtEffect g d a dty sty rz sat, fun _ => rfl, changes_cvtEffect⟩
  -- collectives
  case h_46 k p => exact ⟨pEffect g k fun t _ => voteAllOf t p (t.execs g), fun _ => rfl, changes_pEffect⟩
  case h_47 k p => exact ⟨pEffect g k fun t _ => voteAnyOf t p (t.execs g), fun _ => rfl, changes_pEffect⟩
  case h_48 k p =>
    exact ⟨pEffect g k fun t _ => voteAllOf t p (t.execs g) || !voteAnyOf t p (t.execs g), fun _ => rfl, changes_pEffect⟩
  case h_49 d p => exact ⟨vPairEffect g d fun t _ => voteBalOf t p (t.execs g), fun _ => rfl, changes_vPairEffect⟩
  case h_50 | h_51 | h_52 | h_53 => exact ⟨_, exec_shuffle rfl, changes_vEffect⟩
  case h_54 d a k op => exact ⟨reduxEffect g d a k op, fun _ => rfl, changes_reduxEffect⟩
  case h_55 d a k op => exact ⟨scanEffect g d a k op fun j l => j ≤ l, fun _ => rfl, changes_scanEffect⟩
  case h_56 d a k op => exact ⟨scanEffect g d a k op fun j l => j < l, fun _ => rfl, changes_scanEffect⟩
  -- one word of each lane from its own operands
  all_goals exact ⟨_, fun _ => exec_wordResult rfl, changes_vEffect⟩

/-- Settles O16: the instruction's effect changes nothing but its registers, and then the PC goes on. -/
theorem registerFrame : Obligations.RegisterFrame := by
  unfold Obligations.RegisterFrame
  intro i g w h s hm
  obtain ⟨eff, hx, heff⟩ := exists_effect_of_regWrites h
  have hi := issuing_of_mayIssue hm
  exact ⟨_, (exec_of_laneSimple (hx s) hm (heff.view s)).1,
    (heff.frame s hi).setPc ((State.issuing_of_unitView (heff.view s)).trans hi) _⟩

end Sys2Proof.Machine

end


/-!
PROOFS. The gathering form of the group collectives (spec/04_lane_integer.md R115): the statement O15.
-/

section

namespace Sys2Proof.Machine

set_option linter.constructorNameAsVariable false

/-! ## A change of one split -/

/-- A lane of a union of masks is a lane of the first mask or of a member's. -/
theorem hasLane_foldl_or {α : Type} (f : α → Mask) (xs : List α) (m : Mask) (l : Nat) :
    hasLane (xs.foldl (fun n x => n ||| f x) m) l = true ↔ hasLane m l = true ∨ ∃ x ∈ xs, hasLane (f x) l = true := by
  induction xs generalizing m with
  | nil => simp
  | cons x xs ih => rw [List.foldl_cons, ih, hasLane_or, Bool.or_eq_true, List.exists_mem_cons_iff, or_assoc]

theorem Table.mem_modify {α : Type} {t : Table α} {i : Nat} {f : α → α} {e : Nat × α} (h : e ∈ t.modify i f) :
    e ∈ t ∨ ∃ y, t.find i = some y ∧ e = (i, f y) := by
  induction t with
  | nil => exact absurd h List.not_mem_nil
  | cons a t ih =>
    obtain ⟨k, v⟩ := a
    by_cases hk : k = i
    · rw [Table.modify, if_pos hk] at h
      rcases List.mem_cons.mp h with rfl | h
      · exact .inr ⟨v, if_pos hk, by rw [hk]⟩
      · exact .inl (List.mem_cons_of_mem _ h)
    · rw [Table.modify, if_neg hk] at h
      rcases List.mem_cons.mp h with rfl | h
      · exact .inl List.mem_cons_self
      · rw [Table.find, if_neg hk]
        exact (ih h).imp_left (List.mem_cons_of_mem _)

/-- Where no entry is picked but the changed one, the changed one is the only one. -/
theorem Table.filter_modify {α : Type} {t : Table α} {i : Nat} {f : α → α} {y : α} (hy : t.find i = some y) {p : Nat × α → Bool}
    (hp : p (i, f y) = true) (hn : ∀ e ∈ t, p e = false) : (t.modify i f).filter p = [(i, f y)] := by
  induction t with
  | nil => cases hy
  | cons a t ih =>
    obtain ⟨k, v⟩ := a
    have hnone : t.filter p = [] := List.filter_eq_nil_iff.mpr fun e he => by simp [hn e (List.mem_cons_of_mem _ he)]
    rw [Table.find] at hy
    rw [Table.modify]
    split at hy
    · next hk =>
      cases hy
      rw [if_pos hk, hk, List.filter_cons_of_pos hp, hnone]
    · next hk =>
      rw [if_neg hk, List.filter_cons_of_neg (by simp [hn (k, v) List.mem_cons_self])]
      exact ih hy fun e he => hn e (List.mem_cons_of_mem _ he)

section
variable {s : State} {b gr k : Nat}

theorem State.modSpl_congr {f h : Split → Split} (he : f (s.spl b gr k) = h (s.spl b gr k)) :
    s.modSpl b gr k f = s.modSpl b gr k h := by
  rw [State.modSpl, State.modSpl, State.modGrp_eq_setGrp, State.modGrp_eq_setGrp (f := fun x => x.modSpl k h)]
  refine congrArg (s.setGrp b gr) (congrArg (fun t => { s.grp b gr with splits := t }) (Table.modify_congr fun y hy => ?_))
  have hs : s.spl b gr k = y := Table.getD_of_find _ hy
  rwa [hs] at he

theorem State.find_of_has {x : Group} (h : x.splits.has k = true) : x.splits.find k = some (x.spl k) := by
  obtain ⟨y, hy⟩ := Option.isSome_iff_exists.mp h
  rw [hy]
  exact congrArg some (Table.getD_of_find _ hy).symm

section
variable (hb : s.blocks.has b = true) (hg : (s.blk b).groups.has gr = true)
include hb hg

theorem State.grp_modSpl_self (f : Split → Split) : (s.modSpl b gr k f).grp b gr = (s.grp b gr).modSpl k f :=
  State.grp_modGrp_self hb hg _

/-- The live lanes of a group do not depend on its splits. -/
theorem State.liveLanes_modSpl (f : Split → Split) : (s.modSpl b gr k f).liveLanes b gr = s.liveLanes b gr := by
  rw [State.liveLanes, State.grp_modSpl_self hb hg, State.modSpl, State.blk_modGrp]
  rfl

end

/-- What a change of a split keeps of every split stays of each. -/
theorem State.proj_spl_modSpl {β : Type} (p : Split → β) {f : Split → Split} (h : ∀ y, p (f y) = p y) (b' g' k' : Nat) :
    p ((s.modSpl b gr k f).spl b' g' k') = p (s.spl b' g' k') :=
  Table.proj_getD_modify (fun x : Block => p ((x.groups.getD g' Group.empty).spl k')) fun _ =>
    Table.proj_getD_modify (fun y : Group => p (y.spl k')) fun _ => Table.proj_getD_modify p h

theorem State.topPath_modSpl {f : Split → Split} (hstack : ∀ y, (f y).stack = y.stack) (hspilled : ∀ y, (f y).spilled = y.spilled) :
    (s.modSpl b gr k f).topPath b gr k = s.topPath b gr k :=
  State.topPath_congr (State.fullStack_modGrp (State.proj_spl_modSpl Split.stack hstack b gr k)
    (State.proj_spl_modSpl Split.spilled hspilled b gr k))

theorem State.unitNode_modSpl (s : State) (b gr k : Nat) (f : Split → Split) : (s.modSpl b gr k f).unitNode = s.unitNode :=
  s.blk_modBlk_node b _ _ fun _ => rfl

/-- The interlock depends on the active lanes of the splits alone. -/
theorem State.interlocked_modSpl (s : State) (b gr k : Nat) {f : Split → Split} (ham : ∀ y, (f y).am = y.am) (g : Pred) (u : Uses) :
    (s.modSpl b gr k f).interlocked g u = s.interlocked g u := by
  simp only [State.interlocked, State.mine, State.modSpl_focus, State.modSpl_ops, State.proj_spl_modSpl Split.am ham]
  rfl

/-- Changing the waits and the wait masks of a split leaves its unit's view alone. -/
theorem State.unitView_modSpl (s : State) (b gr k : Nat) {f : Split → Split} (ham : ∀ y, (f y).am = y.am)
    (hpc : ∀ y, (f y).pc = y.pc) : (s.modSpl b gr k f).unitView = s.unitView := by
  have hnode (b' : Nat) : ((s.modSpl b gr k f).blk b').node = (s.blk b').node := s.blk_modBlk_node b b' _ fun _ => rfl
  have hsplit (b' g' k' : Nat) : (s.modSpl b gr k f).hasSplit b' g' k' = s.hasSplit b' g' k' := by
    simp only [State.hasSplit, State.modSpl, State.modGrp, State.modBlk, Block.modGrp, Group.modSpl]
    by_cases hb : b' = b
    · subst hb
      rw [Table.find_modify_self]
      cases s.blocks.find b' with
      | none => rfl
      | some x =>
        simp only [Option.map_some]
        by_cases hg : g' = gr
        · subst hg
          rw [Table.find_modify_self]
          cases x.groups.find g' with
          | none => rfl
          | some y => simp only [Option.map_some, Table.has_modify]
        · rw [Table.find_modify_other _ _ _ _ hg]
    · rw [Table.find_modify_other _ _ _ _ hb]
  simp only [State.unitView, State.issuing, State.lanes, State.pc, State.modSpl_focus, hsplit, State.proj_spl_modSpl Split.am ham,
    State.proj_spl_modSpl Split.pc hpc, Block.width, hnode]
  rfl

end

/-! ## The collectives of a group -/

/-- What a collective does with the participating lanes. -/
def collectiveBody : Instr → List Nat → State → State
  | .voteAll _ k p _ => fun ls t => t.putLanes ls fun u l => u.wrPair k l (voteAllOf t p ls)
  | .voteAny _ k p _ => fun ls t => t.putLanes ls fun u l => u.wrPair k l (voteAnyOf t p ls)
  | .voteBal _ d p _ => fun ls t => t.putLanes ls fun u l => u.wrVPair d.toNat l (voteBalOf t p ls)
  | .voteEq _ k p _ => fun ls t => t.putLanes ls fun u l => u.wrPair k l (voteAllOf t p ls || !voteAnyOf t p ls)
  | .shflIdx _ d a b _ => shflBody d a b fun n _ c => some (c % n)
  | .shflUp _ d a b _ => shflBody d a b fun _ l c => if l < c then none else some (l - c)
  | .shflDn _ d a b _ => shflBody d a b fun n l c => if l + c < n then some (l + c) else none
  | .shflXor _ d a b _ => shflBody d a b fun n l c => some (l ^^^ (c % n))
  | .redux _ d a _ k op => fun ls t =>
    (t.wrS d.toNat (redFold op (ls.map fun l => t.rdV a.toNat l))).putLanes ls fun u l => u.wrPair k l ls.isEmpty
  | .scanInc _ d a _ k op => scanBody d a k op fun j l => j ≤ l
  | .scanExc _ d a _ k op => scanBody d a k op fun j l => j < l
  | _ => fun _ t => t

theorem exec_gathers {i : Instr} {g : Pred} (h : gathers i = some g) (s : State) :
    exec i s = collectiveRun i g true s (collectiveBody i) := by
  unfold gathers at h
  split at h <;> cases h
  all_goals rfl

/-- A split that joins those that wait at a collective. -/
def Split.gather (pc : Dword) (y : Split) : Split := { y with gm := y.gm ||| y.am, am := 0, wait := .collective pc }

/-- A split that goes on after a merge of its own lanes alone. -/
def Split.gathered (y : Split) : Split := { y with wm := 0, gm := 0, wait := .ready }

section
variable {i : Instr} {g : Pred} {s : State} {b gr k : Nat} {body : List Nat → State → State}

/-- The survivor of a merge executes the collective, unless the interlock holds it. -/
def collectAt (i : Instr) (g : Pred) (body : List Nat → State → State) (s : State) : Out :=
  if s.interlocked g (instrUses s.unitNode i) then .next s else .next ((body (s.execs g) s).skip i.laneSize)

theorem collectAt_of_unlocked (h : s.interlocked g (instrUses s.unitNode i) = false) :
    collectAt i g body s = .next ((body (s.execs g) s).skip i.laneSize) := if_neg (Bool.eq_false_iff.mp h)

/-- A lane that waits at no split of the address holds the merge up. -/
theorem State.tryCollect_eq_none {pc : Dword} {l : Nat} (hl : hasLane (s.liveLanes b gr) l = true)
    (hw : ∀ e ∈ (s.grp b gr).collectors pc, hasLane e.2.gm l = false) : s.tryCollect b gr pc = none := by
  unfold State.tryCollect
  dsimp only
  split
  · rfl
  · next e es hws =>
    refine if_neg fun h => ?_
    simp only [Bool.and_eq_true] at h
    obtain ⟨⟨-, hsub⟩, -⟩ := h
    rcases (hasLane_foldl_or (fun e : Nat × Split => e.2.gm) _ 0 l).mp ((subLanes_iff ..).mp hsub l hl) with h0 | ⟨e, he, hel⟩
    · exact absurd h0 (by simp [show (0 : Mask) = 0#64 from rfl])
    · rw [hw e (hws ▸ he)] at hel
      cases hel

section
variable (hf : s.focus = .split b gr k) (hm : s.mayIssue i g = true) (htop : s.topPath b gr k = false)
include hf hm htop

/-- A collective in its .G form: the split waits, and it merges where every live lane waits. -/
theorem collectiveRun_gather : collectiveRun i g true s body =
    ((s.modSpl b gr k (Split.gather s.pc)).tryCollect b gr s.pc).elim (.next (s.modSpl b gr k (Split.gather s.pc)))
      fun r => collectAt i g body { r.2 with focus := .split b gr r.1 } := by
  have hgather : s.modSpl b gr k (fun y => { y with gm := y.gm ||| y.am, am := 0, wait := .collective y.pc }) =
      s.modSpl b gr k (Split.gather s.pc) := State.modSpl_congr (by rw [Split.gather, State.pc, hf])
  rw [collectiveRun, laneRun_of_mayIssue hm]
  simp only [hf, htop, hgather]
  cases (s.modSpl b gr k (Split.gather s.pc)).tryCollect b gr s.pc with
  | none => rfl
  | some r => rfl

/-- While some live lane waits at no split of the address, the split only waits. -/
theorem collectiveRun_waits {l : Nat} (hl : hasLane (s.liveLanes b gr) l = true) (hgm : hasLane (s.spl b gr k).gm l = false)
    (ham : hasLane (s.spl b gr k).am l = false)
    (hw : ∀ e ∈ (s.grp b gr).splits, e.2.wait = .collective s.pc → hasLane e.2.gm l = false) :
    collectiveRun i g true s body = .next (s.modSpl b gr k (Split.gather s.pc)) := by
  obtain ⟨hb, hg, hk⟩ := State.listed_of_issuing hf (issuing_of_mayIssue hm)
  rw [collectiveRun_gather hf hm htop, State.tryCollect_eq_none (l := l) (by rwa [State.liveLanes_modSpl hb hg])]
  · rfl
  intro e he
  rw [State.grp_modSpl_self hb hg, Group.collectors, List.mem_filter] at he
  obtain ⟨he, hwait⟩ := he
  rcases Table.mem_modify he with he | ⟨y, hy, rfl⟩
  · simp only [Bool.and_eq_true, beq_iff_eq] at hwait
    exact hw e he hwait.1
  · have hs : s.spl b gr k = y := Table.getD_of_find _ hy
    rw [← hs, Split.gather, hasLane_or, hgm, ham]
    rfl

section
variable (hpark : (s.spl b gr k).parked = false) (hlive : s.liveLanes b gr ≠ 0) (hgm : (s.spl b gr k).gm = 0)
  (ham : (s.spl b gr k).am = s.liveLanes b gr) (hw : ∀ e ∈ (s.grp b gr).splits, e.2.wait ≠ .collective s.pc)
include hpark hw

omit htop in
/-- Where no other split waits at the address, the split is the only one there. -/
theorem State.collectors_gather :
    ((s.modSpl b gr k (Split.gather s.pc)).grp b gr).collectors s.pc = [(k, (s.spl b gr k).gather s.pc)] := by
  obtain ⟨hb, hg, hk⟩ := State.listed_of_issuing hf (issuing_of_mayIssue hm)
  rw [State.grp_modSpl_self hb hg]
  refine Table.filter_modify (State.find_of_has hk) ?_ fun e he => ?_
  · show (Wait.collective s.pc == Wait.collective s.pc && !(s.spl b gr k).parked) = true
    rw [hpark, beq_self_eq_true]
    rfl
  · rw [beq_eq_false_iff_ne.mpr (hw e he), Bool.false_and]

include hlive hgm ham

/-- The lanes of a split that holds every live lane merge at once. -/
theorem State.tryCollect_gather :
    (s.modSpl b gr k (Split.gather s.pc)).tryCollect b gr s.pc = some (k, s.modSpl b gr k Split.gathered) := by
  obtain ⟨hb, hg, -⟩ := State.listed_of_issuing hf (issuing_of_mayIssue hm)
  have htop' : (s.modSpl b gr k (Split.gather s.pc)).topPath b gr k = false :=
    (State.topPath_modSpl (f := Split.gather s.pc) (fun _ => rfl) fun _ => rfl).trans htop
  have hgm' : ((s.spl b gr k).gather s.pc).gm = s.liveLanes b gr := by
    rw [Split.gather, hgm, ham]
    exact BitVec.zero_or
  have hall : subLanes (s.liveLanes b gr) (0 ||| s.liveLanes b gr) = true := by
    rw [subLanes_iff]
    intro l hl
    rw [hasLane_or, hl, Bool.or_true]
  unfold State.tryCollect
  simp only [State.collectors_gather hf hm hpark hw, State.liveLanes_modSpl hb hg, List.foldl_cons, List.foldl_nil, List.all_cons,
    List.all_nil, htop', hgm', hall, bne_iff_ne.mpr hlive]
  refine congrArg (fun u => some (k, u)) ?_
  rw [State.modSpl_modSpl]
  refine State.modSpl_congr ?_
  simp only [Split.gather, Split.gathered, ← ham]

/-- A split that holds every live lane merges at once and executes. -/
theorem collectiveRun_merges : collectiveRun i g true s body = .next
    ((body ((s.modSpl b gr k Split.gathered).execs g) (s.modSpl b gr k Split.gathered)).skip i.laneSize) := by
  have hunlocked : s.interlocked g (instrUses s.unitNode i) = false := by
    simp only [State.mayIssue, Bool.and_eq_true, Bool.not_eq_true'] at hm
    exact hm.1.2
  have hlock : (s.modSpl b gr k Split.gathered).interlocked g (instrUses (s.modSpl b gr k Split.gathered).unitNode i) = false := by
    rw [State.interlocked_modSpl _ _ _ _ (f := Split.gathered) fun _ => rfl, State.unitNode_modSpl, hunlocked]
  rw [collectiveRun_gather hf hm htop, State.tryCollect_gather hf hm htop hpark hlive hgm ham hw]
  show collectAt i g body { s.modSpl b gr k Split.gathered with focus := .split b gr k } = _
  rw [← hf]
  exact collectAt_of_unlocked hlock

end

end

end

/-! ## The merge of a vote -/

section
variable {s : State} {g p : Pred}

theorem State.execs_congr {t : State} (hv : t.unitView = s.unitView) (hr : sameRegs s t) (g : Pred) : t.exec g = s.exec g := by
  obtain ⟨-, -, hp⟩ := hr
  simp only [State.exec, State.lanes_of_unitView hv, hp]

theorem State.spl_wrVPair (s : State) (m l : Nat) (v : Dword) (b gr k : Nat) : (s.wrVPair m l v).spl b gr k = s.spl b gr k := by
  have hspl (t : State) (m : Nat) (v : Word) : (t.wrV m l v).spl b gr k = t.spl b gr k := by
    unfold State.wrV
    split
    · exact Table.proj_getD_modify (fun x : Block => (x.groups.getD gr Group.empty).spl k) fun _ => by rfl
    · rfl
    · rfl
  simp only [State.wrVPair, hspl]

theorem State.spl_vPairEffect (s : State) (d : Reg) (f : State → Nat → Dword) (b gr k : Nat) :
    (vPairEffect g d f s).spl b gr k = s.spl b gr k :=
  State.putLanes_proj (fun t => t.spl b gr k) _ _ _ fun t _ => t.spl_wrVPair ..

theorem State.focus_vPairEffect (s : State) (d : Reg) (f : State → Nat → Dword) : (vPairEffect g d f s).focus = s.focus :=
  State.putLanes_proj State.focus _ _ _ fun _ _ => by simp [State.wrVPair]

/-- The effect of VOTE.BAL on the executing lanes. -/
def ballotEffect (g : Pred) (d : Reg) (p : Pred) : State → State := vPairEffect g d fun t _ => voteBalOf t p (t.execs g)

section
variable {d : Reg} {b gr k : Nat} (hf : s.focus = .split b gr k) (hi : s.issuing = true) (ham : (s.spl b gr k).am = s.liveLanes b gr)
include hf hi ham

/-- The state after VOTE.G.BAL of a split that holds every live lane. -/
theorem read_ballot_gathered : ∀ t, t = (ballotEffect g d p (s.modSpl b gr k Split.gathered)).skip 4 →
    t.pc = s.pc + 4 ∧ t.focus = s.focus ∧ (t.spl b gr k).am = s.liveLanes b gr ∧ (t.spl b gr k).gm = 0 ∧
    ∀ l ∈ s.execs g, ∀ m, hasLane (t.rdVPair d.toNat l) m = (hasLane (s.exec g) m && s.rdP p m) := by
  rintro t rfl
  obtain ⟨hb, hg, hk⟩ := State.listed_of_issuing hf hi
  have hvspl : (s.modSpl b gr k Split.gathered).spl b gr k = (s.spl b gr k).gathered := State.spl_modSpl_self hb hg hk _
  have hvf : (s.modSpl b gr k Split.gathered).focus = .split b gr k := hf
  have hview : (s.modSpl b gr k Split.gathered).unitView = s.unitView := s.unitView_modSpl b gr k (fun _ => rfl) fun _ => rfl
  have hregs : sameRegs s (s.modSpl b gr k Split.gathered) := .modGrp _ _ _ (fun _ => rfl) fun _ => rfl
  generalize s.modSpl b gr k Split.gathered = v at hvspl hvf hview hregs
  have hvi := (State.issuing_of_unitView hview).trans hi
  have htview : (ballotEffect g d p v).unitView = v.unitView := changes_vPairEffect.view v
  have hti := (State.issuing_of_unitView htview).trans hvi
  have htf : (ballotEffect g d p v).focus = .split b gr k := (State.focus_vPairEffect ..).trans hvf
  have hspl := State.spl_skip htf (by rwa [State.issuing, htf] at hti) 4
  rw [show (ballotEffect g d p v).spl b gr k = v.spl b gr k from State.spl_vPairEffect .., hvspl] at hspl
  have hexec := State.execs_congr hview hregs g
  refine ⟨?_, ?_, ?_, ?_, fun l hl m => ?_⟩
  · rw [State.pc_skip hti, State.pc_of_unitView htview, State.pc_of_unitView hview]
    rfl
  · rw [State.skip, State.setPc_of_split htf, State.modSpl_focus, htf, hf]
  · rw [hspl]
    exact ham
  · rw [hspl]
    rfl
  · rw [State.rdVPair_skip, ballotEffect, rdVPair_vPairEffect hvi (by rwa [State.execs, hexec]), hasLane_voteBalOf, hexec, hregs.2.2]

end

/-- Settles O15: the plain forms by their effects on the executing lanes; the .G form by the lane that holds a merge up, or by the
merge of the split's own lanes. -/
theorem collectives : Obligations.Collectives := by
  unfold Obligations.Collectives
  refine ⟨⟨fun i g d a b h s hm => ?_, fun g d a k op s hm => ?_, fun g d a k op s hm => ?_, fun g d a k op s hm => ?_⟩,
    fun i g h s b gr k hf hm htop hl => ?_, fun g p d s b gr k hf hm htop hpark hlive hgm ham hw => ?_⟩
  · obtain ⟨t, hx, hpc, hread⟩ := exec_of_vEffect hm (exec_shuffle h s)
    refine ⟨t, hx, hpc.trans ?_, fun l hl => ⟨fun j hj hmem => ?_, fun hj => ?_⟩⟩
    · unfold shuffleOperands at h
      split at h <;> cases h <;> rfl
    · rw [hread l hl, shuffleWord, hj, shflSource_of_mem l hmem]
    · rw [hread l hl, shuffleWord, shflSource_of_not_mem l hj]
  · have hi := issuing_of_mayIssue hm
    obtain ⟨hnext, hpc⟩ := exec_of_laneSimple (eff := reduxEffect g d a k op) rfl hm (changes_reduxEffect.view s)
    exact ⟨_, hnext, hpc, by rw [State.rdS_skip, rdS_reduxEffect hi],
      fun l hl => by rw [State.pairBit_skip, pairBit_reduxEffect hi hl]⟩
  · obtain ⟨hnext, hpc⟩ := exec_of_laneSimple (eff := scanEffect g d a k op fun j l => j ≤ l) rfl hm (changes_scanEffect.view s)
    refine ⟨_, hnext, hpc, fun l hl => ?_⟩
    obtain ⟨hword, hpair⟩ := read_scanEffect (a := a) (op := op) (before := fun j l => j ≤ l) (issuing_of_mayIssue hm) hl
    rw [State.rdV_skip, State.pairBit_skip, hword, hpair]
    refine ⟨rfl, ?_⟩
    rw [List.isEmpty_eq_false_iff.mpr (List.ne_nil_of_mem (a := l) (by simp [hl])), Bool.or_false]
  · obtain ⟨hnext, hpc⟩ := exec_of_laneSimple (eff := scanEffect g d a k op fun j l => j < l) rfl hm (changes_scanEffect.view s)
    refine ⟨_, hnext, hpc, fun l hl => ?_⟩
    obtain ⟨hword, hpair⟩ := read_scanEffect (a := a) (op := op) (before := fun j l => j < l) (issuing_of_mayIssue hm) hl
    rw [State.rdV_skip, State.pairBit_skip, hword, hpair]
    refine ⟨rfl, congrArg (k == 0 || ·) ?_⟩
    rw [Bool.eq_iff_iff, List.isEmpty_iff, List.filter_eq_nil_iff, decide_eq_true_eq]
    simp
  · obtain ⟨l, hl, hgm, ham, hw⟩ := hl
    exact ⟨_, (exec_gathers h s).trans (collectiveRun_waits hf hm htop hl hgm ham hw), rfl⟩
  · have hx := (exec_gathers (i := .voteBal g d p true) rfl s).trans
      (collectiveRun_merges (body := collectiveBody (.voteBal g d p true)) hf hm htop hpark hlive hgm ham hw)
    exact ⟨_, hx, read_ballot_gathered hf (issuing_of_mayIssue hm) ham _ rfl⟩

end

end Sys2Proof.Machine

end


/-!
PROOFS. Taking a trap (spec/06_lane_control.md R150, R151; 13 R266-R271; 15 R330): the statement O21.
-/

section

namespace Sys2Proof.Machine

set_option linter.constructorNameAsVariable false

/-! ## The bytes of a frame (06 R151) -/

/-- A number laid out among bytes reads back. -/
theorem Memory.read_putAll_part {m : Memory} (hw : m.wf = true) (a : Nat) {bs : List Byte} {o n v : Nat}
    (h : (bs.drop o).take n = leBytes n v) : (m.putAll (cellsAt a bs)).read (a + o) n = v % 256 ^ n := by
  rcases Nat.eq_zero_or_pos n with rfl | hn
  · rw [Memory.read, Memory.bytes, leVal, Nat.pow_zero, Nat.mod_one]
  · have hlen := congrArg List.length h
    rw [List.length_take, List.length_drop, leBytes_length] at hlen
    rw [Memory.read, Memory.bytes_putAll_cellsAt hw a (by omega), h, leVal_leBytes]

section
variable {t : State} {m : Memory} {a : Nat} {bs : List Byte} {o : Nat} (hw : m.wf = true) (hm : t.mem = m.putAll (cellsAt a bs))
include hw hm

theorem State.mem64_part {v : Dword} (h : (bs.drop o).take 8 = leBytes 8 v.toNat) : t.mem64 (a + o) = v := by
  rw [State.mem64, hm, Memory.read_putAll_part hw a h]
  exact BitVec.eq_of_toNat_eq (by simp [Nat.mod_eq_of_lt v.isLt])

theorem State.mem32_part {v : Word} (h : (bs.drop o).take 4 = leBytes 4 v.toNat) : t.mem32 (a + o) = v := by
  rw [State.mem32, hm, Memory.read_putAll_part hw a h]
  exact BitVec.eq_of_toNat_eq (by simp [Nat.mod_eq_of_lt v.isLt])

end

theorem frameBytes_length (x : TrapState) (links : List Dword) : (frameBytes x links).length = 64 + 8 * links.length := by
  have hlinks : (links.flatMap fun d => leBytes 8 d.toNat).length = 8 * links.length := by
    simp [List.length_flatMap, leBytes_length, Nat.mul_comm]
  simp only [frameBytes, List.length_append, leBytes_length, hlinks]

section
variable {t : State} {m : Memory} {a : Nat} {x : TrapState} {links : List Dword} (hw : m.wf = true)
  (hm : t.mem = m.putAll (cellsAt a (frameBytes x links)))
include hw hm

/-- The fields of a frame, at its key. -/
theorem State.read_frame : t.mem64 a = x.epc ∧ t.mem64 (a + 8) = x.rpc ∧ t.mem32 (a + 16) = x.cause ∧ t.mem32 (a + 20) = 0 ∧
    t.mem64 (a + 24) = x.lmask ∧ t.mem64 (a + 32) = x.amask ∧ t.mem64 (a + 40) = x.info :=
  ⟨State.mem64_part (o := 0) hw hm rfl, State.mem64_part hw hm rfl, State.mem32_part hw hm rfl, State.mem32_part hw hm rfl,
    State.mem64_part hw hm rfl, State.mem64_part hw hm rfl, State.mem64_part hw hm rfl⟩

theorem State.read_frame_link {l : Nat} (hl : l < links.length) : t.mem64 (a + 64 + 8 * l) = links[l] := by
  rw [Nat.add_assoc]
  refine State.mem64_part hw hm ?_
  have hlinks : (frameBytes x links).drop 64 = links.flatMap fun d => leBytes 8 d.toNat := rfl
  rw [← List.drop_drop, hlinks, drop_flatMap_of_length (f := fun d : Dword => leBytes 8 d.toNat) (fun _ => leBytes_length _ _),
    List.drop_eq_getElem_cons hl, List.flatMap_cons, List.take_left' (leBytes_length _ _)]

end

/-! ## Copies of written bytes -/

theorem mem_dedupN {l : List Nat} {n : Nat} : n ∈ dedupN l ↔ n ∈ l := by
  induction l with
  | nil => exact Iff.rfl
  | cons a l ih =>
    rw [dedupN, List.mem_cons, List.mem_filter, ih, List.mem_cons]
    by_cases h : n = a <;> simp [h]

/-- Every byte of the range is a cell. -/
theorem exists_mem_cellsAt {a x : Nat} {bs : List Byte} (h : a ≤ x) (h' : x < a + bs.length) : ∃ c ∈ cellsAt a bs, c.1 = x := by
  induction bs generalizing a with
  | nil => exact absurd h' (by simpa using h)
  | cons b bs ih =>
    rcases Nat.eq_or_lt_of_le h with rfl | h
    · exact ⟨(a, b), List.mem_cons_self, rfl⟩
    · obtain ⟨c, hc, e⟩ := ih h (by rw [List.length_cons] at h'; omega)
      exact ⟨c, List.mem_cons_of_mem _ hc, e⟩

/-- The words of bytes laid out from an address. -/
theorem mem_cellWords {a w : Nat} {bs : List Byte} (h : a ≤ 4 * w) (h' : 4 * w < a + bs.length) : w ∈ cellWords (cellsAt a bs) := by
  obtain ⟨c, hc, hw⟩ := exists_mem_cellsAt h h'
  rw [cellWords, mem_dedupN]
  exact List.mem_map.mpr ⟨c, hc, by omega⟩

theorem Table.find_foldl_erase {α : Type} {ws : List Nat} {w : Nat} (h : w ∈ ws) (t : Table α) :
    (ws.foldl Table.erase t).find w = none := by
  have hkeep (ws : List Nat) (t : Table α) (ht : t.find w = none) : (ws.foldl Table.erase t).find w = none := by
    refine List.foldlRecOn (motive := fun u : Table α => u.find w = none) ws _ ht fun u hu v _ => ?_
    by_cases e : w = v
    · rw [e, Table.find_erase_self]
    · rw [Table.find_erase_other _ _ _ e, hu]
  induction ws generalizing t with
  | nil => exact absurd h List.not_mem_nil
  | cons v ws ih =>
    rcases List.mem_cons.mp h with rfl | h
    · exact hkeep ws _ (Table.find_erase_self t w)
    · exact ih h _

/-- A cache whose words are dropped holds none of them. -/
theorem State.find_dropWords (s : State) {p : Nat → Bool} {ws : List Nat} {c w : Nat} (hc : p c = true) (hw : w ∈ ws) :
    ((s.dropWords p ws).copies.getD c []).find w = none := by
  rw [State.dropWords, Table.getD, Table.find_mapv]
  cases s.copies.find c with
  | none => rfl
  | some t =>
    simp only [Option.map_some, Option.getD_some, hc, if_true]
    exact Table.find_foldl_erase hw t

/-! ## A vectored trap (06 R150, R151) -/

section
variable {s : State} {b a : Nat} {bs : List Byte} (hp : a % 4096 + bs.length ≤ 4096)
include hp

theorem State.ctxCells_of_page : s.ctxCells b (bs.length / 4096 + 1) a bs = cellsAt (s.ctxKey b a) bs := by
  rw [State.ctxCells, if_pos (by omega)]

/-- Bytes that lie in one page of a context area are written at their key. -/
theorem State.mem_writeCtx_of_page :
    (s.writeCtx b a bs).mem = (s.touchCtx b a bs.length true).mem.putAll (cellsAt (s.ctxKey b a) bs) := by
  rw [State.writeCtx, State.mem_dropWords, State.mem_writeHome, State.ctxCells_of_page hp]

/-- No cache of the block's core keeps a copy of bytes written to the context area. -/
theorem State.copies_writeCtx_of_page {c w : Nat} (hc : s.cacheCore c = some (s.blk b).core) (hw : s.ctxKey b a ≤ 4 * w)
    (hw' : 4 * w < s.ctxKey b a + bs.length) : ((s.writeCtx b a bs).copies.getD c []).find w = none := by
  rw [State.writeCtx, State.ctxCells_of_page hp]
  exact State.find_dropWords _ (by rw [hc, beq_self_eq_true]) (mem_cellWords hw hw')

end

/-- The link pairs of the lanes of a group, as a frame saves them. -/
def State.linkPairs (s : State) (b : Nat) : List Dword :=
  (List.range (s.blk b).width).map fun l => s.rdVPair (s.blk b).node.link l

/-- The state with the frame of a trap in its slot. -/
def State.framed (s : State) (b gr k cause n : Nat) (lmask : Mask) (info : Dword) : State :=
  s.writeCtx b ((s.blk b).frameSlot gr k) (frameBytes (s.trapOf b gr k cause n lmask info) (s.linkPairs b))

/-- The state with the frame's address in the link pair of every active lane. -/
def State.frameLinked (s : State) (b gr k cause n : Nat) (lmask : Mask) (info : Dword) : State :=
  (s.framed b gr k cause n lmask info).putLanes (lanesOf s.lanes) fun t l =>
    t.wrVPair (s.blk b).node.link l (BitVec.ofNat 64 ((s.blk b).frameSlot gr k))

/-- The split at the handler. -/
def State.handled (s : State) (b gr k cause n : Nat) (lmask : Mask) (info : Dword) (x : Split) : Split :=
  { x with pc := (s.facet (s.blk b).facet).tvec, priv := true, frame := BitVec.ofNat 64 ((s.blk b).frameSlot gr k),
           trap := some (s.trapOf b gr k cause n lmask info), wait := .ready, pathStart := s.now }

section
variable {s : State} {b gr k cause n : Nat} {lmask : Mask} {info : Dword} (hf : s.focus = .split b gr k)
include hf

theorem State.takeTrapN_vectored (hh : s.trapHeld b gr k cause = false) (hv : s.vectors b gr k cause = true) :
    s.takeTrapN cause n lmask info =
      ((s.frameLinked b gr k cause n lmask info).modSpl b gr k (s.handled b gr k cause n lmask info)).offerBlk b 0x02 cause
        (s.spl b gr k).pc.toNat info.toNat := by
  simp only [State.takeTrapN, hf, hh, hv, Bool.false_eq_true, if_false, if_true]
  rfl

theorem State.takeTrapN_parked (hv : s.vectors b gr k cause = false) : s.takeTrapN cause n lmask info =
    ((s.modSpl b gr k fun y => { y with parked := true, parkedAt := s.now, trap := some (s.trapOf b gr k cause n lmask info) }).offerBlk
      b 0x02 cause (s.spl b gr k).pc.toNat info.toNat).reportPark b 0 gr k 0 (s.trapOf b gr k cause n lmask info) := by
  simp only [State.takeTrapN, hf, State.trapHeld, hv, Bool.false_and, Bool.false_eq_true, if_false]
  rfl

end

/-- A context that parks with its trap state. -/
def State.cometTrapped (s : State) (c cause n : Nat) (lmask : Mask) (info : Dword) (x : Comet) : Comet :=
  { x with parked := true, parkedAt := s.now,
           trap := some (trapState (s.ctx c).pc (laneBit (s.ctx c).lane) cause n lmask info) }

section
variable {s : State} {c cause n : Nat} {lmask : Mask} {info : Dword} (hf : s.focus = .comet c)
include hf

theorem State.takeTrapN_comet : s.takeTrapN cause n lmask info =
    ((s.modCtx c (s.cometTrapped c cause n lmask info)).offerComet c 0x02 cause (s.ctx c).pc.toNat info.toNat).reportPark
      (s.ctx c).blk 2 (s.ctx c).grp (c % 64) (s.ctx c).lane
      (trapState (s.ctx c).pc (laneBit (s.ctx c).lane) cause n lmask info) (s.ctx c).split := by
  simp only [State.takeTrapN, hf]
  rfl

theorem State.ctx_takeTrapN_comet (hi : s.issuing = true) :
    (s.takeTrapN cause n lmask info).ctx c = s.cometTrapped c cause n lmask info (s.ctx c) := by
  rw [State.takeTrapN_comet hf]
  exact s.ctx_modCtx_self c _ (State.listed_of_issuing_comet hf hi)

end

/-! ## The state after a vectored trap -/

/-- What a split's unit shows depends on the focus and the blocks. -/
theorem State.unitView_of_units {s t : State} {b gr k : Nat} (hf : s.focus = .split b gr k) (h : t.units = s.units) :
    t.unitView = s.unitView := by
  obtain ⟨hf', hblocks⟩ := Prod.mk.inj h
  simp only [State.unitView, State.issuing, State.lanes, State.pc, State.hasSplit, State.spl, State.grp, State.blk, hf', hf, hblocks]

section
variable {s : State} {b gr k cause n : Nat} {lmask : Mask} {info : Dword}

theorem State.rdV_offerBlk (s : State) (b y u a e m l : Nat) : (s.offerBlk b y u a e).rdV m l = s.rdV m l := rfl

theorem State.mem_frameLinked : (s.frameLinked b gr k cause n lmask info).mem = (s.framed b gr k cause n lmask info).mem :=
  State.putLanes_proj State.mem _ _ _ fun _ _ => by simp

theorem State.copies_frameLinked :
    (s.frameLinked b gr k cause n lmask info).copies = (s.framed b gr k cause n lmask info).copies :=
  State.putLanes_proj State.copies _ _ _ fun _ _ => by simp [State.wrVPair]

theorem State.spl_frameLinked : (s.frameLinked b gr k cause n lmask info).spl b gr k = s.spl b gr k := by
  have hspl : (s.framed b gr k cause n lmask info).spl b gr k = s.spl b gr k :=
    congrArg (·.spl k) (State.grp_of_units (s.units_writeCtx ..) b gr)
  rw [← hspl]
  exact State.putLanes_proj (fun t => t.spl b gr k) _ _ _ fun t _ => t.spl_wrVPair ..

theorem length_frame :
    (frameBytes (s.trapOf b gr k cause n lmask info) (s.linkPairs b)).length = 64 + 8 * (s.blk b).width := by
  rw [frameBytes_length, State.linkPairs, List.length_map, List.length_range]

section
variable (hp : (s.blk b).frameSlot gr k % 4096 + 64 + 8 * (s.blk b).width ≤ 4096)
include hp

theorem State.mem_framed : (s.framed b gr k cause n lmask info).mem =
    (s.touchCtx b ((s.blk b).frameSlot gr k) (64 + 8 * (s.blk b).width) true).mem.putAll
      (cellsAt (s.ctxKey b ((s.blk b).frameSlot gr k)) (frameBytes (s.trapOf b gr k cause n lmask info) (s.linkPairs b))) := by
  rw [State.framed, State.mem_writeCtx_of_page (by rw [length_frame]; omega), length_frame]

theorem State.copies_framed {c w : Nat} (hc : s.cacheCore c = some (s.blk b).core)
    (hw : s.ctxKey b ((s.blk b).frameSlot gr k) ≤ 4 * w)
    (hw' : 4 * w < s.ctxKey b ((s.blk b).frameSlot gr k) + 64 + 8 * (s.blk b).width) :
    ((s.framed b gr k cause n lmask info).copies.getD c []).find w = none :=
  State.copies_writeCtx_of_page (by rw [length_frame]; omega) hc hw (by rw [length_frame]; omega)

end

variable (hf : s.focus = .split b gr k)
include hf

theorem State.unitView_framed : (s.framed b gr k cause n lmask info).unitView = s.unitView :=
  State.unitView_of_units hf (s.units_writeCtx ..)

theorem State.unitView_frameLinked : (s.frameLinked b gr k cause n lmask info).unitView = s.unitView :=
  (State.unitView_putLanes _ _ fun _ _ => by simp).trans (State.unitView_framed hf)

theorem State.focus_frameLinked : (s.frameLinked b gr k cause n lmask info).focus = .split b gr k := by
  have hunits : (s.framed b gr k cause n lmask info).focus = s.focus := (Prod.mk.inj (s.units_writeCtx ..)).1
  rw [← hf, ← hunits]
  exact State.putLanes_proj State.focus _ _ _ fun _ _ => by simp [State.wrVPair]

variable (hi : s.issuing = true)
include hi

/-- Every active lane gets the frame's address. -/
theorem State.rdVPair_frameLinked {l : Nat} (hl : l ∈ lanesOf s.lanes) :
    (s.frameLinked b gr k cause n lmask info).rdVPair (s.blk b).node.link l = BitVec.ofNat 64 ((s.blk b).frameSlot gr k) := by
  have hview : (s.framed b gr k cause n lmask info).unitView = s.unitView := State.unitView_framed hf
  refine State.rdVPair_putLanes ((State.issuing_of_unitView hview).trans hi) (lanesOf_nodup _) (fun j hj => ?_) _
    (fun _ => BitVec.ofNat 64 ((s.blk b).frameSlot gr k)) hl
  rw [State.lanes_of_unitView hview]
  exact (mem_lanesOf _ _).mp hj

variable (hv : s.vectors b gr k cause = true) (hl : s.linkPending b gr k = false)
include hv hl

/-- The split of a vectored trap is at the handler. -/
theorem State.spl_takeTrapN_vectored : (s.takeTrapN cause n lmask info).focus = .split b gr k ∧
    (s.takeTrapN cause n lmask info).spl b gr k = s.handled b gr k cause n lmask info (s.spl b gr k) := by
  have hh : s.trapHeld b gr k cause = false := by rw [State.trapHeld, hv, hl, Bool.and_false]
  have hview : (s.frameLinked b gr k cause n lmask info).unitView = s.unitView := State.unitView_frameLinked hf
  obtain ⟨hb, hg, hk⟩ := State.listed_of_issuing (State.focus_frameLinked hf) ((State.issuing_of_unitView hview).trans hi)
  rw [State.takeTrapN_vectored hf hh hv]
  refine ⟨State.focus_frameLinked hf, (State.spl_modSpl_self hb hg hk _).trans ?_⟩
  rw [State.spl_frameLinked]

omit hi in
/-- Outside the split, a vectored trap leaves the state that holds the frame and its address. -/
theorem State.takeTrapN_vectored_keeps : (s.takeTrapN cause n lmask info).mem = (s.framed b gr k cause n lmask info).mem ∧
    (s.takeTrapN cause n lmask info).copies = (s.framed b gr k cause n lmask info).copies ∧
    ∀ m l, (s.takeTrapN cause n lmask info).rdV m l = (s.frameLinked b gr k cause n lmask info).rdV m l := by
  have hh : s.trapHeld b gr k cause = false := by rw [State.trapHeld, hv, hl, Bool.and_false]
  rw [State.takeTrapN_vectored hf hh hv]
  exact ⟨State.mem_frameLinked, State.copies_frameLinked, fun m l => by rw [State.rdV_offerBlk, State.rdV_modSpl]⟩

end

/-! ## Which traps are vectored (13 R271) -/

/-- The causes of R266 to R270 that a split takes by vector. -/
def vectoredCauses : List Nat :=
  [0x00, 0x01, 0x02, 0x03, 0x04, 0x05, 0x36, 0x37, 0x38, 0x39, 0x3A, 0x3B, 0x3D, 0x40, 0x42, 0x43, 0x60, 0x62,
    0x63, 0x64, 0x65, 0x66, 0x80, 0x81, 0x82, 0x83, 0xA0, 0xA2, 0xA3]

theorem vectorCause_iff (c : Nat) : vectorCause c = true ↔ c ∈ vectoredCauses := by
  have hback : ∀ n ∈ vectoredCauses, vectorCause n = true := by decide
  refine ⟨fun h => ?_, hback c⟩
  simp only [vectorCause, Bool.or_eq_true, Bool.and_eq_true, decide_eq_true_eq, beq_iff_eq, or_assoc] at h
  rcases h with h | h | h | h | h | h | h | h | h | h
  all_goals
    simp only [vectoredCauses, List.mem_cons]
    omega

theorem State.vectors_iff (s : State) (b gr k c : Nat) : s.vectors b gr k c = true ↔ vectorCause c = true ∧
    (s.spl b gr k).priv = false ∧ (s.blk b).node.vregs % 2 = 0 ∧ 2 ≤ (s.blk b).node.vregs ∧
    (s.facet (s.blk b).facet).tvec ≠ 0 := by
  simp [State.vectors, Node.hasLink, and_assoc]

/-- Settles O21: the frame is laid out at its key, the link pairs and the split are set over it; every other trap is held or parks. -/
theorem trapEntry : Obligations.TrapEntry := by
  unfold Obligations.TrapEntry
  refine ⟨fun s b gr k cause n lmask info hf hi hwf hv hl _ _ _ hp => ?_, fun s b gr k cause n lmask info hf hv hl => ?_,
    ⟨fun s b gr k cause n lmask info hf hi hv => ?_, fun s c cause n lmask info hf hi => ?_⟩, fun s b gr k c => ?_⟩
  · obtain ⟨htf, hspl⟩ := State.spl_takeTrapN_vectored (n := n) (lmask := lmask) (info := info) hf hi hv hl
    obtain ⟨hmem, hcopies, hread⟩ := State.takeTrapN_vectored_keeps (n := n) (lmask := lmask) (info := info) hf hv hl
    rw [State.mem_framed hp] at hmem
    dsimp only
    generalize s.takeTrapN cause n lmask info = t at *
    have hwt := State.wf_touchCtx (b := b) (a := (s.blk b).frameSlot gr k) (n := 64 + 8 * (s.blk b).width) (wr := true) hwf
    obtain ⟨hepc, hrpc, hcause, hzero, hlmask, hamask, hinfo⟩ := State.read_frame hwt hmem
    have hpc : s.pc = (s.spl b gr k).pc := State.pc_of_split hf
    refine ⟨?_, ?_, ?_, fun l hl => ?_, fun e used h => ?_, ?_, ?_, hcause, hzero, hlmask, hamask, hinfo, fun l hl => ?_,
      fun x hx => ?_, fun c w hc hw hw' => ?_⟩
    · rw [State.pc_of_split htf, hspl]
      rfl
    · rw [hspl]
      rfl
    · rw [hspl]
      rfl
    · rw [State.rdVPair, hread, hread, ← State.rdVPair, State.rdVPair_frameLinked hf hi hl]
    · rw [State.ctxKey, h]
    · rw [hepc, hpc]
      rfl
    · rw [hrpc, hpc]
      rfl
    · have hlen : l < (s.linkPairs b).length := by simpa [State.linkPairs] using hl
      rw [State.read_frame_link hwt hmem hlen]
      simp [State.linkPairs]
    · rw [hmem]
      refine Memory.get_putAll_other _ _ _ hwt fun c hc => ?_
      have hrange := mem_cellsAt _ _ c hc
      rw [length_frame] at hrange
      omega
    · rw [hcopies]
      exact State.copies_framed hp hc hw hw'
  · exact State.takeTrapN_of_held hf cause n lmask info (by rw [State.trapHeld, hv, hl]; rfl)
  · obtain ⟨htf, hmem, hspl⟩ := State.takeTrapN_of_parks hf cause n lmask info hi hv
    refine ⟨?_, ?_, ?_, hmem, ?_, ?_, ?_⟩
    · rw [State.pc_of_split htf, hspl, State.pc_of_split hf]
    · rw [hspl]
    · rw [hspl]
    · rw [State.takeTrapN_parked hf hv]
      exact State.rdV_modSpl s b gr k _
    · rw [hspl, State.pc_of_split hf]
      rfl
    · rw [State.takeTrapN_parked hf hv]
      simp [State.reportPark, State.offerBlk, State.offer]
  · have hx := State.takeTrapN_comet (cause := cause) (n := n) (lmask := lmask) (info := info) hf
    have hctx := State.ctx_takeTrapN_comet (cause := cause) (n := n) (lmask := lmask) (info := info) hf hi
    have hpc : s.pc = (s.ctx c).pc := by rw [State.pc, hf]
    refine ⟨?_, ?_, ?_, ?_, ?_, ?_⟩
    · have htf : (s.takeTrapN cause n lmask info).focus = .comet c := by
        rw [hx]
        exact hf
      rw [hpc, State.pc, htf]
      show ((s.takeTrapN cause n lmask info).ctx c).pc = _
      rw [hctx]
      rfl
    · rw [hctx]
      rfl
    · rw [hx]
      rfl
    · rw [hx]
      exact (sameRegs.modCtx s c (f := s.cometTrapped c cause n lmask info) (fun _ => rfl) (fun _ => rfl) fun _ => rfl).1
    · rw [hctx, hpc]
      rfl
    · rw [hx]
      simp [State.reportPark, State.offerComet, State.offer]
  · rw [State.vectors_iff, vectorCause_iff, vectoredCauses]

end Sys2Proof.Machine

end


/-!
PROOFS. Special operands of the float instructions, FCLASS and the special functions (spec/05_lane_float.md R119-R121, R126): the
statement O13.
-/

section

namespace Sys2Proof.Machine

set_option linter.constructorNameAsVariable false

/-! ## The fields of an FP32 word (01 R16) -/

/-- The exponent field of an FP32 word. -/
def f32Exp (w : Word) : Nat := (w.extractLsb' 23 8).toNat
/-- The mantissa field of an FP32 word. -/
def f32Man (w : Word) : Nat := (w.extractLsb' 0 23).toNat
/-- The word without its sign. -/
def f32Mag (w : Word) : Nat := (w.extractLsb' 0 31).toNat

theorem f32Exp_lt (w : Word) : f32Exp w < 256 := (w.extractLsb' 23 8).isLt
theorem f32Man_lt (w : Word) : f32Man w < 2 ^ 23 := (w.extractLsb' 0 23).isLt

theorem f32Exp_eq (w : Word) : f32Exp w = w.toNat % 2 ^ 31 / 2 ^ 23 := by
  rw [f32Exp, toNat_extractLsb']
  omega

theorem f32Man_eq (w : Word) : f32Man w = w.toNat % 2 ^ 31 % 2 ^ 23 := by
  rw [f32Man, toNat_extractLsb']
  omega

theorem f32Mag_eq (w : Word) : f32Mag w = w.toNat % 2 ^ 31 := by
  rw [f32Mag, toNat_extractLsb', Nat.pow_zero, Nat.div_one]

theorem f32Mag_eq_fields (w : Word) : f32Mag w = 2 ^ 23 * f32Exp w + f32Man w := by
  rw [f32Mag_eq, f32Exp_eq, f32Man_eq, Nat.div_add_mod]

theorem exp_eq_top_iff (w : Word) : w.extractLsb' 23 8 = 0xFF ↔ f32Exp w = 255 := BitVec.toNat_eq

theorem exp_eq_zero_iff (w : Word) : w.extractLsb' 23 8 = 0 ↔ f32Exp w = 0 := BitVec.toNat_eq

theorem man_eq_zero_iff (w : Word) : w.extractLsb' 0 23 = 0 ↔ f32Man w = 0 := BitVec.toNat_eq

theorem f32Nan_iff (w : Word) : f32Nan w = true ↔ f32Exp w = 255 ∧ f32Man w ≠ 0 := by
  rw [f32Nan, Bool.and_eq_true, beq_iff_eq, bne_iff_ne, exp_eq_top_iff, ne_eq, man_eq_zero_iff]

theorem f32Key_eq (w : Word) : f32Key w = if w.msb then -(f32Mag w : Int) - 1 else (f32Mag w : Int) := rfl

theorem decodeF_fp32 (w : Word) : decodeF fFP32 w.toNat =
    if f32Exp w = 255 then (if f32Man w = 0 then .inf w.msb else .nan)
    else if f32Exp w = 0 then .fin w.msb (f32Man w) (-149)
    else .fin w.msb (2 ^ 23 + f32Man w) (f32Exp w - 150) := by
  have hneg : (w.toNat / 2147483648 % 2 == 1) = w.msb := by
    rw [BitVec.msb_eq_getLsbD_last, ← bit_toNat]
    rfl
  have hexp (x : Int) : -149 + x - 1 = x - 150 := by omega
  simp [decodeF, fFP32, FFmt.signBit, FFmt.minExp, hneg, hexp, f32Exp_eq, f32Man_eq]

theorem decodeF_fp32_of_nan {w : Word} (h : f32Nan w = true) : decodeF fFP32 w.toNat = .nan := by
  obtain ⟨hexp, hman⟩ := (f32Nan_iff w).mp h
  rw [decodeF_fp32, if_pos hexp, if_neg hman]

/-! ## NaN operands (05 R119) -/

theorem FVal.nan_add (y : FVal) : FVal.nan.add y = .nan := rfl

theorem FVal.add_nan (x : FVal) : x.add .nan = .nan := by cases x <;> rfl

theorem FVal.nan_mul (y : FVal) : FVal.nan.mul y = .nan := rfl

theorem FVal.mul_nan (x : FVal) : x.mul .nan = .nan := by cases x <;> rfl

theorem FVal.neg_nan : FVal.nan.neg = .nan := rfl

/-- The canonical NaN (01 R17). -/
theorem ofNat_arithF_nan : BitVec.ofNat 32 (arithF fFP32 .nan) = 0x7FC00000 := rfl

theorem f32add_nan {a b : Word} (h : f32Nan a = true ∨ f32Nan b = true) : f32add a b = 0x7FC00000 := by
  rcases h with h | h
  · rw [f32add, decodeF_fp32_of_nan h, FVal.nan_add, ofNat_arithF_nan]
  · rw [f32add, decodeF_fp32_of_nan h, FVal.add_nan, ofNat_arithF_nan]

theorem f32sub_nan {a b : Word} (h : f32Nan a = true ∨ f32Nan b = true) : f32sub a b = 0x7FC00000 := by
  rcases h with h | h
  · rw [f32sub, decodeF_fp32_of_nan h, FVal.nan_add, ofNat_arithF_nan]
  · rw [f32sub, decodeF_fp32_of_nan h, FVal.neg_nan, FVal.add_nan, ofNat_arithF_nan]

theorem f32mul_nan {a b : Word} (h : f32Nan a = true ∨ f32Nan b = true) : f32mul a b = 0x7FC00000 := by
  rcases h with h | h
  · rw [f32mul, decodeF_fp32_of_nan h, FVal.nan_mul, ofNat_arithF_nan]
  · rw [f32mul, decodeF_fp32_of_nan h, FVal.mul_nan, ofNat_arithF_nan]

theorem f32fma_nan {a b d : Word} (h : f32Nan a = true ∨ f32Nan b = true ∨ f32Nan d = true) : f32fma a b d = 0x7FC00000 := by
  rcases h with h | h | h
  · rw [f32fma, decodeF_fp32_of_nan h, FVal.fma, FVal.nan_mul, FVal.nan_add, ofNat_arithF_nan]
  · rw [f32fma, decodeF_fp32_of_nan h, FVal.fma, FVal.mul_nan, FVal.nan_add, ofNat_arithF_nan]
  · rw [f32fma, decodeF_fp32_of_nan h, FVal.fma, FVal.add_nan, ofNat_arithF_nan]

/-! ## The order of FP32 words (05 R120)

A finite word is a number of steps of 2^-149 that grows with its magnitude bits, so the sign and these bits order the words as
their values, with the infinities outermost. -/

/-- The steps of 2^-149 in the finite magnitude with bits n. -/
def f32Steps (n : Nat) : Nat := if n < 2 ^ 23 then n else (2 ^ 23 + n % 2 ^ 23) * 2 ^ (n / 2 ^ 23 - 1)

theorem f32Steps_strictMono : StrictMono f32Steps := by
  refine strictMono_nat_of_lt_succ fun n => ?_
  unfold f32Steps
  rcases Nat.lt_trichotomy (n + 1) (2 ^ 23) with h | h | h
  · rw [if_pos (by omega), if_pos h]
    omega
  · rw [if_pos (by omega), if_neg (by omega), h]
    omega
  · rw [if_neg (by omega), if_neg (by omega)]
    by_cases hlast : n % 2 ^ 23 = 2 ^ 23 - 1
    · have hexp : (n + 1) / 2 ^ 23 - 1 = n / 2 ^ 23 - 1 + 1 := by omega
      have hman : (n + 1) % 2 ^ 23 = 0 := by omega
      have hpos := Nat.two_pow_pos (n / 2 ^ 23 - 1)
      rw [hexp, hman, hlast, pow_succ 2 (n / 2 ^ 23 - 1)]
      generalize 2 ^ (n / 2 ^ 23 - 1) = p at hpos
      omega
    · have hexp : (n + 1) / 2 ^ 23 = n / 2 ^ 23 := by omega
      have hman : (n + 1) % 2 ^ 23 = n % 2 ^ 23 + 1 := by omega
      rw [hexp, hman]
      exact Nat.mul_lt_mul_of_pos_right (by omega) (Nat.two_pow_pos _)

/-- A sign before a magnitude. -/
def withSign (neg : Bool) (n : Nat) : Int := if neg then -(n : Int) else n

theorem atExp_eq_withSign (neg : Bool) (m : Nat) (e b : Int) : atExp neg m e b = withSign neg (m * 2 ^ (e - b).toNat) := rfl

theorem atExp_mul {e b c : Int} (hb : b ≤ e) (hc : c ≤ b) (neg : Bool) (m : Nat) :
    atExp neg m e b * 2 ^ (b - c).toNat = atExp neg m e c := by
  have hexp : (e - c).toNat = (e - b).toNat + (b - c).toNat := by omega
  rw [atExp_eq_withSign, atExp_eq_withSign, hexp, Nat.pow_add, ← Nat.mul_assoc]
  cases neg <;> simp [withSign]

/-- Two finite values compare as their numbers of steps of any common grid. -/
theorem FVal.cmp_fin {e h c : Int} (he : c ≤ e) (hh : c ≤ h) (a b : Bool) (m n : Nat) :
    (FVal.fin a m e).cmp (.fin b n h) = (atExp a m e c - atExp b n h c).sign := by
  have hc : c ≤ min e h := le_min he hh
  have hpos : (0 : Int) < 2 ^ (min e h - c).toNat := by positivity
  rw [← atExp_mul (min_le_left e h) hc, ← atExp_mul (min_le_right e h) hc, ← sub_mul, Int.sign_mul,
    Int.sign_eq_one_of_pos hpos, mul_one]
  rfl

/-- A word that is not a NaN is an infinity, or a number of steps of 2^-149. -/
theorem decodeF_fp32_of_not_nan {w : Word} (h : f32Nan w = false) :
    f32Mag w = 0x7F800000 ∧ decodeF fFP32 w.toNat = .inf w.msb ∨
    f32Mag w < 0x7F800000 ∧ ∃ m e, decodeF fFP32 w.toNat = .fin w.msb m e ∧ -149 ≤ e ∧
      atExp w.msb m e (-149) = withSign w.msb (f32Steps (f32Mag w)) := by
  have hnan : ¬ (f32Exp w = 255 ∧ f32Man w ≠ 0) := by
    rw [← f32Nan_iff, h]
    exact Bool.false_ne_true
  have hmag := f32Mag_eq_fields w
  have hexp := f32Exp_lt w
  have hman := f32Man_lt w
  rw [decodeF_fp32]
  by_cases h255 : f32Exp w = 255
  · have h0 : f32Man w = 0 := by omega
    rw [if_pos h255, if_pos h0]
    exact .inl ⟨by omega, rfl⟩
  · refine .inr ⟨by omega, ?_⟩
    rw [if_neg h255, f32Steps.eq_1]
    by_cases h0 : f32Exp w = 0
    · have hsub : f32Mag w = f32Man w := by omega
      rw [if_pos h0, hsub, if_pos hman]
      exact ⟨_, _, rfl, le_refl _, by rw [atExp_eq_withSign]; simp⟩
    · have hlow : f32Mag w % 2 ^ 23 = f32Man w := by omega
      have hhigh : ((f32Exp w : Int) - 150 - -149).toNat = f32Mag w / 2 ^ 23 - 1 := by omega
      rw [if_neg h0, if_neg (by omega), hlow]
      exact ⟨_, _, rfl, by omega, by rw [atExp_eq_withSign, hhigh]⟩

theorem isNan_decodeF_fp32 (w : Word) : (decodeF fFP32 w.toNat).isNan = f32Nan w := by
  cases h : f32Nan w with
  | true =>
    rw [decodeF_fp32_of_nan h]
    rfl
  | false => rcases decodeF_fp32_of_not_nan h with ⟨-, hd⟩ | ⟨-, m, e, hd, -⟩ <;> rw [hd] <;> rfl

/-- x stands before y, or beside it, in the order of the values with -0 below +0. -/
def FVal.precedes (x y : FVal) : Bool := if x.cmp y = 0 then x.isNeg || !y.isNeg else decide (x.cmp y < 0)

/-- Finite values that are steps of 2^-149: their signs and magnitude bits decide. -/
theorem FVal.precedes_fin {a b : Bool} {m n p q : Nat} {e h : Int} (he : -149 ≤ e) (hh : -149 ≤ h)
    (hm : atExp a m e (-149) = withSign a (f32Steps p)) (hn : atExp b n h (-149) = withSign b (f32Steps q)) :
    (FVal.fin a m e).precedes (.fin b n h) =
      decide ((if a then -(p : Int) - 1 else (p : Int)) ≤ if b then -(q : Int) - 1 else (q : Int)) := by
  have hle : f32Steps p ≤ f32Steps q ↔ p ≤ q := f32Steps_strictMono.le_iff_le
  have hge : f32Steps q ≤ f32Steps p ↔ q ≤ p := f32Steps_strictMono.le_iff_le
  rw [FVal.precedes, FVal.cmp_fin he hh, hm, hn]
  simp only [Int.sign_eq_zero_iff_zero, Int.sign_neg_iff, FVal.isNeg]
  refine Bool.eq_iff_iff.mpr ?_
  cases a <;> cases b <;> simp [withSign] <;> omega

theorem precedes_eq_f32Key_le {a b : Word} (ha : f32Nan a = false) (hb : f32Nan b = false) :
    (decodeF fFP32 a.toNat).precedes (decodeF fFP32 b.toNat) = decide (f32Key a ≤ f32Key b) := by
  rw [f32Key_eq, f32Key_eq]
  rcases decodeF_fp32_of_not_nan ha with ⟨hma, hda⟩ | ⟨hma, m, e, hda, he, hsa⟩ <;>
    rcases decodeF_fp32_of_not_nan hb with ⟨hmb, hdb⟩ | ⟨hmb, n, h, hdb, hh, hsb⟩ <;> rw [hda, hdb]
  case inl.inl =>
    rw [hma, hmb]
    cases a.msb <;> cases b.msb <;> decide
  case inl.inr => cases a.msb <;> cases b.msb <;> simp [FVal.precedes, FVal.cmp] <;> omega
  case inr.inl => cases a.msb <;> cases b.msb <;> simp [FVal.precedes, FVal.cmp] <;> omega
  case inr.inr => exact FVal.precedes_fin he hh hsa hsb

theorem f32pick_of_numbers {a b : Word} (ha : f32Nan a = false) (hb : f32Nan b = false) (least : Bool) :
    f32pick least a b = if decide (f32Key a ≤ f32Key b) = least then a else b := by
  rw [← precedes_eq_f32Key_le ha hb]
  simp only [f32pick, isNan_decodeF_fp32, ha, hb, Bool.false_eq_true, and_self, if_false]
  rfl

theorem f32min_of_numbers {a b : Word} (ha : f32Nan a = false) (hb : f32Nan b = false) :
    f32min a b = if f32Key a ≤ f32Key b then a else b := by
  rw [f32min, f32pick_of_numbers ha hb]
  simp only [decide_eq_true_eq]

theorem f32max_of_numbers {a b : Word} (ha : f32Nan a = false) (hb : f32Nan b = false) :
    f32max a b = if f32Key a ≤ f32Key b then b else a := by
  rw [f32max, f32pick_of_numbers ha hb]
  simp only [decide_eq_false_iff_not, ite_not]

theorem f32pick_of_nans {a b : Word} (ha : f32Nan a = true) (hb : f32Nan b = true) (least : Bool) :
    f32pick least a b = 0x7FC00000 := by
  simp [f32pick, isNan_decodeF_fp32, ha, hb]

theorem f32pick_of_nan_left {a b : Word} (ha : f32Nan a = true) (hb : f32Nan b = false) (least : Bool) :
    f32pick least a b = b := by
  simp [f32pick, isNan_decodeF_fp32, ha, hb]

theorem f32pick_of_nan_right {a b : Word} (ha : f32Nan a = false) (hb : f32Nan b = true) (least : Bool) :
    f32pick least a b = a := by
  simp [f32pick, isNan_decodeF_fp32, ha, hb]

/-! ## FCLASS (05 R121) -/

/-- The class of a word by its fields. -/
theorem f32class_eq (w : Word) : f32class w =
    if f32Exp w = 255 then
      if f32Man w = 0 then if w.msb then 1 <<< 0 else 1 <<< 7
      else if (w.extractLsb' 0 23).getLsbD 22 then 1 <<< 9 else 1 <<< 8
    else if f32Exp w = 0 then
      if f32Man w = 0 then if w.msb then 1 <<< 3 else 1 <<< 4
      else if w.msb then 1 <<< 2 else 1 <<< 5
    else if w.msb then 1 <<< 1 else 1 <<< 6 := by
  have hmag := f32Mag_eq_fields w
  have hexp := f32Exp_lt w
  have hman := f32Man_lt w
  have hneg : (2 ^ 31 ≤ w.toNat) = (w.msb = true) := by rw [BitVec.msb_eq_decide, decide_eq_true_eq]
  have hquiet : bit (f32Mag w) 22 = (w.extractLsb' 0 23).getLsbD 22 := by
    have hbit : f32Mag w / 2 ^ 22 % 2 = f32Man w / 2 ^ 22 % 2 := by omega
    rw [← bit_toNat, bit, hbit]
    rfl
  simp only [f32class, ← f32Mag_eq, hneg, hquiet]
  by_cases h255 : f32Exp w = 255
  · rw [if_pos h255]
    by_cases h0 : f32Man w = 0
    · rw [if_neg (by omega), if_pos (by omega), if_pos h0]
      cases w.msb <;> rfl
    · rw [if_pos (by omega), if_neg h0]
      cases (w.extractLsb' 0 23).getLsbD 22 <;> rfl
  · rw [if_neg h255, if_neg (by omega), if_neg (by omega)]
    by_cases h0 : f32Exp w = 0
    · rw [if_pos h0]
      by_cases hm : f32Man w = 0
      · rw [if_pos (by omega), if_pos hm]
        cases w.msb <;> rfl
      · rw [if_neg (by omega), if_pos (by omega), if_neg hm]
        cases w.msb <;> rfl
    · rw [if_neg h0, if_neg (by omega), if_neg (by omega)]
      cases w.msb <;> rfl

/-! ## Special functions (05 R126) -/

theorem specialRound_nan (f : FFmt) (faithful up : Bool) : specialRound f faithful up (.exact .nan) = arithF f .nan := rfl

theorem specialWord_nan (f : SpecialFn) {w : Word} (h : f32Nan w = true) : specialWord f .f32 w = 0x7FC00000 := by
  have hw : w.toNat % 2 ^ fFP32.width = w.toNat := Nat.mod_eq_of_lt w.isLt
  simp only [specialWord, floatFmt, hw, decodeF_fp32_of_nan h, specialVal, specialRound_nan, ofNat_arithF_nan]

/-- Settles O13: a NaN decodes to the value that every operation keeps; numbers are ordered as their sign and magnitude bits; the
fields of a word decide its class; the table's values are exact, so that its words hold no free choice (log 20). -/
theorem floatRules : Obligations.FloatRules := by
  unfold Obligations.FloatRules
  refine ⟨⟨fun a b h => ⟨f32add_nan h, f32sub_nan h, f32mul_nan h⟩, fun a b d h => f32fma_nan h,
      fun a b ha hb => ⟨f32pick_of_nans ha hb _, f32pick_of_nans ha hb _⟩,
      fun a b ha hb => ⟨f32pick_of_nan_left ha hb _, f32pick_of_nan_left ha hb _⟩,
      fun a b ha hb => ⟨f32pick_of_nan_right ha hb _, f32pick_of_nan_right ha hb _⟩,
      fun a b ha hb => ⟨f32min_of_numbers ha hb, f32max_of_numbers ha hb⟩⟩,
    fun w => ?_, fun f w h => specialWord_nan f h, by decide +kernel⟩
  have htop := exp_eq_top_iff w
  have hzero := exp_eq_zero_iff w
  have hman := man_eq_zero_iff w
  have hnot (he : w.extractLsb' 23 8 = 0) : ¬ f32Exp w = 255 := by
    rw [hzero.mp he]
    decide
  rw [f32class_eq]
  refine ⟨fun he hm => ?_, fun he hm => ?_, fun he hm => ?_, fun he hm => ?_, fun he he' => ?_⟩
  · rw [if_pos (htop.mp he), if_pos (hman.mp hm)]
  · rw [if_pos (htop.mp he), if_neg (mt hman.mpr hm)]
  · rw [if_neg (hnot he), if_pos (hzero.mp he), if_pos (hman.mp hm)]
  · rw [if_neg (hnot he), if_pos (hzero.mp he), if_neg (mt hman.mpr hm)]
  · rw [if_neg (mt htop.mpr he'), if_neg (mt hzero.mpr he)]

end Sys2Proof.Machine

end


/-!
PROOFS. EXIT, YIELD, LIVE and TRAP (spec/06_lane_control.md R145-R149; 03 R91): the statement O20.
-/

section

namespace Sys2Proof.Machine

set_option linter.constructorNameAsVariable false

/-! ## What changes of splits leave alone -/

/-- A group without its splits, and without the lanes that its merges take up again. -/
def Group.shell (x : Group) : Group := { x with splits := [], returned := 0 }

/-- A block without its barriers and its tiles' states, each of its groups without its splits. -/
def Block.shell (x : Block) : Block := { x with groups := x.groups.mapv fun _ y => y.shell, bars := [], tiles := [] }

/-- The blocks without their barriers and their tiles' states, each group without its splits. -/
def State.shell (s : State) : Table Block := s.blocks.mapv fun _ x => x.shell

theorem Table.mapv_modify {α : Type} {h : Nat → α → α} (t : Table α) {i : Nat} {f : α → α} (he : ∀ k v, h k (f v) = h k v) :
    (t.modify i f).mapv h = t.mapv h := by
  induction t with
  | nil => rfl
  | cons e t ih =>
    rw [Table.modify]
    split
    · exact congrArg (fun v => (e.1, v) :: Table.mapv t h) (he ..)
    · exact congrArg ((e.1, h e.1 e.2) :: ·) ih

theorem State.shell_modGrp (s : State) (b g : Nat) {f : Group → Group} (h : ∀ x, (f x).shell = x.shell) :
    (s.modGrp b g f).shell = s.shell :=
  Table.mapv_modify _ fun _ x => congrArg (fun t => { x with groups := t, bars := [], tiles := [] }) (Table.mapv_modify _ fun _ => h)

theorem State.shell_modBlk (s : State) (b : Nat) {f : Block → Block} (h : ∀ x, (f x).shell = x.shell) :
    (s.modBlk b f).shell = s.shell := Table.mapv_modify _ fun _ => h

theorem State.shell_of_units {s t : State} (h : t.units = s.units) : t.shell = s.shell :=
  congrArg (fun u : Focus × Table Block => u.2.mapv fun _ x => x.shell) h

@[simp] theorem State.shell_modSpl (s : State) (b g k : Nat) (f : Split → Split) : (s.modSpl b g k f).shell = s.shell :=
  s.shell_modGrp b g fun _ => rfl

section
variable (s : State) (b g k : Nat)

@[simp] theorem State.shell_popEntry : (s.popEntry b g k).shell = s.shell := by
  rw [State.popEntry, State.shell_modSpl, State.refill]
  split
  · rw [State.shell_modSpl]
    exact State.shell_of_units (s.units_touchCtx ..)
  · rfl

@[simp] theorem State.shell_popPath : (s.popPath b g k).shell = s.shell := by
  unfold State.popPath
  split <;> simp

@[simp] theorem State.shell_takeStack (j : Nat) : (s.takeStack b g k j).shell = s.shell := by
  unfold State.takeStack
  dsimp only
  split
  · rfl
  · rw [State.shell_modSpl]
    exact State.shell_of_units (s.units_writeSpill ..)

@[simp] theorem State.shell_eraseSplits (l : List (Nat × Split)) :
    (l.foldl (fun (t : State) e => t.modGrp b g fun y => { y with splits := y.splits.erase e.1 }) s).shell = s.shell :=
  State.foldl_keeps State.shell _ (fun t _ => t.shell_modGrp b g fun _ => by rfl) l s

@[simp] theorem State.shell_freeEmpty : (s.freeEmpty b g).shell = s.shell := s.shell_modGrp b g fun _ => rfl

@[simp] theorem State.shell_merge (cm : Mask) : (s.merge b g cm).shell = s.shell := by
  unfold State.merge
  extract_lets x
  split
  · rfl
  · extract_lets rest pc deep s0 top s1 s2 s3
    have h1 : s1.shell = s.shell := by simp [s1, s0]
    have h2 : s2.shell = s.shell := by
      clear_value top
      dsimp only [s2]
      split <;> simp [h1]
    have h3 : s3.shell = s.shell := (State.shell_eraseSplits ..).trans h2
    split
    · split <;> simp [h3]
    · split
      · exact (State.shell_modGrp _ b g fun _ => by rfl).trans h3
      · exact h3

theorem State.shell_settleOnce {t : State} (h : s.settleOnce b g = some t) : t.shell = s.shell := by
  unfold State.settleOnce at h
  dsimp only at h
  split at h
  · cases h
    simp
  · split at h
    · obtain ⟨⟨j, u⟩, hc, rfl⟩ := Option.map_eq_some_iff.mp h
      unfold State.tryCollect at hc
      dsimp only at hc
      split at hc
      · cases hc
      · split at hc
        · cases hc
          simp
        · cases hc
    · cases h

@[simp] theorem State.shell_settle : (s.settle b g).shell = s.shell := by
  have hiter (n : Nat) : ∀ t : State, (iterOpt n (fun t => t.settleOnce b g) t).shell = t.shell := by
    induction n with
    | zero => exact fun _ => rfl
    | succ n ih =>
      intro t
      rw [iterOpt]
      split
      · next u hu => exact (ih u).trans (t.shell_settleOnce b g hu)
      · rfl
  exact (hiter 1100 _).trans (s.shell_freeEmpty b g)

@[simp] theorem State.shell_endPath : (s.endPath b g k).shell = s.shell := by
  unfold State.endPath
  split <;> simp

end

/-- The group without its splits is that of the blocks without splits. -/
theorem State.shell_grp (s : State) (b g : Nat) :
    (s.grp b g).shell = (s.shell.getD b Block.empty).groups.getD g Group.empty := by
  rw [State.grp, State.blk, Block.grp, State.shell, Table.getD, Table.getD, Table.getD, Table.getD, Table.find_mapv]
  cases s.blocks.find b with
  | none => rfl
  | some x =>
    simp only [Option.map_some, Option.getD_some, Block.shell, Table.find_mapv]
    cases x.groups.find g <;> rfl

theorem State.shell_node (s : State) (b : Nat) : (s.blk b).node = (s.shell.getD b Block.empty).node := by
  rw [State.blk, State.shell, Table.getD, Table.getD, Table.find_mapv]
  cases s.blocks.find b <;> rfl

theorem State.shell_has (s : State) (b g : Nat) : s.blocks.has b = s.shell.has b ∧
    (s.blk b).groups.has g = (s.shell.getD b Block.empty).groups.has g := by
  constructor
  · simp [State.shell, Table.has]
  · rw [State.blk, State.shell, Table.getD, Table.getD, Table.find_mapv]
    cases s.blocks.find b <;> simp [Table.has, Block.shell, Block.empty]

section
variable {s t : State} (h : t.shell = s.shell)
include h

theorem State.grp_of_shell (b g : Nat) : (t.grp b g).shell = (s.grp b g).shell := by
  rw [t.shell_grp, s.shell_grp, h]

theorem State.width_of_shell (b : Nat) : (t.blk b).width = (s.blk b).width := by
  rw [Block.width, Block.width, t.shell_node, s.shell_node, h]

theorem State.listed_of_shell {b g : Nat} (hb : s.blocks.has b = true) (hg : (s.blk b).groups.has g = true) :
    t.blocks.has b = true ∧ (t.blk b).groups.has g = true := by
  rw [(s.shell_has b g).1] at hb
  rw [(s.shell_has b g).2] at hg
  rw [(t.shell_has b g).1, (t.shell_has b g).2, h]
  exact ⟨hb, hg⟩

end

/-! ## EXIT (06 R145, 03 R91) -/

@[simp] theorem State.shell_skip (s : State) (n : Nat) : (s.skip n).shell = s.shell := by
  unfold State.skip State.setPc
  split
  · exact s.shell_modSpl ..
  · rfl
  · rfl

theorem Block.shell_leaveBars (x : Block) : x.leaveBars.shell = x.shell :=
  List.foldlRecOn (motive := fun y : Block => y.shell = x.shell) (List.range 16) _ rfl fun _ h _ _ => h

@[simp] theorem State.shell_gangLeave (s : State) (b : Nat) : (s.gangLeave b).shell = s.shell := by
  unfold State.gangLeave
  split
  · rfl
  · split <;> rfl

@[simp] theorem State.shell_freeTiles (s : State) (b g : Nat) : (s.freeTiles b g).shell = s.shell := by
  refine s.shell_modBlk b fun x => ?_
  split
  · rfl
  · refine List.foldlRecOn (motive := fun y : Block => y.shell = x.shell) _ _ rfl fun y h j _ => ?_
    dsimp only
    split <;> exact h

@[simp] theorem State.shell_exitArrivals (s : State) (b g : Nat) : (s.exitArrivals b g).shell = s.shell := by
  unfold State.exitArrivals
  extract_lets live s1
  have h1 : s1.shell = s.shell := s.shell_modBlk b fun x => by
    refine List.foldlRecOn (motive := fun y : Block => y.shell = x.shell) _ _ rfl fun y h j _ => ?_
    split <;> exact h
  split
  · exact h1
  · split <;> exact h1

@[simp] theorem State.shell_exitDbars (s : State) (b g : Nat) (live : Mask) : (s.exitDbars b g live).shell = s.shell := rfl

/-- A group whose lanes have all exited has ended; the end of a group leaves its exited lanes. -/
theorem State.grp_groupEnd {s : State} {b g : Nat} (hb : s.blocks.has b = true) (hg : (s.blk b).groups.has g = true) :
    ((s.groupEnd b g).grp b g).exited = (s.grp b g).exited ∧
      (subLanes (allLanes (s.blk b).width) (s.grp b g).exited = true → ((s.groupEnd b g).grp b g).ended = true) := by
  unfold State.groupEnd
  split
  · generalize hu : s.modGrp b g (fun x => { x with ended := true, splits := [] }) = u
    have hgrp : u.grp b g = { s.grp b g with ended := true, splits := [] } := by rw [← hu, State.grp_modGrp_self hb hg]
    have h : (((u.modBlk b fun x => x.leaveBars).gangLeave b).freeTiles b g).shell = u.shell := by
      rw [State.shell_freeTiles, State.shell_gangLeave, u.shell_modBlk b Block.shell_leaveBars]
    have hshell := (State.grp_of_shell h b g).trans (congrArg Group.shell hgrp)
    exact ⟨(congrArg Group.exited hshell :), fun _ => (congrArg Group.ended hshell :)⟩
  · next h =>
    refine ⟨rfl, fun hs => ?_⟩
    simpa [hs] using h

/-- EXIT rewrites the spilled entries after it has taken the lanes out of the group. -/
theorem State.units_dropLanes (s : State) (b g : Nat) (m : Mask) :
    (s.dropLanes b g m).units = (s.modGrp b g fun x => x.dropLanes m).units := by
  rw [State.dropLanes]
  exact State.foldl_keeps State.units _ (fun t e => t.units_writeSpill ..) _ _

section
variable {s : State} {b gr : Nat} (hb : s.blocks.has b = true) (hg : (s.blk b).groups.has gr = true)
include hb hg

/-- After EXIT of some lanes they count as exited, and the group has ended once all of its lanes have. -/
theorem State.grp_exitSplit (k : Nat) (m : Mask) :
    ((s.exitSplit b gr k m).grp b gr).exited = (s.grp b gr).exited ||| m ∧
      (subLanes (allLanes (s.blk b).width) ((s.grp b gr).exited ||| m) = true →
        ((s.exitSplit b gr k m).grp b gr).ended = true) := by
  unfold State.exitSplit
  extract_lets t1 t2 live
  generalize hv : (if m = 0 then t2 else (t2.exitArrivals b gr).exitDbars b gr live) = v
  have h1 : t1.shell = (s.modGrp b gr fun x => x.dropLanes m).shell := State.shell_of_units (s.units_dropLanes ..)
  have h2 : t2.shell = t1.shell := by
    dsimp only [t2]
    split <;> simp
  have h3 : v.shell = t2.shell := by
    rw [← hv]
    split <;> simp
  have h : v.shell = (s.modGrp b gr fun x => x.dropLanes m).shell := h3.trans (h2.trans h1)
  have hexited : (v.grp b gr).exited = (s.grp b gr).exited ||| m := by
    have hgrp := State.grp_of_shell h b gr
    rw [State.grp_modGrp_self hb hg] at hgrp
    exact (congrArg Group.exited hgrp :)
  have hwidth : (v.blk b).width = (s.blk b).width := by
    rw [State.width_of_shell h, State.blk_modGrp]
    rfl
  obtain ⟨hbv, hgv⟩ := State.listed_of_shell h (b := b) (g := gr) (by simpa using hb) (by simpa using hg)
  have hend := State.grp_groupEnd hbv hgv
  rwa [hexited, hwidth] at hend

end

theorem exec_exit {g : Pred} {s : State} {b gr k : Nat} (hf : s.focus = .split b gr k) (hm : s.mayIssue (.exit g) g = true) :
    Sys2Proof.Machine.exec (.exit g) s = .next (if s.exec g = 0 then s.skip 4 else s.exitSplit b gr k (s.exec g)) := by
  rw [show Sys2Proof.Machine.exec (.exit g) s = execExit g s from rfl, execExit, laneRun_of_mayIssue hm]
  simp only [hf]

theorem exit_spec (g : Pred) (s : State) (b gr k : Nat) (hf : s.focus = .split b gr k) (hm : s.mayIssue (.exit g) g = true) :
    ∃ t : State, Sys2Proof.Machine.exec (.exit g) s = .next t ∧
      (t.grp b gr).exited = (s.grp b gr).exited ||| s.exec g ∧
      (s.exec g = 0 → t.pc = s.pc + 4) ∧
      (s.exec g ≠ 0 → allLanes (s.blk b).width &&& ~~~((s.grp b gr).exited ||| s.exec g) = 0 →
        (t.grp b gr).ended = true) := by
  have hi := issuing_of_mayIssue hm
  obtain ⟨hb, hg, -⟩ := State.listed_of_issuing hf hi
  refine ⟨_, exec_exit hf hm, ?_⟩
  split
  · next h0 =>
    have hgrp := State.grp_of_shell (s.shell_skip 4) b gr
    have hexited : ((s.skip 4).grp b gr).exited = (s.grp b gr).exited := (congrArg Group.exited hgrp :)
    exact ⟨by rw [hexited, h0]; exact BitVec.or_zero.symm, fun _ => State.pc_skip4 hi, fun h => absurd h0 h⟩
  · next h0 =>
    obtain ⟨hexited, hended⟩ := State.grp_exitSplit hb hg k (s.exec g)
    exact ⟨hexited, fun h => absurd h h0, fun _ h => hended (by rw [subLanes, h]; rfl)⟩

/-! ## YIELD (06 R146, 03 R94) -/

/-- A rotation of a split with a deferred path on top goes on at that path. -/
theorem State.rotate_of_path {s : State} {b g k : Nat} {d : Deferred} (hd : s.topEntry b g k = some d) (hp : d.path = true) :
    ∃ (u : State) (f : Split → Split), s.rotate b g k = u.modSpl b g k f ∧ u.units = s.units ∧
      ∀ y, (f y).pc = d.pc ∧ (f y).am = d.mask := by
  rw [State.topEntry] at hd
  unfold State.rotate
  dsimp only
  split
  · next h =>
    rw [h] at hd
    cases hd
  · next e l h =>
    rw [h, List.head?_cons] at hd
    cases hd
    rw [if_pos hp]
    exact ⟨_, _, rfl, s.units_writeSpill .., fun _ => ⟨rfl, rfl⟩⟩

/-- The state after YIELD of a split that holds no deferred path. -/
def State.yieldGrp (s : State) (b g k : Nat) : State :=
  s.modGrp b g fun x => { x.modSpl k (Split.readyAt (s.pc + 4)) with yielded := true }

theorem yield_split (g : Pred) (s : State) (b gr k : Nat) (hf : s.focus = .split b gr k) (hm : s.mayIssue (.yield g) g = true) :
    ∃ t : State, Sys2Proof.Machine.exec (.yield g) s = .next t ∧ (t.grp b gr).yielded = true ∧
      (s.topPath b gr k = false → t.pc = s.pc + 4 ∧ t.lanes = s.lanes) ∧
      ∀ d, s.topEntry b gr k = some d → d.path = true → t.pc = d.pc ∧ (t.spl b gr k).am = d.mask := by
  have hi := issuing_of_mayIssue hm
  obtain ⟨hb, hg, hk⟩ := State.listed_of_issuing hf hi
  have heq : (s.skip 4).modGrp b gr (fun x => { x with yielded := true }) = s.yieldGrp b gr k := by
    rw [State.skip, State.setPc_of_split hf, State.modSpl, State.modGrp_modGrp]
    rfl
  have hspl : (s.yieldGrp b gr k).spl b gr k = (s.spl b gr k).readyAt (s.pc + 4) := by
    rw [State.yieldGrp, State.spl_modGrp_self hb hg]
    exact Group.spl_modSpl_self hk _
  have hfull : (s.yieldGrp b gr k).fullStack b gr k = s.fullStack b gr k :=
    State.fullStack_modGrp (congrArg Split.stack hspl :) (congrArg Split.spilled hspl :)
  have hgrp : (s.yieldGrp b gr k).grp b gr = { (s.grp b gr).modSpl k (Split.readyAt (s.pc + 4)) with yielded := true } :=
    State.grp_modGrp_self hb hg _
  have hfy : (s.yieldGrp b gr k).focus = .split b gr k := hf
  have hx : Sys2Proof.Machine.exec (.yield g) s =
      .next (if s.topPath b gr k then (s.yieldGrp b gr k).rotate b gr k else s.yieldGrp b gr k) := by
    rw [show Sys2Proof.Machine.exec (.yield g) s = execYield g s from rfl, execYield, laneRun_of_mayIssue hm]
    simp only [hf, heq, State.topPath_congr hfull]
  refine ⟨_, hx, ?_⟩
  cases htop : s.topPath b gr k with
  | false =>
    rw [if_neg (by decide)]
    refine ⟨by rw [hgrp], fun _ => ⟨?_, ?_⟩, fun d hd hp => ?_⟩
    · rw [State.pc_of_split hfy, hspl]
      rfl
    · have hwidth : ((s.yieldGrp b gr k).blk b).width = (s.blk b).width := by
        rw [State.yieldGrp, State.blk_modGrp]
        rfl
      simp only [State.lanes, hfy, hf, hspl, hwidth]
      rfl
    · rw [State.topPath, hd] at htop
      exact absurd (hp.symm.trans htop) (by decide)
  | true =>
    rw [if_pos rfl]
    rw [State.topPath] at htop
    split at htop
    · next e he =>
      obtain ⟨u, f, hrot, hu, hpath⟩ := State.rotate_of_path (s := s.yieldGrp b gr k) (d := e)
        (by rw [State.topEntry, hfull]; exact he) htop
      obtain ⟨hfu, hbu⟩ := Prod.mk.inj hu
      have hgu := State.grp_of_units hu b gr
      have hb' : u.blocks.has b = true := by rw [hbu]; exact (s.has_modGrp b gr _ b).trans hb
      have hg' : (u.blk b).groups.has gr = true := by
        rw [State.blk, hbu]
        exact (s.groups_has_modGrp b gr _ gr).trans hg
      have hk' : (u.grp b gr).splits.has k = true := by
        rw [hgu, hgrp]
        exact (Group.has_modSpl ..).trans hk
      have hsplr := State.spl_modSpl_self hb' hg' hk' f
      rw [hrot]
      refine ⟨?_, fun h => absurd h (by decide), fun d hd hp => ?_⟩
      · rw [State.grp_modSpl_self hb' hg', hgu, hgrp]
        rfl
      · cases he.symm.trans hd
        rw [State.pc_of_split (s := u.modSpl b gr k f) (hfu.trans hfy), hsplr]
        exact hpath _
    · cases htop

theorem yield_comet (g : Pred) (s : State) (c : Nat) (hf : s.focus = .comet c) (hm : s.mayIssue (.yield g) g = true) :
    ∃ t : State, Sys2Proof.Machine.exec (.yield g) s = .next t ∧ t.pc = s.pc + 4 ∧ (t.ctx c).yielded = true ∧ t.mem = s.mem ∧
      ∀ m l, t.rdV m l = s.rdV m l := by
  have hi := issuing_of_mayIssue hm
  have hc := State.listed_of_issuing_comet hf hi
  have hx : Sys2Proof.Machine.exec (.yield g) s = .next ((s.skip 4).modCtx c fun x => { x with yielded := true }) := by
    rw [show Sys2Proof.Machine.exec (.yield g) s = execYield g s from rfl, execYield, laneRun_of_mayIssue hm]
    simp only [hf]
  have hc' : (s.skip 4).comets.has c = true := by
    rw [State.skip, State.setPc_of_comet hf]
    exact (Table.has_modify ..).trans hc
  have hctx := (s.skip 4).ctx_modCtx_self c (fun x => { x with yielded := true }) hc'
  refine ⟨_, hx, ?_, by rw [hctx], State.skip_mem .., fun m l => ?_⟩
  · rw [← State.pc_skip4 hi]
    exact State.pc_of_unitView (State.unitView_modCtx _ c (fun _ => rfl) fun _ => rfl)
  · exact ((sameRegs.modCtx _ c (fun _ => by rfl) (fun _ => by rfl) fun _ => by rfl).1 m l).trans ((sameRegs.skip s 4).1 m l)

/-! ## LIVE and TRAP (06 R147, R149) -/

theorem live_split (g : Pred) (n : BitVec 2) (a : Reg) (s : State) (b gr k : Nat) (hf : s.focus = .split b gr k)
    (hm : s.mayIssue (.live g n a) g = true) : ∃ t : State, Sys2Proof.Machine.exec (.live g n a) s = .next t ∧
      t.pc = s.pc + 4 ∧ t.mem = s.mem ∧
      ((t.grp b gr).lv.getD n.toNat 0 = if s.exec g = 0 then (s.grp b gr).lv.getD n.toNat 0
        else s.rdSPair a.toNat &&& BitVec.ofNat 64 (2 ^ (s.blk b).node.vregs - 1)) ∧
      ∀ m, m ≠ n.toNat → (t.grp b gr).lv.getD m 0 = (s.grp b gr).lv.getD m 0 := by
  have hi := issuing_of_mayIssue hm
  have hx : Sys2Proof.Machine.exec (.live g n a) s = .next (if s.exec g = 0 then s.skip 4 else
      (s.modGrp b gr fun x => { x with lv := x.lv.set n.toNat (liveMask s.unitNode (s.rdSPair a.toNat)) }).skip 4) := by
    rw [show Sys2Proof.Machine.exec (.live g n a) s = execLive g n a s from rfl, execLive, laneRun_of_mayIssue hm]
    simp only [hf]
    split <;> rfl
  have hnode : s.unitNode = (s.blk b).node := by rw [State.unitNode, State.unitBlk, hf]
  refine ⟨_, hx, ?_⟩
  split
  · next h0 =>
    have hlv : ((s.skip 4).grp b gr).lv = (s.grp b gr).lv :=
      (congrArg Group.lv (State.grp_of_shell (s.shell_skip 4) b gr) :)
    exact ⟨State.pc_skip4 hi, State.skip_mem .., by rw [hlv], fun m _ => by rw [hlv]⟩
  · next h0 =>
    obtain ⟨hpc, -, hmem, -, l, hgrp⟩ := mts_grp hf hi
      (f := fun x => { x with lv := x.lv.set n.toNat (liveMask s.unitNode (s.rdSPair a.toNat)) })
      (fun _ => rfl) (fun _ => rfl) fun _ => rfl
    refine ⟨hpc, hmem, ?_, fun m h => ?_⟩
    · rw [hgrp, ← hnode]
      exact Table.getD_set_self ..
    · rw [hgrp]
      exact Table.getD_set_other _ _ _ _ _ h

theorem live_comet (g : Pred) (n : BitVec 2) (a : Reg) (s : State) (c : Nat) (hf : s.focus = .comet c)
    (hm : s.mayIssue (.live g n a) g = true) : ∃ t : State, Sys2Proof.Machine.exec (.live g n a) s = .next t ∧
      t.pc = s.pc + 4 ∧ t.mem = s.mem ∧ t.blocks = s.blocks ∧
      (t.ctx c).lv.getD n.toNat 0 = if s.exec g = 0 then (s.ctx c).lv.getD n.toNat 0
        else s.rdSPair a.toNat &&& BitVec.ofNat 64 (2 ^ (s.blk (s.ctx c).blk).node.vregs - 1) := by
  have hi := issuing_of_mayIssue hm
  have hx : Sys2Proof.Machine.exec (.live g n a) s = .next (if s.exec g = 0 then s.skip 4 else
      (s.modCtx c fun x => { x with lv := x.lv.set n.toNat (liveMask s.unitNode (s.rdSPair a.toNat)) }).skip 4) := by
    rw [show Sys2Proof.Machine.exec (.live g n a) s = execLive g n a s from rfl, execLive, laneRun_of_mayIssue hm]
    simp only [hf]
    split <;> rfl
  have hnode : s.unitNode = (s.blk (s.ctx c).blk).node := by rw [State.unitNode, State.unitBlk, hf]
  refine ⟨_, hx, ?_⟩
  split
  · next h0 =>
    have hskip : s.skip 4 = s.modCtx c (Comet.readyAt (s.pc + 4)) := State.setPc_of_comet hf _
    have hctx := s.ctx_modCtx_self c (Comet.readyAt (s.pc + 4)) (State.listed_of_issuing_comet hf hi)
    refine ⟨State.pc_skip4 hi, State.skip_mem .., ?_, ?_⟩
    · rw [hskip]
      rfl
    · rw [hskip, hctx]
      rfl
  · next h0 =>
    obtain ⟨hpc, -, hmem, hblocks, hctx⟩ := mts_ctx hf hi
      (f := fun x => { x with lv := x.lv.set n.toNat (liveMask s.unitNode (s.rdSPair a.toNat)) })
      (fun _ => rfl) (fun _ => rfl) (fun _ => rfl) fun _ => rfl
    refine ⟨hpc, hmem, hblocks, ?_⟩
    rw [hctx, ← hnode]
    exact Table.getD_set_self ..

theorem exec_trap {g : Pred} {n : BitVec 6} {s : State} (hm : s.mayIssue (.trap g n) g = true) :
    Sys2Proof.Machine.exec (.trap g n) s =
      .next (if s.exec g = 0 then s.setPc (s.pc + 4) else s.takeTrapN 0x02 n.toNat (s.exec g) 0) := by
  rw [show Sys2Proof.Machine.exec (.trap g n) s = execTrap g n s from rfl, execTrap, laneRun_of_mayIssue hm]
  split <;> rfl

/-- Settles O20: EXIT takes its lanes out of the group, and what it completes leaves the group's exited lanes; YIELD and LIVE write one
field of the group or of the context; TRAP is a trap of its executing lanes. -/
theorem exitYieldLiveTrap : Obligations.ExitYieldLiveTrap := by
  unfold Obligations.ExitYieldLiveTrap
  exact ⟨exit_spec, yield_split, yield_comet, live_split, live_comet, fun _ _ _ => exec_trap⟩

end Sys2Proof.Machine

end


/-!
PROOFS. ERET, and the way from a trap to its handler and back (spec/06_lane_control.md R150-R152; 09 R200; 16 R345): the statement O22.
-/

section

namespace Sys2Proof.Machine

set_option linter.constructorNameAsVariable false

/-! ## Reading a frame (06 R151) -/

/-- Bytes that lie in one page of a context area are read at their key. -/
theorem State.readCtx_of_page {s : State} {b a n : Nat} (h : a % 4096 + n ≤ 4096) : s.readCtx b a n = s.mem.read (s.ctxKey b a) n := by
  rw [State.readCtx, State.ctxBytes, if_pos (by omega), Memory.read]

theorem lowWord_pairVal (a b : Word) : lowWord (pairVal a b) = a := by
  refine BitVec.eq_of_getLsbD_eq fun i hi => ?_
  simp only [lowWord, pairVal, BitVec.getLsbD_extractLsb', BitVec.getLsbD_append]
  simp [hi]

theorem highWord_pairVal (a b : Word) : highWord (pairVal a b) = b := by
  refine BitVec.eq_of_getLsbD_eq fun i hi => ?_
  simp only [highWord, pairVal, BitVec.getLsbD_extractLsb', BitVec.getLsbD_append]
  simp [hi]

/-! ## The unit after ERET -/

theorem State.rdV_of_units {s t : State} {b gr k : Nat} (hf : s.focus = .split b gr k) (h : t.units = s.units) (m l : Nat) :
    t.rdV m l = s.rdV m l := by
  obtain ⟨hft, hbt⟩ := Prod.mk.inj h
  simp only [State.rdV, hft, hf, State.blk, hbt]

theorem State.linkReg_of_split {s : State} {b gr k : Nat} (hf : s.focus = .split b gr k) : s.linkReg = (s.blk b).node.link := by
  rw [State.linkReg, State.unitNode, State.unitBlk, hf]

theorem State.privileged_of_split {s : State} {b gr k : Nat} (hf : s.focus = .split b gr k) :
    s.privileged = (s.spl b gr k).priv := by
  rw [State.privileged, hf]

/-- The active lanes stay where a split changes besides its AM. -/
theorem State.lanes_modSpl (s : State) (b gr k : Nat) {f : Split → Split} (h : ∀ y, (f y).am = y.am) :
    (s.modSpl b gr k f).lanes = s.lanes := by
  have hnode (b' : Nat) : ((s.modSpl b gr k f).blk b').node = (s.blk b').node := s.blk_modBlk_node b b' _ fun _ => rfl
  simp only [State.lanes, State.modSpl_focus, State.proj_spl_modSpl Split.am h, Block.width, hnode]
  rfl

/-- The state with the link pairs of the active lanes as a frame holds them, and the frame's leaves used. -/
def State.linksRestored (s : State) (b f : Nat) : State :=
  (s.touchCtx b f (64 + 8 * (s.blk b).width) false).putLanes (lanesOf s.lanes) fun u l =>
    u.wrVPair (s.blk b).node.link l (s.frameLink b f l)

/-- The split that ERET returns from its handler. -/
def Split.returned (rpc : Dword) (y : Split) : Split :=
  { y with priv := false, frame := 0, trap := none, pc := rpc, wait := .ready }

section
variable {g : Pred} {s : State} {b gr k f : Nat} (hf : s.focus = .split b gr k) (hm : s.mayIssue (.eret g) g = true)
  (hp : (s.spl b gr k).priv = true)
include hf hm hp

theorem exec_eret_not_own (ho : s.ownOk (usesV [((s.blk b).node.link, 2)]) = false) :
    Sys2Proof.Machine.exec (.eret g) s = .next (s.takeTrap 0x40) := by
  have hpr : s.privileged = true := (State.privileged_of_split hf).trans hp
  rw [show Sys2Proof.Machine.exec (.eret g) s = execEret g s from rfl, execEret, laneRun_of_mayIssue hm]
  simp [hf, hpr, State.linkReg_of_split hf, ho]

variable (hfr : f = (s.rdVPair (s.blk b).node.link (lowestLane (s.spl b gr k).am)).toNat)
  (ho : s.ownOk (usesV [((s.blk b).node.link, 2)]) = true) (hbusy : s.anyBusy (lanesOf s.lanes) = false)
include hfr ho hbusy

/-- ERET with its checks passed: the frame's AMASK and RPC decide. -/
theorem exec_eret_own : Sys2Proof.Machine.exec (.eret g) s = .next (
    if s.frameAmask b f ≠ (s.spl b gr k).am then
      (s.touchCtx b f (64 + 8 * (s.blk b).width) false).trapWith 0xA1 (s.spl b gr k).am (BitVec.ofNat 64 f)
    else if targetBad (s.frameRpc b f) = true then
      (s.touchCtx b f (64 + 8 * (s.blk b).width) false).trapWith 0x03 (s.spl b gr k).am (s.frameRpc b f)
    else (s.linksRestored b f).modSpl b gr k (Split.returned (s.frameRpc b f))) := by
  have hpr : s.privileged = true := (State.privileged_of_split hf).trans hp
  have hlink := State.linkReg_of_split hf
  rw [show Sys2Proof.Machine.exec (.eret g) s = execEret g s from rfl, execEret, laneRun_of_mayIssue hm]
  simp only [hf, hpr, hlink, ho, hbusy, Bool.not_true, Bool.false_eq_true, if_false]
  rw [State.eretSplit]
  simp only [hlink, ← hfr, badTarget_eq_targetBad, bne_iff_ne]
  rfl

/-- ERET of a frame that holds the split's AM and a good RPC. -/
theorem eret_returns (ham : s.frameAmask b f = (s.spl b gr k).am) (hrpc : targetBad (s.frameRpc b f) = false) :
    ∃ t : State, Sys2Proof.Machine.exec (.eret g) s = .next t ∧ t.pc = s.frameRpc b f ∧ (t.spl b gr k).priv = false ∧
      t.mem = (s.touchCtx b f (64 + 8 * (s.blk b).width) false).mem ∧ (t.spl b gr k).am = (s.spl b gr k).am ∧
      t.lanes = s.lanes ∧ (∀ l ∈ lanesOf s.lanes, t.rdVPair (s.blk b).node.link l = s.frameLink b f l) ∧
      ∀ m, m ≠ (s.blk b).node.link → m ≠ (s.blk b).node.link + 1 → ∀ l ∈ lanesOf s.lanes, t.rdV m l = s.rdV m l := by
  have hu : (s.touchCtx b f (64 + 8 * (s.blk b).width) false).units = s.units := s.units_touchCtx ..
  generalize hv : s.touchCtx b f (64 + 8 * (s.blk b).width) false = v at hu
  have hres : s.linksRestored b f = v.putLanes (lanesOf s.lanes) fun u l => u.wrVPair (s.blk b).node.link l (s.frameLink b f l) := by
    rw [State.linksRestored, hv]
  have hviewv : v.unitView = s.unitView := State.unitView_of_units hf hu
  have hview : (s.linksRestored b f).unitView = s.unitView := by
    rw [hres]
    exact (State.unitView_putLanes _ _ fun _ _ => by simp).trans hviewv
  have hi := issuing_of_mayIssue hm
  have hiv : v.issuing = true := (State.issuing_of_unitView hviewv).trans hi
  have hlv : v.lanes = s.lanes := State.lanes_of_unitView hviewv
  have hfo : (s.linksRestored b f).focus = .split b gr k := by
    rw [hres, State.putLanes_proj State.focus _ _ _ fun t l => by simp [State.wrVPair]]
    exact (Prod.mk.inj hu).1.trans hf
  have hspl : (s.linksRestored b f).spl b gr k = s.spl b gr k := by
    rw [hres, State.putLanes_proj (fun t => t.spl b gr k) _ _ _ fun t _ => t.spl_wrVPair ..]
    exact congrArg (Group.spl · k) (State.grp_of_units hu b gr)
  obtain ⟨hb, hg, hk⟩ := State.listed_of_issuing hfo ((State.issuing_of_unitView hview).trans hi)
  have hself := State.spl_modSpl_self hb hg hk (Split.returned (s.frameRpc b f))
  rw [hspl] at hself
  have hlanes (l : Nat) (hl : l ∈ lanesOf s.lanes) : hasLane v.lanes l = true := by
    rw [hlv]
    exact (mem_lanesOf _ l).mp hl
  refine ⟨_, exec_eret_own hf hm hp hfr ho hbusy, ?_⟩
  rw [if_neg (by simpa using ham), if_neg (by simp [hrpc])]
  refine ⟨?_, ?_, ?_, ?_, ?_, fun l hl => ?_, fun m h0 h1 l hl => ?_⟩
  · rw [State.pc_of_split (s := State.modSpl _ b gr k _) hfo, hself]
    rfl
  · rw [hself]
    rfl
  · rw [State.modSpl_mem, hres]
    exact State.putLanes_proj State.mem _ _ _ fun _ _ => by simp
  · rw [hself]
    rfl
  · exact (State.lanes_modSpl _ b gr k fun _ => by rfl).trans (State.lanes_of_unitView hview)
  · rw [State.rdVPair, State.rdV_modSpl, State.rdV_modSpl, ← State.rdVPair, hres]
    exact State.rdVPair_putLanes hiv (lanesOf_nodup _) hlanes _ (fun l => s.frameLink b f l) hl
  · rw [State.rdV_modSpl, hres]
    refine (State.rdV_putLanes2 v hiv _ (lanesOf_nodup _) hlanes _ _ (by omega) (fun l => lowWord (s.frameLink b f l))
      (fun l => highWord (s.frameLink b f l)) m l (hlanes l hl)).trans ?_
    rw [if_neg fun h => h0 h.1, if_neg fun h => h1 h.1, State.rdV_of_units hf hu]

end

/-! ## From the trap to the handler and back (06 R150-R152) -/

theorem State.node_putLanes_wrVPair (s : State) (ls : List Nat) (m : Nat) (v : Nat → Dword) (b : Nat) :
    ((s.putLanes ls fun t l => t.wrVPair m l (v l)).blk b).node = (s.blk b).node := by
  have hnode (t : State) (m l : Nat) (v : Word) : ((t.wrV m l v).blk b).node = (t.blk b).node := by
    unfold State.wrV
    split
    · exact t.blk_modBlk_node _ b _ fun _ => rfl
    · rfl
    · rfl
  exact State.putLanes_proj (fun t => (t.blk b).node) _ _ _ fun t l => by rw [State.wrVPair, hnode, hnode]

/-- A good PC: a multiple of 4 below 2^52. -/
theorem targetBad_eq_false {d : Dword} (h4 : d.toNat % 4 = 0) (h52 : d.toNat < 2 ^ 52) : targetBad d = false := by
  rw [← badTarget_eq_targetBad, badTarget]
  simpa [h4] using h52

/-- The lanes of a mask of a width lie below it. -/
theorem lt_of_hasLane_allLanes {w l : Nat} (h : hasLane (allLanes w) l = true) : l < w := by
  have hl := lt_of_hasLane h
  rw [hasLane, allLanes, BitVec.getLsbD_ofNat, Bool.and_eq_true, Nat.testBit_two_pow_sub_one] at h
  simpa using h.2

section
variable {s : State} {b gr k cause n : Nat} {lmask : Mask} {info : Dword} (hf : s.focus = .split b gr k) (hi : s.issuing = true)
  (hv : s.vectors b gr k cause = true) (hl : s.linkPending b gr k = false)
include hf hv hl

theorem State.node_takeTrapN_vectored : ((s.takeTrapN cause n lmask info).blk b).node = (s.blk b).node := by
  have hh : s.trapHeld b gr k cause = false := by rw [State.trapHeld, hv, hl, Bool.and_false]
  have hu : (s.framed b gr k cause n lmask info).units = s.units := s.units_writeCtx ..
  rw [State.takeTrapN_vectored hf hh hv]
  refine ((s.frameLinked b gr k cause n lmask info).blk_modBlk_node b b _ fun _ => by rfl).trans ?_
  rw [State.frameLinked, State.node_putLanes_wrVPair, State.blk, State.blk, (Prod.mk.inj hu).2]

include hi

/-- The lane registers at the handler: the link pairs hold the frame's address. -/
theorem State.rdV_takeTrapN_vectored {m l : Nat} (hll : l ∈ lanesOf s.lanes) (h0 : m ≠ (s.blk b).node.link)
    (h1 : m ≠ (s.blk b).node.link + 1) : (s.takeTrapN cause n lmask info).rdV m l = s.rdV m l := by
  obtain ⟨-, -, hread⟩ := State.takeTrapN_vectored_keeps (n := n) (lmask := lmask) (info := info) hf hv hl
  have hu : (s.framed b gr k cause n lmask info).units = s.units := s.units_writeCtx ..
  have hview := State.unitView_of_units hf hu
  have hlanes (j : Nat) (hj : j ∈ lanesOf s.lanes) : hasLane (s.framed b gr k cause n lmask info).lanes j = true := by
    rw [State.lanes_of_unitView hview]
    exact (mem_lanesOf _ j).mp hj
  rw [hread, ← State.rdV_of_units hf hu]
  refine (State.rdV_putLanes2 _ ((State.issuing_of_unitView hview).trans hi) _ (lanesOf_nodup _) hlanes _ _ (by omega)
    (fun _ => lowWord (BitVec.ofNat 64 ((s.blk b).frameSlot gr k))) (fun _ => highWord (BitVec.ofNat 64 ((s.blk b).frameSlot gr k)))
    m l (hlanes l hll)).trans ?_
  rw [if_neg fun h => h0 h.1, if_neg fun h => h1 h.1]

end

/-- The number in a register pair decides its registers. -/
theorem State.rdV_of_rdVPair {s t : State} {m l : Nat} (h : t.rdVPair m l = s.rdVPair m l) :
    t.rdV m l = s.rdV m l ∧ t.rdV (m + 1) l = s.rdV (m + 1) l := by
  have hlow := congrArg lowWord h
  have hhigh := congrArg highWord h
  simp only [State.rdVPair, lowWord_pairVal, highWord_pairVal] at hlow hhigh
  exact ⟨hlow, hhigh⟩

section
variable {s t : State} {b gr k cause n : Nat} {lmask : Mask} {info : Dword} (hf : s.focus = .split b gr k)
  (hwf : s.mem.wf = true) (hv : s.vectors b gr k cause = true) (hl : s.linkPending b gr k = false)
  (hpage : (s.blk b).frameSlot gr k % 4096 + 64 + 8 * (s.blk b).width ≤ 4096) (ht : t = s.takeTrapN cause n lmask info)
  (hkey : ∀ i < 64 + 8 * (s.blk b).width, t.ctxKey b ((s.blk b).frameSlot gr k + i) = s.ctxKey b ((s.blk b).frameSlot gr k) + i)
include hf hwf hv hl hpage ht hkey

/-- Where the frame does not overwrite the tables that translate it, the frame that ERET reads is the one that the trap wrote. -/
theorem State.frame_takeTrapN_vectored :
    t.frameRpc b ((s.blk b).frameSlot gr k) = (if cause = 0x02 then (s.spl b gr k).pc + 4 else (s.spl b gr k).pc) ∧
    t.frameAmask b ((s.blk b).frameSlot gr k) = (s.spl b gr k).am ∧
    ∀ l < (s.blk b).width, t.frameLink b ((s.blk b).frameSlot gr k) l = s.rdVPair (s.blk b).node.link l := by
  have hmem : t.mem = _ := (congrArg State.mem ht).trans
    ((State.takeTrapN_vectored_keeps (n := n) (lmask := lmask) (info := info) hf hv hl).1.trans (State.mem_framed hpage))
  have hwt := State.wf_touchCtx (b := b) (a := (s.blk b).frameSlot gr k) (n := 64 + 8 * (s.blk b).width) (wr := true) hwf
  have hread (i : Nat) (hi : i + 8 ≤ 64 + 8 * (s.blk b).width) : BitVec.ofNat 64 (t.readCtx b ((s.blk b).frameSlot gr k + i) 8) =
      t.mem64 (s.ctxKey b ((s.blk b).frameSlot gr k) + i) := by
    rw [State.readCtx_of_page (by omega), hkey i (by omega), State.mem64]
  obtain ⟨-, hrpc, -, -, -, hamask, -⟩ := State.read_frame hwt hmem
  refine ⟨(hread 8 (by omega)).trans hrpc, (hread 32 (by omega)).trans hamask, fun l hlt => ?_⟩
  have hlen : l < (s.linkPairs b).length := by simpa [State.linkPairs] using hlt
  have hlink := State.read_frame_link hwt hmem hlen
  rw [Nat.add_assoc, ← hread _ (by omega), ← Nat.add_assoc] at hlink
  exact hlink.trans (by simp [State.linkPairs])

end

/-- A split that takes a vectored trap and returns from a handler that changed nothing goes on as it was. -/
theorem trap_eret_roundTrip (s t : State) (g : Pred) (b gr k cause n : Nat) (lmask : Mask) (info : Dword)
    (hf : s.focus = .split b gr k) (hi : s.issuing = true) (hwf : s.mem.wf = true) (hv : s.vectors b gr k cause = true)
    (hl : s.linkPending b gr k = false) (ham : s.amOk b gr k) (h0 : s.lanes ≠ 0) (h64 : (s.blk b).frameSlot gr k < 2 ^ 64)
    (hpage : (s.blk b).frameSlot gr k % 4096 + 64 + 8 * (s.blk b).width ≤ 4096) (h4 : s.pc.toNat % 4 = 0)
    (h52 : s.pc.toNat + 4 < 2 ^ 52) (ht : t = s.takeTrapN cause n lmask info) (hm : t.mayIssue (.eret g) g = true)
    (hbusy : t.anyBusy (lanesOf s.lanes) = false) (hown : t.ownOk (usesV [((s.blk b).node.link, 2)]) = true)
    (hkey : ∀ i < 64 + 8 * (s.blk b).width,
      t.ctxKey b ((s.blk b).frameSlot gr k + i) = s.ctxKey b ((s.blk b).frameSlot gr k) + i) :
    ∃ u : State, Sys2Proof.Machine.exec (.eret g) t = .next u ∧
      u.pc = (if cause = 0x02 then s.pc + 4 else s.pc) ∧ (u.spl b gr k).priv = false ∧ u.lanes = s.lanes ∧
      ∀ m, ∀ l ∈ lanesOf s.lanes, u.rdV m l = s.rdV m l := by
  obtain ⟨hrpc, hamask, hflink⟩ := State.frame_takeTrapN_vectored hf hwf hv hl hpage ht hkey
  obtain ⟨htf, hspl⟩ := State.spl_takeTrapN_vectored (n := n) (lmask := lmask) (info := info) hf hi hv hl
  have hnode := State.node_takeTrapN_vectored (n := n) (lmask := lmask) (info := info) hf hv hl
  have hregs := fun m l => State.rdV_takeTrapN_vectored (n := n) (lmask := lmask) (info := info) (m := m) (l := l) hf hi hv hl
  have haddr : t.rdVPair (s.blk b).node.link (lowestLane s.lanes) = BitVec.ofNat 64 ((s.blk b).frameSlot gr k) := by
    obtain ⟨-, -, hread⟩ := State.takeTrapN_vectored_keeps (n := n) (lmask := lmask) (info := info) hf hv hl
    rw [ht, State.rdVPair, hread, hread]
    exact State.rdVPair_frameLinked hf hi ((mem_lanesOf _ _).mpr (hasLane_lowestLane h0))
  rw [← ht] at htf hspl hnode hregs
  have hpc : s.pc = (s.spl b gr k).pc := State.pc_of_split hf
  have hlanes : t.lanes = s.lanes := by
    simp only [State.lanes, htf, hf, hspl, Block.width, hnode]
    rfl
  have htam : (t.spl b gr k).am = s.lanes := by
    rw [hspl]
    exact ham
  have hwidth (l : Nat) (h : l ∈ lanesOf s.lanes) : l < (s.blk b).width := by
    refine lt_of_hasLane_allLanes (w := (s.blk b).width) ?_
    have hlane := (mem_lanesOf _ l).mp h
    simp only [State.lanes, hf, hasLane_and, Bool.and_eq_true] at hlane
    exact hlane.2
  have hgood : targetBad (if cause = 0x02 then (s.spl b gr k).pc + 4 else (s.spl b gr k).pc) = false := by
    rw [← hpc]
    split
    · exact targetBad_eq_false (by rw [BitVec.toNat_add]; simp; omega) (by rw [BitVec.toNat_add]; simp; omega)
    · exact targetBad_eq_false h4 (by omega)
  have hfr : (s.blk b).frameSlot gr k = (t.rdVPair (t.blk b).node.link (lowestLane (t.spl b gr k).am)).toNat := by
    rw [hnode, htam, haddr, BitVec.toNat_ofNat, Nat.mod_eq_of_lt h64]
  obtain ⟨u, hx, hupc, hupriv, -, -, hulanes, hulink, hurest⟩ := eret_returns htf hm (by rw [hspl]; rfl) hfr (by rw [hnode]; exact hown)
    (by rw [hlanes]; exact hbusy) (by rw [hamask, htam]; exact ham) (by rw [hrpc]; exact hgood)
  rw [hnode, hlanes] at hulink hurest
  refine ⟨u, hx, by rw [hupc, hrpc, hpc], hupriv, hulanes.trans hlanes, fun m l hll => ?_⟩
  obtain ⟨hlow, hhigh⟩ := State.rdV_of_rdVPair ((hulink l hll).trans (hflink l (hwidth l hll)))
  by_cases h0 : m = (s.blk b).node.link
  · rw [h0, hlow]
  by_cases h1 : m = (s.blk b).node.link + 1
  · rw [h1, hhigh]
  rw [hurest m h0 h1 l hll, hregs m l hll h0 h1]

/-- Settles O22: ERET reads the frame and sets the split and its link pairs by it; after a vectored trap the frame holds what the
split and its link pairs were. -/
theorem trapReturn : Obligations.TrapReturn := by
  unfold Obligations.TrapReturn
  refine ⟨fun g s v b gr k f hf hm hp hfr hv => ⟨fun ho hbusy => ⟨fun ham hrpc => ?_, fun ham => ?_, fun ham hrpc => ?_⟩,
    exec_eret_not_own hf hm hp⟩,
    fun s t g b gr k cause n lmask info hf hi hwf hv hl _ _ _ ham h0 h64 hpage h4 h52 ht hm hbusy hown hkey =>
      trap_eret_roundTrip s t g b gr k cause n lmask info hf hi hwf hv hl ham h0 h64 hpage h4 h52 ht hm hbusy hown hkey⟩
  · subst hv
    obtain ⟨t, hx, hpc, hpr, hmem, htam, -, hlink, -⟩ := eret_returns hf hm hp hfr ho hbusy ham hrpc
    exact ⟨t, hx, hpc, hpr, hmem, htam, hlink⟩
  · rw [exec_eret_own hf hm hp hfr ho hbusy, if_pos ham, hv]
  · rw [exec_eret_own hf hm hp hfr ho hbusy, if_neg (by simpa using ham), if_pos hrpc, hv]

end Sys2Proof.Machine

end


/-!
PROOFS. Park records, RESUME, and the service of a first use of accumulators (spec/15_die_work.md R330, R331, R333; 13 R282-R284; 09
R219; 10 R233): the statement O54.
-/

section

namespace Sys2Proof.Machine

set_option linter.constructorNameAsVariable false

/-! ## Park records (15 R330) -/

theorem State.aside_markLeaves (s : State) (ms : List (TlbEntry × List Nat)) (wr : Bool) :
    (s.markLeaves ms wr).aside = s.aside := by
  refine State.foldl_keeps State.aside _ (fun t m => ?_) ms s
  cases wr <;> simp

/-- A write to PF0's space leaves everything besides memory and the armed ranges. -/
theorem State.aside_writeSpace {s u : State} {va : Nat} {bs : List Byte} (h : s.writeSpace 0 va bs = some u) :
    u.aside = { s.aside with armed := u.armed } := by
  have hput (ms : List (TlbEntry × List Nat)) : s.putIn 0 ms va bs =
      (s.markLeaves ms true).commit ((List.zip (List.range bs.length) bs).map fun x => (keyIn ms (va + x.1), x.2)) none 0 :=
    State.foldl_keeps id _ (fun _ _ => rfl) ms _
  unfold State.writeSpace at h
  split at h
  · next ms _ =>
    split at h
    · obtain rfl := Option.some.inj h
      rw [hput, State.aside_commit, State.aside_markLeaves]
    · exact absurd h (by simp)
  · exact absurd h (by simp)

theorem exec_parkRecord {p : Nat} {s u : State} {r : ParkRec} (hr : s.parks.find? (fun r => r.part == p) = some r)
    (h0 : (s.part p).pqcap ≠ 0) (hroom : (s.part p).pqtail - (s.part p).pqhead < (s.part p).pqcap)
    (hu : s.writeSpace 0 ((s.part p).pqbase + 64 * ((s.part p).pqtail % (s.part p).pqcap)) (parkBytes r) = some u) :
    Sys2Proof.Machine.exec (.parkRecord p) s = .next (State.modPart { u with parks := u.parks.erase r } p fun y =>
      { y with pqtail := y.pqtail + 1, irqs := y.irqs + 1 }) := by
  rw [show Sys2Proof.Machine.exec (.parkRecord p) s = execParkRecord p s from rfl, execParkRecord]
  simp [hr, hu, h0, hroom]

theorem parkRecord_appends {p : Nat} {s u : State} {r : ParkRec} (hr : s.parks.find? (fun r => r.part == p) = some r)
    (h0 : (s.part p).pqcap ≠ 0) (hroom : (s.part p).pqtail - (s.part p).pqhead < (s.part p).pqcap)
    (hu : s.writeSpace 0 ((s.part p).pqbase + 64 * ((s.part p).pqtail % (s.part p).pqcap)) (parkBytes r) = some u) :
    ∃ t : State, Sys2Proof.Machine.exec (.parkRecord p) s = .next t ∧ t.mem = u.mem ∧ t.parks = s.parks.erase r ∧
      (t.part p).pqtail = (s.part p).pqtail + 1 ∧ (t.part p).irqs = (s.part p).irqs + 1 := by
  have haside := State.aside_writeSpace hu
  have hparks : u.parks = s.parks := (congrArg State.parks haside :)
  have hparts : u.parts = s.parts := (congrArg State.parts haside :)
  refine ⟨_, exec_parkRecord hr h0 hroom hu, rfl, congrArg (List.erase · r) hparks, ?_, ?_⟩
  all_goals simp [State.part, State.modPart, hparts]

/-! ## What a command names (15 R331) -/

theorem State.unitParked_of_parkedBlock {s : State} {fn ctx b : Nat} {u : ParkUnit} (h : s.parkedBlock fn ctx u = some b) :
    s.unitParked b u = true := by
  obtain ⟨e, he, rfl⟩ := Option.map_eq_some_iff.mp h
  have hp := List.find?_some he
  simp only [Bool.and_eq_true] at hp
  exact hp.2

/-- A parked split is listed. -/
theorem State.listed_of_parked {s : State} {b g k : Nat} (h : (s.spl b g k).parked = true) :
    s.blocks.has b = true ∧ (s.blk b).groups.has g = true ∧ (s.grp b g).splits.has k = true := by
  have hk : (s.grp b g).splits.has k = true := by
    by_contra hn
    rw [State.spl, Group.spl, Table.getD, Table.find_of_not_has (by simpa using hn)] at h
    exact Bool.false_ne_true h
  have hg : (s.blk b).groups.has g = true := by
    by_contra hn
    rw [State.grp, Block.grp, Table.getD, Table.find_of_not_has (by simpa using hn)] at hk
    exact Bool.false_ne_true hk
  exact ⟨State.listed_of_groups hg, hg, hk⟩

theorem exec_resume {fn ctx b : Nat} {u : ParkUnit} {s : State} (h : s.parkedBlock fn ctx u = some b) :
    Sys2Proof.Machine.exec (.resume fn ctx u) s = .next (s.resumeBlock b u) := by
  rw [show Sys2Proof.Machine.exec (.resume fn ctx u) s = execResume fn ctx u s from rfl, execResume, h]

/-- A block that is going out, of which a unit has been resumed, enters again. -/
def Block.resumedIn (y : Block) : Block := if y.preempt.isSome then { y with reentry := true } else y

theorem Block.groups_resumedIn (y : Block) : y.resumedIn.groups = y.groups := by
  unfold Block.resumedIn
  split <;> rfl

theorem Block.seq_resumedIn (y : Block) : y.resumedIn.seq = y.seq := by
  unfold Block.resumedIn
  split <;> rfl

theorem Block.reentry_resumedIn (y : Block) : y.resumedIn.reentry = (y.reentry || y.preempt.isSome) := by
  unfold Block.resumedIn
  split <;> simp [*]

theorem State.spl_resumedIn (s : State) (b b' g k : Nat) : (s.modBlk b Block.resumedIn).spl b' g k = s.spl b' g k :=
  Table.proj_getD_modify (fun x : Block => (x.groups.getD g Group.empty).spl k) (fun y => by rw [y.groups_resumedIn]) ..

theorem State.grp_resumedIn (s : State) (b b' g : Nat) : (s.modBlk b Block.resumedIn).grp b' g = s.grp b' g :=
  Table.proj_getD_modify (fun x : Block => x.groups.getD g Group.empty) (fun y => by rw [y.groups_resumedIn]) ..

theorem State.seq_resumedIn (s : State) (b b' : Nat) : (s.modBlk b Block.resumedIn).seq b' = s.seq b' :=
  Table.proj_getD_modify (fun x : Block => x.seq.getD (Seq.launch 1 0)) (fun y => by rw [y.seq_resumedIn]) ..

theorem State.resumeBlock_of_in {s : State} {b : Nat} (u : ParkUnit) (h : (s.blk b).image = false) :
    s.resumeBlock b u = (s.resumeUnit b u).modBlk b Block.resumedIn := by
  rw [State.resumeBlock]
  simp only [h]
  rfl

theorem State.resumeBlock_of_out {s : State} {b : Nat} (u : ParkUnit) (h : (s.blk b).image = true) :
    s.resumeBlock b u = s.modBlk b fun y => ({ y with resumed := y.resumed ++ [u] }).enterWait s.now := by
  rw [State.resumeBlock]
  simp only [h]
  rfl

/-! ## A unit of a block that is in (15 R331) -/

/-- What RESUME makes of a parked split: one that a join timeout parked waits at its JOIN again, and counts anew (log 34). -/
def Split.resumed (y : Split) : Split :=
  if y.wait == .join then { y with parked := false, joinSince := none }
  else { y with parked := false, pc := (y.trap.map fun t => t.rpc).getD y.pc, wait := .ready, trap := if y.priv then y.trap else none }

/-- What RESUME makes of a parked comet context. -/
def Comet.resumed (y : Comet) : Comet :=
  { y with parked := false, pc := (y.trap.map fun t => t.rpc).getD y.pc, trap := none, wait := .ready }

theorem rpc_of_trap {x : Option TrapState} {y : TrapState} (h : x = some y) (pc : Dword) : (x.map fun t => t.rpc).getD pc = y.rpc := by
  subst h
  rfl

theorem State.resumeUnit_split (s : State) (b g k : Nat) : s.resumeUnit b (.split g k) = s.modSpl b g k Split.resumed := rfl

section
variable {s : State} {b : Nat}

theorem State.spl_resumeBlock {g k : Nat} (hi : (s.blk b).image = false) (hp : (s.spl b g k).parked = true) :
    (s.resumeBlock b (.split g k)).spl b g k = (s.spl b g k).resumed := by
  obtain ⟨hb, hg, hk⟩ := State.listed_of_parked hp
  rw [State.resumeBlock_of_in _ hi, State.spl_resumedIn, State.resumeUnit_split, State.spl_modSpl_self hb hg hk]

theorem State.reentry_resumeBlock_split {g k : Nat} (hi : (s.blk b).image = false) (hp : (s.spl b g k).parked = true) :
    ((s.resumeBlock b (.split g k)).blk b).reentry = ((s.blk b).reentry || (s.blk b).preempt.isSome) := by
  obtain ⟨hb, -, -⟩ := State.listed_of_parked hp
  have hself := s.blk_modBlk_self b (fun x => x.modGrp g fun y => y.modSpl k Split.resumed) hb
  rw [State.resumeBlock_of_in _ hi, State.resumeUnit_split, State.modSpl, State.modGrp,
    State.blk_modBlk_self _ _ _ (by simpa [State.modBlk] using hb), Block.reentry_resumedIn, hself]
  rfl

theorem Seq.fault_resumed (q : Seq) : ∀ e ∈ q.resumed.ports, e.2.fault = none := by
  intro e he
  obtain ⟨x, -, rfl⟩ := List.mem_map.mp he
  rfl

theorem State.seq_resumeUnit (hb : s.blocks.has b = true) {q : Seq} (hq : (s.blk b).seq = some q) :
    (s.resumeUnit b .seqr).seq b = (s.seq b).resumed := by
  rw [show (s.resumeUnit b .seqr).seq b = (s.modSeq b Seq.resumed).seq b from rfl]
  simp only [State.seq, State.blk_modSeq_self hb, hq, Option.map_some, Option.getD_some]

theorem State.ctx_resumeBlock {c : Nat} (hi : (s.blk b).image = false) (hc : s.comets.has c = true) (hb : (s.ctx c).blk = b)
    (hp : (s.ctx c).parked = true) : (s.resumeBlock b (.comet c)).ctx c = (s.ctx c).resumed := by
  have hunit : s.resumeUnit b (.comet c) = s.modCtx c Comet.resumed := by
    simp only [State.resumeUnit, hb, hp, beq_self_eq_true, Bool.and_self, if_true]
    rfl
  rw [State.resumeBlock_of_in _ hi, hunit]
  exact State.ctx_modCtx_self _ _ _ hc

/-! ## An engine operation (09 R219) -/

theorem State.eng_setEngReg (s : State) {b g : Nat} (hb : s.blocks.has b = true) (hg : (s.blk b).groups.has g = true) (n r r' : Nat)
    (v : Word) : (s.setEngReg b g n r v).engReg b g n r' = if r' = r then v else s.engReg b g n r' := by
  rw [State.engReg, State.setEngReg, State.grp_modGrp_self hb hg]
  by_cases h : r' = r
  · rw [h, if_pos rfl, Table.getD_set_self]
  · rw [if_neg h, Table.getD_set_other _ _ _ _ _ (by omega)]
    rfl

theorem State.listed_setEngReg (s : State) (b g n r : Nat) (v : Word) : (s.setEngReg b g n r v).blocks.has b = s.blocks.has b ∧
    (s.blocks.has b = true → ((s.setEngReg b g n r v).blk b).groups.has g = (s.blk b).groups.has g) := by
  refine ⟨Table.has_modify .., fun hb => ?_⟩
  rw [State.setEngReg, State.modGrp, s.blk_modBlk_self b _ hb]
  exact Table.has_modify ..

/-- The registers of an engine that report a fault. -/
theorem State.eng_setEngErr {g n c : Nat} {a : Dword} (hb : s.blocks.has b = true) (hg : (s.blk b).groups.has g = true)
    (hc : c < 256) : (s.setEngErr b g n c a).engCause b g n = c ∧ (s.setEngErr b g n c a).engErr b g n = a := by
  have hlist (t : State) (r : Nat) (v : Word) (h : t.blocks.has b = true ∧ (t.blk b).groups.has g = true) :
      (t.setEngReg b g n r v).blocks.has b = true ∧ ((t.setEngReg b g n r v).blk b).groups.has g = true :=
    ⟨(t.listed_setEngReg b g n r v).1.trans h.1, ((t.listed_setEngReg b g n r v).2 h.1).trans h.2⟩
  have h1 := hlist s (statusReg n) (BitVec.ofNat 32 (256 * c)) ⟨hb, hg⟩
  have h2 := hlist _ (statusReg n + 1) (lowWord a) h1
  have hreg (r : Nat) : (s.setEngErr b g n c a).engReg b g n r = if r = statusReg n + 2 then highWord a else
      if r = statusReg n + 1 then lowWord a else if r = statusReg n then BitVec.ofNat 32 (256 * c) else s.engReg b g n r := by
    simp only [State.setEngErr]
    rw [State.eng_setEngReg _ h2.1 h2.2, State.eng_setEngReg _ h1.1 h1.2, State.eng_setEngReg _ hb hg]
  refine ⟨?_, ?_⟩
  · rw [State.engCause, hreg, if_neg (by omega), if_neg (by omega), if_pos rfl, BitVec.toNat_ofNat]
    omega
  · rw [State.engErr, hreg, hreg, if_neg (by omega), if_pos rfl, if_pos rfl, pairVal_lowWord_highWord]

/-- An operation whose fault has been served. -/
def EngineOp.served (o : EngineOp) : EngineOp := { o with parked := false, fault := none }

theorem State.resumeUnit_engine_mended {id : Nat} {o : EngineOp} (ho : s.engines.find id = some o) :
    s.resumeUnit b (.engine id true) = { s with engines := s.engines.set id o.served } := by
  simp only [State.resumeUnit, ho, State.serveEngine]
  cases o.fault <;> rfl

theorem State.resumeUnit_engine_failed {id c : Nat} {a : Dword} {o : EngineOp} (ho : s.engines.find id = some o)
    (hf : o.fault = some (c, a)) (hctr : a.toNat ≠ regAddr o.regs (doneReg o.engine))
    (hloc : engLocal (regAddr o.regs (doneReg o.engine)) = false) :
    s.resumeUnit b (.engine id false) =
      { s.setEngErr b o.grp o.engine c a with engines := s.engines.set id { o.served with failed := true } } := by
  simp only [State.resumeUnit, ho, State.serveEngine, hf, hloc, beq_eq_false_iff_ne.mpr hctr]
  rfl

end

/-- RESUME of a unit of a block that is out. -/
theorem resumeBlock_out {s : State} {b : Nat} {x : Block} (u : ParkUnit) (hx : s.blocks.find b = some x) (hi : x.image = true) :
    ∃ y : Block, s.resumeBlock b u = { s with blocks := (s.resumeBlock b u).blocks } ∧ (s.resumeBlock b u).blocks.find b = some y ∧
      y.resumed = x.resumed ++ [u] ∧ y.reentry = (x.reentry || decide (x.phase = .swapped)) := by
  have hblk : s.blk b = x := Table.getD_of_find _ hx
  refine ⟨({ x with resumed := x.resumed ++ [u] } : Block).enterWait s.now, ?_, ?_, ?_, ?_⟩
  · rw [State.resumeBlock_of_out u (by rw [hblk, hi])]
    rfl
  · rw [State.resumeBlock_of_out u (by rw [hblk, hi]), State.modBlk, Table.find_modify_self, hx]
    rfl
  · unfold Block.enterWait
    split <;> rfl
  · unfold Block.enterWait
    split
    · next h => simp_all
    · next h =>
      rw [show (({ x with resumed := x.resumed ++ [u] } : Block)).reentry = x.reentry from rfl]
      cases hr : x.reentry with
      | true => rfl
      | false =>
        have hph : x.phase ≠ .swapped := by simpa [hr] using h
        simp [hph]

theorem exec_resume_cases (fn ctx b : Nat) (u : ParkUnit) (s : State) (x : Block) (h : s.parkedBlock fn ctx u = some b)
    (hx : s.blocks.find b = some x) :
    (x.image = true → ∃ (t : State) (y : Block), Sys2Proof.Machine.exec (.resume fn ctx u) s = .next t ∧
      t = { s with blocks := t.blocks } ∧ t.blocks.find b = some y ∧ y.resumed = x.resumed ++ [u] ∧
      y.reentry = (x.reentry || decide (x.phase = .swapped))) ∧
    (∀ g k, x.image = false → u = .split g k → (s.spl b g k).wait = .join → ∃ t : State,
      Sys2Proof.Machine.exec (.resume fn ctx u) s = .next t ∧ t.mem = s.mem ∧
      t.spl b g k = { s.spl b g k with parked := false, joinSince := none }) ∧
    (∀ g k, x.image = false → u = .split g k → (s.spl b g k).wait ≠ .join → ∃ t : State,
      Sys2Proof.Machine.exec (.resume fn ctx u) s = .next t ∧ t.mem = s.mem ∧ (t.spl b g k).parked = false ∧
      (t.spl b g k).wait = .ready ∧ (∀ y, (s.spl b g k).trap = some y → (t.spl b g k).pc = y.rpc) ∧
      (t.blk b).reentry = (x.reentry || x.preempt.isSome)) ∧
    (x.image = false → u = .seqr → ∃ t : State, Sys2Proof.Machine.exec (.resume fn ctx u) s = .next t ∧ t.mem = s.mem ∧
      (t.seq b).parked = false ∧ (t.seq b).pc = (s.seq b).pc ∧ ∀ e ∈ (t.seq b).ports, e.2.fault = none) ∧
    (∀ c, x.image = false → u = .comet c → s.comets.has c = true → (s.ctx c).blk = b → (s.ctx c).parked = true → ∃ t : State,
      Sys2Proof.Machine.exec (.resume fn ctx u) s = .next t ∧ t.mem = s.mem ∧ (t.ctx c).parked = false ∧
      (t.ctx c).wait = .ready ∧ ∀ y, (s.ctx c).trap = some y → (t.ctx c).pc = y.rpc) ∧
    (∀ id mended o, x.image = false → u = .engine id mended → s.engines.find id = some o →
      (mended = true → ∃ t : State, Sys2Proof.Machine.exec (.resume fn ctx u) s = .next t ∧ t.mem = s.mem ∧
        t.engines.find id = some { o with parked := false, fault := none }) ∧
      (∀ c a, mended = false → o.fault = some (c, a) → a.toNat ≠ regAddr o.regs (doneReg o.engine) →
        engLocal (regAddr o.regs (doneReg o.engine)) = false → x.groups.has o.grp = true → c < 256 → ∃ t : State,
        Sys2Proof.Machine.exec (.resume fn ctx u) s = .next t ∧ t.mem = s.mem ∧
        t.engines.find id = some { o with parked := false, fault := none, failed := true } ∧
        t.engCause b o.grp o.engine = c ∧ t.engErr b o.grp o.engine = a)) := by
  have hexec := exec_resume h
  have hmem := s.mem_resumeBlock b u
  have hblk : s.blk b = x := Table.getD_of_find _ hx
  have hb : s.blocks.has b = true := Table.has_of_find hx
  have hparked := State.unitParked_of_parkedBlock h
  simp only [State.unitParked, hblk] at hparked
  refine ⟨fun hi => ?_, ?_, ?_, ?_, ?_, ?_⟩
  · obtain ⟨y, hy⟩ := resumeBlock_out u hx hi
    exact ⟨_, y, hexec, hy⟩
  · rintro g k hi rfl hj
    have hp : (s.spl b g k).parked = true := by simpa [hi, State.spl, State.grp, hblk] using hparked
    refine ⟨_, hexec, hmem, ?_⟩
    rw [State.spl_resumeBlock (by rw [hblk, hi]) hp]
    exact if_pos (by rw [hj]; rfl)
  · rintro g k hi rfl hj
    have hp : (s.spl b g k).parked = true := by simpa [hi, State.spl, State.grp, hblk] using hparked
    have hr : (s.spl b g k).resumed = _ := if_neg (by simpa using hj)
    refine ⟨_, hexec, hmem, ?_⟩
    rw [State.spl_resumeBlock (by rw [hblk, hi]) hp, hr, State.reentry_resumeBlock_split (by rw [hblk, hi]) hp, hblk]
    exact ⟨rfl, rfl, fun y hy => rpc_of_trap hy _, rfl⟩
  · rintro hi rfl
    obtain ⟨q, hq⟩ : ∃ q, (s.blk b).seq = some q := by
      rw [hblk]
      cases hs : x.seq with
      | none => simp [hi, hs] at hparked
      | some q => exact ⟨q, rfl⟩
    refine ⟨_, hexec, hmem, ?_⟩
    rw [State.resumeBlock_of_in _ (by rw [hblk, hi]), State.seq_resumedIn, State.seq_resumeUnit hb hq]
    exact ⟨rfl, rfl, (s.seq b).fault_resumed⟩
  · rintro c hi rfl hc hcb hp
    refine ⟨_, hexec, hmem, ?_⟩
    rw [State.ctx_resumeBlock (by rw [hblk, hi]) hc hcb hp]
    exact ⟨rfl, rfl, fun y hy => rpc_of_trap hy _⟩
  · rintro id mended o hi rfl ho
    have hin := State.resumeBlock_of_in (s := s) (b := b) (.engine id mended) (by rw [hblk, hi])
    refine ⟨?_, ?_⟩
    · rintro rfl
      refine ⟨_, hexec, hmem, ?_⟩
      rw [hin, State.resumeUnit_engine_mended ho]
      exact Table.find_set_self ..
    · rintro c a rfl hf hctr hloc hg hc
      obtain ⟨hcause, herr⟩ := State.eng_setEngErr (n := o.engine) (a := a) hb (hblk ▸ hg) hc
      refine ⟨_, hexec, hmem, ?_⟩
      rw [hin, State.resumeUnit_engine_failed ho hf hctr hloc]
      refine ⟨Table.find_set_self .., ?_, ?_⟩
      · refine Eq.trans ?_ hcause
        simp only [State.engCause, State.engReg, State.grp_resumedIn]
        rfl
      · refine Eq.trans ?_ herr
        simp only [State.engErr, State.engReg, State.grp_resumedIn]
        rfl

end Sys2Proof.Machine

end


section

namespace Sys2Proof.Machine

set_option linter.constructorNameAsVariable false

/-! ## What the writes of a block leave alone -/

/-- The clock and the park records that wait. -/
def State.ledger (s : State) : Nat × List ParkRec := (s.now, s.parks)

theorem State.ledger_of_aside {s t : State} (h : t.aside = s.aside) : t.ledger = s.ledger := (congrArg State.ledger h :)

@[simp] theorem State.ledger_dropWords (s : State) (p : Nat → Bool) (ws : List Nat) : (s.dropWords p ws).ledger = s.ledger := rfl
@[simp] theorem State.ledger_dropCache (s : State) (c : Nat) : (s.dropCache c).ledger = s.ledger := rfl
@[simp] theorem State.ledger_noteFrame (s : State) (vf f : Nat) : (s.noteFrame vf f).ledger = s.ledger := rfl
@[simp] theorem State.ledger_modFacet (s : State) (f : Nat) (h : Facet → Facet) : (s.modFacet f h).ledger = s.ledger := rfl
@[simp] theorem State.ledger_commitShared (s : State) (home : Nat) (cs : List Host.Cell) :
    (s.commitShared home cs).ledger = s.ledger := rfl
@[simp] theorem State.ledger_freeCells (s : State) (cs : List Host.Cell) : (s.freeCells cs).2.ledger = s.ledger := rfl
@[simp] theorem State.ledger_dropUnits (s : State) (b : Nat) : (s.dropUnits b).ledger = s.ledger := rfl

@[simp] theorem State.ledger_revoke (s : State) (keep : Option Nat) (ws : List Nat) : (s.revoke keep ws).ledger = s.ledger :=
  State.ledger_of_aside (s.aside_revoke keep ws)

@[simp] theorem State.ledger_fireMonitors (s : State) (cs : List Host.Cell) : (s.fireMonitors cs).ledger = s.ledger :=
  State.ledger_of_aside (s.aside_fireMonitors cs)

@[simp] theorem State.ledger_markUsed (s : State) (used : List Nat) : (s.markUsed used).ledger = s.ledger :=
  State.ledger_of_aside (s.aside_markUsed used)

@[simp] theorem State.ledger_setDirty (s : State) (e : TlbEntry) : (s.setDirty e).ledger = s.ledger :=
  State.ledger_of_aside (s.aside_setDirty e)

@[simp] theorem State.ledger_dropCopies (s : State) (c key n : Nat) : (s.dropCopies c key n).ledger = s.ledger := by
  unfold State.dropCopies
  split <;> rfl

@[simp] theorem State.ledger_dropOthers (s : State) (th : Thread) (used : Option Nat) (ws : List Nat) :
    (s.dropOthers th used ws).ledger = s.ledger := by
  unfold State.dropOthers
  split <;> rfl

@[simp] theorem State.ledger_evictEntry (s : State) (die : Nat) : (s.evictEntry die).ledger = s.ledger := by
  unfold State.evictEntry
  dsimp only
  repeat' split
  all_goals simp

@[simp] theorem State.ledger_trimLane (s : State) (c line : Nat) : (s.trimLane c line).ledger = s.ledger := by
  unfold State.trimLane
  split
  · rfl
  · dsimp only
    split
    · rfl
    · split
      · exact State.ledger_revoke ..
      · rfl

@[simp] theorem State.ledger_ownWords (s : State) (c : Nat) (st : Option Nat) (ws : List Nat) :
    (s.ownWords c st ws).ledger = s.ledger :=
  State.foldl_keeps State.ledger _ (fun t w => by exact t.ledger_dropCopies c (16 * (w / 4)) 16) ws s

@[simp] theorem State.ledger_putHome (s : State) (cs : List Host.Cell) (o : Option (Nat × Option Nat)) :
    (s.putHome cs o).ledger = s.ledger := by
  cases o with
  | none => exact s.ledger_revoke none (cellWords cs)
  | some p =>
    refine (State.foldl_keeps State.ledger _ (fun t n => ?_) _ _).trans ?_
    · rw [State.ledger_trimLane, State.ledger_evictEntry]
    · exact (State.ledger_ownWords ..).trans (s.ledger_revoke (some p.1) (cellWords cs))

theorem State.ledger_armObjects (s : State) (cs : List Host.Cell) (vf : Nat) : (s.armObjects cs vf).ledger = s.ledger :=
  (congrArg State.ledger (s.aside_armObjects cs vf) :)

/-- A write of global memory leaves the clock and the park records. -/
@[simp] theorem State.ledger_commit (s : State) (cs : List Host.Cell) (o : Option (Nat × Option Nat)) (vf : Nat) (f : Fill) :
    (s.commit cs o vf f).ledger = s.ledger := by
  unfold State.commit
  dsimp only
  rw [State.ledger_fireMonitors, State.ledger_armObjects,
    State.foldl_keeps State.ledger _ fun t l => State.ledger_of_aside (t.aside_fillSlice ..), State.ledger_putHome]

@[simp] theorem State.ledger_touchStash (s : State) (c key : Nat) : (s.touchStash c key).ledger = s.ledger := by
  unfold State.touchStash
  dsimp only
  split
  · rfl
  · exact State.ledger_trimLane ..

@[simp] theorem State.ledger_performGlobal (s : State) (t : StoreOp) : (s.performGlobal t).ledger = s.ledger := by
  unfold State.performGlobal
  dsimp only
  repeat' split
  all_goals simp

@[simp] theorem State.ledger_performStore (s : State) (id : Nat) (t : StoreOp) : (s.performStore id t).ledger = s.ledger := by
  unfold State.performStore
  cases t.shared with
  | some home => rfl
  | none => exact s.ledger_performGlobal t

@[simp] theorem State.ledger_applyAtomic (s : State) (id : Nat) (o : LaneOp) (f : AtomFn) (ps : List (Nat × Access)) :
    (s.applyAtomic id o f ps).ledger = s.ledger := by
  unfold State.applyAtomic
  split
  · rfl
  · dsimp only
    refine (State.foldl_keeps State.ledger _ (fun t x => by exact State.ledger_dropOthers ..) _ _).trans ?_
    split <;> simp

@[simp] theorem State.ledger_writeCells (s : State) (cs : List Host.Cell) (vf : Nat) : (s.writeCells cs vf).ledger = s.ledger := by
  have hloc := State.foldl_keeps State.ledger (fun (t : State) (c : Host.Cell) => t.commitShared (sharedHome c.1) [c])
    (fun _ _ => rfl) (cs.filter fun c => isShared c.1) s
  unfold State.writeCells
  dsimp only
  split
  · exact hloc
  · exact (State.ledger_commit ..).trans hloc

@[simp] theorem State.ledger_looseStore (s : State) (id : Nat) (x : StoreOp) : (s.looseStore id x).ledger = s.ledger :=
  State.ledger_performStore ..

@[simp] theorem State.ledger_looseAtomic (s : State) (id : Nat) (o : LaneOp) : (s.looseAtomic id o).ledger = s.ledger := by
  unfold State.looseAtomic
  split
  · rfl
  · refine State.foldl_keeps State.ledger _ (fun t p => ?_) _ s
    dsimp only
    split
    · exact State.ledger_applyAtomic ..
    · rfl

@[simp] theorem State.ledger_loosePushes (s : State) (b : Nat) : (s.loosePushes b).ledger = s.ledger :=
  State.ledger_writeCells ..

@[simp] theorem State.ledger_looseAll (s : State) (b : Nat) : (s.looseAll b).ledger = s.ledger := by
  unfold State.looseAll
  dsimp only
  rw [apply_ite State.ledger, State.ledger_loosePushes, ite_self,
    State.foldl_keeps State.ledger _ fun t (e : Nat × LaneOp) => t.ledger_looseAtomic e.1 e.2,
    State.foldl_keeps State.ledger _ fun t (e : Nat × StoreOp) => t.ledger_looseStore e.1 e.2]

@[simp] theorem State.ledger_dirtyStash (s : State) (b : Nat) (win : Nat → Bool) : (s.dirtyStash b win).ledger = s.ledger := by
  refine State.foldl_keeps State.ledger _ (fun t e => ?_) _ s
  split
  · rfl
  · refine State.foldl_keeps State.ledger _ (fun u i => ?_) _ t
    dsimp only
    repeat' split
    all_goals simp

@[simp] theorem State.ledger_drainStash (s : State) (b : Nat) : (s.drainStash b).ledger = s.ledger := by
  simp [State.drainStash]

@[simp] theorem State.ledger_endAcc (s : State) (b : Nat) : (s.endAcc b).ledger = s.ledger := by
  unfold State.endAcc
  dsimp only
  repeat' split
  all_goals rfl

@[simp] theorem State.ledger_putQueue (s : State) (q : Queue) (off v : Nat) : (s.putQueue q off v).ledger = s.ledger :=
  State.ledger_commit ..

@[simp] theorem State.ledger_freeRecords (s : State) (x : Block) (aborted : Bool) : (s.freeRecords x aborted).ledger = s.ledger := by
  unfold State.freeRecords
  split
  · rfl
  · have hset (t : State) (T : Table Queue) : State.ledger { t with queues := T } = t.ledger := rfl
    dsimp only
    cases aborted <;> split <;> simp [hset]

@[simp] theorem State.ledger_removeBlock (s : State) (b : Nat) : (s.removeBlock b).ledger = s.ledger := by
  unfold State.removeBlock
  dsimp only
  repeat' split
  all_goals rfl

/-- The end of a block leaves the clock and the park records. -/
@[simp] theorem State.ledger_finishBlock (s : State) (b : Nat) (aborted counts : Bool) :
    (s.finishBlock b aborted counts).ledger = s.ledger := by
  unfold State.finishBlock
  dsimp only
  rw [State.ledger_removeBlock]
  split <;> simp

/-! ## Nothing of a block is left (15 R331) -/

/-- No operation, store, engine operation, comet context or monitor of a block is left. -/
def State.unitsGone (t : State) (b : Nat) : Prop :=
  (∀ e ∈ t.ops, e.2.blk ≠ b) ∧ (∀ e ∈ t.stores, e.2.blk ≠ b) ∧ (∀ e ∈ t.engines, e.2.blk ≠ b) ∧
    (∀ e ∈ t.comets, e.2.blk ≠ b) ∧ ∀ e ∈ t.monitors, e.2.blk ≠ b

theorem Table.forall_keep {α : Type} (t : Table α) (p : α → Nat) (b : Nat) : ∀ e ∈ t.keep fun _ v => p v != b, p e.2 ≠ b := by
  intro e he
  simpa using (List.mem_filter.mp he).2

theorem State.unitsGone_dropUnits (s : State) (b : Nat) : (s.dropUnits b).unitsGone b :=
  ⟨Table.forall_keep s.ops LaneOp.blk b, Table.forall_keep s.stores StoreOp.blk b, Table.forall_keep s.engines EngineOp.blk b,
    Table.forall_keep s.comets Comet.blk b, Table.forall_keep s.monitors Monitor.blk b⟩

theorem State.blk_fireMonitors {s : State} {cs : List Host.Cell} {e : Nat × Monitor} (h : e ∈ (s.fireMonitors cs).monitors) :
    ∃ m ∈ s.monitors, m.2.blk = e.2.blk := by
  obtain ⟨m, hm, rfl⟩ := List.mem_map.mp h
  refine ⟨m, hm, ?_⟩
  dsimp only
  split <;> rfl

/-- A write of the part to memory adds no monitor. -/
theorem State.blk_commit {s : State} {cs : List Host.Cell} {vf : Nat} {f : Fill} {e : Nat × Monitor}
    (h : e ∈ (s.commit cs none vf f).monitors) : ∃ m ∈ s.monitors, m.2.blk = e.2.blk := by
  have hput : (s.putHome cs none).monitors = s.monitors := by
    refine State.foldl_keeps State.monitors _ (fun t w => ?_) (cellWords cs) s
    repeat' split
    all_goals rfl
  have hfill (t : State) (l : Nat) : (t.fillSlice vf f (Option.isSome (none : Option (Nat × Option Nat))) l).monitors = t.monitors := by
    cases f
    all_goals
      unfold State.fillSlice State.touchLine
      dsimp only
      repeat' split
      all_goals rfl
  have harm (t : State) : (t.armObjects cs vf).monitors = t.monitors := by
    refine State.foldl_keeps State.monitors _ (fun u c => ?_) _ t
    dsimp only
    repeat' split
    all_goals rfl
  have hall := (harm _).trans ((State.foldl_keeps State.monitors _ hfill (dedupN (cs.map fun c => c.1 / 128 * 128)) _).trans hput)
  rw [← hall]
  exact State.blk_fireMonitors h

theorem State.unitsGone_putQueue {s : State} {b : Nat} (h : s.unitsGone b) (q : Queue) (off v : Nat) :
    (s.putQueue q off v).unitsGone b := by
  obtain ⟨hops, hstores, hengines, hcomets, hmons⟩ := h
  have haside := s.aside_putQueue q off v
  have eops : (s.putQueue q off v).ops = s.ops := (congrArg State.ops haside :)
  have estores : (s.putQueue q off v).stores = s.stores := (congrArg State.stores haside :)
  have eengines : (s.putQueue q off v).engines = s.engines := (congrArg State.engines haside :)
  have ecomets : (s.putQueue q off v).comets = s.comets := (congrArg State.comets haside :)
  refine ⟨by rwa [eops], by rwa [estores], by rwa [eengines], by rwa [ecomets], ?_⟩
  · intro e he
    obtain ⟨m, hm, hb⟩ := State.blk_commit he
    exact hb ▸ hmons m hm

theorem State.unitsGone_freeRecords {s : State} {b : Nat} (h : s.unitsGone b) (x : Block) (aborted : Bool) :
    (s.freeRecords x aborted).unitsGone b := by
  have hset {t : State} (ht : t.unitsGone b) (T : Table Queue) : State.unitsGone { t with queues := T } b := ht
  unfold State.freeRecords
  split
  · exact h
  · next q _ =>
    dsimp only
    have hcounted : (if aborted = true then s.putQueue q 72 (s.mem.read (q.key + 72) 8 + 1) else s).unitsGone b := by
      split
      · exact State.unitsGone_putQueue h ..
      · exact h
    generalize (if aborted = true then s.putQueue q 72 (s.mem.read (q.key + 72) 8 + 1) else s) = u at hcounted
    have hended := hset (State.unitsGone_putQueue hcounted q 56 (u.mem.read (q.key + 56) 8 + 1))
    split
    · exact hended _
    · exact State.unitsGone_putQueue (hended _) ..

theorem State.gone_removeBlock {s : State} {b : Nat} (h : s.unitsGone b) : (s.removeBlock b).gone b := by
  have hb : (s.blocks.erase b).find b = none := Table.find_erase_self ..
  unfold State.removeBlock
  dsimp only
  repeat' split
  all_goals exact ⟨hb, h⟩

/-- Nothing of a block that has ended is left. -/
theorem State.gone_finishBlock (s : State) (b : Nat) (aborted counts : Bool) : (s.finishBlock b aborted counts).gone b := by
  refine State.gone_removeBlock ?_
  split
  · exact State.unitsGone_freeRecords (State.unitsGone_dropUnits ..) ..
  · exact State.unitsGone_dropUnits ..

end Sys2Proof.Machine

end


section

namespace Sys2Proof.Machine

set_option linter.constructorNameAsVariable false

/-! ## The bank of an image leaves the sequencer (13 R292) -/

theorem Block.foldl_keeps {α β : Type} (p : Block → β) (f : Block → α → Block) (h : ∀ y a, p (f y a) = p y) (l : List α) (x : Block) :
    p (l.foldl f x) = p x := by
  induction l generalizing x with
  | nil => rfl
  | cons a l ih => exact (ih (f x a)).trans (h x a)

theorem Block.seq_zeroBank (x : Block) : x.zeroBank.seq = x.seq := Block.foldl_keeps Block.seq _ (fun _ _ => by rfl) x.bankHandles x

theorem Block.seq_putTile (x : Block) (t : Nat) (ws : List Word) : (x.putTile t ws).seq = x.seq :=
  Block.foldl_keeps Block.seq _ (fun _ _ => by rfl) _ x

theorem Block.seq_fillBank (x : Block) (ts : List (Nat × TileState × List Word)) : (x.fillBank ts).seq = x.seq :=
  (Block.foldl_keeps Block.seq _ (fun y t => by exact (Block.seq_putTile ..).trans rfl) ts x.zeroBank).trans x.seq_zeroBank

theorem State.blk_seq_loadBank (s : State) (f : Nat → Nat) (b b' : Nat) : ((s.loadBank f b).blk b').seq = (s.blk b').seq := by
  refine Table.proj_getD_modify Block.seq (fun x => ?_) ..
  split
  · exact x.seq_zeroBank
  · exact x.seq_fillBank _

/-! ## The service of a first use (13 R282-R284) -/

section
variable {s : State} {b : Nat} {x : Block} (hx : s.blocks.find b = some x)
include hx

/-- A block that stands at a first use is resident, and has a parked sequencer. -/
theorem State.of_firstUse (h : s.firstUse b = true) : x.phase = .resident ∧ (∃ q, x.seq = some q) ∧ s.firstUseOut b = false := by
  have hblk : s.blk b = x := Table.getD_of_find _ hx
  simp only [State.firstUse, hblk, Bool.and_eq_true, beq_iff_eq, Option.isNone_iff_eq_none] at h
  obtain ⟨⟨hphase, hpre⟩, hq⟩ := h
  refine ⟨hphase, ?_, ?_⟩
  · cases hs : x.seq with
    | none => simp [hs] at hq
    | some q => exact ⟨q, rfl⟩
  · cases hi : x.image <;> simp [State.firstUseOut, hblk, hi, hphase, hpre]

variable (hboot : s.bootst = 0x80)
include hboot

omit hx in
theorem exec_accFirstUseService_out (h : s.firstUseOut b = true) :
    Sys2Proof.Machine.exec (.accFirstUseService b) s = .next (s.resumeBlock b .seqr) := by
  rw [show Sys2Proof.Machine.exec (.accFirstUseService b) s = execAccFirstUseService b s from rfl, execAccFirstUseService]
  simp [hboot, h]

variable (h : s.firstUse b = true) (hacc : (s.facet x.facet).accV = false)
include h hacc

/-- The service where no other context's accumulators are held: the block's image decides. -/
theorem exec_accFirstUseService : Sys2Proof.Machine.exec (.accFirstUseService b) s = .next (
    if s.loadOk (s.imageFn b) b (s.tagOf x.part) then
      (((s.touchImage b).loadBank (s.imageFn b) b).writeAcc b x.facet (BitVec.ofNat 32 (2 ^ 31 + x.ctx % 2 ^ 16))).resumeUnit b .seqr
    else s.rejectImage b) := by
  have hblk : s.blk b = x := Table.getD_of_find _ hx
  obtain ⟨-, -, hout⟩ := State.of_firstUse hx h
  rw [show Sys2Proof.Machine.exec (.accFirstUseService b) s = execAccFirstUseService b s from rfl, execAccFirstUseService]
  simp only [hblk, hboot, hout, h, hacc, bne_self_eq_false, Bool.false_eq_true, if_false, Bool.not_true, Table.has_of_find hx]
  cases s.loadOk (s.imageFn b) b (s.tagOf x.part) <;> rfl

theorem firstUse_served (hok : s.loadOk (s.imageFn b) b (s.tagOf x.part) = true) : ∃ t : State,
    Sys2Proof.Machine.exec (.accFirstUseService b) s = .next t ∧ t.mem = (s.touchImage b).mem ∧
    (t.facet x.facet).accown = BitVec.ofNat 32 (2 ^ 31 + x.ctx % 2 ^ 16) ∧ (t.seq b).parked = false ∧
    (t.seq b).pc = (s.seq b).pc := by
  obtain ⟨-, ⟨q, hq⟩, -⟩ := State.of_firstUse hx h
  have htouch : (s.touchImage b).blocks = s.blocks := (congrArg State.blocks (s.aside_touchCtx b _ _ false) :)
  obtain ⟨F, T, hw, hown, -⟩ := ((s.touchImage b).loadBank (s.imageFn b) b).writeAcc_eq b x.facet
    (BitVec.ofNat 32 (2 ^ 31 + x.ctx % 2 ^ 16))
  have hexec := exec_accFirstUseService hx hboot h hacc
  rw [if_pos hok] at hexec
  generalize ((s.touchImage b).loadBank (s.imageFn b) b).writeAcc b x.facet (BitVec.ofNat 32 (2 ^ 31 + x.ctx % 2 ^ 16)) = w at *
  have hblocks : w.blocks = ((s.touchImage b).loadBank (s.imageFn b) b).blocks := (congrArg State.blocks hw :)
  have hb : w.blocks.has b = true := by
    rw [hblocks, State.loadBank, State.modBlk, Table.has_modify, htouch]
    exact Table.has_of_find hx
  have hwseq : (w.blk b).seq = (s.blk b).seq := by
    rw [State.blk, hblocks, ← State.blk, State.blk_seq_loadBank, State.blk, htouch, State.blk]
  have hblk : (s.blk b).seq = some q := by rw [← hq, State.blk, Table.getD_of_find _ hx]
  have hseq := State.seq_resumeUnit hb (hwseq.trans hblk)
  refine ⟨_, hexec, ?_, ?_, by rw [hseq]; rfl, ?_⟩
  · rw [State.mem_resumeUnit, hw]
    rfl
  · have hkeep : ((w.resumeUnit b .seqr).facet x.facet).accown = (w.facet x.facet).accown := by
      by_cases he : x.facet = (w.blk b).facet
      · simp only [State.resumeUnit, State.facet, State.modFacet, he, Table.getD_set_self]
        rfl
      · simp only [State.resumeUnit, State.facet, State.modFacet, Table.getD_set_other _ _ _ _ _ he]
        rfl
    rw [hkeep, hown]
  · rw [hseq, State.seq, State.seq, hwseq]
    rfl

theorem firstUse_rejected (hok : s.loadOk (s.imageFn b) b (s.tagOf x.part) = false) : ∃ (t : State) (r : ParkRec),
    Sys2Proof.Machine.exec (.accFirstUseService b) s = .next t ∧ t.gone b ∧ t.parks = s.parks ++ [r] ∧ r.kind = 3 ∧
    r.ctx = x.ctx ∧ r.part = x.part ∧ r.facet = x.facet := by
  have hblk : s.blk b = x := Table.getD_of_find _ hx
  obtain ⟨hphase, -, -⟩ := State.of_firstUse hx h
  have hexec := exec_accFirstUseService hx hboot h hacc
  rw [if_neg (by simp [hok])] at hexec
  refine ⟨_, _, hexec, State.gone_finishBlock .., congrArg Prod.snd (State.ledger_finishBlock ..), ?_⟩
  rw [hblk, hphase]
  exact ⟨rfl, rfl, rfl, rfl⟩

end

theorem firstUse_resumed {s : State} {b : Nat} {x : Block} (hx : s.blocks.find b = some x) (h : s.firstUseOut b = true)
    (hboot : s.bootst = 0x80) : ∃ t : State,
    Sys2Proof.Machine.exec (.accFirstUseService b) s = .next t ∧ t.mem = s.mem ∧ (t.blk b).reentry = true ∧
    (x.image = true → t = { s with blocks := t.blocks } ∧ ParkUnit.seqr ∈ (t.blk b).resumed) ∧
    (x.image = false → (t.seq b).parked = false ∧ (t.seq b).pc = (s.seq b).pc) := by
  have hblk : s.blk b = x := Table.getD_of_find _ hx
  have hb : s.blocks.has b = true := Table.has_of_find hx
  have hexec := exec_accFirstUseService_out hboot h
  simp only [State.firstUseOut, hblk] at h
  cases hi : x.image with
  | true =>
    obtain ⟨y, hother, hy, hresumed, hreentry⟩ := resumeBlock_out .seqr hx hi
    have hyb : (s.resumeBlock b .seqr).blk b = y := Table.getD_of_find _ hy
    have hphase : x.phase = .swapped := by
      simp only [hi, if_true, Bool.and_eq_true, beq_iff_eq] at h
      exact h.1.1
    refine ⟨_, hexec, State.mem_resumeBlock .., ?_, fun _ => ⟨hother, ?_⟩, fun hf => absurd hf (by simp)⟩
    · rw [hyb, hreentry, hphase]
      simp
    · rw [hyb, hresumed]
      simp
  | false =>
    simp only [hi, Bool.false_eq_true, if_false, Bool.and_eq_true] at h
    obtain ⟨hpre, hq⟩ := h
    obtain ⟨q, hseq⟩ : ∃ q, (s.blk b).seq = some q := by
      rw [hblk]
      cases hs : x.seq with
      | none => simp [hs] at hq
      | some q => exact ⟨q, rfl⟩
    have hin := State.resumeBlock_of_in (s := s) (b := b) .seqr (by rw [hblk, hi])
    refine ⟨_, hexec, State.mem_resumeBlock .., ?_, fun hf => absurd hf (by simp), fun _ => ?_⟩
    · have hself : ((s.modSeq b Seq.resumed).blk b).preempt = x.preempt := by
        rw [State.blk_modSeq_self hb, hblk]
      rw [hin, State.blk_modBlk_self _ _ _ (by exact (Table.has_modify ..).trans hb), Block.reentry_resumedIn]
      refine (congrArg (_ || ·) ((congrArg Option.isSome hself).trans hpre)).trans (Bool.or_true _)
    · rw [hin, State.seq_resumedIn, State.seq_resumeUnit hb hseq]
      exact ⟨rfl, rfl⟩

/-- Settles O54: a park record is appended by one write of PF0; RESUME changes the unit it names; the service of a first use loads the
bank or ends the block. -/
theorem parksAndResume : Obligations.ParksAndResume := by
  unfold Obligations.ParksAndResume
  refine ⟨⟨fun p s u r hr h0 hroom hu => parkRecord_appends hr h0 hroom hu, exec_resume_cases⟩, ?_, ?_, ?_⟩
  · rintro b f s x hx rfl h hboot hacc hok
    exact firstUse_served hx hboot h hacc hok
  · intro b s x hx h hboot hacc hok
    exact firstUse_rejected hx hboot h hacc hok
  · intro b s x hx h hboot
    exact firstUse_resumed hx h hboot

end Sys2Proof.Machine

end


/-!
PROOFS. Branches of a split that do not diverge, of an ejected lane, and to a bad target (spec/06_lane_control.md R140-R143; 14 R301).
-/

section

namespace Sys2Proof.Machine

set_option linter.constructorNameAsVariable false

/-! ## The branches of a split whose lanes agree (06 R140) -/

/-- A change of the PC and the wait of the split in focus keeps the frame. -/
theorem RegsOnly.modSpl {ls D U P : List Nat} {s t : State} {b g k : Nat} (h : RegsOnly ls D U P s t) (hf : s.focus = .split b g k)
    (ht : t.issuing = true) {f : Split → Split} (he : ∀ y, f y = { y with pc := (f y).pc, wait := (f y).wait }) :
    RegsOnly ls D U P s (t.modSpl b g k f) := by
  unfold RegsOnly at h ⊢
  simp only [hf] at h ⊢
  obtain ⟨hrest, hblks, hblk, hbad, hv, hgrps, hgrp, hu, hp, hspls, hspl⟩ := h
  have hft : t.focus = .split b g k := by rw [hrest]
  obtain ⟨hb, hg, hk⟩ := State.listed_of_issuing hft ht
  have hnew : (t.modSpl b g k f).blk b = (t.blk b).modGrp g fun x => x.modSpl k f := t.blk_modBlk_self b _ hb
  have hnewg : (t.modSpl b g k f).grp b g = (t.grp b g).modSpl k f := State.grp_modGrp_self hb hg _
  have hnews : (t.modSpl b g k f).spl b g k = f (t.spl b g k) := State.spl_modSpl_self hb hg hk _
  refine ⟨?_, fun b' hb' => ?_, ?_, ?_, ?_, fun g' hg' => ?_, ?_, ?_, ?_, fun k' hk' => ?_, ?_⟩
  · exact congrArg (fun u : State => { u with blocks := (t.modSpl b g k f).blocks }) hrest
  · rw [← hblks b' hb']
    exact Table.find_modify_other _ _ _ _ hb'
  · rw [hnew]
    exact congrArg (·.modGrp g fun x => x.modSpl k f) hblk
  · rw [hnew]; exact hbad
  · rw [hnew]; exact hv
  · rw [hnew, ← hgrps g' hg']
    exact Table.find_modify_other _ _ _ _ hg'
  · rw [hnewg]
    exact congrArg (·.modSpl k f) hgrp
  · rw [hnewg]; exact hu
  · rw [hnewg]; exact hp
  · rw [hnewg, ← hspls k' hk']
    exact Table.find_modify_other _ _ _ _ hk'
  · rw [hnews, he]
    exact congrArg (fun y : Split => { y with pc := (f (t.spl b g k)).pc, wait := (f (t.spl b g k)).wait }) hspl

/-- A split that goes on at a PC. -/
def Split.goTo (pc : Dword) (x : Split) : Split := { x with pc := pc }

/-- A branch of a split whose lanes agree sets its PC. -/
theorem State.branch_of_agree {u s : State} {b g k : Nat} {next : Nat → Dword} {p : Dword × Mask}
    (hp : pathsOf next (lanesOf (s.spl b g k).am) = [p]) (htop : u.topPath b g k = false) :
    u.branch s b g k next = u.modSpl b g k (Split.goTo p.1) := by
  have htop' : (u.modSpl b g k (Split.goTo p.1)).topPath b g k = false :=
    (State.topPath_modSpl (f := Split.goTo p.1) (fun _ => rfl) fun _ => rfl).trans htop
  simp only [State.branch, hp]
  rw [show (u.modSpl b g k fun x => { x with pc := p.1 }) = u.modSpl b g k (Split.goTo p.1) from rfl, htop', Bool.and_false,
    if_neg Bool.false_ne_true]

/-- Lanes that all go to one PC are one path. -/
theorem isPaths_single {next : Nat → Dword} {m : Mask} {p : Dword} (h0 : m ≠ 0) (h : ∀ l, hasLane m l = true → next l = p) :
    IsPaths next (lanesOf m) [(p, m)] := by
  refine ⟨fun q hq => ?_, fun l hl => ⟨(p, m), List.mem_cons_self, (mem_lanesOf _ l).mp hl⟩, List.pairwise_singleton ..⟩
  obtain rfl := List.mem_singleton.mp hq
  refine ⟨h0, fun l => ?_⟩
  rw [mem_lanesOf]
  exact ⟨fun hl => ⟨hl, h l hl⟩, And.left⟩

theorem minusLanes_self (m : Mask) : minusLanes m m = 0 := by simp [minusLanes]

theorem laneCount_zero : laneCount 0 = 0 := by decide

theorem minusLanes_zero (m : Mask) : minusLanes m 0 = m := by
  refine mask_ext fun l => ?_
  rw [hasLane_minusLanes, show hasLane 0 l = false from hasLane_zero l, Bool.not_false, Bool.and_true]

theorem minority_of_empty {m n : Mask} (p q : Dword) (h : laneCount m = 0 ∨ laneCount n = 0) : minority m n p q = none := by
  rw [minority]
  exact if_pos (h.imp_right .inl)

section
variable {g : Pred} {s : State} {b gr k : Nat} (hf : s.focus = .split b gr k)
include hf

theorem exec_braEj_split {n : BitVec 2} {ofs : BitVec 20} (hm : s.mayIssue (.braEj g n ofs) g = true) :
    Sys2Proof.Machine.exec (.braEj g n ofs) s = .next (s.braEjSplit b gr k n.toNat (s.exec g) (s.target ofs)) := by
  rw [show Sys2Proof.Machine.exec (.braEj g n ofs) s = execBraEj g n ofs s from rfl, execBraEj, laneRun_of_mayIssue hm, hf]

/-- A branch of a split whose guard is true in all of its lanes or in none, BRA.EJ among them, moves the lanes to their next PCs. -/
theorem exec_branch_of_agree {i : Instr} (hm : s.mayIssue i g = true) {l : Nat} {d : Dword} (ht : s.branchTo l i = some (g, d))
    (hgood : indirectBranch i = true → ∀ l ∈ s.execs g, targetBad (s.laneTarget i l) = false)
    (hall : s.exec g = s.lanes ∨ s.exec g = 0) :
    Sys2Proof.Machine.exec i s = .next ((s.linked i g).branch s b gr k (s.choose (s.exec g) (s.laneTarget i))) := by
  by_cases hej : ∃ h n o, i = .braEj h n o
  · obtain ⟨h, n, o, rfl⟩ := hej
    cases ht
    have hempty : minority (s.exec g) (minusLanes s.lanes (s.exec g)) (s.target o) s.nextPc = none := by
      refine minority_of_empty _ _ ?_
      rcases hall with h | h
      · rw [h, minusLanes_self]
        exact .inr laneCount_zero
      · rw [h]
        exact .inl laneCount_zero
    rw [exec_braEj_split hf hm, State.braEjSplit, hempty]
    dsimp only
    rw [State.jump_of_split hf]
    rfl
  · exact exec_branch hf hm (fun h n o he => hej ⟨h, n, o, he⟩) ht hgood

end

/-- What a call leaves of the split in focus. -/
theorem State.topPath_linked (s : State) (i : Instr) (g : Pred) (b gr k : Nat) :
    (s.linked i g).topPath b gr k = s.topPath b gr k := by
  refine s.linked_keeps (fun t => t.topPath b gr k) (fun t m l v => State.topPath_congr ?_) i g
  unfold State.wrV
  split
  · next b' g' k' _ =>
    have hblk (f : Block → Block) (hv : ∀ x, (f x).vf = x.vf) (hgr : ∀ x, (f x).groups = x.groups)
        (harea : ∀ x, (f x).saveArea gr k = x.saveArea gr k) : (t.modBlk b' f).fullStack b gr k = t.fullStack b gr k := by
      have hvf : ((t.modBlk b' f).blk b).vf = (t.blk b).vf := Table.proj_getD_modify Block.vf hv
      have hs : (t.modBlk b' f).spl b gr k = t.spl b gr k :=
        Table.proj_getD_modify (fun x : Block => (x.groups.getD gr Group.empty).spl k) fun x => by rw [hgr]
      have ha : ((t.modBlk b' f).blk b).saveArea gr k = (t.blk b).saveArea gr k :=
        Table.proj_getD_modify (fun x : Block => x.saveArea gr k) harea
      have hread := State.readCtx_congr (s := t) (t := t.modBlk b' f) (b := b) rfl rfl rfl hvf
      simp only [State.fullStack, State.spillList, hs, ha, hread]
    exact hblk _ (fun _ => rfl) (fun _ => rfl) fun _ => rfl
  · rfl
  · rfl

theorem RegsOnly.linked {s : State} (hi : s.issuing = true) (i : Instr) (g : Pred) :
    RegsOnly (s.execs g) (if writesLink i then [s.unitNode.link, s.unitNode.link + 1] else []) [] [] s (s.linked i g) := by
  unfold State.linked
  split
  · exact RegsOnly.putLanes_pair (.refl ..) hi (by exact List.mem_cons_self) (by exact List.mem_cons_of_mem _ List.mem_cons_self)
      (fun _ h => h) fun _ => s.nextPc
  · exact .refl ..

theorem State.unitView_linked (s : State) (i : Instr) (g : Pred) : (s.linked i g).unitView = s.unitView :=
  s.linked_keeps State.unitView (fun t m l v => t.unitView_wrV m l v) i g

/-- When every active lane takes the same next PC, the split goes on there. -/
theorem branch_agrees (i : Instr) (g : Pred) (s : State) (b gr k : Nat) (tgt next : Dword) (hf : s.focus = .split b gr k)
    (ht : s.branchTo (lowestLane s.lanes) i = some (g, tgt)) (hm : s.mayIssue i g = true) (ham : s.amOk b gr k) (h0 : s.lanes ≠ 0)
    (htop : s.topPath b gr k = false)
    (hnext : (∀ l ∈ lanesOf s.lanes, s.rdP g l = true ∧ s.branchTo l i = some (g, next)) ∧
        (indirectBranch i = true → targetBad next = false) ∨
      (∀ l ∈ lanesOf s.lanes, s.rdP g l = false) ∧ next = s.pc + 4) :
    ∃ t : State, Sys2Proof.Machine.exec i s = .next t ∧ t.pc = next ∧ t.lanes = s.lanes ∧
      (writesLink i = true → ∀ l ∈ s.execs g, t.rdVPair s.unitNode.link l = s.pc + 4) ∧
      RegsOnly (s.execs g) (if writesLink i then [s.unitNode.link, s.unitNode.link + 1] else []) [] [] s t := by
  have hi := issuing_of_mayIssue hm
  have htarget (l : Nat) (h : s.branchTo l i = some (g, next)) : s.laneTarget i l = next := by
    have h' := State.branchTo_laneTarget ht l
    rw [h] at h'
    exact (Prod.mk.inj (Option.some.inj h')).2.symm
  obtain ⟨hall, hgood, hchoose⟩ : (s.exec g = s.lanes ∨ s.exec g = 0) ∧
      (indirectBranch i = true → ∀ l ∈ s.execs g, targetBad (s.laneTarget i l) = false) ∧
      ∀ l, hasLane s.lanes l = true → s.choose (s.exec g) (s.laneTarget i) l = next := by
    rcases hnext with ⟨hall, hgood⟩ | ⟨hnone, rfl⟩
    · have hto (l : Nat) (hl : hasLane s.lanes l = true) := hall l ((mem_lanesOf _ l).mpr hl)
      have hexec (l : Nat) (hl : hasLane s.lanes l = true) : hasLane (s.exec g) l = true := (hasLane_exec s g l).mpr ⟨hl, (hto l hl).1⟩
      refine ⟨.inl (mask_ext fun l => ?_), fun hb l hl => ?_, fun l hl => ?_⟩
      · rw [Bool.eq_iff_iff]
        exact ⟨fun h => ((hasLane_exec s g l).mp h).1, hexec l⟩
      · rw [htarget l (hto l ((exec_lanes s g l).mp hl).1).2]
        exact hgood hb
      · rw [State.choose, if_pos (hexec l hl), htarget l (hto l hl).2]
    · have hempty : s.exec g = 0 := mask_ext fun l => by
        rw [show hasLane 0 l = false from hasLane_zero l, Bool.eq_false_iff]
        intro h
        obtain ⟨hl, hr⟩ := (hasLane_exec s g l).mp h
        exact absurd hr (by simp [hnone l ((mem_lanesOf _ l).mpr hl)])
      refine ⟨.inr hempty, fun _ l hl => ?_, fun l _ => ?_⟩
      · rw [State.execs, hempty] at hl
        exact absurd ((mem_lanesOf _ l).mp hl) (by simp)
      · rw [State.choose, hempty, if_neg (by simp), State.nextPc]
  have hview := s.unitView_linked i g
  have hil : (s.linked i g).issuing = true := (State.issuing_of_unitView hview).trans hi
  have hfl : (s.linked i g).focus = .split b gr k := (s.linked_keeps State.focus (by simp) i g).trans hf
  obtain ⟨hb, hg, hk⟩ := State.listed_of_issuing hfl hil
  have hexec := exec_branch_of_agree hf hm ht hgood hall
  rw [State.branch_of_agree (pathsOf_eq ham (isPaths_single h0 hchoose)) ((s.topPath_linked i g b gr k).trans htop)] at hexec
  refine ⟨_, hexec, ?_, ?_, fun hw l hl => ?_, RegsOnly.modSpl (RegsOnly.linked hi i g) hf hil fun y => by rfl⟩
  · rw [State.pc_of_split (s := State.modSpl _ b gr k _) hfl, State.spl_modSpl_self hb hg hk]
    rfl
  · exact (State.lanes_modSpl _ b gr k fun _ => by rfl).trans (State.lanes_of_unitView hview)
  · rw [State.rdVPair, State.rdV_modSpl, State.rdV_modSpl]
    exact State.rdVPair_linked hi hw hl

end Sys2Proof.Machine

end


section

namespace Sys2Proof.Machine

set_option linter.constructorNameAsVariable false

/-! ## The branches of an ejected lane (14 R301) -/

theorem State.lane_wrV (s : State) (m l : Nat) (v : Word) (c : Nat) : ((s.wrV m l v).ctx c).lane = (s.ctx c).lane := by
  unfold State.wrV
  split
  · rfl
  · exact Table.proj_getD_modify Comet.lane fun _ => by rfl
  · rfl

section
variable {s : State} {c : Nat} (hf : s.focus = .comet c)
include hf

theorem State.jump_of_comet (t : State) (next : Nat → Dword) : s.jump t next = s.setPc (next (s.ctx c).lane) := by
  rw [State.jump, hf]

/-- The call depth is no part of what a branch looks at. -/
theorem State.unitView_callDepth (f : Nat → Nat) : (s.callDepth f).unitView = s.unitView := by
  rw [State.callDepth, hf]
  exact s.unitView_modCtx c (fun _ => by rfl) fun _ => by rfl

theorem State.focus_callDepth (f : Nat → Nat) : (s.callDepth f).focus = s.focus := by
  rw [State.callDepth, hf]
  exact hf

theorem State.lane_callDepth (f : Nat → Nat) (c' : Nat) : ((s.callDepth f).ctx c').lane = (s.ctx c').lane := by
  rw [State.callDepth, hf]
  exact Table.proj_getD_modify Comet.lane fun _ => by rfl

/-- The state that a branch instruction moves the lane of, the target of each lane being good: it has the view of the old one. -/
theorem exec_branch_comet {i : Instr} {g : Pred} (hm : s.mayIssue i g = true) {l : Nat} {d : Dword}
    (ht : s.branchTo l i = some (g, d))
    (hgood : indirectBranch i = true → ∀ l ∈ s.execs g, targetBad (s.laneTarget i l) = false) :
    ∃ u : State, u.focus = .comet c ∧ u.unitView = s.unitView ∧ (u.ctx c).lane = (s.ctx c).lane ∧
      Sys2Proof.Machine.exec i s = .next (u.setPc (s.choose (s.exec g) (s.laneTarget i) (s.ctx c).lane)) := by
  have hgood' (h : indirectBranch i = true) (l : Nat) (hl : hasLane (s.exec g) l = true) :
      badTarget (s.laneTarget i l) = false := by
    rw [badTarget_eq_targetBad]
    exact hgood h l ((mem_lanesOf _ _).mpr hl)
  have hfl : (s.setLinks (s.execs g)).focus = .comet c := by
    rw [← hf]
    exact State.putLanes_proj State.focus _ _ _ fun t l => by simp [State.wrVPair]
  have hviewl : (s.setLinks (s.execs g)).unitView = s.unitView := s.unitView_putLanes _ fun t l => t.unitView_wrVPair ..
  have hlanel : ((s.setLinks (s.execs g)).ctx c).lane = (s.ctx c).lane :=
    State.putLanes_proj (fun t => (t.ctx c).lane) _ _ _ fun t l => by rw [State.wrVPair, State.lane_wrV, State.lane_wrV]
  unfold State.branchTo at ht
  split at ht <;> cases ht
  case h_1 ofs =>
    refine ⟨s, hf, rfl, rfl, ?_⟩
    show execBra _ _ _ = _
    rw [execBra, laneRun_of_mayIssue hm]
    dsimp only
    rw [State.jump_of_comet hf]
    rfl
  case h_2 n ofs =>
    refine ⟨s, hf, rfl, rfl, ?_⟩
    show execBraEj _ _ _ _ = _
    rw [execBraEj, laneRun_of_mayIssue hm]
    simp only [hf]
    rw [State.jump_of_comet hf]
    rfl
  case h_3 ofs =>
    have hf' := (State.focus_callDepth hfl fun n => if s.exec g = 0 then n else n + 1).trans hfl
    have hlane := (State.lane_callDepth hfl (fun n => if s.exec g = 0 then n else n + 1) c).trans hlanel
    refine ⟨_, hf', (State.unitView_callDepth hfl _).trans hviewl, hlane, ?_⟩
    show execCall _ _ _ = _
    rw [execCall, laneRun_of_mayIssue hm]
    dsimp only
    rw [show lanesOf (s.exec g) = s.execs g from rfl, State.jump_of_comet hf', hlane]
    rfl
  case h_4 a =>
    refine ⟨s, hf, rfl, rfl, ?_⟩
    show execBrx _ _ _ = _
    rw [execBrx, laneRun_of_mayIssue hm, State.indirect_of_good (tgt := fun l => s.rdVPair a.toNat l) (hgood' rfl), id_eq,
      State.jump_of_comet hf]
    rfl
  case h_5 a =>
    refine ⟨_, hfl, hviewl, hlanel, ?_⟩
    show execCallx _ _ _ = _
    rw [execCallx, laneRun_of_mayIssue hm]
    dsimp only
    rw [State.indirect_of_good (tgt := fun l => s.rdVPair a.toNat l) (hgood' rfl), show lanesOf (s.exec g) = s.execs g from rfl,
      State.jump_of_comet hfl, hlanel]
    rfl
  case h_6 =>
    have hf' := (State.focus_callDepth hf fun n => if s.exec g = 0 then n else n - 1).trans hf
    have hlane := State.lane_callDepth hf (fun n => if s.exec g = 0 then n else n - 1) c
    refine ⟨_, hf', State.unitView_callDepth hf _, hlane, ?_⟩
    show execRet _ _ = _
    rw [execRet, laneRun_of_mayIssue hm]
    dsimp only
    rw [State.indirect_of_good (tgt := fun l => s.rdVPair s.linkReg l) (hgood' rfl), State.jump_of_comet hf', hlane]
    rfl

/-- The one lane of a context takes the target where its guard is true. -/
theorem State.choose_of_comet {g : Pred} (hl : (s.ctx c).lane < 64) (tgt : Nat → Dword) :
    s.choose (s.exec g) tgt (s.ctx c).lane = if s.rdP g (s.ctx c).lane = true then tgt (s.ctx c).lane else s.pc + 4 := by
  have hlane : hasLane s.lanes (s.ctx c).lane = true := by
    simp only [State.lanes, hf, hasLane_laneBit]
    simpa using hl
  have he := hasLane_exec s g (s.ctx c).lane
  rw [State.choose, State.nextPc]
  exact if_congr (he.trans ⟨And.right, fun h => ⟨hlane, h⟩⟩) rfl rfl

/-- An ejected lane takes its own next PC. -/
theorem branch_comet {i : Instr} {g : Pred} {tgt : Dword} (ht : s.branchTo (s.ctx c).lane i = some (g, tgt))
    (hm : s.mayIssue i g = true) (hl : (s.ctx c).lane < 64) (hgood : indirectBranch i = true → targetBad tgt = false) :
    ∃ t : State, Sys2Proof.Machine.exec i s = .next t ∧ t.pc = if s.rdP g (s.ctx c).lane then tgt else s.pc + 4 := by
  have htgt : s.laneTarget i (s.ctx c).lane = tgt := by
    rw [State.laneTarget, ht]
    rfl
  have hone (l : Nat) (h : l ∈ s.execs g) : l = (s.ctx c).lane := by
    have hl := ((exec_lanes s g l).mp h).1
    simp only [State.lanes, hf, hasLane_laneBit, Bool.and_eq_true, decide_eq_true_eq] at hl
    exact hl.2
  obtain ⟨u, hfu, hview, hlane, hexec⟩ := exec_branch_comet hf hm ht fun hi l h => by
    rw [hone l h, htgt]
    exact hgood hi
  have hi : u.issuing = true := (State.issuing_of_unitView hview).trans (issuing_of_mayIssue hm)
  refine ⟨_, hexec, ?_⟩
  rw [State.choose_of_comet hf hl, htgt]
  exact State.pc_setPc hi _

end

/-! ## A bad indirect target (06 R141) -/

/-- The lanes of an indirect branch whose targets are bad. -/
def State.badLanes (s : State) (i : Instr) (g : Pred) : Mask := maskOf fun l => hasLane (s.exec g) l && badTarget (s.laneTarget i l)

theorem exec_indirect_bad {i : Instr} {g : Pred} {s : State} (hi : indirectBranch i = true) (hm : s.mayIssue i g = true) {l : Nat}
    {d : Dword} (ht : s.branchTo l i = some (g, d)) (hbad : s.badLanes i g ≠ 0) :
    Sys2Proof.Machine.exec i s = .next (s.trapWith 0x03 (s.badLanes i g) (s.laneTarget i (lowestLane (s.badLanes i g)))) := by
  have hind (tgt : Nat → Dword) (pre : State → State) (he : s.laneTarget i = tgt) :
      s.indirect (s.exec g) tgt pre = s.trapWith 0x03 (s.badLanes i g) (s.laneTarget i (lowestLane (s.badLanes i g))) := by
    subst he
    rw [State.indirect]
    exact if_pos (bne_iff_ne.mpr hbad)
  unfold State.branchTo at ht
  split at ht <;> cases ht
  case h_4 a =>
    show execBrx _ _ _ = _
    rw [execBrx, laneRun_of_mayIssue hm]
    exact congrArg _ (hind _ _ rfl)
  case h_5 a =>
    show execCallx _ _ _ = _
    rw [execCallx, laneRun_of_mayIssue hm]
    exact congrArg _ (hind _ _ rfl)
  case h_6 =>
    show execRet _ _ = _
    rw [execRet, laneRun_of_mayIssue hm]
    exact congrArg _ (hind _ _ rfl)
  all_goals exact absurd hi (by simp [indirectBranch])

/-- The trap of a bad target names the lanes that have one, with the target of the lowest. -/
theorem branch_bad (i : Instr) (g : Pred) (s : State) (l : Nat) (tgt : Dword) (hi : indirectBranch i = true)
    (hm : s.mayIssue i g = true) (hl : l ∈ s.execs g) (ht : s.branchTo l i = some (g, tgt)) (hbad : targetBad tgt = true)
    (hlow : ∀ j ∈ s.execs g, j < l → ∀ d, s.branchTo j i = some (g, d) → targetBad d = false) :
    ∃ m : Mask, Sys2Proof.Machine.exec i s = .next (s.trapWith 0x03 m tgt) ∧
      ∀ j, hasLane m j = true ↔ j ∈ s.execs g ∧ ∀ d, s.branchTo j i = some (g, d) → targetBad d = true := by
  have hto := State.branchTo_laneTarget ht
  have htgt : s.laneTarget i l = tgt := by
    rw [State.laneTarget, ht]
    rfl
  have hmem (j : Nat) : hasLane (s.badLanes i g) j = true ↔
      j ∈ s.execs g ∧ ∀ d, s.branchTo j i = some (g, d) → targetBad d = true := by
    rw [State.badLanes, hasLane_maskOf, Bool.and_eq_true, decide_eq_true_eq, Bool.and_eq_true, badTarget_eq_targetBad, State.execs,
      mem_lanesOf, hto]
    constructor
    · rintro ⟨-, he, hb⟩
      exact ⟨he, fun d hd => by rw [← (Prod.mk.inj (Option.some.inj hd)).2]; exact hb⟩
    · rintro ⟨he, hb⟩
      exact ⟨lt_of_hasLane he, he, hb _ rfl⟩
  have hll : hasLane (s.badLanes i g) l = true := (hmem l).mpr ⟨hl, fun d hd => by
    rw [ht] at hd
    rw [← (Prod.mk.inj (Option.some.inj hd)).2]
    exact hbad⟩
  have hfirst : lowestLane (s.badLanes i g) = l := lowestLane_eq hll fun j hj => by
    obtain ⟨hje, hjb⟩ := (hmem j).mp hj
    by_contra hlt
    have hgood := hlow j hje (by omega) _ (hto j)
    rw [hjb _ (hto j)] at hgood
    exact absurd hgood (by decide)
  have hexec := exec_indirect_bad hi hm ht (mask_ne_zero_of_hasLane hll)
  rw [hfirst, htgt] at hexec
  exact ⟨_, hexec, hmem⟩

end Sys2Proof.Machine

end


/-!
PROOFS. The comet context that an ejected lane gets, and the ejection of a side (spec/06_lane_control.md R148; 14 R303, R304, R310).
-/

section

namespace Sys2Proof.Machine

set_option linter.constructorNameAsVariable false

/-! ## The free contexts of a comet core (14 R303) -/

theorem minBy_ne_none {α : Type} (f : α → Nat) {l : List α} (h : l ≠ []) : minBy f l ≠ none := by
  cases l with
  | nil => exact absurd rfl h
  | cons x l =>
    rw [minBy]
    split
    · simp
    · split <;> simp

/-- An element of the least key is of the list, and no other has a lesser one. -/
theorem minBy_eq_some {α : Type} {f : α → Nat} {l : List α} {a : α} (h : minBy f l = some a) : a ∈ l ∧ ∀ b ∈ l, f a ≤ f b := by
  induction l generalizing a with
  | nil => exact absurd h (by simp [minBy])
  | cons x l ih =>
    rw [minBy] at h
    split at h
    · next hn =>
      obtain rfl := Option.some.inj h
      have hl : l = [] := by
        cases l with
        | nil => rfl
        | cons y l => exact absurd hn (minBy_ne_none f (List.cons_ne_nil y l))
      subst hl
      simp
    · next y hy =>
      obtain ⟨hmem, hle⟩ := ih hy
      split at h
      · next hxy =>
        obtain rfl := Option.some.inj h
        refine ⟨List.mem_cons_self, fun b hb => ?_⟩
        rcases List.mem_cons.mp hb with rfl | hb
        · exact Nat.le_refl _
        · exact Nat.le_trans hxy (hle b hb)
      · next hxy =>
        obtain rfl := Option.some.inj h
        refine ⟨List.mem_cons_of_mem _ hmem, fun b hb => ?_⟩
        rcases List.mem_cons.mp hb with rfl | hb
        · omega
        · exact hle b hb

theorem State.mem_freeOn {s : State} {cl j c : Nat} :
    c ∈ s.freeOn cl j ↔ s.comets.has c = false ∧ ∃ i < 8, c = 64 * cl + 8 * j + i := by
  simp only [State.freeOn, List.mem_filterMap, List.mem_range]
  constructor
  · rintro ⟨i, hi, he⟩
    split at he
    · exact absurd he (by simp)
    · next hn =>
      obtain rfl := Option.some.inj he
      exact ⟨by simpa using hn, i, hi, rfl⟩
  · rintro ⟨hn, i, hi, rfl⟩
    exact ⟨i, hi, by simp [hn]⟩

theorem State.length_freeOn_le (s : State) (cl j : Nat) : (s.freeOn cl j).length ≤ 8 :=
  (List.length_filterMap_le _ _).trans (by rw [List.length_range])

theorem State.bestCore_eq_some {s : State} {cl j : Nat} {js : List Nat} (h : s.bestCore cl js = some j) :
    j ∈ js ∧ s.freeOn cl j ≠ [] ∧ ∀ i ∈ js, (s.freeOn cl i).length ≤ (s.freeOn cl j).length := by
  rw [State.bestCore] at h
  split at h
  · next i hi =>
    split at h
    · exact absurd h (by simp)
    · next hne =>
      obtain rfl := Option.some.inj h
      obtain ⟨hmem, hle⟩ := minBy_eq_some hi
      refine ⟨hmem, by simpa using hne, fun m hm => ?_⟩
      have := hle m hm
      have := s.length_freeOn_le cl m
      omega
  · exact absurd h (by simp)

theorem State.freeOn_of_bestCore_none {s : State} {cl : Nat} {js : List Nat} (h : s.bestCore cl js = none) :
    ∀ j ∈ js, s.freeOn cl j = [] := by
  intro j hj
  rw [State.bestCore] at h
  split at h
  · next i hi =>
    split at h
    · next he =>
      obtain ⟨hmem, hle⟩ := minBy_eq_some hi
      have hzero : (s.freeOn cl i).length = 0 := List.length_eq_zero_iff.mpr (List.isEmpty_iff.mp he)
      have := hle j hj
      have := s.length_freeOn_le cl j
      exact List.length_eq_zero_iff.mp (by omega)
    · exact absurd h (by simp)
  · next hn => exact absurd hn (minBy_ne_none _ (List.ne_nil_of_mem hj))

/-! ## The context that a lane gets (14 R293, R303, R304) -/

theorem mem_clusterContexts {cl c : Nat} : c ∈ clusterContexts cl ↔ c / 64 = cl := by
  simp only [clusterContexts, List.mem_map, List.mem_range]
  exact ⟨by rintro ⟨i, hi, rfl⟩; omega, fun h => ⟨c % 64, Nat.mod_lt _ (by decide), by omega⟩⟩

theorem mem_diesCores_near {die j : Nat} : j ∈ (diesCores die).1 ↔ j / 4 = die % 2 := by
  unfold diesCores
  split
  · simp only [List.mem_cons, List.not_mem_nil, or_false]
    omega
  · simp only [List.mem_cons, List.not_mem_nil, or_false]
    omega

theorem mem_diesCores_far {die j : Nat} : j ∈ (diesCores die).2 ↔ j / 4 + die % 2 = 1 := by
  unfold diesCores
  split
  · simp only [List.mem_cons, List.not_mem_nil, or_false]
    omega
  · simp only [List.mem_cons, List.not_mem_nil, or_false]
    omega

/-- A context of the cluster of a core lies on the core's die, where its comet core is one of the near ones. -/
theorem dieOfComet_eq_iff {core c : Nat} (h : c ∈ clusterContexts (clusterOfCore core)) :
    dieOfComet c = dieOfCore core ↔ cometCore c / 4 = dieOfCore core % 2 := by
  rw [mem_clusterContexts] at h
  simp only [dieOfComet, clusterOfComet, h, clusterOfCore, dieOfCore, cometCore]
  omega

theorem State.mem_freeOn_cometCore {s : State} {cl c : Nat} (hc : c ∈ clusterContexts cl) (hn : s.comets.has c = false) :
    c ∈ s.freeOn cl (cometCore c) := by
  rw [mem_clusterContexts] at hc
  exact State.mem_freeOn.mpr ⟨hn, c % 8, Nat.mod_lt _ (by decide), by rw [cometCore]; omega⟩

/-- The head of the free contexts of a comet core is one of them. -/
theorem State.head_freeOn {s : State} {cl j : Nat} (hj : j < 8) (h : s.freeOn cl j ≠ []) :
    (s.freeOn cl j).headD 0 ∈ clusterContexts cl ∧ s.comets.has ((s.freeOn cl j).headD 0) = false ∧
      cometCore ((s.freeOn cl j).headD 0) = j := by
  have hmem : (s.freeOn cl j).headD 0 ∈ s.freeOn cl j := by
    cases hl : s.freeOn cl j with
    | nil => exact absurd hl h
    | cons c cs => exact List.mem_cons_self
  obtain ⟨hn, i, hi, he⟩ := State.mem_freeOn.mp hmem
  rw [mem_clusterContexts, cometCore]
  exact ⟨by omega, hn, by omega⟩

/-- The clocks until the first instruction of a lane in a context may issue. -/
def ejectDelay (die c : Nat) : Nat := if dieOfComet c = die then 24 else 40

/-- A context that the rules may pick for a lane: free, on the issuing die where that has a free one, on the comet core of its die with
the most free ones. -/
structure State.MayPick (s : State) (core c : Nat) : Prop where
  cluster : c ∈ clusterContexts (clusterOfCore core)
  free : s.comets.has c = false
  near : dieOfComet c ≠ dieOfCore core → ∀ d ∈ clusterContexts (clusterOfCore core), dieOfComet d = dieOfCore core →
    s.comets.has d = true
  most : ∀ d ∈ clusterContexts (clusterOfCore core), dieOfComet d = dieOfComet c →
    (s.freeOn (clusterOfCore core) (cometCore d)).length ≤ (s.freeOn (clusterOfCore core) (cometCore c)).length

theorem State.pickContext_spec {s : State} {core c w : Nat}
    (h : s.pickContext (clusterOfCore core) (dieOfCore core) = some (c, w)) :
    s.MayPick core c ∧ w = ejectDelay (dieOfCore core) c := by
  have hdie {c d : Nat} (hc : c ∈ clusterContexts (clusterOfCore core)) (hd : d ∈ clusterContexts (clusterOfCore core)) :
      dieOfComet d = dieOfComet c ↔ cometCore d / 4 = cometCore c / 4 := by
    rw [mem_clusterContexts] at hc hd
    simp only [dieOfComet, clusterOfComet, hc, hd]
    omega
  rw [State.pickContext] at h
  split at h
  · next j hj =>
    obtain ⟨hmem, hne, hmost⟩ := State.bestCore_eq_some hj
    have hj4 := mem_diesCores_near.mp hmem
    obtain ⟨hcl, hfree, hcore⟩ := State.head_freeOn (by omega) hne
    obtain ⟨rfl, rfl⟩ := Prod.mk.inj (Option.some.inj h)
    have hd : dieOfComet ((s.freeOn (clusterOfCore core) j).headD 0) = dieOfCore core :=
      (dieOfComet_eq_iff hcl).mpr (by rw [hcore, hj4])
    refine ⟨⟨hcl, hfree, fun hn => absurd hd hn, fun d hdc he => ?_⟩, (if_pos hd).symm⟩
    rw [hcore]
    refine hmost _ (mem_diesCores_near.mpr ?_)
    rw [(hdie hcl hdc).mp he, hcore, hj4]
  · next hnear =>
    split at h
    · next j hj =>
      obtain ⟨hmem, hne, hmost⟩ := State.bestCore_eq_some hj
      have hj4 := mem_diesCores_far.mp hmem
      obtain ⟨hcl, hfree, hcore⟩ := State.head_freeOn (by omega) hne
      obtain ⟨rfl, rfl⟩ := Prod.mk.inj (Option.some.inj h)
      have hd : dieOfComet ((s.freeOn (clusterOfCore core) j).headD 0) ≠ dieOfCore core := fun he => by
        have := (dieOfComet_eq_iff hcl).mp he
        omega
      refine ⟨⟨hcl, hfree, fun _ d hdc he => ?_, fun d hdc he => ?_⟩, (if_neg hd).symm⟩
      · by_contra hn
        have hempty := State.freeOn_of_bestCore_none hnear (cometCore d) (mem_diesCores_near.mpr ((dieOfComet_eq_iff hdc).mp he))
        have hin := State.mem_freeOn_cometCore hdc (by simpa using hn)
        rw [hempty] at hin
        exact absurd hin List.not_mem_nil
      · rw [hcore]
        refine hmost _ (mem_diesCores_far.mpr ?_)
        rw [(hdie hcl hdc).mp he, hcore, hj4]
    · exact absurd h (by simp)

theorem State.pickContext_ne_none {s : State} {cl c : Nat} (die : Nat) (hc : c ∈ clusterContexts cl) (hn : s.comets.has c = false) :
    s.pickContext cl die ≠ none := by
  intro h
  have hin := State.mem_freeOn_cometCore hc hn
  rw [State.pickContext] at h
  split at h
  · exact absurd h (by simp)
  · next hnear =>
    split at h
    · exact absurd h (by simp)
    · next hfar =>
      have hlt : cometCore c < 8 := by
        rw [cometCore]
        omega
      have hside : cometCore c ∈ (diesCores die).1 ∨ cometCore c ∈ (diesCores die).2 := by
        rw [mem_diesCores_near, mem_diesCores_far]
        omega
      rcases hside with hj | hj
      · rw [State.freeOn_of_bestCore_none hnear _ hj] at hin
        exact absurd hin List.not_mem_nil
      · rw [State.freeOn_of_bestCore_none hfar _ hj] at hin
        exact absurd hin List.not_mem_nil

end Sys2Proof.Machine

end


section

namespace Sys2Proof.Machine

set_option linter.constructorNameAsVariable false

/-! ## The lanes of a side leave (06 R148, 14 R304) -/

/-- The contexts of a cluster that hold no lane. -/
def State.emptyContexts (s : State) (cl : Nat) : List Nat := (clusterContexts cl).filter fun c => !s.comets.has c

theorem clusterContexts_nodup (cl : Nat) : (clusterContexts cl).Nodup :=
  List.Nodup.map (fun _ _ h => Nat.add_left_cancel h) List.nodup_range

theorem Table.has_set {α : Type} (t : Table α) (i j : Nat) (v : α) : (t.set i v).has j = (decide (j = i) || t.has j) := by
  by_cases h : j = i
  · subst h
    simp [Table.has, Table.find_set_self]
  · simp [Table.has, Table.find_set_other _ _ _ _ h, h]

/-- A context that is taken leaves one fewer. -/
theorem State.length_emptyContexts_set (s : State) (cl c : Nat) (x : Comet) : (s.emptyContexts cl).length ≤
    (State.emptyContexts { s with comets := s.comets.set c x } cl).length + 1 := by
  have hrest : State.emptyContexts { s with comets := s.comets.set c x } cl = (s.emptyContexts cl).filter (· != c) := by
    rw [State.emptyContexts, State.emptyContexts, List.filter_filter]
    refine List.filter_congr fun d _ => ?_
    rw [Table.has_set]
    by_cases h : d = c <;> simp [h]
  have hnd : (s.emptyContexts cl).Nodup := List.Nodup.filter _ (clusterContexts_nodup cl)
  rw [hrest, ← hnd.erase_eq_filter, List.length_erase]
  split <;> omega

/-- Lane l has been given context c. -/
def State.GaveLane (s : State) (b g k n : Nat) (pc : Dword) (C : Table Comet) (l c : Nat) : Prop :=
  c ∈ clusterContexts (clusterOfCore (s.blk b).core) ∧ s.comets.has c = false ∧
    C.find c = some (s.handOver b g k l n pc (ejectDelay (s.blk b).die c)) ∧
    (dieOfComet c ≠ (s.blk b).die → ∀ d ∈ clusterContexts (clusterOfCore (s.blk b).core), dieOfComet d = (s.blk b).die →
      C.has d = true)

/-- While the cluster has a free context for each, lanes get free contexts by the rules; nothing else changes. -/
theorem State.ejectLanes_spec (b g k n : Nat) (pc : Dword) (ls : List Nat) (hls : ls.Nodup) (s : State)
    (hroom : ls.length ≤ (s.emptyContexts (clusterOfCore (s.blk b).core)).length) : ∃ C : Table Comet,
    (s.ejectLanes b g k n pc ls).1 = { s with comets := C } ∧
    (∀ c, s.comets.has c = true → C.find c = s.comets.find c) ∧
    ∀ l ∈ ls, ∃ c, s.GaveLane b g k n pc C l c ∧ (ls.head? = some l → s.MayPick (s.blk b).core c) := by
  induction ls generalizing s with
  | nil => exact ⟨s.comets, rfl, fun _ _ => rfl, fun l hl => absurd hl List.not_mem_nil⟩
  | cons l ls ih =>
    obtain ⟨hnl, hnd⟩ := List.nodup_cons.mp hls
    rw [List.length_cons] at hroom
    obtain ⟨c0, hc0⟩ := List.exists_mem_of_length_pos (l := s.emptyContexts (clusterOfCore (s.blk b).core)) (by omega)
    obtain ⟨hcl0, hfree0⟩ := List.mem_filter.mp hc0
    obtain ⟨⟨c, w⟩, hpick⟩ := Option.ne_none_iff_exists'.mp
      (State.pickContext_ne_none (s.blk b).die hcl0 (by simpa using hfree0))
    obtain ⟨hmay, hw⟩ := State.pickContext_spec hpick
    subst hw
    have hle := s.length_emptyContexts_set (clusterOfCore (s.blk b).core) c
      (s.handOver b g k l n pc (ejectDelay (s.blk b).die c))
    generalize hs1 : ({ s with comets := s.comets.set c (s.handOver b g k l n pc (ejectDelay (s.blk b).die c)) } : State) = s1 at hle
    have hrun : (s.ejectLanes b g k n pc (l :: ls)).1 = (s1.ejectLanes b g k n pc ls).1 := by
      rw [State.ejectLanes]
      simp only [hpick]
      rw [← hs1]
      rfl
    have hblk : s1.blk b = s.blk b := by
      rw [← hs1]
      rfl
    have hhas (d : Nat) : s1.comets.has d = (decide (d = c) || s.comets.has d) := by
      rw [← hs1]
      exact Table.has_set ..
    have hfind (d : Nat) (hd : d ≠ c) : s1.comets.find d = s.comets.find d := by
      rw [← hs1]
      exact Table.find_set_other _ _ _ _ hd
    obtain ⟨C, hC, hkeep, hgave⟩ := ih hnd s1 (by rw [hblk]; omega)
    have hold (d : Nat) (hd : s.comets.has d = true) : C.find d = s.comets.find d := by
      have hne : d ≠ c := fun he => by
        rw [he, hmay.free] at hd
        exact absurd hd (by decide)
      rw [hkeep d (by rw [hhas, hd, Bool.or_true]), hfind d hne]
    refine ⟨C, ?_, hold, fun j hj => ?_⟩
    · rw [hrun, hC, ← hs1]
    · rcases List.mem_cons.mp hj with rfl | hj
      · refine ⟨c, ⟨hmay.cluster, hmay.free, ?_, fun hd d hdc he => ?_⟩, fun _ => hmay⟩
        · rw [hkeep c (by simp [hhas]), ← hs1]
          exact Table.find_set_self ..
        · have hd' := hmay.near hd d hdc he
          rw [Table.has, hold d hd', ← Table.has]
          exact hd'
      · obtain ⟨d, ⟨hcl, hn, hf, hnear⟩, -⟩ := hgave j hj
        rw [hblk] at hcl hf hnear
        refine ⟨d, ⟨hcl, ?_, ?_, hnear⟩, fun hh => ?_⟩
        · rw [hhas, Bool.or_eq_false_iff] at hn
          exact hn.2
        · rw [hf, ← hs1]
          rfl
        · obtain rfl := Option.some.inj hh
          exact absurd hj hnl

/-- A register that goes along is found under its number. -/
theorem Table.find_filterMap {α : Type} (rs : List Nat) (p : Nat → Bool) (v : Nat → α) (r : Nat) :
    Table.find (rs.filterMap fun i => if p i = true then some (i, v i) else none) r =
      if r ∈ rs ∧ p r = true then some (v r) else none := by
  induction rs with
  | nil => simp
  | cons i rs ih =>
    rw [List.filterMap_cons]
    cases hp : p i with
    | true =>
      rw [if_pos rfl]
      simp only [Table.find, ih, List.mem_cons]
      by_cases h : i = r
      · subst h
        simp [hp]
      · simp [h, Ne.symm h]
    | false =>
      rw [if_neg (by simp)]
      simp only [ih, List.mem_cons]
      by_cases h : r = i
      · subst h
        simp [hp]
      · simp [h]

/-- An ejected lane keeps the registers of its LIVE mask. -/
theorem State.vregs_handOver {s : State} {b g k' : Nat} (hf : s.focus = .split b g k') (k l n : Nat) (pc : Dword) (wait : Nat) {r : Nat}
    (hr : r < 64) (hlive : ((s.grp b g).lv.getD n 0).getLsbD r = true) :
    (s.handOver b g k l n pc wait).vregs.getD r 0 = s.rdV r l := by
  have hfind := Table.find_filterMap (List.range 64) (fun i => ((s.grp b g).lv.getD n 0).getLsbD i)
    (fun i => (s.blk b).vregs.getD ((s.blk b).regKey g i l) 0) r
  rw [if_pos ⟨List.mem_range.mpr hr, hlive⟩] at hfind
  rw [State.rdV, hf]
  exact Table.getD_of_find _ hfind

end Sys2Proof.Machine

end


section

namespace Sys2Proof.Machine

set_option linter.constructorNameAsVariable false

/-! ## BRA.EJ of a split (06 R148, 14 R310) -/

/-- The offset of BRA.EJ in that of BRA has the same target. -/
theorem signExtend_signExtend_22 (ofs : BitVec 20) : (ofs.signExtend 22).signExtend 64 = ofs.signExtend 64 := by
  refine BitVec.eq_of_toInt_eq ?_
  rw [BitVec.toInt_signExtend_of_le (by decide), BitVec.toInt_signExtend_of_le (by decide), BitVec.toInt_signExtend_of_le (by decide)]

/-- The sides of a BRA.EJ: `small` with its PC, and `big` with its own. -/
def State.Sides (s : State) (g : Pred) (ofs : BitVec 20) (small big : Mask) (sp bp : Dword) : Prop :=
  small = s.exec g ∧ big = minusLanes s.lanes (s.exec g) ∧ sp = s.pc + 4 * ofs.signExtend 64 ∧ bp = s.pc + 4 ∨
    big = s.exec g ∧ small = minusLanes s.lanes (s.exec g) ∧ bp = s.pc + 4 * ofs.signExtend 64 ∧ sp = s.pc + 4

section
variable {s : State} {g : Pred} {ofs : BitVec 20} {small big : Mask} {sp bp : Dword} (hsides : s.Sides g ofs small big sp bp)
include hsides

theorem State.Sides.minority_eq (hle : laneCount small ≤ laneCount big) :
    minority (s.exec g) (minusLanes s.lanes (s.exec g)) (s.target ofs) s.nextPc =
      if laneCount small = 0 ∨ laneCount small = laneCount big then none else some ((small, sp), (big, bp)) := by
  rcases hsides with ⟨rfl, rfl, rfl, rfl⟩ | ⟨rfl, rfl, rfl, rfl⟩
  · by_cases h : laneCount (s.exec g) = 0 ∨ laneCount (s.exec g) = laneCount (minusLanes s.lanes (s.exec g))
    · rw [if_pos h, minority]
      exact if_pos (by omega)
    · rw [if_neg h, minority, if_neg (by omega), if_pos (by omega)]
      rfl
  · by_cases h : laneCount (minusLanes s.lanes (s.exec g)) = 0 ∨ laneCount (minusLanes s.lanes (s.exec g)) = laneCount (s.exec g)
    · rw [if_pos h, minority]
      exact if_pos (by omega)
    · rw [if_neg h, minority, if_neg (by omega), if_neg (by omega)]
      rfl

theorem State.Sides.big_subset {l : Nat} (h : hasLane big l = true) : hasLane s.lanes l = true := by
  rcases hsides with ⟨-, rfl, -⟩ | ⟨rfl, -⟩
  · rw [hasLane_minusLanes, Bool.and_eq_true] at h
    exact h.1
  · exact ((hasLane_exec s g l).mp h).1

end

section
variable {s : State} {g : Pred} {n : BitVec 2} {ofs : BitVec 20} {b gr k : Nat} {small big : Mask} {sp bp : Dword}
  (hf : s.focus = .split b gr k) (hme : s.mayIssue (.braEj g n ofs) g = true)
  (hmb : s.mayIssue (.bra g (ofs.signExtend 22)) g = true)

include hf hmb in
/-- BRA with the target of the BRA.EJ. -/
theorem exec_bra_signExtend : Sys2Proof.Machine.exec (.bra g (ofs.signExtend 22)) s =
    .next (s.jump s (s.choose (s.exec g) fun _ => s.target ofs)) := by
  rw [exec_branch hf hmb (by simp) (l := 0) rfl (by simp [indirectBranch]), State.jump_of_split hf]
  have htgt : s.laneTarget (.bra g (ofs.signExtend 22)) = fun _ => s.target ofs := by
    funext l
    exact congrArg (fun d => s.pc + 4 * d) (signExtend_signExtend_22 ofs)
  rw [htgt]
  rfl

variable (hsides : s.Sides g ofs small big sp bp) (hle : laneCount small ≤ laneCount big)
include hf hme hsides hle

include hmb in
/-- Where a condition on the sides fails, BRA.EJ acts as BRA. -/
theorem exec_braEj_plain (h : laneCount small = 0 ∨ laneCount small = laneCount big ∨ (s.grp b gr).ejt.toNat % 16 < laneCount small ∨
    (s.blk b).width < 16) : Sys2Proof.Machine.exec (.braEj g n ofs) s = Sys2Proof.Machine.exec (.bra g (ofs.signExtend 22)) s := by
  rw [exec_braEj_split hf hme, exec_bra_signExtend hf hmb, State.braEjSplit, hsides.minority_eq hle]
  by_cases h0 : laneCount small = 0 ∨ laneCount small = laneCount big
  · rw [if_pos h0]
  · rw [if_neg h0]
    have hej : s.ejectable b gr small = false := by
      rw [State.ejectable, Bool.and_assoc]
      rcases h with h | h | h | h
      · exact absurd (.inl h) h0
      · exact absurd (.inr h) h0
      · simp [Nat.not_le.mpr h]
      · simp [Nat.not_le.mpr h]
    simp [hej]

variable (h0 : laneCount small ≠ 0) (hlt : laneCount small < laneCount big) (he : laneCount small ≤ (s.grp b gr).ejt.toNat % 16)
  (hw : 16 ≤ (s.blk b).width)
include h0 hlt he hw

omit hf hme in
/-- BRA.EJ whose smaller side may leave: the free contexts decide. -/
theorem State.braEjSplit_of_ejectable : s.braEjSplit b gr k n.toNat (s.exec g) (s.target ofs) =
    (if s.freeContexts (clusterOfCore (s.blk b).core) (s.blk b).part < laneCount small then
      (s.jump s (s.choose (s.exec g) fun _ => s.target ofs)).offerBlk b 0x04 gr small.toNat
        (s.freeContexts (clusterOfCore (s.blk b).core) (s.blk b).part)
    else
      match s.pushEntry b gr k { path := false, pc := 0, mask := (s.spl b gr k).cm } with
      | none => s.takeTrap 0x61
      | some t1 =>
        let r := t1.ejectLanes b gr k n.toNat sp (lanesOf small)
        let t2 := r.1.modGrp b gr fun y => { y with ejected := y.ejected ||| small }
        (t2.modSpl b gr k fun y => { y with cm := y.am, am := big, pc := bp, pathStart := s.now, wait := .ready }).offerBlk
          b 0x03 gr small.toNat r.2) := by
  have hej : s.ejectable b gr small = true := by
    simp only [State.ejectable, Bool.and_eq_true, decide_eq_true_eq]
    exact ⟨⟨by omega, he⟩, hw⟩
  rw [State.braEjSplit, hsides.minority_eq hle, if_neg (by omega)]
  simp only [hej, Bool.not_true, Bool.false_eq_true, if_false] <;> rfl

include hmb in
/-- With too few contexts BRA.EJ acts as BRA, and an event is offered. -/
theorem exec_braEj_declined (hfree : s.freeContexts (clusterOfCore (s.blk b).core) (s.blk b).part < laneCount small) :
    ∃ t, Sys2Proof.Machine.exec (.bra g (ofs.signExtend 22)) s = .next t ∧ Sys2Proof.Machine.exec (.braEj g n ofs) s =
      .next (t.offerBlk b 0x04 gr small.toNat (s.freeContexts (clusterOfCore (s.blk b).core) (s.blk b).part)) := by
  refine ⟨_, exec_bra_signExtend hf hmb, ?_⟩
  rw [exec_braEj_split hf hme, State.braEjSplit_of_ejectable hsides hle h0 hlt he hw, if_pos hfree]

end

/-- The split that stays after an ejection goes on with the other side within its old AM. -/
def Split.stay (now : Nat) (big : Mask) (bp : Dword) (x : Split) : Split :=
  { x with cm := x.am, am := big, pc := bp, pathStart := now, wait := .ready }

/-- The group whose split k stays with the other side, its old CM pushed. -/
def Group.ejectSide (k now : Nat) (small big : Mask) (bp : Dword) (d : Deferred) (x : Group) : Group :=
  ({ x.modSpl k (Split.push [d]) with ejected := x.ejected ||| small } : Group).modSpl k (Split.stay now big bp)

theorem Group.spl_ejectSide {x : Group} {k : Nat} (hk : x.splits.has k = true) (now : Nat) (small big : Mask) (bp : Dword)
    (d : Deferred) : (x.ejectSide k now small big bp d).spl k = ((x.spl k).push [d]).stay now big bp := by
  rw [Group.ejectSide, Group.spl_modSpl_self (by exact (Table.has_modify ..).trans hk)]
  exact congrArg _ (Group.spl_modSpl_self hk _)

theorem Group.spl_ejectSide_other {x : Group} {k j : Nat} (hj : j ≠ k) (now : Nat) (small big : Mask) (bp : Dword)
    (d : Deferred) : (x.ejectSide k now small big bp d).spl j = x.spl j := by
  rw [Group.ejectSide, Group.spl_modSpl_other _ _ hj]
  exact Group.spl_modSpl_other _ _ hj

section
variable {s : State} {g : Pred} {n : BitVec 2} {ofs : BitVec 20} {b gr k : Nat} {small big : Mask} {sp bp : Dword}
  (hf : s.focus = .split b gr k) (hme : s.mayIssue (.braEj g n ofs) g = true)
  (hsides : s.Sides g ofs small big sp bp) (hle : laneCount small ≤ laneCount big)
  (h0 : laneCount small ≠ 0) (hlt : laneCount small < laneCount big) (he : laneCount small ≤ (s.grp b gr).ejt.toNat % 16)
  (hw : 16 ≤ (s.blk b).width) (hfree : laneCount small ≤ s.freeContexts (clusterOfCore (s.blk b).core) (s.blk b).part)
  (h8 : (s.spl b gr k).stack.length < 8)
include hf hme hsides hle h0 hlt he hw hfree h8

/-- A BRA.EJ that ejects: the contexts that the lanes get, and the group of the split that stays. -/
theorem exec_braEj_ejects : ∃ C m, Sys2Proof.Machine.exec (.braEj g n ofs) s =
      .next ((State.modGrp { s with comets := C } b gr
        (Group.ejectSide k s.now small big bp (s.spl b gr k).cmEntry)).offerBlk b 0x03 gr small.toNat m) ∧
    (∀ c, s.comets.has c = true → C.find c = s.comets.find c) ∧
    ∀ l ∈ lanesOf small, ∃ c x, c ∈ clusterContexts (clusterOfCore (s.blk b).core) ∧ s.comets.has c = false ∧ C.find c = some x ∧
      x = (s.modSpl b gr k (Split.push [(s.spl b gr k).cmEntry])).handOver b gr k l n.toNat sp (ejectDelay (s.blk b).die c) ∧
      (dieOfComet c ≠ (s.blk b).die → ∀ d ∈ clusterContexts (clusterOfCore (s.blk b).core), dieOfComet d = (s.blk b).die →
        C.has d = true) ∧
      (l = lowestLane small → s.MayPick (s.blk b).core c) := by
  have hpush := State.pushEntry_of_room h8 (s.spl b gr k).cmEntry
  generalize ht1 : s.modSpl b gr k (Split.push [(s.spl b gr k).cmEntry]) = t1 at hpush ⊢
  have hblk : t1.blk b = (s.blk b).modGrp gr fun x => x.modSpl k (Split.push [(s.spl b gr k).cmEntry]) := by
    rw [← ht1, State.modSpl, State.blk_modGrp]
  have hcore : (t1.blk b).core = (s.blk b).core := by rw [hblk]; rfl
  have hdie : (t1.blk b).die = (s.blk b).die := by rw [hblk]; rfl
  have hcomets : t1.comets = s.comets := by rw [← ht1]; rfl
  have hroom : (lanesOf small).length ≤ (t1.emptyContexts (clusterOfCore (t1.blk b).core)).length := by
    rw [State.freeContexts] at hfree
    rw [hcore, State.emptyContexts, hcomets]
    exact hfree.trans (Nat.min_le_left _ _)
  obtain ⟨C, hC, hkeep, hgave⟩ := State.ejectLanes_spec b gr k n.toNat sp (lanesOf small) (lanesOf_nodup _) t1 hroom
  refine ⟨C, (t1.ejectLanes b gr k n.toNat sp (lanesOf small)).2, ?_, fun c hc => ?_, fun l hl => ?_⟩
  · rw [exec_braEj_split hf hme, State.braEjSplit_of_ejectable hsides hle h0 hlt he hw, if_neg (by omega)]
    have hpush' : s.pushEntry b gr k { path := false, pc := 0, mask := (s.spl b gr k).cm } = some t1 := hpush
    simp only [hpush', hC]
    have hcomm : ({ t1 with comets := C } : State) = State.modGrp { s with comets := C } b gr fun x =>
        x.modSpl k (Split.push [(s.spl b gr k).cmEntry]) := by
      rw [← ht1]
      rfl
    rw [hcomm, State.modSpl, State.modGrp_modGrp, State.modGrp_modGrp]
    rfl
  · rw [hkeep c (by rw [hcomets, hc]), hcomets]
  · obtain ⟨c, ⟨hcl, hn, hfind, hnear⟩, hmay⟩ := hgave l hl
    rw [hcore] at hcl hnear hmay
    rw [hdie] at hfind hnear
    rw [hcomets] at hn
    refine ⟨c, _, hcl, hn, hfind, rfl, hnear, fun hlow => ?_⟩
    have hhead : (lanesOf small).head? = some l := by
      rw [hlow, lowestLane]
      cases hls : lanesOf small with
      | nil => rw [hls] at hl; exact absurd hl List.not_mem_nil
      | cons j js => rfl
    have hon (j : Nat) : t1.freeOn (clusterOfCore (s.blk b).core) j = s.freeOn (clusterOfCore (s.blk b).core) j := by
      rw [State.freeOn, hcomets]
      rfl
    obtain ⟨hcl', hn', hnear', hmost⟩ := hmay hhead
    rw [hcomets] at hn' hnear'
    exact ⟨hcl', hn', hnear', fun d hd hdd => by rw [← hon, ← hon]; exact hmost d hd hdd⟩

/-- A BRA.EJ with a context for each lane of the smaller side. -/
theorem braEj_ejects (ham : s.amOk b gr k) : ∃ t m, Sys2Proof.Machine.exec (.braEj g n ofs) s = .next t ∧ t.mem = s.mem ∧ t.pc = bp ∧
    t.lanes = big ∧ (t.spl b gr k).cm = s.lanes ∧
    (t.spl b gr k).stack = { path := false, pc := 0, mask := (s.spl b gr k).cm } :: (s.spl b gr k).stack ∧
    (t.grp b gr).ejected = (s.grp b gr).ejected ||| small ∧ (∀ j, j ≠ k → t.spl b gr j = s.spl b gr j) ∧
    t.taps = (s.offerBlk b 0x03 gr small.toNat m).taps ∧
    (∀ c, s.comets.has c = true → t.comets.find c = s.comets.find c) ∧
    (∀ l ∈ lanesOf small, ∃ c ∈ clusterContexts (clusterOfCore (s.blk b).core), s.comets.has c = false ∧ t.comets.has c = true ∧
      (t.ctx c).blk = b ∧ (t.ctx c).grp = gr ∧ (t.ctx c).lane = l ∧ (t.ctx c).pc = sp ∧ (t.ctx c).started = false ∧
      (t.ctx c).notBefore = s.now + (if dieOfComet c = (s.blk b).die then 24 else 40) ∧
      (dieOfComet c ≠ (s.blk b).die → ∀ d ∈ clusterContexts (clusterOfCore (s.blk b).core), dieOfComet d = (s.blk b).die →
        t.comets.has d = true) ∧
      (l = lowestLane small → ∀ d ∈ clusterContexts (clusterOfCore (s.blk b).core), dieOfComet d = dieOfComet c →
        (s.freeOn (clusterOfCore (s.blk b).core) (cometCore d)).length ≤
          (s.freeOn (clusterOfCore (s.blk b).core) (cometCore c)).length) ∧
      ∀ r < 64, (((s.grp b gr).lv.getD n.toNat 0).getLsbD r = true → (t.ctx c).vregs.getD r 0 = s.rdV r l)) := by
  obtain ⟨hb, hg, hk⟩ := State.listed_of_issuing hf (issuing_of_mayIssue hme)
  obtain ⟨C, m, hexec, hkeep, hgave⟩ := exec_braEj_ejects hf hme hsides hle h0 hlt he hw hfree h8
  generalize hF : Group.ejectSide k s.now small big bp (s.spl b gr k).cmEntry = F at hexec
  have hgrp : ((State.modGrp { s with comets := C } b gr F).offerBlk b 0x03 gr small.toNat m).grp b gr = F (s.grp b gr) :=
    State.grp_modGrp_self (s := { s with comets := C }) hb hg F
  have hspl : ((State.modGrp { s with comets := C } b gr F).offerBlk b 0x03 gr small.toNat m).spl b gr k =
      ((s.spl b gr k).push [(s.spl b gr k).cmEntry]).stay s.now big bp := by
    rw [State.spl, hgrp, ← hF]
    exact Group.spl_ejectSide hk ..
  have hft : ((State.modGrp { s with comets := C } b gr F).offerBlk b 0x03 gr small.toNat m).focus = .split b gr k := hf
  have hblk : (State.modGrp { s with comets := C } b gr F).blk b = (s.blk b).modGrp gr F :=
    State.blk_modGrp { s with comets := C } b gr F
  have ham' : (s.spl b gr k).am = s.lanes := ham
  refine ⟨_, m, hexec, rfl, ?_, ?_, ?_, ?_, ?_, fun j hj => ?_, ?_, hkeep, fun l hl => ?_⟩
  · rw [State.pc_of_split hft, hspl]
    rfl
  · have hwidth : ((State.modGrp { s with comets := C } b gr F).blk b).width = (s.blk b).width := by rw [hblk]; rfl
    have hlanes : ((State.modGrp { s with comets := C } b gr F).offerBlk b 0x03 gr small.toNat m).lanes =
        big &&& allLanes (s.blk b).width := by
      rw [State.lanes, hft]
      simp only [hspl]
      exact congrArg (fun w => big &&& allLanes w) hwidth
    rw [hlanes]
    refine mask_ext fun l => ?_
    rw [hasLane_and]
    cases hl : hasLane big l with
    | false => rfl
    | true =>
      have hin := hsides.big_subset hl
      rw [State.lanes, hf, hasLane_and, Bool.and_eq_true] at hin
      rw [hin.2]
      rfl
  · rw [hspl, ← ham']
    rfl
  · rw [hspl]
    rfl
  · rw [hgrp, ← hF]
    rfl
  · rw [State.spl, hgrp, ← hF]
    exact Group.spl_ejectSide_other hj ..
  · simp only [State.offerBlk, State.offer, hblk]
    rfl
  · obtain ⟨c, x, hcl, hn, hfind, hx, hnear, hmay⟩ := hgave l hl
    have hctx : ((State.modGrp { s with comets := C } b gr F).offerBlk b 0x03 gr small.toNat m).ctx c = x :=
      Table.getD_of_find _ hfind
    have hlv : ((s.modSpl b gr k (Split.push [(s.spl b gr k).cmEntry])).grp b gr).lv = (s.grp b gr).lv := by
      rw [State.grp_modSpl_self hb hg]
      rfl
    refine ⟨c, hcl, hn, Table.has_of_find hfind, ?_, ?_, ?_, ?_, ?_, ?_, hnear, fun hlow => (hmay hlow).most, fun r hr hlive => ?_⟩
    case refine_7 =>
      rw [hctx, hx, State.vregs_handOver (s := s.modSpl b gr k _) hf k l n.toNat sp _ hr (by rw [hlv]; exact hlive),
        State.rdV_modSpl]
    all_goals
      rw [hctx, hx]
      rfl

end

/-- Settles O17: the paths of a branch whose lanes agree are one; BRA.EJ gives the lanes of its smaller side contexts one after the
other. -/
theorem branches : Obligations.Branches := by
  unfold Obligations.Branches
  refine ⟨branch_agrees, fun i g s c tgt hf ht hm hl hgood => branch_comet hf ht hm hl hgood, branch_bad, ?_⟩
  intro g n ofs s b gr k small big sp bp hf hme hmb ham _ hsides hle
  refine ⟨fun h => exec_braEj_plain hf hme hmb hsides hle h, fun h0 hlt he hw => ⟨fun hfree => ?_, fun hfree h8 => ?_⟩⟩
  · exact exec_braEj_declined hf hme hmb hsides hle h0 hlt he hw hfree
  · exact braEj_ejects hf hme hsides hle h0 hlt he hw hfree h8 ham

end Sys2Proof.Machine

end


section

/-!
PROOFS. A step whose turn is an event's, a filter program's, a sequencer's or a comet context's (06 R146; 10 R222; 14 R300;
17 R362; 20 R418, R419), for the statement O8.
-/

namespace Sys2Proof.Machine

set_option linter.constructorNameAsVariable false

/-! ## The turn of a step -/

theorem step_turn {s t : State} {x : Turn} {ts : List Turn} (ha : s.agenda = x :: ts)
    (h : ({ s with agenda := ts } : State).takeTurn x = .next t) : step s = .next { t with focus := .idle } := by
  simp only [step, ha, h, unfocus]

theorem step_halted {s : State} {x : Turn} {ts : List Turn} (ha : s.agenda = x :: ts) (hh : s.halted = true)
    (hx : x.always = false) : step s = .next { ({ s with agenda := ts } : State) with focus := .idle } := by
  have hh' : ({ s with agenda := ts } : State).halted = true := hh
  simp only [step, ha, State.takeTurn, hh', hx, Bool.not_false, Bool.and_self, if_true, unfocus]

theorem Turn.always_eq_false {x : Turn} (h1 : x ≠ .tick) (h2 : x ≠ .event .coldReset) : x.always = false := by
  unfold Turn.always
  split
  · exact absurd rfl h1
  · exact absurd rfl h2
  · rfl

section
variable {s : State} (hh : s.halted = false)
include hh

theorem State.takeTurn_event (i : Instr) : s.takeTurn (.event i) = Sys2Proof.Machine.exec i s := by simp [State.takeTurn, hh]
theorem State.takeTurn_filter (m : Nat) : s.takeTurn (.filter m) = .next (s.filterTurn m) := by simp [State.takeTurn, hh]
theorem State.takeTurn_seqr (b : Nat) : s.takeTurn (.seqr b) = .next (s.seqTurn b) := by simp [State.takeTurn, hh]
theorem State.takeTurn_parity (f : Focus) : s.takeTurn (.parity f) = .next (s.parityTurn f) := by simp [State.takeTurn, hh]
theorem State.takeTurn_comet (c : Nat) : s.takeTurn (.comet c) = .next (s.cometTurn c) := by simp [State.takeTurn, hh]

end

/-! ## A turn of a filter program -/

theorem State.filterTurn_of_word {s v t : State} {m : Nat} {r : Run} {a : Attach} {i : Instr}
    (hv : v = { s with focus := .filter m }) (hen : (s.merid m).en = true) (hrun : (s.merid m).run = some r)
    (hslot : (s.merid m).slots.find r.slot = some a) (hd : decodeFilter (BitVec.ofNat 16 (a.words.getD r.pc 0)) = some i)
    (hx : Sys2Proof.Machine.exec i v = .next t) : s.filterTurn m = t := by
  subst hv
  have h1 : (({ s with focus := .filter m } : State).merid m).run = some r := hrun
  have h2 : (({ s with focus := .filter m } : State).merid m).slots.find r.slot = some a := hslot
  have h3 : (({ s with focus := .filter m } : State).merid m).en = true := hen
  simp only [State.filterTurn, h1, h2, h3, hd, runInstr_of_next hx, Bool.not_true, Bool.false_eq_true, if_false]

/-! ## A turn of a sequencer -/

@[simp] theorem State.blocks_keepFetch (s : State) (p : Site) (va : Nat) : (s.keepFetch p va).blocks = s.blocks := by
  unfold State.keepFetch
  split
  · exact State.blocks_useEntry ..
  · rfl

@[simp] theorem State.seq_keepFetch (s : State) (p : Site) (va b : Nat) : (s.keepFetch p va).seq b = s.seq b := by
  rw [State.seq, State.blk, State.blocks_keepFetch]
  rfl

theorem State.modSeq_modSeq (s : State) (b : Nat) (f h : Seq → Seq) : (s.modSeq b f).modSeq b h = s.modSeq b (h ∘ f) := by
  simp only [State.modSeq, State.modBlk, Table.modify_modify]
  congr 2
  funext x
  simp [Option.map_map]

/-- What a sequencer becomes depends on what it is only. -/
theorem State.modSeq_congr {s : State} {b : Nat} {f h : Seq → Seq} (he : f (s.seq b) = h (s.seq b)) :
    s.modSeq b f = s.modSeq b h := by
  have hb : s.blocks.modify b (fun x => { x with seq := x.seq.map f }) =
      s.blocks.modify b fun x => { x with seq := x.seq.map h } := by
    refine Table.modify_congr fun x hx => ?_
    cases hq : x.seq with
    | none => rfl
    | some q =>
      rw [State.seq, State.blk, Table.getD_of_find _ hx, hq, Option.getD_some] at he
      rw [Option.map_some, Option.map_some, he]
  rw [State.modSeq, State.modSeq, State.modBlk, State.modBlk, hb]

section
variable {b : Nat} {js : List Instr} (hn : ∀ i ∈ js, waitingCol i = none)
include hn

/-- Slots that none waits for run nothing before the bundle issues. -/
theorem State.runWaits_of_none_waits (s : State) : s.runWaits b js = s := by
  unfold State.runWaits
  induction js with
  | nil => rfl
  | cons i js ih =>
    rw [List.foldl_cons, hn i List.mem_cons_self]
    exact ih fun j hj => hn j (List.mem_cons_of_mem i hj)

theorem State.waitsDone_of_none_waits (s : State) : s.waitsDone b js = true := by
  rw [State.waitsDone, List.all_eq_true]
  intro i hi
  rw [hn i hi]

theorem filter_waitingCol_of_none_waits : (js.filter fun i => (waitingCol i).isNone) = js :=
  List.filter_eq_self.mpr fun i hi => by rw [hn i hi]; rfl

end

/-- A bundle without waits that passes every check issues. -/
theorem State.tryBundle_of_passes {s y : State} {b : Nat} {d : Bundle} {js : List Instr}
    (hjs : js = (s.seq b).active d) (hchk : (s.seq b).checked = false)
    (hy : y = s.modSeq b fun q =>
      { q with since := some (q.since.getD s.now), reserved := if q.since.isSome then q.reserved else s.tileRanges b js })
    (hc : (s.seq b).since.isSome = true ∨ s.candidate b js = none) (hn : ∀ i ∈ js, waitingCol i = none)
    (hat : y.atIssue b js = none) (hp : y.bundlePend b js = false) (hbd : y.schk b = false ∨ y.boardStop b js = none) :
    s.tryBundle b d = y.issueBundle b d js := by
  have hsince : (if (s.seq b).since.isSome then none else s.candidate b js) = none := by
    rcases hc with h | h
    · rw [if_pos h]
    · rw [h, ite_self]
  have hboard : (if y.schk b then y.boardStop b js else none) = none := by
    rcases hbd with h | h
    · simp [h]
    · rw [h, ite_self]
  have hs2 : ((s.modSeq b fun q =>
      { q with since := some (q.since.getD s.now), checked := true,
               reserved := if q.since.isSome then q.reserved else s.tileRanges b js }).runWaits b js).modSeq b
        (fun q => { q with checked := false }) = y := by
    rw [State.runWaits_of_none_waits hn, State.modSeq_modSeq, hy]
    refine State.modSeq_congr ?_
    simp [hchk]
  unfold State.tryBundle
  dsimp only
  rw [← hjs, hsince]
  dsimp only
  rw [hs2, State.waitsDone_of_none_waits hn, filter_waitingCol_of_none_waits hn, hat]
  simp only [Bool.not_true, Bool.false_eq_true, if_false, hp, hboard]

end Sys2Proof.Machine

end


section

namespace Sys2Proof.Machine

set_option linter.constructorNameAsVariable false

/-- A sequencer's turn tries the bundle at its PC, unless a pre-emption holds it at a safe point. -/
theorem State.seqTurn_of_bundle {s v : State} {b : Nat} {d : Bundle} (hv : v = { s with focus := .seqr b })
    (hs : v.hasSeq b = true) (hm : (v.seq b).mayIssue v.now = true) (hr : (v.blk b).reserving = [])
    (hd : v.fetchBundle b = .ok d) (hp : d.head.safe = false ∨ (v.blk b).preempt = none) :
    s.seqTurn b = (v.keepFetch v.site (v.seq b).pc.toNat).tryBundle b d := by
  subst hv
  have hpre : ¬ (d.head.safe && ((({ s with focus := .seqr b } : State).blk b).preempt.isSome)) = true := by
    rcases hp with h | h <;> simp [h]
  unfold State.seqTurn
  dsimp only
  rw [hs, hm, hr, hd]
  exact if_neg hpre

/-- A parity error of what serves a ready split's instruction traps it. -/
theorem State.parityTurn_of_split {s v : State} {b g k : Nat} (hv : v = { s with focus := .split b g k })
    (hr : s.splitReady b g k = true) (hh : v.trapHeld b g k 0xA6 = false) :
    s.parityTurn (.split b g k) = v.takeTrap 0xA6 := by
  subst hv
  simp only [State.parityTurn, hr, hh, Bool.not_false, Bool.and_self, if_true]

/-! ## A turn of a comet context -/

theorem State.unitIssued_iff_of_comet {s t : State} {c : Nat} (hf : s.focus = .comet c) :
    s.unitIssued t = true ↔ ¬ (t.comets.find c = s.comets.find c ∧ s.atBranch = false) := by
  simp only [State.unitIssued, hf, Bool.or_eq_true, bne_iff_ne, ne_eq]
  cases s.atBranch <;> simp

theorem State.cometIssue_eq {s v : State} {d : Nat} (hv : v = { s with focus := .comet d }) :
    s.cometIssue d = cometIssuedBy v v.unitStep d := by
  have hf : v.focus = .comet d := by rw [hv]
  have hissue : s.cometIssue d =
      if v.unitIssued v.unitStep then v.unitStep.modCtx d fun x => { x with lastIssue := v.nextCometIssue (d / 8) }
      else v.unitStep := by
    subst hv; rfl
  rw [hissue, cometIssuedBy]
  by_cases hkept : v.unitStep.comets.find d = v.comets.find d ∧ v.atBranch = false
  · rw [if_pos hkept, if_neg fun hi => (State.unitIssued_iff_of_comet hf).mp hi hkept]
  · rw [if_neg hkept, if_pos ((State.unitIssued_iff_of_comet hf).mpr hkept)]

/-- A comet-core cycle falls to a context of its core. -/
theorem State.cometTurn_of_cycle {s v : State} {c d : Nat} (hr : s.cometReady c = true) (hw : (s.ctx c).wait = .ready)
    (hd : s.cycleOf c = some d) (hv : v = { s.clearCometYields (c / 8) with focus := .comet d }) :
    s.cometTurn c = cometIssuedBy v v.unitStep d := by
  rw [← State.cometIssue_eq hv]
  simp only [State.cometTurn, hr, hw, hd, Bool.not_true, bne_self_eq_false, Bool.false_eq_true, if_false]

theorem State.cometTurn_of_wait {s v : State} {c : Nat} (hr : s.cometReady c = true) (hw : (s.ctx c).wait ≠ .ready)
    (hv : v = { s with focus := .comet c }) : s.cometTurn c = v.retryStep := by
  subst hv
  simp only [State.cometTurn, hr, bne_iff_ne.mpr hw, Bool.not_true, Bool.false_eq_true, if_false, if_true]

theorem State.has_of_cometReady {s : State} {c : Nat} (h : s.cometReady c = true) : s.comets.has c = true := by
  simp only [State.cometReady, Bool.and_eq_true] at h
  exact h.1.1.1.1.1.1.1

section
variable {s : State} {c : Nat} (hf : s.focus = .comet c)
include hf

theorem State.retryStep_of_comet_word (h : ∀ n k, (s.ctx c).wait ≠ .blocked (.stamps n) k) : s.retryStep = s.unitStep := by
  unfold State.retryStep
  split
  · next n k hw =>
    rw [State.unitWait, hf] at hw
    exact absurd hw (h n k)
  · rfl

theorem State.retryStep_of_comet_stamps {n k : Nat} (h : (s.ctx c).wait = .blocked (.stamps n) k) :
    s.retryStep = s.emitDone n := by
  simp only [State.retryStep, State.unitWait, hf, h]

/-- A context that goes on leaves memory and the stores alone. -/
theorem State.comet_skip (hc : s.comets.has c = true) (n : Nat) :
    ((s.skip n).ctx c).pc = (s.ctx c).pc + BitVec.ofNat 64 n ∧ ((s.skip n).ctx c).wait = .ready ∧ (s.skip n).mem = s.mem ∧
      (s.skip n).stores = s.stores := by
  have hpc : s.pc = (s.ctx c).pc := by rw [State.pc, hf]
  rw [State.skip, State.setPc_of_comet hf, State.ctx_modCtx_self _ _ _ hc, hpc]
  exact ⟨rfl, rfl, rfl, rfl⟩

end

/-- An EMIT of a comet context that waits for its stores looks whether they have performed. -/
theorem State.cometTurn_of_stamps {s v : State} {c n k : Nat} (hv : v = { s with focus := .comet c })
    (hr : s.cometReady c = true) (hw : (s.ctx c).wait = .blocked (.stamps n) k) : s.cometTurn c = v.emitDone n := by
  have hne : (s.ctx c).wait ≠ .ready := by rw [hw]; exact nofun
  rw [State.cometTurn_of_wait hr hne hv, State.retryStep_of_comet_stamps (by rw [hv]) (by rw [hv]; exact hw)]

end Sys2Proof.Machine

end


section

/-!
PROOFS. What a clock does to its own number (15 R328): everything that its end, the windows and the distribution at its
beginning, the trials of the units and the arbitration of the ports run leaves it alone, and the beginning of the clock
raises it by 1. For each function of the model that a clock runs one lemma says so, in the order of the definitions; for
the statement O8.
-/

namespace Sys2Proof.Machine

set_option linter.constructorNameAsVariable false

/-! ## Rules for the shapes of the model's functions -/

/-- A fold whose steps leave the clock alone leaves it alone. -/
theorem State.now_foldl {α : Type} {f : State → α → State} (h : ∀ t a, (f t a).now = t.now) (l : List α) (s : State) :
    (l.foldl f s).now = s.now :=
  State.foldl_keeps State.now f h l s

@[simp] theorem State.now_ite {c : Prop} [Decidable c] (s t : State) :
    (if c then s else t).now = if c then s.now else t.now :=
  apply_ite State.now ..

/-- An iteration of a partial step that leaves the clock alone leaves it alone. -/
theorem now_iterOpt {f : State → Option State} (hf : ∀ t r, f t = some r → r.now = t.now) {n : Nat} {s : State} :
    (iterOpt n f s).now = s.now := by
  induction n generalizing s with
  | zero => rfl
  | succ n ih =>
    rw [iterOpt]
    split
    · next r e => rw [ih, hf s r e]
    · rfl

/-- Two stops tried in turn: each leaves the clock alone, so whichever stands does. -/
theorem State.now_of_orElse {x : Option State} {f : Unit → Option State} {r : State} {clk : Nat}
    (hx : ∀ u, x = some u → u.now = clk) (hf : ∀ u, f () = some u → u.now = clk) (e : x.orElse f = some r) :
    r.now = clk := by
  rw [Option.orElse_eq_or, Option.or_eq_some_iff] at e
  rcases e with e | ⟨-, e⟩
  · exact hx r e
  · exact hf r e

/-! ## Outcomes whose states have a given clock -/

/-- Every state that an outcome of `Out` carries has this clock. -/
def Out.NowAt (clk : Nat) : Out → Prop
  | .next t => t.now = clk
  | .fault _ => True
  | .refused _ => True

@[simp] theorem Out.nowAt_next {clk : Nat} {t : State} : Out.NowAt clk (.next t) ↔ t.now = clk := .rfl
@[simp] theorem Out.nowAt_refused {clk : Nat} {a} : Out.NowAt clk (.refused a) := trivial

theorem Out.NowAt.next {clk : Nat} {x : Out} {u : State} (hx : x.NowAt clk) (e : x = .next u) : u.now = clk := by
  subst e; exact hx

/-- Every state that an outcome of `Chk` carries has this clock. -/
def Chk.NowAt (clk : Nat) : Chk → Prop
  | .stop t => t.now = clk
  | .ok _ => True

@[simp] theorem Chk.nowAt_stop {clk : Nat} {t : State} : Chk.NowAt clk (.stop t) ↔ t.now = clk := .rfl
@[simp] theorem Chk.nowAt_ok {clk : Nat} {a} : Chk.NowAt clk (.ok a) := trivial

theorem Chk.NowAt.stop {clk : Nat} {x : Chk} {u : State} (hx : x.NowAt clk) (e : x = .stop u) : u.now = clk := by
  subst e; exact hx

/-! ## The clock: the functions of `Machine/Home` -/

@[simp] theorem State.now_revoke (s : State) (k : Option Nat) (ws : List Nat) : (s.revoke k ws).now = s.now :=
  congrArg Prod.fst (State.ledger_revoke ..)

@[simp] theorem State.now_dropCopies (s : State) (c k n : Nat) : (s.dropCopies c k n).now = s.now :=
  congrArg Prod.fst (State.ledger_dropCopies ..)

@[simp] theorem State.now_noteDirty (s : State) (cs : List Host.Cell) : (s.noteDirty cs).now = s.now := rfl

@[simp] theorem State.now_touchLine (s : State) (vf : Nat) (low need : Bool) (key : Nat) :
    (s.touchLine vf low need key).now = s.now := by
  simp [State.touchLine]

@[simp] theorem State.now_trimLane (s : State) (c line : Nat) : (s.trimLane c line).now = s.now :=
  congrArg Prod.fst (State.ledger_trimLane ..)

@[simp] theorem State.now_writeHome (s : State) (cs : List Host.Cell) : (s.writeHome cs).now = s.now :=
  (congrArg State.now (State.aside_writeHome ..) :)

theorem State.now_commit (s : State) (cs : List Host.Cell) (o : Option (Nat × Option Nat)) (vf : Nat) (f : Fill) :
    (s.commit cs o vf f).now = s.now :=
  congrArg Prod.fst (State.ledger_commit ..)

@[simp] theorem State.now_setDirty {s : State} {e : TlbEntry} : (s.setDirty e).now = s.now :=
  congrArg Prod.fst (State.ledger_setDirty ..)

/-! ## The clock: the functions of `Machine/Ops` -/

@[simp] theorem State.now_wrVPair (s : State) (m l : Nat) (v : Dword) : (s.wrVPair m l v).now = s.now := by
  simp [State.wrVPair]

@[simp] theorem State.now_putLanes (s : State) (ls : List Nat) (f : State → Nat → State)
    (hf : ∀ t l, (f t l).now = t.now) : (s.putLanes ls f).now = s.now :=
  (State.putLanes_proj State.now s ls f hf)

@[simp] theorem State.now_reportPark (s : State) (b kind slot split lane : Nat) (t : TrapState) (splitix : Nat) :
    (s.reportPark b kind slot split lane t splitix).now = s.now :=
  rfl

@[simp] theorem State.now_touchCtx {s : State} {b a n : Nat} {wr : Bool} : (s.touchCtx b a n wr).now = s.now :=
  (congrArg State.now (State.aside_touchCtx ..) :)

@[simp] theorem State.now_writeCtx {s : State} {b a : Nat} {bs : List Byte} : (s.writeCtx b a bs).now = s.now :=
  (congrArg State.now (State.aside_writeCtx ..) :)

@[simp] theorem State.now_takeTrapN {s : State} {cause n : Nat} {lmask : Mask} {info : Dword} :
    (s.takeTrapN cause n lmask info).now = s.now := by
  unfold State.takeTrapN
  split <;> simp

@[simp] theorem State.now_takeTrap {s : State} {cause : Nat} : (s.takeTrap cause).now = s.now := by
  simp [State.takeTrap]

@[simp] theorem State.now_trapWith {s : State} {cause : Nat} {lmask : Mask} {info : Dword} :
    (s.trapWith cause lmask info).now = s.now := by
  simp [State.trapWith]

/-! ## The clock: the functions of `Machine/Operands` -/

theorem Out.now_laneRun {i : Instr} {g : Pred} {s : State} {body : State → Out} (hb : Out.NowAt s.now (body s)) :
    Out.NowAt s.now (laneRun i g s body) := by
  unfold laneRun
  dsimp only
  repeat' split
  case isFalse => exact hb
  all_goals simp

theorem Out.now_laneSimple {i : Instr} {g : Pred} {s : State} {eff : State → State} (he : (eff s).now = s.now) :
    Out.NowAt s.now (laneSimple i g s eff) :=
  Out.now_laneRun (by simpa using he)

@[simp] theorem now_vEffect (g : Pred) (d : Reg) (f : State → Nat → Word) (s : State) : (vEffect g d f s).now = s.now := by
  simp [vEffect]

/-! ## The clock: the functions of `Machine/Splits` -/

@[simp] theorem State.now_writeSpill {s : State} {b g k i : Nat} {ds : List Deferred} :
    (s.writeSpill b g k i ds).now = s.now := by
  simp [State.writeSpill]

theorem State.now_of_pushEntry {s r : State} {b g k : Nat} {d : Deferred} (e : s.pushEntry b g k d = some r) :
    r.now = s.now := by
  unfold State.pushEntry at e
  dsimp only at e
  repeat' split at e
  all_goals cases e
  · rfl
  · exact State.now_writeSpill

theorem State.now_of_pushAll {s r : State} {b g k : Nat} {ds : List Deferred} (e : s.pushAll b g k ds = some r) :
    r.now = s.now := by
  induction ds generalizing s with
  | nil =>
    obtain rfl : s = r := Option.some.inj e
    rfl
  | cons d ds ih =>
    obtain ⟨u, hu, e⟩ := Option.bind_eq_some_iff.mp e
    exact (ih e).trans (State.now_of_pushEntry hu)

@[simp] theorem State.now_refill {s : State} {b g k : Nat} : (s.refill b g k).now = s.now := by
  unfold State.refill
  extract_lets sp
  split
  · rw [State.modSpl_now]
    exact State.now_touchCtx
  · rfl

@[simp] theorem State.now_popEntry {s : State} {b g k : Nat} : (s.popEntry b g k).now = s.now := by
  simp [State.popEntry]

@[simp] theorem State.now_popPath {s : State} {b g k : Nat} : (s.popPath b g k).now = s.now := by
  unfold State.popPath
  split <;> simp

@[simp] theorem State.now_rotate {s : State} {b g k : Nat} : (s.rotate b g k).now = s.now := by
  unfold State.rotate
  split <;> simp

theorem State.now_of_diverge {s r : State} {b g k : Nat} {ps : List (Dword × Mask)}
    (e : s.diverge b g k ps = some r) : r.now = s.now := by
  unfold State.diverge at e
  split at e
  · cases e; rfl
  · obtain ⟨u, hu, e⟩ := Option.bind_eq_some_iff.mp e
    refine (State.now_of_pushAll e).trans ((State.now_foldl (fun _ _ => by rfl) _ _).trans ?_)
    simpa using State.now_of_pushEntry hu

@[simp] theorem State.now_branch {s s0 : State} {b g k : Nat} {nextPc : Nat → Dword} (h : s0.now = s.now) :
    (s.branch s0 b g k nextPc).now = s.now := by
  unfold State.branch
  dsimp only
  repeat' split
  · rfl
  · exact State.now_rotate
  · rfl
  · exact State.now_of_diverge ‹_›
  · exact State.now_takeTrap.trans h

@[simp] theorem State.now_dropCache (s : State) (c : Nat) : (s.dropCache c).now = s.now := rfl
@[simp] theorem State.now_selfInvalidate (s : State) (core : Nat) : (s.selfInvalidate core).now = s.now := rfl
@[simp] theorem State.now_dropLaneCache (s : State) (c : Nat) : (s.dropLaneCache c).now = s.now := rfl

@[simp] theorem State.now_takeStack {s : State} {b g k j : Nat} : (s.takeStack b g k j).now = s.now := by
  simp [State.takeStack]

@[simp] theorem State.now_merge {s : State} {b g : Nat} {cm : Mask} : (s.merge b g cm).now = s.now := by
  have htop (t u : State) (k : Nat) : (match t.topEntry b g k with
      | some d => (u.popEntry b g k).modSpl b g k fun y => { y with cm := d.mask }
      | none => u).now = u.now := by
    split <;> simp
  unfold State.merge
  extract_lets
  split
  · rfl
  · extract_lets rest pc deep s0 top s1 s2 s3
    have h3 : s3.now = s.now := by
      refine (State.now_foldl (fun _ _ => by rfl) _ _).trans ((htop _ _ _).trans ?_)
      simp [s1, s0]
    repeat' split
    all_goals simp [h3]

theorem State.now_of_tryCollect {s : State} {r : Nat × State} {b g : Nat} {pc : Dword}
    (e : s.tryCollect b g pc = some r) : r.2.now = s.now := by
  unfold State.tryCollect at e
  dsimp only at e
  split at e
  · cases e
  · split at e <;> cases e
    exact State.now_foldl (fun _ _ => by rfl) _ _

@[simp] theorem State.now_freeEmpty (s : State) (b g : Nat) : (s.freeEmpty b g).now = s.now := rfl

theorem State.now_of_settleOnce {s r : State} {b g : Nat} (e : s.settleOnce b g = some r) : r.now = s.now := by
  unfold State.settleOnce at e
  dsimp only at e
  split at e
  · cases e; exact State.now_merge
  · split at e
    · obtain ⟨p, hp, rfl⟩ := Option.map_eq_some_iff.mp e
      exact State.now_of_tryCollect hp
    · cases e

@[simp] theorem State.now_settle {s : State} {b g : Nat} : (s.settle b g).now = s.now :=
  (now_iterOpt fun _ _ => State.now_of_settleOnce).trans (by simp)

@[simp] theorem State.now_endPath {s : State} {b g k : Nat} : (s.endPath b g k).now = s.now := by simp [State.endPath]

@[simp] theorem State.now_joinSplit {s : State} {b g k : Nat} {next : Dword} : (s.joinSplit b g k next).now = s.now := by
  simp [State.joinSplit]

@[simp] theorem State.now_block {s : State} {b g k : Nat} {on : WaitOn} : (s.block b g k on).now = s.now := by
  simp [State.block]

@[simp] theorem State.now_blockUnit {s : State} {on : WaitOn} : (s.blockUnit on).now = s.now := by
  unfold State.blockUnit
  split <;> simp

@[simp] theorem State.now_unblock (s : State) : s.unblock.now = s.now := by
  unfold State.unblock
  split <;> simp

@[simp] theorem State.now_acquireUnit (s : State) : s.acquireUnit.now = s.now := by
  unfold State.acquireUnit
  split <;> simp

/-! ## The clock: the functions of `Machine/Barriers` -/

@[simp] theorem State.now_gangLeave (s : State) (b : Nat) : (s.gangLeave b).now = s.now := by
  unfold State.gangLeave
  repeat' split
  all_goals simp

@[simp] theorem State.now_freeTiles (s : State) (b g : Nat) : (s.freeTiles b g).now = s.now := rfl
@[simp] theorem State.now_exitDbars (s : State) (b g : Nat) (live : Mask) : (s.exitDbars b g live).now = s.now := rfl

@[simp] theorem State.now_exitArrivals (s : State) (b g : Nat) : (s.exitArrivals b g).now = s.now := by
  unfold State.exitArrivals
  dsimp only
  repeat' split
  all_goals simp

@[simp] theorem State.now_groupEnd (s : State) (b g : Nat) : (s.groupEnd b g).now = s.now := by simp [State.groupEnd]

@[simp] theorem Out.now_barRun {i : Instr} {g : Pred} {a : BarAct} {n : Nat} {s : State} :
    Out.NowAt s.now (barRun i g a n s) := by
  refine Out.now_laneRun ?_
  dsimp only
  repeat' split
  all_goals simp

@[simp] theorem Out.now_cbarRun {i : Instr} {g : Pred} {a : BarAct} {n : Nat} {s : State} :
    Out.NowAt s.now (cbarRun i g a n s) := by
  refine Out.now_laneRun ?_
  dsimp only
  repeat' split
  all_goals simp

/-! ## The clock: the functions of `Machine/Xlate` -/

@[simp] theorem State.now_tlbFill (s : State) (t : Nat) (e : TlbEntry) : (s.tlbFill t e).now = s.now := rfl

@[simp] theorem State.now_askWalk (s : State) (p : Site) (va : Nat) : (s.askWalk p va).now = s.now := by
  unfold State.askWalk
  dsimp only
  split <;> simp

@[simp] theorem State.now_clearFaults (s : State) (a : Asker) : (s.clearFaults a).now = s.now := rfl

@[simp] theorem State.now_useEntry (s : State) (p : Site) (e : TlbEntry) (l1 : Bool) : (s.useEntry p e l1).now = s.now := by
  simp [State.useEntry]

@[simp] theorem State.now_countFaulted (s : State) (p : Site) (va cause : Nat) :
    (s.countFaulted p va cause).now = s.now := by
  simp [State.countFaulted]

/-! ## The clock: the functions of `Machine/MemPath` -/

@[simp] theorem State.now_fillLine (s : State) (c key : Nat) : (s.fillLine c key).now = s.now := by
  simp [State.fillLine]

@[simp] theorem State.now_fillRo (s : State) (die part key : Nat) : (s.fillRo die part key).now = s.now := by
  unfold State.fillRo
  dsimp only
  repeat' split
  all_goals simp

@[simp] theorem State.now_dropOthers (s : State) (th : Thread) (used : Option Nat) (ws : List Nat) :
    (s.dropOthers th used ws).now = s.now :=
  congrArg Prod.fst (State.ledger_dropOthers ..)

@[simp] theorem State.now_commitShared (s : State) (home : Nat) (cs : List Host.Cell) :
    (s.commitShared home cs).now = s.now :=
  rfl

@[simp] theorem State.now_noteFrame (s : State) (vf f : Nat) : (s.noteFrame vf f).now = s.now := rfl

@[simp] theorem State.now_performGlobal {s : State} {t : StoreOp} : (s.performGlobal t).now = s.now :=
  congrArg Prod.fst (State.ledger_performGlobal ..)

@[simp] theorem State.now_performStore {s : State} {id : Nat} {t : StoreOp} : (s.performStore id t).now = s.now := by
  unfold State.performStore
  split <;> simp

/-! ## The clock: the functions of `Machine/Route` -/

@[simp] theorem State.now_modPort64 (s : State) (q : Nat) (f : FabPort → FabPort) : (s.modPort64 q f).now = s.now :=
  rfl

@[simp] theorem State.now_askOut (s : State) (a : Asker) (b : Nat) (k : OutKind) (key n : Nat) :
    (s.askOut a b k key n).now = s.now := by
  simp [State.askOut]

@[simp] theorem State.now_dropOuts (s : State) (a : Asker) (fetch : Bool) : (s.dropOuts a fetch).now = s.now := rfl

@[simp] theorem State.now_completeOut (s : State) (id : Nat) (r : OutReq) (c : Completion) :
    (s.completeOut id r c).now = s.now := by
  simp [State.completeOut]

/-! ## The clock: the functions of `Machine/Arbiter` -/

@[simp] theorem State.now_charge (s : State) (key part n : Nat) : (s.charge key part n).now = s.now := by
  simp [State.charge]

@[simp] theorem State.now_ask (s : State) (a : Asker) (key part : Nat) : (s.ask a key part).now = s.now := by
  simp [State.ask]

@[simp] theorem State.now_chargeFor (s : State) (a : Asker) (key part n : Nat) :
    (s.chargeFor a key part n).now = s.now := by
  simp [State.chargeFor]

theorem State.now_of_channelStop {s : State} {keys : List Nat} {r : State} (e : s.channelStop keys = some r) :
    r.now = s.now := by
  unfold State.channelStop at e
  dsimp only at e
  repeat' split at e
  all_goals cases e
  all_goals simp [State.now_foldl]

@[simp] theorem State.now_chargeUnit (s : State) (xs : List (Nat × Nat)) : (s.chargeUnit xs).now = s.now := by
  simp [State.chargeUnit, State.now_foldl]

/-! ## The clock: the functions of `Machine/LaneMem` -/

@[simp] theorem State.now_settlePieces {s : State} {forbid : Hit → Bool} {res : List (Piece × Res)} :
    (s.settlePieces forbid res).NowAt s.now := by
  unfold State.settlePieces
  dsimp only
  repeat' split
  all_goals simp [State.now_foldl]

@[simp] theorem State.now_translatePieces {s : State} {kind : AccKind} {wr : Bool} {forbid : MemType → Bool}
    {ps : List Piece} : (s.translatePieces kind wr forbid ps).NowAt s.now := by
  simp [State.translatePieces]

theorem State.now_of_checkGlobal {s r : State} {ls : List Nat} {size : Nat} {ea : Nat → Dword}
    (e : s.checkGlobal ls size ea = some r) : r.now = s.now := by
  unfold State.checkGlobal at e
  repeat' split at e
  all_goals cases e
  all_goals simp

theorem State.now_of_poisonTrap {s : State} {hs : List Hit} {n : Nat} {r : State} (e : s.poisonTrap hs n = some r) :
    r.now = s.now := by
  unfold State.poisonTrap at e
  repeat' split at e
  all_goals cases e
  all_goals simp

theorem State.now_of_outsideStop {s r : State} {k : OutKind} {n : Nat} {hs : List Hit}
    (e : s.outsideStop k n hs = some r) : r.now = s.now := by
  unfold State.outsideStop at e
  dsimp only at e
  repeat' split at e
  all_goals cases e
  · exact State.now_trapWith
  · simp [State.now_foldl]

@[simp] theorem State.now_holdUnit (s : State) (on : WaitOn) : (s.holdUnit on).now = s.now := by
  unfold State.holdUnit
  split <;> simp

@[simp] theorem State.now_blockHost (s : State) (id : Nat) : (s.blockHost id).now = s.now := by simp [State.blockHost]

@[simp] theorem State.now_startOp (t : State) (kind : OpKind) (bytes : Nat) (d : Reg) (pair : Option PairIx)
    (acq ord nt : Bool) (cache : Nat) (hint : Option Nat) (notBefore : Nat) (acc : List Access) (hs : List Hit) :
    (t.startOp kind bytes d pair acq ord nt cache hint notBefore acc hs).now = t.now := by
  simp [State.startOp, State.now_foldl]

@[simp] theorem State.now_countLoads (t : State) (acc : List Access) : (t.countLoads acc).now = t.now := by
  unfold State.countLoads
  split <;> simp

@[simp] theorem State.now_noteReads (t : State) (n cache : Nat) (acc : List Access) :
    (t.noteReads n cache acc).now = t.now := by
  simp [State.noteReads, State.now_foldl]

@[simp] theorem Out.now_loadRun {i : Instr} {g : Pred} {d : Reg} {n : Nat} {acq nt : Bool} {hint : Option Nat}
    {ea : State → Nat → Dword} {s : State} : Out.NowAt s.now (loadRun i g d n acq nt hint ea s) := by
  unfold loadRun
  refine Out.now_laneRun ?_
  dsimp only
  repeat' split
  · simp
  · rfl
  · exact State.now_of_checkGlobal ‹_›
  · exact (State.now_settlePieces).stop ‹_›
  · exact State.now_of_poisonTrap ‹_›
  · simp

@[simp] theorem State.now_startStores {t : State} {d : Reg} {n : Nat} {f : StoreFlags} {cache : Nat}
    {stash : Hit → Option Nat} {hs : List Hit} : (t.startStores d n f cache stash hs).now = t.now := by
  unfold State.startStores
  refine (State.now_foldl (fun _ _ => by rfl) _ _).trans ?_
  exact State.now_foldl (fun u x => by simp) _ _

@[simp] theorem State.now_afterStores (t : State) (first : Nat) : (t.afterStores first).now = t.now := by
  unfold State.afterStores
  split <;> simp

@[simp] theorem Out.now_storeRun {i : Instr} {g : Pred} {d : Reg} {n : Nat} {rel nt : Bool} {hint : Option Nat}
    {ea : State → Nat → Dword} {s : State} : Out.NowAt s.now (storeRun i g d n rel nt hint ea s) := by
  unfold storeRun
  refine Out.now_laneRun ?_
  dsimp only
  repeat' split
  · simp
  · rfl
  · exact State.now_of_checkGlobal ‹_›
  · exact (State.now_settlePieces).stop ‹_›
  · simp

theorem State.now_of_checkLocal {t u : State} {ls : List Nat} {n : Nat} {ea : Nat → Word}
    (e : t.checkLocal ls n ea = .inl u) : u.now = t.now := by
  unfold State.checkLocal at e
  dsimp only at e
  repeat' split at e
  all_goals cases e
  all_goals exact State.now_trapWith

theorem State.now_of_poisonLocal {t : State} {hs : List Hit} {near : List Access} {n : Nat} {r : State}
    (e : t.poisonLocal hs near n = some r) : r.now = t.now := by
  unfold State.poisonLocal at e
  dsimp only at e
  repeat' split at e
  all_goals cases e
  all_goals simp

@[simp] theorem Out.now_ldsRun {i : Instr} {g : Pred} {d : Reg} {n : Nat} {acq : Bool} {ea : State → Nat → Word}
    {s : State} : Out.NowAt s.now (ldsRun i g d n acq ea s) := by
  unfold ldsRun
  refine Out.now_laneRun ?_
  dsimp only
  repeat' split
  · simp
  · rfl
  · exact State.now_of_checkLocal ‹_›
  · exact (State.now_translatePieces).stop ‹_›
  · exact State.now_of_poisonLocal ‹_›
  · simp

@[simp] theorem State.now_sharedStores (t : State) (d : Reg) (n : Nat) (rel : Bool) (ls : List Nat)
    (reg : Nat → Option Region) : (t.sharedStores d n rel ls reg).now = t.now :=
  State.now_foldl (fun _ _ => by rfl) _ _

@[simp] theorem Out.now_stsRun {i : Instr} {g : Pred} {d : Reg} {n : Nat} {rel : Bool} {ea : State → Nat → Word}
    {s : State} : Out.NowAt s.now (stsRun i g d n rel ea s) := by
  unfold stsRun
  refine Out.now_laneRun ?_
  dsimp only
  repeat' split
  · simp
  · rfl
  · exact State.now_of_checkLocal ‹_›
  · exact (State.now_translatePieces).stop ‹_›
  · simp

@[simp] theorem State.now_writeBackWin (s : State) (b w : Nat) : (s.writeBackWin b w).now = s.now := rfl

@[simp] theorem State.now_smapLane (t : State) (d : Reg) (l w g : Nat) : (t.smapLane d l w g).now = t.now := by
  simp [State.smapLane]

@[simp] theorem Out.now_execSmap {g : Pred} {d a b : Reg} {s : State} : Out.NowAt s.now (execSmap g d a b s) := by
  refine Out.now_laneRun ?_
  have htrap {f : Option (Nat × Mask)} {i : Mask → Dword} {u : State}
      (e : (f.map fun x => s.trapWith x.1 x.2 (i x.2)) = some u) : u.now = s.now := by
    obtain ⟨x, -, rfl⟩ := Option.map_eq_some_iff.mp e
    exact State.now_trapWith
  dsimp only
  repeat' split
  · rfl
  · exact htrap (i := fun m => s.rdVPair a.toNat (lowestLane m)) ‹_›
  · exact htrap (i := fun m => s.rdVPair a.toNat (lowestLane m)) ‹_›
  · exact htrap (i := fun m => s.rdVPair a.toNat (lowestLane m)) ‹_›
  · rfl
  · simp

@[simp] theorem State.now_prefLane (t u : State) (a : Reg) (l : Nat) : (t.prefLane u a l).now = u.now := by
  unfold State.prefLane
  dsimp only
  repeat' split
  all_goals simp

@[simp] theorem Out.now_execPref {g : Pred} {a : Reg} {s : State} : Out.NowAt s.now (execPref g a s) := by
  refine Out.now_laneRun ?_
  simp

@[simp] theorem State.now_fenceRel (t : State) (ls : List Nat) : (t.fenceRel ls).now = t.now := rfl

@[simp] theorem Out.now_execFenceRel {g : Pred} {s : State} : Out.NowAt s.now (execFenceRel g s) := by
  unfold execFenceRel
  refine Out.now_laneRun ?_
  dsimp only
  repeat' split
  all_goals simp

@[simp] theorem Out.now_execFenceAcq {g : Pred} {s : State} : Out.NowAt s.now (execFenceAcq g s) := by
  unfold execFenceAcq
  refine Out.now_laneRun ?_
  dsimp only
  repeat' split
  all_goals simp

@[simp] theorem Out.now_execFenceAr {g : Pred} {s : State} : Out.NowAt s.now (execFenceAr g s) := by
  unfold execFenceAr
  refine Out.now_laneRun ?_
  dsimp only
  repeat' split
  all_goals simp

/-! ## The clock: the functions of `Machine/Atomic` -/

theorem State.now_of_cas128Trap {t r : State} {f : AtomFn} {n : Nat} {hs : List Hit}
    (e : t.cas128Trap f n hs = some r) : r.now = t.now := by
  unfold State.cas128Trap at e
  repeat' split at e
  all_goals cases e
  all_goals simp

@[simp] theorem Out.now_atomRun {i : Instr} {g : Pred} {d a : Reg} {f : AtomFn} {n : Nat} {fl : AtomFlags}
    {pair : Option PairIx} {s : State} : Out.NowAt s.now (atomRun i g d a f n fl pair s) := by
  refine Out.now_laneRun ?_
  dsimp only
  repeat' split
  · simp
  · rfl
  · exact State.now_of_checkGlobal ‹_›
  · exact State.now_settlePieces.stop ‹_›
  · exact State.now_of_poisonTrap ‹_›
  · exact State.now_of_cas128Trap ‹_›
  · simp [State.now_foldl]

theorem State.now_of_accessStop {t r : State} {k : OutKind} {n : Nat} {hs : List Hit}
    (e : t.accessStop k n hs = some r) : r.now = t.now := by
  unfold State.accessStop at e
  split at e
  · cases e; exact rfl
  · exact State.now_of_orElse (fun u hu => State.now_of_outsideStop hu) (fun u hu => State.now_of_channelStop hu) e

@[simp] theorem State.now_releaseMonitors (s : State) : s.releaseMonitors.now = s.now := rfl

@[simp] theorem State.now_arm (t : State) (key n : Nat) (c : WCmp) (v : Nat) : (t.arm key n c v).now = t.now := by
  simp [State.arm]

@[simp] theorem State.now_armAll (t : State) (n : Nat) (c : WCmp) (xs : List (Nat × Nat)) :
    (t.armAll n c xs).now = t.now := by
  simp [State.armAll, State.now_foldl]

@[simp] theorem Out.now_execWaitc {g : Pred} {d a : Reg} {w : Bool} {c : WCmp} {s : State} :
    Out.NowAt s.now (execWaitc g d a w c s) := by
  refine Out.now_laneRun ?_
  dsimp only
  repeat' split
  · simp
  · rfl
  · exact State.now_of_checkGlobal ‹_›
  · exact State.now_settlePieces.stop ‹_›
  · exact State.now_of_poisonTrap ‹_›
  · rfl
  · rfl
  · exact State.now_of_accessStop ‹_›
  all_goals simp [State.now_foldl]

/-! ## The clock: the functions of `Machine/Collective` -/

theorem Out.now_collectiveRun {i : Instr} {g : Pred} {x : Bool} {s : State} {body : List Nat → State → State}
    (hb : ∀ ls t, (body ls t).now = t.now) : Out.NowAt s.now (collectiveRun i g x s body) := by
  refine Out.now_laneRun ?_
  have hcol {b gr : Nat} {u : State} {pc : Dword} {r : Nat × State} (e : u.tryCollect b gr pc = some r)
      (hu : u.now = s.now) : r.2.now = s.now := (State.now_of_tryCollect e).trans hu
  dsimp only
  repeat' split
  · simp [hb]
  · exact State.now_rotate
  · rfl
  · exact hcol ‹_› (by exact rfl)
  · simpa [hb] using hcol ‹_› (by exact rfl)
  · rfl

@[simp] theorem now_shflBody (d a b : Reg) (src : Nat → Nat → Nat → Option Nat) (ls : List Nat) (t : State) :
    (shflBody d a b src ls t).now = t.now := by
  simp [shflBody]

@[simp] theorem now_scanBody (d a : Reg) (k : PairIx) (op : RedOp) (before : Nat → Nat → Bool) (ls : List Nat)
    (t : State) : (scanBody d a k op before ls t).now = t.now := by
  simp [scanBody]

/-! ## The clock: the functions of `Machine/Control` -/

@[simp] theorem State.now_jump {s s0 : State} {nextPc : Nat → Dword} (h : s0.now = s.now) :
    (s.jump s0 nextPc).now = s.now := by
  unfold State.jump
  split <;> simp [h]

@[simp] theorem State.now_setLinks (s : State) (ls : List Nat) : (s.setLinks ls).now = s.now := by
  simp [State.setLinks]

@[simp] theorem State.now_callDepth (s : State) (f : Nat → Nat) : (s.callDepth f).now = s.now := by
  unfold State.callDepth
  split <;> simp

@[simp] theorem Out.now_execBra {g : Pred} {ofs : BitVec 22} {s : State} : Out.NowAt s.now (execBra g ofs s) := by
  unfold execBra
  refine Out.now_laneRun ?_
  dsimp only
  simp

@[simp] theorem Out.now_execCall {g : Pred} {ofs : BitVec 22} {s : State} : Out.NowAt s.now (execCall g ofs s) := by
  unfold execCall
  refine Out.now_laneRun ?_
  dsimp only
  repeat' split
  all_goals simp

theorem State.now_indirect {t : State} {m : Mask} {tgt : Nat → Dword} {pre : State → State}
    (hp : (pre t).now = t.now) : (t.indirect m tgt pre).now = t.now := by
  unfold State.indirect
  dsimp only
  split
  · exact State.now_trapWith
  · exact (State.now_jump hp.symm).trans hp

@[simp] theorem Out.now_execBrx {g : Pred} {a : Reg} {s : State} : Out.NowAt s.now (execBrx g a s) :=
  Out.now_laneRun (State.now_indirect rfl)

@[simp] theorem Out.now_execCallx {g : Pred} {a : Reg} {s : State} : Out.NowAt s.now (execCallx g a s) :=
  Out.now_laneRun (State.now_indirect (by simp))

@[simp] theorem Out.now_execRet {g : Pred} {s : State} : Out.NowAt s.now (execRet g s) :=
  Out.now_laneRun (State.now_indirect (by simp))

@[simp] theorem State.now_ejectLanes (s : State) (b g k n : Nat) (pc : Dword) (ls : List Nat) :
    (s.ejectLanes b g k n pc ls).1.now = s.now := by
  induction ls generalizing s with
  | nil => rfl
  | cons l ls ih =>
    unfold State.ejectLanes
    dsimp only
    split
    · rfl
    · exact ih _

@[simp] theorem State.now_braEjSplit {t : State} {b gr k n : Nat} {m : Mask} {tgt : Dword} :
    (t.braEjSplit b gr k n m tgt).now = t.now := by
  unfold State.braEjSplit
  dsimp only
  repeat' split
  · simp
  · simp
  · simp
  · simp
  · simp [State.now_of_pushEntry ‹_›]

@[simp] theorem Out.now_execBraEj {g : Pred} {n : BitVec 2} {ofs : BitVec 20} {s : State} :
    Out.NowAt s.now (execBraEj g n ofs s) := by
  refine Out.now_laneRun ?_
  repeat' split
  all_goals simp

@[simp] theorem Out.now_execJoin {g : Pred} {s : State} : Out.NowAt s.now (execJoin g s) := by
  unfold execJoin
  refine Out.now_laneRun ?_
  dsimp only
  repeat' split
  all_goals simp

@[simp] theorem State.now_dropLanes {s : State} {b g : Nat} {m : Mask} : (s.dropLanes b g m).now = s.now := by
  simp [State.dropLanes, State.now_foldl]

@[simp] theorem State.now_exitSplit {t : State} {b gr k : Nat} {m : Mask} : (t.exitSplit b gr k m).now = t.now := by
  simp [State.exitSplit]

@[simp] theorem Out.now_execExit {g : Pred} {s : State} : Out.NowAt s.now (execExit g s) := by
  refine Out.now_laneRun ?_
  repeat' split
  all_goals simp

@[simp] theorem Out.now_execYield {g : Pred} {s : State} : Out.NowAt s.now (execYield g s) := by
  unfold execYield
  refine Out.now_laneRun ?_
  dsimp only
  repeat' split
  all_goals simp

@[simp] theorem Out.now_execLive {g : Pred} {n : BitVec 2} {a : Reg} {s : State} : Out.NowAt s.now (execLive g n a s) := by
  unfold execLive
  refine Out.now_laneRun ?_
  dsimp only
  repeat' split
  all_goals simp

@[simp] theorem Out.now_execTrap {g : Pred} {n : BitVec 6} {s : State} : Out.NowAt s.now (execTrap g n s) := by
  refine Out.now_laneRun ?_
  repeat' split
  all_goals simp

@[simp] theorem State.now_eretSplit {t : State} {b gr k : Nat} : (t.eretSplit b gr k).now = t.now := by
  simp [State.eretSplit]

@[simp] theorem Out.now_execEret {g : Pred} {s : State} : Out.NowAt s.now (execEret g s) := by
  refine Out.now_laneRun ?_
  repeat' split
  all_goals simp

/-! ## The clock: the functions of `Machine/Convert` -/

@[simp] theorem State.now_appendLaneStats (s : State) (rs : List StatRec) : (s.appendLaneStats rs).now = s.now :=
  State.now_foldl (fun _ _ => by rfl) _ _

theorem Out.now_fwRun {i : Instr} {g : Pred} {b : Reg} {ok : FormatWord → Fmt → Fmt → Bool}
    {eff : FormatWord → Fmt → Fmt → State → State} {s : State} (he : ∀ fw sf df t, (eff fw sf df t).now = t.now) :
    Out.NowAt s.now (fwRun i g b ok eff s) := by
  refine Out.now_laneRun ?_
  dsimp only
  repeat' split
  all_goals simp [he]

@[simp] theorem now_qscaleEffect (g : Pred) (d a : Reg) (fw : FormatWord) (sf df : Fmt) (s : State) :
    (qscaleEffect g d a fw sf df s).now = s.now := by
  simp [qscaleEffect]

@[simp] theorem now_qpackEffect (g : Pred) (d a : Reg) (fw : FormatWord) (sf df : Fmt) (s : State) :
    (qpackEffect g d a fw sf df s).now = s.now := by
  simp [qpackEffect]

@[simp] theorem now_fwLaneEffect (g : Pred) (d : Reg) (fw : FormatWord) (df : Fmt) (f : State → Nat → Rounded)
    (fdiv : Bool) (s : State) : (fwLaneEffect g d fw df f fdiv s).now = s.now := by
  simp [fwLaneEffect]

/-! ## The clock: the functions of `Machine/Engine` -/

@[simp] theorem State.now_setEngReg (s : State) (b g n r : Nat) (v : Word) : (s.setEngReg b g n r v).now = s.now :=
  rfl

@[simp] theorem State.now_setEngErr (s : State) (b g n cause : Nat) (a : Dword) :
    (s.setEngErr b g n cause a).now = s.now :=
  rfl

@[simp] theorem State.now_clearEng (s : State) (b g n : Nat) : (s.clearEng b g n).now = s.now :=
  State.now_foldl (fun _ _ => by rfl) _ _

@[simp] theorem State.now_startEngine (s : State) (n : Nat) (regs : Table Word) (lane : Nat) :
    (s.startEngine n regs lane).now = s.now :=
  rfl

@[simp] theorem Out.now_execEset {g : Pred} {n : BitVec 2} {a : Reg} {reg : BitVec 6} {s : State} :
    Out.NowAt s.now (execEset g n a reg s) := by
  unfold execEset
  refine Out.now_laneRun ?_
  dsimp only
  repeat' split
  all_goals simp

@[simp] theorem Out.now_clearRun {i : Instr} {g : Pred} {n : Nat} {cmd : BitVec 6} {s : State} :
    Out.NowAt s.now (clearRun i g n cmd s) := by
  unfold clearRun
  refine Out.now_laneRun ?_
  dsimp only
  repeat' split
  all_goals simp

theorem Out.now_goRun {i : Instr} {g : Pred} {n room : Nat} {regs : State → Table Word}
    {bad : State → Table Word → Bool} {commit : State → Table Word → State} {s : State}
    (hc : ∀ t r, (commit t r).now = t.now) : Out.NowAt s.now (goRun i g n room regs bad commit s) := by
  refine Out.now_laneRun ?_
  dsimp only
  repeat' split
  all_goals simp [hc]

@[simp] theorem State.now_putSrcDst (t : State) (n : Nat) (r : Table Word) : (t.putSrcDst n r).now = t.now := rfl

@[simp] theorem Out.now_execEwait {g : Pred} {a b : Reg} {s : State} : Out.NowAt s.now (execEwait g a b s) := by
  refine Out.now_laneRun ?_
  dsimp only
  repeat' split
  · simp
  · rfl
  · simp
  · rfl
  · simp
  · simp
  · simp
  · exact State.now_settlePieces.stop ‹_›
  · exact State.now_of_poisonTrap ‹_›
  · rfl
  · rfl
  · exact State.now_of_accessStop ‹_›
  · simp [State.now_foldl]
  · simp [State.now_foldl]
  all_goals simp

/-! ## The clock: the functions of `Machine/DieSync` -/

@[simp] theorem State.now_dbarStep {t : State} {b g k o : Nat} {ea : Dword} {m : Mask} :
    (t.dbarStep b g k o ea m).now = t.now := by
  unfold State.dbarStep
  dsimp only
  split <;> simp

@[simp] theorem State.now_dbarLate {t : State} {b g o : Nat} {ea : Dword} {m : Mask} :
    (t.dbarLate b g o ea m).now = t.now := by
  simp [State.dbarLate]

@[simp] theorem Out.now_execDbar {g : Pred} {a : Reg} {s : State} : Out.NowAt s.now (execDbar g a s) := by
  refine Out.now_laneRun ?_
  split
  · extract_lets m l ea
    split
    · simp
    · split
      · simp
      · split
        · rfl
        · split
          · exact State.now_of_checkGlobal ‹_›
          · split
            · exact State.now_translatePieces.stop ‹_›
            · extract_lets o
              repeat' split
              · simp
              · simp
              · rfl
              · next e => exact State.now_of_orElse (fun _ => State.now_of_accessStop) (fun _ => State.now_of_poisonTrap) e
              · exact State.now_trapWith
              · refine State.now_dbarStep.trans ?_
                rw [State.now_chargeUnit]
                exact State.now_foldl (fun x h => by simp) _ _
  · rfl

theorem State.now_of_emitCheck {t : State} {ls : List Nat} {src q : Nat → Nat} {r : State}
    (e : t.emitCheck ls src q = some r) : r.now = t.now := by
  unfold State.emitCheck at e
  repeat' split at e
  all_goals cases e
  all_goals simp

@[simp] theorem State.now_emitWait {t : State} {o qva : Nat} : (t.emitWait o qva).now = t.now := by
  simp [State.emitWait]

@[simp] theorem State.now_emitClaim {t : State} {ls : List Nat} {o tail : Nat} {qs hs : List Hit}
    {srcKey : Nat → Nat} : (t.emitClaim ls o tail qs hs srcKey).now = t.now := by
  unfold State.emitClaim
  dsimp only
  rw [State.now_holdUnit, State.now_foldl (fun _ _ => by rfl), State.now_foldl (fun _ _ => by simp),
    State.now_foldl (fun _ _ => by rfl), State.now_chargeUnit, State.now_commit]
  exact State.now_foldl (fun x e => by simp) _ _

@[simp] theorem State.now_emitGo {t : State} {ls : List Nat} {o qva : Nat} {qs : List Hit} {srcKey : Nat → Nat} :
    (t.emitGo ls o qva qs srcKey).now = t.now := by
  unfold State.emitGo
  dsimp only
  repeat' split
  · simp
  · exact (State.now_settlePieces).stop ‹_›
  · rfl
  · exact State.now_of_outsideStop ‹_›
  · simp

@[simp] theorem State.now_emitRead {t : State} {ls : List Nat} {src q : Nat → Nat} {hits : List Hit} :
    (t.emitRead ls src q hits).now = t.now := by
  unfold State.emitRead
  dsimp only
  repeat' split
  · next e =>
    refine State.now_of_orElse (fun u hu => ?_) (fun u hu => ?_) e
    · exact State.now_of_orElse (fun _ => State.now_of_accessStop) (fun _ => State.now_of_accessStop) hu
    · exact State.now_of_orElse (fun _ => State.now_of_poisonLocal) (fun _ => State.now_of_poisonTrap) hu
  · exact State.now_trapWith
  · exact State.now_emitGo

@[simp] theorem Out.now_execEmit {g : Pred} {a b : Reg} {s : State} : Out.NowAt s.now (execEmit g a b s) := by
  unfold execEmit
  refine Out.now_laneRun ?_
  dsimp only
  repeat' split
  · simp
  · rfl
  · exact State.now_of_emitCheck ‹_›
  · exact (State.now_settlePieces).stop ‹_›
  · simp

/-! ## The clock: the functions of `Machine/Sync` -/

@[simp] theorem State.now_takeTile (s : State) (b t : Nat) (o : TileOwner) : (s.takeTile b t o).now = s.now := rfl
@[simp] theorem State.now_giveTile (s : State) (b t : Nat) (r : TileOwner) : (s.giveTile b t r).now = s.now := rfl

@[simp] theorem Out.now_execGive {g : Pred} {a : Reg} {s : State} : Out.NowAt s.now (execGive g a s) := by
  unfold execGive
  refine Out.now_laneRun ?_
  dsimp only
  repeat' split
  all_goals simp

@[simp] theorem Out.now_execTake {g : Pred} {a : Reg} {s : State} : Out.NowAt s.now (execTake g a s) := by
  unfold execTake
  refine Out.now_laneRun ?_
  dsimp only
  repeat' split
  all_goals simp

@[simp] theorem State.now_setRing (s : State) (b n : Nat) (r : Ring) : (s.setRing b n r).now = s.now := rfl

@[simp] theorem Out.now_execRwait {g : Pred} {d : Reg} {r : BitVec 4} {s : State} :
    Out.NowAt s.now (execRwait g d r s) := by
  unfold execRwait
  refine Out.now_laneRun ?_
  dsimp only
  repeat' split
  all_goals simp

@[simp] theorem Out.now_execRdone {g : Pred} {r : BitVec 4} {s : State} : Out.NowAt s.now (execRdone g r s) := by
  unfold execRdone
  refine Out.now_laneRun ?_
  dsimp only
  repeat' split
  all_goals simp

/-! ## The clock: the functions of `Machine/EvMem` -/

@[simp] theorem State.now_modAccess (s : State) (id i : Nat) (f : Access → Access) : (s.modAccess id i f).now = s.now :=
  rfl

@[simp] theorem State.now_afterRead (s : State) (o : LaneOp) (a : Access) : (s.afterRead o a).now = s.now := by
  simp [State.afterRead]

@[simp] theorem State.now_applyAtomic {s : State} {id : Nat} {o : LaneOp} {f : AtomFn} {ps : List (Nat × Access)} :
    (s.applyAtomic id o f ps).now = s.now :=
  congrArg Prod.fst (State.ledger_applyAtomic ..)

theorem WaitOn.now_of_evaluate {w : WaitOn} {s : State} {o : Out} (e : w.evaluate s = some o) : Out.NowAt s.now o := by
  unfold evaluate at e
  repeat' split at e
  all_goals cases e
  all_goals simp

@[simp] theorem Out.now_wakeWaitc {s : State} {b g k : Nat} {cond : Monitor → Bool} :
    Out.NowAt s.now (s.wakeWaitc b g k cond) := by
  have hw {w : WaitOn} {o : Out} (e : w.evaluate { s with focus := .split b g k } = some o) : Out.NowAt s.now o :=
    (WaitOn.now_of_evaluate e :)
  unfold State.wakeWaitc
  dsimp only
  repeat' split
  · rfl
  · next e => exact (hw e :)
  · next e => exact hw e
  all_goals rfl

@[simp] theorem Out.now_execWaitcReevaluate {b g k : Nat} {s : State} : Out.NowAt s.now (execWaitcReevaluate b g k s) := by
  simp [execWaitcReevaluate]

@[simp] theorem Out.now_execWaitcPoll {b g k : Nat} {s : State} : Out.NowAt s.now (execWaitcPoll b g k s) := by
  simp [execWaitcPoll]

@[simp] theorem Out.now_execEmitWake {b g k : Nat} {s : State} : Out.NowAt s.now (execEmitWake b g k s) := by
  unfold execEmitWake
  dsimp only
  repeat' split
  all_goals simp

@[simp] theorem State.now_releaseUnit (s : State) (comet : Option Nat) (b g k : Nat) :
    (s.releaseUnit comet b g k).now = s.now := by
  unfold State.releaseUnit
  split <;> simp

@[simp] theorem State.now_abortTrap {s : State} {comet : Option Nat} {b g k cause : Nat} {lanes : Mask} {ea : Dword} :
    (s.abortTrap comet b g k cause lanes ea).now = s.now := by
  simp [State.abortTrap]

@[simp] theorem State.now_hostAtomic {s : State} {id : Nat} {o : LaneOp} {f : AtomFn} {p : Nat × Access} :
    (s.hostAtomic id o f p).now = s.now := by
  simp [State.hostAtomic]

@[simp] theorem State.now_hostDone (s : State) (id : Nat) : (s.hostDone id).now = s.now := by
  unfold State.hostDone
  split <;> simp

@[simp] theorem State.now_maybeStore {s : State} {x : StoreOp} : (s.maybeStore x).now = s.now := State.now_commit ..

@[simp] theorem State.now_maybeAtomic {s : State} {id : Nat} {o : LaneOp} : (s.maybeAtomic id o).now = s.now := by
  unfold State.maybeAtomic
  dsimp only
  repeat' split
  all_goals simp [State.now_foldl]

@[simp] theorem State.now_afterOutside (s : State) (o : LaneOp) (a : Access) : (s.afterOutside o a).now = s.now := by
  simp [State.afterOutside]

@[simp] theorem State.now_cutOp {s : State} {id : Nat} {o : LaneOp} {cause : Nat} {ps : List Access} :
    (s.cutOp id o cause ps).now = s.now := by
  unfold State.cutOp
  split <;> simp

@[simp] theorem State.now_arriveOp {s : State} {id : Nat} {o : LaneOp} {p : Nat × Access} :
    (s.arriveOp id o p).now = s.now := by
  unfold State.arriveOp
  repeat' split
  all_goals simp

@[simp] theorem State.now_completeOp {s : State} {id : Nat} {o : LaneOp} {c : Completion}
    {cut : Option (Nat → Bool)} : (s.completeOp id o c cut).now = s.now := by
  unfold State.completeOp
  repeat' split
  all_goals simp

@[simp] theorem State.now_nextHost (s : State) (x : StoreOp) (cm : Option Nat) (b g k : Nat) :
    (s.nextHost x cm b g k).now = s.now := by
  unfold State.nextHost
  dsimp only
  split <;> simp

@[simp] theorem State.now_storeOutside {s : State} {id : Nat} {x : StoreOp} : (s.storeOutside id x).now = s.now := by
  simp [State.storeOutside]

@[simp] theorem State.now_cutStores {s : State} {x : StoreOp} {c : Completion} {cut : Nat → Bool} {cm : Option Nat}
    {b g k : Nat} : (s.cutStores x c cut cm b g k).now = s.now := by
  simp [State.cutStores, State.now_foldl]

@[simp] theorem State.now_completeStore {s : State} {id : Nat} {x : StoreOp} {c : Completion}
    {cut : Option (Nat → Bool)} : (s.completeStore id x c cut).now = s.now := by
  unfold State.completeStore
  repeat' split
  all_goals simp

@[simp] theorem State.now_completeAccess {s : State} {id : Nat} {c : Completion} {cut : Option (Nat → Bool)} :
    (s.completeAccess id c cut).now = s.now := by
  unfold State.completeAccess
  repeat' split
  all_goals simp

/-! ## The clock: the functions of `Machine/Filter` -/

@[simp] theorem State.now_modMerid (s : State) (m : Nat) (f : Merid → Merid) : (s.modMerid m f).now = s.now := rfl

/-! ## The clock: the functions of `Machine/EvSync` -/

@[simp] theorem State.now_reenter (s : State) (bs : List Nat) : (s.reenter bs).now = s.now := rfl

@[simp] theorem State.now_putObject {s : State} {a n v : Nat} : (s.putObject a n v).now = s.now := by
  refine State.now_foldl (fun t a => ?_) _ _
  split <;> simp

@[simp] theorem State.now_dbarMaster {s : State} {o : Nat} : (s.dbarMaster o).now = s.now := by
  unfold State.dbarMaster
  split <;> simp

/-! ## The clock: the functions of `Machine/EngMem` -/

@[simp] theorem State.now_askLoc (s : State) (p : Site) (x : Loc) : (s.askLoc p x).now = s.now := by
  unfold State.askLoc
  split <;> simp

/-! ## The clock: the functions of `Machine/EvXlate` -/

@[simp] theorem State.now_invalidate (s : State) (vf va len : Nat) : (s.invalidate vf va len).now = s.now := rfl

/-! ## The clock: the functions of `Machine/Mgmt` -/

@[simp] theorem State.now_markLeaves {s : State} {ms : List (TlbEntry × List Nat)} {wr : Bool} :
    (s.markLeaves ms wr).now = s.now :=
  (congrArg State.now (State.aside_markLeaves ..) :)

@[simp] theorem State.now_markSpace {s : State} {fn va n : Nat} : (s.markSpace fn va n).now = s.now :=
  (congrArg State.now (State.aside_markSpace ..) :)

@[simp] theorem State.now_putIn {s : State} {fn : Nat} {ms : List (TlbEntry × List Nat)} {va : Nat} {bs : List Byte} :
    (s.putIn fn ms va bs).now = s.now := by
  refine (State.now_foldl (fun u m => ?_) _ _).trans ((State.now_commit ..).trans State.now_markLeaves)
  split <;> rfl

theorem State.now_of_writeSpace {s r : State} {fn va : Nat} {bs : List Byte} (e : s.writeSpace fn va bs = some r) :
    r.now = s.now := by
  unfold State.writeSpace at e
  repeat' split at e
  all_goals cases e
  all_goals simp

/-! ## The clock: the functions of `Machine/EvMeridian` -/

@[simp] theorem State.now_flushTaps (s : State) : s.flushTaps.now = s.now := State.now_foldl (fun _ _ => by rfl) _ _

@[simp] theorem Out.now_execBudgetWindow {m : Nat} {s : State} : Out.NowAt s.now (execBudgetWindow m s) := by
  unfold execBudgetWindow
  split <;> simp

@[simp] theorem Out.now_execCounterSample {core : Nat} {s : State} : Out.NowAt s.now (execCounterSample core s) := by
  unfold execCounterSample
  dsimp only
  repeat' split
  all_goals simp [State.now_foldl]

/-! ## The clock: the functions of `Machine/EvFabric` -/

@[simp] theorem State.now_sendAccess {s : State} {id : Nat} : (s.sendAccess id).now = s.now := by
  unfold State.sendAccess
  dsimp only
  split
  · exact State.now_completeAccess
  · refine State.now_foldl (fun t k => ?_) _ _
    split <;> rfl

@[simp] theorem State.now_sendRemote {s : State} {n : Nat} : (s.sendRemote n).now = s.now := by
  induction n generalizing s with
  | zero => rfl
  | succ n ih =>
    unfold State.sendRemote
    dsimp only
    repeat' split
    · rfl
    · rfl
    · exact ih.trans State.now_sendAccess

@[simp] theorem State.now_fabricClock (s : State) : s.fabricClock.now = s.now := rfl

@[simp] theorem State.now_portDown {s : State} {q : Nat} : (s.portDown q).now = s.now := by
  simp [State.portDown, State.now_foldl]

@[simp] theorem Out.now_execPortRetrainEnd {port : Nat} {ok : Bool} {s : State} :
    Out.NowAt s.now (execPortRetrainEnd port ok s) := by
  unfold execPortRetrainEnd
  repeat' split
  all_goals simp

/-! ## The clock: the functions of `Machine/EvHub` -/

@[simp] theorem Out.now_execEnergyWindowEnd {p : Nat} {s : State} : Out.NowAt s.now (execEnergyWindowEnd p s) := by
  unfold execEnergyWindowEnd
  dsimp only
  repeat' split
  all_goals simp

/-! ## The clock: the functions of `Machine/Fetch` -/

@[simp] theorem State.now_askFetch (s : State) (p : Site) (x : Fetched) : (s.askFetch p x).now = s.now := by
  unfold State.askFetch
  split <;> simp

@[simp] theorem State.now_useFetch (s : State) (p : Site) (va : Nat) (n : Nat) : (s.useFetch p va n).now = s.now := by
  unfold State.useFetch
  split <;> simp

/-! ## The clock: the functions of `Machine/Image` -/

@[simp] theorem State.now_clearStats (s : State) (b f : Nat) : (s.clearStats b f).now = s.now := by
  simp [State.clearStats]

@[simp] theorem State.now_writeAcc (s : State) (b f : Nat) (v : Word) : (s.writeAcc b f v).now = s.now := by
  simp [State.writeAcc]

@[simp] theorem State.now_spill {s : State} {f : Nat → Nat} {fx vf : Nat} : (s.spill f fx vf).now = s.now := by
  rw [State.spill, State.modFacet_now]
  exact State.now_commit ..

@[simp] theorem State.now_loadBank (s : State) (f : Nat → Nat) (b : Nat) : (s.loadBank f b).now = s.now := rfl

/-! ## The clock: the functions of `Machine/Seq` -/

@[simp] theorem State.now_modSeq (s : State) (b : Nat) (f : Seq → Seq) : (s.modSeq b f).now = s.now := rfl

@[simp] theorem State.now_seqTrap (s : State) (b cause sub slot col info : Nat) :
    (s.seqTrap b cause sub slot col info).now = s.now := by
  simp [State.seqTrap]

@[simp] theorem State.now_landOp (s : State) (b id : Nat) (o : SeqOp) : (s.landOp b id o).now = s.now := by
  unfold State.landOp
  split <;> simp

@[simp] theorem State.now_landDue (s : State) (b : Nat) : (s.landDue b).now = s.now := by
  simp [State.landDue, State.now_foldl]

@[simp] theorem State.now_settleArrivals (s : State) (b : Nat) : (s.settleArrivals b).now = s.now := by
  refine State.now_foldl (fun t e => ?_) _ _
  split <;> rfl

/-! ## The clock: the functions of `Machine/SeqPort` -/

@[simp] theorem State.now_modPort (s : State) (b c z : Nat) (f : Port → Port) : (s.modPort b c z f).now = s.now := rfl

@[simp] theorem State.now_returnSlot (s : State) (b c z : Nat) : (s.returnSlot b c z).now = s.now := by
  unfold State.returnSlot
  dsimp only
  split <;> simp

@[simp] theorem State.now_unbindPort (s : State) (b c z : Nat) : (s.unbindPort b c z).now = s.now := by
  simp [State.unbindPort]

/-! ## The clock: the functions of `Machine/SeqScalar` -/

@[simp] theorem State.now_seqEnd (s : State) (b : Nat) : (s.seqEnd b).now = s.now := by
  simp [State.seqEnd, State.now_foldl]

/-! ## The clock: the functions of `Machine/System` -/

@[simp] theorem Out.now_execMfs {g : Pred} {d : Reg} {n : SpecReg} {s : State} : Out.NowAt s.now (execMfs g d n s) := by
  refine Out.now_laneRun ?_
  repeat' split
  all_goals simp

@[simp] theorem State.now_setEjt (s : State) (x : Word) : (s.setEjt x).now = s.now := by
  unfold State.setEjt
  split <;> simp

@[simp] theorem State.now_setJto (s : State) (x : Word) : (s.setJto x).now = s.now := by
  unfold State.setJto
  split <;> simp

@[simp] theorem Out.now_execMts {g : Pred} {a : Reg} {n : SpecReg} {s : State} : Out.NowAt s.now (execMts g a n s) := by
  unfold execMts
  refine Out.now_laneRun ?_
  dsimp only
  repeat' split
  all_goals simp

@[simp] theorem State.now_imageTake {t : State} {wr : Bool} {l a : Nat} {rs : List (Nat × Nat)} :
    (t.imageTake wr l a rs).NowAt t.now := by
  unfold State.imageTake
  repeat' split
  · exact (State.now_translatePieces).stop ‹_›
  · exact State.now_of_accessStop ‹_›
  · trivial
  · exact State.now_trapWith
  · trivial

@[simp] theorem State.now_imageRead {t : State} {m : Mask} {a : Nat} : (t.imageRead m a).NowAt t.now := by
  rw [State.imageRead]
  repeat' split
  · exact (State.now_imageTake).stop ‹_›
  · exact State.now_trapWith
  · exact (State.now_imageTake).stop ‹_›
  · exact State.now_trapWith
  · exact State.now_imageTake

@[simp] theorem State.now_useHits {t : State} {wr : Bool} {hs : List Hit} : (t.useHits wr hs).now = t.now := by
  simp [State.useHits, State.now_foldl]

@[simp] theorem State.now_chargeImage (t : State) (f : Nat → Nat) (rs : List (Nat × Nat)) :
    (t.chargeImage f rs).now = t.now := by
  simp [State.chargeImage]

theorem Out.now_ctxRun {i : Instr} {g : Pred} {a : Reg} {s : State} {early : State → Mask → Dword → Option State}
    {body : State → Mask → Dword → State} (he : ∀ m x r, early s m x = some r → r.now = s.now)
    (hb : ∀ m x, Out.NowAt s.now (.next (body s m x))) : Out.NowAt s.now (ctxRun i g a s early body) := by
  refine Out.now_laneRun ?_
  dsimp only
  repeat' split
  · exact State.now_takeTrap
  · simp
  · rfl
  · exact State.now_of_checkGlobal ‹_›
  · exact he _ _ _ ‹_›
  · exact hb _ _

@[simp] theorem State.now_ctxSave {t : State} {m : Mask} {a : Dword} : (t.ctxSave m a).now = t.now := by
  rw [State.ctxSave]
  split
  · exact State.now_imageRead.stop ‹_›
  · extract_lets f
    split
    · exact State.now_trapWith
    · split
      · exact State.now_imageTake.stop ‹_›
      · rw [State.skip_now, State.now_foldl (fun _ _ => State.now_dropOthers ..)]
        simp

@[simp] theorem State.now_ctxLoad {t : State} {b : Nat} {m : Mask} {a : Dword} : (t.ctxLoad b m a).now = t.now := by
  rw [State.ctxLoad]
  split
  · exact (State.now_imageRead).stop ‹_›
  · extract_lets f
    split
    · simp
    · exact State.now_trapWith

/-! ## The clock: the functions of `Machine/EvQueue` -/

@[simp] theorem State.now_putQueue {s : State} {q : Queue} {off v : Nat} : (s.putQueue q off v).now = s.now :=
  congrArg Prod.fst (State.ledger_putQueue ..)

@[simp] theorem State.now_keepWatched (s : State) (q : Queue) : (s.keepWatched q).now = s.now := by
  simp [State.keepWatched, State.now_foldl]

@[simp] theorem State.now_armQueue (s : State) (k : Nat) : (s.armQueue k).now = s.now := by
  unfold State.armQueue
  split <;> simp

@[simp] theorem State.now_markTable {s : State} {vf addr per : Nat} : (s.markTable vf addr per).now = s.now :=
  (congrArg State.now (State.aside_markTable ..) :)

@[simp] theorem State.now_formGang (s : State) (n : Node) (bs : List Nat) : (s.formGang n bs).now = s.now := by
  refine State.now_foldl (fun t a => ?_) _ _
  simp

@[simp] theorem State.now_formBlock {s : State} {q : Queue} : (s.formBlock q).now = s.now := by simp [State.formBlock]

@[simp] theorem Out.now_execStampObserved {q : Nat} {s : State} : Out.NowAt s.now (execStampObserved q s) := by
  have hset {u : State} {qs : Table Queue} (hu : u.now = s.now) : ({ u with queues := qs } : State).now = s.now := hu
  simp only [execStampObserved]
  split
  · rfl
  · split
    · rfl
    · split
      · rfl
      · split
        · simp
        · rw [Out.nowAt_next, State.now_armQueue]
          split
          · exact State.now_formBlock.trans (hset State.now_markSpace)
          · exact hset State.now_markSpace

@[simp] theorem Out.now_execBatchTimeout {q : Nat} {s : State} : Out.NowAt s.now (execBatchTimeout q s) := by
  unfold execBatchTimeout
  repeat' split
  all_goals simp

@[simp] theorem State.now_lookAll {s : State} {k n : Nat} : (s.lookAll k n).now = s.now := by
  induction n generalizing s with
  | zero => rfl
  | succ n ih =>
    unfold State.lookAll
    repeat' split
    · rfl
    · rfl
    · exact ih.trans (Out.now_execStampObserved.next ‹_›)
    · rfl

@[simp] theorem State.now_queueClock {s : State} {k : Nat} : (s.queueClock k).now = s.now := by
  have ht {o : Out} (ho : o.NowAt s.now) : (match o with
      | .next t => t
      | _ => s).now = s.now := by
    split
    · exact ho
    · rfl
  unfold State.queueClock
  extract_lets t
  have h1 : t.now = s.now := ht Out.now_execBatchTimeout
  clear_value t
  split
  · exact h1
  · split
    · exact h1
    · extract_lets u
      have hu : u.now = s.now := State.now_lookAll.trans h1
      split
      · split
        · simpa using hu
        · exact hu
      · exact hu

/-! ## The clock: the functions of `Machine/Lodestar` -/

@[simp] theorem Out.now_execLodestarGo {g : Pred} {a : Reg} {s : State} : Out.NowAt s.now (execLodestarGo g a s) := by
  unfold execLodestarGo
  refine Out.now_laneRun ?_
  dsimp only
  repeat' split
  all_goals simp

/-! ## The clock: the functions of `Machine/Sections` -/

@[simp] theorem State.now_touchImage {s : State} {b : Nat} : (s.touchImage b).now = s.now := by
  simp [State.touchImage]

@[simp] theorem State.now_putImage {s : State} {b reason hold : Nat} {xs : List ImgSec} :
    (s.putImage b reason hold xs).now = s.now := by
  simp [State.putImage]

/-! ## The clock: the functions of `Machine/EvEnd` -/

@[simp] theorem State.now_finishBlock {s : State} {b : Nat} {aborted counts : Bool} :
    (s.finishBlock b aborted counts).now = s.now :=
  congrArg Prod.fst (State.ledger_finishBlock ..)

@[simp] theorem State.now_rejectImage {s : State} {b : Nat} : (s.rejectImage b).now = s.now := by
  simp [State.rejectImage]

/-! ## The clock: the functions of `Machine/EvAdmit` -/

@[simp] theorem State.now_settleStats (s : State) (b f : Nat) : (s.settleStats b f).now = s.now := by
  simp [State.settleStats]

@[simp] theorem State.now_launch {s : State} {b f : Nat} : (s.launch b f).now = s.now := by
  unfold State.launch
  dsimp only
  rw [State.now_selfInvalidate, State.now_settleStats, State.modBlk_now]
  have hacc {c : Bool} {t u : State} (ht : t.now = s.now) (hu : u.now = s.now) :
      (if c = true then t else u).now = s.now := by
    split
    · exact ht
    · exact hu
  exact State.now_putImage.trans (hacc (by simp) rfl)

@[simp] theorem State.now_reclaim (s : State) (b f : Nat) : (s.reclaim b f).now = s.now := by simp [State.reclaim]

@[simp] theorem State.now_placeComet (s : State) (b c0 : Nat) (y : Comet) : (s.placeComet b c0 y).now = s.now := by
  unfold State.placeComet
  dsimp only
  split <;> simp

@[simp] theorem State.now_serveEngine (s : State) (b : Nat) (o : EngineOp) (mended : Bool) :
    (s.serveEngine b o mended).2.now = s.now := by
  unfold State.serveEngine
  repeat' split
  all_goals simp

@[simp] theorem State.now_resumeUnit (s : State) (b : Nat) (u : ParkUnit) : (s.resumeUnit b u).now = s.now := by
  unfold State.resumeUnit
  repeat' split
  all_goals simp

@[simp] theorem State.now_resumeSaved (s : State) (b : Nat) (place : Nat → Nat) (us : List ParkUnit) :
    (s.resumeSaved b place us).now = s.now := by
  refine State.now_foldl (fun t a => ?_) _ _
  split <;> simp

@[simp] theorem State.now_placeComets (s : State) (b : Nat) (cs : List (Nat × Comet)) :
    (s.placeComets b cs).1.now = s.now := by
  induction cs generalizing s with
  | nil => rfl
  | cons c cs ih => exact (ih _).trans (State.now_placeComet ..)

@[simp] theorem State.now_restoreBars (s : State) (b : Nat) (d : SectionData) : (s.restoreBars b d).now = s.now := by
  unfold State.restoreBars
  repeat' split
  all_goals simp

@[simp] theorem State.now_restore {s : State} {b f : Nat} : (s.restore b f).now = s.now := by
  unfold State.restore
  dsimp only
  repeat' split
  all_goals simp

@[simp] theorem State.now_enter {s : State} {b f : Nat} : (s.enter b f).now = s.now := by simp [State.enter]

@[simp] theorem State.now_spillHeld {s : State} {f : Nat} : (s.spillHeld f).now = s.now := by
  unfold State.spillHeld
  split <;> simp

theorem State.now_of_admitPlain {s : State} {b : Nat} {fs : List Nat} {r : State} (e : s.admitPlain b fs = some r) :
    r.now = s.now := by
  unfold State.admitPlain at e
  dsimp only at e
  repeat' split at e
  all_goals cases e
  all_goals simp

theorem State.now_of_admitTo {s r : State} {b : Nat} {cores : List Nat} (e : s.admitTo b cores = some r) :
    r.now = s.now := by
  unfold State.admitTo at e
  dsimp only at e
  repeat' split at e
  · exact State.now_of_admitPlain e
  · cases e; exact State.now_enter
  · exact (State.now_of_admitPlain e).trans State.now_spillHeld
  · cases e; exact State.now_spillHeld
  · cases e

theorem State.now_of_admitAll {s r : State} {u : Option Nat} {used bs : List Nat}
    (e : s.admitAll u used bs = some r) : r.now = s.now := by
  induction bs generalizing s used with
  | nil => cases e; exact rfl
  | cons b bs ih =>
    unfold State.admitAll at e
    dsimp only at e
    split at e
    · cases e
    · exact (ih e).trans (State.now_of_admitTo ‹_›)

theorem State.now_of_admitCluster {s r : State} {ms : List Nat} (e : s.admitCluster ms = some r) : r.now = s.now := by
  obtain ⟨u, -, e⟩ := List.exists_of_findSome?_eq_some e
  exact State.now_of_admitAll e

theorem State.now_of_tryEntry {s r : State} {b : Nat} (e : s.tryEntry b = some r) : r.now = s.now := by
  unfold State.tryEntry at e
  dsimp only at e
  repeat' split at e
  · exact State.now_of_admitAll e
  · exact State.now_of_admitCluster e
  · exact State.now_of_admitAll e

@[simp] theorem State.now_runVf (s : State) (p : Nat) (v : Option Nat) : (s.runVf p v).now = s.now := rfl

@[simp] theorem State.now_settleVf (s : State) (p : Nat) : (s.settleVf p).now = s.now := by
  unfold State.settleVf
  split <;> simp

@[simp] theorem State.now_energyClock (s : State) : s.energyClock.now = s.now := by
  unfold State.energyClock
  exact State.now_foldl (fun _ _ => by rfl) _ _

@[simp] theorem State.now_admitStep {s : State} {d b : Nat} : (s.admitStep d b).now = s.now := by
  unfold State.admitStep
  extract_lets
  split
  · rfl
  · split
    · rfl
    · next e => exact (State.now_of_tryEntry e :)

@[simp] theorem State.now_dropReserves (s : State) : s.dropReserves.now = s.now := rfl

@[simp] theorem Out.now_execBlockAdmission {d : Nat} {s : State} : Out.NowAt s.now (execBlockAdmission d s) := by
  unfold execBlockAdmission
  dsimp only
  repeat' split
  all_goals simp [State.now_foldl]

@[simp] theorem Out.now_execReservation {d : Nat} {s : State} : Out.NowAt s.now (execReservation d s) := by
  unfold execReservation
  repeat' split
  all_goals simp

@[simp] theorem State.now_wantPreempt (s : State) (b code : Nat) : (s.wantPreempt b code).now = s.now := by
  refine State.now_foldl (fun t a => ?_) _ _
  simp

@[simp] theorem Out.now_execQuantumPreemption {d : Nat} {s : State} : Out.NowAt s.now (execQuantumPreemption d s) := by
  unfold execQuantumPreemption
  dsimp only
  repeat' split
  all_goals simp

@[simp] theorem Out.now_execVfSliceEnd {p : Nat} {s : State} : Out.NowAt s.now (execVfSliceEnd p s) := by
  unfold execVfSliceEnd
  dsimp only
  repeat' split
  all_goals simp [State.now_foldl]

/-! ## The clock: the functions of `Machine/EvFetch` -/

@[simp] theorem Out.now_execIllegalInstruction {w : Word} {s : State} : Out.NowAt s.now (execIllegalInstruction w s) := by
  unfold execIllegalInstruction
  split <;> simp

@[simp] theorem Out.now_execInstructionFetchFault {cause : Nat} {addr : Dword} {s : State} :
    Out.NowAt s.now (execInstructionFetchFault cause addr s) := by
  unfold execInstructionFetchFault
  repeat' split
  all_goals simp

/-! ## The clock: the functions of `Machine/EvMigrate` -/

@[simp] theorem State.now_putStat {s : State} {m : Migr} {v : Nat} : (s.putStat m v).now = s.now := by
  unfold State.putStat
  cases e : s.writeSpace 0 m.stat (leBytes 8 v) with
  | none => rfl
  | some t => exact State.now_of_writeSpace e

@[simp] theorem State.now_startMigr {s : State} {id : Nat} {m : Migr} : (s.startMigr id m).now = s.now := by
  simp [State.startMigr]

@[simp] theorem State.now_endMigr {s : State} {id : Nat} {m : Migr} {v : Nat} : (s.endMigr id m v).now = s.now := by
  simp [State.endMigr]

@[simp] theorem State.now_copyLine {s : State} {m : Migr} {line : Nat} : (s.copyLine m line).now = s.now := by
  simp [State.copyLine]

@[simp] theorem State.now_startWaiting {s : State} : s.startWaiting.now = s.now := by
  unfold State.startWaiting
  split <;> simp

@[simp] theorem State.now_migrateClock {s : State} : s.migrateClock.now = s.now := by
  refine (State.now_foldl (fun t e => ?_) _ _).trans State.now_startWaiting
  split
  · rfl
  · dsimp only
    split
    · rfl
    · exact State.now_copyLine

@[simp] theorem Out.now_execMigrationPassEnd {id : Nat} {s : State} : Out.NowAt s.now (execMigrationPassEnd id s) := by
  unfold execMigrationPassEnd
  repeat' split
  all_goals simp

@[simp] theorem State.now_writeLeaves {s : State} {m : Migr} : (s.writeLeaves m).now = s.now :=
  State.now_foldl (fun t a => by simp) _ _

@[simp] theorem Out.now_execMigrationComplete {id : Nat} {s : State} : Out.NowAt s.now (execMigrationComplete id s) := by
  unfold execMigrationComplete
  split
  · rfl
  · dsimp only
    split
    · rfl
    · refine State.now_endMigr.trans ?_
      rw [State.now_invalidate]
      dsimp only
      split <;> exact State.now_writeLeaves.trans ((State.now_foldl (fun _ _ => State.now_copyLine) _ _).trans (by simp))

/-! ## The clock: the functions of `Machine/EvSplit` -/

@[simp] theorem Out.now_execJoinTimeout {b g k : Nat} {s : State} : Out.NowAt s.now (execJoinTimeout b g k s) := by
  unfold execJoinTimeout
  repeat' split
  all_goals simp

/-! ## The clock: the functions of `Machine/EvPreempt` -/

@[simp] theorem Out.now_execParkLimit {b : Nat} {s : State} : Out.NowAt s.now (execParkLimit b s) := by
  unfold execParkLimit
  dsimp only
  split <;> simp

@[simp] theorem Out.now_execAllBlockedSwapOut {b : Nat} {s : State} : Out.NowAt s.now (execAllBlockedSwapOut b s) := by
  simp [execAllBlockedSwapOut]

@[simp] theorem State.now_idleClock {s : State} {b : Nat} : (s.idleClock b).now = s.now := by
  unfold State.idleClock
  split
  · rfl
  · extract_lets n t
    have ht : t.now = s.now := rfl
    clear_value t
    split
    · split
      · exact (Out.now_execAllBlockedSwapOut.next ‹_›).trans ht
      · exact ht
    · exact ht

@[simp] theorem State.now_wantImage {s : State} {b code : Nat} : (s.wantImage b code).now = s.now := by
  unfold State.wantImage
  repeat' split
  all_goals simp

@[simp] theorem Out.now_execDistributorWaitcPoll {b : Nat} {s : State} :
    Out.NowAt s.now (execDistributorWaitcPoll b s) := by
  unfold execDistributorWaitcPoll
  dsimp only
  repeat' split
  all_goals simp

/-- An effect on the registers of the unit in focus leaves the clock alone. -/
theorem RegsOnly.now_eq {ls D U P : List Nat} {s t : State} (h : RegsOnly ls D U P s t) : t.now = s.now := by
  unfold RegsOnly at h
  split at h
  · exact (congrArg State.now h.1 :)
  · exact (congrArg State.now h.1 :)
  · rw [h]

/-- The instructions that only change registers leave the clock alone. -/
theorem Out.now_exec_of_regWrites {i : Instr} {g : Pred} {w : RegSet} {s : State} (h : regWrites i = some (g, w)) :
    Out.NowAt s.now (exec i s) := by
  obtain ⟨eff, hx, heff⟩ := exists_effect_of_regWrites h
  rw [hx s]
  by_cases hi : s.issuing = true
  · exact Out.now_laneSimple (heff.frame s hi).now_eq
  · simp [laneSimple, laneRun, hi]

/-! ## The clock: the functions of `Machine/Dispatch` -/

/-- Every lane instruction leaves the clock alone. -/
theorem Out.now_exec {i : Instr} {g : Pred} {s : State} (h : laneGuard i = some g) : Out.NowAt s.now (exec i s) := by
  cases i <;> cases h
  case iadd | isub | iaddc | lea | imlo | imhiS | imhiZ | imac | idivS | idivZ | iabs | ineg | iminS | iminZ | imaxS | imaxZ |
      and | or | xor | andn | not | clz | popc | brev | mov | shl | shr | sar | rol | bfxS | bfxZ | bfi | moviV | movhiV |
      moviS | movhiS | icmp | sel | pand | por | pxor | pnot | pdot | pwiden | pnarrow | padd | psub | pmul | pmin | pmax |
      pcmpEq | pcmpLt | fcmp | cvt | fadd | fsub | fmul | ffma | fmin | fmax | fclass | pfmaF16 | pfmaBf16 | fexp2 |
      flog2 | frcp | frsq | fsqrt | fsinpi | fcospi | ftanh | fsigm | fgelu | fsilu | ferf =>
    exact Out.now_exec_of_regWrites rfl
  all_goals unfold exec
  case qscale | qpack | qunpk | cvtFw =>
    exact Out.now_fwRun fun _ _ _ _ => by simp
  case voteAll | voteAny | voteBal | voteEq | shflIdx | shflUp | shflDn | shflXor | redux | scanInc | scanExc =>
    exact Out.now_collectiveRun fun _ _ => by simp
  case bra => exact Out.now_execBra
  case braEj => exact Out.now_execBraEj
  case call => exact Out.now_execCall
  case brx => exact Out.now_execBrx
  case callx => exact Out.now_execCallx
  case ret => exact Out.now_execRet
  case join => exact Out.now_execJoin
  case exit => exact Out.now_execExit
  case eret => exact Out.now_execEret
  case live => exact Out.now_execLive
  case yield => exact Out.now_execYield
  case trap => exact Out.now_execTrap
  case ld | ldW | ldD | ldQ => exact Out.now_loadRun
  case st | stW | stD | stQ => exact Out.now_storeRun
  case lds | ldsW => exact Out.now_ldsRun
  case sts | stsW => exact Out.now_stsRun
  case smap => exact Out.now_execSmap
  case pref => exact Out.now_execPref
  case fenceAcq => exact Out.now_execFenceAcq
  case fenceRel => exact Out.now_execFenceRel
  case fenceAr => exact Out.now_execFenceAr
  case atomAdd | atomMinS | atomMinZ | atomMaxS | atomMaxZ | atomAnd | atomOr | atomXor | atomExch | incw | decw |
      atomAddb | atomCasW | atomCasD | atomCasQ =>
    exact Out.now_atomRun
  case waitc => exact Out.now_execWaitc
  case give => exact Out.now_execGive
  case take => exact Out.now_execTake
  case barSync | barArr | barWait => exact Out.now_barRun
  case rwait => exact Out.now_execRwait
  case rdone => exact Out.now_execRdone
  case eset => exact Out.now_execEset
  case eget => exact Out.now_laneSimple (by simp)
  case ecmdGo | sparseIndexGo | copy => exact Out.now_goRun fun _ _ => by simp
  case ecmdClear | sparseIndexClear | lodestarClear => exact Out.now_clearRun
  case lodestarGo => exact Out.now_execLodestarGo
  case ewait => exact Out.now_execEwait
  case cbarSync | cbarArr | cbarWait => exact Out.now_cbarRun
  case dbar => exact Out.now_execDbar
  case emit => exact Out.now_execEmit
  case mfs => exact Out.now_execMfs
  case mts => exact Out.now_execMts
  case ctxsv =>
    refine Out.now_ctxRun (fun _ _ _ e => ?_) fun _ _ => Out.nowAt_next.mpr State.now_ctxSave
    obtain ⟨-, ⟨⟩⟩ := Option.ite_none_left_eq_some.mp e
    simp
  case ctxld =>
    refine Out.now_ctxRun (fun _ _ _ e => ?_) fun _ _ => Out.nowAt_next.mpr State.now_ctxLoad
    obtain ⟨-, ⟨⟩⟩ := Option.ite_none_right_eq_some.mp e
    exact State.now_trapWith

/-! ## The clock: the functions of `Machine/SeqTurn` -/

@[simp] theorem State.now_runInstr {i : Instr} {g : Pred} {s : State} (h : laneGuard i = some g) :
    (runInstr i s).now = s.now := by
  unfold runInstr
  split
  · exact (Out.now_exec h).next ‹_›
  · rfl

/-- What has no guard of a lane instruction has no lane word. -/
theorem laneCode_of_laneGuard_eq_none {i : Instr} (h : laneGuard i = none) : laneCode i = none := by
  cases i <;> cases h <;> rfl

theorem laneGuard_of_decodeLane {w lit : Word} {i : Instr} (h : decodeLane w lit = some i) : ∃ g, laneGuard i = some g := by
  obtain ⟨c, hc, -⟩ := Sys2Proof.Laws.Inverse.encodes_of_decLaneRaw (Sys2Proof.Laws.Inverse.decodeLane_eq_some h).1
  refine Option.isSome_iff_exists.mp (Option.isSome_iff_ne_none.mpr fun hg => ?_)
  rw [laneCode_of_laneGuard_eq_none hg] at hc
  cases hc

@[simp] theorem State.now_reserveStep (s : State) (b : Nat) : (s.reserveStep b).now = s.now := by
  unfold State.reserveStep
  dsimp only
  repeat' split
  all_goals simp [State.now_foldl]

/-! ## The clock: the functions of `Machine/Turns` -/

@[simp] theorem State.now_settleOut {o : Out} {s : State} (ho : o.NowAt s.now) : (settleOut o s).now = s.now := by
  unfold settleOut
  split
  · exact ho
  · exact rfl

@[simp] theorem State.now_runWord {s : State} {w : Word} : (s.runWord w).now = s.now := by
  unfold State.runWord
  split
  · exact State.now_settleOut Out.now_execIllegalInstruction
  · next hd =>
    obtain ⟨_, hg⟩ := laneGuard_of_decodeLane hd
    split
    · exact State.now_runInstr hg
    · extract_lets va t
      have ht : t.now = s.now := by simp [t]
      split
      · exact State.now_settleOut Out.now_execInstructionFetchFault
      · split
        · next hj =>
          obtain ⟨_, hgj⟩ := laneGuard_of_decodeLane hj
          exact (State.now_runInstr hgj).trans ht
        · exact (State.now_settleOut Out.now_execIllegalInstruction).trans ht
      · simp

@[simp] theorem State.now_unitStep {s : State} : s.unitStep.now = s.now := by
  unfold State.unitStep
  split <;> simp

/-! ## The clock: the functions of `Machine/Clock` -/

@[simp] theorem State.now_tryUnit {s : State} {f : Focus} : (s.tryUnit f).2.now = s.now := by
  unfold State.tryUnit
  dsimp only
  split <;> simp

@[simp] theorem State.now_tryUnits {s : State} {fs : List Focus} : (s.tryUnits fs).2.now = s.now := by
  induction fs generalizing s with
  | nil => rfl
  | cons f fs ih => exact ih.trans State.now_tryUnit

@[simp] theorem State.now_arbitrate (s : State) (can : List Focus) (f p : Nat) : (s.arbitrate can f p).2.now = s.now := by
  have hskip {l : List ReadyGroup} {n : Group → Nat} {t : State} :
      (l.foldl (fun t r => t.modGrp r.blk r.slot fun g => { g with skipped := n g }) t).now = t.now :=
    State.now_foldl (fun _ _ => by rfl) _ _
  have h2 (l m : List ReadyGroup) :
      (m.foldl (fun t r => t.modGrp r.blk r.slot fun g => { g with skipped := g.skipped + 1 })
        (l.foldl (fun t r => t.modGrp r.blk r.slot fun g => { g with skipped := 0 }) s)).now = s.now := hskip.trans hskip
  unfold State.arbitrate
  dsimp only
  repeat' split
  all_goals simpa using h2 _ _

@[simp] theorem State.now_arbitrateAll (s : State) (can : List Focus) (ps : List (Nat × Nat)) :
    (s.arbitrateAll can ps).2.now = s.now := by
  induction ps generalizing s with
  | nil => rfl
  | cons p ps ih => exact (ih _).trans (State.now_arbitrate ..)

theorem State.now_run {s : State} {f : State → Out} (hf : (f s).NowAt s.now) : (s.run f).now = s.now :=
  State.now_settleOut hf

@[simp] theorem State.now_joinClock {s : State} : s.joinClock.now = s.now := by
  unfold State.joinClock
  exact State.now_foldl (fun _ _ => State.now_run Out.now_execJoinTimeout) _ _

@[simp] theorem State.now_swapClock {s : State} : s.swapClock.now = s.now := by
  unfold State.swapClock
  dsimp only
  refine (State.now_foldl (fun u p => ?_) _ _).trans (State.now_foldl (fun u b => ?_) _ _)
  · split
    · exact State.now_run Out.now_execVfSliceEnd
    · rfl
  · exact State.now_idleClock.trans (State.now_run Out.now_execParkLimit)

@[simp] theorem State.now_moveClock {s : State} : s.moveClock.now = s.now := by
  unfold State.moveClock
  dsimp only
  refine (State.now_foldl (fun u e => State.now_run Out.now_execMigrationComplete) _ _).trans ?_
  exact (State.now_foldl (fun u e => State.now_run Out.now_execMigrationPassEnd) _ _).trans State.now_migrateClock

@[simp] theorem State.now_fabClock {s : State} : s.fabClock.now = s.now := by
  unfold State.fabClock
  dsimp only
  refine (State.now_foldl (fun u e => ?_) _ _).trans ?_
  · rw [State.tickFree_now]
    exact State.now_run Out.now_execPortRetrainEnd
  · rw [State.now_fabricClock]
    exact State.now_sendRemote

@[simp] theorem State.now_endClock {s : State} : s.endClock.now = s.now := by
  unfold State.endClock
  extract_lets s1 s2 s3 s4
  have h2 : s2.now = s.now := by
    refine (State.now_foldl (fun t b => ?_) _ _).trans State.now_joinClock
    simp
  have h4 : s4.now = s.now := (State.now_foldl (fun t e => State.now_dbarMaster) _ _).trans (State.now_fabClock.trans h2)
  simp [h4]

@[simp] theorem State.now_windows {s : State} : s.windows.now = s.now := by
  have hfold {ns : List Nat} {f : State → Nat → State} {c : Prop} [Decidable c] {t : State}
      (hf : ∀ u n, (f u n).now = u.now) : (if c then ns.foldl f t else t).now = t.now := by
    split
    · exact State.now_foldl hf _ _
    · rfl
  unfold State.windows
  extract_lets s2 s3 s4
  have h2 : s2.now = s.now := by
    refine State.now_foldl (fun t m => ?_) _ _
    split
    · exact State.now_run Out.now_execBudgetWindow
    · rfl
  have h4 : s4.now = s.now :=
    (hfold fun u _ => State.now_run Out.now_execEnergyWindowEnd).trans
      ((hfold fun u _ => State.now_run Out.now_execCounterSample).trans h2)
  split
  all_goals exact h4

@[simp] theorem State.now_wakeClock {s : State} : s.wakeClock.now = s.now := by
  unfold State.wakeClock
  dsimp only
  rw [State.now_reenter]
  refine (State.now_foldl (fun u b => State.now_run Out.now_execDistributorWaitcPoll) _ _).trans ?_
  have hpoll {c : Bool} {u : State} {b g k : Nat} :
      (if c = true then (u.run (execWaitcPoll b g k)).run (execEmitWake b g k) else u).now = u.now := by
    split
    · exact (State.now_run Out.now_execEmitWake).trans (State.now_run Out.now_execWaitcPoll)
    · rfl
  refine State.now_foldl (fun u e => ?_) _ _
  split
  · exact (State.now_run Out.now_execEmitWake).trans ((State.now_run Out.now_execWaitcReevaluate).trans hpoll)
  · exact hpoll

@[simp] theorem State.now_distClock {s : State} : s.distClock.now = s.now := by
  unfold State.distClock
  extract_lets s1 s2 s3 s4
  have h1 : s1.now = s.now := State.now_foldl (fun _ _ => State.now_queueClock) _ _
  have h3 : s3.now = s.now :=
    (State.now_foldl (fun _ _ => State.now_run Out.now_execReservation) _ _).trans
      ((State.now_foldl (fun _ _ => by simp) _ _).trans h1)
  have h4 : s4.now = s.now := by
    dsimp only [s4]
    split
    · exact (State.now_foldl (fun _ _ => State.now_run Out.now_execBlockAdmission) _ _).trans h3
    · exact h3
  split
  · exact h1
  · exact (State.now_foldl (fun _ _ => State.now_run Out.now_execQuantumPreemption) _ _).trans h4

/-- A clock's number rises as it begins, and nothing else of the beginning moves it. -/
theorem State.now_beginClock {s : State} : s.beginClock.now = s.now + 1 := by
  unfold State.beginClock
  dsimp only
  refine (State.now_foldl (fun _ _ => State.now_wantImage) _ _).trans ((State.now_foldl (fun _ _ => by simp) _ _).trans ?_)
  exact State.now_distClock.trans (State.now_wakeClock.trans State.now_windows)

@[simp] theorem State.now_clearYields (s : State) : s.clearYields.now = s.now := rfl
theorem State.now_clock {s : State} : s.clock.now = s.now + 1 := by simp [State.clock, State.now_beginClock]

end Sys2Proof.Machine

end


section

/-!
PROOFS. The steps of the other turns, and the clock: the statement O8.
-/

namespace Sys2Proof.Machine

set_option linter.constructorNameAsVariable false

theorem State.now_unfocus (s : State) : ({ s with focus := .idle } : State).now = s.now := rfl

theorem step_tick {s : State} (ha : s.agenda = []) : step s = .next { s.clock with focus := .idle } := by
  simp only [step, ha, State.takeTurn, Turn.always, Bool.not_true, Bool.and_false, Bool.false_eq_true, if_false, unfocus]

/-- With no turn left the machine takes a clock, which raises its number by 1. -/
theorem step_of_no_turn {s : State} (ha : s.agenda = []) : ∃ t, step s = .next t ∧ t.now = s.now + 1 :=
  ⟨_, step_tick ha, (State.now_unfocus s.clock).trans State.now_clock⟩

theorem State.now_keepFetch (s : State) (p : Site) (va : Nat) : (s.keepFetch p va).now = s.now := by
  unfold State.keepFetch
  split
  · exact State.now_useEntry ..
  · rfl

section
variable {s u : State} {ts : List Turn} (hu : u = { s with agenda := ts })
include hu

theorem step_event {i : Instr} {t : State} (ha : s.agenda = .event i :: ts) (hh : s.halted = false)
    (hx : Sys2Proof.Machine.exec i u = .next t) : step s = .next { t with focus := .idle } := by
  subst hu
  exact step_turn ha ((State.takeTurn_event (by exact hh) i).trans hx)

theorem step_comet {c : Nat} (ha : s.agenda = .comet c :: ts) (hh : s.halted = false) :
    step s = .next { u.cometTurn c with focus := .idle } := by
  subst hu
  exact step_turn ha (State.takeTurn_comet (by exact hh) c)

end

/-- Settles O8: each turn by the equation of its kind, and the clock by what its beginning does to its number. -/
theorem stepRunsOtherTurns : Obligations.StepRunsOtherTurns := by
  unfold Obligations.StepRunsOtherTurns
  refine ⟨fun s u x ts ha hu => ⟨?_, ?_, ?_, ?_, ?_⟩, fun s u c ts ha hh hu hr => ?_, fun s => step_of_no_turn⟩
  · rintro i t rfl hh hx
    exact step_event hu ha hh hx
  · rintro m r a i t rfl hh hen hrun hslot hd hx
    subst hu
    refine step_turn ha ((State.takeTurn_filter (by exact hh) m).trans ?_)
    rw [State.filterTurn_of_word rfl (by exact hen) (by exact hrun) (by exact hslot) hd hx]
  · rintro b v y d js rfl hh hv hs hm hres hd hp hjs hchk hy hc hn hat hpend hboard
    subst hu
    refine step_turn ha ((State.takeTurn_seqr (by exact hh) b).trans ?_)
    have hissue : (v.keepFetch v.site (v.seq b).pc.toNat).tryBundle b d = y.issueBundle b d js :=
      State.tryBundle_of_passes (by rwa [State.seq_keepFetch]) (by rwa [State.seq_keepFetch]) (by rwa [State.now_keepFetch])
        (by rwa [State.seq_keepFetch]) hn hat hpend hboard
    rw [State.seqTurn_of_bundle hv hs hm hres hd hp, hissue]
  · rintro b gr k v rfl hh hr hv hheld
    subst hu
    refine step_turn ha ((State.takeTurn_parity (by exact hh) _).trans ?_)
    rw [State.parityTurn_of_split hv (by exact hr) hheld]
  · intro hh h1 h2
    rw [hu]
    exact step_halted ha hh (Turn.always_eq_false h1 h2)
  · rw [step_comet hu ha hh]
    refine ⟨fun v y d w hw hd hv hf hy => ?_, fun v y w i t hw hst hv hf hy hd hl hx => ?_,
      fun n k hw => ⟨fun h => ?_, fun h => ?_⟩⟩
    · have hturn : u.cometTurn c = cometIssuedBy v (y.runWord w) d := by
        rw [State.cometTurn_of_cycle hr hw hd hv, State.unitStep_of_fetch hf, hy]
      rw [hturn]
      refine ⟨fun i t hdec hl hx => ?_, fun i j x t hdec hl hx hj ht => ?_⟩
      · rw [State.runWord_word hdec hl hx]
      · rw [State.runWord_literal hdec hl hx hj ht]
    · have hfoc : v.focus = .comet c := by rw [hv]
      rw [State.cometTurn_of_wait hr hw hv, State.retryStep_of_comet_word hfoc (by subst hv; exact hst),
        State.unitStep_of_fetch hf, ← hy, State.runWord_word hd hl hx]
    all_goals obtain ⟨v, hv⟩ : ∃ v : State, v = { u with focus := .comet c } := ⟨_, rfl⟩
    all_goals rw [State.cometTurn_of_stamps hv hr hw]
    · rw [State.emitDone_of_pending (by rw [hv]; exact h), hv]
    · rw [State.emitDone_of_performed (by rw [hv]; exact h)]
      obtain ⟨hpc, hwait, hmem, hst⟩ := State.comet_skip (s := v) (c := c) (by rw [hv])
        (by rw [hv]; exact State.has_of_cometReady hr) 4
      subst hv
      exact ⟨_, rfl, hpc, hwait, hmem, hst⟩

end Sys2Proof.Machine

end
